-- ==== Sys2Proof/Word.lean ====
section
/-! DEFINITION. The word types of the CHT9410 and the plainest readings of them (spec/00 R9, R10). -/

namespace Sys2Proof

/-- One byte. -/
abbrev Byte := BitVec 8

/-- A 32-bit word: a handle, a ring index, a lane register. -/
abbrev W32 := BitVec 32

/-- A 64-bit word: a register, a fence value, an address field. -/
abbrev W64 := BitVec 64

/-- A 64 B descriptor, command or record as one bit string (spec/00 R9: bit 0 is the least significant). -/
abbrev W512 := BitVec 512

/-- The field [hi:lo] of a word, as a number (spec/00 R9). -/
def bits {n : Nat} (w : BitVec n) (hi lo : Nat) : Nat := (w.toNat >>> lo) % 2 ^ (hi + 1 - lo)

/-- The single bit [i] of a word (spec/00 R9). -/
def bit {n : Nat} (w : BitVec n) (i : Nat) : Bool := w.toNat.testBit i

/-- The field [hi:lo] of a number read as a bit string. -/
def nbits (w hi lo : Nat) : Nat := (w >>> lo) % 2 ^ (hi + 1 - lo)

/-- A number whose field [hi:lo] is replaced by `v` (only the low bits of `v` that fit). -/
def nput (w hi lo v : Nat) : Nat :=
  (w >>> (hi + 1)) <<< (hi + 1) + (v % 2 ^ (hi + 1 - lo)) <<< lo + w % 2 ^ lo

end Sys2Proof
end

