-- ==== Sys2Proof/Syntax.lean ====
section
/-! DEFINITION. The commands of the CHT9410: one constructor per row of spec/opcode_table.json, with its operands. -/

namespace Sys2Proof

/-! ## Operands -/

/-- The two accession requesters (spec/02 R47). -/
inductive Requester where
  | host | fw
  deriving DecidableEq, Repr

/-- A firmware command's ring and tag (spec/17 R509): the function whose ring carries it. `index`: on twin B of an attached
pair, the index that firmware of A gives to a create (spec/16 R472; log 114). -/
structure Call where
  func : Fin 64
  tag : W32
  index : Nat
  deriving DecidableEq, Repr

/-- What a unit finds of errors in the data it works on and in its own state (spec/16 R488): none that is not corrected; an
uncorrectable one in data of a context; an uncorrectable one in the unit's control state. -/
inductive UnitErr where
  | none | data | control
  deriving DecidableEq, Repr

/-- A unit, or a piece of work, at its next step, and what the unit finds of errors as it takes it (spec/16 R488). -/
structure Found (α : Type) where
  item : α
  err : UnitErr
  deriving DecidableEq, Repr

/-- A unit with a progress monitor (spec/16 R491, R496). -/
inductive UnitRef where
  | quad (n : Fin 64) | cluster (n : Fin 16) | media (n : Fin 16) | port (n : Fin 8) | device
  deriving DecidableEq, Repr

/-- The kinds of access of spec/04 R113 and R118. -/
inductive AccessKind where
  | read | write | fetch | atomic
  deriving DecidableEq, Repr

/-- The fetchers of spec/05 R139: a carrel front end, a compositor context, an encode core, a Bindery engine, the
Circulation send fetcher. -/
inductive Fetcher where
  | slot (n : Fin 48) | comp (n : Fin 256) | enc (n : Fin 12) | bind (n : Fin 4) | send
  deriving DecidableEq, Repr

/-- A descriptor at work: queue index (8,192 names the Acvik window queue, spec/05 R164), descriptor index, and the
node for a node of a graph launch (spec/03 R101). -/
structure Work where
  q : Fin 8193
  i : W32
  node : Option (Fin 4096)
  deriving DecidableEq, Repr

/-- A contention report of one request (spec/06 R185, R186): the CORE cycles that count for its slot, and for each other
slot (0xFE for the media hub or the management core) in how many of them a request of it was accepted or served. -/
structure Stall where
  cycles : Nat
  served : List (Nat × Nat)
  deriving DecidableEq, Repr

/-- A unit that issues translated accesses (spec/04 R114, R118; spec/07 R189, R193): the thread lanes and the tensor
engines of a core; the front end, the copy unit and the switch-image mover of a slot; a Pricking binner, a rasterizer and
a Bobbin engine, with the quad on whose behalf it issues; and in the media hub an encode core, a Bindery engine, a
compositor context and a Circulation port. -/
inductive Site where
  | lanes (core : Nat) | tensor (core : Nat) | frontEnd (slot : Nat) | copyUnit (slot : Nat) | image (slot : Nat)
  | binner (quad : Nat) | raster (quad : Nat) | bobbin (b quad : Nat)
  | encoder (n : Nat) | bindery (n : Nat) | couching (n : Nat) | port (n : Nat)
  deriving DecidableEq, Repr

/-- A unit of the media hub. -/
def Site.isHub : Site → Bool
  | .encoder _ | .bindery _ | .couching _ | .port _ => true
  | .lanes _ | .tensor _ | .frontEnd _ | .copyUnit _ | .image _ | .binner _ | .raster _ | .bobbin _ _ => false

/-- Who issues a transaction (spec/07 R214): a unit on behalf of a slot, a walker (0 to 15 of the clusters, 16 and 17 of
the media hub) for a context, a unit in carve-out mode, a unit of the media hub for a context, the management core, the
host link, Selvage. -/
inductive Issuer where
  | unit (slot : Fin 48) (site : Site) | walker (n : Fin 18) (asid : Fin 4096) | carve (slot : Fin 48) (site : Site)
  | hub (ctx : W32) (site : Site) | mgmt | hostLink | selvage
  deriving DecidableEq, Repr

/-- A request-table share (spec/07 R196): a quad's share, or an edge reserve of a row for its west port or its hub port. -/
inductive Share where
  | quad (q : Fin 64) | west (row : Fin 4) | hub (row : Fin 4)
  deriving DecidableEq, Repr

/-- One read, write or atomic of at most one line (spec/07 R195). `rt`: a real-time descriptor issues it (spec/06 R175). -/
structure TxnReq where
  issuer : Issuer
  share : Share
  kind : AccessKind
  addr : W64
  len : Nat
  data : List Byte
  rt : Bool
  stall : Stall
  deriving DecidableEq, Repr

/-- How a transaction's response arrives (spec/07 R207, R216, R217; spec/04 R107; spec/16 R467); `control`: a unit on its
way finds an uncorrectable error in its own control state (spec/16 R488). -/
inductive Resp where
  | ok | corrected | uncorrectable | hostError | twinData (bytes : List Byte) | twinRefused | twinError
  | control (u : UnitRef)
  deriving DecidableEq, Repr

/-- What an error-correcting read finds (spec/07 R207, R216). -/
inductive Ecc where
  | clean | single | double
  deriving DecidableEq, Repr

/-- A subgroup, named by its core, its group slot and one of its active lanes (spec/08 R222, R227), and what the core
finds of errors as its instruction executes (spec/16 R488). -/
structure SgRef where
  core : Fin 256
  slot : Fin 64
  lane : Fin 32
  err : UnitErr
  deriving DecidableEq, Repr

/-- A lane register (spec/08 R225). -/
abbrev Reg := Fin 256

/-- INT-class operations (spec/08 R242, spec/10 R324). -/
inductive IntOp where
  | add | sub | mul | and | or | xor | shl | shr | sar | minS | minU | maxS | maxU
  | eq | ne | ltS | ltU | leS | leU | select
  deriving DecidableEq, Repr

/-- FP32-class operations (spec/08 R242, spec/10 R319). -/
inductive FpOp where
  | fma | add | mul | min | max | eq | ne | lt | le | gt | ge
  deriving DecidableEq, Repr

/-- PACKED-class operations on two FP16 or two BF16 values (spec/08 R242, spec/10 R320, R321). -/
inductive PkOp where
  | fma | add | min | max
  deriving DecidableEq, Repr

/-- The element formats of spec/10 R302 and R305. -/
inductive Fmt where
  | fp32 | bf16 | fp16 | e4m3 | e5m2 | e3m2 | e2m3 | e2m1 | int32 | uint32 | int8 | int4
  deriving DecidableEq, Repr

/-- TRANS-class operations (spec/10 R323). -/
inductive TransOp where
  | rcp | sqrt | rsqrt | exp2 | log2 | sin | cos
  deriving DecidableEq, Repr

/-- LANE-class operations (spec/08 R242). -/
inductive LaneOp where
  | shuffle | voteAny | voteAll | ballot | prefixSum | broadcast
  deriving DecidableEq, Repr

/-- BRANCH-class instructions (spec/08 R227): a conditional branch on a register being non-zero, an unconditional
branch, an indirect branch, a call or a return to the address in a register pair. -/
inductive BrOp where
  | cond (r : Reg) (target : W64) | always (target : W64) | indirect (r : Reg) | call (target : W64) (link : Reg)
  | callReg (r : Reg) (link : Reg) | ret (r : Reg)
  deriving DecidableEq, Repr

/-- Special registers (spec/08 R238, spec/12 R382). -/
inductive SReg where
  | lane | group | groups | regs | localKib | blockX | blockY | blockZ | crank | csize | rank | core | arg | lmBase
  | slot | tick | time | closing | tileBase | tile
  deriving DecidableEq, Repr

/-- Scopes (spec/08 R262). -/
inductive Scope where
  | group | block | device | system
  deriving DecidableEq, Repr

/-- Ordering of an access (spec/08 R263). -/
inductive Order where
  | rlx | acq (s : Scope) | rel (s : Scope) | ar (s : Scope)
  deriving DecidableEq, Repr

/-- The size or the operation of an access of the lanes, and its ordering (spec/08 R263). -/
structure Ordered (α : Type) where
  item : α
  ord : Order
  deriving DecidableEq, Repr

/-- How a device store is made: its ordering (spec/08 R263), and whether its lines reach memory later, each at the response of its
transaction (R264 to R266). -/
structure StoreMode where
  ord : Order
  late : Bool
  deriving DecidableEq, Repr

/-- Destination and source of a frame. -/
structure Ends (α : Type) where
  dst : α
  src : α
  deriving DecidableEq, Repr

/-- The partner's nonce of the identity exchange, and whether the partner has verified what this twin signed (spec/16 R469, R471). -/
structure NonceShown where
  nonce : List Byte
  verified : Bool
  deriving DecidableEq, Repr

/-- What holds the commands of a Bobbin engine in a step: the quads whose command waits for read data, a request-table entry or a
local-memory port, and the CORE cycles that the step adds to the waits of other slots (spec/11 R328). -/
structure BobWaits where
  quads : List (Fin 4)
  cycles : Nat
  deriving DecidableEq, Repr

/-- Atomic operations (spec/08 R252). -/
inductive AtOp where
  | add | min | max | and | or | xor | xchg | cas
  deriving DecidableEq, Repr

/-- Atomic operand types (spec/08 R252). -/
inductive AtTy where
  | u32 | s32 | u64 | s64 | fp32 | fp16x2 | bf16x2
  deriving DecidableEq, Repr

/-- A local access (spec/08 R242) with its ordering (R263): load, store, or atomic; `d` the result, `a` the address
register, `b` the data, `c` the compare value of a CAS. -/
inductive LmAcc where
  | load (size : Nat) (d a : Reg) (ord : Order) | store (size : Nat) (a b : Reg) (ord : Order)
  | atom (op : AtOp) (ty : AtTy) (d a b c : Reg) (ord : Order)
  deriving DecidableEq, Repr

/-- Form of a message operand (spec/08 R258): from or to registers, or a local address in a register. -/
inductive MsgForm where
  | regs (r : Reg) | mem (r : Reg)
  deriving DecidableEq, Repr

/-- Matrix instructions that an engine queues (spec/09 R278). -/
inductive MatKind where
  | mma | mstore | mldacc | mloadb
  deriving DecidableEq, Repr

/-- What the partner reports of itself for an attach (spec/16 R469 to R471, R476): its charter, Hoop and period, whether it
holds contexts or has an accession pending, its strap, whether its own ATTACH has been written (`present`) and how many ticks
ago (`waited`), and its number of carrel slots. -/
structure PartnerFacts where
  charter : Bool
  hoopRunning : Bool
  period : W64
  margin : W64
  holdsCtx : Bool
  accPending : Bool
  strap : Bool
  present : Bool
  waited : Nat
  slots : Nat
  deriving DecidableEq, Repr

/-- A ring setting of a stream (spec/15 R442): kind, base, entries, head address and fence handle. -/
structure RingSet where
  kind : Nat
  entries : Nat
  base : W64
  head : W64
  fence : W32
  deriving DecidableEq, Repr

/-- One changed entry of a mirror (spec/16 R474): an object or a stream as it stands, one register of a carrel slot or of a
composition target, an accession slot in ARMED with the values it stages, or an object or a stream that is no more. -/
inductive MirrorEntry where
  | ctx (h : W32) (lost destroying : Bool) (reason : Fin 256) (root : W64) (slot : Fin 256)
  | queue (h ctx fence : W32) (cls : Fin 7) (rt : Bool) (ring : W64) (entries : Nat) (halted draining : Bool)
      (tail retired : W32) (tokens : Fin 65536) (haltIdx : W32) (haltStatus : Fin 256) (bQc bHb bUc : W32)
  | fence (h ctx : W32) (value mirror : W64) (shared lost : Bool) (stale : Fin 65536)
  | event (h fence : W32) (v step : W64)
  | graph (h ctx : W32) (tableA tableB : W64) (countA countB : Nat) (genA genB : W32) (cur : Option Bool)
  | carrel (off : Nat) (v : W64)
  | target (off : Nat) (v : W64)
  | stream (n : Fin 256) (ctx : W32) (srec : Nat) (status : W64) (rate : Nat) (msg : W32) (grant : Fin 64)
      (rings : List RingSet)
  | armed (slot tick : Nat) (staged : List (Nat × W64))
  | gone (h : W32)
  | streamGone (n : Fin 256)
  deriving DecidableEq, Repr

/-- Messages on the CTL channel (spec/16 R467). -/
inductive CtlMsg where
  | identity (chain nonce sig : List Byte) | handshake | mirror (entries : List MirrorEntry) | move (ctxs : List W32) | failed
  | detach (move : Bool)
  deriving DecidableEq, Repr

/-- The instructions of the debug port (spec/20 R590). -/
inductive JtagInstr where
  | bypass | idcode | samplePreload | extest | extestPulse | extestTrain
  deriving DecidableEq, Repr

/-- Where a register access enters: BAR0 or BAR2 of a function (spec/19 R564, R573), or the management core, which
reaches every BAR0 register (spec/17 R500). -/
inductive Bar where
  | bar0 | bar2 (f : Fin 64) | mgmt
  deriving DecidableEq, Repr

/-- How the reads of host memory by the boot ROM end (spec/17 R506): all completed, or one was completed with Unsupported
Request or Completer Abort, in the charter or the image, in its header or its body. -/
inductive BootRead where
  | done | failed (image : Bool) (body : Bool)
  deriving DecidableEq, Repr

/-! ## Commands -/

/-- The commands, in the order of spec/opcode_table.json. -/
inductive Instr where
  | hoopStart
  | edge
  | marginStart
  | cutoff
  | settleDone (slot : Fin 48)
  | shadowWrite (r : Requester) (off size : Nat) (v : W64)
  | accOpen (r : Requester)
  | accCommit (r : Requester)
  | accAbort (r : Requester)
  | accRelease (r : Requester) (arg : Fin 8)
  | accCheckEnd (slot : Fin 4)
  | quotaSet (c : Call) (func type quota : W32)
  | ctxCreate (c : Call) (root : W64)
  | ctxDestroy (c : Call) (h : W32)
  | ctxMarkLost (c : Call) (h : W32)
  | ctxQuery (c : Call) (h : W32)
  | ctxStandby (c : Call) (h : W32) (root : W64) (slot : W32)
  | qCreate (c : Call) (ctx cls : W32) (ring : W64) (entries rt fence : W32)
  | qDestroy (c : Call) (h : W32)
  | fenceCreate (c : Call) (ctx : W32) (init : W64) (shared : W32) (mirror : W64)
  | fenceSignal (c : Call) (h : W32) (v : W64) (others : List W64)
  | fenceQuery (c : Call) (h : W32)
  | fenceDestroy (c : Call) (h : W32)
  | eventRingSet (c : Call) (addr : W64) (entries vector : W32)
  | eventCreate (c : Call) (fence : W32) (v step : W64)
  | eventDestroy (c : Call) (h : W32)
  | graphCreate (c : Call) (ctx : W32)
  | graphPublish (c : Call) (h : W32) (table : W64) (count : W32)
  | graphDestroy (c : Call) (h : W32)
  | faultRingSet (c : Call) (addr : W64) (entries : W32)
  | slowTableSet (c : Call) (addr : W64)
  | streamOpen (c : Call) (stream ctx : W32) (srec status : W64)
  | streamRing (c : Call) (stream kind : W32) (base : W64) (entries : W32) (head : W64) (fence : W32)
  | streamKey (c : Call) (stream dir keyId : W32) (addr : W64)
  | streamClose (c : Call) (stream : W32)
  | accRequest (c : Call) (list : W64) (count target : W32)
  | daybookSet (c : Call) (addr : W64) (entries : W32)
  | marginSet (c : Call) (mask : W64)
  | fwRingBase (f : Fin 64) (cpl : Bool) (v : W64)
  | heartbeat (f : Fin 64) (v : W64)
  | pageWalkComplete (walk : Found Nat) (stall : Stall)
  | faultRecordWrite (f : Fin 64)
  | faultHeadPoll (f : Fin 64)
  | faultRetry (f : Fin 64) (fid : BitVec 16)
  | faultNotMapped (f : Fin 64) (fid : BitVec 16)
  | mmuInval (f : Fin 64) (ctx token : W32)
  | invalDone (f : Fin 64)
  | qDoorbell (f : Fin 64) (q : Fin 8192) (off size : Nat) (v : W64)
  | qResumeRetry (f : Fin 64) (q : Fin 8192) (off size : Nat) (gen : BitVec 16)
  | qResumeSkip (f : Fin 64) (q : Fin 8192) (off size : Nat) (gen : BitVec 16)
  | queueResumeEffect (q : Fin 8193)
  | descriptorTake (f : Fetcher)
  | descriptorArm (q : Fin 8193) (i : W32)
  | nop (w : Work)
  | wait (w : Work)
  | signal (w : Work)
  | waitTick (q : Fin 8193) (i : W32)
  | budget (q : Fin 8193) (i : W32)
  | kernel (w : Work)
  | graphLaunch (q : Fin 8193) (i : W32)
  | renderPass (w : Work)
  | copy (w : Work)
  | fill (w : Work)
  | compose (q : Fin 8193) (i : W32)
  | encode (q : Fin 8193) (i : W32)
  | bind (q : Fin 8193) (i : W32)
  | send (q : Fin 8193) (i : W32)
  | descriptorComplete (q : Fin 8193) (i : W32)
  | graphNodeComplete (q : Fin 8193) (i : W32) (node : Fin 4096)
  | continuationLaunch (q : Fin 8193)
  | feAcvWinWrite (off size : Nat) (v : W64)
  | feAcvEnable
  | feAcvResumeRetry
  | feAcvResumeSkip
  | switchSaveDone (slot : Fin 48)
  | switchLoadDone (slot : Fin 48)
  | slowTableWrite (f : Fin 64)
  | transactionIssue (t : TxnReq)
  | transactionResponse (id : Nat) (r : Resp)
  | cleanDone (slot : Fin 48)
  | stackScrub (slice : Fin 16) (found : Ecc)
  | hbmScrub (stack : Fin 8) (found : Ecc)
  | hbmParityRetry (stack : Fin 8) (id : Nat)
  | int (s : SgRef) (op : IntOp) (d a b c : Reg)
  | fp32 (s : SgRef) (op : FpOp) (d a b c : Reg)
  | packed (s : SgRef) (bf : Bool) (op : PkOp) (d a b c : Reg)
  | conv (s : SgRef) (src dst : Fmt) (d a : Reg) (scale : Option Reg) (rtz sat : Bool)
  | trans (s : SgRef) (op : TransOp) (d a : Reg)
  | lane (s : SgRef) (op : LaneOp) (d a b : Reg)
  | branch (s : SgRef) (op : BrOp)
  | join (s : SgRef) (m : W32)
  | sr (s : SgRef) (r : SReg) (d : Reg)
  | lmAccess (s : SgRef) (a : LmAcc)
  | ldc (s : SgRef) (size : Ordered Nat) (d r o : Reg)
  | stc (s : SgRef) (size : Ordered Nat) (b r o : Reg)
  | atc (s : SgRef) (op : Ordered AtOp) (ty : AtTy) (d b c r o : Reg)
  | deviceLoad (s : SgRef) (size : Nat) (d a : Reg) (ord : Order)
  | deviceStore (s : SgRef) (size : Nat) (a b : Reg) (mode : StoreMode)
  | atom (s : SgRef) (op : AtOp) (ty : AtTy) (d a b c : Reg) (ord : Order)
  | msgSend (s : SgRef) (ch : Fin 16) (form : MsgForm) (rel : Option Scope)
  | msgRecv (s : SgRef) (ch : Fin 16) (form : MsgForm) (acq : Option Scope)
  | chstat (s : SgRef) (ch : Fin 16) (d e : Reg)
  | messageArrive (core : Fin 256) (ch : Fin 16)
  | creditReturn (core : Fin 256) (ch : Fin 16)
  | bar (s : SgRef)
  | cbar (s : SgRef)
  | fence (s : SgRef) (scope : Scope)
  | cont (s : SgRef) (a : Reg)
  | exit (s : SgRef)
  | undefinedInstruction (s : SgRef)
  | blockClusterPlace (run : Nat)
  | blockEnd (block : Nat)
  | mclaim (s : SgRef) (m : Fin 16)
  | mrel (s : SgRef) (m : Fin 16)
  | mwait (s : SgRef) (m : Fin 16)
  | mma (s : SgRef) (e : Fin 4) (ctrl a b : Reg)
  | mstore (s : SgRef) (e : Fin 4) (ctrl : Reg)
  | mldacc (s : SgRef) (e : Fin 4) (ctrl : Reg)
  | mloadb (s : SgRef) (e : Fin 4) (ctrl src : Reg)
  | matrixComplete (core : Fin 256) (e : Fin 4) (err : UnitErr)
  | bissue (s : SgRef) (b : Fin 2) (vn : Reg)
  | bwait (s : SgRef) (n : Fin 256)
  | expand (cluster : Fin 16) (b : Fin 2) (quad : Fin 4)
  | setop (cluster : Fin 16) (b : Fin 2) (quad : Fin 4)
  | probe (cluster : Fin 16) (b : Fin 2) (quad : Fin 4)
  | rayq (cluster : Fin 16) (b : Fin 2) (quad : Fin 4)
  | bobbinStep (cluster : Fin 16) (b : Fin 2) (waits : BobWaits) (err : UnitErr)
  | bobbinComplete (cluster : Fin 16) (b : Fin 2) (quad : Fin 4)
  | primitiveBin (pass : Nat) (binner : Fin 16) (stall : Stall) (err : UnitErr)
  | tilePlace (pass : Nat)
  | tileLoadDone (pass ord : Nat)
  | batchDispatch (pass : Nat) (ord : Found Nat) (stall : Stall)
  | fragmentGroupStart (pass ord : Nat) (blk : Fin 32)
  | tileStoreDone (pass ord : Nat)
  | stripComplete (waits : Found (List (Fin 256)))
  | encodeComplete (core : Fin 12) (err : UnitErr)
  | bindComplete (eng : Fin 4) (err : UnitErr)
  | circPortCfgWrite (v : W32)
  | circGrantWrite (s : Fin 256) (v : W32)
  | portLinkChange (l : Fin 8) (up : Bool)
  | arpRequest (l : Fin 8) (mac : BitVec 48) (ip target : W32)
  | neighborSolicitation (l : Fin 8) (mac : Ends (BitVec 48)) (ip : Ends (BitVec 128)) (target : BitVec 128)
  | frameReceive (l : Found (Fin 8)) (fcs : Bool) (frame : List Byte)
  | packetEnqueue (stream : Found (Fin 256))
  | packetDepart (l : Found (Fin 8))
  | streamStatusWrite (stream : Fin 256)
  | slvAttach (p : PartnerFacts)
  | slvDetach (move byPartner : Bool)
  | identityExchange (chain : List Byte) (nonce : NonceShown) (sig : List Byte)
  | attachHandshakeComplete (time tick edge : Nat)
  | attachTimeout
  | mirrorReceive (entries : List MirrorEntry)
  | heartbeatSample (level : Bool)
  | moveMessage (ctxs : List W32)
  | failedMessage
  | selvageRequest (kind : AccessKind) (addr : W64) (len : Nat) (data : List Byte) (found : Ecc)
  | selvageReplay (ok : Bool)
  | selvageRetrain
  | selvageLinkLost
  | monitorWindowEnd (stuck : List UnitRef)
  | supplyFault
  | clockFault (dom : Fin 18)
  | thermalFault (tj : Int)
  | lockstepMismatch
  | powerOkRise
  | powerOkFall
  | perstNAssert
  | perstNDeassert
  | hotReset
  | resetRelease
  | bootRomReady
  | secBootGo
  | bootCheckDone (r : BootRead)
  | bootReadTimeout (image : Bool)
  | velhintoReady
  | watchdogKick
  | watchdogExpiry
  | firmwareRestartDone
  | graceStart (f : Fin 64)
  | graceExpiry (f : Fin 64)
  | pcieLinkDown
  | functionLevelReset (f : Fin 64)
  | getVersion
  | getCapabilities
  | negotiateAlgorithms (asym hash measHash : W32)
  | getCertificate (slot : Fin 256) (offset length : Nat)
  | challenge (slot : Fin 256) (summary : Fin 256) (nonce : List Byte)
  | getMeasurements (index : Fin 256) (signed : Bool) (nonce : List Byte)
  | voltageConfirm
  | voltageTimeout
  | powerWindowEnd (mw : Nat)
  | domainSleepEntry (d : Fin 124)
  | domainEntryDone (d : Fin 124)
  | domainWakeDone (d : Fin 124)
  | wakeTimeout (d : Fin 124)
  | pwrCtrlS3
  | pwrCtrlWake
  | pwrCtrlClamp (v : Bool)
  | hostAccessInS3 (bar : Bar) (off size : Nat) (write : Option W64)
  | s3ExitDone
  | sidebandWrite (bytes : List Byte)
  | sidebandRead (n : Nat)
  | thermtrip
  | bypass
  | idcode
  | samplePreload
  | extest
  | extestPulse
  | extestTrain
  | bar4Access (off len : Nat) (write : Option (List Byte)) (found : Ecc)
  | rcRead (bar : Bar) (off size : Nat)
  | registerWrite (bar : Bar) (off size : Nat) (v : W64)
  | selvageTrainingDone (lanes : Fin 9)
  | tjMaxChange (tj : Int)
  | pcieCompletionTimeout (id : Nat)
  deriving DecidableEq, Repr

end Sys2Proof
end

