-- ==== Sys2Proof/Config.lean ====
section
/-! DEFINITION. What a part fixes and the values the spec leaves open: constants with no body, so that no proof can
depend on what they are (each is named in the assumption log). -/

namespace Sys2Proof

/-- The n-th free value drawn (log 2): where the spec states no value, the model takes the next of these. -/
opaque Config.freeValue : Nat → W64

/-- Length in bytes of the instruction at a program counter (log 17: the spec gives no encoding of instructions). -/
opaque Config.instrLen : W64 → W64

/-- Which of the results that R323 allows a TRANS operation gives for an operand (log 28): a choice that depends only on
the operation and the operand bits (R325). -/
opaque Config.transPick : Nat → W32 → Nat

/-- Whether the host completes a request to a bus address, at a time of HOOP_TIME, with Unsupported Request or Completer
Abort (spec/04 R107): the host's own doing (log 108). -/
opaque Config.hostRefuses : Nat → Nat → Bool

/-- Flits that a buffer of a link or port holds beyond the first (spec/07 R192 states no size; log 109). -/
opaque Config.bufferMore : Nat

/-- DIE_ID, 16 bytes (spec/17 R526). -/
opaque Config.dieId : List Byte

/-- SHA-512 digest of the root public key in the boot ROM (spec/17 R503). -/
opaque Config.rootDigest : List Byte

/-- SHA-512 digest of the root certificate of the chain (log 70). -/
opaque Config.rootCertHash : List Byte

/-- SHA-512 digest of the boot ROM (spec/17 R529). -/
opaque Config.romDigest : List Byte

/-- The identity key's signature of a message (spec/17 R526, R527). -/
opaque Config.identitySign : List Byte → List Byte

/-- Whether a certificate chain leads to the root key of the boot ROM's digest (spec/17 R530; X.509 path validation). -/
opaque Config.chainLeads : List Byte → Bool

/-- The RSA modulus that the leaf of a certificate chain certifies (spec/17 R530). -/
opaque Config.chainModulus : List Byte → List Byte

/-- Whether the lane prefix sum of LANE includes the lane's own value (log 34: R242 names the instruction only). -/
opaque Config.prefixInclusive : Bool

/-- What a shuffle reads from a lane that is not active (log 34), by that lane and the value of its register: a result that
depends only on operand bits (R325). -/
opaque Config.inactiveLane : Nat → W32 → W32

/-- Whether sequence headers select the screen-content tools and integer vectors frame by frame, and how many bits their
sizes have beyond those needed (log 49: R413 fixes what frames use, not these). -/
opaque Config.selectScreenTools : Bool
opaque Config.selectIntegerMv : Bool
opaque Config.sizeBitsMore : Nat

/-- Whether frame headers leave the update of the entropy tables at a frame's end enabled (log 49: R413 does not name it). -/
opaque Config.frameEndUpdate : Bool

/-- The number by which CTX_QUERY reports the n-th state of spec/03 R71 (log 60: the spec numbers none). -/
opaque Config.ctxStateCode : Nat → Nat

end Sys2Proof
end

