-- ==== Sys2Proof/Machine/State.lean ====
section
/-! DEFINITION. The state of the CHT9410, as plain data. INVENTORY.md lists every field with its rule and reset value. -/

namespace Sys2Proof.Machine

/-- A table of values by number: keys strictly rising. -/
abbrev Tbl (α : Type) := List (Nat × α)

/-- A byte memory in its one canonical form: addresses strictly rising, no listed byte equal to 0. -/
abbrev Mem := List Host.Cell

/-! ## The Hoop and the accession block (spec/02) -/

/-- The phase of the period in progress (R31); `idle` until tick 0 (R26). -/
inductive Phase where
  | idle | opened | drain | settle
  deriving DecidableEq, Repr

/-- The Hoop's registers (R30), the values in force (R31), and the slots with late settle work (R36). -/
structure Hoop where
  time : Nat
  tick : Nat
  edge : Nat
  running : Bool
  phase : Phase
  perCyc : Nat
  marginUs : Nat
  settleUs : Nat
  settleLate : Nat
  overrun : Nat
  settleBusy : List Nat
  deriving DecidableEq, Repr

/-- Active and shadow copies of the shadowed registers (R41, R42), by the BAR0 offset of the active copy.
An offset that is not listed holds its reset value. -/
structure RegFile where
  active : Tbl W64
  shadow : Tbl W64
  deriving DecidableEq, Repr

/-- State of an accession slot (R61). -/
inductive AccState where
  | free | opened | checking | armed | applied | refused
  deriving DecidableEq, Repr

/-- One accession slot (R47 to R61). `edge` is the first edge for which an ARMED slot is eligible (R53);
`serves` is the function an accession of firmware serves (R51, R512); `takeover` marks the accession of R478. -/
structure AccSlot where
  st : AccState
  owner : Requester
  code : Nat
  detail : Nat
  staged : Tbl W64
  conflicts : List Nat
  target : W32
  edge : Nat
  serves : Option Nat
  tag : W32
  takeover : Bool
  deriving DecidableEq, Repr

/-- The ACC block (R61). -/
structure AccBlock where
  slots : List AccSlot
  targetHost : W32
  targetFw : W32
  stray : Nat
  deriving DecidableEq, Repr

/-! ## Objects (spec/03) and descriptors (spec/05) -/

/-- The states of a context (R71). -/
inductive CtxState where
  | active | lost | destroying
  deriving DecidableEq, Repr

/-- A context (R70, R71, R74), with the standby place of R476 (`standbySlot` 0xFF for none). -/
structure Ctx where
  func : Nat
  st : CtxState
  reason : Nat
  root : W64
  standbyRoot : W64
  standbySlot : Nat
  deriving DecidableEq, Repr

/-- Where a taken descriptor stands (R146 to R153). `held`: a hold of R148 applies. `finished st`: its unit has
ended with status `st` and its completion actions are still to come. `cleaning`: with OK, its slot's clean has not ended
(spec/07 R204); `cleaned`: it has. `ended st`: completed. -/
inductive Stage where
  | taken | held | armed | started | finished (st : Nat) | cleaning | cleaned | suspended | ended (st : Nat)
  deriving DecidableEq, Repr

/-- A descriptor that a fetcher has taken, or a node of a graph launch. `words` are its 64 B as read; `pay` is the
descriptor with the payload in force (R146), and of a suspended one its continuation record (R152). `waiting`: its wait is registered and not satisfied (R87); `due`: the
edge of its WAIT_TICK has come (R149); `armTick`: the period in which it was armed. -/
structure Desc where
  idx : W32
  stage : Stage
  words : W512
  pay : W512
  be : Bool
  token : Bool
  waiting : Bool
  due : Bool
  armTick : Nat
  chQc : Nat
  chHb : Nat
  measured : Nat
  prog : Nat
  deriving DecidableEq, Repr

/-- The states of a queue (R77). -/
inductive QState where
  | active | halted | draining
  deriving DecidableEq, Repr

/-- A queue (R77), its indices (R133), counts and flags (R135), BUDGET (R155), waiting resume action (R137: 1 RETRY,
2 SKIP), saved continuation (R152) and taken descriptors (R140). `slot` is its slot of admission (R157), 0xFF for
none; `unit` its bound media unit (R139). -/
structure Queue where
  func : Nat
  ctx : Nat
  cls : Nat
  ring : W64
  entries : Nat
  rt : Bool
  fence : W32
  st : QState
  tail : W32
  retired : W32
  tokens : Nat
  completed : Nat
  stallEdges : Nat
  haltIdx : W32
  haltStatus : Nat
  demoted : Bool
  qcUsed : Nat
  hbUsed : Nat
  beTaken : Nat
  unit : Nat
  slot : Nat
  bQc : Nat
  bHb : Nat
  bUc : Nat
  resume : Option Nat
  workAtEdge : Bool
  progressed : Bool
  recs : List Desc
  deriving DecidableEq, Repr

/-- A fence (R84). -/
structure Fence where
  func : Nat
  ctx : Nat
  value : W64
  shared : Bool
  lost : Bool
  stale : Nat
  mirror : W64
  deriving DecidableEq, Repr

/-- An event object (R94). -/
structure Event where
  func : Nat
  ctx : Nat
  fence : Nat
  v : W64
  step : W64
  deriving DecidableEq, Repr

/-- A slot of a stored graph (R97). -/
structure GSlot where
  table : W64
  count : Nat
  gen : W32
  inflight : Nat
  deriving DecidableEq, Repr

/-- A stored graph (R97); `cur` is none, or whether slot B is current. -/
structure Graph where
  func : Nat
  ctx : Nat
  a : GSlot
  b : GSlot
  cur : Option Bool
  deriving DecidableEq, Repr

/-- A node of a running launch: arrivals so far, NPRED as read at the launch, and its descriptor (R101). -/
structure Node where
  arrivals : Nat
  npred : Nat
  d : Desc
  deriving DecidableEq, Repr

/-- A running graph launch (R100, R101): the queue and index of its descriptor, the graph (its index and generation) and
slot it reads, whether it has read every NPRED, and its failure with the time and the node of it. -/
structure Launch where
  q : Nat
  i : W32
  graph : Nat
  gen : Nat
  read : Bool
  slotB : Bool
  table : W64
  count : Nat
  nodes : Tbl Node
  fail : Option Nat
  failAt : Nat
  failNode : Nat
  cut : Bool
  deriving DecidableEq, Repr

/-- The object tables (R62), the generation of each index (R63) and the quotas (R66, keyed function × 8 + type). -/
structure Objects where
  ctxs : Tbl Ctx
  queues : Tbl Queue
  fences : Tbl Fence
  events : Tbl Event
  graphs : Tbl Graph
  gens : Tbl Nat
  quotas : Tbl Nat
  launches : List Launch
  deriving DecidableEq, Repr

/-! ## Per function (spec/03, 04, 17, 19) -/

/-- A ring of notices in host memory (R91, R92, R96, R117, R513): records written since it was set, the cached
HEAD, and the records dropped since the last one written. -/
structure Ring where
  base : Option W64
  entries : Nat
  written : Nat
  head : Nat
  dropped : Nat
  vector : Nat
  deriving DecidableEq, Repr

/-- What one function holds. `grace` counts the edges of a grace period (R521 to R524), `graceLen` is its
length; `graceDue`: a grace period is to start (0 heartbeat, 1 link down). -/
structure Fn where
  events : Ring
  faults : Ring
  slow : Option W64
  invalTok : W32
  cmdBase : W64
  cplBase : W64
  cmdTail : W32
  cplHead : W32
  taken : W32
  written : W32
  lastHb : W32
  miss : Nat
  grace : Option Nat
  graceLen : Nat
  graceDue : Option Nat
  hbSeen : Bool
  msixTable : Tbl W64
  msixPend : List Nat
  deriving DecidableEq, Repr

/-! ## Translation (spec/04) -/

/-- A cached translation (R114, R116): the cache that holds it (a number of Memory.tlbPath), its set and way, and a leaf of
2^`bitsz` bytes, tagged with its ASID. -/
structure TlbE where
  tlb : Nat
  set : Nat
  way : Nat
  asid : Nat
  page : Nat
  bitsz : Nat
  leaf : W64
  deriving DecidableEq, Repr

/-- A cached pointer entry (R114): its walker and place in the walker's cache, and the table that holds the entries of
level `level` under the address prefix. -/
structure WalkE where
  walker : Nat
  place : Nat
  asid : Nat
  level : Nat
  pre : Nat
  table : W64
  deriving DecidableEq, Repr

/-- A walk in progress (R115), with the access that asked for it, the unit and slot (0xFF for the hub) of that access, and
its walker (0 to 15 of the clusters, 16 and 17 of the hub). `again`: it fills no cache and walks again, and `fromRoot`:
it walks again from the root (R126). -/
structure Walk where
  asid : Nat
  va : W64
  acc : AccessKind
  site : Site
  slot : Nat
  time : Nat
  walker : Nat
  again : Bool
  fromRoot : Bool
  deriving DecidableEq, Repr

/-- A fault request (R119): one per context and 64 KiB page. `fid` is none while it waits for an identifier; `joined` are
the accesses that wait for its answer, by unit, virtual address and kind (R119, R121). -/
structure FaultReq where
  func : Nat
  fid : Option Nat
  handle : Nat
  page : Nat
  acc : AccessKind
  unit : Nat
  slot : Nat
  time : Nat
  written : Bool
  joined : List (Site × Nat × AccessKind)
  deriving DecidableEq, Repr

/-- An invalidation that has not completed (R125). Transactions below `before` may use an old translation. -/
structure Inval where
  func : Nat
  asid : Nat
  token : W32
  before : Nat
  deriving DecidableEq, Repr

/-- The translation unit (R114 to R131). `carveNext` is what the management core has set for the next edge (R129). -/
structure Mmu where
  tlb : List TlbE
  walkCache : List WalkE
  walks : Tbl Walk
  faults : List FaultReq
  invals : List Inval
  carve : Nat
  carveNext : Nat
  faultsCnt : Nat
  replyBad : Nat
  invalBad : Nat
  deriving DecidableEq, Repr

/-! ## Front ends (spec/05) and carrels (spec/06) -/

/-- The Acvik window (R164 to R169): words of the descriptor in assembly, held writes, untaken descriptors. -/
structure Acv where
  enable : Bool
  nextWord : Nat
  words : Nat
  partWords : List W32
  heldWrites : List (Nat × Nat × W64)
  ring : List (W32 × W512)
  unowned : Nat
  pend : Nat
  order : Nat
  limit : Nat
  deriving DecidableEq, Repr

/-- FE_COUNT (R138), the fetchers' rotating tokens (R141), the Acvik window, and the COMPOSE, ENCODE and SEND
descriptors in order of taking, by queue and index, with the time of it (R395, R410, R452). -/
structure FrontEnds where
  dbStale : Nat
  dbBack : Nat
  dbOver : Nat
  dbBad : Nat
  tokenLost : Nat
  tokens : Tbl Nat
  acv : Acv
  order : List (Nat × W32 × Nat)
  deriving DecidableEq, Repr

/-- Phase of a carrel switch (R179). -/
inductive SwPhase where
  | idle | saving | loading
  deriving DecidableEq, Repr

/-- Slow-down counts of one slot (R185, R186): five sources, and the cycles charged to each other slot. -/
structure Slow where
  router : Nat
  pricking : Nat
  raster : Nat
  bobbin : Nat
  walker : Nat
  by' : Tbl Nat
  deriving DecidableEq, Repr

/-- CAR_STATE_n (R182), the switch in progress: its start, the outgoing context with its save address and the image bytes
taken before the edge, and the units (false, core, unit) and ways (true, slice, way) to be loaded, from the CAR_LOAD that the
edge applied (R178, R179); the
counters of the period and the published record CAR_SLOW_n (R187). -/
structure CarSlot where
  phase : SwPhase
  result : Nat
  lastUs : Nat
  start : Nat
  outCtx : W32
  saveAddr : W64
  outImage : List Byte
  inImage : List (Bool × Nat × Nat)
  loadAddr : W64
  slow : Slow
  pub : Slow
  pubTick : Nat
  deriving DecidableEq, Repr

/-! ## Fabric and memories (spec/07) -/

/-- A valid line of the stack tier in cache mode (R202): its slice, way and set, the line address, its 128 bytes, and
a dirty flag for each byte. -/
structure StkLine where
  slice : Nat
  way : Nat
  addr : Nat
  slot : Nat
  data : List Byte
  dirty : List Bool
  deriving DecidableEq, Repr

/-- What a transaction reaches (R195, R201, R206; spec/04 R110): local memory, local memory through the stack tier of a
slot, host memory, the twin. -/
inductive Space where
  | mem | tier (slot : Nat) | host | twin
  deriving DecidableEq, Repr

/-- The lanes that issued a transaction: their block, group key and lane mask (spec/08 R249, R268). -/
structure Lanes where
  block : Nat
  group : Nat
  mask : W32
  deriving DecidableEq, Repr

/-- A transaction (R195): its share of a request table, issuer, context (4,096 for none), target, bytes, and the attempts
of a retry in progress (R217). `entry`: it has its entry; `path`: the routers that it passes and the port of the last
that it leaves by (R190); `hop`: how many of their buffers its request has entered, 0 at its unit, `path.length + 1` at
its target (R192); `seq`: its place in the order in which requests enter buffers; `lost`: its context was lost, and it is
not performed (R75); `lanes`: the lanes of a store that issued it; `more`: further bytes of the line that it writes, in order
(spec/08 R249); `born`: the monitor windows that had ended when it took its entry (spec/16 R498); `since`: those that had when
its retry began (spec/16 R497). -/
structure Txn where
  share : Nat
  issuer : Issuer
  asid : Nat
  kind : AccessKind
  space : Space
  addr : Nat
  len : Nat
  data : List Byte
  rt : Bool
  tries : Nat
  entry : Bool
  path : List Nat
  port : Nat
  hop : Nat
  seq : Nat
  lost : Bool
  lanes : Option Lanes
  more : List (Nat × List Byte)
  born : Nat
  since : Nat
  deriving DecidableEq, Repr

/-- STK_ECC_kNN (R208). -/
structure StkEcc where
  lastWay : Nat
  lastSet : Nat
  uncorrected : Nat
  refetched : Nat
  corrected : Nat
  deriving DecidableEq, Repr

/-- HBM_ECC_n and HBM_ERR_n (R218), and the next access of the scrub. -/
structure HbmEcc where
  retryOut : Nat
  retried : Nat
  uncorrected : Nat
  corrected : Nat
  errValid : Bool
  errAddr : Nat
  scrubAt : Nat
  deriving DecidableEq, Repr

/-- Memories and the fabric's tables. `mem` is the local physical map of R106, HBM and scratch aperture; `host` is
host memory by bus address (R107). `shares` counts the request-table entries in use (R196); `cleans` the slots whose
clean has not ended (R204); `plru` the pseudo-LRU tree of each slice and set (R202); `tokens` the rotating tokens of router
outputs, cluster ports and request-table allocators (R193), and `seq` the requests that have entered buffers. -/
structure Fabric where
  mem : Mem
  host : Mem
  lines : List StkLine
  plru : Tbl Nat
  shares : Tbl Nat
  txns : Tbl Txn
  nextTxn : Nat
  cleans : List Nat
  tokens : Tbl Nat
  seq : Nat
  stkEcc : Tbl StkEcc
  stkScrub : Tbl Nat
  hbm : Tbl HbmEcc
  lastRead : List Byte
  deriving DecidableEq, Repr

/-! ## Cores (spec/08), tensor engines (spec/09) and Bobbin engines (spec/11) -/

/-- What stalls a subgroup: the clean that a release started, until it has ended (R268); a JOIN with its mask (R228), a barrier (R240), an MWAIT with the engines and how many
instructions of each queue are still to complete (R290), a BWAIT count (R332), an MCLAIM mask (R272). -/
inductive SubWait where
  | ready | clean | cleaned | join (m : W32) | bar | cbar | mwait (left : List (Nat × Nat)) | bwait (n : Nat) | mclaim (m : Nat)
  deriving DecidableEq, Repr

/-- A subgroup (R227): its active lanes, program counter, matrix count s (R296) and stall. -/
structure Sub where
  mask : W32
  pc : W64
  s : Nat
  wait : SubWait
  deriving DecidableEq, Repr

/-- A thread group (R225 to R229), keyed core × 64 + group slot. `regs` is keyed register × 32 + lane. -/
structure Group where
  block : Nat
  index : Nat
  nregs : Nat
  regs : Tbl W32
  exited : W32
  subs : List Sub
  g : Nat
  bobOut : Nat
  deriving DecidableEq, Repr

/-- A block (R233 to R236). `cluster` is the run-wide index of its block cluster and `rank`, `csize` its place there;
a fragment group is a block of one group with its pass and tile in `frag` (R381). -/
structure Block where
  run : Nat
  core : Nat
  cluster : Nat
  rank : Nat
  csize : Nat
  bx : Nat
  byy : Nat
  bz : Nat
  erank : Nat
  lmBase : Nat
  lmKib : Nat
  ngroups : Nat
  nregs : Nat
  arg : W64
  entry : W64
  frag : Option (Nat × Nat × Nat)
  deriving DecidableEq, Repr

/-- A run of a KERNEL, graph node or continuation (R231 to R237). `next` is the first linear index not yet placed;
`grid` holds the core-grid records with CODE ≠ 0 of a MODE 1 run, with the cores of their ranks (R236). -/
structure Run where
  q : Nat
  i : W32
  node : Option Nat
  slot : Nat
  ctx : Nat
  rt : Bool
  mode1 : Bool
  regs : Nat
  groups : Nat
  localKib : Nat
  cluster : Nat
  bx : Nat
  byy : Nat
  bz : Nat
  entry : W64
  arg : W64
  next : Nat
  total : Nat
  grid : List (Nat × W512)
  cont : Option W512
  deriving DecidableEq, Repr

/-- An outbound channel (R257): the run that connected it, its receiver and credits. -/
structure OutCh where
  run : Nat
  core : Nat
  chan : Nat
  credits : Nat
  deriving DecidableEq, Repr

/-- A local-memory range in use (R235, R373): core, first KiB, KiB, and the block or tile that holds it. -/
structure LmUse where
  core : Nat
  base : Nat
  kib : Nat
  tile : Bool
  owner : Nat
  deriving DecidableEq, Repr

/-- The cores (R222 to R270). `lm` is keyed core × 0x80000 + local address. `sent` are messages under way to an
inbound channel (R258), `creditsBack` the outbound channels to which a credit is returning (R259). `tokens`: the rotating
tokens of local memory, by core (R246), of outbound channels from 256 on, and of inbound ones from 4352 on (R260). -/
structure Cores where
  lm : Mem
  lmUse : List LmUse
  groups : Tbl Group
  blocks : Tbl Block
  runs : Tbl Run
  nextId : Nat
  inbox : Tbl (List W512)
  outs : Tbl OutCh
  sent : List (Nat × W512)
  creditsBack : List Nat
  tokens : Tbl Nat
  undef : Nat
  deriving DecidableEq, Repr

/-- A queued matrix instruction (R275, R278): its kind, words, group, the lowest lane that issued it, and the lines that an
MLOADB has read from device memory (R287). -/
structure EOp where
  kind : MatKind
  ctrl : W64
  a : W64
  b : W64
  group : Nat
  lane : Nat
  lines : List Byte
  deriving DecidableEq, Repr

/-- A tensor engine (R271): holder block, accumulators keyed slot × 1024 + 32 i + j, operand buffers keyed
buffer × 65536 + byte, queue, and of an engine that is being released, how many instructions of the queue are still to complete
before that (R273). `inA`, `inB`: the bytes of the head
instruction's channel operands that have arrived; `outN`: the messages of it that have been sent (R297). -/
structure Engine where
  holder : Option Nat
  acc : Tbl W32
  ob : Mem
  queue : List EOp
  releasing : Option Nat
  inA : List Byte
  inB : List Byte
  outN : Nat
  deriving DecidableEq, Repr

/-- The tensor engines, keyed core × 4 + e, the rotating tokens of each core's claims (R272) and, from 256 on, of each
engine's queue (R275), and TEN_COUNT (R300). -/
structure Engines where
  eng : Tbl Engine
  tokens : Tbl Nat
  discarded : Nat
  unclaimed : Nat
  claimBad : Nat
  deriving DecidableEq, Repr

/-- Progress of a Bobbin command: queued, checked at its first step (R335), with messages still to send on its channel
(R336), or delivered, with its completion record waiting to be written (R338). -/
inductive BobStage where
  | queued | active | sending (out : List W512) (rec : BitVec 128) | delivered (rec : BitVec 128)
  deriving DecidableEq, Repr

/-- A Bobbin command (R330): engine of the cluster, issuing group key, quad of the cluster, the 64 B, the steps taken, and the steps that it takes in
all, known once its operation is performed (R356). -/
structure BobCmd where
  b : Nat
  quad : Nat
  group : Nat
  block : Nat
  ctx : Nat
  slot : Nat
  cmd : W512
  stage : BobStage
  steps : Nat
  need : Nat
  deriving DecidableEq, Repr

/-- A Bobbin engine (R327): commands in order of issue, the token of R328, the transpose buffer with the last tile put
together in it, and the records of the last rays in flight, at most 64. -/
structure Bobbin where
  cmds : List BobCmd
  token : Nat
  tile : List Byte
  rays : List Nat
  deriving DecidableEq, Repr

/-- The Bobbin engines, keyed cluster × 2 + b, and BOB_COUNT (R360). -/
structure Bobbins where
  eng : Tbl Bobbin
  bad : Nat
  unsorted : Nat
  limit : Nat
  trunc : Nat
  deriving DecidableEq, Repr

/-! ## Tile rendering (spec/12) -/

/-- Stage of a tile (R373, R374). -/
inductive TileStage where
  | loading | shading | storing
  deriving DecidableEq, Repr

/-- A batch (R380): primitive, block of the tile, the primitive and state records, the covered samples of each of its
32 pixels in row order, and whether its fragment group runs. -/
structure Batch where
  prim : Nat
  blk : Nat
  rec' : W512
  st : W512
  cover : List Nat
  started : Bool
  deriving DecidableEq, Repr

/-- A tile on a core (R373): its ordinal, core, first KiB of its tile memory, stage, its list once the rasterizer has
read it, the place in the list and the block that the rasterizer visits next, and the batches that wait or run. -/
structure Tile where
  ord : Nat
  core : Nat
  lmBase : Nat
  stage : TileStage
  list : Option (List Nat)
  nextPrim : Nat
  nextBlk : Nat
  waiting : List Batch
  running : List Batch
  deriving DecidableEq, Repr

/-- Stage of a pass (R362). -/
inductive PassStage where
  | binning | tiles
  deriving DecidableEq, Repr

/-- One binner of a pass: the next primitive index it takes, where it has failed (R370, R371), and for each range tile
the first chunk, the entries and the last chunk of its list. -/
structure Binner where
  next : Nat
  failed : Option Nat
  lists : Tbl (Nat × Nat × Nat)
  deriving DecidableEq, Repr

/-- A RENDER_PASS (R361 to R366): the descriptor, parameter block bytes, the clusters of its binners, chunk pool,
overflow index, and its tiles. -/
structure Pass where
  q : Nat
  i : W32
  node : Option Nat
  slot : Nat
  ctx : Nat
  rt : Bool
  pay : W512
  par : List Byte
  clusters : List Nat
  stage : PassStage
  binners : List Binner
  nextChunk : Nat
  overflow : Nat
  nextTile : Nat
  stored : Nat
  tiles : List Tile
  deriving DecidableEq, Repr

/-- The passes and PRK_COUNT (R387). -/
structure Raster where
  passes : Tbl Pass
  overflow : Nat
  invalid : Nat
  culled : Nat
  degenerate : Nat
  deriving DecidableEq, Repr

/-! ## Couching (spec/13) and coding (spec/14) -/

/-- A started COMPOSE: its target, frame, the registers it read (R393) keyed by offset in the target, the next strip
(R396) and the chroma sums of an even row (R402). -/
structure Compose where
  q : Nat
  i : W32
  rt : Bool
  target : Nat
  frame : W32
  ctx : Nat
  regs : Tbl W64
  strip : Nat
  chroma : Tbl (Nat × Nat)
  deriving DecidableEq, Repr

/-- Couching: CCH_STAT_t as (LAST_FRAME, LAST_TICK), the started COMPOSEs by compositor context, the token of strips (R396) and
that of starts (R395). -/
structure Couching where
  stat : Tbl (Nat × Nat)
  comps : List Compose
  token : Nat
  start : Nat
  deriving DecidableEq, Repr

/-- Encoder state of a stream (R408). `conf` is WIDTH, HEIGHT, DEPTH10, REF_AREA, LEVEL; `slots` the tags of the
eight reference slots; `lastCoded` the most recent coded frame since the last reset (R415, R417). -/
structure Enc where
  frame : W32
  q : Nat
  f : Int
  conf : List Nat
  slots : List (Option W32)
  lastCoded : Option W32
  deriving DecidableEq, Repr

/-- A started ENCODE: queue, index, payload, parameter block (bytes 32 to 127 as one number with the block's bit
numbers), key frame, recovered, the encoder state with which it codes (after the reset of R412), and whether its stream has lost
the owner for which it codes (R408). -/
structure EncRun where
  q : Nat
  i : W32
  stream : Nat
  core : Nat
  pay : W512
  par : Nat
  key : Bool
  recovered : Bool
  state : Enc
  orphan : Bool
  deriving DecidableEq, Repr

/-- A started BIND: queue, index, payload, parameter block as one number. -/
structure BindRun where
  q : Nat
  i : W32
  pay : W512
  par : Nat
  deriving DecidableEq, Repr

/-- Encoders and Bindery (R408, R436). `start`: the token of ENCODEs that start (R410); `superQ`: by encode core, the quantiser
index of each superblock of the last frame in raster order (R416). -/
structure Coding where
  enc : Tbl Enc
  start : Nat
  superQ : Tbl (List Nat)
  encRuns : List EncRun
  bindRuns : List BindRun
  resets : Nat
  forcedKey : Nat
  repeats : Nat
  full : Nat
  stored : Nat
  deriving DecidableEq, Repr

/-! ## Circulation (spec/15) -/

/-- A key with its salt (R448). -/
structure SKey where
  keyId : Nat
  key : List Byte
  salt : List Byte
  deriving DecidableEq, Repr

/-- An ingress key slot with its replay window: highest SEQ accepted, if any, and the map of SEQ H − 63 to H (R450). -/
structure RxKey where
  key : SKey
  high : Option Nat
  map : W64
  deriving DecidableEq, Repr

/-- A stream ring (R462): base, entries, head address, fence handle, W, cached C. -/
structure SRing where
  base : W64
  entries : Nat
  head : W64
  fence : W32
  w : Nat
  c : Nat
  deriving DecidableEq, Repr

/-- A packet that waits in a pacing queue: its frame without FCS, and its wire bytes (R456). -/
structure Pkt where
  frame : List Byte
  wire : Nat
  deriving DecidableEq, Repr

/-- An open stream (R442 to R462). `srec` is the clamped stream record as one number with the bit numbers of R443.
`bucket` is in units of 10^-8 B. `ack` is HIGH_SEQ, RECV, LOST, CE, LAST_FRAME of the last ACK used. `sentEnd` and
`queuedEnd` are the counts of the last edge, `statusDue` says that its status record is still to be written (R460). -/
structure Stream where
  ctx : Nat
  srec : Nat
  status : W64
  rateCur : Nat
  msg : W32
  seq : Nat
  eKey : Option SKey
  rxKeys : List RxKey
  rings : Tbl SRing
  pq : List Pkt
  bucket : Nat
  bucketAt : Nat
  ack : Option (List Nat)
  credLost : Nat
  credCe : Nat
  sent : Nat
  sentEnd : Nat
  queuedEnd : Nat
  statusDue : Bool
  deriving DecidableEq, Repr

/-- A started SEND (R452): its stream, key, next SEQ under that key, whether a later key has replaced it (R449),
message number, next fragment, the regions of the open parity group, and the 64 B lines of its next packet that the engine has
built. -/
structure SendRun where
  q : Nat
  i : W32
  stream : Nat
  pay : W512
  key : SKey
  seq : Nat
  replaced : Bool
  msg : W32
  bytes : Nat
  nfrag : Nat
  frag : Nat
  group : List (List Byte)
  built : Nat
  deriving DecidableEq, Repr

/-- The Circulation ports (R437 to R461). `addr` is CIRC_ADDR_l as a 256-bit number; `grants` the FUNC of each
CIRC_GRANT_s; `drops` keyed l × 8 + cause (0 FCS to 7 RING_FULL); `out` the last frame that left each logical port; `engine` the send engine's
token (R452). -/
structure Circ where
  mode0 : Nat
  mode1 : Nat
  link : Nat
  addr : Tbl Nat
  grants : Tbl Nat
  drops : Tbl Nat
  streams : Tbl Stream
  sends : List SendRun
  tokens : Tbl Nat
  out : Tbl (List Byte)
  engine : Nat
  deriving DecidableEq, Repr

/-! ## Twin (spec/16) and faults -/

/-- SLV_STAT.STATE (R499). -/
inductive SlvState where
  | detached | training | handshake | attached | leaving | failed
  deriving DecidableEq, Repr

/-- The control state mirrored from the partner (R474). -/
structure Mirror where
  ctxs : Tbl Ctx
  queues : Tbl Queue
  fences : Tbl Fence
  events : Tbl Event
  graphs : Tbl Graph
  gens : Tbl Nat
  carrels : Tbl W64
  targets : Tbl W64
  streams : Tbl Stream
  grants : Tbl Nat
  armed : List (Nat × Nat × List (Nat × W64))
  deriving DecidableEq, Repr

/-- A scheduled takeover (R478): the edge, and the contexts of a MOVE or none for every context. -/
structure Takeover where
  edge : Nat
  only : Option (List W32)
  deriving DecidableEq, Repr

/-- The response to the last memory request of the partner (R467). -/
inductive SlvAnswer where
  | none | data (l : List Byte) | ack | refused | error
  deriving DecidableEq, Repr

/-- The Selvage block (R465 to R485, R499). `partner` is what the partner reports for R469 to R471; `ctl` are the
messages this twin has sent on CTL; `peer` the indices in use on the partner with their generations, keyed as `gens` (R472).
`watch`: the link is lost, and the next heartbeat sample decides (R485). `nonce` is this twin's nonce of the identity exchange
(R530); `shown` whether the partner has verified this twin's identity. `move` is the MOVE bit of SLV_CTRL, and `leaveMove` what it
was when DETACH was written (R483). `sentMirror` is the content of the last complete mirror sent (R474). `training`: the link
trains or retrains, `retryAt`: the monitor windows that had ended when its retry began (R466, R497). -/
structure Twin where
  st : SlvState
  role : Bool
  lanes : Nat
  cause : Nat
  taken : Nat
  lost : Nat
  move : Bool
  replays : Nat
  retrains : Nat
  mirrorLate : Nat
  partner : Option PartnerFacts
  attachTick : Nat
  idOk : Option Bool
  mirror : Option Mirror
  mirrorDone : Bool
  lateRun : Nat
  hbOut : Bool
  hbIn : Bool
  hbSampled : Bool
  takeovers : List Takeover
  leaveEdge : Option Nat
  leaver : Bool
  retrying : Bool
  replayTries : Nat
  ctl : List CtlMsg
  peer : Tbl Nat
  shown : Option Bool
  leaveMove : Bool
  sentMirror : List MirrorEntry
  training : Bool
  retryAt : Nat
  watch : Bool
  nonce : List Byte
  answer : SlvAnswer
  deriving DecidableEq, Repr

/-- MGT_FAULT, MGT_OOS_QUADS, MGT_OOS_UNITS (R499), the FAILED state (R495), and the monitor windows of R496:
how many have ended in the period and in all, the units that have made progress in the one in progress, and those that have
waited in it for a transaction that a retry held (R497). -/
structure Faults where
  valid : Bool
  tick : Nat
  scope : Nat
  unit : Nat
  means : Nat
  oosQuads : Nat
  oosUnits : Nat
  failed : Bool
  window : Nat
  windows : Nat
  progress : List UnitRef
  retried : List UnitRef
  deriving DecidableEq, Repr

/-! ## Firmware (spec/17), power (spec/18), board (spec/20) -/

/-- SEC_BOOT_STAT.STATE (R507). -/
inductive BootState where
  | reset | wait | checking | running | refused
  deriving DecidableEq, Repr

/-- What the accepted boot objects leave (R503, R505, R529). -/
structure Charter where
  sku : Nat
  clusters : Nat
  version : W32
  cert : List Byte
  digest : List Byte
  imageVersion : W32
  imageDigest : List Byte
  imageLen : Nat
  deriving DecidableEq, Repr

/-- A day-book record without PHASE, SEQ and DROPPED (R513). -/
structure DbRec where
  time : Nat
  arg1 : W64
  arg0 : W32
  obj : W32
  code : Nat
  deriving DecidableEq, Repr

/-- An ACC_REQUEST that firmware has taken and that has not completed (R512). -/
structure AccReq where
  func : Nat
  tag : W32
  list : List (Nat × W64)
  target : W32
  slot : Option Nat
  deriving DecidableEq, Repr

/-- Boot (R504 to R507), Velhinto (R508 to R525) and the SPDM responder (R526 to R530). -/
structure Firmware where
  bootImage : W64
  bootCharter : W64
  boot : BootState
  code : Nat
  object : Nat
  goTime : Nat
  dieId : Option (List Byte)
  charter : Option Charter
  accepted : Bool
  running : Bool
  restarting : Bool
  kicked : Bool
  expiryDue : Bool
  restartCount : Nat
  restartCause : Nat
  restartTick : Nat
  restartTicks : List Nat
  graceTicks : Nat
  linkDown : Bool
  book : List DbRec
  bookRing : Ring
  groups : W64
  reqs : List AccReq
  fwToken : Nat
  spdmVersion : Bool
  spdmCaps : Bool
  spdmAlgs : Bool
  spdmOut : List Byte
  trims : Tbl W32
  deriving DecidableEq, Repr

/-- State of a power domain (R542). -/
inductive DomState where
  | on | s1 | s2 | changing
  deriving DecidableEq, Repr

/-- A power domain (R540 to R551): policy, state, the state an entry goes to, whether its Reserve write has begun,
whether it wakes, since when and why, and whether it is out of service and held in S2 (R551). -/
structure Dom where
  idleUs : Nat
  allow : Nat
  st : DomState
  toward : Nat
  resv : Bool
  waking : Bool
  wakeAt : Nat
  wakeSrc : Nat
  stalled : Nat
  held : Bool
  deriving DecidableEq, Repr

/-- A voltage command not yet confirmed (R534, R535): its level and its time. -/
structure VCmd where
  level : Nat
  at' : Nat
  deriving DecidableEq, Repr

/-- The power controller (R533 to R558). `held` is a level whose frequency change waits for its voltage (R535). -/
structure Power where
  levelNow : Nat
  clamp : Bool
  throttling : Bool
  s3Refused : Bool
  vlate : Nat
  throttleMs : Nat
  limit : Nat
  limitNext : Nat
  powerMw : Nat
  overRun : Nat
  intArmed : Bool
  windowAt : Nat
  vcmd : Option VCmd
  vOk : Nat
  held : Option Nat
  wakeTick : Nat
  wakeDom : Nat
  wakeSrc : Nat
  doms : Tbl Dom
  s3Req : Bool
  inS3 : Bool
  exiting : Bool
  lock : Nat
  deriving DecidableEq, Repr

/-- The board's pins and the ports of spec/20. `tj` is in units of 0.125 °C. `sideData` is what the last sideband
read returned, `jtag` the effective debug instruction. -/
structure Board where
  powerOk : Bool
  perstN : Bool
  inReset : Bool
  strap : Bool
  twinSel : Bool
  thermtrip : Bool
  tj : Int
  sidePtr : Nat
  sideData : List Byte
  jtag : JtagInstr
  tdo : Option W32
  deriving DecidableEq, Repr

/-- The register port: the latched high halves of 64-bit registers by register (R30), the data of the last register read, and
whether the last completion of a host read carried Completer Abort (spec/07 R216). -/
structure Bus where
  latch : Tbl W32
  hostData : W64
  abort : Bool
  deriving DecidableEq, Repr

/-- The machine. `free` counts the free values drawn (log 2); `pending` is the queue of commands. -/
structure State where
  hoop : Hoop
  regs : RegFile
  acc : AccBlock
  obj : Objects
  fns : Tbl Fn
  mmu : Mmu
  fe : FrontEnds
  car : Tbl CarSlot
  fab : Fabric
  cores : Cores
  eng : Engines
  bob : Bobbins
  ras : Raster
  cch : Couching
  cod : Coding
  circ : Circ
  twin : Twin
  flt : Faults
  fw : Firmware
  pwr : Power
  brd : Board
  bus : Bus
  free : Nat
  pending : List Instr
  deriving DecidableEq, Repr

/-! ## Reset values -/

/-- A slot that is FREE (R61). -/
def AccSlot.reset : AccSlot :=
  { st := .free, owner := .host, code := 0, detail := 0, staged := [], conflicts := [], target := 0, edge := 0,
    serves := none, tag := 0, takeover := false }

/-- A ring that has not been set (R91). -/
def Ring.reset : Ring := { base := none, entries := 0, written := 0, head := 0, dropped := 0, vector := 0 }

/-- A function after reset (R508; LOG2 reset 6). -/
def Fn.reset : Fn :=
  { events := Ring.reset, faults := Ring.reset, slow := none, invalTok := 0, cmdBase := 6, cplBase := 6,
    cmdTail := 0, cplHead := 0, taken := 0, written := 0, lastHb := 0, miss := 0, grace := none, graceLen := 0, graceDue := none,
    hbSeen := false, msixTable := [], msixPend := [] }

/-- Slow-down counters at zero (R187). -/
def Slow.reset : Slow := { router := 0, pricking := 0, raster := 0, bobbin := 0, walker := 0, by' := [] }

/-- A carrel slot with no switch (R182). -/
def CarSlot.reset : CarSlot :=
  { phase := .idle, result := 0, lastUs := 0, start := 0, outCtx := 0, saveAddr := 0, outImage := [], inImage := [],
    loadAddr := 0, slow := Slow.reset, pub := Slow.reset, pubTick := 0 }

/-- STK_ECC_kNN at reset (R208). -/
def StkEcc.reset : StkEcc := { lastWay := 0, lastSet := 0, uncorrected := 0, refetched := 0, corrected := 0 }

/-- HBM_ECC_n and HBM_ERR_n at reset (R218). -/
def HbmEcc.reset : HbmEcc :=
  { retryOut := 0, retried := 0, uncorrected := 0, corrected := 0, errValid := false, errAddr := 0, scrubAt := 0 }

/-- A tensor engine that no block holds (R271, R274). -/
def Engine.reset : Engine := { holder := none, acc := [], ob := [], queue := [], releasing := none, inA := [], inB := [], outN := 0 }

/-- A Bobbin engine with no command (R327). -/
def Bobbin.reset : Bobbin := { cmds := [], token := 0, tile := [], rays := [] }

/-- Encoder state of a stream before its first frame (R408; q and F: DESIGN CHOICE, log 14). -/
def Enc.reset : Enc :=
  { frame := 0, q := 0, f := 0, conf := [], slots := List.replicate 8 none, lastCoded := none }

/-- A power domain at reset (R542). -/
def Dom.reset : Dom :=
  { idleUs := 100, allow := 0, st := .on, toward := 0, resv := false, waking := false, wakeAt := 0,
    wakeSrc := 0, stalled := 0, held := false }

/-- The Hoop at reset (R30); the values in force are those of the reset registers. -/
def Hoop.reset : Hoop :=
  { time := 0, tick := 0, edge := 0, running := false, phase := .idle, perCyc := 416667, marginUs := 100,
    settleUs := 40, settleLate := 0, overrun := 0, settleBusy := [] }

/-- Quotas at reset: the physical function holds the device limits of R62 (R66). -/
def Objects.resetQuotas : Tbl Nat := [(1, 4096), (2, 8192), (3, 65536), (4, 16384), (5, 8192)]

/-- No object is allocated (R62). -/
def Objects.reset : Objects :=
  { ctxs := [], queues := [], fences := [], events := [], graphs := [], gens := [],
    quotas := Objects.resetQuotas, launches := [] }

/-- The translation unit at reset (R131). -/
def Mmu.reset : Mmu :=
  { tlb := [], walkCache := [], walks := [], faults := [], invals := [], carve := 0, carveNext := 0,
    faultsCnt := 0, replyBad := 0, invalBad := 0 }

/-- The Acvik window at reset (R169). -/
def Acv.reset : Acv :=
  { enable := false, nextWord := 0, words := 0, partWords := [], heldWrites := [], ring := [], unowned := 0,
    pend := 0, order := 0, limit := 0 }

/-- The front ends at reset (R138). -/
def FrontEnds.reset : FrontEnds :=
  { dbStale := 0, dbBack := 0, dbOver := 0, dbBad := 0, tokenLost := 0, tokens := [], acv := Acv.reset, order := [] }

/-- Memories with nothing listed, tables empty, counters zero (R208, R218). -/
def Fabric.reset : Fabric :=
  { mem := [], host := [], lines := [], plru := [], shares := [], txns := [], nextTxn := 0, cleans := [],
    tokens := [], seq := 0, stkEcc := [], stkScrub := [], hbm := [], lastRead := [] }

/-- Cores with no group (R39, R270). -/
def Cores.reset : Cores :=
  { lm := [], lmUse := [], groups := [], blocks := [], runs := [], nextId := 0, inbox := [], outs := [], sent := [],
    creditsBack := [], tokens := [], undef := 0 }

/-- Circulation at reset (R437, R439, R441, R461). -/
def Circ.reset : Circ :=
  { mode0 := 3, mode1 := 3, link := 0, addr := [], grants := [], drops := [], streams := [], sends := [],
    tokens := [], out := [], engine := 0 }

/-- Selvage at reset (R499). -/
def Twin.reset : Twin :=
  { st := .detached, role := false, lanes := 0, cause := 0, taken := 0, lost := 0, move := false, replays := 0,
    retrains := 0, mirrorLate := 0, partner := none, attachTick := 0, idOk := none, mirror := none,
    mirrorDone := false, lateRun := 0, hbOut := false, hbIn := false, hbSampled := false, takeovers := [],
    leaveEdge := none, leaver := false, retrying := false, replayTries := 0, ctl := [], peer := [], shown := none,
    leaveMove := false, sentMirror := [], training := false, retryAt := 0, watch := false, nonce := [], answer := .none }

/-- Fault registers at reset (R499). -/
def Faults.reset : Faults :=
  { valid := false, tick := 0, scope := 0, unit := 0, means := 0, oosQuads := 0, oosUnits := 0, failed := false,
    window := 0, windows := 0, progress := [], retried := [] }

/-- Firmware and boot at reset (R507, R519, R525). -/
def Firmware.reset : Firmware :=
  { bootImage := 0, bootCharter := 0, boot := .reset, code := 0, object := 0, goTime := 0, dieId := none,
    charter := none, accepted := false, running := false, restarting := false, kicked := false, expiryDue := false,
    restartCount := 0, restartCause := 0, restartTick := 0, restartTicks := [], graceTicks := 240, linkDown := false, book := [],
    bookRing := Ring.reset, groups := 0, reqs := [], fwToken := 0, spdmVersion := false, spdmCaps := false,
    spdmAlgs := false, spdmOut := [], trims := [] }

/-- The power controller at reset (R539, R542, R552, R558). -/
def Power.reset : Power :=
  { levelNow := 0, clamp := false, throttling := false, s3Refused := false, vlate := 0, throttleMs := 0,
    limit := 0x578, limitNext := 0x578, powerMw := 0, overRun := 0, intArmed := true, windowAt := 0, vcmd := none,
    vOk := 0, held := none, wakeTick := 0, wakeDom := 0, wakeSrc := 0, doms := [], s3Req := false, inS3 := false,
    exiting := false, lock := 0 }

/-- The board with its rails good, out of reset (R584); `tj` is 25 °C (DESIGN CHOICE, log 15), the debug port holds
IDCODE (PRESUMED, log 16). -/
def Board.reset : Board :=
  { powerOk := true, perstN := true, inReset := false, strap := false, twinSel := false, thermtrip := false,
    tj := 200, sidePtr := 0, sideData := [], jtag := .idcode, tdo := none }

/-- The machine right after a cold reset (spec/00: the Reset column gives the value after a cold reset). -/
def State.reset : State :=
  { hoop := Hoop.reset
    regs := { active := [], shadow := [] }
    acc := { slots := List.replicate 4 AccSlot.reset, targetHost := 0, targetFw := 0, stray := 0 }
    obj := Objects.reset
    fns := []
    mmu := Mmu.reset
    fe := FrontEnds.reset
    car := []
    fab := Fabric.reset
    cores := Cores.reset
    eng := { eng := [], tokens := [], discarded := 0, unclaimed := 0, claimBad := 0 }
    bob := { eng := [], bad := 0, unsorted := 0, limit := 0, trunc := 0 }
    ras := { passes := [], overflow := 0, invalid := 0, culled := 0, degenerate := 0 }
    cch := { stat := [], comps := [], token := 0, start := 0 }
    cod := { enc := [], start := 0, superQ := [], encRuns := [], bindRuns := [], resets := 0, forcedKey := 0, repeats := 0, full := 0, stored := 0 }
    circ := Circ.reset
    twin := Twin.reset
    flt := Faults.reset
    fw := Firmware.reset
    pwr := Power.reset
    brd := Board.reset
    bus := { latch := [], hostData := 0, abort := false }
    free := 0
    pending := [] }

/-! ## The reasons a step can stop -/

/-- Faults of a step. No rule of the spec stops the device: every fault of the manual is an effect on its state
(R486 to R499). -/
inductive Fault where
  /-- No meaning raises it (safe: nothing can be proved from it); it stands so that the type is not empty. -/
  | none
  deriving DecidableEq, Repr

/-- Refusals of a step. -/
inductive Refusal where
  /-- Raised by an arm of `exec` whose command has no meaning yet (safe). -/
  | notModelled (mnemonic : String)
  deriving DecidableEq, Repr

end Sys2Proof.Machine
end

