-- ==== Sys2Proof/Machine/Ops.lean ====
section
/-! DEFINITION. Operations shared by every family: tables, memories, the register file, time, rings of records,
interrupts, handles and free values. -/

namespace Sys2Proof.Machine

/-! ## Tables -/

/-- The value a table holds at a key. -/
def tget {α : Type} : Tbl α → Nat → Option α
  | [], _ => none
  | (k, v) :: t, n => if k = n then some v else tget t n

/-- The value at a key, or a default. -/
def tgetD {α : Type} (t : Tbl α) (n : Nat) (d : α) : α := (tget t n).getD d

/-- Puts a value at a key; keys stay rising. -/
def tset {α : Type} : Tbl α → Nat → α → Tbl α
  | [], n, v => [(n, v)]
  | (k, w) :: t, n, v =>
    if n < k then (n, v) :: (k, w) :: t else if n = k then (n, v) :: t else (k, w) :: tset t n v

/-- Removes a key. -/
def tdel {α : Type} (t : Tbl α) (n : Nat) : Tbl α := t.filter fun e => e.1 ≠ n

/-- Changes the value at a key, if there is one. -/
def tmod {α : Type} (t : Tbl α) (n : Nat) (f : α → α) : Tbl α :=
  t.map fun e => if e.1 = n then (e.1, f e.2) else e

/-- Changes every value. -/
def tmap {α : Type} (t : Tbl α) (f : Nat → α → α) : Tbl α := t.map fun e => (e.1, f e.1 e.2)

/-- The lowest key from `n` upward that a table (keys rising) does not hold. -/
def lowestFree {α : Type} : Tbl α → Nat → Nat
  | [], n => n
  | (k, _) :: t, n => if k = n then lowestFree t (n + 1) else if k < n then lowestFree t n else n

/-! ## Bytes and memories -/

/-- A number from bytes, least significant first (spec/00 R10). -/
def leNat : List Byte → Nat
  | [] => 0
  | b :: t => b.toNat + 256 * leNat t

/-- The low `n` bytes of a number, least significant first. -/
def toLE : Nat → Nat → List Byte
  | 0, _ => []
  | n + 1, v => BitVec.ofNat 8 v :: toLE n (v / 256)

/-- A number from bytes, most significant first (Circulation headers, spec/00 R10). -/
def beNat (l : List Byte) : Nat := leNat l.reverse

/-- The low `n` bytes of a number, most significant first. -/
def toBE (n v : Nat) : List Byte := (toLE n v).reverse

/-- One byte of a memory; an unlisted address reads 0 (log 3, log 4, log 5). -/
def mget : Mem → Nat → Byte
  | [], _ => 0
  | (k, b) :: t, a => if k = a then b else mget t a

/-- One byte written: the canonical form is kept, so writing 0 removes the entry. -/
def mset : Mem → Nat → Byte → Mem
  | [], a, b => if b = 0 then [] else [(a, b)]
  | (k, c) :: t, a, b =>
    if a < k then (if b = 0 then (k, c) :: t else (a, b) :: (k, c) :: t)
    else if a = k then (if b = 0 then t else (a, b) :: t)
    else (k, c) :: mset t a b

/-- The canonical form: addresses strictly rising, no listed byte 0. -/
def Mem.wf : Mem → Bool
  | [] => true
  | [(_, b)] => b ≠ 0
  | (k, b) :: (k', b') :: t => decide (b ≠ 0) && decide (k < k') && Mem.wf ((k', b') :: t)

/-- `n` bytes from an address. -/
def mread (m : Mem) (a : Nat) : Nat → List Byte
  | 0 => []
  | n + 1 => mget m a :: mread m (a + 1) n

/-- Bytes written from an address upward. -/
def mwrite (m : Mem) (a : Nat) : List Byte → Mem
  | [] => m
  | b :: t => mwrite (mset m a b) (a + 1) t

/-- Every byte from `a` to `a + n - 1` becomes 0. -/
def mzero (m : Mem) (a n : Nat) : Mem := m.filter fun c => !(decide (a ≤ c.1) && decide (c.1 < a + n))

/-- A little-endian number of `n` bytes in a memory. -/
def mnat (m : Mem) (a n : Nat) : Nat := leNat (mread m a n)

/-- The bytes of a list that a mask marks, written; the others left (spec/07 R202). -/
def mwriteMask (m : Mem) (a : Nat) : List Byte → List Bool → Mem
  | b :: t, k :: ks => mwriteMask (if k then mset m a b else m) (a + 1) t ks
  | _, _ => m

/-- A part of a list. -/
def slice {α : Type} (l : List α) (a n : Nat) : List α := (l.drop a).take n

/-- A list with the values of another put over it from a place upward. -/
def overlay {α : Type} (l : List α) (a : Nat) (v : List α) : List α := l.take a ++ v ++ l.drop (a + v.length)

/-! ## Counters and clamps -/

/-- A count that adds and stays at its highest value. -/
def satAdd (hi v n : Nat) : Nat := min hi (v + n)

/-- The nearest value of a range (spec/02 R45, spec/03 R69). -/
def clamp (lo hi v : Nat) : Nat := max lo (min hi v)

/-- The nearest power of two from 2^lo to 2^hi, ties to the lower (R69): the count of powers whose upper half-way
point lies below `v`. -/
def clampPow2 (lo hi v : Nat) : Nat :=
  2 ^ (lo + ((List.range (hi - lo)).filter fun k => decide (3 * 2 ^ (lo + k) < 2 * v)).length)

/-- Integer ceiling of a quotient. -/
def cdiv (a b : Nat) : Nat := (a + b - 1) / b

/-- The number of one bits of a number below 2^n. -/
def popcount (n v : Nat) : Nat := ((List.range n).filter fun i => v.testBit i).length

/-- The numbers of the one bits of a number below 2^n, ascending. -/
def bitList (n v : Nat) : List Nat := (List.range n).filter fun i => v.testBit i

/-! ## Free values -/

/-- The next free value (log 2). -/
def free (s : State) : W64 := Config.freeValue s.free

/-- One free value has been drawn. -/
def drew (s : State) : State := { s with free := s.free + 1 }

/-- `n` free bytes from the counter's place. -/
def freeBytes (s : State) (n : Nat) : List Byte :=
  (List.range n).map fun k => BitVec.ofNat 8 ((Config.freeValue (s.free + k)).toNat)

/-- `n` free values have been drawn. -/
def drewN (s : State) (n : Nat) : State := { s with free := s.free + n }

/-! ## The part (spec/00 R1 to R6) -/

/-- SKU, as the charter gives it: the part is a CHT9408-LQ when its mask has 14 clusters (R4). -/
def clusterMask (s : State) : Nat := if s.fw.accepted then (s.fw.charter.map (·.clusters)).getD 0 else 0

/-- A cluster that exists on the part (R5). -/
def hasCluster (s : State) (k : Nat) : Bool := decide (k < 16) && (clusterMask s).testBit k

/-- A quad that exists on the part (R5, R16). -/
def hasQuad (s : State) (q : Nat) : Bool := hasCluster s (q / 4)

/-- The part has 14 clusters (R6). -/
def isSmall (s : State) : Bool := popcount 16 (clusterMask s) == 14

/-- Carrel slots of the part (R6). -/
def slotCount (s : State) : Nat := if isSmall s then 42 else 48

/-! ## Shadowed registers (spec/02 R41 to R46, spec/19 R565) -/

/-- BAR0 offsets of the active copies. -/
def oPeriod : Nat := 0x8
def oMargin : Nat := 0x10
def oQuads (n : Nat) : Nat := 0x400000 + n * 0x40
def oOwner (n : Nat) : Nat := 0x400008 + n * 0x40
def oRt (n : Nat) : Nat := 0x400010 + n * 0x40
def oRetain (n : Nat) : Nat := 0x400018 + n * 0x40
def oSave (n : Nat) : Nat := 0x400020 + n * 0x40
def oLoad (n : Nat) : Nat := 0x400028 + n * 0x40
def oWays (k hi : Nat) : Nat := 0x401000 + k * 0x10 + hi * 8
def oStk (k : Nat) : Nat := 0x600000 + k * 0x10
def oGroup (hi : Nat) : Nat := 0x700000 + hi * 8
def oPlevel : Nat := 0x1300000
def oTarget (t r : Nat) : Nat := 0xC00000 + t * 0x200 + r
def oLayer (t l r : Nat) : Nat := 0xC00040 + t * 0x200 + l * 0x20 + r

/-- The target of a composition register offset, and the offset within its 0x200 B (spec/13 R388). -/
def targetOf (off : Nat) : Option (Nat × Nat) :=
  if 0xC00000 ≤ off ∧ off < 0xC20000 then some ((off - 0xC00000) / 0x200, (off - 0xC00000) % 0x200) else none

/-- Whether an active offset is that of a shadowed register (spec/19 R565, spec/06 R170, spec/13 R388). -/
def isShadowed (off : Nat) : Bool :=
  off = oPeriod || off = oMargin || off = oPlevel || off = oGroup 0 || off = oGroup 1 ||
  (decide (0x400000 ≤ off) && decide (off < 0x400C00) && (off % 0x40) % 8 = 0 && decide (off % 0x40 ≤ 0x28)) ||
  (decide (0x401000 ≤ off) && decide (off < 0x401100) && off % 8 = 0) ||
  (decide (0x600000 ≤ off) && decide (off < 0x600100) && off % 0x10 = 0) ||
  match targetOf off with
  | some (_, r) => r % 8 = 0 && (decide (r ≤ 0x28) || (decide (0x40 ≤ r) && decide (r < 0x140)))
  | none => false

/-- Registers of 32 bits among the shadowed (spec/02 R30, spec/07 R199, spec/18 R533). -/
def isShort (off : Nat) : Bool :=
  off = oPeriod || off = oMargin || off = oPlevel || (decide (0x600000 ≤ off) && decide (off < 0x600100))

/-- Value after reset (spec/02 R30, spec/13 R389, R390; every other shadowed register is 0). -/
def resetOf (off : Nat) : W64 :=
  if off = oPeriod then 0x65B9B
  else if off = oMargin then 0x280064
  else match targetOf off with
  | some (_, r) =>
    if r = 0x08 then 0x8
    else if r = 0x20 then 0x000F000004380780
    else if 0x40 ≤ r ∧ r < 0x140 ∧ r % 0x20 = 0 then 0xFF00010000
    else if 0x40 ≤ r ∧ r < 0x140 ∧ r % 0x20 = 0x10 then 0x0001000100000000
    else 0
  | none => 0

/-- The active copy. -/
def active (s : State) (off : Nat) : Nat := (tgetD s.regs.active off (resetOf off)).toNat

/-- The shadow copy. -/
def shadowOf (s : State) (off : Nat) : Nat := (tgetD s.regs.shadow off (resetOf off)).toNat

/-- The owning context handle of a slot (spec/06 R170). -/
def slotOwner (s : State) (n : Nat) : Nat := nbits (active s (oOwner n)) 31 0

/-- The function a slot is granted to. -/
def slotGrant (s : State) (n : Nat) : Nat := nbits (active s (oOwner n)) 37 32

/-- The quads of a slot, ascending. -/
def slotQuads (s : State) (n : Nat) : List Nat := bitList 64 (active s (oQuads n))

/-- Way byte of slice k, way w (spec/06): ASSIGN [7], RETAIN [6], SLOT [5:0]. -/
def wayByte (s : State) (k w : Nat) : Nat := nbits (active s (oWays k (w / 8))) (8 * (w % 8) + 7) (8 * (w % 8))

/-- Way w of slice k belongs to slot n (the way mask of spec/06). -/
def wayOf (s : State) (n k w : Nat) : Bool := decide (128 ≤ wayByte s k w) && wayByte s k w % 64 == n

/-- Way w of slice k is pinned scratch (spec/07 R199). -/
def wayPinned (s : State) (k w : Nat) : Bool := (active s (oStk k)).testBit w

/-- Group byte of channel group g (spec/07 R212): ASSIGN [7], TWIN [6], SLOT [5:0]. -/
def groupByte (s : State) (g : Nat) : Nat := nbits (active s (oGroup (g / 8))) (8 * (g % 8) + 7) (8 * (g % 8))

/-- The lowest slot whose active owning context is a handle (spec/05 R139). -/
def slotOfCtx (s : State) (h : Nat) : Option Nat := (List.range 48).find? fun n => slotOwner s n == h && h != 0

/-! ## Time (spec/02 R27, R31) -/

/-- The edge that ends the period in progress. -/
def periodEnd (s : State) : Nat := s.hoop.edge + s.hoop.perCyc

/-- The margin start M of the period in progress. -/
def marginAt (s : State) : Nat := periodEnd s - s.hoop.marginUs * 100

/-- The cutoff C of the period in progress. -/
def cutoffAt (s : State) : Nat := periodEnd s - s.hoop.settleUs * 100

/-- The period is in its open phase, or no period has begun (R31). -/
def isOpen (s : State) : Bool := s.hoop.phase = .opened

/-! ## Functions, host memory and interrupts -/

/-- What a function holds. -/
def fnOf (s : State) (f : Nat) : Fn := tgetD s.fns f Fn.reset

/-- A function's record replaced. -/
def setFn (s : State) (f : Nat) (x : Fn) : State := { s with fns := tset s.fns f x }

/-- Bytes written to host memory. -/
def hostWrite (s : State) (a : Nat) (l : List Byte) : State :=
  { s with fab := { s.fab with host := mwrite s.fab.host a l } }

/-- MSI-X vectors of a function (spec/19 R574). -/
def vectorsOf (f : Nat) : Nat := if f = 0 then 64 else 8

/-- The two words of an MSI-X table entry: message address, then data with the mask bit at [32]. An entry that has not
been written is masked (log 12). -/
def msixWord (x : Fn) (i : Nat) : W64 := tgetD x.msixTable i (if i % 2 = 1 then 0x100000000 else 0)

/-- A function raises a vector: its message is written, or its pending bit is set while it is masked; a second
interrupt while one is pending merges (spec/19 R574, spec/03 R96; log 12). None before RUNNING (R571). -/
def raiseMsix (s : State) (f v : Nat) : State :=
  let x := fnOf s f
  if s.fw.boot ≠ .running ∨ vectorsOf f ≤ v then s
  else if bit (msixWord x (2 * v + 1)) 32 then
    (if x.msixPend.contains v then s else setFn s f { x with msixPend := v :: x.msixPend })
  else hostWrite s (msixWord x (2 * v)).toNat (toLE 4 (msixWord x (2 * v + 1)).toNat)

/-! ## Rings of records in host memory (spec/03 R91, R92, R96) -/

/-- The entry after the write index is HEAD (R96). -/
def ringFull (r : Ring) (head : Nat) : Bool := (r.written + 1) % r.entries == head % r.entries

/-- The PHASE bit of the next record: 1 in the first pass, inverted on each wrap (R92). -/
def ringPhase (r : Ring) : Nat := if (r.written / r.entries) % 2 = 0 then 1 else 0

/-- A record for a ring, as a 256-bit number without PHASE, DROPPED and SEQ: HEAD is read once when the cached copy
shows the ring full; a full ring, or one not set, drops the record (R91, R96). The last part says whether it was
written. -/
def ringPut (m : Mem) (r : Ring) (rec : Nat) : Mem × Ring × Bool :=
  match r.base with
  | none => (m, { r with dropped := satAdd 0x7FFF r.dropped 1 }, false)
  | some b =>
    let r := if ringFull r r.head then { r with head := mnat m b.toNat 4 } else r
    if ringFull r r.head then (m, { r with dropped := satAdd 0x7FFF r.dropped 1 }, false)
    else
      let v := rec + ringPhase r * 2 ^ 63 + r.dropped * 2 ^ 48 + (r.written % 65536) * 2 ^ 32
      (mwrite m (b.toNat + 64 + 32 * (r.written % r.entries)) (toLE 32 v),
        { r with written := r.written + 1, dropped := 0 }, true)

/-- An event record of a function (R92, R93), and the interrupt of its ring when written. -/
def eventRec (s : State) (f kind status reason event object value : Nat) : State :=
  let x := fnOf s f
  let rec' := s.hoop.time % 2 ^ 64 * 2 ^ 192 + value * 2 ^ 128 + object * 2 ^ 96 + event * 2 ^ 64 +
    reason * 2 ^ 16 + status * 2 ^ 8 + kind
  let (m, r, w) := ringPut s.fab.host x.events rec'
  let s := setFn { s with fab := { s.fab with host := m } } f { x with events := r }
  if w then raiseMsix s f r.vector else s

/-- A day-book record as a number, without PHASE, DROPPED and SEQ (spec/17 R513). -/
def bookWord (d : DbRec) : Nat :=
  d.time % 2 ^ 64 * 2 ^ 192 + d.arg1.toNat * 2 ^ 128 + d.arg0.toNat * 2 ^ 96 + d.obj.toNat * 2 ^ 64 + d.code

/-- Firmware writes a day-book record: it keeps the newest 1,024, and the placed ring takes it (R513, R514). -/
def dayBook (s : State) (code obj arg0 arg1 : Nat) : State :=
  let d : DbRec := { time := s.hoop.time, arg1 := BitVec.ofNat 64 arg1, arg0 := BitVec.ofNat 32 arg0,
                     obj := BitVec.ofNat 32 obj, code := code }
  let book := s.fw.book ++ [d]
  let book := book.drop (book.length - 1024)
  match s.fw.bookRing.base with
  | none => { s with fw := { s.fw with book := book } }
  | some _ =>
    let (m, r, _) := ringPut s.fab.host s.fw.bookRing (bookWord d)
    { s with fab := { s.fab with host := m }, fw := { s.fw with book := book, bookRing := r } }

/-- A marginalia point of a group writes a record 0x00F0 when the group is enabled (R515). -/
def trace (s : State) (group point obj arg1 : Nat) : State :=
  if s.fw.groups.toNat.testBit group then dayBook s 0x00F0 obj (group * 65536 + point) arg1 else s

/-- A marginalia point whose ARG1 the spec does not state: a free value (log 18). -/
def traceFree (s : State) (group point obj : Nat) : State :=
  if s.fw.groups.toNat.testBit group then dayBook (drew s) 0x00F0 obj (group * 65536 + point) (free s).toNat else s

/-! ## Handles (spec/03 R62 to R65) -/

/-- Object statuses of R68. -/
def stOk : Nat := 0x00
def stDeferred : Nat := 0x01
def stRange : Nat := 0x02
def stStale : Nat := 0x03
def stForeign : Nat := 0x04
def stLost : Nat := 0x05
def stBusy : Nat := 0x06
def stQuota : Nat := 0x07
def stAdmit : Nat := 0x08

/-- Device-wide limit of an object type (R62). -/
def typeLimit (ty : Nat) : Nat :=
  if ty = 1 then 4096 else if ty = 2 then 8192 else if ty = 3 then 65536 else if ty = 4 then 16384
  else if ty = 5 then 8192 else 0

/-- A handle (R63). -/
def mkHandle (ty func gen idx : Nat) : Nat := ty * 2 ^ 28 + func * 2 ^ 22 + gen * 2 ^ 16 + idx

/-- Fields of a handle (R63). -/
def hType (h : Nat) : Nat := nbits h 31 28
def hFunc (h : Nat) : Nat := nbits h 27 22
def hGen (h : Nat) : Nat := nbits h 21 16
def hIdx (h : Nat) : Nat := nbits h 15 0

/-- Generation of an index (R63); 0 until it is first freed (log 11). -/
def genOf (o : Objects) (ty idx : Nat) : Nat := tgetD o.gens (ty * 65536 + idx) 0

/-- The generation after the index is freed (R63). -/
def bumpGen (o : Objects) (ty idx : Nat) : Objects :=
  { o with gens := tset o.gens (ty * 65536 + idx) ((genOf o ty idx + 1) % 64) }

/-- The function that owns an allocated index. -/
def ownerFn (o : Objects) (ty idx : Nat) : Option Nat :=
  if ty = 1 then (tget o.ctxs idx).map (·.func)
  else if ty = 2 then (tget o.queues idx).map (·.func)
  else if ty = 3 then (tget o.fences idx).map (·.func)
  else if ty = 4 then (tget o.events idx).map (·.func)
  else if ty = 5 then (tget o.graphs idx).map (·.func)
  else none

/-- The handle of an allocated index. -/
def handleOf (o : Objects) (ty idx : Nat) : Nat := mkHandle ty ((ownerFn o ty idx).getD 0) (genOf o ty idx) idx

/-- R64: the index a handle names, or RANGE or STALE. -/
def lookup (o : Objects) (ty h : Nat) : Except Nat Nat :=
  if hType h ≠ ty ∨ typeLimit ty ≤ hIdx h then .error stRange
  else if (ownerFn o ty (hIdx h)).isNone ∨ hGen h ≠ genOf o ty (hIdx h) then .error stStale
  else .ok (hIdx h)

/-- Objects of a type that a function holds (R66). -/
def countOf (o : Objects) (ty f : Nat) : Nat :=
  if ty = 1 then (o.ctxs.filter fun e => e.2.func == f).length
  else if ty = 2 then (o.queues.filter fun e => e.2.func == f).length
  else if ty = 3 then (o.fences.filter fun e => e.2.func == f).length
  else if ty = 4 then (o.events.filter fun e => e.2.func == f).length
  else (o.graphs.filter fun e => e.2.func == f).length

/-- Objects of a type on the device. -/
def allocated (o : Objects) (ty : Nat) : Nat :=
  if ty = 1 then o.ctxs.length else if ty = 2 then (o.queues.filter fun e => e.1 < 8192).length
  else if ty = 3 then o.fences.length
  else if ty = 4 then o.events.length else o.graphs.length

/-- A function's quota of a type (R66). -/
def quotaOf (o : Objects) (ty f : Nat) : Nat := tgetD o.quotas (f * 8 + ty) 0

/-- A context's state, if its index is allocated. -/
def ctxOf (s : State) (c : Nat) : Option Ctx := tget s.obj.ctxs c

/-- A context is ACTIVE (R71). -/
def ctxActive (s : State) (c : Nat) : Bool :=
  match ctxOf s c with
  | some x => x.st = .active
  | none => false

/-- The current handle of a context. -/
def ctxHandle (s : State) (c : Nat) : Nat := handleOf s.obj 1 c

/-- The objects replaced. -/
def setObj (s : State) (o : Objects) : State := { s with obj := o }

/-- A queue replaced. -/
def setQueue (s : State) (q : Nat) (x : Queue) : State := setObj s { s.obj with queues := tset s.obj.queues q x }

/-- A fence replaced. -/
def setFence (s : State) (f : Nat) (x : Fence) : State := setObj s { s.obj with fences := tset s.obj.fences f x }

/-! ## Firmware completions (spec/17 R508 to R511) -/

/-- Entries of a firmware ring from its BASE register: 2^LOG2. -/
def ringLog2 (v : W64) : Nat := 2 ^ bits v 3 0

/-- Host address of a firmware ring. -/
def ringAddr (v : W64) : Nat := bits v 63 12 * 4096

/-- Firmware takes the function's next command: Velhinto runs, the command ring holds 1 to E commands, and the
completion ring is not full (R511). An ACC_REQUEST of the function that has not completed holds back the commands after
it, which complete in ring order (R511, R512). -/
def fwTakes (s : State) (f : Nat) : Bool :=
  let x := fnOf s f
  let held := (x.cmdTail - x.taken).toNat
  let out := (x.written - x.cplHead).toNat
  s.fw.running && !(s.fw.reqs.any fun r => r.func == f) && decide (1 ≤ held) && decide (held ≤ ringLog2 x.cmdBase) && decide (out < ringLog2 x.cplBase)

/-- The count T of commands taken advances (R511). -/
def fwTake (s : State) (f cmd : Nat) : State :=
  let s := setFn s f { fnOf s f with taken := (fnOf s f).taken + 1 }
  trace s 2 0 f cmd

/-- The completion of a command: 32 B under the ordering and PHASE of R92, then the firmware vector (R509, R511). -/
def fwComplete (s : State) (f cmd : Nat) (tag : W32) (status result : Nat) : State :=
  let x := fnOf s f
  let e := ringLog2 x.cplBase
  let i := x.written.toNat
  let v := result * 2 ^ 128 + tag.toNat * 2 ^ 96 + (if (i / e) % 2 = 0 then 1 else 0) * 2 ^ 63 + status
  let s := hostWrite s (ringAddr x.cplBase + 32 * (i % e)) (toLE 32 v)
  let s := setFn s f { x with written := x.written + 1 }
  raiseMsix (trace s 2 1 f (cmd + status * 2 ^ 32)) f 0

/-- A firmware command as one step: taken when R511 lets it, then its effect with its status and result, then `post`
with that status, then its completion. An effect that gives a status other than OK or DEFERRED changes nothing (R68). -/
def fwCommandWith (s : State) (c : Call) (cmd : Nat) (op : State → State × Nat × Nat) (post : Nat → State → State) :
    State :=
  if fwTakes s c.func then
    let s := fwTake s c.func cmd
    let (t, st, res) := op s
    fwComplete (post st (if st = stOk ∨ st = stDeferred then t else s)) c.func cmd c.tag st res
  else s

/-- A firmware command with nothing between its effect and its completion. -/
def fwCommand (s : State) (c : Call) (cmd : Nat) (op : State → State × Nat × Nat) : State :=
  fwCommandWith s c cmd op fun _ s => s

/-- A command reserved to the physical function (R510). -/
def pfOnly (c : Call) (op : State → State × Nat × Nat) (s : State) : State × Nat × Nat :=
  if c.func = 0 then op s else (s, stForeign, 0)

/-! ## Progress of units (spec/16 R496) -/

/-- A unit makes progress in the monitor window. -/
def moves (s : State) (u : UnitRef) : State :=
  if s.flt.progress.contains u then s else { s with flt := { s.flt with progress := u :: s.flt.progress } }

/-- The quad, the cluster, a media unit and a logical port as units with a monitor. -/
def quadRef (q : Nat) : UnitRef := .quad (Fin.ofNat 64 q)
def clusterRef (k : Nat) : UnitRef := .cluster (Fin.ofNat 16 k)
def mediaRef (n : Nat) : UnitRef := .media (Fin.ofNat 16 n)
def portRef (l : Nat) : UnitRef := .port (Fin.ofNat 8 l)

end Sys2Proof.Machine
end

