-- ==== Sys2Proof/Machine/Memory.lean ====
section
/-! DEFINITION. Local physical memory and the stack tier in cache mode (spec/04 R105, R106; spec/07 R199 to R216). -/

namespace Sys2Proof.Machine

/-! ## The local physical map (R106) -/

/-- What a physical address reaches (R105, R106). -/
inductive Place where
  | hbm | carve | scratch (slice way : Nat) | hole | twin
  deriving DecidableEq, Repr

/-- End of the HBM range that the driver allocates, and of HBM. -/
def hbmEnd : Nat := 0x4700000000
def carveEnd : Nat := 0x4800000000
def scratchBase : Nat := 0x200000000000
def scratchEnd : Nat := 0x200020000000

/-- The place of a 47-bit physical address; the windows of absent slices are holes (R106). -/
def placeOf (s : State) (pa : Nat) : Place :=
  if 2 ^ 46 ≤ pa then .twin
  else if pa < hbmEnd then .hbm
  else if pa < carveEnd then .carve
  else if scratchBase ≤ pa ∧ pa < scratchEnd then
    let o := pa - scratchBase
    if hasCluster s (o / 0x2000000) then .scratch (o / 0x2000000) (o % 0x2000000 / 0x200000) else .hole
  else .hole

/-- The channel group of an HBM address (R211). -/
def groupOf (pa : Nat) : Nat := pa / 0x480000000

/-- A unit on behalf of slot `n` may reach a channel group (R214); the hub, walkers, the host link and the management
core always may. -/
def groupOk (s : State) (slot : Option Nat) (g : Nat) : Bool :=
  let b := groupByte s g
  match slot with
  | none => true
  | some n => decide (b < 128) || b % 64 == n

/-! ## Stack tier (R201 to R204) -/

/-- Cache-mode ways of slot `n` in slice `k`. -/
def cacheWays (s : State) (n k : Nat) : List Nat :=
  (List.range 16).filter fun w => wayOf s n k w && !wayPinned s k w

/-- Clusters whose slice holds a cache-mode way of slot `n` (R201 step 2). -/
def cacheClusters (s : State) (n : Nat) : List Nat :=
  (List.range 16).filter fun k => hasCluster s k && !(cacheWays s n k).isEmpty

/-- Home slice of an address for slot `n` (R201 step 3). -/
def homeSlice (s : State) (n pa : Nat) : Option Nat :=
  let cl := cacheClusters s n
  if cl.isEmpty then none else some (cl.getD (nbits pa 45 21 % cl.length) 0)

/-- The tree points away from way `w` after a use of it (R202; log 19). -/
def plruTouch (t w : Nat) : Nat :=
  (List.range 4).foldl (fun t k =>
    let c := (16 + w) / 2 ^ k
    nput t (c / 2) (c / 2) (if c % 2 = 0 then 1 else 0)) t

/-- The way that the tree names among the ways of a list (R202; log 19). -/
def plruVictim (t : Nat) (ways : List Nat) : Nat :=
  ([3, 2, 1, 0].foldl (fun node k =>
    let c := 2 * node + (if t.testBit node then 1 else 0)
    if ways.any fun w => (16 + w) / 2 ^ k == c then c else 2 * node + (if t.testBit node then 0 else 1)) 1) - 16

/-- The dirty bytes of a line, written back (R202). -/
def writeBack (m : Mem) (l : StkLine) : Mem := mwriteMask m (l.addr * 128) l.data l.dirty

/-- A line with nothing dirty. -/
def cleanLine (l : StkLine) : StkLine := { l with dirty := l.dirty.map fun _ => false }

/-- Every dirty byte in the cache-mode ways of slot `n` written back; the lines stay valid and clean (R204). -/
def cleanFab (f : Fabric) (n : Nat) : Fabric :=
  { f with
    mem := f.lines.foldl (fun m l => if l.slot = n then writeBack m l else m) f.mem
    lines := f.lines.map fun l => if l.slot = n then cleanLine l else l }

/-- A clean of slot `n` (R204). -/
def cleanSlot (s : State) (n : Nat) : State := { s with fab := cleanFab s.fab n }

/-- The line that holds an address in slot `n`'s ways of slice `k`. -/
def findLine (s : State) (n k pa : Nat) : Option StkLine :=
  s.fab.lines.find? fun l => l.slot = n && l.slice = k && l.addr = pa / 128 && (cacheWays s n k).contains l.way

/-- Key of the pseudo-LRU tree of a set. -/
def plruKey (k pa : Nat) : Nat := k * 16384 + nbits pa 20 7

/-- A line used: its tree is touched. -/
def touchLine (f : Fabric) (k pa w : Nat) : Fabric :=
  { f with plru := tset f.plru (plruKey k pa) (plruTouch (tgetD f.plru (plruKey k pa) 0) w) }

/-- The way a miss fills: an invalid one of the slot's ways if there is one, else the tree's choice (R202, log 19). -/
def fillWay (s : State) (n k pa : Nat) : Nat :=
  let ways := cacheWays s n k
  let used := s.fab.lines.filter fun l => l.slice = k && (l.addr * 128) % 2 ^ 21 / 128 = nbits pa 20 7
  match ways.find? fun w => !(used.any fun l => l.way = w) with
  | some w => w
  | none => plruVictim (tgetD s.fab.plru (plruKey k pa) 0) ways

/-- The line of an address in the stack tier, filled on a miss, with the eviction of what its way held (R202). -/
def tierLine (s : State) (n k pa : Nat) : State × StkLine :=
  match findLine s n k pa with
  | some l => ({ s with fab := touchLine s.fab k pa l.way }, l)
  | none =>
    let w := fillWay s n k pa
    let inSet (l : StkLine) : Bool := l.slice = k && l.way = w && (l.addr * 128) % 2 ^ 21 / 128 = nbits pa 20 7
    let mem := s.fab.lines.foldl (fun m l => if inSet l then writeBack m l else m) s.fab.mem
    let l : StkLine := { slice := k, way := w, addr := pa / 128, slot := n, data := mread mem (pa / 128 * 128) 128,
                         dirty := List.replicate 128 false }
    let f := { s.fab with mem := mem, lines := l :: s.fab.lines.filter fun x => !inSet x }
    ({ s with fab := touchLine f k pa w }, l)

/-- Bytes read through the tier, line by line. -/
def tierRead (n : Nat) : Nat → State → Nat → Nat → State × List Byte
  | 0, s, _, _ => (s, [])
  | fuel + 1, s, pa, len =>
    if len = 0 then (s, [])
    else match homeSlice s n pa with
    | none => (s, mread s.fab.mem pa len)
    | some k =>
      let here := min len (128 - pa % 128)
      let (s, l) := tierLine s n k pa
      let (s, rest) := tierRead n fuel s (pa + here) (len - here)
      (s, slice l.data (pa % 128) here ++ rest)

/-- A line replaced. -/
def setLine (f : Fabric) (l : StkLine) : Fabric :=
  { f with lines := f.lines.map fun x => if x.slice = l.slice ∧ x.way = l.way ∧ x.addr = l.addr then l else x }

/-- Bytes written through the tier, line by line: write-allocate, with a dirty flag for each byte (R202). -/
def tierWrite (n : Nat) : Nat → State → Nat → List Byte → State
  | 0, s, _, _ => s
  | fuel + 1, s, pa, bs =>
    if bs.isEmpty then s
    else match homeSlice s n pa with
    | none => { s with fab := { s.fab with mem := mwrite s.fab.mem pa bs } }
    | some k =>
      let here := min bs.length (128 - pa % 128)
      let (s, l) := tierLine s n k pa
      let l := { l with data := overlay l.data (pa % 128) (bs.take here)
                        dirty := overlay l.dirty (pa % 128) (List.replicate here true) }
      tierWrite n fuel { s with fab := setLine s.fab l } (pa + here) (bs.drop here)

/-- A local physical read: through the tier for a slot and a leaf with STK = 1 (R201), else from memory. -/
def physRead (s : State) (slot : Option Nat) (stk : Bool) (pa n : Nat) : State × List Byte :=
  match slot, stk with
  | some k, true => tierRead k (n / 128 + 2) s pa n
  | _, _ => (s, mread s.fab.mem pa n)

/-- A local physical write. -/
def physWrite (s : State) (slot : Option Nat) (stk : Bool) (pa : Nat) (bs : List Byte) : State :=
  match slot, stk with
  | some k, true => tierWrite k (bs.length / 128 + 2) s pa bs
  | _, _ => { s with fab := { s.fab with mem := mwrite s.fab.mem pa bs } }

/-! ## Page tables (spec/04 R108 to R112) -/

/-- Lowest address bit that a level's index uses; also the size of a leaf there (R108). -/
def levelShift (l : Nat) : Nat := if l = 0 then 39 else if l = 1 then 30 else if l = 2 then 21 else 16

/-- Index of an address at a level (R108). -/
def levelIndex (l va : Nat) : Nat :=
  if l = 0 then nbits va 51 39 else if l = 1 then nbits va 38 30 else if l = 2 then nbits va 29 21 else nbits va 20 16

/-- Size and alignment of a table at a level (R108). -/
def tableSize (l : Nat) : Nat := if l = 0 then 0x10000 else if l = 3 then 0x100 else 0x1000

/-- ADDR of an entry as an address (R110). -/
def pteAddr (e : Nat) : Nat := nbits e 59 8 * 256

/-- A present entry at a level is malformed (R111). -/
def pteBad (l e : Nat) : Bool :=
  let leaf := e.testBit 1
  decide (nbits e 63 60 ≠ 0) ||
  (if leaf then
    l == 0 || decide (2 ≤ nbits e 7 6) || decide (2 ≤ nbits e 5 4) ||
    (nbits e 5 4 == 1 && nbits e 7 6 != 0) || (nbits e 5 4 == 0 && nbits e 59 47 != 0) ||
    pteAddr e % 2 ^ levelShift l != 0 ||
    (l == 1 && nbits e 5 4 == 0 && pteAddr e % 2 ^ 46 / 2 ^ 30 == scratchBase / 2 ^ 30 && !(pteAddr e).testBit 46)
  else
    l == 3 || nbits e 7 2 != 0 || pteAddr e % tableSize (l + 1) != 0 || decide (hbmEnd < pteAddr e + tableSize (l + 1)))

/-- How a table walk ends (R115): at a leaf of 2^size bytes, at a non-present entry, or at a malformed one. -/
inductive WalkRes where
  | leaf (size e : Nat) | absent | bad
  deriving DecidableEq, Repr

/-- A walk from the table of a level (R112, R115), with the pointers it passed. The fuel is the levels left. -/
def walkFrom (m : Mem) (walker asid va : Nat) : Nat → Nat → Nat → List WalkE × WalkRes
  | 0, _, _ => ([], .bad)
  | fuel + 1, l, table =>
    let e := mnat m (table + 8 * levelIndex l va) 8
    if !e.testBit 0 then ([], .absent)
    else if pteBad l e then ([], .bad)
    else if e.testBit 1 then ([], .leaf (levelShift l) e)
    else
      let (c, r) := walkFrom m walker asid va fuel (l + 1) (pteAddr e)
      ({ walker := walker, place := 0, asid := asid, level := l + 1, pre := va / 2 ^ levelShift l, table := BitVec.ofNat 64 (pteAddr e) } :: c, r)

/-! ## TLBs and walkers (R114, R115) -/

/-- The UNIT code of a unit (R118). -/
def siteCode : Site → Nat
  | .lanes _ => 0x01
  | .tensor _ => 0x02
  | .bobbin _ _ => 0x03
  | .binner _ => 0x04
  | .raster _ => 0x04
  | .frontEnd _ => 0x05
  | .copyUnit _ => 0x06
  | .image _ => 0x07
  | .encoder _ => 0x10
  | .bindery _ => 0x10
  | .couching _ => 0x10
  | .port _ => 0x10

/-- The quad on whose behalf a unit issues (R114, spec/07 R196). A slot's front end, copy unit and image mover issue on
behalf of its lowest-numbered quad (log 106). -/
def siteQuad (s : State) : Site → Option Nat
  | .lanes c => some (c / 4)
  | .tensor c => some (c / 4)
  | .bobbin _ q => some q
  | .binner q => some q
  | .raster q => some q
  | .frontEnd n => (slotQuads s n).head?
  | .copyUnit n => (slotQuads s n).head?
  | .image n => (slotQuads s n).head?
  | _ => none

/-- The caches that an access of a unit asks, nearest first, by number: core TLBs 0 to 255, the ways of the cluster TLBs by
quad from 256, unit TLBs of binners from 320, rasterizers from 336, Bobbin engines from 352 and front ends from 384, the
hub TLB 448, and the hub units' TLBs from 449 (R114; copy units and image movers have none of their own). -/
def tlbPath (s : State) (u : Site) : List Nat :=
  let quad : List Nat := ((siteQuad s u).map (256 + ·)).toList
  match u with
  | .lanes c => c :: quad
  | .tensor c => c :: quad
  | .binner q => (320 + q / 4) :: quad
  | .raster q => (336 + q / 4) :: quad
  | .bobbin b q => (352 + 2 * (q / 4) + b) :: quad
  | .frontEnd n => (384 + n) :: quad
  | .copyUnit _ => quad
  | .image _ => quad
  | .encoder n => [449 + n, 448]
  | .bindery n => [461 + n, 448]
  | .port n => [465 + n, 448]
  | .couching n => [467 + n, 448]

/-- Sets and ways of a cache (R114): a cluster TLB gives each quad 2 of its 8 ways. -/
def tlbShape (t : Nat) : Nat × Nat :=
  if t < 256 then (1, 64) else if t < 320 then (512, 2) else if t = 448 then (256, 8) else (1, 32)

/-- The cached leaf of an address, in the nearest cache that holds one (R114). -/
def tlbHit (s : State) (path : List Nat) (asid va : Nat) : Option TlbE :=
  path.findSome? fun t => s.mmu.tlb.find? fun e => e.tlb = t && e.asid = asid && e.page = va / 2 ^ e.bitsz

/-- The place that a fill takes among `n`: the lowest free one, else the one that a free value names (log 107). -/
def fillPlace (s : State) (n : Nat) (used : List Nat) : State × Nat :=
  match (List.range n).find? fun w => !used.contains w with
  | some w => (s, w)
  | none => (drew s, (free s).toNat % n)

/-- A leaf enters a cache that does not hold it (R114, R116). The set is the page number modulo the sets (log 107). -/
def fillTlb (s : State) (e : TlbE) (t : Nat) : State :=
  if s.mmu.tlb.any fun x => x.tlb = t && x.asid = e.asid && x.page = e.page && x.bitsz = e.bitsz then s
  else
    let set := e.page % (tlbShape t).1
    let (s, w) := fillPlace s (tlbShape t).2 ((s.mmu.tlb.filter fun x => x.tlb = t && x.set = set).map (·.way))
    let keep := s.mmu.tlb.filter fun x => !(x.tlb == t && x.set == set && x.way == w)
    { s with mmu := { s.mmu with tlb := { e with tlb := t, set := set, way := w } :: keep } }

/-- A leaf enters every cache of a path. -/
def fillPath (s : State) (path : List Nat) (e : TlbE) : State := path.foldl (fun s t => fillTlb s e t) s

/-- A pointer enters its walker's cache of 64 (R114, R116). -/
def fillWalk (s : State) (e : WalkE) : State :=
  if s.mmu.walkCache.any fun x => x.walker = e.walker && x.asid = e.asid && x.level = e.level && x.pre = e.pre then s
  else
    let (s, w) := fillPlace s 64 ((s.mmu.walkCache.filter fun x => x.walker = e.walker).map (·.place))
    let keep := s.mmu.walkCache.filter fun x => !(x.walker == e.walker && x.place == w)
    { s with mmu := { s.mmu with walkCache := { e with place := w } :: keep } }

/-- A walker has a free walk slot of its 16 (R115). -/
def walkerFree (s : State) (n : Nat) : Bool := decide ((s.mmu.walks.filter fun e => e.2.walker == n).length < 16)

/-- The walker that serves a unit and has a free walk slot: that of its cluster, or the first such of the hub's two
(R115; log 107). -/
def walkerOf (s : State) (u : Site) : Option Nat :=
  if u.isHub then [16, 17].find? (walkerFree s)
  else match siteQuad s u with
  | some q => if walkerFree s (q / 4) then some (q / 4) else none
  | none => none

/-- The deepest table that a walker's cache holds for an address, else the root (R115). -/
def walkStart (s : State) (walker asid va : Nat) : Nat × Nat :=
  let has (l : Nat) : Option WalkE :=
    s.mmu.walkCache.find? fun w => w.walker = walker && w.asid = asid && w.level = l && w.pre = va / 2 ^ levelShift (l - 1)
  match has 3, has 2, has 1 with
  | some w, _, _ => (3, w.table.toNat)
  | _, some w, _ => (2, w.table.toNat)
  | _, _, some w => (1, w.table.toNat)
  | _, _, _ => (0, ((ctxOf s asid).map (·.root.toNat)).getD 0)

/-- Where a walk begins: at the root for one that walks again (R126), else at the deepest cached pointer (R115). -/
def walkFirst (s : State) (walker : Nat) (fromRoot : Bool) (asid va : Nat) : Nat × Nat :=
  if fromRoot then (0, ((ctxOf s asid).map (·.root.toNat)).getD 0) else walkStart s walker asid va

/-- A walk of an address in a context by a walker, for a unit with a path of TLBs: a present leaf enters them, and present
pointers the walker's cache (R116). -/
def walk (s : State) (walker : Nat) (fromRoot : Bool) (path : List Nat) (asid va : Nat) : State × WalkRes :=
  let (l, t) := walkFirst s walker fromRoot asid va
  let (ptrs, r) := walkFrom s.fab.mem walker asid va (4 - l) l t
  let s := ptrs.foldl fillWalk s
  match r with
  | .leaf size e =>
    (fillPath s path { tlb := 0, set := 0, way := 0, asid := asid, page := va / 2 ^ size, bitsz := size, leaf := BitVec.ofNat 64 e }, r)
  | _ => (s, r)

/-! ## Request tables (spec/07 R195, R196) -/

/-- Enabled clusters of a row of the mesh, west to east. -/
def rowClusters (s : State) (row : Nat) : List Nat := ((List.range 4).map fun c => 4 * row + c).filter (hasCluster s)

/-- A cluster's table holds an edge reserve (R196). -/
def hasReserve (s : State) (k : Nat) : Bool :=
  let l := rowClusters s (k / 4)
  l.head? == some k || l.getLast? == some k

/-- Entries of a share by number: quads 0 to 63, the west-port reserves of rows from 64, the hub-port reserves from 68; none
for a share that the part lacks (R196). -/
def capOf (s : State) (n : Nat) : Nat :=
  if n < 64 then (if !hasQuad s n then 0 else if hasReserve s (n / 4) then 896 else 1024)
  else if (rowClusters s (n % 4)).isEmpty then 0 else 512

/-- A share has a free entry (R197). -/
def shareFree (s : State) (n : Nat) : Bool := decide (tgetD s.fab.shares n 0 < capOf s n)

/-- A unit can take an entry for an access of a step: from its quad's share, or from a hub-port reserve (R195, R196). -/
def entryFree (s : State) (u : Site) : Bool :=
  match siteQuad s u with
  | some q => shareFree s q
  | none => u.isHub && (List.range 4).any fun r => shareFree s (68 + r)

/-! ## The permission check (R113) -/

/-- Who makes a translated access: the context, the carrel slot (none for the media hub), and the unit. -/
structure Who where
  asid : Nat
  slot : Option Nat
  site : Site
  deriving DecidableEq, Repr

/-- What a translation gives: a place, a page that is absent, a failed check, or no free walk slot (R115). -/
inductive Tr where
  | mem (pa : Nat) (stk : Bool) | host (ba : Nat) | twin (pa : Nat) | absent | bad | wait
  deriving DecidableEq, Repr

/-- A twin is attached: also while one leaves, which takes effect at an edge (spec/16 R483, R484, R499). -/
def twinAttached (s : State) : Bool := s.twin.st = .attached || s.twin.st = .leaving

/-- The permission check of a leaf for an access (R113, R128, R214). -/
def checkLeaf (s : State) (w : Who) (k : AccessKind) (va size e : Nat) : Tr :=
  let pa := pteAddr e + va % 2 ^ size
  let stk := nbits e 7 6 = 1
  if (k = .write ∨ k = .atomic) ∧ !e.testBit 2 then .bad
  else if k = .fetch ∧ !e.testBit 3 then .bad
  else if nbits e 5 4 = 1 then .host pa
  else match placeOf s pa with
  | .twin => if twinAttached s ∧ pa % 2 ^ 46 < hbmEnd ∧ ¬ stk then .twin (pa % 2 ^ 46) else .bad
  | .hbm => if groupOk s w.slot (groupOf pa) then .mem pa stk else .bad
  | .carve => .bad
  | .scratch sl wy =>
    match w.slot with
    | some n => if wayOf s n sl wy ∧ wayPinned s sl wy then .mem pa false else .bad
    | none => .bad
  | .hole => .bad

/-- Translation of one access that stays in a 64 KiB page: from a TLB, else by a walk, for which a walk slot must be free
(R104, R113, R115). -/
def translate (s : State) (w : Who) (k : AccessKind) (va : Nat) : State × Tr :=
  let path := tlbPath s w.site
  if 2 ^ 52 ≤ va then (s, .bad)
  else match tlbHit s path w.asid va with
  | some t => (fillPath s path t, checkLeaf s w k va t.bitsz t.leaf.toNat)
  | none =>
    match walkerOf s w.site with
    | none => (s, .wait)
    | some n =>
      match walk s n false path w.asid va with
      | (s, .leaf size e) => (s, checkLeaf s w k va size e)
      | (s, .absent) => (s, .absent)
      | (s, .bad) => (s, .bad)

end Sys2Proof.Machine
end

