-- ==== Sys2Proof/Machine/Objects.lean ====
section
/-! DEFINITION. What fences, events, completions, halts, drains and losses do, shared by every family (spec/03, and the
completion of spec/05 R151 to R154). -/

namespace Sys2Proof.Machine

/-! ## Queues and their records -/

/-- Key of the Acvik window queue (spec/05 R164). -/
def winKey : Nat := 8192

/-- The window queue before its first descriptor: best effort, 32 entries, no completion fence. -/
def Queue.window : Queue :=
  { func := 64, ctx := 4096, cls := 9, ring := 0, entries := 32, rt := false, fence := 0, st := .active, tail := 0,
    retired := 0, tokens := 0, completed := 0, stallEdges := 0, haltIdx := 0, haltStatus := 0, demoted := false, qcUsed := 0, hbUsed := 0, beTaken := 0, unit := 0, slot := 0xFF, bQc := 0,
    bHb := 0, bUc := 0, resume := none, workAtEdge := false, progressed := false, recs := [] }

/-- The context that owns carrel slot c00, or 4,096 for none. -/
def winCtx (s : State) : Nat :=
  match lookup s.obj 1 (slotOwner s 0) with
  | .ok c => c
  | .error _ => 4096

/-- A queue; the window queue belongs to the owning context of c00 (R164). A window descriptor that was taken and is held
at an edge where that context changes stays, and runs for the new owner (DESIGN CHOICE, log 112: R169 discards only what
has not been taken). -/
def getQ (s : State) (q : Nat) : Option Queue :=
  if q = winKey then some { tgetD s.obj.queues winKey Queue.window with ctx := winCtx s } else tget s.obj.queues q

/-- Keys of every queue, the window queue last. -/
def queueKeys (s : State) : List Nat := (s.obj.queues.map (·.1)).filter (· < winKey) ++ [winKey]

/-- Keys of the queues of a context. -/
def queuesOf (s : State) (c : Nat) : List Nat :=
  (queueKeys s).filter fun q => match getQ s q with
    | some x => x.ctx == c
    | none => false

/-- The record of a descriptor. -/
def recOf (x : Queue) (i : W32) : Option Desc := x.recs.find? fun d => d.idx = i

/-- A record changed. -/
def setRec (x : Queue) (d : Desc) : Queue :=
  { x with recs := x.recs.map fun e => if e.idx = d.idx then d else e }

/-- Statuses that halt a queue (R154). -/
def haltSt (st : Nat) : Bool := st == 0x06 || st == 0x10 || st == 0x11 || st == 0x12 || st == 0x13

/-- Opcode of a descriptor. -/
def dOp (d : Desc) : Nat := bits d.pay 7 0

/-- A descriptor is done (R133). -/
def isDone (d : Desc) : Bool :=
  match d.stage with
  | .ended st => !haltSt st
  | _ => false

/-- A descriptor has completed. -/
def isEnded (d : Desc) : Bool :=
  match d.stage with
  | .ended _ => true
  | _ => false

/-- Position of an index from RETIRED upward (R133). -/
def ringDist (x : Queue) (i : W32) : Nat := (i - x.retired).toNat

/-- Whether each record, in ring order, is held (R148): a WAIT or WAIT_TICK that has not started; WAITCH without a
token; BARRIER behind an incomplete descriptor; or behind an earlier held descriptor. -/
def heldList (tokens : Nat) : List Desc → Bool → Bool → List (W32 × Bool)
  | [], _, _ => []
  | d :: t, earlierHeld, earlierOpen =>
    let h := match d.stage with
      | .held => true
      | .taken => dOp d == 1 || dOp d == 3 || (bit d.words 10 && !d.token && tokens == 0) ||
          (bit d.words 11 && earlierOpen) || earlierHeld
      | .armed => dOp d == 1 || dOp d == 3
      | _ => false
    (d.idx, h) :: heldList tokens t (earlierHeld || h) (earlierOpen || !isEnded d)

/-- Chain tokens that the holds of a queue see: WAITCH holds nothing in the window queue, class 9, where it is refused at
the start (R168). -/
def tokensOf (x : Queue) : Nat := if x.cls = 9 then 1 else x.tokens

/-- A record of a queue is held. -/
def isHeld (x : Queue) (i : W32) : Bool := (heldList (tokensOf x) x.recs false false).any fun e => e.1 = i && e.2

/-- A record is in flight: taken, not held, not suspended, not completed (R34, R148, R153). -/
def inFlight (x : Queue) (d : Desc) : Bool :=
  !isEnded d && d.stage != .suspended && !isHeld x d.idx

/-- RETIRED advances over the descriptors that are done (R133). -/
def retireLoop : Nat → Queue → Queue
  | 0, x => x
  | n + 1, x =>
    match recOf x x.retired with
    | some d =>
      if isDone d then
        retireLoop n { x with retired := x.retired + 1, recs := x.recs.filter fun e => e.idx ≠ d.idx }
      else x
    | none => x

/-- The lowest index in ring order that completed with a halting status, with that status (R81). -/
def haltPoint (x : Queue) : Option (W32 × Nat) :=
  x.recs.findSome? fun d => match d.stage with
    | .ended st => if haltSt st then some (d.idx, st) else none
    | _ => none

/-- A queue replaced, the window queue too. -/
def putQ (s : State) (q : Nat) (x : Queue) : State := setQueue s q x

/-! ## Unit work of a descriptor -/

/-- Blocks removed with their groups, local memory, engine claims and Bobbin commands (spec/09 R292, spec/11 R359). -/
def dropBlocks (s : State) (p : Nat → Block → Bool) : State :=
  let ids := (s.cores.blocks.filter fun e => p e.1 e.2).map (·.1)
  { s with
    cores := { s.cores with
      blocks := s.cores.blocks.filter fun e => !ids.contains e.1
      groups := s.cores.groups.filter fun e => !ids.contains e.2.block
      lmUse := s.cores.lmUse.filter fun u => u.tile || !ids.contains u.owner }
    eng := { s.eng with eng := tmap s.eng.eng fun _ e =>
      match e.holder with
      | some b => if ids.contains b then { e with holder := none, queue := [], releasing := none, inA := [], inB := [], outN := 0 } else e
      | none => e }
    bob := { s.bob with eng := tmap s.bob.eng fun _ b =>
      { b with cmds := b.cmds.filter fun c => !ids.contains c.block } } }

/-- Runs removed with their blocks. -/
def dropRuns (s : State) (p : Run → Bool) : State :=
  let ids := (s.cores.runs.filter fun e => p e.2).map (·.1)
  let s := dropBlocks s fun _ b => b.frag.isNone && ids.contains b.run
  { s with cores := { s.cores with runs := s.cores.runs.filter fun e => !ids.contains e.1 } }

/-- Passes removed with their tiles, tile memory and fragment groups (spec/12 R387). -/
def dropPasses (s : State) (p : Pass → Bool) : State :=
  let ids := (s.ras.passes.filter fun e => p e.2).map (·.1)
  let s := dropBlocks s fun _ b => match b.frag with
    | some (i, _, _) => ids.contains i
    | none => false
  { s with
    ras := { s.ras with passes := s.ras.passes.filter fun e => !ids.contains e.1 }
    cores := { s.cores with lmUse := s.cores.lmUse.filter fun u => !(u.tile && ids.contains u.owner) } }

/-- A graph slot's in-flight count lowered by one, of the graph of that generation (R100). -/
def graphDown (o : Objects) (g gen : Nat) (b : Bool) : Objects :=
  if genOf o 5 g ≠ gen then o
  else { o with graphs := tmod o.graphs g fun x =>
      if b then { x with b := { x.b with inflight := x.b.inflight - 1 } }
      else { x with a := { x.a with inflight := x.a.inflight - 1 } } }

/-- The unit work of one descriptor, its graph nodes included, removed. -/
def dropWork (s : State) (q : Nat) (i : W32) : State :=
  let s := dropRuns s fun r => r.q == q && r.i == i
  let s := dropPasses s fun p => p.q == q && p.i == i
  let mine := s.obj.launches.filter fun l => l.q == q && l.i == i
  let o := mine.foldl (fun o l => graphDown o l.graph l.gen l.slotB) s.obj
  { s with
    obj := { o with launches := o.launches.filter fun l => !(l.q == q && l.i == i) }
    cch := { s.cch with comps := s.cch.comps.filter fun c => !(c.q == q && c.i == i) }
    cod := { s.cod with encRuns := s.cod.encRuns.filter fun c => !(c.q == q && c.i == i)
                        bindRuns := s.cod.bindRuns.filter fun c => !(c.q == q && c.i == i) }
    circ := { s.circ with sends := s.circ.sends.filter fun c => !(c.q == q && c.i == i) } }

/-! ## Fences and events -/

/-- R85: `a` is later than `b`. -/
def later (a b : W64) : Bool := decide (1 ≤ (a - b).toNat) && decide ((a - b).toNat < 2 ^ 63)

/-- R85: `a` is at or later than `b`. -/
def atOrLater (a b : W64) : Bool := a = b || later a b

/-- An event object freed (R94, R95). -/
def freeEvent (o : Objects) (e : Nat) : Objects := bumpGen { o with events := tdel o.events e } 4 e

/-- An event object fires if its fence has reached V: one record, then V advances past the value, or the object is
freed when STEP is 0 (R94). -/
def fireEvent (s : State) (e : Nat) : State :=
  match tget s.obj.events e with
  | none => s
  | some x =>
    match tget s.obj.fences x.fence with
    | none => s
    | some f =>
      if !atOrLater f.value x.v then s
      else
        let t := eventRec s x.func 0x01 stOk 0 (handleOf s.obj 4 e) (handleOf s.obj 3 x.fence) f.value.toNat
        if x.step = 0 then setObj t (freeEvent t.obj e)
        else
          let n := (f.value - x.v).toNat / x.step.toNat + 1
          let x := { x with v := x.v + BitVec.ofNat 64 (n * x.step.toNat) }
          setObj t { t.obj with events := tset t.obj.events e x }

/-- Events that watch a fence. -/
def eventsOn (o : Objects) (f : Nat) : List Nat := (o.events.filter fun e => e.2.fence == f).map (·.1)

/-- Every event of a fence fires once with LOST or ABANDONED and is freed (R95). -/
def endEvents (s : State) (f st : Nat) : State :=
  (eventsOn s.obj f).foldl (fun s e =>
    match tget s.obj.events e with
    | none => s
    | some x =>
      let v := ((tget s.obj.fences f).map (·.value.toNat)).getD 0
      let t := eventRec s x.func 0x01 st 0 (handleOf s.obj 4 e) (handleOf s.obj 3 f) v
      setObj t (freeEvent t.obj e)) s

/-- Fence handle and value of a WAIT (spec/05). -/
def waitFence (d : Desc) : Nat := bits d.pay 159 128
def waitValue (d : Desc) : W64 := BitVec.ofNat 64 (bits d.pay 255 192)

/-- A registered wait on a fence is released when the value satisfies it (R87). -/
def releaseDesc (f : Nat) (v : W64) (d : Desc) : Desc :=
  if d.waiting && hIdx (waitFence d) == f && atOrLater v (waitValue d) then { d with waiting := false } else d

/-- Waits that a fence's value satisfies release their waiters (R87): queue descriptors and graph nodes. -/
def releaseWaits (o : Objects) (f : Nat) (v : W64) : Objects :=
  { o with
    queues := tmap o.queues fun _ x => { x with recs := x.recs.map (releaseDesc f v) }
    launches := o.launches.map fun l => { l with nodes := tmap l.nodes fun _ n => { n with d := releaseDesc f v n.d } } }

/-- The mirror write of a fence (R90). -/
def mirrorWrite (s : State) (f : Fence) : State :=
  if f.mirror = 0 then s else hostWrite s f.mirror.toNat (toLE 8 f.value.toNat)

/-- The latest of the accepted signals of a cycle (R86). -/
def latest (v : W64) (sigs : List W64) : W64 :=
  (sigs.filter fun a => later a v).foldl (fun m a => if later a m then a else m) v

/-- Signals of one cycle that count as STALE (R86). -/
def staleCount (v : W64) (sigs : List W64) : Nat := (sigs.filter fun a => !later a v && a != v).length

/-- A fence after one cycle of the fence unit (R86); a fence with LOST set ignores every signal (R88). -/
def fenceAfter (f : Fence) (sigs : List W64) : Fence :=
  if f.lost then f
  else { f with value := latest f.value sigs, stale := satAdd 0xFFFF f.stale (staleCount f.value sigs) }

/-- One cycle of the fence unit on a fence: VALUE, STALE, then mirror, events and waits (R86, R87, R90, R94). -/
def fenceCycle (s : State) (f : Nat) (sigs : List W64) : State :=
  match tget s.obj.fences f with
  | none => s
  | some x =>
    let y := fenceAfter x sigs
    let s := setFence s f y
    if y.value = x.value then s
    else
      let s := mirrorWrite s y
      let s := (eventsOn s.obj f).foldl fireEvent s
      setObj s (releaseWaits s.obj f y.value)

/-! ## Blocks and their contexts -/

/-- The context of a block. -/
def ctxOfBlock (s : State) (b : Block) : Nat :=
  match b.frag with
  | none => ((tget s.cores.runs b.run).map (·.ctx)).getD 4096
  | some (p, _, _) => ((tget s.ras.passes p).map (·.ctx)).getD 4096

/-- The slot of a block. -/
def slotOfBlock (s : State) (b : Block) : Nat :=
  match b.frag with
  | none => ((tget s.cores.runs b.run).map (·.slot)).getD 0
  | some (p, _, _) => ((tget s.ras.passes p).map (·.slot)).getD 0

/-! ## Completion -/

/-- Cached translations of an ASID removed (R72, R124). -/
def dropAsid (m : Mmu) (c : Nat) : Mmu :=
  { m with tlb := m.tlb.filter fun t => t.asid ≠ c
           walkCache := m.walkCache.filter fun t => t.asid ≠ c
           walks := tmap m.walks fun _ w => if w.asid = c then { w with again := true } else w }

/-- A DESTROYING context whose fences, events and graphs are destroyed and whose last queue has drained: its translations
go, its index is freed and a CONTEXT_GONE record is written (R72). -/
def ctxGone (s : State) (c : Nat) : State :=
  match ctxOf s c with
  | none => s
  | some x =>
    if x.st = .destroying ∧ (s.obj.queues.all fun e => e.1 = winKey || e.2.ctx ≠ c) ∧ (s.obj.fences.all fun e => e.2.ctx ≠ c) ∧
        (s.obj.events.all fun e => e.2.ctx ≠ c) ∧ (s.obj.graphs.all fun e => e.2.ctx ≠ c) then
      let h := ctxHandle s c
      let s := { s with mmu := dropAsid s.mmu c }
      let s := setObj s (bumpGen { s.obj with ctxs := tdel s.obj.ctxs c } 1 c)
      eventRec s x.func 0x05 0 0 0 h 0
    else s

/-- A DRAINING queue that no unit holds work of: its index is freed and a QUEUE_DRAINED record is written (R80). -/
def queueDrained (s : State) (q : Nat) : State :=
  match tget s.obj.queues q with
  | none => s
  | some x =>
    if q ≠ winKey ∧ x.st = .draining ∧ x.recs.all isEnded then
      let h := handleOf s.obj 2 q
      let s := setObj s (bumpGen { s.obj with queues := tdel s.obj.queues q } 2 q)
      ctxGone (eventRec s x.func 0x03 0 0 0 h 0) x.ctx
    else s

/-- The budget of a queue in quad or unit cycles. -/
def budgetOf (x : Queue) : Nat := if x.cls < 3 then x.bQc else x.bUc

/-- A completing descriptor's measured charge above its declared one, in whole cycles, is charged as well, which may demote
its queue (R158); best-effort runs are not measured. -/
def chargeExcess (x : Queue) (d : Desc) : Queue :=
  let extra := if x.rt then d.measured / 10 - d.chQc else 0
  { x with qcUsed := x.qcUsed + extra
           demoted := x.demoted || decide (0 < extra ∧ budgetOf x < x.qcUsed + extra) }

/-- Step 4 of R151 for one descriptor: COMPLETED, RETIRED, and the halt of R81. The window queue has no handle, and its halt
writes no QUEUE_HALTED record (DESIGN CHOICE, log 112); FE_ACV_STAT shows it. -/
def endDesc (s : State) (q : Nat) (i : W32) (st : Nat) : State :=
  match getQ s q with
  | none => s
  | some x =>
    match recOf x i with
    | none => s
    | some d =>
      let x := chargeExcess (setRec x { d with stage := .ended st, waiting := false }) d
      let x := { x with completed := (x.completed + 1) % 2 ^ 48, progressed := true }
      let first := haltSt st && x.st = .active
      let x := if first then { x with st := .halted } else x
      let x := match x.st, haltPoint x with
        | .halted, some (hi, hs) => { x with haltIdx := hi, haltStatus := hs }
        | _, _ => x
      let x := retireLoop (x.recs.length) x
      let s := putQ s q x
      let s := if q = winKey then
          { s with fe := { s.fe with acv := { s.fe.acv with ring := s.fe.acv.ring.filter fun e => ringDist x e.1 < 2 ^ 31 } } }
        else s
      let s := if first ∧ q ≠ winKey then eventRec s x.func 0x02 0 st 0 (handleOf s.obj 2 q) 0 else s
      queueDrained s q

/-- A chain token for a queue handle, from a queue of a context (R150): discarded at 0xFFFF, and for a queue that is
DRAINING or has been freed. -/
def chainToken (s : State) (c h : Nat) : State :=
  let lost := { s with fe := { s.fe with tokenLost := satAdd 0xFFF s.fe.tokenLost 1 } }
  match lookup s.obj 2 h with
  | .error _ => lost
  | .ok q =>
    match tget s.obj.queues q with
    | none => lost
    | some x =>
      if x.ctx ≠ c ∨ x.st = .draining ∨ 0xFFFF ≤ x.tokens then lost
      else putQ s q { x with tokens := x.tokens + 1 }

/-- The slot whose front end serves a queue of classes COMPUTE, RENDER or COPY (R139). -/
def queueSlot (s : State) (q : Nat) (x : Queue) : Option Nat :=
  if q = winKey then some 0 else if x.cls < 3 then slotOfCtx s (ctxHandle s x.ctx) else none

/-- A signal to a fence handle: of no effect where it no longer names the fence. -/
def signalHandle (s : State) (h : Nat) (v : W64) : State :=
  match lookup s.obj 3 h with
  | .ok f => fenceCycle s f [v]
  | .error _ => s

/-- Some line of a slot holds dirty bytes. -/
def hasDirty (s : State) (n : Nat) : Bool := s.fab.lines.any fun l => l.slot = n && l.dirty.any id

/-- A completion or release of a slot must clean first: it holds dirty bytes, or a clean of it has not ended (spec/07
R204). -/
def mustClean (s : State) (n : Nat) : Bool := hasDirty s n || s.fab.cleans.contains n

/-- A clean of a slot starts: its dirty bytes are written back, and it ends with CLEAN_DONE, when HBM has acknowledged them
(spec/07 R204). -/
def startClean (s : State) (n : Nat) : State :=
  let t := cleanSlot s n
  { t with fab := { t.fab with cleans := n :: t.fab.cleans.erase n } }

/-- Steps 2 to 4 of R151 for a descriptor with status OK. -/
def finishOk (s : State) (q : Nat) (x : Queue) (d : Desc) : State :=
  let s := if bit d.words 8 && x.fence != 0 then
      signalHandle s x.fence.toNat (BitVec.ofNat 64 (bits d.words 511 448)) else s
  let s := if bit d.words 9 then chainToken s x.ctx (bits d.words 415 384) else s
  endDesc s q d.idx 0

/-- The completion of a descriptor with a status (R151): with OK its writes become visible (its slot is clean, R204; while
a clean is under way it waits for that), SIGVAL is signalled and a chain token delivered, in that order; then step 4. -/
def complete (s : State) (q : Nat) (i : W32) (st : Nat) : State :=
  match getQ s q with
  | none => s
  | some x =>
    match recOf x i with
    | none => s
    | some d =>
      let s := dropWork s q i
      if st ≠ 0 then endDesc s q i st
      else match queueSlot s q x with
      | none => finishOk s q x d
      | some n =>
        if mustClean s n && d.stage != .cleaned then putQ (startClean s n) q (setRec x { d with stage := .cleaning })
        else finishOk s q x d

/-- Waiters on a fence that is lost or destroyed complete with a status: queue descriptors halt their queue, and a
graph node ends with it (R88, R89). Waiters of context `except` are left (R75). -/
def failWaits (s : State) (f st : Nat) (except' : Option Nat) : State :=
  let s := (queueKeys s).foldl (fun s q =>
    match getQ s q with
    | none => s
    | some x =>
      if some x.ctx = except' then s
      else (x.recs.filter fun d => d.waiting && hIdx (waitFence d) == f).foldl (fun s d => complete s q d.idx st) s) s
  setObj s { s.obj with launches := s.obj.launches.map fun l =>
    { l with nodes := tmap l.nodes fun _ n =>
        if n.d.waiting && hIdx (waitFence n.d) == f then { n with d := { n.d with waiting := false, stage := .finished st } }
        else n } }

/-! ## Loss of a context -/

/-- What a change of its stream's owning context leaves of an encoder state: the next ENCODE resets it (spec/14 R408,
R412). -/
def ownerReset (e : Enc) : Enc :=
  { e with f := 0, conf := [], slots := List.replicate 8 none, lastCoded := none }

/-- Streams close, with their pacing queues, keys, rings and encoder states (spec/15 R445); an ENCODE that still runs for one
leaves the next owner's encoder state alone (spec/14 R408). -/
def closeStreams (s : State) (p : Nat → Stream → Bool) : State :=
  let gone := (s.circ.streams.filter fun e => p e.1 e.2).map (·.1)
  { s with
    circ := { s.circ with streams := s.circ.streams.filter fun e => !gone.contains e.1 }
    cod := { s.cod with
      enc := tmap s.cod.enc fun n e => if gone.contains n then ownerReset e else e
      encRuns := s.cod.encRuns.map fun r => { r with orphan := r.orphan || gone.contains r.stream } } }

/-- Every fence of a context has LOST set; its events fire and its waiters of other contexts fail (R75, R88, R95). -/
def loseFences (s : State) (c : Nat) : State :=
  let mine := (s.obj.fences.filter fun e => e.2.ctx == c).map (·.1)
  mine.foldl (fun s f =>
    let s := setObj s { s.obj with fences := tmod s.obj.fences f fun x => { x with lost := true } }
    endEvents (failWaits s f 0x12 (some c)) f 0x05) s

/-- Every descriptor of a queue that has not completed completes with a status. -/
def flushQueue (s : State) (q st : Nat) : State :=
  match getQ s q with
  | none => s
  | some x => (x.recs.filter fun d => !isEnded d).foldl (fun s d => complete s q d.idx st) s

/-- Writes of a slot that have not reached memory are discarded: its lines with dirty bytes (R75; log 20). -/
def dropDirty (s : State) (n : Nat) : State :=
  { s with fab := { s.fab with lines := s.fab.lines.filter fun l => l.slot ≠ n || !(l.dirty.any id) } }

/-- The transactions in flight of a context are not to be performed (R75): each only returns its entry. -/
def dropTxns (s : State) (c : Nat) : State :=
  { s with fab := { s.fab with txns := tmap s.fab.txns fun _ x => if x.asid = c then { x with lost := true } else x } }

/-- A context is marked lost with a reason, once, and the mark reaches every unit (R74, R75). -/
def markLost (s : State) (c reason : Nat) : State :=
  match ctxOf s c with
  | none => s
  | some x =>
    if x.st ≠ .active then s
    else
      let h := ctxHandle s c
      let s := setObj s { s.obj with ctxs := tset s.obj.ctxs c { x with st := .lost, reason := reason } }
      let s := match slotOfCtx s h with
        | some n => dropDirty s n
        | none => s
      let s := dropTxns s c
      let s := (queuesOf s c).foldl (fun s q => flushQueue s q 0x05) s
      let s := loseFences s c
      let s := closeStreams s fun _ t => t.ctx == c
      let s := eventRec s x.func 0x04 0 reason 0 h 0
      dayBook s 0x0020 h reason 0

/-! ## Faults (spec/16 R488, R489, R499) -/

/-- A fault recorded: MGT_FAULT while it is not VALID, the day book (the record's ARG0 holds the fields of this fault,
log 63), and the fault interrupt for a scope fault. -/
def recordFault (s : State) (scope unit means : Nat) : State :=
  let tick := s.hoop.tick % 2 ^ 32
  let s := if s.flt.valid then s
    else { s with flt := { s.flt with valid := true, tick := tick, scope := scope, unit := unit, means := means } }
  let s := dayBook s 0x0040 unit (scope * 2 ^ 24 + unit * 2 ^ 16 + means * 2 ^ 8 + 1) tick
  if 1 ≤ scope ∧ scope ≤ 5 then raiseMsix s 0 3 else s

/-- An error in data of a context: recorded with SCOPE CONTEXT (its UNIT is free, log 63), and the context marked lost
with reason DATA. -/
def dataFault (s : State) (c means : Nat) : State :=
  markLost (recordFault (drew s) 6 ((free s).toNat % 256) means) c 0x02

/-- A data error that a unit reports without saying whether ECC, parity or residue found it (log 63). -/
def unitDataErr (s : State) (c : Nat) : State := dataFault (drew s) c (1 + (free s).toNat % 3)

/-! ## Handles in commands -/

/-- The index that a handle in a command names; while the twins are attached, an object of the other twin is foreign
(spec/03 R64, spec/16 R472). -/
def nameObj (s : State) (ty h : Nat) : Except Nat Nat :=
  match lookup s.obj ty h with
  | .ok i => .ok i
  | .error e =>
    if e = stStale ∧ twinAttached s ∧ tget s.twin.peer (ty * 65536 + hIdx h) = some (hGen h) then .error stForeign else .error e

/-- What a context's state lets a command do: LOST, or BUSY in DESTROYING (R76, R595). -/
def ctxStateError (x : Ctx) : Option Nat :=
  match x.st with
  | .active => none
  | .lost => some stLost
  | .destroying => some stBusy

/-- A context that a command of a function names and uses: its own, and ACTIVE (R64, R65, R76, R595). -/
def ctxUse (s : State) (f h : Nat) : Except Nat Nat :=
  match nameObj s 1 h with
  | .error e => .error e
  | .ok c =>
    match ctxOf s c with
    | none => .error stStale
    | some x =>
      if x.func ≠ f then .error stForeign
      else match ctxStateError x with
      | some e => .error e
      | none => .ok c

end Sys2Proof.Machine
end

