-- ==== Sys2Proof/Machine/Access.lean ====
section
/-! DEFINITION. Translated accesses to memory: translation, the permission check, fault requests and the bytes moved
(spec/04 R113, R119, R122). -/

namespace Sys2Proof.Machine

/-- The ACCESS code of a fault record (R118). -/
def accessCode : AccessKind → Nat
  | .read => 1
  | .write => 2
  | .fetch => 3
  | .atomic => 4

/-- A request is the outstanding one of an access's context and 64 KiB page (R119). -/
def sameRequest (s : State) (w : Who) (va : Nat) (f : FaultReq) : Bool :=
  f.handle == ctxHandle s w.asid && f.page == va / 65536 && f.slot != 0xFF

/-- An access that has joined a request: it walks again only once the request is answered (R121). -/
def waitsAnswer (s : State) (w : Who) (k : AccessKind) (va : Nat) : Bool :=
  s.mmu.faults.any fun f => sameRequest s w va f && w.slot.isSome && f.joined.contains (w.site, va, k)

/-- An outstanding request with an access joined to it. -/
def joinRequest (s : State) (w : Who) (k : AccessKind) (va : Nat) (f : FaultReq) : FaultReq :=
  if sameRequest s w va f && !f.joined.contains (w.site, va, k) then { f with joined := (w.site, va, k) :: f.joined } else f

/-- A faulting access: it joins the request of its context and 64 KiB page, or raises one (R119). A media-hub access is
resolved as NOT_MAPPED at once, with a record that takes no identifier (R122). -/
def raiseFault (s : State) (w : Who) (k : AccessKind) (va : Nat) : State :=
  let func := ((ctxOf s w.asid).map (·.func)).getD 0
  let req : FaultReq := { func := func, fid := none, handle := ctxHandle s w.asid, page := va / 65536, acc := k, unit := siteCode w.site,
                          slot := w.slot.getD 0xFF, time := s.hoop.time, written := false, joined := [(w.site, va, k)] }
  match w.slot with
  | none => markLost { s with mmu := { s.mmu with faults := s.mmu.faults ++ [req] } } w.asid 0x01
  | some _ =>
    if s.mmu.faults.any (sameRequest s w va) then
      { s with mmu := { s.mmu with faults := s.mmu.faults.map (joinRequest s w k va) } }
    else { s with mmu := { s.mmu with faults := s.mmu.faults ++ [req] } }

/-- The host completes a request to the address of a translation with an error (R107; log 108). -/
def hostRefused (s : State) (t : Tr) : Bool := match t with
  | .host ba => Config.hostRefuses ba s.hoop.time
  | _ => false

/-- The unit that issued a transaction, where it is one that translates. -/
def txnSite : Issuer → Option Site
  | .unit _ u => some u
  | .carve _ u => some u
  | .hub _ u => some u
  | _ => none

/-- The place that a translation gives in the memory of a transaction. -/
def sharesLine (x : Txn) (t : Tr) (n : Nat) : Bool :=
  let hits (a : Nat) : Bool := decide (a / 128 ≤ x.addr / 128) && decide (x.addr / 128 ≤ (a + n - 1) / 128)
  match t, x.space with
  | .mem pa _, .mem => hits pa
  | .mem pa _, .tier _ => hits pa
  | .host ba, .host => hits ba
  | .twin pa, .twin => hits pa
  | _, _ => false

/-- A transaction of the same unit to a line of the access is in flight: the access comes after it (spec/07 R198). -/
def behindOwn (s : State) (w : Who) (t : Tr) (n : Nat) : Bool :=
  s.fab.txns.any fun e => txnSite e.2.issuer == some w.site && sharesLine e.2 t n

/-- The translations of an access, 64 KiB page by page; none where a page is absent (a fault request is raised), where the
access waits for the answer to one, for a walk slot or for an earlier transaction of its unit (R115, R121, spec/07 R198), or where the permission check fails (the context is
marked lost), also by the host's completion (R107; log 108). The fuel is the pages. -/
def pieces (w : Who) (k : AccessKind) : Nat → State → Nat → Nat → State × Option (List (Tr × Nat))
  | 0, s, _, _ => (s, some [])
  | fuel + 1, s, va, n =>
    if n = 0 then (s, some [])
    else
      let here := min n (65536 - va % 65536)
      if waitsAnswer s w k va then (s, none)
      else match translate s w k va with
      | (s, .absent) => (raiseFault s w k va, none)
      | (s, .bad) => (markLost s w.asid 0x01, none)
      | (s, .wait) => (s, none)
      | (s, t) =>
        if behindOwn s w t here then (s, none)
        else if hostRefused s t then (markLost s w.asid 0x01, none)
        else match pieces w k fuel s (va + here) (n - here) with
        | (s, some l) => (s, some ((t, here) :: l))
        | (s, none) => (s, none)

/-- The pieces of an access of `n` bytes. Its transactions, one for each line, take their entries one after the other and
return them; with no entry of the unit's share free the access stalls (spec/07 R195, R197; log 24). -/
def reach (s : State) (w : Who) (k : AccessKind) (va n : Nat) : State × Option (List (Tr × Nat)) :=
  if entryFree s w.site then pieces w k (n / 65536 + 2) s va n else (s, none)

/-- Bytes read from the places that translations give; the twin's memory is another machine's, so its bytes are free
(log 21). -/
def readPieces (w : Who) : State → List (Tr × Nat) → State × List Byte
  | s, [] => (s, [])
  | s, (t, n) :: l =>
    let (s, b) := match t with
      | .mem pa stk => physRead s w.slot stk pa n
      | .host ba => (s, mread s.fab.host ba n)
      | _ => (drewN s n, freeBytes s n)
    let (s, r) := readPieces w s l
    (s, b ++ r)

/-- Bytes written to the places that translations give; a write to the twin leaves this machine. -/
def writePieces (w : Who) : State → List (Tr × Nat) → List Byte → State
  | s, [], _ => s
  | s, (t, n) :: l, bs =>
    let s := match t with
      | .mem pa stk => physWrite s w.slot stk pa (bs.take n)
      | .host ba => hostWrite s ba (bs.take n)
      | _ => s
    writePieces w s l (bs.drop n)

/-- A translated read. None: not performed, with the fault raised or the context lost. -/
def vread (s : State) (w : Who) (va n : Nat) : State × Option (List Byte) :=
  match reach s w .read va n with
  | (s, some l) => let (s, b) := readPieces w s l; (s, some b)
  | (s, none) => (s, none)

/-- A translated write; the Bool says whether it was performed. -/
def vwrite (s : State) (w : Who) (va : Nat) (bs : List Byte) : State × Bool :=
  match reach s w .write va bs.length with
  | (s, some l) => (writePieces w s l bs, true)
  | (s, none) => (s, false)

/-- A translated read of a little-endian number. -/
def vnat (s : State) (w : Who) (va n : Nat) : State × Option Nat :=
  match vread s w va n with
  | (s, some b) => (s, some (leNat b))
  | (s, none) => (s, none)

/-- Several writes, performed only if every one of them can be. -/
def reachAll (w : Who) : State → List (Nat × List Byte) → State × Option (List (List (Tr × Nat) × List Byte))
  | s, [] => (s, some [])
  | s, (va, bs) :: l =>
    match reach s w .write va bs.length with
    | (s, none) => (s, none)
    | (s, some p) =>
      match reachAll w s l with
      | (s, some r) => (s, some ((p, bs) :: r))
      | (s, none) => (s, none)

/-- Writes at several addresses as one step, in list order. -/
def vwriteAll (s : State) (w : Who) (l : List (Nat × List Byte)) : State × Bool :=
  match reachAll w s l with
  | (s, some r) => (r.foldl (fun s e => writePieces w s e.1 e.2) s, true)
  | (s, none) => (s, false)

/-- A translated atomic on `n` bytes: the old value, and the new one stored (spec/08 R253). -/
def vatomic (s : State) (w : Who) (va n : Nat) (f : Nat → Nat) : State × Option Nat :=
  match reach s w .atomic va n with
  | (s, none) => (s, none)
  | (s, some p) =>
    let (s, b) := readPieces w s p
    (writePieces w s p (toLE n (f (leNat b))), some (leNat b))

/-- The unit that fetches a queue and carries out its control descriptors (R118, spec/05 R139): the front end of its
carrel slot, or a compositor context, an encode core, a Bindery engine, or the send fetcher, at port P0 (log 106). -/
def feSite (s : State) (q : Nat) (x : Queue) : Site :=
  if q = winKey ∨ x.cls < 3 then .frontEnd ((queueSlot s q x).getD 0xFF)
  else if x.cls = 3 then .couching x.unit
  else if x.cls = 4 then .encoder x.unit
  else if x.cls = 5 then .bindery x.unit
  else .port 0

/-- A queue's fetcher as the issuer of an access; one whose context owns no slot issues nothing (0xFF, R171). -/
def feWho (s : State) (q : Nat) (x : Queue) : Who :=
  { asid := x.ctx, slot := if q = winKey ∨ x.cls < 3 then some ((queueSlot s q x).getD 0xFF) else none, site := feSite s q x }

/-! ## Slow-down counters (spec/06 R185, R186) -/

/-- The sources of the slow-down counters. -/
inductive SlowSrc where
  | router | pricking | raster | bobbin | walker
  deriving DecidableEq, Repr

/-- A saturating 32-bit count. -/
def inc32 (v n : Nat) : Nat := satAdd 0xFFFFFFFF v n

/-- A report of stall cycles added to a slot's counter of a source, and to the slots that were served in them (R185,
R186). -/
def addSlow (x : Slow) (src : SlowSrc) (r : Stall) : Slow :=
  let x := match src with
    | .router => { x with router := inc32 x.router r.cycles }
    | .pricking => { x with pricking := inc32 x.pricking r.cycles }
    | .raster => { x with raster := inc32 x.raster r.cycles }
    | .bobbin => { x with bobbin := inc32 x.bobbin r.cycles }
    | .walker => { x with walker := inc32 x.walker r.cycles }
  { x with by' := r.served.foldl (fun t e => tset t e.1 (inc32 (tgetD t e.1 0) e.2)) x.by' }

/-- The report names a slot other than `n`, or the hub and the management core, in no more cycles than it counts. -/
def stallOf (n : Nat) (r : Stall) : Stall :=
  { r with served := (r.served.filter fun e => e.1 != n && (decide (e.1 < 48) || e.1 == 0xFE)).map fun e => (e.1, min e.2 r.cycles) }

/-- The stall of a request of a slot. -/
def addStall (s : State) (n : Nat) (src : SlowSrc) (r : Stall) : State :=
  if r.cycles = 0 then s
  else
    let c := tgetD s.car n CarSlot.reset
    { s with car := tset s.car n { c with slow := addSlow c.slow src (stallOf n r) } }

end Sys2Proof.Machine
end

