-- ==== Sys2Proof/Machine/Submit.lean ====
section
/-! DEFINITION. Submission: doorbells, resumes, fetchers, charges, the Acvik window (spec/05), and the wake of a
sleeping domain that work reaches (spec/18 R545). -/

namespace Sys2Proof.Machine

/-! ## Sleeping domains (spec/18 R540 to R552) -/

/-- Domain indices (R540). -/
def domQuad (q : Nat) : Nat := q
def domCluster (k : Nat) : Nat := 64 + k
def domSlice (k : Nat) : Nat := 80 + k
def domEnc (n : Nat) : Nat := 96 + n
def domBnd (n : Nat) : Nat := 108 + n
def domCouch : Nat := 112
def domCirc (p : Nat) : Nat := 113 + p
def domHbm (n : Nat) : Nat := 115 + n
def domSlv : Nat := 123

/-- A domain of a disabled cluster is held in S2 and never wakes (R541). -/
def domAbsent (s : State) (d : Nat) : Bool :=
  s.fw.accepted && ((decide (d < 64) && !hasQuad s d) || (decide (64 ≤ d) && decide (d < 96) && !hasCluster s (d % 16)))

/-- A domain as it stands. -/
def domOf (s : State) (d : Nat) : Dom := tgetD s.pwr.doms d Dom.reset

/-- A domain that never wakes: absent, or held in S2 after a fault of its scope (R541, R551). -/
def domDown (s : State) (d : Nat) : Bool := domAbsent s d || (domOf s d).held

/-- A domain replaced. -/
def setDom (s : State) (d : Nat) (x : Dom) : State := { s with pwr := { s.pwr with doms := tset s.pwr.doms d x } }

/-- PWR_WAKE records a wake that begins now (R552). -/
def recordWake (s : State) (d src : Nat) : State :=
  { s with pwr := { s.pwr with wakeTick := s.hoop.tick % 2 ^ 32, wakeDom := d, wakeSrc := src } }

/-- A domain in S1 or S2 starts its wake; one that wakes already, or never wakes, is left (R545, R548). -/
def startWake (s : State) (d src : Nat) : State :=
  let x := domOf s d
  if domDown s d ∨ x.waking ∨ ¬ (x.st = .s1 ∨ x.st = .s2) then s
  else recordWake (setDom s d { x with waking := true, wakeAt := s.hoop.time, wakeSrc := src }) d src

/-- An access reaches a domain: true when the domain is ON; otherwise it wakes, or its entry is cancelled before the
Reserve write has begun, and the access stalls (R545, R547; log 24). -/
def reachDom (s : State) (d src : Nat) : State × Bool :=
  let x := domOf s d
  let y := { x with stalled := x.stalled + 1 }
  if domDown s d then (s, false)
  else match x.st with
  | .on => (s, true)
  | .changing =>
    if x.resv then (setDom s d (if x.waking then y else { y with waking := true, wakeSrc := src }), false)
    else (setDom s d { y with st := .on, toward := 0 }, false)
  | _ => (startWake (setDom s d y) d src, false)

/-- Every domain of a list is reached. -/
def reachDoms (s : State) (ds : List Nat) (src : Nat) : State × Bool :=
  ds.foldl (fun r d => let (s, ok) := reachDom r.1 d src; (s, r.2 && ok)) (s, true)

/-! ## Cost rows (spec/05 R159, R160 and the cost tables of the other chapters) -/

/-- A cost row: quad-cycles, unit cycles, HBM bytes, and whether real-time queues accept it. -/
structure CostRow where
  qc : Nat
  uc : Nat
  hb : Nat
  rt : Bool
  deriving DecidableEq, Repr

/-- The rows, by index. -/
def costRows : Tbl CostRow :=
  [(0x0000, ⟨0, 0, 0, false⟩), (0x0001, ⟨1, 0, 0, true⟩), (0x0002, ⟨0, 1, 0, true⟩), (0x0003, ⟨0, 0, 0, true⟩),
   (0x0010, ⟨0, 0, 8192, true⟩), (0x0011, ⟨0, 0, 4096, false⟩), (0x0012, ⟨0, 0, 4096, false⟩),
   (0x0013, ⟨0, 0, 4096, true⟩), (0x1000, ⟨64, 0, 0, true⟩), (0x1001, ⟨128, 0, 0, true⟩),
   (0x1002, ⟨256, 0, 0, true⟩), (0x1003, ⟨256, 0, 0, true⟩), (0x1004, ⟨256, 0, 0, true⟩)] ++
  [(0x2000, ⟨1024, 0, 0, true⟩), (0x2001, ⟨2048, 0, 0, true⟩), (0x2002, ⟨4096, 0, 0, true⟩),
   (0x2003, ⟨2048, 0, 0, true⟩), (0x2004, ⟨4096, 0, 0, true⟩), (0x2005, ⟨8192, 0, 0, true⟩),
   (0x2006, ⟨2560, 0, 0, true⟩), (0x2007, ⟨256, 0, 0, true⟩), (0x2008, ⟨64, 0, 0, true⟩),
   (0x3000, ⟨3687, 0, 0, true⟩), (0x3001, ⟨117965, 0, 0, true⟩), (0x4000, ⟨3687, 0, 0, true⟩),
   (0x4001, ⟨922, 0, 0, true⟩), (0x4002, ⟨16384, 0, 0, true⟩), (0x4003, ⟨4096, 0, 0, true⟩)] ++
  [(0x4004, ⟨256, 0, 0, true⟩), (0x4005, ⟨16384, 0, 0, true⟩), (0x5000, ⟨0, 1024, 0, true⟩),
   (0x6000, ⟨0, 3072, 0, true⟩), (0x7000, ⟨0, 1024, 0, true⟩), (0x7001, ⟨0, 65536, 0, true⟩),
   (0x8000, ⟨0, 1024, 0, true⟩), (0x8001, ⟨0, 4096, 0, true⟩)]

/-- The row of a descriptor, if its class names one. -/
def costOf (w : W512) : Option CostRow := tget costRows (bits w 31 16)

/-- The charge of a descriptor of a queue at its take (R158): quad or unit cycles, and HBM in 4 KiB units. A COST_CLASS that
names no row, which R145 refuses at the start, is charged EXTRA_HB alone (DESIGN CHOICE, log 112). -/
def chargeOf (x : Queue) (w : W512) : Nat × Nat :=
  let n := bits w 63 32
  let e := bits w 447 416
  match costOf w with
  | none => (0, e)
  | some r => (if x.cls < 3 then r.qc * n else r.uc * n, r.hb * n / 4096 + e)

/-- A real-time queue charged for a take, or demoted by it (R158); the BUDGET at index 0 is not charged (R155). The
Bool says whether the descriptor is taken as best effort. -/
def charge (x : Queue) (i : W32) (w : W512) : Queue × Bool × Nat × Nat :=
  if !x.rt then (x, true, 0, 0)
  else if i = 0 ∧ bits w 7 0 = 0x04 then (x, false, 0, 0)
  else
    let (c, h) := chargeOf x w
    if x.demoted ∨ budgetOf x < x.qcUsed + c ∨ x.bHb < x.hbUsed + h then
      ({ x with demoted := true, beTaken := x.beTaken + 1 }, true, 0, 0)
    else ({ x with qcUsed := x.qcUsed + c, hbUsed := x.hbUsed + h }, false, c, h)

/-! ## Doorbells (R136, R137) -/

/-- BAR2 responds: Velhinto has reached RUNNING, and the device is neither in reset nor in S3 (spec/19 R571). -/
def bar2Ok (s : State) : Bool := s.fw.boot = .running && !s.brd.inReset && !s.pwr.inS3

/-- BAR0 registers outside the SEC, MGT_ID, CLK_STAT, PWR_STAT and HOOP ranges respond: a charter has been accepted,
and the device is neither in reset nor in S3 (spec/19 R571). -/
def bar0Ok (s : State) : Bool := s.fw.accepted && !s.brd.inReset && !s.pwr.inS3

/-- A saturating count of FE_COUNT (R138). -/
def inc12 (n : Nat) : Nat := satAdd 0xFFF n 1

/-- DB_BAD counts a doorbell-page write of the wrong size or alignment. -/
def dbBad (s : State) : State := { s with fe := { s.fe with dbBad := inc12 s.fe.dbBad } }

/-- The tests of R136 after the first, on the value of an aligned 8 B write. -/
def doorbell (s : State) (q : Nat) (x : Queue) (v : W64) : State :=
  let new : W32 := BitVec.ofNat 32 (bits v 31 0)
  if bits v 47 32 ≠ genOf s.obj 2 q then { s with fe := { s.fe with dbStale := inc12 s.fe.dbStale } }
  else if x.st = .draining then s
  else if new = x.tail then s
  else if 2 ^ 31 ≤ (new - x.tail).toNat then { s with fe := { s.fe with dbBack := inc12 s.fe.dbBack } }
  else if x.entries < (new - x.retired).toNat then { s with fe := { s.fe with dbOver := inc12 s.fe.dbOver } }
  else putQ s q { x with tail := new }

/-- A write to Q_DOORBELL in the page of a queue of the function (R78, R135, R136). -/
def qDoorbell (s : State) (f q off size : Nat) (v : W64) : State :=
  match tget s.obj.queues q with
  | none => s
  | some x =>
    if !bar2Ok s ∨ x.func ≠ f ∨ 8 ≤ off then s
    else if off ≠ 0 ∨ size ≠ 8 then dbBad s
    else doorbell s q x v

/-- A write to Q_RESUME with an action (R137): it waits until no descriptor of the queue is in flight. -/
def qResume (s : State) (f q off size : Nat) (gen : BitVec 16) (action : Nat) : State :=
  match tget s.obj.queues q with
  | none => s
  | some x =>
    if !bar2Ok s ∨ x.func ≠ f ∨ off < 8 ∨ 16 ≤ off then s
    else if off ≠ 8 ∨ size ≠ 8 then dbBad s
    else if gen.toNat ≠ genOf s.obj 2 q ∨ x.st ≠ .halted then s
    else putQ s q { x with resume := some action }

/-- RETRY from an index: every record from it upward that is not done is taken again (R137). -/
def retryFrom (x : Queue) (i : W32) : Queue :=
  { x with st := .active, haltIdx := 0, haltStatus := 0, resume := none
           recs := x.recs.filter fun d => isDone d || decide (ringDist x d.idx < ringDist x i) }

/-- The waiting resume action takes effect once no descriptor of the queue is in flight (R137). -/
def resumeEffect (s : State) (q : Nat) : State :=
  match getQ s q with
  | none => s
  | some x =>
    match x.resume with
    | none => s
    | some a =>
      if x.st ≠ .halted ∨ x.recs.any (inFlight x) then s
      else if a = 1 then putQ s q (retryFrom x x.haltIdx)
      else
        let i := x.haltIdx
        let y := { x with recs := x.recs.map fun d => if d.idx = i then { d with stage := .ended 0 } else d }
        let y := retryFrom y (i + 1)
        let y := retireLoop y.recs.length y
        let s := putQ s q y
        if q = winKey then
          { s with fe := { s.fe with acv := { s.fe.acv with ring := s.fe.acv.ring.filter fun e => ringDist y e.1 < 2 ^ 31 } } }
        else s

/-! ## The Acvik window (R164 to R169) -/

/-- An accession is pending (spec/02 R59). -/
def accPending (s : State) : Bool :=
  s.acc.slots.any fun a => a.st = .opened || a.st = .checking || a.st = .armed

/-- A saturating count of FE_ACV_COUNT. -/
def inc8 (n : Nat) : Nat := satAdd 0xFF n 1

/-- The window's record replaced. -/
def setAcv (s : State) (a : Acv) : State := { s with fe := { s.fe with acv := a } }

/-- Sixteen words as a descriptor, little-endian word order (R166). -/
def wordsToDesc (l : List W32) : W512 :=
  BitVec.ofNat 512 (l.foldr (fun w n => w.toNat + 2 ^ 32 * n) 0)

/-- A window write applied under R165 and R166. Words that follow a discard inside a descriptor (R169) complete none
(log 25). -/
def acvApply (s : State) (off size : Nat) (v : W64) : State :=
  let a := s.fe.acv
  if winCtx s = 4096 ∨ !a.enable then setAcv s { a with unowned := inc8 a.unowned }
  else if accPending s then setAcv s { a with pend := inc8 a.pend }
  else if size ≠ 4 ∨ off ≠ 4 * a.nextWord then setAcv s { a with order := inc8 a.order }
  else if 512 ≤ a.words ∨ (a.nextWord % 16 = 0 ∧ 32 ≤ a.ring.length) then setAcv s { a with limit := inc8 a.limit }
  else
    let ws := a.partWords ++ [BitVec.ofNat 32 v.toNat]
    let a := { a with nextWord := (a.nextWord + 1) % 512, words := a.words + 1 }
    if a.nextWord % 16 ≠ 0 then setAcv s { a with partWords := ws }
    else if ws.length < 16 then setAcv s { a with partWords := [] }
    else
      match getQ s winKey with
      | none => s
      | some x =>
        putQ (setAcv s { a with partWords := [], ring := a.ring ++ [(x.tail, wordsToDesc ws)] }) winKey
          { x with tail := x.tail + 1 }

/-- A write to FE_ACV_WIN: applied, or held from the margin start until the edge (R165, R167). -/
def acvWrite (s : State) (off size : Nat) (v : W64) : State :=
  let a := s.fe.acv
  if s.hoop.phase = .drain ∨ s.hoop.phase = .settle then
    if 512 ≤ a.heldWrites.length then setAcv s { a with limit := inc8 a.limit }
    else setAcv s { a with heldWrites := a.heldWrites ++ [(off, size, v)] }
  else acvApply s off size v

/-- Held writes applied at the edge in order of arrival, the words of the new period counted from 0 (R167). -/
def acvEdge (s : State) : State :=
  let held := s.fe.acv.heldWrites
  let s := setAcv s { s.fe.acv with heldWrites := [], words := 0 }
  held.foldl (fun s w => acvApply s w.1 w.2.1 w.2.2) s

/-- ENABLE written as 1 (R166). -/
def acvEnable (s : State) : State :=
  let a := s.fe.acv
  if a.enable then s else setAcv s { a with enable := true, nextWord := 0, partWords := [] }

/-- FE_ACV_CTRL.RESUME on a halted window queue (R168). -/
def acvResume (s : State) (action : Nat) : State :=
  match getQ s winKey with
  | none => s
  | some x => if x.st = .halted then putQ s winKey { x with resume := some action } else s

/-- What is partly assembled or not taken is discarded when c00's owning context changes (R169). -/
def acvDiscard (s : State) : State :=
  match getQ s winKey with
  | none => s
  | some x =>
    let taken := fun (e : W32 × W512) => x.recs.any fun d => d.idx = e.1
    let a := s.fe.acv
    let ring := a.ring.filter taken
    let s := setAcv s { a with partWords := [], ring := ring }
    putQ s winKey { x with tail := x.retired + BitVec.ofNat 32 (x.recs.foldl (fun m d => max m (ringDist x d.idx + 1)) 0) }

/-! ## Fetchers (R139 to R141) -/

/-- A fetcher's number among the tokens. -/
def fetcherKey : Fetcher → Nat
  | .slot n => n.val
  | .comp n => 100 + n.val
  | .enc n => 400 + n.val
  | .bind n => 420 + n.val
  | .send => 430

/-- A queue is served by a fetcher (R139). -/
def servedBy (s : State) (f : Fetcher) (q : Nat) (x : Queue) : Bool :=
  match f with
  | .slot n => queueSlot s q x == some n.val
  | .comp n => x.cls == 3 && x.unit == n.val
  | .enc n => x.cls == 4 && x.unit == n.val
  | .bind n => x.cls == 5 && x.unit == n.val
  | .send => x.cls == 6

/-- A slot's front end may take and start work: no switch, no late settle work, no frequency change held back
(spec/06 R180, spec/02 R36, spec/18 R535). -/
def slotReady (s : State) (n : Nat) : Bool :=
  (tgetD s.car n CarSlot.reset).phase = .idle && !s.hoop.settleBusy.contains n && s.pwr.held.isNone

/-- A fetcher may take (R32, R36, R180, R495, R535). -/
def fetcherReady (s : State) (f : Fetcher) : Bool :=
  isOpen s && !s.flt.failed && !s.pwr.inS3 && !s.brd.inReset &&
  match f with
  | .slot n => slotReady s n.val
  | _ => true

/-- The lowest index from RETIRED upward that has no record. -/
def nextIndex (x : Queue) : W32 :=
  x.retired + BitVec.ofNat 32 (((List.range (x.recs.length + 1)).find? fun k =>
    (recOf x (x.retired + BitVec.ofNat 32 k)).isNone).getD 0)

/-- The next index is exposed (R133). -/
def exposed (x : Queue) : Bool := decide (ringDist x (nextIndex x) < ringDist x x.tail)

/-- A function is in a grace period (spec/17 R523). -/
def inGrace (s : State) (f : Nat) : Bool := (fnOf s f).grace.isSome

/-- A GRAPH_LAUNCH that has not started because its graph's current slot holds 255 launches: its queue stalls (spec/03
R100). -/
def launchStalled (s : State) (d : Desc) : Bool :=
  d.stage == .armed && bits d.words 7 0 == 0x11 && (!bit d.words 12 || d.pay != d.words) &&
    (match lookup s.obj 5 (bits d.pay 159 128) with
    | .error _ => false
    | .ok g => match tget s.obj.graphs g with
      | none => false
      | some y => match y.cur with
        | none => false
        | some b => decide (255 ≤ (if b then y.b else y.a).inflight))

/-- A queue from which a fetcher may take now (R140, R523), or whose descriptors it completes with LOST (R76). -/
def eligible (s : State) (q : Nat) (x : Queue) : Bool :=
  let lost := match ctxOf s x.ctx with
    | some c => c.st = .lost
    | none => false
  x.st = .active && exposed x && (lost ||
    (ctxActive s x.ctx && !(x.recs.any fun d => d.stage = .suspended) && !(x.recs.any (launchStalled s)) &&
      !((heldList (tokensOf x) x.recs false false).any fun e => e.2 && (match recOf x e.1 with
        | some d => d.stage != .taken
        | none => false)) &&
      decide ((x.recs.filter fun d => !isEnded d).length < 64) &&
      (if q = winKey then s.fe.acv.enable else true) &&
      (!inGrace s ((ctxOf s x.ctx).map (·.func) |>.getD 0) || (x.rt && !x.demoted))))

/-- The queue a fetcher serves next: real-time queues not demoted in ascending index, then best effort from the token
(R141). -/
def chooseQueue (s : State) (f : Fetcher) : Option Nat :=
  let cand := (queueKeys s).filter fun q => match getQ s q with
    | some x => servedBy s f q x && eligible s q x
    | none => false
  let isRt := fun q => match getQ s q with
    | some x => x.rt && !x.demoted
    | none => false
  let be := cand.filter fun q => !isRt q
  let tok := tgetD s.fe.tokens (fetcherKey f) 0
  match cand.find? isRt, be.find? (fun q => decide (tok ≤ q)) with
  | some q, _ => some q
  | none, some q => some q
  | none, none => be.head?

/-- A record inserted in ring order. -/
def insertRec (x : Queue) (d : Desc) : Queue :=
  { x with recs := x.recs.filter (fun e => decide (ringDist x e.idx < ringDist x d.idx)) ++ [d] ++
             x.recs.filter (fun e => decide (ringDist x d.idx < ringDist x e.idx)) }

/-- A new record of a descriptor. -/
def newDesc (i : W32) (w : W512) (be : Bool) (c h tick : Nat) : Desc :=
  { idx := i, stage := .taken, words := w, pay := w, be := be, token := false, waiting := false, due := false,
    armTick := tick, chQc := c, chHb := h, measured := 0, prog := 0 }

/-- The 64 B of a descriptor: from the ring through the context's translation, or from the window (R132, R164). -/
def readDesc (s : State) (q : Nat) (x : Queue) (i : W32) : State × Option W512 :=
  if q = winKey then (s, (s.fe.acv.ring.find? fun e => e.1 = i).map (·.2))
  else
    match vnat s (feWho s q x) (x.ring.toNat + 64 * (i.toNat % x.entries)) 64 with
    | (s, some n) => (s, some (BitVec.ofNat 512 n))
    | (s, none) => (s, none)

/-- The order in which COMPOSE, ENCODE and SEND descriptors are taken, with the time of it (R395, R410, R452); those that have
ended are left out. -/
def noteTake (s : State) (q : Nat) (i : W32) (w : W512) : State :=
  if bits w 7 0 ≠ 0x40 ∧ bits w 7 0 ≠ 0x50 ∧ bits w 7 0 ≠ 0x70 then s
  else
    let open' := s.fe.order.filter fun e =>
      (e.1, e.2.1) != (q, i) && (getQ s e.1).any fun x => (recOf x e.2.1).any fun d => !isEnded d
    { s with fe := { s.fe with order := open' ++ [(q, i, s.hoop.time)] } }

/-- When a descriptor was taken. -/
def takenAt (s : State) (q : Nat) (i : W32) : Nat := ((s.fe.order.find? fun e => (e.1, e.2.1) == (q, i)).map (·.2.2)).getD 0

/-- A descriptor of an opcode waits to start: its arming is past, or for SEND its taking (R395, R410, R452). -/
def waitsToStart (op : Nat) (d : Desc) : Bool := dOp d == op && (d.stage == .armed || (op == 0x70 && d.stage == .taken))

/-- Another descriptor of an opcode, from any queue of the same context and with the same target or stream, waits to start and
goes first: it was taken earlier, or in the same cycle at an input that the rotating token reaches sooner (R193, R395, R410; log
113 for the cycle). SENDs have no token (R452). -/
def startsFirst (s : State) (q : Nat) (i : W32) (op : Nat) (named : W512 → Nat) (v token inputs : Nat) : Bool :=
  let rank := fun (x : Queue) => (x.unit + inputs - token % inputs) % inputs
  let before := s.fe.order.takeWhile fun e => (e.1, e.2.1) != (q, i)
  s.fe.order.any fun e => (e.1, e.2.1) != (q, i) && (getQ s e.1).any fun x => (recOf x e.2.1).any fun d =>
    waitsToStart op d && named d.pay == v && (getQ s q).any fun y => y.ctx == x.ctx &&
      (if e.2.2 = takenAt s q i ∧ 1 < inputs ∧ rank x ≠ rank y then decide (rank x < rank y) else before.contains e)

/-- One take from a queue (R140, R158), or one completion with LOST (R76). -/
def takeFrom (s : State) (q : Nat) : State :=
  match getQ s q with
  | none => s
  | some x =>
    let i := nextIndex x
    if !ctxActive s x.ctx then
      let x := insertRec x (newDesc i 0 true 0 0 s.hoop.tick)
      endDesc (putQ s q x) q i 0x05
    else
      match readDesc s q x i with
      | (s, none) => s
      | (s, some w) =>
        match getQ s q with
        | none => s
        | some x =>
          let (x, be, c, h) := charge x i w
          noteTake (putQ s q (insertRec x (newDesc i w be c h s.hoop.tick))) q i w

/-- Domains that a fetcher's unit needs awake (spec/18 R545). -/
def fetcherDoms : Fetcher → List Nat
  | .slot _ => []
  | .comp _ => [domCouch]
  | .enc n => [domEnc n.val]
  | .bind n => [domBnd n.val]
  | .send => []

/-- A fetcher issues the read of one descriptor (R139 to R141); the token passes to the next best-effort queue. -/
def descriptorTake (s : State) (f : Fetcher) : State :=
  if !fetcherReady s f then s
  else match chooseQueue s f with
  | none => s
  | some q =>
    match reachDoms s (fetcherDoms f) 2 with
    | (s, false) => s
    | (s, true) =>
      let rt := match getQ s q with
        | some x => x.rt && !x.demoted
        | none => false
      let t := takeFrom s q
      if rt then t else { t with fe := { t.fe with tokens := tset t.fe.tokens (fetcherKey f) (q + 1) } }

end Sys2Proof.Machine
end

