-- ==== Sys2Proof/Machine/Descriptors.lean ====
section
/-! DEFINITION. Descriptors: arming, the checks of R145, starting, completion, control opcodes, COPY and FILL, and
graph launches (spec/05, spec/03 R97 to R103). -/

namespace Sys2Proof.Machine

/-! ## Streams as descriptors name them (spec/15) -/

/-- A field of a stream record (R443). -/
def sfield (t : Stream) (hi lo : Nat) : Nat := nbits t.srec hi lo

/-- Largest body of a packet (R447). -/
def payMax (t : Stream) : Nat := sfield t 607 592 - (if sfield t 576 576 = 1 then 40 else 20) - 8 - 82

/-- BYTES of a SEND after its clamp (R451). -/
def sendBytes (t : Stream) (w : W512) : Nat := clamp 0 (65535 * payMax t) (bits w 223 192)

/-- Fragments of a message (R452). -/
def sendFrags (t : Stream) (bytes : Nat) : Nat := max 1 (cdiv bytes (payMax t))

/-- Packets of a message: its fragments and its parity packets (R452, R454). -/
def sendPackets (t : Stream) (bytes : Nat) : Nat :=
  let n := sendFrags t bytes
  let k := sfield t 575 570
  if k = 0 then n else n + cdiv n k

/-- KIND names a payload (R453). -/
def kindOk (k : Nat) : Bool := (decide (1 ≤ k) && decide (k ≤ 5)) || decide (0x80 ≤ k)

/-- The refusals of a SEND (R451). -/
def sendBad (s : State) (x : Queue) (w : W512) : Bool :=
  match tget s.circ.streams (bits w 231 224) with
  | none => true
  | some t =>
    t.ctx != x.ctx || t.eKey.isNone || !kindOk (bits w 239 232) ||
    decide (2 ^ 32 < t.seq + sendPackets t (sendBytes t w))

/-! ## Composition targets as descriptors name them (spec/13 R394) -/

/-- The refusals of a COMPOSE (R394). -/
def composeBad (s : State) (x : Queue) (w : W512) : Bool :=
  let t := bits w 135 128
  !(active s (oTarget t 0x08)).testBit 31 || nbits (active s (oTarget t 0x00)) 31 0 != ctxHandle s x.ctx

/-! ## Checks (R143, R145) -/

/-- An opcode that a class accepts (R143); class 9 is the window queue (R164). -/
def classTakes (cls op : Nat) : Bool :=
  match op with
  | 0x00 | 0x01 | 0x02 | 0x03 => true
  | 0x04 => cls != 9
  | 0x10 => cls == 0 || cls == 9
  | 0x11 => cls == 0
  | 0x20 => cls == 1 || cls == 9
  | 0x30 | 0x31 => cls == 2 || cls == 9
  | 0x40 => cls == 3
  | 0x50 => cls == 4
  | 0x60 => cls == 5
  | 0x70 => cls == 6
  | _ => false

/-- An opcode of the table (R143). -/
def knownOp (op : Nat) : Bool := op == 4 || op == 0x11 || op == 0x40 || op == 0x50 || op == 0x60 || op == 0x70 || classTakes 9 op

/-- An opcode that a graph node may hold (R154). -/
def nodeTakes (op : Nat) : Bool :=
  op == 0 || op == 1 || op == 2 || op == 0x10 || op == 0x20 || op == 0x30 || op == 0x31

/-- A fence handle that a context may wait on or signal (R64, R65). -/
def fenceFor (s : State) (c h : Nat) : Option Nat :=
  match lookup s.obj 3 h with
  | .error _ => none
  | .ok f =>
    match tget s.obj.fences f, ctxOf s c with
    | some x, some y => if x.ctx = c ∨ (x.shared ∧ x.func = y.func) then some f else none
    | _, _ => none

/-- A queue handle of the context (R79). -/
def queueFor (s : State) (c h : Nat) : Bool :=
  match lookup s.obj 2 h with
  | .error _ => false
  | .ok q => match tget s.obj.queues q with
    | some x => x.ctx == c
    | none => false

/-- A stored-graph handle of the context. -/
def graphFor (s : State) (c h : Nat) : Option Nat :=
  match lookup s.obj 5 h with
  | .error _ => none
  | .ok g => match tget s.obj.graphs g with
    | some x => if x.ctx = c then some g else none
    | none => none

/-- The media unit a queue is bound to is out of service (spec/16 R492). -/
def unitOut (s : State) (x : Queue) : Bool :=
  (x.cls == 4 && s.flt.oosUnits.testBit x.unit) || (x.cls == 5 && s.flt.oosUnits.testBit (12 + x.unit))

/-- Checks that the flag bits and the common fields allow (R145, R168); `node` leaves out what R154 does not charge. -/
def commonBad (s : State) (q : Nat) (x : Queue) (i : W32) (w : W512) (node : Bool) : Bool :=
  let op := bits w 7 0
  (!node && !classTakes x.cls op) ||
  (!node && op == 0x04 && !(x.rt && i == 0)) ||
  bits w 127 64 % 128 != 0 ||
  (bit w 12 && bits w 127 64 == 0) ||
  (bit w 9 && !queueFor s x.ctx (bits w 415 384)) ||
  (!node && x.rt && !(op == 0x04 && i == 0) && (match costOf w with
    | some r => !r.rt
    | none => true)) ||
  (q == winKey && (bit w 9 || bit w 10 || bit w 12)) ||
  (!node && unitOut s x)

/-- Checks of the payload in force that need no other table (R145). -/
def payloadBad (s : State) (x : Queue) (w : W512) : Bool :=
  match bits w 7 0 with
  | 0x01 | 0x02 => (fenceFor s x.ctx (bits w 159 128)).isNone
  | 0x10 => if bit w 255 then bits w 191 128 % 64 != 0 else bits w 191 128 % 256 != 0
  | 0x11 => (graphFor s x.ctx (bits w 159 128)).isNone
  | 0x20 => bits w 127 64 == 0 || bits w 255 192 % 65536 != 0
  | 0x40 => composeBad s x w
  | 0x60 => decide (2 ≤ bits w 321 320)
  | 0x70 => sendBad s x w
  | _ => false

/-! ## The payload (R146) -/

/-- What reading a payload gives. -/
inductive PayRes where
  | ok (w : W512) | bad | stall
  deriving DecidableEq, Repr

/-- The payload in force: with INDIRECT the 32 B payload area replaces bits [383:128] (R146). -/
def readPay (s : State) (who : Who) (w : W512) : State × PayRes :=
  if !bit w 12 then (s, .ok w)
  else
    let a := bits w 127 64
    if a = 0 ∨ a % 128 ≠ 0 then (s, .bad)
    else match vnat s who a 32 with
    | (s, some n) => (s, .ok (BitVec.ofNat 512 (nput w.toNat 383 128 n)))
    | (s, none) => (s, .stall)

/-! ## Arming (R146, R148) -/

/-- A record replaced in its queue. -/
def putRec (s : State) (q : Nat) (d : Desc) : State :=
  match getQ s q with
  | none => s
  | some x => putQ s q (setRec x d)

/-- Opcodes checked when they are armed (R145). -/
def armChecked (op : Nat) : Bool := op == 1 || op == 3 || op == 0x40 || op == 0x70

/-- What arming does once no earlier hold applies: the payload and checks of WAIT, WAIT_TICK, COMPOSE and SEND, and the
registration of a WAIT (R146, R148, R88). -/
def armNow (s : State) (q : Nat) (x : Queue) (d : Desc) : State :=
  let op := bits d.words 7 0
  if !knownOp op then complete s q d.idx 0x11
  else if !armChecked op then putRec s q { d with stage := .armed }
  else if commonBad s q x d.idx d.words false then complete (putRec s q { d with stage := .armed }) q d.idx 0x11
  else match readPay s (feWho s q x) d.words with
  | (s, .stall) => s
  | (s, .bad) => complete s q d.idx 0x11
  | (s, .ok w) =>
    if payloadBad s x w then complete s q d.idx 0x11
    else
      let d := { d with pay := w, stage := .armed, armTick := s.hoop.tick }
      if op = 1 then
        match (fenceFor s x.ctx (bits w 159 128)).bind fun f => tget s.obj.fences f with
        | none => s
        | some f =>
          if f.lost then complete (putRec s q d) q d.idx 0x12
          else putRec s q { d with waiting := !atOrLater f.value (waitValue d) }
      else putRec s q d

/-- DESCRIPTOR_ARM: the bytes of a taken descriptor have arrived, or the last of its holds has ended (R146 to R148).
Descriptors arm in ring order; one that was held starts in an open phase of an ACTIVE queue only (log 26). -/
def descriptorArm (s : State) (q : Nat) (i : W32) : State :=
  match getQ s q with
  | none => s
  | some x =>
    match recOf x i with
    | none => s
    | some d =>
      let earlier := x.recs.takeWhile fun e => e.idx ≠ i
      if !(d.stage = .taken ∨ d.stage = .held) ∨ (earlier.any fun e => e.stage = .taken) ∨
          (d.stage = .held ∧ (!isOpen s ∨ x.st ≠ .active)) then s
      else if (heldList (tokensOf x) earlier false false).any (·.2) ∨ (bit d.words 10 ∧ !d.token ∧ tokensOf x = 0) ∨
          (bit d.words 11 ∧ earlier.any fun e => !isEnded e) then
        putRec s q { d with stage := .held }
      else if bit d.words 10 ∧ !d.token then
        let d := { d with token := true }
        let x := setRec { x with tokens := x.tokens - 1 } d
        armNow (putQ s q x) q x d
      else armNow s q x d

/-! ## Starting -/

/-- Work may start: in the open or the drain phase (R31, R147), the device not failed. -/
def mayStart (s : State) : Bool := (s.hoop.phase = .opened || s.hoop.phase = .drain) && !s.flt.failed && !s.brd.inReset

/-- The launch of a descriptor. -/
def launchOf (s : State) (q : Nat) (i : W32) : Option Launch :=
  s.obj.launches.find? fun l => l.q = q && l.i = i

/-- A launch replaced. -/
def putLaunch (s : State) (l : Launch) : State :=
  setObj s { s.obj with launches := s.obj.launches.map fun m => if m.q = l.q ∧ m.i = l.i then l else m }

/-- A node's descriptor replaced. -/
def putNode (s : State) (q : Nat) (i : W32) (k : Nat) (d : Desc) : State :=
  match launchOf s q i with
  | none => s
  | some l => putLaunch s { l with nodes := tmod l.nodes k fun n => { n with d := d } }

/-- The descriptor of a work item set to a stage. -/
def setWork (s : State) (q : Nat) (i : W32) (node : Option Nat) (f : Desc → Desc) : State :=
  match node with
  | none => match getQ s q with
    | none => s
    | some x => putQ s q { x with recs := x.recs.map fun d => if d.idx = i then f d else d }
  | some k => match launchOf s q i with
    | none => s
    | some l => putLaunch s { l with nodes := tmod l.nodes k fun n => { n with d := f n.d } }

/-- The unit of a work item has ended with a status; its completion actions are still to come. -/
def finishWork (s : State) (q : Nat) (i : W32) (node : Option Nat) (st : Nat) : State :=
  setWork s q i node fun d => if d.stage = .started then { d with stage := .finished st } else d

/-- A work item completes at once with a status: a descriptor by R151, a node by the launch's next step. -/
def endWork (s : State) (q : Nat) (i : W32) (node : Option Nat) (st : Nat) : State :=
  match node with
  | none => complete s q i st
  | some _ => setWork s q i node fun d => { d with stage := .finished st, waiting := false }

/-- What a start gives: the payload in force with the queue, or nothing that starts. -/
inductive Begin where
  | go (x : Queue) (w : W512) (be : Bool) | no
  deriving DecidableEq, Repr

/-- Byte address of a node's entry in its launch's table (R98). -/
def nodeAt (l : Launch) (k : Nat) : Nat := l.table.toNat + 128 * k

/-- A node that is ready starts: its 64 B are read, and its checks made (R101, R154). A node became ready before its launch
failed, and so starts all the same. -/
def beginNode (s : State) (q : Nat) (i : W32) (k op : Nat) : State × Begin :=
  match getQ s q, launchOf s q i with
  | some x, some l =>
    match tget l.nodes k with
    | none => (s, .no)
    | some n =>
      if n.d.stage ≠ .armed ∨ l.cut then (s, .no)
      else match vnat s (feWho s q x) (nodeAt l k) 64 with
      | (s, none) => (s, .no)
      | (s, some v) =>
        let w : W512 := BitVec.ofNat 512 v
        if !nodeTakes (bits w 7 0) then (endWork s q i (some k) 0x13, .no)
        else if bits w 7 0 ≠ op then (s, .no)
        else if commonBad s q x i w true then (endWork s q i (some k) 0x11, .no)
        else match readPay s (feWho s q x) w with
        | (s, .stall) => (s, .no)
        | (s, .bad) => (endWork s q i (some k) 0x11, .no)
        | (s, .ok p) =>
          if payloadBad s x p then (endWork s q i (some k) 0x11, .no)
          else
            let d := { n.d with words := w, pay := p, be := match recOf x i with
              | some r => r.be
              | none => true }
            (putNode s q i k d, .go x p d.be)
  | _, _ => (s, .no)

/-- An armed descriptor starts: payload and checks as R145 and R146 give for its opcode. One of classes 0 to 2 whose context
owns no slot does not (spec/06 R171). -/
def beginDesc (s : State) (q : Nat) (i : W32) (op : Nat) : State × Begin :=
  match getQ s q with
  | none => (s, .no)
  | some x =>
    match recOf x i with
    | none => (s, .no)
    | some d =>
      if d.stage ≠ .armed ∨ d.waiting ∨ bits d.words 7 0 ≠ op ∨
          ((queueSlot s q x).any fun n => !slotReady s n) ∨ ((q = winKey ∨ x.cls < 3) ∧ (queueSlot s q x).isNone) ∨
          ((x.recs.takeWhile fun e => e.idx ≠ i).any (launchStalled s)) then (s, .no)
      else if armChecked op then
        if (op = 0x40 ∧ composeBad s x d.pay) ∨ unitOut s x then (complete s q i 0x11, .no) else (s, .go x d.pay d.be)
      else if commonBad s q x i d.words false then (complete s q i 0x11, .no)
      else match readPay s (feWho s q x) d.words with
      | (s, .stall) => (s, .no)
      | (s, .bad) => (complete s q i 0x11, .no)
      | (s, .ok w) =>
        if payloadBad s x w then (complete s q i 0x11, .no)
        else (putRec s q { d with pay := w }, .go x w d.be)

/-- A work item starts, where the period and its holds allow it. -/
def beginWork (s : State) (q : Nat) (i : W32) (node : Option Nat) (op : Nat) : State × Begin :=
  if !mayStart s then (s, .no)
  else match node with
  | none => beginDesc s q i op
  | some k => beginNode s q i k op

/-- Marks a work item started. -/
def markStarted (s : State) (q : Nat) (i : W32) (node : Option Nat) : State :=
  setWork s q i node fun d => { d with stage := .started }

/-! ## Control opcodes -/

/-- NOP (R143). -/
def startNop (s : State) (q : Nat) (i : W32) (node : Option Nat) : State :=
  match beginWork s q i node 0x00 with
  | (s, .go _ _ _) => endWork s q i node 0
  | (s, .no) => s

/-- BUDGET at index 0 of a real-time queue completes as a NOP (R155). -/
def startBudget (s : State) (q : Nat) (i : W32) : State :=
  match beginWork s q i none 0x04 with
  | (s, .go _ _ _) => complete s q i 0
  | (s, .no) => s

/-- SIGNAL: its value is signalled to its fence (R86), and it completes. -/
def startSignal (s : State) (q : Nat) (i : W32) (node : Option Nat) : State :=
  match beginWork s q i node 0x02 with
  | (s, .go x w _) =>
    let s := match fenceFor s x.ctx (bits w 159 128) with
      | some f => fenceCycle s f [BitVec.ofNat 64 (bits w 255 192)]
      | none => s
    endWork s q i node 0
  | (s, .no) => s

/-- WAIT: a descriptor whose wait is satisfied starts and completes in an open phase of an ACTIVE queue (R147, R148). A node registers its
wait when it starts, and completes when it is released (R88, R101). -/
def startWait (s : State) (q : Nat) (i : W32) (node : Option Nat) : State :=
  match node with
  | none =>
    if !isOpen s ∨ !((getQ s q).any fun x => x.st = .active) then s
    else match beginWork s q i none 0x01 with
    | (s, .go _ _ _) => complete s q i 0
    | (s, .no) => s
  | some k =>
    match (launchOf s q i).bind fun l => tget l.nodes k with
    | none => s
    | some n =>
      if n.d.stage = .held then
        if n.d.waiting ∨ !mayStart s then s else endWork s q i node 0
      else match beginWork s q i node 0x01 with
      | (s, .no) => s
      | (s, .go x w _) =>
        match (fenceFor s x.ctx (bits w 159 128)).bind fun f => tget s.obj.fences f with
        | none => s
        | some f =>
          if f.lost then endWork s q i node 0x12
          else if atOrLater f.value (BitVec.ofNat 64 (bits w 255 192)) then endWork s q i node 0
          else setWork s q i node fun d => { d with stage := .held, waiting := true }

/-- STRIDE and PHASE of a WAIT_TICK after their clamps (R144). -/
def waitStride (d : Desc) : Nat := clamp 1 256 (bits d.pay 136 128)
def waitPhase (d : Desc) : Nat := clamp 0 (waitStride d - 1) (bits d.pay 151 144)

/-- WAIT_TICK: completes at the first edge after it was armed that begins a period k with k mod STRIDE = PHASE (R149). -/
def startWaitTick (s : State) (q : Nat) (i : W32) : State :=
  match getQ s q with
  | none => s
  | some x =>
    match recOf x i with
    | none => s
    | some d =>
      if d.stage = .armed ∧ dOp d = 3 ∧ d.due ∧ isOpen s ∧ x.st = .active ∧ ¬ (x.cls < 3 ∧ (queueSlot s q x).isNone) then
        complete s q i 0 else s

/-! ## COPY and FILL (spec/05) -/

/-- A piece of an access without its first byte. -/
def stepTr : Tr → Tr
  | .mem pa k => .mem (pa + 1) k
  | .host ba => .host (ba + 1)
  | .twin pa => .twin (pa + 1)
  | t => t

/-- The pieces after one byte. -/
def stepPieces : List (Tr × Nat) → List (Tr × Nat)
  | [] => []
  | (t, n) :: l => if n ≤ 1 then l else (stepTr t, n - 1) :: l

/-- The first byte of an access. -/
def firstByte : List (Tr × Nat) → List (Tr × Nat)
  | [] => []
  | (t, _) :: _ => [(t, 1)]

/-- A byte-by-byte copy, ascending, on the memory that the ranges reach. -/
def copyLoop (w : Who) : Nat → State → List (Tr × Nat) → List (Tr × Nat) → State
  | 0, s, _, _ => s
  | n + 1, s, src, dst =>
    let (s, b) := readPieces w s (firstByte src)
    copyLoop w n (writePieces w s (firstByte dst) b) (stepPieces src) (stepPieces dst)

/-- The copy unit of a queue's slot (R118). -/
def copyWho (s : State) (q : Nat) (x : Queue) : Who :=
  let n := (queueSlot s q x).getD 0xFF
  { asid := x.ctx, slot := some n, site := .copyUnit n }

/-- COPY: the result of a byte-by-byte copy; a range that is not wholly present stalls the whole COPY (log 27). -/
def startCopy (s : State) (q : Nat) (i : W32) (node : Option Nat) : State :=
  match beginWork s q i node 0x30 with
  | (s, .no) => s
  | (s, .go x w _) =>
    let who := copyWho s q x
    let n := bits w 295 256
    match reach s who .read (bits w 191 128) n with
    | (s, none) => s
    | (s, some src) =>
      match reach s who .write (bits w 255 192) n with
      | (s, none) => s
      | (s, some dst) => finishWork (markStarted (copyLoop who n s src dst) q i node) q i node 0

/-- The bytes of a FILL: byte a takes byte a mod 8 of PATTERN. -/
def fillBytes (pattern n : Nat) : List Byte :=
  (List.range n).map fun a => BitVec.ofNat 8 (pattern / 2 ^ (8 * (a % 8)))

/-- FILL. -/
def startFill (s : State) (q : Nat) (i : W32) (node : Option Nat) : State :=
  match beginWork s q i node 0x31 with
  | (s, .no) => s
  | (s, .go x w _) =>
    match vwrite s (copyWho s q x) (bits w 191 128) (fillBytes (bits w 255 192) (bits w 295 256)) with
    | (s, false) => s
    | (s, true) => finishWork (markStarted s q i node) q i node 0

/-! ## Stored-graph launches (spec/03 R97 to R103) -/

/-- A node before it starts: ready when its arrivals equal its NPRED. -/
def newNode (i : W32) (npred : Nat) : Node :=
  { arrivals := 0, npred := npred,
    d := { newDesc i 0 true 0 0 0 with stage := if npred = 0 then .armed else .taken } }

/-- NPRED of every node of a table (R98, R101); none if a read stalls or fails. -/
def readNpreds (s : State) (who : Who) (table : Nat) : Nat → Nat → State × Option (List Nat)
  | 0, _ => (s, some [])
  | n + 1, k =>
    match vnat s who (table + 128 * k + 64) 2 with
    | (s, none) => (s, none)
    | (s, some v) =>
      match readNpreds s who table n (k + 1) with
      | (s, some l) => (s, some (v :: l))
      | (s, none) => (s, none)

/-- A node runs: started, waiting on a registered wait, or finished and not yet completed; also a ready one of a launch that
is not cut, since it starts when it is ready (R101). -/
def nodeRuns (n : Node) : Bool :=
  match n.d.stage with
  | .started | .held | .finished _ | .cleaning | .cleaned => true
  | _ => false

/-- A node has completed. -/
def nodeDone (n : Node) : Bool := isEnded n.d

/-- A node is ready and has not started. -/
def nodeReady (n : Node) : Bool := n.d.stage = .armed

/-- What a launch has come to when no node of it runs (R101, R163): its status, if it completes. -/
def launchVerdict (l : Launch) : Option Nat :=
  if l.nodes.any fun e => nodeRuns e.2 || (nodeReady e.2 && !l.cut) then none
  else match l.fail with
  | some st => some st
  | none =>
    if !l.read then (if l.cut then some 0x06 else none) else
    if l.nodes.all fun e => nodeDone e.2 then some 0
    else if l.cut then some 0x06
    else some 0x13

/-- A launch that has come to its end finishes its descriptor. -/
def settleLaunch (s : State) (q : Nat) (i : W32) : State :=
  match launchOf s q i with
  | none => s
  | some l =>
    match launchVerdict l with
    | none => s
    | some st => finishWork s q i none st

/-- The launch reads NPRED of every node, and its roots are ready (R101); with a read that stalls it goes on where the
command is given again (log 24). -/
def readGraph (s : State) (q : Nat) (i : W32) : State :=
  match getQ s q, launchOf s q i with
  | some x, some l =>
    if l.read then s
    else match readNpreds s (feWho s q x) l.table.toNat l.count 0 with
    | (s, none) => s
    | (s, some np) => settleLaunch (putLaunch s { l with read := true, nodes := np.zipIdx.map fun e => (e.2, newNode i e.1) }) q i
  | _, _ => s

/-- A launch added for the current slot of a graph, which counts it in flight (R100). -/
def addLaunch (s : State) (q : Nat) (i : W32) (g : Nat) (y : Graph) (b : Bool) : State :=
  let slot := if b then y.b else y.a
  let up := { slot with inflight := slot.inflight + 1 }
  let y := if b then { y with b := up } else { y with a := up }
  let l : Launch := { q := q, i := i, graph := g, gen := genOf s.obj 5 g, read := false, slotB := b, table := slot.table,
                      count := slot.count, nodes := [], fail := none, failAt := 0, failNode := 0, cut := false }
  setObj s { s.obj with graphs := tset s.obj.graphs g y, launches := s.obj.launches ++ [l] }

/-- GRAPH_LAUNCH: the current slot is read once and counted in flight, and the launch reads its table (R100, R101). -/
def startGraph (s : State) (q : Nat) (i : W32) : State :=
  if (launchOf s q i).isSome then (if mayStart s then readGraph s q i else s)
  else match beginWork s q i none 0x11 with
  | (s, .no) => s
  | (s, .go x w _) =>
    match graphFor s x.ctx (bits w 159 128) with
    | none => s
    | some g =>
      match tget s.obj.graphs g with
      | none => s
      | some y =>
        match y.cur with
        | none => complete s q i 0x13
        | some b =>
          if 255 ≤ (if b then y.b else y.a).inflight then s
          else readGraph (markStarted (addLaunch s q i g y b) q i none) q i

/-- A launch fails at a node with a status: the first failure in time decides, and of those of one time stamp that of the
lowest node index (R101; log 113). -/
def failLaunch (time k st : Nat) (l : Launch) : Launch :=
  if l.fail.isNone ∨ (l.failAt = time ∧ k < l.failNode) then { l with fail := some st, failAt := time, failNode := k } else l

/-- One arrival at a successor, from node `k0` (R101); once the launch has failed no further node starts. -/
def arrive (time k0 : Nat) (l : Launch) (k : Nat) : Launch :=
  match tget l.nodes k with
  | none => failLaunch time k0 0x13 l
  | some n =>
    if n.npred ≤ n.arrivals then failLaunch time k0 0x13 l
    else
      let a := n.arrivals + 1
      let go := a = n.npred ∧ l.fail.isNone
      { l with nodes := tset l.nodes k { n with arrivals := a, d := if go then { n.d with stage := .armed } else n.d } }

/-- The successors of a node (R98): NSUCC clamped to 30. -/
def readSuccs (s : State) (who : Who) (a : Nat) : State × Option (List Nat) :=
  match vnat s who (a + 64) 64 with
  | (s, none) => (s, none)
  | (s, some v) =>
    (s, some ((List.range (clamp 0 30 (nbits v 31 16))).map fun k => nbits v (47 + 16 * k) (32 + 16 * k)))

/-- A node completes with OK: its own SIG and CHAIN take effect (log 23), and its arrivals are delivered (R101). -/
def nodeOk (s : State) (q : Nat) (i : W32) (k : Nat) (x : Queue) (l : Launch) (n : Node) : State :=
  match readSuccs s (feWho s q x) (nodeAt l k) with
  | (s, none) => s
  | (s, some succ) =>
    let s := if bit n.d.words 8 && x.fence != 0 then
        signalHandle s x.fence.toNat (BitVec.ofNat 64 (bits n.d.words 511 448)) else s
    let s := if bit n.d.words 9 then chainToken s x.ctx (bits n.d.words 415 384) else s
    match launchOf s q i with
    | none => s
    | some l =>
      let l := { l with nodes := tmod l.nodes k fun n => { n with d := { n.d with stage := .ended 0 } } }
      settleLaunch (putLaunch s (succ.foldl (arrive s.hoop.time k) l)) q i

/-- GRAPH_NODE_COMPLETE: a node that has finished completes; with OK its writes become visible, for which a clean of its slot
may have to end first (R204), and then what `nodeOk` gives. -/
def nodeComplete (s : State) (q : Nat) (i : W32) (k : Nat) : State :=
  match getQ s q, launchOf s q i with
  | some x, some l =>
    match tget l.nodes k with
    | none => s
    | some n =>
      match n.d.stage with
      | .cleaned => nodeOk s q i k x l n
      | .finished 0 =>
        if (queueSlot s q x).any (mustClean s) then
          setWork (startClean s ((queueSlot s q x).getD 0)) q i (some k) fun d => { d with stage := .cleaning }
        else nodeOk s q i k x l n
      | .finished st =>
        let l := failLaunch s.hoop.time k st
          { l with nodes := tmod l.nodes k fun n => { n with d := { n.d with stage := .ended st } } }
        settleLaunch (putLaunch s l) q i
      | _ => s
  | _, _ => s

/-- A descriptor or node whose clean has ended. -/
def cleanedDesc (d : Desc) : Desc := if d.stage = .cleaning then { d with stage := .cleaned } else d

/-- A launch of a slot whose clean has ended. -/
def cleanedLaunch (l : Launch) : Launch := { l with nodes := tmap l.nodes fun _ m => { m with d := cleanedDesc m.d } }

/-- A subgroup whose release waits for a clean that has ended (spec/08 R268). -/
def cleanedSub (u : Sub) : Sub := if u.wait = .clean then { u with wait := .cleaned } else u

/-- The subgroups of a slot whose releases wait for its clean. -/
def cleanedGroups (s : State) (n : Nat) : State :=
  { s with cores := { s.cores with groups := s.cores.groups.map fun e =>
      if (tget s.cores.blocks e.2.block).any fun b => slotOfBlock s b == n then (e.1, { e.2 with subs := e.2.subs.map cleanedSub })
      else e } }

/-- CLEAN_DONE: HBM has acknowledged every write-back of a clean of a slot, which ends it (R204): what it held back may go
on. -/
def cleanDone (s : State) (n : Nat) : State :=
  if !s.fab.cleans.contains n then s
  else
    let onSlot (q : Nat) : Bool := (getQ s q).any fun x => queueSlot s q x == some n
    let mine := (queueKeys s).filter fun q => onSlot q && (getQ s q).any fun x => x.recs.any fun d => d.stage == .cleaning
    let t := cleanedGroups { s with fab := { s.fab with cleans := s.fab.cleans.erase n } } n
    let t := mine.foldl (fun t q => match getQ t q with
      | some x => putQ t q { x with recs := x.recs.map cleanedDesc }
      | none => t) t
    setObj t { t.obj with launches := t.obj.launches.map fun l => if onSlot l.q then cleanedLaunch l else l }

/-- CCH_STAT of the target of a COMPOSE that completes with status OK, before its completion actions (R405). -/
def composeStat (s : State) (q : Nat) (i : W32) : State :=
  match s.cch.comps.find? fun c => c.q = q && c.i = i with
  | none => s
  | some c =>
    { s with cch := { s.cch with stat := tset s.cch.stat c.target (c.frame.toNat, s.hoop.tick % 2 ^ 32) } }

/-- DESCRIPTOR_COMPLETE: a descriptor whose unit has finished, or for which a clean has ended, completes (R151). -/
def descriptorComplete (s : State) (q : Nat) (i : W32) : State :=
  match getQ s q with
  | none => s
  | some x =>
    match recOf x i with
    | none => s
    | some d =>
      match d.stage with
      | .finished st => complete (if st = 0 then composeStat s q i else s) q i st
      | .cleaned => complete s q i 0
      | _ => s

end Sys2Proof.Machine
end

