-- ==== Sys2Proof/Machine/Blocks.lean ====
section
/-! DEFINITION. Kernels on the cores: the start of a KERNEL, placement of block clusters, the end of a block, and
continuations (spec/08 R222 to R237, spec/05 R152, R153). -/

namespace Sys2Proof.Machine

/-! ## Eligible cores (R174, R231) -/

/-- Cores of a list of quads. -/
def coresOf (qs : List Nat) : List Nat := qs.flatMap fun q => [4 * q, 4 * q + 1, 4 * q + 2, 4 * q + 3]

/-- The quads of a slot on which a descriptor places thread groups: the reserved ones for a real-time take, the others
for best effort (R174, log 29); quads out of service run nothing (spec/16 R492). -/
def eligibleQuads (s : State) (n : Nat) (rt : Bool) : List Nat :=
  let k := nbits (active s (oRt n)) 22 16
  (if rt then (slotQuads s n).take k else (slotQuads s n).drop k).filter fun q =>
    hasQuad s q && !s.flt.oosQuads.testBit q

/-- The eligible cores, in rank order (R231). -/
def eligibleCores (s : State) (n : Nat) (rt : Bool) : List Nat := coresOf (eligibleQuads s n rt)

/-- Rank of a core among a list. -/
def rankOf (l : List Nat) (core : Nat) : Nat := (l.findIdx? fun c => c == core).getD 0

/-! ## Launch values (R232) -/

/-- Local-memory units that a slot retains (R39). -/
def retainMask (s : State) (n : Nat) : Nat := nbits (active s (oRetain n)) 7 0

/-- REGS after its clamp. -/
def kRegs (w : W512) : Nat := clamp 8 255 (bits w 279 272)

/-- Registers that a quarter allocates per lane for REGS (R225). -/
def allocRegs (regs : Nat) : Nat := (regs + 7) / 8 * 8

/-- Groups that a quarter holds for REGS (R225). -/
def quarterMax (regs : Nat) : Nat := min 16 (512 / allocRegs regs)

/-- GROUPS after its clamps. -/
def kGroups (w : W512) : Nat := min (clamp 1 32 (bits w 245 240)) (4 * quarterMax (kRegs w))

/-- LOCAL_KIB after its clamp. -/
def kLocal (s : State) (n : Nat) (w : W512) : Nat :=
  (min (bits w 265 256) (512 - 64 * popcount 8 (retainMask s n)) + 3) / 4 * 4

/-- The largest number of cores of a list in one hardware cluster. -/
def clusterMost (cores : List Nat) : Nat :=
  (List.range 16).foldl (fun m k => max m (cores.filter fun c => c / 16 == k).length) 0

/-- CLUSTER after its clamps. -/
def kCluster (cores : List Nat) (w : W512) : Nat := min (clamp 1 16 (bits w 250 246)) (clusterMost cores)

/-! ## Core-grid tables (R236, R237) -/

/-- The records of a core-grid table. -/
def gridRecs (bytes : List Byte) (n : Nat) : List W512 :=
  (List.range n).map fun r => BitVec.ofNat 512 (leNat (slice bytes (64 * r) 64))

/-- The connected endpoints of a record: channel, rank, inbound channel. -/
def gridEnds (w : W512) : List (Nat × Nat × Nat) :=
  (List.range 16).filterMap fun c =>
    let e := bits w (143 + 16 * c) (128 + 16 * c)
    if e.testBit 15 then some (c, nbits e 11 4, nbits e 3 0) else none

/-- A table that R237 refuses, or that holds a misaligned CODE (log 30). -/
def gridBad (recs : List W512) : Bool :=
  let ends := recs.flatMap gridEnds
  (ends.any fun e => match recs[e.2.1]? with
    | none => true
    | some w => bits w 63 0 == 0) ||
  !decide (ends.map fun e => e.2).Nodup ||
  recs.any fun w => bits w 63 0 % 256 != 0

/-! ## Start -/

/-- A run recorded, with its block clusters still to be placed. -/
def addRun (s : State) (r : Run) : State :=
  { s with cores := { s.cores with runs := tset s.cores.runs s.cores.nextId r, nextId := s.cores.nextId + 1 } }

/-- The run of a KERNEL payload on cores of a list. -/
def runOf (s : State) (q : Nat) (i : W32) (node : Option Nat) (n ctx : Nat) (rt : Bool) (cores : List Nat) (w : W512)
    (grid : List (Nat × W512)) : Run :=
  let bx := clamp 1 65535 (bits w 207 192)
  let byy := clamp 1 65535 (bits w 223 208)
  let bz := clamp 1 65535 (bits w 239 224)
  { q := q, i := i, node := node, slot := n, ctx := ctx, rt := rt, mode1 := bit w 255, regs := kRegs w,
    groups := kGroups w, localKib := kLocal s n w, cluster := kCluster cores w, bx := bx, byy := byy, bz := bz,
    entry := BitVec.ofNat 64 (bits w 191 128), arg := BitVec.ofNat 64 (bits w 383 320), next := 0,
    total := if bit w 255 then grid.length else bx * byy * bz, grid := grid, cont := none }

/-- A KERNEL payload launched: its run stands, or in MODE 1 its table is read, checked and refused or taken. `fail` is
what a refused table does. -/
def launchKernel (s : State) (q : Nat) (i : W32) (node : Option Nat) (x : Queue) (w : W512) (rt : Bool)
    (fail : State → State) : State :=
  match queueSlot s q x with
  | none => s
  | some n =>
    let cores := eligibleCores s n rt
    if cores.isEmpty then s
    else if !bit w 255 then addRun (markStarted s q i node) (runOf s q i node n x.ctx rt cores w [])
    else match vread s (feWho s q x) (bits w 191 128) (64 * cores.length) with
    | (s, none) => s
    | (s, some b) =>
      let recs := gridRecs b cores.length
      if gridBad recs then fail s
      else
        let grid := (cores.zip recs).filter fun e => bits e.2 63 0 != 0
        let s := markStarted s q i node
        if grid.isEmpty then finishWork s q i node 0 else addRun s (runOf s q i node n x.ctx rt cores w grid)

/-- KERNEL starts (R231, R232, R236, R237). -/
def startKernel (s : State) (q : Nat) (i : W32) (node : Option Nat) : State :=
  match beginWork s q i node 0x10 with
  | (s, .no) => s
  | (s, .go x w be) => launchKernel s q i node x w (x.rt && !be) fun s => endWork s q i node 0x11

/-! ## Room (R225, R234, R235) -/

/-- The groups resident on a core, with their group slots. -/
def groupsOn (s : State) (core : Nat) : List (Nat × Group) :=
  (s.cores.groups.filter fun e => e.1 / 64 == core).map fun e => (e.1 % 64, e.2)

/-- Further groups of `regs` registers that a quarter can take (R225). -/
def quarterRoom (s : State) (core quarter regs : Nat) : Nat :=
  let here := (groupsOn s core).filter fun e => e.1 / 16 == quarter
  min (16 - here.length) ((512 - here.foldl (fun a e => a + allocRegs e.2.nregs) 0) / allocRegs regs)

/-- Further groups that a core can take. -/
def coreRoom (s : State) (core regs : Nat) : Nat :=
  (List.range 4).foldl (fun a k => a + quarterRoom s core k regs) 0

/-- A local-memory range, in KiB, that is free and that the slot does not retain (R235). -/
def lmFree (s : State) (n core base kib : Nat) : Bool :=
  (s.cores.lmUse.all fun u => u.core != core || decide (u.base + u.kib ≤ base) || decide (base + kib ≤ u.base)) &&
  (List.range 8).all fun u => !(retainMask s n).testBit u || decide (64 * u + 64 ≤ base) || decide (base + kib ≤ 64 * u)

/-- The lowest free range of a length, in KiB (R235). -/
def lmFind (s : State) (n core kib : Nat) : Option Nat :=
  (List.range 513).find? fun b => decide (b + kib ≤ 512) && lmFree s n core b kib

/-- A core has room for one block of a run (R234). -/
def hasRoom (s : State) (r : Run) (core : Nat) : Bool :=
  decide (r.groups ≤ coreRoom s core r.regs) && (lmFind s r.slot core r.localKib).isSome

/-! ## Placement -/

/-- A thread group as it starts (R225, R226, R296). -/
def newGroup (block index nregs : Nat) (entry : W64) : Group :=
  { block := block, index := index, nregs := nregs, regs := [], exited := 0,
    subs := [{ mask := 0xFFFFFFFF, pc := entry, s := 0, wait := .ready }], g := 0, bobOut := 0 }

/-- The quarter that can take the most further groups, the lowest on ties (R235). -/
def bestQuarter (s : State) (core regs : Nat) : Nat :=
  (List.range 4).foldl (fun m k => if quarterRoom s core m regs < quarterRoom s core k regs then k else m) 0

/-- The lowest free group slot of a quarter. -/
def freeGroupSlot (s : State) (core quarter : Nat) : Nat :=
  16 * quarter + (((List.range 16).find? fun k => (tget s.cores.groups (core * 64 + 16 * quarter + k)).isNone).getD 0)

/-- A group put on a core (R235). -/
def putGroup (s : State) (core regs : Nat) (g : Group) : State :=
  let k := core * 64 + freeGroupSlot s core (bestQuarter s core regs)
  { s with cores := { s.cores with groups := tset s.cores.groups k g } }

/-- A block put on a core with its local memory and its groups (R235). -/
def putBlock (s : State) (core : Nat) (b : Block) : State :=
  let id := s.cores.nextId
  let base := (lmFind s ((tget s.cores.runs b.run).map (·.slot) |>.getD 0) core b.lmKib).getD 0
  let s := { s with cores := { s.cores with
    blocks := tset s.cores.blocks id { b with lmBase := base }
    nextId := id + 1
    lmUse := s.cores.lmUse ++ [{ core := core, base := base, kib := b.lmKib, tile := false, owner := id }] } }
  (List.range b.ngroups).foldl (fun s j => putGroup s core b.nregs (newGroup id j b.nregs b.entry)) s

/-- Block of linear index `b` in MODE 0 (R233). -/
def gridBlock (id : Nat) (r : Run) (b csize core rank : Nat) : Block :=
  { run := id, core := core, cluster := b / r.cluster, rank := b % r.cluster, csize := csize, bx := b % r.bx,
    byy := b / r.bx % r.byy, bz := b / (r.bx * r.byy), erank := rank, lmBase := 0, lmKib := r.localKib,
    ngroups := r.groups, nregs := r.regs, arg := r.arg, entry := r.entry, frag := none }

/-- The block of a core-grid record, a block cluster of its own (R236, log 31). -/
def recordBlock (id : Nat) (r : Run) (k core rank : Nat) (w : W512) : Block :=
  { run := id, core := core, cluster := k, rank := 0, csize := 1, bx := 0, byy := 0, bz := 0, erank := rank,
    lmBase := 0, lmKib := r.localKib, ngroups := r.groups, nregs := r.regs, arg := BitVec.ofNat 64 (bits w 127 64),
    entry := BitVec.ofNat 64 (bits w 63 0), frag := none }

/-- The channels of a core-grid run connected, 8 credits each (R257). -/
def connectGrid (s : State) (id : Nat) (cores : List Nat) (grid : List (Nat × W512)) : State :=
  { s with cores := { s.cores with
    outs := grid.foldl (fun o e => (gridEnds e.2).foldl (fun o x =>
      tset o (e.1 * 16 + x.1) { run := id, core := cores.getD x.2.1 0, chan := x.2.2, credits := 8 }) o) s.cores.outs } }

/-- The outbound channels that a core-grid run has connected are unconnected at its end (R257, log 32). -/
def dropGrid (s : State) (id : Nat) : State :=
  { s with cores := { s.cores with outs := s.cores.outs.filter fun e => e.2.run ≠ id } }

/-- The cores of one hardware cluster that take a block cluster of `n` blocks: the lowest-numbered cluster with enough
room, and there the lowest-ranked cores (R234). -/
def pickCores (s : State) (r : Run) (cores : List Nat) (n : Nat) : Option (List Nat) :=
  (List.range 16).findSome? fun k =>
    let c := cores.filter fun c => c / 16 == k && hasRoom s r c
    if n ≤ c.length then some (c.take n) else none

/-- BLOCK_CLUSTER_PLACE: the next block cluster of a run, or every block of a core grid, in one step (R234 to R236); a core
grid of which a rank is no longer eligible is refused (R237, third case). Placement wakes the quads it uses (spec/18
R545). -/
def placeCluster (s : State) (id : Nat) : State :=
  match tget s.cores.runs id with
  | none => s
  | some r =>
    let cores := eligibleCores s r.slot r.rt
    if !mayStart s ∨ r.total ≤ r.next then s
    else if r.mode1 then
      if r.grid.any fun e => !cores.contains e.1 then
        finishWork { s with cores := { s.cores with runs := tdel s.cores.runs id } } r.q r.i r.node 0x11
      else if !(r.grid.all fun e => hasRoom s r e.1) then s
      else match reachDoms s (r.grid.map fun e => domQuad (e.1 / 4)) 2 with
      | (s, false) => s
      | (s, true) =>
        let s := connectGrid s id cores r.grid
        let s := r.grid.zipIdx.foldl (fun s e => putBlock s e.1.1 (recordBlock id r e.2 e.1.1 (rankOf cores e.1.1) e.1.2)) s
        { s with cores := { s.cores with runs := tset s.cores.runs id { r with next := r.total } } }
    else
      let n := min r.cluster (r.total - r.next)
      match pickCores s r cores n with
      | none => s
      | some on =>
        match reachDoms s (on.map fun c => domQuad (c / 4)) 2 with
        | (s, false) => s
        | (s, true) =>
          let s := on.zipIdx.foldl (fun s e => putBlock s e.1 (gridBlock id r (r.next + e.2) n e.1 (rankOf cores e.1))) s
          { s with cores := { s.cores with runs := tset s.cores.runs id { r with next := r.next + n } } }

/-! ## The end of a block and of a run -/

/-- A group has ended: every lane has exited (R226). -/
def groupEnded (g : Group) : Bool := g.exited = 0xFFFFFFFF

/-- Groups of a block. -/
def groupsOf (s : State) (b : Nat) : List (Nat × Group) := s.cores.groups.filter fun e => e.2.block == b

/-- Engines that a block holds. -/
def enginesOf (s : State) (b : Nat) : List (Nat × Engine) := s.eng.eng.filter fun e => e.2.holder == some b

/-- A block may end: its lanes have exited, their stores have been performed, and its engine and Bobbin work is complete
(R226, R267, spec/09 R292, spec/11 R333). -/
def blockDone (s : State) (b : Nat) : Bool :=
  ((groupsOf s b).all fun e => groupEnded e.2) &&
  ((enginesOf s b).all fun e => e.2.queue.isEmpty) &&
  (s.bob.eng.all fun e => e.2.cmds.all fun c => c.block != b) &&
  !s.fab.txns.any fun e => e.2.lanes.any fun l => l.block == b

/-- A run that has ended: its descriptor is suspended when it has saved a continuation (R153), and finished with OK
otherwise. On a draining queue the saved continuation is discarded (spec/05 R162). -/
def endRun (s : State) (id : Nat) (r : Run) : State :=
  let s := { s with cores := { s.cores with runs := tdel s.cores.runs id } }
  let s := dropGrid s id
  match r.cont, r.node, getQ s r.q with
  | some w, none, some x =>
    if x.st = .draining then
      queueDrained (putQ s r.q { x with recs := x.recs.filter fun d => d.idx ≠ r.i }) r.q
    else setWork s r.q r.i none fun d => { d with stage := .suspended, pay := w }
  | _, _, _ => finishWork s r.q r.i r.node 0

/-- The run of a block ends with its last block, once every block has been placed (R235). -/
def runAfter (s : State) (id : Nat) : State :=
  match tget s.cores.runs id with
  | none => s
  | some r =>
    if r.next < r.total ∨ (s.cores.blocks.any fun e => e.2.run == id && e.2.frag.isNone) then s else endRun s id r

/-- BLOCK_END for a block of a kernel. -/
def endBlock (s : State) (b : Nat) : State :=
  match tget s.cores.blocks b with
  | none => s
  | some x => if x.frag.isSome ∨ !blockDone s b then s else runAfter (dropBlocks s fun k _ => k == b) x.run

/-! ## Continuations (R40, R152, R153) -/

/-- The first suspended record of a queue. -/
def suspendedRec (x : Queue) : Option Desc := x.recs.find? fun d => d.stage = .suspended

/-- A queue whose continuation its front end launches now (R40, R140; log 33). -/
def mayContinue (s : State) (q : Nat) (x : Queue) : Bool :=
  isOpen s && !s.flt.failed && !s.pwr.inS3 && !s.brd.inReset && x.st = .active && ctxActive s x.ctx &&
  match queueSlot s q x with
  | some n => slotReady s n
  | none => false

/-- What of a continuation record is read: bits [511:384] and the flag bits are ignored (R152), its opcode is KERNEL. -/
def contWord (w : W512) : W512 := BitVec.ofNat 512 (nput (bits w 383 16 * 2 ^ 16) 7 0 0x10)

/-- CONTINUATION_LAUNCH: the saved record is charged as a take is, and launched in place of the payload; it is refused
as a descriptor's start would be. What its runs measure adds up against what they declare (R158). -/
def launchCont (s : State) (q : Nat) : State :=
  match getQ s q with
  | none => s
  | some x =>
    match suspendedRec x with
    | none => s
    | some d =>
      if !mayContinue s q x ∨ ((queueSlot s q x).any fun n => (eligibleCores s n (x.rt && !x.demoted)).isEmpty) then s
      else
        let w := contWord d.pay
        let bad := (x.rt && (match costOf w with
          | some r => !r.rt
          | none => true)) || payloadBad s x w
        if bad then complete s q d.idx 0x11
        else
          let (y, be, c, h) := charge x d.idx w
          let s := launchKernel s q d.idx none x w (x.rt && !be) fun s => complete s q d.idx 0x11
          match getQ s q with
          | none => s
          | some z =>
            match recOf z d.idx with
            | none => s
            | some e =>
              if e.stage = .suspended then s
              else
                let z := { z with qcUsed := y.qcUsed, hbUsed := y.hbUsed, demoted := y.demoted, beTaken := y.beTaken }
                putQ s q (setRec z { e with be := be, chQc := e.chQc + c, chHb := e.chHb + h })

/-! ## Meanings -/

/-- KERNEL. -/
def execKernel (w : Work) (s : State) : Host.Outcome State Fault Refusal :=
  .next (startKernel s w.q.val w.i (w.node.map (·.val)))

/-- CONTINUATION_LAUNCH. -/
def execContinuationLaunch (q : Fin 8193) (s : State) : Host.Outcome State Fault Refusal := .next (launchCont s q.val)

/-- BLOCK_CLUSTER_PLACE. -/
def execBlockClusterPlace (run : Nat) (s : State) : Host.Outcome State Fault Refusal := .next (placeCluster s run)

end Sys2Proof.Machine
end

