-- ==== Sys2Proof/Machine/Mesh.lean ====
section
/-! DEFINITION. The mesh of cluster routers: routes, buffers with their credits, rotating tokens and request tables
(spec/07 R189 to R197). A buffer is numbered 16 × router + input port, or 256 + 16 × router + port for the one behind a
port by which requests leave the mesh. Only the REQ channel holds requests between steps: a response crosses the mesh on
RSP, whose buffers are others, within the step that it ends (R191; log 109). -/

namespace Sys2Proof.Machine

/-! ## Routes (R189, R190, R210) -/

/-- Ports of a router in the order of R193. -/
def pCluster : Nat := 0
def pSlice : Nat := 1
def pNorth : Nat := 2
def pEast : Nat := 3
def pSouth : Nat := 4
def pWest : Nat := 5
def pGroup (g : Nat) : Nat := 6 + g % 2
def pHub : Nat := 8
def pWestPort : Nat := 9

/-- Lines that a port moves in a NOC cycle (R189). -/
def linesOf (port : Nat) : Nat :=
  if port < 2 then 8 else if port < 6 then 4 else if port < 8 then 3 else if port = 8 then 2 else 1

/-- Router and port at which the requests of a share enter the mesh (R189, R196). -/
def sourceOf (share : Nat) : Nat × Nat :=
  if share < 64 then (share / 4, pCluster)
  else if share < 68 then (4 * (share - 64), pWestPort) else (4 * (share - 68) + 3, pHub)

/-- Router that carries the port of a channel group (R210): stacks 0 to 3 join k00 to k03, stacks 4 to 7 join k12 to k15. -/
def groupRouter (g : Nat) : Nat := if g / 2 < 4 then g / 2 else 8 + g / 2

/-- Pseudo-channel of a stack that holds a local HBM address (R210, R211). -/
def pseudoChannel (pa : Nat) : Nat :=
  let o := pa % 0x480000000
  8 * (groupOf pa % 2) + (nbits o 10 8 ^^^ nbits o 13 11)

/-- Router and port of a transaction's target (R190, R201, R206, R210). Host memory lies behind the host link of the half
of the mesh in which the source lies (log 109). -/
def targetOf' (s : State) (space : Space) (addr source : Nat) : Nat × Nat :=
  let hbm := (groupRouter (groupOf addr), pGroup (groupOf addr))
  match space with
  | .tier n => ((homeSlice s n addr).map fun k => (k, pSlice)).getD hbm
  | .mem => if scratchBase ≤ addr then ((addr - scratchBase) / 0x2000000, pSlice) else hbm
  | .host => (if source < 8 then 0 else 12, pWestPort)
  | .twin => (4, pWestPort)

/-- The routers from `a` to `b`, both among them: along the row, then along the column (R190). -/
def meshPath (a b : Nat) : List Nat :=
  let turn := a / 4 * 4 + b % 4
  let row := if a % 4 ≤ b % 4 then (List.range (b % 4 - a % 4)).map (a + ·) else (List.range (a % 4 - b % 4)).map (a - ·)
  let col := if turn ≤ b then (List.range (b / 4 - turn / 4 + 1)).map fun i => turn + 4 * i
    else (List.range (turn / 4 - b / 4 + 1)).map fun i => turn - 4 * i
  row ++ col

/-- Input port of router `b` on the link from its neighbour `a`. -/
def linkInput (a b : Nat) : Nat :=
  if b = a + 1 then pWest else if b + 1 = a then pEast else if b = a + 4 then pNorth else pSouth

/-! ## Buffers and credits (R191, R192) -/

/-- The buffer in which a request is after `h` hops; none at its unit. -/
def bufferAt (x : Txn) (h : Nat) : Option Nat :=
  match h with
  | 0 => none
  | 1 => some (16 * (sourceOf x.share).1 + (sourceOf x.share).2)
  | n + 2 =>
    if n + 1 < x.path.length then some (16 * x.path.getD (n + 1) 0 + linkInput (x.path.getD n 0) (x.path.getD (n + 1) 0))
    else some (256 + 16 * x.path.getD n 0 + x.port)

/-- The port by which a buffer is entered, for its rate. -/
def portOf (b : Nat) : Nat := b % 16

/-- A request has reached the buffer of its target. -/
def atTarget (x : Txn) : Bool := x.path.length < x.hop

/-- Requests that a buffer holds. -/
def heldIn (s : State) (b : Nat) : Nat := (s.fab.txns.filter fun e => e.2.entry && bufferAt e.2 e.2.hop == some b).length

/-- The sender holds a credit for a buffer (R192). -/
def credit (s : State) (b : Nat) : Bool := heldIn s b == 0 || decide (heldIn s b ≤ Config.bufferMore)

/-- Input of a unit in its port (R193; log 109 for the image mover). -/
def unitInput : Issuer → Nat
  | .unit _ u => siteInput u
  | .carve _ u => siteInput u
  | .hub _ u => siteInput u
  | .walker n _ => 400 + n.val
  | .mgmt => 0
  | .hostLink => 0
  | .selvage => 0
where
  /-- Input of a unit: cores, front ends, copy units, image movers, Pricking, rasterizer, Bobbin engines; hub units. -/
  siteInput : Site → Nat
    | .lanes c => c % 16
    | .tensor c => c % 16
    | .frontEnd n => 16 + n
    | .copyUnit n => 64 + n
    | .image n => 112 + n
    | .binner _ => 160
    | .raster _ => 161
    | .bobbin b _ => 162 + b
    | .encoder n => n
    | .bindery n => 12 + n
    | .couching n => 16 + n
    | .port n => 272 + n

/-- The input at which a request claims its next buffer. -/
def inputOf (x : Txn) : Nat := match bufferAt x x.hop with
  | none => unitInput x.issuer
  | some b => b % 16

/-- A request is the first of its buffer, or of those that wait at its unit: what stands behind it waits (R192). -/
def isHead (s : State) (x : Txn) : Bool :=
  !(s.fab.txns.any fun e => e.2.entry && bufferAt e.2 e.2.hop == bufferAt x x.hop && decide (e.2.seq < x.seq) &&
    (x.hop != 0 || (e.2.share == x.share && unitInput e.2.issuer == unitInput x.issuer)))

/-- The slot on whose behalf a request is issued. -/
def txnOwner : Issuer → Option Nat
  | .unit n _ => some n.val
  | _ => none

/-- The channel group that a request reaches through its target's port. -/
def txnGroup (x : Txn) : Option Nat := if x.port = 6 ∨ x.port = 7 then some (groupOf x.addr) else none

/-- A best-effort request at a group that its slot reserves leaves the claim while a real-time request of the slot waits
there (spec/06 R175, R194). -/
def yields (s : State) (claims : List (Nat × Txn)) (x : Txn) : Bool :=
  match txnOwner x.issuer, txnGroup x with
  | some n, some g => !x.rt && (active s (oRt n)).testBit g && claims.any fun e => e.2.rt && txnOwner e.2.issuer == some n
  | _, _ => false

/-- The requests that claim a buffer, but for those that have moved in the cycle. -/
def claimsOf (s : State) (moved : List Nat) (b : Nat) : List (Nat × Txn) :=
  let l := s.fab.txns.filter fun e =>
    e.2.entry && bufferAt e.2 (e.2.hop + 1) == some b && !atTarget e.2 && isHead s e.2 && !moved.contains e.1
  if 256 ≤ b then l.filter fun e => !yields s l e.2 else l

/-- The claim that a rotating token grants: the first at or after it in ascending order of inputs, wrapping (R193). -/
def tokenPick (token : Nat) (l : List (Nat × Nat)) : Option (Nat × Nat) :=
  let best (l : List (Nat × Nat)) : Option (Nat × Nat) :=
    l.foldl (fun m e => match m with
      | some b => if e.1 < b.1 then some e else some b
      | none => some e) none
  match best (l.filter fun e => decide (token ≤ e.1)) with
  | some e => some e
  | none => best l

/-- A fabric with one request changed. -/
def setTxn (s : State) (id : Nat) (x : Txn) : State := { s with fab := { s.fab with txns := tset s.fab.txns id x } }

/-- One grant at a buffer with a credit: the request enters it, which frees its place in the last one and so returns that
credit, and the token passes on (R192, R193). -/
def nocGrant (p : State × List Nat) (b : Nat) : State × List Nat :=
  let s := p.1
  if !credit s b then p
  else match tokenPick (tgetD s.fab.tokens b 0) ((claimsOf s p.2 b).map fun e => (inputOf e.2, e.1)) with
  | none => p
  | some (i, id) =>
    match tget s.fab.txns id with
    | none => p
    | some x =>
      let t := setTxn s id { x with hop := x.hop + 1, seq := s.fab.seq }
      ({ t with fab := { t.fab with seq := s.fab.seq + 1, tokens := tset s.fab.tokens b (i + 1) } }, id :: p.2)

/-- The buffers that some request claims. -/
def claimed (s : State) : List Nat :=
  ((s.fab.txns.filter fun e => e.2.entry && !atTarget e.2).filterMap fun e => bufferAt e.2 (e.2.hop + 1)).eraseDups

/-- One NOC cycle: each buffer takes as many lines as its port moves (R189, R192, R193). -/
def nocCycle (s : State) : State :=
  ((claimed s).foldl (fun p b => (List.range (linesOf (portOf b))).foldl (fun p _ => nocGrant p b) p) (s, [])).1

/-- At most `n` NOC cycles. -/
def nocRun : Nat → State → State
  | 0, s => s
  | n + 1, s => if (claimed s).isEmpty then s else nocRun n (nocCycle s)

/-- The mesh at rest, but for requests that wait for credits of targets: no route has more than eight buffers. -/
def nocSettle (s : State) : State := nocRun (16 * s.fab.txns.length) s

/-! ## Request tables (R195 to R197) -/

/-- Number of a share. -/
def shareKey : Share → Nat
  | .quad q => q.val
  | .west r => 64 + r.val
  | .hub r => 68 + r.val

/-- The allocator of a share gives a free entry to a transaction that waits for one, by its rotating token (R193, R195,
R197). -/
def allocate (s : State) (share : Nat) : State :=
  if !shareFree s share then s
  else
    let l := s.fab.txns.filter fun e => e.2.share == share && !e.2.entry
    match tokenPick (tgetD s.fab.tokens (1024 + share) 0) (l.map fun e => (unitInput e.2.issuer, e.1)) with
    | none => s
    | some (i, id) =>
      match tget s.fab.txns id with
      | none => s
      | some x =>
        let t := setTxn s id { x with entry := true, seq := s.fab.seq, born := s.flt.windows }
        { t with fab := { t.fab with seq := s.fab.seq + 1, tokens := tset s.fab.tokens (1024 + share) (i + 1)
                                     shares := tset s.fab.shares share (tgetD s.fab.shares share 0 + 1) } }

end Sys2Proof.Machine
end

