-- ==== Sys2Proof/Machine/Numbers.lean ====
section
/-! DEFINITION. Number formats and arithmetic, fixed to the bit (spec/10). A finite value is an exact integer times a
power of two; every rounding is explicit. -/

namespace Sys2Proof.Machine

/-! ## Formats (R301, R302) -/

/-- Special encodings of a floating-point format: infinity and NaN, NaN only (E4M3), or none. -/
inductive Special where
  | ieee | nanOnly | none'
  deriving DecidableEq, Repr

/-- A floating-point format: fraction width, bias, width of the magnitude (without sign), code of the largest finite
magnitude, and special encodings. -/
structure FF where
  mb : Nat
  bias : Nat
  width : Nat
  top : Nat
  sp : Special
  deriving DecidableEq, Repr

def ffFp32 : FF := ⟨23, 127, 31, 0x7F7FFFFF, .ieee⟩
def ffBf16 : FF := ⟨7, 127, 15, 0x7F7F, .ieee⟩
def ffFp16 : FF := ⟨10, 15, 15, 0x7BFF, .ieee⟩
def ffE4m3 : FF := ⟨3, 7, 7, 0x7E, .nanOnly⟩
def ffE5m2 : FF := ⟨2, 15, 7, 0x7B, .ieee⟩
def ffE3m2 : FF := ⟨2, 3, 5, 0x1F, .none'⟩
def ffE2m3 : FF := ⟨3, 1, 5, 0x1F, .none'⟩
def ffE2m1 : FF := ⟨1, 1, 3, 0x7, .none'⟩

/-- The floating-point format of a format name. -/
def ffOf : Fmt → Option FF
  | .fp32 => some ffFp32
  | .bf16 => some ffBf16
  | .fp16 => some ffFp16
  | .e4m3 => some ffE4m3
  | .e5m2 => some ffE5m2
  | .e3m2 => some ffE3m2
  | .e2m3 => some ffE2m3
  | .e2m1 => some ffE2m1
  | _ => none

/-- A value: NaN, an infinity, or sign, magnitude m and exponent e for m × 2^e; zero keeps its sign. -/
inductive FV where
  | nan | inf (neg : Bool) | num (neg : Bool) (m : Nat) (e : Int)
  deriving DecidableEq, Repr

/-- The canonical NaN of a format, +0 where it has none (R303, R314). -/
def canonNan (f : FF) : Nat :=
  match f.sp with
  | .ieee => f.top + 1 + 2 ^ (f.mb - 1)
  | .nanOnly => f.top + 1
  | .none' => 0

/-- The value of an encoding (R301, R302). -/
def decodeF (f : FF) (w : Nat) : FV :=
  let neg := w.testBit f.width
  let c := w % 2 ^ f.width
  if c ≤ f.top then
    let e := c / 2 ^ f.mb
    let m := c % 2 ^ f.mb
    if e = 0 then .num neg m (1 - (f.bias : Int) - f.mb)
    else .num neg (2 ^ f.mb + m) ((e : Int) - f.bias - f.mb)
  else if f.sp = .ieee ∧ c = f.top + 1 then .inf neg
  else .nan

/-- Rounding modes: to nearest even, toward zero (R314). -/
inductive Rnd where
  | rne | rtz
  deriving DecidableEq, Repr

/-- m × 2^(−d) rounded to an integer. -/
def roundShift (r : Rnd) (m d : Nat) : Nat :=
  let q := m / 2 ^ d
  let rem := m % 2 ^ d
  match r with
  | .rtz => q
  | .rne => if 2 * rem > 2 ^ d ∨ (2 * rem = 2 ^ d ∧ q % 2 = 1) then q + 1 else q

/-- The magnitude code of m × 2^e rounded in a format whose exponent has no upper limit (R314). -/
def roundCode (f : FF) (r : Rnd) (m : Nat) (e : Int) : Nat :=
  if m = 0 then 0
  else
    let q := max ((Nat.log2 m : Int) + e - f.mb) (1 - (f.bias : Int) - f.mb)
    let n := if q ≤ e then m * 2 ^ (e - q).toNat else roundShift r m (q - e).toNat
    if n < 2 ^ f.mb then n
    else if n = 2 ^ (f.mb + 1) then (q + 1 + f.mb + f.bias).toNat * 2 ^ f.mb
    else (q + f.mb + f.bias).toNat * 2 ^ f.mb + (n - 2 ^ f.mb)

/-- The sign bit of a format. -/
def signBit (f : FF) (neg : Bool) : Nat := if neg then 2 ^ f.width else 0

/-- The infinity of a format, or its largest finite value where it has none (R314). -/
def infCode (f : FF) : Nat := if f.sp = .ieee then f.top + 1 else f.top

/-- A value in a format, rounded and placed in its range (R314). -/
def encodeF (f : FF) (r : Rnd) : FV → Nat
  | .nan => canonNan f
  | .inf neg => signBit f neg + infCode f
  | .num neg m e =>
    let c := roundCode f r m e
    signBit f neg + (if c ≤ f.top then c else match f.sp, r with
      | .ieee, .rne => f.top + 1
      | _, _ => f.top)

/-! ## Exact arithmetic -/

/-- A finite value as an integer at a common exponent. -/
def atExp (neg : Bool) (m : Nat) (e base : Int) : Int :=
  let v : Int := (m * 2 ^ (e - base).toNat : Nat)
  if neg then -v else v

/-- A signed integer times a power of two as a value; a zero takes the sign given. -/
def ofInt (v : Int) (e : Int) (zneg : Bool) : FV :=
  if v = 0 then .num zneg 0 0 else .num (decide (v < 0)) v.natAbs e

/-- The exact sum; opposites give +0, and −0 only from two −0 (R319). -/
def addV : FV → FV → FV
  | .nan, _ => .nan
  | _, .nan => .nan
  | .inf a, .inf b => if a = b then .inf a else .nan
  | .inf a, .num _ _ _ => .inf a
  | .num _ _ _, .inf b => .inf b
  | .num a m e, .num b n f =>
    let base := min e f
    ofInt (atExp a m e base + atExp b n f base) base (a && b && decide (m = 0) && decide (n = 0))

/-- The exact product (R308 and R319). -/
def mulV : FV → FV → FV
  | .nan, _ => .nan
  | _, .nan => .nan
  | .inf a, .inf b => .inf (a != b)
  | .inf a, .num b n _ => if n = 0 then .nan else .inf (a != b)
  | .num a m _, .inf b => if m = 0 then .nan else .inf (a != b)
  | .num a m e, .num b n f => .num (a != b) (m * n) (e + f)

/-- Order of two values; none with a NaN. −0 equals +0. -/
def ltV : FV → FV → Bool
  | .nan, _ => false
  | _, .nan => false
  | .inf a, .inf b => a && !b
  | .inf a, .num _ _ _ => a
  | .num _ _ _, .inf b => !b
  | .num a m e, .num b n f => decide (atExp a m e (min e f) < atExp b n f (min e f))

/-- Equality of two values; a NaN equals nothing. -/
def eqV : FV → FV → Bool
  | .inf a, .inf b => a == b
  | .num a m e, .num b n f => decide (atExp a m e (min e f) = atExp b n f (min e f))
  | _, _ => false

/-- The sign of a value. -/
def negV : FV → Bool
  | .nan => false
  | .inf a => a
  | .num a _ _ => a

/-- MIN and MAX: a NaN operand gives NaN, and −0 is below +0 (R320). -/
def minV (a b : FV) : FV :=
  if a = .nan ∨ b = .nan then .nan
  else if eqV a b then (if negV a then a else b) else if ltV a b then a else b

def maxV (a b : FV) : FV :=
  if a = .nan ∨ b = .nan then .nan
  else if eqV a b then (if negV a then b else a) else if ltV a b then b else a

/-- A value times 2^k. -/
def scaleV (k : Int) : FV → FV
  | .num a m e => .num a m (e + k)
  | v => v

/-! ## Lane arithmetic (R319 to R324) -/

/-- One floating-point operation of a format with results rounded to nearest even; comparisons give 1 or 0. -/
def fpOp (f : FF) (op : FpOp) (a b c : Nat) : Nat :=
  let x := decodeF f a
  let y := decodeF f b
  let z := decodeF f c
  let flag := fun (p : Bool) => if p then 1 else 0
  match op with
  | .fma => encodeF f .rne (addV (mulV x y) z)
  | .add => encodeF f .rne (addV x y)
  | .mul => encodeF f .rne (mulV x y)
  | .min => encodeF f .rne (minV x y)
  | .max => encodeF f .rne (maxV x y)
  | .eq => flag (eqV x y)
  | .ne => flag (!eqV x y)
  | .lt => flag (ltV x y)
  | .le => flag (ltV x y || eqV x y)
  | .gt => flag (ltV y x)
  | .ge => flag (ltV y x || eqV x y)

/-- One PACKED operation on the two halves of each register (R321). -/
def pkOp (bf : Bool) (op : PkOp) (a b c : Nat) : Nat :=
  let f := if bf then ffBf16 else ffFp16
  let o : FpOp := match op with
    | .fma => .fma
    | .add => .add
    | .min => .min
    | .max => .max
  fpOp f o (a % 65536) (b % 65536) (c % 65536) + 65536 * fpOp f o (a / 65536) (b / 65536) (c / 65536)

/-- One INT operation on 32-bit words (R324). `select` takes b where a is not zero, else c. -/
def intOp (op : IntOp) (a b c : W32) : W32 :=
  let flag := fun (p : Bool) => if p then (1 : W32) else 0
  match op with
  | .add => a + b
  | .sub => a - b
  | .mul => a * b
  | .and => a &&& b
  | .or => a ||| b
  | .xor => a ^^^ b
  | .shl => a <<< (b.toNat % 32)
  | .shr => a >>> (b.toNat % 32)
  | .sar => a.sshiftRight (b.toNat % 32)
  | .minS => if a.toInt ≤ b.toInt then a else b
  | .minU => if a.toNat ≤ b.toNat then a else b
  | .maxS => if a.toInt ≤ b.toInt then b else a
  | .maxU => if a.toNat ≤ b.toNat then b else a
  | .eq => flag (a = b)
  | .ne => flag (a ≠ b)
  | .ltS => flag (a.toInt < b.toInt)
  | .ltU => flag (a.toNat < b.toNat)
  | .leS => flag (a.toInt ≤ b.toInt)
  | .leU => flag (a.toNat ≤ b.toNat)
  | .select => if a ≠ 0 then b else c

/-! ## Conversions (R314 to R318) -/

/-- An exact value rounded to an integer. -/
def toInteger (r : Rnd) (neg : Bool) (m : Nat) (e : Int) : Int :=
  let n := if 0 ≤ e then m * 2 ^ e.toNat else roundShift r m (-e).toNat
  if neg then -(n : Int) else n

/-- An integer clamped to a range. -/
def clampI (lo hi v : Int) : Int := max lo (min hi v)

/-- A value converted to an integer range (R314). -/
def toRange (r : Rnd) (lo hi : Int) : FV → Int
  | .nan => 0
  | .inf neg => if neg then lo else hi
  | .num neg m e => clampI lo hi (toInteger r neg m e)

/-- The low n bits of an integer. -/
def lowBits (n : Nat) (v : Int) : Nat := (v % (2 ^ n : Int)).toNat

/-- The integer of the low n bits of a word, two's complement. -/
def signed (n w : Nat) : Int :=
  let v := w % 2 ^ n
  if 2 * v < 2 ^ n then v else (v : Int) - 2 ^ n

/-- The range and width of an integer format. -/
def intRange : Fmt → Option (Nat × Int × Int)
  | .int32 => some (32, -2 ^ 31, 2 ^ 31 - 1)
  | .uint32 => some (32, 0, 2 ^ 32 - 1)
  | .int8 => some (8, -128, 127)
  | .int4 => some (4, -8, 7)
  | _ => none

/-- The forms of R316, with whether they take a scale. -/
def convForm (src dst : Fmt) : Bool :=
  match src, dst with
  | .fp32, .fp32 => false
  | .fp32, _ => true
  | .int32, .fp32 | .uint32, .fp32 => true
  | .int32, .int8 | .int32, .int4 => true
  | .int8, .int32 | .int4, .int32 => true
  | s, .fp32 => (ffOf s).isSome
  | _, _ => false

/-- A scale operand applied: the exponent is added (`up`) or subtracted; 0xFF gives NaN (R304, R317). -/
def applyScale (up : Bool) (scale : Option Nat) (v : FV) : FV :=
  match scale with
  | none => v
  | some e => if e % 256 = 255 then .nan else scaleV (if up then (e % 256 : Int) - 127 else 127 - (e % 256 : Int)) v

/-- One conversion of a lane (R316 to R318). -/
def convOp (src dst : Fmt) (scale : Option Nat) (rtz sat : Bool) (w : Nat) : Nat :=
  let r : Rnd := if rtz then .rtz else .rne
  match ffOf src, ffOf dst, intRange src, intRange dst with
  | some f, some g, _, _ =>
    if src = .fp32 then encodeF g r (applyScale false scale (decodeF f w))
    else encodeF g r (applyScale true scale (decodeF f w))
  | some f, none, _, some (n, lo, hi) => lowBits n (toRange r lo hi (decodeF f w))
  | none, some g, some (n, _, _), _ =>
    let v : Int := if src = .uint32 then (w : Int) else signed n w
    encodeF g r (ofInt v 0 false)
  | none, none, some (n, _, _), some (k, lo, hi) =>
    if n ≤ k then lowBits 32 (signed n w)
    else lowBits k (if sat then clampI lo hi (signed n w) else signed n w)
  | _, _, _, _ => 0

/-! ## TRANS (R323) -/

/-- The largest code c below 2^k with `p` true, for a `p` that holds up to some code and not beyond. -/
def searchCode (p : Nat → Bool) : Nat → Nat → Nat
  | 0, c => c
  | k + 1, c => searchCode p k (if p (c + 2 ^ k) then c + 2 ^ k else c)

/-- A finite FP32 magnitude code as m × 2^(e), with e as a distance above −149. -/
def codeParts (c : Nat) : Nat × Nat :=
  if c / 2 ^ 23 = 0 then (c, 0) else (2 ^ 23 + c % 2 ^ 23, c / 2 ^ 23 - 1)

/-- The integer v × 2^149 of an FP32 magnitude code v. -/
def codeInt (c : Nat) : Nat := (codeParts c).1 * 2 ^ (codeParts c).2

/-- An FP32 encoding as a signed position, ±0 at 0. -/
def codePos (w : Nat) : Int := if w.testBit 31 then -((w % 2 ^ 31 : Nat) : Int) else (w : Int)

/-! Exact results lie between two integers in units of 2^−400; every bound is rounded outward, so that each result that
R323 allows stays possible, and Config.transPick chooses one (log 28). -/

/-- The encoding at a position: from 0 upward the codes of +0 and above, from −1 downward those of −0 and below. -/
def posWord (c : Int) : Nat := if c < 0 then 0x80000000 + (-1 - c).toNat else c.toNat

/-- The largest magnitude code whose value is at most n × 2^−400. -/
def floorCode (n : Nat) : Nat := min (infCode ffFp32) (roundCode ffFp32 .rtz n (-400))

/-- The smallest magnitude code whose value is at least n × 2^−400. -/
def ceilCode (n : Nat) : Nat :=
  if n = 0 then 0 else min (infCode ffFp32) (roundCode ffFp32 .rtz (2 * n - 1) (-401) + 1)

/-- The positions of the FP32 values between two bounds. -/
def boundPos (ab : Int × Int) : Int × Int :=
  (if ab.1 ≤ 0 then -1 - (floorCode ab.1.natAbs : Int) else (ceilCode ab.1.toNat : Int),
   if 0 ≤ ab.2 then (floorCode ab.2.toNat : Int) else -1 - (ceilCode ab.2.natAbs : Int))

/-- One of the encodings between two bounds, by the free choice. -/
def pickIn (op : Nat) (w : W32) (ab : Int × Int) : Nat :=
  let p := boundPos ab
  posWord (p.1 + (Config.transPick op w % ((p.2 - p.1).toNat + 1) : Nat))

/-- A unit in the last place of n × 2^−400 as an FP32 value (R323). -/
def ulpAt (n : Nat) : Nat := 2 ^ (max (Nat.log2 n) 274 - 23)

/-- Bounds of what lies at most k ulp from an exact result between `lo` and `hi`. -/
def nearUlp (k lo hi : Nat) : Int × Int := ((lo : Int) - (k * ulpAt hi : Nat), (hi : Int) + (k * ulpAt hi : Nat))

/-- The integer part of a square root below 2^512. -/
def isqrt (n : Nat) : Nat := searchCode (fun v => decide (v * v ≤ n)) 512 0

/-- Bounds of 1 / x for x in units of 2^−149, at most 1 ulp away. -/
def rcpBounds (x : Nat) : Int × Int :=
  nearUlp 1 (2 ^ 549 / x) (2 ^ 549 / x + (if 2 ^ 549 % x = 0 then 0 else 1))

/-- Reciprocal, at most 1 ulp (R323). -/
def rcpOp (w : W32) : Nat :=
  match decodeF ffFp32 w.toNat with
  | .nan => canonNan ffFp32
  | .inf neg => signBit ffFp32 neg
  | .num neg m e =>
    if m = 0 then signBit ffFp32 neg + infCode ffFp32
    else signBit ffFp32 neg + pickIn 0 w (rcpBounds (m * 2 ^ (e + 149).toNat))

/-- Square root, correctly rounded (R323). -/
def sqrtOp (w : W32) : Nat :=
  match decodeF ffFp32 w.toNat with
  | .nan => canonNan ffFp32
  | .inf neg => if neg then canonNan ffFp32 else infCode ffFp32
  | .num neg m e =>
    if m = 0 then signBit ffFp32 neg
    else if neg then canonNan ffFp32
    else
      -- (m 2^e) = n × 2^(2k) with n a large integer; one sticky bit below the root
      let e' := if e % 2 = 0 then e else e - 1
      let n := (if e % 2 = 0 then m else 2 * m) * 2 ^ 120
      let r := isqrt n
      encodeF ffFp32 .rne (.num false (2 * r + (if r * r = n then 0 else 1)) (e' / 2 - 61))

/-- Bounds of 1 / √x for x in units of 2^−149, at most 2 ulp away. -/
def rsqrtBounds (x : Nat) : Int × Int :=
  let r := isqrt (2 ^ 949 / x)
  nearUlp 2 r (r + (if r * r * x = 2 ^ 949 then 0 else 1))

/-- Reciprocal square root, at most 2 ulp (R323). -/
def rsqrtOp (w : W32) : Nat :=
  match decodeF ffFp32 w.toNat with
  | .nan => canonNan ffFp32
  | .inf neg => if neg then canonNan ffFp32 else 0
  | .num neg m e =>
    if m = 0 then signBit ffFp32 neg + infCode ffFp32
    else if neg then canonNan ffFp32
    else pickIn 2 w (rsqrtBounds (m * 2 ^ (e + 149).toNat))

/-- The natural logarithm of 2, in units of 2^−400. -/
def ln2Fix : Nat :=
  0xB17217F7D1CF79ABC9E3B39803F2F6AF40F343267298B62D8A0D175B8BAAFA2BE7B876206DEBAC98559552FB4AFA1B10ED2E

/-- 2π, in units of 2^−400. -/
def twoPiFix : Nat :=
  0x6487ED5110B4611A62633145C06E0E68948127044533E63A0105DF531D89CD9128A5043CC71A026EF7CA8CD9E69D218D98158

/-- The exponential series of y, both in units of 2^−400: `n` terms, of which term `i` is `t`. -/
def expSum (y : Nat) : Nat → Nat → Nat → Nat
  | 0, _, _ => 0
  | n + 1, i, t => t + expSum y n (i + 1) (t * y / 2 ^ 400 / (i + 1))

/-- n × 2^k. -/
def shiftBy (n : Nat) (k : Int) : Nat := if 0 ≤ k then n * 2 ^ k.toNat else n / 2 ^ (-k).toNat

/-- Bounds of 2^x for x in units of 2^−400, at most 2 ulp away; beyond ±300 nothing but the overflow or underflow counts. -/
def exp2Bounds (x : Int) : Int × Int :=
  let k := clampI (-300) 300 (x / 2 ^ 400)
  let y := (x % 2 ^ 400).toNat * ln2Fix / 2 ^ 400
  let s := expSum y 45 0 (2 ^ 400)
  nearUlp 2 (shiftBy s k) (shiftBy (s + 2 ^ 250) k + 1)

/-- Base-2 exponential: exact at the integers that the table names, elsewhere at most 2 ulp (R323). -/
def exp2Op (w : W32) : Nat :=
  match decodeF ffFp32 w.toNat with
  | .nan => canonNan ffFp32
  | .inf neg => if neg then 0 else infCode ffFp32
  | .num neg m e =>
    let x := atExp neg m e (-400)
    if x % 2 ^ 400 = 0 ∧ -149 ≤ x / 2 ^ 400 ∧ x / 2 ^ 400 ≤ 127 then encodeF ffFp32 .rne (.num false 1 (x / 2 ^ 400))
    else pickIn 3 w (exp2Bounds x)

/-- `n` bits of the binary logarithm of z from 1 to below 2, in units of 2^−200, by repeated squaring. -/
def log2Bits : Nat → Nat → Nat → Nat
  | 0, _, r => r
  | n + 1, z, r =>
    let q := z * z / 2 ^ 200
    if 2 ^ 201 ≤ q then log2Bits n (q / 2) (2 * r + 1) else log2Bits n q (2 * r)

/-- Bounds of log₂ x for x = m × 2^e: 2^−22 away for x from 0.5 to 2, at most 2 ulp away elsewhere. -/
def log2Bounds (m : Nat) (e : Int) : Int × Int :=
  let k : Int := (Nat.log2 m : Int) + e
  let r : Int := log2Bits 100 (m * 2 ^ 200 / 2 ^ Nat.log2 m) 0
  let a := (k * 2 ^ 100 + r - 1) * 2 ^ 300
  let b := (k * 2 ^ 100 + r + 2) * 2 ^ 300
  let near : Bool := (decide (-1 ≤ k) && decide (k < 1)) || (k == 1 && m == 2 ^ Nat.log2 m)
  let d : Int := if near then 2 ^ 378 else (2 * ulpAt (max a.natAbs b.natAbs) : Nat)
  (a - d, b + d)

/-- Base-2 logarithm (R323). -/
def log2Op (w : W32) : Nat :=
  match decodeF ffFp32 w.toNat with
  | .nan => canonNan ffFp32
  | .inf neg => if neg then canonNan ffFp32 else infCode ffFp32
  | .num neg m e =>
    if m = 0 then 0x80000000 + infCode ffFp32
    else if neg then canonNan ffFp32
    else if w = 0x3F800000 then 0
    else pickIn 4 w (log2Bounds m e)

/-- The sine or cosine series, in units of 2^−400: `n` terms in t² (`t2`), of which that of power `i` is `t`. -/
def trigSum (t2 : Nat) : Nat → Nat → Int → Int
  | 0, _, _ => 0
  | n + 1, i, t => t + trigSum t2 n (i + 2) (-(t * t2 / 2 ^ 400 / ((i + 1) * (i + 2) : Nat)))

/-- Bounds of the sine or cosine of x = m × 2^e, 2^−21 away and within [−1, 1]. -/
def sinCosBounds (cos : Bool) (m : Nat) (e : Int) : Int × Int :=
  let t := m * 2 ^ (e + 400).toNat % twoPiFix
  let t2 := t * t / 2 ^ 400
  let v := if cos then trigSum t2 45 0 (2 ^ 400) else trigSum t2 45 1 t
  let d : Int := 2 ^ 379 + 2 ^ 250
  (clampI (-2 ^ 400) (2 ^ 400) (v - d), clampI (-2 ^ 400) (2 ^ 400) (v + d))

/-- Sine or cosine of an angle in radians (R323). -/
def sinCosOp (cos : Bool) (w : W32) : Nat :=
  match decodeF ffFp32 w.toNat with
  | .nan => canonNan ffFp32
  | .inf _ => canonNan ffFp32
  | .num neg m e =>
    if m = 0 then (if cos then 0x3F800000 else signBit ffFp32 neg)
    else
      let ab := sinCosBounds cos m e
      pickIn (if cos then 6 else 5) w (if neg && !cos then (-ab.2, -ab.1) else ab)

/-- One TRANS operation. -/
def transOp (op : TransOp) (w : W32) : Nat :=
  match op with
  | .rcp => rcpOp w
  | .sqrt => sqrtOp w
  | .rsqrt => rsqrtOp w
  | .exp2 => exp2Op w
  | .log2 => log2Op w
  | .sin => sinCosOp false w
  | .cos => sinCosOp true w

/-! ## Matrix arithmetic (R307 to R313) -/

/-- floor(log₂|p|) of a nonzero finite value. -/
def log2V : FV → Option Int
  | .num _ m e => if m = 0 then none else some ((Nat.log2 m : Int) + e)
  | _ => none

/-- The largest of a list of exponents. -/
def maxExp (l : List FV) : Int :=
  match l.filterMap log2V with
  | [] => 0
  | a :: t => t.foldl max a

/-- A product rounded toward −∞ to a multiple of 2^u, as that multiple, with whether rounding changed it (R309). -/
def floorTo (u : Int) : FV → Int × Bool
  | .num neg m e =>
    if u ≤ e then (atExp neg m e u, false)
    else
      let v := atExp neg m e e
      let d : Int := 2 ^ (u - e).toNat
      (v / d, decide (v % d ≠ 0))
  | _ => (0, false)

/-- A group sum on the floating path: its value and S (R309). -/
def groupSum (ps : List FV) : FV × Bool :=
  let isZero := fun (v : FV) => match v with
    | .num _ 0 _ => true
    | _ => false
  if ps.any (· = .nan) ∨ (ps.any (· = .inf false) ∧ ps.any (· = .inf true)) then (.nan, false)
  else if ps.any (· = .inf false) then (.inf false, false)
  else if ps.any (· = .inf true) then (.inf true, false)
  else if ps.all isZero then (.num (ps.all negV) 0 0, false)
  else
    let u := maxExp ps - 48
    let r := ps.map (floorTo u)
    (ofInt (r.foldl (fun a b => a + b.1) 0) u false, r.any (·.2))

/-- An exact value rounded to odd in FP32 with the input S (R310, R311). -/
def roundOdd (v : FV) (s : Bool) : Nat :=
  match v with
  | .nan => canonNan ffFp32
  | .inf neg => signBit ffFp32 neg + infCode ffFp32
  | .num neg m e =>
    if m = 0 then (if s then 1 else signBit ffFp32 neg)
    else
      let c := min ffFp32.top (roundCode ffFp32 .rtz m e)
      let (tm, te) := codeParts c
      let same := decide (atExp false m e (min e (-149)) = atExp false tm ((te : Int) - 149) (min e (-149)))
      let c := if (s ∨ !same) ∧ c % 2 = 0 then c + 1 else c
      signBit ffFp32 neg + c

/-- The accumulator word after one K-block of the floating path (R310). -/
def accFloat (zero : Bool) (a : Nat) (ps : List FV) : Nat :=
  let (g, s) := groupSum ps
  roundOdd (if zero then g else addV (decodeF ffFp32 a) g) s

/-- The accumulator word after one K-block of the integer path (R312). -/
def accInt (zero sat : Bool) (a : Nat) (g : Int) : Nat :=
  let v := if zero then g else signed 32 a + g
  lowBits 32 (if sat then clampI (-2 ^ 31) (2 ^ 31 - 1) v else v)

end Sys2Proof.Machine
end

