-- ==== Sys2Proof/Machine/Cores.lean ====
section
/-! DEFINITION. Instructions of thread groups: issue, branches, arithmetic, local and device accesses, atomics, message
channels, barriers and fences (spec/08 R222 to R270). -/

namespace Sys2Proof.Machine

/-! ## Issue (R223 to R229) -/

/-- What an instruction acts on: the group's key, the group, the issuing subgroup after merging, the others, its block, and
whether the clean that the instruction's release started has ended (R268). -/
structure Iss where
  key : Nat
  g : Group
  sub : Sub
  rest : List Sub
  b : Block
  cleaned : Bool
  deriving DecidableEq, Repr

/-- Core of an issue. -/
def Iss.core (i : Iss) : Nat := i.key / 64

/-- Lanes of a mask, ascending. -/
def lanesOf (m : W32) : List Nat := bitList 32 m.toNat

/-- Active lanes of an issue. -/
def Iss.lanes (i : Iss) : List Nat := lanesOf i.sub.mask

/-- Lowest active lane of an issue. -/
def Iss.low (i : Iss) : Nat := i.lanes.headD 0

/-- Subgroups merged into one (R228, spec/09 R296). -/
def mergeSubs (u : Sub) (l : List Sub) : Sub :=
  l.foldl (fun a v => { a with mask := a.mask ||| v.mask, s := max a.s v.s }) u

/-- A subgroup may issue: nothing stalls it, or the clean of its release has ended (R223, R268). -/
def mayIssue (u : Sub) : Bool := u.wait = .ready || u.wait = .cleaned

/-- A ready subgroup of a group that a lane names issues; the group's other ready subgroups at its program counter merge
into it first (R223, R228). -/
def issueAny (s : State) (r : SgRef) : Option Iss :=
  let key := r.core.val * 64 + r.slot.val
  match tget s.cores.groups key with
  | none => none
  | some g =>
    match tget s.cores.blocks g.block, g.subs.find? fun u => bit u.mask r.lane.val with
    | some b, some u =>
      if !mayIssue u then none
      else
        let same := fun (v : Sub) => v.wait = u.wait && v.pc = u.pc
        some { key := key, g := g, sub := mergeSubs { u with wait := .ready } (g.subs.filter same)
               rest := g.subs.filter fun v => !same v, b := b, cleaned := u.wait = .cleaned }
    | _, _ => none

/-- An issue in which the core finds no error; with one, the instruction has none of its effect (spec/16 R488). -/
def issue (s : State) (r : SgRef) : Option Iss := if r.err = .none then issueAny s r else none

/-- Register `r` of a lane; at or above REGS it reads zero (R225). -/
def rd (g : Group) (lane r : Nat) : W32 := if r < g.nregs then tgetD g.regs (r * 32 + lane) 0 else 0

/-- Register `r` of a lane written; at or above REGS the write is discarded (R225). -/
def wr (g : Group) (lane r : Nat) (v : W32) : Group :=
  if r < g.nregs then { g with regs := tset g.regs (r * 32 + lane) v } else g

/-- `n` consecutive registers of a lane as one number, the lowest register in the low bits. -/
def rdN (g : Group) (lane r : Nat) : Nat → Nat
  | 0 => 0
  | n + 1 => (rd g lane r).toNat + 2 ^ 32 * rdN g lane (r + 1) n

/-- A number written to `n` consecutive registers of a lane. -/
def wrN (g : Group) (lane r v : Nat) : Nat → Group
  | 0 => g
  | n + 1 => wrN (wr g lane r (BitVec.ofNat 32 v)) lane (r + 1) (v / 2 ^ 32) n

/-- A 64-bit value in a register pair. -/
def pair (g : Group) (lane r : Nat) : Nat := rdN g lane r 2

/-- The program counter after the next instruction (log 17). -/
def nextPc (pc : W64) : W64 := pc + Config.instrLen pc

/-- A subgroup moved past its instruction. -/
def pass (u : Sub) : Sub := { u with pc := nextPc u.pc }

/-- A group replaced. -/
def setGroup (s : State) (key : Nat) (g : Group) : State :=
  { s with cores := { s.cores with groups := tset s.cores.groups key g } }

/-- The issue's group with its registers and the issuing subgroup's successors; an issue is progress of its quad (spec/16
R496). -/
def putIss (s : State) (i : Iss) (g : Group) (subs : List Sub) : State :=
  setGroup (moves s (quadRef (i.core / 4))) i.key { g with subs := subs ++ i.rest }

/-- Quarter of an issue's group (R223). -/
def Iss.quarter (i : Iss) : Nat := i.key % 64 / 16

/-- A rotating token of the cores passes to the input after the one granted, of `n` (R193). -/
def passToken (s : State) (key input n : Nat) : State :=
  { s with cores := { s.cores with tokens := tset s.cores.tokens key ((input + 1) % n) } }

/-- The instruction ends with the group's registers as given. -/
def retire (s : State) (i : Iss) (g : Group) : State := putIss s i g [pass i.sub]

/-- A value for each active lane written to register `d`. -/
def eachLane (i : Iss) (d : Nat) (f : Nat → W32) : Group := i.lanes.foldl (fun g l => wr g l d (f l)) i.g

/-- An instruction that gives each active lane a value from its own registers. -/
def laneOp (s : State) (r : SgRef) (d : Nat) (f : Group → Nat → W32) : State :=
  match issue s r with
  | none => s
  | some i => retire s i (eachLane i d (f i.g))

/-! ## Joins and barriers (R228, R240) -/

/-- A subgroup waits at the JOIN of a program counter. -/
def atJoin (pc : W64) (u : Sub) : Bool :=
  match u.wait with
  | .join _ => u.pc = pc
  | _ => false

/-- The JOINs of a group whose lanes have all arrived or exited release as one subgroup. -/
def joinCheck (g : Group) : Group :=
  g.subs.foldl (fun g u =>
    match u.wait with
    | .join m =>
      let here := g.subs.filter (atJoin u.pc)
      let arrived := here.foldl (fun a v => a ||| v.mask) g.exited
      if here.isEmpty ∨ m &&& ~~~arrived ≠ 0 then g
      else
        let j := mergeSubs { u with wait := .ready } here
        { g with subs := pass j :: g.subs.filter fun v => !atJoin u.pc v }
    | _ => g) g

/-- Every lane of a group that has not exited stands at a barrier. -/
def groupAt (w : SubWait) (g : Group) : Bool := g.subs.all fun u => u.wait = w

/-- The subgroups of a group that stand at a barrier go on. -/
def groupGo (w : SubWait) (g : Group) : Group :=
  { g with subs := g.subs.map fun u => if u.wait = w then pass { u with wait := .ready } else u }

/-- Blocks of the block cluster of a block. -/
def clusterBlocks (s : State) (b : Block) : List (Nat × Block) :=
  s.cores.blocks.filter fun e => e.2.run == b.run && e.2.cluster == b.cluster && e.2.frag == b.frag

/-- A barrier over the groups of some blocks releases when every one of them has arrived. -/
def barRelease (s : State) (w : SubWait) (ids : List Nat) : State :=
  let mine := fun (e : Nat × Group) => ids.contains e.2.block
  if (s.cores.groups.filter mine).all fun e => groupAt w e.2 then
    { s with cores := { s.cores with
      groups := s.cores.groups.map fun e => if mine e then (e.1, groupGo w e.2) else e } }
  else s

/-- The barriers that a block's groups may complete (R240). -/
def barCheck (s : State) (id : Nat) (b : Block) : State :=
  barRelease (barRelease s .bar [id]) .cbar ((clusterBlocks s b).map (·.1))

/-- Lanes exit: JOINs and barriers see them as arrived (R226, R228, R240). -/
def exitLanes (s : State) (i : Iss) : State :=
  let g := joinCheck { i.g with exited := i.g.exited ||| i.sub.mask, subs := i.rest }
  barCheck (setGroup s i.key g) i.g.block i.b

/-- An undefined encoding: EXIT, and CORE_COUNT.UNDEF (R241). -/
def undefined (s : State) (i : Iss) : State :=
  let s := exitLanes s i
  { s with cores := { s.cores with undef := satAdd 0xFFFF s.cores.undef 1 } }

/-- A permission failure of a block's access (spec/04 R113). -/
def permFail (s : State) (b : Block) : State := markLost s (ctxOfBlock s b) 0x01

/-- The lanes of a block as they access device memory (spec/04 R118). -/
def laneWho (s : State) (b : Block) : Who := { asid := ctxOfBlock s b, slot := some (slotOfBlock s b), site := .lanes b.core }

/-! ## Arithmetic classes (R242, spec/10) -/

def doInt (s : State) (r : SgRef) (op : IntOp) (d a b c : Reg) : State :=
  laneOp s r d.val fun g l => intOp op (rd g l a.val) (rd g l b.val) (rd g l c.val)

def doFp32 (s : State) (r : SgRef) (op : FpOp) (d a b c : Reg) : State :=
  laneOp s r d.val fun g l =>
    BitVec.ofNat 32 (fpOp ffFp32 op (rd g l a.val).toNat (rd g l b.val).toNat (rd g l c.val).toNat)

def doPacked (s : State) (r : SgRef) (bf : Bool) (op : PkOp) (d a b c : Reg) : State :=
  laneOp s r d.val fun g l =>
    BitVec.ofNat 32 (pkOp bf op (rd g l a.val).toNat (rd g l b.val).toNat (rd g l c.val).toNat)

/-- A scale operand is allowed between FP32 and another floating-point format only (R316). -/
def convScaled (src dst : Fmt) : Bool := (ffOf src).isSome && (ffOf dst).isSome

/-- CONV; a form that R316 does not list is an undefined encoding. -/
def doConv (s : State) (r : SgRef) (src dst : Fmt) (d a : Reg) (scale : Option Reg) (rtz sat : Bool) : State :=
  match issue s r with
  | none => s
  | some i =>
    if !convForm src dst ∨ (scale.isSome ∧ !convScaled src dst) then undefined s i
    else retire s i (eachLane i d.val fun l =>
      BitVec.ofNat 32 (convOp src dst (scale.map fun k => (rd i.g l k.val).toNat) rtz sat (rd i.g l a.val).toNat))

def doTrans (s : State) (r : SgRef) (op : TransOp) (d a : Reg) : State :=
  laneOp s r d.val fun g l => BitVec.ofNat 32 (transOp op (rd g l a.val))

/-! ## LANE (R229; log 34) -/

/-- The sum of register `a` over the active lanes below a lane, and the lane itself where the part includes it. -/
def prefixSum (i : Iss) (a lane : Nat) : W32 :=
  (i.lanes.filter fun l => decide (l < lane) || (Config.prefixInclusive && l == lane)).foldl
    (fun v l => v + rd i.g l a) 0

/-- The active lanes whose register `a` is not zero. -/
def ballot (i : Iss) (a : Nat) : W32 :=
  i.lanes.foldl (fun m l => if rd i.g l a ≠ 0 then m ||| BitVec.ofNat 32 (2 ^ l) else m) 0

/-- What a LANE operation gives a lane; a shuffle from an inactive lane gives a free value of that lane and its register (R325;
log 34). -/
def laneVal (i : Iss) (op : LaneOp) (a b lane : Nat) : W32 :=
  match op with
  | .shuffle =>
    let src := (rd i.g lane b).toNat % 32
    if bit i.sub.mask src then rd i.g src a else Config.inactiveLane src (rd i.g src a)
  | .voteAny => if ballot i a ≠ 0 then 1 else 0
  | .voteAll => if ballot i a = i.sub.mask then 1 else 0
  | .ballot => ballot i a
  | .prefixSum => prefixSum i a lane
  | .broadcast => rd i.g i.low a

def doLane (s : State) (r : SgRef) (op : LaneOp) (d a b : Reg) : State :=
  match issue s r with
  | none => s
  | some i => retire s i (eachLane i d.val (laneVal i op a.val b.val))

/-! ## BRANCH (R227) -/

/-- Targets of the active lanes. -/
def brTarget (i : Iss) (op : BrOp) (l : Nat) : W64 :=
  match op with
  | .cond r t => if rd i.g l r.val ≠ 0 then t else nextPc i.sub.pc
  | .always t => t
  | .indirect r => BitVec.ofNat 64 (pair i.g l r.val)
  | .call t _ => t
  | .callReg r _ => BitVec.ofNat 64 (pair i.g l r.val)
  | .ret r => BitVec.ofNat 64 (pair i.g l r.val)

/-- The subgroup split by target, one subgroup per distinct target in the order of their lowest lanes. -/
def splitBy (u : Sub) (t : Nat → W64) : List Nat → List Sub → List Sub
  | [], acc => acc
  | l :: ls, acc =>
    let me : W32 := BitVec.ofNat 32 (2 ^ l)
    splitBy u t ls (if acc.any fun v => v.pc = t l then acc.map fun v => if v.pc = t l then { v with mask := v.mask ||| me } else v
      else acc ++ [{ u with mask := me, pc := t l }])

/-- A call leaves the return address in its link pair. -/
def linkRegs (i : Iss) (op : BrOp) : Group :=
  match op with
  | .call _ k | .callReg _ k => i.lanes.foldl (fun g l => wrN g l k.val (nextPc i.sub.pc).toNat 2) i.g
  | _ => i.g

def doBranch (s : State) (r : SgRef) (op : BrOp) : State :=
  match issue s r with
  | none => s
  | some i => putIss s i (linkRegs i op) (splitBy i.sub (brTarget i op) i.lanes [])

def doJoin (s : State) (r : SgRef) (m : W32) : State :=
  match issue s r with
  | none => s
  | some i => setGroup s i.key (joinCheck { i.g with subs := { i.sub with wait := .join m } :: i.rest })

/-! ## SR (R238, spec/12 R382) -/

/-- A tile of a pass by its ordinal (spec/12 R364): column and row. -/
def tileXY (p : Pass) (ord : Nat) : Nat × Nat :=
  let n := clamp 1 512 (bits p.pay 137 128)
  (ord % n, ord / n)

/-- The local base of a tile, in KiB. -/
def tileBase (p : Pass) (ord : Nat) : Nat := ((p.tiles.find? fun t => t.ord = ord).map (·.lmBase)).getD 0

/-- SR_TILE_BASE and SR_TILE exist for fragment groups only (spec/12 R382); elsewhere their value is free (log 36). -/
def srFree (i : Iss) (r : SReg) : Bool := i.b.frag.isNone && (r == .tileBase || r == .tile)

/-- The value of a special register in a lane, with its width in registers (R238; spec/12 R382). -/
def srVal (s : State) (i : Iss) (r : SReg) (lane : Nat) : Nat × Nat :=
  match r with
  | .lane => (lane, 1)
  | .group => (i.g.index, 1)
  | .groups => (i.b.ngroups, 1)
  | .regs => (i.g.nregs, 1)
  | .localKib => (i.b.lmKib, 1)
  | .blockX => (i.b.bx, 1)
  | .blockY => (i.b.byy, 1)
  | .blockZ => (i.b.bz, 1)
  | .crank => (i.b.rank, 1)
  | .csize => (i.b.csize, 1)
  | .rank => (i.b.erank, 1)
  | .core => (i.core, 1)
  | .arg => (i.b.arg.toNat, 2)
  | .lmBase => (i.b.lmBase * 1024, 1)
  | .slot => (slotOfBlock s i.b, 1)
  | .tick => (s.hoop.tick, 2)
  | .time => (s.hoop.time, 2)
  | .closing => (if s.hoop.phase = .drain ∨ s.hoop.phase = .settle then 1 else 0, 1)
  | .tileBase => (match i.b.frag with
    | some (p, o, _) => ((tget s.ras.passes p).map fun p => tileBase p o * 1024).getD 0
    | none => (Config.freeValue (s.free + lane)).toNat, 1)
  | .tile => (match i.b.frag with
    | some (p, o, _) => ((tget s.ras.passes p).map fun p => (tileXY p o).1 + 65536 * (tileXY p o).2).getD 0
    | none => (Config.freeValue (s.free + lane)).toNat, 1)

def doSr (s : State) (r : SgRef) (x : SReg) (d : Reg) : State :=
  match issue s r with
  | none => s
  | some i =>
    let t := retire s i (i.lanes.foldl (fun g l => wrN g l d.val (srVal s i x l).1 (srVal s i x l).2) i.g)
    if srFree i x then drewN t 32 else t

/-! ## Local memory (R245 to R248) -/

/-- Key of a local address of a core. -/
def lmKey (core a : Nat) : Nat := core * 0x80000 + a

/-- Bytes of a core's local memory. -/
def lmRead (s : State) (core a n : Nat) : List Byte := mread s.cores.lm (lmKey core a) n

/-- Bytes written to a core's local memory. -/
def lmWrite (s : State) (core a : Nat) (b : List Byte) : State :=
  { s with cores := { s.cores with lm := mwrite s.cores.lm (lmKey core a) b } }

/-- Access sizes of R245 and R249. -/
def sizeOk (n : Nat) : Bool := n == 1 || n == 2 || n == 4 || n == 8 || n == 16

/-- Registers of an access. -/
def sizeRegs (n : Nat) : Nat := max 1 (n / 4)

/-- A local address that may be accessed (R245). -/
def lmOk (a n : Nat) : Bool := decide (a + n ≤ 0x80000) && a % n == 0

/-- Bytes of a register operand. -/
def regBytes (g : Group) (l r n : Nat) : List Byte := toLE n (rdN g l r (sizeRegs n))

/-- The loads of the active lanes from addresses of one memory, without sign extension (log 37). -/
def loadInto (i : Iss) (d n : Nat) (f : Nat → List Byte) : Group :=
  i.lanes.foldl (fun g l => wrN g l d (leNat (f l)) (sizeRegs n)) i.g

/-! ## Atomics (R252 to R256) -/

/-- Bytes of an atomic type. -/
def atSize : AtTy → Nat
  | .u64 | .s64 => 8
  | _ => 4

/-- The forms of R252 (log 38: a logical operation, XCHG or CAS takes either integer type of its width). -/
def atForm (op : AtOp) (ty : AtTy) : Bool :=
  match op, ty with
  | .add, .s32 | .add, .s64 => false
  | .add, _ => true
  | .min, .fp16x2 | .min, .bf16x2 | .max, .fp16x2 | .max, .bf16x2 => false
  | .min, _ | .max, _ => true
  | _, .fp32 | _, .fp16x2 | _, .bf16x2 => false
  | _, _ => true

/-- Operations that host memory takes (R252). -/
def atHost (op : AtOp) (ty : AtTy) : Bool :=
  match op, ty with
  | .add, .u32 | .add, .u64 => true
  | .xchg, _ | .cas, _ => true
  | _, _ => false

/-- One operation on the old value with one operand (R252, R319 to R321). -/
def atApply (op : AtOp) (ty : AtTy) (old v cmp : Nat) : Nat :=
  let w := 8 * atSize ty
  match op, ty with
  | .add, .fp32 => fpOp ffFp32 .add old v 0
  | .add, .fp16x2 => pkOp false .add old v 0
  | .add, .bf16x2 => pkOp true .add old v 0
  | .add, _ => (old + v) % 2 ^ w
  | .min, .fp32 => fpOp ffFp32 .min old v 0
  | .max, .fp32 => fpOp ffFp32 .max old v 0
  | .min, .s32 | .min, .s64 => if signed w v < signed w old then v else old
  | .max, .s32 | .max, .s64 => if signed w old < signed w v then v else old
  | .min, _ => min old v
  | .max, _ => max old v
  | .and, _ => old &&& v
  | .or, _ => old ||| v
  | .xor, _ => old ^^^ v
  | .xchg, _ => v
  | .cas, _ => if old = cmp then v else old

/-- Floating-point operations, whose order over the lanes is unspecified (R255). -/
def atFloat : AtTy → Bool
  | .fp32 | .fp16x2 | .bf16x2 => true
  | _ => false

/-- A list in an order that free values choose (R255). -/
def freeOrder {α : Type} (base : Nat) : Nat → List α → List α
  | 0, l => l
  | n + 1, l =>
    let k := (Config.freeValue (base + n)).toNat % l.length
    match l[k]? with
    | none => l
    | some x => x :: freeOrder base n (l.eraseIdx k)

/-- The lanes of one atomic that name one address: the value left, and what each lane returns. Integer lanes follow lane
order (R254); floating-point ones a free order, each returning the old value with a free subset of the others (R255). -/
def atCombine (base : Nat) (op : AtOp) (ty : AtTy) (old : Nat) (l : List (Nat × Nat × Nat)) : Nat × List (Nat × Nat) :=
  if atFloat ty then
    let o := freeOrder base l.length l
    (o.foldl (fun a e => atApply op ty a e.2.1 e.2.2) old,
      l.map fun e => (e.1, (o.filter fun f => f.1 != e.1 && (Config.freeValue (base + 32 + e.1)).toNat.testBit f.1).foldl
        (fun a f => atApply op ty a f.2.1 f.2.2) old))
  else
    let r := l.foldl (fun (a : Nat × List (Nat × Nat)) e => (atApply op ty a.1 e.2.1 e.2.2, a.2 ++ [(e.1, a.1)])) (old, [])
    r

/-- Distinct values of a list in ascending order. -/
def ascending (l : List Nat) : List Nat := (l.foldl (fun t a => tset t a ()) ([] : Tbl Unit)).map (·.1)

/-- The operands of the lanes that name an address: lane, operand, compare value. -/
def atLanes (i : Iss) (addr : Nat → Nat) (a n b c : Nat) : List (Nat × Nat × Nat) :=
  (i.lanes.filter fun l => addr l == a).map fun l => (l, rdN i.g l b (n / 4), rdN i.g l c (n / 4))

/-- The atomics of an instruction on local memory of cores that `at'` gives, address by address. -/
def lmAtomics (s : State) (i : Iss) (key : Nat → Nat) (op : AtOp) (ty : AtTy) (d b c : Nat) : State × Group :=
  let n := atSize ty
  (ascending (i.lanes.map key)).foldl (fun (r : State × Group) k =>
    let (v, out) := atCombine r.1.free op ty (mnat r.1.cores.lm k n) (atLanes i key k n b c)
    let s := { drewN r.1 64 with cores := { r.1.cores with lm := mwrite r.1.cores.lm k (toLE n v) } }
    (s, out.foldl (fun g e => wrN g e.1 d e.2 (n / 4)) r.2)) (s, i.g)

/-! ## Releases (R263, R268) -/

/-- The subgroup of an issue waits: its instruction is not retired. -/
def holdIss (s : State) (i : Iss) (w : SubWait) : State := setGroup s i.key { i.g with subs := { i.sub with wait := w } :: i.rest }

/-- A transaction of lanes of an issue is not yet performed and acknowledged. -/
def lanesOut (i : Iss) (x : Txn) : Bool := x.lanes.any fun l => l.group == i.key && l.mask &&& i.sub.mask != 0

/-- The accesses of the subgroup that a release at BLOCK waits for have all been performed (R268). -/
def lanesDone (s : State) (i : Iss) : Bool := !s.fab.txns.any fun e => lanesOut i e.2

/-- The release part of an instruction at a scope. None: it waits, for earlier accesses of the subgroup, or for a clean of the
slot's cache-mode ways, which it starts (R204, R268). What SYSTEM adds is included: Selvage writes of the subgroup are among
its accesses, and posted writes to host memory are performed as they are issued. -/
def release (s : State) (i : Iss) (sc : Scope) : State × Option Unit :=
  let n := slotOfBlock s i.b
  match sc with
  | .group => (s, some ())
  | .block => if lanesDone s i then (s, some ()) else (s, none)
  | .device | .system =>
    if !lanesDone s i then (s, none)
    else if i.cleaned || !mustClean s n then (s, some ())
    else (holdIss (startClean s n) i .clean, none)

/-- The release part of an ordering. -/
def releaseOrd (s : State) (i : Iss) : Order → State × Option Unit
  | .rel sc | .ar sc => release s i sc
  | _ => (s, some ())

/-- Orderings of a load, a store and an atomic (R263). -/
def loadOrd : Order → Bool
  | .rlx | .acq _ => true
  | _ => false
def storeOrd : Order → Bool
  | .rlx | .rel _ => true
  | _ => false

/-! ## LM_ACCESS -/

/-- Local address of a lane. -/
def laneAddr (i : Iss) (a : Reg) (l : Nat) : Nat := (rd i.g l a.val).toNat

/-- The local access of an issue, its release part done (R245 to R248, R254). -/
def lmPerform (s : State) (i : Iss) : LmAcc → State
  | .load n d a _ => retire s i (loadInto i d.val n fun l => lmRead s i.core (laneAddr i a l) n)
  | .store n a b _ =>
    retire (i.lanes.foldl (fun s l => lmWrite s i.core (laneAddr i a l) (regBytes i.g l b.val n)) s) i i.g
  | .atom op ty d a b c _ =>
    let (s, g) := lmAtomics s i (fun l => lmKey i.core (laneAddr i a l)) op ty d.val b.val c.val
    retire s i g

/-- The form of a local access is defined (R245, R252, R263), with the bytes of an access, its address register and its
ordering. -/
def lmForm : LmAcc → Bool × Nat × Reg × Order
  | .load n _ a ord => (sizeOk n && loadOrd ord, n, a, ord)
  | .store n a _ ord => (sizeOk n && storeOrd ord, n, a, ord)
  | .atom op ty _ a _ _ ord => (atForm op ty, atSize ty, a, ord)

/-- LM_ACCESS: the token of the core's local memory passes on from the quarter (R246). -/
def doLm (s : State) (r : SgRef) (x : LmAcc) : State :=
  match issue s r with
  | none => s
  | some i =>
    let (ok, n, a, ord) := lmForm x
    if !ok then undefined s i
    else if !(i.lanes.all fun l => lmOk (laneAddr i a l) n) then permFail s i.b
    else match releaseOrd s i ord with
    | (s, none) => s
    | (s, some _) => lmPerform (passToken s i.core i.quarter 5) i x

/-! ## LDC, STC, ATC (R251) -/

/-- The block of a rank of the issuing block's cluster; one that has ended is no longer there (log 35). -/
def peerBlock (s : State) (b : Block) (rank : Nat) : Option Block :=
  ((clusterBlocks s b).find? fun e => e.2.rank == rank).map (·.2)

/-- A remote access may be made: its rank and offset lie in the cluster, and the address is aligned (R245, R251). -/
def peerOk (i : Iss) (n : Nat) (r o : Reg) (l : Nat) : Bool :=
  decide ((rd i.g l r.val).toNat < i.b.csize) && decide (laneAddr i o l < i.b.lmKib * 1024) && laneAddr i o l % n == 0

/-- Key of the remote byte of a lane, if its block has not ended. -/
def peerKey (s : State) (i : Iss) (r o : Reg) (l : Nat) : Option Nat :=
  (peerBlock s i.b (rd i.g l r.val).toNat).map fun b => lmKey b.core (b.lmBase * 1024 + laneAddr i o l)

/-- Lanes may reach other cores of their cluster: a request-table entry is free for each access in turn (R195, R251). -/
def peerEntry (s : State) (i : Iss) : Bool := entryFree s (.lanes i.core)

def doLdc (s : State) (q : SgRef) (n : Nat) (d r o : Reg) (ord : Order) : State :=
  match issue s q with
  | none => s
  | some i =>
    if !sizeOk n ∨ !loadOrd ord then undefined s i
    else if !(i.lanes.all (peerOk i n r o)) then permFail s i.b
    else if !peerEntry s i then s
    else drewN (retire s i (loadInto i d.val n fun l => match peerKey s i r o l with
      | some k => mread s.cores.lm k n
      | none => slice (freeBytes s 512) (16 * l) n)) 512

/-- The bytes of an STC in the memories of the blocks that have not ended. -/
def stcWrite (s : State) (i : Iss) (n : Nat) (b r o : Reg) : State :=
  i.lanes.foldl (fun s l => match peerKey s i r o l with
    | some k => { s with cores := { s.cores with lm := mwrite s.cores.lm k (regBytes i.g l b.val n) } }
    | none => s) s

def doStc (s : State) (q : SgRef) (n : Nat) (b r o : Reg) (ord : Order) : State :=
  match issue s q with
  | none => s
  | some i =>
    if !sizeOk n ∨ !storeOrd ord then undefined s i
    else if !(i.lanes.all (peerOk i n r o)) then permFail s i.b
    else if !peerEntry s i then s
    else match releaseOrd s i ord with
    | (s, none) => s
    | (s, some _) => retire (stcWrite s i n b r o) i i.g

/-- The atomic of an ATC; one on a block that has ended changes nothing and returns a free value (log 35). -/
def atcPerform (s : State) (i : Iss) (op : AtOp) (ty : AtTy) (d b c r o : Reg) : State :=
  let key := fun l => (peerKey s i r o l).getD 0
  let live := { i with sub := { i.sub with mask := i.lanes.foldl (fun m l =>
    if (peerKey s i r o l).isSome then m ||| BitVec.ofNat 32 (2 ^ l) else m) 0 } }
  let gone := i.lanes.filter fun l => (peerKey s i r o l).isNone
  let (t, g) := lmAtomics s live key op ty d.val b.val c.val
  let g := gone.foldl (fun g l => wrN g l d.val (Config.freeValue (t.free + l)).toNat (atSize ty / 4)) g
  retire (drewN t 32) i g

def doAtc (s : State) (q : SgRef) (op : AtOp) (ty : AtTy) (d b c r o : Reg) (ord : Order) : State :=
  match issue s q with
  | none => s
  | some i =>
    if !atForm op ty then undefined s i
    else if !(i.lanes.all (peerOk i (atSize ty) r o)) then permFail s i.b
    else if !peerEntry s i then s
    else match releaseOrd s i ord with
    | (s, none) => s
    | (s, some _) => atcPerform s i op ty d b c r o

/-! ## Device loads, stores and atomics (R249, R253) -/

/-- Device address of a lane. -/
def devAddr (i : Iss) (a : Reg) (l : Nat) : Nat := pair i.g l a.val

/-- Distinct 128 B lines that the active lanes touch, ascending. -/
def devLines (i : Iss) (a : Reg) : List Nat := ascending (i.lanes.map fun l => devAddr i a l / 128)

/-- Lines read in ascending order; none where a request stalls or fails. -/
def readLines (w : Who) : State → List Nat → State × Option (List (Nat × List Byte))
  | s, [] => (s, some [])
  | s, k :: ks =>
    match vread s w (128 * k) 128 with
    | (s, none) => (s, none)
    | (s, some b) =>
      match readLines w s ks with
      | (s, some r) => (s, some ((k, b) :: r))
      | (s, none) => (s, none)

def doLoad (s : State) (r : SgRef) (n : Nat) (d a : Reg) (ord : Order) : State :=
  match issue s r with
  | none => s
  | some i =>
    if !sizeOk n ∨ !loadOrd ord then undefined s i
    else if !(i.lanes.all fun l => devAddr i a l % n == 0) then permFail s i.b
    else match readLines (laneWho s i.b) s (devLines i a) with
    | (s, none) => s
    | (s, some t) =>
      retire s i (loadInto i d.val n fun l => slice ((tget t (devAddr i a l / 128)).getD []) (devAddr i a l % 128) n)

/-- The bytes that a store writes, line by line in ascending order, in each the lanes in order (R248, R249). -/
def storeWrites (i : Iss) (n : Nat) (a b : Reg) : List (Nat × List Byte) :=
  (devLines i a).flatMap fun k => (i.lanes.filter fun l => devAddr i a l / 128 == k).map fun l =>
    (devAddr i a l, regBytes i.g l b.val n)

/-- The place of a line that a store writes, as the target of a transaction. -/
def lineSpace (n : Nat) : List (Tr × Nat) → Option (Space × Nat)
  | (.mem pa stk, _) :: _ => some (if stk then .tier n else .mem, pa)
  | (.host ba, _) :: _ => some (.host, ba)
  | (.twin pa, _) :: _ => some (.twin, pa)
  | _ => none

/-- A block runs real-time work (spec/07 R194). -/
def blockRt (s : State) (b : Block) : Bool :=
  match b.frag with
  | some (p, _, _) => (tget s.ras.passes p).any (·.rt)
  | none => (tget s.cores.runs b.run).any (·.rt)

/-- The request of one line of a store that is not performed at once (R249, R195): its bytes in lane order. -/
def storeTxn (s : State) (i : Iss) (space : Space) (base : Nat) (ws : List (Nat × List Byte)) : Txn :=
  let ws := ws.map fun w => (base + w.1 % 128, w.2)
  let share := i.core / 4
  let source := (sourceOf share).1
  let first := ws.headD (base, [])
  let target := targetOf' s space first.1 source
  { share := share, issuer := .unit (Fin.ofNat 48 (slotOfBlock s i.b)) (.lanes i.core), asid := ctxOfBlock s i.b, kind := .write
    space := space, addr := first.1, len := first.2.length, data := first.2, rt := blockRt s i.b, tries := 0, entry := false
    path := meshPath source target.1, port := target.2, hop := 0, seq := 0, lost := false
    lanes := some { block := i.g.block, group := i.key, mask := i.sub.mask }, more := ws.drop 1
    born := s.flt.windows, since := 0 }

/-- The requests of a store's lines take their entries in ascending order; none where a line cannot be reached (R249). -/
def storeLines (i : Iss) (writes : List (Nat × List Byte)) : State → List Nat → State × Option Unit
  | s, [] => (s, some ())
  | s, k :: ks =>
    match reach s (laneWho s i.b) .write (128 * k) 128 with
    | (s, none) => (s, none)
    | (s, some p) =>
      match lineSpace (slotOfBlock s i.b) p with
      | none => (s, none)
      | some (space, base) =>
        let x := storeTxn s i space base (writes.filter fun w => w.1 / 128 == k)
        let s := { s with fab := { s.fab with txns := tset s.fab.txns s.fab.nextTxn x, nextTxn := s.fab.nextTxn + 1 } }
        storeLines i writes (allocate s x.share) ks

/-- DEVICE_STORE: its requests are performed at once, or (`late`) each at its TRANSACTION_RESPONSE: what orders accesses to
other locations in between is what R265 and R266 give (R249, R264, R269; log 6). -/
def doStore (s : State) (r : SgRef) (n : Nat) (a b : Reg) (ord : Order) (late : Bool) : State :=
  match issue s r with
  | none => s
  | some i =>
    if !sizeOk n ∨ !storeOrd ord then undefined s i
    else if !(i.lanes.all fun l => devAddr i a l % n == 0) then permFail s i.b
    else match releaseOrd s i ord with
    | (s, none) => s
    | (s, some _) =>
      if late then
        match storeLines i (storeWrites i n a b) s (devLines i a) with
        | (t, some _) => retire t i i.g
        | (t, none) => { t with fab := { t.fab with txns := s.fab.txns, nextTxn := s.fab.nextTxn, shares := s.fab.shares } }
      else match vwriteAll s (laneWho s i.b) (storeWrites i n a b) with
      | (s, false) => s
      | (s, true) => retire s i i.g

/-- The lines of an atomic's addresses, one request each (R253); none where one stalls or fails. -/
def reachAtoms (w : Who) : State → List Nat → State × Option (List (Nat × List (Tr × Nat)))
  | s, [] => (s, some [])
  | s, k :: l =>
    match reach s w .atomic (128 * k) 128 with
    | (s, none) => (s, none)
    | (s, some p) =>
      match reachAtoms w s l with
      | (s, some r) => (s, some ((k, p) :: r))
      | (s, none) => (s, none)

/-- The place of `n` bytes at an offset of a line's place. -/
def placeIn (o n : Nat) : List (Tr × Nat) → List (Tr × Nat)
  | (.mem pa stk, _) :: _ => [(.mem (pa + o) stk, n)]
  | (.host ba, _) :: _ => [(.host (ba + o), n)]
  | (.twin pa, _) :: _ => [(.twin (pa + o), n)]
  | l => l

/-- A place in host memory. -/
def isHost : List (Tr × Nat) → Bool
  | (.host _, _) :: _ => true
  | _ => false

/-- The updates of an atomic, address by address in ascending order, each in one indivisible step (R253). -/
def atomPerform (s : State) (i : Iss) (op : AtOp) (ty : AtTy) (d a b c : Reg) (lines : List (Nat × List (Tr × Nat))) : State :=
  let n := atSize ty
  let w := laneWho s i.b
  let (s, g) := (ascending (i.lanes.map (devAddr i a))).foldl (fun (t : State × Group) p =>
    let place := placeIn (p % 128) n ((tget lines (p / 128)).getD [])
    let (u, old) := readPieces w t.1 place
    let (v, out) := atCombine u.free op ty (leNat old) (atLanes i (devAddr i a) p n b.val c.val)
    (writePieces w (drewN u 64) place (toLE n v), out.foldl (fun g e => wrN g e.1 d.val e.2 (n / 4)) t.2)) (s, i.g)
  retire s i g

def doAtom (s : State) (r : SgRef) (op : AtOp) (ty : AtTy) (d a b c : Reg) (ord : Order) : State :=
  match issue s r with
  | none => s
  | some i =>
    if !atForm op ty then undefined s i
    else if !(i.lanes.all fun l => devAddr i a l % atSize ty == 0) then permFail s i.b
    else match releaseOrd s i ord with
    | (s, none) => s
    | (s, some _) =>
      match reachAtoms (laneWho s i.b) s (devLines i a) with
      | (s, none) => s
      | (s, some ps) => if !atHost op ty ∧ ps.any fun p => isHost p.2 then permFail s i.b else atomPerform s i op ty d a b c ps

/-! ## Message channels (R257 to R261) -/

/-- Scopes that a channel mark takes (R261). -/
def chanScope : Option Scope → Bool
  | none | some .block | some .device => true
  | _ => false

/-- The 64 B of a SEND in the register form (R258). -/
def msgRegs (i : Iss) (r : Nat) : W512 :=
  BitVec.ofNat 512 ((List.range 16).foldr (fun j n => (if bit i.sub.mask j then (rd i.g j r).toNat else 0) + 2 ^ 32 * n) 0)

/-- A message leaves on an outbound channel, taking one credit. -/
def sendMsg (s : State) (key : Nat) (o : OutCh) (m : W512) : State :=
  { s with cores := { s.cores with outs := tset s.cores.outs key { o with credits := o.credits - 1 }
                                   sent := s.cores.sent ++ [(o.core * 16 + o.chan, m)] } }

/-- A message taken from an inbound channel; its credit starts back to its sender (R259). -/
def takeMsg (s : State) (key : Nat) (rest : List W512) : State :=
  let back := (s.cores.outs.filter fun e => e.2.core * 16 + e.2.chan == key).map (·.1)
  { s with cores := { s.cores with inbox := tset s.cores.inbox key rest, creditsBack := s.cores.creditsBack ++ back } }

def doChstat (s : State) (r : SgRef) (ch : Fin 16) (d e : Reg) : State :=
  match issue s r with
  | none => s
  | some i =>
    let k := i.core * 16 + ch.val
    let n : W32 := BitVec.ofNat 32 (tgetD s.cores.inbox k []).length
    let c : W32 := BitVec.ofNat 32 ((tget s.cores.outs k).map (·.credits) |>.getD 0)
    retire s i (i.lanes.foldl (fun g l => wr (wr g l d.val n) l e.val c) i.g)

/-- MESSAGE_ARRIVE: the oldest message under way to an inbound channel enters its buffer. -/
def arriveMsg (s : State) (key : Nat) : State :=
  match s.cores.sent.find? fun e => e.1 = key with
  | none => s
  | some e =>
    let box := tgetD s.cores.inbox key []
    if 8 ≤ box.length then s
    else { s with cores := { s.cores with inbox := tset s.cores.inbox key (box ++ [e.2]), sent := s.cores.sent.erase e } }

/-- CREDIT_RETURN: a credit under way reaches its outbound channel. -/
def creditBack (s : State) (key : Nat) : State :=
  if s.cores.creditsBack.contains key then
    { s with cores := { s.cores with creditsBack := s.cores.creditsBack.erase key
                                     outs := tmod s.cores.outs key fun o => { o with credits := min 8 (o.credits + 1) } } }
  else s

/-! ## SYNC (R239 to R241, R268) -/

/-- BAR and CBAR: the subgroup arrives, and the barrier releases if it is the last (R240); in a fragment group it releases at
once (spec/12 R382). -/
def doBar (s : State) (r : SgRef) (w : SubWait) : State :=
  match issue s r with
  | none => s
  | some i => if i.b.frag.isSome then retire s i i.g else barCheck (holdIss s i w) i.g.block i.b

def doFence (s : State) (r : SgRef) (sc : Scope) : State :=
  match issue s r with
  | none => s
  | some i =>
    match release s i sc with
    | (s, none) => s
    | (s, some _) => retire s i i.g

/-- CONT: no effect in a graph node or a fragment group (R239, spec/12 R382). -/
def doCont (s : State) (r : SgRef) (a : Reg) : State :=
  match issue s r with
  | none => s
  | some i =>
    match i.b.frag, tget s.cores.runs i.b.run with
    | none, some run =>
      if run.node.isSome then retire s i i.g
      else if devAddr i a i.low % 64 ≠ 0 then permFail s i.b
      else match vnat s { laneWho s i.b with site := .frontEnd (slotOfBlock s i.b) } (devAddr i a i.low) 64 with
      | (s, none) => s
      | (s, some w) =>
        retire { s with cores := { s.cores with
          runs := tset s.cores.runs i.b.run { run with cont := some (BitVec.ofNat 512 w) } } } i i.g
    | _, _ => retire s i i.g

def doExit (s : State) (r : SgRef) : State :=
  match issue s r with
  | none => s
  | some i => exitLanes s i

def doUndefined (s : State) (r : SgRef) : State :=
  match issue s r with
  | none => s
  | some i => undefined s i

end Sys2Proof.Machine
end

