-- ==== Sys2Proof/Machine/Tensor.lean ====
section
/-! DEFINITION. Tensor engines: claims, matrix instructions and their execution (spec/09 R271 to R300, spec/10 R306 to
R314). -/

namespace Sys2Proof.Machine

/-! ## Engines and claims (R271 to R274) -/

/-- An engine of a core. -/
def engOf (s : State) (core e : Nat) : Engine := tgetD s.eng.eng (core * 4 + e) Engine.reset

/-- An engine replaced. -/
def setEng (s : State) (core e : Nat) (x : Engine) : State :=
  { s with eng := { s.eng with eng := tset s.eng.eng (core * 4 + e) x } }

/-- The engines of a mask. -/
def maskEngines (m : Nat) : List Nat := bitList 4 m

/-- The engines of a core that a block holds. -/
def heldBy (s : State) (core block : Nat) : List Nat :=
  (List.range 4).filter fun e => (engOf s core e).holder == some block

/-- No other block holds an engine of a mask (R272). -/
def claimFree (s : State) (core block m : Nat) : Bool :=
  (maskEngines m).all fun e => match (engOf s core e).holder with
    | none => true
    | some b => b == block

/-- Every engine of a mask claimed by a block; its accumulators and buffers read zero (R274). -/
def claim (s : State) (core block m : Nat) : State :=
  (maskEngines m).foldl (fun s e => setEng s core e { Engine.reset with holder := some block }) s

/-- A waiting subgroup goes past its instruction. -/
def passSub (s : State) (key : Nat) (u : Sub) : State :=
  match tget s.cores.groups key with
  | none => s
  | some g => setGroup s key { g with subs := g.subs.map fun v => if v = u then pass { v with wait := .ready } else v }

/-- A claim refused: EXIT, and TEN_COUNT.CLAIM_BAD (R272). -/
def claimBad (s : State) (i : Iss) : State :=
  let s := exitLanes s i
  { s with eng := { s.eng with claimBad := satAdd 0xFFFF s.eng.claimBad 1 } }

/-- The waiting MCLAIMs of a core: group key, block, mask, subgroup. -/
def claimants (s : State) (core : Nat) : List (Nat × Nat × Nat × Sub) :=
  (s.cores.groups.filter fun e => e.1 / 64 == core).flatMap fun e => e.2.subs.filterMap fun u =>
    match u.wait with
    | .mclaim m => some (e.1, e.2.block, m, u)
    | _ => none

/-- A block's number among the claimants: its lowest group slot (R272). -/
def blockNum (s : State) (block : Nat) : Nat :=
  ((s.cores.groups.find? fun e => e.2.block == block).map fun e => e.1 % 64).getD 0

/-- A waiting MCLAIM that is decided by what its block holds by now. -/
def settleClaim (s : State) (c : Nat × Nat × Nat × Sub) : Option State :=
  let core := c.1 / 64
  let held := heldBy s core c.2.1
  if held.isEmpty then none
  else if (maskEngines c.2.2.1).all held.contains then some (passSub s c.1 c.2.2.2)
  else match tget s.cores.groups c.1, tget s.cores.blocks c.2.1 with
    | some g, some b => some (claimBad s { key := c.1, g := g, sub := c.2.2.2, rest := g.subs.filter (· ≠ c.2.2.2), b := b, cleaned := false })
    | _, _ => none

/-- One grant on a core: first the claims that are decided, then the first block from the token whose engines are free. -/
def grantOne (s : State) (core : Nat) : Option State :=
  let cs := claimants s core
  match cs.findSome? (settleClaim s) with
  | some t => some t
  | none =>
    let free := cs.filter fun c => claimFree s core c.2.1 c.2.2.1
    let tok := tgetD s.eng.tokens core 0
    let best := fun (l : List (Nat × Nat × Nat × Sub)) => l.foldl (fun (m : Option (Nat × Nat × Nat × Sub)) c =>
      match m with
      | none => some c
      | some d => if blockNum s c.2.1 < blockNum s d.2.1 then some c else m) none
    match (best (free.filter fun c => decide (tok ≤ blockNum s c.2.1))).or (best free) with
    | none => none
    | some c =>
      let t := passSub (claim s core c.2.1 c.2.2.1) c.1 c.2.2.2
      some { t with eng := { t.eng with tokens := tset t.eng.tokens core (blockNum s c.2.1 + 1) } }

/-- Waiting claims of a core granted while any can be (R272, R193). -/
def grantClaims (core : Nat) : Nat → State → State
  | 0, s => s
  | n + 1, s =>
    match grantOne s core with
    | none => s
    | some t => grantClaims core n t

/-- MCLAIM (R272). -/
def doMclaim (s : State) (r : SgRef) (m : Nat) : State :=
  match issue s r with
  | none =>
    -- a subgroup that already waits is decided again
    grantClaims r.core.val 64 s
  | some i =>
    let held := heldBy s i.core i.g.block
    if held.isEmpty then
      grantClaims i.core 64 (setGroup s i.key { i.g with subs := { i.sub with wait := .mclaim m } :: i.rest })
    else if (maskEngines m).all held.contains then retire s i i.g
    else claimBad s i

/-- An engine released. -/
def releaseEng (s : State) (core e : Nat) : State :=
  setEng s core e { engOf s core e with holder := none, queue := [], releasing := none, inA := [], inB := [], outN := 0 }

/-- MREL (R273): each engine of the mask that the block holds is released once the instructions that are in its queue now
have completed; an MREL of an engine that one already releases changes nothing of that. -/
def doMrel (s : State) (r : SgRef) (m : Nat) : State :=
  match issue s r with
  | none => s
  | some i =>
    let s := retire s i i.g
    let es := (maskEngines m).filter (heldBy s i.core i.g.block).contains
    grantClaims i.core 64 (es.foldl (fun s e =>
      if (engOf s i.core e).queue.isEmpty then releaseEng s i.core e
      else
        let x := engOf s i.core e
        setEng s i.core e { x with releasing := x.releasing.or (some x.queue.length) }) s)

/-! ## MWAIT (R290) -/

/-- Instructions of an engine's queue that must complete before the last one of a group has. -/
def lastOf (q : List EOp) (group : Nat) : Nat :=
  q.zipIdx.foldl (fun m e => if e.1.group = group then e.2 + 1 else m) 0

def doMwait (s : State) (r : SgRef) (m : Nat) : State :=
  match issue s r with
  | none => s
  | some i =>
    let left := ((maskEngines m).filter (heldBy s i.core i.g.block).contains).filterMap fun e =>
      let n := lastOf (engOf s i.core e).queue i.key
      if n = 0 then none else some (e, n)
    if left.isEmpty then retire s i i.g
    else setGroup s i.key { i.g with subs := { i.sub with wait := .mwait left } :: i.rest }

/-- A subgroup at an MWAIT after one instruction of engine `e` has completed. -/
def mwaitStep (e : Nat) (u : Sub) : Sub :=
  match u.wait with
  | .mwait l =>
    let l := (l.map fun x => if x.1 = e then (x.1, x.2 - 1) else x).filter fun x => x.2 != 0
    if l.isEmpty then pass { u with wait := .ready } else { u with wait := .mwait l }
  | _ => u

/-- Every MWAIT of a core after one instruction of engine `e` has completed. -/
def mwaitCore (s : State) (core e : Nat) : State :=
  { s with cores := { s.cores with
    groups := s.cores.groups.map fun x =>
      if x.1 / 64 = core then (x.1, { x.2 with subs := x.2.subs.map (mwaitStep e) }) else x } }

/-! ## Issue of matrix instructions (R275 to R277, R296) -/

/-- Operand formats (R279): the number format, bits of an element, integer or not. -/
def opFmt : Nat → Option Fmt
  | 0 => some .e4m3
  | 1 => some .e5m2
  | 2 => some .e3m2
  | 3 => some .e2m3
  | 4 => some .e2m1
  | 5 => some .bf16
  | 6 => some .fp16
  | 7 => some .int8
  | 8 => some .int4
  | _ => none

/-- Bits of an element of an operand format. -/
def opBits : Nat → Nat
  | 2 | 3 => 6
  | 4 | 8 => 4
  | 5 | 6 => 16
  | _ => 8

/-- Panel bytes of an operand format (R279): 32 slices of 32 elements. -/
def panelBytes (f : Nat) : Nat := 128 * opBits f

/-- Formats that may be block-scaled (R279). -/
def mxOk (f : Nat) : Bool := decide (f ≤ 4) || f == 7

/-- The control word of an instruction is defined (R277, R285 to R287). -/
def ctrlOk (k : MatKind) (c : W64) : Bool :=
  match k with
  | .mma =>
    let a := bits c 27 24
    let b := bits c 31 28
    decide (a ≤ 8) && decide (b ≤ 8) && (decide (a ≤ 6) == decide (b ≤ 6)) &&
      (!bit c 22 || mxOk a) && (!bit c 23 || mxOk b)
  | .mstore => decide (bits c 31 28 ≤ 6)
  | .mldacc => bits c 31 28 == 0 || bits c 31 28 == 5
  | .mloadb => bits c 63 62 != 2

/-- The device lines of an MLOADB with SRC = 1, which stand in program order where it issues (R287); nothing for any other
instruction, or where the word is one whose execution fails. None: a read stalls or fails, and the subgroup waits. -/
def readsLines (s : State) (i : Iss) (o : EOp) : State × Option (List Byte) :=
  let n := 128 * clamp 1 512 (bits o.ctrl 41 32)
  if o.kind ≠ .mloadb ∨ bits o.ctrl 63 62 ≠ 1 ∨ o.a.toNat % 128 ≠ 0 ∨ 65536 < 128 * bits o.ctrl 28 20 + n then (s, some [])
  else vread s { laneWho s i.b with site := .tensor i.core } o.a.toNat n

/-- A matrix instruction issues, unless the queue that it names is full (R275): refused as undefined (R277), discarded or
queued by the counts (R296). The token of the queue passes on from the quarter. -/
def matIssue (s : State) (r : SgRef) (e : Nat) (k : MatKind) (regs : List Nat) : State :=
  match issue s r with
  | none => s
  | some i =>
    let x := engOf s i.core e
    let word := fun n => BitVec.ofNat 64 (pair i.g i.low (regs.getD n 0))
    if 8 ≤ x.queue.length then s
    else if regs.any fun r => r % 2 != 0 then undefined s i
    else if x.holder ≠ some i.g.block then
      let s := undefined s i
      { s with eng := { s.eng with unclaimed := satAdd 0xFFFF s.eng.unclaimed 1 } }
    else if !ctrlOk k (word 0) then undefined s i
    else
      let u := { i.sub with s := i.sub.s + 1 }
      if u.s ≤ i.g.g then
        let s := putIss s i i.g [pass u]
        { s with eng := { s.eng with discarded := satAdd 0xFFFF s.eng.discarded 1 } }
      else
        let op : EOp := { kind := k, ctrl := word 0, a := word 1, b := word 2, group := i.key, lane := i.low, lines := [] }
        match readsLines s i op with
        | (s, none) => s
        | (s, some l) =>
          let s := setEng (putIss s i { i.g with g := u.s } [pass u]) i.core e { x with queue := x.queue ++ [{ op with lines := l }] }
          { s with eng := { s.eng with tokens := tset s.eng.tokens (256 + i.core * 4 + e) ((i.quarter + 1) % 4) } }

/-! ## Operand tiles (R280 to R283) -/

/-- Byte ranges, start and length, of the panels of a tile. -/
def panelRanges (w : W64) (f kb : Nat) : List (Nat × Nat) :=
  let step := if bits w 47 32 = 0 then panelBytes f else 128 * bits w 47 32
  (List.range kb).map fun p => (bits w 18 0 + p * step, panelBytes f)

/-- Ranges that lie in local memory (R283). -/
def inLm (l : List (Nat × Nat)) : Bool := l.all fun r => decide (r.1 + r.2 ≤ 0x80000)

/-- Ranges that lie in an operand buffer (R283). -/
def inOb (l : List (Nat × Nat)) : Bool := l.all fun r => decide (r.1 + r.2 ≤ 0x10000)

/-- Bytes of an operand buffer. -/
def obRead (x : Engine) (buf a n : Nat) : List Byte := mread x.ob (buf * 65536 + a) n

/-- Bytes written to an operand buffer. -/
def obWrite (x : Engine) (buf a : Nat) (b : List Byte) : Engine := { x with ob := mwrite x.ob (buf * 65536 + a) b }

/-- What reading an operand gives: its packed bytes, a permission failure, or a wait for messages. -/
inductive Fetch where
  | bytes (l : List Byte) | bad | more
  deriving DecidableEq, Repr

/-- The packed bytes of ranges from their source: 0 local memory, 1 and 2 the buffers, 3 the staged messages. -/
def fetchRanges (s : State) (core : Nat) (x : Engine) (src base : Nat) (rs : List (Nat × Nat)) (staged : List Byte) : Fetch :=
  let total := rs.foldl (fun a r => a + r.2) 0
  if src = 3 then (if total ≤ staged.length then .bytes (staged.take total) else .more)
  else if base % 128 ≠ 0 then .bad
  else if src = 0 then (if inLm rs then .bytes (rs.flatMap fun r => lmRead s core r.1 r.2) else .bad)
  else if inOb rs then .bytes (rs.flatMap fun r => obRead x (src - 1) r.1 r.2) else .bad

/-- Scale bytes of a block-scaled operand, if it has any (R282). -/
def fetchScale (x : Engine) (mx : Bool) (w : W64) (kb : Nat) : Fetch :=
  if !mx then .bytes []
  else
    let a := bits w 58 48 * 32
    if a + 32 * kb ≤ 65536 then .bytes (obRead x (bits w 59 59) a (32 * kb)) else .bad

/-- Element `j` of slice `t` of panel `p` of packed panels, as its encoding (R279, R280). -/
def elemAt (f : Nat) (l : List Byte) (p t j : Nat) : Nat :=
  let n := opBits f
  nbits (leNat (slice l (p * panelBytes f + t * 4 * n) (4 * n))) (n * j + n - 1) (n * j)

/-- An element's value on the floating path (R306, R307). -/
def elemV (f : Nat) (mx : Bool) (w : Nat) : FV :=
  match opFmt f with
  | some .int8 => ofInt (signed 8 w) (if mx then -6 else 0) false
  | some .int4 => ofInt (signed 4 w) 0 false
  | some m => match ffOf m with
    | some g => decodeF g w
    | none => .nan
  | none => .nan

/-- An element's value on the integer path. -/
def elemI (f w : Nat) : Int := if f = 8 then signed 4 w else signed 8 w

/-- The scale of row or column `j` over K-block `p`, as a value (R282, R304). -/
def scaleAt (l : List Byte) (mx : Bool) (p j : Nat) : FV :=
  if !mx then .num false 1 0
  else
    let e := ((l.getD (32 * p + j) 0).toNat)
    if e = 255 then .nan else .num false 1 ((e : Int) - 127)

/-- A product of two elements and their scales (R308). -/
def product (a b sa sb : FV) : FV :=
  if sa = .nan ∨ sb = .nan then .nan else mulV (mulV (mulV a b) sa) sb

/-- One accumulator word after every K-block of an MMA (R284). -/
def mmaCell (c : W64) (kb i j : Nat) (ta tb sa sb : List Byte) (acc : W32) : W32 :=
  let fa := bits c 27 24
  let fb := bits c 31 28
  let mxa := bit c 22
  let mxb := bit c 23
  (List.range kb).foldl (fun acc p =>
    let zero := bit c 33 && p == 0
    BitVec.ofNat 32 (if fa ≤ 6 ∨ mxa ∨ mxb then
      accFloat zero acc.toNat ((List.range 32).map fun t =>
        product (elemV fa mxa (elemAt fa ta p t i)) (elemV fb mxb (elemAt fb tb p t j)) (scaleAt sa mxa p i) (scaleAt sb mxb p j))
    else
      accInt zero (bit c 32) acc.toNat ((List.range 32).foldl (fun a t =>
        a + elemI fa (elemAt fa ta p t i) * elemI fb (elemAt fb tb p t j)) 0))) acc

/-- Accumulator slot `k` after an MMA. -/
def mmaAcc (x : Engine) (c : W64) (kb k : Nat) (ta tb sa sb : List Byte) : Tbl W32 :=
  (List.range 1024).foldl (fun t n =>
    tset t (k * 1024 + n) (mmaCell c kb (n / 32) (n % 32) ta tb sa sb (tgetD x.acc (k * 1024 + n) 0))) x.acc

/-! ## MSTORE and MLDACC rows (R286) -/

/-- Row bytes of an OFMT. -/
def rowBytes (o : Nat) : Nat := if o = 0 ∨ o = 5 then 128 else if o = 1 ∨ o = 2 then 64 else 32

/-- Byte ranges of the 32 rows. -/
def rowRanges (c : W64) : List (Nat × Nat) :=
  let n := rowBytes (bits c 31 28)
  let step := if bits c 47 32 = 0 then n else bits c 47 32
  (List.range 32).map fun i => (bits c 18 0 + i * step, n)

/-- The row stride is aligned as the word requires. -/
def strideOk (c : W64) : Bool := bits c 47 32 % rowBytes (bits c 31 28) == 0

/-- An accumulator word converted to OFMT (R286, R314). -/
def storeWord (c : W64) (w : W32) : Nat :=
  match bits c 31 28 with
  | 1 => convOp .fp32 .bf16 none (bit c 27) false w.toNat
  | 2 => convOp .fp32 .fp16 none (bit c 27) false w.toNat
  | 3 => convOp .fp32 .e4m3 none (bit c 27) false w.toNat
  | 4 => convOp .fp32 .e5m2 none (bit c 27) false w.toNat
  | 6 => convOp .int32 .int8 none false (bit c 26) w.toNat
  | _ => w.toNat

/-- Accumulator index of element (row, column) of the stored tile. -/
def cellOf (c : W64) (r col : Nat) : Nat := bits c 23 23 * 1024 + (if bit c 25 then 32 * col + r else 32 * r + col)

/-- The 32 rows of an MSTORE. -/
def storeRows (x : Engine) (c : W64) : List (List Byte) :=
  (List.range 32).map fun r => (List.range 32).flatMap fun k =>
    toLE (rowBytes (bits c 31 28) / 32) (storeWord c (tgetD x.acc (cellOf c r k) 0))

/-- The accumulators after an MLDACC of packed rows. -/
def loadRows (x : Engine) (c : W64) (l : List Byte) : Tbl W32 :=
  (List.range 1024).foldl (fun t n =>
    tset t (cellOf c (n / 32) (n % 32)) (BitVec.ofNat 32 (leNat (slice l (4 * n) 4)))) x.acc

/-- The slot cleared after an MSTORE with CLEAR. -/
def clearSlot (x : Engine) (c : W64) : Engine :=
  if bit c 24 then { x with acc := x.acc.filter fun e => e.1 / 1024 != bits c 23 23 } else x

/-! ## MATRIX_COMPLETE (R288, R297, R299) -/

/-- The context of the block that holds an engine marked lost with a reason. -/
def engineLost (s : State) (x : Engine) (reason : Nat) : State :=
  match x.holder.bind (tget s.cores.blocks) with
  | none => s
  | some b => markLost s (ctxOfBlock s b) reason

/-- Inbound channels that the head instruction reads, with the bytes it needs: first operand, second operand. -/
def wants (o : EOp) : Option (Nat × Nat) × Option (Nat × Nat) :=
  let kb := clamp 1 512 (bits o.ctrl 47 38)
  match o.kind with
  | .mma =>
    (if bits o.a 63 62 = 3 then some (bits o.a 3 0, kb * panelBytes (bits o.ctrl 27 24)) else none,
     if bits o.b 63 62 = 3 then some (bits o.b 3 0, kb * panelBytes (bits o.ctrl 31 28)) else none)
  | .mstore => (none, none)
  | .mldacc => (if bits o.ctrl 63 62 = 3 then some (bits o.ctrl 3 0, 4096) else none, none)
  | .mloadb => (if bits o.ctrl 63 62 = 3 then some (bits o.a 3 0, 128 * clamp 1 512 (bits o.ctrl 41 32)) else none, none)

/-- The channel on which an engine's head instruction waits for a message: its first operand's, then its second's (R297). -/
def wantsNow (s : State) (core e : Nat) : Option Nat :=
  let x := engOf s core e
  match x.queue with
  | [] => none
  | o :: _ =>
    match (wants o).1, (wants o).2 with
    | some (ch, n), b => if x.inA.length < n then some ch else (match b with
      | some (ch, n) => if x.inB.length < n then some ch else none
      | none => none)
    | none, some (ch, n) => if x.inB.length < n then some ch else none
    | none, none => none

/-- The engines of a core that claim a message of a channel, as inputs 4 to 7 of its token (R297). -/
def msgClaims (s : State) (core ch : Nat) : List Nat :=
  ((List.range 4).filter fun e => wantsNow s core e == some ch).map (4 + ·)

/-- Keys of the tokens of an inbound and an outbound channel. -/
def inToken (core ch : Nat) : Nat := 4352 + core * 16 + ch
def outToken (core ch : Nat) : Nat := 256 + core * 16 + ch

/-- The input that a token grants of those that claim (R193). -/
def granted (s : State) (key : Nat) (claims : List Nat) : Option Nat :=
  (tokenPick (tgetD s.cores.tokens key 0) (claims.map fun c => (c, c))).map (·.1)

/-- An engine takes one message of the channel that it waits for. -/
def engineTakes (s : State) (core ch e : Nat) : State :=
  match tgetD s.cores.inbox (core * 16 + ch) [] with
  | [] => s
  | m :: rest =>
    let x := engOf s core e
    let s := takeMsg s (core * 16 + ch) rest
    let first : Bool := match x.queue with
      | o :: _ => (wants o).1.any fun w => decide (x.inA.length < w.2)
      | [] => false
    setEng s core e (if first then { x with inA := x.inA ++ toLE 64 m.toNat } else { x with inB := x.inB ++ toLE 64 m.toNat })

/-- The waiting messages of a channel dealt to the engines that claim them, one after the other by the token, until engine
`e` has what it waits for on it (R297). -/
def dealMsgs (core ch e : Nat) : Nat → State → State
  | 0, s => s
  | n + 1, s =>
    if wantsNow s core e ≠ some ch ∨ (tgetD s.cores.inbox (core * 16 + ch) []).isEmpty then s
    else match granted s (inToken core ch) (msgClaims s core ch) with
    | none => s
    | some k => dealMsgs core ch e n (passToken (engineTakes s core ch (k - 4)) (inToken core ch) k 8)

/-- The head instruction's channel operands staged as far as messages wait, the first operand before the second. A channel
buffers 8 messages, for 4 engines. -/
def stageIn (s : State) (core e : Nat) : State :=
  let one := fun s => match wantsNow s core e with
    | some ch => dealMsgs core ch e 9 s
    | none => s
  one (one s)

/-- What executing the head instruction gives. -/
inductive Exec where
  | done (s : State) (x : Engine) | bad (s : State) | wait (s : State)
  deriving DecidableEq, Repr

/-- MMA executed. -/
def runHeadMma (s : State) (core : Nat) (x : Engine) (o : EOp) : Exec :=
  let c := o.ctrl
  let kb := clamp 1 512 (bits c 47 38)
  let fa := bits c 27 24
  let fb := bits c 31 28
  match fetchRanges s core x (bits o.a 63 62) (bits o.a 18 0) (panelRanges o.a fa kb) x.inA,
        fetchRanges s core x (bits o.b 63 62) (bits o.b 18 0) (panelRanges o.b fb kb) x.inB,
        fetchScale x (bit c 22) o.a kb, fetchScale x (bit c 23) o.b kb with
  | .bytes ta, .bytes tb, .bytes sa, .bytes sb => .done s { x with acc := mmaAcc x c kb (bits c 34 34) ta tb sa sb }
  | .bad, _, _, _ | _, .bad, _, _ | _, _, .bad, _ | _, _, _, .bad => .bad s
  | _, _, _, _ => .wait s

/-- The rows of an MSTORE that an engine's head sends on a channel. -/
def sendingRows (x : Engine) (ch : Nat) : Option (List Byte) :=
  match x.queue with
  | o :: _ => if o.kind = .mstore ∧ bits o.ctrl 63 62 = 3 ∧ bits o.ctrl 3 0 = ch then some (storeRows x o.ctrl).flatten else none
  | [] => none

/-- The engines of a core that claim a credit of an outbound channel, as inputs 4 to 7 of its token (R297). -/
def creditClaims (s : State) (core ch : Nat) : List Nat :=
  ((List.range 4).filter fun e => (sendingRows (engOf s core e) ch).any fun l => decide (64 * (engOf s core e).outN < l.length)).map
    (4 + ·)

/-- An engine sends its next message on a channel. -/
def engineSends (s : State) (core ch e : Nat) : State :=
  let x := engOf s core e
  match sendingRows x ch, tget s.cores.outs (core * 16 + ch) with
  | some l, some o =>
    setEng (sendMsg s (core * 16 + ch) o (BitVec.ofNat 512 (leNat (slice l (64 * x.outN) 64)))) core e { x with outN := x.outN + 1 }
  | _, _ => s

/-- The credits of an outbound channel dealt to the engines that claim them, one after the other by the token, until engine
`e` has sent what it sends on it (R258, R297). -/
def dealCredits (core ch e : Nat) : Nat → State → State
  | 0, s => s
  | n + 1, s =>
    if !(creditClaims s core ch).contains (4 + e) ∨ ((tget s.cores.outs (core * 16 + ch)).map (·.credits)).getD 0 = 0 then s
    else match granted s (outToken core ch) (creditClaims s core ch) with
    | none => s
    | some k => dealCredits core ch e n (passToken (engineSends s core ch (k - 4)) (outToken core ch) k 8)

/-- MSTORE executed. -/
def runHeadStore (s : State) (core e : Nat) (x : Engine) (o : EOp) : Exec :=
  let c := o.ctrl
  let rows := storeRows x c
  let rs := rowRanges c
  let dst := bits c 63 62
  if dst = 3 then
    let s := dealCredits core (bits c 3 0) e 9 s
    if rows.flatten.length ≤ 64 * (engOf s core e).outN then .done s (clearSlot x c) else .wait s
  else if bits c 18 0 % 128 ≠ 0 ∨ !strideOk c then .bad s
  else if dst = 0 then
    if inLm rs then
      .done ((rs.zip rows).foldl (fun s r => lmWrite s core r.1.1 r.2) s) (clearSlot x c)
    else .bad s
  else if inOb rs then .done s (clearSlot ((rs.zip rows).foldl (fun x r => obWrite x (dst - 1) r.1.1 r.2) x) c)
  else .bad s

/-- MLDACC executed. -/
def runHeadLoad (s : State) (core : Nat) (x : Engine) (o : EOp) : Exec :=
  if bits o.ctrl 63 62 ≠ 3 ∧ !strideOk o.ctrl then .bad s
  else match fetchRanges s core x (bits o.ctrl 63 62) (bits o.ctrl 18 0) (rowRanges o.ctrl) x.inA with
  | .bytes l => .done s { x with acc := loadRows x o.ctrl l }
  | .bad => .bad s
  | .more => .wait s

/-- MLOADB executed (R287). -/
def runHeadLoadB (s : State) (core : Nat) (x : Engine) (o : EOp) : Exec :=
  let n := 128 * clamp 1 512 (bits o.ctrl 41 32)
  let at' := 128 * bits o.ctrl 28 20
  let put := fun s (l : List Byte) => Exec.done s (obWrite x (bits o.ctrl 61 61) at' l)
  if 65536 < at' + n then .bad s
  else match bits o.ctrl 63 62 with
  | 0 => if o.a.toNat % 128 = 0 ∧ o.a.toNat + n ≤ 0x80000 then put s (lmRead s core o.a.toNat n) else .bad s
  | 1 =>
    if o.a.toNat % 128 ≠ 0 then .bad s else put s o.lines
  | _ => if n ≤ x.inA.length then put s (x.inA.take n) else .wait s

/-- The head instruction of an engine executed to its end. -/
def runHead (s : State) (core e : Nat) (x : Engine) (o : EOp) : Exec :=
  match o.kind with
  | .mma => runHeadMma s core x o
  | .mstore => runHeadStore s core e x o
  | .mldacc => runHeadLoad s core x o
  | .mloadb => runHeadLoadB s core x o

/-- MWAITs after an engine has lost the `n` instructions that are left in its queue. -/
def mwaitDrop (core e : Nat) : Nat → State → State
  | 0, s => s
  | n + 1, s => mwaitDrop core e n (mwaitCore s core e)

/-- After an instruction has completed: its MWAITs, a release that waits, and the claims that wait. Instructions that were
accepted after the MREL go with the release (log 116). -/
def headDone (s : State) (core e : Nat) : State :=
  let s := mwaitCore s core e
  let x := engOf s core e
  match x.releasing with
  | none => s
  | some n =>
    if n ≤ 1 then grantClaims core 64 (releaseEng (mwaitDrop core e x.queue.length s) core e)
    else setEng s core e { x with releasing := some (n - 1) }

/-- MATRIX_COMPLETE: the oldest instruction of an engine executes. One that waits for messages, credits or a page goes
as far as it can and stays (R288, R297; log 40). -/
def matrixComplete (s : State) (core e : Nat) : State :=
  match (engOf s core e).queue, (engOf s core e).holder.bind (tget s.cores.blocks) with
  | o :: rest, some _ =>
    let s := stageIn s core e
    let x := engOf s core e
    match runHead s core e x o with
    | .done s x => headDone (setEng (moves s (quadRef (core / 4))) core e { x with queue := rest, inA := [], inB := [], outN := 0 }) core e
    | .bad s => engineLost s x 0x01
    | .wait s => s
  | _, _ => s

end Sys2Proof.Machine
end

