-- ==== Sys2Proof/Machine/Bobbin.lean ====
section
/-! DEFINITION. Bobbin traversal engines (spec/11 R327 to R360). -/

namespace Sys2Proof.Machine

/-! ## Engines and issue (R327 to R333) -/

/-- A Bobbin engine. -/
def bobOf (s : State) (k : Nat) : Bobbin := tgetD s.bob.eng k Bobbin.reset

/-- A Bobbin engine replaced; `k` is cluster × 2 + engine. -/
def setBob (s : State) (k : Nat) (x : Bobbin) : State := { s with bob := { s.bob with eng := tset s.bob.eng k x } }

/-- BISSUE (R330, R332): the command is read at issue and queued. -/
def doBissue (s : State) (r : SgRef) (b vn : Nat) : State :=
  match issue s r with
  | none => s
  | some i =>
    let k := i.core / 16 * 2 + b
    let quad := i.core % 16 / 4
    let x := bobOf s k
    let a := pair i.g i.low vn
    if vn % 2 ≠ 0 then undefined s i
    else if 16 ≤ (x.cmds.filter fun c => c.quad == quad).length ∨ 255 ≤ i.g.bobOut then s
    else if !lmOk a 64 then permFail s i.b
    else
      let c : BobCmd := { b := b, quad := quad, group := i.key, block := i.g.block, ctx := ctxOfBlock s i.b,
                          slot := slotOfBlock s i.b, cmd := BitVec.ofNat 512 (leNat (lmRead s i.core a 64)),
                          stage := .queued, steps := 0, need := 0 }
      setBob (retire s i { i.g with bobOut := i.g.bobOut + 1 }) k { x with cmds := x.cmds ++ [c] }

/-- BWAIT (R332). -/
def doBwait (s : State) (r : SgRef) (n : Nat) : State :=
  match issue s r with
  | none => s
  | some i =>
    if i.g.bobOut ≤ n then retire s i i.g
    else setGroup s i.key { i.g with subs := { i.sub with wait := .bwait n } :: i.rest }

/-- A group after one of its commands has completed: BWAITs that the count satisfies release. -/
def bobDown (g : Group) : Group :=
  let g := { g with bobOut := g.bobOut - 1 }
  { g with subs := g.subs.map fun u => match u.wait with
      | .bwait n => if g.bobOut ≤ n then pass { u with wait := .ready } else u
      | _ => u }

/-! ## Fields of a command (R334), with its clamps (R335) -/

def bOp (c : W512) : Nat := bits c 7 0
def bSub (c : W512) : Nat := bits c 15 12
def bW64 (c : W512) : Bool := bit c 16
def bKey (c : W512) : Nat := if bW64 c then 8 else 4
def bKind (c : W512) : Nat := bits c 19 17
def bCore (c : W512) : Nat := bits c 23 20
def bEng (c : W512) : Nat := bits c 25 24
def bAddr (c : W512) : Nat := bits c 50 32
def bCap (c : W512) : Nat := clamp 1 65536 (bits c 95 64)
def bComp (c : W512) : Nat := bits c 114 96

def exLayout (c : W512) : Nat := bits c 473 472
def exLines (c : W512) : Nat := clamp 1 (if exLayout c = 0 then 32 else 8) (bits c 471 464)
def exStride (c : W512) : Nat := clamp 1 65535 (bits c 463 448)
def exNsrc (c : W512) : Nat := clamp 1 65536 (bits c 351 320)
def exIaddr (c : W512) : Nat := bits c 498 480

def soNa (c : W512) : Nat := clamp 0 16777216 (bits c 287 256)
def soNb (c : W512) : Nat := clamp 0 16777216 (bits c 319 288)

def prLogb (c : W512) : Nat := clamp 0 40 (bits c 357 352)
def prMax (c : W512) : Nat := clamp 1 (min 255 (2 ^ prLogb c)) (bits c 367 360)
def prNq (c : W512) : Nat := clamp 1 16777216 (bits c 351 320)

def raNrays (c : W512) : Nat := clamp 1 4096 (bits c 236 224)
def raMax (c : W512) : Nat := clamp 1 65535 (bits c 271 256)
def raRays (c : W512) : Nat := bits c 210 192

/-- Undefined codes (R335 step 1). -/
def bobUndef (c : W512) : Bool :=
  decide (4 ≤ bKind c) ||
  match bOp c with
  | 1 => decide (2 ≤ bSub c) || (bSub c == 1 && exLayout c == 3)
  | 2 => decide (3 ≤ bSub c)
  | 3 | 4 => decide (2 ≤ bSub c)
  | _ => true

/-- Bytes of the destination footprint for the clamped CAP (R337, R340). -/
def footprint (c : W512) : Nat :=
  match bOp c with
  | 1 => if bSub c = 0 then 8 * bCap c
         else if exLayout c = 0 then bCap c * exLines c * 128 else cdiv (bCap c) 32 * 32 * exLines c * 128
  | 2 => bCap c * bKey c
  | 3 => bCap c * 16
  | _ => raNrays c * 16

/-- Alignment of the payload's addresses and ranges of its local inputs (R335 step 3). -/
def bobInputs (c : W512) : Bool :=
  match bOp c with
  | 1 => bits c 447 384 % 128 == 0 && bits c 319 256 % 4 == 0 && bits c 255 192 % 4 == 0 &&
         bits c 191 128 % bKey c == 0 &&
         (bSub c == 0 || (exIaddr c % 8 == 0 && decide (exIaddr c + 8 * bCap c ≤ 0x80000)))
  | 2 => bits c 255 192 % bKey c == 0 && bits c 191 128 % bKey c == 0
  | 3 => bits c 319 256 % bKey c == 0 && bits c 191 128 % 128 == 0
  | _ => raRays c % 32 == 0 && decide (raRays c + 32 * raNrays c ≤ 0x80000) && bits c 191 128 % 128 == 0

/-- The record and destination ranges, and DCORE (R335 step 3). -/
def bobRanges (s : State) (cluster : Nat) (x : BobCmd) : Bool :=
  let c := x.cmd
  bComp c % 16 == 0 && decide (bComp c + 16 ≤ 0x80000) &&
  (bKind c == 3 || bAddr c % 128 == 0) &&
  (match bKind c with
   | 0 => decide (bAddr c + footprint c ≤ 0x80000)
   | 3 => true
   | _ => decide (bAddr c + footprint c ≤ 0x10000)) &&
  (slotQuads s x.slot).contains (cluster * 4 + bCore c / 4)

/-- The destination engine is held by a block of the command's slot (R335 step 4). -/
def bobHeld (s : State) (cluster : Nat) (x : BobCmd) : Bool :=
  match (engOf s (cluster * 16 + bCore x.cmd) (bEng x.cmd)).holder.bind (tget s.cores.blocks) with
  | some b => slotOfBlock s b == x.slot
  | none => false

/-- The destination channel is connected by a core-grid endpoint (R335 step 4). -/
def bobChanUsed (s : State) (cluster : Nat) (x : BobCmd) : Bool :=
  s.cores.outs.any fun e => e.2.core == cluster * 16 + bCore x.cmd && e.2.chan == bAddr x.cmd % 16

/-- A completion record (R338). -/
def compRec (status records posA posB : Nat) : BitVec 128 :=
  BitVec.ofNat 128 (posB * 2 ^ 96 + posA * 2 ^ 64 + records * 2 ^ 32 + status)

/-! ## Device reads of an engine (R329) -/

/-- An engine's access to device memory for a command, with entries of the issuing quad's share. Its reads are made one
after the other, so that never more than 256 are outstanding. -/
def bobWho (x : BobCmd) : Who := { asid := x.ctx, slot := some x.slot, site := .bobbin x.b (x.group / 256) }

/-- 128 B lines that a range touches. -/
def linesSpan (a n : Nat) : Nat := if n = 0 then 0 else (a + n - 1) / 128 - a / 128 + 1

/-- Entry `i` of an array of `n`-byte numbers. -/
def arrayAt (s : State) (x : BobCmd) (base n i : Nat) : State × Option Nat := vnat s (bobWho x) (base + n * i) n

/-- Consecutive entries of an array from entry `i`. -/
def arrayFrom (s : State) (x : BobCmd) (base n i k : Nat) : State × Option (List Nat) :=
  match vread s (bobWho x) (base + n * i) (n * k) with
  | (s, none) => (s, none)
  | (s, some b) => (s, some ((List.range k).map fun j => leNat (slice b (n * j) n)))

/-! ## Delivery -/

/-- Messages of packed bytes, the last padded with zeros (R336). -/
def messagesOf (l : List Byte) : List W512 :=
  (List.range (cdiv l.length 64)).map fun k => BitVec.ofNat 512 (leNat (slice l (64 * k) 64))

/-- Bytes written at an offset of a command's destination in local memory or a buffer. -/
def bobWrite (s : State) (cluster : Nat) (c : W512) (off : Nat) (l : List Byte) : State :=
  let core := cluster * 16 + bCore c
  if bKind c = 0 then lmWrite s core (bAddr c + off) l
  else setEng s core (bEng c) (obWrite (engOf s core (bEng c)) (bKind c - 1) (bAddr c + off) l)

/-- What an operation leaves: the stage, and the steps that it takes beyond the setup (R356). -/
abbrev OpEnd := BobStage × Nat

/-- Records delivered: pieces at their offsets, or one packed stream on a channel; then the completion record waits. The steps
are `work`, those of the reads and of the operation, and one for each line delivered, or for two messages (R356). -/
def bobDeliver (s : State) (cluster : Nat) (c : W512) (pieces : List (Nat × List Byte)) (rec' : BitVec 128) (work : Nat) :
    State × OpEnd :=
  let bytes := pieces.flatMap (·.2)
  if bKind c = 3 then
    let m := messagesOf bytes
    (s, if m.isEmpty then .delivered rec' else .sending m rec', work + cdiv m.length 2)
  else (pieces.foldl (fun s p => bobWrite s cluster c p.1 p.2) s, .delivered rec', work + cdiv bytes.length 128)

/-! ## EXPAND (R339 to R341) -/

/-- Degree of a source from its row pointers. -/
def degreeOf (lo hi : Nat) : Nat := hi - lo

/-- The sources admitted from `i` on: their numbers and edges, the first source not delivered, its degree (R341), and the
lines of row pointers and edges read (R356). -/
def bobAdmit (x : BobCmd) : Nat → State → Nat → Nat → State × Option (List (Nat × Nat × Nat) × Nat × Nat × Nat)
  | 0, s, i, _ => (s, some ([], i, 0, 0))
  | n + 1, s, i, room =>
    match arrayAt s x (bits x.cmd 319 256) 4 i with
    | (s, none) => (s, none)
    | (s, some v) =>
      match arrayFrom s x (bits x.cmd 191 128) (bKey x.cmd) v 2 with
      | (s, none) => (s, none)
      | (s, some rows) =>
        let lo := rows.getD 0 0
        let d := degreeOf lo (rows.getD 1 0)
        let row := linesSpan (bits x.cmd 191 128 + bKey x.cmd * v) (2 * bKey x.cmd)
        if room < d then (s, some ([], i, d, row))
        else match bobAdmit x n s (i + 1) (room - d) with
        | (s, none) => (s, none)
        | (s, some (l, p, q, k)) =>
          (s, some ((i, lo, d) :: l, p, q, k + row + linesSpan (bits x.cmd 255 192 + 4 * lo) (4 * d)))

/-- The records of the admitted sources: source and neighbour. -/
def neighbours (x : BobCmd) : State → List (Nat × Nat × Nat) → State × Option (List (List (Nat × Nat)))
  | s, [] => (s, some [])
  | s, (i, lo, d) :: l =>
    match arrayFrom s x (bits x.cmd 255 192) 4 lo d with
    | (s, none) => (s, none)
    | (s, some us) =>
      match neighbours x s l with
      | (s, none) => (s, none)
      | (s, some r) => (s, some (us.map (fun u => (i, u)) :: r))

/-- Lists interleaved in an order that free values choose, each list in its own order (R7, R341). -/
def interleave {α : Type} (base : Nat) : Nat → List (List α) → List α
  | 0, _ => []
  | n + 1, l =>
    let l := l.filter fun t => !t.isEmpty
    let k := (Config.freeValue (base + n)).toNat % l.length
    match l[k]? with
    | some (a :: t) => a :: interleave base n (l.set k t)
    | _ => []

/-- Feature rows of a list of neighbours (R339). -/
def features (x : BobCmd) : State → List (Nat × Nat) → State × Option (List (List Byte))
  | s, [] => (s, some [])
  | s, (_, u) :: l =>
    match vread s (bobWho x) (bits x.cmd 447 384 + u * exStride x.cmd * 128) (exLines x.cmd * 128) with
    | (s, none) => (s, none)
    | (s, some b) =>
      match features x s l with
      | (s, none) => (s, none)
      | (s, some r) => (s, some (b :: r))

/-- A tile of 32 records in panel-8 (`w` = 1) or panel-16 (`w` = 2) layout; absent records read zero (R340). -/
def panelTile (w lines : Nat) (rows : List (List Byte)) : List Byte :=
  let elems := lines * 128 / w
  (List.range elems).flatMap fun e => (List.range 32).flatMap fun j =>
    let r := rows.getD j []
    (List.range w).map fun k => r.getD (w * e + k) 0

/-- A record of SUB 0 and of the index records. -/
def indexRec (r : Nat × Nat) : List Byte := toLE 4 r.2 ++ toLE 4 r.1

/-- Feature rows as the pieces that LAYOUT gives (R340). -/
def featurePieces (c : W512) (rows : List (List Byte)) : List (Nat × List Byte) :=
  let n := exLines c * 128
  if exLayout c = 0 then rows.zipIdx.map fun r => (r.2 * n, r.1)
  else (List.range (cdiv rows.length 32)).map fun g =>
    (g * 32 * n, panelTile (exLayout c) (exLines c) (slice rows (32 * g) 32))

/-- The last tile of an EXPAND stays in the engine's transpose buffer of 32 KiB (R327, R340). -/
def holdTile (s : State) (cluster : Nat) (x : BobCmd) (pieces : List (Nat × List Byte)) : State :=
  let k := cluster * 2 + x.b
  match pieces.getLast? with
  | some p => if exLayout x.cmd = 0 then s else setBob s k { bobOf s k with tile := p.2.take 32768 }
  | none => s

/-- EXPAND performed, with the steps that it takes; none where a read stalls or fails. -/
def runExpand (s : State) (cluster : Nat) (x : BobCmd) : State × Option OpEnd :=
  let c := x.cmd
  match bobAdmit x (exNsrc c) s 0 (bCap c) with
  | (s, none) => (s, none)
  | (s, some (srcs, posA, deg, rowLines)) =>
    match neighbours x s srcs with
    | (s, none) => (s, none)
    | (s, some lists) =>
      let total := lists.foldl (fun a l => a + l.length) 0
      let recs := interleave s.free total lists
      let s := drewN s total
      let isOver := decide (posA < exNsrc c)
      let done := compRec (if isOver then 1 else 0) total posA (if isOver ∧ bCap c < deg then deg else 0)
      let sources := posA + (if isOver then 1 else 0)
      let work := sources + linesSpan (bits c 319 256) (4 * sources) + rowLines
      if bSub c = 0 then
        let (s, t) := bobDeliver s cluster c (recs.zipIdx.map fun r => (8 * r.2, indexRec r.1)) done work
        (s, some t)
      else match features x s recs with
      | (s, none) => (s, none)
      | (s, some rows) =>
        let s := recs.zipIdx.foldl (fun s r => lmWrite s (x.group / 64) (exIaddr c + 8 * r.2) (indexRec r.1)) s
        let work := work + total * exLines c + linesSpan (exIaddr c) (8 * total)
        let (s, t) := bobDeliver (holdTile s cluster x (featurePieces c rows)) cluster c (featurePieces c rows) done work
        (s, some t)

/-! ## SETOP (R342 to R345) -/

/-- Length of the longest strictly ascending prefix. -/
def ascPrefix : List Nat → Nat
  | [] => 0
  | [_] => 1
  | a :: b :: t => if a < b then 1 + ascPrefix (b :: t) else 1

/-- The union of two ascending lists; the fuel is their length. -/
def unionAsc : Nat → List Nat → List Nat → List Nat
  | 0, _, _ => []
  | _, [], b => b
  | _, a, [] => a
  | n + 1, x :: a, y :: b =>
    if x < y then x :: unionAsc n a (y :: b) else if y < x then y :: unionAsc n (x :: a) b else x :: unionAsc n a b

/-- The set that SUB names. -/
def setOp (sub : Nat) (a b : List Nat) : List Nat :=
  if sub = 0 then a.filter b.contains else if sub = 1 then unionAsc (a.length + b.length) a b
  else a.filter fun k => !b.contains k

/-- Result of SETOP: keys written, status, POS_A, POS_B (R343 to R345). -/
def setResult (sub cap : Nat) (a b : List Nat) : List Nat × Nat × Nat × Nat :=
  let a0 := ascPrefix a
  let b0 := ascPrefix b
  let breaks := (if a0 < a.length then [a.getD (a0 - 1) 0] else []) ++ (if b0 < b.length then [b.getD (b0 - 1) 0] else [])
  let ok := fun k => breaks.all fun l => decide (k ≤ l)
  let r := (setOp sub (a.take a0) (b.take b0)).filter ok
  if cap < r.length then
    let w := r.take cap
    let k := w.getLastD 0
    (w, 1, ((a.take a0).filter (· ≤ k)).length, ((b.take b0).filter (· ≤ k)).length)
  else if breaks.isEmpty then (r, 0, a.length, b.length)
  else (r, 2, a0, b0)

/-- SETOP performed; both lists are read whole (log 43), and its steps count the lines of the keys consumed (log 115). -/
def runSetop (s : State) (cluster : Nat) (x : BobCmd) : State × Option OpEnd :=
  let c := x.cmd
  let n := bKey c
  match arrayFrom s x (bits c 191 128) n 0 (soNa c) with
  | (s, none) => (s, none)
  | (s, some a) =>
    match arrayFrom s x (bits c 255 192) n 0 (soNb c) with
    | (s, none) => (s, none)
    | (s, some b) =>
      let (r, st, pa, pb) := setResult (bSub c) (bCap c) a b
      let work := linesSpan (bits c 191 128) (n * pa) + linesSpan (bits c 255 192) (n * pb) + cdiv (pa + pb) (32 / n)
      let (s, t) := bobDeliver s cluster c (r.zipIdx.map fun k => (n * k.2, toLE n k.1)) (compRec st r.length pa pb) work
      (s, some t)

/-! ## PROBE (R346 to R349) -/

/-- First bucket of a key (R347). -/
def hashOf (logb k : Nat) : Nat := if logb = 0 then 0 else (k * 0x9E3779B97F4A7C15 % 2 ^ 64) >>> (64 - logb)

/-- What a bucket decides about a key: a hit with its value, a miss, or nothing. -/
inductive Slot8 where
  | hit (v : Nat) | miss | on
  deriving DecidableEq, Repr

/-- The slots of a bucket in ascending order. -/
def bucket (b : List Byte) (k empty : Nat) : Slot8 :=
  (List.range 8).foldl (fun r j =>
    match r with
    | .on =>
      let key := leNat (slice b (16 * j) 8)
      if key = k then .hit (leNat (slice b (16 * j + 8) 8)) else if key = empty then .miss else .on
    | r => r) .on

/-- One query: value of a hit, whether MAXPROBE ended it, and the buckets read. -/
def probeKey (x : BobCmd) (k h : Nat) : Nat → State → Nat → State × Option (Option Nat × Bool × Nat)
  | 0, s, i => (s, some (none, true, i))
  | n + 1, s, i =>
    match vread s (bobWho x) (bits x.cmd 191 128 + 128 * ((h + i) % 2 ^ prLogb x.cmd)) 128 with
    | (s, none) => (s, none)
    | (s, some b) =>
      match bucket b k (bits x.cmd 255 192) with
      | .hit v => (s, some (some v, false, i + 1))
      | .miss => (s, some (none, false, i + 1))
      | .on => probeKey x k h n s (i + 1)

/-- A probe record. -/
def probeRec (q : Nat) (v : Option Nat) (lim : Bool) : List Byte :=
  toLE 16 ((v.getD 0) * 2 ^ 64 + q * 2 ^ 32 + (if lim then 2 else 0) + (if v.isSome then 1 else 0))

/-- Queries from `q` on: records, queries limited, the first query not delivered (R348), and the queries and buckets read. -/
def probeAll (x : BobCmd) : Nat → State → Nat → Nat → State × Option (List (List Byte) × Nat × Nat × Nat)
  | 0, s, q, _ => (s, some ([], 0, q, 0))
  | n + 1, s, q, room =>
    if bSub x.cmd = 0 ∧ room = 0 then (s, some ([], 0, q, 0))
    else match arrayAt s x (bits x.cmd 319 256) (bKey x.cmd) q with
    | (s, none) => (s, none)
    | (s, some k) =>
      match (if k = bits x.cmd 255 192 then (s, some (none, false, 0))
             else probeKey x k (hashOf (prLogb x.cmd) k) (prMax x.cmd) s 0) with
      | (s, none) => (s, none)
      | (s, some (v, lim, reads)) =>
        let writes := bSub x.cmd == 0 || v.isSome
        if writes ∧ room = 0 then (s, some ([], 0, q, reads + 1))
        else match probeAll x n s (q + 1) (if writes then room - 1 else room) with
        | (s, none) => (s, none)
        | (s, some (l, c, p, w)) =>
          (s, some (if writes then probeRec q v lim :: l else l, c + (if lim then 1 else 0), p, w + reads + 1))

/-- PROBE performed; hits of SUB 1 stand in a free order (R348). -/
def runProbe (s : State) (cluster : Nat) (x : BobCmd) : State × Option OpEnd :=
  let c := x.cmd
  match probeAll x (prNq c) s 0 (bCap c) with
  | (s, none) => (s, none)
  | (s, some (l, lim, p, work)) =>
    let recs := if bSub c = 0 then l else freeOrder s.free l.length l
    let s := { drewN s l.length with bob := { s.bob with limit := satAdd 0xFFFF s.bob.limit lim } }
    let (s, t) := bobDeliver s cluster c (recs.zipIdx.map fun r => (16 * r.2, r.1))
      (compRec (if p < prNq c then 1 else 0) recs.length p 0) (work + linesSpan (bits c 319 256) (bKey c * p))
    (s, some t)

/-! ## RAYQ (R350 to R355) -/

/-- A finite FP32 encoding as an integer in units of 2^(−149). -/
def fpInt (w : Nat) : Int := if w.testBit 31 then -(codeInt (w % 2 ^ 31) : Int) else (codeInt (w % 2 ^ 31) : Int)

/-- NaN and infinity of FP32 encodings. -/
def isNan (w : Nat) : Bool := decide (0x7F800000 < w % 2 ^ 31)
def isInf (w : Nat) : Bool := w % 2 ^ 31 == 0x7F800000

/-- Direction of a rounding: to nearest even, toward −∞, toward +∞. -/
inductive Dir where
  | near | down | up
  deriving DecidableEq, Repr

/-- The FP32 encoding of p ÷ q rounded in a direction; q is not 0. -/
def ratFp (dir : Dir) (p q : Int) : Nat :=
  let neg := decide ((p < 0 ∧ 0 < q) ∨ (0 < p ∧ q < 0))
  let n := p.natAbs * 2 ^ 149
  let d := q.natAbs
  let k := Nat.log2 (n / d) - 23
  let u := 2 ^ k * d
  let m := n / u
  let r := n % u
  let away := match dir with
    | .near => decide (u < 2 * r) || (decide (2 * r = u) && m % 2 == 1)
    | .down => neg && r != 0
    | .up => !neg && r != 0
  let toInf := match dir with
    | .near => true
    | .down => neg
    | .up => !neg
  let code := k * 2 ^ 23 + m + (if away then 1 else 0)
  (if neg then 0x80000000 else 0) + (if 0x7F800000 ≤ code then (if toInf then 0x7F800000 else 0x7F7FFFFF) else code)

/-- One bound of a box on an axis: (bound − O) ÷ D rounded, for D not 0; an infinite bound gives an infinity. -/
def slab (dir : Dir) (bound o d : Nat) : Nat :=
  if isInf bound then (if bound.testBit 31 != d.testBit 31 then 0xFF800000 else 0x7F800000)
  else ratFp dir (fpInt bound - fpInt o) (fpInt d)

/-- The box test (R352): the largest rounded entry, if the box is entered; TMIN is no entry. `box` is min x, y, z then max x, y,
z, and a ray has an axis on which its direction is not 0. -/
def boxTest (box : List Nat) (o d : List Nat) (tmin : Nat) (limit : Int) : Option Int :=
  let at' := fun (l : List Nat) k => l.getD k 0
  if box.any isNan ∨ ((List.range 3).any fun k => codePos (at' box (3 + k)) < codePos (at' box k)) then none
  else
    let axes := List.range 3
    let flat := axes.filter fun k => codePos (at' d k) == 0
    let slanted := axes.filter fun k => codePos (at' d k) != 0
    let ent := fun k => min (codePos (slab .down (at' box k) (at' o k) (at' d k))) (codePos (slab .down (at' box (3 + k)) (at' o k) (at' d k)))
    let ext := fun k => max (codePos (slab .up (at' box k) (at' o k) (at' d k))) (codePos (slab .up (at' box (3 + k)) (at' o k) (at' d k)))
    let e := (slanted.drop 1).foldl (fun m k => max m (ent k)) (ent (slanted.headD 0))
    let x := slanted.foldl (fun m k => min m (ext k)) limit
    if (flat.all fun k => decide (codePos (at' box k) ≤ codePos (at' o k)) && decide (codePos (at' o k) ≤ codePos (at' box (3 + k)))) ∧ max (codePos tmin) e ≤ x
    then some e else none

/-- Vectors of integers. -/
def vsub (a b : List Int) : List Int := List.zipWith (· - ·) a b
def dot (a b : List Int) : Int := (List.zipWith (· * ·) a b).foldl (· + ·) 0
def crossV (a b : List Int) : List Int :=
  let x := fun (l : List Int) k => l.getD k 0
  [x a 1 * x b 2 - x a 2 * x b 1, x a 2 * x b 0 - x a 0 * x b 2, x a 0 * x b 1 - x a 1 * x b 0]

/-- The triangle test (R353): T, U, V of a meeting. For a vertex that is infinite the spec states no result, and the
meeting and its values are free (log 44); `base` is the place of the free values. -/
def triTest (base : Nat) (v0 v1 v2 o d : List Nat) : Option (Nat × Nat × Nat) :=
  if (v0 ++ v1 ++ v2).any isNan then none
  else if (v0 ++ v1 ++ v2).any isInf then
    let f := Config.freeValue base
    let g := Config.freeValue (base + 1)
    if bit f 32 then some (bits f 31 0, bits g 31 0, bits g 63 32) else none
  else
    let i := fun (l : List Nat) => l.map fpInt
    let a := vsub (i v0) (i o)
    let b := vsub (i v1) (i o)
    let c := vsub (i v2) (i o)
    let e0 := dot (i d) (crossV b c)
    let e1 := dot (i d) (crossV c a)
    let e2 := dot (i d) (crossV a b)
    let det := e0 + e1 + e2
    if det = 0 ∨ ((e0 < 0 ∨ e1 < 0 ∨ e2 < 0) ∧ (0 < e0 ∨ 0 < e1 ∨ 0 < e2)) then none
    else some (ratFp .near (dot a (crossV (vsub (i v1) (i v0)) (vsub (i v2) (i v0)))) det, ratFp .near e1 det, ratFp .near e2 det)

/-- Words of a bit string. -/
def words32 (v : Nat) (lo n : Nat) : List Nat := (List.range n).map fun k => nbits v (lo + 32 * k + 31) (lo + 32 * k)

/-- A hit: T, U, V, PRIM. -/
abbrev RayHit := Nat × Nat × Nat × Nat

/-- The better of two hits for SUB 0 (R354). -/
def betterHit (best : Option RayHit) (h : RayHit) : Option RayHit :=
  match best with
  | none => some h
  | some b =>
    if codePos h.1 < codePos b.1 ∨ (codePos h.1 = codePos b.1 ∧ h.2.2.2 < b.2.2.2) then some h else best

/-- The triangle records of a leaf tested in order. -/
def leafTris (x : BobCmd) (ray : Nat) (base : Nat) : Nat → State → Nat → Option RayHit → State × Option (Option RayHit)
  | 0, s, _, best => (s, some best)
  | n + 1, s, a, best =>
    if bSub x.cmd = 1 ∧ best.isSome then (s, some best)
    else match vnat s (bobWho x) a 64 with
    | (s, none) => (s, none)
    | (s, some t) =>
      let o := words32 ray 0 3
      let d := words32 ray 128 3
      let tmin := nbits ray 127 96
      let tmax := nbits ray 255 224
      let best := match triTest (base + 2 * n) (words32 t 0 3) (words32 t 96 3) (words32 t 192 3) o d with
        | none => best
        | some (tt, u, v) =>
          if isNan tt ∨ codePos tt < codePos tmin ∨ codePos tmax < codePos tt then best
          else betterHit best (tt, u, v, nbits t 315 288)
      leafTris x ray base n s (a + 64) best

/-- References of entered children, in the order they are taken (R354; log 45). -/
def enteredRefs (node ray : Nat) (limit : Int) : List Nat :=
  let kids := (List.range 4).filterMap fun c =>
    let r := nbits node (768 + 32 * c + 31) (768 + 32 * c)
    if r = 0 then none
    else (boxTest (words32 node (192 * c) 6) (words32 ray 0 3) (words32 ray 128 3) (nbits ray 127 96) limit).map fun e => (e, r)
  kids.foldl (fun (l : List (Int × Nat)) k =>
    l.filter (fun e => decide (e.1 ≤ k.1)) ++ [k] ++ l.filter (fun e => decide (k.1 < e.1))) [] |>.map (·.2)

/-- What a traversal has done: nodes visited, triangles tested, lines read. -/
structure RayWork where
  visits : Nat
  tests : Nat
  lines : Nat
  deriving DecidableEq, Repr

/-- The steps of a traversal (R356), but for those of its ray's record. -/
def RayWork.steps (w : RayWork) : Nat := w.lines + w.visits + cdiv w.tests 2

/-- The traversal of one ray: its best hit, whether MAXVISIT ended it, and its work; a leaf counts with every record of its
(log 115). The fuel bounds the references taken. -/
def traverse (x : BobCmd) (ray : Nat) : Nat → State → List Nat → RayWork → Nat → Option RayHit →
    State × Option (Option RayHit × Bool × RayWork)
  | 0, s, _, w, _, best => (s, some (best, false, w))
  | _, s, [], w, _, best => (s, some (best, false, w))
  | n + 1, s, r :: rest, w, base, best =>
    let root := bits x.cmd 191 128
    if bSub x.cmd = 1 ∧ best.isSome then (s, some (best, false, w))
    else if r.testBit 31 then
      match leafTris x ray base (nbits r 30 28 + 1) s (root + nbits r 27 0 * 64) best with
      | (s, none) => (s, none)
      | (s, some best) =>
        let tris := nbits r 30 28 + 1
        let w := { w with tests := w.tests + tris, lines := w.lines + linesSpan (root + nbits r 27 0 * 64) (64 * tris) }
        traverse x ray n s rest w (base + 16) best
    else if raMax x.cmd ≤ w.visits then (s, some (best, true, w))
    else match vnat s (bobWho x) (root + nbits r 27 0 * 64) 128 with
    | (s, none) => (s, none)
    | (s, some node) =>
      let limit := match best with
        | some h => if bSub x.cmd = 0 then codePos h.1 else codePos (nbits ray 255 224)
        | none => codePos (nbits ray 255 224)
      traverse x ray n s (enteredRefs node ray limit ++ rest) { w with visits := w.visits + 1, lines := w.lines + 1 } base best

/-- An invalid ray (R351). -/
def rayInvalid (ray : Nat) : Bool :=
  (words32 ray 0 8).any isNan || ((words32 ray 128 3).all fun w => w % 2 ^ 31 == 0) ||
  decide (codePos (nbits ray 255 224) < codePos (nbits ray 127 96))

/-- A hit record (R350). -/
def hitRec (h : Option RayHit) (trunc : Bool) : Nat :=
  (if trunc then 2 ^ 126 else 0) + match h with
  | some (t, u, v, p) => 2 ^ 127 + p * 2 ^ 96 + v * 2 ^ 64 + u * 2 ^ 32 + t
  | none => 0x7F800000

/-- The record of a ray with an infinite origin or direction: the hit, its values and whether the ray was truncated are free, in
the layout of R350 (log 44). -/
def freeHit (f g : W64) : Nat × Bool :=
  let trunc := bit f 63
  (hitRec (if bit f 62 then some (bits g 31 0, bits f 61 30, bits g 63 32, bits f 27 0) else none) trunc, trunc)

/-- One ray: its record, whether it was truncated, and the steps of its traversal. -/
def oneRay (s : State) (x : BobCmd) (ray : Nat) : State × Option (Nat × Bool × Nat) :=
  if rayInvalid ray then (s, some (hitRec none false, false, 0))
  else if (words32 ray 0 3 ++ words32 ray 128 3).any isInf then
    let r := freeHit (Config.freeValue s.free) (Config.freeValue (s.free + 1))
    (drewN s 2, some (r.1, r.2, 0))
  else match traverse x ray (4 * raMax x.cmd + 8) s [0] ⟨0, 0, 0⟩ s.free none with
  | (s, none) => (s, none)
  | (s, some (h, tr, w)) =>
    (drewN s (64 * raMax x.cmd + 128), some (hitRec (if tr ∧ bSub x.cmd = 1 then none else h) tr, tr, w.steps))

/-- Every ray of a command in order. -/
def allRays (x : BobCmd) : Nat → State → Nat → State × Option (List (Nat × Bool × Nat))
  | 0, s, _ => (s, some [])
  | n + 1, s, k =>
    match oneRay s x (leNat (lmRead s (x.group / 64) (raRays x.cmd + 32 * k) 32)) with
    | (s, none) => (s, none)
    | (s, some r) =>
      match allRays x n s (k + 1) with
      | (s, none) => (s, none)
      | (s, some l) => (s, some (r :: l))

/-- RAYQ performed; the records of the last rays stay in the engine's state for 64 rays (R327). -/
def runRayq (s : State) (cluster : Nat) (x : BobCmd) : State × Option OpEnd :=
  let n := raNrays x.cmd
  match allRays x n s 0 with
  | (s, none) => (s, none)
  | (s, some l) =>
    let tr := (l.filter fun r => r.2.1).length
    let s := { s with bob := { s.bob with trunc := satAdd 0xFFFF s.bob.trunc tr } }
    let k := cluster * 2 + x.b
    let s := setBob s k { bobOf s k with rays := (l.drop (l.length - 64)).map (·.1) }
    let work := linesSpan (raRays x.cmd) (32 * n) + (l.map fun r => r.2.2).sum
    let (s, t) := bobDeliver s cluster x.cmd (l.zipIdx.map fun r => (16 * r.2, toLE 16 r.1.1)) (compRec 0 l.length n tr) work
    (s, some t)

/-! ## Steps, operations and completion (R328, R335, R338) -/

/-- The active command of a quad: the oldest of its commands. -/
def headCmd (x : Bobbin) (quad : Nat) : Option BobCmd := x.cmds.find? fun c => c.quad = quad

/-- The oldest command of a quad changed. -/
def setHead : List BobCmd → Nat → BobCmd → List BobCmd
  | [], _, _ => []
  | d :: t, quad, c => if d.quad = quad then c :: t else d :: setHead t quad c

/-- The oldest command of a quad removed. -/
def popHead : List BobCmd → Nat → List BobCmd
  | [], _ => []
  | d :: t, quad => if d.quad = quad then t else d :: popHead t quad

/-- A command that sends on a channel of a core: from its start to its completion, unless it was refused at its start (R335,
R336). -/
def sends (cluster core chan : Nat) (k : Nat) (c : BobCmd) : Bool :=
  k / 2 == cluster && bKind c.cmd == 3 && cluster * 16 + bCore c.cmd == core && bAddr c.cmd % 16 == chan &&
  match c.stage with
  | .active | .sending _ _ => true
  | .delivered r => decide (bits r 7 0 < 3)
  | .queued => false

/-- Another command holds the channel that a command would use (R336). -/
def chanHeld (s : State) (cluster : Nat) (c : BobCmd) : Bool :=
  bKind c.cmd == 3 && s.bob.eng.any fun e =>
    e.2.cmds.any fun d => d != c && sends cluster (cluster * 16 + bCore c.cmd) (bAddr c.cmd % 16) e.1 d

/-- Steps that a command has still to take (R356). -/
def stepsLeft (c : BobCmd) : Nat := 32 + c.need - c.steps

/-- The next step of a sending command sends: the last ones do, with two messages each. -/
def sendsNow (c : BobCmd) (out : List W512) : Bool := decide (stepsLeft c ≤ cdiv out.length 2)

/-- A command that can take a step (R328, R336, R356): its setup, then, once its operation has been performed, the steps of
that; one that sends needs the channel's credits. -/
def canStep (s : State) (cluster : Nat) (c : BobCmd) : Bool :=
  match c.stage with
  | .queued => bobUndef c.cmd || !chanHeld s cluster c
  | .active => decide (c.steps < 32)
  | .sending out _ => decide (0 < stepsLeft c) && (!sendsNow c out ||
      decide ((tgetD s.cores.inbox ((cluster * 16 + bCore c.cmd) * 16 + bAddr c.cmd % 16) []).length + min 2 out.length ≤ 8))
  | .delivered _ => decide (0 < stepsLeft c)

/-- The first step of a command: the checks of R335. None: a permission failure. -/
def firstStep (s : State) (cluster : Nat) (c : BobCmd) : Option BobStage :=
  if bobUndef c.cmd then some (.delivered (compRec 3 0 0 0))
  else if !bobInputs c.cmd || !bobRanges s cluster c then none
  else if (bKind c.cmd = 1 ∨ bKind c.cmd = 2) ∧ !bobHeld s cluster c then some (.delivered (compRec 4 0 0 0))
  else if bKind c.cmd = 3 ∧ bobChanUsed s cluster c then some (.delivered (compRec 5 0 0 0))
  else some .active

/-- Messages of a command, at most two, enter its inbound channel. -/
def bobSend (s : State) (cluster : Nat) (c : BobCmd) : State × BobStage :=
  match c.stage with
  | .sending out r =>
    let key := (cluster * 16 + bCore c.cmd) * 16 + bAddr c.cmd % 16
    if !sendsNow c out then (s, c.stage)
    else ({ s with cores := { s.cores with inbox := tset s.cores.inbox key (tgetD s.cores.inbox key [] ++ out.take 2) } },
      if out.length ≤ 2 then .delivered r else .sending (out.drop 2) r)
  | t => (s, t)

/-- One step of a command that has been chosen. -/
def stepCmd (s : State) (k cluster : Nat) (c : BobCmd) : State :=
  let x := bobOf s k
  match c.stage with
  | .queued =>
    match firstStep s cluster c with
    | none => markLost s c.ctx 0x01
    | some st => setBob s k { x with cmds := setHead x.cmds c.quad { c with stage := st, steps := 1 } }
  | _ =>
    let (s, st) := bobSend s cluster c
    setBob s k { x with cmds := setHead x.cmds c.quad { c with stage := st, steps := c.steps + 1 } }

/-- The quads whose active command can take a step in the cycle, from the token on; `waits` are those whose commands wait for
read data, a request-table entry or a local-memory port (R328; log 115). -/
def steppers (s : State) (cluster b : Nat) (waits : List (Fin 4)) : List BobCmd :=
  let x := bobOf s (cluster * 2 + b)
  (((List.range 4).map fun j => (x.token + j) % 4).filter fun q => !waits.any fun w => w.val == q).filterMap fun q =>
    (headCmd x q).bind fun c => if canStep s cluster c then some c else none

/-- The other slots that could have taken the step count its CORE cycles under BOBBIN, once each (spec/06 R185). -/
def bobStalls (s : State) (slot cycles : Nat) (others : List BobCmd) : State :=
  (((others.map (·.slot)).filter (· != slot)).eraseDups).foldl
    (fun s n => addStall s n .bobbin { cycles := cycles, served := [(slot, cycles)] }) s

/-- BOBBIN_STEP (R328): the token chooses among the quads whose active command can take a step. `cycles`: the CORE cycles that
end in this NOC cycle (log 115). -/
def bobbinStep (s : State) (cluster b : Nat) (waits : List (Fin 4)) (cycles : Nat) : State :=
  let k := cluster * 2 + b
  match steppers s cluster b waits with
  | [] => s
  | c :: others =>
    match reachDom s (domCluster cluster) 1 with
    | (s, false) => s
    | (s, true) =>
      let s := bobStalls s c.slot cycles others
      let s := setBob (moves s (clusterRef cluster)) k { bobOf s k with token := (c.quad + 1) % 4 }
      stepCmd s k cluster c

/-- The operation of a quad's active command performed after its setup: its reads and deliveries, and the steps that these
take (R356; log 41). -/
def bobbinOp (s : State) (cluster b quad op : Nat) (run : State → Nat → BobCmd → State × Option OpEnd) : State :=
  let k := cluster * 2 + b
  match headCmd (bobOf s k) quad with
  | none => s
  | some c =>
    if c.stage ≠ .active ∨ c.steps < 32 ∨ bOp c.cmd ≠ op then s
    else match run s cluster c with
    | (s, none) => s
    | (s, some (st, n)) => setBob s k { bobOf s k with cmds := setHead (bobOf s k).cmds quad { c with stage := st, need := n } }

/-- BOB_COUNT after a command has completed with a status (R360). -/
def bobCount (x : Bobbins) (op status : Nat) : Bobbins :=
  if status = 3 then { x with bad := satAdd 0xFFFF x.bad 1 }
  else if status = 2 ∧ op = 2 then { x with unsorted := satAdd 0xFFFF x.unsorted 1 } else x

/-- BOBBIN_COMPLETE (R332, R338). -/
def bobbinComplete (s : State) (cluster b quad : Nat) : State :=
  let k := cluster * 2 + b
  match headCmd (bobOf s k) quad with
  | none => s
  | some c =>
    match c.stage with
    | .delivered r =>
      if 0 < stepsLeft c then s
      else if !lmOk (bComp c.cmd) 16 then markLost s c.ctx 0x01
      else
        let s := lmWrite s (c.group / 64) (bComp c.cmd) (toLE 16 r.toNat)
        let s := setBob s k { bobOf s k with cmds := popHead (bobOf s k).cmds quad }
        { s with cores := { s.cores with groups := tmod s.cores.groups c.group bobDown }
                 bob := bobCount s.bob (bOp c.cmd) (bits r 7 0) }
    | _ => s

end Sys2Proof.Machine
end

