-- ==== Sys2Proof/Machine/Raster.lean ====
section
/-! DEFINITION. Tile rendering: RENDER_PASS, Pricking, tiles, the rasterizer, depth and stencil, fragment groups
(spec/12 R361 to R387). -/

namespace Sys2Proof.Machine

/-! ## Parameters of a pass (R364, R365), after their clamps -/

/-- A field of the parameter block. -/
def pn (p : Pass) (hi lo : Nat) : Nat := nbits (leNat p.par) hi lo

/-- The nearest multiple of 128 of 32 bits at or above a bound, ties to the lower (R144; log 46). -/
def mul128 (lo v : Nat) : Nat := max lo (min 0xFFFFFF80 ((v + 63) / 128 * 128))

def pTilesX (p : Pass) : Nat := clamp 1 512 (bits p.pay 137 128)
def pTilesY (p : Pass) : Nat := clamp 1 512 (bits p.pay 153 144)
def pSamples (p : Pass) : Nat := 2 ^ bits p.pay 161 160
def pColours (p : Pass) : Nat := clamp 0 8 (bits p.pay 167 164)
def pTileKib (p : Pass) : Nat := clamp 0 256 (bits p.pay 264 256)
def pSpill (p : Pass) : Nat := bits p.pay 255 192
def pPrims (p : Pass) : Nat := pn p 319 256
def pNprim (p : Pass) : Nat := clamp 0 16777216 (pn p 351 320)
def pNstate (p : Pass) : Nat := clamp 1 65536 (pn p 383 352)
def pStates (p : Pass) : Nat := pn p 447 384
def pFragArg (p : Pass) : Nat := pn p 511 448
def pBinArea (p : Pass) : Nat := pn p 575 512
def pBinBytes (p : Pass) : Nat := mul128 0 (pn p 607 576)
def pSpillBytes (p : Pass) : Nat := mul128 0 (pn p 639 608)
def pWidth (p : Pass) : Nat := clamp 1 (32 * pTilesX p) (pn p 655 640)
def pHeight (p : Pass) : Nat := clamp 1 (32 * pTilesY p) (pn p 671 656)
def pFirst (p : Pass) : Nat := clamp 0 (pTilesX p * pTilesY p - 1) (pn p 703 672)
def pCount (p : Pass) : Nat := clamp 1 (pTilesX p * pTilesY p - pFirst p) (pn p 735 704)
def pRegs (p : Pass) : Nat := clamp 8 255 (pn p 743 736)
def pFragKib (p : Pass) : Nat := clamp 0 64 (pn p 751 744)

/-- Kinds of attachment (R372). -/
inductive AttKind where
  | colour | depth | stencil
  deriving DecidableEq, Repr

/-- Attachments of a pass in order (R365): kind and record number. -/
def pAtts (p : Pass) : List (AttKind × Nat) :=
  ((List.range (pColours p)).map fun _ => AttKind.colour) ++ (if bit p.pay 168 then [AttKind.depth] else []) ++
    (if bit p.pay 169 then [AttKind.stencil] else []) |>.zipIdx

/-- A field of an attachment record. -/
def attField (p : Pass) (k hi lo : Nat) : Nat := nbits (leNat (slice p.par (128 + 64 * k) 64)) hi lo

/-- Bytes per sample of a format (R372), none where the code is undefined. -/
def fmtBytes : AttKind → Nat → Option Nat
  | .colour, 0 | .colour, 1 | .colour, 2 | .colour, 3 | .colour, 4 | .colour, 5 => some 4
  | .colour, 6 | .colour, 7 => some 8
  | .colour, 8 => some 16
  | .colour, 9 => some 1
  | .depth, 0 => some 4
  | .depth, 1 => some 2
  | .stencil, 0 => some 1
  | _, _ => none

/-- Bytes per sample of an attachment. -/
def attBytes (p : Pass) (a : AttKind × Nat) : Nat := (fmtBytes a.1 (attField p a.2 15 12)).getD 0

def attLoad (p : Pass) (k : Nat) : Nat := attField p k 11 10
def attStore (p : Pass) (k : Nat) : Nat := attField p k 9 8
def attTiled (p : Pass) (k : Nat) : Bool := attField p k 7 7 == 1

/-- PITCH and RPITCH after their clamps. -/
def attPitch (p : Pass) (a : AttKind × Nat) : Nat :=
  mul128 (cdiv (pWidth p * pSamples p * attBytes p a) 128 * 128) (attField p a.2 255 224)
def attRpitch (p : Pass) (a : AttKind × Nat) : Nat :=
  mul128 (cdiv (pWidth p * attBytes p a) 128 * 128) (attField p a.2 223 192)

/-- The tile footprint in bytes (R372). -/
def pFootprint (p : Pass) : Nat := 1024 * pSamples p * (pAtts p).foldl (fun n a => n + attBytes p a) 0

/-- TILE_KIB rounded up to a multiple of 4. -/
def pTileMem (p : Pass) : Nat := (pTileKib p + 3) / 4 * 4

/-- Binners of a pass. -/
def pNb (p : Pass) : Nat := p.clusters.length

/-- Bytes of the head area (R369). -/
def pHeads (p : Pass) : Nat := cdiv (8 * pCount p * pNb p) 128 * 128

/-- Parameter blocks that are refused (R145, R365, R366). -/
def passBad (s : State) (p : Pass) : Bool :=
  pBinArea p % 128 != 0 || pStates p % 64 != 0 || pPrims p % 64 != 0 ||
  ((pAtts p).any fun a => (fmtBytes a.1 (attField p a.2 15 12)).isNone || decide (2 ≤ attLoad p a.2) ||
    attStore p a.2 == 3 || attField p a.2 511 448 % 128 != 0 ||
    (attStore p a.2 == 1 && attField p a.2 447 384 % 128 != 0)) ||
  decide (pTileKib p * 1024 < pFootprint p) ||
  decide (512 - 64 * popcount 8 (retainMask s p.slot) < pTileMem p + pFragKib p) ||
  decide (pBinBytes p < pHeads p)

/-! ## Binning (R369 to R371) -/

/-- A pass's unit as it accesses device memory (R387). -/
def rasWho (p : Pass) (u : Site) : Who := { asid := p.ctx, slot := some p.slot, site := u }

/-- Binner `b` of a pass: it issues on behalf of its cluster's lowest-numbered quad of the slot (log 106). -/
def binSite (s : State) (p : Pass) (b : Nat) : Site :=
  let k := p.clusters.getD b 0
  .binner (((slotQuads s p.slot).find? fun q => q / 4 == k).getD (4 * k))

/-- The rasterizer and the tile mover of a tile's core. -/
def tileSite (t : Tile) : Site := .raster (t.core / 4)

/-- A pass replaced. -/
def setPass (s : State) (id : Nat) (p : Pass) : State := { s with ras := { s.ras with passes := tset s.ras.passes id p } }

/-- Address of the head of range tile `t` and binner `b`. -/
def headAt (p : Pass) (t b : Nat) : Nat := pBinArea p + 8 * (t * pNb p + b)

/-- Chunks that fit in the bin area. -/
def areaChunks (p : Pass) : Nat := (pBinBytes p - pHeads p) / 128

/-- Chunks of the pool. -/
def poolChunks (p : Pass) : Nat := areaChunks p + pSpillBytes p / 128

/-- Address of a chunk. -/
def chunkAt (p : Pass) (c : Nat) : Nat :=
  if c < areaChunks p then pBinArea p + pHeads p + 128 * c else pSpill p + 128 * (c - areaChunks p)

/-- An FP32 coordinate in fixed point with 8 fraction bits, by RNE (R367). -/
def fixed8 (w : Nat) : Int :=
  match decodeF ffFp32 w with
  | .num neg m e => toInteger .rne neg m (e + 8)
  | _ => 0

/-- A vertex of a primitive record: x, y in fixed point, z and 1 ÷ w as encodings. -/
structure Vtx where
  x : Int
  y : Int
  z : Nat
  iw : Nat
  deriving DecidableEq, Repr

/-- Vertex `i` of a primitive record (R367). -/
def vtx (r : W512) (i : Nat) : Vtx :=
  { x := fixed8 (bits r (128 * i + 31) (128 * i)), y := fixed8 (bits r (128 * i + 63) (128 * i + 32)),
    z := bits r (128 * i + 95) (128 * i + 64), iw := bits r (128 * i + 127) (128 * i + 96) }

/-- Twice the signed area (R367). -/
def area (r : W512) : Int :=
  let a := vtx r 0
  let b := vtx r 1
  let c := vtx r 2
  (b.x - a.x) * (c.y - a.y) - (c.x - a.x) * (b.y - a.y)

/-- STATE of a primitive. -/
def primState (r : W512) : Nat := bits r 399 384

/-- A primitive that is INVALID, given its state record (R370 test 1). -/
def primInvalid (p : Pass) (r st : W512) : Bool :=
  decide (pNstate p ≤ primState r) || bits st 10 9 == 3 ||
  (List.range 3).any fun i =>
    ((List.range 4).any fun k => isNan (bits r (128 * i + 32 * k + 31) (128 * i + 32 * k)) ||
      isInf (bits r (128 * i + 32 * k + 31) (128 * i + 32 * k))) ||
    decide (codePos (vtx r i).iw ≤ 0) ||
    !(decide (-16384 * 256 ≤ (vtx r i).x) && decide ((vtx r i).x < 32768 * 256)) ||
    !(decide (-16384 * 256 ≤ (vtx r i).y) && decide ((vtx r i).y < 32768 * 256))

/-- A primitive is front-facing under its state (R376). -/
def isFront (r st : W512) : Bool := decide (0 < area r) != bit st 11

/-- A primitive that its state culls (R370 test 3). -/
def primCulled (r st : W512) : Bool := (bits st 10 9 == 1 && !isFront r st) || (bits st 10 9 == 2 && isFront r st)

/-- Bounds of the converted vertices. -/
def boundsOf (r : W512) : Int × Int × Int × Int :=
  let a := vtx r 0
  let b := vtx r 1
  let c := vtx r 2
  (min a.x (min b.x c.x), max a.x (max b.x c.x), min a.y (min b.y c.y), max a.y (max b.y c.y))

/-- The bounding box of a primitive meets a rectangle of pixels (R370, R380). -/
def meets (r : W512) (x0 y0 w h : Nat) : Bool :=
  let (xa, xb, ya, yb) := boundsOf r
  decide (xa < 256 * ((x0 : Int) + w)) && decide (256 * (x0 : Int) < xb) &&
  decide (ya < 256 * ((y0 : Int) + h)) && decide (256 * (y0 : Int) < yb)

/-- The bounding box of a primitive meets a tile. -/
def meetsTile (p : Pass) (r : W512) (ord : Nat) : Bool :=
  meets r (32 * (tileXY p ord).1) (32 * (tileXY p ord).2) 32 32

/-- The verdict of R370 on a primitive. -/
inductive Verdict where
  | keep | invalid | degenerate | culled
  deriving DecidableEq, Repr

def primVerdict (p : Pass) (r st : W512) : Verdict :=
  if primInvalid p r st then .invalid else if area r = 0 then .degenerate else if primCulled r st then .culled else .keep

/-- A discard counted in PRK_COUNT. -/
def countVerdict (s : State) : Verdict → State
  | .keep => s
  | .invalid => { s with ras := { s.ras with invalid := satAdd 0xFFFF s.ras.invalid 1 } }
  | .degenerate => { s with ras := { s.ras with degenerate := satAdd 0xFFFF s.ras.degenerate 1 } }
  | .culled => { s with ras := { s.ras with culled := satAdd 0xFFFF s.ras.culled 1 } }

/-- A primitive record and its state record, read from memory; a state index beyond NSTATE is not read. -/
def readPrim (s : State) (p : Pass) (u : Site) (i : Nat) : State × Option (W512 × W512) :=
  match vnat s (rasWho p u) (pPrims p + 64 * i) 64 with
  | (s, none) => (s, none)
  | (s, some r) =>
    let r : W512 := BitVec.ofNat 512 r
    if pNstate p ≤ primState r then (s, some (r, 0))
    else match vnat s (rasWho p u) (pStates p + 64 * primState r) 64 with
    | (s, none) => (s, none)
    | (s, some st) => (s, some (r, BitVec.ofNat 512 st))

/-- One entry appended to a list of a binner: the writes it makes, or none when no chunk is left (R369, R371). -/
def appendEntry (p : Pass) (b i t : Nat) (l : Nat × Nat × Nat) : Option (Pass × (Nat × Nat × Nat) × List (Nat × List Byte)) :=
  let head := fun (f n : Nat) => (headAt p t b, toLE 4 f ++ toLE 4 n)
  if l.2.1 % 30 ≠ 0 then
    some (p, (l.1, l.2.1 + 1, l.2.2), [(chunkAt p l.2.2 + 4 * (l.2.1 % 30), toLE 4 i), head l.1 (l.2.1 + 1)])
  else if poolChunks p ≤ p.nextChunk then none
  else
    let c := p.nextChunk
    let first := if l.2.1 = 0 then c else l.1
    some ({ p with nextChunk := c + 1 }, (first, l.2.1 + 1, c),
      [(chunkAt p c, toLE 4 i ++ List.replicate 116 0 ++ toLE 4 0xFFFFFFFF ++ toLE 4 0)] ++
      (if l.2.1 = 0 then [] else [(chunkAt p l.2.2 + 120, toLE 4 c)]) ++ [head first (l.2.1 + 1)])

/-- Entries of a kept primitive appended to the lists of the range tiles it meets, in ascending order; `some` last part
when the binner has failed. -/
def appendAll (b i : Nat) : List Nat → Pass → Binner → List (Nat × List Byte) → Pass × Binner × List (Nat × List Byte)
  | [], p, x, w => (p, x, w)
  | t :: ts, p, x, w =>
    match appendEntry p b i t (tgetD x.lists t (0xFFFFFFFF, 0, 0)) with
    | none => (p, { x with failed := some i }, w)
    | some (p, l, v) => appendAll b i ts p { x with lists := tset x.lists t l } (w ++ v)

/-- The index after `i` that a binner takes (R370). -/
def nextPrimOf (p : Pass) (i : Nat) : Nat := if (i + 1) % 1024 = 0 then i + 1 + 1024 * (pNb p - 1) else i + 1

/-- The overflow index P of a pass (R371). -/
def pOverflow (p : Pass) : Nat := p.binners.foldl (fun m b => match b.failed with
  | some i => min m i
  | none => m) (pNprim p)

/-- A binner that has failed or handled every primitive of its own below P. -/
def binnerDone (p : Pass) (b : Binner) : Bool := b.failed.isSome || decide (pOverflow p ≤ b.next)

/-- Binning ends once every binner is done: the tile phase begins, and an overflow is counted once (R362, R371). -/
def binningEnd (s : State) (id : Nat) : State :=
  match tget s.ras.passes id with
  | none => s
  | some p =>
    if p.stage ≠ .binning ∨ !(p.binners.all (binnerDone p)) then s
    else
      let s := if p.binners.any fun b => b.failed.isSome then
          { s with ras := { s.ras with overflow := satAdd 0xFFFF s.ras.overflow 1 } } else s
      setPass s id { p with stage := .tiles, overflow := pOverflow p }

/-- RENDER_PASS starts: its parameter block is read and checked, every list is made empty, and binning begins
(R361, R362). -/
def startPass (s : State) (q : Nat) (i : W32) (node : Option Nat) : State :=
  match beginWork s q i node 0x20 with
  | (s, .no) => s
  | (s, .go x w be) =>
    match queueSlot s q x with
    | none => s
    | some n =>
      let cores := eligibleCores s n (x.rt && !be)
      if cores.isEmpty then s
      else
        let atts := clamp 0 8 (bits w 167 164) + bits w 168 168 + bits w 169 169
        match vread s (feWho s q x) (bits w 127 64) (128 + 64 * atts) with
        | (s, none) => s
        | (s, some par) =>
          let cl := (List.range 16).filter fun k => cores.any fun c => c / 16 == k
          let p : Pass := { q := q, i := i, node := node, slot := n, ctx := x.ctx, rt := x.rt && !be, pay := w, par := par,
                            clusters := cl, stage := .binning,
                            binners := (List.range cl.length).map fun b => { next := 1024 * b, failed := none, lists := [] },
                            nextChunk := 0, overflow := 0, nextTile := 0, stored := 0, tiles := [] }
          if passBad s p then endWork s q i node 0x11
          else
            let heads := ((List.range (pCount p * pNb p)).flatMap fun _ => toLE 4 0xFFFFFFFF ++ toLE 4 0)
            match vwrite s (rasWho p (binSite s p 0)) (pBinArea p) heads with
            | (s, false) => s
            | (s, true) =>
              let id := s.cores.nextId
              let s := { markStarted s q i node with cores := { s.cores with nextId := id + 1 } }
              binningEnd (setPass s id p) id

/-- A binner that has a primitive to take: its pass, and it. -/
def binReady (s : State) (id b : Nat) : Option (Pass × Binner) :=
  match tget s.ras.passes id with
  | none => none
  | some p =>
    match p.binners[b]? with
    | none => none
    | some x => if p.stage ≠ .binning ∨ binnerDone p x then none else some (p, x)

/-- PRIMITIVE_BIN (R370, R371). -/
def primitiveBin (s : State) (id b : Nat) (stall : Stall) : State :=
  match binReady s id b with
  | none => s
  | some (p, x) =>
      match reachDom s (domCluster (p.clusters.getD b 0)) 1 with
      | (s, false) => s
      | (s, true) =>
        let s := addStall s p.slot .pricking stall
        match readPrim s p (binSite s p b) x.next with
        | (s, none) => s
        | (s, some (r, st)) =>
          let v := primVerdict p r st
          let tiles := if v = .keep then (List.range (pCount p)).filter fun t => meetsTile p r (pFirst p + t) else []
          let (p', y, writes) := appendAll b x.next tiles p { x with next := nextPrimOf p x.next } []
          match vwriteAll s (rasWho p (binSite s p b)) writes with
          | (s, false) => s
          | (s, true) =>
            let s := moves (countVerdict s v) (clusterRef (p.clusters.getD b 0))
            binningEnd (setPass s id { p' with binners := p'.binners.set b y }) id

/-! ## Tiles (R372 to R374) -/

/-- A core may take the next tile of a pass (R373). -/
def tileRoom (s : State) (p : Pass) (core : Nat) : Bool :=
  let here := p.tiles.filter fun t => t.core == core
  decide (here.length < 2) && !(here.any fun t => t.stage = .shading) && (lmFind s p.slot core (pTileMem p)).isSome

/-- TILE_PLACE. -/
def tilePlace (s : State) (id : Nat) : State :=
  match tget s.ras.passes id with
  | none => s
  | some p =>
    if p.stage ≠ .tiles ∨ pCount p ≤ p.nextTile ∨ !mayStart s then s
    else match (eligibleCores s p.slot p.rt).find? (tileRoom s p) with
    | none => s
    | some core =>
      match reachDom s (domQuad (core / 4)) 2 with
      | (s, false) => s
      | (s, true) =>
        let base := (lmFind s p.slot core (pTileMem p)).getD 0
        let t : Tile := { ord := pFirst p + p.nextTile, core := core, lmBase := base, stage := .loading, list := none,
                          nextPrim := 0, nextBlk := 0, waiting := [], running := [] }
        let s := { s with cores := { s.cores with
          lmUse := s.cores.lmUse ++ [{ core := core, base := base, kib := pTileMem p, tile := true, owner := id }] } }
        setPass s id { p with nextTile := p.nextTile + 1, tiles := p.tiles ++ [t] }

/-- Byte offset of an attachment's plane in tile memory. -/
def planeOff (p : Pass) (k : Nat) : Nat :=
  ((pAtts p).filter fun a => decide (a.2 < k)).foldl (fun n a => n + 1024 * pSamples p * attBytes p a) 0

/-- Byte of sample `sm` of tile pixel (x, y) in the plane of an attachment. -/
def sampleOff (p : Pass) (a : AttKind × Nat) (x y sm : Nat) : Nat :=
  planeOff p a.2 + ((32 * y + x) * pSamples p + sm) * attBytes p a

/-- Pixels of row `y` of a tile that lie in the target. -/
def rowWidth (p : Pass) (ord y : Nat) : Nat :=
  let (tx, ty) := tileXY p ord
  if pHeight p ≤ 32 * ty + y then 0 else min 32 (pWidth p - 32 * tx)

/-- The rows of a tile in a linear or tiled surface: address, bytes, and offset in the plane. -/
def surfRows (p : Pass) (a : AttKind × Nat) (ord base pitch sm : Nat) : List (Nat × Nat × Nat) :=
  let (tx, ty) := tileXY p ord
  let b := attBytes p a * sm
  if attTiled p a.2 then [(base + (ty * pTilesX p + tx) * 1024 * b, 1024 * b, 0)]
  else (List.range 32).filterMap fun y =>
    if rowWidth p ord y = 0 then none
    else some (base + (32 * ty + y) * pitch + 32 * tx * b, rowWidth p ord y * b, 32 * y * b)

/-- One plane of a tile loaded (R374): every sample cleared, then the tile's samples read where LOAD asks. -/
def loadPlane (p : Pass) (t : Tile) (s : State) (a : AttKind × Nat) : State × Bool :=
  let n := 1024 * pSamples p
  let b := attBytes p a
  let clear := toLE b (attField p a.2 383 256)
  let plane := (List.range n).flatMap fun _ => clear
  if attLoad p a.2 = 0 then (lmWrite s t.core (t.lmBase * 1024 + planeOff p a.2) plane, true)
  else
    let rows := surfRows p a t.ord (attField p a.2 511 448) (attPitch p a) (pSamples p)
    let r := rows.foldl (fun (r : State × Option (List Byte)) row =>
      match r with
      | (s, none) => (s, none)
      | (s, some l) => match vread s (rasWho p (tileSite t)) row.1 row.2.1 with
        | (s, none) => (s, none)
        | (s, some x) => (s, some (overlay l row.2.2 x))) (s, some plane)
    match r with
    | (s, none) => (s, false)
    | (s, some l) => (lmWrite s t.core (t.lmBase * 1024 + planeOff p a.2) l, true)

/-- A tile of a pass. -/
def tileOf (p : Pass) (ord : Nat) : Option Tile := p.tiles.find? fun t => t.ord = ord

/-- A tile replaced. -/
def putTile (p : Pass) (t : Tile) : Pass := { p with tiles := p.tiles.map fun u => if u.ord = t.ord then t else u }

/-- TILE_LOAD_DONE: every plane is loaded, and shading begins once no other tile of the pass is shaded on the core. -/
def tileLoadDone (s : State) (id ord : Nat) : State :=
  match tget s.ras.passes id with
  | none => s
  | some p =>
    match tileOf p ord with
    | none => s
    | some t =>
      if t.stage ≠ .loading ∨ p.tiles.any fun u => u.core == t.core && u.stage = .shading then s
      else match (pAtts p).foldl (fun (r : State × Bool) a => if r.2 then loadPlane p t r.1 a else r) (s, true) with
      | (s, false) => s
      | (s, true) => setPass (moves s (quadRef (t.core / 4))) id (putTile p { t with stage := .shading })

/-! ## Samples (R376, R377) -/

/-- Sample positions in sixteenths of a pixel. -/
def samplePos (n k : Nat) : Int × Int :=
  let t : List (Int × Int) :=
    if n = 1 then [(8, 8)]
    else if n = 2 then [(4, 4), (12, 12)]
    else if n = 4 then [(6, 2), (14, 6), (2, 10), (10, 14)]
    else [(9, 5), (7, 11), (13, 9), (5, 3), (3, 13), (1, 7), (11, 15), (15, 1)]
  t.getD k (8, 8)

/-- The edge function of a→b at a point, all in 1 ÷ 256 pixel. -/
def edgeFn (a b : Vtx) (px py : Int) : Int := (b.x - a.x) * (py - a.y) - (b.y - a.y) * (px - a.x)

/-- A point is on the covered side of an edge. -/
def edgeIn (a b : Vtx) (px py : Int) : Bool :=
  let e := edgeFn a b px py
  decide (0 < e) || (e == 0 && (decide (b.y - a.y < 0) || (b.y == a.y && decide (0 < b.x - a.x))))

/-- A point is inside a triangle under the edge rule. -/
def inTri (r : W512) (px py : Int) : Bool :=
  let v := vtx r
  if 0 < area r then edgeIn (v 0) (v 1) px py && edgeIn (v 1) (v 2) px py && edgeIn (v 2) (v 0) px py
  else edgeIn (v 0) (v 2) px py && edgeIn (v 2) (v 1) px py && edgeIn (v 1) (v 0) px py

/-- The weights b0·A, b1·A, b2·A of a point. -/
def weights (r : W512) (px py : Int) : Int × Int × Int :=
  let v := vtx r
  let e1 := edgeFn (v 2) (v 0) px py
  let e2 := edgeFn (v 0) (v 1) px py
  (area r - e1 - e2, e1, e2)

/-- Z at a point, rounded to FP32 (R377). -/
def zAt (r : W512) (px py : Int) : Nat :=
  let (w0, w1, w2) := weights r px py
  let z := fun i => fpInt (vtx r i).z
  ratFp .near (w0 * z 0 + w1 * z 1 + w2 * z 2) (area r * 2 ^ 149)

/-- Coordinates of a sample of a pixel in 1 ÷ 256 pixel. -/
def samplePt (x y n k : Nat) : Int × Int := (256 * (x : Int) + 16 * (samplePos n k).1, 256 * (y : Int) + 16 * (samplePos n k).2)

/-- Scissor coordinates after their clamps (R368). -/
def inScissor (p : Pass) (st : W512) (x y : Nat) : Bool :=
  decide (min (bits st 399 384) (pWidth p) ≤ x) && decide (x < min (bits st 431 416) (pWidth p)) &&
  decide (min (bits st 415 400) (pHeight p) ≤ y) && decide (y < min (bits st 447 432) (pHeight p))

/-- Z of a sample as the tests use it: clamped to [0, 1] with DCLIP = 0 (R377). -/
def sampleZ (r st : W512) (pt : Int × Int) : Nat :=
  let z := zAt r pt.1 pt.2
  if bit st 6 then z else if codePos z < 0 then 0 else if 0x3F800000 < codePos z then 0x3F800000 else z

/-- A sample is covered (R376). -/
def covered (p : Pass) (r st : W512) (x y k : Nat) : Bool :=
  let pt := samplePt x y (pSamples p) k
  decide (x < pWidth p) && decide (y < pHeight p) && inScissor p st x y && (bits st 23 16).testBit k &&
  inTri r pt.1 pt.2 && !isNan (zAt r pt.1 pt.2) &&
  (!bit st 6 || (decide (0 ≤ codePos (zAt r pt.1 pt.2)) && decide (codePos (zAt r pt.1 pt.2) ≤ 0x3F800000)))

/-- Pixel `i` (row by row, 8 columns) of block `k` of a tile. -/
def blockPixel (p : Pass) (ord k i : Nat) : Nat × Nat :=
  let (tx, ty) := tileXY p ord
  (32 * tx + 8 * (k % 4) + i % 8, 32 * ty + 4 * (k / 4) + i / 8)

/-- The covered samples of each pixel of a block. -/
def blockCover (p : Pass) (r st : W512) (ord k : Nat) : List Nat :=
  (List.range 32).map fun i =>
    let (x, y) := blockPixel p ord k i
    (List.range (pSamples p)).foldl (fun m j => if covered p r st x y j then m + 2 ^ j else m) 0

/-- A block meets a primitive's bounding box (R380). -/
def meetsBlock (p : Pass) (r : W512) (ord k : Nat) : Bool :=
  let (x, y) := blockPixel p ord k 0
  meets r x y 8 4

/-! ## Depth and stencil (R378, R379) -/

/-- A test by its function code, from the comparisons left < right and left = right. -/
def testFn (f : Nat) (lt eq : Bool) (ordered : Bool) : Bool :=
  match f with
  | 0 => false
  | 1 => lt
  | 2 => eq
  | 3 => lt || eq
  | 4 => ordered && !lt && !eq
  | 5 => !eq
  | 6 => ordered && !lt
  | _ => true

/-- Z as a D16 integer (R378). -/
def zInt16 (z : Nat) : Nat := roundShift .rne ((fpInt z).natAbs * 65535) 149

/-- The depth test of a sample against the stored bytes, by format. -/
def depthTest (d16 : Bool) (f z stored : Nat) : Bool :=
  if d16 then testFn f (decide (zInt16 z < stored)) (zInt16 z == stored) true
  else
    let a := decodeF ffFp32 z
    let b := decodeF ffFp32 stored
    testFn f (ltV a b) (eqV a b) (!isNan z && !isNan stored)

/-- A stencil operation with its write mask. -/
def stencilOp (face stored op : Nat) : Nat :=
  let v := match op with
    | 0 => stored
    | 1 => 0
    | 2 => nbits face 23 16
    | 3 => min 255 (stored + 1)
    | 4 => stored - 1
    | 5 => 255 - stored
    | 6 => (stored + 1) % 256
    | _ => (stored + 255) % 256
  let m := nbits face 39 32
  (stored &&& (255 - m)) ||| (v &&& m)

/-- The plane of a kind of attachment. -/
def attOf (p : Pass) (k : AttKind) : Option (AttKind × Nat) := (pAtts p).find? fun a => a.1 = k

/-- The early tests and writes of one sample on the tile's planes (R379): the state after, and whether it passed. -/
def earlySample (s : State) (p : Pass) (t : Tile) (r st : W512) (x y k : Nat) : State × Bool :=
  let z := sampleZ r st (samplePt x y (pSamples p) k)
  let face := if isFront r st then bits st 319 256 else bits st 383 320
  let at' := fun a => t.lmBase * 1024 + sampleOff p a (x % 32) (y % 32) k
  let sten := attOf p .stencil
  let dep := attOf p .depth
  let d16 := match dep with
    | some a => attField p a.2 15 12 == 1
    | none => false
  let sPass := match sten with
    | none => true
    | some a =>
      let v := leNat (lmRead s t.core (at' a) 1) &&& nbits face 31 24
      let ref := nbits face 23 16 &&& nbits face 31 24
      !bit st 7 || testFn (nbits face 2 0) (decide (ref < v)) (ref == v) true
  let dPass := match dep with
    | some a => !bit st 4 || depthTest d16 (bits st 2 0) z (leNat (lmRead s t.core (at' a) (attBytes p a)))
    | none => true
  let s := match sten with
    | none => s
    | some a =>
      let op := if !sPass then nbits face 5 3 else if !dPass then nbits face 8 6 else nbits face 11 9
      lmWrite s t.core (at' a) (toLE 1 (stencilOp face (leNat (lmRead s t.core (at' a) 1)) op))
  let s := match dep with
    | some a => if sPass && dPass && bit st 5 then
        lmWrite s t.core (at' a) (toLE (attBytes p a) (if d16 then zInt16 z else z)) else s
    | none => s
  (s, sPass && dPass)

/-- The early tests of a block: coverage after them (R379). -/
def earlyTests (s : State) (p : Pass) (t : Tile) (r st : W512) (k : Nat) (cover : List Nat) : State × List Nat :=
  if bit st 8 then (s, cover)
  else
    cover.zipIdx.foldl (fun (acc : State × List Nat) e =>
      let (x, y) := blockPixel p t.ord k e.2
      let (s, m) := (bitList (pSamples p) e.1).foldl (fun (a : State × Nat) j =>
        let (s, ok) := earlySample a.1 p t r st x y j
        (s, if ok then a.2 + 2 ^ j else a.2)) (acc.1, 0)
      (s, acc.2 ++ [m])) (s, [])

/-! ## Batches (R380) -/

/-- Entries of a chunk list from memory (R369). -/
def readChain (s : State) (p : Pass) (u : Site) : Nat → Nat → Nat → State × Option (List Nat)
  | 0, _, _ => (s, some [])
  | fuel + 1, c, n =>
    if n = 0 then (s, some [])
    else match vread s (rasWho p u) (chunkAt p c) 128 with
    | (s, none) => (s, none)
    | (s, some b) =>
      let here := (List.range (min 30 n)).map fun k => leNat (slice b (4 * k) 4)
      match readChain s p u fuel (leNat (slice b 120 4)) (n - min 30 n) with
      | (s, none) => (s, none)
      | (s, some l) => (s, some (here ++ l))

/-- The list of a range tile: the entries below P of every binner merged, then every primitive from P (R371). -/
def readTileList (s : State) (p : Pass) (u : Site) (ord : Nat) : State × Option (List Nat) :=
  let t := ord - pFirst p
  let r := (List.range (pNb p)).foldl (fun (r : State × Option (List Nat)) b =>
    match r with
    | (s, none) => (s, none)
    | (s, some l) =>
      match vread s (rasWho p u) (headAt p t b) 8 with
      | (s, none) => (s, none)
      | (s, some h) =>
        let n := leNat (slice h 4 4)
        match readChain s p u (n / 30 + 1) (leNat (slice h 0 4)) n with
        | (s, none) => (s, none)
        | (s, some m) => (s, some (l ++ m.filter fun i => decide (i < p.overflow)))) (s, some [])
  match r with
  | (s, none) => (s, none)
  | (s, some l) => (s, some (ascending l ++ (List.range (pNprim p - p.overflow)).map (p.overflow + ·)))

/-- The next batch of a tile, from its place in the list; the tile remembers how far the rasterizer has come. None at
the end of the list, or where a read stalls (the Bool says which). -/
def nextBatch (id : Nat) : Nat → State → Pass → Tile → List Nat → State × Tile × Option Batch × Bool
  | 0, s, _, t, _ => (s, t, none, true)
  | fuel + 1, s, p, t, l =>
    match l[t.nextPrim]? with
    | none => (s, t, none, true)
    | some i =>
      match readPrim s p (tileSite t) i with
      | (s, none) => (s, t, none, false)
      | (s, some (r, st)) =>
        let v := if p.overflow ≤ i then primVerdict p r st else .keep
        let skip := v ≠ .keep || (decide (p.overflow ≤ i) && !meetsTile p r t.ord) || area r == 0
        let blk := if skip then none else ((List.range 32).filter fun k => decide (t.nextBlk ≤ k)).find? fun k =>
          meetsBlock p r t.ord k && (blockCover p r st t.ord k).any (· != 0)
        match blk with
        | none =>
          let s := if t.nextBlk = 0 ∧ p.overflow ≤ i then countVerdict s v else s
          nextBatch id fuel s p { t with nextPrim := t.nextPrim + 1, nextBlk := 0 } l
        | some k =>
          (s, { t with nextBlk := k + 1 },
            some { prim := i, blk := k, rec' := r, st := st, cover := blockCover p r st t.ord k, started := false }, true)

/-- Rasterization and groups of a tile are at their end: its store begins (R374). -/
def settleTile (t : Tile) : Tile :=
  match t.list with
  | some l =>
    if t.stage = .shading ∧ l.length ≤ t.nextPrim ∧ t.waiting.isEmpty ∧ t.running.isEmpty then { t with stage := .storing }
    else t
  | none => t

/-- A batch dispatched: its early tests, and a group to start if anything is left to shade (R379, R380). -/
def dispatch (s : State) (id : Nat) (p : Pass) (t : Tile) (b : Batch) : State :=
  let (s, cover) := earlyTests s p t b.rec' b.st b.blk b.cover
  let runs := cover.any (· != 0) && bits b.st 511 448 != 0
  let t := if runs then { t with running := t.running ++ [{ b with cover := cover }] } else t
  setPass s id (putTile p (settleTile t))

/-- A block of a tile has no batch that waits or runs among some batches. -/
def blkFree (l : List Batch) (k : Nat) : Bool := !(l.any fun b => b.blk == k)

/-- The first waiting batch that may be dispatched, with those before and after it. -/
def readyBatch (running : List Batch) : List Batch → List Batch → Option (Batch × List Batch)
  | _, [] => none
  | before, b :: t =>
    if blkFree (running ++ before) b.blk then some (b, before ++ t) else readyBatch running (before ++ [b]) t

/-- The tile of a pass that is shaded. -/
def shadedTile (s : State) (id ord : Nat) : Option (Pass × Tile) :=
  match tget s.ras.passes id with
  | none => none
  | some p =>
    match tileOf p ord with
    | none => none
    | some t => if t.stage ≠ .shading then none else some (p, t)

/-- BATCH_DISPATCH (R380): a waiting batch, else the next one of the list, which waits while an earlier batch of its
block does. -/
def batchDispatch (s : State) (id ord : Nat) (stall : Stall) : State :=
  match shadedTile s id ord with
  | none => s
  | some (p, t) =>
      match reachDom s (domCluster (t.core / 16)) 1 with
      | (s, false) => s
      | (s, true) =>
        let s := moves (addStall s p.slot .raster stall) (clusterRef (t.core / 16))
        match readyBatch t.running [] t.waiting with
        | some (b, rest) => dispatch s id p { t with waiting := rest } b
        | none =>
          if 16 ≤ t.waiting.length then s
          else
            let (s, got) := match t.list with
              | some l => (s, some l)
              | none => readTileList s p (tileSite t) ord
            match got with
            | none => s
            | some l =>
              let (s, t, b, ended) := nextBatch id (l.length + 1) s p { t with list := some l } l
              match b with
              | none => if ended then setPass s id (putTile p (settleTile t)) else
                  match tget s.ras.passes id with
                  | none => s
                  | some p => setPass s id (putTile p t)
              | some b =>
                if blkFree (t.running ++ t.waiting) b.blk then dispatch s id p t b
                else setPass s id (putTile p { t with waiting := t.waiting ++ [b] })

/-! ## Fragment groups (R381, R382) -/

/-- Pixel of a lane within its block: column and row. -/
def lanePixel (i : Nat) : Nat × Nat := (2 * (i / 4 % 4) + i % 2, 2 * (i / 16) + i % 4 / 2)

/-- Coverage of a lane's pixel. -/
def laneCover (b : Batch) (i : Nat) : Nat := b.cover.getD (8 * (lanePixel i).2 + (lanePixel i).1) 0

/-- Lanes whose 2 × 2 quad covers no sample. -/
def deadLanes (b : Batch) : W32 :=
  (List.range 32).foldl (fun m i =>
    if (List.range 4).all fun k => laneCover b (4 * (i / 4) + k) == 0 then m ||| BitVec.ofNat 32 (2 ^ i) else m) 0

/-- A perspective weight at a pixel centre (R377); where the weights sum to zero no value is stated, and it is free
(log 47). -/
def lambda (base i : Nat) (r : W512) (px py : Int) : Nat :=
  let (w0, w1, w2) := weights r px py
  let iw := fun k => fpInt (vtx r k).iw
  let sum := w0 * iw 0 + w1 * iw 1 + w2 * iw 2
  if sum = 0 then bits (Config.freeValue (base + i)) 31 0
  else ratFp .near ((if i = 1 then w1 else w2) * iw i) sum

/-- Slope of Z along one axis (R381): per pixel. -/
def zSlope (r : W512) (dx : Bool) : Nat :=
  let v := vtx r
  let d := fun (a b : Vtx) => if dx then -(b.y - a.y) else b.x - a.x
  let e1 := d (v 2) (v 0)
  let e2 := d (v 0) (v 1)
  let z := fun i => fpInt (v i).z
  ratFp .near (256 * ((-e1 - e2) * z 0 + e1 * z 1 + e2 * z 2)) (area r * 2 ^ 149)

/-- Registers v0 to v7 of a lane at the start of a fragment group. -/
def fragRegs (base : Nat) (p : Pass) (ord : Nat) (b : Batch) (i : Nat) : List Nat :=
  let (bx, byy) := lanePixel i
  let x := 8 * (b.blk % 4) + bx
  let y := 4 * (b.blk / 4) + byy
  let (tx, ty) := tileXY p ord
  let px := 256 * ((32 * tx + x : Nat) : Int) + 128
  let py := 256 * ((32 * ty + y : Nat) : Int) + 128
  let c := laneCover b i
  [c * 2 ^ 24 + (if isFront b.rec' b.st then 2 ^ 17 else 0) + (if c = 0 then 2 ^ 16 else 0) + y * 256 + x, b.prim,
   lambda (base + 4 * i) 1 b.rec' px py, lambda (base + 4 * i) 2 b.rec' px py, zAt b.rec' px py,
   zSlope b.rec' true, zSlope b.rec' false, primState b.rec']

/-- The group of a batch. -/
def fragGroup (base block nregs : Nat) (p : Pass) (ord : Nat) (b : Batch) (entry : W64) : Group :=
  let g := newGroup block 0 nregs entry
  let g := (List.range 32).foldl (fun g i =>
    (fragRegs base p ord b i).zipIdx.foldl (fun g e => wr g i e.2 (BitVec.ofNat 32 e.1)) g) g
  { g with exited := deadLanes b, subs := g.subs.map fun u => { u with mask := u.mask &&& ~~~deadLanes b } }

/-- FRAGMENT_GROUP_START: the group of a running batch starts when its core has room for registers, slot and scratch. -/
def fragStart (s : State) (id ord blk : Nat) : State :=
  match tget s.ras.passes id with
  | none => s
  | some p =>
    match tileOf p ord with
    | none => s
    | some t =>
      match t.running.find? fun b => b.blk = blk && !b.started with
      | none => s
      | some b =>
        let core := t.core
        match lmFind s p.slot core (pFragKib p) with
        | none => s
        | some base =>
          if coreRoom s core (pRegs p) = 0 then s
          else
            let bid := s.cores.nextId
            let entry : W64 := BitVec.ofNat 64 (bits b.st 511 448)
            let x : Block := { run := id, core := core, cluster := bid, rank := 0, csize := 1, bx := 0, byy := 0, bz := 0,
                               erank := rankOf (eligibleCores s p.slot p.rt) core, lmBase := base, lmKib := pFragKib p,
                               ngroups := 1, nregs := pRegs p, arg := BitVec.ofNat 64 (pFragArg p), entry := entry,
                               frag := some (id, ord, blk) }
            let g := fragGroup s.free bid (pRegs p) p ord b entry
            let s := drewN { s with cores := { s.cores with
              blocks := tset s.cores.blocks bid x, nextId := bid + 1
              lmUse := s.cores.lmUse ++ [{ core := core, base := base, kib := pFragKib p, tile := false, owner := bid }] } } 128
            let s := putGroup s core (pRegs p) g
            setPass s id (putTile p { t with running := t.running.map fun c =>
              if c.blk = blk ∧ !c.started then { c with started := true } else c })

/-- The end of a fragment group's block ends its batch (R380). -/
def endFrag (s : State) (b : Nat) (f : Nat × Nat × Nat) : State :=
  if !blockDone s b then s
  else
    let s := dropBlocks s fun k _ => k == b
    match tget s.ras.passes f.1 with
    | none => s
    | some p =>
      match tileOf p f.2.1 with
      | none => s
      | some t =>
        setPass s f.1 (putTile p (settleTile { t with running := t.running.filter fun c => !(c.blk == f.2.2 && c.started) }))

/-! ## Stores and RESOLVE (R374, R375) -/

/-- The FP32 code whose fifth power is nearest to (n ÷ d)^12, to nearest even: the power 2.4 of n ÷ d in (0, 1). -/
def pow24 (n d : Nat) : Nat :=
  -- m × 2^(-149) ≤ (n/d)^(12/5)  iff  m^5 d^12 ≤ n^12 (2^149)^5
  let le := fun m => decide (m ^ 5 * d ^ 12 ≤ n ^ 12 * (2 ^ 149) ^ 5)
  let c := searchCode (fun c => le (codeInt c)) 30 0
  let mid := codeInt c + codeInt (c + 1)
  let up := decide (mid ^ 5 * d ^ 12 < n ^ 12 * (2 ^ 150) ^ 5) || (decide (mid ^ 5 * d ^ 12 = n ^ 12 * (2 ^ 150) ^ 5) && c % 2 == 1)
  if up then c + 1 else c

/-- The IEC 61966-2-1 transfer function at c ÷ 255, rounded to FP32 by RNE (R375). -/
def srgbDecode (c : Nat) : Nat :=
  if c * 100000 ≤ 4045 * 255 then ratFp .near (c * 100) (255 * 1292)
  else if c = 255 then 0x3F800000
  -- (c/255 + 0.055) / 1.055 = (1000 c + 14025) / 269025
  else pow24 (1000 * c + 14025) 269025

/-- The sRGB code whose value is nearest to an FP32 value, ties to the lower (R375). -/
def srgbEncode (v : Nat) : Nat :=
  (List.range 256).foldl (fun m c =>
    if (fpInt (srgbDecode c) - fpInt v).natAbs < (fpInt (srgbDecode m) - fpInt v).natAbs then c else m) 0

/-- Kinds of channel for RESOLVE. -/
inductive Chan where
  | unorm | srgb | half | single
  deriving DecidableEq, Repr

/-- Channels of a colour format from the low bits up: bits and kind (R372). -/
def channels : Nat → List (Nat × Chan)
  | 1 => [(8, .srgb), (8, .srgb), (8, .srgb), (8, .unorm)]
  | 3 => [(10, .unorm), (10, .unorm), (10, .unorm), (2, .unorm)]
  | 4 => [(16, .half), (16, .half)]
  | 5 => [(32, .single)]
  | 6 => [(16, .half), (16, .half), (16, .half), (16, .half)]
  | 7 => [(32, .single), (32, .single)]
  | 8 => [(32, .single), (32, .single), (32, .single), (32, .single)]
  | 9 => [(8, .unorm)]
  | _ => [(8, .unorm), (8, .unorm), (8, .unorm), (8, .unorm)]

/-- FP32 values summed in order and multiplied by 1 ÷ S (R375). -/
def meanFp (l : List Nat) : Nat :=
  let sum := match l with
    | [] => 0
    | a :: t => t.foldl (fun x y => fpOp ffFp32 .add x y 0) a
  fpOp ffFp32 .mul sum (encodeF ffFp32 .rne (.num false 1 (-(Nat.log2 l.length : Int)))) 0

/-- One channel of the samples of a pixel reduced. -/
def reduceChan (k : Chan) (l : List Nat) : Nat :=
  match k with
  | .unorm => (l.foldl (· + ·) 0 + l.length / 2) / l.length
  | .srgb => srgbEncode (meanFp (l.map srgbDecode))
  | .half => encodeF ffFp16 .rne (decodeF ffFp32 (meanFp (l.map fun w => encodeF ffFp32 .rne (decodeF ffFp16 w))))
  | .single => meanFp l

/-- The samples of a pixel reduced to one value (R375). -/
def resolvePixel (a : AttKind) (fmt : Nat) (l : List Nat) : Nat :=
  match a with
  | .colour =>
    ((channels fmt).foldl (fun (r : Nat × Nat) c =>
      (r.1 + c.1, r.2 + reduceChan c.2 (l.map fun v => nbits v (r.1 + c.1 - 1) r.1) * 2 ^ r.1)) (0, 0)).2
  | _ => l.headD 0

/-- The single-sample plane of an attachment. -/
def resolvePlane (s : State) (p : Pass) (t : Tile) (a : AttKind × Nat) : List Byte :=
  let b := attBytes p a
  (List.range 1024).flatMap fun n =>
    toLE b (resolvePixel a.1 (attField p a.2 15 12) ((List.range (pSamples p)).map fun k =>
      leNat (lmRead s t.core (t.lmBase * 1024 + sampleOff p a (n % 32) (n / 32) k) b)))

/-- The writes of one plane's store. -/
def storePlane (s : State) (p : Pass) (t : Tile) (a : AttKind × Nat) : List (Nat × List Byte) :=
  match attStore p a.2 with
  | 0 =>
    let plane := lmRead s t.core (t.lmBase * 1024 + planeOff p a.2) (1024 * pSamples p * attBytes p a)
    (surfRows p a t.ord (attField p a.2 511 448) (attPitch p a) (pSamples p)).map fun r => (r.1, slice plane r.2.2 r.2.1)
  | 1 =>
    let plane := resolvePlane s p t a
    (surfRows p a t.ord (attField p a.2 447 384) (attRpitch p a) 1).map fun r => (r.1, slice plane r.2.2 r.2.1)
  | _ => []

/-- A pass ends when every tile of its range has been stored (R362). -/
def passAfter (s : State) (id : Nat) : State :=
  match tget s.ras.passes id with
  | none => s
  | some p =>
    if p.stored < pCount p then s
    else finishWork { s with ras := { s.ras with passes := tdel s.ras.passes id } } p.q p.i p.node 0

/-- TILE_STORE_DONE: the planes stored in ascending attachment order, and the tile memory freed (R374). -/
def tileStoreDone (s : State) (id ord : Nat) : State :=
  match tget s.ras.passes id with
  | none => s
  | some p =>
    match tileOf p ord with
    | none => s
    | some t =>
      if t.stage ≠ .storing then s
      else match vwriteAll s (rasWho p (tileSite t)) ((pAtts p).flatMap (storePlane s p t)) with
      | (s, false) => s
      | (s, true) =>
        let s := { s with cores := { s.cores with
          lmUse := s.cores.lmUse.filter fun u => !(u.tile && u.owner == id && u.core == t.core && u.base == t.lmBase) } }
        passAfter (setPass (moves s (quadRef (t.core / 4))) id { p with stored := p.stored + 1, tiles := p.tiles.filter fun u => u.ord != ord }) id

/-! ## Meanings -/

/-- RENDER_PASS (R362). -/
def execRenderPass (w : Work) (s : State) : Host.Outcome State Fault Refusal :=
  .next (startPass s w.q.val w.i (w.node.map (·.val)))

/-- TILE_PLACE (R373). -/
def execTilePlace (pass : Nat) (s : State) : Host.Outcome State Fault Refusal := .next (tilePlace s pass)

/-- TILE_LOAD_DONE (R374). -/
def execTileLoadDone (pass ord : Nat) (s : State) : Host.Outcome State Fault Refusal := .next (tileLoadDone s pass ord)

/-- FRAGMENT_GROUP_START (R381). -/
def execFragmentGroupStart (pass ord : Nat) (blk : Fin 32) (s : State) : Host.Outcome State Fault Refusal :=
  .next (fragStart s pass ord blk.val)

/-- TILE_STORE_DONE (R374). -/
def execTileStoreDone (pass ord : Nat) (s : State) : Host.Outcome State Fault Refusal := .next (tileStoreDone s pass ord)

/-- BLOCK_END (R235, R380): of a kernel's block or a fragment group; claims that wait for its engines are granted. -/
def execBlockEnd (block : Nat) (s : State) : Host.Outcome State Fault Refusal :=
  .next (match tget s.cores.blocks block with
    | none => s
    | some x => grantClaims x.core 64 (match x.frag with
      | none => endBlock s block
      | some f => endFrag s block f))

end Sys2Proof.Machine
end

