-- ==== Sys2Proof/Machine/Channels.lean ====
section
/-! DEFINITION. SEND and RECV of thread groups on the message channels, which they share with the tensor engines of their core
(spec/08 R258 to R261, spec/09 R297). -/

namespace Sys2Proof.Machine

/-- A grant of a channel's token to a quarter of a core, or to an engine that claims in the same cycle: then the engine goes
on, and the quarter's claim stands for the next cycle (R193, R260, R297). -/
def chanGrant (s : State) (key quarter : Nat) (engines : List Nat) (serve : State → Nat → State) : State × Option Unit :=
  match granted s key (quarter :: engines) with
  | none => (s, none)
  | some k => if k = quarter then (passToken s key k 8, some ()) else (passToken (serve s (k - 4)) key k 8, none)

/-- The data of a SEND; none where its local address fails the permission check (R245, R258). -/
def sendData (s : State) (i : Iss) : MsgForm → Option W512
  | .regs v => some (msgRegs i v.val)
  | .mem v =>
    let a := (rd i.g i.low v.val).toNat
    if lmOk a 64 then some (BitVec.ofNat 512 (leNat (lmRead s i.core a 64))) else none

/-- SEND (R258, R261): with no credit the subgroup stalls. -/
def doSend (s : State) (r : SgRef) (ch : Fin 16) (form : MsgForm) (rel : Option Scope) : State :=
  match issue s r with
  | none => s
  | some i =>
    let key := i.core * 16 + ch.val
    if !chanScope rel then undefined s i
    else match tget s.cores.outs key with
    | none => s
    | some o =>
      if o.credits = 0 then s
      else match (match rel with
        | some sc => release s i sc
        | none => (s, some ())) with
      | (s, none) => s
      | (s, some _) =>
        match sendData s i form with
        | none => permFail s i.b
        | some m =>
          match chanGrant s (outToken i.core ch.val) i.quarter (creditClaims s i.core ch.val)
            (fun s e => engineSends s i.core ch.val e) with
          | (s, none) => s
          | (s, some _) => retire (sendMsg s key o m) i i.g

/-- RECV (R259, R261): on an empty channel the subgroup stalls. -/
def doRecv (s : State) (r : SgRef) (ch : Fin 16) (form : MsgForm) (acq : Option Scope) : State :=
  match issue s r with
  | none => s
  | some i =>
    let key := i.core * 16 + ch.val
    if !chanScope acq then undefined s i
    else match tgetD s.cores.inbox key [] with
    | [] => s
    | m :: rest =>
      match chanGrant s (inToken i.core ch.val) i.quarter (msgClaims s i.core ch.val)
        (fun s e => engineTakes s i.core ch.val e) with
      | (s, none) => s
      | (s, some _) =>
        match form with
        | .regs v =>
          retire (takeMsg s key rest) i
            ((i.lanes.filter (· < 16)).foldl (fun g j => wr g j v.val (BitVec.ofNat 32 (bits m (32 * j + 31) (32 * j)))) i.g)
        | .mem v =>
          let a := (rd i.g i.low v.val).toNat
          if !lmOk a 64 then permFail s i.b
          else retire (lmWrite (takeMsg s key rest) i.core a (toLE 64 m.toNat)) i i.g

end Sys2Proof.Machine
end

