-- ==== Sys2Proof/Machine/Couching.lean ====
section
/-! DEFINITION. Couching: COMPOSE and its strips (spec/13 R388 to R407). -/

namespace Sys2Proof.Machine

/-! ## The registers of a target (R389, R390) -/

/-- Offsets of a target's shadowed registers within its 0x200 B. -/
def targetOffs : List Nat :=
  [0x00, 0x08, 0x10, 0x18, 0x20, 0x28] ++
  (List.range 8).flatMap fun l => [0x40, 0x48, 0x50, 0x58].map (· + 0x20 * l)

/-- The active registers of a target, read at a start (R393). -/
def readTarget (s : State) (t : Nat) : Tbl W64 :=
  targetOffs.map fun r => (r, BitVec.ofNat 64 (active s (oTarget t r)))

/-- A register among those a COMPOSE read. -/
def treg (r : Tbl W64) (off : Nat) : Nat := (tgetD r off 0).toNat

/-- Bytes of a luma or RGB sample of an OFMT; 4 for an undefined one (R389, R391). -/
def outBytes (ofmt : Nat) : Nat := if ofmt = 0 then 1 else if ofmt = 1 then 2 else 4

/-- Container depth C of an OFMT (R389). -/
def containerDepth (ofmt : Nat) : Nat := if ofmt = 0 ∨ ofmt = 2 then 8 else 10

/-- Bytes per sample of a source format (R390, R398). -/
def srcBytes (f : Nat) : Nat := if f = 6 then 8 else if f = 9 then 1 else 4

/-! ## Expansion and blending (R398 to R400) -/

/-- A pixel of four 16-bit channels. -/
structure Px where
  r : Nat
  g : Nat
  b : Nat
  a : Nat
  deriving DecidableEq, Repr

/-- The 10-bit channel expansion of code 3 (R398). -/
def expand10 (c : Nat) : Nat := (2 * c * 65535 + 1023) / 2046

/-- An FP16 channel as 16-bit UNORM, rounded by RNE (R398). -/
def expandHalf (h : Nat) : Nat :=
  let e := nbits h 14 10
  let m := nbits h 9 0
  let num := if e = 0 then m else (1024 + m) * 2 ^ (e - 1)
  if h.testBit 15 ∨ num = 0 ∨ (e = 31 ∧ m ≠ 0) then 0
  else if 2 ^ 24 ≤ num then 65535
  else
    let n := num * 65535
    let q := n / 2 ^ 24
    let rem := n % 2 ^ 24
    if 2 ^ 23 < rem ∨ (rem = 2 ^ 23 ∧ q % 2 = 1) then q + 1 else q

/-- A source pixel from its bytes as a number (R398); `fv` stands for the value of an undefined format, which no
enabled layer holds (R392, log 48). -/
def expandPx (fmt fv v : Nat) : Px :=
  match fmt with
  | 0 | 1 => ⟨nbits v 7 0 * 257, nbits v 15 8 * 257, nbits v 23 16 * 257, nbits v 31 24 * 257⟩
  | 2 => ⟨nbits v 23 16 * 257, nbits v 15 8 * 257, nbits v 7 0 * 257, nbits v 31 24 * 257⟩
  | 3 => ⟨expand10 (nbits v 9 0), expand10 (nbits v 19 10), expand10 (nbits v 29 20), nbits v 31 30 * 21845⟩
  | 6 => ⟨expandHalf (nbits v 15 0), expandHalf (nbits v 31 16), expandHalf (nbits v 47 32), expandHalf (nbits v 63 48)⟩
  | 9 => ⟨nbits v 7 0 * 257, nbits v 7 0 * 257, nbits v 7 0 * 257, 65535⟩
  | _ => ⟨nbits fv 15 0, nbits fv 31 16, nbits fv 47 32, nbits fv 63 48⟩

/-- The background (R398). -/
def background (bg : Nat) : Px := ⟨expand10 (nbits bg 29 20), expand10 (nbits bg 19 10), expand10 (nbits bg 9 0), 65535⟩

/-- mul(x, y) (R400). -/
def mul16 (x y : Nat) : Nat := (x * y + 32767) / 65535

/-- A layer's source pixel over the pixel so far (R400). BLEND 3 is undefined: `fv` (R392, log 48). -/
def blendPx (blend palpha fv : Nat) (src d : Px) : Px :=
  let p := palpha * 257
  let al := mul16 (if blend = 0 then 65535 else src.a) p
  let inv := 65535 - al
  let a := al + mul16 d.a inv
  let ch (s d : Nat) : Nat := if blend = 1 then min 65535 (mul16 s p + mul16 d inv) else mul16 s al + mul16 d inv
  if blend = 3 then ⟨nbits fv 15 0, nbits fv 31 16, nbits fv 47 32, nbits fv 63 48⟩
  else ⟨ch src.r d.r, ch src.g d.g, ch src.b d.b, a⟩

/-! ## Source reads (R397, R399) -/

/-- Address of source pixel (x, y) of a layer (R397). -/
def srcAddr (base lctl x y : Nat) : Nat :=
  let b := srcBytes (nbits lctl 59 56)
  let pitch := nbits lctl 31 16
  if lctl.testBit 55 then base + (y / 32 * pitch + x / 32) * 1024 * b + (y % 32 * 32 + x % 32) * b
  else base + y * pitch * 128 + x * b

/-- The compositor context of a COMPOSE's queue, and whether its strips go first: a real-time queue not demoted. -/
def composeRank (s : State) (c : Compose) : Nat × Bool :=
  match getQ s c.q with
  | some x => (x.unit, x.rt && !x.demoted)
  | none => (0, false)

/-- Who Couching reads and writes as (R397, R118). -/
def couchWho (s : State) (c : Compose) : Who := { asid := c.ctx, slot := none, site := .couching (composeRank s c).1 }

/-- Layer `l` applied to output pixel (x, y) (R399); none where its read is not performed. -/
def applyLayer (c : Compose) (fv x y : Nat) (r : State × Option Px) (l : Nat) : State × Option Px :=
  match r with
  | (s, none) => (s, none)
  | (s, some d) =>
    let reg (o : Nat) : Nat := treg c.regs (0x40 + 0x20 * l + o)
    let lctl := reg 0
    let src := reg 0x10
    let dst := reg 0x18
    let i := x - nbits dst 15 0
    let j := y - nbits dst 31 16
    if !lctl.testBit 63 || decide (x < nbits dst 15 0) || decide (y < nbits dst 31 16) ||
        decide (nbits src 47 32 ≤ i) || decide (nbits src 63 48 ≤ j) then (s, some d)
    else
      let a := srcAddr (reg 8) lctl (nbits src 15 0 + i) (nbits src 31 16 + j)
      match vnat s (couchWho s c) a (srcBytes (nbits lctl 59 56)) with
      | (s, none) => (s, none)
      | (s, some v) =>
        (s, some (blendPx (nbits lctl 51 50) (nbits lctl 39 32) fv (expandPx (nbits lctl 59 56) fv v) d))

/-- The composed pixels from x upward in row y (R399). -/
def composePixels (c : Compose) (fv y : Nat) : Nat → State → Nat → State × Option (List Px)
  | 0, s, _ => (s, some [])
  | n + 1, s, x =>
    match (List.range 8).foldl (applyLayer c fv x y) (s, some (background (treg c.regs 0x28))) with
    | (s, none) => (s, none)
    | (s, some p) =>
      match composePixels c fv y n s (x + 1) with
      | (s, some l) => (s, some (p :: l))
      | (s, none) => (s, none)

/-! ## Conversion and quantisation (R401 to R403) -/

/-- Kr and Kb of a MATRIX, in units of 1 ÷ 10,000 (R401). -/
def lumaK (matrix : Nat) : Int × Int := if matrix = 0 then (2126, 722) else (2627, 593)

/-- The coefficient of a row (0 Y, 1 Cb, 2 Cr) and channel (0 R, 1 G, 2 B) as a fraction (R401). -/
def coefficient (matrix row ch : Nat) : Int × Int :=
  let (kr, kb) := lumaK matrix
  let kg := 10000 - kr - kb
  match row, ch with
  | 0, 0 => (kr, 10000)
  | 0, 1 => (kg, 10000)
  | 0, _ => (kb, 10000)
  | 1, 0 => (-kr, 2 * (10000 - kb))
  | 1, 1 => (-kg, 2 * (10000 - kb))
  | 1, _ => (1, 2)
  | _, 0 => (1, 2)
  | _, 1 => (-kg, 2 * (10000 - kr))
  | _, _ => (-kb, 2 * (10000 - kr))

/-- M_kc = floor(65,536 × s × coefficient + 1/2), computed exactly (R401). -/
def matrixM (matrix row ch : Nat) (full : Bool) : Int :=
  let (a, b) := coefficient matrix row ch
  let (sn, sd) : Int × Int := if full then (1, 1) else if row = 0 then (56064, 65535) else (57344, 65535)
  (2 * 65536 * sn * a + sd * b) / (2 * sd * b)

/-- u_k of a pixel (R401); MATRIX 2 and 3 are undefined: `fv` (R392, log 48). -/
def convertRow (matrix row fv : Nat) (full : Bool) (p : Px) : Nat :=
  let o : Int := if row = 0 then (if full then 0 else 4096) else 32768
  let v := (matrixM matrix row 0 full * p.r + matrixM matrix row 1 full * p.g + matrixM matrix row 2 full * p.b +
    65536 * o + 32768) / 65536
  if 2 ≤ matrix then nbits fv 15 0 else (max 0 (min 65535 v)).toNat

/-- B of the dither pattern (R403). -/
def ditherB (x y : Nat) : Nat :=
  let a := x % 8
  let b := y % 8
  let c := Nat.xor a b
  32 * nbits c 0 0 + 16 * nbits b 0 0 + 8 * nbits c 1 1 + 4 * nbits b 1 1 + 2 * nbits c 2 2 + nbits b 2 2

/-- The stored value of u at a position (R403). -/
def quantise (ctrl x y u : Nat) : Nat :=
  let d := nbits ctrl 3 0
  let t := if ctrl.testBit 16 then ditherB x y * 2 ^ (10 - d) else 2 ^ (15 - d)
  min (2 ^ d - 1) ((u + t) / 2 ^ (16 - d)) * 2 ^ (containerDepth (nbits ctrl 23 20) - d)

/-- A chroma or luma value as the output plane stores it: a byte, or a u16 with the value in [15:6] (R404). -/
def yuvBytes (ofmt v : Nat) : List Byte := if ofmt = 0 then toLE 1 v else toLE 2 (v * 64)

/-- An RGB output pixel (R403, R404). -/
def rgbBytes (ctrl x y : Nat) (p : Px) : List Byte :=
  let q := quantise ctrl x y
  if nbits ctrl 23 20 = 2 then
    toLE 4 (q p.r + 2 ^ 8 * q p.g + 2 ^ 16 * q p.b + 2 ^ 24 * ((p.a * 255 + 32767) / 65535))
  else toLE 4 (q p.r + 2 ^ 10 * q p.g + 2 ^ 20 * q p.b + 2 ^ 30 * ((p.a * 3 + 32767) / 65535))

/-- Sums of adjacent pairs. -/
def pairSums : List Nat → List Nat
  | a :: b :: t => (a + b) :: pairSums t
  | _ => []

/-- Strips in a row (R396). -/
def stripsPerRow (c : Compose) : Nat := cdiv (nbits (treg c.regs 0x20) 15 0) 32

/-- Strips of a COMPOSE (R396). -/
def stripTotal (c : Compose) : Nat := stripsPerRow c * nbits (treg c.regs 0x20) 31 16

/-- The writes of a strip at column x, row y, with the chroma sums that it leaves (R401 to R404). -/
def stripWrites (c : Compose) (fv x y : Nat) (px : List Px) : List (Nat × List Byte) × Tbl (Nat × Nat) :=
  let ctrl := treg c.regs 0x08
  let ofmt := nbits ctrl 23 20
  let pitch := nbits (treg c.regs 0x20) 63 48 * 128
  let out := treg c.regs 0x10
  if ofmt = 2 ∨ ofmt = 3 then
    ([(out + y * pitch + 4 * x, px.zipIdx.flatMap fun e => rgbBytes ctrl (x + e.2) y e.1)], c.chroma)
  else if ofmt = 0 ∨ ofmt = 1 then
    let b := outBytes ofmt
    let conv (row : Nat) : List Nat := px.map (convertRow (nbits ctrl 19 18) row fv (ctrl.testBit 17))
    let luma := (conv 0).zipIdx.flatMap fun e => yuvBytes ofmt (quantise ctrl (x + e.2) y e.1)
    let sums := (pairSums (conv 1)).zip (pairSums (conv 2))
    let w := (out + y * pitch + b * x, luma)
    if y % 2 = 0 then ([w], sums.zipIdx.foldl (fun t e => tset t (x / 2 + e.2) e.1) c.chroma)
    else
      let bytes := sums.zipIdx.flatMap fun e =>
        let k := x / 2 + e.2
        let (cb, cr) := tgetD c.chroma k (0, 0)
        yuvBytes ofmt (quantise ctrl k (y / 2) ((cb + e.1.1 + 2) / 4)) ++
        yuvBytes ofmt (quantise ctrl k (y / 2) ((cr + e.1.2 + 2) / 4))
      ([w, (treg c.regs 0x18 + y / 2 * pitch + b * x, bytes)], c.chroma)
  else ([], c.chroma)

/-! ## Commands -/

/-- A target is being composed (R395). -/
def composing (s : State) (t : Nat) : Bool := s.cch.comps.any fun c => c.target = t

/-- Another COMPOSE of the same target starts first (R395). -/
def composeEarlier (s : State) (q : Nat) (i : W32) (t : Nat) : Bool :=
  startsFirst s q i 0x40 (fun w => bits w 135 128) t s.cch.start 256

/-- COMPOSE: starts when no other descriptor of its target is being composed, and reads the target's registers
(R393, R395). -/
def startCompose (s : State) (q : Nat) (i : W32) : State :=
  match (getQ s q).bind fun x => recOf x i with
  | none => s
  | some d =>
    let t := bits d.pay 135 128
    if composing s t || composeEarlier s q i t then s
    else match beginWork s q i none 0x40 with
    | (s, .no) => s
    | (s, .go x w be) =>
      let c : Compose := { q := q, i := i, rt := !be, target := t, frame := BitVec.ofNat 32 (bits w 191 160),
                           ctx := x.ctx, regs := readTarget s t, strip := 0, chroma := [] }
      markStarted { s with cch := { s.cch with comps := s.cch.comps ++ [c], start := (x.unit + 1) % 256 } } q i none

/-- The first COMPOSE of the least key. -/
def leastBy (f : Compose → Nat) : List Compose → Option Compose
  | [] => none
  | c :: t => match leastBy f t with
    | none => some c
    | some d => if f d < f c then some d else some c

/-- The COMPOSE whose strip the pipeline completes next; those of the compositor contexts in `waits` wait for source lines
(R396). -/
def chooseCompose (s : State) (waits : List (Fin 256)) : Option Compose :=
  let open' := s.cch.comps.filter fun c => c.strip < stripTotal c && !(waits.any fun n => n.val == (composeRank s c).1)
  match leastBy (fun c => (composeRank s c).1) (open'.filter fun c => (composeRank s c).2) with
  | some c => some c
  | none => leastBy (fun c => ((composeRank s c).1 + 256 - s.cch.token) % 256) open'

/-- A COMPOSE replaced. -/
def putCompose (s : State) (c : Compose) : State :=
  { s with cch := { s.cch with comps := s.cch.comps.map fun d => if d.q = c.q ∧ d.i = c.i then c else d } }

/-- STRIP_COMPLETE: one strip of one COMPOSE, and its bytes (R396 to R404). -/
def stripComplete (s : State) (waits : List (Fin 256)) : State :=
  match chooseCompose s waits with
  | none => s
  | some c =>
    let (u, rt) := composeRank s c
    let s := if rt then s else { s with cch := { s.cch with token := (u + 1) % 256 } }
    let x := c.strip % stripsPerRow c * 32
    let y := c.strip / stripsPerRow c
    let n := min 32 (nbits (treg c.regs 0x20) 15 0 - x)
    let fv := (free s).toNat
    match composePixels c fv y n s x with
    | (s, none) => s
    | (s, some px) =>
      let (ws, chroma) := stripWrites c fv x y px
      match vwriteAll s (couchWho s c) ws with
      | (s, false) => s
      | (s, true) =>
        let c := { c with strip := c.strip + 1, chroma := chroma }
        let s := putCompose (drew (moves s .device)) c
        if c.strip < stripTotal c then s else finishWork s c.q c.i none 0

def execCompose (q : Fin 8193) (i : W32) (s : State) : Host.Outcome State Fault Refusal := .next (startCompose s q.val i)

end Sys2Proof.Machine
end

