-- ==== Sys2Proof/Machine/Coding.lean ====
section
/-! DEFINITION. AV1 encoders and the Bindery (spec/14 R408 to R436). -/

namespace Sys2Proof.Machine

/-! ## ENCODE parameter block (R411) -/

/-- WIDTH, HEIGHT and PITCH after their clamps; an odd size lies between two even ones and goes to the lower (R411). -/
def encW (p : Nat) : Nat := clamp 16 8192 (nbits p 351 336) / 2 * 2
def encH (p : Nat) : Nat := clamp 16 4352 (nbits p 367 352) / 2 * 2
def encSample (p : Nat) : Nat := if p.testBit 368 then 2 else 1
def encPitch (p : Nat) : Nat := 128 * clamp (cdiv (encW p * encSample p) 128) 65535 (nbits p 335 320)
def encRefArea (p : Nat) : Nat := nbits p 447 384
def encLevel (p : Nat) : Nat := nbits p 543 536
def encTarget (p : Nat) : Nat := clamp 1024 (2 ^ 31 - 1) (nbits p 479 448)
def encQmin (p : Nat) : Nat := nbits p 527 520
def encQmax (p : Nat) : Nat := clamp (encQmin p) 255 (nbits p 535 528)
def encQstart (p : Nat) : Nat := clamp (encQmin p) (encQmax p) (nbits p 519 512)

/-- WIDTH, HEIGHT, DEPTH10, REF_AREA and LEVEL (R408). -/
def encConf (p : Nat) : List Nat := [encW p, encH p, nbits p 368 368, encRefArea p, encLevel p]

/-- Output capacity of an ENCODE (R411). -/
def encCap (w : W512) : Nat := clamp 64 (2 ^ 32 - 1) (bits w 287 256)

/-- An ENCODE that completes with status REFUSED for its fields (R145, R409, R411, R412). -/
def encodeBad (s : State) (x : Queue) (w : W512) (p : Nat) : Bool :=
  let refine := bit w 297
  (match tget s.circ.streams (bits w 295 288) with
    | some t => t.ctx != x.ctx
    | none => true) ||
  bits w 191 128 % 128 != 0 || bits w 255 192 % 128 != 0 || nbits p 319 256 % 128 != 0 ||
  encRefArea p % 65536 != 0 || nbits p 831 768 % 4 != 0 || nbits p 767 704 % 16 != 0 ||
  (refine && (nbits p 703 640 % 8 != 0 || nbits p 639 576 % 8 != 0 || nbits p 703 640 == 0 || nbits p 639 576 == 0)) ||
  !(decide (encLevel p ≤ 23) || encLevel p == 31)

/-- The encoder state of a stream. -/
def encOf (s : State) (n : Nat) : Enc := tgetD s.cod.enc n Enc.reset

/-- The slot of RECOVER_FRAME, where R415 lets it be referenced. -/
def recoverOk (e : Enc) (f : W32) : Bool :=
  decide (1 ≤ (e.frame - f).toNat) && decide ((e.frame - f).toNat ≤ 8) && e.slots.contains (some f)

/-- The effects of a reset (R412). -/
def resetEnc (p : Nat) (e : Enc) : Enc :=
  { e with q := encQstart p, f := 0, slots := List.replicate 8 none, lastCoded := none }

/-- Another ENCODE of the same stream starts first (R410). -/
def encodeEarlier (s : State) (q : Nat) (i : W32) (n : Nat) : Bool :=
  startsFirst s q i 0x50 (fun w => bits w 295 288) n s.cod.start 12

/-- ENCODE: starts when its core is free and no other descriptor codes its stream or waits for it from before (R409 to R412). -/
def startEncode (s : State) (q : Nat) (i : W32) : State :=
  match (getQ s q).bind fun x => (recOf x i).map fun _ => x with
  | none => s
  | some x =>
    if s.cod.encRuns.any fun r => r.core = x.unit then s
    else match beginWork s q i none 0x50 with
    | (s, .no) => s
    | (s, .go x w _) =>
      if bits w 127 64 = 0 then complete s q i 0x11
      else if (s.cod.encRuns.any fun r => r.stream = bits w 295 288) || encodeEarlier s q i (bits w 295 288) then s
      else match vnat s (feWho s q x) (bits w 127 64) 128 with
      | (s, none) => s
      | (s, some p) =>
        if encodeBad s x w p then complete s q i 0x11
        else
          let n := bits w 295 288
          let e := encOf s n
          let reset := p.testBit 369 || e.conf != encConf p
          let e := if reset then resetEnc p e else e
          let rec' := p.testBit 370
          let recovered := rec' && recoverOk e (BitVec.ofNat 32 (nbits p 511 480))
          let forced := (e.slots.all fun t => t.isNone) || (rec' && !recovered)
          let plain := reset || bit w 296
          let key := plain || forced
          let r : EncRun := { q := q, i := i, stream := n, core := x.unit, pay := w, par := p, key := key,
                              recovered := recovered && !key, state := e, orphan := false }
          markStarted { s with cod := { s.cod with
            encRuns := s.cod.encRuns ++ [r], start := (x.unit + 1) % 12
            resets := satAdd 0xFFFF s.cod.resets (if reset then 1 else 0)
            forcedKey := satAdd 0xFFFF s.cod.forcedKey (if forced && !plain then 1 else 0) } } q i none

/-! ## The frame (R413 to R418) -/

/-- Every row of a plane is read (R420). -/
def touchRows (w : Who) (pitch n : Nat) : Nat → State → Nat → State × Bool
  | 0, s, _ => (s, true)
  | rows + 1, s, a =>
    match reach s w .read a n with
    | (s, none) => (s, false)
    | (s, some _) => touchRows w pitch n rows s (a + pitch)

/-- Both planes of a frame in the source layout are read. -/
def touchFrame (s : State) (w : Who) (p luma chroma : Nat) : State × Bool :=
  let n := encW p * encSample p
  match touchRows w (encPitch p) n (encH p) s luma with
  | (s, false) => (s, false)
  | (s, true) => touchRows w (encPitch p) n (encH p / 2) s chroma

/-- Address of a reference slot (R414). -/
def refSlotAt (p n : Nat) : Nat := encRefArea p + n * (cdiv (encPitch p * encH p * 3 / 2) 65536 * 65536)

/-- Bytes of a mark map (R431). -/
def markBytes (p : Nat) : Nat := cdiv (cdiv (cdiv (encW p) 32 * cdiv (encH p) 32) 8) 8 * 8

/-- The unit header (R418). -/
def unitHeader (kind count height width frame format depth10 refined repeat' key : Nat) : List Byte :=
  toLE 16 (count * 2 ^ 96 + height * 2 ^ 80 + width * 2 ^ 64 + frame * 2 ^ 32 + format * 2 ^ 20 + depth10 * 2 ^ 19 +
    refined * 2 ^ 18 + repeat' * 2 ^ 17 + key * 2 ^ 16 + kind * 2 ^ 8 + 1)

/-- A repeat unit's body: a temporal delimiter and a frame header OBU with show_existing_frame = 1 that names a slot
(R417; the OBU syntax of the AV1 specification, log 50). -/
def repeatBody (slot : Nat) : List Byte := [0x12, 0x00, 0x1A, 0x01, BitVec.ofNat 8 (0x88 + slot * 16)]

/-- The rate control after a frame of `b` bits (R416). -/
def rateAfter (p : Nat) (e : Enc) (b : Int) : Enc :=
  let t : Int := encTarget p
  let f := max (-t) (min (4 * t) (e.f + b - t))
  let d := max (-4) (min 12 (8 * f / t))
  { e with f := f, q := clamp (encQmin p) (encQmax p) ((e.q : Int) + d).toNat }

/-- The slot that an inter frame references (R415). -/
def refSlot (r : EncRun) : Nat :=
  if r.recovered then nbits r.par 511 480 % 8 else (r.state.lastCoded.map (·.toNat)).getD 0 % 8

/-- Syntax elements, each as its number of bits and its value, most significant bit first. -/
def avBits (l : List (Nat × Nat)) : List Bool := l.flatMap fun e => (List.range e.1).map fun k => e.2.testBit (e.1 - 1 - k)

/-- Bits as bytes, most significant bit first; what is missing in the last byte comes from `fill`. -/
def avBytes (fill : Nat) (l : List Bool) : List Byte :=
  (List.range (cdiv l.length 8)).map fun n =>
    BitVec.ofNat 8 ((List.range 8).foldl (fun v k =>
      2 * v + (if l.getD (8 * n + k) (fill.testBit (7 - k)) then 1 else 0)) 0)

/-- Bits with which the sequence header writes a size (R413; log 49). -/
def sizeBits (v : Nat) : Nat := min 16 (Nat.log2 (v - 1) + 1 + Config.sizeBitsMore)

/-- The colour configuration (R413). -/
def avColour (p : Nat) : List (Nat × Nat) :=
  let codes := if p.testBit 372 then [9, 14, 9] else [1, 1, 1]
  [(1, nbits p 368 368), (1, 0), (1, 1)] ++ codes.map (fun c => (8, c)) ++ [(1, nbits p 371 371), (2, 0), (1, 0)]

/-- The sequence header's elements in the order of the AV1 specification, section 5.5, with its trailing bit (R413; log 49). -/
def sequenceHeader (p : Nat) : List (Nat × Nat) :=
  let wb := sizeBits (encW p)
  let hb := sizeBits (encH p)
  [(3, 0), (1, 0), (1, 0), (1, 0), (1, 0), (5, 0), (12, 0), (5, encLevel p)] ++ (if 7 < encLevel p then [(1, 0)] else []) ++
  [(4, wb - 1), (4, hb - 1), (wb, encW p - 1), (hb, encH p - 1)] ++ List.replicate 9 (1, 0) ++
  (if Config.selectScreenTools then [(1, 1)] else [(1, 0), (1, 1)]) ++
  (if Config.selectIntegerMv then [(1, 1)] else [(1, 0), (1, 0)]) ++
  [(1, 0), (1, 1), (1, 0)] ++ avColour p ++ [(1, 0), (1, 1)]

/-- The least k for which `n` × 2^k reaches `v`. -/
def tileLog2 (n v : Nat) : Nat := ((List.range 14).find? fun k => decide (v ≤ n * 2 ^ k)).getD 14

/-- Tile columns and rows, as powers of 2, in a frame header (R413; AV1 specification, section 5.9.15). A picture whose
superblocks ask for more tile rows than R413's rule has those. `size` stands for the tile size's own length. -/
def avTiles (p size : Nat) : List (Nat × Nat) :=
  let sc := cdiv (encW p) 64
  let sr := cdiv (encH p) 64
  let cols := if 4096 < encW p then 1 else 0
  let minRows := tileLog2 2304 (sc * sr) - cols
  let maxRows := tileLog2 1 (min sr 64)
  let rows := max minRows (if 9437184 < encW p / 2 ^ cols * encH p then 1 else 0)
  [(1, 1)] ++ (if cols < tileLog2 1 (min sc 64) then [(1, 0)] else []) ++
  List.replicate (rows - minRows) (1, 1) ++ (if rows < maxRows then [(1, 0)] else []) ++
  (if 0 < cols + rows then [(cols + rows, 0), (2, size)] else [])

/-- The elements of a frame header up to the loop filters, in the order of the AV1 specification, section 5.9.2 (R413, R415,
R416; log 49). The rest is the encoder's choice. -/
def frameHeader (r : EncRun) (size : Nat) : List (Nat × Nat) :=
  let p := r.par
  let e := r.state
  let tools := (if Config.selectScreenTools then [(1, 1)] else []) ++ (if Config.selectIntegerMv then [(1, 0)] else [])
  let kind : List (Nat × Nat) :=
    if r.key then [(1, 0), (2, 0), (1, 1), (1, 0)] ++ tools ++ [(1, 0), (1, 0), (1, 0)]
    else [(1, 0), (2, 1), (1, 1), (1, 0), (1, 0)] ++ tools ++
      [(1, 0), (3, 7), (8, 2 ^ (e.frame.toNat % 8))] ++ List.replicate 7 (3, refSlot r) ++
      [(1, 0), (1, 0), (1, 0), (2, 0), (1, 0)]
  kind ++ [(1, if Config.frameEndUpdate then 0 else 1)] ++ avTiles p size ++ [(8, e.q), (1, 0), (1, 0), (1, 0), (1, 0), (1, 0)] ++
  (if e.q = 0 then [] else [(1, 1), (2, 1), (1, 0)])

/-- A number in the leb128 form of the AV1 specification, with the fewest bytes. -/
def leb128 : Nat → Nat → List Byte
  | 0, _ => []
  | n + 1, v => if v < 128 then [BitVec.ofNat 8 v] else BitVec.ofNat 8 (128 + v % 128) :: leb128 n (v / 128)

/-- An OBU with its size. -/
def obu (kind : Nat) (body : List Byte) : List Byte := BitVec.ofNat 8 (8 * kind + 2) :: leb128 8 body.length ++ body

/-- The temporal unit of a coded frame: a temporal delimiter, the sequence header of a key frame, and the frame, which ends in
`n` free bytes (R413). -/
def temporalUnit (s : State) (r : EncRun) (n : Nat) : List Byte :=
  [0x12, 0x00] ++ (if r.key then obu 1 (avBytes 0 (avBits (sequenceHeader r.par))) else []) ++
  obu 6 (avBytes (Config.freeValue (s.free + n)).toNat (avBits (frameHeader r (Config.freeValue (s.free + n + 1)).toNat)) ++
    freeBytes s n)

/-- What a coded frame is: its body, whether it is a repeat unit, and the free values drawn. The AV1 bytes of a frame after
the elements that the spec settles are free, and so is their number (R413 leaves the coding decisions open; log 49). -/
def codeFrame (s : State) (r : EncRun) : List Byte × Bool × Nat :=
  let n := (free s).toNat % 2 ^ 32
  let unit := temporalUnit (drew s) r n
  if 16 + unit.length ≤ encCap r.pay then (unit, false, n + 3)
  else match r.state.lastCoded with
    | some k => (repeatBody (k.toNat % 8), true, 1)
    | none => ([], true, 1)

/-- The quantiser index of each superblock of a frame, row by row: those whose four tiles are all marked are offset by
MARK_DQ (R416, R431; log 49). -/
def superIndices (r : EncRun) (marks : List Byte) : List Nat :=
  let p := r.par
  let tx := cdiv (encW p) 32
  let ty := cdiv (encH p) 32
  let dq := max (-63) (min 63 (BitVec.ofNat 8 (nbits p 551 544)).toInt)
  let marked := fun x y => decide (x < tx) && decide (y < ty) &&
    (marks.getD ((y * tx + x) / 8) 0).toNat.testBit ((y * tx + x) % 8)
  (List.range (cdiv (encH p) 64)).flatMap fun sy => (List.range (cdiv (encW p) 64)).map fun sx =>
    if bit r.pay 297 && marked (2 * sx) (2 * sy) && marked (2 * sx + 1) (2 * sy) && marked (2 * sx) (2 * sy + 1) &&
        marked (2 * sx + 1) (2 * sy + 1) then clamp 1 255 ((r.state.q : Int) + dq).toNat
    else r.state.q

/-- The encoder state after the frame (R414 to R418). -/
def encAfter (p : Nat) (e : Enc) (rep : Bool) (bytes : Nat) : Enc :=
  let e' := rateAfter p e (if rep then 0 else 8 * (bytes : Int))
  if rep then { e' with frame := e.frame + 1 }
  else { e' with frame := e.frame + 1, conf := encConf p, lastCoded := some e.frame,
                 slots := e.slots.set (e.frame.toNat % 8) (some e.frame) }

/-- The encode result (R418). -/
def encResult (r : EncRun) (e' : Enc) (rep : Bool) (bytes : Nat) : List Byte :=
  let e := r.state
  let b (x : Bool) : Nat := if x then 1 else 0
  toLE 16 ((e'.f % 2 ^ 32).toNat * 2 ^ 96 + b r.recovered * 2 ^ 74 + b rep * 2 ^ 73 + b r.key * 2 ^ 72 +
    e.q % 256 * 2 ^ 64 + e.frame.toNat * 2 ^ 32 + bytes)

/-- A word that is written unless its address is 0. -/
def optWrite (a : Nat) (bs : List Byte) : List (Nat × List Byte) := if a = 0 then [] else [(a, bs)]

/-- The writes of a frame, in order: the reconstruction (free bytes, log 49), the unit, the refinement unit, the result
and the LEN word (R414, R418, R432). -/
def encodeWrites (s : State) (r : EncRun) (e' : Enc) (body marks : List Byte) (rep : Bool) : List (Nat × List Byte) :=
  let e := r.state
  let p := r.par
  let w := r.pay
  let b (x : Bool) : Nat := if x then 1 else 0
  let unit := unitHeader 0 body.length (encH p) (encW p) e.frame.toNat 0 (nbits p 368 368) (bits w 297 297) (b rep)
    (b r.key) ++ body
  let count := ((marks.map fun x => popcount 8 x.toNat).sum)
  let refine := unitHeader 1 count (encH p) (encW p) e.frame.toNat (bits w 298 298) (nbits p 368 368) 0 0 0 ++ marks
  (if rep then [] else [(refSlotAt p (e.frame.toNat % 8), freeBytes s (encPitch p * encH p * 3 / 2))]) ++
  [(bits w 255 192, unit)] ++ (if bit w 297 then [(nbits p 703 640, refine)] else []) ++
  optWrite (nbits p 767 704) (encResult r e' rep unit.length) ++
  optWrite (nbits p 831 768) (toLE 4 (unit.length + nbits p 863 832))

/-- A run's record is still at its unit. -/
def stillRuns (s : State) (q : Nat) (i : W32) : Bool :=
  match (getQ s q).bind fun x => recOf x i with
  | some d => d.stage = .started
  | none => false

/-- Reads of a frame: source, the reference of an inter frame, and the mark map (R420). -/
def encodeReads (s : State) (r : EncRun) (who : Who) : State × Option (List Byte) :=
  let p := r.par
  let ref := refSlot r
  match touchFrame s who p (bits r.pay 191 128) (nbits p 319 256) with
  | (s, false) => (s, none)
  | (s, true) =>
    match (if r.key then (s, true)
      else touchFrame s who p (refSlotAt p ref) (refSlotAt p ref + encPitch p * encH p)) with
    | (s, false) => (s, none)
    | (s, true) => if bit r.pay 297 then vread s who (nbits p 639 576) (markBytes p) else (s, some [])

/-- The ENCODE that an encode core runs, with its context. -/
def encodeOn (s : State) (core : Nat) : Option (EncRun × Queue) :=
  match s.cod.encRuns.find? fun r => r.core = core && stillRuns s r.q r.i with
  | none => none
  | some r => (getQ s r.q).map fun x => (r, x)

/-- The coding state after a frame: nothing of a stream that has changed its owner (R408, R416). -/
def encodeDone (c : Coding) (r : EncRun) (e' : Enc) (rep : Bool) (marks : List Byte) : Coding :=
  { c with
    enc := if r.orphan then c.enc else tset c.enc r.stream e'
    superQ := if rep then c.superQ else tset c.superQ r.core (superIndices r marks)
    repeats := satAdd 0xFFFF c.repeats (if rep then 1 else 0) }

/-- ENCODE_COMPLETE: the core finishes its frame (R413 to R421). -/
def encodeComplete (s : State) (core : Nat) : State :=
  match encodeOn s core with
  | none => s
  | some (r, x) =>
    let who := feWho s r.q x
    match encodeReads s r who with
    | (s, none) => s
    | (s, some marks) =>
      let (body, rep, n) := codeFrame s r
      let s := drewN s n
      let e' := encAfter r.par r.state rep (16 + body.length)
      match vwriteAll s who (encodeWrites s r e' body marks rep) with
      | (s, false) => s
      | (s, true) =>
        let s := moves (if rep then s else drewN s (encPitch r.par * encH r.par * 3 / 2)) (mediaRef core)
        finishWork { s with cod := encodeDone s.cod r e' rep marks } r.q r.i none 0

/-- An ENCODE aborted at a cutoff empties the slot that it was writing, and a reset at its start has no effect (R421; log 117). -/
def encodeAbort (s : State) (q : Nat) (i : W32) : State :=
  match s.cod.encRuns.find? fun r => r.q = q && r.i = i with
  | none => s
  | some r =>
    let e := encOf s r.stream
    if r.orphan then s
    else { s with cod := { s.cod with
      enc := tset s.cod.enc r.stream { e with slots := e.slots.set (e.frame.toNat % 8) none } } }

/-! ## The Bindery's matcher (R422) -/

/-- A symbol of the matcher. -/
inductive Tok where
  | lit (b : Nat) | mat (len dist : Nat)
  deriving DecidableEq, Repr

/-- h at an absolute position (R422). -/
def bndHash (d : List Byte) (i : Nat) : Nat :=
  let at' (k : Nat) : Nat := (d.getD k 0).toNat
  Nat.xor (Nat.xor (at' i * 1024) (at' (i + 1) * 32)) (at' (i + 2)) % 32768

/-- Length of the common prefix of d[q..] and d[p..], at most the cap. -/
def commonPrefix (d : List Byte) (q p : Nat) : Nat → Nat
  | 0 => 0
  | cap + 1 => if d.getD q 0 = d.getD p 0 then 1 + commonPrefix d (q + 1) (p + 1) cap else 0

/-- The four most recent positions below `i`, within the window, with the hash of `i`, nearest first (R422). -/
def candidates (d : List Byte) (window i : Nat) : List Nat :=
  (((List.range (min window i)).map fun k => i - 1 - k).filter fun q => bndHash d q == bndHash d i).take 4

/-- The longest match at a position; a tie keeps the nearer (R422): length and distance. -/
def bestMatch (d : List Byte) (window i cap : Nat) : Nat × Nat :=
  (candidates d window i).foldl (fun best q =>
    let len := commonPrefix d q i cap
    if best.1 < len then (len, i - q) else best) (0, 0)

/-- The tokens of one block of input from position `p` (of `n`) to `stop`; `h` is the length of the history. -/
def matchBlock (d : List Byte) (window h n stop : Nat) : Nat → Nat → List Tok
  | 0, _ => []
  | fuel + 1, p =>
    if stop ≤ p then []
    else
      let (len, dist) := if 3 ≤ n - p then bestMatch d window (h + p) (min 258 (min (n - p) (stop - p))) else (0, 0)
      if 3 ≤ len then .mat len dist :: matchBlock d window h n stop fuel (p + len)
      else .lit (d.getD (h + p) 0).toNat :: matchBlock d window h n stop fuel (p + 1)

/-! ## Huffman coding (R423) -/

/-- An item of the package-merge algorithm: its weight and the symbols in it. -/
abbrev PmItem := Nat × List Nat

/-- Merges leaves and packages by weight; a leaf comes before a package of equal weight. -/
def pmMerge : Nat → List PmItem → List PmItem → List PmItem
  | 0, _, _ => []
  | _ + 1, [], p => p
  | _ + 1, l, [] => l
  | n + 1, l :: ls, p :: ps =>
    if l.1 ≤ p.1 then l :: pmMerge n ls (p :: ps) else p :: pmMerge n (l :: ls) ps

/-- Packages of adjacent items. -/
def pmPairs : List PmItem → List PmItem
  | a :: b :: t => (a.1 + b.1, a.2 ++ b.2) :: pmPairs t
  | _ => []

/-- Leaves in order of weight, equal weights by ascending symbol. -/
def pmInsert (x : PmItem) : List PmItem → List PmItem
  | [] => [x]
  | y :: t => if x.1 < y.1 then x :: y :: t else y :: pmInsert x t

/-- The items after the given number of levels. -/
def pmLevels (leaves : List PmItem) : Nat → List PmItem
  | 0 => leaves
  | n + 1 =>
    let p := pmPairs (pmLevels leaves n)
    pmMerge (leaves.length + p.length + 1) leaves p

/-- Code lengths of an alphabet with the given counts under a limit (R423): a single used symbol receives length 1, and
where none is used, symbol 0 does. -/
def codeLengths (limit : Nat) (counts : List Nat) : List Nat :=
  let leaves := (counts.zipIdx.filter fun e => decide (0 < e.1)).foldl (fun l e => pmInsert (e.1, [e.2]) l) []
  match leaves with
  | [] => counts.zipIdx.map fun e => if e.2 = 0 then 1 else 0
  | [x] => counts.zipIdx.map fun e => if x.2.contains e.2 then 1 else 0
  | _ =>
    let used := ((pmLevels leaves (limit - 1)).take (2 * leaves.length - 2)).flatMap (·.2)
    counts.zipIdx.map fun e => used.count e.2

/-- Canonical codes (RFC 1951 §3.2.2): the code of each symbol, from its length. -/
def canonical (lens : List Nat) : List Nat :=
  let first (l : Nat) : Nat := (List.range l).foldl (fun c k => (c + (if k = 0 then 0 else lens.count k)) * 2) 0
  lens.zipIdx.map fun e => first e.1 + (lens.take e.2).count e.1

/-- A Huffman code, most significant bit first. -/
def huffBits (code len : Nat) : List Bool := (List.range len).map fun k => code.testBit (len - 1 - k)

/-- A field, least significant bit first. -/
def fieldBits (v n : Nat) : List Bool := (List.range n).map fun k => v.testBit k

/-- Extra bits of the length codes 257 to 285, with their first length (RFC 1951). -/
def lenTable : List (Nat × Nat) :=
  [(3, 0), (4, 0), (5, 0), (6, 0), (7, 0), (8, 0), (9, 0), (10, 0), (11, 1), (13, 1), (15, 1), (17, 1), (19, 2),
   (23, 2), (27, 2), (31, 2), (35, 3), (43, 3), (51, 3), (59, 3), (67, 4), (83, 4), (99, 4), (115, 4), (131, 5),
   (163, 5), (195, 5), (227, 5), (258, 0)]

/-- Extra bits of the distance codes 0 to 31, with their first distance (RFC 1951; 30 and 31 by R426). -/
def distTable : List (Nat × Nat) :=
  [(1, 0), (2, 0), (3, 0), (4, 0), (5, 1), (7, 1), (9, 2), (13, 2), (17, 3), (25, 3), (33, 4), (49, 4), (65, 5),
   (97, 5), (129, 6), (193, 6), (257, 7), (385, 7), (513, 8), (769, 8), (1025, 9), (1537, 9), (2049, 10), (3073, 10),
   (4097, 11), (6145, 11), (8193, 12), (12289, 12), (16385, 13), (24577, 13), (32769, 14), (49153, 14)]

/-- Row of a table that holds a value: the last whose first value is not above it. -/
def rowOf (t : List (Nat × Nat)) (v : Nat) : Nat := (t.filter fun e => decide (e.1 ≤ v)).length - 1

/-- Code, extra bits and extra value of a value in a table. -/
def codeOf (t : List (Nat × Nat)) (v : Nat) : Nat × Nat × Nat :=
  let k := rowOf t v
  let e := t.getD k (0, 0)
  (k, e.2, v - e.1)

/-- Literal/length symbol of a token. -/
def litSym : Tok → Nat
  | .lit b => b
  | .mat len _ => 257 + (codeOf lenTable len).1

/-- Counts of the symbols of an alphabet. -/
def countSyms (n : Nat) (l : List Nat) : List Nat := (List.range n).map fun k => l.count k

/-- A list without the zeros at its end, at least `n` long. -/
def trimZeros (n : Nat) (l : List Nat) : List Nat :=
  l.take (max n (l.length - (l.reverse.takeWhile (· = 0)).length))

/-- A run of equal lengths coded greedily (R423): symbol, extra bits, extra value. -/
def runCode (v : Nat) : Nat → Nat → Bool → List (Nat × Nat × Nat)
  | 0, _, _ => []
  | fuel + 1, n, sent =>
    if n = 0 then []
    else if v = 0 then
      if 11 ≤ n then (18, 7, min n 138 - 11) :: runCode v fuel (n - min n 138) false
      else if 3 ≤ n then [(17, 3, n - 3)] else (0, 0, 0) :: runCode v fuel (n - 1) false
    else if sent ∧ 3 ≤ n then (16, 2, min n 6 - 3) :: runCode v fuel (n - min n 6) true
    else (v, 0, 0) :: runCode v fuel (n - 1) true

/-- The code lengths in one greedy pass (R423). -/
def runCodes : Nat → List Nat → List (Nat × Nat × Nat)
  | 0, _ => []
  | _ + 1, [] => []
  | fuel + 1, v :: t =>
    let n := 1 + (t.takeWhile (· = v)).length
    runCode v n n false ++ runCodes fuel (t.drop (n - 1))

/-- Order of the code-length code's lengths (RFC 1951). -/
def clOrder : List Nat := [16, 17, 18, 0, 8, 7, 9, 6, 10, 5, 11, 4, 12, 3, 13, 2, 14, 1, 15]

/-- A dynamic block without its 3-bit header: HLIT, HDIST, HCLEN, the code lengths, the symbols and symbol 256
(R423). -/
def dynamicBody (toks : List Tok) : List Bool :=
  let dsyms := toks.filterMap fun t => match t with
    | .mat _ d => some (codeOf distTable d).1
    | .lit _ => none
  let lit := codeLengths 15 (countSyms 286 (toks.map litSym ++ [256]))
  let dist := codeLengths 15 (countSyms 32 dsyms)
  let lit' := trimZeros 257 lit
  let dist' := trimZeros 1 dist
  let runs := runCodes (lit'.length + dist'.length + 1) (lit' ++ dist')
  let cl := codeLengths 7 (countSyms 19 (runs.map (·.1)))
  let order := trimZeros 4 (clOrder.map fun k => cl.getD k 0)
  let clc := canonical cl
  let lc := canonical lit
  let dc := canonical dist
  let sym (codes lens : List Nat) (k : Nat) : List Bool := huffBits (codes.getD k 0) (lens.getD k 0)
  fieldBits (lit'.length - 257) 5 ++ fieldBits (dist'.length - 1) 5 ++ fieldBits (order.length - 4) 4 ++
  order.flatMap (fun l => fieldBits l 3) ++
  runs.flatMap (fun e => sym clc cl e.1 ++ fieldBits e.2.2 e.2.1) ++
  toks.flatMap (fun t => match t with
    | .lit b => sym lc lit b
    | .mat len d =>
      let (k, x, v) := codeOf lenTable len
      let (k', x', v') := codeOf distTable d
      sym lc lit (257 + k) ++ fieldBits v x ++ sym dc dist k' ++ fieldBits v' x') ++
  sym lc lit 256

/-- Bits as bytes, padded with zero bits. -/
def packBits : Nat → List Bool → List Byte
  | 0, _ => []
  | _ + 1, [] => []
  | n + 1, l => BitVec.ofNat 8 ((l.take 8).zipIdx.foldl (fun v e => v + (if e.1 then 2 ^ e.2 else 0)) 0) ::
      packBits n (l.drop 8)

/-- Bytes of a bit string. -/
def bitBytes (l : List Bool) : List Byte := packBits (l.length + 1) l

/-- Bytes as bits. -/
def byteBits (l : List Byte) : List Bool := l.flatMap fun b => fieldBits b.toNat 8

/-- Blocks of 16,384 input bytes; an empty input has one (R423, R425, R426). -/
def bndBlocks (n : Nat) : Nat := max 1 (cdiv n 16384)

/-- One block of a FORMAT 0 stream after the bits so far (R424, R425): its bits, and whether it is stored. -/
def deflateBlock (sofar : Nat) (final : Bool) (toks : List Tok) (input : List Byte) : List Bool × Bool :=
  let dyn := [final, false, true] ++ dynamicBody toks
  let n := input.length
  let pad := (8 - (sofar + 3) % 8) % 8
  let stored := [final, false, false] ++ List.replicate pad false ++ fieldBits n 16 ++ fieldBits (65535 - n) 16 ++
    byteBits input
  if n = 0 ∨ stored.length ≤ dyn.length then (stored, true) else (dyn, false)

/-- One block in the Evonel block format (R424, R426). -/
def evonelBlock (final : Bool) (toks : List Tok) (input : List Byte) : List Bool × Bool :=
  let dyn := dynamicBody toks
  let n := input.length
  let st := decide (n = 0 ∨ 8 * n ≤ dyn.length)
  let body := if st then input else bitBytes dyn
  (byteBits (toLE 8 (body.length * 2 ^ 32 + n * 2 ^ 16 + (if final then 2 else 0) + (if st then 1 else 0)) ++ body), st)

/-- The blocks of a pass from block `k` of `m`: the bits at which each ends, whether it is stored, and all the bits. -/
def bndPass (format : Nat) (d : List Byte) (h n m : Nat) : Nat → Nat → List Bool → List (Nat × Bool) × List Bool
  | 0, _, out => ([], out)
  | fuel + 1, k, out =>
    let a := k * 16384
    let stop := min n (a + 16384)
    let window := if format = 0 then 32768 else 65536
    let toks := matchBlock d window h n stop (stop - a + 1) a
    let input := slice d (h + a) (stop - a)
    let (bits', st) := if format = 0 then deflateBlock out.length (k + 1 = m) toks input
      else evonelBlock (k + 1 = m) toks input
    let out := out ++ bits'
    let (ends, all) := bndPass format d h n m fuel (k + 1) out
    ((out.length, st) :: ends, all)

/-- The Bindery stream of an input behind a history (R422 to R426). -/
def bindery (format : Nat) (hist input : List Byte) : List (Nat × Bool) × List Byte :=
  let m := bndBlocks input.length
  let (ends, all) := bndPass format (hist ++ input) hist.length input.length m m 0 []
  (ends, bitBytes all)

/-! ## BIND (R427 to R430) -/

/-- HIST_IN and HIST_OUT. -/
def histIn (p : Nat) : Bool := p.testBit 448
def histOut (p : Nat) : Bool := p.testBit 449

/-- A BIND that completes with status REFUSED for its fields (R145, R427). -/
def bindBad (w : W512) (p : Nat) : Bool :=
  bits w 255 192 % 8 != 0 || nbits p 383 320 % 4 != 0 || nbits p 319 256 % 16 != 0 ||
  ((histIn p || histOut p) && nbits p 575 512 % 128 != 0)

/-- BIND: starts when its engine is free (R422, R427). -/
def startBind (s : State) (q : Nat) (i : W32) : State :=
  match (getQ s q).bind fun x => (recOf x i).map fun _ => x with
  | none => s
  | some x =>
    if s.cod.bindRuns.any fun r => (match getQ s r.q with
      | some y => y.unit == x.unit
      | none => false) then s
    else match beginWork s q i none 0x60 with
    | (s, .no) => s
    | (s, .go x w _) =>
      match (if bits w 127 64 = 0 then (s, some 0) else vnat s (feWho s q x) (bits w 127 64) 128) with
      | (s, none) => s
      | (s, some p) =>
        if bindBad w p then complete s q i 0x11
        else
          let r : BindRun := { q := q, i := i, pay := w, par := p }
          markStarted { s with cod := { s.cod with bindRuns := s.cod.bindRuns ++ [r] } } q i none

/-- The new history: the last bytes of the history followed by the input, zero-filled at the front (R428). -/
def newHistory (window : Nat) (hist input : List Byte) : List Byte :=
  let l := hist ++ input
  let l := l.drop (l.length - window)
  List.replicate (window - l.length) 0 ++ l

/-- The writes of a BIND, in order, with the blocks and stored blocks emitted and whether DST_CAP ended the output
(R428, R429; blocks that lie wholly within DST_CAP count as emitted, log 52). -/
def bindWrites (r : BindRun) (hist input : List Byte) : List (Nat × List Byte) × Nat × Bool :=
  let w := r.pay
  let p := r.par
  let format := bits w 321 320
  let cap := bits w 319 288
  let (ends, out) := bindery format hist input
  let full := decide (cap < out.length)
  let out := out.take cap
  let emitted := ends.filter fun e => decide (e.1 ≤ 8 * cap)
  let stored := (emitted.filter (·.2)).length
  let result := toLE 16 (stored * 2 ^ 96 + (if full then 2 ^ 64 else 0) + emitted.length * 2 ^ 32 + out.length)
  let len := if full then 0 else out.length + nbits p 447 416
  ([(bits w 255 192, out)] ++
    (if histOut p then [(nbits p 575 512, newHistory (if format = 0 then 32768 else 65536) hist input)] else []) ++
    optWrite (nbits p 319 256) result ++ optWrite (nbits p 383 320) (toLE 4 len), stored, full)

/-- The BIND that a Bindery engine runs, with its queue. -/
def bindOn (s : State) (eng : Nat) : Option (BindRun × Queue) :=
  match s.cod.bindRuns.find? fun r => stillRuns s r.q r.i && (getQ s r.q).any fun y => y.unit == eng with
  | none => none
  | some r => (getQ s r.q).map fun x => (r, x)

/-- BIND_COMPLETE: the engine finishes its pass (R422 to R430). -/
def bindComplete (s : State) (eng : Nat) : State :=
  match bindOn s eng with
  | none => s
  | some (r, x) =>
    let who := feWho s r.q x
    let window := if bits r.pay 321 320 = 0 then 32768 else 65536
    match vread s who (bits r.pay 191 128) (bits r.pay 287 256) with
    | (s, none) => s
    | (s, some input) =>
      match (if histIn r.par then vread s who (nbits r.par 575 512) window else (s, some [])) with
      | (s, none) => s
      | (s, some hist) =>
        let (ws, stored, full) := bindWrites r hist input
        match vwriteAll s who ws with
        | (s, false) => s
        | (s, true) =>
          let s := moves { s with cod := { s.cod with stored := satAdd 0xFFFF s.cod.stored stored
                                                      full := satAdd 0xFFFF s.cod.full (if full then 1 else 0) } }
            (mediaRef (12 + eng))
          finishWork s r.q r.i none 0

def execEncode (q : Fin 8193) (i : W32) (s : State) : Host.Outcome State Fault Refusal := .next (startEncode s q.val i)

def execBind (q : Fin 8193) (i : W32) (s : State) : Host.Outcome State Fault Refusal := .next (startBind s q.val i)

end Sys2Proof.Machine
end

