-- ==== Sys2Proof/Machine/Crypto.lean ====
section
/-! DEFINITION. The cryptographic functions that the spec takes from published standards: AES-256-GCM (spec/15 R448,
NIST SP 800-38D), SHA-512 and RSASSA-PSS verification (spec/17 R502, RFC 8017). They are PRESUMED from those standards
(log 53). -/

namespace Sys2Proof.Machine

/-! ## AES-256 -/

/-- Multiplication in GF(2^8) modulo x^8 + x^4 + x^3 + x + 1; the fuel is the bits of `b`. -/
def gfMul : Nat → Nat → Nat → Nat
  | 0, _, _ => 0
  | n + 1, a, b =>
    let a' := if 128 ≤ a then Nat.xor (2 * a) 0x11B else 2 * a
    Nat.xor (if b % 2 = 1 then a else 0) (gfMul n a' (b / 2))

/-- Multiplication of bytes. -/
def gmul (a b : Nat) : Nat := gfMul 8 a b

/-- The inverse of a byte: its 254th power. -/
def ginv (a : Nat) : Nat :=
  let a2 := gmul a a
  let a4 := gmul a2 a2
  let a8 := gmul a4 a4
  let a16 := gmul a8 a8
  let a32 := gmul a16 a16
  let a64 := gmul a32 a32
  let a128 := gmul a64 a64
  gmul a128 (gmul a64 (gmul a32 (gmul a16 (gmul a8 (gmul a4 a2)))))

/-- A byte rotated left. -/
def rotByte (a k : Nat) : Nat := (a * 2 ^ k + a / 2 ^ (8 - k)) % 256

/-- The S-box as its definition gives it. -/
def sboxOf (a : Nat) : Nat :=
  let b := ginv a
  Nat.xor b (Nat.xor (rotByte b 1) (Nat.xor (rotByte b 2) (Nat.xor (rotByte b 3) (Nat.xor (rotByte b 4) 0x63))))

/-- The S-box as a table. -/
def sboxTable : List Nat := (List.range 256).map sboxOf

/-- SubBytes of a byte. -/
def sbox (a : Nat) : Nat := sboxTable.getD a 0

/-- Bytewise exclusive or. -/
def xorBytes (a b : List Nat) : List Nat := List.zipWith Nat.xor a b

/-- A round constant. -/
def rcon (k : Nat) : Nat := (List.range (k - 1)).foldl (fun c _ => gmul c 2) 1

/-- The key schedule: sixty 4-byte words. -/
def expandKey (key : List Nat) : List (List Nat) :=
  (List.range 52).foldl (fun w j =>
    let i := j + 8
    let t := w.getD (i - 1) []
    let t := if i % 8 = 0 then xorBytes ((t.drop 1 ++ t.take 1).map sbox) [rcon (i / 8), 0, 0, 0]
      else if i % 8 = 4 then t.map sbox else t
    w ++ [xorBytes (w.getD (i - 8) []) t]) ((List.range 8).map fun i => slice key (4 * i) 4)

/-- The key of a round. -/
def roundKey (w : List (List Nat)) (r : Nat) : List Nat := (slice w (4 * r) 4).flatten

/-- ShiftRows on a state in column order. -/
def shiftRows (s : List Nat) : List Nat :=
  (List.range 16).map fun k => s.getD ((k % 4) + 4 * ((k / 4 + k % 4) % 4)) 0

/-- MixColumns of one column. -/
def mixColumn (c : List Nat) : List Nat :=
  let a (k : Nat) : Nat := c.getD (k % 4) 0
  (List.range 4).map fun k => Nat.xor (gmul (a k) 2) (Nat.xor (gmul (a (k + 1)) 3) (Nat.xor (a (k + 2)) (a (k + 3))))

/-- MixColumns. -/
def mixColumns (s : List Nat) : List Nat := (List.range 4).flatMap fun k => mixColumn (slice s (4 * k) 4)

/-- One block enciphered under an expanded key. -/
def aesBlock (w : List (List Nat)) (b : List Nat) : List Nat :=
  let s := xorBytes b (roundKey w 0)
  let s := (List.range 13).foldl (fun s r =>
    xorBytes (mixColumns (shiftRows (s.map sbox))) (roundKey w (r + 1))) s
  xorBytes (shiftRows (s.map sbox)) (roundKey w 14)

/-! ## GCM -/

/-- Multiplication in GF(2^128) in the bit order of SP 800-38D; the fuel counts the bits of `x`, highest first. -/
def ghMulLoop (x : Nat) : Nat → Nat → Nat → Nat
  | 0, z, _ => z
  | n + 1, z, v =>
    let z := if x.testBit n then Nat.xor z v else z
    ghMulLoop x n z (if v % 2 = 1 then Nat.xor (v / 2) (0xE1 * 2 ^ 120) else v / 2)

/-- Product of two blocks. -/
def ghMul (x y : Nat) : Nat := ghMulLoop x 128 0 y

/-- A number from bytes, most significant first. -/
def beNums (l : List Nat) : Nat := l.foldl (fun v b => 256 * v + b) 0

/-- The bytes of a number, most significant first. -/
def numsBE (n v : Nat) : List Nat := (List.range n).map fun k => v / 256 ^ (n - 1 - k) % 256

/-- Bytes in 16-byte blocks, the last padded with zeros. -/
def blocks16 : Nat → List Nat → List (List Nat)
  | 0, _ => []
  | n + 1, l => if l.isEmpty then [] else (l.take 16 ++ List.replicate (16 - l.length) 0) :: blocks16 n (l.drop 16)

/-- Blocks of a byte string. -/
def toBlocks (l : List Nat) : List (List Nat) := blocks16 (l.length / 16 + 1) l

/-- GHASH. -/
def ghash (h : Nat) (bs : List (List Nat)) : Nat := bs.foldl (fun y b => ghMul (Nat.xor y (beNums b)) h) 0

/-- The counter-mode key stream applied. -/
def gcmCtr (w : List (List Nat)) (iv : List Nat) (data : List Nat) : List Nat :=
  let ks := (List.range (cdiv data.length 16)).flatMap fun k => aesBlock w (iv ++ numsBE 4 (k + 2))
  xorBytes data ks

/-- The tag of a ciphertext with its additional data. -/
def gcmTag (w : List (List Nat)) (iv aad ct : List Nat) : List Nat :=
  let h := beNums (aesBlock w (List.replicate 16 0))
  let s := ghash h (toBlocks aad ++ toBlocks ct ++ [numsBE 8 (8 * aad.length) ++ numsBE 8 (8 * ct.length)])
  xorBytes (numsBE 16 s) (aesBlock w (iv ++ [0, 0, 0, 1]))

/-- Bytes as numbers. -/
def nums (l : List Byte) : List Nat := l.map (·.toNat)

/-- Numbers as bytes. -/
def unnums (l : List Nat) : List Byte := l.map (BitVec.ofNat 8)

/-- AES-256-GCM encryption: ciphertext followed by the 16-byte tag. -/
def gcmSeal (key iv aad pt : List Byte) : List Byte :=
  let w := expandKey (nums key)
  let ct := gcmCtr w (nums iv) (nums pt)
  unnums (ct ++ gcmTag w (nums iv) (nums aad) ct)

/-- AES-256-GCM decryption: the plaintext, or none where the tag fails. -/
def gcmOpen (key iv aad ct tag : List Byte) : Option (List Byte) :=
  let w := expandKey (nums key)
  if gcmTag w (nums iv) (nums aad) (nums ct) = nums tag then some (unnums (gcmCtr w (nums iv) (nums ct))) else none

/-! ## SHA-512 -/

/-- The floor of the k-th root of `v`, below 2^bits; the fuel counts the bits from the highest. -/
def rootLoop (k v : Nat) : Nat → Nat → Nat
  | 0, r => r
  | n + 1, r => let c := r + 2 ^ n; rootLoop k v n (if c ^ k ≤ v then c else r)

/-- Whether a number has no divisor from 2 to its predecessor. -/
def isPrime (n : Nat) : Bool := decide (2 ≤ n) && (List.range n).all fun d => decide (d < 2) || n % d != 0

/-- The first eighty primes. -/
def primes80 : List Nat := (List.range 410).filter isPrime

/-- Round constants: the first 64 fractional bits of the cube roots of the first eighty primes. -/
def sha512K : List W64 := (primes80.take 80).map fun p => BitVec.ofNat 64 (rootLoop 3 (p * 2 ^ 192) 68 0)

/-- Initial values: the first 64 fractional bits of the square roots of the first eight primes. -/
def sha512H : List W64 := (primes80.take 8).map fun p => BitVec.ofNat 64 (rootLoop 2 (p * 2 ^ 128) 68 0)

/-- The message schedule of a block of sixteen words. -/
def sha512W (b : List W64) : List W64 :=
  (List.range 64).foldl (fun w j =>
    let a (k : Nat) : W64 := w.getD (j + 16 - k) 0
    let x := a 15
    let y := a 2
    let s0 := x.rotateRight 1 ^^^ x.rotateRight 8 ^^^ (x >>> 7)
    let s1 := y.rotateRight 19 ^^^ y.rotateRight 61 ^^^ (y >>> 6)
    w ++ [a 16 + s0 + a 7 + s1]) b

/-- One round on the eight working variables. -/
def sha512Round (v : List W64) (kw : W64 × W64) : List W64 :=
  match v with
  | [a, b, c, d, e, f, g, h] =>
    let s1 := e.rotateRight 14 ^^^ e.rotateRight 18 ^^^ e.rotateRight 41
    let ch := (e &&& f) ^^^ (~~~e &&& g)
    let t1 := h + s1 + ch + kw.1 + kw.2
    let s0 := a.rotateRight 28 ^^^ a.rotateRight 34 ^^^ a.rotateRight 39
    let maj := (a &&& b) ^^^ (a &&& c) ^^^ (b &&& c)
    [t1 + s0 + maj, a, b, c, d + t1, e, f, g]
  | _ => v

/-- One block. -/
def sha512Block (h : List W64) (b : List W64) : List W64 :=
  List.zipWith (· + ·) h ((sha512K.zip (sha512W b)).foldl sha512Round h)

/-- Words of eight bytes, most significant first. -/
def words64 : Nat → List Byte → List W64
  | 0, _ => []
  | n + 1, l => if l.isEmpty then [] else BitVec.ofNat 64 (beNat (l.take 8)) :: words64 n (l.drop 8)

/-- Blocks of sixteen words. -/
def blocks1024 : Nat → List W64 → List (List W64)
  | 0, _ => []
  | n + 1, l => if l.isEmpty then [] else l.take 16 :: blocks1024 n (l.drop 16)

/-- SHA-512. -/
def sha512 (m : List Byte) : List Byte :=
  let pad := (240 - (m.length + 1) % 128) % 128
  let p := m ++ [0x80] ++ List.replicate pad 0 ++ toBE 16 (8 * m.length)
  let ws := words64 (p.length / 8) p
  ((blocks1024 (ws.length / 16) ws).foldl sha512Block sha512H).flatMap fun w => toBE 8 w.toNat

/-! ## RSASSA-PSS (RFC 8017) -/

/-- `b` to the power 65,537 modulo `n`. -/
def powF4 (b n : Nat) : Nat := (b * (List.range 16).foldl (fun x _ => x * x % n) (b % n)) % n

/-- MGF1 with SHA-512. -/
def mgf1 (seed : List Byte) (len : Nat) : List Byte :=
  ((List.range (cdiv len 64)).flatMap fun k => sha512 (seed ++ toBE 4 k)).take len

/-- EMSA-PSS verification with SHA-512, MGF1 with SHA-512 and a salt of 64 B, for 4,096-bit keys. -/
def pssOk (em msg : List Byte) : Bool :=
  let masked := em.take 447
  let h := slice em 447 64
  let db := List.zipWith (· ^^^ ·) masked (mgf1 h 447)
  let db := match db with
    | [] => []
    | b :: t => (b &&& 0x7F) :: t
  let salt := db.drop 383
  em.getD 511 0 == 0xBC && decide ((em.getD 0 0).toNat < 128) && (db.take 382).all (· == 0) && db.getD 382 0 == 1 &&
    sha512 (List.replicate 8 0 ++ sha512 msg ++ salt) == h

/-- RSASSA-PSS verification of a signature under a 4,096-bit modulus, both most significant octet first. -/
def rsaVerify (modulus msg sig : List Byte) : Bool :=
  let n := beNat modulus
  let s := beNat sig
  decide (2 ^ 4095 ≤ n) && decide (s < n) && pssOk (toBE 512 (powF4 s n)) msg

end Sys2Proof.Machine
end

