-- ==== Sys2Proof/Machine/Circ.lean ====
section
/-! DEFINITION. Circulation: ports, streams, SEND, pacing, congestion and ingress (spec/15 R437 to R464). -/

namespace Sys2Proof.Machine

/-! ## Ports (R437 to R440) -/

/-- MODE of a physical port. -/
def portMode (s : State) (p : Nat) : Nat := if p = 0 then s.circ.mode0 else s.circ.mode1

/-- Logical ports of a physical port in a mode (R437). -/
def portCount (mode : Nat) : Nat := if mode = 0 then 1 else if mode = 1 then 2 else if mode = 2 then 4 else 0

/-- Rate of each logical port of a mode, in kb/s (R437). -/
def portRate (mode : Nat) : Nat := if mode = 0 then 200000000 else if mode = 1 then 100000000 else 50000000

/-- Logical port l exists (R437). -/
def portExists (s : State) (l : Nat) : Bool := decide (l < 8) && decide (l % 4 < portCount (portMode s (l / 4)))

/-- Logical port l has link. -/
def hasLink (s : State) (l : Nat) : Bool := s.circ.link.testBit l

/-- Fields of CIRC_ADDR_l (R439). -/
def portMac (s : State) (l : Nat) : Nat := nbits (tgetD s.circ.addr l 0) 47 0
def portIp4 (s : State) (l : Nat) : Nat := nbits (tgetD s.circ.addr l 0) 127 96
def portIp6 (s : State) (l : Nat) : Nat := nbits (tgetD s.circ.addr l 0) 255 128

/-- LPORT of a stream. -/
def lportOf (t : Stream) : Nat := sfield t 569 567

/-- A stream is open on a logical port of a physical port. -/
def portBusy (s : State) (p : Nat) : Bool := s.circ.streams.any fun e => lportOf e.2 / 4 == p

/-- A write of one MODE field: no change while a stream is open on the port; a change takes its links down (R438). -/
def writeMode (s : State) (p v : Nat) : State :=
  if v = portMode s p ∨ portBusy s p then s
  else
    let c := if p = 0 then { s.circ with mode0 := v } else { s.circ with mode1 := v }
    { s with circ := { c with link := nput c.link (4 * p + 3) (4 * p) 0 } }

/-- CIRC_PORT_CFG_WRITE (R437, R438); the write wakes the ports' domains and stalls until they are ON (spec/18 R545). -/
def circPortCfgWrite (s : State) (v : W32) : State :=
  if !bar0Ok s then s
  else match reachDoms s [domCirc 0, domCirc 1] 3 with
  | (s, false) => s
  | (s, true) => writeMode (writeMode s 0 (bits v 1 0)) 1 (bits v 3 2)

/-- CIRC_GRANT_WRITE (R441). -/
def circGrantWrite (s : State) (n : Nat) (v : W32) : State :=
  if !bar0Ok s ∨ (tget s.circ.streams n).isSome then s
  else { s with circ := { s.circ with grants := tset s.circ.grants n (bits v 5 0) } }

/-- PORT_LINK_CHANGE: a logical port that exists gains or loses link (R437, R438); one out of service, and every port of a
device in FAILED, stays down (spec/16 R492, R495). -/
def portLinkChange (s : State) (l : Nat) (up : Bool) : State :=
  let on := up && portExists s l && !s.flt.oosUnits.testBit (16 + l) && !s.flt.failed
  { s with circ := { s.circ with link := nput s.circ.link l l (if on then 1 else 0) } }

/-- A frame leaves a logical port. -/
def sendFrame (s : State) (l : Nat) (f : List Byte) : State :=
  { s with circ := { s.circ with out := tset s.circ.out l f } }

/-- A drop counted under its cause in CIRC_DROP_l (R461). -/
def dropFrame (s : State) (l cause : Nat) : State :=
  let n := satAdd 0xFFFFFFFF (tgetD s.circ.drops (8 * l + cause) 0) 1
  { s with circ := { s.circ with drops := tset s.circ.drops (8 * l + cause) n } }

/-- A frame padded to the least length of Ethernet without its FCS. -/
def padFrame (f : List Byte) : List Byte := f ++ List.replicate (60 - f.length) 0

/-- The ARP reply of a port (R440; the format of RFC 826, log 54). -/
def arpReply (s : State) (l mac ip : Nat) : List Byte :=
  padFrame (toBE 6 mac ++ toBE 6 (portMac s l) ++ toBE 2 0x0806 ++ toBE 2 1 ++ toBE 2 0x0800 ++ [6, 4] ++ toBE 2 2 ++
    toBE 6 (portMac s l) ++ toBE 4 (portIp4 s l) ++ toBE 6 mac ++ toBE 4 ip)

/-- ARP_REQUEST: the port answers for its IP4; a request that it does not answer is FOREIGN (R440, R461). -/
def arpRequest (s : State) (l mac ip target : Nat) : State :=
  if !hasLink s l then s
  else if portIp4 s l ≠ 0 ∧ target = portIp4 s l then sendFrame s l (arpReply s l mac ip) else dropFrame s l 1

/-- The 16-bit one's-complement sum of bytes in network order. -/
def netSum : List Byte → Nat
  | a :: b :: t => a.toNat * 256 + b.toNat + netSum t
  | [a] => a.toNat * 256
  | [] => 0

/-- A sum folded to 16 bits. -/
def netFold (n : Nat) : Nat :=
  let f (n : Nat) : Nat := n % 65536 + n / 65536
  f (f (f n))

/-- The Internet checksum. -/
def netCheck (l : List Byte) : Nat := 65535 - netFold (netSum l)

/-- Pseudo-header of IPv4 or IPv6 for a payload of a protocol. -/
def pseudo (v6 : Bool) (src dst proto len : Nat) : List Byte :=
  if v6 then toBE 16 src ++ toBE 16 dst ++ toBE 4 len ++ toBE 4 proto
  else toBE 4 src ++ toBE 4 dst ++ [0, BitVec.ofNat 8 proto] ++ toBE 2 len

/-- The Neighbor Advertisement of a port (R440; the format of RFC 4861, log 54). -/
def neighborReply (s : State) (l mac ip : Nat) : List Byte :=
  let all := 0xFF020000000000000000000000000001
  let dst := if ip = 0 then all else ip
  let body (ck : Nat) : List Byte := [136, 0] ++ toBE 2 ck ++ toBE 4 (if ip = 0 then 0x20000000 else 0x60000000) ++
    toBE 16 (portIp6 s l) ++ [2, 1] ++ toBE 6 (portMac s l)
  let ck := netCheck (pseudo true (portIp6 s l) dst 58 32 ++ body 0)
  toBE 6 (if ip = 0 then 0x333300000001 else mac) ++ toBE 6 (portMac s l) ++ toBE 2 0x86DD ++ toBE 4 0x60000000 ++
    toBE 2 32 ++ [58, 255] ++ toBE 16 (portIp6 s l) ++ toBE 16 dst ++ body ck

/-- The solicited-node multicast address of a port's IP6, and its MAC (R440; the forms of RFC 4291 and RFC 2464, log 54). -/
def solicitedIp (s : State) (l : Nat) : Nat := 0xFF0200000000000000000001FF000000 + portIp6 s l % 2 ^ 24
def solicitedMac (s : State) (l : Nat) : Nat := 0x333300000000 + solicitedIp s l % 2 ^ 32

/-- A Neighbor Solicitation that a port answers: for its IP6, sent to the port or to IP6's solicited-node multicast
address (R440). -/
def solicits (s : State) (l dmac dip target : Nat) : Bool :=
  portIp6 s l != 0 && target == portIp6 s l && (dmac == portMac s l || dmac == solicitedMac s l) &&
    (dip == portIp6 s l || dip == solicitedIp s l)

/-- NEIGHBOR_SOLICITATION: the port answers for its IP6; a solicitation that it does not answer is FOREIGN (R440, R461). -/
def neighborSolicitation (s : State) (l dmac mac dip ip target : Nat) : State :=
  if !hasLink s l then s
  else if solicits s l dmac dip target then sendFrame s l (neighborReply s l mac ip) else dropFrame s l 1

/-! ## Stream commands (R442 to R445) -/

/-- A field of a stream record replaced. -/
def sput (r hi lo v : Nat) : Nat := nput r hi lo v

/-- The clamps of a stream record in ascending bit order, RATE_MIN and RATE_START against the clamped RATE_MAX
(R443). -/
def clampRecord (rate r : Nat) : Nat :=
  let f (hi lo : Nat) : Nat := nbits r hi lo
  let k := f 575 570
  let r := sput r 575 570 (if k = 0 then 0 else clamp 2 32 k)
  let r := sput r 591 584 (clamp 1 255 (f 591 584))
  let r := sput r 607 592 (clamp 1280 9000 (f 607 592))
  let r := sput r 623 608 (clamp 64 4096 (f 623 608))
  let r := sput r 655 624 (clamp 9042 1048576 (f 655 624))
  let r := sput r 687 656 (clamp 0 1000000 (f 687 656))
  let mx := clamp 1000 rate (f 783 752)
  let mn := clamp 1000 mx (f 751 720)
  let r := sput r 719 688 (clamp mn mx (f 719 688))
  let r := sput r 751 720 mn
  let r := sput r 783 752 mx
  sput r 831 816 (clamp 1 65535 (f 831 816))

/-- FUNC of CIRC_GRANT_s. -/
def grantOf (s : State) (n : Nat) : Nat := tgetD s.circ.grants n 0

/-- The checks of STREAM_OPEN on its record, in the order of R68 (R443, R444). -/
def streamOpenCheck (s : State) (r : Nat) : Nat :=
  let l := nbits r 569 567
  let rate := portRate (portMode s (l / 4))
  let c := clampRecord rate r
  let f (x hi lo : Nat) : Nat := nbits x hi lo
  let onPort := s.circ.streams.filter fun e => lportOf e.2 == l
  if !portExists s l ∨ (f r 576 576 = 1 ∧ portIp6 s l = 0) ∨ (f r 576 576 = 0 ∧ portIp4 s l = 0) then stRange
  else if onPort.any fun e => f e.2.srec 831 816 = f c 831 816 && f e.2.srec 815 784 = f c 815 784 &&
      f e.2.srec 1023 896 = f c 1023 896 && f e.2.srec 847 832 = f c 847 832 then stBusy
  else if rate < (onPort.map fun e => f e.2.srec 783 752).sum + f c 783 752 ∨
      32768 < (s.circ.streams.map fun e => f e.2.srec 623 608).sum + f c 623 608 then stQuota
  else stOk

/-- A stream as STREAM_OPEN leaves it (R444). -/
def newStream (ctx srec : Nat) (status : W64) (now : Nat) : Stream :=
  { ctx := ctx, srec := srec, status := status, rateCur := nbits srec 719 688, msg := 0, seq := 0, eKey := none,
    rxKeys := [], rings := [], pq := [], bucket := nbits srec 655 624 * 10 ^ 8, bucketAt := now, ack := none,
    credLost := 0, credCe := 0, sent := 0, sentEnd := 0, queuedEnd := 0, statusDue := false }

/-- STREAM_OPEN (R442 to R444). -/
def streamOpen (f n h : Nat) (srec status : W64) (s : State) : State × Nat × Nat :=
  if 256 ≤ n ∨ bits srec 6 0 ≠ 0 ∨ bits status 4 0 ≠ 0 then (s, stRange, 0)
  else
    let r := mnat s.fab.host srec.toNat 128
    let chk := streamOpenCheck s r
    match nameObj s 1 h with
    | .error e => (s, if chk = stRange then stRange else e, 0)
    | .ok _ =>
      if chk = stRange then (s, stRange, 0)
      else if grantOf s n ≠ f then (s, stForeign, 0)
      else match ctxUse s f h with
      | .error e => (s, e, 0)
      | .ok c =>
        if (tget s.circ.streams n).isSome then (s, stBusy, 0)
        else if chk ≠ stOk then (s, chk, 0)
        else
          let r := clampRecord (portRate (portMode s (nbits r 569 567 / 4))) r
          ({ s with circ := { s.circ with streams := tset s.circ.streams n (newStream c r status s.hoop.time) } }, stOk, 0)

/-- A stream that a function may name: one granted to it (R65; log 55) and open. -/
def streamUse (s : State) (f n : Nat) : Except Nat Stream :=
  if grantOf s n ≠ f then .error stForeign
  else match tget s.circ.streams n with
  | none => .error stBusy
  | some t => .ok t

/-- A stream replaced. -/
def putStream (s : State) (n : Nat) (t : Stream) : State :=
  { s with circ := { s.circ with streams := tset s.circ.streams n t } }

/-- STREAM_RING (R442, R462). -/
def streamRing (f n kind : Nat) (base : W64) (entries : Nat) (head : W64) (fence : Nat) (s : State) :
    State × Nat × Nat :=
  if 256 ≤ n ∨ kind = 0 ∨ 4 ≤ kind ∨ bits base 10 0 ≠ 0 ∨ bits head 2 0 ≠ 0 then (s, stRange, 0)
  else match nameObj s 3 fence with
  | .error e => (s, e, 0)
  | .ok k =>
    let t := tget s.circ.streams n
    let x := tget s.obj.fences k
    let foreign : Bool := x.any fun x => x.func != f || t.any fun t => x.ctx != t.ctx
    let lost : Bool := x.any fun x => x.lost || ((ctxOf s x.ctx).any fun c => c.st == .lost)
    if grantOf s n ≠ f ∨ foreign then (s, stForeign, 0)
    else if lost then (s, stLost, 0)
    else match t with
    | none => (s, stBusy, 0)
    | some t =>
      let r : SRing := { base := base, entries := clampPow2 4 12 entries, head := head, fence := BitVec.ofNat 32 fence,
                         w := 0, c := 0 }
      (putStream s n { t with rings := tset t.rings kind r }, stOk, 0)

/-- A key installed in the ingress slots: the slot of its KEY_ID, else the one installed less recently (R450). -/
def installKey (l : List RxKey) (k : SKey) : List RxKey :=
  let l := l.filter fun x => x.key.keyId ≠ k.keyId
  (l.drop (l.length - 1)) ++ [{ key := k, high := none, map := 0 }]

/-- STREAM_KEY (R442, R448 to R450). -/
def streamKey (f n dir kid : Nat) (addr : W64) (s : State) : State × Nat × Nat :=
  if 256 ≤ n ∨ 2 ≤ dir ∨ 256 ≤ kid then (s, stRange, 0)
  else match streamUse s f n with
  | .error e => (s, e, 0)
  | .ok t =>
    let b := mread s.fab.host addr.toNat 36
    let k : SKey := { keyId := kid, key := b.take 32, salt := b.drop 32 }
    if dir = 1 then (putStream s n { t with rxKeys := installKey t.rxKeys k }, stOk, 0)
    else
      let s := putStream s n { t with eKey := some k, seq := 0 }
      ({ s with circ := { s.circ with sends := s.circ.sends.map fun r =>
          if r.stream = n then { r with replaced := true } else r } }, stOk, 0)

/-- An ENCODE or SEND of a stream is taken and not complete (R442). -/
def streamTaken (s : State) (n : Nat) : Bool :=
  s.obj.queues.any fun e => e.2.recs.any fun d => !isEnded d &&
    ((bits d.pay 7 0 == 0x50 && bits d.pay 295 288 == n) || (bits d.pay 7 0 == 0x70 && bits d.pay 231 224 == n))

/-- STREAM_CLOSE (R442, R445). A stream that is not open is closed already: BUSY (log 55). -/
def streamClose (f n : Nat) (s : State) : State × Nat × Nat :=
  if 256 ≤ n then (s, stRange, 0)
  else match streamUse s f n with
  | .error e => (s, e, 0)
  | .ok _ => if streamTaken s n then (s, stBusy, 0) else (closeStreams s fun k _ => k == n, stOk, 0)

/-! ## Packets (R446 to R448) -/

/-- The folio header of a packet, byte 0 first (R446). -/
def folio (type keyId kind sid seq msg frag nfrag len : Nat) : List Byte :=
  toBE 24 (1 * 2 ^ 188 + type * 2 ^ 184 + keyId * 2 ^ 176 + kind * 2 ^ 168 + sid * 2 ^ 128 + seq * 2 ^ 96 +
    msg * 2 ^ 64 + frag * 2 ^ 48 + nfrag * 2 ^ 32 + len)

/-- The IV of a packet (R448). -/
def packetIv (salt : List Byte) (sid seq : Nat) : List Byte := salt ++ toBE 4 sid ++ toBE 4 seq

/-- A region: folio header, ciphertext and tag (R448, R454). -/
def region (k : SKey) (sid seq : Nat) (hdr pt : List Byte) : List Byte :=
  hdr ++ gcmSeal k.key (packetIv k.salt sid seq) hdr pt

/-- The frame of a region, without its FCS (R446). -/
def frameOf (s : State) (t : Stream) (reg : List Byte) : List Byte :=
  let l := lportOf t
  let v6 := decide (sfield t 576 576 = 1)
  let tos := sfield t 583 578 * 4 + (if sfield t 577 577 = 1 then 2 else 0)
  let peer := if v6 then sfield t 1023 896 else sfield t 927 896
  let src := if v6 then portIp6 s l else portIp4 s l
  let n := 8 + reg.length
  let udp (ck : Nat) : List Byte := toBE 2 (sfield t 831 816) ++ toBE 2 (sfield t 847 832) ++ toBE 2 n ++ toBE 2 ck ++ reg
  let ck := netCheck (pseudo v6 src peer 17 n ++ udp 0)
  let ck := if ck = 0 then 65535 else ck
  let ip4 (ck : Nat) : List Byte := [0x45, BitVec.ofNat 8 tos] ++ toBE 2 (20 + n) ++ toBE 2 0 ++ toBE 2 0x4000 ++
    [64, 17] ++ toBE 2 ck ++ toBE 4 src ++ toBE 4 peer
  let ip := if v6 then toBE 4 (6 * 2 ^ 28 + tos * 2 ^ 20 + nbits (sfield t 815 784) 19 0) ++ toBE 2 n ++ [17, 64] ++
      toBE 16 src ++ toBE 16 peer
    else ip4 (netCheck (ip4 0))
  toBE 6 (sfield t 895 848) ++ toBE 6 (portMac s l) ++
    (if sfield t 566 566 = 1 then toBE 2 0x8100 ++ toBE 2 (sfield t 565 554) else []) ++
    toBE 2 (if v6 then 0x86DD else 0x0800) ++ ip ++ udp ck

/-- A packet of a region: wire bytes are the frame with its FCS, preamble and gap (R456). -/
def packetOf (s : State) (t : Stream) (reg : List Byte) : Pkt :=
  let f := frameOf s t reg
  { frame := f, wire := f.length + 24 }

/-! ## SEND (R451 to R457) -/

/-- Another SEND of the same stream was taken earlier and waits to start (R452). -/
def sendEarlier (s : State) (q : Nat) (i : W32) (n : Nat) : Bool := startsFirst s q i 0x70 (fun w => bits w 231 224) n 0 1

/-- SEND: takes the stream's next MSG and splits its payload; SENDs of one stream start one at a time (R452). -/
def startSend (s : State) (q : Nat) (i : W32) : State :=
  match (getQ s q).bind fun x => recOf x i with
  | none => s
  | some d =>
    let n := bits d.pay 231 224
    if (s.circ.sends.any fun r => r.stream = n) || sendEarlier s q i n then s
    else match beginWork s q i none 0x70 with
    | (s, .no) => s
    | (s, .go _ w _) =>
      match (tget s.circ.streams n).bind fun t => t.eKey.map fun k => (t, k) with
      | none => s
      | some (t, k) =>
        let b := sendBytes t w
        let r : SendRun := { q := q, i := i, stream := n, pay := w, key := k, seq := t.seq, replaced := false, msg := t.msg,
                             bytes := b, nfrag := sendFrags t b, frag := 0, group := [], built := 0 }
        let s := putStream s n { t with msg := t.msg + 1 }
        markStarted { s with circ := { s.circ with sends := s.circ.sends ++ [r] } } q i none

/-- The parity group is complete: K packets, or the message's last (R454). -/
def groupFull (t : Stream) (r : SendRun) : Bool :=
  let k := sfield t 575 570
  k != 0 && !r.group.isEmpty && (r.group.length == k || r.frag == r.nfrag)

/-- The XOR of byte strings, each padded with zeros to the longest. -/
def xorPad (l : List (List Byte)) : List Byte :=
  let n := l.foldl (fun m x => max m x.length) 0
  (List.range n).map fun k => l.foldl (fun b x => b ^^^ x.getD k 0) 0

/-- The plaintext of a parity packet (R454). -/
def parityText (l : List (List Byte)) : List Byte := toBE 2 (l.foldl (fun v x => Nat.xor v x.length) 0) ++ xorPad l

/-- Plaintext bytes of the next DATA packet. -/
def fragLen (t : Stream) (r : SendRun) : Nat := min (payMax t) (r.bytes - r.frag * payMax t)

/-- Frame bytes of a packet whose body has `n` bytes, FCS left out. -/
def frameLen (t : Stream) (n : Nat) : Nat :=
  14 + (if sfield t 566 566 = 1 then 4 else 0) + (if sfield t 576 576 = 1 then 40 else 20) + 8 + 24 + n + 16

/-- Bytes in a pacing queue (frames without their FCS: log 56). -/
def queuedBytes (t : Stream) : Nat := (t.pq.map fun p => p.frame.length).sum

/-- A pacing queue has room for a packet (R455, log 56). -/
def hasPqRoom (t : Stream) (n : Nat) : Bool := decide (queuedBytes t + frameLen t n ≤ sfield t 623 608 * 1024)

/-- A built packet enters the pacing queue, and the SEND with its SEQ advanced is kept (R449, R455). -/
def enqueue (s : State) (t : Stream) (r : SendRun) (reg : List Byte) : State :=
  let t := { t with pq := t.pq ++ [packetOf s t reg], seq := if r.replaced then t.seq else r.seq + 1 }
  let r := { r with seq := r.seq + 1 }
  let s := putStream s r.stream t
  { s with circ := { s.circ with sends := s.circ.sends.map fun x => if x.stream = r.stream then r else x } }

/-- A SEND whose last packet has entered the queue is finished (R455). -/
def sendEnd (s : State) (t : Stream) (r : SendRun) : State :=
  if r.frag = r.nfrag ∧ (sfield t 575 570 = 0 ∨ r.group.isEmpty) then finishWork s r.q r.i none 0 else s

/-- Bytes of the body of the packet that a SEND builds next: a parity packet after a full group (R454). -/
def nextBody (t : Stream) (r : SendRun) : Nat :=
  if groupFull t r then (parityText r.group).length else fragLen t r

/-- A started SEND with a packet to build, which its stream's pacing queue has room for: its stream, and the lines of 64 B that
remain of the packet (R452, R455; log 118). -/
def building (s : State) (r : SendRun) : Option (Stream × Nat) :=
  match tget s.circ.streams r.stream with
  | none => none
  | some t =>
    if stillRuns s r.q r.i && (groupFull t r || decide (r.frag < r.nfrag)) && hasPqRoom t (nextBody t r) then
      some (t, max 1 (cdiv (frameLen t (nextBody t r)) 64 - r.built))
    else none

/-- The SEND's queue is real-time and not demoted. -/
def sendFirst (s : State) (r : SendRun) : Bool := (getQ s r.q).any fun x => x.rt && !x.demoted

/-- The SEND whose packet the engine completes next, with the lines that each best-effort SEND's packet has then (R396, R452):
real-time queues in order of index, else those whose last line the rotating token reaches first. -/
def engineNext (s : State) : Option SendRun × List SendRun :=
  let open' := s.circ.sends.filterMap fun r => (building s r).map fun b => (r, b.2)
  let least (f : SendRun × Nat → Nat) (l : List (SendRun × Nat)) : Option (SendRun × Nat) :=
    l.foldl (fun m e => match m with
      | some d => if f e < f d then some e else some d
      | none => some e) none
  match least (fun e => e.1.q) (open'.filter fun e => sendFirst s e.1) with
  | some e => (some e.1, s.circ.sends)
  | none =>
    let place := fun (r : SendRun) => (r.q + 8192 - s.circ.engine % 8192) % 8192
    match least (fun e => e.2 * 8192 + place e.1) open' with
    | none => (none, s.circ.sends)
    | some (r, n) => (some r, s.circ.sends.map fun x =>
        if x.stream ≠ r.stream ∧ open'.any fun e => e.1.stream == x.stream then
          { x with built := x.built + (if place x < place r then n else n - 1) }
        else x)

/-- The engine's state after it has completed a SEND's packet. -/
def engineStep (s : State) (r : SendRun) : State :=
  let rest := (engineNext s).2
  { s with circ := { s.circ with sends := rest, engine := if sendFirst s r then s.circ.engine else (r.q + 1) % 8192 } }

/-- PACKET_ENQUEUE: the stream's started SEND has built its next packet, which enters the queue when there is room; a packet
of a SEND that the engine does not complete next waits (R452, R454, R455). -/
def packetEnqueue (s : State) (n : Nat) : State :=
  match (engineNext s).1 with
  | none => s
  | some r =>
    if r.stream ≠ n then s
    else match tget s.circ.streams n, getQ s r.q with
    | some t, some x =>
      let s := moves (engineStep s r) .device
      let sid := sfield t 815 784
      let hdr (type kind frag : Nat) : List Byte := folio type r.key.keyId kind sid r.seq r.msg.toNat frag r.nfrag r.bytes
      if groupFull t r then
        let h := hdr 2 r.group.length (r.frag - r.group.length)
        let r' := { r with group := [], built := 0 }
        sendEnd (enqueue s t r' (region r.key sid r.seq h (parityText r.group))) t r'
      else match vread s (feWho s r.q x) (bits r.pay 191 128 + r.frag * payMax t) (fragLen t r) with
      | (s, none) => s
      | (s, some pt) =>
        let reg := region r.key sid r.seq (hdr 1 (bits r.pay 239 232) r.frag) pt
        let r' := { r with frag := r.frag + 1, built := 0, group := if sfield t 575 570 = 0 then [] else r.group ++ [reg] }
        sendEnd (enqueue s t r' reg) t r'
    | _, _ => s

/-! ## Pacing (R456, R459, R460) -/

/-- A bucket filled at RATE_CUR × 125 B/s up to the present, at most BURST (R456). -/
def fillBucket (now : Nat) (t : Stream) : Stream :=
  { t with bucket := min (sfield t 655 624 * 10 ^ 8) (t.bucket + (now - t.bucketAt) * t.rateCur * 125)
           bucketAt := now }

/-- The head packet of a stream is eligible (R456). -/
def headReady (t : Stream) : Bool :=
  match t.pq with
  | [] => false
  | p :: _ => decide (p.wire * 10 ^ 8 ≤ t.bucket)

/-- The buckets of a logical port's streams filled up to the present. -/
def fillPort (s : State) (l : Nat) : State :=
  { s with circ := { s.circ with
    streams := tmap s.circ.streams fun _ t => if lportOf t = l then fillBucket s.hoop.time t else t } }

/-- The stream whose eligible head packet the port's rotating token chooses (R193, R456). -/
def departing (s : State) (l : Nat) : Option (Nat × Stream) :=
  let ready := (fillPort s l).circ.streams.filter fun e => lportOf e.2 == l && headReady e.2
  (ready.find? fun e => decide (tgetD s.circ.tokens l 0 ≤ e.1)).or ready.head?

/-- PACKET_DEPART: the eligible head packet that the port's token chooses leaves; without link it is discarded
(R456). -/
def packetDepart (s : State) (l : Nat) : State :=
  match departing s l with
  | none => fillPort s l
  | some (n, t) =>
    let s := fillPort s l
    match t.pq with
    | [] => s
    | p :: rest =>
      let s := putStream s n { t with pq := rest, bucket := t.bucket - p.wire * 10 ^ 8, sent := t.sent + 1 }
      let s := { s with circ := { s.circ with tokens := tset s.circ.tokens l ((n + 1) % 256) } }
      let s := moves s (portRef l)
      if hasLink s l then sendFrame s l p.frame else s

/-- RATE_CUR after an edge (R459). -/
def rateAtEdge (t : Stream) : Nat :=
  if 0 < t.credLost ∨ (sfield t 577 577 = 1 ∧ 0 < t.credCe) then
    max (sfield t 751 720) (t.rateCur - t.rateCur * sfield t 591 584 / 256)
  else min (sfield t 783 752) (t.rateCur + sfield t 687 656)

/-- A stream at an edge (R456, R459, R460). -/
def streamEdge (now : Nat) (t : Stream) : Stream :=
  let t := fillBucket now t
  { t with rateCur := rateAtEdge t, credLost := 0, credCe := 0, sentEnd := t.sent, sent := 0
           queuedEnd := queuedBytes t, statusDue := true }

/-- Every open stream at an edge. -/
def circEdge (s : State) : State :=
  { s with circ := { s.circ with streams := tmap s.circ.streams fun _ t => streamEdge s.hoop.time t } }

/-- The status record of a stream (R460). -/
def statusRecord (s : State) (n : Nat) (t : Stream) : List Byte :=
  let a (k : Nat) : Nat := (t.ack.getD []).getD k 0
  let next := match s.circ.sends.find? fun r => r.stream = n with
    | some r => r.seq
    | none => t.seq
  toLE 32 (a 4 * 2 ^ 224 + a 2 * 2 ^ 192 + a 3 * 2 ^ 160 + t.sentEnd % 2 ^ 32 * 2 ^ 128 + next % 2 ^ 32 * 2 ^ 96 +
    t.rateCur * 2 ^ 64 + t.queuedEnd % 2 ^ 32 * 2 ^ 32 + (s.hoop.tick - 1) % 2 ^ 32)

/-- STREAM_STATUS_WRITE: bits [255:32] first and TICK last (R460). -/
def streamStatusWrite (s : State) (n : Nat) : State :=
  match tget s.circ.streams n with
  | none => s
  | some t =>
    if !t.statusDue then s
    else
      let r := statusRecord s n t
      let s := hostWrite s (t.status.toNat + 4) (r.drop 4)
      putStream (hostWrite s t.status.toNat (r.take 4)) n { t with statusDue := false }

/-! ## Ingress (R458, R461 to R463) -/

/-- What a frame that is IP with UDP carries. -/
structure Dgram where
  tag : Option Nat
  v6 : Bool
  ecn : Nat
  src : Nat
  dst : Nat
  sport : Nat
  dport : Nat
  body : List Byte
  deriving DecidableEq, Repr

/-- A UDP datagram behind its IP header; none where its lengths or its checksum are wrong (R461; log 57). -/
def parseUdp (tag : Option Nat) (v6 : Bool) (tos src dst : Nat) (u : List Byte) : Option Dgram :=
  let n := beNat (slice u 4 2)
  let u := u.take n
  let ck := beNat (slice u 6 2)
  let sum := netFold (netSum (pseudo v6 src dst 17 n ++ u))
  if n < 8 ∨ u.length < n ∨ !(sum = 65535 ∨ (ck = 0 ∧ !v6)) ∨ (ck = 0 ∧ v6) then none
  else some { tag := tag, v6 := v6, ecn := tos % 4, src := src, dst := dst, sport := beNat (slice u 0 2),
              dport := beNat (slice u 2 2), body := u.drop 8 }

/-- The datagram of a frame for a port's MAC and addresses; none where R461 calls it FOREIGN. -/
def parseFrame (s : State) (l : Nat) (f : List Byte) : Option Dgram :=
  let vlan := decide (beNat (slice f 12 2) = 0x8100)
  let tag := if vlan then some (beNat (slice f 14 2) % 4096) else none
  let p := if vlan then f.drop 16 else f.drop 12
  let type := beNat (p.take 2)
  let p := p.drop 2
  let b (k : Nat) : Nat := (p.getD k 0).toNat
  if beNat (f.take 6) ≠ portMac s l then none
  else if type = 0x0800 then
    let len := beNat (slice p 2 2)
    if b 0 ≠ 0x45 ∨ b 9 ≠ 17 ∨ beNat (slice p 6 2) % 0x4000 ≠ 0 ∨ len < 20 ∨ p.length < len ∨ portIp4 s l = 0 ∨
        beNat (slice p 16 4) ≠ portIp4 s l then none
    else parseUdp tag false (b 1) (beNat (slice p 12 4)) (portIp4 s l) ((p.take len).drop 20)
  else if type = 0x86DD then
    let len := beNat (slice p 4 2)
    if b 0 / 16 ≠ 6 ∨ b 6 ≠ 17 ∨ p.length < 40 + len ∨ portIp6 s l = 0 ∨ beNat (slice p 24 16) ≠ portIp6 s l then none
    else parseUdp tag true (b 0 % 16 * 16 + b 1 / 16) (beNat (slice p 8 16)) (portIp6 s l) ((p.take (40 + len)).drop 40)
  else none

/-- The open stream that a datagram on a port matches (R461, check 4). -/
def matchStream (s : State) (l : Nat) (d : Dgram) (sid : Nat) : Option (Nat × Stream) :=
  s.circ.streams.find? fun e =>
    let t := e.2
    lportOf t == l && sfield t 831 816 == d.dport && sfield t 815 784 == sid && decide ((sfield t 576 576 = 1) = d.v6) &&
    sfield t 1023 896 == d.src && sfield t 847 832 == d.sport &&
    (if sfield t 566 566 = 1 then d.tag == some (sfield t 565 554) else d.tag == none)

/-- A SEQ is at or below H − 64, or its bit in the window is set (R450, R461). -/
def replayed (k : RxKey) (seq : Nat) : Bool :=
  match k.high with
  | none => false
  | some h => decide (seq + 64 ≤ h) || (decide (seq ≤ h) && bit k.map (h - seq))

/-- The replay window after a SEQ is accepted: bit j of the map stands for H − j. -/
def windowAfter (k : RxKey) (seq : Nat) : RxKey :=
  match k.high with
  | none => { k with high := some seq, map := 1 }
  | some h =>
    if h < seq then { k with high := some seq, map := BitVec.ofNat 64 (k.map.toNat * 2 ^ min 64 (seq - h) + 1) }
    else { k with map := k.map ||| BitVec.ofNat 64 (2 ^ (h - seq)) }

/-- An accepted ACK and the rate control (R458): a body shorter than five values is not used (log 57). -/
def useAck (t : Stream) (pt : List Byte) : Stream :=
  let v (k : Nat) : Nat := beNat (slice pt (4 * k) 4)
  let old (k : Nat) : Nat := (t.ack.getD []).getD k 0
  let diff (k : Nat) : Nat := (v k + 2 ^ 32 - old k) % 2 ^ 32
  let newer := t.ack.isNone || (decide (1 ≤ diff 0) && decide (diff 0 < 2 ^ 31))
  if pt.length < 20 ∨ !newer then t
  else { t with ack := some [v 0, v 1, v 2, v 3, v 4], credLost := t.credLost + diff 2, credCe := t.credCe + diff 3 }

/-- The record header of a delivered packet (R462). -/
def ingressHeader (time seq l ecn keyId type len : Nat) : List Byte :=
  toLE 32 (time % 2 ^ 64 * 2 ^ 192 + seq * 2 ^ 160 + l * 2 ^ 146 + ecn * 2 ^ 144 + keyId * 2 ^ 136 + type * 2 ^ 128 +
    len * 2 ^ 96)

/-- Ring kind of a packet TYPE (R442, R446). -/
def ringKind (type : Nat) : Nat := if type = 3 then 3 else if type = 4 then 1 else 2

/-- Delivery of an authenticated packet to its ring, with the fence signal (R461 check 8, R462, R463). -/
def deliver (s : State) (l n : Nat) (t : Stream) (d : Dgram) (type seq keyId : Nat) (pt : List Byte) : State :=
  match tget t.rings (ringKind type) with
  | none => dropFrame s l 7
  | some r =>
    let who : Who := { asid := t.ctx, slot := none, site := .port (l / 4) }
    match (if r.w - r.c = r.entries then vnat s who r.head.toNat 8 else (s, some r.c)) with
    | (s, none) => s
    | (s, some c) =>
      let r := { r with c := c }
      if (r.w + 2 ^ 64 - c) % 2 ^ 64 = r.entries then dropFrame (putStream s n { t with rings := tset t.rings (ringKind type) r }) l 7
      else
        let bytes := ingressHeader s.hoop.time seq l d.ecn keyId type pt.length ++ pt
        match vwrite s who (r.base.toNat + 2048 * (r.w % r.entries)) bytes with
        | (s, false) => s
        | (s, true) =>
          let r := { r with w := r.w + 1 }
          let t := { t with rings := tset t.rings (ringKind type) r }
          let s := putStream s n (if type = 3 then useAck t pt else t)
          signalHandle s r.fence.toNat (BitVec.ofNat 64 r.w)

/-- The checks from BAD_HDR on (R461). -/
def ringAdmit (s : State) (l : Nat) (d : Dgram) : State :=
  let h := d.body
  let type := (h.getD 0 0).toNat % 16
  let keyId := (h.getD 1 0).toNat
  let sid := beNat (slice h 4 4)
  let seq := beNat (slice h 8 4)
  if h.length < 40 ∨ 2056 < h.length ∨ (h.getD 0 0).toNat / 16 ≠ 1 ∨ type < 3 ∨ 5 < type then dropFrame s l 2
  else match matchStream s l d sid with
  | none => dropFrame s l 3
  | some (n, t) =>
    match t.rxKeys.find? fun k => k.key.keyId = keyId with
    | none => dropFrame s l 4
    | some k =>
      let ct := (h.drop 24).take (h.length - 40)
      match gcmOpen k.key.key (packetIv k.key.salt sid seq) (h.take 24) ct (h.drop (h.length - 16)) with
      | none => dropFrame s l 5
      | some pt =>
        if replayed k seq then dropFrame s l 6
        else
          let t := { t with rxKeys := t.rxKeys.map fun x => if x.key.keyId = keyId then windowAfter x seq else x }
          deliver (putStream s n t) l n t d type seq keyId pt

/-- An ARP request that R440 answers: the sender's MAC and address. -/
def asArp (s : State) (l : Nat) (f : List Byte) : Option (Nat × Nat) :=
  if (beNat (f.take 6) = portMac s l ∨ beNat (f.take 6) = 0xFFFFFFFFFFFF) ∧ beNat (slice f 12 2) = 0x0806 ∧
      beNat (slice f 20 2) = 1 ∧ portIp4 s l ≠ 0 ∧ beNat (slice f 38 4) = portIp4 s l then
    some (beNat (slice f 22 6), beNat (slice f 28 4))
  else none

/-- A Neighbor Solicitation that R440 answers: the sender's MAC and address. -/
def asSolicit (s : State) (l : Nat) (f : List Byte) : Option (Nat × Nat) :=
  if beNat (slice f 12 2) = 0x86DD ∧ f.getD 20 0 = 58 ∧ f.getD 54 0 = 135 ∧
      solicits s l (beNat (f.take 6)) (beNat (slice f 38 16)) (beNat (slice f 62 16)) then
    some (beNat (slice f 6 6), beNat (slice f 22 16))
  else none

/-- The stream that a frame would be delivered to, for what goes wrong at its port (R463). -/
def frameStream (s : State) (l : Nat) (f : List Byte) : Option (Nat × Stream) :=
  match parseFrame s l f with
  | some d => matchStream s l d (beNat (slice d.body 4 4))
  | none => none

/-- FRAME_RECEIVE: the checks in order; the first that fails drops and counts the frame (R461). A frame reaches a port
that has link, whose domain it wakes (spec/18 R545). -/
def frameReceive (s : State) (l : Nat) (fcs : Bool) (f : List Byte) : State :=
  if !hasLink s l then s
  else match reachDom s (domCirc (l / 4)) 5 with
  | (s, false) => s
  | (s, true) =>
    let s := moves s (portRef l)
    if !fcs then dropFrame s l 0
    else match parseFrame s l f, asArp s l f, asSolicit s l f with
    | some d, _, _ => ringAdmit s l d
    | none, some (m, ip), _ => sendFrame s l (arpReply s l m ip)
    | none, none, some (m, ip) => sendFrame s l (neighborReply s l m ip)
    | none, none, none => dropFrame s l 1

/-! ## Commands -/

def execCircPortCfgWrite (v : W32) (s : State) : Host.Outcome State Fault Refusal := .next (circPortCfgWrite s v)

def execCircGrantWrite (n : Fin 256) (v : W32) (s : State) : Host.Outcome State Fault Refusal :=
  .next (circGrantWrite s n.val v)

def execPortLinkChange (l : Fin 8) (up : Bool) (s : State) : Host.Outcome State Fault Refusal :=
  .next (portLinkChange s l.val up)

def execArpRequest (l : Fin 8) (mac : BitVec 48) (ip target : W32) (s : State) : Host.Outcome State Fault Refusal :=
  .next (arpRequest s l.val mac.toNat ip.toNat target.toNat)

def execNeighborSolicitation (l : Fin 8) (mac : Ends (BitVec 48)) (ip : Ends (BitVec 128)) (target : BitVec 128) (s : State) :
    Host.Outcome State Fault Refusal :=
  .next (neighborSolicitation s l.val mac.dst.toNat mac.src.toNat ip.dst.toNat ip.src.toNat target.toNat)

def execSend (q : Fin 8193) (i : W32) (s : State) : Host.Outcome State Fault Refusal := .next (startSend s q.val i)

def execStreamStatusWrite (n : Fin 256) (s : State) : Host.Outcome State Fault Refusal :=
  .next (streamStatusWrite s n.val)

def execStreamOpen (c : Call) (n h : W32) (srec status : W64) (s : State) : Host.Outcome State Fault Refusal :=
  .next (fwCommand s c 0x38 (streamOpen c.func.val n.toNat h.toNat srec status))

def execStreamRing (c : Call) (n kind : W32) (base : W64) (entries : W32) (head : W64) (fence : W32) (s : State) :
    Host.Outcome State Fault Refusal :=
  .next (fwCommand s c 0x39 (streamRing c.func.val n.toNat kind.toNat base entries.toNat head fence.toNat))

def execStreamKey (c : Call) (n dir kid : W32) (addr : W64) (s : State) : Host.Outcome State Fault Refusal :=
  .next (fwCommand s c 0x3A (streamKey c.func.val n.toNat dir.toNat kid.toNat addr))

def execStreamClose (c : Call) (n : W32) (s : State) : Host.Outcome State Fault Refusal :=
  .next (fwCommand s c 0x3B (streamClose c.func.val n.toNat))

end Sys2Proof.Machine
end

