-- ==== Sys2Proof/Machine/Admit.lean ====
section
/-! DEFINITION. Admission of real-time queues (spec/05 R155 to R157, spec/18 R531, R532). -/

namespace Sys2Proof.Machine

/-- Register values by the BAR0 offset of the active copy: the active state, or one that an accession would make. -/
abbrev View := Nat → Nat

/-- The active values. -/
def activeView (s : State) : View := fun off => active s off

/-- CORE frequency of a performance level, in units of 10 MHz (R531). -/
def coreFreq (level : Nat) : Nat := [180, 160, 140, 120, 105, 90, 75, 60].getD level 60

/-- VDD_CORE of a performance level, in mV (R531). -/
def coreVolt (level : Nat) : Nat := [850, 810, 770, 730, 700, 670, 640, 600].getD level 600

/-- f_u of a media class, in units of 10 MHz (R532). -/
def unitFreq (cls : Nat) : Nat := if cls = 3 then 100 else if cls = 4 then 120 else if cls = 5 then 150 else 133

/-- T_open in timebase cycles (R156). -/
def openCyc (v : View) : Nat := nbits (v oPeriod) 23 0 - 100 * nbits (v oMargin) 8 0

/-- Q_rt and G_rt of a slot (spec/06). -/
def rtQuads (v : View) (n : Nat) : Nat := nbits (v (oRt n)) 22 16
def rtGroups (v : View) (n : Nat) : Nat := popcount 16 (v (oRt n))

/-- The real-time queues bound to a slot (R157). -/
def rtOfSlot (s : State) (n : Nat) : List Queue :=
  (s.obj.queues.filter fun e => decide (e.1 < 8192) && e.2.rt && decide (e.2.cls < 3) && e.2.slot == n).map (·.2)

/-- The real-time queues bound to a media unit; every COMPOSE queue is bound to the one pipeline, every SEND queue to
the one engine (spec/13 R406, spec/15 R464). -/
def rtOfUnit (s : State) (cls unit : Nat) : List Queue :=
  (s.obj.queues.filter fun e => decide (e.1 < 8192) && e.2.rt && e.2.cls == cls &&
    (cls == 3 || cls == 6 || e.2.unit == unit)).map (·.2)

/-- The sums of a slot fit its reserved share (R156). -/
def slotFits (v : View) (level n : Nat) (qs : List Queue) : Bool :=
  decide ((qs.map (·.bQc)).sum ≤ rtQuads v n * openCyc v * coreFreq level / 10) &&
  decide ((qs.map (·.bHb)).sum * 4096 ≤ rtGroups v n * 5750 * openCyc v)

/-- The sum of a media unit fits its open phase (R156). -/
def unitFits (v : View) (cls : Nat) (qs : List Queue) : Bool :=
  decide ((qs.map (·.bUc)).sum ≤ openCyc v * unitFreq cls / 10)

/-- R156 for one queue together with those admitted before it, at the level in force. -/
def admits (s : State) (x : Queue) : Bool :=
  if x.cls < 3 then slotFits (activeView s) s.pwr.levelNow x.slot (x :: rtOfSlot s x.slot)
  else unitFits (activeView s) x.cls (x :: rtOfUnit s x.cls x.unit)

/-- The sum of quad-cycles or unit cycles that an admission leads to (spec/17 R515). -/
def admitSum (s : State) (x : Queue) : Nat :=
  if x.cls < 3 then ((x :: rtOfSlot s x.slot).map (·.bQc)).sum
  else ((x :: rtOfUnit s x.cls x.unit).map (·.bUc)).sum

/-- The slot and media units whose queues do not fit under a view. -/
def slotsOver (s : State) (v : View) (level : Nat) : List Nat :=
  (List.range 48).filter fun n => !slotFits v level n (rtOfSlot s n)

/-- Some media unit's queues do not fit under a view. -/
def unitsOver (s : State) (v : View) : Bool :=
  !unitFits v 3 (rtOfUnit s 3 0) || !unitFits v 6 (rtOfUnit s 6 0) ||
  ((List.range 12).any fun n => !unitFits v 4 (rtOfUnit s 4 n)) ||
  ((List.range 4).any fun n => !unitFits v 5 (rtOfUnit s 5 n))

/-- Firmware's translation of an address of a context, by a walk from the root (R155, spec/17 R500; log 58). -/
def fwTrans (s : State) (ctx va : Nat) : Tr :=
  if 2 ^ 52 ≤ va then .bad
  else match (walk s 16 true [] ctx va).2 with
  | .leaf size e => checkLeaf s { asid := ctx, slot := none, site := .port 0 } .read va size e
  | .absent => .absent
  | .bad => .bad

/-- 64 B that firmware reads at a virtual address of a context, past the stack tier; none where the page is not present or
the access fails its check. -/
def fwRead64 (s : State) (ctx va : Nat) : Option Nat :=
  match fwTrans s ctx va with
  | .mem pa _ => some (mnat s.fab.mem pa 64)
  | .host ba => if Config.hostRefuses ba s.hoop.time then none else some (mnat s.fab.host ba 64)
  | .twin _ => none
  | .absent => none
  | .bad => none
  | .wait => none

/-- Firmware's read fails its permission check, which loses the context (spec/04 R107, R113). -/
def fwReadBad (s : State) (ctx va : Nat) : Bool :=
  match fwTrans s ctx va with
  | .bad => true
  | .host ba => Config.hostRefuses ba s.hoop.time
  | _ => false

/-- The BUDGET of a real-time queue: QC, HB, UC, where R155 accepts its entry. -/
def budgetEntry (cls : Nat) (w : Option Nat) : Option (Nat × Nat × Nat) :=
  match w with
  | none => none
  | some w =>
    let qc := nbits w 159 128
    let hb := nbits w 191 160
    let uc := nbits w 223 192
    if nbits w 7 0 ≠ 4 then none
    else if cls < 3 then (if uc = 0 then some (qc, hb, uc) else none)
    else if qc = 0 ∧ hb = 0 then some (qc, hb, uc) else none

end Sys2Proof.Machine
end

