-- ==== Sys2Proof/Machine/ObjectCmds.lean ====
section
/-! DEFINITION. Object commands (spec/03 R62 to R103, R595), with the rings that commands place (spec/04 R117, spec/06
R188) and CTX_STANDBY (spec/16 R476). -/

namespace Sys2Proof.Machine

/-! ## Creating (R62, R66, R472) -/

/-- The lowest index from `n` upward that neither twin uses; the fuel is at least the number of indices in use. -/
def freeIndex (used : Nat → Bool) : Nat → Nat → Nat
  | 0, n => n
  | fuel + 1, n => if used n then freeIndex used fuel (n + 1) else n

/-- Indices of a type that the other twin uses. -/
def peerCount (s : State) (ty : Nat) : Nat := (s.twin.peer.filter fun e => e.1 / 65536 == ty).length

/-- An index that either twin uses. -/
def usedIndex (s : State) (ty n : Nat) : Bool :=
  (ownerFn s.obj ty n).isSome || (tget s.twin.peer (ty * 65536 + n)).isSome

/-- Twin B: its indices come from firmware of A (R472). -/
def isB (s : State) : Bool := twinAttached s && s.twin.role

/-- The index that a create takes: the lowest that is free on both twins, or on twin B the one that firmware of A gives
(R70, R78, R472; log 114). -/
def newIndex (s : State) (ty given : Nat) : Nat :=
  if isB s then given else freeIndex (usedIndex s ty) (allocated s.obj ty + peerCount s ty) 0

/-- A create would exceed the function's quota or the limit of the device, or of the pair (R66, R68, R472). -/
def overQuota (s : State) (ty f : Nat) : Bool :=
  decide (quotaOf s.obj ty f ≤ countOf s.obj ty f) || decide (typeLimit ty ≤ allocated s.obj ty + peerCount s ty)

/-- A create on twin B waits while its Selvage link is retrying, and for an index that firmware of A can give (R472; log 114). -/
def createWaits (s : State) (ty given : Nat) : Bool :=
  isB s && (s.twin.retrying || usedIndex s ty given || decide (typeLimit ty ≤ given))

/-- A create on twin B while its link is lost: BUSY, behind the checks that come before it (R68, R472). -/
def busyOnB (op : State → State × Nat × Nat) (s : State) : State × Nat × Nat :=
  let r := op s
  if s.twin.watch && s.twin.role && (r.2.1 == stOk || decide (stBusy < r.2.1)) then (s, stBusy, 0) else r

/-- A firmware command that creates an object of a type. -/
def fwCreate (s : State) (c : Call) (ty cmd : Nat) (op : State → State × Nat × Nat) : State :=
  if createWaits s ty c.index then s else fwCommand s c cmd (busyOnB op)

/-- QUOTA_SET (R66). -/
def quotaSet (func ty quota : Nat) (s : State) : State × Nat × Nat :=
  if ty = 0 ∨ 6 ≤ ty ∨ 64 ≤ func then (s, stRange, 0)
  else
    let q := clamp 0 (typeLimit ty) quota
    let others := ((List.range 64).filter (· ≠ func)).map fun f => quotaOf s.obj ty f
    if typeLimit ty < others.sum + q ∨ q < countOf s.obj ty func then (s, stBusy, 0)
    else (setObj s { s.obj with quotas := tset s.obj.quotas (func * 8 + ty) q }, stOk, 0)

/-- A page-table root that lies where R109 lets a top-level table lie. -/
def rootOk (root : Nat) : Bool := root % 0x10000 == 0 && decide (root + 0x10000 ≤ hbmEnd)

/-- CTX_CREATE (R70, R109). -/
def ctxCreate (given f : Nat) (root : W64) (s : State) : State × Nat × Nat :=
  if !rootOk root.toNat then (s, stRange, 0)
  else if overQuota s 1 f then (s, stQuota, 0)
  else
    let c := newIndex s 1 given
    let x : Ctx := { func := f, st := .active, reason := 0, root := root, standbyRoot := 0, standbySlot := 0xFF }
    let s := setObj s { s.obj with ctxs := tset s.obj.ctxs c x }
    (s, stOk, handleOf s.obj 1 c)

/-- A graph node of a launch that is cut: what has not started is discarded (R162). -/
def cutNode (n : Node) : Node :=
  match n.d.stage with
  | .armed | .held | .taken => { n with d := { n.d with stage := .taken, waiting := false } }
  | _ => n

/-- A run or pass that waits for quads or room: none of its work has been placed (R162). -/
def waitsForRoom (s : State) (q : Nat) (i : W32) (node : Option Nat) : Bool :=
  s.cores.runs.any fun e => e.2.q == q && e.2.i == i && e.2.node == node && e.2.next == 0

/-- What a unit executes of a queue that drains: it finishes (R162). -/
def executes (s : State) (q : Nat) (d : Desc) : Bool := match d.stage with
  | .started => !waitsForRoom s q d.idx none
  | .finished _ | .cleaning | .cleaned | .ended _ => true
  | _ => false

/-- The nodes of a launch that is cut: what has not started, a KERNEL without a placed block among it, is discarded. -/
def cutLaunch (s : State) (l : Launch) : Launch :=
  { l with cut := true, nodes := tmap l.nodes fun k n =>
      if n.d.stage = .started ∧ waitsForRoom s l.q l.i (some k) then { n with d := { n.d with stage := .taken } } else cutNode n }

/-- A queue enters DRAINING: what no unit executes is discarded, and its launches are cut (R80, R162, R163). -/
def drainQueue (s : State) (q : Nat) : State :=
  match tget s.obj.queues q with
  | none => s
  | some x =>
    let t := putQ s q { x with st := .draining, tokens := 0, resume := none, recs := x.recs.filter (executes s q) }
    let t := setObj t { t.obj with launches := s.obj.launches.map fun l => if l.q = q then cutLaunch s l else l }
    let t := dropRuns t fun r => r.q == q && r.next == 0
    let mine := t.obj.launches.filter fun l => l.q == q
    queueDrained (mine.foldl (fun s l => settleLaunch s q l.i) t) q

/-- A fence is destroyed: its waits and its events end ABANDONED, and its index is freed (R89, R95). -/
def destroyFence (s : State) (k : Nat) : State :=
  let s := endEvents (failWaits s k 0x06 none) k 0x06
  setObj s (bumpGen { s.obj with fences := tdel s.obj.fences k } 3 k)

/-- A stored graph is destroyed. -/
def destroyGraph (s : State) (g : Nat) : State :=
  setObj s (bumpGen { s.obj with graphs := tdel s.obj.graphs g } 5 g)

/-- A staged CONTEXT of a pending accession names a context handle (R72). -/
def stagedOwner (s : State) (h : Nat) : Bool :=
  s.acc.slots.any fun a => (a.st == .opened || a.st == .checking || a.st == .armed) &&
    (a.staged.any fun e => decide (0x400000 ≤ e.1) && decide (e.1 < 0x400C00) && e.1 % 0x40 == 8 &&
      nbits e.2.toNat 31 0 == h)

/-- CTX_DESTROY (R72, R595). -/
def ctxDestroy (f h : Nat) (s : State) : State × Nat × Nat :=
  match nameObj s 1 h with
  | .error e => (s, e, 0)
  | .ok c =>
    match ctxOf s c with
    | none => (s, stStale, 0)
    | some x =>
      if x.func ≠ f ∧ f ≠ 0 then (s, stForeign, 0)
      else if x.st = .destroying ∨ (slotOfCtx s h).isSome ∨ stagedOwner s h then (s, stBusy, 0)
      else
        let s := setObj s { s.obj with ctxs := tset s.obj.ctxs c { x with st := .destroying } }
        let s := closeStreams s fun _ t => t.ctx == c
        let s := ((queuesOf s c).filter fun q => decide (q < winKey) && ((tget s.obj.queues q).any fun y => y.st != .draining)).foldl
          drainQueue s
        let s := ((s.obj.fences.filter fun e => e.2.ctx == c).map (·.1)).foldl destroyFence s
        let s := ((s.obj.graphs.filter fun e => e.2.ctx == c).map (·.1)).foldl destroyGraph s
        (ctxGone s c, stDeferred, 0)

/-- CTX_MARK_LOST (R74, R595). -/
def ctxMarkLost (f h : Nat) (s : State) : State × Nat × Nat :=
  match ctxUse s f h with
  | .error e => (s, e, 0)
  | .ok c => (markLost s c 0x05, stOk, 0)

/-- CTX_QUERY: state and lost reason (R67, R65; the state's number is a Config value, log 60). -/
def ctxQuery (f h : Nat) (s : State) : State × Nat × Nat :=
  match nameObj s 1 h with
  | .error e => (s, e, 0)
  | .ok c =>
    match ctxOf s c with
    | none => (s, stStale, 0)
    | some x =>
      if x.func ≠ f ∧ f ≠ 0 then (s, stForeign, 0)
      else
        let n := match x.st with
          | .active => 0
          | .lost => 1
          | .destroying => 2
        (s, stOk, Config.ctxStateCode n % 2 ^ 32 + x.reason * 2 ^ 32)

/-- Carrel slots of the other twin: those that it reported when the pair attached (R476; log 59). -/
def peerSlots (s : State) : Nat := (s.twin.partner.map (·.slots)).getD 0

/-- CTX_STANDBY (R476). -/
def ctxStandby (f h : Nat) (root : W64) (slot : Nat) (s : State) : State × Nat × Nat :=
  if (root ≠ 0 ∧ !rootOk root.toNat) ∨ (slot ≠ 0xFF ∧ twinAttached s ∧ peerSlots s ≤ slot) then (s, stRange, 0)
  else match ctxUse s f h with
  | .error e => (s, e, 0)
  | .ok c =>
    if !twinAttached s then (s, stBusy, 0)
    else
      let o := { s.obj with ctxs := tmod s.obj.ctxs c fun x => { x with standbyRoot := root, standbySlot := slot } }
      (setObj s o, stOk, 0)

/-! ## Queues (R77 to R80, R139, R155 to R157) -/

/-- Queues of a class. -/
def classQueues (s : State) (cls : Nat) : List Queue :=
  (s.obj.queues.filter fun e => decide (e.1 < winKey) && e.2.cls == cls).map (·.2)

/-- The number with the fewest users among those allowed, lowest on ties. -/
def leastBusy (n : Nat) (allowed : Nat → Bool) (users : Nat → Nat) : Option Nat :=
  ((List.range n).filter allowed).foldl (fun best k => match best with
    | none => some k
    | some b => if users k < users b then some k else some b) none

/-- The media unit that a queue of a class is bound to (R139, R492); none where no unit or context is free. -/
def bindUnit (s : State) (cls : Nat) : Option Nat :=
  let users (k : Nat) : Nat := ((classQueues s cls).filter fun x => x.unit == k).length
  if cls = 3 then (List.range 256).find? fun k => users k == 0
  else if cls = 4 then leastBusy 12 (fun k => !s.flt.oosUnits.testBit k) users
  else if cls = 5 then leastBusy 4 (fun k => !s.flt.oosUnits.testBit (12 + k)) users
  else if cls = 6 ∧ 256 ≤ (classQueues s 6).length then none
  else some 0

/-- The checks of Q_CREATE on its completion fence, in the order of R68: 0 names none. -/
def fenceUse (s : State) (f c h : Nat) : Except Nat Unit :=
  if h = 0 then .ok ()
  else match nameObj s 3 h with
  | .error e => .error e
  | .ok k =>
    match tget s.obj.fences k with
    | none => .error stStale
    | some x => if x.func ≠ f ∨ x.ctx ≠ c then .error stForeign else if x.lost then .error stLost else .ok ()

/-- A queue as Q_CREATE makes it. -/
def newQueue (f c cls ring entries rt fence unit slot : Nat) (b : Nat × Nat × Nat) : Queue :=
  { Queue.window with
    func := f, ctx := c, cls := cls, ring := BitVec.ofNat 64 ring, entries := entries, rt := decide (rt ≠ 0),
    fence := BitVec.ofNat 32 fence, unit := unit, slot := slot, bQc := b.1, bHb := b.2.1, bUc := b.2.2 }

/-- The queue that a Q_CREATE would make, or the first check that fails (R68, R78, R139, R155). -/
def queueOf (f h cls ring entries rt fence : Nat) (s : State) : Except Nat Queue :=
  let fenceErr (c : Nat) : Option Nat := match fenceUse s f c fence with
    | .error e => some e
    | .ok _ => none
  if ring % 4096 ≠ 0 ∨ 7 ≤ cls then .error stRange
  else match nameObj s 1 h, (if fence = 0 then .ok 0 else nameObj s 3 fence) with
  | .error 2, _ => .error stRange
  | _, .error 2 => .error stRange
  | .error 3, _ => .error stStale
  | _, .error 3 => .error stStale
  | .error e, _ => .error e
  | .ok c, _ =>
    match ctxOf s c with
    | none => .error stStale
    | some x =>
      if x.func ≠ f then .error stForeign
      else match fenceErr c with
      | some 4 => .error stForeign
      | ferr =>
        if x.st = .lost ∨ ferr = some stLost then .error stLost
        else if x.st = .destroying then .error stBusy
        else if overQuota s 2 f then .error stQuota
        else match bindUnit s cls with
        | none => .error stQuota
        | some u =>
          let e := clampPow2 6 16 entries
          if rt = 0 then .ok (newQueue f c cls ring e 0 fence u 0xFF (0, 0, 0))
          else match budgetEntry cls (fwRead64 s c ring) with
          | none => .error stAdmit
          | some b =>
            if cls < 3 then
              match slotOfCtx s h with
              | none => .error stAdmit
              | some n => .ok (newQueue f c cls ring e 1 fence u n b)
            else .ok (newQueue f c cls ring e 1 fence u 0xFF b)

/-- Q_CREATE (R78, R156). The real-time flag is bit 0 of its argument (DESIGN CHOICE, log 112). -/
def qCreate (given f h cls ring entries rt fence : Nat) (s : State) : State × Nat × Nat :=
  match queueOf f h cls ring entries rt fence s with
  | .error e => (s, e, 0)
  | .ok x =>
    if x.rt ∧ !admits s x then (s, stAdmit, 0)
    else
      let q := newIndex s 2 given
      let s := setObj s { s.obj with queues := tset s.obj.queues q x }
      (s, stOk, handleOf s.obj 2 q)

/-- The marginalia point of an admission under R156 (spec/17 R515): the queue that is refused has no handle, so its
OBJECT is free (log 18). -/
def admitTrace (given : Nat) (r : Except Nat Queue) (before : State) (st : Nat) (s : State) : State :=
  match r with
  | .error _ => s
  | .ok x =>
    if !x.rt then s
    else if st = stOk then trace s 1 0 (handleOf s.obj 2 (newIndex before 2 given)) (admitSum before x)
    else trace (drew s) 1 1 ((free s).toNat % 2 ^ 32) (admitSum before x)

/-- A create of a real-time queue that is refused because firmware's read of its BUDGET failed the permission check: the
context is lost (spec/04 R113). -/
def budgetCheck (f h cls ring entries rt fence : Nat) (before s : State) : State :=
  match queueOf f h cls ring entries 0 fence before with
  | .ok x => if rt ≠ 0 ∧ fwReadBad before x.ctx ring then markLost s x.ctx 0x01 else s
  | .error _ => s

/-- Q_DESTROY (R80, R595). -/
def qDestroy (f h : Nat) (s : State) : State × Nat × Nat :=
  match nameObj s 2 h with
  | .error e => (s, e, 0)
  | .ok q =>
    match tget s.obj.queues q with
    | none => (s, stStale, 0)
    | some x =>
      let gone : Bool := match ctxOf s x.ctx with
        | some c => c.st = .destroying
        | none => false
      if x.func ≠ f ∧ f ≠ 0 then (s, stForeign, 0)
      else if gone ∨ x.st = .draining then (s, stBusy, 0)
      else (drainQueue s q, stDeferred, 0)

/-! ## Fences (R84 to R90) -/

/-- FENCE_CREATE (R84, R90). SHARED is bit 0 of its argument (DESIGN CHOICE, log 112). -/
def fenceCreate (given f h : Nat) (init : W64) (shared : Nat) (mirror : W64) (s : State) : State × Nat × Nat :=
  if bits mirror 2 0 ≠ 0 then (s, stRange, 0)
  else match ctxUse s f h with
  | .error e => (s, e, 0)
  | .ok c =>
    if overQuota s 3 f then (s, stQuota, 0)
    else
      let k := newIndex s 3 given
      let x : Fence := { func := f, ctx := c, value := init, shared := decide (shared % 2 = 1), lost := false, stale := 0,
                         mirror := mirror }
      let s := mirrorWrite (setFence s k x) x
      (s, stOk, handleOf s.obj 3 k)

/-- A fence that a command of a function names: its own, and not lost (R65, R76). -/
def fenceOf (s : State) (f h : Nat) : Except Nat Nat :=
  match nameObj s 3 h with
  | .error e => .error e
  | .ok k =>
    match tget s.obj.fences k with
    | none => .error stStale
    | some x => if x.func ≠ f then .error stForeign else if x.lost then .error stLost else .ok k

/-- FENCE_SIGNAL, with the other signals that reach the fence in the same cycle (R86). -/
def fenceSignal (f h : Nat) (v : W64) (others : List W64) (s : State) : State × Nat × Nat :=
  match fenceOf s f h with
  | .error e => (s, e, 0)
  | .ok k => (fenceCycle s k (v :: others), stOk, 0)

/-- FENCE_QUERY: VALUE, LOST and STALE, which it clears (R84, R65). -/
def fenceQuery (f h : Nat) (s : State) : State × Nat × Nat :=
  match nameObj s 3 h with
  | .error e => (s, e, 0)
  | .ok k =>
    match tget s.obj.fences k with
    | none => (s, stStale, 0)
    | some x =>
      if x.func ≠ f ∧ f ≠ 0 then (s, stForeign, 0)
      else (setFence s k { x with stale := 0 }, stOk,
        x.value.toNat + (if x.lost then 1 else 0) * 2 ^ 64 + x.stale * 2 ^ 96)

/-- FENCE_DESTROY (R89). -/
def fenceDestroy (f h : Nat) (s : State) : State × Nat × Nat :=
  match nameObj s 3 h with
  | .error e => (s, e, 0)
  | .ok k =>
    if (tget s.obj.fences k).any fun x => x.func ≠ f ∧ f ≠ 0 then (s, stForeign, 0)
    else (destroyFence s k, stOk, 0)

/-! ## Events (R91 to R96) -/

/-- A ring placed: nothing written to it yet, the records dropped so far kept for its first record (R91, R92). The device's
copy of HEAD is 0 until it first reads HEAD (DESIGN CHOICE, log 112). -/
def placeRing (r : Ring) (base : W64) (entries vector : Nat) : Ring :=
  { r with base := some base, entries := entries, written := 0, head := 0, vector := vector }

/-- EVENT_RING_SET (R91); its vector is one of the function's event vectors (spec/19 R574). -/
def eventRingSet (f : Nat) (addr : W64) (entries vector : Nat) (s : State) : State × Nat × Nat :=
  if bits addr 11 0 ≠ 0 ∨ vector < (if f = 0 then 5 else 1) ∨ vectorsOf f ≤ vector then (s, stRange, 0)
  else
    let x := fnOf s f
    (setFn s f { x with events := placeRing x.events addr (clampPow2 8 16 entries) vector }, stOk, 0)

/-- EVENT_CREATE (R94). -/
def eventCreate (given f h : Nat) (v step : W64) (s : State) : State × Nat × Nat :=
  match fenceOf s f h with
  | .error e => (s, e, 0)
  | .ok k =>
    if overQuota s 4 f then (s, stQuota, 0)
    else
      let e := newIndex s 4 given
      let c := ((tget s.obj.fences k).map (·.ctx)).getD 0
      let x : Event := { func := f, ctx := c, fence := k, v := v, step := BitVec.ofNat 64 (min (2 ^ 63 - 1) step.toNat) }
      let s := setObj s { s.obj with events := tset s.obj.events e x }
      (fireEvent s e, stOk, handleOf s.obj 4 e)

/-- EVENT_DESTROY (R94, R65). -/
def eventDestroy (f h : Nat) (s : State) : State × Nat × Nat :=
  match nameObj s 4 h with
  | .error e => (s, e, 0)
  | .ok k =>
    if (tget s.obj.events k).any fun x => x.func ≠ f ∧ f ≠ 0 then (s, stForeign, 0)
    else (setObj s (freeEvent s.obj k), stOk, 0)

/-! ## Stored graphs (R97 to R103) -/

/-- GRAPH_CREATE (R97). -/
def graphCreate (given f h : Nat) (s : State) : State × Nat × Nat :=
  match ctxUse s f h with
  | .error e => (s, e, 0)
  | .ok c =>
    if overQuota s 5 f then (s, stQuota, 0)
    else
      let g := newIndex s 5 given
      let e : GSlot := { table := 0, count := 0, gen := 0, inflight := 0 }
      let s := setObj s { s.obj with graphs := tset s.obj.graphs g { func := f, ctx := c, a := e, b := e, cur := none } }
      (s, stOk, handleOf s.obj 5 g)

/-- A graph as GRAPH_PUBLISH leaves it (R99): the slot that is not current is written and becomes current. -/
def publish (x : Graph) (table : W64) (count : Nat) : Graph :=
  match x.cur with
  | none => { x with a := { x.a with table := table, count := count, gen := 1 }, cur := some false }
  | some false => { x with b := { x.b with table := table, count := count, gen := x.a.gen + 1 }, cur := some true }
  | some true => { x with a := { x.a with table := table, count := count, gen := x.b.gen + 1 }, cur := some false }

/-- Launches in flight on the slot that a publish would write. -/
def publishBusy (x : Graph) : Bool :=
  match x.cur with
  | some false => decide (x.b.inflight ≠ 0)
  | _ => decide (x.a.inflight ≠ 0)

/-- Generation of the current slot. -/
def curGen (x : Graph) : Nat :=
  match x.cur with
  | none => 0
  | some false => x.a.gen.toNat
  | some true => x.b.gen.toNat

/-- GRAPH_PUBLISH (R99): its result is the slot's new generation. -/
def graphPublish (f h : Nat) (table : W64) (count : Nat) (s : State) : State × Nat × Nat :=
  if bits table 6 0 ≠ 0 then (s, stRange, 0)
  else match nameObj s 5 h with
  | .error e => (s, e, 0)
  | .ok g =>
    match tget s.obj.graphs g with
    | none => (s, stStale, 0)
    | some x =>
      if x.func ≠ f then (s, stForeign, 0)
      else if !ctxActive s x.ctx then (s, stLost, 0)
      else if publishBusy x then (s, stBusy, 0)
      else
        let x := publish x table (clamp 1 4096 count)
        (setObj s { s.obj with graphs := tset s.obj.graphs g x }, stOk, curGen x)

/-- GRAPH_DESTROY (R103, R65). -/
def graphDestroy (f h : Nat) (s : State) : State × Nat × Nat :=
  match nameObj s 5 h with
  | .error e => (s, e, 0)
  | .ok g =>
    match tget s.obj.graphs g with
    | none => (s, stStale, 0)
    | some x =>
      if x.func ≠ f ∧ f ≠ 0 then (s, stForeign, 0)
      else if x.a.inflight ≠ 0 ∨ x.b.inflight ≠ 0 then (s, stBusy, 0)
      else (destroyGraph s g, stOk, 0)

/-! ## Other rings and tables -/

/-- FAULT_RING_SET: the new ring's INVAL_DONE is written before the command completes (spec/04 R117, R125). Its vector
is that of the event ring (R120). -/
def faultRingSet (f : Nat) (addr : W64) (entries : Nat) (s : State) : State × Nat × Nat :=
  if bits addr 11 0 ≠ 0 then (s, stRange, 0)
  else
    let x := fnOf s f
    let s := setFn s f { x with faults := placeRing x.faults addr (clampPow2 6 12 entries) 0 }
    (hostWrite s (addr.toNat + 8) (toLE 4 x.invalTok.toNat), stOk, 0)

/-- SLOW_TABLE_SET (spec/06 R188). -/
def slowTableSet (f : Nat) (addr : W64) (s : State) : State × Nat × Nat :=
  if bits addr 5 0 ≠ 0 then (s, stRange, 0) else (setFn s f { fnOf s f with slow := some addr }, stOk, 0)

/-! ## Commands -/

def execQuotaSet (c : Call) (func type quota : W32) (s : State) : Host.Outcome State Fault Refusal :=
  .next (fwCommand s c 0x01 (pfOnly c (quotaSet func.toNat type.toNat quota.toNat)))

def execCtxCreate (c : Call) (root : W64) (s : State) : Host.Outcome State Fault Refusal :=
  .next (fwCreate s c 1 0x02 (ctxCreate c.index c.func.val root))

def execCtxDestroy (c : Call) (h : W32) (s : State) : Host.Outcome State Fault Refusal :=
  .next (fwCommand s c 0x03 (ctxDestroy c.func.val h.toNat))

def execCtxMarkLost (c : Call) (h : W32) (s : State) : Host.Outcome State Fault Refusal :=
  .next (fwCommand s c 0x04 (ctxMarkLost c.func.val h.toNat))

def execCtxQuery (c : Call) (h : W32) (s : State) : Host.Outcome State Fault Refusal :=
  .next (fwCommand s c 0x05 (ctxQuery c.func.val h.toNat))

def execCtxStandby (c : Call) (h : W32) (root : W64) (slot : W32) (s : State) : Host.Outcome State Fault Refusal :=
  .next (fwCommand s c 0x06 (ctxStandby c.func.val h.toNat root slot.toNat))

def execQCreate (c : Call) (ctx cls : W32) (ring : W64) (entries rt fence : W32) (s : State) :
    Host.Outcome State Fault Refusal :=
  let r := queueOf c.func.val ctx.toNat cls.toNat ring.toNat entries.toNat (rt.toNat % 2) fence.toNat s
  .next (if createWaits s 2 c.index then s else
    fwCommandWith s c 0x10 (busyOnB (qCreate c.index c.func.val ctx.toNat cls.toNat ring.toNat entries.toNat (rt.toNat % 2) fence.toNat))
      fun st t => budgetCheck c.func.val ctx.toNat cls.toNat ring.toNat entries.toNat (rt.toNat % 2) fence.toNat s
        (admitTrace c.index r s st t))

def execQDestroy (c : Call) (h : W32) (s : State) : Host.Outcome State Fault Refusal :=
  .next (fwCommand s c 0x11 (qDestroy c.func.val h.toNat))

def execFenceCreate (c : Call) (ctx : W32) (init : W64) (shared : W32) (mirror : W64) (s : State) :
    Host.Outcome State Fault Refusal :=
  .next (fwCreate s c 3 0x18 (fenceCreate c.index c.func.val ctx.toNat init shared.toNat mirror))

def execFenceSignal (c : Call) (h : W32) (v : W64) (others : List W64) (s : State) :
    Host.Outcome State Fault Refusal :=
  .next (fwCommand s c 0x19 (fenceSignal c.func.val h.toNat v others))

def execFenceQuery (c : Call) (h : W32) (s : State) : Host.Outcome State Fault Refusal :=
  .next (fwCommand s c 0x1A (fenceQuery c.func.val h.toNat))

def execFenceDestroy (c : Call) (h : W32) (s : State) : Host.Outcome State Fault Refusal :=
  .next (fwCommand s c 0x1B (fenceDestroy c.func.val h.toNat))

def execEventRingSet (c : Call) (addr : W64) (entries vector : W32) (s : State) : Host.Outcome State Fault Refusal :=
  .next (fwCommand s c 0x20 (eventRingSet c.func.val addr entries.toNat vector.toNat))

def execEventCreate (c : Call) (fence : W32) (v step : W64) (s : State) : Host.Outcome State Fault Refusal :=
  .next (fwCreate s c 4 0x21 (eventCreate c.index c.func.val fence.toNat v step))

def execEventDestroy (c : Call) (h : W32) (s : State) : Host.Outcome State Fault Refusal :=
  .next (fwCommand s c 0x22 (eventDestroy c.func.val h.toNat))

def execGraphCreate (c : Call) (ctx : W32) (s : State) : Host.Outcome State Fault Refusal :=
  .next (fwCreate s c 5 0x28 (graphCreate c.index c.func.val ctx.toNat))

def execGraphPublish (c : Call) (h : W32) (table : W64) (count : W32) (s : State) :
    Host.Outcome State Fault Refusal :=
  .next (fwCommand s c 0x29 (graphPublish c.func.val h.toNat table count.toNat))

def execGraphDestroy (c : Call) (h : W32) (s : State) : Host.Outcome State Fault Refusal :=
  .next (fwCommand s c 0x2A (graphDestroy c.func.val h.toNat))

def execFaultRingSet (c : Call) (addr : W64) (entries : W32) (s : State) : Host.Outcome State Fault Refusal :=
  .next (fwCommand s c 0x30 (faultRingSet c.func.val addr entries.toNat))

def execSlowTableSet (c : Call) (addr : W64) (s : State) : Host.Outcome State Fault Refusal :=
  .next (fwCommand s c 0x31 (slowTableSet c.func.val addr))

end Sys2Proof.Machine
end

