-- ==== Sys2Proof/Machine/Accession.lean ====
section
/-! DEFINITION. Shadow writes, accessions and their check rules (spec/02 R41 to R61, spec/06 R176, spec/07 R199 and R213,
spec/13 R391 and R392), and ACC_REQUEST (spec/17 R512). -/

namespace Sys2Proof.Machine

/-! ## Clamps and reserved bits of the shadowed registers (R45, R46, spec/00 R13) -/

/-- The active offset of a shadowed register from its active or shadow offset (R42). -/
def normOff (off : Nat) : Nat := if off % 0x100000 < 0x80000 then off else off - 0x80000

/-- HOOP_MARGIN: MARGIN_US is clamped first, then SETTLE_US against it (R30, R45). -/
def clampMargin (v : Nat) : Nat :=
  let m := clamp 50 400 (nbits v 8 0)
  m + clamp 20 (m - 20) (nbits v 24 16) * 2 ^ 16

/-- CCH_CTRL: DEPTH is the nearest of 6, 8 and 10, and no more than the container depth of OFMT (R389, R391). -/
def clampCtrl (v : Nat) : Nat :=
  let ofmt := nbits v 23 20
  let c := if ofmt = 0 ∨ ofmt = 2 then 8 else 10
  let d := nbits v 3 0
  nput (v &&& 0x80FF0000) 3 0 (if d ≤ 7 then 6 else if d ≤ 9 ∨ c = 8 then 8 else 10)

/-- CCH_SIZE: WIDTH and HEIGHT, even for OFMT 0 and 1, then PITCH against the clamped WIDTH (R389, R391). -/
def clampSize (ofmt v : Nat) : Nat :=
  let fit (n : Nat) : Nat := let n := clamp 16 16384 n; if ofmt ≤ 1 then n / 2 * 2 else n
  let w := fit (nbits v 15 0)
  let b := if ofmt = 0 then 1 else if ofmt = 1 then 2 else 4
  w + fit (nbits v 31 16) * 2 ^ 16 + clamp (cdiv (w * b) 128) 65535 (nbits v 63 48) * 2 ^ 48

/-- A target or layer register after its clamps (R389 to R391); `ofmt` is the OFMT stored in the slot, or the active one. -/
def clampTarget (r ofmt v : Nat) : Nat :=
  if r = 0x00 then nbits v 37 0
  else if r = 0x08 then clampCtrl v
  else if r = 0x20 then clampSize ofmt v
  else if r = 0x28 then nbits v 29 0
  else if 0x40 ≤ r ∧ r % 0x20 = 0x00 then nput (v &&& 0x8F8C00FFFFFF0000) 31 16 (max 1 (nbits v 31 16))
  else if 0x40 ≤ r ∧ r % 0x20 = 0x10 then
    min 16383 (nbits v 15 0) + min 16383 (nbits v 31 16) * 2 ^ 16 + clamp 1 16384 (nbits v 47 32) * 2 ^ 32 +
      clamp 1 16384 (nbits v 63 48) * 2 ^ 48
  else if 0x40 ≤ r ∧ r % 0x20 = 0x18 then min 16383 (nbits v 15 0) + min 16383 (nbits v 31 16) * 2 ^ 16
  else v

/-- The value that a write stores in a shadow copy (R45, R46; R176, R596, R199, R533). -/
def stored (off ofmt v : Nat) : Nat :=
  if off = oPeriod then clamp 208334 1666666 (nbits v 23 0)
  else if off = oMargin then clampMargin v
  else if off = oPlevel then min 7 (nbits v 3 0)
  else if 0x600000 ≤ off ∧ off < 0x600100 then nbits v 15 0
  else match targetOf off with
  | some (_, r) => clampTarget r ofmt v
  | none =>
    if 0x400000 ≤ off ∧ off < 0x400C00 then
      if off % 0x40 = 0x08 then nbits v 37 0
      else if off % 0x40 = 0x10 then nbits v 15 0 + min 64 (nbits v 22 16) * 2 ^ 16
      else if off % 0x40 = 0x18 then nbits v 7 0
      else if off % 0x40 = 0x20 ∨ off % 0x40 = 0x28 then nbits v 51 16 * 2 ^ 16
      else v
    else v

/-! ## Slots -/

/-- The slots replaced. -/
def setSlots (s : State) (l : List AccSlot) : State := { s with acc := { s.acc with slots := l } }

/-- Slot `n` (0 to 3 for the slots 1 to 4). -/
def accSlot (s : State) (n : Nat) : AccSlot := s.acc.slots.getD n AccSlot.reset

/-- A slot replaced. -/
def setSlot (s : State) (n : Nat) (a : AccSlot) : State := setSlots s (s.acc.slots.set n a)

/-- The slot in OPEN of a requester (R47). -/
def openSlot (s : State) (r : Requester) : Option Nat := s.acc.slots.findIdx? fun a => a.st = .opened && a.owner = r

/-- The lowest FREE slot. -/
def freeSlot (s : State) : Option Nat := s.acc.slots.findIdx? fun a => a.st = .free

/-- A slot whose staged registers belong to it (R48). -/
def accHolds (a : AccSlot) : Bool := a.st = .opened || a.st = .checking || a.st = .armed

/-- A requester's writes reach the ACC block: the host's through BAR0, firmware's while it runs. -/
def reqOk (s : State) : Requester → Bool
  | .host => bar0Ok s
  | .fw => s.fw.running

/-! ## Shadow writes (R42 to R48) -/

/-- The value that a write of 4 or 8 B makes, merged with the shadow copy; none for a write that reaches no register
(spec/19 R567). -/
def mergeShadow (s : State) (off size v : Nat) : Option (Nat × Nat) :=
  let n := normOff off
  if size = 8 ∧ n % 8 = 0 ∧ isShadowed n then some (n, if isShort n then v % 2 ^ 32 else v % 2 ^ 64)
  else if size = 4 ∧ n % 8 = 0 ∧ isShadowed n then
    some (n, if isShort n then v % 2 ^ 32 else nput (shadowOf s n) 31 0 v)
  else if size = 4 ∧ n % 8 = 4 ∧ isShadowed (n - 4) ∧ !isShort (n - 4) then
    some (n - 4, nput (shadowOf s (n - 4)) 63 32 v)
  else none

/-- The OFMT against which a slot's SIZE write is clamped: the one staged in it, or the active one (R391). -/
def ofmtFor (s : State) (a : AccSlot) (off : Nat) : Nat :=
  match targetOf off with
  | some (t, _) => nbits ((tgetD a.staged (oTarget t 0x08) (BitVec.ofNat 64 (active s (oTarget t 0x08)))).toNat) 23 20
  | none => 0

/-- A write to a register through a requester's open slot: discarded and marked CONFLICT when another slot holds the
register, else staged (R48). -/
def stage (s : State) (n off v : Nat) : State :=
  let a := accSlot s n
  let taken := s.acc.slots.zipIdx.any fun e => e.2 != n && accHolds e.1 && (tget e.1.staged off).isSome
  if taken then setSlot s n { a with conflicts := a.conflicts ++ [off] }
  else
    let w : W64 := BitVec.ofNat 64 (stored off (ofmtFor s a off) v)
    let s := setSlot s n { a with staged := tset a.staged off w }
    trace { s with regs := { s.regs with shadow := tset s.regs.shadow off w } } 0 1 (n + 1) off

/-- A shadow write of a requester (R44, R48). -/
def shadowWrite (s : State) (r : Requester) (off size : Nat) (v : W64) : State :=
  if !reqOk s r then s
  else match mergeShadow s off size v.toNat with
  | none => s
  | some (reg, w) =>
    match openSlot s r with
    | none => { s with acc := { s.acc with stray := satAdd 0xFFFF s.acc.stray 1 } }
    | some n => stage s n reg w

/-! ## Ends of an accession -/

/-- A host slot that ends raises the accession vector of the physical function (R58, spec/19 R574). -/
def accIrq (s : State) (r : Requester) : State :=
  match r with
  | .host => raiseMsix s 0 1
  | .fw => s

/-- The shadow copies that a slot staged return to the active values (R55). -/
def unstage (s : State) (a : AccSlot) : State :=
  { s with regs := { s.regs with
    shadow := a.staged.foldl (fun t e => tset t e.1 (BitVec.ofNat 64 (active s e.1))) s.regs.shadow } }

/-- A slot becomes REFUSED with a code and a DETAIL (R51, R55, R58; spec/17 R514). -/
def refuseSlot (s : State) (n code detail : Nat) : State :=
  let a := accSlot s n
  let s := unstage (setSlot s n { a with st := .refused, code := code, detail := detail }) a
  accIrq (dayBook s 0x0011 (n + 1) code detail) a.owner

/-- A slot becomes APPLIED at the edge that begins period `k` (R54). -/
def applySlot (s : State) (n k : Nat) : State :=
  let a := accSlot s n
  let s := setSlot s n { a with st := .applied, code := 0, detail := k % 2 ^ 32 }
  let s := { s with regs := { s.regs with active := a.staged.foldl (fun t e => tset t e.1 e.2) s.regs.active } }
  accIrq (dayBook s 0x0010 (n + 1) (k % 2 ^ 32) (if a.owner = .fw then 1 else 0)) a.owner

/-- Every slot ARMED for the edge that begins period `k` is applied at once (R54). -/
def applyArmed (s : State) (k : Nat) : State :=
  (List.range 4).foldl (fun s n =>
    let a := accSlot s n
    if a.st = .armed ∧ a.edge = k then applySlot s n k else s) s

/-! ## Views of the registers after an edge (R50) -/

/-- The staged value of a register among slots. -/
def stagedIn (l : List AccSlot) (off : Nat) : Option W64 := l.findSome? fun a => tget a.staged off

/-- A register of a slot's quads without those out of service, which firmware's own accession removes at the next edge
(spec/16 R492). -/
def withoutOos (s : State) (off v : Nat) : Nat :=
  if 0x400000 ≤ off ∧ off < 0x400C00 ∧ off % 0x40 = 0 then
    (bitList 64 v).foldl (fun a q => if s.flt.oosQuads.testBit q then a else a + 2 ^ q) 0
  else v

/-- The active values with the staged values of some slots over them. -/
def viewOver (s : State) (l : List AccSlot) : View := fun off =>
  withoutOos s off (match stagedIn l off with
    | some v => v.toNat
    | none => active s off)

/-- ARMED slots for edges up to `e`. -/
def armedTo (s : State) (e : Nat) : List AccSlot := s.acc.slots.filter fun a => a.st = .armed && decide (a.edge ≤ e)

/-- ARMED slots for edges before `e`. -/
def armedBefore (s : State) (e : Nat) : List AccSlot := s.acc.slots.filter fun a => a.st = .armed && decide (a.edge < e)

/-- Edges after `e` for which a slot is ARMED. -/
def laterEdges (s : State) (e : Nat) : List Nat :=
  ((s.acc.slots.filter fun a => a.st = .armed && decide (e < a.edge)).map (·.edge)).dedup

/-! ## Check rules (R51, R176, R213, R392) -/

/-- A failed rule: its code and the registers that it implicates. -/
abbrev Fail := Nat × List Nat

/-- Refusal codes (R51). -/
def ccConflict : Nat := 1
def ccLate : Nat := 2
def ccRange : Nat := 3
def ccOwner : Nat := 4
def ccOverlap : Nat := 5
def ccBusy : Nat := 6
def ccAdmit : Nat := 7
def ccRule : Nat := 8
def ccAborted : Nat := 9
def ccRestart : Nat := 10

/-- A rule that fails when a condition holds. -/
def failIf (c : Bool) (code : Nat) (offs : List Nat) : List Fail := if c then [(code, offs)] else []

/-- Fields of the carrel and memory registers under a view. -/
def vQuads (v : View) (n : Nat) : Nat := v (oQuads n)
def vCtx (v : View) (n : Nat) : Nat := nbits (v (oOwner n)) 31 0
def vGrant (v : View) (n : Nat) : Nat := nbits (v (oOwner n)) 37 32
def vWay (v : View) (k w : Nat) : Nat := nbits (v (oWays k (w / 8))) (8 * (w % 8) + 7) (8 * (w % 8))
def vGroup (v : View) (g : Nat) : Nat := nbits (v (oGroup (g / 8))) (8 * (g % 8) + 7) (8 * (g % 8))

/-- Bytes of the switch image of slot `n` (R178). -/
def imageBytes (v : View) (n : Nat) : Nat :=
  65536 * (4 * popcount 64 (vQuads v n)) * popcount 8 (v (oRetain n)) +
  2097152 * ((List.range 256).filter fun i =>
    decide (192 ≤ vWay v (i / 16) (i % 16)) && vWay v (i / 16) (i % 16) % 64 == n && (v (oStk (i / 16))).testBit (i % 16)).length

/-- A carrel slot of the part. -/
def hasSlot (s : State) (n : Nat) : Bool := decide (n < slotCount s)

/-- A context handle that a CONTEXT or OWNER may not hold: no existing context, one in DESTROYING, or one of a function
other than GRANT (R176, R392). -/
def ctxBad (s : State) (h grant : Nat) : Bool :=
  match lookup s.obj 1 h with
  | .error _ => true
  | .ok c => match ctxOf s c with
    | none => true
    | some x => x.st = .destroying || x.func != grant

/-- A context of a function that the accession does not serve (R51). -/
def notServed (s : State) (a : AccSlot) (h : Nat) : Bool :=
  match a.serves, lookup s.obj 1 h with
  | some f, .ok c => (ctxOf s c).any fun x => x.func != f
  | _, _ => false

/-- A staged register of an absent slot or slice (R5, R51). -/
def failAbsent (s : State) (a : AccSlot) : List Fail :=
  a.staged.flatMap fun e =>
    failIf ((decide (0x400000 ≤ e.1) && decide (e.1 < 0x400C00) && !hasSlot s ((e.1 - 0x400000) / 0x40)) ||
      (decide (0x401000 ≤ e.1) && decide (e.1 < 0x401100) && !hasCluster s ((e.1 - 0x401000) / 0x10)) ||
      (decide (0x600000 ≤ e.1) && decide (e.1 < 0x600100) && !hasCluster s ((e.1 - 0x600000) / 0x10))) ccRange [e.1]

/-- Slots that hold a quad under a view. -/
def quadHolders (v : View) (q : Nat) : List Nat := (List.range 48).filter fun n => (vQuads v n).testBit q

/-- Slots that a context owns under a view. -/
def ctxHolders (v : View) (h : Nat) : List Nat := (List.range 48).filter fun n => vCtx v n == h

/-- An image would move in the switch of slot `n` (R178, R179). -/
def imageMoves (v before : View) (n : Nat) : Bool :=
  (vCtx before n != 0 && before (oSave n) != 0 && imageBytes before n != 0) ||
  (vCtx v n != 0 && v (oLoad n) != 0 && imageBytes v n != 0)

/-- The rules of R176 for slot `n`, and BUSY of R51. -/
def failSlot (s : State) (a : AccSlot) (v before : View) (n : Nat) : List Fail :=
  let h := vCtx v n
  let staged := (tget a.staged (oOwner n)).isSome
  failIf ((bitList 64 (tgetD a.staged (oQuads n) 0).toNat).any fun q => !hasQuad s q || s.flt.oosQuads.testBit q) ccRange
    [oQuads n] ++
  failIf (h != 0 && (ctxBad s h (vGrant v n) || (staged && notServed s a h))) ccOwner [oOwner n] ++
  failIf (h != 0 && vQuads v n == 0) ccRule [oOwner n, oQuads n] ++
  failIf (h != 0 && s.mmu.carveNext.testBit n) ccRule [oOwner n] ++
  failIf (decide (popcount 64 (vQuads v n) < rtQuads v n)) ccRule [oRt n, oQuads n] ++
  failIf (h != 0 && decide (1 < (ctxHolders v h).length)) ccRule ((ctxHolders v h).map oOwner) ++
  failIf (s.obj.queues.any fun e => decide (e.1 < winKey) && e.2.rt && decide (e.2.cls < 3) && h != 0 &&
    ctxHandle s e.2.ctx == h && e.2.slot != n) ccRule [oOwner n] ++
  failIf (staged && h != vCtx before n && (tgetD s.car n CarSlot.reset).phase != .idle) ccBusy [oOwner n] ++
  failIf (h != vCtx before n && imageMoves v before n && nbits (v (oRt n)) 15 0 == 0) ccRule
    [oOwner n, oRt n, oSave n, oLoad n]

/-- The rules of R176 for way `w` of slice `k`. -/
def failWay (s : State) (v : View) (k w : Nat) : List Fail :=
  let b := vWay v k w
  let off := oWays k (w / 8)
  failIf (b.testBit 6 && decide (b < 128)) ccRule [off] ++
  (if b < 128 then []
   else failIf (!hasSlot s (b % 64)) ccRange [off] ++
     failIf (hasSlot s (b % 64) && nbits (vQuads v (b % 64)) (4 * k + 3) (4 * k) == 0) ccRule [off, oQuads (b % 64)])

/-- RT_GROUPS names a group that is not one of the slot's (R176, R213). -/
def failRtGroups (v : View) (n : Nat) : List Fail :=
  failIf ((List.range 16).any fun g => (v (oRt n)).testBit g && !(decide (128 ≤ vGroup v g) && vGroup v g % 64 == n)) ccRule
    [oRt n, oGroup 0, oGroup 1]

/-- The rules of R213 for group `g`. -/
def failGroup (s : State) (v : View) (g : Nat) : List Fail :=
  let b := vGroup v g
  if b < 128 then []
  else failIf (!hasSlot s (b % 64)) ccRange [oGroup (g / 8)] ++
    failIf (hasSlot s (b % 64) && vQuads v (b % 64) == 0) ccRule [oGroup (g / 8), oQuads (b % 64)]

/-- The carrel rules, which staging a register of R170 or STK_MODE brings in (R176, R199). -/
def failCarrels (s : State) (a : AccSlot) (v before : View) : List Fail :=
  ((List.range 64).flatMap fun q => failIf (decide (1 < (quadHolders v q).length)) ccOverlap ((quadHolders v q).map oQuads)) ++
  ((List.range 48).flatMap fun n => failSlot s a v before n) ++
  ((List.range 256).flatMap fun i => failWay s v (i / 16) (i % 16)) ++
  ((List.range 48).flatMap fun n => failRtGroups v n)

/-- A BASE that R392 refuses. -/
def baseBad (b : Nat) : Bool := b % 128 != 0 || decide (2 ^ 52 ≤ b)

/-- The rules of R392 for a target of which a register is staged. -/
def failTarget (s : State) (a : AccSlot) (v : View) (t : Nat) : List Fail :=
  let own := v (oTarget t 0x00)
  let ctrl := v (oTarget t 0x08)
  let h := nbits own 31 0
  let staged := (tget a.staged (oTarget t 0x00)).isSome
  failIf (h != 0 && (ctxBad s h (nbits own 37 32) || (staged && notServed s a h))) ccOwner [oTarget t 0x00] ++
  (if ctrl.testBit 31 then
    failIf (decide (3 < nbits ctrl 23 20) || decide (1 < nbits ctrl 19 18)) ccRule [oTarget t 0x08] ++
    failIf (baseBad (v (oTarget t 0x10))) ccRule [oTarget t 0x08, oTarget t 0x10] ++
    failIf (baseBad (v (oTarget t 0x18))) ccRule [oTarget t 0x08, oTarget t 0x18] ++
    failIf (h == 0) ccRule [oTarget t 0x00, oTarget t 0x08]
   else []) ++
  ((List.range 8).flatMap fun l =>
    let c := v (oLayer t l 0)
    if !c.testBit 63 then []
    else
      failIf (!([0, 1, 2, 3, 6, 9].contains (nbits c 59 56)) || nbits c 51 50 == 3) ccRule [oLayer t l 0] ++
      failIf (baseBad (v (oLayer t l 8))) ccRule [oLayer t l 0, oLayer t l 8])

/-- Registers on which the share of a slot's admitted queues depends: period, margin, level, its quads and its reserved
groups (R51, R156). -/
def shareRegs (v : View) (n : Nat) : List Nat :=
  [oPeriod, oMargin, oPlevel, oQuads n, oRt n] ++
    ((List.range 16).filter fun g => (v (oRt n)).testBit g).map fun g => oGroup (g / 8)

/-- ADMIT: the queues of some slot or media unit no longer fit (R51, R156, R157); those are implicated on whose registers its
share depends. -/
def failAdmit (s : State) (a : AccSlot) (v : View) : List Fail :=
  let fails := fun (bad : Bool) (regs : List Nat) => failIf (bad && a.staged.any fun e => regs.contains e.1) ccAdmit regs
  let full := slotsOver s v (nbits (v oPlevel) 3 0)
  (full.flatMap fun n => fails true (shareRegs v n)) ++ fails (unitsOver s v) [oPeriod, oMargin]

/-- Every rule that the state after an edge breaks. -/
def failsAt (s : State) (a : AccSlot) (v before : View) : List Fail :=
  let has (p : Nat → Bool) : Bool := a.staged.any fun e => p e.1
  let car := has fun o => (decide (0x400000 ≤ o) && decide (o < 0x480000)) || (decide (0x600000 ≤ o) && decide (o < 0x600100))
  let grp := has fun o => o = oGroup 0 || o = oGroup 1
  let targets := ((a.staged.filterMap fun e => (targetOf e.1).map (·.1))).dedup
  (if car then failCarrels s a v before else []) ++
  (if grp then ((List.range 16).flatMap fun g => failGroup s v g) ++ ((List.range 48).flatMap fun n => failRtGroups v n) else []) ++
  (targets.flatMap fun t => failTarget s a v t) ++
  failAdmit s a v

/-! ## The check (R49 to R53) -/

/-- The earliest edge for which a slot that becomes ARMED now is eligible, by the index of the period it begins (R53);
before tick 0 that is tick 0 (spec/19 R576). -/
def firstEdge (s : State) : Nat :=
  if !s.hoop.running then 0 else if isOpen s then s.hoop.tick + 1 else s.hoop.tick + 2

/-- The edge that a target names, or none where it has passed or its drain phase has begun (R51, R52). -/
def targetEdge (s : State) (target : W32) : Option Nat :=
  let d := (target - BitVec.ofNat 32 s.hoop.tick).toNat
  if target = 0 then some (firstEdge s)
  else if 2 ^ 31 ≤ d ∨ d = 0 then none
  else if s.hoop.running ∧ d = 1 ∧ !isOpen s then none
  else some (s.hoop.tick + d)

/-- The lowest of a list of numbers, or 0. -/
def lowest (l : List Nat) : Nat := (l.foldl (fun m k => match m with
  | none => some k
  | some j => some (min j k)) none).getD 0

/-- The code and DETAIL of a list of failed rules: the lowest code, and the lowest staged offset that it implicates. -/
def verdict (a : AccSlot) (l : List Fail) : Nat × Nat :=
  let code := lowest (l.map (·.1))
  (code, lowest (((l.filter fun f => f.1 = code).flatMap (·.2)).filter fun o => (tget a.staged o).isSome))

/-- The check of a slot for an edge: the state after it, and the state after each later edge that has a slot ARMED (R50). -/
def checkRules (s : State) (a : AccSlot) (e : Nat) : Nat × Nat :=
  let own := failsAt s a (viewOver s (a :: armedTo s e)) (viewOver s (armedBefore s e))
  let later := (laterEdges s e).flatMap fun k =>
    failsAt s a (viewOver s (a :: armedTo s k)) (viewOver s (a :: armedBefore s k))
  verdict a (failAbsent s a ++ own ++ later)

/-- The edge, code and DETAIL of the check of a slot; CONFLICT and LATE come first (R51). -/
def checkSlot (s : State) (a : AccSlot) : Option Nat × Nat × Nat :=
  if !a.conflicts.isEmpty then (none, ccConflict, lowest a.conflicts)
  else match targetEdge s a.target with
  | none => (none, ccLate, 0)
  | some e =>
    let (code, detail) := checkRules s a e
    (some e, code, detail)

/-- A slot that stages a pair register while the twins are attached (spec/16 R473). -/
def stagesPair (s : State) (a : AccSlot) : Bool :=
  twinAttached s && ((tget a.staged oPeriod).isSome || (tget a.staged oMargin).isSome)

/-- The code that stands when the partner's check gives `p` (0 for none; free, log 62): the lower of the two, with a free
DETAIL where the partner's is the one (spec/16 R473). -/
def pairCode (s : State) (own : Nat × Nat) : Nat × Nat :=
  let p := (free s).toNat % 9
  if p ≠ 0 ∧ (own.1 = 0 ∨ p < own.1) then (p, (Config.freeValue (s.free + 1)).toNat % 2 ^ 32) else own

/-- The check of a slot ends: it becomes ARMED for its edge, or REFUSED (R49, R51). -/
def endCheck (s : State) (n : Nat) : State :=
  let a := accSlot s n
  let (e, own) := checkSlot s a
  let pair := stagesPair s a
  let (code, detail) := if pair then pairCode s own else own
  let s := if pair then drewN s 2 else s
  let s := trace s 0 3 (n + 1) code
  match e, code with
  | some e, 0 => setSlot s n { accSlot s n with st := .armed, edge := e }
  | _, _ => refuseSlot s n code detail

/-! ## Requests of firmware's own accession for a function (spec/17 R512) -/

/-- A requester opens a slot (R47). -/
def claimSlot (s : State) (r : Requester) (serves : Option Nat) (tag : W32) : State × Option Nat :=
  match openSlot s r, freeSlot s with
  | none, some n =>
    let a := { AccSlot.reset with st := .opened, owner := r, serves := serves, tag := tag }
    (traceFree (setSlot s n a) 0 0 (n + 1), some n)
  | _, _ => (s, none)

/-- ACC_TARGET of a requester. -/
def targetOfReq (s : State) : Requester → W32
  | .host => s.acc.targetHost
  | .fw => s.acc.targetFw

/-- A requester's open slot becomes CHECKING with ACC_TARGET (R49). -/
def commitSlot (s : State) (n : Nat) (r : Requester) : State :=
  traceFree (setSlot s n { accSlot s n with st := .checking, target := targetOfReq s r }) 0 2 (n + 1)

/-- The offset that an entry of an ACC_REQUEST list may name for a function, or none (R512). -/
def requestField (s : State) (f off : Nat) : Option Nat :=
  let n := normOff off
  if off % 8 ≠ 0 ∨ !isShadowed n then none
  else if 0x400000 ≤ n ∧ n < 0x400C00 ∧ n % 0x40 = 0x08 then
    (if slotGrant s ((n - 0x400000) / 0x40) = f then some n else none)
  else match targetOf n with
  | some (t, _) => if nbits (active s (oTarget t 0x00)) 37 32 = f then some n else none
  | none => none

/-- The value that a request stages: the handle fields keep GRANT (R512). -/
def requestValue (s : State) (off v : Nat) : Nat :=
  let owner : Bool := (decide (off < 0x400C00) && off % 0x40 == 0x08) || (targetOf off).any fun e => e.2 == 0
  if owner then nput (active s off) 31 0 v else v

/-- The first request without a slot is staged and committed when a slot is FREE and firmware has none in OPEN. -/
def stageReq (s : State) : State :=
  match s.fw.reqs.findIdx? fun r => r.slot.isNone with
  | none => s
  | some i =>
    match s.fw.reqs[i]? with
    | none => s
    | some r =>
      match claimSlot s .fw (some r.func) r.tag with
      | (s, none) => s
      | (s, some n) =>
        let s := r.list.foldl (fun s e => stage s n e.1 (requestValue s e.1 e.2.toNat)) s
        let s := { s with acc := { s.acc with targetFw := r.target }
                          fw := { s.fw with reqs := s.fw.reqs.set i { r with slot := some n } } }
        commitSlot s n .fw

/-- A request whose slot has ended completes with status OK, the code and the DETAIL, and firmware releases the slot. -/
def finishReq (s : State) (r : AccReq) : State :=
  match r.slot with
  | none => s
  | some n =>
    let a := accSlot s n
    if a.st = .applied ∨ a.st = .refused then
      let s := { s with fw := { s.fw with reqs := s.fw.reqs.filter fun x => x ≠ r } }
      let s := setSlot s n AccSlot.reset
      fwComplete s r.func 0x40 r.tag stOk (a.code + a.detail * 2 ^ 32)
    else s

/-- What firmware does for its requests whenever a slot has changed (R512, R518). -/
def serveReqs (s : State) : State :=
  if !s.fw.running then s else (s.fw.reqs.foldl finishReq s |> fun s => (List.range 4).foldl (fun s _ => stageReq s) s)

/-- Entries of an ACC_REQUEST list in host memory. -/
def readList (s : State) (list n : Nat) : List (Nat × W64) :=
  (List.range n).map fun k => (mnat s.fab.host (list + 16 * k) 8, BitVec.ofNat 64 (mnat s.fab.host (list + 16 * k + 8) 8))

/-- ACC_REQUEST (R512). -/
def accRequest (s : State) (c : Call) (list : W64) (count target : W32) : State :=
  if !fwTakes s c.func then s
  else
    let s := fwTake s c.func 0x40
    if bits list 3 0 ≠ 0 then fwComplete s c.func 0x40 c.tag stRange 0
    else
      let l := readList s list.toNat (clamp 1 64 count.toNat)
      let fields := l.map fun e => (requestField s c.func e.1).map fun o => (o, e.2)
      if fields.any (·.isNone) then fwComplete s c.func 0x40 c.tag stForeign 0
      else
        let r : AccReq := { func := c.func, tag := c.tag, list := fields.filterMap id, target := target, slot := none }
        serveReqs { s with fw := { s.fw with reqs := s.fw.reqs ++ [r] } }

/-! ## ACC_CTRL operations -/

/-- OP = OPEN; none while firmware restarts (R47, R60). -/
def accOpen (s : State) (r : Requester) : State :=
  if !reqOk s r ∨ s.fw.restarting then s else (claimSlot s r none 0).1

/-- OP = COMMIT (R49). -/
def accCommit (s : State) (r : Requester) : State :=
  if !reqOk s r then s
  else match openSlot s r with
  | none => s
  | some n => commitSlot s n r

/-- OP = ABORT (R56). -/
def accAbort (s : State) (r : Requester) : State :=
  if !reqOk s r then s
  else match openSlot s r with
  | none => s
  | some n => serveReqs (refuseSlot s n ccAborted 0)

/-- OP = RELEASE (R57). -/
def accRelease (s : State) (r : Requester) (arg : Nat) : State :=
  let a := accSlot s (arg - 1)
  if !reqOk s r ∨ arg = 0 ∨ 4 < arg ∨ a.owner ≠ r ∨ ¬ (a.st = .applied ∨ a.st = .refused) then s
  else serveReqs (setSlot s (arg - 1) AccSlot.reset)

/-- Every pending slot is refused with FW_RESTART, but for a takeover's (R60, spec/16 R478). -/
def refusePending (s : State) : State :=
  (List.range 4).foldl (fun s n =>
    let a := accSlot s n
    if accHolds a ∧ !a.takeover then refuseSlot s n ccRestart 0 else s) s

/-! ## Commands -/

def execShadowWrite (r : Requester) (off size : Nat) (v : W64) (s : State) : Host.Outcome State Fault Refusal :=
  .next (shadowWrite s r off size v)

def execAccOpen (r : Requester) (s : State) : Host.Outcome State Fault Refusal := .next (accOpen s r)

def execAccCommit (r : Requester) (s : State) : Host.Outcome State Fault Refusal := .next (accCommit s r)

def execAccAbort (r : Requester) (s : State) : Host.Outcome State Fault Refusal := .next (accAbort s r)

def execAccRelease (r : Requester) (arg : Fin 8) (s : State) : Host.Outcome State Fault Refusal :=
  .next (accRelease s r arg.val)

def execAccCheckEnd (slot : Fin 4) (s : State) : Host.Outcome State Fault Refusal :=
  .next (if (accSlot s slot.val).st = .checking ∧ s.fw.running then serveReqs (endCheck s slot.val) else s)

def execAccRequest (c : Call) (list : W64) (count target : W32) (s : State) : Host.Outcome State Fault Refusal :=
  .next (accRequest s c list count target)

end Sys2Proof.Machine
end

