-- ==== Sys2Proof/Machine/Mmu.lean ====
section
/-! DEFINITION. Walks, fault requests and invalidations as commands (spec/04 R115 to R126). -/

namespace Sys2Proof.Machine

/-! ## Walks (R115, R116, R126) -/

/-- A walk asked for by an access that misses every TLB on its path: none while one for the same page of the context is in
progress, or while every walk slot of its walker is busy, when the access waits (R115). -/
def startWalk (s : State) (w : Who) (k : AccessKind) (va : Nat) : State :=
  let same := s.mmu.walks.any fun e => e.2.asid == w.asid && e.2.va.toNat / 65536 == va / 65536 && e.2.site == w.site
  match walkerOf s w.site with
  | none => s
  | some n =>
    if same then s
    else
      let x : Walk := { asid := w.asid, va := BitVec.ofNat 64 va, acc := k, site := w.site, slot := w.slot.getD 0xFF,
                        time := s.hoop.time, walker := n, again := false, fromRoot := false }
      { s with mmu := { s.mmu with walks := tset s.mmu.walks (lowestFree s.mmu.walks 0) x } }

/-- Who asked for a walk. -/
def walkWho (x : Walk) : Who := { asid := x.asid, slot := if x.slot = 0xFF then none else some x.slot, site := x.site }

/-- The unit whose scope a walker has (spec/16 R491). -/
def walkerUnit (n : Nat) : UnitRef := if n < 16 then clusterRef n else .device

/-- PAGE_WALK_COMPLETE: the walk's leaf and pointers enter the caches; a non-present entry raises or joins a fault request;
a malformed entry, or a leaf that refuses the access, marks the context lost. A walk that an invalidation has met fills
nothing and walks again from the root (R126). -/
def pageWalkComplete (s : State) (id : Nat) (stall : Stall) : State :=
  match tget s.mmu.walks id with
  | none => s
  | some x =>
    if x.again then
      { s with mmu := { s.mmu with walks := tset s.mmu.walks id { x with again := false, fromRoot := true } } }
    else
      let w := walkWho x
      let s := moves { s with mmu := { s.mmu with walks := tdel s.mmu.walks id } } (walkerUnit x.walker)
      let s := match w.slot with
        | some n => addStall s n .walker stall
        | none => s
      if (ctxOf s x.asid).isNone then s
      else match walk s x.walker x.fromRoot (tlbPath s x.site) x.asid x.va.toNat with
      | (s, .leaf size e) =>
        (match checkLeaf s w x.acc x.va.toNat size e with
        | .bad => markLost s x.asid 0x01
        | _ => s)
      | (s, .absent) => raiseFault s w x.acc x.va.toNat
      | (s, .bad) => markLost s x.asid 0x01

/-! ## Fault records (R118 to R120) -/

/-- A free fault identifier of a function (R119): the lowest free one (DESIGN CHOICE, log 110). -/
def freeFid (s : State) (f : Nat) : Option Nat :=
  (List.range 64).find? fun n => !(s.mmu.faults.any fun r => r.func == f && r.fid == some n)

/-- The request of a function whose record is written next: the oldest that has none and can have one (DESIGN CHOICE, log
110); a hub request needs no identifier (R119, R122). -/
def nextFault (s : State) (f : Nat) : Option Nat :=
  s.mmu.faults.findIdx? fun r => r.func == f && !r.written && (r.slot == 0xFF || (freeFid s f).isSome)

/-- A fault record without PHASE and SEQ (R118, R122). -/
def faultWord (r : FaultReq) (fid : Nat) : Nat :=
  r.time % 2 ^ 64 * 2 ^ 192 + r.page % 2 ^ 36 * 2 ^ 144 + r.handle * 2 ^ 112 + r.slot * 2 ^ 88 + r.unit * 2 ^ 80 +
  fid * 2 ^ 64 + (if r.slot = 0xFF then 1 else 0) * 2 ^ 7 + accessCode r.acc

/-- The fault ring of a function has space, HEAD read once if the cached copy shows it full (R96, R120). -/
def faultSpace (s : State) (f : Nat) : State × Bool :=
  let x := fnOf s f
  match x.faults.base with
  | none => (s, false)
  | some b =>
    let r := x.faults
    let r := if ringFull r r.head then { r with head := mnat s.fab.host b.toNat 4 } else r
    (setFn s f { x with faults := r }, !ringFull r r.head)

/-- FAULT_RECORD_WRITE: a waiting request of a function writes its record, takes its identifier and raises the vector of
the function's event ring (R119, R120, R122). -/
def faultRecordWrite (s : State) (f : Nat) : State :=
  match nextFault s f with
  | none => s
  | some i =>
    match s.mmu.faults[i]?, faultSpace s f with
    | some r, (s, true) =>
      let fid := if r.slot = 0xFF then 0 else (freeFid s f).getD 0
      let (m, ring, _) := ringPut s.fab.host (fnOf s f).faults (faultWord r fid)
      let s := setFn { s with fab := { s.fab with host := m } } f { fnOf s f with faults := ring }
      let rest := if r.slot = 0xFF then s.mmu.faults.eraseIdx i
        else s.mmu.faults.set i { r with fid := some fid, written := true }
      let s := { s with mmu := { s.mmu with faults := rest, faultsCnt := satAdd 0xFFFFFFFF s.mmu.faultsCnt 1 } }
      if (fnOf s f).events.base.isSome then raiseMsix s f (fnOf s f).events.vector else s
    | _, (s, false) => s
    | none, (s, true) => s

/-- FAULT_HEAD_POLL: the device reads HEAD again while a record waits for space, and writes the record when that shows
space (R120). -/
def faultHeadPoll (s : State) (f : Nat) : State :=
  let x := fnOf s f
  match x.faults.base, nextFault s f with
  | some b, some _ =>
    faultRecordWrite (setFn s f { x with faults := { x.faults with head := mnat s.fab.host b.toNat 4 } }) f
  | _, _ => s

/-! ## Answers (R121, R123) -/

/-- MMU_COUNT.REPLY_BAD. -/
def replyBad (s : State) : State := { s with mmu := { s.mmu with replyBad := satAdd 0xFFFF s.mmu.replyBad 1 } }

/-- An answer: OUTCOME 1 RETRY or 2 NOT_MAPPED for an identifier of the function that is outstanding (R121). The answer to
a request of a context lost or destroyed only frees the identifier (R123). -/
def faultAnswer (s : State) (f outcome fid : Nat) : State :=
  if !bar2Ok s then s
  else match s.mmu.faults.findIdx? fun r => r.func == f && r.fid == some fid with
  | none => replyBad s
  | some i =>
    match s.mmu.faults[i]? with
    | none => s
    | some r =>
      let t := { s with mmu := { s.mmu with faults := s.mmu.faults.eraseIdx i } }
      if outcome = 1 then t
      else if outcome = 2 then
        match lookup s.obj 1 r.handle with
        | .ok c => markLost t c 0x01
        | .error _ => t
      else replyBad s

/-! ## Invalidation (R124 to R126) -/

/-- A write that invalidates a context's ASID: every cached translation of it goes, and walks in progress start again
(R124, R126); a handle that is out of range, stale or foreign counts in INVAL_BAD. -/
def mmuInval (s : State) (f h : Nat) (token : W32) : State :=
  if !bar2Ok s then s
  else
    let bad := { s with mmu := { s.mmu with invalBad := satAdd 0xFFFF s.mmu.invalBad 1 } }
    match nameObj s 1 h with
    | .error _ => bad
    | .ok c =>
      if (ctxOf s c).any fun x => x.func ≠ f then bad
      else
        let m := dropAsid s.mmu c
        { s with mmu := { m with invals := m.invals ++ [{ func := f, asid := c, token := token, before := s.fab.nextTxn }] } }

/-- INVAL_DONE: the first invalidation of a function completes once every access translated through an old entry has been
performed; its token is kept, and written while the function has a fault ring (R125). -/
def invalDone (s : State) (f : Nat) : State :=
  match s.mmu.invals.findIdx? fun v => v.func == f with
  | none => s
  | some i =>
    match s.mmu.invals[i]? with
    | none => s
    | some v =>
      if s.fab.txns.any fun e => decide (e.1 < v.before) && e.2.asid == v.asid then s
      else
        let x := fnOf s f
        let s := { s with mmu := { s.mmu with invals := s.mmu.invals.eraseIdx i } }
        let s := setFn s f { x with invalTok := v.token }
        match x.faults.base with
        | some b => hostWrite s (b.toNat + 8) (toLE 4 v.token.toNat)
        | none => s

/-! ## Commands -/

def execFaultRecordWrite (f : Fin 64) (s : State) : Host.Outcome State Fault Refusal := .next (faultRecordWrite s f.val)

def execFaultHeadPoll (f : Fin 64) (s : State) : Host.Outcome State Fault Refusal := .next (faultHeadPoll s f.val)

def execFaultRetry (f : Fin 64) (fid : BitVec 16) (s : State) : Host.Outcome State Fault Refusal :=
  .next (faultAnswer s f.val 1 fid.toNat)

def execFaultNotMapped (f : Fin 64) (fid : BitVec 16) (s : State) : Host.Outcome State Fault Refusal :=
  .next (faultAnswer s f.val 2 fid.toNat)

def execMmuInval (f : Fin 64) (ctx token : W32) (s : State) : Host.Outcome State Fault Refusal :=
  .next (mmuInval s f.val ctx.toNat token)

def execInvalDone (f : Fin 64) (s : State) : Host.Outcome State Fault Refusal := .next (invalDone s f.val)

end Sys2Proof.Machine
end

