-- ==== Sys2Proof/Machine/Fabric.lean ====
section
/-! DEFINITION. Transactions of the fabric, request tables, error correction and scrubbing (spec/07 R195 to R218). -/

namespace Sys2Proof.Machine

/-! ## Shares (R189, R196) -/

/-- The share from which an issuer takes its entries: a unit from that of the quad on whose behalf it issues, a walker from
that of the quad for whose access it walks, the hub and its walkers from a hub-port reserve, and from the reserves of the
west ports the host link (k00, k12), Selvage (k04) and the management core (k08). -/
def shareOk (s : State) : Issuer → Share → Bool
  | .unit n u, .quad q => (active s (oQuads n.val)).testBit q.val && siteQuad s u == some q.val
  | .carve n u, .quad q => (active s (oQuads n.val)).testBit q.val && siteQuad s u == some q.val
  | .walker n c, .quad q => s.mmu.walks.any fun e => e.2.walker == n.val && e.2.asid == c.val && siteQuad s e.2.site == some q.val
  | .walker n c, .hub _ => s.mmu.walks.any fun e => e.2.walker == n.val && e.2.asid == c.val && e.2.site.isHub
  | .hub _ _, .hub _ => true
  | .mgmt, .west r => r.val == 2
  | .selvage, .west r => r.val == 1
  | .hostLink, .west r => r.val == 0 || r.val == 3
  | _, _ => false

/-! ## Issue (R195 to R206, R214) -/

/-- Where a transaction goes, or why it does not: it waits for a walk, or its permission check fails. -/
inductive Route where
  | go (space : Space) (addr : Nat) | wait | fail | none
  deriving DecidableEq, Repr

/-- A physical access by an issuer that does not translate: only HBM and the aperture's assigned pinned ways exist (R106,
R214; spec/06 R173). -/
def physRoute (s : State) (pa : Nat) (all : Bool) : Route :=
  if 2 ^ 46 ≤ pa then .none
  else match placeOf s pa with
  | .hbm => .go .mem pa
  | .carve => if all then .go .mem pa else .none
  | .scratch k w => if all ∧ 128 ≤ wayByte s k w ∧ wayPinned s k w then .go .mem pa else .none
  | _ => .none

/-- A translated access: it waits for the answer to a fault request that it has joined (R121); else it goes through a cached
leaf, or a walk starts (R113, R115). Only an access on behalf of a slot looks in the stack tier (R201). -/
def transRoute (s : State) (w : Who) (k : AccessKind) (va : Nat) : State × Route :=
  if 2 ^ 52 ≤ va then (s, .fail)
  else if waitsAnswer s w k va then (s, .wait)
  else match tlbHit s (tlbPath s w.site) w.asid va with
  | none => (startWalk s w k va, .wait)
  | some t =>
    (fillPath s (tlbPath s w.site) t, match checkLeaf s w k va t.bitsz t.leaf.toNat, w.slot with
    | .mem pa true, some n => .go (.tier n) pa
    | .mem pa _, _ => .go .mem pa
    | .host ba, _ => .go .host ba
    | .twin pa, _ => .go .twin pa
    | _, _ => .fail)

/-- The context on whose behalf an issuer acts; 4,096 for none. -/
def issuerCtx (s : State) : Issuer → Nat
  | .unit n _ => match lookup s.obj 1 (slotOwner s n.val) with
    | .ok c => c
    | .error _ => 4096
  | .walker _ c => c.val
  | .hub h _ => match lookup s.obj 1 h.toNat with
    | .ok c => c
    | .error _ => 4096
  | _ => 4096

/-- The carve-out bit of a slot (spec/04 R129). -/
def inCarve (s : State) (n : Nat) : Bool := s.mmu.carve.testBit n

/-- The route of a transaction, by its issuer. -/
def routeOf (s : State) (t : TxnReq) : State × Route :=
  let c := issuerCtx s t.issuer
  match t.issuer with
  | .unit n u => if !ctxActive s c then (s, .none) else transRoute s { asid := c, slot := some n.val, site := u } t.kind t.addr.toNat
  | .hub _ u => if !ctxActive s c then (s, .none) else transRoute s { asid := c, slot := none, site := u } t.kind t.addr.toNat
  | .walker _ _ => (s, if t.kind = .read then physRoute s t.addr.toNat false else .none)
  | .carve n _ =>
    if !inCarve s n.val then (s, .none)
    else if 2 ^ 26 ≤ t.addr.toNat then (s, .fail)
    else (s, .go .mem (hbmEnd + n.val * 0x4000000 + t.addr.toNat))
  | .mgmt => (s, physRoute s t.addr.toNat true)
  | .hostLink => (s, physRoute s t.addr.toNat false)
  | .selvage =>
    (s, if decide (t.addr.toNat < hbmEnd) && (groupByte s (groupOf t.addr.toNat) < 128 || (groupByte s (groupOf t.addr.toNat)).testBit 6)
      then .go .mem t.addr.toNat else .none)

/-- The domains that a transaction's target needs awake (spec/18 R545). -/
def routeDoms (s : State) (space : Space) (pa : Nat) : List Nat :=
  match space with
  | .mem => if pa < carveEnd then [domHbm (groupOf pa / 2)] else [domSlice ((pa - scratchBase) / 0x2000000)]
  | .tier n => match homeSlice s n pa with
    | some k => if (findLine s n k pa).isSome then [domSlice k] else [domSlice k, domHbm (groupOf pa / 2)]
    | none => [domHbm (groupOf pa / 2)]
  | .host => []
  | .twin => [domSlv]

/-- An issuer's failed permission check: a context is lost; a carve-out failure goes into the day book (spec/04 R113,
R129). -/
def routeFail (s : State) (t : TxnReq) : State :=
  match t.issuer with
  | .carve n _ => dayBook s 0x0022 n.val 0 t.addr.toNat
  | _ => markLost s (issuerCtx s t.issuer) 0x01

/-- A request has the shape of one transaction: at most one line, and the bytes of a write or atomic (R195). -/
def txnOk (t : TxnReq) : Bool :=
  decide (1 ≤ t.len) && decide (t.addr.toNat % 128 + t.len ≤ 128) &&
  (t.kind = .read || t.kind = .fetch || t.data.length == t.len)

/-- The slot whose stall a request reports. -/
def stallSlot : Issuer → Option Nat
  | .unit n _ => some n.val
  | .carve n _ => some n.val
  | _ => none

/-- A transaction with its route, before it has an entry. -/
def newTxn (s : State) (t : TxnReq) (space : Space) (addr : Nat) : Txn :=
  let source := (sourceOf (shareKey t.share)).1
  let target := targetOf' s space addr source
  { share := shareKey t.share, issuer := t.issuer, asid := issuerCtx s t.issuer, kind := t.kind, space := space, addr := addr,
    len := t.len, data := t.data, rt := t.rt, tries := 0, entry := false, path := meshPath source target.1, port := target.2,
    hop := 0, seq := 0, lost := false, lanes := none, more := [], born := s.flt.windows, since := 0 }

/-- TRANSACTION_ISSUE: the transaction takes an entry of its share, or waits until one returns (R195, R197), and its request
sets out. With its target asleep it stalls and wakes it (spec/18 R545); without a cached translation it waits for a walk;
in these two cases the command is to be given again (log 24). -/
def transactionIssue (s : State) (t : TxnReq) : State :=
  if !txnOk t ∨ !shareOk s t.issuer t.share ∨ capOf s (shareKey t.share) = 0 ∨ s.brd.inReset ∨ s.pwr.inS3 then s
  else
    let s := match stallSlot t.issuer with
      | some n => addStall s n .router t.stall
      | none => s
    match routeOf s t with
    | (s, .none) => s
    | (s, .wait) => s
    | (s, .fail) => routeFail s t
    | (s, .go space addr) =>
      match reachDoms s (routeDoms s space addr) 1 with
      | (s, false) => s
      | (s, true) =>
        allocate { s with fab := { s.fab with txns := tset s.fab.txns s.fab.nextTxn (newTxn s t space addr)
                                              nextTxn := s.fab.nextTxn + 1 } } (shareKey t.share)

/-! ## Error counts (R207, R216 to R218) -/

/-- A stack's HBM counts. -/
def hbmOf (s : State) (n : Nat) : HbmEcc := tgetD s.fab.hbm n HbmEcc.reset

def setHbm (s : State) (n : Nat) (x : HbmEcc) : State := { s with fab := { s.fab with hbm := tset s.fab.hbm n x } }

/-- A slice's error counts. -/
def eccOf (s : State) (k : Nat) : StkEcc := tgetD s.fab.stkEcc k StkEcc.reset

def setEcc (s : State) (k : Nat) (x : StkEcc) : State := { s with fab := { s.fab with stkEcc := tset s.fab.stkEcc k x } }

/-- The stack of an HBM address. -/
def stackOf (pa : Nat) : Nat := groupOf pa / 2

/-- An uncorrectable access of HBM: counted, and logged while HBM_ERR is not VALID (R216, R218). -/
def hbmLog (s : State) (pa : Nat) (count : Bool) : State :=
  let x := hbmOf s (stackOf pa)
  let x := if count then { x with uncorrected := satAdd 0xFFFF x.uncorrected 1 } else x
  setHbm s (stackOf pa) (if x.errValid then x else { x with errValid := true, errAddr := nbits pa 45 6 })

/-- Who bears an uncorrectable read (R216): the context, or the day book for the management core; the host's read completes
with Completer Abort. -/
def txnLost (s : State) (x : Txn) (means : Nat) : State :=
  match x.issuer with
  | .mgmt => dayBook s 0x0041 0 0 x.addr
  | .hostLink => { s with bus := { s.bus with abort := true } }
  | .selvage => s
  | .carve _ _ => s
  | _ => dataFault s x.asid means

/-! ## Responses (R195, R207, R215 to R217; spec/16 R467) -/

/-- The slot and STK of a transaction's target, for the memory operations. -/
def txnSlot (x : Txn) : Option Nat × Bool :=
  match x.space with
  | .tier n => (some n, true)
  | _ => (none, false)

/-- The further bytes that a store's transaction writes to its line, in order (spec/08 R249). -/
def performMore (x : Txn) (s : State) : State :=
  let (slot, stk) := txnSlot x
  x.more.foldl (fun s w => match x.space with
    | .host => hostWrite s w.1 w.2
    | _ => physWrite s slot stk w.1 w.2) s

/-- The bytes that a transaction moves: a read gives its bytes, a write stores them, an atomic does both. `data` of an
atomic is the value that its target stores. -/
def performTxn (s : State) (x : Txn) : State :=
  let (slot, stk) := txnSlot x
  let (s, old) := match x.space with
    | .host => (s, mread s.fab.host x.addr x.len)
    | _ => match x.kind with
      | .write => (s, [])
      | _ => physRead s slot stk x.addr x.len
  let s := match x.kind with
    | .write => s
    | _ => { s with fab := { s.fab with lastRead := old } }
  match x.kind, x.space with
  | .read, _ => s
  | .fetch, _ => s
  | _, .host => performMore x (hostWrite s x.addr x.data)
  | _, _ => performMore x (physWrite s slot stk x.addr x.data)

/-- The units that wait for a transaction of a unit, for the progress monitors (spec/16 R491, R497). -/
def siteUnit : Site → UnitRef
  | .lanes c => quadRef (c / 4)
  | .tensor c => quadRef (c / 4)
  | .binner q => clusterRef (q / 4)
  | .raster q => clusterRef (q / 4)
  | .bobbin _ q => clusterRef (q / 4)
  | .encoder n => mediaRef n
  | .bindery n => mediaRef (12 + n)
  | .frontEnd _ | .copyUnit _ | .image _ | .couching _ | .port _ => .device

/-- The units that wait for a transaction: its issuer, and the request table that holds its entry. -/
def waitersOf (x : Txn) : List UnitRef :=
  [(match x.issuer with
    | .unit _ u => siteUnit u
    | .carve _ u => siteUnit u
    | .hub _ u => siteUnit u
    | .walker n _ => if n.val < 16 then clusterRef n.val else .device
    | _ => .device), clusterRef (sourceOf x.share).1]

/-- The transaction leaves flight, its entry returns, and the share's allocator gives it on (R193, R195). -/
def endTxn (s : State) (id : Nat) (x : Txn) : State :=
  allocate { s with fab := { s.fab with txns := tdel s.fab.txns id
                                        shares := tmod s.fab.shares x.share fun n => n - 1 } } x.share

/-- The unit of an issuer, whatever context or slot it serves. -/
def unitOf : Issuer → Issuer
  | .unit _ u => .carve 0 u
  | .carve _ u => .carve 0 u
  | .hub _ u => .hub 0 u
  | .walker n _ => .walker n 0
  | i => i

/-- The memory of a target: through the tier or past it, local memory is one. -/
def memoryOf : Space → Space
  | .tier _ => .mem
  | p => p

/-- Two transactions of one unit to one line are performed in their order of issue (R198). -/
def txnBlocked (s : State) (id : Nat) (x : Txn) : Bool :=
  s.fab.txns.any fun e => decide (e.1 < id) && unitOf e.2.issuer == unitOf x.issuer &&
    memoryOf e.2.space == memoryOf x.space && e.2.addr / 128 == x.addr / 128

/-- A write that needs no read: whole units of `n` bytes (R207, R215). -/
def wholeWrite (x : Txn) (n : Nat) : Bool := x.kind = .write && x.addr % n == 0 && x.len % n == 0

/-- An uncorrectable error at an HBM access: nothing moves and the loss of R216 follows; a write of whole 64 B accesses
reads nothing. -/
def hbmBad (s : State) (x : Txn) : State :=
  if wholeWrite x 64 then performTxn s x else txnLost (hbmLog s x.addr true) x 1

/-- The slice, way and set of a stack access, if it is one: a line of the tier, or a scratch address. -/
def sectorOf (s : State) (x : Txn) : Option (Nat × Nat × Nat) :=
  match x.space with
  | .tier n => (homeSlice s n x.addr).bind fun k => (findLine s n k x.addr).map fun l => (k, l.way, nbits x.addr 20 7)
  | .mem =>
    if scratchBase ≤ x.addr then
      let o := x.addr - scratchBase
      some (o / 0x2000000, o % 0x2000000 / 0x200000, o % 0x200000 / 128)
    else none
  | _ => none

/-- The context that owns the slot of a way. -/
def wayCtx (s : State) (k w : Nat) : Nat :=
  if wayByte s k w < 128 then 4096
  else match lookup s.obj 1 (slotOwner s (wayByte s k w % 64)) with
  | .ok c => c
  | .error _ => 4096

/-- An uncorrectable error at a stack sector (R207): a clean line is dropped and filled again; a dirty line or a pinned way
loses its slot's context; a way with ASSIGN = 0 counts in no field of STK_ECC (log 104); a write of whole sectors reads
nothing. LAST_WAY and LAST_SET name the sector (R208). -/
def stackBad (s : State) (x : Txn) (k w set : Nat) : State :=
  let clean : Bool := match x.space with
    | .tier n => (findLine s n k x.addr).any fun (l : StkLine) => !(l.dirty.any id)
    | _ => false
  if wholeWrite x 32 then performTxn s x
  else
    let e := eccOf s k
    let s := setEcc s k { e with lastWay := w, lastSet := set }
    if clean then
      let e := eccOf s k
      let s := setEcc s k { e with refetched := satAdd 0xFFFF e.refetched 1 }
      let keep := s.fab.lines.filter fun (l : StkLine) => !(l.slice == k && l.way == w && l.addr == x.addr / 128)
      performTxn { s with fab := { s.fab with lines := keep } } x
    else if wayByte s k w < 128 then s
    else
      let e := eccOf s k
      let s := setEcc s k { e with uncorrected := satAdd 0x3FF e.uncorrected 1 }
      if wayCtx s k w = 4096 then s else dataFault s (wayCtx s k w) 1

/-- A corrected error is counted where it lies, and the access completes (R207, R216). -/
def countCorrected (s : State) (x : Txn) : State :=
  match sectorOf s x with
  | some (k, _, _) =>
    let e := eccOf s k
    setEcc s k { e with corrected := satAdd 0xFFFF e.corrected 1 }
  | none =>
    let h := hbmOf s (stackOf x.addr)
    setHbm s (stackOf x.addr) { h with corrected := satAdd 0xFFFF h.corrected 1 }

/-- What a response of a transaction does that has been performed in its order: its bytes move, or its error has the effect
of its kind. None: a response that its target cannot give. -/
def respond (t : State) (x : Txn) (r : Resp) : Option State :=
  match x.space, r with
  | .host, .ok => some (performTxn t x)
  | .host, .hostError => some (if x.asid = 4096 then t else markLost t x.asid 0x01)
  | .twin, .ok => if x.kind = .write then some t else none
  | .twin, .twinData l => if x.kind = .write then none else some { t with fab := { t.fab with lastRead := l.take x.len } }
  | .twin, .twinRefused => some (markLost t x.asid 0x01)
  | .twin, .twinError => some (dataFault t x.asid 1)
  | .mem, .ok => some (performTxn t x)
  | .tier _, .ok => some (performTxn t x)
  | .mem, .corrected => some (performTxn (countCorrected t x) x)
  | .tier _, .corrected => some (performTxn (countCorrected t x) x)
  | .mem, .uncorrectable => some (match sectorOf t x with
    | some (k, w, set) => stackBad t x k w set
    | none => hbmBad t x)
  | .tier _, .uncorrectable => some (match sectorOf t x with
    | some (k, w, set) => stackBad t x k w set
    | none => txnLost (hbmLog t x.addr true) x 1)
  | _, _ => none

/-- The machine once a transaction has arrived at its target: it has left flight and its entry has returned, which its table
counts as progress; a read of the host link begins to complete. -/
def arrived (u : State) (id : Nat) (x : Txn) : State :=
  let t := moves (endTxn u id x) (clusterRef (sourceOf x.share).1)
  if x.issuer = .hostLink then { t with bus := { t.bus with abort := false } } else t

/-- TRANSACTION_RESPONSE: the request has crossed the mesh, its target performs it, and the response returns its entry. A
response that its target cannot give, of a request that waits for an entry or for credit, or before one of the same unit
to the same line, changes nothing (log 7). The transaction of a lost context is not performed, but returns its entry (spec/03
R75). -/
def transactionResponse (s : State) (id : Nat) (r : Resp) : State :=
  let u := nocSettle s
  match tget u.fab.txns id with
  | none => s
  | some x =>
    if !x.entry ∨ !atTarget x ∨ txnBlocked u id x then s
    else
      let t := arrived u id x
      if x.lost then t else (respond t x r).getD s

/-- A retry of a stack is exhausted (R217): the transaction ends with the loss of its kind. -/
def retryExhausted (s : State) (stack id : Nat) (x : Txn) : State :=
  let h := hbmOf s stack
  let t := setHbm (endTxn s id x) stack { h with retryOut := satAdd 0xFFFF h.retryOut 1 }
  match x.kind with
  | .write => if x.asid = 4096 then t else dataFault t x.asid 6
  | _ => txnLost (hbmLog t x.addr true) x 6

/-- The units that wait for a transaction are held by its retry in this monitor window (spec/16 R497). -/
def heldByRetry (s : State) (x : Txn) : State :=
  { s with flt := { s.flt with retried := (waitersOf x ++ s.flt.retried).dedup } }

/-- The transaction is at a stack of HBM. -/
def atHbm (x : Txn) (stack : Nat) : Bool :=
  x.space != .host && x.space != .twin && decide (x.addr < carveEnd) && stackOf x.addr == stack

/-- HBM_PARITY_RETRY: the command is issued again, at most 8 times; then the retry is exhausted (R217). -/
def hbmParityRetry (s : State) (stack id : Nat) : State :=
  match tget s.fab.txns id with
  | none => s
  | some x =>
    let s' := heldByRetry s x
    if !atHbm x stack then s
    else if x.tries < 8 then
      let h := hbmOf s stack
      let y := { x with tries := x.tries + 1, since := if x.tries = 0 then s.flt.windows else x.since }
      setHbm (setTxn s' id y) stack { h with retried := satAdd 0xFFFF h.retried 1 }
    else retryExhausted s' stack id x

/-! ## Scrubbing (R208, R218) -/

/-- STACK_SCRUB: the next sector of the slice's assigned ways (R208). -/
def stackScrub (s : State) (k : Nat) (found : Ecc) : State :=
  let ways := (List.range 16).filter fun w => decide (128 ≤ wayByte s k w)
  if !hasCluster s k ∨ ways.isEmpty then s
  else
    let p := tgetD s.fab.stkScrub k 0 % (ways.length * 65536)
    let s := { s with fab := { s.fab with stkScrub := tset s.fab.stkScrub k (p + 1) } }
    let e := eccOf s k
    match found with
    | .clean => s
    | .single => setEcc s k { e with corrected := satAdd 0xFFFF e.corrected 1 }
    | .double => setEcc s k { e with lastWay := ways.getD (p / 65536) 0, lastSet := p % 65536 / 4 }

/-- HBM_SCRUB: the next 64 B access of a stack (R218). An uncorrectable one is logged and, since R218 has R216 apply when a
later read reaches it, not counted in UNCORRECTED (DESIGN CHOICE, log 112). -/
def hbmScrub (s : State) (n : Nat) (found : Ecc) : State :=
  let h := hbmOf s n
  let a := n * 0x900000000 + h.scrubAt * 64
  let h := { h with scrubAt := (h.scrubAt + 1) % 0x24000000 }
  match found with
  | .clean => setHbm s n h
  | .single => setHbm s n { h with corrected := satAdd 0xFFFF h.corrected 1 }
  | .double => hbmLog (setHbm s n h) a false

/-! ## Commands -/

def execTransactionIssue (t : TxnReq) (s : State) : Host.Outcome State Fault Refusal := .next (transactionIssue s t)

def execCleanDone (slot : Fin 48) (s : State) : Host.Outcome State Fault Refusal := .next (cleanDone s slot.val)

def execStackScrub (slice : Fin 16) (found : Ecc) (s : State) : Host.Outcome State Fault Refusal :=
  .next (stackScrub s slice.val found)

def execHbmScrub (stack : Fin 8) (found : Ecc) (s : State) : Host.Outcome State Fault Refusal :=
  .next (hbmScrub s stack.val found)

def execHbmParityRetry (stack : Fin 8) (id : Nat) (s : State) : Host.Outcome State Fault Refusal :=
  .next (hbmParityRetry s stack.val id)

end Sys2Proof.Machine
end

