-- ==== Sys2Proof/Machine/Carrel.lean ====
section
/-! DEFINITION. Carrels at an edge: what a change of quads, ways and marks leaves, context switches, and slow-down records
(spec/02 R39, spec/06 R177 to R188, spec/07 R200). -/

namespace Sys2Proof.Machine

/-! ## Layouts -/

/-- The slot that holds a quad under a view. -/
def quadSlot (v : View) (q : Nat) : Option Nat := (quadHolders v q).head?

/-- A part of a switch image: a local-memory unit of a core, or a way of a slice (R178). -/
abbrev Cell3 := Bool × Nat × Nat

/-- The parts of the image of slot `n`, in the order of R178. -/
def imageParts (v : View) (n : Nat) : List Cell3 :=
  ((bitList 64 (vQuads v n)).flatMap fun q => (List.range 4).flatMap fun c =>
    (bitList 8 (v (oRetain n))).map fun u => (false, 4 * q + c, u)) ++
  (((List.range 256).filter fun i => decide (192 ≤ vWay v (i / 16) (i % 16)) && vWay v (i / 16) (i % 16) % 64 == n &&
    (v (oStk (i / 16))).testBit (i % 16)).map fun i => (true, i / 16, i % 16))

/-- Bytes of a part. -/
def partSize (c : Cell3) : Nat := if c.1 then 0x200000 else 0x10000

/-- Where a part lies: in local memory, or in the scratch aperture. -/
def partAddr (c : Cell3) : Nat :=
  if c.1 then scratchBase + c.2.1 * 0x2000000 + c.2.2 * 0x200000 else c.2.1 * 0x80000 + c.2.2 * 0x10000

/-- The bytes of a part. -/
def partRead (s : State) (c : Cell3) : List Byte :=
  mread (if c.1 then s.fab.mem else s.cores.lm) (partAddr c) (partSize c)

/-- The bytes of a part replaced. -/
def partWrite (s : State) (c : Cell3) (l : List Byte) : State :=
  if c.1 then { s with fab := { s.fab with mem := mwrite (mzero s.fab.mem (partAddr c) (partSize c)) (partAddr c) l } }
  else { s with cores := { s.cores with lm := mwrite (mzero s.cores.lm (partAddr c) (partSize c)) (partAddr c) l } }

/-- Bytes of a list of parts. -/
def partsBytes (l : List Cell3) : Nat := (l.map partSize).sum

/-! ## What an edge leaves of local memory and ways (R39, R177, R200; log 64) -/

/-- A local-memory unit keeps its contents: its quad stays in the same slot and the unit is marked before and after. -/
def keepUnit (old new : View) (core u : Nat) : Bool :=
  match quadSlot old (core / 4), quadSlot new (core / 4) with
  | some a, some b => a == b && (old (oRetain a)).testBit u && (new (oRetain b)).testBit u
  | _, _ => false

/-- A way keeps its contents: it stays assigned to the same slot, retained, and in the same mode. -/
def keepWay (old new : View) (k w : Nat) : Bool :=
  decide (192 ≤ vWay old k w) && vWay old k w == vWay new k w && (old (oStk k)).testBit w == (new (oStk k)).testBit w

/-- A byte of the scratch aperture that the edge keeps; every byte elsewhere in local memory is kept. -/
def keepByte (old new : View) (a : Nat) : Bool :=
  if scratchBase ≤ a ∧ a < scratchEnd then
    let o := a - scratchBase
    let k := o / 0x2000000
    let w := o % 0x2000000 / 0x200000
    keepWay old new k w && (new (oStk k)).testBit w
  else true

/-- A part of an image is still one of slot `n` under a view, marked or not. -/
def ownPart (v : View) (n : Nat) (c : Cell3) : Bool :=
  if c.1 then decide (128 ≤ vWay v c.2.1 c.2.2) && vWay v c.2.1 c.2.2 % 64 == n && (v (oStk c.2.1)).testBit c.2.2
  else quadSlot v (c.2.1 / 4) == some n

/-- The parts being loaded by switches in progress, which an edge does not clear while they stay with their slot (R180); what is
being saved is held apart from them in its image. -/
def exemptParts (s : State) (new : View) : List Cell3 :=
  s.car.flatMap fun e => if e.2.phase = .idle then [] else e.2.inImage.filter (ownPart new e.1)

/-- The clearing of R39: unmarked local memory and pinned ways read zero, unretained cache ways are invalid, and no channel,
accumulator or operand buffer holds anything. -/
def clearEdge (s : State) (old new : View) : State :=
  let spare := exemptParts s new
  { s with
    cores := { s.cores with
      lm := s.cores.lm.filter fun c => keepUnit old new (c.1 / 0x80000) (c.1 % 0x80000 / 0x10000) ||
        spare.contains (false, c.1 / 0x80000, c.1 % 0x80000 / 0x10000)
      inbox := [], outs := [], sent := [], creditsBack := [] }
    fab := { s.fab with
      mem := s.fab.mem.filter fun c => keepByte old new c.1 ||
        spare.contains (true, (c.1 - scratchBase) / 0x2000000, (c.1 - scratchBase) % 0x2000000 / 0x200000)
      lines := s.fab.lines.filter fun l => keepWay old new l.slice l.way && !(new (oStk l.slice)).testBit l.way }
    eng := { s.eng with eng := tmap s.eng.eng fun _ e => { e with acc := [], ob := [] } } }

/-! ## Switches (R178 to R182) -/

/-- The slot's record. -/
def carOf (s : State) (n : Nat) : CarSlot := tgetD s.car n CarSlot.reset

def setCar (s : State) (n : Nat) (x : CarSlot) : State := { s with car := tset s.car n x }

/-- The outgoing image is moved: a context leaves and it has a save address (R179). -/
def savesImage (old : View) (n : Nat) : Bool := vCtx old n != 0 && old (oSave n) != 0

/-- A switch of slot `n` begins: `out` is the image that leaves, of `moved` bytes, and `load` the address of the one that comes,
0 for none. The slot's retained cache lines become invalid (R178, R179). RESULT reads 0 from here on, until a loss shows
(DESIGN CHOICE, log 119). -/
def beginSwitch (s : State) (n ctx save : Nat) (out : List Byte) (moved : Nat) (new : View) (load : Nat) : State :=
  let x := { carOf s n with
    phase := .saving, result := 0, start := s.hoop.time, outCtx := BitVec.ofNat 32 ctx, saveAddr := BitVec.ofNat 64 save
    outImage := out, inImage := imageParts new n, loadAddr := BitVec.ofNat 64 load }
  let s := { s with fab := { s.fab with lines := s.fab.lines.filter fun l => l.slot ≠ n } }
  trace (setCar s n x) 5 0 n moved

/-- The switch at an edge: the outgoing image is taken as it stood before the edge, with the addresses that R179 gives. `before`
is the state before the clearing. -/
def switchStart (before s : State) (old new : View) (n : Nat) : State :=
  let parts := if savesImage old n then imageParts old n else []
  beginSwitch s n (vCtx old n) (old (oSave n)) (parts.flatMap (partRead before)) (partsBytes parts) new
    (if vCtx new n = 0 then 0 else new (oLoad n))

/-- The slots whose CONTEXT an edge changes. -/
def switched (old new : View) : List Nat := (List.range 48).filter fun n => vCtx old n != vCtx new n

/-- The context of a handle, if it exists and is not lost: one in DESTROYING still moves its image (R179, R182). -/
def imageCtx (s : State) (h : Nat) : Option Nat :=
  match lookup s.obj 1 h with
  | .ok c => if (ctxOf s c).any fun x => x.st != .lost then some c else none
  | .error _ => none

/-- An image access of a slot (R182). -/
def imageWho (c n : Nat) : Who := { asid := c, slot := some n, site := .image n }

/-- SAVING has ended: LOADING begins, and every retained unit and way that is still the slot's reads zero until it is loaded
(R179). -/
def startLoading (s : State) (n result : Nat) : State :=
  let x := carOf s n
  let s := (x.inImage.filter (ownPart (activeView s) n)).foldl (fun s c => partWrite s c []) s
  let moved := if x.loadAddr = 0 then 0 else partsBytes x.inImage
  trace (setCar s n { x with phase := .loading, result := result, outImage := [] }) 5 1 n moved

/-- SWITCH_SAVE_DONE: the image goes to the save address through the outgoing context's translation; where that context is
lost the rest of SAVING is skipped, and where a page is absent the slot waits for the answer (R179, R182). A permission failure
that ends SAVING leaves all of the image unwritten (DESIGN CHOICE, log 119). -/
def switchSaveDone (s : State) (n : Nat) : State :=
  let x := carOf s n
  if x.phase ≠ .saving then s
  else if x.outImage.isEmpty then startLoading s n 0
  else match imageCtx s x.outCtx.toNat with
  | none => startLoading s n 1
  | some c =>
    match vwrite s (imageWho c n) x.saveAddr.toNat x.outImage with
    | (s, true) => startLoading s n 0
    | (s, false) => if (imageCtx s x.outCtx.toNat).isSome then s else startLoading s n 1

/-- The switch ends (R180, R182). -/
def switchEnd (s : State) (n result : Nat) : State :=
  let x := carOf s n
  let y := { x with phase := .idle, result := result, lastUs := cdiv (s.hoop.time - x.start) 100 % 2 ^ 32, inImage := [] }
  trace (setCar s n y) 5 2 n (partsBytes x.inImage)

/-- Bytes laid over the parts of an image in order; a part that has left the slot since takes none (R177, R180). -/
def loadParts (s : State) (n : Nat) : List Cell3 → List Byte → State
  | [], _ => s
  | c :: t, l =>
    loadParts (if ownPart (activeView s) n c then partWrite s c (l.take (partSize c)) else s) n t (l.drop (partSize c))

/-- SWITCH_LOAD_DONE: the image of the incoming context comes from the address of CAR_LOAD that the edge applied, through its
translation, or reads zero; where the context is lost, LOADING stops (R179, R182), with RESULT 2 also after the loss of the
outgoing one (DESIGN CHOICE, log 119). -/
def switchLoadDone (s : State) (n : Nat) : State :=
  let x := carOf s n
  if x.phase ≠ .loading then s
  else if x.loadAddr = 0 ∨ x.inImage.isEmpty then switchEnd s n x.result
  else match imageCtx s (slotOwner s n) with
  | none => switchEnd s n 2
  | some c =>
    match vread s (imageWho c n) x.loadAddr.toNat (partsBytes x.inImage) with
    | (s, some l) => switchEnd (loadParts s n x.inImage l) n x.result
    | (s, none) => if (imageCtx s (slotOwner s n)).isSome then s else switchEnd s n 2

/-! ## Slow-down records (R186 to R188) -/

/-- TOP and its cycles: the slot charged most, ties to the lower number; 0xFF when nothing was counted (R186). -/
def slowTop (x : Slow) : Nat × Nat :=
  x.by'.foldl (fun m e => if m.2 < e.2 then e else m) (0xFF, 0)

/-- CAR_SLOW_n as one number (R187). -/
def slowWord (x : CarSlot) : Nat :=
  let t := slowTop x.pub
  x.pub.router * 2 ^ 224 + x.pub.pricking * 2 ^ 192 + x.pub.raster * 2 ^ 160 + x.pub.bobbin * 2 ^ 128 +
  x.pub.walker * 2 ^ 96 + t.2 * 2 ^ 64 + t.1 * 2 ^ 32 + x.pubTick % 2 ^ 32

/-- The counters published for the ended period `k` and restarted (R187). -/
def slowPublish (s : State) (k : Nat) : State :=
  { s with car := (List.range 48).foldl (fun t n =>
      let x := tgetD t n CarSlot.reset
      tset t n { x with pub := x.slow, slow := Slow.reset, pubTick := k }) s.car }

/-- SLOW_TABLE_WRITE: firmware writes the record of every slot granted to the function, or of every present slot for the
physical function (R188). -/
def slowTableWrite (s : State) (f : Nat) : State :=
  match (fnOf s f).slow with
  | none => s
  | some a =>
    if !s.fw.running then s
    else ((List.range 48).filter fun n => hasSlot s n && (f == 0 || slotGrant s n == f)).foldl
      (fun s n => hostWrite s (a.toNat + 32 * n) (toLE 32 (slowWord (carOf s n)))) s

/-! ## Commands -/

def execSwitchSaveDone (slot : Fin 48) (s : State) : Host.Outcome State Fault Refusal := .next (switchSaveDone s slot.val)

def execSwitchLoadDone (slot : Fin 48) (s : State) : Host.Outcome State Fault Refusal := .next (switchLoadDone s slot.val)

def execSlowTableWrite (f : Fin 64) (s : State) : Host.Outcome State Fault Refusal := .next (slowTableWrite s f.val)

end Sys2Proof.Machine
end

