-- ==== Sys2Proof/Machine/Faults.lean ====
section
/-! DEFINITION. Scopes of unit faults, the FAILED state, and how contexts leave for the other twin (spec/16 R491 to R495,
R484, R494). -/

namespace Sys2Proof.Machine

/-! ## Affected contexts (R491) -/

/-- Contexts, by index, that own a slot holding a quad that a predicate marks. -/
def ownersOfQuads (s : State) (p : Nat → Bool) : List Nat :=
  ((List.range 48).filterMap fun n =>
    if (bitList 64 (active s (oQuads n))).any p then
      (match lookup s.obj 1 (slotOwner s n) with
      | .ok c => some c
      | .error _ => none)
    else none).dedup

/-- Contexts with a queue bound to a media unit (0 to 11 encode cores, 12 to 15 Bindery engines). -/
def ownersOfMedia (s : State) (u : Nat) : List Nat :=
  ((s.obj.queues.filter fun e => decide (e.1 < winKey) &&
    ((e.2.cls == 4 && e.2.unit == u) || (e.2.cls == 5 && e.2.unit + 12 == u))).map (·.2.ctx)).dedup

/-- Owners of the streams open on a logical port. -/
def ownersOfPort (s : State) (l : Nat) : List Nat :=
  ((s.circ.streams.filter fun e => lportOf e.2 == l).map (·.2.ctx)).dedup

/-! ## Contexts that leave for the other twin (R472, R492, R494) -/

/-- The keys of a context's objects, as type × 65,536 + index. -/
def objectKeys (o : Objects) (c : Nat) : List Nat :=
  (1 * 65536 + c) :: ((o.queues.filter fun e => decide (e.1 < winKey) && e.2.ctx == c).map fun e => 2 * 65536 + e.1) ++
  ((o.fences.filter fun e => e.2.ctx == c).map fun e => 3 * 65536 + e.1) ++
  ((o.events.filter fun e => e.2.ctx == c).map fun e => 4 * 65536 + e.1) ++
  ((o.graphs.filter fun e => e.2.ctx == c).map fun e => 5 * 65536 + e.1)

/-- The work of a context stopped and discarded as R75 gives, without the lost mark: no completion, status or signal. -/
def stopWork (s : State) (c : Nat) : State :=
  (queuesOf s c).foldl (fun s q =>
    match getQ s q with
    | none => s
    | some x =>
      let s := x.recs.foldl (fun s d => dropWork s q d.idx) s
      putQ s q { x with recs := [], resume := none }) s

/-- A context that the other twin takes over leaves this one: its work stops, its streams close, its objects go, and
their indices count as the partner's (R472, R492, R494; log 65). -/
def handOver (s : State) (c : Nat) : State :=
  if (ctxOf s c).isNone then s
  else
    let s := match slotOfCtx s (ctxHandle s c) with
      | some n => dropDirty s n
      | none => s
    let s := closeStreams (stopWork s c) fun _ t => t.ctx == c
    let keys := objectKeys s.obj c
    let o := s.obj
    let o := { o with
      ctxs := tdel o.ctxs c
      queues := o.queues.filter fun e => e.1 == winKey || e.2.ctx != c
      fences := o.fences.filter fun e => e.2.ctx != c
      events := o.events.filter fun e => e.2.ctx != c
      graphs := o.graphs.filter fun e => e.2.ctx != c }
    { s with obj := o, mmu := dropAsid s.mmu c, twin := { s.twin with peer := keys.foldl (fun t k => tset t k (tgetD o.gens k 0)) s.twin.peer } }

/-- The partner's indices become free on this twin (R484); a freed index takes its next generation (spec/03 R63). -/
def freePeer (s : State) : State :=
  { s with
    obj := { s.obj with gens := s.twin.peer.foldl (fun t e => tset t e.1 ((e.2 + 1) % 64)) s.obj.gens }
    twin := { s.twin with peer := [], mirror := none } }

/-! ## Twin state (R499; spec/17 R514) -/

/-- SLV_STAT.STATE. -/
def slvCode : SlvState → Nat
  | .detached => 0
  | .training => 1
  | .handshake => 2
  | .attached => 3
  | .leaving => 4
  | .failed => 5

/-- STATE and CAUSE change, with a day-book record 0x0050. -/
def setTwin (s : State) (st : SlvState) (cause : Nat) : State :=
  dayBook { s with twin := { s.twin with st := st, cause := cause } } 0x0050 0 cause (slvCode st)

/-- A message on CTL. -/
def sendCtl (s : State) (m : CtlMsg) : State := { s with twin := { s.twin with ctl := s.twin.ctl ++ [m] } }

/-! ## Faults -/

/-- The affected contexts of a scope fault: moved to an attached partner, or lost with reason DATA on a part that runs
alone (R492 to R494). -/
def loseOrMove (s : State) (cs : List Nat) : State :=
  if cs.isEmpty then s
  else if twinAttached s then
    cs.foldl handOver (sendCtl s (.move (cs.map fun c => BitVec.ofNat 32 (ctxHandle s c))))
  else cs.foldl (fun s c => markLost s c 0x02) s

/-- A DEVICE fault (R495): the device is FAILED, its links go down, and an attached device sends FAILED; alone, every
context is lost while firmware runs. Its UNIT is free (log 63). -/
def deviceFault (s : State) (means : Nat) : State :=
  let s := recordFault (drew s) 5 ((free s).toNat % 256) means
  if s.flt.failed then s
  else
    let s := { s with flt := { s.flt with failed := true }, circ := { s.circ with link := 0 } }
    let paired : Bool := s.twin.st = .attached ∨ s.twin.st = .leaving
    let s := setTwin (if paired then sendCtl s .failed else s) .failed s.twin.cause
    if !paired && s.fw.running then (s.obj.ctxs.map (·.1)).foldl (fun s c => markLost s c 0x02) s else s

/-- A domain put out of service is held in S2 (spec/18 R551). -/
def holdDoms (s : State) (ds : List Nat) : State :=
  ds.foldl (fun s d => setDom s d { domOf s d with st := .s2, waking := false, held := true }) s

/-- Bits of MGT_OOS_QUADS for the quads of a list. -/
def orQuads (m : Nat) (l : List Nat) : Nat := l.foldl (fun m q => m ||| 2 ^ q) m

/-- A scope fault of a unit (R491 to R494): recorded, its scope out of service, its contexts stopped. -/
def unitFault (s : State) (u : UnitRef) (means : Nat) : State :=
  match u with
  | .quad q =>
    let cs := ownersOfQuads s (· == q.val)
    let s := recordFault s 1 q.val means
    let s := { s with flt := { s.flt with oosQuads := orQuads s.flt.oosQuads [q.val] } }
    loseOrMove (holdDoms s [domQuad q.val]) cs
  | .cluster k =>
    let cs := ownersOfQuads s (· / 4 == k.val)
    let s := recordFault s 2 k.val means
    let qs := (List.range 4).map fun i => 4 * k.val + i
    let s := { s with flt := { s.flt with oosQuads := orQuads s.flt.oosQuads qs } }
    loseOrMove (holdDoms s (domCluster k.val :: domSlice k.val :: qs)) cs
  | .media n =>
    let cs := ownersOfMedia s n.val
    let s := recordFault s 3 n.val means
    let s := { s with flt := { s.flt with oosUnits := orQuads s.flt.oosUnits [n.val] } }
    loseOrMove (holdDoms s [96 + n.val]) cs
  | .port l =>
    let cs := ownersOfPort s l.val
    let s := recordFault s 4 l.val means
    let s := { s with flt := { s.flt with oosUnits := orQuads s.flt.oosUnits [16 + l.val] } }
    loseOrMove (portLinkChange s l.val false) cs
  | .device => deviceFault s means

/-- At the edge, firmware's accession removes the quads out of service from their slots (R492; log 66). -/
def removeOos (s : State) : State :=
  if s.flt.oosQuads = 0 then s
  else
    let clear (t : Tbl W64) (get : Nat → Nat) : Tbl W64 := (List.range 48).foldl (fun t n =>
      let v := get (oQuads n)
      let w := (bitList 64 v).foldl (fun a q => if s.flt.oosQuads.testBit q then a else a + 2 ^ q) 0
      if v = w then t else tset t (oQuads n) (BitVec.ofNat 64 w)) t
    { s with regs := { active := clear s.regs.active (active s), shadow := clear s.regs.shadow (shadowOf s) } }

end Sys2Proof.Machine
end

