-- ==== Sys2Proof/Machine/Units.lean ====
section
/-! DEFINITION. Errors that a unit finds in its data or in its control state as it takes a step (spec/16 R488, R489, R491), and
the meanings of the commands that such a unit carries out (spec/04, spec/07 to spec/15). -/

namespace Sys2Proof.Machine

/-! ## Errors of units (spec/16 R488) -/

/-- An uncorrectable error in a unit's control state: a fault of its scope, found by ECC or parity, and which of the two is
free (log 63). -/
def unitControlErr (s : State) (u : UnitRef) : State := unitFault (drew s) u (1 + (free s).toNat % 2)

/-- A step of a unit for a context: with an error it has none of its effect, and the context is lost or the unit is faulty.
A unit that has no step to take finds no error. -/
def onUnit (s : State) (u : UnitRef) (ctx : Option Nat) (err : UnitErr) (t : State) : State :=
  match err, ctx with
  | .none, _ => t
  | _, none => s
  | .data, some c => unitDataErr s c
  | .control, some _ => unitControlErr s u

/-- An instruction of a thread group on its core. -/
def onCore (s : State) (q : SgRef) (t : State) : State :=
  onUnit s (quadRef (q.core.val / 4)) ((issueAny s q).map fun i => ctxOfBlock s i.b) q.err t

@[simp] theorem onUnit_none (s : State) (u : UnitRef) (c : Option Nat) (t : State) : onUnit s u c .none t = t := by
  cases c <;> rfl

/-- An instruction on a core that finds no error. -/
theorem onCore_none (s : State) (q : SgRef) (t : State) (h : q.err = .none) : onCore s q t = t := by
  simp [onCore, h]

/-- The context for which an engine executes its head instruction. -/
def engineCtx (s : State) (core e : Nat) : Option Nat :=
  match (engOf s core e).queue, (engOf s core e).holder.bind (tget s.cores.blocks) with
  | _ :: _, some b => some (ctxOfBlock s b)
  | _, _ => none

/-- The context whose Bobbin command the engine steps next. -/
def stepCtx (s : State) (cluster b : Nat) (waits : List (Fin 4)) : Option Nat :=
  (steppers s cluster b waits).head?.map (·.ctx)

/-- The response of a transaction in which a unit on its way finds an error in its control state; the transaction stays. -/
def responseErr (s : State) (id : Nat) (u : UnitRef) : State :=
  if (tget s.fab.txns id).any fun x => x.entry then unitControlErr s u else s

/-! ## Instructions (spec/08) -/

/-- INT (R324). -/
def execInt (q : SgRef) (op : IntOp) (d a b c : Reg) (s : State) : Host.Outcome State Fault Refusal :=
  .next (onCore s q (doInt s q op d a b c))

/-- FP32 (R319, R320). -/
def execFp32 (q : SgRef) (op : FpOp) (d a b c : Reg) (s : State) : Host.Outcome State Fault Refusal :=
  .next (onCore s q (doFp32 s q op d a b c))

/-- PACKED (R321). -/
def execPacked (q : SgRef) (bf : Bool) (op : PkOp) (d a b c : Reg) (s : State) : Host.Outcome State Fault Refusal :=
  .next (onCore s q (doPacked s q bf op d a b c))

/-- CONV (R316 to R318). -/
def execConv (q : SgRef) (src dst : Fmt) (d a : Reg) (scale : Option Reg) (rtz sat : Bool) (s : State) :
    Host.Outcome State Fault Refusal := .next (onCore s q (doConv s q src dst d a scale rtz sat))

/-- TRANS (R323). -/
def execTrans (q : SgRef) (op : TransOp) (d a : Reg) (s : State) : Host.Outcome State Fault Refusal :=
  .next (onCore s q (doTrans s q op d a))

/-- LANE (R229, R242). -/
def execLane (q : SgRef) (op : LaneOp) (d a b : Reg) (s : State) : Host.Outcome State Fault Refusal :=
  .next (onCore s q (doLane s q op d a b))

/-- BRANCH (R227). -/
def execBranch (q : SgRef) (op : BrOp) (s : State) : Host.Outcome State Fault Refusal := .next (onCore s q (doBranch s q op))

/-- JOIN (R228). -/
def execJoin (q : SgRef) (m : W32) (s : State) : Host.Outcome State Fault Refusal := .next (onCore s q (doJoin s q m))

/-- SR (R238). -/
def execSr (q : SgRef) (x : SReg) (d : Reg) (s : State) : Host.Outcome State Fault Refusal := .next (onCore s q (doSr s q x d))

/-- LM_ACCESS (R245 to R248). -/
def execLmAccess (q : SgRef) (x : LmAcc) (s : State) : Host.Outcome State Fault Refusal := .next (onCore s q (doLm s q x))

/-- LDC (R251). -/
def execLdc (q : SgRef) (size : Ordered Nat) (d r o : Reg) (s : State) : Host.Outcome State Fault Refusal :=
  .next (onCore s q (doLdc s q size.item d r o size.ord))

/-- STC (R251). -/
def execStc (q : SgRef) (size : Ordered Nat) (b r o : Reg) (s : State) : Host.Outcome State Fault Refusal :=
  .next (onCore s q (doStc s q size.item b r o size.ord))

/-- ATC (R251, R254). -/
def execAtc (q : SgRef) (op : Ordered AtOp) (ty : AtTy) (d b c r o : Reg) (s : State) : Host.Outcome State Fault Refusal :=
  .next (onCore s q (doAtc s q op.item ty d b c r o op.ord))

/-- DEVICE_LOAD (R249). -/
def execDeviceLoad (q : SgRef) (size : Nat) (d a : Reg) (ord : Order) (s : State) : Host.Outcome State Fault Refusal :=
  .next (onCore s q (doLoad s q size d a ord))

/-- DEVICE_STORE (R249). -/
def execDeviceStore (q : SgRef) (size : Nat) (a b : Reg) (mode : StoreMode) (s : State) : Host.Outcome State Fault Refusal :=
  .next (onCore s q (doStore s q size a b mode.ord mode.late))

/-- ATOM (R252 to R256). -/
def execAtom (q : SgRef) (op : AtOp) (ty : AtTy) (d a b c : Reg) (ord : Order) (s : State) :
    Host.Outcome State Fault Refusal := .next (onCore s q (doAtom s q op ty d a b c ord))

/-- SEND (R258). -/
def execMsgSend (q : SgRef) (ch : Fin 16) (form : MsgForm) (rel : Option Scope) (s : State) :
    Host.Outcome State Fault Refusal := .next (onCore s q (doSend s q ch form rel))

/-- RECV (R259). -/
def execMsgRecv (q : SgRef) (ch : Fin 16) (form : MsgForm) (acq : Option Scope) (s : State) :
    Host.Outcome State Fault Refusal := .next (onCore s q (doRecv s q ch form acq))

/-- CHSTAT (R259). -/
def execChstat (q : SgRef) (ch : Fin 16) (d e : Reg) (s : State) : Host.Outcome State Fault Refusal :=
  .next (onCore s q (doChstat s q ch d e))

/-- MESSAGE_ARRIVE (R258). -/
def execMessageArrive (core : Fin 256) (ch : Fin 16) (s : State) : Host.Outcome State Fault Refusal :=
  .next (arriveMsg s (core.val * 16 + ch.val))

/-- CREDIT_RETURN (R259). -/
def execCreditReturn (core : Fin 256) (ch : Fin 16) (s : State) : Host.Outcome State Fault Refusal :=
  .next (creditBack s (core.val * 16 + ch.val))

/-- BAR (R240). -/
def execBar (q : SgRef) (s : State) : Host.Outcome State Fault Refusal := .next (onCore s q (doBar s q .bar))

/-- CBAR (R240). -/
def execCbar (q : SgRef) (s : State) : Host.Outcome State Fault Refusal := .next (onCore s q (doBar s q .cbar))

/-- FENCE (R268). -/
def execFence (q : SgRef) (scope : Scope) (s : State) : Host.Outcome State Fault Refusal := .next (onCore s q (doFence s q scope))

/-- CONT (R239). -/
def execCont (q : SgRef) (a : Reg) (s : State) : Host.Outcome State Fault Refusal := .next (onCore s q (doCont s q a))

/-- EXIT (R226). -/
def execExit (q : SgRef) (s : State) : Host.Outcome State Fault Refusal := .next (onCore s q (doExit s q))

/-- An undefined encoding (R241). -/
def execUndefinedInstruction (q : SgRef) (s : State) : Host.Outcome State Fault Refusal := .next (onCore s q (doUndefined s q))

/-! ## Tensor engines (spec/09) -/

/-- MCLAIM (R272). -/
def execMclaim (q : SgRef) (m : Fin 16) (s : State) : Host.Outcome State Fault Refusal := .next (onCore s q (doMclaim s q m.val))

/-- MREL (R273). -/
def execMrel (q : SgRef) (m : Fin 16) (s : State) : Host.Outcome State Fault Refusal := .next (onCore s q (doMrel s q m.val))

/-- MWAIT (R290). -/
def execMwait (q : SgRef) (m : Fin 16) (s : State) : Host.Outcome State Fault Refusal := .next (onCore s q (doMwait s q m.val))

/-- MMA (R284). -/
def execMma (q : SgRef) (e : Fin 4) (ctrl a b : Reg) (s : State) : Host.Outcome State Fault Refusal :=
  .next (onCore s q (matIssue s q e.val .mma [ctrl.val, a.val, b.val]))

/-- MSTORE (R286). -/
def execMstore (q : SgRef) (e : Fin 4) (ctrl : Reg) (s : State) : Host.Outcome State Fault Refusal :=
  .next (onCore s q (matIssue s q e.val .mstore [ctrl.val]))

/-- MLDACC (R286). -/
def execMldacc (q : SgRef) (e : Fin 4) (ctrl : Reg) (s : State) : Host.Outcome State Fault Refusal :=
  .next (onCore s q (matIssue s q e.val .mldacc [ctrl.val]))

/-- MLOADB (R287). -/
def execMloadb (q : SgRef) (e : Fin 4) (ctrl src : Reg) (s : State) : Host.Outcome State Fault Refusal :=
  .next (onCore s q (matIssue s q e.val .mloadb [ctrl.val, src.val]))

/-- MATRIX_COMPLETE (R288, R299). -/
def execMatrixComplete (core : Fin 256) (e : Fin 4) (err : UnitErr) (s : State) : Host.Outcome State Fault Refusal :=
  .next (onUnit s (quadRef (core.val / 4)) (engineCtx s core.val e.val) err (matrixComplete s core.val e.val))

/-! ## Bobbin (spec/11) -/

/-- BISSUE (R330). -/
def execBissue (q : SgRef) (b : Fin 2) (vn : Reg) (s : State) : Host.Outcome State Fault Refusal :=
  .next (onCore s q (doBissue s q b.val vn.val))

/-- BWAIT (R332). -/
def execBwait (q : SgRef) (n : Fin 256) (s : State) : Host.Outcome State Fault Refusal := .next (onCore s q (doBwait s q n.val))

/-- EXPAND (R339 to R341). -/
def execExpand (cluster : Fin 16) (b : Fin 2) (quad : Fin 4) (s : State) : Host.Outcome State Fault Refusal :=
  .next (bobbinOp s cluster.val b.val quad.val 1 runExpand)

/-- SETOP (R342 to R345). -/
def execSetop (cluster : Fin 16) (b : Fin 2) (quad : Fin 4) (s : State) : Host.Outcome State Fault Refusal :=
  .next (bobbinOp s cluster.val b.val quad.val 2 runSetop)

/-- PROBE (R346 to R349). -/
def execProbe (cluster : Fin 16) (b : Fin 2) (quad : Fin 4) (s : State) : Host.Outcome State Fault Refusal :=
  .next (bobbinOp s cluster.val b.val quad.val 3 runProbe)

/-- RAYQ (R350 to R355). -/
def execRayq (cluster : Fin 16) (b : Fin 2) (quad : Fin 4) (s : State) : Host.Outcome State Fault Refusal :=
  .next (bobbinOp s cluster.val b.val quad.val 4 runRayq)

/-- BOBBIN_COMPLETE (R338). -/
def execBobbinComplete (cluster : Fin 16) (b : Fin 2) (quad : Fin 4) (s : State) : Host.Outcome State Fault Refusal :=
  .next (bobbinComplete s cluster.val b.val quad.val)

/-- BOBBIN_STEP (R328, R335). -/
def execBobbinStep (cluster : Fin 16) (b : Fin 2) (waits : BobWaits) (err : UnitErr) (s : State) :
    Host.Outcome State Fault Refusal :=
  .next (onUnit s (clusterRef cluster.val) (stepCtx s cluster.val b.val waits.quads) err
    (bobbinStep s cluster.val b.val waits.quads waits.cycles))

/-! ## Rendering (spec/12) -/

/-- PRIMITIVE_BIN (R370, R387). -/
def execPrimitiveBin (pass : Nat) (binner : Fin 16) (stall : Stall) (err : UnitErr) (s : State) :
    Host.Outcome State Fault Refusal :=
  let p := (binReady s pass binner.val).map (·.1)
  .next (onUnit s (clusterRef ((p.map fun p => p.clusters.getD binner.val 0).getD 0)) (p.map (·.ctx)) err
    (primitiveBin s pass binner.val stall))

/-- BATCH_DISPATCH (R380, R387). -/
def execBatchDispatch (pass : Nat) (ord : Found Nat) (stall : Stall) (s : State) : Host.Outcome State Fault Refusal :=
  let p := shadedTile s pass ord.item
  .next (onUnit s (clusterRef ((p.map fun p => p.2.core / 16).getD 0)) (p.map fun p => p.1.ctx) ord.err
    (batchDispatch s pass ord.item stall))

/-! ## The media hub (spec/13 to spec/15) -/

/-- STRIP_COMPLETE (R396, R407). -/
def execStripComplete (waits : Found (List (Fin 256))) (s : State) : Host.Outcome State Fault Refusal :=
  .next (onUnit s .device ((chooseCompose s waits.item).map (·.ctx)) waits.err (stripComplete s waits.item))

/-- ENCODE_COMPLETE (R413 to R421). -/
def execEncodeComplete (core : Fin 12) (err : UnitErr) (s : State) : Host.Outcome State Fault Refusal :=
  .next (onUnit s (mediaRef core.val) ((encodeOn s core.val).map fun r => r.2.ctx) err (encodeComplete s core.val))

/-- BIND_COMPLETE (R422 to R430). -/
def execBindComplete (eng : Fin 4) (err : UnitErr) (s : State) : Host.Outcome State Fault Refusal :=
  .next (onUnit s (mediaRef (12 + eng.val)) ((bindOn s eng.val).map fun r => r.2.ctx) err (bindComplete s eng.val))

/-- FRAME_RECEIVE (R461, R463). -/
def execFrameReceive (l : Found (Fin 8)) (fcs : Bool) (frame : List Byte) (s : State) : Host.Outcome State Fault Refusal :=
  .next (onUnit s (portRef l.item.val)
    (if hasLink s l.item.val then (frameStream s l.item.val frame).map (·.2.ctx) else none) l.err
    (frameReceive s l.item.val fcs frame))

/-- PACKET_ENQUEUE (R455, R463). -/
def execPacketEnqueue (stream : Found (Fin 256)) (s : State) : Host.Outcome State Fault Refusal :=
  .next (onUnit s .device (if (engineNext s).1.any fun r => r.stream == stream.item.val then
    (tget s.circ.streams stream.item.val).map (·.ctx) else none) stream.err (packetEnqueue s stream.item.val))

/-- PACKET_DEPART (R456, R463). -/
def execPacketDepart (l : Found (Fin 8)) (s : State) : Host.Outcome State Fault Refusal :=
  .next (onUnit s (portRef l.item.val) ((departing s l.item.val).map (·.2.ctx)) l.err (packetDepart s l.item.val))

/-! ## Walkers and the fabric (spec/04, spec/07) -/

/-- PAGE_WALK_COMPLETE (R115, R116). An error in what a walker caches is in a clean copy, which is fetched again (spec/16 R488),
so only one in its control state shows. -/
def execPageWalkComplete (walk : Found Nat) (stall : Stall) (s : State) : Host.Outcome State Fault Refusal :=
  .next (match walk.err, tget s.mmu.walks walk.item with
    | .control, some x => unitControlErr s (walkerUnit x.walker)
    | .control, none => s
    | _, _ => pageWalkComplete s walk.item stall)

/-- TRANSACTION_RESPONSE (R195). -/
def execTransactionResponse (id : Nat) (r : Resp) (s : State) : Host.Outcome State Fault Refusal :=
  .next (match r with
    | .control u => responseErr s id u
    | _ => transactionResponse s id r)

end Sys2Proof.Machine
end

