-- ==== Sys2Proof/Machine/Twin.lean ====
section
/-! DEFINITION. The Selvage link, attach, mirror, takeover and detach (spec/16 R465 to R485, spec/17 R530). -/

namespace Sys2Proof.Machine

/-! ## Attach (R469, R470; spec/17 R530) -/

/-- A refusal of R469 that this twin knows of itself: no accepted charter, no running Hoop, or an accession pending. -/
def attachOwnBad (s : State) : Bool := !s.fw.accepted || !s.hoop.running || accPending s

/-- A refusal of R469 or R470: a missing charter or Hoop, different periods or margins, contexts on both twins, an accession
pending, or equal straps. -/
def attachBad (s : State) (p : PartnerFacts) : Bool :=
  attachOwnBad s || !p.charter || !p.hoopRunning ||
  p.period.toNat != active s oPeriod || p.margin.toNat != active s oMargin ||
  (!s.obj.ctxs.isEmpty && p.holdsCtx) || p.accPending || (s.brd.twinSel == p.strap)

/-- This twin is B: the partner holds contexts, or neither does and this strap is low (R470). -/
def roleB (s : State) (p : PartnerFacts) : Bool := p.holdsCtx || (s.obj.ctxs.isEmpty && !s.brd.twinSel)

/-- The certificate chain that this device sends (R526). -/
def ownChain (s : State) : List Byte := (s.fw.charter.map (·.cert)).getD []

/-- The partner's facts are known: the attach goes on, or is refused. -/
def attachFacts (s : State) (p : PartnerFacts) : State :=
  if attachBad s p then setTwin s .detached 6
  else sendCtl { s with twin := { s.twin with partner := some p, role := roleB s p } } .handshake

/-- The tick of the first ATTACH write of the pair: this twin's own, or the partner's before it (R469). -/
def firstAttach (own : Nat) (p : PartnerFacts) (tick : Nat) : Nat := if p.present then min own (tick - p.waited) else own

/-- An attach request on a link whose domain is ON: the link trains if it is not up; the partner's own write (`present`)
brings its facts. What this twin knows of itself refuses at once (DEDUCED, log 80). -/
def attachNow (s : State) (p : PartnerFacts) : State :=
  match s.twin.st with
  | .detached =>
    if attachOwnBad s then setTwin s .detached 6 else
    let t := { s.twin with st := if s.twin.lanes = 0 then .training else .handshake
                           training := decide (s.twin.lanes = 0), attachTick := firstAttach s.hoop.tick p s.hoop.tick
                           idOk := none, shown := none, partner := none, nonce := freeBytes s 64, ctl := [], watch := false
                           sentMirror := [] }
    let s := drewN { s with twin := t } 64
    let s := sendCtl s (.identity (ownChain s) s.twin.nonce [])
    if p.present then attachFacts s p else s
  | .training | .handshake =>
    if p.present then
      attachFacts { s with twin := { s.twin with attachTick := firstAttach s.twin.attachTick p s.hoop.tick } } p
    else s
  | _ => s

/-- SLV_ATTACH: a write of ATTACH = 1; it wakes a sleeping link domain and stalls until that is ON (spec/18 R545). -/
def slvAttach (s : State) (p : PartnerFacts) : State :=
  if !bar0Ok s ∨ s.flt.failed then s
  else match reachDom s domSlv 3 with
  | (s, false) => s
  | (s, true) => attachNow s p

/-- IDENTITY_EXCHANGE: the partner's chain, its nonce and its signature over this twin's nonce, and whether it has verified
this twin's own; a chain that leads to another root, or a signature that does not verify, refuses the attach on either side
(R469, R530). -/
def identityExchange (s : State) (chain nonce sig : List Byte) (verified : Bool) : State :=
  if s.twin.st ≠ .training ∧ s.twin.st ≠ .handshake then s
  else
    let ok := Config.chainLeads chain && rsaVerify (Config.chainModulus chain) s.twin.nonce sig
    let s := sendCtl { s with twin := { s.twin with idOk := some ok, shown := some verified } }
      (.identity (ownChain s) [] (Config.identitySign nonce))
    if ok && verified then s else setTwin s .detached 6

/-- ATTACH_TIMEOUT: 64 ticks after the first ATTACH (R469). -/
def attachTimeout (s : State) : State :=
  if (s.twin.st = .training ∨ s.twin.st = .handshake) ∧ s.twin.attachTick + 64 ≤ s.hoop.tick then setTwin s .detached 5 else s

/-! ## The mirror (R474) -/

/-- An empty mirror. -/
def Mirror.empty : Mirror :=
  { ctxs := [], queues := [], fences := [], events := [], graphs := [], gens := [], carrels := [], targets := [], streams := [],
    grants := [], armed := [] }

/-- The generation of a mirrored handle. -/
def mirrorGen (m : Mirror) (ty h : Nat) : Mirror := { m with gens := tset m.gens (ty * 65536 + hIdx h) (hGen h) }

/-- A mirror without the object of a handle. -/
def mirrorDrop (m : Mirror) (h : Nat) : Mirror :=
  let i := hIdx h
  let m := { m with gens := tdel m.gens (hType h * 65536 + i) }
  match hType h with
  | 1 => { m with ctxs := tdel m.ctxs i }
  | 2 => { m with queues := tdel m.queues i }
  | 3 => { m with fences := tdel m.fences i }
  | 4 => { m with events := tdel m.events i }
  | 5 => { m with graphs := tdel m.graphs i }
  | _ => m

/-- One entry of a mirror taken in. -/
def mergeEntry (m : Mirror) : MirrorEntry → Mirror
  | .ctx h lost destroying reason root slot =>
    let x : Ctx := { func := hFunc h.toNat, st := if lost then .lost else if destroying then .destroying else .active
                     reason := reason.val, root := root, standbyRoot := root, standbySlot := slot.val }
    mirrorGen { m with ctxs := tset m.ctxs (hIdx h.toNat) x } 1 h.toNat
  | .queue h ctx fence cls rt ring entries halted draining tail retired tokens haltIdx haltStatus bQc bHb bUc =>
    let x : Queue := { Queue.window with
      func := hFunc h.toNat, ctx := hIdx ctx.toNat, cls := cls.val, ring := ring, entries := entries, rt := rt,
      fence := fence, st := if draining then .draining else if halted then .halted else .active, tail := tail
      retired := retired, tokens := tokens.val
      haltIdx := haltIdx, haltStatus := haltStatus.val, bQc := bQc.toNat, bHb := bHb.toNat, bUc := bUc.toNat }
    mirrorGen { m with queues := tset m.queues (hIdx h.toNat) x } 2 h.toNat
  | .fence h ctx value mirror shared lost stale =>
    let x : Fence := { func := hFunc h.toNat, ctx := hIdx ctx.toNat, value := value, shared := shared, lost := lost,
                       stale := stale.val, mirror := mirror }
    mirrorGen { m with fences := tset m.fences (hIdx h.toNat) x } 3 h.toNat
  | .event h fence v step =>
    let c := ((tget m.fences (hIdx fence.toNat)).map (·.ctx)).getD 4096
    let x : Event := { func := hFunc h.toNat, ctx := c, fence := hIdx fence.toNat, v := v, step := step }
    mirrorGen { m with events := tset m.events (hIdx h.toNat) x } 4 h.toNat
  | .graph h ctx ta tb ca cb ga gb cur =>
    let x : Graph := { func := hFunc h.toNat, ctx := hIdx ctx.toNat, a := { table := ta, count := ca, gen := ga, inflight := 0 },
                       b := { table := tb, count := cb, gen := gb, inflight := 0 }, cur := cur }
    mirrorGen { m with graphs := tset m.graphs (hIdx h.toNat) x } 5 h.toNat
  | .carrel off v => { m with carrels := tset m.carrels off v }
  | .target off v => { m with targets := tset m.targets off v }
  | .stream n ctx srec status rate msg grant rings =>
    let x : Stream := { newStream (hIdx ctx.toNat) srec status 0 with
      rateCur := rate, msg := msg
      rings := rings.foldl (fun t r => tset t r.kind { base := r.base, entries := r.entries, head := r.head,
                                                       fence := r.fence, w := 0, c := 0 }) [] }
    { m with streams := tset m.streams n.val x, grants := tset m.grants n.val grant.val }
  | .armed slot tick staged => { m with armed := m.armed ++ [(slot, tick, staged)] }
  | .gone h => mirrorDrop m h.toNat
  | .streamGone n => { m with streams := tdel m.streams n.val, grants := tdel m.grants n.val }

/-- The keys of a mirror's objects. -/
def mirrorKeys (m : Mirror) : List Nat :=
  (m.ctxs.map fun e => 65536 + e.1) ++ (m.queues.map fun e => 2 * 65536 + e.1) ++ (m.fences.map fun e => 3 * 65536 + e.1) ++
  (m.events.map fun e => 4 * 65536 + e.1) ++ (m.graphs.map fun e => 5 * 65536 + e.1)

/-- The indices that the partner uses, with what one entry of its mirror says of them; one that becomes free takes its next
generation on both twins (R472, spec/03 R63). -/
def peerGone (s : State) : MirrorEntry → State
  | .gone h =>
    let k := hType h.toNat * 65536 + hIdx h.toNat
    if (tget s.twin.peer k).isNone then s
    else { s with obj := { s.obj with gens := tset s.obj.gens k ((hGen h.toNat + 1) % 64) }
                  twin := { s.twin with peer := tdel s.twin.peer k } }
  | _ => s

/-- MIRROR_RECEIVE: the changed entries of a mirror, which becomes the last complete one (R474). ARMED slots are those of
this mirror. -/
def mirrorReceive (s : State) (l : List MirrorEntry) : State :=
  if s.twin.st ≠ .attached ∧ s.twin.st ≠ .leaving then s
  else
    let m := l.foldl mergeEntry { s.twin.mirror.getD Mirror.empty with armed := [] }
    let s := l.foldl peerGone s
    { s with twin := { s.twin with
      mirror := some m, mirrorDone := true
      peer := (mirrorKeys m).foldl (fun t k => tset t k (tgetD m.gens k 0)) s.twin.peer } }

/-! ## The mirror that this twin sends (R474) -/

/-- A handle of this twin as 32 bits. -/
def handle32 (s : State) (ty i : Nat) : W32 := BitVec.ofNat 32 (handleOf s.obj ty i)

/-- Entries of the objects. -/
def mirrorObjects (s : State) : List MirrorEntry :=
  (s.obj.ctxs.map fun e => .ctx (handle32 s 1 e.1) (e.2.st == .lost) (e.2.st == .destroying) (Fin.ofNat 256 e.2.reason)
    e.2.standbyRoot (Fin.ofNat 256 e.2.standbySlot)) ++
  ((s.obj.queues.filter fun e => decide (e.1 < winKey)).map fun e =>
    let x := e.2
    .queue (handle32 s 2 e.1) (handle32 s 1 x.ctx) x.fence (Fin.ofNat 7 x.cls) x.rt x.ring x.entries (x.st == .halted)
      (x.st == .draining) x.tail x.retired (Fin.ofNat 65536 x.tokens) x.haltIdx (Fin.ofNat 256 x.haltStatus)
      (BitVec.ofNat 32 x.bQc) (BitVec.ofNat 32 x.bHb) (BitVec.ofNat 32 x.bUc)) ++
  (s.obj.fences.map fun e => .fence (handle32 s 3 e.1) (handle32 s 1 e.2.ctx) e.2.value e.2.mirror e.2.shared e.2.lost
    (Fin.ofNat 65536 e.2.stale)) ++
  (s.obj.events.map fun e => .event (handle32 s 4 e.1) (handle32 s 3 e.2.fence) e.2.v e.2.step) ++
  (s.obj.graphs.map fun e => .graph (handle32 s 5 e.1) (handle32 s 1 e.2.ctx) e.2.a.table e.2.b.table e.2.a.count e.2.b.count
    e.2.a.gen e.2.b.gen e.2.cur)

/-- Active offsets of the mirrored carrel registers. -/
def carrelOffs : List Nat :=
  ((List.range 48).flatMap fun n => [oQuads n, oOwner n, oRt n, oRetain n, oSave n, oLoad n]) ++
  ((List.range 16).flatMap fun k => [oWays k 0, oWays k 1, oStk k]) ++ [oGroup 0, oGroup 1]

/-- Entries of the registers that are not 0; those that are 0 need none at first. -/
def mirrorRegs (s : State) : List MirrorEntry :=
  let some' (offs : List Nat) (f : Nat → W64 → MirrorEntry) : List MirrorEntry :=
    (offs.filter fun o => active s o != 0).map fun o => f o (BitVec.ofNat 64 (active s o))
  some' carrelOffs .carrel ++ some' ((List.range 256).flatMap fun t => targetOffs.map (oTarget t)) .target

/-- Entries of the streams. -/
def mirrorStreams (s : State) : List MirrorEntry :=
  s.circ.streams.map fun e =>
    .stream (Fin.ofNat 256 e.1) (handle32 s 1 e.2.ctx) e.2.srec e.2.status e.2.rateCur e.2.msg
      (Fin.ofNat 64 (grantOf s e.1)) (e.2.rings.map fun r =>
        { kind := r.1, base := r.2.base, entries := r.2.entries, head := r.2.head, fence := r.2.fence })

/-- Everything mirrored but for the ARMED slots. -/
def mirrorAll (s : State) : List MirrorEntry := mirrorObjects s ++ mirrorRegs s ++ mirrorStreams s

/-- What an entry speaks of: a kind and a number. -/
def entryKey : MirrorEntry → Nat × Nat
  | .ctx h _ _ _ _ _ => (1, h.toNat)
  | .queue h _ _ _ _ _ _ _ _ _ _ _ _ _ _ _ _ => (1, h.toNat)
  | .fence h _ _ _ _ _ _ => (1, h.toNat)
  | .event h _ _ _ => (1, h.toNat)
  | .graph h _ _ _ _ _ _ _ _ => (1, h.toNat)
  | .gone h => (1, h.toNat)
  | .carrel o _ => (2, o)
  | .target o _ => (2, o)
  | .stream n _ _ _ _ _ _ _ => (3, n.val)
  | .streamGone n => (3, n.val)
  | .armed n _ _ => (4, n)

/-- The entry that tells of the end of what another spoke of. -/
def entryEnd (e : MirrorEntry) : List MirrorEntry :=
  match e with
  | .carrel o _ => [.carrel o 0]
  | .target o _ => [.target o 0]
  | .stream n _ _ _ _ _ _ _ => [.streamGone n]
  | .streamGone _ => []
  | .armed _ _ _ => []
  | e => [.gone (BitVec.ofNat 32 (entryKey e).2)]

/-- The entries of a mirror: what has changed since the last one, what has ended, and every slot in ARMED (R474; log 121 for the
acknowledgement of the last one). -/
def mirrorEntries (s : State) : List MirrorEntry :=
  let now := mirrorAll s
  let ended := s.twin.sentMirror.filter fun e => !now.any fun n => entryKey n == entryKey e
  ended.flatMap entryEnd ++ (now.filter fun e => !s.twin.sentMirror.contains e) ++
  (s.acc.slots.zipIdx.filter fun e => e.1.st = .armed).map fun e => .armed (e.2 + 1) e.1.edge e.1.staged

/-! ## Declarations and takeovers (R477 to R482) -/

/-- The edge at which a takeover declared now applies (R478). -/
def takeoverEdge (s : State) : Nat := if isOpen s then s.hoop.tick + 1 else s.hoop.tick + 2

/-- Firmware's own accession for the takeover, in a free slot if there is one (R478; log 66). -/
def claimTakeover (s : State) (e : Nat) : State :=
  match freeSlot s with
  | none => s
  | some n =>
    if s.acc.slots.any fun a => a.takeover && a.st == .armed && a.edge == e then s
    else setSlot s n { AccSlot.reset with st := .armed, owner := .fw, edge := e, takeover := true }

/-- Two takeovers of one edge are one. -/
def joinTakeover (t : Takeover) (only : Option (List W32)) : Takeover :=
  { t with only := match t.only, only with
      | some a, some b => some (a ++ b)
      | _, _ => none }

/-- A takeover of every context, or of the contexts that a MOVE names; it joins one already scheduled for its edge. -/
def scheduleTakeover (s : State) (only : Option (List W32)) : State :=
  let e := takeoverEdge s
  let l := s.twin.takeovers
  let l := if l.any (fun t => t.edge == e) then l.map fun t => if t.edge = e then joinTakeover t only else t
           else l ++ [{ edge := e, only := only }]
  claimTakeover { s with twin := { s.twin with takeovers := l } } e

/-- The partner is declared failed (R477). -/
def declareFailed (s : State) : State :=
  let s := setTwin s .detached 4
  scheduleTakeover { s with twin := { s.twin with watch := false, leaveEdge := none, leaver := false } } none

/-- HEARTBEAT_SAMPLE: one sample 1 µs after each edge; an input that has not toggled is silent (R468, R477, R485). -/
def heartbeatSample (s : State) (level : Bool) : State :=
  if !s.hoop.running ∨ s.twin.hbSampled ∨ s.flt.failed then s
  else
    let silent := level == s.twin.hbIn
    let s := { s with twin := { s.twin with hbIn := level, hbSampled := true } }
    if silent ∧ (s.twin.st = .attached ∨ s.twin.st = .leaving ∨ s.twin.watch) then declareFailed s
    else if s.twin.watch then freePeer { s with twin := { s.twin with watch := false } }
    else s

/-- MOVE_MESSAGE (R477, R494). -/
def moveMessage (s : State) (ctxs : List W32) : State :=
  if s.twin.st = .attached ∨ s.twin.st = .leaving then scheduleTakeover s (some ctxs) else s

/-- FAILED_MESSAGE (R477, R495). -/
def failedMessage (s : State) : State :=
  if s.twin.st = .attached ∨ s.twin.st = .leaving then declareFailed s else s

/-! ## The takeover at its edge (R479, R480) -/

/-- Handle of a mirrored context. -/
def mirrorHandle (m : Mirror) (c : Nat) (x : Ctx) : Nat := mkHandle 1 x.func (tgetD m.gens (65536 + c) 0) c

/-- A queue as a takeover installs it (R480), bound to the unit that R139 gives at this moment, if there is one: a halted one
keeps the record of its halt. -/
def takenQueue (s : State) (slot : Nat) (x : Queue) : Queue :=
  let halt : List Desc := if x.st = .halted then
    [{ newDesc x.haltIdx 0 true 0 0 s.hoop.tick with stage := .ended x.haltStatus }] else []
  { x with slot := if x.rt ∧ x.cls < 3 then slot else 0xFF, unit := (bindUnit s x.cls).getD 0xFFFF, recs := halt }

/-- The mirrored queues of a context installed one after another, so that each is bound beside those before it. -/
def installQueues (s : State) (m : Mirror) (c slot : Nat) : State :=
  (m.queues.filter fun e => e.2.ctx == c).foldl (fun s e => putQ s e.1 (takenQueue s slot e.2)) s

/-- The queues of a context fit once they are installed: the standby slot's share, each media unit's open phase (R156, R479),
and a unit in service for each media queue (R139, R492; log 122). -/
def standbyFits (s : State) (m : Mirror) (c slot : Nat) : Bool :=
  let t := installQueues s m c slot
  let mine := (t.obj.queues.filter fun e => decide (e.1 < winKey) && e.2.ctx == c).map (·.2)
  slotFits (activeView s) s.pwr.levelNow slot (rtOfSlot t slot) &&
  mine.all fun x => decide (x.cls < 3) ||
    (x.unit != 0xFFFF && (!x.rt || unitFits (activeView s) x.cls (rtOfUnit t x.cls x.unit)))

/-- Composition targets that a handle owns in the mirror. -/
def mirrorTargets (m : Mirror) (h : Nat) : List Nat :=
  (List.range 256).filter fun t => (tget m.targets (oTarget t 0)).any fun v => nbits v.toNat 31 0 == h

/-- The tests of R479. -/
def canTake (s : State) (m : Mirror) (c : Nat) (x : Ctx) : Bool :=
  let n := x.standbySlot
  x.standbyRoot != 0 && decide (n < 48) && slotOwner s n == 0 && active s (oQuads n) != 0 &&
  !((m.streams.filter fun e => e.2.ctx == c).any fun e => (tget s.circ.streams e.1).isSome) &&
  ((mirrorTargets m (mirrorHandle m c x)).all fun t => nbits (active s (oTarget t 0)) 31 0 == 0) &&
  standbyFits s m c n

/-- A register given a value in both copies; a copy staged by a pending accession stays staged. -/
def putReg (s : State) (off v : Nat) : State :=
  let w : W64 := BitVec.ofNat 64 v
  let held := s.acc.slots.any fun a => accHolds a && (tget a.staged off).isSome
  { s with regs := { active := tset s.regs.active off w, shadow := if held then s.regs.shadow else tset s.regs.shadow off w } }

/-- VALUE after a takeover: the later of the mirrored value and the word at MIRROR (R480). -/
def takenFence (s : State) (x : Fence) : Fence :=
  if x.mirror = 0 then x
  else
    let w : W64 := BitVec.ofNat 64 (mnat s.fab.host x.mirror.toNat 8)
    { x with value := if later w x.value then w else x.value }

/-- The objects of a mirrored context come to exist under their handles (R480). -/
def installObjects (s : State) (m : Mirror) (c : Nat) (x : Ctx) : State :=
  let o := { s.obj with ctxs := tset s.obj.ctxs c { x with root := x.standbyRoot, standbyRoot := 0, standbySlot := 0xFF } }
  let o := { o with
    fences := (m.fences.filter fun (e : Nat × Fence) => e.2.ctx == c).foldl (fun t (e : Nat × Fence) => tset t e.1 (takenFence s e.2)) o.fences
    graphs := (m.graphs.filter fun (e : Nat × Graph) => e.2.ctx == c).foldl (fun t (e : Nat × Graph) => tset t e.1 e.2) o.graphs }
  let evs := m.events.filter fun e => (tget m.fences e.2.fence).any fun f => f.ctx == c
  let o := { o with events := evs.foldl (fun t (e : Nat × Event) => tset t e.1 { e.2 with ctx := c }) o.events }
  let s := installQueues (setObj s o) m c x.standbySlot
  let keys := objectKeys s.obj c
  let gens := keys.foldl (fun t k => tset t k (tgetD m.gens k 0)) s.obj.gens
  { s with obj := { s.obj with gens := gens }, twin := { s.twin with peer := s.twin.peer.filter fun e => !keys.contains e.1 } }

/-- What was draining or being destroyed in the mirror has nothing in flight on this twin, so it ends here (R480, spec/03 R80,
R72; log 122). -/
def finishDrains (s : State) (c : Nat) : State :=
  let s := (queuesOf s c).foldl (fun s q => if (getQ s q).any fun x => x.st == .draining then queueDrained s q else s) s
  if (ctxOf s c).any fun x => x.st == .destroying then ctxGone s c else s

/-- A context is taken over: its slot, whose switch moves no image, objects, streams and targets (R178, R480). -/
def takeCtx (s : State) (m : Mirror) (c : Nat) (x : Ctx) : State :=
  let h := mirrorHandle m c x
  let n := x.standbySlot
  let s := installObjects s m c x
  let s := putReg s (oOwner n) (nput (active s (oOwner n)) 31 0 h)
  let s := beginSwitch s n 0 0 [] 0 (activeView s) 0
  let s := (mirrorTargets m h).foldl (fun s t =>
    (m.targets.filter fun e => (targetOf e.1).any fun p => p.1 == t).foldl (fun s e => putReg s e.1 e.2.toNat) s) s
  let mine := m.streams.filter fun e => e.2.ctx == c
  let s := { s with
    circ := { s.circ with
      streams := mine.foldl (fun t (e : Nat × Stream) => tset t e.1 { e.2 with bucketAt := s.hoop.time }) s.circ.streams
      grants := mine.foldl (fun t (e : Nat × Stream) => tset t e.1 (tgetD m.grants e.1 0)) s.circ.grants }
    cod := { s.cod with enc := tmap s.cod.enc fun k e => if mine.any fun (y : Nat × Stream) => y.1 == k then ownerReset e else e } }
  let evs := (s.obj.events.filter fun e => e.2.ctx == c).map (·.1)
  let s := finishDrains (evs.foldl fireEvent s) c
  { s with twin := { s.twin with taken := s.twin.taken + 1 } }

/-- A context that cannot be taken over is lost on the survivor with reason TAKEOVER (R479); one that was lost before keeps its
first reason (R74) and is not counted. -/
def refuseCtx (s : State) (m : Mirror) (c : Nat) (x : Ctx) : State :=
  let t := installObjects s m c x
  if x.st = .lost then t
  else
    let t := markLost t c 0x04
    { t with twin := { t.twin with lost := t.twin.lost + 1 } }

/-- The contexts of a takeover, in ascending handle order. -/
def takeoverList (m : Mirror) (t : Takeover) : List (Nat × Nat × Ctx) :=
  let all := m.ctxs.map fun e => (mirrorHandle m e.1 e.2, e.1, e.2)
  let wanted := match t.only with
    | none => all
    | some l => all.filter fun e => l.any fun h => h.toNat == e.1
  wanted.foldl (fun acc e => acc.filter (fun y => decide (y.1 < e.1)) ++ [e] ++ acc.filter fun y => decide (e.1 < y.1)) []

/-- A mirror with every context that a MOVE names: one that the last mirror did not hold has nothing prepared for it, so it is
lost (R494). -/
def withNamed (m : Mirror) (t : Takeover) : Mirror :=
  (t.only.getD []).foldl (fun m h =>
    let h := h.toNat
    if (tget m.ctxs (hIdx h)).any fun x => mirrorHandle m (hIdx h) x == h then m
    else
      let x : Ctx := { func := hFunc h, st := .active, reason := 0, root := 0, standbyRoot := 0, standbySlot := 0xFF }
      mirrorGen { m with ctxs := tset m.ctxs (hIdx h) x } 1 h) m

/-- A mirror without some contexts. -/
def mirrorWithout (m : Mirror) (cs : List Nat) : Mirror :=
  { m with
    ctxs := m.ctxs.filter fun e => !cs.contains e.1
    queues := m.queues.filter fun e => !cs.contains e.2.ctx
    events := m.events.filter fun e => !((tget m.fences e.2.fence).any fun f => cs.contains f.ctx)
    fences := m.fences.filter fun e => !cs.contains e.2.ctx
    graphs := m.graphs.filter fun e => !cs.contains e.2.ctx
    streams := m.streams.filter fun e => !cs.contains e.2.ctx }

/-- The takeover due at the edge that begins period `k` (R478 to R482). -/
def takeoverAt (s : State) (k : Nat) : State :=
  match s.twin.takeovers.find? fun t => t.edge == k with
  | none => s
  | some t =>
    let m := withNamed (s.twin.mirror.getD Mirror.empty) t
    let rest := s.twin.takeovers.filter fun t => t.edge != k
    let s := { s with twin := { s.twin with takeovers := rest, taken := 0, lost := 0 } }
    let l := takeoverList m t
    let s := l.foldl (fun s e => if canTake s m e.2.1 e.2.2 then takeCtx s m e.2.1 e.2.2 else refuseCtx s m e.2.1 e.2.2) s
    let s := match t.only with
      | none => freePeer (m.armed.foldl (fun s a => dayBook s 0x0012 a.1 (a.2.1 % 2 ^ 32) 0) s)
      | some _ => { s with twin := { s.twin with mirror := some (mirrorWithout m (l.map (·.2.1))) } }
    raiseMsix s 0 2

/-! ## Detach and link loss (R483 to R485) -/

/-- This twin's own write of DETACH = 1: a live detach (R483). Its edge is the one that ends the period of the request, or
of the next when the margin has begun. -/
def leaveNow (s : State) (move : Bool) : State :=
  if !bar0Ok s ∨ s.twin.st ≠ .attached then s
  else
    let s := setTwin s .leaving s.twin.cause
    sendCtl { s with twin := { s.twin with move := move, leaveMove := move, leaver := true, leaveEdge := some (takeoverEdge s) } } (.detach move)

/-- The partner's write of DETACH = 1, as its message tells this twin: with MOVE, this twin takes over every context of the
leaving twin at the edge of the detach, the request time being `t` of R478 (R483). -/
def partnerLeaves (s : State) (move : Bool) : State :=
  if s.twin.st ≠ .attached then s
  else
    let s := setTwin s .leaving s.twin.cause
    let s := { s with twin := { s.twin with leaver := false, leaveEdge := some (takeoverEdge s) } }
    if move then scheduleTakeover s none else s

/-- SLV_DETACH, of this twin or of its partner. -/
def slvDetach (s : State) (move byPartner : Bool) : State := if byPartner then partnerLeaves s move else leaveNow s move

/-- The detach at its edge: the moved contexts leave, and the partner's indices become free (R483, R484). CAUSE is DETACH on
the leaving twin and PARTNER_DETACH on the other. -/
def detachAt (s : State) (k : Nat) : State :=
  if s.twin.st = .leaving ∧ s.twin.leaveEdge = some k then
    let s := if s.twin.leaver ∧ s.twin.leaveMove then (s.obj.ctxs.map (·.1)).foldl handOver s else s
    let s := setTwin s .detached (if s.twin.leaver then 1 else 2)
    freePeer { s with twin := { s.twin with leaveEdge := none, leaver := false } }
  else s

/-- What is left of the takeovers when the link is lost: that of a detach in progress does not happen (R485). -/
def linkLostTakeovers (x : Twin) : List Takeover :=
  if x.st = .leaving then x.takeovers.filter fun t => t.only.isSome || x.leaveEdge != some t.edge else x.takeovers

/-- The link is lost: an attached twin is DETACHED, and the next heartbeat sample decides whether the partner is silent
(R485). -/
def linkLost (s : State) : State :=
  let s := { s with twin := { s.twin with
    lanes := 0, retrying := false, replayTries := 0, training := s.twin.st = .training || s.twin.st = .handshake } }
  if s.twin.st = .attached ∨ s.twin.st = .leaving then
    let rest := linkLostTakeovers s.twin
    let s := setTwin s .detached 3
    { s with twin := { s.twin with watch := true, leaveEdge := none, leaver := false, takeovers := rest } }
  else if s.twin.st = .handshake then { s with twin := { s.twin with st := .training } }
  else s

/-- At an edge, a mirror that is not complete is late; the second in a row is a lost link (R475). `first`: no mirror is
due for the period that ends. -/
def mirrorEdge (s : State) (first : Bool) : State :=
  if s.twin.st ≠ .attached ∨ first then { s with twin := { s.twin with mirrorDone := false } }
  else if s.twin.mirrorDone then { s with twin := { s.twin with mirrorDone := false, lateRun := 0 } }
  else
    let t := { s.twin with mirrorLate := satAdd 0xFFFF s.twin.mirrorLate 1, lateRun := s.twin.lateRun + 1 }
    if 2 ≤ t.lateRun then linkLost { s with twin := { t with lateRun := 0 } } else { s with twin := t }

/-- In the settle phase an attached twin sends its mirror (R474), and a leaving one that moves its contexts its final one
(R483). -/
def mirrorSend (s : State) : State :=
  if s.twin.st = .attached ∨ (s.twin.st = .leaving ∧ s.twin.leaver ∧ s.twin.leaveMove) then
    let t := sendCtl s (.mirror (mirrorEntries s))
    { t with twin := { t.twin with sentMirror := mirrorAll s } }
  else s

/-- The pair registers that the partner's accession for this edge stages change here too (R473). -/
def applyPartner (s : State) (k : Nat) : State :=
  if !twinAttached s then s
  else ((s.twin.mirror.map (·.armed)).getD []).foldl (fun s a =>
    if a.2.1 = k then
      (a.2.2.filter fun e => e.1 == oPeriod || e.1 == oMargin).foldl (fun s e => putReg s e.1 e.2.toNat) s
    else s) s

/-! ## The link (R466, R467) -/

/-- The units that wait for the partner's memory are held by the link's retry in this monitor window (R497). -/
def heldByLink (s : State) : State :=
  s.fab.txns.foldl (fun s e => if e.2.space = .twin then heldByRetry s e.2 else s) s

/-- The link begins to retry, or goes on (R466). -/
def linkRetries (s : State) : State :=
  heldByLink { s with twin := { s.twin with retrying := true, retryAt := if s.twin.retrying then s.twin.retryAt else s.flt.windows } }

/-- A retrain starts (R466). -/
def startRetrain (s : State) : State :=
  let s := linkRetries s
  { s with twin := { s.twin with retrains := satAdd 0xFFFF s.twin.retrains 1, training := true, replayTries := 0 } }

/-- SELVAGE_REPLAY: a flit is replayed; `ok` says that the replay succeeded, which ends the retry unless the link retrains. The
eighth failure of a flit starts a retrain (R466). -/
def selvageReplay (s : State) (ok : Bool) : State :=
  if s.twin.lanes = 0 then s
  else
    let s := { s with twin := { s.twin with replays := satAdd 0xFFFFFFFF s.twin.replays 1 } }
    if ok then { s with twin := { s.twin with replayTries := 0, retrying := s.twin.training } }
    else if s.twin.training then s
    else if 8 ≤ s.twin.replayTries + 1 then startRetrain s
    else linkRetries { s with twin := { s.twin with replayTries := s.twin.replayTries + 1 } }

/-- SELVAGE_RETRAIN: 8 failed replays, or 10 µs without acknowledgement; one in progress goes on. -/
def selvageRetrain (s : State) : State := if s.twin.lanes = 0 ∨ s.twin.training then s else startRetrain s

/-- SELVAGE_TRAINING_DONE: training or a retrain in progress ends on eight or four lanes. -/
def selvageTrainingDone (s : State) (lanes : Nat) : State :=
  if (lanes ≠ 4 ∧ lanes ≠ 8) ∨ !s.twin.training then s
  else
    let st := if s.twin.st = .training then .handshake else s.twin.st
    { s with twin := { s.twin with lanes := lanes, retrying := false, training := false, replayTries := 0, st := st } }

/-- SELVAGE_REQUEST: a request of the partner is served past the stack tier, or refused (R203, R214, R216, R467). A
request for a sleeping stack wakes it and is to be given again (log 24). -/
def selvageRequest (s : State) (k : AccessKind) (pa len : Nat) (data : List Byte) (found : Ecc) : State :=
  if s.twin.st ≠ .attached ∧ s.twin.st ≠ .leaving then s
  else
    let answer (s : State) (a : SlvAnswer) : State := { s with twin := { s.twin with answer := a } }
    let b := groupByte s (groupOf pa)
    if hbmEnd < pa + len ∨ len = 0 ∨ 128 < pa % 128 + len ∨ (128 ≤ b ∧ !b.testBit 6) then answer s .refused
    else match reachDoms s [domHbm (groupOf pa / 2)] 1 with
    | (s, false) => s
    | (s, true) =>
      let s := if found = .single then
          let h := hbmOf s (stackOf pa)
          setHbm s (stackOf pa) { h with corrected := satAdd 0xFFFF h.corrected 1 } else s
      let old := mread s.fab.mem pa len
      let stored : State := { s with fab := { s.fab with mem := mwrite s.fab.mem pa (data.take len) } }
      if found = .double ∧ !(k = .write ∧ pa % 64 = 0 ∧ len % 64 = 0) then answer (hbmLog s pa true) .error
      else match k with
      | .write => answer stored .ack
      | .atomic => answer stored (.data old)
      | _ => answer s (.data old)

/-! ## Commands -/

def execSlvAttach (p : PartnerFacts) (s : State) : Host.Outcome State Fault Refusal := .next (slvAttach s p)

def execSlvDetach (move byPartner : Bool) (s : State) : Host.Outcome State Fault Refusal :=
  .next (slvDetach s move byPartner)

def execIdentityExchange (chain : List Byte) (nonce : NonceShown) (sig : List Byte) (s : State) : Host.Outcome State Fault Refusal :=
  .next (identityExchange s chain nonce.nonce sig nonce.verified)

def execAttachTimeout (s : State) : Host.Outcome State Fault Refusal := .next (attachTimeout s)

def execMirrorReceive (entries : List MirrorEntry) (s : State) : Host.Outcome State Fault Refusal :=
  .next (mirrorReceive s entries)

def execMoveMessage (ctxs : List W32) (s : State) : Host.Outcome State Fault Refusal := .next (moveMessage s ctxs)

def execFailedMessage (s : State) : Host.Outcome State Fault Refusal := .next (failedMessage s)

def execSelvageRequest (kind : AccessKind) (addr : W64) (len : Nat) (data : List Byte) (found : Ecc) (s : State) :
    Host.Outcome State Fault Refusal := .next (selvageRequest s kind addr.toNat len data found)

def execSelvageReplay (ok : Bool) (s : State) : Host.Outcome State Fault Refusal := .next (selvageReplay s ok)

def execSelvageRetrain (s : State) : Host.Outcome State Fault Refusal := .next (selvageRetrain s)

def execSelvageLinkLost (s : State) : Host.Outcome State Fault Refusal := .next (linkLost s)

def execSelvageTrainingDone (lanes : Fin 9) (s : State) : Host.Outcome State Fault Refusal :=
  .next (selvageTrainingDone s lanes.val)

end Sys2Proof.Machine
end

