-- ==== Sys2Proof/Machine/Power.lean ====
section
/-! DEFINITION. Performance levels, the power limit, sleep states of domains, and S3 (spec/18 R531 to R558). -/

namespace Sys2Proof.Machine

/-! ## Performance levels (R533 to R536) -/

/-- The power controller replaced. -/
def setPwr (s : State) (p : Power) : State := { s with pwr := p }

/-- The controller commands the voltage of a level (R534). -/
def commandVolt (s : State) (level : Nat) : State :=
  setPwr s { s.pwr with vcmd := some { level := level, at' := s.hoop.time } }

/-- The level whose voltage was commanded last. -/
def lastVolt (s : State) : Nat := match s.pwr.vcmd with
  | some c => c.level
  | none => s.pwr.vOk

/-- The level that a slot ARMED for the edge that begins period `k` stages. -/
def armedLevel (s : State) (k : Nat) : Option Nat :=
  (s.acc.slots.findSome? fun a => if a.st = .armed ∧ a.edge = k then tget a.staged oPlevel else none).map fun v => bits v 3 0

/-- At the cutoff before edge `k`, the voltage of an armed raise is commanded (R534). -/
def levelCutoff (s : State) (k : Nat) : State :=
  match armedLevel s k with
  | some l => if l < s.pwr.levelNow then commandVolt s l else s
  | none => s

/-- A raise refused in the settle phase: the voltage of the level in force is commanded again (R536). -/
def levelRefused (s : State) : State :=
  if s.hoop.phase = .settle ∧ lastVolt s ≠ s.pwr.levelNow ∧ s.pwr.held.isNone ∧ (armedLevel s (s.hoop.tick + 1)).isNone then
    commandVolt s s.pwr.levelNow
  else s

/-- The level at an edge, once the accessions have applied: a lower frequency takes effect and its voltage is commanded; a
higher one takes effect if its voltage is confirmed, else it is held back and VLATE counts the edge (R534, R535). -/
def levelEdge (s : State) : State :=
  let l := nbits (active s oPlevel) 3 0
  if s.pwr.levelNow < l then commandVolt (setPwr s { s.pwr with levelNow := l, held := none }) l
  else if l < s.pwr.levelNow then
    if s.pwr.vOk = l ∧ s.pwr.vcmd.isNone then setPwr s { s.pwr with levelNow := l, held := none }
    else
      let s := setPwr s { s.pwr with held := some l, vlate := satAdd 0xFFFF s.pwr.vlate 1 }
      if lastVolt s = l then s else commandVolt s l
  else setPwr s { s.pwr with held := none }

/-- VOLTAGE_CONFIRM: a confirmation within 100 µs of its command; a held frequency change follows. A later one is no
confirmation (R535). -/
def voltageConfirm (s : State) : State :=
  match s.pwr.vcmd with
  | none => s
  | some c =>
    if c.at' + 10000 ≤ s.hoop.time then s
    else
      let p := { s.pwr with vcmd := none, vOk := c.level }
      if p.held = some c.level then setPwr s { p with levelNow := c.level, held := none } else setPwr s p

/-- VOLTAGE_TIMEOUT: 100 µs have passed without a confirmation (R535). -/
def voltageTimeout (s : State) : State :=
  match s.pwr.vcmd with
  | none => s
  | some c =>
    if c.at' + 10000 ≤ s.hoop.time then deviceFault (setPwr s { s.pwr with vcmd := none }) 7 else s

/-! ## The power limit (R537 to R539) -/

/-- POWER_WINDOW_END: a window of 1 ms ends with its mean in mW. -/
def powerWindow (s : State) (mw : Nat) : State :=
  let p := s.pwr
  let over' : Bool := decide (1000 * p.limit < mw)
  let run := if over' then p.overRun + 1 else 0
  let fire : Bool := over' && decide (20 ≤ run) && p.intArmed
  let q := { p with
    powerMw := mw % 2 ^ 32
    throttleMs := if p.throttling then satAdd 0xFFFFFFFF p.throttleMs 1 else p.throttleMs
    throttling := if over' then true else if 20 * mw ≤ 19 * 1000 * p.limit then false else p.throttling
    overRun := run, intArmed := (p.intArmed || !over') && !fire
    limit := p.limitNext, windowAt := p.windowAt + 100000 }
  if fire then raiseMsix (setPwr s q) 0 4 else setPwr s q

/-! ## Sleep states (R540 to R551) -/

/-- Number of a work share of a quad. -/
def quadShareUsed (s : State) (q : Nat) : Bool := s.fab.txns.any fun e => e.2.share == q

/-- A COMPOSE, ENCODE, BIND or SEND queue of a unit has taken a descriptor that has not completed. -/
def unitTaken (s : State) (cls : Nat) (unit : Option Nat) : Bool :=
  s.obj.queues.any fun e => decide (e.1 < winKey) && e.2.cls == cls && (unit == none || unit == some e.2.unit) &&
    e.2.recs.any fun d => !isEnded d

/-- A transaction reaches a stack of HBM. -/
def stackUsed (s : State) (n : Nat) : Bool :=
  s.fab.txns.any fun e => (match e.2.space with
    | .mem | .tier _ => true
    | _ => false) && decide (e.2.addr < carveEnd) && stackOf e.2.addr == n

/-- A clean under way still writes lines of a slice, or of the HBM behind it (spec/07 R204). -/
def cleansSlice (s : State) (k : Nat) : Bool := s.fab.cleans.any fun n => (cacheClusters s n).contains k

/-- A domain holds work or an outstanding transaction (R543). -/
def domBusy (s : State) (d : Nat) : Bool :=
  if d < 64 then
    (s.cores.blocks.any fun e => e.2.core / 4 == d) || (s.cores.lmUse.any fun u => u.core / 4 == d) ||
    (s.eng.eng.any fun e => e.1 / 16 == d && !e.2.queue.isEmpty) || quadShareUsed s d
  else if d < 80 then
    let k := d - 64
    (s.ras.passes.any fun e => e.2.clusters.contains k) || (s.bob.eng.any fun e => e.1 / 2 == k && !e.2.cmds.isEmpty) ||
    (s.mmu.walks.any fun e => e.2.walker == k)
  else if d < 96 then
    cleansSlice s (d - 80) || s.fab.txns.any fun e => match e.2.space with
      | .tier n => homeSlice s n e.2.addr == some (d - 80)
      | _ => false
  else if d < 108 then unitTaken s 4 (some (d - 96))
  else if d < 112 then unitTaken s 5 (some (d - 108))
  else if d = 112 then unitTaken s 3 none
  else if d < 115 then s.circ.streams.any fun e => lportOf e.2 / 4 == d - 113 && !e.2.pq.isEmpty
  else if d < 123 then stackUsed s (d - 115) || !s.fab.cleans.isEmpty
  else s.fab.txns.any fun e => e.2.space == .twin

/-- A quad reserved by a slot under some register values (R174). -/
def vReserved (v : View) (q : Nat) : Bool :=
  (List.range 48).any fun n => ((bitList 64 (vQuads v n)).take (rtQuads v n)).contains q

/-- A channel group named in some slot's RT_GROUPS. -/
def vRtGroup (v : View) (g : Nat) : Bool := (List.range 48).any fun n => (v (oRt n)).testBit g

/-- A real-time queue of a class is admitted, on a unit or on any. -/
def rtAdmitted (s : State) (cls : Nat) (unit : Option Nat) : Bool :=
  s.obj.queues.any fun e => decide (e.1 < winKey) && e.2.rt && e.2.cls == cls && (unit == none || unit == some e.2.unit)

/-- A domain that R543 keeps ON whatever ALLOW says. -/
def domKept (s : State) (d : Nat) : Bool :=
  let v := activeView s
  if d < 64 then vReserved v d
  else if d < 96 then (List.range 4).any fun i => vReserved v (4 * (d % 16) + i)
  else if d < 108 then rtAdmitted s 4 (some (d - 96))
  else if d < 112 then rtAdmitted s 5 (some (d - 108))
  else if d = 112 then rtAdmitted s 3 none
  else if d < 115 then false
  else if d < 123 then vRtGroup v (2 * (d - 115)) || vRtGroup v (2 * (d - 115) + 1)
  else false

/-- The deepest state that the domain table and R543 permit: 0 ON, 1 S1, 2 S2. -/
def domDeepest (s : State) (d : Nat) : Nat :=
  let v := activeView s
  if d < 64 then
    (match quadSlot v d with
    | some n => if nbits (v (oRetain n)) 7 0 = 0 then 2 else 1
    | none => 2)
  else if d < 80 then 2
  else if d < 96 then if (List.range 16).any fun w => decide (128 ≤ vWay v (d - 80) w) then 1 else 2
  else if d < 113 then 2
  else if d < 115 then if (if d = 113 then s.circ.mode0 else s.circ.mode1) = 3 then 2 else 0
  else if d < 123 then 1
  else if s.twin.st = .detached then 2 else 0

/-- DOMAIN_SLEEP_ENTRY: an idle domain starts to enter the deepest state that ALLOW and R543 permit (R544). Whether the
Reserve write has begun by the time an access arrives is left open (log 67). -/
def sleepEntry (s : State) (d : Nat) : State :=
  let x := domOf s d
  let t := min x.allow (domDeepest s d)
  if domDown s d ∨ x.st ≠ .on ∨ t = 0 ∨ domKept s d ∨ domBusy s d ∨ s.pwr.inS3 ∨ s.brd.inReset then s
  else
    let resv : Bool := t = 2 ∧ (free s).toNat % 2 = 1
    setDom (drew s) d { x with st := .changing, toward := t, resv := resv }

/-- The domain in which a translation cache lies, by its number in Memory.tlbPath; 124 for none (R540). -/
def tlbDomain (t : Nat) : Nat :=
  if t < 256 then t / 4
  else if t < 320 then 64 + (t - 256) / 4
  else if t < 352 then 64 + t % 16
  else if t < 384 then 64 + (t - 352) / 2
  else if t < 449 then 124
  else if t < 465 then 96 + (t - 449)
  else if t < 467 then 113 + (t - 465)
  else 112

/-- The core of a rotating token of the cores: local memory, an outbound or an inbound channel. -/
def tokenCore (k : Nat) : Nat := if k < 256 then k else if k < 4352 then (k - 256) / 16 else (k - 4352) / 16

/-- The translation caches of a domain, and the walk cache of a cluster's, start empty (R550). -/
def emptyCaches (m : Mmu) (d : Nat) : Mmu :=
  { m with tlb := m.tlb.filter fun e => tlbDomain e.tlb != d
           walkCache := m.walkCache.filter fun e => !(decide (e.walker < 16) && 64 + e.walker == d) }

/-- What a domain loses in S2: all but what its Reserve record keeps (R541, R550). -/
def domLose (s : State) (d : Nat) : State :=
  let s := { s with mmu := emptyCaches s.mmu d }
  if d < 64 then
    { s with cores := { s.cores with lm := s.cores.lm.filter fun c => c.1 / 0x80000 / 4 ≠ d
                                     tokens := s.cores.tokens.filter fun e => tokenCore e.1 / 4 != d }
             eng := { s.eng with eng := s.eng.eng.filter fun e => e.1 / 16 ≠ d
                                 tokens := s.eng.tokens.filter fun e => (if e.1 < 256 then e.1 / 4 else (e.1 - 256) / 16) != d } }
  else if d < 80 then { s with bob := { s.bob with eng := s.bob.eng.filter fun e => e.1 / 2 != d - 64 } }
  else if d < 96 then
    { s with fab := { s.fab with lines := s.fab.lines.filter fun l => l.slice ≠ d - 80
                                 plru := s.fab.plru.filter fun e => e.1 / 16384 != d - 80 } }
  else if d < 108 then { s with cod := { s.cod with superQ := tdel s.cod.superQ (d - 96) } }
  else if d = 123 then
    { s with twin := { Twin.reset with
        st := s.twin.st, replays := s.twin.replays
        retrains := s.twin.retrains, mirrorLate := s.twin.mirrorLate
        hbOut := s.twin.hbOut, hbIn := s.twin.hbIn, hbSampled := s.twin.hbSampled, takeovers := s.twin.takeovers,
        mirror := s.twin.mirror, peer := s.twin.peer, watch := s.twin.watch } }
  else s

/-- DOMAIN_ENTRY_DONE: the domain is in S1 or S2; one that an access reached after its Reserve write wakes at once (R544,
R547). -/
def entryDone (s : State) (d : Nat) : State :=
  let x := domOf s d
  if x.st ≠ .changing then s
  else
    let s := if x.toward = 2 then domLose s d else s
    let y := { x with st := if x.toward = 2 then .s2 else .s1, toward := 0, resv := false, waking := false }
    let s := setDom s d y
    if x.waking then startWake s d x.wakeSrc else s

/-- DOMAIN_WAKE_DONE: the domain is ON, and its stalled accesses proceed (R545, R546; log 24). -/
def wakeDone (s : State) (d : Nat) : State :=
  let x := domOf s d
  if (x.st = .s1 ∨ x.st = .s2) ∧ x.waking ∧ !domDown s d then
    setDom s d { x with st := .on, waking := false, stalled := 0 }
  else s

/-- The units whose scope a domain lies in (R491, R551). -/
def domScope (s : State) (d : Nat) : List UnitRef :=
  if d < 64 then [.quad (Fin.ofNat 64 d)]
  else if d < 96 then [.cluster (Fin.ofNat 16 (d % 16))]
  else if d < 112 then [.media (Fin.ofNat 16 (d - 96))]
  else if d = 113 ∨ d = 114 then
    ((List.range 4).filter fun i => portExists s (4 * (d - 113) + i)).map fun i => .port (Fin.ofNat 8 (4 * (d - 113) + i))
  else [.device]

/-- WAKE_TIMEOUT: a wake that has not ended within 100 µs of its start (R551). -/
def wakeTimeout (s : State) (d : Nat) : State :=
  let x := domOf s d
  if x.waking ∧ (x.st = .s1 ∨ x.st = .s2) ∧ x.wakeAt + 10000 ≤ s.hoop.time then
    (domScope s d).foldl (fun s u => unitFault s u 7) (setDom s d { x with waking := false })
  else s

/-- Domains to which the accessions of an edge give a role: a quad that joins a slot, a way that is assigned, a channel
group or a quad that becomes reserved (R548). -/
def roleDoms (old new : View) : List Nat :=
  ((List.range 64).filter fun q => (quadSlot old q).isNone && (quadSlot new q).isSome).map domQuad ++
  ((List.range 16).filter fun k => (List.range 16).any fun w => decide (vWay old k w < 128) && decide (128 ≤ vWay new k w)).map
    domSlice ++
  (((List.range 16).filter fun g => !vRtGroup old g && vRtGroup new g).map fun g => domHbm (g / 2)) ++
  ((List.range 64).filter fun q => !vReserved old q && vReserved new q).flatMap fun q => [domQuad q, domCluster (q / 4), domSlice (q / 4)]

/-- At the cutoff before edge `k`, the domains that its accessions give a role start their wake (R548). -/
def roleWakes (s : State) (k : Nat) : State :=
  (roleDoms (activeView s) (viewOver s (armedTo s k))).foldl (fun s d => startWake s d 4) s

/-- Dirty lines of a sleeping slice wake it for the settle work (R545). -/
def settleWakes (s : State) : State :=
  let ks := ((s.fab.lines.filter fun l => l.dirty.any id).map (·.slice)).dedup
  ks.foldl (fun s k => startWake s (domSlice k) 8) s

/-! ## S3 (R553 to R557) -/

/-- PWR_CTRL.S3 = 1 (R553). -/
def requestS3 (s : State) : State :=
  if !bar0Ok s then s
  else if s.obj.ctxs.isEmpty ∧ s.circ.streams.isEmpty ∧ s.twin.st = .detached ∧ !accPending s ∧ s.mmu.carve = 0 ∧
      s.mmu.carveNext = 0 then
    setPwr s { s.pwr with s3Req := true, s3Refused := false }
  else setPwr s { s.pwr with s3Refused := true }

/-- A function's state in S3: what firmware holds in its carve-out and the MSI-X table; its registers are as after a cold
reset (log 68). -/
def fnS3 (x : Fn) : Fn :=
  { Fn.reset with events := x.events, faults := x.faults, slow := x.slow, invalTok := x.invalTok,
                  msixTable := x.msixTable, msixPend := x.msixPend }

/-- Registers that the always-on island keeps in both copies: the Hoop's and the performance level. -/
def keptReg (off : Nat) : Bool := off = oPeriod || off = oMargin || off = oPlevel

/-- Every domain off, or in self-refresh for the HBM stacks. -/
def domsOff (t : Tbl Dom) : Tbl Dom :=
  (List.range 124).foldl (fun t d =>
    tset t d { tgetD t d Dom.reset with st := if 115 ≤ d ∧ d < 123 then .s1 else .s2, toward := 0, resv := false, waking := false }) t

/-- S3 is entered: all domains outside the always-on island lose what the Reserve does not keep (R550, R553, R554; log 68). -/
def enterS3 (s : State) : State :=
  let drop (t : Tbl W64) : Tbl W64 := t.filter fun e => keptReg e.1
  { s with
    regs := { active := drop s.regs.active, shadow := drop s.regs.shadow }
    acc := { slots := List.replicate 4 AccSlot.reset, targetHost := 0, targetFw := 0, stray := 0 }
    fns := tmap s.fns fun _ x => fnS3 x
    mmu := Mmu.reset
    fe := FrontEnds.reset
    car := []
    fab := { s.fab with
      mem := s.fab.mem.filter fun c => decide (c.1 < scratchBase)
      lines := [], plru := [], shares := [], txns := [], cleans := [], tokens := [] }
    cores := { Cores.reset with undef := s.cores.undef }
    eng := { s.eng with eng := [], tokens := [] }
    bob := { s.bob with eng := [] }
    cch := { stat := [], comps := [], token := 0, start := 0 }
    circ := { s.circ with link := 0, grants := [], out := [] }
    twin := (domLose s 123).twin
    fw := { s.fw with running := false, kicked := false, expiryDue := false, reqs := [], bootImage := 0, bootCharter := 0 }
    pwr := { s.pwr with doms := domsOff s.pwr.doms, s3Req := false, inS3 := true, exiting := false, lock := 0xE000 } }

/-- An exit from S3 starts (R554, R555). -/
def startExit (s : State) (src : Nat) : State :=
  if !s.pwr.inS3 ∨ s.pwr.exiting ∨ s.brd.inReset then s
  else recordWake (setPwr s { s.pwr with exiting := true }) 0x7F src

/-- BAR0 ranges that S3 serves on a read: HOOP, PWR and CLK (R554). -/
def s3Range (off : Nat) : Bool := decide (off < 0x100000) || (decide (0x1300000 ≤ off) && decide (off < 0x1500000))

/-- HOST_ACCESS_IN_S3: a read of the ranges that S3 serves starts nothing; any other access starts the exit, and is to be
given again after it (R554, R555; log 24). -/
def accessInS3 (s : State) (bar : Bar) (off : Nat) (isWrite : Bool) : State :=
  match bar with
  | .mgmt => s
  | .bar0 => if !isWrite && s3Range off then s else startExit s 6
  | .bar2 _ => startExit s 6

/-- PWR_CTRL.CLAMP (R557): unchanged while a domain is in S2 or CHANGING. -/
def setClamp (s : State) (v : Bool) : State :=
  let blocked := (List.range 124).any fun d => domAbsent s d || (domOf s d).st = .s2 || (domOf s d).st = .changing
  if !bar0Ok s ∨ blocked then s else setPwr s { s.pwr with clamp := v }

end Sys2Proof.Machine
end

