-- ==== Sys2Proof/Machine/Firmware.lean ====
section
/-! DEFINITION. Velhinto: heartbeats and grace, the watchdog and restarts, the day book, the firmware rings' registers, and
the SPDM responder (spec/17 R508, R513 to R530). -/

namespace Sys2Proof.Machine

/-- Firmware's record replaced. -/
def setFw (s : State) (x : Firmware) : State := { s with fw := x }

/-! ## Rings and the heartbeat (R508, R520) -/

/-- A BASE register of a firmware ring: ADDR, and LOG2 clamped to 6 to 12. -/
def ringBase (v : W64) : W64 := BitVec.ofNat 64 (bits v 63 12 * 4096 + clamp 6 12 (bits v 3 0))

/-- FW_RING_BASE: a write to a BASE register while no command of the function is taken and incomplete sets it, and both
ring indices to 0 (R508). -/
def fwRingBase (s : State) (f : Nat) (cpl : Bool) (v : W64) : State :=
  if !bar2Ok s ∨ s.fw.reqs.any fun r => r.func == f then s
  else
    let x := { fnOf s f with cmdTail := 0, cplHead := 0, taken := 0, written := 0 }
    setFn s f (if cpl then { x with cplBase := ringBase v } else { x with cmdBase := ringBase v })

/-- HEARTBEAT: a write to FW_HEARTBEAT (R520, R523). -/
def heartbeat (s : State) (f : Nat) : State :=
  if !bar2Ok s then s
  else
    let x := fnOf s f
    setFn s f { x with lastHb := BitVec.ofNat 32 s.hoop.tick, hbSeen := x.hbSeen || x.grace.isSome }

/-- A function that holds a context is watched (R520). -/
def watched (s : State) (f : Nat) : Bool := s.obj.ctxs.any fun e => e.2.func == f

/-! ## Grace periods (R521 to R524) -/

/-- GRACE_START: the grace period that an edge has made due for a function begins. -/
def graceStart (s : State) (f : Nat) : State :=
  let x := fnOf s f
  match x.graceDue with
  | none => s
  | some why =>
    let s := setFn s f { x with grace := some 0, graceLen := s.fw.graceTicks, graceDue := none, hbSeen := false }
    dayBook s 0x0030 f s.fw.graceTicks why

/-- The ACTIVE contexts of a function, by index. -/
def activeOf (s : State) (f : Nat) : List Nat :=
  (s.obj.ctxs.filter fun e => e.2.func == f && e.2.st = .active).map (·.1)

/-- The contexts of a function are marked lost with reason HOST_GONE. -/
def hostGone (s : State) (f : Nat) : State := (activeOf s f).foldl (fun s c => markLost s c 0x03) s

/-- GRACE_EXPIRY: a grace period of MGT_GRACE.TICKS edges ends with the function's contexts lost; the physical function's
OPEN slot is then refused with ABORTED (R524). -/
def graceExpiry (s : State) (f : Nat) : State :=
  let x := fnOf s f
  match x.grace with
  | none => s
  | some n =>
    if n < x.graceLen then s
    else
      let lost := (activeOf s f).length
      let s := hostGone (setFn s f { x with grace := none, hbSeen := false }) f
      let s := match f, openSlot s .host with
        | 0, some k => refuseSlot s k ccAborted 0
        | _, _ => s
      serveReqs (dayBook s 0x0032 f lost 0)

/-- One function at an edge: its grace period counts or ends by a heartbeat, a link-down event makes one due, and firmware
evaluates the ended period (R521 to R524). `run`: firmware runs. -/
def graceEdge (run : Bool) (s : State) (f : Nat) : State :=
  let x := fnOf s f
  match x.grace with
  | some n =>
    if x.hbSeen ∧ run then
      dayBook (setFn s f { x with grace := none, hbSeen := false, miss := 0 }) 0x0031 f (n + 1) 0
    else setFn s f { x with grace := some (n + 1) }
  | none =>
    if !watched s f then s
    else
      let x := if s.fw.linkDown ∧ x.graceDue.isNone then { x with graceDue := some 1 } else x
      if !run then setFn s f x
      else
        let m := if x.lastHb = BitVec.ofNat 32 s.hoop.tick then 0 else satAdd 127 x.miss 1
        let due := if m = 64 ∧ x.graceDue.isNone then some 0 else x.graceDue
        trace (setFn s f { x with miss := m, graceDue := due }) 3 0 f m

/-- Functions with anything to do at an edge. -/
def graceFns (s : State) : List Nat := (List.range 64).filter fun f => watched s f || (fnOf s f).grace.isSome

/-- The watch at the edge that ends a period: heartbeats, and the watchdog's expiry if the period held no kick (R516,
R521). -/
def watchEdge (s : State) : State :=
  let expire : Bool := s.fw.running && !s.fw.kicked
  let s := (graceFns s).foldl (graceEdge (s.fw.running && !expire)) s
  setFw s { s.fw with linkDown := false, kicked := false, expiryDue := s.fw.expiryDue || expire }

/-- PCIE_LINK_DOWN (R522). -/
def pcieLinkDown (s : State) : State := if s.brd.inReset then s else setFw s { s.fw with linkDown := true }

/-- FUNCTION_LEVEL_RESET (R525; spec/04 R125): its ring registers are those of R508 but for FW_STAT.LAST_HB; the MSI-X
table is as PCI Express resets it (log 12). -/
def functionLevelReset (s : State) (f : Nat) : State :=
  if s.brd.inReset then s
  else
    let s := hostGone s f
    let x := fnOf s f
    setFn s f { x with
      cmdBase := 6, cplBase := 6, cmdTail := 0, cplHead := 0, taken := 0, written := 0, miss := 0, grace := none,
      graceLen := 0, graceDue := none, hbSeen := false, invalTok := 0, msixTable := [], msixPend := [] }

/-! ## Watchdog and restart (R516 to R519) -/

/-- WATCHDOG_KICK. -/
def watchdogKick (s : State) : State :=
  if !s.fw.running then s else trace (setFw s { s.fw with kicked := true }) 4 0 0 s.hoop.tick

/-- The management core is reset: pending accessions are refused, and the third restart within 64 ticks is a DEVICE fault;
the MEANS of one by the watchdog is not stated, and is free (log 63). -/
def fwRestart (s : State) (cause : Nat) : State :=
  let recent := s.fw.restartTicks.filter fun t => decide (s.hoop.tick < t + 64)
  let n := satAdd 0xFF s.fw.restartCount 1
  let s := setFw s { s.fw with
    running := false, restarting := true, kicked := false, expiryDue := false, restartCount := n
    restartCause := cause, restartTick := s.hoop.tick % 2 ^ 32, restartTicks := recent ++ [s.hoop.tick] }
  let s := levelRefused (refusePending (dayBook s 0x0002 0 cause n))
  if recent.length < 2 then s
  else if cause = 2 then deviceFault s 5
  else deviceFault (drew s) (1 + (free s).toNat % 9)

/-- WATCHDOG_EXPIRY: the expiry that an edge has made due (R516). -/
def watchdogExpiry (s : State) : State := if s.fw.expiryDue ∧ s.fw.running then fwRestart s 1 else s

/-- LOCKSTEP_MISMATCH (R488, R516). -/
def lockstepMismatch (s : State) : State := if s.fw.running then fwRestart s 2 else s

/-- Base of the Velhinto carve-out (spec/04 R106). -/
def velhintoBase : Nat := 0x47C0000000

/-- The image copy in the carve-out has the digest recorded at boot (R516). -/
def imageOk (s : State) : Bool :=
  match s.fw.charter with
  | none => false
  | some c => sha512 (mread s.fab.mem velhintoBase c.imageLen) == c.imageDigest

/-- FIRMWARE_RESTART_DONE: Velhinto runs again, or its image has changed: a DEVICE fault with MEANS 1 (R516, R519). -/
def restartDone (s : State) : State :=
  if !s.fw.restarting then s
  else if imageOk s then serveReqs (setFw s { s.fw with restarting := false, running := true })
  else deviceFault s 1

/-- S3_EXIT_DONE: the domains are ON, and Velhinto runs again; this restart is not counted (spec/18 R555). -/
def s3ExitDone (s : State) : State :=
  if !s.pwr.exiting then s
  else
    let on (x : Dom) : Dom := if x.held then x else { x with st := .on }
    let s := setPwr s { s.pwr with inS3 := false, exiting := false, lock := 0xFFFF, doms := tmap s.pwr.doms fun _ x => on x }
    if imageOk s then setFw s { s.fw with running := true } else deviceFault s 1

/-- What edges have made due and no command has carried out: the watchdog's expiry, and grace periods that start or end
(log 69). -/
def settleDues (s : State) : State :=
  let s := watchdogExpiry s
  let fs := (s.fns.filter fun e => e.2.graceDue.isSome || e.2.grace.isSome).map (·.1)
  fs.foldl (fun s f => graceExpiry (graceStart s f) f) s

/-! ## Day book and marginalia (R513, R515) -/

/-- DAYBOOK_SET: the day book is placed, and the kept records written, oldest first. -/
def daybookSet (addr entries : Nat) (s : State) : State × Nat × Nat :=
  if addr % 4096 ≠ 0 then (s, stRange, 0)
  else
    let r : Ring := { Ring.reset with base := some (BitVec.ofNat 64 addr), entries := clampPow2 8 16 entries }
    let start : Mem × Ring := (s.fab.host, r)
    let put (p : Mem × Ring) (d : DbRec) : Mem × Ring :=
      let e := ringPut p.1 p.2 (bookWord d)
      (e.1, e.2.1)
    let e := s.fw.book.foldl put start
    ({ s with fab := { s.fab with host := e.1 }, fw := { s.fw with bookRing := e.2 } }, stOk, 0)

/-- MARGIN_SET. -/
def marginSet (mask : W64) (s : State) : State × Nat × Nat := (setFw s { s.fw with groups := mask }, stOk, 0)

/-! ## SPDM (R526 to R529; message formats from DMTF SPDM 1.2, log 70) -/

/-- Request codes. -/
def qVersion : Nat := 0x84
def qCapabilities : Nat := 0xE1
def qAlgorithms : Nat := 0xE3
def qCertificate : Nat := 0x82
def qChallenge : Nat := 0x83
def qMeasurements : Nat := 0xE0

/-- Bytes of a list of numbers. -/
def byteList (l : List Nat) : List Byte := l.map fun n => BitVec.ofNat 8 n

/-- An ERROR message. -/
def spdmError (code : Nat) : List Byte := byteList [0x12, 0x7F, code, 0]

/-- A request answered: the points of trace group 6, and the response on the mailbox. -/
def spdmReply (s : State) (req : Nat) (out : List Byte) : State :=
  let s := trace s 6 0 0 req
  let s := setFw s { s.fw with spdmOut := out }
  trace s 6 1 0 ((out.getD 1 0).toNat)

/-- A request: Busy during a restart, UnexpectedRequest where it may not be made yet (R518, R528), else its answer, for
which `n` free bytes are drawn. -/
def spdmServe (s : State) (req : Nat) (may : Bool) (n : Nat) (answer : List Byte → List Byte) (post : Firmware → Firmware) :
    State :=
  if s.brd.inReset ∨ s.pwr.inS3 then s
  else if s.fw.restarting then spdmReply s req (spdmError 0x03)
  else if !may then spdmReply s req (spdmError 0x04)
  else
    let t := spdmReply (drewN s n) req (answer (freeBytes s n))
    setFw t (post t.fw)

/-- GET_VERSION: version 1.2. -/
def getVersion (s : State) : State :=
  spdmServe s qVersion true 0 (fun _ => byteList [0x10, 0x04, 0, 0, 0, 1, 0x00, 0x12])
    fun x => { x with spdmVersion := true, spdmCaps := false, spdmAlgs := false }

/-- GET_CAPABILITIES: CERT, CHAL and MEAS with signatures; its timing exponent and sizes are not stated. -/
def getCapabilities (s : State) : State :=
  spdmServe s qCapabilities s.fw.spdmVersion 9
    (fun r => byteList [0x12, 0x61, 0, 0, 0] ++ r.take 1 ++ byteList [0, 0, 0x16, 0, 0, 0] ++ r.drop 1)
    fun x => { x with spdmCaps := true }

/-- NEGOTIATE_ALGORITHMS: RSASSA-PSS 4096 and SHA-512, of what is offered; UnsupportedRequest where none of them is
(R527). -/
def negotiate (s : State) (asym hash meas : W32) : State :=
  let a := bit asym 6
  let h := bit hash 2
  let m := bit meas 3
  let pick (b : Bool) (v : Nat) : List Nat := [if b then v else 0, 0, 0, 0]
  spdmServe s qAlgorithms s.fw.spdmCaps 0
    (fun _ => if !(a || h || m) then spdmError 0x07
      else byteList ([0x12, 0x63, 0, 0, 36, 0, 1, 0] ++ pick m 8 ++ pick a 0x40 ++ pick h 4 ++ List.replicate 16 0))
    fun x => if a ∧ h then { x with spdmAlgs := true } else x

/-- Requests that need a charter and the algorithms (R528). -/
def spdmReady (s : State) : Bool := s.fw.accepted && s.fw.spdmAlgs

/-- The certificate chain of slot 0 with its SPDM header; the digest of the root certificate is the part's. -/
def spdmChain (s : State) : List Byte :=
  let cert := ownChain s
  toLE 2 (68 + cert.length) ++ byteList [0, 0] ++ Config.rootCertHash ++ cert

/-- GET_CERTIFICATE: slots 1 to 7 are empty. -/
def getCertificate (s : State) (slot offset length : Nat) : State :=
  let chain := spdmChain s
  let out := if slot ≠ 0 ∨ chain.length ≤ offset then spdmError 0x01
    else
      let part := slice chain offset length
      byteList [0x12, 0x02, 0, 0] ++ toLE 2 part.length ++ toLE 2 (chain.length - offset - part.length) ++ part
  spdmServe s qCertificate (spdmReady s) 0 (fun _ => out) id

/-- The value of a measurement, and whether it is a digest (R529). -/
def measurement (s : State) (i : Nat) : Bool × List Byte :=
  match s.fw.charter with
  | none => (false, [])
  | some c =>
    if i = 1 then (true, Config.romDigest)
    else if i = 2 then (true, c.imageDigest)
    else if i = 3 then (false, toLE 4 c.imageVersion.toNat)
    else if i = 4 then (true, c.digest)
    else if i = 5 then (false, toLE 4 c.version.toNat ++ toLE 2 c.sku ++ toLE 2 c.clusters)
    else (false, toLE 1 s.fw.restartCount)

/-- A measurement block; its DMTF value type is `kind` below the raw-value bit. -/
def measureBlock (s : State) (i : Nat) (kind : Byte) : List Byte :=
  let (digest, v) := measurement s i
  byteList [i, 1] ++ toLE 2 (v.length + 3) ++ [(kind &&& 0x7F) ||| (if digest then 0 else 0x80)] ++ toLE 2 v.length ++ v

/-- Measurement blocks with free value types. -/
def measureBlocks (s : State) (l : List Nat) (kinds : List Byte) : List Byte :=
  (l.zipIdx.map fun e => measureBlock s e.1 (kinds.getD e.2 0)).flatten

/-- CHALLENGE: CHALLENGE_AUTH with the chain's digest, a nonce, the measurement summary that is asked for, and the
signature; nonce and signature are free. -/
def challenge (s : State) (slot summary : Nat) : State :=
  let sum (r : List Byte) : List Byte := if summary = 0 then [] else sha512 (measureBlocks s [1, 2, 3, 4, 5, 6] (r.drop 544))
  spdmServe s qChallenge (spdmReady s) 550
    (fun r => if slot ≠ 0 then spdmError 0x01
      else byteList [0x12, 0x03, 0, 1] ++ sha512 (spdmChain s) ++ r.take 32 ++ sum r ++ byteList [0, 0] ++ slice r 32 512) id

/-- GET_MEASUREMENTS: index 0 asks for the number, 0xFF for all (R529). -/
def getMeasurements (s : State) (index : Nat) (signed : Bool) : State :=
  let l := if index = 0xFF then [1, 2, 3, 4, 5, 6] else if index = 0 then [] else [index]
  spdmServe s qMeasurements (spdmReady s) 550
    (fun r => if index ≠ 0xFF ∧ 6 < index then spdmError 0x01
      else
        let rec' := measureBlocks s l (r.drop 544)
        byteList [0x12, 0x60, if index = 0 then 6 else 0, 0, l.length] ++ toLE 3 rec'.length ++ rec' ++ r.take 32 ++
          byteList [0, 0] ++ (if signed then slice r 32 512 else [])) id

/-! ## Commands -/

def execFwRingBase (f : Fin 64) (cpl : Bool) (v : W64) (s : State) : Host.Outcome State Fault Refusal :=
  .next (fwRingBase s f.val cpl v)

def execHeartbeat (f : Fin 64) (_v : W64) (s : State) : Host.Outcome State Fault Refusal := .next (heartbeat s f.val)

def execDaybookSet (c : Call) (addr : W64) (entries : W32) (s : State) : Host.Outcome State Fault Refusal :=
  .next (fwCommand s c 0x48 (pfOnly c (daybookSet addr.toNat entries.toNat)))

def execMarginSet (c : Call) (mask : W64) (s : State) : Host.Outcome State Fault Refusal :=
  .next (fwCommand s c 0x49 (pfOnly c (marginSet mask)))

def execGraceStart (f : Fin 64) (s : State) : Host.Outcome State Fault Refusal := .next (graceStart s f.val)

def execGraceExpiry (f : Fin 64) (s : State) : Host.Outcome State Fault Refusal := .next (graceExpiry s f.val)

def execPcieLinkDown (s : State) : Host.Outcome State Fault Refusal := .next (pcieLinkDown s)

def execFunctionLevelReset (f : Fin 64) (s : State) : Host.Outcome State Fault Refusal := .next (functionLevelReset s f.val)

def execWatchdogKick (s : State) : Host.Outcome State Fault Refusal := .next (watchdogKick s)

def execWatchdogExpiry (s : State) : Host.Outcome State Fault Refusal := .next (watchdogExpiry s)

def execLockstepMismatch (s : State) : Host.Outcome State Fault Refusal := .next (lockstepMismatch s)

def execFirmwareRestartDone (s : State) : Host.Outcome State Fault Refusal := .next (restartDone s)

def execS3ExitDone (s : State) : Host.Outcome State Fault Refusal := .next (s3ExitDone s)

def execGetVersion (s : State) : Host.Outcome State Fault Refusal := .next (getVersion s)

def execGetCapabilities (s : State) : Host.Outcome State Fault Refusal := .next (getCapabilities s)

def execNegotiateAlgorithms (asym hash meas : W32) (s : State) : Host.Outcome State Fault Refusal :=
  .next (negotiate s asym hash meas)

def execGetCertificate (slot : Fin 256) (offset length : Nat) (s : State) : Host.Outcome State Fault Refusal :=
  .next (getCertificate s slot.val offset length)

def execChallenge (slot summary : Fin 256) (_nonce : List Byte) (s : State) : Host.Outcome State Fault Refusal :=
  .next (challenge s slot.val summary.val)

def execGetMeasurements (index : Fin 256) (signed : Bool) (_nonce : List Byte) (s : State) :
    Host.Outcome State Fault Refusal :=
  .next (getMeasurements s index.val signed)

end Sys2Proof.Machine
end

