-- ==== Sys2Proof/Machine/Board.lean ====
section
/-! DEFINITION. Resets, boot, the sideband page, the debug port, and faults of supply, clock and temperature (spec/17 R501 to
R507, spec/20 R581 to R592, spec/16 R488). -/

namespace Sys2Proof.Machine

/-! ## Resets (R504, R584) -/

/-- A cold reset: every piece of state takes its reset value but the board, the debug port and sideband pointer, and host
memory. -/
def coldReset (s : State) (b : Board) : State :=
  { State.reset with fab := { Fabric.reset with host := s.fab.host }, brd := b, free := s.free, pending := s.pending }

/-- The board replaced. -/
def setBrd (s : State) (b : Board) : State := { s with brd := b }

/-- Deasserted reset inputs. -/
def inputsGood (b : Board) : Bool := b.powerOk && b.perstN && !b.thermtrip

/-- POWER_OK_RISE: reset ends 1 ms later at the earliest. -/
def powerOkRise (s : State) : State := setBrd s { s.brd with powerOk := true }

/-- POWER_OK_FALL: a cold reset at once; THERMTRIP_N is released (R584, R588). -/
def powerOkFall (s : State) : State :=
  coldReset s { s.brd with powerOk := false, inReset := true, thermtrip := false, twinSel := false, jtag := .bypass, tdo := none }

/-- PERST_N_ASSERT: a cold reset; of no effect but on the pin while POWER_OK is low (R504, R584). -/
def perstAssert (s : State) : State :=
  if s.brd.powerOk then coldReset s { s.brd with perstN := false, inReset := true, twinSel := false }
  else setBrd s { s.brd with perstN := false }

/-- PERST_N_DEASSERT: TWIN_SEL is sampled (R581, R584). -/
def perstDeassert (s : State) : State :=
  if s.brd.powerOk then setBrd s { s.brd with perstN := true, twinSel := if s.brd.perstN then s.brd.twinSel else s.brd.strap }
  else setBrd s { s.brd with perstN := true }

/-- HOT_RESET: a cold reset with every reset input deasserted, so that it ends at once (R504, R584). TWIN_SEL keeps its
sampled level (log 71). -/
def hotReset (s : State) : State := if s.brd.inReset then s else coldReset s s.brd

/-- RESET_RELEASE: the device leaves reset, and HOOP_TIME counts from here (R25, R584). -/
def resetRelease (s : State) : State :=
  if s.brd.inReset ∧ inputsGood s.brd then setBrd s { s.brd with inReset := false } else s

/-- THERMTRIP: THERMTRIP_N is driven low, and the device holds itself in reset (R588). -/
def thermtrip (s : State) : State := coldReset s { s.brd with thermtrip := true, inReset := true }

/-! ## Boot (R501 to R507) -/

/-- BOOT_ROM_READY: STATE becomes WAIT; DIE_ID is shown, and the clocks run (R504, R572; log 72). -/
def bootRomReady (s : State) : State :=
  if s.brd.inReset ∨ s.fw.boot ≠ .reset then s
  else { s with fw := { s.fw with boot := .wait, dieId := some Config.dieId }, pwr := { s.pwr with lock := 0xFFFF } }

/-- SEC_BOOT_CTRL.GO = 1 (R505). -/
def secBootGo (s : State) : State :=
  if s.brd.inReset ∨ ¬ (s.fw.boot = .wait ∨ s.fw.boot = .refused) then s
  else setFw s { s.fw with boot := .checking, code := 0, object := 0, goTime := s.hoop.time, charter := none, trims := [] }

/-- A boot check that fails (R506). -/
def bootRefuse (s : State) (code : Nat) (image : Bool) : State :=
  setFw s { s.fw with boot := .refused, code := code, object := if image then 1 else 0, charter := none }

/-- What the reads of the check give for the header and the body of an object. -/
def readFails (r : BootRead) (image body : Bool) : Bool := match r with
  | .done => false
  | .failed i b => i == image && b == body

/-- A signed object that has passed the tests of both kinds: VERSION, header and body. -/
structure Signed where
  version : Nat
  header : List Byte
  body : List Byte
  deriving DecidableEq, Repr

/-- BODY_LEN within the limit of its kind (R503). -/
def lenOk (image : Bool) (n : Nat) : Bool :=
  if image then decide (n ≤ 0x4000000) && n % 4096 == 0 else decide (4124 ≤ n) && decide (n ≤ 4124 + 8192)

/-- The tests of an object in the order of R506, up to its signature: its code, or the object. -/
def checkObject (s : State) (r : BootRead) (image : Bool) (at' : Nat) : Except Nat Signed :=
  let h := mread s.fab.host at' 1040
  let v := leNat (h.take 16)
  let len := nbits v 95 64
  if readFails r image false then .error 0x01
  else if nbits v 31 0 ≠ 0x0E5AC4A1 ∨ nbits v 63 48 ≠ 1 ∨ nbits v 47 32 ≠ (if image then 2 else 1) then .error 0x02
  else if !lenOk image len then .error 0x03
  else if readFails r image true then .error 0x01
  else
    let b := mread s.fab.host (at' + 1040) len
    if !image ∧ len ≠ 4124 + leNat (slice b 4120 4) then .error 0x03
    else if sha512 (slice h 16 512) ≠ Config.rootDigest then .error 0x04
    else if !rsaVerify (slice h 16 512) (h.take 528 ++ b) (slice h 528 512) then .error 0x05
    else .ok { version := nbits v 127 96, header := h, body := b }

/-- Trim entries in list order up to the one that ends the list (R503). -/
def trimList (b : List Byte) : List (Nat × W32) :=
  ((List.range 512).map fun i => (leNat (slice b (24 + 8 * i) 4), BitVec.ofNat 32 (leNat (slice b (28 + 8 * i) 4)))).takeWhile
    fun e => e.1 ≠ 0

/-- An offset in the trim windows (R503). -/
def trimOk (o : Nat) : Bool :=
  o % 4 == 0 && ((decide (0x1340000 ≤ o) && decide (o < 0x1380000)) || (decide (0x1440000 ≤ o) && decide (o < 0x1480000)))

/-- The tests of the charter record after its signature (R4, R506). -/
def charterBad (b : List Byte) : Option Nat :=
  let sku := leNat (slice b 16 2)
  let cl := leNat (slice b 18 2)
  if b.take 16 ≠ Config.dieId then some 0x06
  else if !((sku == 0x9410 && popcount 16 cl == 16) || (sku == 0x9408 && popcount 16 cl == 14)) then some 0x07
  else if (trimList b).any fun e => !trimOk e.1 then some 0x08
  else none

/-- What an accepted charter and image leave (R503, R505, R529). -/
def charterOf (c i : Signed) : Charter :=
  { sku := leNat (slice c.body 16 2), clusters := leNat (slice c.body 18 2), version := BitVec.ofNat 32 c.version
    cert := slice c.body 4124 (c.body.length - 4124), digest := sha512 (c.header ++ c.body)
    imageVersion := BitVec.ofNat 32 i.version, imageDigest := sha512 i.body, imageLen := i.body.length }

/-- BOOT_CHECK_DONE: the check refuses with CODE and OBJECT, or copies the image to the Velhinto carve-out, writes the trims
and records the digests (R505, R506). Velhinto then starts, and reports ready by VELHINTO_READY. -/
def bootCheckDone (s : State) (r : BootRead) : State :=
  if s.fw.boot ≠ .checking ∨ s.fw.charter.isSome then s
  else match checkObject s r false s.fw.bootCharter.toNat with
  | .error e => bootRefuse s e false
  | .ok c =>
    match charterBad c.body with
    | some e => bootRefuse s e false
    | none =>
      match checkObject s r true s.fw.bootImage.toNat with
      | .error e => bootRefuse s e true
      | .ok i =>
        { s with
          fab := { s.fab with mem := mwrite s.fab.mem velhintoBase i.body }
          fw := { s.fw with charter := some (charterOf c i), trims := (trimList c.body).foldl (fun t e => tset t e.1 e.2) [] } }

/-- BOOT_READ_TIMEOUT: a read of the check is outstanding 450 ms after GO (R505, R506). -/
def bootReadTimeout (s : State) (image : Bool) : State :=
  if s.fw.boot = .checking ∧ s.fw.charter.isNone ∧ s.fw.goTime + 45000000 ≤ s.hoop.time then bootRefuse s 0x01 image else s

/-- VELHINTO_READY: STATE becomes RUNNING, the charter counts as accepted, and the day book opens (R3, R505, R514, R572). -/
def velhintoReady (s : State) : State :=
  match s.fw.boot, s.fw.charter with
  | .checking, some c =>
    dayBook (setFw s { s.fw with boot := .running, accepted := true, running := true, kicked := false }) 0x0001 0
      c.imageVersion.toNat c.version.toNat
  | _, _ => s

/-! ## Faults of the ratings (R488, R558, R592) -/

/-- SUPPLY_FAULT: a rail leaves its window while POWER_OK is high. -/
def supplyFault (s : State) : State := if s.brd.powerOk ∧ !s.brd.inReset then deviceFault s 7 else s

/-- CLOCK_FAULT of domain `d` + 1: LOCK clears; a PLL outside S3, and REF and what it drives in any state, is a DEVICE fault.
The board's own clocks 17 and 18 are none. -/
def clockFault (s : State) (d : Nat) : State :=
  if s.brd.inReset then s
  else
    let lock := (bitList 18 s.pwr.lock).foldl (fun a i => if i = d then a else a + 2 ^ i) 0
    let t := setPwr s { s.pwr with lock := lock }
    if d < 16 ∧ (!s.pwr.inS3 ∨ 13 ≤ d) then deviceFault t 8 else t

/-- A die temperature in units of 0.125 °C. -/
def setTj (s : State) (t : Int) : State := setBrd s { s.brd with tj := t }

/-- THERMAL_FAULT: a die temperature outside 10 °C to 100 °C (R592). -/
def thermalFault (s : State) (t : Int) : State :=
  if s.brd.inReset ∨ (80 ≤ t ∧ t ≤ 800) then s else deviceFault (setTj s t) 9

/-! ## Sideband (R587, R588) -/

/-- ALERT_N is driven low (R588). -/
def alert (s : State) : Bool := decide (760 ≤ s.brd.tj) || s.pwr.throttling || s.flt.valid

/-- SEC_BOOT_STAT.STATE. -/
def bootCode : BootState → Nat
  | .reset => 0
  | .wait => 1
  | .checking => 2
  | .running => 3
  | .refused => 4

/-- MGT_FAULT[31:0]. -/
def faultWord32 (s : State) : Nat :=
  s.flt.scope * 2 ^ 24 + s.flt.unit * 2 ^ 16 + s.flt.means * 2 ^ 8 + (if s.flt.valid then 1 else 0)

/-- The sideband page; while POWER_OK is low only TJ_MAX and THERMTRIP are shown. -/
def sidePage (s : State) : Nat :=
  let tj := (s.brd.tj % 65536).toNat * 2 ^ 48 + (if s.brd.thermtrip then 1 else 0)
  if !s.brd.powerOk then tj
  else tj + faultWord32 s * 2 ^ 96 + s.pwr.powerMw * 2 ^ 64 + bootCode s.fw.boot * 2 ^ 36 + slvCode s.twin.st * 2 ^ 32 +
    s.hoop.tick % 65536 * 2 ^ 16 + (if s.pwr.inS3 then 8 else 0) + (if s.pwr.throttling then 4 else 0) + (if alert s then 2 else 0)

/-- SIDEBAND_WRITE: the first byte is the offset pointer, modulo 16. -/
def sidebandWrite (s : State) (l : List Byte) : State :=
  match l with
  | [] => s
  | b :: _ => setBrd s { s.brd with sidePtr := b.toNat % 16 }

/-- SIDEBAND_READ: bytes of one snapshot of the page from the pointer upward, wrapping at 16; the pointer stays (log 73). -/
def sidebandRead (s : State) (n : Nat) : State :=
  let page := toLE 16 (sidePage s)
  setBrd s { s.brd with sideData := (List.range n).map fun k => page.getD ((s.brd.sidePtr + k) % 16) 0 }

/-! ## Debug port (R590) -/

/-- An instruction of the debug port: IDCODE reads its number; the boundary-scan ones take effect only while PERST_N is
asserted and act as BYPASS otherwise. -/
def jtag (s : State) (i : JtagInstr) : State :=
  match i with
  | .idcode => setBrd s { s.brd with jtag := .idcode, tdo := some 0x19410E2B }
  | .bypass => setBrd s { s.brd with jtag := .bypass, tdo := none }
  | i => setBrd s { s.brd with jtag := if s.brd.perstN then .bypass else i, tdo := none }

/-! ## Commands -/

def execPowerOkRise (s : State) : Host.Outcome State Fault Refusal := .next (powerOkRise s)

def execPowerOkFall (s : State) : Host.Outcome State Fault Refusal := .next (powerOkFall s)

def execPerstNAssert (s : State) : Host.Outcome State Fault Refusal := .next (perstAssert s)

def execPerstNDeassert (s : State) : Host.Outcome State Fault Refusal := .next (perstDeassert s)

def execHotReset (s : State) : Host.Outcome State Fault Refusal := .next (hotReset s)

def execResetRelease (s : State) : Host.Outcome State Fault Refusal := .next (resetRelease s)

def execThermtrip (s : State) : Host.Outcome State Fault Refusal := .next (thermtrip s)

def execBootRomReady (s : State) : Host.Outcome State Fault Refusal := .next (bootRomReady s)

def execSecBootGo (s : State) : Host.Outcome State Fault Refusal := .next (secBootGo s)

def execBootCheckDone (r : BootRead) (s : State) : Host.Outcome State Fault Refusal := .next (bootCheckDone s r)

def execVelhintoReady (s : State) : Host.Outcome State Fault Refusal := .next (velhintoReady s)

def execSupplyFault (s : State) : Host.Outcome State Fault Refusal := .next (supplyFault s)

def execClockFault (d : Fin 18) (s : State) : Host.Outcome State Fault Refusal := .next (clockFault s d.val)

def execThermalFault (tj : Int) (s : State) : Host.Outcome State Fault Refusal := .next (thermalFault s tj)

def execTjMaxChange (tj : Int) (s : State) : Host.Outcome State Fault Refusal := .next (setTj s tj)

def execSidebandWrite (bytes : List Byte) (s : State) : Host.Outcome State Fault Refusal := .next (sidebandWrite s bytes)

def execSidebandRead (n : Nat) (s : State) : Host.Outcome State Fault Refusal := .next (sidebandRead s n)

def execBypass (s : State) : Host.Outcome State Fault Refusal := .next (jtag s .bypass)

def execIdcode (s : State) : Host.Outcome State Fault Refusal := .next (jtag s .idcode)

def execSamplePreload (s : State) : Host.Outcome State Fault Refusal := .next (jtag s .samplePreload)

def execExtest (s : State) : Host.Outcome State Fault Refusal := .next (jtag s .extest)

def execExtestPulse (s : State) : Host.Outcome State Fault Refusal := .next (jtag s .extestPulse)

def execExtestTrain (s : State) : Host.Outcome State Fault Refusal := .next (jtag s .extestTrain)

end Sys2Proof.Machine
end

