-- ==== Sys2Proof/Machine/Monitors.lean ====
section
/-! DEFINITION. Progress monitors: which units have work, what trips at the end of a window, and retries that have lasted a
whole one (spec/16 R496 to R498). -/

namespace Sys2Proof.Machine

/-! ## Work (R496) -/

/-- A quad has work that it could perform: a subgroup that may issue, an engine whose head instruction waits for no channel, or
a tile that its tile mover loads or stores. -/
def quadWork (s : State) (q : Nat) : Bool :=
  (s.cores.groups.any fun e => decide (e.1 / 64 / 4 = q) && e.2.subs.any mayIssue) ||
  (s.eng.eng.any fun e => decide (e.1 / 16 = q) && !e.2.queue.isEmpty && (wantsNow s (e.1 / 4) (e.1 % 4)).isNone) ||
  (s.ras.passes.any fun e => e.2.tiles.any fun t => decide (t.core / 4 = q) && t.stage != .shading)

/-- A pass gives the binner or the rasterizer of a cluster work. -/
def passWork (s : State) (k id : Nat) (p : Pass) : Bool :=
  ((List.range p.binners.length).any fun b => p.clusters.getD b 16 == k && (binReady s id b).isSome) ||
  (p.tiles.any fun t => decide (t.core / 16 = k) && t.stage == .shading)

/-- A slot's settle work lies in the slice of a cluster. -/
def settlesIn (s : State) (k : Nat) : Bool := s.hoop.settleBusy.any fun n => (cacheClusters s n).contains k

/-- A unit holds an operation that it could perform without waiting. What it waits for outside the model, a command's `stuck`
tells (log 89). -/
def hasWork (s : State) : UnitRef → Bool
  | .quad q => quadWork s q.val
  | .cluster k =>
    !(steppers s k.val 0 []).isEmpty || !(steppers s k.val 1 []).isEmpty ||
    (s.ras.passes.any fun e => passWork s k.val e.1 e.2) || (s.mmu.walks.any fun e => e.2.walker == k.val) || settlesIn s k.val
  | .media n => if n.val < 12 then (encodeOn s n.val).isSome else (bindOn s (n.val - 12)).isSome
  | .port l => (departing s l.val).isSome
  | .device => (chooseCompose s []).isSome || (engineNext s).1.isSome || s.mmu.walks.any fun e => decide (16 ≤ e.2.walker)

/-! ## Retries (R497) -/

/-- A retry of HBM, or of the link for the partner's memory, holds a transaction. -/
def underRetry (s : State) (x : Txn) : Bool := x.tries != 0 || (x.space == .twin && s.twin.retrying)

/-- A unit has waited in the window, or waits now, for a transaction that a retry holds. -/
def retryHolds (s : State) (u : UnitRef) : Bool :=
  s.flt.retried.contains u || s.fab.txns.any fun e => underRetry s e.2 && (waitersOf e.2).contains u

/-- A retry in progress for the whole window is exhausted at its end. -/
def exhaustRetries (s : State) : State :=
  let w := s.flt.windows
  let s := s.fab.txns.foldl (fun s e =>
    if e.2.tries ≠ 0 ∧ e.2.since < w then retryExhausted s (stackOf e.2.addr) e.1 e.2 else s) s
  if s.twin.retrying ∧ s.twin.retryAt < w then linkLost s else s

/-! ## The end of a window (R496, R498) -/

/-- The window counts for a unit. -/
def windowCounts (s : State) (u : UnitRef) : Bool := hasWork s u && !s.flt.progress.contains u && !retryHolds s u

/-- An entry of a request table, other than one for host memory, has been out for the whole window with no retry (R498). -/
def overdue (s : State) (x : Txn) : Bool :=
  x.entry && x.space != .host && decide (x.born < s.flt.windows) && !underRetry s x

/-- The units whose monitors trip at the end of the window, each once: those that the command names and whose window counts, and the
clusters of the entries overdue. -/
def tripped (s : State) (stuck : List UnitRef) : List UnitRef :=
  (stuck.filter (windowCounts s) ++
    (s.fab.txns.filter fun e => overdue s e.2).map fun e => clusterRef (sourceOf e.2.share).1).eraseDups

/-- The next window begins. -/
def nextWindow (s : State) (w : Nat) : State :=
  { s with flt := { s.flt with window := w, windows := s.flt.windows + 1, progress := [], retried := [] } }

end Sys2Proof.Machine
end

