-- ==== Sys2Proof/Machine/Period.lean ====
section
/-! DEFINITION. The Hoop: time that passes, the margin, the cutoff and the edge, and the commands that they time (spec/02 R25 to
R40, and what spec/95 lists inside EDGE and CUTOFF). -/

namespace Sys2Proof.Machine

/-! ## Time that passes -/

/-- The Hoop replaced. -/
def setHoop (s : State) (h : Hoop) : State := { s with hoop := h }

/-- The descriptor for which a block runs. -/
def workOfBlock (s : State) (b : Block) : Option (Nat × W32) :=
  match b.frag with
  | some (p, _, _) => (tget s.ras.passes p).map fun x => (x.q, x.i)
  | none => (tget s.cores.runs b.run).map fun x => (x.q, x.i)

/-- Quads on which a thread group of a descriptor is resident (spec/05 R158). -/
def residentQuads (s : State) (q : Nat) (i : W32) : Nat :=
  ((s.cores.groups.filterMap fun e =>
    match tget s.cores.blocks e.2.block with
    | none => none
    | some b => if workOfBlock s b = some (q, i) then some (b.core / 4) else none).dedup).length

/-- Measured cycles, in tenths, of a started real-time descriptor over `dt` timebase cycles. -/
def measureDesc (s : State) (q : Nat) (x : Queue) (dt : Nat) (d : Desc) : Desc :=
  if d.stage = .started ∧ !d.be then
    let m := if x.cls < 3 then dt * coreFreq s.pwr.levelNow * residentQuads s q d.idx else dt * unitFreq x.cls
    { d with measured := d.measured + m }
  else d

/-- HOOP_TIME moves on to a time; in reset it does not count (R25). -/
def passTo (s : State) (t : Nat) : State :=
  if s.brd.inReset ∨ t ≤ s.hoop.time then s
  else
    let dt := t - s.hoop.time
    let qs := tmap s.obj.queues fun q x => if x.rt then { x with recs := x.recs.map (measureDesc s q x dt) } else x
    setHoop { s with obj := { s.obj with queues := qs } } { s.hoop with time := t }

/-! ## Margin and cutoff (R31 to R35) -/

/-- The margin starts: fetchers stop, and the closing flag reads 1 (R32, R33). -/
def marginNow (s : State) : State := setHoop s { s.hoop with phase := .drain }

/-- A descriptor in flight at the cutoff: one whose unit has finished completes with its status, any other is aborted with
OVERRUN and counted (R34; log 74). -/
def cutDesc (s : State) (q : Nat) (d : Desc) : State :=
  match d.stage with
  | .finished _ => descriptorComplete s q d.idx
  | .cleaning => complete (setWork s q d.idx none cleanedDesc) q d.idx 0
  | .cleaned => descriptorComplete s q d.idx
  | _ =>
    let s := if dOp d = 0x50 then encodeAbort s q d.idx else s
    let s := setHoop s { s.hoop with overrun := satAdd 0xFFFF s.hoop.overrun 1 }
    complete s q d.idx 0x10

/-- Every descriptor in flight of a queue at the cutoff. -/
def cutQueue (s : State) (q : Nat) : State :=
  match getQ s q with
  | none => s
  | some x => (x.recs.filter (inFlight x)).foldl (fun s d => cutDesc s q d) s

/-- Slots with dirty lines: their settle work is done when SETTLE_DONE comes (R35, R36; log 75). -/
def dirtySlots (s : State) : List Nat := ((s.fab.lines.filter fun l => l.dirty.any id).map (·.slot)).dedup

/-- An access that no cutoff aborts: that of a switch image (spec/06 R180). -/
def cutoffSpares (u : Site) : Bool := match u with
  | .image _ => true
  | _ => false

/-- The cutoff: dirty lines are written back, which ends the cleans under way, work in flight is aborted, messages are
discarded, aborted accesses wait for no answer (spec/04 R123), an attached twin's mirror is sent, and what an armed
accession needs is prepared (R34, R35; spec/18 R534, R548). -/
def cutoffNow (s : State) : State :=
  let busy := (dirtySlots s ++ s.fab.cleans).dedup
  let s := busy.foldl cleanSlot (settleWakes s)
  let s := { s with fab := { s.fab with cleans := [] } }
  let s := (queueKeys s).foldl cutQueue s
  let s := { s with cores := { s.cores with inbox := [], outs := [], sent := [], creditsBack := [] },
                    mmu := { s.mmu with faults := s.mmu.faults.map fun r =>
                                { r with joined := r.joined.filter fun e => cutoffSpares e.1 } } }
  let s := setHoop s { s.hoop with phase := .settle, settleBusy := busy }
  let k := s.hoop.tick + 1
  roleWakes (levelCutoff (mirrorSend s) k) k

/-- The Hoop reaches its drain phase. -/
def toDrain (s : State) : State := if s.hoop.phase = .opened then marginNow (passTo s (marginAt s)) else s

/-- The Hoop reaches its settle phase. -/
def toSettle (s : State) : State :=
  let s := toDrain s
  if s.hoop.phase = .drain then cutoffNow (passTo s (cutoffAt s)) else s

/-! ## The end of a period -/

/-- STALL_EDGES of a queue at an edge (spec/05 R161). -/
def stallEdge (x : Queue) : Queue :=
  let works := x.recs.any fun d => d.stage = .suspended || inFlight x d
  { x with stallEdges := if x.workAtEdge && works && !x.progressed then satAdd 0xFFFF x.stallEdges 1 else 0
           workAtEdge := works, progressed := false }

/-- The demoted real-time queues of the ended period, each with its day-book record (spec/05 R158). -/
def demotionBook (s : State) : State :=
  (s.obj.queues.filter fun e => decide (e.1 < winKey) && e.2.rt && e.2.demoted).foldl
    (fun s e => dayBook s 0x0021 (handleOf s.obj 2 e.1) e.2.beTaken (s.hoop.tick % 2 ^ 32)) s

/-- Charges and demotion clear (spec/05 R158). -/
def clearCharges (x : Queue) : Queue := { x with demoted := false, qcUsed := 0, hbUsed := 0, beTaken := 0 }

/-- What the edge closes for the period that it ends. Lines that were written after the cutoff, by a switch image or a late
response, have been written back too by then (R35, R39). -/
def endPeriod (s : State) : State :=
  let s := (dirtySlots s).foldl cleanSlot s
  let s := slowPublish (settleDues s) s.hoop.tick
  let s := demotionBook s
  let s := setObj s { s.obj with queues := tmap s.obj.queues fun _ x => clearCharges (stallEdge x) }
  mirrorEdge (watchEdge (circEdge s)) false

/-! ## The beginning of a period -/

/-- Waiting WAIT_TICK descriptors armed before the edge whose tick has come (spec/05 R149). -/
def tickDue (k : Nat) (d : Desc) : Desc :=
  if d.stage = .armed ∧ dOp d = 3 ∧ k % waitStride d = waitPhase d then { d with due := true } else d

/-- Carve-out mode after an edge: a carrel enters it only while it has no owning context (spec/04 R129). A CARVE bit written
while the slot has an owner stays pending (DESIGN CHOICE, log 120). -/
def carveEdge (s : State) : State :=
  let keep := (bitList 48 s.mmu.carveNext).filter fun n => s.mmu.carve.testBit n || slotOwner s n == 0
  { s with mmu := { s.mmu with carve := keep.foldl (fun a n => a + 2 ^ n) 0 } }

/-- SETTLE_LATE counts the edge once for late settle work or a late voltage (R36; spec/18 R535). -/
def countLate (s : State) : State :=
  if s.hoop.settleBusy.isEmpty ∧ s.pwr.held.isNone then s
  else setHoop s { s.hoop with settleLate := satAdd 0xFFFF s.hoop.settleLate 1 }

/-- Values in force for the period that begins, its phase, the heartbeat output, and the first of its monitor windows (R31;
spec/16 R468, R496). -/
def openPeriod (s : State) : State :=
  let m := active s oMargin
  let s := setHoop s { s.hoop with phase := .opened, perCyc := nbits (active s oPeriod) 23 0, marginUs := nbits m 8 0,
                                   settleUs := nbits m 24 16 }
  { s with twin := { s.twin with hbOut := if s.flt.failed then s.twin.hbOut else !s.twin.hbOut, hbSampled := false }
           flt := { s.flt with window := 0, windows := s.flt.windows + (4 - s.flt.window), progress := [], retried := [] } }

/-- The accessions of the edge, the partner's for the pair among them, and what they change in the carrels (R39, R54; spec/06
R178; spec/05 R169; spec/16 R473, R480, R483, R492). -/
def applyEdge (s : State) (k : Nat) : State :=
  let old := activeView s
  let before := s
  let s := removeOos (applyPartner (applyArmed s k) k)
  let new := activeView s
  let s := clearEdge s old new
  let s := (switched old new).foldl (fun s n => switchStart before s old new n) s
  let s := if vCtx old 0 = vCtx new 0 then s else acvDiscard s
  let s := (roleDoms old new).foldl (fun s d => startWake s d 4) s
  detachAt (takeoverAt s k) k

/-- The edge that begins period `k` at the time that HOOP_TIME shows. -/
def edgeNow (s : State) (k : Nat) : State :=
  let s := setHoop s { s.hoop with running := true, tick := k, edge := s.hoop.time }
  let s := countLate (levelEdge (carveEdge (applyEdge s k)))
  let s := openPeriod (if s.pwr.s3Req then enterS3 s else s)
  let s := setObj s { s.obj with queues := tmap s.obj.queues fun _ x => { x with recs := x.recs.map (tickDue k) } }
  serveReqs (acvEdge s)

/-- The period in progress ends at its edge, through its margin and cutoff. -/
def edge (s : State) : State :=
  if !s.hoop.running ∨ s.brd.inReset then s
  else
    let s := toSettle s
    edgeNow (endPeriod (passTo s (periodEnd s))) (s.hoop.tick + 1)

/-- The next boundary of the period in progress. -/
def boundary (s : State) : Nat :=
  match s.hoop.phase with
  | .opened => marginAt s
  | .drain => cutoffAt s
  | _ => periodEnd s

/-- The boundary that has been reached takes effect. -/
def crossBoundary (s : State) : State :=
  match s.hoop.phase with
  | .opened => toDrain s
  | .drain => toSettle s
  | _ => edge s

/-- Time moves on to `t`, through the boundaries on the way. -/
def advanceLoop : Nat → State → Nat → State
  | 0, s, t => passTo s t
  | n + 1, s, t => if s.hoop.running ∧ boundary s ≤ t then advanceLoop n (crossBoundary s) t else passTo s t

/-- Time moves on to `t`. -/
def advance (s : State) (t : Nat) : State := advanceLoop (3 * ((t - s.hoop.time) / 208334 + 2)) s t

/-- One timebase cycle with no command: 20 NOC cycles of the mesh, what edges have made due, then a boundary that falls in the
cycle (R25, R27; log 1, log 109). -/
def idleCycle (s : State) : State :=
  if s.brd.inReset then s else advance (settleDues (nocRun 20 s)) (s.hoop.time + 1)

/-! ## Commands of the Hoop -/

/-- HOOP_START: tick 0 is raised at the first timebase cycle after the write (R26). -/
def hoopStart (s : State) : State :=
  if s.hoop.running ∨ !bar0Ok s then s
  else
    let s := edgeNow (passTo s (s.hoop.time + 1)) 0
    setFw s { s.fw with kicked := false }

/-- SETTLE_DONE: the settle work of a slot has ended, with every dirty line of it written back (R35, R36). -/
def settleDone (s : State) (n : Nat) : State :=
  let s := if s.hoop.settleBusy.contains n then cleanSlot s n else s
  setHoop s { s.hoop with settleBusy := s.hoop.settleBusy.filter fun k => k ≠ n }

/-- What B's stamps become when it takes A's timebase: intervals in progress keep their length (log 76). -/
def rebase (s : State) (time : Nat) : State :=
  let move (t : Nat) : Nat := time - (s.hoop.time - t)
  let s := setPwr s { s.pwr with
    vcmd := s.pwr.vcmd.map fun c => { c with at' := move c.at' }
    doms := tmap s.pwr.doms fun _ d => { d with wakeAt := move d.wakeAt }
    windowAt := time / 100000 * 100000 }
  setHoop s { s.hoop with time := time }

/-- ATTACH_HANDSHAKE_COMPLETE at an edge of A: B takes A's timebase and raises an edge with it, its ACC_TARGETs become 0,
and both are ATTACHED (spec/16 R471). -/
def attachComplete (s : State) (time tick' : Nat) : State :=
  let ready : Bool := s.twin.st = .handshake && s.twin.idOk == some true && s.twin.shown == some true && s.twin.partner.isSome &&
    s.hoop.running
  if !ready ∨ (!s.twin.role ∧ s.hoop.time ≠ s.hoop.edge) then s
  else
    let s := if s.twin.role then
        let s := edgeNow (rebase (endPeriod s) time) tick'
        { s with acc := { s.acc with targetHost := 0, targetFw := 0 } }
      else s
    let s := { s with twin := { s.twin with mirror := none, mirrorDone := false, lateRun := 0, peer := [], watch := false,
                                            sentMirror := [] } }
    setTwin s .attached s.twin.cause

/-! ## Commands with a time of their own -/

/-- HEARTBEAT_SAMPLE falls 1 µs after the edge (spec/16 R468). -/
def sampleHeartbeat (s : State) (level : Bool) : State :=
  if !s.hoop.running ∨ s.twin.hbSampled then s else heartbeatSample (advance s (s.hoop.edge + 100)) level

/-- End of the monitor window in progress: a quarter point, or the edge (spec/16 R496). -/
def windowEnd (s : State) : Nat := s.hoop.edge + (s.flt.window + 1) * s.hoop.perCyc / 4

/-- MONITOR_WINDOW_END: the window ends: retries that have lasted all of it are exhausted, and then the monitors trip for which it
counts (spec/16 R496 to R498). The last window of a period ends with its edge. -/
def monitorEnd (s : State) (stuck : List UnitRef) : State :=
  if !s.hoop.running ∨ s.brd.inReset then s
  else
    let w := s.flt.window + 1
    let s := nocSettle (if 4 ≤ w then toSettle s else advance s (windowEnd s))
    let trips := tripped s stuck
    let s := exhaustRetries s
    let s := if 4 ≤ w then edge s else nextWindow s w
    trips.foldl (fun s u => unitFault s u 4) s

/-- POWER_WINDOW_END: windows of 1 ms follow one another on HOOP_TIME (spec/18 R537). -/
def powerWindowEnd (s : State) (mw : Nat) : State :=
  if s.brd.inReset then s else powerWindow (advance s (s.pwr.windowAt + 100000)) mw

/-- VOLTAGE_TIMEOUT, 100 µs after the command (spec/18 R535). -/
def voltageTimeoutAt (s : State) : State :=
  match s.pwr.vcmd with
  | none => s
  | some c => voltageTimeout (advance s (c.at' + 10000))

/-- WAKE_TIMEOUT, 100 µs after the wake's start (spec/18 R551). -/
def wakeTimeoutAt (s : State) (d : Nat) : State :=
  if !(domOf s d).waking then s else wakeTimeout (advance s ((domOf s d).wakeAt + 10000)) d

/-- BOOT_READ_TIMEOUT, 450 ms after GO (spec/17 R505). -/
def bootTimeoutAt (s : State) (image : Bool) : State :=
  if s.fw.boot ≠ .checking ∨ s.fw.charter.isSome ∨ s.brd.inReset then s
  else bootReadTimeout (advance s (s.fw.goTime + 45000000)) image

/-! ## Commands -/

def execHoopStart (s : State) : Host.Outcome State Fault Refusal := .next (hoopStart s)

def execEdge (s : State) : Host.Outcome State Fault Refusal := .next (edge s)

def execMarginStart (s : State) : Host.Outcome State Fault Refusal :=
  .next (if s.hoop.running ∧ !s.brd.inReset then toDrain s else s)

def execCutoff (s : State) : Host.Outcome State Fault Refusal :=
  .next (if s.hoop.running ∧ !s.brd.inReset then toSettle s else s)

def execSettleDone (slot : Fin 48) (s : State) : Host.Outcome State Fault Refusal := .next (settleDone s slot.val)

def execAttachHandshakeComplete (time tick' _edge : Nat) (s : State) : Host.Outcome State Fault Refusal :=
  .next (attachComplete s time tick')

def execHeartbeatSample (level : Bool) (s : State) : Host.Outcome State Fault Refusal := .next (sampleHeartbeat s level)

def execMonitorWindowEnd (stuck : List UnitRef) (s : State) : Host.Outcome State Fault Refusal := .next (monitorEnd s stuck)

def execVoltageConfirm (s : State) : Host.Outcome State Fault Refusal := .next (voltageConfirm s)

def execVoltageTimeout (s : State) : Host.Outcome State Fault Refusal := .next (voltageTimeoutAt s)

def execPowerWindowEnd (mw : Nat) (s : State) : Host.Outcome State Fault Refusal := .next (powerWindowEnd s mw)

def execDomainSleepEntry (d : Fin 124) (s : State) : Host.Outcome State Fault Refusal := .next (sleepEntry s d.val)

def execDomainEntryDone (d : Fin 124) (s : State) : Host.Outcome State Fault Refusal := .next (entryDone s d.val)

def execDomainWakeDone (d : Fin 124) (s : State) : Host.Outcome State Fault Refusal := .next (wakeDone s d.val)

def execWakeTimeout (d : Fin 124) (s : State) : Host.Outcome State Fault Refusal := .next (wakeTimeoutAt s d.val)

def execBootReadTimeout (image : Bool) (s : State) : Host.Outcome State Fault Refusal := .next (bootTimeoutAt s image)

def execPwrCtrlS3 (s : State) : Host.Outcome State Fault Refusal := .next (requestS3 s)

def execPwrCtrlWake (s : State) : Host.Outcome State Fault Refusal := .next (startExit s 7)

def execPwrCtrlClamp (v : Bool) (s : State) : Host.Outcome State Fault Refusal := .next (setClamp s v)

def execHostAccessInS3 (bar : Bar) (off _size : Nat) (write : Option W64) (s : State) : Host.Outcome State Fault Refusal :=
  .next (accessInS3 s bar off write.isSome)

end Sys2Proof.Machine
end

