-- ==== Sys2Proof/Machine/SubmitCmds.lean ====
section
/-! DEFINITION. The commands of submission: doorbells, resumes, takes, arming, control opcodes, COPY and FILL, completions,
and the Acvik window (spec/05). -/

namespace Sys2Proof.Machine

def execQDoorbell (f : Fin 64) (q : Fin 8192) (off size : Nat) (v : W64) (s : State) : Host.Outcome State Fault Refusal :=
  .next (qDoorbell s f.val q.val off size v)

def execQResumeRetry (f : Fin 64) (q : Fin 8192) (off size : Nat) (gen : BitVec 16) (s : State) :
    Host.Outcome State Fault Refusal := .next (qResume s f.val q.val off size gen 1)

def execQResumeSkip (f : Fin 64) (q : Fin 8192) (off size : Nat) (gen : BitVec 16) (s : State) :
    Host.Outcome State Fault Refusal := .next (qResume s f.val q.val off size gen 2)

def execQueueResumeEffect (q : Fin 8193) (s : State) : Host.Outcome State Fault Refusal := .next (resumeEffect s q.val)

def execDescriptorTake (f : Fetcher) (s : State) : Host.Outcome State Fault Refusal := .next (descriptorTake s f)

def execDescriptorArm (q : Fin 8193) (i : W32) (s : State) : Host.Outcome State Fault Refusal :=
  .next (descriptorArm s q.val i)

def execNop (w : Work) (s : State) : Host.Outcome State Fault Refusal :=
  .next (startNop s w.q.val w.i (w.node.map (·.val)))

def execWait (w : Work) (s : State) : Host.Outcome State Fault Refusal :=
  .next (startWait s w.q.val w.i (w.node.map (·.val)))

def execSignal (w : Work) (s : State) : Host.Outcome State Fault Refusal :=
  .next (startSignal s w.q.val w.i (w.node.map (·.val)))

def execWaitTick (q : Fin 8193) (i : W32) (s : State) : Host.Outcome State Fault Refusal := .next (startWaitTick s q.val i)

def execBudget (q : Fin 8193) (i : W32) (s : State) : Host.Outcome State Fault Refusal := .next (startBudget s q.val i)

def execGraphLaunch (q : Fin 8193) (i : W32) (s : State) : Host.Outcome State Fault Refusal := .next (startGraph s q.val i)

def execCopy (w : Work) (s : State) : Host.Outcome State Fault Refusal :=
  .next (startCopy s w.q.val w.i (w.node.map (·.val)))

def execFill (w : Work) (s : State) : Host.Outcome State Fault Refusal :=
  .next (startFill s w.q.val w.i (w.node.map (·.val)))

def execDescriptorComplete (q : Fin 8193) (i : W32) (s : State) : Host.Outcome State Fault Refusal :=
  .next (descriptorComplete s q.val i)

def execGraphNodeComplete (q : Fin 8193) (i : W32) (node : Fin 4096) (s : State) : Host.Outcome State Fault Refusal :=
  .next (nodeComplete s q.val i node.val)

/-- A write to FE_ACV_WIN at an offset of the window (R164 to R167). -/
def execFeAcvWinWrite (off size : Nat) (v : W64) (s : State) : Host.Outcome State Fault Refusal :=
  .next (if bar0Ok s then acvWrite s off size v else s)

def execFeAcvEnable (s : State) : Host.Outcome State Fault Refusal := .next (if bar0Ok s then acvEnable s else s)

def execFeAcvResumeRetry (s : State) : Host.Outcome State Fault Refusal := .next (if bar0Ok s then acvResume s 1 else s)

def execFeAcvResumeSkip (s : State) : Host.Outcome State Fault Refusal := .next (if bar0Ok s then acvResume s 2 else s)

end Sys2Proof.Machine
end

