-- ==== Sys2Proof/Machine/Flags.lean ====
section
/-! DEFINITION. What each register of BAR0 and BAR2 reads as: status bits, counters and settings (the field maps of spec/02 to
spec/19). -/

namespace Sys2Proof.Machine

/-- A Boolean at a bit position. -/
def flag (b : Bool) (i : Nat) : Nat := if b then 2 ^ i else 0

/-- An array of registers: the index of an offset among `n` of stride `d` from `base`, and the offset within it. -/
def inArray (off base d n : Nat) : Option (Nat × Nat) :=
  if base ≤ off ∧ off < base + n * d then some ((off - base) / d, (off - base) % d) else none

/-! ## HOOP, ACC, MMU and FE -/

/-- HOOP block (spec/02 R30); the shadowed registers are read as such. -/
def readHoop (s : State) (off : Nat) : Nat :=
  if off = 0x00 then flag s.hoop.running 1
  else if off = 0x18 then s.hoop.time
  else if off = 0x20 then s.hoop.tick
  else if off = 0x28 then s.hoop.edge
  else if off = 0x30 then s.hoop.settleLate * 2 ^ 16 + s.hoop.overrun
  else 0

/-- ACC_SLOTn_STATUS.STATE (spec/02 R61). -/
def accCode : AccState → Nat
  | .free => 0
  | .opened => 1
  | .checking => 2
  | .armed => 3
  | .applied => 4
  | .refused => 5

/-- ACC block, as one requester reads it (spec/02 R61). -/
def readAcc (s : State) (r : Requester) (off : Nat) : Nat :=
  match inArray off 0x100100 0x10 4 with
  | some (n, 0) =>
    let a := accSlot s n
    (if a.st = .refused then a.code * 2 ^ 8 else 0) + flag (a.st ≠ .free ∧ a.owner = .fw) 4 + accCode a.st
  | some (n, 8) => let a := accSlot s n; if a.st = .applied ∨ a.st = .refused then a.detail else 0
  | some _ => 0
  | none =>
    if off = 0x100000 then (match openSlot s r with
      | some n => (n + 1) * 2 ^ 8
      | none => 0)
    else if off = 0x100008 then (targetOfReq s r).toNat
    else if off = 0x100010 then s.acc.stray
    else 0

/-- Carve-out bits of the slots that the part has (spec/04 R129, R131). -/
def carveBits (s : State) : Nat := s.mmu.carveNext % 2 ^ slotCount s

/-- MMU block (spec/04 R131). -/
def readMmu (s : State) (off : Nat) : Nat :=
  if off = 0x200000 then nbits (carveBits s) 31 0
  else if off = 0x200008 then nbits (carveBits s) 47 32
  else if off = 0x200010 then s.mmu.faultsCnt
  else if off = 0x200018 then s.mmu.replyBad * 2 ^ 16 + s.mmu.invalBad
  else 0

/-- FE block (spec/05 R138, R169); FE_ACV_WIN reads zero. -/
def readFe (s : State) (off : Nat) : Nat :=
  let f := s.fe
  let a := f.acv
  let w := tgetD s.obj.queues winKey Queue.window
  if off = 0x300000 then f.tokenLost * 2 ^ 48 + f.dbBad * 2 ^ 36 + f.dbOver * 2 ^ 24 + f.dbBack * 2 ^ 12 + f.dbStale
  else if off = 0x300008 then flag a.enable 0
  else if off = 0x300010 then
    (if w.st = .halted then w.haltStatus * 2 ^ 24 + 2 ^ 23 else 0) + a.words * 2 ^ 10 + a.nextWord
  else if off = 0x300018 then a.unowned * 2 ^ 24 + a.pend * 2 ^ 16 + a.order * 2 ^ 8 + a.limit
  else 0

/-! ## CAR, STK and HBM -/

/-- CAR_STATE_n.PHASE (spec/06 R182). -/
def phaseCode : SwPhase → Nat
  | .idle => 0
  | .saving => 1
  | .loading => 2

/-- CAR block without its shadowed registers (spec/06 R182, R187). -/
def readCar (s : State) (off : Nat) : Nat :=
  match inArray off 0x400000 0x40 48, inArray off 0x402000 0x20 48 with
  | some (n, 0x30), _ => let c := carOf s n; c.lastUs * 2 ^ 32 + c.result * 4 + phaseCode c.phase
  | _, some (n, r) => nbits (slowWord (carOf s n)) (8 * r + 63) (8 * r)
  | _, _ => 0

/-- STK_ECC_kNN (spec/07 R208). -/
def readStk (s : State) (off : Nat) : Nat :=
  match inArray off 0x600000 0x10 16 with
  | some (k, 8) =>
    let e := eccOf s k
    e.lastWay * 2 ^ 56 + e.lastSet * 2 ^ 42 + e.uncorrected * 2 ^ 32 + e.refetched * 2 ^ 16 + e.corrected
  | _ => 0

/-- HBM_ECC_n and HBM_ERR_n (spec/07 R218). -/
def readHbm (s : State) (off : Nat) : Nat :=
  match inArray off 0x700100 0x10 8 with
  | some (n, 0) =>
    let h := hbmOf s n
    h.retryOut * 2 ^ 48 + h.retried * 2 ^ 32 + h.uncorrected * 2 ^ 16 + h.corrected
  | some (n, 8) => let h := hbmOf s n; flag h.errValid 63 + h.errAddr * 2 ^ 6
  | _ => 0

/-! ## Counters of the units (spec/08 R270, spec/09 R300, spec/11 R360, spec/12 R387, spec/14 R408 and R436) -/

/-- CORE_COUNT to BND_COUNT, and CCH_STAT_t (spec/13 R405). -/
def readUnits (s : State) (off : Nat) : Nat :=
  if off = 0x800000 then s.cores.undef
  else if off = 0x900000 then s.eng.discarded * 2 ^ 32 + s.eng.unclaimed * 2 ^ 16 + s.eng.claimBad
  else if off = 0xA00000 then s.bob.bad * 2 ^ 48 + s.bob.unsorted * 2 ^ 32 + s.bob.limit * 2 ^ 16 + s.bob.trunc
  else if off = 0xB00000 then s.ras.overflow * 2 ^ 48 + s.ras.invalid * 2 ^ 32 + s.ras.culled * 2 ^ 16 + s.ras.degenerate
  else if off = 0xD00000 then s.cod.resets * 2 ^ 32 + s.cod.forcedKey * 2 ^ 16 + s.cod.repeats
  else if off = 0xE00000 then s.cod.full * 2 ^ 16 + s.cod.stored
  else match targetOf off with
  | some (t, 0x1F8) => let x := tgetD s.cch.stat t (0, 0); x.1 * 2 ^ 32 + x.2
  | _ => 0

/-! ## CIRC, SLV and MGT -/

/-- The number of a count of CIRC_DROP_l. -/
def dropOf (s : State) (l c : Nat) : Nat := tgetD s.circ.drops (l * 8 + c) 0

/-- The field of CIRC_PORT_CFG of a port in S2 reads 0 with CLAMP = 1 (spec/18 R549). -/
def modeRead (s : State) (p v : Nat) : Nat := if s.pwr.clamp ∧ (domOf s (domCirc p)).st = .s2 then 0 else v

/-- CIRC block (spec/15 R437 to R441, R461). -/
def readCirc (s : State) (off : Nat) : Nat :=
  if off = 0xF00000 then s.circ.link * 2 ^ 8 + modeRead s 1 s.circ.mode1 * 4 + modeRead s 0 s.circ.mode0
  else match inArray off 0xF00100 0x20 8, inArray off 0xF00200 0x20 8, inArray off 0xF01000 8 256 with
  | some (l, r), _, _ => nbits (tgetD s.circ.addr l 0) (8 * r + 63) (8 * r)
  | _, some (l, r), _ => dropOf s l (r / 4 + 1) * 2 ^ 32 + dropOf s l (r / 4)
  | _, _, some (n, _) => flag (tget s.circ.streams n).isSome 6 + tgetD s.circ.grants n 0
  | _, _, _ => 0

/-- SLV block (spec/16 R499). -/
def readSlv (s : State) (off : Nat) : Nat :=
  let t := s.twin
  if off = 0x1000000 then flag t.move 2
  else if off = 0x1000008 then
    t.taken % 65536 * 2 ^ 48 + t.lost % 65536 * 2 ^ 32 + t.cause * 2 ^ 24 + t.lanes * 2 ^ 16 + flag t.role 7 + slvCode t.st
  else if off = 0x1000010 then t.retrains * 2 ^ 48 + t.mirrorLate * 2 ^ 32 + t.replays
  else 0

/-- MGT block (spec/16 R499, spec/17 R519 and R524, spec/19 R572). -/
def readMgt (s : State) (off : Nat) : Nat :=
  if off = 0x1100000 then
    (match s.fw.accepted, s.fw.charter with
    | true, some c => c.sku * 2 ^ 32 + c.clusters * 2 ^ 16
    | _, _ => 0) + 0xB001
  else if off = 0x1100008 then s.flt.tick * 2 ^ 32 + faultWord32 s
  else if off = 0x1100010 then s.flt.oosQuads
  else if off = 0x1100018 then s.flt.oosUnits
  else if off = 0x1100020 then s.fw.restartTick * 2 ^ 32 + s.fw.restartCause * 2 ^ 8 + s.fw.restartCount
  else if off = 0x1100028 then s.fw.graceTicks
  else 0

/-! ## SEC, PWR and CLK -/

/-- SEC block (spec/17 R507, spec/19 R572). -/
def readSec (s : State) (off : Nat) : Nat :=
  let die : List Byte := s.fw.dieId.getD []
  if off = 0x1200000 then s.fw.bootImage.toNat
  else if off = 0x1200008 then s.fw.bootCharter.toNat
  else if off = 0x1200018 then s.fw.object * 2 ^ 16 + s.fw.code * 2 ^ 8 + bootCode s.fw.boot
  else if off = 0x1200020 then leNat (die.take 8)
  else if off = 0x1200028 then leNat (slice die 8 8)
  else 0

/-- PWR_DOM_n.STATE (spec/18 R541, R542). -/
def domCode (s : State) (d : Nat) : Nat :=
  if domAbsent s d then 2
  else match (domOf s d).st with
  | .on => 0
  | .s1 => 1
  | .s2 => 2
  | .changing => 3

/-- PWR block (spec/18 R537 to R558). -/
def readPwr (s : State) (off : Nat) : Nat :=
  let p := s.pwr
  if off = 0x1300008 then flag p.clamp 2
  else if off = 0x1300010 then
    p.throttleMs * 2 ^ 32 + p.vlate * 2 ^ 16 + flag p.throttling 7 + flag p.s3Refused 6 + p.levelNow
  else if off = 0x1300018 then p.limitNext
  else if off = 0x1300020 then p.powerMw
  else if off = 0x1300028 then p.wakeTick * 2 ^ 32 + p.wakeDom * 2 ^ 16 + p.wakeSrc
  else match inArray off 0x1301000 8 124 with
  | some (d, _) => (domOf s d).idleUs * 2 ^ 16 + domCode s d * 2 ^ 4 + (domOf s d).allow
  | none => 0

/-! ## Every BAR0 register -/

/-- Registers of absent units (spec/19 R569): carrel slots, and slices by their ways, STK_MODE and STK_ECC. -/
def regAbsent (s : State) (off : Nat) : Bool :=
  match inArray off 0x400000 0x40 48, inArray off 0x402000 0x20 48, inArray off 0x401000 0x10 16, inArray off 0x600000 0x10 16 with
  | some (n, _), _, _, _ => !hasSlot s n
  | _, some (n, _), _, _ => !hasSlot s n
  | _, _, some (k, _), _ => !hasCluster s k
  | _, _, _, some (k, _) => !hasCluster s k
  | _, _, _, _ => false

/-- The domain in which a register lies, if it is one that can sleep (spec/18 R540, R549, R550). -/
def regDom (off : Nat) : Option Nat :=
  match inArray off 0x600000 0x10 16, inArray off 0x700100 0x10 8, inArray off 0xF00100 0x20 8, inArray off 0xF00200 0x20 8 with
  | some (k, 8), _, _, _ => some (domSlice k)
  | _, some (n, _), _, _ => some (domHbm n)
  | _, _, some (l, _), _ => some (domCirc (l / 4))
  | _, _, _, some (l, _) => some (domCirc (l / 4))
  | _, _, _, _ => if 0x1000000 ≤ off ∧ off ≤ 0x1000010 then some domSlv else none

/-- A read of the register is clamped to 0: its domain is in S2 and CLAMP is 1 (spec/18 R549, R557). -/
def regClamped (s : State) (off : Nat) : Bool :=
  s.pwr.clamp && match regDom off with
  | some d => (domOf s d).st = .s2
  | none => false

/-- The value of the 8 B of BAR0 at an aligned offset (spec/19 R565), to one requester. -/
def regValue (s : State) (r : Requester) (off : Nat) : Nat :=
  if regAbsent s off ∨ regClamped s off then 0
  else if isShadowed off then active s off
  else if isShadowed (normOff off) then shadowOf s (normOff off)
  else match off / 0x100000 with
  | 0x00 => readHoop s off
  | 0x01 => readAcc s r off
  | 0x02 => readMmu s off
  | 0x03 => readFe s off
  | 0x04 => readCar s off
  | 0x06 => readStk s off
  | 0x07 => readHbm s off
  | 0x08 | 0x09 | 0x0A | 0x0B | 0x0C | 0x0D | 0x0E => readUnits s off
  | 0x0F => readCirc s off
  | 0x10 => readSlv s off
  | 0x11 => readMgt s off
  | 0x12 => readSec s off
  | 0x13 => readPwr s off
  | 0x14 => if off = 0x1400000 then s.pwr.lock else 0
  | _ => 0

/-! ## What a read clears (spec/00 R14) -/

/-- RC fields in the low half of a register cleared. -/
def clearLow (s : State) (off : Nat) : State :=
  if off = 0x30 then setHoop s { s.hoop with settleLate := 0, overrun := 0 }
  else if off = 0x100010 then { s with acc := { s.acc with stray := 0 } }
  else if off = 0x200010 then { s with mmu := { s.mmu with faultsCnt := 0 } }
  else if off = 0x200018 then { s with mmu := { s.mmu with replyBad := 0, invalBad := 0 } }
  else if off = 0x300000 then { s with fe := { s.fe with dbStale := 0, dbBack := 0, dbOver := 0 } }
  else if off = 0x300018 then setAcv s { s.fe.acv with unowned := 0, pend := 0, order := 0, limit := 0 }
  else if off = 0x800000 then { s with cores := { s.cores with undef := 0 } }
  else if off = 0x900000 then { s with eng := { s.eng with unclaimed := 0, claimBad := 0 } }
  else if off = 0xA00000 then { s with bob := { s.bob with limit := 0, trunc := 0 } }
  else if off = 0xB00000 then { s with ras := { s.ras with culled := 0, degenerate := 0 } }
  else if off = 0xD00000 then { s with cod := { s.cod with forcedKey := 0, repeats := 0 } }
  else if off = 0xE00000 then { s with cod := { s.cod with full := 0, stored := 0 } }
  else if off = 0x1000010 then { s with twin := { s.twin with replays := 0 } }
  else if off = 0x1300010 then setPwr s { s.pwr with vlate := 0 }
  else match inArray off 0x600000 0x10 16, inArray off 0x700100 0x10 8, inArray off 0xF00200 0x20 8 with
  | some (k, 8), _, _ => setEcc s k { eccOf s k with refetched := 0, corrected := 0 }
  | _, some (n, 0), _ => setHbm s n { hbmOf s n with uncorrected := 0, corrected := 0 }
  | _, _, some (l, r) => { s with circ := { s.circ with drops := tdel s.circ.drops (l * 8 + r / 4) } }
  | _, _, _ => s

/-- RC fields in the high half of a register cleared. -/
def clearHigh (s : State) (off : Nat) : State :=
  if off = 0x300000 then { s with fe := { s.fe with dbOver := 0, dbBad := 0, tokenLost := 0 } }
  else if off = 0x900000 then { s with eng := { s.eng with discarded := 0 } }
  else if off = 0xA00000 then { s with bob := { s.bob with unsorted := 0, bad := 0 } }
  else if off = 0xB00000 then { s with ras := { s.ras with overflow := 0, invalid := 0 } }
  else if off = 0xD00000 then { s with cod := { s.cod with resets := 0 } }
  else if off = 0x1000010 then { s with twin := { s.twin with retrains := 0, mirrorLate := 0 } }
  else if off = 0x1300010 then setPwr s { s.pwr with throttleMs := 0 }
  else match inArray off 0x600000 0x10 16, inArray off 0x700100 0x10 8, inArray off 0xF00200 0x20 8 with
  | some (k, 8), _, _ => setEcc s k { eccOf s k with uncorrected := 0 }
  | _, some (n, 0), _ => setHbm s n { hbmOf s n with retried := 0, retryOut := 0 }
  | _, _, some (l, r) => { s with circ := { s.circ with drops := tdel s.circ.drops (l * 8 + r / 4 + 1) } }
  | _, _, _ => s

/-! ## BAR2 (spec/05 R135, spec/17 R508, spec/19 R573) -/

/-- Q_STATUS.STATE. -/
def qCode : QState → Nat
  | .active => 0
  | .halted => 1
  | .draining => 2

/-- The 8 B of a doorbell page at an aligned offset (spec/05 R135). -/
def pageValue (x : Queue) (off : Nat) : Nat :=
  let bound : Bool := x.cls == 3 || x.cls == 4 || x.cls == 5
  let halt : Nat := if x.st = .halted then x.haltIdx.toNat * 2 ^ 32 + x.haltStatus * 2 ^ 24 else 0
  if off = 0x10 then x.tail.toNat * 2 ^ 32 + x.retired.toNat
  else if off = 0x18 then
    halt + (if bound then x.unit * 2 ^ 16 + 2 ^ 15 else 0) + qCode x.st * 2 ^ 4 +
      flag (x.recs.any fun d => d.stage = .suspended) 3 + flag x.demoted 2 + flag x.rt 1
  else if off = 0x20 then x.stallEdges * 2 ^ 48 + x.completed
  else if off = 0x28 then x.hbUsed % 2 ^ 32 * 2 ^ 32 + x.qcUsed % 2 ^ 32
  else 0

/-- FW_STAT (spec/17 R508). -/
def fwStat (s : State) (x : Fn) : Nat :=
  x.lastHb.toNat * 2 ^ 32 + flag s.fw.running 8 + flag x.grace.isSome 7 + x.miss

/-- The 8 B of BAR2 of a function at an aligned offset outside the doorbell pages. -/
def bar2Value (s : State) (f off : Nat) : Nat :=
  let x := fnOf s f
  if off = 0x2000100 then x.cmdBase.toNat
  else if off = 0x2000108 then x.cplBase.toNat
  else if off = 0x2000118 then x.cplHead.toNat
  else if off = 0x2000128 then fwStat s x
  else 0

/-- MSI-X words: a table entry's, or the pending bits (spec/19 R573, R574). -/
def msixValue (x : Fn) (f off : Nat) : Option Nat :=
  match inArray off 0x2001000 8 128 with
  | some (i, _) => some (if i < 2 * vectorsOf f then (msixWord x i).toNat else 0)
  | none => if off = 0x2002000 then some (x.msixPend.foldl (fun a v => a ||| 2 ^ v) 0) else none

end Sys2Proof.Machine
end

