-- ==== Sys2Proof/Machine/Operands.lean ====
section
/-! DEFINITION. The forms of a register access: which accesses respond, the halves of a register, and what a write of one half
makes of it (spec/02 R30, spec/19 R567, R571). -/

namespace Sys2Proof.Machine

/-- The part of an 8 B register that an access covers. -/
inductive Half where
  | low | high | whole
  deriving DecidableEq, Repr

/-- The part that an access covers; none for a size or alignment that R567 does not serve. -/
def halfOf (off size : Nat) : Option Half :=
  if size = 8 ∧ off % 8 = 0 then some .whole
  else if size = 4 ∧ off % 8 = 0 then some .low
  else if size = 4 ∧ off % 8 = 4 then some .high
  else none

/-- The aligned offset of the 8 B that an access lies in. -/
def base8 (off : Nat) : Nat := off / 8 * 8

/-- The bits that a write gives, at their places; the rest 0, as W1C and WO fields take them. -/
def given (h : Half) (v : Nat) : Nat :=
  match h with
  | .low => v % 2 ^ 32
  | .high => v % 2 ^ 32 * 2 ^ 32
  | .whole => v % 2 ^ 64

/-- A register after a write of its part (R567). -/
def merged (cur : Nat) (h : Half) (v : Nat) : Nat :=
  match h with
  | .low => nput cur 31 0 v
  | .high => nput cur 63 32 v
  | .whole => v % 2 ^ 64

/-- A 32-bit register: the value that a write gives it, or none for a write of the half above it (R567). -/
def given32 (h : Half) (v : Nat) : Option Nat :=
  match h with
  | .high => none
  | _ => some (v % 2 ^ 32)

/-- BAR0 offsets that respond before a charter is accepted (R571). -/
def earlyReg (off : Nat) : Bool :=
  decide (off < 0x100000) || base8 off == 0x1100000 || (decide (0x1200000 ≤ off) && decide (off < 0x1300000)) ||
  base8 off == 0x1300010 || base8 off == 0x1400000

/-- A BAR0 access of the host responds: out of reset, and after a charter is accepted or at one of the early registers; in S3
only reads of the ranges it serves do (R554, R571). -/
def bar0Responds (s : State) (off : Nat) (isWrite : Bool) : Bool :=
  !s.brd.inReset && (s.fw.accepted || earlyReg off) && (!s.pwr.inS3 || (!isWrite && s3Range off))

/-- Key of a register in the latch: its aligned offset, those of a function's BAR2 apart from BAR0's. -/
def latchKey : Bar → Nat → Nat
  | .bar2 f, off => (f.val + 1) * 2 ^ 26 + base8 off
  | _, off => base8 off

/-- The high half latched for a register (R30). -/
def latched (s : State) (key : Nat) : Option W32 := tget s.bus.latch key

/-- The latch of one register set or emptied; those of the others stay (R30). -/
def setLatch (s : State) (key : Nat) (v : Option W32) : State :=
  { s with bus := { s.bus with latch := match v with
    | some w => tset s.bus.latch key w
    | none => tdel s.bus.latch key } }

/-- A read returns data. -/
def setData (s : State) (v : Nat) : State := { s with bus := { s.bus with hostData := BitVec.ofNat 64 v } }

/-- A read of a part of an 8 B register of value `v`: the low half latches the high one, and the next read of the high half
returns what was latched (R30). The Bool says whether the register's own bits were returned. -/
def readHalf (s : State) (key : Nat) (h : Half) (v : Nat) : State × Bool :=
  match h with
  | .whole => (setData s v, true)
  | .low => (setData (setLatch s key (some (BitVec.ofNat 32 (v / 2 ^ 32)))) (v % 2 ^ 32), true)
  | .high =>
    match latched s key with
    | some w => (setData (setLatch s key none) w.toNat, false)
    | none => (setData s (v / 2 ^ 32), true)

end Sys2Proof.Machine
end

