-- ==== Sys2Proof/Machine/Registers.lean ====
section
/-! DEFINITION. Register accesses as commands: reads of BAR0 and BAR2 with what they clear, writes, accesses through BAR4, and
the completion timeout of a host read (spec/00 R13 to R15, spec/16 R498, spec/19 R564 to R575). -/

namespace Sys2Proof.Machine

/-! ## Reads -/

/-- The RC fields that a read of a part clears: a low half clears the whole register, whose high half it latches (log 77).
A field that a hardware event raises in the cycle of the read keeps the event, whose command is then given after the read's (spec/00
R15; log 111). -/
def clearRead (s : State) (off : Nat) : Half → State
  | .high => clearHigh s off
  | _ => clearHigh (clearLow s off) off

/-- A read of BAR0, by the host or by the management core. -/
def readBar0 (s : State) (bar : Bar) (r : Requester) (off size : Nat) : State :=
  match halfOf off size with
  | none => setData s 0
  | some h =>
    let o := base8 off
    let (t, own) := readHalf s (latchKey bar off) h (regValue s r o)
    if own && !regAbsent s o && !regClamped s o then clearRead t o h else t

/-- A read of a doorbell page of a function: zero unless the queue is its own (spec/03 R78). -/
def readPage (s : State) (f : Fin 64) (off size : Nat) : State :=
  match halfOf off size, tget s.obj.queues (off / 0x1000) with
  | some h, some x =>
    if x.func = f.val then (readHalf s (latchKey (.bar2 f) off) h (pageValue x (base8 (off % 0x1000)))).1 else setData s 0
  | _, _ => setData s 0

/-- A read of BAR2 of a function (R571, R573). -/
def readBar2 (s : State) (f : Fin 64) (off size : Nat) : State :=
  if s.brd.inReset then s
  else if off < 0x2000000 then if bar2Ok s then readPage s f off size else setData s 0
  else if size ≠ 8 ∨ off % 8 ≠ 0 then setData s 0
  else match msixValue (fnOf s f.val) f.val off with
  | some v => setData s v
  | none => setData s (if bar2Ok s then bar2Value s f.val off else 0)

/-- RC_READ: a read of a register. A read that S3 does not serve starts the exit (spec/18 R554). -/
def regRead (s : State) (bar : Bar) (off size : Nat) : State :=
  match bar with
  | .mgmt => if s.fw.running then readBar0 s bar .fw off size else s
  | .bar0 =>
    if s.pwr.inS3 ∧ !s3Range off then accessInS3 s bar off false
    else if bar0Responds s off false then readBar0 s bar .host off size
    else if s.brd.inReset then s else setData s 0
  | .bar2 f => if s.pwr.inS3 then accessInS3 s bar off false else readBar2 s f off size

/-! ## Writes of BAR0 -/

/-- ACC_CTRL.OP with its ARG (spec/02 R47 to R57). -/
def accOp (s : State) (r : Requester) (v : Nat) : State :=
  match nbits v 2 0 with
  | 1 => accOpen s r
  | 2 => accCommit s r
  | 3 => accAbort s r
  | 4 => accRelease s r (nbits v 6 4)
  | _ => s

/-- ACC_TARGET of a requester. -/
def setTarget (s : State) (r : Requester) (v : Nat) : State :=
  match r with
  | .host => { s with acc := { s.acc with targetHost := BitVec.ofNat 32 v } }
  | .fw => { s with acc := { s.acc with targetFw := BitVec.ofNat 32 v } }

/-- MMU_CARVE_LO or HI, by the management core only (spec/04 R129, R131). -/
def setCarve (s : State) (r : Requester) (hi : Bool) (v : Nat) : State :=
  match r with
  | .host => s
  | .fw =>
    let c := if hi then nput s.mmu.carveNext 47 32 v else nput s.mmu.carveNext 31 0 v
    { s with mmu := { s.mmu with carveNext := c % 2 ^ slotCount s } }

/-- FE_ACV_CTRL: ENABLE, then RESUME (spec/05 R166, R168). -/
def acvCtrl (s : State) (v : Nat) : State :=
  let s := if v.testBit 0 then acvEnable s else setAcv s { s.fe.acv with enable := false }
  if nbits v 2 1 = 1 then acvResume s 1 else if nbits v 2 1 = 2 then acvResume s 2 else s

/-- PWR_CTRL: CLAMP, WAKE and S3 (spec/18 R553 to R558). -/
def pwrCtrl (s : State) (v : Nat) : State :=
  let s := setClamp s (v.testBit 2)
  let s := if v.testBit 1 then startExit s 7 else s
  if v.testBit 0 then requestS3 s else s

/-- PWR_DOM_n: the registers of an absent domain ignore writes (spec/18 R541, R542). -/
def writeDom (s : State) (d v : Nat) : State :=
  if domAbsent s d then s
  else setDom s d { domOf s d with idleUs := max 1 (nbits v 31 16), allow := min 2 (nbits v 1 0) }

/-- One 8 B of CIRC_ADDR_l (spec/15 R439). -/
def writeAddr (s : State) (l r : Nat) (h : Half) (v : Nat) : State :=
  let cur := tgetD s.circ.addr l 0
  let w := merged (nbits cur (8 * r + 63) (8 * r)) h v
  let w := if r = 0 then nbits w 47 0 else if r = 8 then nbits w 63 32 * 2 ^ 32 else w
  { s with circ := { s.circ with addr := tset s.circ.addr l (nput cur (8 * r + 63) (8 * r) w) } }

/-- HBM_ERR_n.VALID, W1C (spec/07 R218). -/
def clearErr (s : State) (n w : Nat) : State :=
  if w.testBit 63 then setHbm s n { hbmOf s n with errValid := false } else s

/-- SLV_CTRL: MOVE, then DETACH; ATTACH is a command of its own (log 78). -/
def slvCtrl (s : State) (v : Nat) : State :=
  let s := { s with twin := { s.twin with move := v.testBit 2 } }
  if v.testBit 1 then slvDetach s (v.testBit 2) false else s

/-- A write of one of the 32-bit registers. -/
def write32 (s : State) (r : Requester) (off v : Nat) : State :=
  if off = 0x0 then if v.testBit 0 then hoopStart s else s
  else if off = 0x100000 then accOp s r v
  else if off = 0x100008 then setTarget s r v
  else if off = 0x200000 then setCarve s r false v
  else if off = 0x200008 then setCarve s r true v
  else if off = 0x300008 then acvCtrl s v
  else if off = 0xF00000 then circPortCfgWrite s (BitVec.ofNat 32 v)
  else if off = 0x1000000 then slvCtrl s v
  else if off = 0x1100028 then setFw s { s.fw with graceTicks := clamp 16 4096 (nbits v 15 0) }
  else if off = 0x1200010 then if v.testBit 0 then secBootGo s else s
  else if off = 0x1300008 then pwrCtrl s v
  else if off = 0x1300018 then setPwr s { s.pwr with limitNext := clamp 600 1400 (nbits v 10 0) }
  else match inArray off 0x1301000 8 124, inArray off 0xF01000 8 256 with
  | some (d, _), _ => writeDom s d v
  | _, some (n, _) => circGrantWrite s n (BitVec.ofNat 32 v)
  | _, _ => s

/-- A register of 64 bits, or a part of one of 256. -/
def wideReg (off : Nat) : Bool :=
  off == 0x1200000 || off == 0x1200008 || off == 0x1100008 || (inArray off 0x700100 0x10 8).isSome ||
  (inArray off 0xF00100 0x20 8).isSome

/-- A write of a part of a wide register. A bit that a hardware event sets in the cycle of the write stays set: the event's
command is then given after the write's (spec/00 R15; log 111). -/
def write64 (s : State) (off : Nat) (h : Half) (v : Nat) : State :=
  if off = 0x1200000 then
    setFw s { s.fw with bootImage := BitVec.ofNat 64 (merged s.fw.bootImage.toNat h v / 4096 * 4096) }
  else if off = 0x1200008 then
    setFw s { s.fw with bootCharter := BitVec.ofNat 64 (merged s.fw.bootCharter.toNat h v / 4096 * 4096) }
  else if off = 0x1100008 then
    if (given h v).testBit 0 then { s with flt := { s.flt with valid := false } } else s
  else match inArray off 0x700100 0x10 8, inArray off 0xF00100 0x20 8 with
  | some (n, 8), _ => clearErr s n (given h v)
  | _, some (l, r) => writeAddr s l r h v
  | _, _ => s

/-- A write to a register wakes the domain in which it lies, and stalls until that is ON (spec/18 R545; log 24). -/
def reachReg (s : State) (off : Nat) : State × Bool :=
  match regDom off with
  | some d => reachDom s d 3
  | none => (s, true)

/-- A write of BAR0 (R565 to R569). -/
def writeBar0 (s : State) (r : Requester) (off size v : Nat) : State :=
  if 0x301000 ≤ off ∧ off < 0x301800 then acvWrite s (off - 0x301000) size (BitVec.ofNat 64 v)
  else match halfOf off size with
  | none => s
  | some h =>
    let o := base8 off
    if isShadowed (normOff o) then shadowWrite s r off size (BitVec.ofNat 64 v)
    else match reachReg s o with
    | (s, false) => s
    | (s, true) =>
      if wideReg o then write64 s o h v
      else match given32 h v with
      | none => s
      | some w => write32 s r o w

/-! ## Writes of BAR2 (R508, R573, R574) -/

/-- A write to a doorbell page: Q_DOORBELL, Q_RESUME, or nothing (spec/05 R135 to R137). -/
def writePage (s : State) (f q off size v : Nat) : State :=
  if off < 8 then qDoorbell s f q off size (BitVec.ofNat 64 v)
  else
    let a := nbits v 1 0
    if off = 8 ∧ size = 8 ∧ (a = 0 ∨ a = 3) then s else qResume s f q off size (BitVec.ofNat 16 (nbits v 47 32)) a

/-- A write to the MSI-X table: an entry that is no longer masked sends its pending message (log 12). -/
def writeMsix (s : State) (f i v : Nat) : State :=
  if 2 * vectorsOf f ≤ i then s
  else
    let w := if i % 2 = 0 then v / 4 * 4 else nbits v 32 0
    let x := fnOf s f
    let s := setFn s f { x with msixTable := tset x.msixTable i (BitVec.ofNat 64 w) }
    let n := i / 2
    if i % 2 = 1 ∧ !w.testBit 32 ∧ x.msixPend.contains n then
      raiseMsix (setFn s f { fnOf s f with msixPend := x.msixPend.filter fun k => k ≠ n }) f n
    else s

/-- A write of a register of a function's firmware rings. -/
def writeRing (s : State) (f off v : Nat) : State :=
  let x := fnOf s f
  if off = 0x2000000 then faultAnswer s f (nbits v 17 16) (nbits v 15 0)
  else if off = 0x2000008 then mmuInval s f (nbits v 31 0) (BitVec.ofNat 32 (nbits v 63 32))
  else if off = 0x2000100 then fwRingBase s f false (BitVec.ofNat 64 v)
  else if off = 0x2000108 then fwRingBase s f true (BitVec.ofNat 64 v)
  else if off = 0x2000110 then setFn s f { x with cmdTail := BitVec.ofNat 32 v }
  else if off = 0x2000118 then setFn s f { x with cplHead := BitVec.ofNat 32 v }
  else if off = 0x2000120 then heartbeat s f
  else s

/-- A write of BAR2 of a function. -/
def writeBar2 (s : State) (f off size v : Nat) : State :=
  if s.brd.inReset then s
  else if off < 0x2000000 then
    if bar2Ok s then writePage s f (off / 0x1000) (off % 0x1000) size v else s
  else if size ≠ 8 ∨ off % 8 ≠ 0 then s
  else match inArray off 0x2001000 8 128 with
  | some (i, _) => writeMsix s f i v
  | none => if bar2Ok s then writeRing s f off v else s

/-- REGISTER_WRITE: a write that the device does not serve in S3 starts the exit, but for PWR_CTRL (spec/18 R554). -/
def regWrite (s : State) (bar : Bar) (off size : Nat) (v : W64) : State :=
  match bar with
  | .mgmt => if s.fw.running then writeBar0 s .fw off size v.toNat else s
  | .bar0 =>
    if s.pwr.inS3 then
      if base8 off = 0x1300008 ∧ halfOf off size ≠ none ∧ v.toNat.testBit 1 then startExit s 7 else accessInS3 s bar off true
    else if bar0Responds s off true then writeBar0 s .host off size v.toNat else s
  | .bar2 f => if s.pwr.inS3 then accessInS3 s bar off true else writeBar2 s f.val off size v.toNat

/-! ## BAR4 (R575) -/

/-- HBM domains of an access. -/
def bar4Doms (off len : Nat) : List Nat :=
  ([off, off + len - 1].filter fun a => decide (a < hbmEnd)).map fun a => domHbm (stackOf a)

/-- Bytes of an access that lie in allocatable HBM. -/
def bar4In (off len : Nat) : Nat := min len (hbmEnd - off)

/-- A corrected error of a stack is counted. -/
def hbmCorrected (s : State) (pa : Nat) : State :=
  let h := hbmOf s (stackOf pa)
  setHbm s (stackOf pa) { h with corrected := satAdd 0xFFFF h.corrected 1 }

/-- The access once its stacks are ON: an uncorrectable error on a read is a Completer Abort, which returns no data, and on a
write that covers part of a 64 B access moves nothing (spec/07 R216). -/
def bar4Now (s : State) (off len : Nat) (write : Option (List Byte)) (found : Ecc) : State :=
  let n := bar4In off len
  let s := { s with bus := { s.bus with abort := false } }
  let s := if found = .single ∧ 0 < n then hbmCorrected s off else s
  let whole : Bool := write.isSome && off % 64 == 0 && len % 64 == 0
  if found = .double ∧ 0 < n ∧ !whole then
    let s := hbmLog s off true
    { s with bus := { s.bus with abort := write.isNone } }
  else match write with
  | some l => { s with fab := { s.fab with mem := mwrite s.fab.mem off ((l.take len).take n) } }
  | none => { s with fab := { s.fab with lastRead := mread s.fab.mem off n ++ List.replicate (len - n) 0 } }

/-- BAR4_ACCESS: past the stack tier and untranslated (spec/07 R203, R214). -/
def bar4Access (s : State) (off len : Nat) (write : Option (List Byte)) (found : Ecc) : State :=
  if s.brd.inReset ∨ s.pwr.inS3 ∨ len = 0 then s
  else match reachDoms s (bar4Doms off len) 1 with
  | (s, false) => s
  | (s, true) => bar4Now s off len write found

/-! ## The completion timeout of a host read (spec/16 R498; log 79) -/

/-- A device read of host memory that gets no completion ends as one that is completed with an error (spec/04 R107). -/
def completionTimeout (s : State) (id : Nat) : State :=
  match tget s.fab.txns id with
  | some x => if x.space = .host ∧ x.kind ≠ .write then transactionResponse s id .hostError else s
  | none => s

/-! ## Commands -/

def execRcRead (bar : Bar) (off size : Nat) (s : State) : Host.Outcome State Fault Refusal := .next (regRead s bar off size)

def execRegisterWrite (bar : Bar) (off size : Nat) (v : W64) (s : State) : Host.Outcome State Fault Refusal :=
  .next (regWrite s bar off size v)

def execBar4Access (off len : Nat) (write : Option (List Byte)) (found : Ecc) (s : State) :
    Host.Outcome State Fault Refusal := .next (bar4Access s off len write found)

def execPcieCompletionTimeout (id : Nat) (s : State) : Host.Outcome State Fault Refusal := .next (completionTimeout s id)

end Sys2Proof.Machine
end

