-- ==== Sys2Proof/Machine/Dispatch.lean ====
section
/-! DEFINITION. The meaning of each command: one arm per constructor of Instr. -/

namespace Sys2Proof.Machine

/-- The effect of a command on everything but the queue. -/
def exec (i : Instr) (s : State) : Host.Outcome State Fault Refusal :=
  match i with
  | .hoopStart => Sys2Proof.Machine.execHoopStart s
  | .edge => Sys2Proof.Machine.execEdge s
  | .marginStart => Sys2Proof.Machine.execMarginStart s
  | .cutoff => Sys2Proof.Machine.execCutoff s
  | .settleDone slot => Sys2Proof.Machine.execSettleDone slot s
  | .shadowWrite r off size v => Sys2Proof.Machine.execShadowWrite r off size v s
  | .accOpen r => Sys2Proof.Machine.execAccOpen r s
  | .accCommit r => Sys2Proof.Machine.execAccCommit r s
  | .accAbort r => Sys2Proof.Machine.execAccAbort r s
  | .accRelease r arg => Sys2Proof.Machine.execAccRelease r arg s
  | .accCheckEnd slot => Sys2Proof.Machine.execAccCheckEnd slot s
  | .quotaSet c func type quota => Sys2Proof.Machine.execQuotaSet c func type quota s
  | .ctxCreate c root => Sys2Proof.Machine.execCtxCreate c root s
  | .ctxDestroy c h => Sys2Proof.Machine.execCtxDestroy c h s
  | .ctxMarkLost c h => Sys2Proof.Machine.execCtxMarkLost c h s
  | .ctxQuery c h => Sys2Proof.Machine.execCtxQuery c h s
  | .ctxStandby c h root slot => Sys2Proof.Machine.execCtxStandby c h root slot s
  | .qCreate c ctx cls ring entries rt fence => Sys2Proof.Machine.execQCreate c ctx cls ring entries rt fence s
  | .qDestroy c h => Sys2Proof.Machine.execQDestroy c h s
  | .fenceCreate c ctx init shared mirror => Sys2Proof.Machine.execFenceCreate c ctx init shared mirror s
  | .fenceSignal c h v others => Sys2Proof.Machine.execFenceSignal c h v others s
  | .fenceQuery c h => Sys2Proof.Machine.execFenceQuery c h s
  | .fenceDestroy c h => Sys2Proof.Machine.execFenceDestroy c h s
  | .eventRingSet c addr entries vector => Sys2Proof.Machine.execEventRingSet c addr entries vector s
  | .eventCreate c fence v step => Sys2Proof.Machine.execEventCreate c fence v step s
  | .eventDestroy c h => Sys2Proof.Machine.execEventDestroy c h s
  | .graphCreate c ctx => Sys2Proof.Machine.execGraphCreate c ctx s
  | .graphPublish c h table count => Sys2Proof.Machine.execGraphPublish c h table count s
  | .graphDestroy c h => Sys2Proof.Machine.execGraphDestroy c h s
  | .faultRingSet c addr entries => Sys2Proof.Machine.execFaultRingSet c addr entries s
  | .slowTableSet c addr => Sys2Proof.Machine.execSlowTableSet c addr s
  | .streamOpen c stream ctx srec status => Sys2Proof.Machine.execStreamOpen c stream ctx srec status s
  | .streamRing c stream kind base entries head fence => Sys2Proof.Machine.execStreamRing c stream kind base entries head fence s
  | .streamKey c stream dir keyId addr => Sys2Proof.Machine.execStreamKey c stream dir keyId addr s
  | .streamClose c stream => Sys2Proof.Machine.execStreamClose c stream s
  | .accRequest c list count target => Sys2Proof.Machine.execAccRequest c list count target s
  | .daybookSet c addr entries => Sys2Proof.Machine.execDaybookSet c addr entries s
  | .marginSet c mask => Sys2Proof.Machine.execMarginSet c mask s
  | .fwRingBase f cpl v => Sys2Proof.Machine.execFwRingBase f cpl v s
  | .heartbeat f v => Sys2Proof.Machine.execHeartbeat f v s
  | .pageWalkComplete walk stall => Sys2Proof.Machine.execPageWalkComplete walk stall s
  | .faultRecordWrite f => Sys2Proof.Machine.execFaultRecordWrite f s
  | .faultHeadPoll f => Sys2Proof.Machine.execFaultHeadPoll f s
  | .faultRetry f fid => Sys2Proof.Machine.execFaultRetry f fid s
  | .faultNotMapped f fid => Sys2Proof.Machine.execFaultNotMapped f fid s
  | .mmuInval f ctx token => Sys2Proof.Machine.execMmuInval f ctx token s
  | .invalDone f => Sys2Proof.Machine.execInvalDone f s
  | .qDoorbell f q off size v => Sys2Proof.Machine.execQDoorbell f q off size v s
  | .qResumeRetry f q off size gen => Sys2Proof.Machine.execQResumeRetry f q off size gen s
  | .qResumeSkip f q off size gen => Sys2Proof.Machine.execQResumeSkip f q off size gen s
  | .queueResumeEffect q => Sys2Proof.Machine.execQueueResumeEffect q s
  | .descriptorTake f => Sys2Proof.Machine.execDescriptorTake f s
  | .descriptorArm q n => Sys2Proof.Machine.execDescriptorArm q n s
  | .nop w => Sys2Proof.Machine.execNop w s
  | .wait w => Sys2Proof.Machine.execWait w s
  | .signal w => Sys2Proof.Machine.execSignal w s
  | .waitTick q n => Sys2Proof.Machine.execWaitTick q n s
  | .budget q n => Sys2Proof.Machine.execBudget q n s
  | .kernel w => Sys2Proof.Machine.execKernel w s
  | .graphLaunch q n => Sys2Proof.Machine.execGraphLaunch q n s
  | .renderPass w => Sys2Proof.Machine.execRenderPass w s
  | .copy w => Sys2Proof.Machine.execCopy w s
  | .fill w => Sys2Proof.Machine.execFill w s
  | .compose q n => Sys2Proof.Machine.execCompose q n s
  | .encode q n => Sys2Proof.Machine.execEncode q n s
  | .bind q n => Sys2Proof.Machine.execBind q n s
  | .send q n => Sys2Proof.Machine.execSend q n s
  | .descriptorComplete q n => Sys2Proof.Machine.execDescriptorComplete q n s
  | .graphNodeComplete q n node => Sys2Proof.Machine.execGraphNodeComplete q n node s
  | .continuationLaunch q => Sys2Proof.Machine.execContinuationLaunch q s
  | .feAcvWinWrite off size v => Sys2Proof.Machine.execFeAcvWinWrite off size v s
  | .feAcvEnable => Sys2Proof.Machine.execFeAcvEnable s
  | .feAcvResumeRetry => Sys2Proof.Machine.execFeAcvResumeRetry s
  | .feAcvResumeSkip => Sys2Proof.Machine.execFeAcvResumeSkip s
  | .switchSaveDone slot => Sys2Proof.Machine.execSwitchSaveDone slot s
  | .switchLoadDone slot => Sys2Proof.Machine.execSwitchLoadDone slot s
  | .slowTableWrite f => Sys2Proof.Machine.execSlowTableWrite f s
  | .transactionIssue t => Sys2Proof.Machine.execTransactionIssue t s
  | .transactionResponse id r => Sys2Proof.Machine.execTransactionResponse id r s
  | .cleanDone slot => Sys2Proof.Machine.execCleanDone slot s
  | .stackScrub slice found => Sys2Proof.Machine.execStackScrub slice found s
  | .hbmScrub stack found => Sys2Proof.Machine.execHbmScrub stack found s
  | .hbmParityRetry stack id => Sys2Proof.Machine.execHbmParityRetry stack id s
  | .int q op d a b c => Sys2Proof.Machine.execInt q op d a b c s
  | .fp32 q op d a b c => Sys2Proof.Machine.execFp32 q op d a b c s
  | .packed q bf op d a b c => Sys2Proof.Machine.execPacked q bf op d a b c s
  | .conv q src dst d a scale rtz sat => Sys2Proof.Machine.execConv q src dst d a scale rtz sat s
  | .trans q op d a => Sys2Proof.Machine.execTrans q op d a s
  | .lane q op d a b => Sys2Proof.Machine.execLane q op d a b s
  | .branch q op => Sys2Proof.Machine.execBranch q op s
  | .join q m => Sys2Proof.Machine.execJoin q m s
  | .sr q r d => Sys2Proof.Machine.execSr q r d s
  | .lmAccess q a => Sys2Proof.Machine.execLmAccess q a s
  | .ldc q size d r o => Sys2Proof.Machine.execLdc q size d r o s
  | .stc q size b r o => Sys2Proof.Machine.execStc q size b r o s
  | .atc q op ty d b c r o => Sys2Proof.Machine.execAtc q op ty d b c r o s
  | .deviceLoad q size d a ord => Sys2Proof.Machine.execDeviceLoad q size d a ord s
  | .deviceStore q size a b mode => Sys2Proof.Machine.execDeviceStore q size a b mode s
  | .atom q op ty d a b c ord => Sys2Proof.Machine.execAtom q op ty d a b c ord s
  | .msgSend q ch form rel => Sys2Proof.Machine.execMsgSend q ch form rel s
  | .msgRecv q ch form acq => Sys2Proof.Machine.execMsgRecv q ch form acq s
  | .chstat q ch d e => Sys2Proof.Machine.execChstat q ch d e s
  | .messageArrive core ch => Sys2Proof.Machine.execMessageArrive core ch s
  | .creditReturn core ch => Sys2Proof.Machine.execCreditReturn core ch s
  | .bar q => Sys2Proof.Machine.execBar q s
  | .cbar q => Sys2Proof.Machine.execCbar q s
  | .fence q scope => Sys2Proof.Machine.execFence q scope s
  | .cont q a => Sys2Proof.Machine.execCont q a s
  | .exit q => Sys2Proof.Machine.execExit q s
  | .undefinedInstruction q => Sys2Proof.Machine.execUndefinedInstruction q s
  | .blockClusterPlace run => Sys2Proof.Machine.execBlockClusterPlace run s
  | .blockEnd block => Sys2Proof.Machine.execBlockEnd block s
  | .mclaim q m => Sys2Proof.Machine.execMclaim q m s
  | .mrel q m => Sys2Proof.Machine.execMrel q m s
  | .mwait q m => Sys2Proof.Machine.execMwait q m s
  | .mma q e ctrl a b => Sys2Proof.Machine.execMma q e ctrl a b s
  | .mstore q e ctrl => Sys2Proof.Machine.execMstore q e ctrl s
  | .mldacc q e ctrl => Sys2Proof.Machine.execMldacc q e ctrl s
  | .mloadb q e ctrl src => Sys2Proof.Machine.execMloadb q e ctrl src s
  | .matrixComplete core e err => Sys2Proof.Machine.execMatrixComplete core e err s
  | .bissue q b vn => Sys2Proof.Machine.execBissue q b vn s
  | .bwait q n => Sys2Proof.Machine.execBwait q n s
  | .expand cluster b quad => Sys2Proof.Machine.execExpand cluster b quad s
  | .setop cluster b quad => Sys2Proof.Machine.execSetop cluster b quad s
  | .probe cluster b quad => Sys2Proof.Machine.execProbe cluster b quad s
  | .rayq cluster b quad => Sys2Proof.Machine.execRayq cluster b quad s
  | .bobbinStep cluster b waits err => Sys2Proof.Machine.execBobbinStep cluster b waits err s
  | .bobbinComplete cluster b quad => Sys2Proof.Machine.execBobbinComplete cluster b quad s
  | .primitiveBin pass binner stall err => Sys2Proof.Machine.execPrimitiveBin pass binner stall err s
  | .tilePlace pass => Sys2Proof.Machine.execTilePlace pass s
  | .tileLoadDone pass ord => Sys2Proof.Machine.execTileLoadDone pass ord s
  | .batchDispatch pass ord stall => Sys2Proof.Machine.execBatchDispatch pass ord stall s
  | .fragmentGroupStart pass ord blk => Sys2Proof.Machine.execFragmentGroupStart pass ord blk s
  | .tileStoreDone pass ord => Sys2Proof.Machine.execTileStoreDone pass ord s
  | .stripComplete waits => Sys2Proof.Machine.execStripComplete waits s
  | .encodeComplete core err => Sys2Proof.Machine.execEncodeComplete core err s
  | .bindComplete eng err => Sys2Proof.Machine.execBindComplete eng err s
  | .circPortCfgWrite v => Sys2Proof.Machine.execCircPortCfgWrite v s
  | .circGrantWrite q v => Sys2Proof.Machine.execCircGrantWrite q v s
  | .portLinkChange l up => Sys2Proof.Machine.execPortLinkChange l up s
  | .arpRequest l mac ip target => Sys2Proof.Machine.execArpRequest l mac ip target s
  | .neighborSolicitation l mac ip target => Sys2Proof.Machine.execNeighborSolicitation l mac ip target s
  | .frameReceive l fcs frame => Sys2Proof.Machine.execFrameReceive l fcs frame s
  | .packetEnqueue stream => Sys2Proof.Machine.execPacketEnqueue stream s
  | .packetDepart l => Sys2Proof.Machine.execPacketDepart l s
  | .streamStatusWrite stream => Sys2Proof.Machine.execStreamStatusWrite stream s
  | .slvAttach p => Sys2Proof.Machine.execSlvAttach p s
  | .slvDetach move byPartner => Sys2Proof.Machine.execSlvDetach move byPartner s
  | .identityExchange chain nonce sig => Sys2Proof.Machine.execIdentityExchange chain nonce sig s
  | .attachHandshakeComplete time tick edge => Sys2Proof.Machine.execAttachHandshakeComplete time tick edge s
  | .attachTimeout => Sys2Proof.Machine.execAttachTimeout s
  | .mirrorReceive entries => Sys2Proof.Machine.execMirrorReceive entries s
  | .heartbeatSample level => Sys2Proof.Machine.execHeartbeatSample level s
  | .moveMessage ctxs => Sys2Proof.Machine.execMoveMessage ctxs s
  | .failedMessage => Sys2Proof.Machine.execFailedMessage s
  | .selvageRequest kind addr len data found => Sys2Proof.Machine.execSelvageRequest kind addr len data found s
  | .selvageReplay ok => Sys2Proof.Machine.execSelvageReplay ok s
  | .selvageRetrain => Sys2Proof.Machine.execSelvageRetrain s
  | .selvageLinkLost => Sys2Proof.Machine.execSelvageLinkLost s
  | .monitorWindowEnd stuck => Sys2Proof.Machine.execMonitorWindowEnd stuck s
  | .supplyFault => Sys2Proof.Machine.execSupplyFault s
  | .clockFault dom => Sys2Proof.Machine.execClockFault dom s
  | .thermalFault tj => Sys2Proof.Machine.execThermalFault tj s
  | .lockstepMismatch => Sys2Proof.Machine.execLockstepMismatch s
  | .powerOkRise => Sys2Proof.Machine.execPowerOkRise s
  | .powerOkFall => Sys2Proof.Machine.execPowerOkFall s
  | .perstNAssert => Sys2Proof.Machine.execPerstNAssert s
  | .perstNDeassert => Sys2Proof.Machine.execPerstNDeassert s
  | .hotReset => Sys2Proof.Machine.execHotReset s
  | .resetRelease => Sys2Proof.Machine.execResetRelease s
  | .bootRomReady => Sys2Proof.Machine.execBootRomReady s
  | .secBootGo => Sys2Proof.Machine.execSecBootGo s
  | .bootCheckDone r => Sys2Proof.Machine.execBootCheckDone r s
  | .bootReadTimeout image => Sys2Proof.Machine.execBootReadTimeout image s
  | .velhintoReady => Sys2Proof.Machine.execVelhintoReady s
  | .watchdogKick => Sys2Proof.Machine.execWatchdogKick s
  | .watchdogExpiry => Sys2Proof.Machine.execWatchdogExpiry s
  | .firmwareRestartDone => Sys2Proof.Machine.execFirmwareRestartDone s
  | .graceStart f => Sys2Proof.Machine.execGraceStart f s
  | .graceExpiry f => Sys2Proof.Machine.execGraceExpiry f s
  | .pcieLinkDown => Sys2Proof.Machine.execPcieLinkDown s
  | .functionLevelReset f => Sys2Proof.Machine.execFunctionLevelReset f s
  | .getVersion => Sys2Proof.Machine.execGetVersion s
  | .getCapabilities => Sys2Proof.Machine.execGetCapabilities s
  | .negotiateAlgorithms asym hash measHash => Sys2Proof.Machine.execNegotiateAlgorithms asym hash measHash s
  | .getCertificate slot offset length => Sys2Proof.Machine.execGetCertificate slot offset length s
  | .challenge slot summary nonce => Sys2Proof.Machine.execChallenge slot summary nonce s
  | .getMeasurements index signed nonce => Sys2Proof.Machine.execGetMeasurements index signed nonce s
  | .voltageConfirm => Sys2Proof.Machine.execVoltageConfirm s
  | .voltageTimeout => Sys2Proof.Machine.execVoltageTimeout s
  | .powerWindowEnd mw => Sys2Proof.Machine.execPowerWindowEnd mw s
  | .domainSleepEntry d => Sys2Proof.Machine.execDomainSleepEntry d s
  | .domainEntryDone d => Sys2Proof.Machine.execDomainEntryDone d s
  | .domainWakeDone d => Sys2Proof.Machine.execDomainWakeDone d s
  | .wakeTimeout d => Sys2Proof.Machine.execWakeTimeout d s
  | .pwrCtrlS3 => Sys2Proof.Machine.execPwrCtrlS3 s
  | .pwrCtrlWake => Sys2Proof.Machine.execPwrCtrlWake s
  | .pwrCtrlClamp v => Sys2Proof.Machine.execPwrCtrlClamp v s
  | .hostAccessInS3 bar off size write => Sys2Proof.Machine.execHostAccessInS3 bar off size write s
  | .s3ExitDone => Sys2Proof.Machine.execS3ExitDone s
  | .sidebandWrite bytes => Sys2Proof.Machine.execSidebandWrite bytes s
  | .sidebandRead n => Sys2Proof.Machine.execSidebandRead n s
  | .thermtrip => Sys2Proof.Machine.execThermtrip s
  | .bypass => Sys2Proof.Machine.execBypass s
  | .idcode => Sys2Proof.Machine.execIdcode s
  | .samplePreload => Sys2Proof.Machine.execSamplePreload s
  | .extest => Sys2Proof.Machine.execExtest s
  | .extestPulse => Sys2Proof.Machine.execExtestPulse s
  | .extestTrain => Sys2Proof.Machine.execExtestTrain s
  | .bar4Access off len write found => Sys2Proof.Machine.execBar4Access off len write found s
  | .rcRead bar off size => Sys2Proof.Machine.execRcRead bar off size s
  | .registerWrite bar off size v => Sys2Proof.Machine.execRegisterWrite bar off size v s
  | .selvageTrainingDone lanes => Sys2Proof.Machine.execSelvageTrainingDone lanes s
  | .tjMaxChange tj => Sys2Proof.Machine.execTjMaxChange tj s
  | .pcieCompletionTimeout id => Sys2Proof.Machine.execPcieCompletionTimeout id s

end Sys2Proof.Machine
end

