-- ==== Sys2Proof/WellFormed.lean ====
section
/-! DEFINITION. The well-formed commands: what no sender can put on the wire is ill formed. A well-formed command may still be
one that the spec refuses, counts or ignores; that is its meaning, in Machine/. -/

namespace Sys2Proof

/-- Bytes of BAR0 and of each BAR2 (spec/19 R564, R573). -/
def bar0Bytes : Nat := 0x4000000

/-- Bytes of BAR4 (spec/19 R575). -/
def bar4Bytes : Nat := 2 ^ 39

/-- Sizes of a register access on the bus, those that R567 does not serve among them. -/
def busSize (n : Nat) : Bool := n == 1 || n == 2 || n == 4 || n == 8

/-- Sizes of a lane's access (spec/08 R245, R249). -/
def accessSize (n : Nat) : Bool := n == 1 || n == 2 || n == 4 || n == 8 || n == 16

/-- An access of at least one byte that stays in one 128 B line (spec/07 R195). -/
def lineAccess (addr len : Nat) : Bool := decide (0 < len) && decide (addr % 128 + len ≤ 128)

/-- A contention report names carrel slots, or 0xFE for the media hub and the management core, each in no more cycles than
it counts (spec/06 R186). -/
def Stall.wf (r : Stall) : Bool :=
  r.served.all fun e => (decide (e.1 < 48) || e.1 == 0xFE) && decide (e.2 ≤ r.cycles)

/-- A unit of the part, by number (spec/00 R16, spec/05 R139). -/
def Site.wf : Site → Bool
  | .lanes c | .tensor c => decide (c < 256)
  | .frontEnd n | .copyUnit n | .image n => decide (n < 48)
  | .binner q | .raster q => decide (q < 64)
  | .bobbin b q => decide (b < 2) && decide (q < 64)
  | .encoder n => decide (n < 12)
  | .bindery n => decide (n < 4)
  | .couching n => decide (n < 256)
  | .port n => decide (n < 2)

/-- A hub unit issues as the hub, every other on behalf of a slot (spec/07 R214). -/
def Issuer.wf : Issuer → Bool
  | .unit _ u | .carve _ u => u.wf && !u.isHub
  | .hub _ u => u.wf && u.isHub
  | .walker _ _ | .mgmt | .hostLink | .selvage => true

/-- A transaction is of one line at most, and carries the bytes that it writes (spec/07 R195). -/
def TxnReq.wf (t : TxnReq) : Bool :=
  lineAccess t.addr.toNat t.len && t.stall.wf && t.issuer.wf &&
    (match t.kind with
    | .read | .fetch => t.data.isEmpty
    | .write | .atomic => decide (t.data.length = t.len))

/-- Orderings of a load: relaxed or acquire (spec/08 R263). -/
def Order.loadForm : Order → Bool
  | .rlx | .acq _ => true
  | .rel _ | .ar _ => false

/-- Orderings of a store: relaxed or release (spec/08 R263). -/
def Order.storeForm : Order → Bool
  | .rlx | .rel _ => true
  | .acq _ | .ar _ => false

/-- A local access has one of the sizes of R245 and an ordering of its kind (R263). -/
def LmAcc.wf : LmAcc → Bool
  | .load n _ _ ord => accessSize n && ord.loadForm
  | .store n _ _ ord => accessSize n && ord.storeForm
  | .atom _ _ _ _ _ _ _ => true

/-- Entries that a mirror can hold: counts and codes within the tables of spec/03 and spec/15. -/
def MirrorEntry.wf : MirrorEntry → Bool
  | .ctx _ _ _ _ _ _ => true
  | .queue _ _ _ _ _ _ entries _ _ _ _ _ _ _ _ _ _ => decide (64 ≤ entries) && decide (entries ≤ 65536)
  | .fence _ _ _ _ _ _ _ => true
  | .event _ _ _ _ => true
  | .graph _ _ _ _ a b _ _ _ => decide (a ≤ 4096) && decide (b ≤ 4096)
  | .carrel off _ => decide (off < bar0Bytes)
  | .target off _ => decide (off < bar0Bytes)
  | .stream _ _ _ _ _ _ _ rings => decide (rings.length ≤ 8)
  | .armed slot _ _ => decide (slot < 4)
  | .gone _ => true
  | .streamGone _ => true

/-- The well-formed commands. -/
def Instr.wf : Instr → Bool
  | .hoopStart => true
  | .edge => true
  | .marginStart => true
  | .cutoff => true
  | .settleDone _ => true
  | .shadowWrite _ off size _ => busSize size && decide (off < bar0Bytes)
  | .accOpen _ => true
  | .accCommit _ => true
  | .accAbort _ => true
  | .accRelease _ _ => true
  | .accCheckEnd _ => true
  | .quotaSet _ _ _ _ => true
  | .ctxCreate _ _ => true
  | .ctxDestroy _ _ => true
  | .ctxMarkLost _ _ => true
  | .ctxQuery _ _ => true
  | .ctxStandby _ _ _ _ => true
  | .qCreate _ _ _ _ _ _ _ => true
  | .qDestroy _ _ => true
  | .fenceCreate _ _ _ _ _ => true
  | .fenceSignal _ _ _ _ => true
  | .fenceQuery _ _ => true
  | .fenceDestroy _ _ => true
  | .eventRingSet _ _ _ _ => true
  | .eventCreate _ _ _ _ => true
  | .eventDestroy _ _ => true
  | .graphCreate _ _ => true
  | .graphPublish _ _ _ _ => true
  | .graphDestroy _ _ => true
  | .faultRingSet _ _ _ => true
  | .slowTableSet _ _ => true
  | .streamOpen _ _ _ _ _ => true
  | .streamRing _ _ _ _ _ _ _ => true
  | .streamKey _ _ _ _ _ => true
  | .streamClose _ _ => true
  | .accRequest _ _ _ _ => true
  | .daybookSet _ _ _ => true
  | .marginSet _ _ => true
  | .fwRingBase _ _ _ => true
  | .heartbeat _ _ => true
  | .pageWalkComplete _ stall => stall.wf
  | .faultRecordWrite _ => true
  | .faultHeadPoll _ => true
  | .faultRetry _ _ => true
  | .faultNotMapped _ _ => true
  | .mmuInval _ _ _ => true
  | .invalDone _ => true
  | .qDoorbell _ _ off size _ => busSize size && decide (off < 4096)
  | .qResumeRetry _ _ off size _ => busSize size && decide (off < 4096)
  | .qResumeSkip _ _ off size _ => busSize size && decide (off < 4096)
  | .queueResumeEffect _ => true
  | .descriptorTake _ => true
  | .descriptorArm _ _ => true
  | .nop _ => true
  | .wait _ => true
  | .signal _ => true
  | .waitTick _ _ => true
  | .budget _ _ => true
  | .kernel _ => true
  | .graphLaunch _ _ => true
  | .renderPass _ => true
  | .copy _ => true
  | .fill _ => true
  | .compose _ _ => true
  | .encode _ _ => true
  | .bind _ _ => true
  | .send _ _ => true
  | .descriptorComplete _ _ => true
  | .graphNodeComplete _ _ _ => true
  | .continuationLaunch _ => true
  | .feAcvWinWrite off size _ => busSize size && decide (off < 4096)
  | .feAcvEnable => true
  | .feAcvResumeRetry => true
  | .feAcvResumeSkip => true
  | .switchSaveDone _ => true
  | .switchLoadDone _ => true
  | .slowTableWrite _ => true
  | .transactionIssue t => t.wf
  | .transactionResponse _ _ => true
  | .cleanDone _ => true
  | .stackScrub _ _ => true
  | .hbmScrub _ _ => true
  | .hbmParityRetry _ _ => true
  | .int _ _ _ _ _ _ => true
  | .fp32 _ _ _ _ _ _ => true
  | .packed _ _ _ _ _ _ _ => true
  | .conv _ _ _ _ _ _ _ _ => true
  | .trans _ _ _ _ => true
  | .lane _ _ _ _ _ => true
  | .branch _ _ => true
  | .join _ _ => true
  | .sr _ _ _ => true
  | .lmAccess _ a => a.wf
  | .ldc _ size _ _ _ => accessSize size.item && size.ord.loadForm
  | .stc _ size _ _ _ => accessSize size.item && size.ord.storeForm
  | .atc _ _ _ _ _ _ _ _ => true
  | .deviceLoad _ size _ _ ord => accessSize size && ord.loadForm
  | .deviceStore _ size _ _ mode => accessSize size && mode.ord.storeForm
  | .atom _ _ _ _ _ _ _ _ => true
  | .msgSend _ _ _ _ => true
  | .msgRecv _ _ _ _ => true
  | .chstat _ _ _ _ => true
  | .messageArrive _ _ => true
  | .creditReturn _ _ => true
  | .bar _ => true
  | .cbar _ => true
  | .fence _ _ => true
  | .cont _ _ => true
  | .exit _ => true
  | .undefinedInstruction _ => true
  | .blockClusterPlace _ => true
  | .blockEnd _ => true
  | .mclaim _ _ => true
  | .mrel _ _ => true
  | .mwait _ _ => true
  | .mma _ _ _ _ _ => true
  | .mstore _ _ _ => true
  | .mldacc _ _ _ => true
  | .mloadb _ _ _ _ => true
  | .matrixComplete _ _ _ => true
  | .bissue _ _ _ => true
  | .bwait _ _ => true
  | .expand _ _ _ => true
  | .setop _ _ _ => true
  | .probe _ _ _ => true
  | .rayq _ _ _ => true
  | .bobbinStep _ _ waits _ => decide waits.quads.Nodup
  | .bobbinComplete _ _ _ => true
  | .primitiveBin _ _ stall _ => stall.wf
  | .tilePlace _ => true
  | .tileLoadDone _ _ => true
  | .batchDispatch _ _ stall => stall.wf
  | .fragmentGroupStart _ _ _ => true
  | .tileStoreDone _ _ => true
  | .stripComplete waits => decide waits.item.Nodup
  | .encodeComplete _ _ => true
  | .bindComplete _ _ => true
  | .circPortCfgWrite _ => true
  | .circGrantWrite _ _ => true
  | .portLinkChange _ _ => true
  | .arpRequest _ _ _ _ => true
  | .neighborSolicitation _ _ _ _ => true
  | .frameReceive _ _ _ => true
  | .packetEnqueue _ => true
  | .packetDepart _ => true
  | .streamStatusWrite _ => true
  | .slvAttach _ => true
  | .slvDetach _ _ => true
  | .identityExchange _ nonce sig => decide (nonce.nonce.length = 64) && decide (sig.length = 512)
  | .attachHandshakeComplete t _ e => decide (e ≤ t)
  | .attachTimeout => true
  | .mirrorReceive entries => entries.all MirrorEntry.wf
  | .heartbeatSample _ => true
  | .moveMessage ctxs => decide ctxs.Nodup
  | .failedMessage => true
  | .selvageRequest kind addr len data _ => decide (kind ≠ .fetch) && lineAccess addr.toNat len && (if kind = .read then data.isEmpty else decide (data.length = len))
  | .selvageReplay _ => true
  | .selvageRetrain => true
  | .selvageLinkLost => true
  | .monitorWindowEnd stuck => decide stuck.Nodup
  | .supplyFault => true
  | .clockFault _ => true
  | .thermalFault _ => true
  | .lockstepMismatch => true
  | .powerOkRise => true
  | .powerOkFall => true
  | .perstNAssert => true
  | .perstNDeassert => true
  | .hotReset => true
  | .resetRelease => true
  | .bootRomReady => true
  | .secBootGo => true
  | .bootCheckDone _ => true
  | .bootReadTimeout _ => true
  | .velhintoReady => true
  | .watchdogKick => true
  | .watchdogExpiry => true
  | .firmwareRestartDone => true
  | .graceStart _ => true
  | .graceExpiry _ => true
  | .pcieLinkDown => true
  | .functionLevelReset _ => true
  | .getVersion => true
  | .getCapabilities => true
  | .negotiateAlgorithms _ _ _ => true
  | .getCertificate _ offset length => decide (offset < 65536) && decide (length < 65536)
  | .challenge _ _ nonce => decide (nonce.length = 32)
  | .getMeasurements _ signed nonce => if signed then decide (nonce.length = 32) else nonce.isEmpty
  | .voltageConfirm => true
  | .voltageTimeout => true
  | .powerWindowEnd _ => true
  | .domainSleepEntry _ => true
  | .domainEntryDone _ => true
  | .domainWakeDone _ => true
  | .wakeTimeout _ => true
  | .pwrCtrlS3 => true
  | .pwrCtrlWake => true
  | .pwrCtrlClamp _ => true
  | .hostAccessInS3 _ off size _ => busSize size && decide (off < bar0Bytes)
  | .s3ExitDone => true
  | .sidebandWrite bytes => !bytes.isEmpty
  | .sidebandRead n => decide (0 < n)
  | .thermtrip => true
  | .bypass => true
  | .idcode => true
  | .samplePreload => true
  | .extest => true
  | .extestPulse => true
  | .extestTrain => true
  | .bar4Access off len write _ => decide (0 < len) && decide (off + len ≤ bar4Bytes) && (match write with
    | none => true
    | some b => decide (b.length = len))
  | .rcRead _ off size => busSize size && decide (off < bar0Bytes)
  | .registerWrite _ off size _ => busSize size && decide (off < bar0Bytes)
  | .selvageTrainingDone _ => true
  | .tjMaxChange _ => true
  | .pcieCompletionTimeout _ => true

end Sys2Proof
end

