-- ==== Sys2Proof/Safety.lean ====
section
/-! DEFINITION. What counts as a safe run, in the terms that statements use: a step that answers, the parts of the state that it
leaves alone, and the forms of the state that every step keeps. -/

namespace Sys2Proof.Machine

/-- The parts of the state: its top-level fields. -/
inductive Part where
  | hoop | regs | acc | obj | fns | mmu | fe | car | fab | cores | eng | bob | ras | cch | cod | circ | twin | flt | fw | pwr | brd | bus | free | pending
  deriving DecidableEq, Repr

/-- Two states agree on a part. -/
def Part.same : Part → State → State → Prop
  | .hoop, s, t => t.hoop = s.hoop
  | .regs, s, t => t.regs = s.regs
  | .acc, s, t => t.acc = s.acc
  | .obj, s, t => t.obj = s.obj
  | .fns, s, t => t.fns = s.fns
  | .mmu, s, t => t.mmu = s.mmu
  | .fe, s, t => t.fe = s.fe
  | .car, s, t => t.car = s.car
  | .fab, s, t => t.fab = s.fab
  | .cores, s, t => t.cores = s.cores
  | .eng, s, t => t.eng = s.eng
  | .bob, s, t => t.bob = s.bob
  | .ras, s, t => t.ras = s.ras
  | .cch, s, t => t.cch = s.cch
  | .cod, s, t => t.cod = s.cod
  | .circ, s, t => t.circ = s.circ
  | .twin, s, t => t.twin = s.twin
  | .flt, s, t => t.flt = s.flt
  | .fw, s, t => t.fw = s.fw
  | .pwr, s, t => t.pwr = s.pwr
  | .brd, s, t => t.brd = s.brd
  | .bus, s, t => t.bus = s.bus
  | .free, s, t => t.free = s.free
  | .pending, s, t => t.pending = s.pending

/-- Every part that is not listed is as it was: the frame of a step from `s` to `t`. -/
def Only (ps : List Part) (s t : State) : Prop := ∀ p, p ∉ ps → p.same s t

/-- A command answers a next state, of which a property holds. -/
def Answers (c : Instr) (s : State) (P : State → Prop) : Prop := ∃ t, exec c s = .next t ∧ P t

/-- A create of an object of a type is neither held back nor turned away by the rules for twin B (spec/16 R472). -/
def CreatesNow (s : State) (ty given : Nat) : Prop := createWaits s ty given = false ∧ (s.twin.watch && s.twin.role) = false

/-- The machine once a thread group has gone past an instruction: its quad has made progress in the monitor window (spec/16
R496). -/
def went (s : State) (i : Iss) : State := moves s (quadRef (i.core / 4))

/-- A firmware command of a function was taken and completed: its counts T and W have advanced by 1, and no other function's
rings have moved (spec/17 R511). -/
def FwDone (c : Call) (s t : State) : Prop :=
  (fnOf t c.func.val).taken = (fnOf s c.func.val).taken + 1 ∧ (fnOf t c.func.val).written = (fnOf s c.func.val).written + 1 ∧
  ∀ g, g ≠ c.func.val → (fnOf t g).taken = (fnOf s g).taken ∧ (fnOf t g).written = (fnOf s g).written

/-- The parts that the loss of a context can reach: its objects, its work in every unit, its streams and translations, and the
records of it (spec/03 R75). -/
def lossParts : List Part := [.obj, .fns, .mmu, .fe, .fab, .cores, .eng, .bob, .ras, .cch, .cod, .circ, .fw]

/-- No context of a function is ACTIVE. -/
def NoneActive (f : Nat) (t : State) : Prop := ∀ c x, ctxOf t c = some x → x.func = f → x.st ≠ .active

/-- A domain is ON and may be reached (spec/18 R542, R545). -/
def IsOn (s : State) (d : Nat) : Prop := domDown s d = false ∧ (domOf s d).st = .on

/-- A descriptor has completed with a status: its queue, unless it drained away, counts one more completion, and the record
that it may still hold has ended so (spec/05 R151). -/
def Completed (q : Nat) (i : W32) (st : Nat) (s t : State) : Prop :=
  ∀ x, getQ s q = some x → (x.st ≠ .draining → (getQ t q).isSome = true) ∧
    ∀ y, getQ t q = some y → y.completed = (x.completed + 1) % 2 ^ 48 ∧ ∀ d, recOf y i = some d → d.stage = .ended st

/-- A work item, a descriptor or a graph node, stands at a stage. -/
def WorkAt (w : Work) (g : Stage) (t : State) : Prop :=
  match w.node with
  | none => ∃ y d, getQ t w.q.val = some y ∧ recOf y w.i = some d ∧ d.stage = g
  | some k => ∃ l n, launchOf t w.q.val w.i = some l ∧ tget l.nodes k.val = some n ∧ n.d.stage = g

/-- A work item has ended with a status: a descriptor has completed, and a node is finished, its completion to come. -/
def WorkEnded (w : Work) (st : Nat) (s t : State) : Prop :=
  match w.node with
  | none => Completed w.q.val w.i st s t
  | some _ => WorkAt w (.finished st) t

/-- A work item of a queue completes with status OK in a state, which the step leaves as `t`: a node is finished, its completion to
come; a descriptor has completed, unless its slot must be cleaned first: then a clean has begun, and it waits for that (spec/07
R204). -/
def EndedOk (w : Work) (x : Queue) (u s t : State) : Prop :=
  match w.node with
  | some _ => WorkAt w (.finished 0) t
  | none => ((queueSlot u w.q.val x).any (mustClean u) = false → Completed w.q.val w.i 0 s t) ∧
      ∀ n, queueSlot u w.q.val x = some n → mustClean u n = true →
        WorkAt w .cleaning t ∧ t.fab.cleans.contains n = true ∧ hasDirty t n = false

/-- A group after an instruction that gave each active lane `n` registers from `d` upward, the low bits of its value in the
lowest; a register at or above REGS takes nothing. The issuing subgroup has gone past the instruction (spec/08 R223, R225). -/
def Wrote (i : Iss) (d n : Nat) (f : Nat → Nat) (g : Group) : Prop :=
  g = { i.g with subs := pass i.sub :: i.rest, regs := g.regs } ∧
  ∀ l k, l < 32 → rd g l k =
    if l ∈ i.lanes ∧ d ≤ k ∧ k < d + n ∧ k < i.g.nregs then BitVec.ofNat 32 (f l / 2 ^ (32 * (k - d))) else rd i.g l k

/-- The group of an issue with the subgroup past its instruction and no register written. -/
def passed (i : Iss) : Group := { i.g with subs := pass i.sub :: i.rest }

/-- A memory after each active lane stored `n` bytes at its key, a higher lane over a lower one; every other byte is as it was. -/
def Stored (i : Iss) (key : Nat → Nat) (n : Nat) (data : Nat → List Byte) (m m' : Mem) : Prop :=
  (∀ l ∈ i.lanes, (∀ k ∈ i.lanes, l < k → key k ≠ key l) → mread m' (key l) n = data l) ∧
  ∀ a, (∀ l ∈ i.lanes, a < key l ∨ key l + n ≤ a) → mget m' a = mget m a

/-- A memory after the atomics of an integer instruction: the lowest lane of an address returns the old value, an address that one
lane names holds what its operation gives, and every other byte is as it was (spec/08 R252, R254). -/
def Combined (i : Iss) (key : Nat → Nat) (op : AtOp) (ty : AtTy) (b c : Nat) (f : Nat → Nat) (m m' : Mem) : Prop :=
  let n := atSize ty
  (∀ l ∈ i.lanes, (∀ k ∈ i.lanes, k < l → key k ≠ key l) → f l = mnat m (key l) n) ∧
  (∀ l ∈ i.lanes, (∀ k ∈ i.lanes, k ≠ l → key k ≠ key l) →
    mnat m' (key l) n = atApply op ty (mnat m (key l) n) (rdN i.g l b (n / 4)) (rdN i.g l c (n / 4)) % 2 ^ (8 * n)) ∧
  ∀ a, (∀ l ∈ i.lanes, a < key l ∨ key l + n ≤ a) → mget m' a = mget m a

/-- A table's keys rise strictly, so that equal tables are equal data. -/
def Tbl.wf {α : Type} : Tbl α → Bool
  | [] => true
  | [_] => true
  | (k, _) :: (k', v) :: t => decide (k < k') && Tbl.wf ((k', v) :: t)

/-- The byte memories are in their canonical form. -/
def memOk (s : State) : Bool := Mem.wf s.fab.mem && Mem.wf s.fab.host && Mem.wf s.cores.lm

/-- The Hoop: no phase before it runs and one after, and the edge in force is not in the future (spec/02 R26, R31). -/
def hoopOk (s : State) : Bool := (decide (s.hoop.phase = .idle) == !s.hoop.running) && decide (s.hoop.edge ≤ s.hoop.time)

/-- The accession block has its four slots (spec/02 R47). -/
def slotsOk (s : State) : Bool := decide (s.acc.slots.length = 4)

/-- A step is safe when it answers a next state that keeps the forms above. -/
def SafeStep (s : State) : Prop := ∃ t, step s = .next t ∧ memOk t = true ∧ hoopOk t = true ∧ slotsOk t = true

end Sys2Proof.Machine
end

