-- ==== Sys2Proof/Certificates/Slice0/Obligations.lean ====
section
/-! DEFINITION. The statements for the provers, by chapter of the spec. OBLIGATIONS.json lists them. -/

open Sys2Proof Sys2Proof.Machine

/-! ## The step and the queue of commands -/

/-- A step carries out the command at the front of the queue on the state with the rest of the queue. -/
def Obligations.StepRunsTheFrontCommand : Prop :=
  ∀ (c : Instr) (rest : List Instr) (s : State), s.pending = c :: rest → step s = exec c { s with pending := rest }

/-- No command touches the queue of waiting commands, and every command answers a next state. -/
def Obligations.CommandsAnswerAndLeaveTheQueue : Prop :=
  ∀ (c : Instr) (s : State), Answers c s fun t => t.pending = s.pending

/-- A step on an empty queue lets one cycle of the timebase pass (R25; the empty queue's meaning is log 1). -/
def Obligations.IdleStepCountsOneCycle : Prop :=
  ∀ s : State, s.pending = [] → s.brd.inReset = false →
    ∃ t, step s = .next t ∧ t.hoop.time = s.hoop.time + 1 ∧ t.pending = []

/-! ## Invariants -/

/-- The state after reset has every form that the invariants speak of. -/
def Obligations.ResetHasTheForms : Prop :=
  memOk State.reset = true ∧ hoopOk State.reset = true ∧ slotsOk State.reset = true ∧ State.reset.pending = []

/-- Every step keeps the byte memories in their canonical form. -/
def Obligations.StepKeepsMemories : Prop :=
  ∀ s t : State, memOk s = true → step s = .next t → memOk t = true

/-- Every step keeps the Hoop's form, a phase exactly while it runs and no edge in the future, and the four accession slots. -/
def Obligations.StepKeepsHoopAndSlots : Prop :=
  (∀ s t : State, hoopOk s = true → step s = .next t → hoopOk t = true) ∧
  (∀ s t : State, slotsOk s = true → step s = .next t → slotsOk t = true)

/-! ## The Hoop (spec/02) -/

/-- HOOP_START raises tick 0 one timebase cycle after the write, and while the Hoop runs it does nothing; EDGE ends the period at its edge,
PERIOD_CYC after the last one, and begins the next with the values then active (R25, R26, R30, R31). -/
def Obligations.PeriodsStartAndFollow : Prop :=
  ((∀ s : State, bar0Ok s = true → s.hoop.running = false →
     Answers .hoopStart s fun t => t.hoop.running = true ∧ t.hoop.tick = 0 ∧ t.hoop.time = s.hoop.time + 1 ∧
       t.hoop.edge = s.hoop.time + 1 ∧ t.hoop.phase = .opened ∧ t.hoop.overrun = s.hoop.overrun) ∧
   (∀ s : State, s.hoop.running = true → exec .hoopStart s = .next s)) ∧
  (∀ s : State, s.hoop.running = true → s.brd.inReset = false → s.hoop.time ≤ periodEnd s →
     Answers .edge s fun t => t.hoop.tick = s.hoop.tick + 1 ∧ t.hoop.edge = s.hoop.edge + s.hoop.perCyc ∧
       t.hoop.time = t.hoop.edge ∧ t.hoop.phase = .opened ∧ t.hoop.running = true ∧
       t.hoop.perCyc = nbits (active t oPeriod) 23 0 ∧ t.hoop.marginUs = nbits (active t oMargin) 8 0 ∧
       t.hoop.settleUs = nbits (active t oMargin) 24 16)

/-- MARGIN_START ends the open phase at M; of objects, only the measured cycles of real-time work follow the time that passes.
CUTOFF in the drain phase begins the settle phase at C: the slots with dirty lines or with a clean under way have settle work, and
messages, channels and returning credits are discarded. SETTLE_DONE of such a slot writes back its dirty lines and ends its settle
work; of any other slot it has no effect. -/
def Obligations.PhasesFollowInOrder : Prop :=
  (∀ s : State, s.hoop.running = true → s.brd.inReset = false → s.hoop.phase = .opened →
     Answers .marginStart s fun t => t.hoop = { s.hoop with phase := .drain, time := max s.hoop.time (marginAt s) } ∧
       Only [.hoop, .obj] s t ∧ t.obj = { s.obj with queues := t.obj.queues } ∧
       (∀ q x, tget s.obj.queues q = some x → x.rt = false → tget t.obj.queues q = some x) ∧
       (∀ q x, tget s.obj.queues q = some x → ∃ l, tget t.obj.queues q = some { x with recs := l } ∧
         l.map (fun d => { d with measured := 0 }) = x.recs.map fun d => { d with measured := 0 })) ∧
  (∀ s : State, s.hoop.running = true → s.brd.inReset = false → s.hoop.phase = .drain →
     Answers .cutoff s fun t => t.hoop.phase = .settle ∧ t.hoop.time = max s.hoop.time (cutoffAt s) ∧
       t.hoop.settleBusy = (dirtySlots s ++ s.fab.cleans).dedup ∧ t.hoop.tick = s.hoop.tick ∧ t.hoop.edge = s.hoop.edge ∧
       t.cores.inbox = [] ∧ t.cores.sent = [] ∧ t.cores.outs = [] ∧ t.cores.creditsBack = []) ∧
  (∀ (s : State) (n : Fin 48),
     (n.val ∈ s.hoop.settleBusy → Answers (.settleDone n) s fun t =>
       t.hoop = { s.hoop with settleBusy := s.hoop.settleBusy.filter fun k => k ≠ n.val } ∧ hasDirty t n.val = false ∧
       t.fab = (cleanSlot s n.val).fab ∧ Only [.hoop, .fab] s t) ∧
     (n.val ∉ s.hoop.settleBusy → exec (.settleDone n) s = .next s))

/-! ## Accessions (spec/02) -/

/-- R44: a shadow write of a requester without an open accession is discarded and counted in ACC_STRAY. -/
def Obligations.StrayShadowWriteIsCounted : Prop :=
  ∀ (s : State) (r : Requester) (off size : Nat) (v : W64), reqOk s r = true → openSlot s r = none →
    (mergeShadow s off size v.toNat).isSome = true →
    exec (.shadowWrite r off size v) s = .next { s with acc := { s.acc with stray := min 0xFFFF (s.acc.stray + 1) } }

/-- R48: a shadow write is staged in the requester's open slot and reaches the shadow copy, never the active one; where another
slot holds the register, it is discarded and marks the writing slot CONFLICT. -/
def Obligations.ShadowWriteIsStaged : Prop :=
  ∀ (s : State) (r : Requester) (off size reg w n : Nat) (v : W64), reqOk s r = true → openSlot s r = some n →
    mergeShadow s off size v.toNat = some (reg, w) →
    let held := s.acc.slots.zipIdx.any fun e => e.2 != n && accHolds e.1 && (tget e.1.staged reg).isSome
    (held = false → Answers (.shadowWrite r off size v) s fun t =>
      tget (accSlot t n).staged reg = some (BitVec.ofNat 64 (stored reg (ofmtFor s (accSlot s n) reg) w)) ∧
      shadowOf t reg = (BitVec.ofNat 64 (stored reg (ofmtFor s (accSlot s n) reg) w) : W64).toNat ∧
      (∀ o, o ≠ reg → shadowOf t o = shadowOf s o) ∧ (∀ o, active t o = active s o) ∧
      (∀ m, m ≠ n → accSlot t m = accSlot s m) ∧ Only [.acc, .regs, .fw, .fab] s t) ∧
    (held = true → exec (.shadowWrite r off size v) s =
      .next (setSlot s n { accSlot s n with conflicts := (accSlot s n).conflicts ++ [reg] }))

/-- R47, R49: OPEN claims the lowest FREE slot for a requester that has none in OPEN, and otherwise claims nothing; COMMIT moves the
open slot to CHECKING and records ACC_TARGET with it. -/
def Obligations.OpenAndCommitMoveASlot : Prop :=
  (∀ (s : State) (r : Requester), reqOk s r = true → s.fw.restarting = false →
     (∀ n, openSlot s r = none → freeSlot s = some n → Answers (.accOpen r) s fun t =>
       accSlot t n = { AccSlot.reset with st := .opened, owner := r } ∧ openSlot t r = some n ∧
       (∀ m, m ≠ n → accSlot t m = accSlot s m) ∧ (∀ m, m < n → (accSlot s m).st ≠ .free) ∧
       Only [.acc, .fw, .fab, .free] s t) ∧
     ((openSlot s r).isSome = true ∨ freeSlot s = none → exec (.accOpen r) s = .next s)) ∧
  (∀ (s : State) (r : Requester) (n : Nat), reqOk s r = true → openSlot s r = some n →
     Answers (.accCommit r) s fun t =>
       accSlot t n = { accSlot s n with st := .checking, target := targetOfReq s r } ∧
       (∀ m, m ≠ n → accSlot t m = accSlot s m) ∧ t.regs = s.regs ∧ Only [.acc, .fw, .fab, .free] s t)

/-- R55 to R57: ABORT refuses the open slot with code ABORTED, and the shadow copies it staged return to the active values; RELEASE
frees an APPLIED or REFUSED slot of the requester, and has no effect on any other. -/
def Obligations.AbortAndReleaseEndASlot : Prop :=
  (∀ (s : State) (n : Nat), bar0Ok s = true → openSlot s .host = some n → s.fw.reqs = [] →
     Answers (.accAbort .host) s fun t =>
       accSlot t n = { accSlot s n with st := .refused, code := 9, detail := 0 } ∧
       (∀ m, m ≠ n → accSlot t m = accSlot s m) ∧
       (∀ o, (tget (accSlot s n).staged o).isSome = true → shadowOf t o = active s o) ∧
       (∀ o, tget (accSlot s n).staged o = none → shadowOf t o = shadowOf s o) ∧ (∀ o, active t o = active s o)) ∧
  (∀ (s : State) (r : Requester) (n : Fin 8), reqOk s r = true → s.fw.reqs = [] →
     let a := accSlot s (n.val - 1)
     let may := 1 ≤ n.val ∧ n.val ≤ 4 ∧ a.owner = r ∧ (a.st = .applied ∨ a.st = .refused)
     (may → exec (.accRelease r n) s = .next (setSlot s (n.val - 1) AccSlot.reset)) ∧
     (¬ may → exec (.accRelease r n) s = .next s))

/-- R49, R51, R53: a check ends with its slot ARMED for an edge when it fails no rule, and REFUSED with the code otherwise. -/
def Obligations.CheckArmsOrRefuses : Prop :=
  ∀ (s : State) (n : Fin 4) (e : Option Nat) (code detail : Nat), (accSlot s n.val).st = .checking → s.fw.running = true →
    s.fw.reqs = [] → stagesPair s (accSlot s n.val) = false → s.acc.slots.length = 4 →
    checkSlot s (accSlot s n.val) = (e, code, detail) →
    Answers (.accCheckEnd n) s fun t =>
      (∀ k, e = some k → code = 0 → accSlot t n.val = { accSlot s n.val with st := .armed, edge := k }) ∧
      (code ≠ 0 ∨ e = none → (accSlot t n.val).st = .refused ∧ (accSlot t n.val).code = code ∧
        (accSlot t n.val).detail = detail) ∧
      (∀ m, m ≠ n.val → accSlot t m = accSlot s m) ∧ (∀ o, active t o = active s o)

/-! ## Objects (spec/03) -/

/-- CTX_CREATE, FENCE_CREATE, EVENT_CREATE and GRAPH_CREATE within quota make one object, at the lowest index free on both
twins (on twin B, at the index that A gives), with the fields that R70, R84, R94 and R97 give it, and touch no other object. The
event's fence has not reached its V. -/
def Obligations.CreatesMakeOneObject : Prop :=
  (∀ (s : State) (c : Call) (root : W64), fwTakes s c.func.val = true → CreatesNow s 1 c.index → rootOk root.toNat = true →
    overQuota s 1 c.func.val = false → Answers (.ctxCreate c root) s fun t =>
      let x : Ctx := { func := c.func.val, st := .active, reason := 0, root := root, standbyRoot := 0, standbySlot := 0xFF }
      t.obj = { s.obj with ctxs := tset s.obj.ctxs (newIndex s 1 c.index) x } ∧
      FwDone c s t ∧ Only [.obj, .fns, .fab, .fw] s t) ∧
  (∀ (s : State) (c : Call) (h : W32) (k : Nat) (init : W64) (shared : W32) (mirror : W64), fwTakes s c.func.val = true →
    CreatesNow s 3 c.index → bits mirror 2 0 = 0 → ctxUse s c.func.val h.toNat = .ok k → overQuota s 3 c.func.val = false →
    Answers (.fenceCreate c h init shared mirror) s fun t =>
      let x : Fence := { func := c.func.val, ctx := k, value := init, shared := decide (shared.toNat % 2 = 1), lost := false,
                         stale := 0, mirror := mirror }
      t.obj = { s.obj with fences := tset s.obj.fences (newIndex s 3 c.index) x } ∧
      FwDone c s t ∧ Only [.obj, .fns, .fab, .fw] s t) ∧
  (∀ (s : State) (c : Call) (h : W32) (k : Nat) (v step : W64) (x : Fence), fwTakes s c.func.val = true →
    CreatesNow s 4 c.index → fenceOf s c.func.val h.toNat = .ok k → tget s.obj.fences k = some x →
    overQuota s 4 c.func.val = false → atOrLater x.value v = false →
    Answers (.eventCreate c h v step) s fun t =>
      let y : Event := { func := c.func.val, ctx := x.ctx, fence := k, v := v,
                         step := BitVec.ofNat 64 (min (2 ^ 63 - 1) step.toNat) }
      t.obj = { s.obj with events := tset s.obj.events (newIndex s 4 c.index) y } ∧
      FwDone c s t ∧ Only [.obj, .fns, .fab, .fw] s t) ∧
  (∀ (s : State) (c : Call) (h : W32) (k : Nat), fwTakes s c.func.val = true → CreatesNow s 5 c.index →
    ctxUse s c.func.val h.toNat = .ok k → overQuota s 5 c.func.val = false →
    Answers (.graphCreate c h) s fun t =>
      let z : GSlot := { table := 0, count := 0, gen := 0, inflight := 0 }
      let g : Graph := { func := c.func.val, ctx := k, a := z, b := z, cur := none }
      t.obj = { s.obj with graphs := tset s.obj.graphs (newIndex s 5 c.index) g } ∧
      FwDone c s t ∧ Only [.obj, .fns, .fab, .fw] s t)

/-- Q_CREATE of a best-effort queue, with a completion fence or none, makes one ACTIVE, empty queue at the lowest free index, its
entry count a clamped power of two; of a real-time queue that passes the earlier checks, it makes the queue where R156 admits it and
no queue where it does not. -/
def Obligations.QueueCreateMakesAnActiveQueue : Prop :=
  (∀ (s : State) (c : Call) (ctx cls entries rt fence : W32) (ring : W64) (k u : Nat), fwTakes s c.func.val = true →
    CreatesNow s 2 c.index → rt.toNat % 2 = 0 → ring.toNat % 4096 = 0 → cls.toNat < 7 → ctxUse s c.func.val ctx.toNat = .ok k →
    fenceUse s c.func.val k fence.toNat = .ok () → overQuota s 2 c.func.val = false → bindUnit s cls.toNat = some u →
    Answers (.qCreate c ctx cls ring entries rt fence) s fun t =>
      let x : Queue := { Queue.window with func := c.func.val, ctx := k, cls := cls.toNat, ring := ring, rt := false,
                                           fence := fence, entries := clampPow2 6 16 entries.toNat, unit := u, slot := 0xFF,
                                           bQc := 0, bHb := 0, bUc := 0 }
      t.obj = { s.obj with queues := tset s.obj.queues (newIndex s 2 c.index) x } ∧ x.st = .active ∧ x.recs = [] ∧
      FwDone c s t ∧ Only [.obj, .fns, .fab, .fw] s t) ∧
  (∀ (s : State) (c : Call) (ctx cls entries rt fence : W32) (ring : W64) (x : Queue), fwTakes s c.func.val = true →
    s.fw.groups.toNat.testBit 2 = false → CreatesNow s 2 c.index → rt.toNat % 2 = 1 →
    queueOf c.func.val ctx.toNat cls.toNat ring.toNat entries.toNat 1 fence.toNat s = .ok x →
    Answers (.qCreate c ctx cls ring entries rt fence) s fun t =>
      (admits s x = true → t.obj = { s.obj with queues := tset s.obj.queues (newIndex s 2 c.index) x }) ∧
      (admits s x = false → t.obj = s.obj) ∧ FwDone c s t ∧ Only [.obj, .fns, .fab, .fw, .free] s t)

/-- The destroy commands: the object named is gone (a fence, an event, an idle graph; of the last two the frame is whole, with the
index's generation advanced), or it is DRAINING (a queue) or DESTROYING (a context, whose streams, fences and graphs are gone) until
its last work has left. -/
def Obligations.DestroysFreeTheirObject : Prop :=
  (∀ (s : State) (c : Call) (h : W32) (k : Nat) (x : Fence), fwTakes s c.func.val = true → nameObj s 3 h.toNat = .ok k →
    tget s.obj.fences k = some x → x.func = c.func.val → Answers (.fenceDestroy c h) s fun t =>
      tget t.obj.fences k = none ∧ lookup t.obj 3 h.toNat = .error 3 ∧
      (∀ m, m ≠ k → tget t.obj.fences m = tget s.obj.fences m) ∧ (∀ e x, tget t.obj.events e = some x → x.fence ≠ k) ∧ FwDone c s t) ∧
  (∀ (s : State) (c : Call) (h : W32) (k : Nat) (x : Event), fwTakes s c.func.val = true → nameObj s 4 h.toNat = .ok k →
    tget s.obj.events k = some x → x.func = c.func.val → Answers (.eventDestroy c h) s fun t =>
      t.obj = { s.obj with events := tdel s.obj.events k
                           gens := tset s.obj.gens (4 * 65536 + k) ((genOf s.obj 4 k + 1) % 64) } ∧
      FwDone c s t ∧ Only [.obj, .fns, .fab, .fw] s t) ∧
  (∀ (s : State) (c : Call) (h : W32) (k : Nat) (x : Graph), fwTakes s c.func.val = true → nameObj s 5 h.toNat = .ok k →
    tget s.obj.graphs k = some x → x.func = c.func.val → x.a.inflight = 0 → x.b.inflight = 0 →
    Answers (.graphDestroy c h) s fun t =>
      t.obj = { s.obj with graphs := tdel s.obj.graphs k
                           gens := tset s.obj.gens (5 * 65536 + k) ((genOf s.obj 5 k + 1) % 64) } ∧
      FwDone c s t ∧ Only [.obj, .fns, .fab, .fw] s t) ∧
  (∀ (s : State) (c : Call) (h : W32) (k : Nat) (x : Queue), fwTakes s c.func.val = true → nameObj s 2 h.toNat = .ok k →
    tget s.obj.queues k = some x → x.func = c.func.val → x.st ≠ .draining → k < 8192 → ctxActive s x.ctx = true →
    Answers (.qDestroy c h) s fun t => (∀ y, tget t.obj.queues k = some y → y.st = .draining) ∧ FwDone c s t) ∧
  (∀ (s : State) (c : Call) (h : W32) (k : Nat) (x : Ctx), fwTakes s c.func.val = true → nameObj s 1 h.toNat = .ok k →
    ctxOf s k = some x → x.func = c.func.val → x.st ≠ .destroying → slotOfCtx s h.toNat = none → stagedOwner s h.toNat = false →
    Answers (.ctxDestroy c h) s fun t => (∀ y, ctxOf t k = some y → y.st = .destroying) ∧
      (∀ f y, tget t.obj.fences f = some y → y.ctx ≠ k) ∧ (∀ g y, tget t.obj.graphs g = some y → y.ctx ≠ k) ∧
      (∀ n y, tget t.circ.streams n = some y → y.ctx ≠ k) ∧ FwDone c s t)

/-- R85, R86: the signals of one cycle are compared with VALUE as it stood; the fence takes the latest of those later than it, and
counts in STALE those neither later nor equal. -/
def Obligations.FenceTakesTheLatestSignal : Prop :=
  ∀ (s : State) (c : Call) (h : W32) (k : Nat) (v : W64) (others : List W64) (x : Fence), fwTakes s c.func.val = true →
    fenceOf s c.func.val h.toNat = .ok k → tget s.obj.fences k = some x →
    Answers (.fenceSignal c h v others) s fun t => ∃ y, tget t.obj.fences k = some y ∧
      (∀ a ∈ v :: others, later a x.value = true → later a y.value = false) ∧
      (y.value = x.value ∨ (y.value ∈ v :: others ∧ later y.value x.value = true)) ∧
      y.stale = min 0xFFFF (x.stale + ((v :: others).filter fun a => !later a x.value && a != x.value).length) ∧
      y.lost = x.lost ∧ y.ctx = x.ctx ∧ y.shared = x.shared ∧ y.mirror = x.mirror ∧
      (∀ m, m ≠ k → tget t.obj.fences m = tget s.obj.fences m) ∧
      (∀ q y, getQ t q = some y → (y.recs.map (·.idx)) = ((getQ s q).map fun z => z.recs.map (·.idx)).getD []) ∧ FwDone c s t

/-- R85: later and at-or-later are the orders of the rule. -/
def Obligations.LaterIsTheHalfCircle : Prop :=
  ∀ a b : W64, (later a b = true ↔ 1 ≤ (a.toNat + 2 ^ 64 - b.toNat) % 2 ^ 64 ∧ (a.toNat + 2 ^ 64 - b.toNat) % 2 ^ 64 ≤ 2 ^ 63 - 1) ∧
    (atOrLater a b = true ↔ a = b ∨ later a b = true)

/-- CTX_QUERY and FENCE_QUERY leave the objects as they were, but that FENCE_QUERY clears STALE; their completion record in the
function's ring holds the status OK, the tag and the result (R67, R84, R509). Group 2 of the marginalia is off and the firmware
vector is masked, so that nothing else writes to host memory. -/
def Obligations.QueriesReportInTheirCompletion : Prop :=
  ∀ (s : State) (c : Call) (h : W32) (k : Nat), fwTakes s c.func.val = true → memOk s = true → s.fw.groups.toNat.testBit 2 = false →
    bit (msixWord (fnOf s c.func.val) 1) 32 = true →
    let e := ringLog2 (fnOf s c.func.val).cplBase
    let w := (fnOf s c.func.val).written.toNat
    let at' := ringAddr (fnOf s c.func.val).cplBase + 32 * (w % e)
    let rec' (result : Nat) := result * 2 ^ 128 + c.tag.toNat * 2 ^ 96 + (if (w / e) % 2 = 0 then 1 else 0) * 2 ^ 63
    (∀ x, nameObj s 3 h.toNat = .ok k → tget s.obj.fences k = some x → x.func = c.func.val →
      Answers (.fenceQuery c h) s fun t =>
        t.obj = { s.obj with fences := tset s.obj.fences k { x with stale := 0 } } ∧
        mread t.fab.host at' 32 = toLE 32 (rec' (x.value.toNat + (if x.lost then 1 else 0) * 2 ^ 64 + x.stale * 2 ^ 96)) ∧
        (∀ a, a < at' ∨ at' + 32 ≤ a → mget t.fab.host a = mget s.fab.host a) ∧ FwDone c s t ∧ Only [.obj, .fns, .fab] s t) ∧
    (∀ x, nameObj s 1 h.toNat = .ok k → ctxOf s k = some x → x.func = c.func.val →
      Answers (.ctxQuery c h) s fun t => t.obj = s.obj ∧
        (∃ n, mread t.fab.host at' 32 = toLE 32 (rec' (n % 2 ^ 32 + x.reason * 2 ^ 32))) ∧
        (∀ a, a < at' ∨ at' + 32 ≤ a → mget t.fab.host a = mget s.fab.host a) ∧ FwDone c s t ∧ Only [.fns, .fab] s t)

/-- CTX_MARK_LOST marks an ACTIVE context lost with reason DRIVER, sets LOST in its fences and closes its streams; other contexts
that are ACTIVE stay so, and nothing but what a loss reaches changes (R74, R75). -/
def Obligations.MarkLostMarksTheContextAndItsFences : Prop :=
  ∀ (s : State) (c : Call) (h : W32) (k : Nat) (x : Ctx), fwTakes s c.func.val = true → ctxUse s c.func.val h.toNat = .ok k →
    ctxOf s k = some x → Answers (.ctxMarkLost c h) s fun t =>
      ctxOf t k = some { x with st := .lost, reason := 5 } ∧ (∀ m, m ≠ k → ctxActive s m = true → ctxActive t m = true) ∧
      (∀ f y, tget t.obj.fences f = some y → y.ctx = k → y.lost = true) ∧
      (∀ n y, tget t.circ.streams n = some y → y.ctx ≠ k) ∧ FwDone c s t ∧ Only lossParts s t

/-- QUOTA_SET, CTX_STANDBY and GRAPH_PUBLISH set the quota, the standby place and the idle slot of the graph, and nothing else of
the objects; EVENT_RING_SET, FAULT_RING_SET and SLOW_TABLE_SET place the function's ring or table, a ring with nothing written to
it and its entry count a clamped power of two (R66, R91, R99, R117, R188, R476). -/
def Obligations.SettersAndRingsChangeTheirFields : Prop :=
  (∀ (s : State) (c : Call) (f ty quota : W32), fwTakes s c.func.val = true → c.func.val = 0 →
    1 ≤ ty.toNat → ty.toNat ≤ 5 → f.toNat < 64 →
    let q := clamp 0 (typeLimit ty.toNat) quota.toNat
    (((List.range 64).filter (· ≠ f.toNat)).map fun g => quotaOf s.obj ty.toNat g).sum + q ≤ typeLimit ty.toNat →
    countOf s.obj ty.toNat f.toNat ≤ q →
    Answers (.quotaSet c f ty quota) s fun t =>
      t.obj = { s.obj with quotas := tset s.obj.quotas (f.toNat * 8 + ty.toNat) q } ∧ FwDone c s t ∧
      Only [.obj, .fns, .fab, .fw] s t) ∧
  (∀ (s : State) (c : Call) (h slot : W32) (root : W64) (k : Nat), fwTakes s c.func.val = true → twinAttached s = true →
    root = 0 ∨ rootOk root.toNat = true → slot = 0xFF ∨ slot.toNat < peerSlots s → ctxUse s c.func.val h.toNat = .ok k →
    Answers (.ctxStandby c h root slot) s fun t =>
      t.obj = { s.obj with ctxs := tmod s.obj.ctxs k fun x => { x with standbyRoot := root, standbySlot := slot.toNat } } ∧
      FwDone c s t ∧ Only [.obj, .fns, .fab, .fw] s t) ∧
  (∀ (s : State) (c : Call) (h count : W32) (table : W64) (k : Nat) (x : Graph), fwTakes s c.func.val = true → bits table 6 0 = 0 →
    nameObj s 5 h.toNat = .ok k → tget s.obj.graphs k = some x → x.func = c.func.val → ctxActive s x.ctx = true →
    publishBusy x = false →
    Answers (.graphPublish c h table count) s fun t => ∃ y, tget t.obj.graphs k = some y ∧
      (∀ m, m ≠ k → tget t.obj.graphs m = tget s.obj.graphs m) ∧ y.func = x.func ∧ y.ctx = x.ctx ∧
      (x.cur = none → y.cur = some false ∧ y.a.gen = 1) ∧
      (x.cur = some false → y.cur = some true ∧ y.b.gen = x.a.gen + 1 ∧ y.a = x.a) ∧
      (x.cur = some true → y.cur = some false ∧ y.a.gen = x.b.gen + 1 ∧ y.b = x.b) ∧
      (if y.cur = some true then y.b.table = table ∧ y.b.count = clamp 1 4096 count.toNat
       else y.a.table = table ∧ y.a.count = clamp 1 4096 count.toNat) ∧ FwDone c s t ∧ Only [.obj, .fns, .fab, .fw] s t) ∧
  (∀ (s : State) (c : Call) (addr : W64) (entries vector : W32), fwTakes s c.func.val = true → bits addr 11 0 = 0 →
    (if c.func.val = 0 then 5 else 1) ≤ vector.toNat → vector.toNat < vectorsOf c.func.val →
    Answers (.eventRingSet c addr entries vector) s fun t =>
      (fnOf t c.func.val).events = { (fnOf s c.func.val).events with
        base := some addr, entries := clampPow2 8 16 entries.toNat, written := 0, head := 0, vector := vector.toNat } ∧
      (fnOf t c.func.val).faults = (fnOf s c.func.val).faults ∧ FwDone c s t ∧ Only [.fns, .fab, .fw] s t) ∧
  (∀ (s : State) (c : Call) (addr : W64) (entries : W32), fwTakes s c.func.val = true → bits addr 11 0 = 0 →
    Answers (.faultRingSet c addr entries) s fun t =>
      (fnOf t c.func.val).faults = { (fnOf s c.func.val).faults with
        base := some addr, entries := clampPow2 6 12 entries.toNat, written := 0, head := 0, vector := 0 } ∧
      (fnOf t c.func.val).events = (fnOf s c.func.val).events ∧ FwDone c s t ∧ Only [.fns, .fab, .fw] s t) ∧
  (∀ (s : State) (c : Call) (addr : W64), fwTakes s c.func.val = true → bits addr 5 0 = 0 →
    Answers (.slowTableSet c addr) s fun t =>
      (fnOf t c.func.val).slow = some addr ∧ (fnOf t c.func.val).events = (fnOf s c.func.val).events ∧
      (fnOf t c.func.val).faults = (fnOf s c.func.val).faults ∧ FwDone c s t ∧ Only [.fns, .fab, .fw] s t)

/-- STREAM_OPEN, STREAM_RING, STREAM_KEY and STREAM_CLOSE open the stream with its clamped record, set one ring or one key of it,
and close it (R442 to R445, R450). A record or a key is read from host memory as the command finds it, group 2 of the marginalia
being off. -/
def Obligations.StreamCommandsSetTheirStream : Prop :=
  (∀ (s : State) (c : Call) (n h : W32) (srec status : W64) (k : Nat), fwTakes s c.func.val = true →
    s.fw.groups.toNat.testBit 2 = false → n.toNat < 256 → bits srec 6 0 = 0 → bits status 4 0 = 0 →
    streamOpenCheck s (mnat s.fab.host srec.toNat 128) = 0 → grantOf s n.toNat = c.func.val → nameObj s 1 h.toNat = .ok k →
    ctxUse s c.func.val h.toNat = .ok k → tget s.circ.streams n.toNat = none →
    Answers (.streamOpen c n h srec status) s fun t =>
      let r := mnat s.fab.host srec.toNat 128
      let r' := clampRecord (portRate (portMode s (nbits r 569 567 / 4))) r
      t.circ = { s.circ with streams := tset s.circ.streams n.toNat (newStream k r' status s.hoop.time) } ∧
      FwDone c s t ∧ Only [.circ, .fns, .fab, .fw] s t) ∧
  (∀ (s : State) (c : Call) (n kind entries fence : W32) (base head : W64) (x : Stream) (k : Nat) (y : Fence),
    fwTakes s c.func.val = true → n.toNat < 256 → 1 ≤ kind.toNat → kind.toNat ≤ 3 → bits base 10 0 = 0 → bits head 2 0 = 0 →
    nameObj s 3 fence.toNat = .ok k → tget s.obj.fences k = some y → streamUse s c.func.val n.toNat = .ok x → y.ctx = x.ctx →
    y.func = c.func.val → y.lost = false → ((ctxOf s y.ctx).any fun z => z.st == .lost) = false →
    Answers (.streamRing c n kind base entries head fence) s fun t =>
      let r : SRing := { base := base, entries := clampPow2 4 12 entries.toNat, head := head, fence := fence, w := 0, c := 0 }
      t.circ = { s.circ with streams := tset s.circ.streams n.toNat { x with rings := tset x.rings kind.toNat r } } ∧
      FwDone c s t ∧ Only [.circ, .fns, .fab, .fw] s t) ∧
  (∀ (s : State) (c : Call) (n dir kid : W32) (addr : W64) (x : Stream), fwTakes s c.func.val = true →
    s.fw.groups.toNat.testBit 2 = false → n.toNat < 256 → dir.toNat < 2 → kid.toNat < 256 →
    streamUse s c.func.val n.toNat = .ok x →
    Answers (.streamKey c n dir kid addr) s fun t =>
      let k : SKey := { keyId := kid.toNat, key := mread s.fab.host addr.toNat 32, salt := mread s.fab.host (addr.toNat + 32) 4 }
      (dir.toNat = 1 → t.circ = { s.circ with streams := tset s.circ.streams n.toNat { x with rxKeys := installKey x.rxKeys k } }) ∧
      (dir.toNat = 0 → t.circ.streams = tset s.circ.streams n.toNat { x with eKey := some k, seq := 0 }) ∧
      FwDone c s t ∧ Only [.circ, .fns, .fab, .fw] s t) ∧
  (∀ (s : State) (c : Call) (n : W32) (x : Stream), fwTakes s c.func.val = true → n.toNat < 256 →
    streamUse s c.func.val n.toNat = .ok x → streamTaken s n.toNat = false →
    Answers (.streamClose c n) s fun t =>
      tget t.circ.streams n.toNat = none ∧ (∀ m, m ≠ n.toNat → tget t.circ.streams m = tget s.circ.streams m) ∧
      FwDone c s t ∧ Only [.circ, .cod, .fns, .fab, .fw] s t)

/-- ACC_REQUEST whose fields are the function's opens a slot of firmware's, stages in it those of its fields that no other slot
holds, a single one with the value that R512 gives it, and commits it; its completion comes later. DAYBOOK_SET places the day book's
ring with the kept records in it, and MARGIN_SET sets the enabled groups. -/
def Obligations.PlatformCommandsActThroughFirmware : Prop :=
  (∀ (s : State) (c : Call) (list : W64) (count target : W32) (n : Nat), fwTakes s c.func.val = true →
    s.fw.groups.toNat.testBit 2 = false → bits list 3 0 = 0 → s.fw.reqs = [] → openSlot s .fw = none → freeSlot s = some n →
    ((readList s list.toNat (clamp 1 64 count.toNat)).all fun e => (requestField s c.func.val e.1).isSome) = true →
    Answers (.accRequest c list count target) s fun t =>
      (accSlot t n).st = .checking ∧ (accSlot t n).owner = .fw ∧ (accSlot t n).serves = some c.func.val ∧
      (accSlot t n).tag = c.tag ∧ (accSlot t n).target = target ∧ (∀ m, m ≠ n → accSlot t m = accSlot s m) ∧
      (∀ off, (∀ m, accHolds (accSlot s m) = true → tget (accSlot s m).staged off = none) →
        ((tget (accSlot t n).staged off).isSome = true ↔
          ∃ e ∈ readList s list.toNat (clamp 1 64 count.toNat), requestField s c.func.val e.1 = some off) ∧
        ∀ o v, readList s list.toNat (clamp 1 64 count.toNat) = [(o, v)] → requestField s c.func.val o = some off →
          tget (accSlot t n).staged off =
            some (BitVec.ofNat 64 (stored off (ofmtFor s AccSlot.reset off) (requestValue s off v.toNat)))) ∧
      (∀ o, active t o = active s o) ∧ (fnOf t c.func.val).taken = (fnOf s c.func.val).taken + 1 ∧
      (fnOf t c.func.val).written = (fnOf s c.func.val).written ∧ Only [.acc, .regs, .fns, .fab, .fw, .free] s t) ∧
  (∀ (s : State) (c : Call) (addr : W64) (entries : W32), fwTakes s c.func.val = true → c.func.val = 0 → addr.toNat % 4096 = 0 →
    Answers (.daybookSet c addr entries) s fun t =>
      t.fw.bookRing.base = some addr ∧ t.fw.bookRing.entries = clampPow2 8 16 entries.toNat ∧
      (s.fw.groups.toNat.testBit 2 = false → t.fw.book = s.fw.book ∧ t.fw.bookRing = (s.fw.book.foldl (fun p d =>
          ((ringPut p.1 p.2 (bookWord d)).1, (ringPut p.1 p.2 (bookWord d)).2.1))
        (s.fab.host, { Ring.reset with base := some addr, entries := clampPow2 8 16 entries.toNat })).2) ∧
      FwDone c s t ∧ Only [.fns, .fab, .fw] s t) ∧
  (∀ (s : State) (c : Call) (mask : W64), fwTakes s c.func.val = true → c.func.val = 0 →
    Answers (.marginSet c mask) s fun t => t.fw.groups = mask ∧
      (s.fw.groups.toNat.testBit 2 = false → mask.toNat.testBit 2 = false → t.fw = { s.fw with groups := mask }) ∧
      FwDone c s t ∧ Only [.fns, .fab, .fw] s t)

/-- A write to a BASE register sets it and both indices of the function's rings to 0; HEARTBEAT records the period in LAST_HB;
WATCHDOG_KICK marks the period as kicked (R508, R516, R520). -/
def Obligations.FirmwareRegisterWrites : Prop :=
  (∀ (s : State) (f : Fin 64) (cpl : Bool) (v : W64), bar2Ok s = true → (s.fw.reqs.any fun r => r.func == f.val) = false →
    let b : W64 := BitVec.ofNat 64 (bits v 63 12 * 4096 + clamp 6 12 (bits v 3 0))
    let x := { fnOf s f.val with cmdTail := 0, cplHead := 0, taken := 0, written := 0 }
    exec (.fwRingBase f cpl v) s = .next (setFn s f.val (if cpl then { x with cplBase := b } else { x with cmdBase := b }))) ∧
  (∀ (s : State) (f : Fin 64) (v : W64), bar2Ok s = true →
    Answers (.heartbeat f v) s fun t => (fnOf t f.val).lastHb = BitVec.ofNat 32 s.hoop.tick ∧
      ((fnOf s f.val).grace.isSome = true → (fnOf t f.val).hbSeen = true) ∧
      (∀ g, g ≠ f.val → fnOf t g = fnOf s g) ∧ Only [.fns] s t) ∧
  (∀ s : State, s.fw.running = true → Answers .watchdogKick s fun t => t.fw.kicked = true ∧ t.fw.groups = s.fw.groups ∧
    (s.fw.groups.toNat.testBit 4 = false → t.fw = { s.fw with kicked := true }) ∧ Only [.fw, .fab] s t)

/-- A grace period that is due starts and, after its edges, ends with the function's contexts lost; a link-down event is kept for
the edge; a function-level reset loses the contexts and resets the ring registers but for LAST_HB (R521 to R525). -/
def Obligations.GraceAndFunctionReset : Prop :=
  (∀ (s : State) (f : Fin 64) (why : Nat), (fnOf s f.val).graceDue = some why →
    Answers (.graceStart f) s fun t =>
      fnOf t f.val = { fnOf s f.val with grace := some 0, graceLen := s.fw.graceTicks, graceDue := none, hbSeen := false } ∧
      (∀ g, g ≠ f.val → fnOf t g = fnOf s g) ∧ Only [.fns, .fab, .fw] s t) ∧
  (∀ (s : State) (f : Fin 64) (n : Nat), (fnOf s f.val).grace = some n → (fnOf s f.val).graceLen ≤ n →
    Answers (.graceExpiry f) s fun t => (fnOf t f.val).grace = none ∧ NoneActive f.val t ∧
      Only (.acc :: .regs :: .free :: lossParts) s t) ∧
  (∀ s : State, s.brd.inReset = false → exec .pcieLinkDown s = .next { s with fw := { s.fw with linkDown := true } }) ∧
  (∀ (s : State) (f : Fin 64), s.brd.inReset = false →
    Answers (.functionLevelReset f) s fun t => NoneActive f.val t ∧ (fnOf t f.val).cmdBase = 6 ∧ (fnOf t f.val).cplBase = 6 ∧
      (fnOf t f.val).cmdTail = 0 ∧ (fnOf t f.val).cplHead = 0 ∧ (fnOf t f.val).taken = 0 ∧ (fnOf t f.val).written = 0 ∧
      (fnOf t f.val).grace = none ∧ (fnOf t f.val).invalTok = 0 ∧ (fnOf t f.val).lastHb = (fnOf s f.val).lastHb ∧
      (∀ g, g ≠ f.val → (fnOf t g).cmdBase = (fnOf s g).cmdBase ∧ (fnOf t g).cmdTail = (fnOf s g).cmdTail) ∧
      Only lossParts s t)

/-- An expiry that is due, or a lockstep mismatch, resets the management core: pending accessions are refused with FW_RESTART; the
restart then ends with Velhinto running, and so does an exit from S3 (R516, R518, R60, R555). The third restart within 64 ticks is
left to R517. -/
def Obligations.RestartsRefuseAndEnd : Prop :=
  (let restarted (cause : Nat) (s t : State) : Prop :=
      t.fw.running = false ∧ t.fw.restarting = true ∧ t.fw.restartCause = cause ∧
      t.fw.restartCount = min 0xFF (s.fw.restartCount + 1) ∧
      (∀ n : Fin 4, accHolds (accSlot s n.val) = true → (accSlot s n.val).takeover = false →
        (accSlot t n.val).st = .refused ∧ (accSlot t n.val).code = 10) ∧
      (∀ o, active t o = active s o) ∧ t.obj = s.obj ∧ t.circ = s.circ ∧ t.cores = s.cores ∧ t.hoop = s.hoop
   let few (s : State) : Prop := (s.fw.restartTicks.filter fun k => decide (s.hoop.tick < k + 64)).length < 2
   (∀ s : State, s.fw.expiryDue = true → s.fw.running = true → few s → Answers .watchdogExpiry s (restarted 1 s)) ∧
   (∀ s : State, s.fw.running = true → few s → Answers .lockstepMismatch s (restarted 2 s))) ∧
  (∀ s : State, s.fw.restarting = true → imageOk s = true →
    Answers .firmwareRestartDone s fun t => t.fw.running = true ∧ t.fw.restarting = false ∧ t.obj = s.obj ∧
      (∀ o, active t o = active s o) ∧ Only [.fw, .acc, .regs, .fns, .fab, .free] s t) ∧
  (∀ s : State, s.pwr.exiting = true → imageOk s = true →
    Answers .s3ExitDone s fun t => t.pwr.inS3 = false ∧ t.pwr.exiting = false ∧ t.pwr.lock = 0xFFFF ∧ t.fw.running = true ∧
      t.fw.restartCount = s.fw.restartCount ∧ Only [.pwr, .fw] s t)

/-! ## Reset, boot and board (spec/17, spec/20) -/

/-- The reset pins and events: a cold reset leaves the reset state but for the board, host memory and the model's own fields
(R504, R584, R588). What the board keeps of a reset is the model's reading (log 71). -/
def Obligations.ResetInputsActAsGiven : Prop :=
  let cold (s : State) (b : Board) : State :=
    { State.reset with fab := { State.reset.fab with host := s.fab.host }, brd := b, free := s.free, pending := s.pending }
  (∀ s : State, exec .powerOkRise s = .next { s with brd := { s.brd with powerOk := true } }) ∧
  (∀ s : State, exec .powerOkFall s = .next (cold s
    { s.brd with powerOk := false, inReset := true, thermtrip := false, twinSel := false, jtag := .bypass, tdo := none })) ∧
  (∀ s : State, exec .perstNAssert s = .next (if s.brd.powerOk then
      cold s { s.brd with perstN := false, inReset := true, twinSel := false }
    else { s with brd := { s.brd with perstN := false } })) ∧
  (∀ s : State, s.brd.powerOk = true → s.brd.perstN = false →
    exec .perstNDeassert s = .next { s with brd := { s.brd with perstN := true, twinSel := s.brd.strap } }) ∧
  (∀ s : State, s.brd.inReset = false → exec .hotReset s = .next (cold s s.brd)) ∧
  (∀ s : State, s.brd.inReset = true → s.brd.powerOk = true → s.brd.perstN = true → s.brd.thermtrip = false →
    exec .resetRelease s = .next { s with brd := { s.brd with inReset := false } }) ∧
  (∀ s : State, exec .thermtrip s = .next (cold s { s.brd with thermtrip := true, inReset := true }))

/-- The boot: the ROM is ready, GO starts the check, the check refuses with its code or takes the charter and copies the image, a
read outstanding at its limit refuses, and Velhinto's report makes the state RUNNING (R504 to R507). -/
def Obligations.BootGoesThroughItsStates : Prop :=
  (∀ s : State, s.brd.inReset = false → s.fw.boot = .reset →
    exec .bootRomReady s = .next { s with fw := { s.fw with boot := .wait, dieId := some Config.dieId },
                                          pwr := { s.pwr with lock := 0xFFFF } }) ∧
  (∀ s : State, s.brd.inReset = false → s.fw.boot = .wait ∨ s.fw.boot = .refused →
    exec .secBootGo s = .next { s with fw := { s.fw with
      boot := .checking, code := 0, object := 0, goTime := s.hoop.time, charter := none, trims := [] } }) ∧
  (∀ (s : State) (r : BootRead), s.fw.boot = .checking → s.fw.charter = none →
    Answers (.bootCheckDone r) s fun t =>
      let refused (e obj : Nat) : Prop :=
        t = { s with fw := { s.fw with boot := .refused, code := e, object := obj, charter := none } }
      match checkObject s r false s.fw.bootCharter.toNat with
      | .error e => refused e 0
      | .ok c =>
        match charterBad c.body with
        | some e => refused e 0
        | none =>
          match checkObject s r true s.fw.bootImage.toNat with
          | .error e => refused e 1
          | .ok i => t.fw.charter = some (charterOf c i) ∧ t.fw.boot = .checking ∧ t.fw.accepted = s.fw.accepted ∧
              t.fab = { s.fab with mem := mwrite s.fab.mem velhintoBase i.body } ∧ Only [.fw, .fab] s t) ∧
  (∀ (s : State) (image : Bool), s.fw.boot = .checking → s.fw.charter = none → s.brd.inReset = false → s.hoop.running = false →
    Answers (.bootReadTimeout image) s fun t => t.fw.boot = .refused ∧ t.fw.code = 1 ∧
      t.fw.object = (if image then 1 else 0) ∧ t.hoop.time = max s.hoop.time (s.fw.goTime + 45000000) ∧
      Only [.fw, .hoop, .obj] s t) ∧
  (∀ (s : State) (c : Charter), s.fw.boot = .checking → s.fw.charter = some c →
    Answers .velhintoReady s fun t => t.fw.boot = .running ∧ t.fw.accepted = true ∧ t.fw.running = true ∧
      t.fw.charter = some c ∧ Only [.fw, .fab] s t)

/-- The SPDM responder's six requests: the response on the mailbox and the flags that let later requests be made; during a restart
every request is answered Busy (R526 to R529, R518). The message layouts are DMTF's (PRESUMED, log 70). -/
def Obligations.SpdmRequestsAreAnswered : Prop :=
  ∀ s : State, s.brd.inReset = false → s.pwr.inS3 = false →
    (s.fw.restarting = true →
      ∀ (asym hash meas : W32) (slot summary i : Fin 256) (off len : Nat) (sign : Bool) (nonce : List Byte),
      ∀ c ∈ [Instr.getVersion, .getCapabilities, .negotiateAlgorithms asym hash meas, .getCertificate slot off len,
        .challenge slot summary nonce, .getMeasurements i sign nonce], Answers c s fun t =>
      t.fw.spdmOut = byteList [0x12, 0x7F, 0x03, 0] ∧ Only [.fw, .fab] s t) ∧
    (s.fw.restarting = false →
      (Answers .getVersion s fun t => t.fw.spdmOut = byteList [0x10, 0x04, 0, 0, 0, 1, 0x00, 0x12] ∧ t.fw.spdmVersion = true ∧
        t.fw.spdmCaps = false ∧ t.fw.spdmAlgs = false ∧ Only [.fw, .fab, .free] s t) ∧
      (s.fw.spdmVersion = true → Answers .getCapabilities s fun t =>
        t.fw.spdmOut.take 5 = byteList [0x12, 0x61, 0, 0, 0] ∧ t.fw.spdmCaps = true ∧ Only [.fw, .fab, .free] s t) ∧
      (∀ asym hash meas : W32, s.fw.spdmCaps = true → bit asym 6 = true → bit hash 2 = true →
        Answers (.negotiateAlgorithms asym hash meas) s fun t => t.fw.spdmOut.take 2 = byteList [0x12, 0x63] ∧
          t.fw.spdmAlgs = true ∧ Only [.fw, .fab, .free] s t) ∧
      (∀ off len : Nat, spdmReady s = true → off < (spdmChain s).length → Answers (.getCertificate 0 off len) s fun t =>
        (∃ a b : List Byte, a.length = 8 ∧ b = slice (spdmChain s) off len ∧ t.fw.spdmOut = a ++ b ∧
          a.take 2 = byteList [0x12, 0x02]) ∧ Only [.fw, .fab, .free] s t) ∧
      (∀ (summary : Fin 256) (nonce : List Byte), spdmReady s = true → Answers (.challenge 0 summary nonce) s fun t =>
        (∃ b : List Byte, t.fw.spdmOut = byteList [0x12, 0x03, 0, 1] ++ sha512 (spdmChain s) ++ b) ∧ Only [.fw, .fab, .free] s t) ∧
      (∀ (i : Fin 256) (sign : Bool) (nonce : List Byte), spdmReady s = true → i.val ≤ 6 ∨ i.val = 0xFF →
        Answers (.getMeasurements i sign nonce) s fun t =>
          (∃ b : List Byte, t.fw.spdmOut = byteList [0x12, 0x60, if i.val = 0 then 6 else 0, 0,
            if i.val = 0xFF then 6 else if i.val = 0 then 0 else 1] ++ b) ∧ Only [.fw, .fab, .free] s t))

/-- A supply, clock or temperature outside its ratings, and a voltage that is not confirmed in time, are DEVICE faults: the device is
FAILED with its ports down, and an empty MGT_FAULT records the fault (R488, R495, R535, R592). A temperature alone only moves
TJ_MAX. -/
def Obligations.RatingFaultsFailTheDevice : Prop :=
  let failed (means : Nat) (s t : State) : Prop :=
    t.flt.failed = true ∧ (s.flt.failed = false → t.circ.link = 0 ∧ t.twin.st = .failed) ∧
    (s.flt.valid = false → t.flt.valid = true ∧ t.flt.scope = 5 ∧ t.flt.means = means) ∧
    t.hoop = s.hoop ∧ t.regs = s.regs ∧ t.acc = s.acc ∧ t.car = s.car
  (∀ s : State, s.brd.powerOk = true → s.brd.inReset = false → Answers .supplyFault s fun t => failed 7 s t ∧ t.pwr = s.pwr) ∧
  (∀ (s : State) (d : Fin 18), s.brd.inReset = false → d.val < 16 → s.pwr.inS3 = false ∨ 13 ≤ d.val →
    Answers (.clockFault d) s fun t => failed 8 s t ∧
      t.pwr.lock = (((bitList 18 s.pwr.lock).filter fun i => i ≠ d.val).map fun i => 2 ^ i).sum) ∧
  (∀ (s : State) (tj : Int), s.brd.inReset = false → tj < 80 ∨ 800 < tj →
    Answers (.thermalFault tj) s fun t => failed 9 s t ∧ t.brd = { s.brd with tj := tj }) ∧
  (∀ (s : State) (c : VCmd), s.pwr.vcmd = some c →
    let u := advance s (c.at' + 10000)
    ∀ d : VCmd, u.pwr.vcmd = some d → d.at' + 10000 ≤ u.hoop.time →
      Answers .voltageTimeout s fun t => failed 7 u t ∧ t.pwr = { u.pwr with vcmd := none }) ∧
  (∀ (s : State) (tj : Int), exec (.tjMaxChange tj) s = .next { s with brd := { s.brd with tj := tj } })

/-- The sideband page is read from the pointer upward, wrapping at 16, and a write sets the pointer; an instruction of the debug port
takes effect, and a boundary-scan one acts as BYPASS while PERST_N is deasserted (R587, R590). -/
def Obligations.SidebandAndDebugPort : Prop :=
  (∀ (s : State) (b : Byte) (l : List Byte),
    exec (.sidebandWrite (b :: l)) s = .next { s with brd := { s.brd with sidePtr := b.toNat % 16 } }) ∧
  (∀ (s : State) (n : Nat), Answers (.sidebandRead n) s fun t =>
    t.brd.sideData.length = n ∧ t.brd.sidePtr = s.brd.sidePtr ∧
    (∀ k, k < n → t.brd.sideData.getD k 0 = BitVec.ofNat 8 (sidePage s / 256 ^ ((s.brd.sidePtr + k) % 16))) ∧ Only [.brd] s t) ∧
  (∀ s : State, exec .idcode s = .next { s with brd := { s.brd with jtag := .idcode, tdo := some 0x19410E2B } }) ∧
  (∀ s : State, exec .bypass s = .next { s with brd := { s.brd with jtag := .bypass, tdo := none } }) ∧
  (∀ s : State, ∀ e ∈ [(Instr.samplePreload, JtagInstr.samplePreload), (.extest, .extest), (.extestPulse, .extestPulse),
      (.extestTrain, .extestTrain)],
    exec e.1 s = .next { s with brd := { s.brd with jtag := if s.brd.perstN then .bypass else e.2, tdo := none } })

/-! ## Power (spec/18) -/

/-- A voltage confirmed in time lets a held frequency change follow; a power window ends with its mean, its throttling and the next
limit; a domain enters its sleep state, loses what it loses in S2, and wakes (R534 to R538, R541, R544 to R546, R551). -/
def Obligations.PowerEventsChangeLevelsAndDomains : Prop :=
  (∀ (s : State) (c : VCmd), s.pwr.vcmd = some c → s.hoop.time < c.at' + 10000 →
    let follow : Bool := decide (s.pwr.held = some c.level)
    exec .voltageConfirm s = .next { s with pwr := { s.pwr with
      vcmd := none, vOk := c.level, levelNow := if follow then c.level else s.pwr.levelNow,
      held := if follow then none else s.pwr.held } }) ∧
  (∀ (s : State) (mw : Nat), s.brd.inReset = false →
    let u := advance s (s.pwr.windowAt + 100000)
    Answers (.powerWindowEnd mw) s fun t => t.pwr.powerMw = mw % 2 ^ 32 ∧ t.pwr.windowAt = u.pwr.windowAt + 100000 ∧
      t.pwr.limit = u.pwr.limitNext ∧ (1000 * u.pwr.limit < mw → t.pwr.throttling = true) ∧
      (mw ≤ 1000 * u.pwr.limit → 20 * mw ≤ 19 * 1000 * u.pwr.limit → t.pwr.throttling = false) ∧
      (u.pwr.throttling = true → t.pwr.throttleMs = min 0xFFFFFFFF (u.pwr.throttleMs + 1)) ∧ Only [.pwr, .fns, .fab] u t) ∧
  (∀ (s : State) (d : Fin 124), domDown s d.val = false → (domOf s d.val).st = .on →
    min (domOf s d.val).allow (domDeepest s d.val) ≠ 0 → domKept s d.val = false → domBusy s d.val = false →
    s.pwr.inS3 = false → s.brd.inReset = false →
    Answers (.domainSleepEntry d) s fun t => (domOf t d.val).st = .changing ∧
      (domOf t d.val).toward = min (domOf s d.val).allow (domDeepest s d.val) ∧
      (∀ e, e ≠ d.val → domOf t e = domOf s e) ∧ Only [.pwr, .free] s t) ∧
  (∀ (s : State) (d : Fin 124), (domOf s d.val).st = .changing → (domOf s d.val).waking = false →
    Answers (.domainEntryDone d) s fun t =>
      (domOf t d.val).st = (if (domOf s d.val).toward = 2 then .s2 else .s1) ∧ (∀ e, e ≠ d.val → domOf t e = domOf s e) ∧
      ((domOf s d.val).toward = 2 → d.val < 64 → ∀ a, a / 0x80000 / 4 = d.val → mget t.cores.lm a = 0) ∧
      (∀ a, a / 0x80000 / 4 ≠ d.val → mget t.cores.lm a = mget s.cores.lm a) ∧ Only [.pwr, .cores, .eng, .fab, .twin, .mmu, .bob, .cod] s t) ∧
  (∀ (s : State) (d : Fin 124), (domOf s d.val).st = .s1 ∨ (domOf s d.val).st = .s2 → (domOf s d.val).waking = true →
    domDown s d.val = false →
    exec (.domainWakeDone d) s = .next (setDom s d.val { domOf s d.val with st := .on, waking := false, stalled := 0 })) ∧
  (∀ (s : State) (d : Fin 124), (domOf s d.val).waking = true →
    let u := advance s ((domOf s d.val).wakeAt + 10000)
    (domOf u d.val).waking = true → (domOf u d.val).st = .s1 ∨ (domOf u d.val).st = .s2 →
    (domOf u d.val).wakeAt + 10000 ≤ u.hoop.time →
    Answers (.wakeTimeout d) s fun t => (domOf t d.val).waking = false ∧ (d.val < 112 → (domOf t d.val).held = true ∧
      (u.flt.valid = false → t.flt.valid = true ∧ t.flt.means = 7)) ∧ t.hoop = u.hoop)

/-- PWR_CTRL.S3 is accepted or refused as R553 gives; a wake, and an access that S3 does not serve, start the exit; CLAMP changes while
no domain is in S2 or changing (R553 to R557). -/
def Obligations.SleepOfTheDevice : Prop :=
  (∀ s : State, bar0Ok s = true →
    let may : Bool := s.obj.ctxs.isEmpty && s.circ.streams.isEmpty && decide (s.twin.st = .detached) && !accPending s &&
      decide (s.mmu.carve = 0) && decide (s.mmu.carveNext = 0)
    exec .pwrCtrlS3 s = .next { s with pwr := { s.pwr with s3Req := may || s.pwr.s3Req, s3Refused := !may } }) ∧
  (∀ s : State, s.pwr.inS3 = true → s.pwr.exiting = false → s.brd.inReset = false →
    let exits (src : Nat) : State := { s with pwr := { s.pwr with exiting := true, wakeTick := s.hoop.tick % 2 ^ 32,
                                                                   wakeDom := 0x7F, wakeSrc := src } }
    exec .pwrCtrlWake s = .next (exits 7) ∧
    (∀ (off size : Nat) (v : W64), exec (.hostAccessInS3 .bar0 off size (some v)) s = .next (exits 6)) ∧
    (∀ (f : Fin 64) (off size : Nat) (w : Option W64), exec (.hostAccessInS3 (.bar2 f) off size w) s = .next (exits 6)) ∧
    (∀ off size : Nat, 0x100000 ≤ off → off < 0x1300000 ∨ 0x1500000 ≤ off →
      exec (.hostAccessInS3 .bar0 off size none) s = .next (exits 6)) ∧
    (∀ off size : Nat, off < 0x100000 ∨ (0x1300000 ≤ off ∧ off < 0x1500000) →
      exec (.hostAccessInS3 .bar0 off size none) s = .next s)) ∧
  (∀ (s : State) (v : Bool), bar0Ok s = true → (∀ d, d < 124 → domAbsent s d = false ∧ (domOf s d).st ≠ .s2 ∧ (domOf s d).st ≠ .changing) →
    exec (.pwrCtrlClamp v) s = .next { s with pwr := { s.pwr with clamp := v } })

/-! ## Circulation (spec/15) -/

/-- CIRC_PORT_CFG changes the mode of a port without open streams and takes its links down; CIRC_GRANT is written while its stream is
closed; a logical port gains and loses link; and a port answers ARP and Neighbor Solicitation for its own addresses and counts the
others as FOREIGN. -/
def Obligations.PortsAreConfiguredAndAnswer : Prop :=
  (∀ (s : State) (v : W32), bar0Ok s = true → IsOn s 113 → IsOn s 114 →
    Answers (.circPortCfgWrite v) s fun t =>
      t.circ.mode0 = (if portBusy s 0 then s.circ.mode0 else bits v 1 0) ∧
      t.circ.mode1 = (if portBusy s 1 then s.circ.mode1 else bits v 3 2) ∧
      (∀ l, l < 8 → hasLink t l = (hasLink s l && portMode t (l / 4) == portMode s (l / 4))) ∧ Only [.circ] s t) ∧
  (∀ (s : State) (n : Fin 256) (v : W32), bar0Ok s = true → tget s.circ.streams n.val = none →
    exec (.circGrantWrite n v) s = .next { s with circ := { s.circ with grants := tset s.circ.grants n.val (bits v 5 0) } }) ∧
  (∀ (s : State) (l : Fin 8) (up : Bool), Answers (.portLinkChange l up) s fun t =>
    hasLink t l.val = (up && portExists s l.val && !s.flt.oosUnits.testBit (16 + l.val) && !s.flt.failed) ∧
    (∀ m, m ≠ l.val → hasLink t m = hasLink s m) ∧ Only [.circ] s t) ∧
  (∀ (s : State) (l : Fin 8) (mac : BitVec 48) (ip target : W32), hasLink s l.val = true →
    (portIp4 s l.val ≠ 0 → target.toNat = portIp4 s l.val → exec (.arpRequest l mac ip target) s = .next { s with circ :=
      { s.circ with out := tset s.circ.out l.val (arpReply s l.val mac.toNat ip.toNat) } }) ∧
    (portIp4 s l.val = 0 ∨ target.toNat ≠ portIp4 s l.val → exec (.arpRequest l mac ip target) s = .next { s with circ :=
      { s.circ with drops := tset s.circ.drops (8 * l.val + 1) (min 0xFFFFFFFF (tgetD s.circ.drops (8 * l.val + 1) 0 + 1)) } })) ∧
  (∀ (s : State) (l : Fin 8) (dmac mac : BitVec 48) (dip ip target : BitVec 128), hasLink s l.val = true →
    (solicits s l.val dmac.toNat dip.toNat target.toNat = true → exec (.neighborSolicitation l ⟨dmac, mac⟩ ⟨dip, ip⟩ target) s =
      .next { s with circ := { s.circ with out := tset s.circ.out l.val (neighborReply s l.val mac.toNat ip.toNat) } }) ∧
    (solicits s l.val dmac.toNat dip.toNat target.toNat = false → exec (.neighborSolicitation l ⟨dmac, mac⟩ ⟨dip, ip⟩ target) s =
      .next { s with circ := { s.circ with
        drops := tset s.circ.drops (8 * l.val + 1) (min 0xFFFFFFFF (tgetD s.circ.drops (8 * l.val + 1) 0 + 1)) } }))

/-- FRAME_RECEIVE on a port with link: a bad FCS and a frame that is not for the port are counted; a frame for an open stream under an
installed key is authenticated, checked for replay and delivered to its ring, W advanced by 1, or counted under the check that it
fails. -/
def Obligations.FramesAreDeliveredOrCounted : Prop :=
  ∀ (s : State) (l : Fin 8) (f : List Byte), hasLink s l.val = true → IsOn s (113 + l.val / 4) →
    let drops (k : Nat) (t : State) : Prop :=
      t.circ.drops = tset s.circ.drops (8 * l.val + k) (min 0xFFFFFFFF (tgetD s.circ.drops (8 * l.val + k) 0 + 1))
    (Answers (.frameReceive ⟨l, .none⟩ false f) s fun t => drops 0 t ∧ t.circ.streams = s.circ.streams ∧ Only [.circ, .flt] s t) ∧
    (parseFrame s l.val f = none → asArp s l.val f = none → asSolicit s l.val f = none →
      Answers (.frameReceive ⟨l, .none⟩ true f) s fun t => drops 1 t ∧ t.circ.streams = s.circ.streams ∧ Only [.circ, .flt] s t) ∧
    (∀ (d : Dgram) (n : Nat) (x : Stream) (k : RxKey) (r : SRing), parseFrame s l.val f = some d →
      40 ≤ d.body.length → d.body.length ≤ 2056 → (d.body.getD 0 0).toNat / 16 = 1 →
      let type := (d.body.getD 0 0).toNat % 16
      let sid := beNat (slice d.body 4 4)
      let seq := beNat (slice d.body 8 4)
      3 ≤ type → type ≤ 5 → matchStream s l.val d sid = some (n, x) →
      x.rxKeys.find? (fun y => y.key.keyId = (d.body.getD 1 0).toNat) = some k →
      tget x.rings (ringKind type) = some r → r.w - r.c ≠ r.entries → (r.w + 2 ^ 64 - r.c) % 2 ^ 64 ≠ r.entries →
      Answers (.frameReceive ⟨l, .none⟩ true f) s fun t =>
        match gcmOpen k.key.key (packetIv k.key.salt sid seq) (d.body.take 24) ((d.body.drop 24).take (d.body.length - 40))
            (d.body.drop (d.body.length - 16)) with
        | none => drops 5 t ∧ t.circ.streams = s.circ.streams ∧ Only [.circ, .flt] s t
        | some pt =>
          if replayed k seq then drops 6 t ∧ t.circ.streams = s.circ.streams ∧ Only [.circ, .flt] s t
          else
            let who : Who := { asid := x.ctx, slot := none, site := .port (l.val / 4) }
            let bytes := ingressHeader s.hoop.time seq l.val d.ecn (d.body.getD 1 0).toNat type pt.length ++ pt
            let seen := { x with rxKeys := x.rxKeys.map fun y => if y.key.keyId = (d.body.getD 1 0).toNat then windowAfter y seq else y }
            ∀ u, vwrite (putStream (moves s (portRef l.val)) n seen) who (r.base.toNat + 2048 * (r.w % r.entries)) bytes = (u, true) →
              (∀ e, lookup s.obj 3 r.fence.toNat = .error e → t.fab = u.fab) ∧
              ∃ y z, tget t.circ.streams n = some y ∧ tget y.rings (ringKind type) = some z ∧ z.w = r.w + 1 ∧
                y.rxKeys = seen.rxKeys ∧ z.base = r.base ∧ z.entries = r.entries ∧ z.head = r.head ∧ z.fence = r.fence ∧
                (∀ m, m ≠ n → tget t.circ.streams m = tget s.circ.streams m) ∧ t.circ.drops = s.circ.drops)

/-- SEND takes the stream's next MSG; PACKET_ENQUEUE of the stream whose packet the send engine completes next adds its DATA or parity
packet to the pacing queue; PACKET_DEPART sends the eligible packet that the port's token chooses; and STREAM_STATUS_WRITE writes the
status record. -/
def Obligations.SendsGoThroughThePacingQueue : Prop :=
  (∀ (s u : State) (q : Fin 8193) (i : W32) (x y : Queue) (d : Desc) (w : W512) (be : Bool) (z : Stream) (k : SKey),
    getQ s q.val = some x → recOf x i = some d →
    let n := bits d.pay 231 224
    (s.circ.sends.any fun r => r.stream = n) = false →
    sendEarlier s q.val i n = false →
    beginWork s q.val i none 0x70 = (u, .go y w be) → tget s.circ.streams n = some z → z.eKey = some k →
    Answers (.send q i) s fun t => ∃ r : SendRun, t.circ.sends = s.circ.sends ++ [r] ∧ r.q = q.val ∧ r.i = i ∧ r.stream = n ∧
      r.msg = z.msg ∧ r.seq = z.seq ∧ r.key = k ∧ r.frag = 0 ∧ r.bytes = sendBytes z w ∧ r.nfrag = sendFrags z (sendBytes z w) ∧
      tget t.circ.streams n = some { z with msg := z.msg + 1 } ∧ WorkAt ⟨q, i, none⟩ .started t ∧
      (∀ m, m ≠ n → tget t.circ.streams m = tget s.circ.streams m)) ∧
  (∀ (s : State) (n : Fin 256) (z : Stream) (r : SendRun) (x : Queue), (engineNext s).1 = some r → r.stream = n.val →
    tget s.circ.streams n.val = some z → getQ s r.q = some x →
    let b := moves (engineStep s r) .device
    let sid := sfield z 815 784
    let built (p : Pkt) (t : State) : Prop := (∃ y, tget t.circ.streams n.val = some y ∧ y.pq = z.pq ++ [p] ∧
        y.seq = (if r.replaced then z.seq else r.seq + 1) ∧ y.msg = z.msg) ∧
      t.circ.engine = (if sendFirst s r then s.circ.engine else (r.q + 1) % 8192) ∧
      (∀ m, m ≠ n.val → tget t.circ.streams m = tget s.circ.streams m)
    (∀ u pt, groupFull z r = false → vread b (feWho b r.q x) (bits r.pay 191 128 + r.frag * payMax z) (fragLen z r) = (u, some pt) →
      Answers (.packetEnqueue ⟨n, .none⟩) s fun t =>
        built (packetOf s z (region r.key sid r.seq (folio 1 r.key.keyId (bits r.pay 239 232) sid r.seq r.msg.toNat r.frag r.nfrag
          r.bytes) pt)) t ∧
        (∀ e ∈ t.circ.sends, e.stream = n.val → e.seq = r.seq + 1 ∧ e.frag = r.frag + 1) ∧
        Only [.circ, .obj, .mmu, .fab, .free, .flt] s t) ∧
    (groupFull z r = true → Answers (.packetEnqueue ⟨n, .none⟩) s fun t =>
      built (packetOf s z (region r.key sid r.seq (folio 2 r.key.keyId r.group.length sid r.seq r.msg.toNat (r.frag - r.group.length)
        r.nfrag r.bytes) (parityText r.group))) t ∧
      (∀ e ∈ t.circ.sends, e.stream = n.val → e.seq = r.seq + 1 ∧ e.frag = r.frag ∧ e.group = []) ∧ Only [.circ, .obj, .flt] s t)) ∧
  (∀ (s : State) (l : Fin 8),
    (∀ n z p rest, departing s l.val = some (n, z) → z.pq = p :: rest →
      Answers (.packetDepart ⟨l, .none⟩) s fun t =>
        tget t.circ.streams n = some { z with pq := rest, bucket := z.bucket - p.wire * 10 ^ 8, sent := z.sent + 1 } ∧
        tget t.circ.tokens l.val = some ((n + 1) % 256) ∧ (hasLink s l.val = true → tget t.circ.out l.val = some p.frame) ∧
        (hasLink s l.val = false → t.circ.out = s.circ.out) ∧ Only [.circ, .flt] s t) ∧
    (departing s l.val = none → exec (.packetDepart ⟨l, .none⟩) s = .next (fillPort s l.val))) ∧
  (∀ (s : State) (n : Fin 256) (z : Stream), memOk s = true → tget s.circ.streams n.val = some z → z.statusDue = true →
    Answers (.streamStatusWrite n) s fun t => mread t.fab.host z.status.toNat 32 = statusRecord s n.val z ∧
      (∀ a, a < z.status.toNat ∨ z.status.toNat + 32 ≤ a → mget t.fab.host a = mget s.fab.host a) ∧
      tget t.circ.streams n.val = some { z with statusDue := false } ∧ Only [.fab, .circ] s t)

/-! ## The twins and faults (spec/16) -/

/-- SLV_ATTACH, the identity exchange, the handshake's end, its timeout, the mirror and SLV_DETACH change the Selvage state as R469 to
R474 and R483 give. What a twin knows of itself is checked at once (DEDUCED, log 80). -/
def Obligations.AttachAndDetach : Prop :=
  (∀ (s : State) (p : PartnerFacts), bar0Ok s = true → s.flt.failed = false → IsOn s 123 → s.twin.st = .detached →
    (attachOwnBad s = true → Answers (.slvAttach p) s fun t => t.twin.st = .detached ∧ t.twin.cause = 6 ∧
      Only [.twin, .fw, .fab] s t) ∧
    (attachBad s p = false → Answers (.slvAttach p) s fun t =>
      t.twin.st = (if s.twin.lanes = 0 then .training else .handshake) ∧
      t.twin.attachTick = firstAttach s.hoop.tick p s.hoop.tick ∧
      (p.present = true → t.twin.partner = some p ∧ t.twin.role = roleB s p ∧ t.twin.ctl.getLast? = some .handshake) ∧
      Only [.twin, .free] s t) ∧
    (attachOwnBad s = false → attachBad s p = true → p.present = true → Answers (.slvAttach p) s fun t =>
      t.twin.st = .detached ∧ t.twin.cause = 6 ∧ Only [.twin, .fw, .fab, .free] s t)) ∧
  (∀ (s : State) (p : PartnerFacts), bar0Ok s = true → s.flt.failed = false → IsOn s 123 →
    s.twin.st = .training ∨ s.twin.st = .handshake → p.present = true → attachBad s p = false →
    Answers (.slvAttach p) s fun t => t.twin.st = s.twin.st ∧ t.twin.partner = some p ∧ t.twin.role = roleB s p ∧
      t.twin.attachTick = firstAttach s.twin.attachTick p s.hoop.tick ∧ t.twin.ctl = s.twin.ctl ++ [.handshake] ∧ Only [.twin] s t) ∧
  (∀ (s : State) (chain nonce sig : List Byte) (verified : Bool), s.twin.st = .training ∨ s.twin.st = .handshake →
    let ok := Config.chainLeads chain && rsaVerify (Config.chainModulus chain) s.twin.nonce sig
    Answers (.identityExchange chain ⟨nonce, verified⟩ sig) s fun t => t.twin.idOk = some ok ∧ t.twin.shown = some verified ∧
      (ok = true → verified = true → t.twin.st = s.twin.st) ∧
      (ok = false ∨ verified = false → t.twin.st = .detached ∧ t.twin.cause = 6) ∧ Only [.twin, .fw, .fab] s t) ∧
  (∀ (s : State) (time tick edge : Nat), s.twin.st = .handshake → s.twin.idOk = some true → s.twin.shown = some true →
    s.twin.partner.isSome = true → s.hoop.running = true →
    (s.twin.role = false → s.hoop.time = s.hoop.edge → Answers (.attachHandshakeComplete time tick edge) s fun t =>
      t.twin.st = .attached ∧ t.hoop = s.hoop ∧ Only [.twin, .fw, .fab] s t) ∧
    (s.twin.role = true → Answers (.attachHandshakeComplete time tick edge) s fun t =>
      t.twin.st = .attached ∧ t.hoop.time = time ∧ t.hoop.tick = tick ∧ t.hoop.edge = time ∧ t.hoop.phase = .opened ∧
      t.acc.targetHost = 0 ∧ t.acc.targetFw = 0)) ∧
  (∀ s : State, s.twin.st = .training ∨ s.twin.st = .handshake → s.twin.attachTick + 64 ≤ s.hoop.tick →
    Answers .attachTimeout s fun t => t.twin.st = .detached ∧ t.twin.cause = 5 ∧ Only [.twin, .fw, .fab] s t) ∧
  (∀ (s : State) (l : List MirrorEntry), s.twin.st = .attached ∨ s.twin.st = .leaving →
    Answers (.mirrorReceive l) s fun t =>
      let m := l.foldl mergeEntry { s.twin.mirror.getD Mirror.empty with armed := [] }
      t.twin.mirror = some m ∧ t.twin.mirrorDone = true ∧ t.twin.st = s.twin.st ∧
      (∀ k ∈ mirrorKeys m, tget t.twin.peer k = some (tgetD m.gens k 0)) ∧ t.obj = { s.obj with gens := t.obj.gens } ∧
      Only [.twin, .obj] s t) ∧
  (∀ (s : State) (move : Bool), bar0Ok s = true → s.twin.st = .attached →
    Answers (.slvDetach move false) s fun t => t.twin.st = .leaving ∧ t.twin.move = move ∧ t.twin.leaveMove = move ∧ t.twin.leaver = true ∧
      t.twin.leaveEdge = some (if isOpen s then s.hoop.tick + 1 else s.hoop.tick + 2) ∧
      t.twin.ctl = s.twin.ctl ++ [.detach move] ∧ Only [.twin, .fw, .fab] s t) ∧
  (∀ (s : State) (move : Bool), s.twin.st = .attached →
    Answers (.slvDetach move true) s fun t => t.twin.st = .leaving ∧ t.twin.leaver = false ∧ t.twin.ctl = s.twin.ctl ∧
      t.twin.leaveEdge = some (if isOpen s then s.hoop.tick + 1 else s.hoop.tick + 2) ∧
      (move = false → t.twin.takeovers = s.twin.takeovers) ∧
      (move = true → ∃ k ∈ t.twin.takeovers, t.twin.leaveEdge = some k.edge ∧ k.only = none) ∧
      Only [.twin, .acc, .fw, .fab] s t)

/-- A silent heartbeat or a FAILED message declares the partner failed and schedules a takeover of every context; a MOVE schedules
one of the contexts it names; a lost link detaches and watches the heartbeat, whose next change frees the partner's indices; a link
lost before the twins are attached trains again. -/
def Obligations.PartnerFailureSchedulesATakeover : Prop :=
  (∀ (s : State) (level : Bool), s.hoop.running = true → s.twin.hbSampled = false →
    let u := advance s (s.hoop.edge + 100)
    u.hoop.running = true → u.twin.hbSampled = false → u.flt.failed = false →
    (level ≠ u.twin.hbIn → u.twin.watch = false → exec (.heartbeatSample level) s =
      .next { u with twin := { u.twin with hbIn := level, hbSampled := true } }) ∧
    (level ≠ u.twin.hbIn → u.twin.watch = true → Answers (.heartbeatSample level) s fun t => t.twin.watch = false ∧
      t.twin.peer = [] ∧ t.twin.st = u.twin.st ∧ Only [.twin, .obj] u t) ∧
    (level = u.twin.hbIn → u.twin.st = .attached ∨ u.twin.st = .leaving ∨ u.twin.watch = true →
      Answers (.heartbeatSample level) s fun t => t.twin.st = .detached ∧ t.twin.cause = 4 ∧ t.twin.watch = false ∧
        (∃ k ∈ t.twin.takeovers, k.edge = takeoverEdge u ∧ k.only = none) ∧ Only [.twin, .acc, .fw, .fab] u t)) ∧
  (∀ s : State, s.twin.st = .attached ∨ s.twin.st = .leaving →
    (∀ l : List W32, Answers (.moveMessage l) s fun t => t.twin.st = s.twin.st ∧
      (s.twin.takeovers.any (fun k => k.edge == takeoverEdge s) = false →
        t.twin.takeovers = s.twin.takeovers ++ [{ edge := takeoverEdge s, only := some l }]) ∧ Only [.twin, .acc] s t) ∧
    (Answers .failedMessage s fun t => t.twin.st = .detached ∧ t.twin.cause = 4 ∧
      (∃ k ∈ t.twin.takeovers, k.edge = takeoverEdge s ∧ k.only = none) ∧ Only [.twin, .acc, .fw, .fab] s t) ∧
    (Answers .selvageLinkLost s fun t => t.twin.st = .detached ∧ t.twin.cause = 3 ∧ t.twin.lanes = 0 ∧ t.twin.watch = true ∧
      Only [.twin, .fw, .fab] s t)) ∧
  (∀ s : State, s.twin.st = .training ∨ s.twin.st = .handshake → Answers .selvageLinkLost s fun t =>
    t.twin.st = .training ∧ t.twin.lanes = 0 ∧ t.twin.training = true ∧ t.twin.retrying = false ∧ Only [.twin] s t)

/-- A monitor window ends: retries that lasted it are exhausted, the window counts or the fourth ends the period, and exactly the
quads of the units that trip go out of service. A unit named as stuck trips if it had work, made no progress and was held by no retry;
with no unit that trips, nothing else happens. -/
def Obligations.MonitorWindowsPutUnitsOutOfService : Prop :=
  ∀ (s : State) (stuck : List UnitRef), s.hoop.running = true → s.brd.inReset = false →
    let w := s.flt.window + 1
    let v := nocSettle (if 4 ≤ w then toSettle s else advance s (windowEnd s))
    let u := if 4 ≤ w then edge (exhaustRetries v) else nextWindow (exhaustRetries v) w
    let trips := tripped v stuck
    (trips = [] → exec (.monitorWindowEnd stuck) s = .next u) ∧
    (∀ x ∈ stuck, windowCounts v x = true → x ∈ trips) ∧
    (Answers (.monitorWindowEnd stuck) s fun t =>
      (∀ q, t.flt.oosQuads.testBit q = true ↔ u.flt.oosQuads.testBit q = true ∨
        ∃ x ∈ trips, (∃ k : Fin 64, x = .quad k ∧ k.val = q) ∨ ∃ k : Fin 16, x = .cluster k ∧ k.val = q / 4) ∧
      (∀ n : Fin 16, .media n ∈ trips → t.flt.oosUnits.testBit n.val = true) ∧
      (∀ l : Fin 8, .port l ∈ trips → t.flt.oosUnits.testBit (16 + l.val) = true ∧ hasLink t l.val = false) ∧
      (.device ∈ trips → t.flt.failed = true) ∧ t.hoop = u.hoop ∧ t.regs = u.regs)

/-- A request of the partner reads or writes this twin's memory past the stack tier; a replay is counted, and the eighth that fails
starts a retrain, as SELVAGE_RETRAIN does when none is in progress; training or a retrain in progress ends on four or eight lanes. -/
def Obligations.SelvageRequestsAndLink : Prop :=
  (∀ (s : State) (a : W64) (len : Nat) (data : List Byte) (found : Ecc), s.twin.st = .attached ∨ s.twin.st = .leaving →
    0 < len → a.toNat % 128 + len ≤ 128 → a.toNat + len ≤ hbmEnd →
    (groupByte s (groupOf a.toNat) < 128 ∨ (groupByte s (groupOf a.toNat)).testBit 6 = true) →
    IsOn s (115 + groupOf a.toNat / 2) → found ≠ .double →
    (Answers (.selvageRequest .write a len data found) s fun t =>
      t.fab.mem = mwrite s.fab.mem a.toNat (data.take len) ∧ t.twin.answer = .ack ∧ t.fab.lines = s.fab.lines ∧
      t.fab.host = s.fab.host ∧ Only [.fab, .twin] s t) ∧
    (Answers (.selvageRequest .read a len data found) s fun t => t.fab.mem = s.fab.mem ∧
      t.twin.answer = .data (mread s.fab.mem a.toNat len) ∧ t.fab.lines = s.fab.lines ∧ Only [.fab, .twin] s t)) ∧
  (∀ (s : State) (ok : Bool), s.twin.lanes ≠ 0 → Answers (.selvageReplay ok) s fun t =>
    t.twin.replays = min 0xFFFFFFFF (s.twin.replays + 1) ∧ t.twin.st = s.twin.st ∧ t.twin.lanes = s.twin.lanes ∧
    (ok = true → t.twin.retrying = s.twin.training ∧ t.twin.replayTries = 0 ∧ t.twin.retrains = s.twin.retrains) ∧
    (ok = false → s.twin.training = false → t.twin.retrying = true ∧
      (s.twin.replayTries < 7 → t.twin.replayTries = s.twin.replayTries + 1 ∧ t.twin.training = false ∧
        t.twin.retrains = s.twin.retrains) ∧
      (7 ≤ s.twin.replayTries → t.twin.training = true ∧ t.twin.retrains = min 0xFFFF (s.twin.retrains + 1))) ∧
    Only [.twin, .flt] s t) ∧
  (∀ s : State, s.twin.lanes ≠ 0 →
    (s.twin.training = false → Answers .selvageRetrain s fun t =>
      t.twin.retrains = min 0xFFFF (s.twin.retrains + 1) ∧ t.twin.retrying = true ∧ t.twin.training = true ∧
      t.twin.st = s.twin.st ∧ Only [.twin, .flt] s t) ∧
    (s.twin.training = true → exec .selvageRetrain s = .next s)) ∧
  (∀ (s : State) (n : Fin 9), n.val = 4 ∨ n.val = 8 →
    (s.twin.training = true → Answers (.selvageTrainingDone n) s fun t =>
      t.twin.lanes = n.val ∧ t.twin.retrying = false ∧ t.twin.training = false ∧
      t.twin.st = (if s.twin.st = .training then .handshake else s.twin.st) ∧ Only [.twin] s t) ∧
    (s.twin.training = false → exec (.selvageTrainingDone n) s = .next s))

/-! ## Translation (spec/04) -/

/-- A walk that completes at a leaf enters it in every TLB on its unit's path, at a non-present entry raises a fault request, and after
an invalidation walks again from the root; a fault record takes an identifier and goes to the ring; its answer frees the identifier,
or loses the context; an invalidation removes the ASID's translations, and its token is written when it is done. -/
def Obligations.WalksFaultsAndInvalidations : Prop :=
  (∀ (s : State) (id : Nat) (stall : Stall) (err : UnitErr) (x : Walk), tget s.mmu.walks id = some x → err ≠ .control →
    (x.again = true → exec (.pageWalkComplete ⟨id, err⟩ stall) s =
      .next { s with mmu := { s.mmu with walks := tset s.mmu.walks id { x with again := false, fromRoot := true } } }) ∧
    (x.again = false → (ctxOf s x.asid).isSome = true →
      let w := walkWho x
      let b := moves { s with mmu := { s.mmu with walks := tdel s.mmu.walks id } } (walkerUnit x.walker)
      let b := match w.slot with
        | some n => addStall b n .walker stall
        | none => b
      let path := tlbPath b x.site
      (∀ v size e, walk b x.walker x.fromRoot path x.asid x.va.toNat = (v, .leaf size e) →
        checkLeaf v w x.acc x.va.toNat size e ≠ .bad → Answers (.pageWalkComplete ⟨id, err⟩ stall) s fun t => t = v ∧
          tget t.mmu.walks id = none ∧ t.mmu.faults = s.mmu.faults ∧
          (∀ k ∈ path, ∃ y ∈ t.mmu.tlb, y.tlb = k ∧ y.asid = x.asid ∧ y.bitsz = size ∧ y.page = x.va.toNat / 2 ^ size ∧
            (y ∈ s.mmu.tlb ∨ y.leaf = BitVec.ofNat 64 e)) ∧ Only [.mmu, .car, .flt, .free] s t) ∧
      (∀ v n, walk b x.walker x.fromRoot path x.asid x.va.toNat = (v, .absent) → w.slot = some n →
        s.mmu.faults.any (sameRequest s w x.va.toNat) = false → Answers (.pageWalkComplete ⟨id, err⟩ stall) s fun t =>
          tget t.mmu.walks id = none ∧ Only [.mmu, .car, .flt, .free] s t ∧
          ∃ r, t.mmu.faults = s.mmu.faults ++ [r] ∧ r.fid = none ∧ r.handle = ctxHandle s x.asid ∧
            r.page = x.va.toNat / 65536 ∧ r.acc = x.acc ∧ r.unit = siteCode x.site ∧ r.slot = n ∧ r.written = false))) ∧
  (∀ (s : State) (f : Fin 64) (i : Nat) (r : FaultReq), nextFault s f.val = some i → s.mmu.faults[i]? = some r →
    let wrote (t : State) : Prop := (fnOf t f.val).faults.written = (fnOf s f.val).faults.written + 1 ∧
      t.mmu.faultsCnt = min 0xFFFFFFFF (s.mmu.faultsCnt + 1) ∧ (r.slot = 0xFF → t.mmu.faults = s.mmu.faults.eraseIdx i) ∧
      (r.slot ≠ 0xFF → ∃ k, freeFid s f.val = some k ∧ t.mmu.faults = s.mmu.faults.set i { r with fid := some k, written := true }) ∧
      Only [.fns, .fab, .mmu] s t
    ((faultSpace s f.val).2 = true → Answers (.faultRecordWrite f) s wrote) ∧
    (∀ b, (fnOf s f.val).faults.base = some b →
      (faultSpace (setFn s f.val { fnOf s f.val with faults := { (fnOf s f.val).faults with head := mnat s.fab.host b.toNat 4 } })
        f.val).2 = true → Answers (.faultHeadPoll f) s wrote)) ∧
  (∀ (s : State) (f : Fin 64) (fid : BitVec 16) (i : Nat) (r : FaultReq), bar2Ok s = true →
    s.mmu.faults.findIdx? (fun r => r.func == f.val && r.fid == some fid.toNat) = some i → s.mmu.faults[i]? = some r →
    exec (.faultRetry f fid) s = .next { s with mmu := { s.mmu with faults := s.mmu.faults.eraseIdx i } } ∧
    (∀ c x, lookup s.obj 1 r.handle = .ok c → ctxOf s c = some x → x.st = .active →
      Answers (.faultNotMapped f fid) s fun t => ctxOf t c = some { x with st := .lost, reason := 1 } ∧
        t.mmu.faults = s.mmu.faults.eraseIdx i ∧ Only lossParts s t)) ∧
  (∀ (s : State) (f : Fin 64) (h token : W32) (c : Nat) (x : Ctx), bar2Ok s = true → nameObj s 1 h.toNat = .ok c →
    ctxOf s c = some x → x.func = f.val →
    Answers (.mmuInval f h token) s fun t => (∀ e ∈ t.mmu.tlb, e.asid ≠ c) ∧ (∀ e ∈ t.mmu.walkCache, e.asid ≠ c) ∧
      (∀ e ∈ s.mmu.tlb, e.asid ≠ c → e ∈ t.mmu.tlb) ∧
      t.mmu.invals = s.mmu.invals ++ [{ func := f.val, asid := c, token := token, before := s.fab.nextTxn }] ∧ Only [.mmu] s t) ∧
  (∀ (s : State) (f : Fin 64) (i : Nat) (v : Inval), memOk s = true →
    s.mmu.invals.findIdx? (fun v => v.func == f.val) = some i → s.mmu.invals[i]? = some v →
    (s.fab.txns.any fun e => decide (e.1 < v.before) && e.2.asid == v.asid) = false →
    Answers (.invalDone f) s fun t => (fnOf t f.val).invalTok = v.token ∧ t.mmu.invals = s.mmu.invals.eraseIdx i ∧
      (∀ b, (fnOf s f.val).faults.base = some b → mread t.fab.host (b.toNat + 8) 4 = toLE 4 v.token.toNat) ∧
      Only [.mmu, .fns, .fab] s t)

/-! ## Submission (spec/05) -/

/-- R136: the tests of a doorbell in their order, the first that applies deciding. -/
def Obligations.DoorbellsAreTestedInOrder : Prop :=
  ∀ (s : State) (f : Fin 64) (q : Fin 8192) (x : Queue) (off size : Nat) (v : W64), bar2Ok s = true →
    tget s.obj.queues q.val = some x → x.func = f.val → off < 8 →
    let new : W32 := BitVec.ofNat 32 (bits v 31 0)
    exec (.qDoorbell f q off size v) s = .next (
      if ¬ (off = 0 ∧ size = 8) then { s with fe := { s.fe with dbBad := min 0xFFF (s.fe.dbBad + 1) } }
      else if bits v 47 32 ≠ genOf s.obj 2 q.val then { s with fe := { s.fe with dbStale := min 0xFFF (s.fe.dbStale + 1) } }
      else if x.st = .draining then s
      else if (new.toNat + 2 ^ 32 - x.tail.toNat) % 2 ^ 32 = 0 then s
      else if 2 ^ 31 ≤ (new.toNat + 2 ^ 32 - x.tail.toNat) % 2 ^ 32 then
        { s with fe := { s.fe with dbBack := min 0xFFF (s.fe.dbBack + 1) } }
      else if x.entries < (new.toNat + 2 ^ 32 - x.retired.toNat) % 2 ^ 32 then
        { s with fe := { s.fe with dbOver := min 0xFFF (s.fe.dbOver + 1) } }
      else setQueue s q.val { x with tail := new })

/-- RETRY and SKIP wait on a HALTED queue, and take effect once nothing of it is in flight. A fetcher takes the next descriptor of the
queue it chooses; a taken descriptor that nothing holds is armed, with its WAITCH token, and one that is held waits (R137, R140,
R141, R146, R148, R158). -/
def Obligations.QueuesResumeTakeAndArm : Prop :=
  (∀ (s : State) (f : Fin 64) (q : Fin 8192) (x : Queue) (gen : BitVec 16), bar2Ok s = true →
    tget s.obj.queues q.val = some x → x.func = f.val → gen.toNat = genOf s.obj 2 q.val → x.st = .halted →
    exec (.qResumeRetry f q 8 8 gen) s = .next (setQueue s q.val { x with resume := some 1 }) ∧
    exec (.qResumeSkip f q 8 8 gen) s = .next (setQueue s q.val { x with resume := some 2 })) ∧
  (∀ (s : State) (q : Fin 8193) (x : Queue) (a : Nat), getQ s q.val = some x → x.resume = some a → x.st = .halted →
    x.recs.any (inFlight x) = false →
    Answers (.queueResumeEffect q) s fun t => ∃ y, getQ t q.val = some y ∧ y.st = .active ∧ y.resume = none ∧ y.haltStatus = 0 ∧
      y.tail = x.tail ∧ (a = 1 → y.retired = x.retired ∧
        ∀ d, d ∈ y.recs ↔ d ∈ x.recs ∧ (isDone d = true ∨ ringDist x d.idx < ringDist x x.haltIdx)) ∧
      (a ≠ 1 → ∀ d, recOf y x.haltIdx = some d → d.stage = .ended 0) ∧
      (∀ m, m ≠ q.val → tget t.obj.queues m = tget s.obj.queues m) ∧ Only [.obj, .fe] s t) ∧
  (∀ (s u : State) (f : Fetcher) (q : Nat) (x : Queue) (w : W512), fetcherReady s f = true → chooseQueue s f = some q →
    (∀ d ∈ fetcherDoms f, IsOn s d) → getQ s q = some x → ctxActive s x.ctx = true →
    readDesc s q x (nextIndex x) = (u, some w) →
    Answers (.descriptorTake f) s fun t => ∃ y d, getQ t q = some y ∧ recOf y (nextIndex x) = some d ∧ d.stage = .taken ∧
      d.words = w ∧ y.tail = x.tail ∧ y.retired = x.retired ∧ y.st = x.st ∧ (x.rt = false → d.be = true) ∧
      (x.rt = true → d.be = true → y.demoted = true) ∧
      (∀ m, m ≠ q → tget t.obj.queues m = tget s.obj.queues m) ∧ Only [.obj, .mmu, .fab, .fe, .free] s t) ∧
  (∀ (s : State) (q : Fin 8193) (i : W32) (x : Queue) (d : Desc), getQ s q.val = some x → recOf x i = some d → d.stage = .taken →
    let earlier := x.recs.takeWhile fun e => e.idx ≠ i
    (earlier.any fun e => e.stage = .taken) = false →
    let held : Bool := (heldList (tokensOf x) earlier false false).any (·.2) || (bit d.words 10 && !d.token && tokensOf x == 0) ||
      (bit d.words 11 && earlier.any fun e => !isEnded e)
    (held = true → Answers (.descriptorArm q i) s fun t => ∃ y e, getQ t q.val = some y ∧ recOf y i = some e ∧
      e = { d with stage := .held } ∧ y.tokens = x.tokens ∧ Only [.obj] s t) ∧
    (held = false → knownOp (bits d.words 7 0) = true → armChecked (bits d.words 7 0) = false →
      Answers (.descriptorArm q i) s fun t => ∃ y e, getQ t q.val = some y ∧ recOf y i = some e ∧ e.stage = .armed ∧
        e.words = d.words ∧ (bit d.words 10 = true → e.token = true) ∧
        y.tokens = (if bit d.words 10 && !d.token then x.tokens - 1 else x.tokens) ∧ Only [.obj] s t))

/-- NOP, WAIT, SIGNAL, WAIT_TICK and BUDGET, once they may start, complete with status OK, a descriptor whose slot holds dirty lines
after the clean that it starts; a SIGNAL gives its value to the fence first; a node's WAIT registers (R143, R147 to R149, R155). -/
def Obligations.ControlWorkEnds : Prop :=
  (∀ (s u : State) (w : Work) (x : Queue) (p : W512) (be : Bool),
    beginWork s w.q.val w.i (w.node.map (·.val)) 0x00 = (u, .go x p be) → Answers (.nop w) s (EndedOk w x u s)) ∧
  (∀ (s u : State) (w : Work) (x : Queue) (p : W512) (be : Bool) (f : Nat) (y : Fence),
    beginWork s w.q.val w.i (w.node.map (·.val)) 0x02 = (u, .go x p be) → fenceFor u x.ctx (bits p 159 128) = some f →
    tget u.obj.fences f = some y →
    Answers (.signal w) s fun t => EndedOk w x u s t ∧ (x.fence = 0 ∨ w.node.isSome = true →
      tget t.obj.fences f = some (fenceAfter y [BitVec.ofNat 64 (bits p 255 192)]))) ∧
  (∀ (s u : State) (q : Fin 8193) (i : W32) (x : Queue) (p : W512) (be : Bool), isOpen s = true →
    (getQ s q.val).any (fun x => x.st = .active) = true → beginWork s q.val i none 0x01 = (u, .go x p be) →
    Answers (.wait ⟨q, i, none⟩) s (EndedOk ⟨q, i, none⟩ x u s)) ∧
  (∀ (s u : State) (q : Fin 8193) (i : W32) (k : Fin 4096) (x : Queue) (p : W512) (be : Bool) (f : Nat) (y : Fence),
    (∀ l n, launchOf s q.val i = some l → tget l.nodes k.val = some n → n.d.stage ≠ .held) →
    beginWork s q.val i (some k.val) 0x01 = (u, .go x p be) → fenceFor u x.ctx (bits p 159 128) = some f →
    tget u.obj.fences f = some y →
    Answers (.wait ⟨q, i, some k⟩) s (WorkAt ⟨q, i, some k⟩ (if y.lost then .finished 0x12
      else if atOrLater y.value (BitVec.ofNat 64 (bits p 255 192)) then .finished 0 else .held))) ∧
  (∀ (s : State) (q : Fin 8193) (i : W32) (x : Queue) (d : Desc), getQ s q.val = some x → recOf x i = some d → d.stage = .armed →
    dOp d = 3 → d.due = true → isOpen s = true → x.st = .active → ¬ (x.cls < 3 ∧ (queueSlot s q.val x).isNone = true) →
    Answers (.waitTick q i) s (EndedOk ⟨q, i, none⟩ x s s)) ∧
  (∀ (s u : State) (q : Fin 8193) (i : W32) (x : Queue) (p : W512) (be : Bool),
    beginWork s q.val i none 0x04 = (u, .go x p be) → Answers (.budget q i) s (EndedOk ⟨q, i, none⟩ x u s))

/-- COPY and FILL move their bytes and are finished; a KERNEL and a saved continuation become a run of their blocks; a GRAPH_LAUNCH
takes its graph's current slot and counts it in flight, reads NPRED of its nodes and makes the roots ready (R100, R101, R153,
R231, R232, R236). -/
def Obligations.WorkStartsInItsUnit : Prop :=
  (∀ (s u v z : State) (w : Work) (x : Queue) (p : W512) (be : Bool) (src dst : List (Tr × Nat)),
    beginWork s w.q.val w.i (w.node.map (·.val)) 0x30 = (u, .go x p be) →
    reach u (copyWho u w.q.val x) .read (bits p 191 128) (bits p 295 256) = (v, some src) →
    reach v (copyWho u w.q.val x) .write (bits p 255 192) (bits p 295 256) = (z, some dst) →
    Answers (.copy w) s fun t => WorkAt w (.finished 0) t ∧
      t.fab = (copyLoop (copyWho u w.q.val x) (bits p 295 256) z src dst).fab ∧ Only [.obj, .mmu, .fab, .free] s t) ∧
  (∀ (s u v : State) (w : Work) (x : Queue) (p : W512) (be : Bool),
    beginWork s w.q.val w.i (w.node.map (·.val)) 0x31 = (u, .go x p be) →
    vwrite u (copyWho u w.q.val x) (bits p 191 128) (fillBytes (bits p 255 192) (bits p 295 256)) = (v, true) →
    Answers (.fill w) s fun t => WorkAt w (.finished 0) t ∧ t.fab = v.fab ∧ Only [.obj, .mmu, .fab, .free] s t) ∧
  (∀ (s u : State) (w : Work) (x : Queue) (p : W512) (be : Bool) (n : Nat),
    beginWork s w.q.val w.i (w.node.map (·.val)) 0x10 = (u, .go x p be) → queueSlot u w.q.val x = some n →
    eligibleCores u n (x.rt && !be) ≠ [] →
    (bit p 255 = false → Answers (.kernel w) s fun t => ∃ r, tget t.cores.runs s.cores.nextId = some r ∧
      WorkAt w .started t ∧ t.cores.nextId = s.cores.nextId + 1 ∧
      r.q = w.q.val ∧ r.i = w.i ∧ r.slot = n ∧ r.ctx = x.ctx ∧ r.next = 0 ∧
      r.total = clamp 1 65535 (bits p 207 192) * clamp 1 65535 (bits p 223 208) * clamp 1 65535 (bits p 239 224) ∧
      r.entry = BitVec.ofNat 64 (bits p 191 128) ∧ r.regs = clamp 8 255 (bits p 279 272) ∧
      Only [.obj, .mmu, .fab, .free, .cores] s t) ∧
    (∀ v b, bit p 255 = true →
      vread u (feWho u w.q.val x) (bits p 191 128) (64 * (eligibleCores u n (x.rt && !be)).length) = (v, some b) →
      let recs := gridRecs b (eligibleCores u n (x.rt && !be)).length
      (gridBad recs = true → Answers (.kernel w) s (WorkEnded w 0x11 s)) ∧
      (gridBad recs = false → (recs.any fun e => bits e 63 0 != 0) = false → Answers (.kernel w) s (WorkAt w (.finished 0))) ∧
      (gridBad recs = false → (recs.any fun e => bits e 63 0 != 0) = true → Answers (.kernel w) s fun t =>
        ∃ r, tget t.cores.runs s.cores.nextId = some r ∧ WorkAt w .started t ∧
          r.mode1 = true ∧ r.total = (recs.filter fun e => bits e 63 0 != 0).length ∧ r.next = 0))) ∧
  (∀ (s : State) (q : Fin 8193) (x : Queue) (d : Desc) (n : Nat), getQ s q.val = some x → suspendedRec x = some d →
    mayContinue s q.val x = true → queueSlot s q.val x = some n → eligibleCores s n (x.rt && !x.demoted) ≠ [] →
    let p := contWord d.pay
    (x.rt = true → (costOf p).any (·.rt) = true) → payloadBad s x p = false → bit p 255 = false →
    eligibleCores s n (x.rt && !(charge x d.idx p).2.1) ≠ [] →
    Answers (.continuationLaunch q) s fun t => ∃ r, tget t.cores.runs s.cores.nextId = some r ∧
      WorkAt ⟨q, d.idx, none⟩ .started t ∧ r.q = q.val ∧ r.i = d.idx ∧ r.node = none ∧ r.slot = n ∧ r.next = 0 ∧
      r.entry = BitVec.ofNat 64 (bits d.pay 191 128) ∧ Only [.obj, .cores] s t) ∧
  (∀ (s u : State) (q : Fin 8193) (i : W32) (x : Queue) (p : W512) (be : Bool) (g : Nat) (y : Graph),
    beginWork s q.val i none 0x11 = (u, .go x p be) → graphFor u x.ctx (bits p 159 128) = some g →
    tget u.obj.graphs g = some y → (launchOf s q.val i).isNone = true →
    (y.cur = none → Answers (.graphLaunch q i) s (Completed q.val i 0x13 s)) ∧
    (∀ b, y.cur = some b →
      let slot := if b then y.b else y.a
      let mid := markStarted (addLaunch u q.val i g y b) q.val i none
      slot.inflight < 255 → ∀ v r, readNpreds mid (feWho mid q.val x) slot.table.toNat slot.count 0 = (v, r) →
      (r = none → ctxActive v x.ctx = true) →
      Answers (.graphLaunch q i) s fun t => ∃ l z, launchOf t q.val i = some l ∧ l.graph = g ∧ l.slotB = b ∧ l.table = slot.table ∧
        l.count = slot.count ∧ tget t.obj.graphs g = some z ∧ (if b then z.b else z.a).inflight = slot.inflight + 1 ∧
        (r = none → l.read = false ∧ WorkAt ⟨q, i, none⟩ .started t) ∧
        (∀ np, r = some np → l.read = true ∧ l.nodes.length = slot.count ∧
          (∀ k n, tget l.nodes k = some n → (n.npred = 0 → n.d.stage = .armed) ∧ n.arrivals = 0 ∧ np[k]? = some n.npred) ∧
          (np.contains 0 = true → WorkAt ⟨q, i, none⟩ .started t) ∧
          (np.contains 0 = false → WorkAt ⟨q, i, none⟩ (.finished (if np = [] then 0 else 0x13)) t)) ∧
        (r ≠ none → Only [.obj, .mmu, .fab, .free] s t)))

/-- DESCRIPTOR_COMPLETE ends a descriptor whose unit has finished with that unit's status; GRAPH_NODE_COMPLETE ends a node, with OK
delivering one arrival to each successor, else failing its launch. Either waits for a clean that its OK makes necessary, and ends
once that has ended (R101, R151, R204). -/
def Obligations.CompletionsEndWork : Prop :=
  (∀ (s : State) (q : Fin 8193) (i : W32) (x : Queue) (d : Desc), getQ s q.val = some x → recOf x i = some d →
    (∀ st, d.stage = .finished st ∧ (st ≠ 0 ∨ (queueSlot s q.val x).any (mustClean s) = false) ∨ d.stage = .cleaned ∧ st = 0 →
      Answers (.descriptorComplete q i) s fun t => Completed q.val i st s t ∧ launchOf t q.val i = none ∧
        (∀ e ∈ t.cores.runs, ¬ (e.2.q = q.val ∧ e.2.i = i)) ∧ t.hoop = s.hoop ∧ t.regs = s.regs) ∧
    (∀ n, d.stage = .finished 0 → queueSlot s q.val x = some n → mustClean s n = true →
      Answers (.descriptorComplete q i) s fun t => WorkAt ⟨q, i, none⟩ .cleaning t ∧ t.fab.cleans.contains n = true ∧
        hasDirty t n = false ∧ launchOf t q.val i = none ∧ t.hoop = s.hoop ∧ t.regs = s.regs)) ∧
  (∀ (s : State) (q : Fin 8193) (i : W32) (k : Fin 4096) (x : Queue) (l : Launch) (n : Node), getQ s q.val = some x →
    launchOf s q.val i = some l → tget l.nodes k.val = some n →
    (∀ u succ, n.d.stage = .finished 0 ∧ (queueSlot s q.val x).any (mustClean s) = false ∨ n.d.stage = .cleaned →
      n.npred ≤ n.arrivals → readSuccs s (feWho s q.val x) (nodeAt l k.val) = (u, some succ) →
      Answers (.graphNodeComplete q i k) s fun t => WorkAt ⟨q, i, some k⟩ (.ended 0) t ∧
        (∀ m o, m ≠ k.val → tget l.nodes m = some o → succ.count m = 1 → o.arrivals < o.npred →
          ∃ l' o', launchOf t q.val i = some l' ∧ tget l'.nodes m = some o' ∧ o'.arrivals = o.arrivals + 1 ∧
            (o.arrivals + 1 = o.npred → l'.fail = none → o'.d.stage = .armed))) ∧
    (∀ c, n.d.stage = .finished 0 → queueSlot s q.val x = some c → mustClean s c = true →
      Answers (.graphNodeComplete q i k) s fun t => WorkAt ⟨q, i, some k⟩ .cleaning t ∧ t.fab.cleans.contains c = true ∧
        hasDirty t c = false ∧ Only [.obj, .fab] s t) ∧
    (∀ st, n.d.stage = .finished st → st ≠ 0 → Answers (.graphNodeComplete q i k) s fun t =>
      WorkAt ⟨q, i, some k⟩ (.ended st) t ∧ (∀ l', launchOf t q.val i = some l' → l'.fail.isSome = true ∧
        (l.fail = none → l'.fail = some st)) ∧ Only [.obj] s t))

/-- A write to the Acvik window in its order adds a word, and the sixteenth a descriptor; in the margin it is held; ENABLE begins a
descriptor; RETRY and SKIP resume the halted window queue (R164 to R168). -/
def Obligations.AcvikWindowAssemblesDescriptors : Prop :=
  (∀ (s : State) (off size : Nat) (v : W64), bar0Ok s = true → s.hoop.phase ≠ .drain → s.hoop.phase ≠ .settle →
    winCtx s ≠ 4096 → s.fe.acv.enable = true → accPending s = false → size = 4 → off = 4 * s.fe.acv.nextWord →
    s.fe.acv.words < 512 → (s.fe.acv.nextWord % 16 = 0 → s.fe.acv.ring.length < 32) →
    Answers (.feAcvWinWrite off size v) s fun t => t.fe.acv.nextWord = (s.fe.acv.nextWord + 1) % 512 ∧
      t.fe.acv.words = s.fe.acv.words + 1 ∧
      (s.fe.acv.nextWord % 16 ≠ 15 → t.fe.acv.partWords = s.fe.acv.partWords ++ [BitVec.ofNat 32 v.toNat] ∧
        t.fe.acv.ring = s.fe.acv.ring ∧ t.obj = s.obj) ∧
      (s.fe.acv.nextWord % 16 = 15 → s.fe.acv.partWords.length = 15 → t.fe.acv.partWords = [] ∧
        t.fe.acv.ring.length = s.fe.acv.ring.length + 1 ∧
        ∀ x y, getQ s winKey = some x → getQ t winKey = some y → y.tail = x.tail + 1) ∧ Only [.fe, .obj] s t) ∧
  (∀ (s : State) (off size : Nat) (v : W64), bar0Ok s = true → s.hoop.phase = .drain ∨ s.hoop.phase = .settle →
    s.fe.acv.heldWrites.length < 512 → exec (.feAcvWinWrite off size v) s = .next { s with fe := { s.fe with
      acv := { s.fe.acv with heldWrites := s.fe.acv.heldWrites ++ [(off, size, v)] } } }) ∧
  (∀ s : State, bar0Ok s = true → s.fe.acv.enable = false → exec .feAcvEnable s = .next { s with fe := { s.fe with
      acv := { s.fe.acv with enable := true, nextWord := 0, partWords := [] } } }) ∧
  (∀ (s : State) (x : Queue), bar0Ok s = true → getQ s winKey = some x → x.st = .halted →
    exec .feAcvResumeRetry s = .next (setQueue s winKey { x with resume := some 1 }) ∧
    exec .feAcvResumeSkip s = .next (setQueue s winKey { x with resume := some 2 }))

/-! ## Carrels and the fabric (spec/06, spec/07) -/

/-- A switch saves its outgoing image through the outgoing context's translation, loads the incoming one and ends, or goes on
without the image of a lost context, or waits for an absent page; firmware writes the slow-down record of each slot that a function
sees. That RESULT reads 0 and 1 while the switch goes on, and 2 after two losses, is the model's choice (log 119; R179, R182, R188). -/
def Obligations.SwitchesMoveImages : Prop :=
  (∀ (s : State) (n : Fin 48), (carOf s n.val).phase = .saving →
    let loads (t : State) (result : Nat) : Prop := (carOf t n.val).phase = .loading ∧ (carOf t n.val).result = result ∧
      (carOf t n.val).outImage = [] ∧ ∀ m, m ≠ n.val → carOf t m = carOf s m
    ((carOf s n.val).outImage = [] → Answers (.switchSaveDone n) s fun t => loads t 0 ∧ Only [.car, .cores, .fab, .fw] s t) ∧
    ((carOf s n.val).outImage ≠ [] → imageCtx s (carOf s n.val).outCtx.toNat = none →
      Answers (.switchSaveDone n) s fun t => loads t 1 ∧ Only [.car, .cores, .fab, .fw] s t) ∧
    (∀ c u ok, (carOf s n.val).outImage ≠ [] → imageCtx s (carOf s n.val).outCtx.toNat = some c →
      vwrite s (imageWho c n.val) (carOf s n.val).saveAddr.toNat (carOf s n.val).outImage = (u, ok) →
      (ok = true → Answers (.switchSaveDone n) s fun t => loads t 0 ∧ Only [.car, .cores, .fab, .fw, .mmu, .free] s t) ∧
      (ok = false → imageCtx u (carOf s n.val).outCtx.toNat = none → Answers (.switchSaveDone n) s fun t => loads t 1) ∧
      (ok = false → (imageCtx u (carOf s n.val).outCtx.toNat).isSome = true → exec (.switchSaveDone n) s = .next u))) ∧
  (∀ (s : State) (n : Fin 48), (carOf s n.val).phase = .loading →
    let skip : Prop := (carOf s n.val).loadAddr = 0 ∨ (carOf s n.val).inImage = []
    let ends (t : State) (result : Nat) : Prop := (carOf t n.val).phase = .idle ∧ (carOf t n.val).result = result ∧
      (carOf t n.val).inImage = [] ∧ (carOf t n.val).lastUs = cdiv (s.hoop.time - (carOf s n.val).start) 100 % 2 ^ 32 ∧
      ∀ m, m ≠ n.val → carOf t m = carOf s m
    (skip → Answers (.switchLoadDone n) s fun t => ends t (carOf s n.val).result ∧ Only [.car, .fab, .fw] s t) ∧
    (¬ skip → imageCtx s (slotOwner s n.val) = none → Answers (.switchLoadDone n) s fun t =>
      ends t 2 ∧ Only [.car, .fab, .fw] s t) ∧
    (∀ c u r, ¬ skip → imageCtx s (slotOwner s n.val) = some c →
      vread s (imageWho c n.val) (carOf s n.val).loadAddr.toNat (partsBytes (carOf s n.val).inImage) = (u, r) →
      (r.isSome = true → Answers (.switchLoadDone n) s fun t => ends t (carOf s n.val).result ∧
        Only [.car, .cores, .fab, .fw, .mmu, .free] s t) ∧
      (r = none → imageCtx u (slotOwner u n.val) = none → Answers (.switchLoadDone n) s fun t => ends t 2) ∧
      (r = none → (imageCtx u (slotOwner u n.val)).isSome = true → exec (.switchLoadDone n) s = .next u))) ∧
  (∀ (s : State) (f : Fin 64) (a : W64), memOk s = true → s.fw.running = true → (fnOf s f.val).slow = some a →
    Answers (.slowTableWrite f) s fun t =>
      (∀ n, n < 48 → hasSlot s n = true → f.val = 0 ∨ slotGrant s n = f.val →
        mread t.fab.host (a.toNat + 32 * n) 32 = toLE 32 (slowWord (carOf s n))) ∧
      (∀ b, b < a.toNat ∨ a.toNat + 1536 ≤ b → mget t.fab.host b = mget s.fab.host b) ∧ Only [.fab] s t)

/-- A transaction takes an entry of its share, or waits until one returns; its response, once the request has crossed the mesh, gives
the entry back and moves its bytes: through HBM, the stack tier or host memory, or with the partner's data. An error that its issuer
bears alone moves nothing, and that of a lost context is not performed (R195 to R198, R107, R467, R75). -/
def Obligations.TransactionsMoveBytes : Prop :=
  (∀ (s : State) (r : TxnReq), txnOk r = true → shareOk s r.issuer r.share = true → capOf s (shareKey r.share) ≠ 0 →
    s.brd.inReset = false → s.pwr.inS3 = false →
    let k := shareKey r.share
    let u : State := match stallSlot r.issuer with
      | some n => addStall s n .router r.stall
      | none => s
    ∀ v space addr, routeOf u r = (v, .go space addr) → (∀ d ∈ routeDoms v space addr, IsOn v d) →
      Answers (.transactionIssue r) s fun t => ∃ x, tget t.fab.txns s.fab.nextTxn = some x ∧ x.share = k ∧ x.kind = r.kind ∧
        x.space = space ∧ x.addr = addr ∧ x.len = r.len ∧ x.data = r.data ∧ x.tries = 0 ∧ x.lost = false ∧
        t.fab.nextTxn = s.fab.nextTxn + 1 ∧ t.fab.mem = s.fab.mem ∧ t.fab.host = s.fab.host ∧
        ((∀ e ∈ s.fab.txns, e.2.share = k → e.2.entry = true) → x.entry = shareFree s k ∧
          tgetD t.fab.shares k 0 = tgetD s.fab.shares k 0 + (if shareFree s k then 1 else 0)) ∧
        Only [.fab, .car, .mmu, .free] s t) ∧
  (∀ (s : State) (id : Nat) (x : Txn), let u := nocSettle s
    tget u.fab.txns id = some x → x.entry = true → atTarget x = true → txnBlocked u id x = false →
    let gone (t : State) : Prop := tget t.fab.txns id = none
    let stores (m : Mem) : Mem := if x.kind = .write ∨ x.kind = .atomic then
      x.more.foldl (fun m w => mwrite m w.1 w.2) (mwrite m x.addr x.data) else m
    (x.lost = true → ∀ r, (∀ d, r ≠ .control d) → exec (.transactionResponse id r) s = .next (arrived u id x) ∧
      gone (arrived u id x)) ∧
    (x.lost = false →
      (x.space = .mem → Answers (.transactionResponse id .ok) s fun t => gone t ∧ t.fab.mem = stores s.fab.mem ∧
        t.fab.lastRead = (if x.kind = .write then s.fab.lastRead else mread s.fab.mem x.addr x.len) ∧
        t.fab.host = s.fab.host ∧ Only [.fab, .flt, .bus] s t) ∧
      (x.space = .host → Answers (.transactionResponse id .ok) s fun t => gone t ∧ t.fab.host = stores s.fab.host ∧
        t.fab.lastRead = (if x.kind = .write then s.fab.lastRead else mread s.fab.host x.addr x.len) ∧
        t.fab.mem = s.fab.mem ∧ Only [.fab, .flt, .bus] s t) ∧
      (∀ n, x.space = .tier n → x.kind = .read → Answers (.transactionResponse id .ok) s fun t => gone t ∧
        t.fab.lastRead = (tierRead n (x.len / 128 + 2) (arrived u id x) x.addr x.len).2 ∧ t.fab.host = s.fab.host ∧
        Only [.fab, .flt, .bus] s t) ∧
      (∀ l, x.space = .twin → x.kind ≠ .write → Answers (.transactionResponse id (.twinData l)) s fun t =>
        gone t ∧ t.fab.lastRead = l.take x.len ∧ t.fab.mem = s.fab.mem ∧ Only [.fab, .flt, .bus] s t) ∧
      (x.space = .twin → x.kind = .write → exec (.transactionResponse id .ok) s = .next (arrived u id x)) ∧
      (x.space = .host → x.asid = 4096 → exec (.transactionResponse id .hostError) s = .next (arrived u id x)) ∧
      (∀ z, x.space = .host → x.kind ≠ .write → tget s.fab.txns id = some z → z.space = .host → z.kind ≠ .write →
        (x.asid = 4096 → exec (.pcieCompletionTimeout id) s = .next (arrived u id x)) ∧
        (∀ y, x.asid ≠ 4096 → ctxOf s x.asid = some y → y.st = .active → Answers (.pcieCompletionTimeout id) s fun t =>
          gone t ∧ ctxOf t x.asid = some { y with st := .lost, reason := 1 } ∧ Only (.flt :: .bus :: lossParts) s t))))

/-- Scrubs step through their memories and count or log what they find; a parity retry is counted up to its eighth; CLEAN_DONE ends a
slot's clean, and what waited for it may go on. That the HBM scrub does not count what it cannot correct is the model's choice (log
112; R204, R208, R217, R218). -/
def Obligations.ScrubsRetriesAndCleans : Prop :=
  (∀ (s : State) (k : Fin 16) (found : Ecc), hasCluster s k.val = true →
    let ways := (List.range 16).filter fun w => decide (128 ≤ wayByte s k.val w)
    ways ≠ [] → Answers (.stackScrub k found) s fun t =>
      tget t.fab.stkScrub k.val = some (tgetD s.fab.stkScrub k.val 0 % (ways.length * 65536) + 1) ∧
      (found = .clean → eccOf t k.val = eccOf s k.val) ∧
      (found = .single → eccOf t k.val = { eccOf s k.val with corrected := min 0xFFFF ((eccOf s k.val).corrected + 1) }) ∧
      (found = .double → (eccOf t k.val).uncorrected = (eccOf s k.val).uncorrected ∧ (eccOf t k.val).lastWay ∈ ways) ∧
      t.fab.mem = s.fab.mem ∧ t.fab.lines = s.fab.lines ∧ Only [.fab] s t) ∧
  (∀ (s : State) (n : Fin 8) (found : Ecc), Answers (.hbmScrub n found) s fun t =>
    (hbmOf t n.val).scrubAt = ((hbmOf s n.val).scrubAt + 1) % 0x24000000 ∧
    (found = .single → (hbmOf t n.val).corrected = min 0xFFFF ((hbmOf s n.val).corrected + 1)) ∧
    (found ≠ .single → (hbmOf t n.val).corrected = (hbmOf s n.val).corrected) ∧
    (hbmOf t n.val).uncorrected = (hbmOf s n.val).uncorrected ∧ t.fab.mem = s.fab.mem ∧ Only [.fab] s t) ∧
  (∀ (s : State) (n : Fin 8) (id : Nat) (x : Txn), tget s.fab.txns id = some x → atHbm x n.val = true → x.tries < 8 →
    Answers (.hbmParityRetry n id) s fun t =>
      tget t.fab.txns id = some { x with tries := x.tries + 1, since := if x.tries = 0 then s.flt.windows else x.since } ∧
      hbmOf t n.val = { hbmOf s n.val with retried := min 0xFFFF ((hbmOf s n.val).retried + 1) } ∧
      t.fab.mem = s.fab.mem ∧ Only [.fab, .flt] s t) ∧
  (∀ (s : State) (n : Fin 48),
    (s.fab.cleans.contains n.val = false → exec (.cleanDone n) s = .next s) ∧
    (s.fab.cleans.contains n.val = true → Answers (.cleanDone n) s fun t =>
      t.fab = { s.fab with cleans := s.fab.cleans.erase n.val } ∧ Only [.fab, .cores, .obj] s t ∧
      (∀ (q : Fin 8193) x, getQ s q.val = some x → queueSlot s q.val x = some n.val →
        ∃ y, getQ t q.val = some y ∧ y.recs = x.recs.map cleanedDesc) ∧
      (∀ q x, tget s.obj.queues q = some x → q ≠ winKey → queueSlot s q x ≠ some n.val → tget t.obj.queues q = some x) ∧
      (∀ k g b, tget s.cores.groups k = some g → tget s.cores.blocks g.block = some b → tget t.cores.groups k =
        some (if slotOfBlock s b = n.val then { g with subs := g.subs.map cleanedSub } else g))))

/-! ## Thread groups (spec/08, spec/10) -/

/-- INT, FP32, PACKED, CONV, TRANS, LANE and SR give each active lane's register its value, computed from the lanes' registers before
the instruction; a register at or above REGS takes nothing; no other lane, register, group or part changes, but that the quad is
seen to move on (R223, R225, R226, R229, R238, R242). -/
def Obligations.LaneInstructionsWriteTheirRegister : Prop :=
  ∀ (s : State) (r : SgRef) (i : Iss), issue s r = some i →
    let x (l : Nat) (k : Reg) : W32 := rd i.g l k.val
    let gets (c : Instr) (d : Reg) (n : Nat) (f : Nat → Nat) : Prop :=
      Answers c s fun t => ∃ g, Wrote i d.val n f g ∧ t = setGroup (went s i) i.key g
    (∀ op d a b c, gets (.int r op d a b c) d 1 fun l => (intOp op (x l a) (x l b) (x l c)).toNat) ∧
    (∀ op d a b c, gets (.fp32 r op d a b c) d 1 fun l => fpOp ffFp32 op (x l a).toNat (x l b).toNat (x l c).toNat) ∧
    (∀ bf op d a b c, gets (.packed r bf op d a b c) d 1 fun l => pkOp bf op (x l a).toNat (x l b).toNat (x l c).toNat) ∧
    (∀ src dst d a scale rtz sat, convForm src dst = true → (scale.isSome = true → convScaled src dst = true) →
      gets (.conv r src dst d a scale rtz sat) d 1 fun l =>
        convOp src dst (scale.map fun k => (x l k).toNat) rtz sat (x l a).toNat) ∧
    (∀ op d a, gets (.trans r op d a) d 1 fun l => transOp op (x l a)) ∧
    (∀ d : Reg, ∀ e ∈ [(SReg.lane, 1, fun l => l), (.group, 1, fun _ => i.g.index), (.groups, 1, fun _ => i.b.ngroups),
        (.regs, 1, fun _ => i.g.nregs), (.localKib, 1, fun _ => i.b.lmKib), (.blockX, 1, fun _ => i.b.bx),
        (.blockY, 1, fun _ => i.b.byy), (.blockZ, 1, fun _ => i.b.bz), (.crank, 1, fun _ => i.b.rank),
        (.csize, 1, fun _ => i.b.csize), (.rank, 1, fun _ => i.b.erank), (.core, 1, fun _ => r.core.val),
        (.arg, 2, fun _ => i.b.arg.toNat), (.lmBase, 1, fun _ => i.b.lmBase * 1024), (.slot, 1, fun _ => slotOfBlock s i.b),
        (.tick, 2, fun _ => s.hoop.tick), (.time, 2, fun _ => s.hoop.time),
        (.closing, 1, fun _ => if s.hoop.phase = .drain ∨ s.hoop.phase = .settle then 1 else 0)],
      gets (.sr r e.1 d) d e.2.1 e.2.2) ∧
    (∀ (d : Reg) (p ord blk : Nat) (y : Pass), i.b.frag = some (p, ord, blk) → tget s.ras.passes p = some y →
      gets (.sr r .tileBase d) d 1 (fun _ => tileBase y ord * 1024) ∧
      gets (.sr r .tile d) d 1 fun _ => (tileXY y ord).1 + 65536 * (tileXY y ord).2) ∧
    (∀ (d : Reg), i.b.frag = none → ∀ e ∈ [SReg.tileBase, .tile], Answers (.sr r e d) s fun t =>
      (∃ g f, Wrote i d.val 1 f g ∧ t.cores = (setGroup s i.key g).cores) ∧ Only [.cores, .free, .flt] s t) ∧
    (∀ op d a b, gets (.lane r op d a b) d 1 fun l => (laneVal i op a.val b.val l).toNat)

/-- BRANCH splits the subgroup so that each active lane stands, ready, at its own target, a call leaving the return address in its
link pair; JOIN merges the subgroups that have arrived at its program counter once every lane of its mask has arrived or exited, and
else waits (R227, R228). -/
def Obligations.BranchesSplitAndJoinsMerge : Prop :=
  ∀ (s : State) (r : SgRef) (i : Iss), issue s r = some i →
    (∀ op : BrOp, Answers (.branch r op) s fun t => ∃ g l, t = setGroup (went s i) i.key g ∧
      g = { i.g with subs := l ++ i.rest, regs := g.regs } ∧
      (∀ k ∈ i.lanes, ∃ u ∈ l, bit u.mask k = true ∧ u.pc = brTarget i op k ∧ u.wait = .ready) ∧
      (∀ u ∈ l, ∀ k, bit u.mask k = true → k ∈ i.lanes ∧ u.pc = brTarget i op k) ∧
      match op with
      | .call _ d | .callReg _ d => ∀ k m, k < 32 → rd g k m =
          if k ∈ i.lanes ∧ d.val ≤ m ∧ m < d.val + 2 ∧ m < i.g.nregs then
            BitVec.ofNat 32 ((nextPc i.sub.pc).toNat / 2 ^ (32 * (m - d.val))) else rd i.g k m
      | _ => g.regs = i.g.regs) ∧
    (∀ m : W32, (∀ v ∈ i.rest, ∀ k, v.wait = .join k → v.pc = i.sub.pc) →
      (∀ l, l < 32 → bit m l = true → l ∈ i.lanes ∨ bit i.g.exited l = true ∨
        ∃ v ∈ i.rest, atJoin i.sub.pc v = true ∧ bit v.mask l = true) →
      Answers (.join r m) s fun t => ∃ j, j.pc = nextPc i.sub.pc ∧ j.wait = .ready ∧
        (∀ l, l < 32 → (bit j.mask l = true ↔ l ∈ i.lanes ∨ ∃ v ∈ i.rest, atJoin i.sub.pc v = true ∧ bit v.mask l = true)) ∧
        t = setGroup s i.key { i.g with subs := j :: i.rest.filter fun v => !atJoin i.sub.pc v }) ∧
    (∀ (m : W32) (l : Nat), (∀ v ∈ i.rest, ∀ k, v.wait ≠ .join k) → l < 32 → bit m l = true → l ∉ i.lanes →
      bit i.g.exited l = false →
      exec (.join r m) s = .next (setGroup s i.key { i.g with subs := { i.sub with wait := .join m } :: i.rest }))

/-- Loads, stores and atomics of a block's lanes: on its core's local memory (LM_ACCESS), on that of a peer in its cluster (LDC, STC,
ATC) and through translation (DEVICE_LOAD, DEVICE_STORE, ATOM). A store or atomic with a release goes on once that has ended; a
late store's lines wait in flight. A size, form or ordering that the rules do not list is another statement's (R245 to R256, R268). -/
def Obligations.AccessesOfLanes : Prop :=
  ∀ (s : State) (r : SgRef) (i : Iss), issue s r = some i → memOk s = true →
    let key (a : Reg) (l : Nat) : Nat := lmKey r.core.val (laneAddr i a l)
    let peer (p o : Reg) (l : Nat) : Nat := (peerKey s i p o l).getD 0
    let near (n : Nat) (a : Reg) : Prop := ∀ l ∈ i.lanes, lmOk (laneAddr i a l) n = true
    let far (n : Nat) (p o : Reg) : Prop := peerEntry s i = true ∧
      ∀ l ∈ i.lanes, peerOk i n p o l = true ∧ (peerKey s i p o l).isSome = true
    let tok : State := passToken s i.core i.quarter 5
    let released (ord : Order) (c : Instr) (P : State → Prop) : Prop :=
      (releaseOrd s i ord = (s, some ()) → Answers c s P) ∧
      ((releaseOrd s i ord).2 = none → exec c s = .next (releaseOrd s i ord).1)
    let stored (base : State) (k : Nat → Nat) (n : Nat) (b : Reg) (t : State) : Prop :=
      t.cores = { base.cores with groups := tset s.cores.groups i.key (passed i), lm := t.cores.lm } ∧
      Stored i k n (fun l => regBytes i.g l b.val n) s.cores.lm t.cores.lm ∧ Only [.cores, .flt] s t
    let combined (base : State) (k : Nat → Nat) (op : AtOp) (ty : AtTy) (d b e : Reg) (t : State) : Prop := ∃ g f,
      Wrote i d.val (atSize ty / 4) f g ∧ t.cores = { base.cores with groups := tset s.cores.groups i.key g, lm := t.cores.lm } ∧
      (atFloat ty = false → Combined i k op ty b.val e.val f s.cores.lm t.cores.lm) ∧ Only [.cores, .free, .flt] s t
    (∀ n d a ord, sizeOk n = true → loadOrd ord = true → near n a → Answers (.lmAccess r (.load n d a ord)) s fun t => ∃ g,
      Wrote i d.val (sizeRegs n) (fun l => mnat s.cores.lm (key a l) n) g ∧ t = setGroup (went tok i) i.key g) ∧
    (∀ n a b ord, sizeOk n = true → storeOrd ord = true → near n a →
      released ord (.lmAccess r (.store n a b ord)) (stored tok (key a) n b)) ∧
    (∀ op ty d a b c ord, atForm op ty = true → near (atSize ty) a →
      released ord (.lmAccess r (.atom op ty d a b c ord)) (combined tok (key a) op ty d b c)) ∧
    (∀ n d p o ord, sizeOk n = true → loadOrd ord = true → far n p o → Answers (.ldc r ⟨n, ord⟩ d p o) s fun t =>
      (∃ g, Wrote i d.val (sizeRegs n) (fun l => mnat s.cores.lm (peer p o l) n) g ∧ t.cores = (setGroup s i.key g).cores) ∧
      Only [.cores, .free, .flt] s t) ∧
    (∀ n b p o ord, sizeOk n = true → storeOrd ord = true → far n p o →
      released ord (.stc r ⟨n, ord⟩ b p o) (stored s (peer p o) n b)) ∧
    (∀ op ty d b c p o ord, atForm op ty = true → far (atSize ty) p o →
      released ord (.atc r ⟨op, ord⟩ ty d b c p o) (combined s (peer p o) op ty d b c)) ∧
    (∀ n d a ord u tbl, sizeOk n = true → loadOrd ord = true → (∀ l ∈ i.lanes, devAddr i a l % n = 0) →
      readLines (laneWho s i.b) s (devLines i a) = (u, some tbl) →
      Answers (.deviceLoad r n d a ord) s fun t => ∃ g, Wrote i d.val (sizeRegs n) (fun l =>
        leNat (slice ((tget tbl (devAddr i a l / 128)).getD []) (devAddr i a l % 128) n)) g ∧ t = setGroup (went u i) i.key g) ∧
    (∀ n a b ord v, sizeOk n = true → storeOrd ord = true → (∀ l ∈ i.lanes, devAddr i a l % n = 0) →
      (vwriteAll s (laneWho s i.b) (storeWrites i n a b) = (v, true) →
        released ord (.deviceStore r n a b ⟨ord, false⟩) (· = setGroup (went v i) i.key (passed i))) ∧
      (storeLines i (storeWrites i n a b) s (devLines i a) = (v, some ()) →
        released ord (.deviceStore r n a b ⟨ord, true⟩) (· = setGroup (went v i) i.key (passed i)))) ∧
    (∀ op ty d a b c ord u ps, atForm op ty = true → (∀ l ∈ i.lanes, devAddr i a l % atSize ty = 0) →
      reachAtoms (laneWho s i.b) s (devLines i a) = (u, some ps) → (atHost op ty = true ∨ ∀ p ∈ ps, isHost p.2 = false) →
      released ord (.atom r op ty d a b c ord) fun t => ∃ g f, Wrote i d.val (atSize ty / 4) f g ∧
        tget t.cores.groups i.key = some g ∧ t.cores.lm = s.cores.lm ∧
        ∀ l p w old, i.lanes = [l] → ps = [(devAddr i a l / 128, p)] →
          let place := placeIn (devAddr i a l % 128) (atSize ty) p
          readPieces (laneWho s i.b) u place = (w, old) →
          f l = leNat old ∧ t = setGroup (went (writePieces (laneWho s i.b) (drewN w 64) place (toLE (atSize ty)
            (atApply op ty (leNat old) (rdN i.g l b.val (atSize ty / 4)) (rdN i.g l c.val (atSize ty / 4))))) i) i.key g)

/-- Channels and synchronisation: SEND takes a credit and RECV a message, when the channel's token reaches the quarter before an engine,
CHSTAT reads both counts, messages arrive and credits return; BAR and CBAR hold until the last subgroup arrives, but in a fragment
group hold nothing; FENCE waits for earlier accesses and cleans the slot for DEVICE and SYSTEM; CONT saves its record; EXIT and an
undefined encoding end their lanes, the latter counted (R226, R239 to R241, R258 to R260, R297, R268, R382). -/
def Obligations.ChannelsBarriersAndExits : Prop :=
  (∀ (s : State) (r : SgRef) (i : Iss), issue s r = some i →
    let on : State := setGroup (went s i) i.key (passed i)
    (∀ (ch : Fin 16) (o : OutCh) (form : MsgForm) (rel : Option Scope), chanScope rel = true →
      tget s.cores.outs (r.core.val * 16 + ch.val) = some o → o.credits ≠ 0 →
      (∀ v, form = .mem v → lmOk (rd i.g i.low v.val).toNat 64 = true) →
      (∀ sc, rel = some sc → (release s i sc).2 = none → exec (.msgSend r ch form rel) s = .next (release s i sc).1) ∧
      ((∀ sc, rel = some sc → release s i sc = (s, some ())) →
        ∀ k, granted s (outToken r.core.val ch.val) (i.quarter :: creditClaims s r.core.val ch.val) = some k →
        (k = i.quarter → Answers (.msgSend r ch form rel) s fun t => Only [.cores, .flt] s t ∧ t.cores =
          { s.cores with groups := tset s.cores.groups i.key (passed i),
                         outs := tset s.cores.outs (r.core.val * 16 + ch.val) { o with credits := o.credits - 1 },
                         tokens := tset s.cores.tokens (outToken r.core.val ch.val) ((k + 1) % 8),
                         sent := s.cores.sent ++ [(o.core * 16 + o.chan, match form with
                           | .regs v => msgRegs i v.val
                           | .mem v => BitVec.ofNat 512 (mnat s.cores.lm (lmKey r.core.val (rd i.g i.low v.val).toNat) 64))] }) ∧
        (k ≠ i.quarter → exec (.msgSend r ch form rel) s =
          .next (passToken (engineSends s r.core.val ch.val (k - 4)) (outToken r.core.val ch.val) k 8)))) ∧
    (∀ (ch : Fin 16) (m : W512) (rest : List W512) (acq : Option Scope), chanScope acq = true →
      tgetD s.cores.inbox (r.core.val * 16 + ch.val) [] = m :: rest →
      ∀ k, granted s (inToken r.core.val ch.val) (i.quarter :: msgClaims s r.core.val ch.val) = some k →
      (∀ v : Reg, k = i.quarter → Answers (.msgRecv r ch (.regs v) acq) s fun t => ∃ g, tget t.cores.groups i.key = some g ∧
        g = { i.g with subs := pass i.sub :: i.rest, regs := g.regs } ∧
        (∀ l k, l < 32 → rd g l k = if l ∈ i.lanes ∧ l < 16 ∧ k = v.val ∧ k < i.g.nregs then
          BitVec.ofNat 32 (bits m (32 * l + 31) (32 * l)) else rd i.g l k) ∧
        tget t.cores.inbox (r.core.val * 16 + ch.val) = some rest ∧ t.cores.lm = s.cores.lm ∧ Only [.cores, .flt] s t) ∧
      (∀ v : Reg, k = i.quarter → memOk s = true → lmOk (rd i.g i.low v.val).toNat 64 = true →
        Answers (.msgRecv r ch (.mem v) acq) s fun t => tget t.cores.groups i.key = some (passed i) ∧
          mread t.cores.lm (lmKey r.core.val (rd i.g i.low v.val).toNat) 64 = toLE 64 m.toNat ∧
          tget t.cores.inbox (r.core.val * 16 + ch.val) = some rest ∧ Only [.cores, .flt] s t) ∧
      (∀ form, k ≠ i.quarter → exec (.msgRecv r ch form acq) s =
        .next (passToken (engineTakes s r.core.val ch.val (k - 4)) (inToken r.core.val ch.val) k 8))) ∧
    (∀ (ch : Fin 16) (d e : Reg), Answers (.chstat r ch d e) s fun t => ∃ g, t = setGroup (went s i) i.key g ∧
      g = { i.g with subs := pass i.sub :: i.rest, regs := g.regs } ∧
      ∀ l ∈ i.lanes,
        (e.val < i.g.nregs → rd g l e.val = BitVec.ofNat 32 ((tget s.cores.outs (r.core.val * 16 + ch.val)).map (·.credits) |>.getD 0)) ∧
        (d.val < i.g.nregs → d ≠ e → rd g l d.val = BitVec.ofNat 32 (tgetD s.cores.inbox (r.core.val * 16 + ch.val) []).length)) ∧
    (∀ e ∈ [(Instr.bar r, SubWait.bar), (.cbar r, .cbar)],
      let mine (b : Nat) : Prop :=
        b = i.g.block ∨ e.2 = .cbar ∧ ∃ y, (b, y) ∈ s.cores.blocks ∧ y.run = i.b.run ∧ y.cluster = i.b.cluster ∧ y.frag = i.b.frag
      (i.b.frag.isSome = true → exec e.1 s = .next on) ∧
      (i.b.frag = none → Tbl.wf s.cores.groups = true → (∀ u ∈ i.rest, u.wait = e.2) →
        (∀ k g, tget s.cores.groups k = some g → k ≠ i.key → mine g.block → ∀ u ∈ g.subs, u.wait = e.2) →
        Answers e.1 s fun t => tget t.cores.groups i.key = some { i.g with
            subs := pass i.sub :: i.rest.map fun u => pass { u with wait := .ready } } ∧
          (∀ k g, tget s.cores.groups k = some g → k ≠ i.key → mine g.block → tget t.cores.groups k = some (groupGo e.2 g)) ∧
          Only [.cores] s t) ∧
      (i.b.frag = none → (∃ u ∈ i.rest, u.wait ≠ e.2) → exec e.1 s =
        .next (setGroup s i.key { i.g with subs := { i.sub with wait := e.2 } :: i.rest }))) ∧
    (∀ sc : Scope, let n := slotOfBlock s i.b
      (sc = .group ∨ lanesDone s i = true ∧ (sc = .block ∨ i.cleaned = true ∨ mustClean s n = false) →
        exec (.fence r sc) s = .next on) ∧
      (sc ≠ .group → lanesDone s i = false → exec (.fence r sc) s = .next s) ∧
      (sc = .device ∨ sc = .system → lanesDone s i = true → i.cleaned = false → mustClean s n = true →
        Answers (.fence r sc) s fun t => t.fab.cleans.contains n = true ∧ hasDirty t n = false ∧ Only [.cores, .fab] s t ∧
          t.cores = (setGroup s i.key { i.g with subs := { i.sub with wait := .clean } :: i.rest }).cores)) ∧
    (∀ a : Reg, i.b.frag.isSome = true ∨ (tget s.cores.runs i.b.run).any (fun y => y.node.isSome) = true →
      exec (.cont r a) s = .next on) ∧
    (∀ (a : Reg) (y : Run) (u : State) (w : Nat), i.b.frag = none → tget s.cores.runs i.b.run = some y → y.node = none →
      devAddr i a i.low % 64 = 0 →
      vnat s { laneWho s i.b with site := .frontEnd (slotOfBlock s i.b) } (devAddr i a i.low) 64 = (u, some w) →
      Answers (.cont r a) s fun t => tget t.cores.runs i.b.run = some { y with cont := some (BitVec.ofNat 512 w) } ∧
        tget t.cores.groups i.key = some (passed i) ∧ t.fab = u.fab ∧ t.cores.lm = s.cores.lm) ∧
    (∀ e ∈ [(Instr.exit r, 0), (.undefinedInstruction r, 1)], Answers e.1 s fun t =>
      (∃ g, tget t.cores.groups i.key = some g ∧ g.exited = (i.g.exited ||| i.sub.mask) ∧ g.regs = i.g.regs ∧ g.block = i.g.block) ∧
      t.cores.undef = (if e.2 = 1 then min 0xFFFF (s.cores.undef + 1) else s.cores.undef) ∧ t.cores.lm = s.cores.lm ∧
      Only [.cores] s t)) ∧
  (∀ (s : State) (core : Fin 256) (ch : Fin 16),
    let key := core.val * 16 + ch.val
    (∀ e, s.cores.sent.find? (fun e => e.1 = key) = some e → (tgetD s.cores.inbox key []).length < 8 →
      exec (.messageArrive core ch) s = .next { s with cores := { s.cores with
        inbox := tset s.cores.inbox key (tgetD s.cores.inbox key [] ++ [e.2]), sent := s.cores.sent.erase e } }) ∧
    (∀ o, key ∈ s.cores.creditsBack → tget s.cores.outs key = some o → Answers (.creditReturn core ch) s fun t =>
      tget t.cores.outs key = some { o with credits := min 8 (o.credits + 1) } ∧
      (∀ k, k ≠ key → tget t.cores.outs k = tget s.cores.outs k) ∧
      t.cores.creditsBack = s.cores.creditsBack.erase key ∧ t.cores.inbox = s.cores.inbox ∧ Only [.cores] s t))

/-! ## Blocks, tensor engines and Bobbins (spec/08, spec/09, spec/11) -/

/-- BLOCK_CLUSTER_PLACE puts the next block cluster of a run on ranked cores of one hardware cluster, or every block of a core grid with
its channels connected at 8 credits, and refuses a grid of which a core is no longer eligible; BLOCK_END removes a block whose lanes have exited, and the last one ends its run: its work is
finished with OK, or suspended with the record that CONT saved. A fragment group's end ends its batch (R226, R233 to R236, R257, R380). -/
def Obligations.BlocksArePlacedAndEnd : Prop :=
  (∀ (s : State) (id : Nat) (r : Run) (on : List Nat), tget s.cores.runs id = some r → r.mode1 = false → mayStart s = true →
    r.next < r.total →
    let n := min r.cluster (r.total - r.next)
    pickCores s r (eligibleCores s r.slot r.rt) n = some on → (∀ c ∈ on, IsOn s (domQuad (c / 4))) →
    Answers (.blockClusterPlace id) s fun t => tget t.cores.runs id = some { r with next := r.next + n } ∧
      t.cores.nextId = s.cores.nextId + n ∧ (∀ c ∈ on, ∀ d ∈ on, c / 16 = d / 16) ∧
      (∀ j, j < n → ∃ b core, on[j]? = some core ∧ tget t.cores.blocks (s.cores.nextId + j) = some b ∧ b.run = id ∧ b.core = core ∧
        b.rank = (r.next + j) % r.cluster ∧ b.csize = n ∧ b.bx = (r.next + j) % r.bx ∧ b.byy = (r.next + j) / r.bx % r.byy ∧
        b.bz = (r.next + j) / (r.bx * r.byy) ∧ b.ngroups = r.groups ∧ b.nregs = r.regs ∧ b.entry = r.entry ∧ b.arg = r.arg ∧
        b.lmKib = r.localKib) ∧
      (∀ e ∈ t.cores.groups, e ∈ s.cores.groups ∨ ∃ j k, j < n ∧ k < r.groups ∧
        e.2 = newGroup (s.cores.nextId + j) k r.regs r.entry ∧ on[j]? = some (e.1 / 64)) ∧ Only [.cores] s t) ∧
  (∀ (s : State) (id : Nat) (r : Run), tget s.cores.runs id = some r → r.mode1 = true → mayStart s = true → r.next < r.total →
    ((∃ e ∈ r.grid, e.1 ∉ eligibleCores s r.slot r.rt) → Answers (.blockClusterPlace id) s fun t => tget t.cores.runs id = none ∧
      ∀ w : Work, w.q.val = r.q → w.i = r.i → w.node.map (·.val) = r.node → WorkAt w .started s → WorkAt w (.finished 0x11) t) ∧
    ((∀ e ∈ r.grid, e.1 ∈ eligibleCores s r.slot r.rt ∧ hasRoom s r e.1 = true ∧ IsOn s (domQuad (e.1 / 4))) →
     (r.grid.map (·.1)).Nodup → Answers (.blockClusterPlace id) s fun t => tget t.cores.runs id = some { r with next := r.total } ∧
      t.cores.nextId = s.cores.nextId + r.grid.length ∧
      (∀ j e, r.grid[j]? = some e → ∃ b, tget t.cores.blocks (s.cores.nextId + j) = some b ∧ b.run = id ∧ b.core = e.1 ∧
        b.entry = BitVec.ofNat 64 (bits e.2 63 0) ∧ b.arg = BitVec.ofNat 64 (bits e.2 127 64)) ∧
      (∀ e ∈ r.grid, ∀ x ∈ gridEnds e.2, tget t.cores.outs (e.1 * 16 + x.1) =
        some { run := id, core := (eligibleCores s r.slot r.rt).getD x.2.1 0, chan := x.2.2, credits := 8 }) ∧ Only [.cores] s t)) ∧
  (∀ (s : State) (b : Nat) (x : Block), tget s.cores.blocks b = some x → blockDone s b = true →
    (x.frag = none → Answers (.blockEnd b) s fun t => tget t.cores.blocks b = none ∧ (∀ e ∈ t.cores.groups, e.2.block ≠ b) ∧
      (∀ e ∈ t.eng.eng, e.2.holder ≠ some b) ∧
      (∀ (w : Work) (r : Run), tget s.cores.runs x.run = some r → r.total ≤ r.next →
        (∀ e ∈ s.cores.blocks, e.2.run = x.run → e.2.frag = none → e.1 = b) →
        w.q.val = r.q → w.i = r.i → w.node.map (·.val) = r.node → WorkAt w .started s → tget t.cores.runs x.run = none ∧
        (r.cont = none → WorkAt w (.finished 0) t) ∧
        (∀ c y, r.cont = some c → w.node = none → getQ s r.q = some y → y.st ≠ .draining →
          ∃ z d, getQ t r.q = some z ∧ recOf z r.i = some d ∧ d.stage = .suspended ∧ d.pay = c))) ∧
    (∀ p ord blk y tl, x.frag = some (p, ord, blk) → tget s.ras.passes p = some y → tileOf y ord = some tl →
      Answers (.blockEnd b) s fun t => tget t.cores.blocks b = none ∧ ∃ y' tl', tget t.ras.passes p = some y' ∧
        tileOf y' ord = some tl' ∧ tl'.running = tl.running.filter fun c => !(c.blk == blk && c.started)))

/-- MCLAIM grants the free engines of its mask, cleared, waits for engines that another block holds, and is refused where its block
holds others; MREL releases an engine once its queue of now is done; MWAIT waits for the group's instructions; a matrix instruction
is queued once per count of its group, an MLOADB with its device lines, and MATRIX_COMPLETE executes the oldest or leaves it
waiting (R272, R273, R276, R287, R290, R296). -/
def Obligations.TensorEnginesAreClaimedAndQueue : Prop :=
  (∀ (s : State) (r : SgRef) (i : Iss), issue s r = some i →
    let core := r.core.val
    let held := heldBy s core i.g.block
    let on : State := setGroup (went s i) i.key (passed i)
    let waits (w : SubWait) : State := setGroup s i.key { i.g with subs := { i.sub with wait := w } :: i.rest }
    (∀ m : Fin 16,
      (held ≠ [] → (∀ e ∈ maskEngines m.val, e ∈ held) → exec (.mclaim r m) s = .next on) ∧
      (held ≠ [] → (∃ e ∈ maskEngines m.val, e ∉ held) → Answers (.mclaim r m) s fun t =>
        t.eng = { s.eng with claimBad := min 0xFFFF (s.eng.claimBad + 1) } ∧
        (∃ g, tget t.cores.groups i.key = some g ∧ g.exited = (i.g.exited ||| i.sub.mask)) ∧ Only [.cores, .eng] s t) ∧
      (held = [] → claimants s core = [] → claimFree s core i.g.block m.val = true → Answers (.mclaim r m) s fun t =>
        (∀ e, e < 4 → engOf t core e =
          if e ∈ maskEngines m.val then { Engine.reset with holder := some i.g.block } else engOf s core e) ∧
        tget t.cores.groups i.key = some (passed i) ∧ Only [.cores, .eng] s t) ∧
      (held = [] → claimants s core = [] → claimFree s core i.g.block m.val = false →
        exec (.mclaim r m) s = .next (waits (.mclaim m.val))) ∧
      (claimants s core = [] → Answers (.mrel r m) s fun t => tget t.cores.groups i.key = some (passed i) ∧
        (∀ e, e < 4 → engOf t core e =
          let x := engOf s core e
          if e ∈ maskEngines m.val ∧ e ∈ held then
            (if x.queue = [] then { x with holder := none, releasing := none, inA := [], inB := [], outN := 0 }
             else { x with releasing := x.releasing.or (some x.queue.length) })
          else x) ∧ Only [.cores, .eng, .flt] s t) ∧
      ((∀ e ∈ maskEngines m.val, e ∈ held → ∀ o ∈ (engOf s core e).queue, o.group ≠ i.key) → exec (.mwait r m) s = .next on) ∧
      ((∃ e ∈ maskEngines m.val, e ∈ held ∧ ∃ o ∈ (engOf s core e).queue, o.group = i.key) →
        ∃ left, left ≠ [] ∧ exec (.mwait r m) s = .next (waits (.mwait left)))) ∧
    (∀ (e : Fin 4) (c a b : Reg), ∀ x ∈ [(Instr.mma r e c a b, MatKind.mma, [c.val, a.val, b.val]), (.mstore r e c, .mstore, [c.val]),
        (.mldacc r e c, .mldacc, [c.val]), (.mloadb r e c a, .mloadb, [c.val, a.val])],
      let word (n : Nat) : W64 := BitVec.ofNat 64 (pair i.g i.low (x.2.2.getD n 0))
      (∀ k ∈ x.2.2, k % 2 = 0) → (engOf s core e.val).holder = some i.g.block → ctrlOk x.2.1 (word 0) = true →
      (engOf s core e.val).queue.length < 8 →
      let gone : List Sub := pass { i.sub with s := i.sub.s + 1 } :: i.rest
      (i.sub.s + 1 ≤ i.g.g → Answers x.1 s fun t => t.eng = { s.eng with discarded := min 0xFFFF (s.eng.discarded + 1) } ∧
        tget t.cores.groups i.key = some { i.g with subs := gone } ∧ Only [.cores, .eng, .flt] s t) ∧
      (i.g.g < i.sub.s + 1 →
        let o : EOp := { kind := x.2.1, ctrl := word 0, a := word 1, b := word 2, group := i.key, lane := i.low, lines := [] }
        (x.2.1 ≠ .mloadb → readsLines s i o = (s, some [])) ∧
        (∀ u, readsLines s i o = (u, none) → exec x.1 s = .next u) ∧
        ∀ u l, readsLines s i o = (u, some l) → Answers x.1 s fun t =>
          engOf t core e.val = { engOf s core e.val with queue := (engOf s core e.val).queue ++ [{ o with lines := l }] } ∧
          (∀ f, f < 4 → f ≠ e.val → engOf t core f = engOf s core f) ∧
          tget t.cores.groups i.key = some { i.g with g := i.sub.s + 1, subs := gone } ∧
          Only [.cores, .eng, .flt, .mmu, .fab, .free] s t))) ∧
  (∀ (s : State) (core : Fin 256) (e : Fin 4) (o : EOp) (rest : List EOp),
    (engOf s core.val e.val).queue = o :: rest → ((engOf s core.val e.val).holder.bind (tget s.cores.blocks)).isSome = true →
    let s' := stageIn s core.val e.val
    let after (x : Engine) : Engine := { x with queue := rest, inA := [], inB := [], outN := 0 }
    (∀ u, runHead s' core.val e.val (engOf s' core.val e.val) o = .wait u → exec (.matrixComplete core e .none) s = .next u) ∧
    (∀ u x, runHead s' core.val e.val (engOf s' core.val e.val) o = .done u x → Answers (.matrixComplete core e .none) s fun t =>
      (x.releasing = none → engOf t core.val e.val = after x ∧ ∀ f, f < 4 → f ≠ e.val → engOf t core.val f = engOf u core.val f) ∧
      (∀ n, x.releasing = some n → 1 < n → engOf t core.val e.val = { after x with releasing := some (n - 1) }) ∧
      (∀ n, x.releasing = some n → n ≤ 1 → claimants u core.val = [] → (engOf t core.val e.val).holder = none ∧
        (engOf t core.val e.val).queue = []) ∧
      t.cores.lm = u.cores.lm ∧ t.fab = u.fab))

/-- BISSUE queues the command that its local memory holds, and BWAIT waits for the group's count; BOBBIN_STEP takes one step of the
command that the token chooses: its checks, its setup, two messages sent, or a further step; EXPAND, SETOP, PROBE and RAYQ perform
the active command after its setup, SETOP delivering the keys of its set; BOBBIN_COMPLETE writes the record after the last step and
counts the group down (R328, R332, R336, R338, R342 to R345, R356; log 115). -/
def Obligations.BobbinCommandsRunAndComplete : Prop :=
  (∀ (s : State) (r : SgRef) (i : Iss), issue s r = some i →
    (∀ (b : Fin 2) (v : Reg),
      let k := r.core.val / 16 * 2 + b.val
      let a := pair i.g i.low v.val
      let quad := r.core.val % 16 / 4
      v.val % 2 = 0 → ((bobOf s k).cmds.filter fun c => c.quad == quad).length < 16 → i.g.bobOut < 255 → lmOk a 64 = true →
      Answers (.bissue r b v) s fun t => (∃ c, (bobOf t k).cmds = (bobOf s k).cmds ++ [c] ∧ c.quad = quad ∧ c.group = i.key ∧
        c.block = i.g.block ∧ c.cmd = BitVec.ofNat 512 (mnat s.cores.lm (lmKey r.core.val a) 64) ∧ c.stage = .queued ∧ c.steps = 0) ∧
        tget t.cores.groups i.key = some { passed i with bobOut := i.g.bobOut + 1 } ∧ Only [.cores, .bob, .flt] s t) ∧
    (∀ n : Fin 256, (i.g.bobOut ≤ n.val → exec (.bwait r n) s = .next (setGroup (went s i) i.key (passed i))) ∧
      (n.val < i.g.bobOut → exec (.bwait r n) s =
        .next (setGroup s i.key { i.g with subs := { i.sub with wait := .bwait n.val } :: i.rest })))) ∧
  (∀ (s : State) (cluster : Fin 16) (b : Fin 2) (quad : Fin 4) (c : BobCmd),
    let k := cluster.val * 2 + b.val
    headCmd (bobOf s k) quad.val = some c →
    (c.stage = .active → 32 ≤ c.steps → ∀ e ∈ [(Instr.expand cluster b quad, 1, runExpand), (.setop cluster b quad, 2, runSetop),
        (.probe cluster b quad, 3, runProbe), (.rayq cluster b quad, 4, runRayq)], bOp c.cmd = e.2.1 →
      ∀ u st n, e.2.2 s cluster.val c = (u, some (st, n)) → Answers e.1 s fun t =>
        headCmd (bobOf t k) quad.val = some { c with stage := st, need := n } ∧ t.cores = u.cores ∧ t.fab = u.fab ∧ t.eng = u.eng) ∧
    (c.stage = .active → 32 ≤ c.steps → bOp c.cmd = 2 → bKind c.cmd = 0 → memOk s = true → ∀ u v la lb,
      arrayFrom s c (bits c.cmd 191 128) (bKey c.cmd) 0 (soNa c.cmd) = (u, some la) →
      arrayFrom u c (bits c.cmd 255 192) (bKey c.cmd) 0 (soNb c.cmd) = (v, some lb) →
      let r := setResult (bSub c.cmd) (bCap c.cmd) la lb
      Answers (.setop cluster b quad) s fun t =>
        headCmd (bobOf t k) quad.val = some { c with
          stage := .delivered (compRec r.2.1 r.1.length r.2.2.1 r.2.2.2)
          need := linesSpan (bits c.cmd 191 128) (bKey c.cmd * r.2.2.1) + linesSpan (bits c.cmd 255 192) (bKey c.cmd * r.2.2.2) +
            cdiv (r.2.2.1 + r.2.2.2) (32 / bKey c.cmd) + cdiv (bKey c.cmd * r.1.length) 128 } ∧
        (∀ j x, r.1[j]? = some x → mread t.cores.lm
          (lmKey (cluster.val * 16 + bCore c.cmd) (bAddr c.cmd + bKey c.cmd * j)) (bKey c.cmd) = toLE (bKey c.cmd) x)) ∧
    (∀ r, c.stage = .delivered r → stepsLeft c = 0 → lmOk (bComp c.cmd) 16 = true → memOk s = true →
      Answers (.bobbinComplete cluster b quad) s fun t =>
        let at' := lmKey (c.group / 64) (bComp c.cmd)
        mread t.cores.lm at' 16 = toLE 16 r.toNat ∧ (∀ a, a < at' ∨ at' + 16 ≤ a → mget t.cores.lm a = mget s.cores.lm a) ∧
        (bobOf t k).cmds = popHead (bobOf s k).cmds quad.val ∧
        (∀ g, tget s.cores.groups c.group = some g → ∃ h, tget t.cores.groups c.group = some h ∧ h.bobOut = g.bobOut - 1 ∧
          h.regs = g.regs) ∧ Only [.cores, .bob] s t)) ∧
  (∀ (s : State) (cluster : Fin 16) (b : Fin 2) (waits : List (Fin 4)) (cycles : Nat) (c : BobCmd) (others : List BobCmd),
    let k := cluster.val * 2 + b.val
    steppers s cluster.val b.val waits = c :: others → IsOn s (domCluster cluster.val) →
    let stepped (st : BobStage) (t : State) : Prop := (bobOf t k).token = (c.quad + 1) % 4 ∧
      headCmd (bobOf t k) c.quad = some { c with stage := st, steps := if c.stage = .queued then 1 else c.steps + 1 }
    (∀ st, c.stage = .queued → firstStep s cluster.val c = some st →
      Answers (.bobbinStep cluster b ⟨waits, cycles⟩ .none) s fun t => stepped st t ∧ Only [.bob, .car, .flt] s t) ∧
    (∀ r, c.stage = .active ∨ c.stage = .delivered r →
      Answers (.bobbinStep cluster b ⟨waits, cycles⟩ .none) s fun t => stepped c.stage t ∧ Only [.bob, .car, .flt] s t) ∧
    (∀ out r, c.stage = .sending out r → Answers (.bobbinStep cluster b ⟨waits, cycles⟩ .none) s fun t =>
      let key := (cluster.val * 16 + bCore c.cmd) * 16 + bAddr c.cmd % 16
      stepped (if sendsNow c out then (if out.length ≤ 2 then .delivered r else .sending (out.drop 2) r) else c.stage) t ∧
      tgetD t.cores.inbox key [] = tgetD s.cores.inbox key [] ++ (if sendsNow c out then out.take 2 else []) ∧
      Only [.bob, .car, .cores, .flt] s t))

/-! ## Rendering (spec/12) -/

/-- RENDER_PASS reads its parameter block, is refused where that is bad, and else writes empty lists and begins binning;
PRIMITIVE_BIN counts a discarded primitive or enters a kept one in the lists of the tiles it meets; a tile is placed, loaded and
stored, and the last stored one ends the pass; BATCH_DISPATCH runs the early tests of the next batch, and its fragment group starts with
its registers and its dead lanes exited (R362, R366, R369 to R374, R379 to R381). -/
def Obligations.PassesBinAndShade : Prop :=
  (∀ (s u v : State) (w : Work) (x : Queue) (pay : W512) (be : Bool) (n : Nat) (par : List Byte) (p : Pass),
    beginWork s w.q.val w.i (w.node.map (·.val)) 0x20 = (u, .go x pay be) → queueSlot u w.q.val x = some n →
    eligibleCores u n (x.rt && !be) ≠ [] →
    vread u (feWho u w.q.val x) (bits pay 127 64) (128 + 64 * (clamp 0 8 (bits pay 167 164) + bits pay 168 168 + bits pay 169 169)) =
      (v, some par) →
    p.pay = pay → p.par = par → p.ctx = x.ctx → p.slot = n →
    p.clusters = ((List.range 16).filter fun k => (eligibleCores u n (x.rt && !be)).any fun c => c / 16 == k) →
    (passBad v p = true → Answers (.renderPass w) s (WorkEnded w 0x11 s)) ∧
    (∀ z, passBad v p = false →
      vwrite v (rasWho p (binSite v p 0)) (pBinArea p) ((List.range (pCount p * pNb p)).flatMap fun _ => toLE 4 0xFFFFFFFF ++ toLE 4 0) = (z, true) →
      Answers (.renderPass w) s fun t => ∃ y, tget t.ras.passes s.cores.nextId = some y ∧ WorkAt w .started t ∧
        y.pay = pay ∧ y.par = par ∧ y.ctx = x.ctx ∧ y.slot = n ∧ y.clusters = p.clusters ∧ y.nextTile = 0 ∧ y.stored = 0 ∧
        y.tiles = [] ∧ y.binners.length = pNb p ∧ (pNprim p ≠ 0 → y.stage = .binning) ∧ t.fab = z.fab ∧
        t.cores.nextId = s.cores.nextId + 1)) ∧
  (∀ (s u : State) (id : Nat) (b : Fin 16) (stall : Stall) (p : Pass) (x : Binner) (r st : W512), tget s.ras.passes id = some p →
    p.binners[b.val]? = some x → p.stage = .binning → binnerDone p x = false → IsOn s (domCluster (p.clusters.getD b.val 0)) →
    let s' := addStall s p.slot .pricking stall
    readPrim s' p (binSite s' p b.val) x.next = (u, some (r, st)) →
    (primVerdict p r st ≠ .keep → Answers (.primitiveBin id b stall .none) s fun t => ∃ y, tget t.ras.passes id = some y ∧
      y.binners[b.val]? = some { x with next := nextPrimOf p x.next } ∧ y.nextChunk = p.nextChunk ∧ t.fab = u.fab ∧
      t.ras.invalid = (if primVerdict p r st = .invalid then min 0xFFFF (s.ras.invalid + 1) else s.ras.invalid) ∧
      t.ras.culled = (if primVerdict p r st = .culled then min 0xFFFF (s.ras.culled + 1) else s.ras.culled) ∧
      t.ras.degenerate = (if primVerdict p r st = .degenerate then min 0xFFFF (s.ras.degenerate + 1) else s.ras.degenerate)) ∧
    (∀ p' y ws z, primVerdict p r st = .keep →
      appendAll b.val x.next ((List.range (pCount p)).filter fun t => meetsTile p r (pFirst p + t)) p
        { x with next := nextPrimOf p x.next } [] = (p', y, ws) → vwriteAll u (rasWho p (binSite u p b.val)) ws = (z, true) →
      Answers (.primitiveBin id b stall .none) s fun t => ∃ y', tget t.ras.passes id = some y' ∧ y'.binners[b.val]? = some y ∧
        y'.nextChunk = p'.nextChunk ∧ t.fab = z.fab)) ∧
  (∀ (s : State) (id core : Nat) (p : Pass), tget s.ras.passes id = some p → p.stage = .tiles → p.nextTile < pCount p →
    mayStart s = true → (eligibleCores s p.slot p.rt).find? (tileRoom s p) = some core → IsOn s (domQuad (core / 4)) →
    Answers (.tilePlace id) s fun t => ∃ tl, tget t.ras.passes id = some { p with nextTile := p.nextTile + 1, tiles := p.tiles ++ [tl] } ∧
      tl.ord = pFirst p + p.nextTile ∧ tl.core = core ∧ tl.stage = .loading ∧ lmFind s p.slot core (pTileMem p) = some tl.lmBase ∧
      Only [.cores, .ras] s t) ∧
  (∀ (s u : State) (id ord : Nat) (p : Pass) (tl : Tile), tget s.ras.passes id = some p → tileOf p ord = some tl → tl.stage = .loading →
    (∀ v ∈ p.tiles, v.core = tl.core → v.stage ≠ .shading) →
    ((pAtts p).foldl (fun (r : State × Bool) a => if r.2 then loadPlane p tl r.1 a else r) (s, true)) = (u, true) →
    exec (.tileLoadDone id ord) s = .next (setPass (moves u (quadRef (tl.core / 4))) id (putTile p { tl with stage := .shading }))) ∧
  (∀ (s : State) (id ord : Nat) (stall : Stall) (p : Pass) (tl : Tile), tget s.ras.passes id = some p → tileOf p ord = some tl →
    tl.stage = .shading → IsOn s (domCluster (tl.core / 16)) →
    let s' := moves (addStall s p.slot .raster stall) (clusterRef (tl.core / 16))
    let sent (u : State) (tl : Tile) (b : Batch) : Prop := Answers (.batchDispatch id ⟨ord, .none⟩ stall) s fun t =>
      ∃ y v cover, earlyTests u p tl b.rec' b.st b.blk b.cover = (v, cover) ∧ tget t.ras.passes id = some y ∧
        t.cores = v.cores ∧ ∃ z, tileOf y ord = some z ∧ z.waiting = tl.waiting ∧ z.nextPrim = tl.nextPrim ∧
          z.running = (if cover.any (· != 0) && bits b.st 511 448 != 0 then tl.running ++ [{ b with cover := cover }] else tl.running)
    (∀ b rest, readyBatch tl.running [] tl.waiting = some (b, rest) → sent s' { tl with waiting := rest } b) ∧
    (∀ u l, readyBatch tl.running [] tl.waiting = none → tl.waiting.length < 16 →
      (tl.list = some l ∧ u = s' ∨ tl.list = none ∧ readTileList s' p (tileSite tl) ord = (u, some l)) →
      ∀ v tl' nb, nextBatch id (l.length + 1) u p { tl with list := some l } l = (v, tl', nb, true) →
      (∀ b, nb = some b → blkFree (tl'.running ++ tl'.waiting) b.blk = true → sent v tl' b) ∧
      (nb = none → exec (.batchDispatch id ⟨ord, .none⟩ stall) s = .next (setPass v id (putTile p (settleTile tl')))))) ∧
  (∀ (s : State) (id ord : Nat) (blk : Fin 32) (p : Pass) (tl : Tile) (b : Batch) (base : Nat), tget s.ras.passes id = some p →
    tileOf p ord = some tl → (tl.running.find? fun b => b.blk = blk.val && !b.started) = some b →
    lmFind s p.slot tl.core (pFragKib p) = some base → coreRoom s tl.core (pRegs p) ≠ 0 →
    Answers (.fragmentGroupStart id ord blk) s fun t => ∃ x k g, tget t.cores.blocks s.cores.nextId = some x ∧
      x.frag = some (id, ord, blk.val) ∧ x.core = tl.core ∧ x.lmBase = base ∧ tget t.cores.groups k = some g ∧
      g.block = s.cores.nextId ∧ k / 64 = tl.core ∧ g.exited = deadLanes b ∧ (∀ l, l < 32 → rd g l 1 = BitVec.ofNat 32 b.prim) ∧
      (∀ v ∈ g.subs, v.pc = BitVec.ofNat 64 (bits b.st 511 448)) ∧ Only [.cores, .ras, .free] s t) ∧
  (∀ (s u : State) (id ord : Nat) (p : Pass) (tl : Tile), tget s.ras.passes id = some p → tileOf p ord = some tl → tl.stage = .storing →
    vwriteAll s (rasWho p (tileSite tl)) ((pAtts p).flatMap (storePlane s p tl)) = (u, true) → Answers (.tileStoreDone id ord) s fun t =>
      t.fab = u.fab ∧
      (p.stored + 1 < pCount p → tget t.ras.passes id =
        some { p with stored := p.stored + 1, tiles := p.tiles.filter fun v => v.ord != ord }) ∧
      (pCount p ≤ p.stored + 1 → tget t.ras.passes id = none ∧
        ∀ w : Work, w.q.val = p.q → w.i = p.i → w.node.map (·.val) = p.node → WorkAt w .started s → WorkAt w (.finished 0) t))

/-! ## Composing, encoding and the Bindery (spec/13, spec/14) -/

/-- COMPOSE starts with the target's registers as they stand, and each STRIP_COMPLETE writes one strip, the last finishing it; ENCODE and
BIND are refused where their blocks are bad, and else run; ENCODE_COMPLETE advances FRAME and the rate control and BIND_COMPLETE
writes its output, and both finish with OK (R393 to R396, R404, R408 to R418, R422, R427 to R430). -/
def Obligations.MediaWorkRunsAndFinishes : Prop :=
  let same (w : Work) (q : Nat) (i : W32) (s : State) : Prop := w.q.val = q ∧ w.i = i ∧ w.node = none ∧ WorkAt w .started s
  (∀ (s u : State) (q : Fin 8193) (i : W32) (x y : Queue) (d : Desc) (w : W512) (be : Bool), getQ s q.val = some x → recOf x i = some d →
    composing s (bits d.pay 135 128) = false → composeEarlier s q.val i (bits d.pay 135 128) = false →
    beginWork s q.val i none 0x40 = (u, .go y w be) → Answers (.compose q i) s fun t => WorkAt ⟨q, i, none⟩ .started t ∧
      ∃ c, t.cch.comps = s.cch.comps ++ [c] ∧ c.q = q.val ∧ c.i = i ∧ c.target = bits d.pay 135 128 ∧ c.ctx = y.ctx ∧
        c.frame = BitVec.ofNat 32 (bits w 191 160) ∧ c.strip = 0 ∧ c.chroma = [] ∧
        (∀ o ∈ targetOffs, treg c.regs o = active s (oTarget (bits d.pay 135 128) o))) ∧
  (∀ (s u v : State) (waits : List (Fin 256)) (c : Compose) (px : List Px), chooseCompose s waits = some c →
    let s' : State := if (composeRank s c).2 then s else { s with cch := { s.cch with token := ((composeRank s c).1 + 1) % 256 } }
    let x := c.strip % stripsPerRow c * 32
    let y := c.strip / stripsPerRow c
    let fv := (free s).toNat
    composePixels c fv y (min 32 (nbits (treg c.regs 0x20) 15 0 - x)) s' x = (u, some px) →
    vwriteAll u (couchWho u c) (stripWrites c fv x y px).1 = (v, true) →
    Answers (.stripComplete ⟨waits, .none⟩) s fun t => t.fab = v.fab ∧
      { c with strip := c.strip + 1, chroma := (stripWrites c fv x y px).2 } ∈ t.cch.comps ∧
      t.cch.token = s'.cch.token ∧
      (stripTotal c ≤ c.strip + 1 → ∀ w, same w c.q c.i s → WorkAt w (.finished 0) t) ∧
      (c.strip + 1 < stripTotal c → t.obj = s.obj)) ∧
  (∀ (s u v : State) (q : Fin 8193) (i : W32) (x y : Queue) (w : W512) (be : Bool) (p : Nat), getQ s q.val = some x →
    (recOf x i).isSome = true → (s.cod.encRuns.any fun r => r.core = x.unit) = false →
    beginWork s q.val i none 0x50 = (u, .go y w be) →
    (bits w 127 64 = 0 → Answers (.encode q i) s (WorkEnded ⟨q, i, none⟩ 0x11 s)) ∧
    (bits w 127 64 ≠ 0 → (s.cod.encRuns.any fun r => r.stream = bits w 295 288) = false →
      encodeEarlier u q.val i (bits w 295 288) = false →
      vnat u (feWho u q.val y) (bits w 127 64) 128 = (v, some p) →
      (encodeBad v y w p = true → Answers (.encode q i) s (WorkEnded ⟨q, i, none⟩ 0x11 s)) ∧
      (encodeBad v y w p = false → Answers (.encode q i) s fun t => WorkAt ⟨q, i, none⟩ .started t ∧
        ∃ r, t.cod.encRuns = s.cod.encRuns ++ [r] ∧ r.q = q.val ∧ r.i = i ∧ r.stream = bits w 295 288 ∧ r.core = y.unit ∧
          r.par = p ∧ r.orphan = false ∧ (bit w 296 = true → r.key = true) ∧ (∀ m, encOf t m = encOf s m) ∧
          let e := encOf s r.stream
          let reset : Bool := p.testBit 369 || e.conf != encConf p
          (reset = true → r.key = true ∧ r.state.q = encQstart p ∧ r.state.f = 0 ∧ r.state.lastCoded = none ∧
            (∀ n ∈ r.state.slots, n = none) ∧ t.cod.resets = min 0xFFFF (s.cod.resets + 1)) ∧
          (reset = false → r.state = e) ∧ r.state.frame = e.frame))) ∧
  (∀ (s u v : State) (core : Fin 12) (r : EncRun) (x : Queue) (marks body : List Byte) (rep : Bool) (n : Nat),
    encodeOn s core.val = some (r, x) → encodeReads s r (feWho s r.q x) = (u, some marks) → codeFrame u r = (body, rep, n) →
    let e' := encAfter r.par r.state rep (16 + body.length)
    vwriteAll (drewN u n) (feWho s r.q x) (encodeWrites (drewN u n) r e' body marks rep) = (v, true) →
    Answers (.encodeComplete core .none) s fun t => encOf t r.stream = (if r.orphan then encOf s r.stream else e') ∧
      e'.frame = r.state.frame + 1 ∧ t.fab = v.fab ∧
      t.cod.repeats = (if rep then min 0xFFFF (s.cod.repeats + 1) else min 0xFFFF s.cod.repeats) ∧
      (∀ m, m ≠ r.stream → encOf t m = encOf s m) ∧ (∀ w, same w r.q r.i s → WorkAt w (.finished 0) t)) ∧
  (∀ (s u v : State) (q : Fin 8193) (i : W32) (x y : Queue) (w : W512) (be : Bool) (p : Nat), getQ s q.val = some x →
    (recOf x i).isSome = true →
    (s.cod.bindRuns.any fun r => (match getQ s r.q with
      | some y => y.unit == x.unit
      | none => false)) = false →
    beginWork s q.val i none 0x60 = (u, .go y w be) →
    (bits w 127 64 = 0 ∧ v = u ∧ p = 0 ∨ bits w 127 64 ≠ 0 ∧ vnat u (feWho u q.val y) (bits w 127 64) 128 = (v, some p)) →
    (bindBad w p = true → Answers (.bind q i) s (WorkEnded ⟨q, i, none⟩ 0x11 s)) ∧
    (bindBad w p = false → Answers (.bind q i) s fun t => WorkAt ⟨q, i, none⟩ .started t ∧
      t.cod = { s.cod with bindRuns := s.cod.bindRuns ++ [{ q := q.val, i := i, pay := w, par := p }] })) ∧
  (∀ (s u v z : State) (eng : Fin 4) (r : BindRun) (x : Queue) (input hist : List Byte),
    bindOn s eng.val = some (r, x) →
    vread s (feWho s r.q x) (bits r.pay 191 128) (bits r.pay 287 256) = (u, some input) →
    (histIn r.par = false ∧ v = u ∧ hist = [] ∨ histIn r.par = true ∧
      vread u (feWho s r.q x) (nbits r.par 575 512) (if bits r.pay 321 320 = 0 then 32768 else 65536) = (v, some hist)) →
    vwriteAll v (feWho s r.q x) (bindWrites r hist input).1 = (z, true) →
    Answers (.bindComplete eng .none) s fun t => t.fab = z.fab ∧
      t.cod = { s.cod with stored := min 0xFFFF (s.cod.stored + (bindWrites r hist input).2.1)
                           full := min 0xFFFF (s.cod.full + (if (bindWrites r hist input).2.2 then 1 else 0)) } ∧
      (∀ w, same w r.q r.i s → WorkAt w (.finished 0) t))

/-! ## Register accesses (spec/00, spec/19) -/

/-- A read of BAR0 returns the register, an RC field being cleared by it, and one half of a register reads as R30 and R567 give; writes
reach the registers that hold settings, with their clamps; BAR4 reads and writes HBM past the tier, zeros above it (R13, R14, R30, R47,
R521, R533, R567, R575). -/
def Obligations.RegistersAreReadAndWritten : Prop :=
  (∀ (s : State) (off : Nat), bar0Responds s off false = true →
    (off % 8 = 0 → Answers (.rcRead .bar0 off 8) s fun t =>
      t.bus = { s.bus with hostData := BitVec.ofNat 64 (regValue s .host off) } ∧ t.obj = s.obj ∧ t.regs = s.regs ∧ t.fw = s.fw) ∧
    (off % 8 = 0 → Answers (.rcRead .bar0 off 4) s fun t =>
      t.bus.hostData = BitVec.ofNat 64 (regValue s .host off % 2 ^ 32) ∧
      tget t.bus.latch off = some (BitVec.ofNat 32 (regValue s .host off / 2 ^ 32)) ∧
      ∀ k, k ≠ off → tget t.bus.latch k = tget s.bus.latch k) ∧
    (∀ w, off % 8 = 4 → tget s.bus.latch (off - 4) = some w → exec (.rcRead .bar0 off 4) s =
      .next { s with bus := { s.bus with latch := tdel s.bus.latch (off - 4), hostData := BitVec.ofNat 64 w.toNat } }) ∧
    (∀ size, size ≠ 4 ∧ size ≠ 8 ∨ off % 4 ≠ 0 →
      exec (.rcRead .bar0 off size) s = .next { s with bus := { s.bus with hostData := 0 } })) ∧
  (∀ s : State, bar0Responds s 0x100010 false = true → exec (.rcRead .bar0 0x100010 8) s =
    .next { s with acc := { s.acc with stray := 0 }, bus := { s.bus with hostData := BitVec.ofNat 64 s.acc.stray } }) ∧
  (∀ s : State, bar0Responds s 0x30 false = true → exec (.rcRead .bar0 0x30 8) s =
    .next { s with hoop := { s.hoop with settleLate := 0, overrun := 0 },
                   bus := { s.bus with hostData := BitVec.ofNat 64 (s.hoop.settleLate * 2 ^ 16 + s.hoop.overrun) } }) ∧
  (∀ (s : State) (v : W64),
    (bar0Responds s 0x100008 true = true → exec (.registerWrite .bar0 0x100008 4 v) s =
      .next { s with acc := { s.acc with targetHost := BitVec.ofNat 32 v.toNat } }) ∧
    (s.fw.running = true → exec (.registerWrite .mgmt 0x100008 8 v) s =
      .next { s with acc := { s.acc with targetFw := BitVec.ofNat 32 v.toNat } }) ∧
    (bar0Responds s 0x1100028 true = true → exec (.registerWrite .bar0 0x1100028 4 v) s =
      .next { s with fw := { s.fw with graceTicks := clamp 16 4096 (bits v 15 0) } }) ∧
    (bar0Responds s 0x1300018 true = true → exec (.registerWrite .bar0 0x1300018 4 v) s =
      .next { s with pwr := { s.pwr with limitNext := clamp 600 1400 (bits v 10 0) } }) ∧
    (bar0Responds s 0x1200000 true = true → exec (.registerWrite .bar0 0x1200000 8 v) s =
      .next { s with fw := { s.fw with bootImage := BitVec.ofNat 64 (v.toNat / 4096 * 4096) } }) ∧
    (bar0Responds s 0x1200008 true = true → exec (.registerWrite .bar0 0x1200008 8 v) s =
      .next { s with fw := { s.fw with bootCharter := BitVec.ofNat 64 (v.toNat / 4096 * 4096) } }) ∧
    (∀ off, off < 0x301000 ∨ 0x301800 ≤ off → bar0Responds s off true = true →
      exec (.registerWrite .bar0 off 2 v) s = .next s)) ∧
  (∀ (s : State) (off len : Nat), s.brd.inReset = false → s.pwr.inS3 = false → len ≠ 0 → (∀ d ∈ bar4Doms off len, IsOn s d) →
    (let n := min len (hbmEnd - off)
     exec (.bar4Access off len none .clean) s =
      .next { s with fab := { s.fab with lastRead := mread s.fab.mem off n ++ List.replicate (len - n) 0 }
                     bus := { s.bus with abort := false } }) ∧
    (∀ l : List Byte, l.length = len → off + len ≤ hbmEnd → exec (.bar4Access off len (some l) .clean) s =
      .next { s with fab := { s.fab with mem := mwrite s.fab.mem off l }, bus := { s.bus with abort := false } }) ∧
    (∀ l : List Byte, hbmEnd ≤ off → exec (.bar4Access off len (some l) .clean) s =
      .next { s with bus := { s.bus with abort := false } }))
end

