-- ==== Sys2Proof/Laws/Memory.lean ====
section
/-! SUPPORT. The byte memories: every operation keeps the canonical form, what each byte reads after it, and that
canonical memories which read alike are equal data. -/

namespace Sys2Proof.Machine

/-! ## The canonical form -/

/-- `Mem.wf` in terms of pairs of cells: addresses rise, and no listed byte is 0. -/
theorem Mem.wf_iff (m : Mem) : Mem.wf m = true ↔ (m.Pairwise fun a b => a.1 < b.1) ∧ ∀ c ∈ m, c.2 ≠ 0 := by
  induction m with
  | nil => simp [Mem.wf]
  | cons e t ih =>
    cases t with
    | nil => simp [Mem.wf]
    | cons d t =>
      simp only [Mem.wf, Bool.and_eq_true, decide_eq_true_eq, ih, List.pairwise_cons]
      constructor
      · rintro ⟨⟨hz, h⟩, ⟨hd, ht⟩, hall⟩
        refine ⟨⟨fun a ha => ?_, hd, ht⟩, fun c hc => ?_⟩
        · rcases List.mem_cons.1 ha with rfl | ha
          · exact h
          · exact lt_trans h (hd a ha)
        · rcases List.mem_cons.1 hc with rfl | hc
          · exact hz
          · exact hall c hc
      · rintro ⟨⟨h, hd, ht⟩, hall⟩
        exact ⟨⟨hall e (by simp), h d (by simp)⟩, ⟨hd, ht⟩, fun c hc => hall c (List.mem_cons_of_mem _ hc)⟩

@[simp] theorem Mem.wf_nil : Mem.wf [] = true := rfl

theorem Mem.wf_tail {e : Host.Cell} {t : Mem} (h : Mem.wf (e :: t) = true) : Mem.wf t = true := by
  rw [Mem.wf_iff] at h ⊢
  exact ⟨(List.pairwise_cons.1 h.1).2, fun c hc => h.2 c (List.mem_cons_of_mem _ hc)⟩

/-- A canonical memory lists nothing below its first address. -/
theorem mget_below {m : Mem} {a : Nat} (h : ∀ c ∈ m, a < c.1) : mget m a = 0 := by
  induction m with
  | nil => rfl
  | cons e t ih =>
    have h' : ¬ e.1 = a := by have := h e (by simp); omega
    simpa [mget, h'] using ih fun c hc => h c (List.mem_cons_of_mem _ hc)

theorem mem_mset {m : Mem} {a : Nat} {b : Byte} {c : Host.Cell} (h : c ∈ mset m a b) : (c = (a, b) ∧ b ≠ 0) ∨ c ∈ m := by
  induction m with
  | nil => by_cases hb : b = 0 <;> simp_all [mset]
  | cons e t ih =>
    simp only [mset] at h
    split at h
    · split at h
      · exact .inr h
      · rcases List.mem_cons.1 h with rfl | h
        · exact .inl ⟨rfl, ‹_›⟩
        · exact .inr h
    · split at h
      · split at h
        · exact .inr (List.mem_cons_of_mem _ h)
        · rcases List.mem_cons.1 h with rfl | h
          · exact .inl ⟨rfl, ‹_›⟩
          · exact .inr (List.mem_cons_of_mem _ h)
      · rcases List.mem_cons.1 h with rfl | h
        · exact .inr (by simp)
        · exact (ih h).imp_right (List.mem_cons_of_mem _)

/-- Writing a byte keeps the canonical form. -/
theorem mset_wf {m : Mem} (h : Mem.wf m = true) (a : Nat) (b : Byte) : Mem.wf (mset m a b) = true := by
  rw [Mem.wf_iff] at h ⊢
  refine ⟨?_, fun c hc => ?_⟩
  · obtain ⟨hp, -⟩ := h
    induction m with
    | nil => simp only [mset]; split <;> simp
    | cons e t ih =>
      obtain ⟨he, ht⟩ := List.pairwise_cons.1 hp
      simp only [mset]
      split
      · rename_i hn
        split
        · exact hp
        · refine List.pairwise_cons.2 ⟨fun x hx => ?_, hp⟩
          rcases List.mem_cons.1 hx with rfl | hx
          · exact hn
          · exact lt_trans hn (he x hx)
      · split
        · rename_i hn
          split
          · exact ht
          · exact List.pairwise_cons.2 ⟨fun x hx => by simpa [hn] using he x hx, ht⟩
        · refine List.pairwise_cons.2 ⟨fun x hx => ?_, ih ht⟩
          rcases mem_mset hx with ⟨rfl, -⟩ | hx
          · show e.1 < a
            omega
          · exact he x hx
  · rcases mem_mset hc with ⟨rfl, hb⟩ | hc
    · exact hb
    · exact h.2 c hc

/-- Reading a byte after a byte was written. -/
theorem mget_mset {m : Mem} (h : Mem.wf m = true) (a x : Nat) (b : Byte) :
    mget (mset m a b) x = if x = a then b else mget m x := by
  induction m with
  | nil =>
    simp only [mset]
    split
    · rename_i hb
      simp [mget, hb]
    · by_cases hx : x = a
      · simp [mget, hx]
      · simp [mget, hx, Ne.symm hx]
  | cons e t ih =>
    obtain ⟨hp, -⟩ := (Mem.wf_iff _).1 h
    obtain ⟨he, -⟩ := List.pairwise_cons.1 hp
    simp only [mset]
    split
    · rename_i hn
      split
      · rename_i hb
        split
        · rename_i hx
          rw [hb, hx]
          refine mget_below fun c hc => ?_
          rcases List.mem_cons.1 hc with rfl | hc
          · exact hn
          · exact lt_trans hn (he c hc)
        · rfl
      · by_cases hx : x = a
        · simp [mget, hx]
        · have : ¬ a = x := fun h => hx h.symm
          simp [mget, hx, this]
    · split
      · rename_i hn
        by_cases hx : x = a
        · rw [if_pos hx]
          split
          · rename_i hb
            rw [hb, hx]
            exact mget_below fun c hc => by simpa [hn] using he c hc
          · simp [mget, hx]
        · have h1 : ¬ e.1 = x := fun h => hx (by omega)
          have h2 : ¬ a = x := fun h => hx h.symm
          rw [if_neg hx]
          split <;> simp [mget, h1, h2]
      · rename_i hn
        simp only [mget, ih (Mem.wf_tail h)]
        by_cases hx : x = a
        · have : ¬ e.1 = x := by omega
          simp [hx] at this ⊢
          intro h; omega
        · simp [hx]

/-- Canonical memories that read alike are equal. -/
theorem Mem.ext_of_mget {m m' : Mem} (h : Mem.wf m = true) (h' : Mem.wf m' = true)
    (heq : ∀ a, mget m a = mget m' a) : m = m' := by
  induction m generalizing m' with
  | nil =>
    cases m' with
    | nil => rfl
    | cons e t =>
      exact absurd (by simpa [mget] using (heq e.1).symm) (((Mem.wf_iff _).1 h').2 e (by simp))
  | cons d t ih =>
    obtain ⟨hp, hz⟩ := (Mem.wf_iff _).1 h
    obtain ⟨hd, -⟩ := List.pairwise_cons.1 hp
    cases m' with
    | nil => exact absurd (by simpa [mget] using heq d.1) (hz d (by simp))
    | cons e u =>
      obtain ⟨hp', hz'⟩ := (Mem.wf_iff _).1 h'
      obtain ⟨he, -⟩ := List.pairwise_cons.1 hp'
      have hk : d.1 = e.1 := by
        rcases lt_trichotomy d.1 e.1 with hl | hl | hl
        · have h0 : mget (e :: u) d.1 = 0 := mget_below fun c hc => by
            rcases List.mem_cons.1 hc with rfl | hc
            · exact hl
            · exact lt_trans hl (he c hc)
          exact absurd (by have := heq d.1; rwa [h0, mget, if_pos rfl] at this) (hz d (by simp))
        · exact hl
        · have h0 : mget (d :: t) e.1 = 0 := mget_below fun c hc => by
            rcases List.mem_cons.1 hc with rfl | hc
            · exact hl
            · exact lt_trans hl (hd c hc)
          exact absurd (by have := (heq e.1).symm; rwa [h0, mget, if_pos rfl] at this) (hz' e (by simp))
      have hb : d.2 = e.2 := by simpa [mget, hk] using heq d.1
      have hr : t = u := ih (Mem.wf_tail h) (Mem.wf_tail h') fun a => by
        by_cases ha : d.1 = a
        · have h1 : mget t a = 0 := mget_below fun c hc => ha ▸ hd c hc
          have h2 : mget u a = 0 := mget_below fun c hc => ha ▸ hk ▸ he c hc
          rw [h1, h2]
        · have ha' : ¬ e.1 = a := fun h => ha (hk.trans h)
          simpa [mget, ha, ha'] using heq a
      rw [hr, Prod.ext hk hb]

/-! ## Runs of bytes -/

theorem mwrite_wf {m : Mem} (h : Mem.wf m = true) (a : Nat) (l : List Byte) : Mem.wf (mwrite m a l) = true := by
  induction l generalizing m a with
  | nil => exact h
  | cons b t ih => exact ih (mset_wf h a b) (a + 1)

/-- Every byte outside the run written reads as before. -/
theorem mget_mwrite_outside {m : Mem} (h : Mem.wf m = true) {a x : Nat} {l : List Byte} (hx : x < a ∨ a + l.length ≤ x) :
    mget (mwrite m a l) x = mget m x := by
  induction l generalizing m a with
  | nil => rfl
  | cons b t ih =>
    rw [List.length_cons] at hx
    rw [mwrite, ih (mset_wf h a b) (by omega), mget_mset h, if_neg (by omega)]

/-- A byte of the run written reads as the list has it. -/
theorem mget_mwrite_inside {m : Mem} (h : Mem.wf m = true) (a : Nat) {l : List Byte} {k : Nat} (hk : k < l.length) :
    mget (mwrite m a l) (a + k) = l[k] := by
  induction l generalizing m a k with
  | nil => simp at hk
  | cons b t ih =>
    cases k with
    | zero =>
      rw [mwrite, mget_mwrite_outside (mset_wf h a b) (by omega), mget_mset h]
      simp
    | succ k =>
      have := ih (mset_wf h a b) (a + 1) (k := k) (by simpa using hk)
      rw [mwrite, show a + (k + 1) = a + 1 + k by omega, this]
      rfl

@[simp] theorem mread_length (m : Mem) (a n : Nat) : (mread m a n).length = n := by
  induction n generalizing a with
  | zero => rfl
  | succ n ih => simp [mread, ih]

/-- Bytes read alike when each of them does. -/
theorem mread_congr {m m' : Mem} {a n : Nat} (h : ∀ x, a ≤ x → x < a + n → mget m x = mget m' x) :
    mread m a n = mread m' a n := by
  induction n generalizing a with
  | zero => rfl
  | succ n ih =>
    rw [mread, mread, h a (by omega) (by omega), ih fun x h1 h2 => h x (by omega) (by omega)]

/-- What was written is read back. -/
theorem mread_mwrite {m : Mem} (h : Mem.wf m = true) (a : Nat) (l : List Byte) : mread (mwrite m a l) a l.length = l := by
  induction l generalizing m a with
  | nil => rfl
  | cons b t ih =>
    rw [List.length_cons, mread, mwrite, ih (mset_wf h a b) (a + 1),
      mget_mwrite_outside (mset_wf h a b) (by omega), mget_mset h, if_pos rfl]

/-- A run that does not meet the bytes written reads as before. -/
theorem mread_mwrite_apart {m : Mem} (h : Mem.wf m = true) {a x n : Nat} {l : List Byte}
    (hx : x + n ≤ a ∨ a + l.length ≤ x) : mread (mwrite m a l) x n = mread m x n :=
  mread_congr fun y h1 h2 => mget_mwrite_outside h (by omega)

theorem mzero_wf {m : Mem} (h : Mem.wf m = true) (a n : Nat) : Mem.wf (mzero m a n) = true := by
  rw [Mem.wf_iff] at h ⊢
  exact ⟨h.1.filter _, fun c hc => h.2 c (List.mem_of_mem_filter hc)⟩

/-- Reading a byte after a range was cleared. -/
theorem mget_mzero (m : Mem) (a n x : Nat) :
    mget (mzero m a n) x = if a ≤ x ∧ x < a + n then 0 else mget m x := by
  induction m with
  | nil => simp [mzero, mget]
  | cons e t ih =>
    rw [mzero] at ih
    by_cases he : a ≤ e.1 ∧ e.1 < a + n
    · simp only [mzero, List.filter_cons, he.1, he.2, decide_true, Bool.and_self, Bool.not_true, Bool.false_eq_true, if_false, ih,
        mget]
      by_cases hx : e.1 = x
      · simp [← hx, he]
      · simp [hx]
    · have hb : (!(decide (a ≤ e.1) && decide (e.1 < a + n))) = true := by
        rw [← Bool.decide_and, decide_eq_false he]; rfl
      simp only [mzero, List.filter_cons, hb, if_true, mget, ih]
      by_cases hx : e.1 = x
      · rw [if_pos hx, if_neg (hx ▸ he), if_pos hx]
      · simp [hx]

theorem mwriteMask_wf {m : Mem} (h : Mem.wf m = true) (a : Nat) (l : List Byte) (k : List Bool) :
    Mem.wf (mwriteMask m a l k) = true := by
  induction l generalizing m a k with
  | nil => exact h
  | cons b t ih =>
    cases k with
    | nil => exact h
    | cons c k => exact ih (by split <;> [exact mset_wf h a b; exact h]) (a + 1) k

/-- Every byte outside the run reads as before. -/
theorem mget_mwriteMask_outside {m : Mem} (h : Mem.wf m = true) {a x : Nat} {l : List Byte} {k : List Bool}
    (hx : x < a ∨ a + l.length ≤ x) : mget (mwriteMask m a l k) x = mget m x := by
  induction l generalizing m a k with
  | nil => rfl
  | cons b t ih =>
    cases k with
    | nil => rfl
    | cons c k =>
      rw [List.length_cons] at hx
      cases c
      · exact ih h (by omega)
      · rw [mwriteMask, if_pos rfl, ih (mset_wf h a b) (by omega), mget_mset h, if_neg (by omega)]

/-! ## Numbers in memory -/

@[simp] theorem toLE_length (n v : Nat) : (toLE n v).length = n := by
  induction n generalizing v with
  | zero => rfl
  | succ n ih => simp [toLE, ih]

/-- The low bytes of a number, read back as a number. -/
theorem leNat_toLE (n v : Nat) : leNat (toLE n v) = v % 2 ^ (8 * n) := by
  induction n generalizing v with
  | zero => simp [toLE, leNat, Nat.mod_one]
  | succ n ih =>
    rw [toLE, leNat, ih, BitVec.toNat_ofNat, show 8 * (n + 1) = 8 + 8 * n by omega, Nat.pow_add, Nat.mod_mul]

/-- A number that was written is read back, to the width it was written in. -/
theorem mnat_mwrite {m : Mem} (h : Mem.wf m = true) (a n v : Nat) : mnat (mwrite m a (toLE n v)) a n = v % 2 ^ (8 * n) := by
  have := mread_mwrite h a (toLE n v)
  rw [toLE_length] at this
  rw [mnat, this, leNat_toLE]

/-! ## Rings of records and the stack tier -/

/-- What putting a record in a ring can do (R91, R96): HEAD is read again or not, and the record is counted as dropped, or
written to the entry that the count of written records names. -/
theorem ringPut_cases (m : Mem) (r : Ring) (v : Nat) : ∃ h,
    ringPut m r v = (m, { r with head := h, dropped := satAdd 0x7FFF r.dropped 1 }, false) ∨
    ∃ b w, r.base = some b ∧ ringFull r h = false ∧
      ringPut m r v = (mwrite m (b.toNat + 64 + 32 * (r.written % r.entries)) (toLE 32 w),
        { r with head := h, written := r.written + 1, dropped := 0 }, true) := by
  obtain ⟨base, n, w, hd, dr, vec⟩ := r
  cases base with
  | none => exact ⟨hd, .inl rfl⟩
  | some b =>
    unfold ringPut
    dsimp only
    by_cases h1 : ringFull ⟨some b, n, w, hd, dr, vec⟩ hd = true
    · rw [if_pos h1]
      dsimp only
      by_cases h2 : ringFull ⟨some b, n, w, mnat m b.toNat 4, dr, vec⟩ (mnat m b.toNat 4) = true
      · rw [if_pos h2]
        exact ⟨_, .inl rfl⟩
      · rw [if_neg h2]
        exact ⟨_, .inr ⟨b, _, rfl, Bool.eq_false_iff.2 h2, rfl⟩⟩
    · rw [if_neg h1]
      dsimp only
      rw [if_neg h1]
      exact ⟨hd, .inr ⟨b, _, rfl, Bool.eq_false_iff.2 h1, rfl⟩⟩

/-- A record put in a ring keeps the memory's form. -/
theorem ringPut_wf {m : Mem} (h : Mem.wf m = true) (r : Ring) (v : Nat) : Mem.wf (ringPut m r v).1 = true := by
  obtain ⟨_, e | ⟨b, w, _, _, e⟩⟩ := ringPut_cases m r v
  · rw [e]; exact h
  · have := mwrite_wf h (b.toNat + 64 + 32 * (r.written % r.entries)) (toLE 32 w)
    rw [e]
    dsimp only
    exact this

/-- A record that is not written leaves the memory and is counted as dropped. -/
theorem ringPut_dropped {m : Mem} {r : Ring} {v : Nat} (h : (ringPut m r v).2.2 = false) :
    (ringPut m r v).1 = m ∧ (ringPut m r v).2.1.dropped = satAdd 0x7FFF r.dropped 1 := by
  obtain ⟨_, e | ⟨b, w, _, _, e⟩⟩ := ringPut_cases m r v
  · rw [e]; exact ⟨rfl, rfl⟩
  · rw [e] at h; cases h

/-- A record that is written counts once and clears the dropped count. -/
theorem ringPut_written {m : Mem} {r : Ring} {v : Nat} (h : (ringPut m r v).2.2 = true) :
    (ringPut m r v).2.1.written = r.written + 1 ∧ (ringPut m r v).2.1.dropped = 0 := by
  obtain ⟨_, e | ⟨b, w, _, _, e⟩⟩ := ringPut_cases m r v
  · rw [e] at h; cases h
  · rw [e]; exact ⟨rfl, rfl⟩

/-- A ring record changes no more than the 32 bytes of the entry that its count names. -/
theorem ringPut_frame {m : Mem} (h : Mem.wf m = true) {r : Ring} {v : Nat} {b : W64} (hb : r.base = some b) {x : Nat}
    (hx : x < b.toNat + 64 + 32 * (r.written % r.entries) ∨ b.toNat + 64 + 32 * (r.written % r.entries) + 32 ≤ x) :
    mget (ringPut m r v).1 x = mget m x := by
  obtain ⟨_, e | ⟨b', w, hb', _, e⟩⟩ := ringPut_cases m r v
  · rw [e]
  · obtain rfl : b = b' := Option.some.inj (hb.symm.trans hb')
    have hl : (toLE 32 w).length = 32 := toLE_length 32 w
    generalize toLE 32 w = l at e hl
    rw [e]
    dsimp only
    exact mget_mwrite_outside h (by omega)

/-- A record leaves its ring's place, size and vector. -/
theorem ringPut_ring (m : Mem) (r : Ring) (v : Nat) : (ringPut m r v).2.1.base = r.base ∧
    (ringPut m r v).2.1.entries = r.entries ∧ (ringPut m r v).2.1.vector = r.vector := by
  obtain ⟨_, e | ⟨_, _, _, _, e⟩⟩ := ringPut_cases m r v <;> rw [e] <;> exact ⟨rfl, rfl, rfl⟩

theorem writeBack_wf {m : Mem} (h : Mem.wf m = true) (l : StkLine) : Mem.wf (writeBack m l) = true := mwriteMask_wf h _ _ _

/-- A fold of writes, each of which keeps the form, keeps it. -/
theorem foldl_wf {β : Type} {m : Mem} (h : Mem.wf m = true) (f : Mem → β → Mem)
    (hf : ∀ m b, Mem.wf m = true → Mem.wf (f m b) = true) (l : List β) : Mem.wf (l.foldl f m) = true := by
  induction l generalizing m with
  | nil => exact h
  | cons b t ih => exact ih (hf m b h)

/-- A clean of a slot keeps the memory's form (R204). -/
theorem cleanFab_wf {f : Fabric} (h : Mem.wf f.mem = true) (n : Nat) : Mem.wf (cleanFab f n).mem = true :=
  foldl_wf h _ (fun _ l hm => by split <;> [exact writeBack_wf hm l; exact hm]) _

/-- A line of the tier, filled or found, leaves the memory's form. -/
theorem tierLine_wf {s : State} (h : Mem.wf s.fab.mem = true) (n k pa : Nat) : Mem.wf (tierLine s n k pa).1.fab.mem = true := by
  unfold tierLine
  split
  · exact h
  · exact foldl_wf h _ (fun _ l hm => by split <;> [exact writeBack_wf hm l; exact hm]) _

/-- A read through the tier keeps the memory's form. -/
theorem tierRead_wf (n fuel : Nat) {s : State} (h : Mem.wf s.fab.mem = true) (pa len : Nat) :
    Mem.wf (tierRead n fuel s pa len).1.fab.mem = true := by
  induction fuel generalizing s pa len with
  | zero => exact h
  | succ fuel ih =>
    unfold tierRead
    split
    · exact h
    · split
      · exact h
      · exact ih (tierLine_wf h n _ pa) _ _

/-- A write through the tier keeps the memory's form. -/
theorem tierWrite_wf (n fuel : Nat) {s : State} (h : Mem.wf s.fab.mem = true) (pa : Nat) (bs : List Byte) :
    Mem.wf (tierWrite n fuel s pa bs).fab.mem = true := by
  induction fuel generalizing s pa bs with
  | zero => exact h
  | succ fuel ih =>
    unfold tierWrite
    split
    · exact h
    · split
      · exact mwrite_wf h _ _
      · exact ih (s := { (tierLine s n _ pa).1 with fab := setLine (tierLine s n _ pa).1.fab _ })
          (tierLine_wf h n _ pa) _ _

/-- A local physical read keeps the memory's form. -/
theorem physRead_wf {s : State} (h : Mem.wf s.fab.mem = true) (slot : Option Nat) (stk : Bool) (pa n : Nat) :
    Mem.wf (physRead s slot stk pa n).1.fab.mem = true := by
  unfold physRead
  split
  · exact tierRead_wf _ _ h _ _
  · exact h

/-- A local physical write keeps the memory's form. -/
theorem physWrite_wf {s : State} (h : Mem.wf s.fab.mem = true) (slot : Option Nat) (stk : Bool) (pa : Nat) (bs : List Byte) :
    Mem.wf (physWrite s slot stk pa bs).fab.mem = true := by
  unfold physWrite
  split
  · exact tierWrite_wf _ _ h _ _
  · exact mwrite_wf h _ _

end Sys2Proof.Machine
end

