-- ==== Sys2Proof/Laws/State.lean ====
section
/-! SUPPORT. For each update of State, one lemma per field: the field it writes, and that it leaves the others alone. -/

namespace Sys2Proof.Machine

variable (s : State)

/-! ### setFn -/

@[simp] theorem setFn_hoop (f : Nat) (x : Fn) : (setFn s f x).hoop = s.hoop := rfl
@[simp] theorem setFn_regs (f : Nat) (x : Fn) : (setFn s f x).regs = s.regs := rfl
@[simp] theorem setFn_acc (f : Nat) (x : Fn) : (setFn s f x).acc = s.acc := rfl
@[simp] theorem setFn_obj (f : Nat) (x : Fn) : (setFn s f x).obj = s.obj := rfl
@[simp] theorem setFn_fns (f : Nat) (x : Fn) : (setFn s f x).fns = tset s.fns f x := rfl
@[simp] theorem setFn_mmu (f : Nat) (x : Fn) : (setFn s f x).mmu = s.mmu := rfl
@[simp] theorem setFn_fe (f : Nat) (x : Fn) : (setFn s f x).fe = s.fe := rfl
@[simp] theorem setFn_car (f : Nat) (x : Fn) : (setFn s f x).car = s.car := rfl
@[simp] theorem setFn_fab (f : Nat) (x : Fn) : (setFn s f x).fab = s.fab := rfl
@[simp] theorem setFn_cores (f : Nat) (x : Fn) : (setFn s f x).cores = s.cores := rfl
@[simp] theorem setFn_eng (f : Nat) (x : Fn) : (setFn s f x).eng = s.eng := rfl
@[simp] theorem setFn_bob (f : Nat) (x : Fn) : (setFn s f x).bob = s.bob := rfl
@[simp] theorem setFn_ras (f : Nat) (x : Fn) : (setFn s f x).ras = s.ras := rfl
@[simp] theorem setFn_cch (f : Nat) (x : Fn) : (setFn s f x).cch = s.cch := rfl
@[simp] theorem setFn_cod (f : Nat) (x : Fn) : (setFn s f x).cod = s.cod := rfl
@[simp] theorem setFn_circ (f : Nat) (x : Fn) : (setFn s f x).circ = s.circ := rfl
@[simp] theorem setFn_twin (f : Nat) (x : Fn) : (setFn s f x).twin = s.twin := rfl
@[simp] theorem setFn_flt (f : Nat) (x : Fn) : (setFn s f x).flt = s.flt := rfl
@[simp] theorem setFn_fw (f : Nat) (x : Fn) : (setFn s f x).fw = s.fw := rfl
@[simp] theorem setFn_pwr (f : Nat) (x : Fn) : (setFn s f x).pwr = s.pwr := rfl
@[simp] theorem setFn_brd (f : Nat) (x : Fn) : (setFn s f x).brd = s.brd := rfl
@[simp] theorem setFn_bus (f : Nat) (x : Fn) : (setFn s f x).bus = s.bus := rfl
@[simp] theorem setFn_free (f : Nat) (x : Fn) : (setFn s f x).free = s.free := rfl
@[simp] theorem setFn_pending (f : Nat) (x : Fn) : (setFn s f x).pending = s.pending := rfl

/-! ### hostWrite -/

@[simp] theorem hostWrite_hoop (a : Nat) (l : List Byte) : (hostWrite s a l).hoop = s.hoop := rfl
@[simp] theorem hostWrite_regs (a : Nat) (l : List Byte) : (hostWrite s a l).regs = s.regs := rfl
@[simp] theorem hostWrite_acc (a : Nat) (l : List Byte) : (hostWrite s a l).acc = s.acc := rfl
@[simp] theorem hostWrite_obj (a : Nat) (l : List Byte) : (hostWrite s a l).obj = s.obj := rfl
@[simp] theorem hostWrite_fns (a : Nat) (l : List Byte) : (hostWrite s a l).fns = s.fns := rfl
@[simp] theorem hostWrite_mmu (a : Nat) (l : List Byte) : (hostWrite s a l).mmu = s.mmu := rfl
@[simp] theorem hostWrite_fe (a : Nat) (l : List Byte) : (hostWrite s a l).fe = s.fe := rfl
@[simp] theorem hostWrite_car (a : Nat) (l : List Byte) : (hostWrite s a l).car = s.car := rfl
@[simp] theorem hostWrite_fab (a : Nat) (l : List Byte) : (hostWrite s a l).fab = { s.fab with host := mwrite s.fab.host a l } := rfl
@[simp] theorem hostWrite_cores (a : Nat) (l : List Byte) : (hostWrite s a l).cores = s.cores := rfl
@[simp] theorem hostWrite_eng (a : Nat) (l : List Byte) : (hostWrite s a l).eng = s.eng := rfl
@[simp] theorem hostWrite_bob (a : Nat) (l : List Byte) : (hostWrite s a l).bob = s.bob := rfl
@[simp] theorem hostWrite_ras (a : Nat) (l : List Byte) : (hostWrite s a l).ras = s.ras := rfl
@[simp] theorem hostWrite_cch (a : Nat) (l : List Byte) : (hostWrite s a l).cch = s.cch := rfl
@[simp] theorem hostWrite_cod (a : Nat) (l : List Byte) : (hostWrite s a l).cod = s.cod := rfl
@[simp] theorem hostWrite_circ (a : Nat) (l : List Byte) : (hostWrite s a l).circ = s.circ := rfl
@[simp] theorem hostWrite_twin (a : Nat) (l : List Byte) : (hostWrite s a l).twin = s.twin := rfl
@[simp] theorem hostWrite_flt (a : Nat) (l : List Byte) : (hostWrite s a l).flt = s.flt := rfl
@[simp] theorem hostWrite_fw (a : Nat) (l : List Byte) : (hostWrite s a l).fw = s.fw := rfl
@[simp] theorem hostWrite_pwr (a : Nat) (l : List Byte) : (hostWrite s a l).pwr = s.pwr := rfl
@[simp] theorem hostWrite_brd (a : Nat) (l : List Byte) : (hostWrite s a l).brd = s.brd := rfl
@[simp] theorem hostWrite_bus (a : Nat) (l : List Byte) : (hostWrite s a l).bus = s.bus := rfl
@[simp] theorem hostWrite_free (a : Nat) (l : List Byte) : (hostWrite s a l).free = s.free := rfl
@[simp] theorem hostWrite_pending (a : Nat) (l : List Byte) : (hostWrite s a l).pending = s.pending := rfl

/-! ### drew -/

@[simp] theorem drew_hoop : (drew s).hoop = s.hoop := rfl
@[simp] theorem drew_regs : (drew s).regs = s.regs := rfl
@[simp] theorem drew_acc : (drew s).acc = s.acc := rfl
@[simp] theorem drew_obj : (drew s).obj = s.obj := rfl
@[simp] theorem drew_fns : (drew s).fns = s.fns := rfl
@[simp] theorem drew_mmu : (drew s).mmu = s.mmu := rfl
@[simp] theorem drew_fe : (drew s).fe = s.fe := rfl
@[simp] theorem drew_car : (drew s).car = s.car := rfl
@[simp] theorem drew_fab : (drew s).fab = s.fab := rfl
@[simp] theorem drew_cores : (drew s).cores = s.cores := rfl
@[simp] theorem drew_eng : (drew s).eng = s.eng := rfl
@[simp] theorem drew_bob : (drew s).bob = s.bob := rfl
@[simp] theorem drew_ras : (drew s).ras = s.ras := rfl
@[simp] theorem drew_cch : (drew s).cch = s.cch := rfl
@[simp] theorem drew_cod : (drew s).cod = s.cod := rfl
@[simp] theorem drew_circ : (drew s).circ = s.circ := rfl
@[simp] theorem drew_twin : (drew s).twin = s.twin := rfl
@[simp] theorem drew_flt : (drew s).flt = s.flt := rfl
@[simp] theorem drew_fw : (drew s).fw = s.fw := rfl
@[simp] theorem drew_pwr : (drew s).pwr = s.pwr := rfl
@[simp] theorem drew_brd : (drew s).brd = s.brd := rfl
@[simp] theorem drew_bus : (drew s).bus = s.bus := rfl
@[simp] theorem drew_free : (drew s).free = s.free + 1 := rfl
@[simp] theorem drew_pending : (drew s).pending = s.pending := rfl

/-! ### drewN -/

@[simp] theorem drewN_hoop (n : Nat) : (drewN s n).hoop = s.hoop := rfl
@[simp] theorem drewN_regs (n : Nat) : (drewN s n).regs = s.regs := rfl
@[simp] theorem drewN_acc (n : Nat) : (drewN s n).acc = s.acc := rfl
@[simp] theorem drewN_obj (n : Nat) : (drewN s n).obj = s.obj := rfl
@[simp] theorem drewN_fns (n : Nat) : (drewN s n).fns = s.fns := rfl
@[simp] theorem drewN_mmu (n : Nat) : (drewN s n).mmu = s.mmu := rfl
@[simp] theorem drewN_fe (n : Nat) : (drewN s n).fe = s.fe := rfl
@[simp] theorem drewN_car (n : Nat) : (drewN s n).car = s.car := rfl
@[simp] theorem drewN_fab (n : Nat) : (drewN s n).fab = s.fab := rfl
@[simp] theorem drewN_cores (n : Nat) : (drewN s n).cores = s.cores := rfl
@[simp] theorem drewN_eng (n : Nat) : (drewN s n).eng = s.eng := rfl
@[simp] theorem drewN_bob (n : Nat) : (drewN s n).bob = s.bob := rfl
@[simp] theorem drewN_ras (n : Nat) : (drewN s n).ras = s.ras := rfl
@[simp] theorem drewN_cch (n : Nat) : (drewN s n).cch = s.cch := rfl
@[simp] theorem drewN_cod (n : Nat) : (drewN s n).cod = s.cod := rfl
@[simp] theorem drewN_circ (n : Nat) : (drewN s n).circ = s.circ := rfl
@[simp] theorem drewN_twin (n : Nat) : (drewN s n).twin = s.twin := rfl
@[simp] theorem drewN_flt (n : Nat) : (drewN s n).flt = s.flt := rfl
@[simp] theorem drewN_fw (n : Nat) : (drewN s n).fw = s.fw := rfl
@[simp] theorem drewN_pwr (n : Nat) : (drewN s n).pwr = s.pwr := rfl
@[simp] theorem drewN_brd (n : Nat) : (drewN s n).brd = s.brd := rfl
@[simp] theorem drewN_bus (n : Nat) : (drewN s n).bus = s.bus := rfl
@[simp] theorem drewN_free (n : Nat) : (drewN s n).free = s.free + n := rfl
@[simp] theorem drewN_pending (n : Nat) : (drewN s n).pending = s.pending := rfl

/-! ### setObj -/

@[simp] theorem setObj_hoop (o : Objects) : (setObj s o).hoop = s.hoop := rfl
@[simp] theorem setObj_regs (o : Objects) : (setObj s o).regs = s.regs := rfl
@[simp] theorem setObj_acc (o : Objects) : (setObj s o).acc = s.acc := rfl
@[simp] theorem setObj_obj (o : Objects) : (setObj s o).obj = o := rfl
@[simp] theorem setObj_fns (o : Objects) : (setObj s o).fns = s.fns := rfl
@[simp] theorem setObj_mmu (o : Objects) : (setObj s o).mmu = s.mmu := rfl
@[simp] theorem setObj_fe (o : Objects) : (setObj s o).fe = s.fe := rfl
@[simp] theorem setObj_car (o : Objects) : (setObj s o).car = s.car := rfl
@[simp] theorem setObj_fab (o : Objects) : (setObj s o).fab = s.fab := rfl
@[simp] theorem setObj_cores (o : Objects) : (setObj s o).cores = s.cores := rfl
@[simp] theorem setObj_eng (o : Objects) : (setObj s o).eng = s.eng := rfl
@[simp] theorem setObj_bob (o : Objects) : (setObj s o).bob = s.bob := rfl
@[simp] theorem setObj_ras (o : Objects) : (setObj s o).ras = s.ras := rfl
@[simp] theorem setObj_cch (o : Objects) : (setObj s o).cch = s.cch := rfl
@[simp] theorem setObj_cod (o : Objects) : (setObj s o).cod = s.cod := rfl
@[simp] theorem setObj_circ (o : Objects) : (setObj s o).circ = s.circ := rfl
@[simp] theorem setObj_twin (o : Objects) : (setObj s o).twin = s.twin := rfl
@[simp] theorem setObj_flt (o : Objects) : (setObj s o).flt = s.flt := rfl
@[simp] theorem setObj_fw (o : Objects) : (setObj s o).fw = s.fw := rfl
@[simp] theorem setObj_pwr (o : Objects) : (setObj s o).pwr = s.pwr := rfl
@[simp] theorem setObj_brd (o : Objects) : (setObj s o).brd = s.brd := rfl
@[simp] theorem setObj_bus (o : Objects) : (setObj s o).bus = s.bus := rfl
@[simp] theorem setObj_free (o : Objects) : (setObj s o).free = s.free := rfl
@[simp] theorem setObj_pending (o : Objects) : (setObj s o).pending = s.pending := rfl

/-! ### setQueue -/

@[simp] theorem setQueue_hoop (q : Nat) (x : Queue) : (setQueue s q x).hoop = s.hoop := rfl
@[simp] theorem setQueue_regs (q : Nat) (x : Queue) : (setQueue s q x).regs = s.regs := rfl
@[simp] theorem setQueue_acc (q : Nat) (x : Queue) : (setQueue s q x).acc = s.acc := rfl
@[simp] theorem setQueue_obj (q : Nat) (x : Queue) : (setQueue s q x).obj = { s.obj with queues := tset s.obj.queues q x } := rfl
@[simp] theorem setQueue_fns (q : Nat) (x : Queue) : (setQueue s q x).fns = s.fns := rfl
@[simp] theorem setQueue_mmu (q : Nat) (x : Queue) : (setQueue s q x).mmu = s.mmu := rfl
@[simp] theorem setQueue_fe (q : Nat) (x : Queue) : (setQueue s q x).fe = s.fe := rfl
@[simp] theorem setQueue_car (q : Nat) (x : Queue) : (setQueue s q x).car = s.car := rfl
@[simp] theorem setQueue_fab (q : Nat) (x : Queue) : (setQueue s q x).fab = s.fab := rfl
@[simp] theorem setQueue_cores (q : Nat) (x : Queue) : (setQueue s q x).cores = s.cores := rfl
@[simp] theorem setQueue_eng (q : Nat) (x : Queue) : (setQueue s q x).eng = s.eng := rfl
@[simp] theorem setQueue_bob (q : Nat) (x : Queue) : (setQueue s q x).bob = s.bob := rfl
@[simp] theorem setQueue_ras (q : Nat) (x : Queue) : (setQueue s q x).ras = s.ras := rfl
@[simp] theorem setQueue_cch (q : Nat) (x : Queue) : (setQueue s q x).cch = s.cch := rfl
@[simp] theorem setQueue_cod (q : Nat) (x : Queue) : (setQueue s q x).cod = s.cod := rfl
@[simp] theorem setQueue_circ (q : Nat) (x : Queue) : (setQueue s q x).circ = s.circ := rfl
@[simp] theorem setQueue_twin (q : Nat) (x : Queue) : (setQueue s q x).twin = s.twin := rfl
@[simp] theorem setQueue_flt (q : Nat) (x : Queue) : (setQueue s q x).flt = s.flt := rfl
@[simp] theorem setQueue_fw (q : Nat) (x : Queue) : (setQueue s q x).fw = s.fw := rfl
@[simp] theorem setQueue_pwr (q : Nat) (x : Queue) : (setQueue s q x).pwr = s.pwr := rfl
@[simp] theorem setQueue_brd (q : Nat) (x : Queue) : (setQueue s q x).brd = s.brd := rfl
@[simp] theorem setQueue_bus (q : Nat) (x : Queue) : (setQueue s q x).bus = s.bus := rfl
@[simp] theorem setQueue_free (q : Nat) (x : Queue) : (setQueue s q x).free = s.free := rfl
@[simp] theorem setQueue_pending (q : Nat) (x : Queue) : (setQueue s q x).pending = s.pending := rfl

/-! ### putQ -/

@[simp] theorem putQ_hoop (q : Nat) (x : Queue) : (putQ s q x).hoop = s.hoop := rfl
@[simp] theorem putQ_regs (q : Nat) (x : Queue) : (putQ s q x).regs = s.regs := rfl
@[simp] theorem putQ_acc (q : Nat) (x : Queue) : (putQ s q x).acc = s.acc := rfl
@[simp] theorem putQ_obj (q : Nat) (x : Queue) : (putQ s q x).obj = { s.obj with queues := tset s.obj.queues q x } := rfl
@[simp] theorem putQ_fns (q : Nat) (x : Queue) : (putQ s q x).fns = s.fns := rfl
@[simp] theorem putQ_mmu (q : Nat) (x : Queue) : (putQ s q x).mmu = s.mmu := rfl
@[simp] theorem putQ_fe (q : Nat) (x : Queue) : (putQ s q x).fe = s.fe := rfl
@[simp] theorem putQ_car (q : Nat) (x : Queue) : (putQ s q x).car = s.car := rfl
@[simp] theorem putQ_fab (q : Nat) (x : Queue) : (putQ s q x).fab = s.fab := rfl
@[simp] theorem putQ_cores (q : Nat) (x : Queue) : (putQ s q x).cores = s.cores := rfl
@[simp] theorem putQ_eng (q : Nat) (x : Queue) : (putQ s q x).eng = s.eng := rfl
@[simp] theorem putQ_bob (q : Nat) (x : Queue) : (putQ s q x).bob = s.bob := rfl
@[simp] theorem putQ_ras (q : Nat) (x : Queue) : (putQ s q x).ras = s.ras := rfl
@[simp] theorem putQ_cch (q : Nat) (x : Queue) : (putQ s q x).cch = s.cch := rfl
@[simp] theorem putQ_cod (q : Nat) (x : Queue) : (putQ s q x).cod = s.cod := rfl
@[simp] theorem putQ_circ (q : Nat) (x : Queue) : (putQ s q x).circ = s.circ := rfl
@[simp] theorem putQ_twin (q : Nat) (x : Queue) : (putQ s q x).twin = s.twin := rfl
@[simp] theorem putQ_flt (q : Nat) (x : Queue) : (putQ s q x).flt = s.flt := rfl
@[simp] theorem putQ_fw (q : Nat) (x : Queue) : (putQ s q x).fw = s.fw := rfl
@[simp] theorem putQ_pwr (q : Nat) (x : Queue) : (putQ s q x).pwr = s.pwr := rfl
@[simp] theorem putQ_brd (q : Nat) (x : Queue) : (putQ s q x).brd = s.brd := rfl
@[simp] theorem putQ_bus (q : Nat) (x : Queue) : (putQ s q x).bus = s.bus := rfl
@[simp] theorem putQ_free (q : Nat) (x : Queue) : (putQ s q x).free = s.free := rfl
@[simp] theorem putQ_pending (q : Nat) (x : Queue) : (putQ s q x).pending = s.pending := rfl

/-! ### setFence -/

@[simp] theorem setFence_hoop (f : Nat) (x : Fence) : (setFence s f x).hoop = s.hoop := rfl
@[simp] theorem setFence_regs (f : Nat) (x : Fence) : (setFence s f x).regs = s.regs := rfl
@[simp] theorem setFence_acc (f : Nat) (x : Fence) : (setFence s f x).acc = s.acc := rfl
@[simp] theorem setFence_obj (f : Nat) (x : Fence) : (setFence s f x).obj = { s.obj with fences := tset s.obj.fences f x } := rfl
@[simp] theorem setFence_fns (f : Nat) (x : Fence) : (setFence s f x).fns = s.fns := rfl
@[simp] theorem setFence_mmu (f : Nat) (x : Fence) : (setFence s f x).mmu = s.mmu := rfl
@[simp] theorem setFence_fe (f : Nat) (x : Fence) : (setFence s f x).fe = s.fe := rfl
@[simp] theorem setFence_car (f : Nat) (x : Fence) : (setFence s f x).car = s.car := rfl
@[simp] theorem setFence_fab (f : Nat) (x : Fence) : (setFence s f x).fab = s.fab := rfl
@[simp] theorem setFence_cores (f : Nat) (x : Fence) : (setFence s f x).cores = s.cores := rfl
@[simp] theorem setFence_eng (f : Nat) (x : Fence) : (setFence s f x).eng = s.eng := rfl
@[simp] theorem setFence_bob (f : Nat) (x : Fence) : (setFence s f x).bob = s.bob := rfl
@[simp] theorem setFence_ras (f : Nat) (x : Fence) : (setFence s f x).ras = s.ras := rfl
@[simp] theorem setFence_cch (f : Nat) (x : Fence) : (setFence s f x).cch = s.cch := rfl
@[simp] theorem setFence_cod (f : Nat) (x : Fence) : (setFence s f x).cod = s.cod := rfl
@[simp] theorem setFence_circ (f : Nat) (x : Fence) : (setFence s f x).circ = s.circ := rfl
@[simp] theorem setFence_twin (f : Nat) (x : Fence) : (setFence s f x).twin = s.twin := rfl
@[simp] theorem setFence_flt (f : Nat) (x : Fence) : (setFence s f x).flt = s.flt := rfl
@[simp] theorem setFence_fw (f : Nat) (x : Fence) : (setFence s f x).fw = s.fw := rfl
@[simp] theorem setFence_pwr (f : Nat) (x : Fence) : (setFence s f x).pwr = s.pwr := rfl
@[simp] theorem setFence_brd (f : Nat) (x : Fence) : (setFence s f x).brd = s.brd := rfl
@[simp] theorem setFence_bus (f : Nat) (x : Fence) : (setFence s f x).bus = s.bus := rfl
@[simp] theorem setFence_free (f : Nat) (x : Fence) : (setFence s f x).free = s.free := rfl
@[simp] theorem setFence_pending (f : Nat) (x : Fence) : (setFence s f x).pending = s.pending := rfl

/-! ### setSlots -/

@[simp] theorem setSlots_hoop (l : List AccSlot) : (setSlots s l).hoop = s.hoop := rfl
@[simp] theorem setSlots_regs (l : List AccSlot) : (setSlots s l).regs = s.regs := rfl
@[simp] theorem setSlots_acc (l : List AccSlot) : (setSlots s l).acc = { s.acc with slots := l } := rfl
@[simp] theorem setSlots_obj (l : List AccSlot) : (setSlots s l).obj = s.obj := rfl
@[simp] theorem setSlots_fns (l : List AccSlot) : (setSlots s l).fns = s.fns := rfl
@[simp] theorem setSlots_mmu (l : List AccSlot) : (setSlots s l).mmu = s.mmu := rfl
@[simp] theorem setSlots_fe (l : List AccSlot) : (setSlots s l).fe = s.fe := rfl
@[simp] theorem setSlots_car (l : List AccSlot) : (setSlots s l).car = s.car := rfl
@[simp] theorem setSlots_fab (l : List AccSlot) : (setSlots s l).fab = s.fab := rfl
@[simp] theorem setSlots_cores (l : List AccSlot) : (setSlots s l).cores = s.cores := rfl
@[simp] theorem setSlots_eng (l : List AccSlot) : (setSlots s l).eng = s.eng := rfl
@[simp] theorem setSlots_bob (l : List AccSlot) : (setSlots s l).bob = s.bob := rfl
@[simp] theorem setSlots_ras (l : List AccSlot) : (setSlots s l).ras = s.ras := rfl
@[simp] theorem setSlots_cch (l : List AccSlot) : (setSlots s l).cch = s.cch := rfl
@[simp] theorem setSlots_cod (l : List AccSlot) : (setSlots s l).cod = s.cod := rfl
@[simp] theorem setSlots_circ (l : List AccSlot) : (setSlots s l).circ = s.circ := rfl
@[simp] theorem setSlots_twin (l : List AccSlot) : (setSlots s l).twin = s.twin := rfl
@[simp] theorem setSlots_flt (l : List AccSlot) : (setSlots s l).flt = s.flt := rfl
@[simp] theorem setSlots_fw (l : List AccSlot) : (setSlots s l).fw = s.fw := rfl
@[simp] theorem setSlots_pwr (l : List AccSlot) : (setSlots s l).pwr = s.pwr := rfl
@[simp] theorem setSlots_brd (l : List AccSlot) : (setSlots s l).brd = s.brd := rfl
@[simp] theorem setSlots_bus (l : List AccSlot) : (setSlots s l).bus = s.bus := rfl
@[simp] theorem setSlots_free (l : List AccSlot) : (setSlots s l).free = s.free := rfl
@[simp] theorem setSlots_pending (l : List AccSlot) : (setSlots s l).pending = s.pending := rfl

/-! ### setSlot -/

@[simp] theorem setSlot_hoop (n : Nat) (a : AccSlot) : (setSlot s n a).hoop = s.hoop := rfl
@[simp] theorem setSlot_regs (n : Nat) (a : AccSlot) : (setSlot s n a).regs = s.regs := rfl
@[simp] theorem setSlot_acc (n : Nat) (a : AccSlot) : (setSlot s n a).acc = { s.acc with slots := s.acc.slots.set n a } := rfl
@[simp] theorem setSlot_obj (n : Nat) (a : AccSlot) : (setSlot s n a).obj = s.obj := rfl
@[simp] theorem setSlot_fns (n : Nat) (a : AccSlot) : (setSlot s n a).fns = s.fns := rfl
@[simp] theorem setSlot_mmu (n : Nat) (a : AccSlot) : (setSlot s n a).mmu = s.mmu := rfl
@[simp] theorem setSlot_fe (n : Nat) (a : AccSlot) : (setSlot s n a).fe = s.fe := rfl
@[simp] theorem setSlot_car (n : Nat) (a : AccSlot) : (setSlot s n a).car = s.car := rfl
@[simp] theorem setSlot_fab (n : Nat) (a : AccSlot) : (setSlot s n a).fab = s.fab := rfl
@[simp] theorem setSlot_cores (n : Nat) (a : AccSlot) : (setSlot s n a).cores = s.cores := rfl
@[simp] theorem setSlot_eng (n : Nat) (a : AccSlot) : (setSlot s n a).eng = s.eng := rfl
@[simp] theorem setSlot_bob (n : Nat) (a : AccSlot) : (setSlot s n a).bob = s.bob := rfl
@[simp] theorem setSlot_ras (n : Nat) (a : AccSlot) : (setSlot s n a).ras = s.ras := rfl
@[simp] theorem setSlot_cch (n : Nat) (a : AccSlot) : (setSlot s n a).cch = s.cch := rfl
@[simp] theorem setSlot_cod (n : Nat) (a : AccSlot) : (setSlot s n a).cod = s.cod := rfl
@[simp] theorem setSlot_circ (n : Nat) (a : AccSlot) : (setSlot s n a).circ = s.circ := rfl
@[simp] theorem setSlot_twin (n : Nat) (a : AccSlot) : (setSlot s n a).twin = s.twin := rfl
@[simp] theorem setSlot_flt (n : Nat) (a : AccSlot) : (setSlot s n a).flt = s.flt := rfl
@[simp] theorem setSlot_fw (n : Nat) (a : AccSlot) : (setSlot s n a).fw = s.fw := rfl
@[simp] theorem setSlot_pwr (n : Nat) (a : AccSlot) : (setSlot s n a).pwr = s.pwr := rfl
@[simp] theorem setSlot_brd (n : Nat) (a : AccSlot) : (setSlot s n a).brd = s.brd := rfl
@[simp] theorem setSlot_bus (n : Nat) (a : AccSlot) : (setSlot s n a).bus = s.bus := rfl
@[simp] theorem setSlot_free (n : Nat) (a : AccSlot) : (setSlot s n a).free = s.free := rfl
@[simp] theorem setSlot_pending (n : Nat) (a : AccSlot) : (setSlot s n a).pending = s.pending := rfl

/-! ### setHoop -/

@[simp] theorem setHoop_hoop (h : Hoop) : (setHoop s h).hoop = h := rfl
@[simp] theorem setHoop_regs (h : Hoop) : (setHoop s h).regs = s.regs := rfl
@[simp] theorem setHoop_acc (h : Hoop) : (setHoop s h).acc = s.acc := rfl
@[simp] theorem setHoop_obj (h : Hoop) : (setHoop s h).obj = s.obj := rfl
@[simp] theorem setHoop_fns (h : Hoop) : (setHoop s h).fns = s.fns := rfl
@[simp] theorem setHoop_mmu (h : Hoop) : (setHoop s h).mmu = s.mmu := rfl
@[simp] theorem setHoop_fe (h : Hoop) : (setHoop s h).fe = s.fe := rfl
@[simp] theorem setHoop_car (h : Hoop) : (setHoop s h).car = s.car := rfl
@[simp] theorem setHoop_fab (h : Hoop) : (setHoop s h).fab = s.fab := rfl
@[simp] theorem setHoop_cores (h : Hoop) : (setHoop s h).cores = s.cores := rfl
@[simp] theorem setHoop_eng (h : Hoop) : (setHoop s h).eng = s.eng := rfl
@[simp] theorem setHoop_bob (h : Hoop) : (setHoop s h).bob = s.bob := rfl
@[simp] theorem setHoop_ras (h : Hoop) : (setHoop s h).ras = s.ras := rfl
@[simp] theorem setHoop_cch (h : Hoop) : (setHoop s h).cch = s.cch := rfl
@[simp] theorem setHoop_cod (h : Hoop) : (setHoop s h).cod = s.cod := rfl
@[simp] theorem setHoop_circ (h : Hoop) : (setHoop s h).circ = s.circ := rfl
@[simp] theorem setHoop_twin (h : Hoop) : (setHoop s h).twin = s.twin := rfl
@[simp] theorem setHoop_flt (h : Hoop) : (setHoop s h).flt = s.flt := rfl
@[simp] theorem setHoop_fw (h : Hoop) : (setHoop s h).fw = s.fw := rfl
@[simp] theorem setHoop_pwr (h : Hoop) : (setHoop s h).pwr = s.pwr := rfl
@[simp] theorem setHoop_brd (h : Hoop) : (setHoop s h).brd = s.brd := rfl
@[simp] theorem setHoop_bus (h : Hoop) : (setHoop s h).bus = s.bus := rfl
@[simp] theorem setHoop_free (h : Hoop) : (setHoop s h).free = s.free := rfl
@[simp] theorem setHoop_pending (h : Hoop) : (setHoop s h).pending = s.pending := rfl

/-! ### setFw -/

@[simp] theorem setFw_hoop (x : Firmware) : (setFw s x).hoop = s.hoop := rfl
@[simp] theorem setFw_regs (x : Firmware) : (setFw s x).regs = s.regs := rfl
@[simp] theorem setFw_acc (x : Firmware) : (setFw s x).acc = s.acc := rfl
@[simp] theorem setFw_obj (x : Firmware) : (setFw s x).obj = s.obj := rfl
@[simp] theorem setFw_fns (x : Firmware) : (setFw s x).fns = s.fns := rfl
@[simp] theorem setFw_mmu (x : Firmware) : (setFw s x).mmu = s.mmu := rfl
@[simp] theorem setFw_fe (x : Firmware) : (setFw s x).fe = s.fe := rfl
@[simp] theorem setFw_car (x : Firmware) : (setFw s x).car = s.car := rfl
@[simp] theorem setFw_fab (x : Firmware) : (setFw s x).fab = s.fab := rfl
@[simp] theorem setFw_cores (x : Firmware) : (setFw s x).cores = s.cores := rfl
@[simp] theorem setFw_eng (x : Firmware) : (setFw s x).eng = s.eng := rfl
@[simp] theorem setFw_bob (x : Firmware) : (setFw s x).bob = s.bob := rfl
@[simp] theorem setFw_ras (x : Firmware) : (setFw s x).ras = s.ras := rfl
@[simp] theorem setFw_cch (x : Firmware) : (setFw s x).cch = s.cch := rfl
@[simp] theorem setFw_cod (x : Firmware) : (setFw s x).cod = s.cod := rfl
@[simp] theorem setFw_circ (x : Firmware) : (setFw s x).circ = s.circ := rfl
@[simp] theorem setFw_twin (x : Firmware) : (setFw s x).twin = s.twin := rfl
@[simp] theorem setFw_flt (x : Firmware) : (setFw s x).flt = s.flt := rfl
@[simp] theorem setFw_fw (x : Firmware) : (setFw s x).fw = x := rfl
@[simp] theorem setFw_pwr (x : Firmware) : (setFw s x).pwr = s.pwr := rfl
@[simp] theorem setFw_brd (x : Firmware) : (setFw s x).brd = s.brd := rfl
@[simp] theorem setFw_bus (x : Firmware) : (setFw s x).bus = s.bus := rfl
@[simp] theorem setFw_free (x : Firmware) : (setFw s x).free = s.free := rfl
@[simp] theorem setFw_pending (x : Firmware) : (setFw s x).pending = s.pending := rfl

/-! ### setPwr -/

@[simp] theorem setPwr_hoop (p : Power) : (setPwr s p).hoop = s.hoop := rfl
@[simp] theorem setPwr_regs (p : Power) : (setPwr s p).regs = s.regs := rfl
@[simp] theorem setPwr_acc (p : Power) : (setPwr s p).acc = s.acc := rfl
@[simp] theorem setPwr_obj (p : Power) : (setPwr s p).obj = s.obj := rfl
@[simp] theorem setPwr_fns (p : Power) : (setPwr s p).fns = s.fns := rfl
@[simp] theorem setPwr_mmu (p : Power) : (setPwr s p).mmu = s.mmu := rfl
@[simp] theorem setPwr_fe (p : Power) : (setPwr s p).fe = s.fe := rfl
@[simp] theorem setPwr_car (p : Power) : (setPwr s p).car = s.car := rfl
@[simp] theorem setPwr_fab (p : Power) : (setPwr s p).fab = s.fab := rfl
@[simp] theorem setPwr_cores (p : Power) : (setPwr s p).cores = s.cores := rfl
@[simp] theorem setPwr_eng (p : Power) : (setPwr s p).eng = s.eng := rfl
@[simp] theorem setPwr_bob (p : Power) : (setPwr s p).bob = s.bob := rfl
@[simp] theorem setPwr_ras (p : Power) : (setPwr s p).ras = s.ras := rfl
@[simp] theorem setPwr_cch (p : Power) : (setPwr s p).cch = s.cch := rfl
@[simp] theorem setPwr_cod (p : Power) : (setPwr s p).cod = s.cod := rfl
@[simp] theorem setPwr_circ (p : Power) : (setPwr s p).circ = s.circ := rfl
@[simp] theorem setPwr_twin (p : Power) : (setPwr s p).twin = s.twin := rfl
@[simp] theorem setPwr_flt (p : Power) : (setPwr s p).flt = s.flt := rfl
@[simp] theorem setPwr_fw (p : Power) : (setPwr s p).fw = s.fw := rfl
@[simp] theorem setPwr_pwr (p : Power) : (setPwr s p).pwr = p := rfl
@[simp] theorem setPwr_brd (p : Power) : (setPwr s p).brd = s.brd := rfl
@[simp] theorem setPwr_bus (p : Power) : (setPwr s p).bus = s.bus := rfl
@[simp] theorem setPwr_free (p : Power) : (setPwr s p).free = s.free := rfl
@[simp] theorem setPwr_pending (p : Power) : (setPwr s p).pending = s.pending := rfl

/-! ### setBrd -/

@[simp] theorem setBrd_hoop (b : Board) : (setBrd s b).hoop = s.hoop := rfl
@[simp] theorem setBrd_regs (b : Board) : (setBrd s b).regs = s.regs := rfl
@[simp] theorem setBrd_acc (b : Board) : (setBrd s b).acc = s.acc := rfl
@[simp] theorem setBrd_obj (b : Board) : (setBrd s b).obj = s.obj := rfl
@[simp] theorem setBrd_fns (b : Board) : (setBrd s b).fns = s.fns := rfl
@[simp] theorem setBrd_mmu (b : Board) : (setBrd s b).mmu = s.mmu := rfl
@[simp] theorem setBrd_fe (b : Board) : (setBrd s b).fe = s.fe := rfl
@[simp] theorem setBrd_car (b : Board) : (setBrd s b).car = s.car := rfl
@[simp] theorem setBrd_fab (b : Board) : (setBrd s b).fab = s.fab := rfl
@[simp] theorem setBrd_cores (b : Board) : (setBrd s b).cores = s.cores := rfl
@[simp] theorem setBrd_eng (b : Board) : (setBrd s b).eng = s.eng := rfl
@[simp] theorem setBrd_bob (b : Board) : (setBrd s b).bob = s.bob := rfl
@[simp] theorem setBrd_ras (b : Board) : (setBrd s b).ras = s.ras := rfl
@[simp] theorem setBrd_cch (b : Board) : (setBrd s b).cch = s.cch := rfl
@[simp] theorem setBrd_cod (b : Board) : (setBrd s b).cod = s.cod := rfl
@[simp] theorem setBrd_circ (b : Board) : (setBrd s b).circ = s.circ := rfl
@[simp] theorem setBrd_twin (b : Board) : (setBrd s b).twin = s.twin := rfl
@[simp] theorem setBrd_flt (b : Board) : (setBrd s b).flt = s.flt := rfl
@[simp] theorem setBrd_fw (b : Board) : (setBrd s b).fw = s.fw := rfl
@[simp] theorem setBrd_pwr (b : Board) : (setBrd s b).pwr = s.pwr := rfl
@[simp] theorem setBrd_brd (b : Board) : (setBrd s b).brd = b := rfl
@[simp] theorem setBrd_bus (b : Board) : (setBrd s b).bus = s.bus := rfl
@[simp] theorem setBrd_free (b : Board) : (setBrd s b).free = s.free := rfl
@[simp] theorem setBrd_pending (b : Board) : (setBrd s b).pending = s.pending := rfl

/-! ### setDom -/

@[simp] theorem setDom_hoop (d : Nat) (x : Dom) : (setDom s d x).hoop = s.hoop := rfl
@[simp] theorem setDom_regs (d : Nat) (x : Dom) : (setDom s d x).regs = s.regs := rfl
@[simp] theorem setDom_acc (d : Nat) (x : Dom) : (setDom s d x).acc = s.acc := rfl
@[simp] theorem setDom_obj (d : Nat) (x : Dom) : (setDom s d x).obj = s.obj := rfl
@[simp] theorem setDom_fns (d : Nat) (x : Dom) : (setDom s d x).fns = s.fns := rfl
@[simp] theorem setDom_mmu (d : Nat) (x : Dom) : (setDom s d x).mmu = s.mmu := rfl
@[simp] theorem setDom_fe (d : Nat) (x : Dom) : (setDom s d x).fe = s.fe := rfl
@[simp] theorem setDom_car (d : Nat) (x : Dom) : (setDom s d x).car = s.car := rfl
@[simp] theorem setDom_fab (d : Nat) (x : Dom) : (setDom s d x).fab = s.fab := rfl
@[simp] theorem setDom_cores (d : Nat) (x : Dom) : (setDom s d x).cores = s.cores := rfl
@[simp] theorem setDom_eng (d : Nat) (x : Dom) : (setDom s d x).eng = s.eng := rfl
@[simp] theorem setDom_bob (d : Nat) (x : Dom) : (setDom s d x).bob = s.bob := rfl
@[simp] theorem setDom_ras (d : Nat) (x : Dom) : (setDom s d x).ras = s.ras := rfl
@[simp] theorem setDom_cch (d : Nat) (x : Dom) : (setDom s d x).cch = s.cch := rfl
@[simp] theorem setDom_cod (d : Nat) (x : Dom) : (setDom s d x).cod = s.cod := rfl
@[simp] theorem setDom_circ (d : Nat) (x : Dom) : (setDom s d x).circ = s.circ := rfl
@[simp] theorem setDom_twin (d : Nat) (x : Dom) : (setDom s d x).twin = s.twin := rfl
@[simp] theorem setDom_flt (d : Nat) (x : Dom) : (setDom s d x).flt = s.flt := rfl
@[simp] theorem setDom_fw (d : Nat) (x : Dom) : (setDom s d x).fw = s.fw := rfl
@[simp] theorem setDom_pwr (d : Nat) (x : Dom) : (setDom s d x).pwr = { s.pwr with doms := tset s.pwr.doms d x } := rfl
@[simp] theorem setDom_brd (d : Nat) (x : Dom) : (setDom s d x).brd = s.brd := rfl
@[simp] theorem setDom_bus (d : Nat) (x : Dom) : (setDom s d x).bus = s.bus := rfl
@[simp] theorem setDom_free (d : Nat) (x : Dom) : (setDom s d x).free = s.free := rfl
@[simp] theorem setDom_pending (d : Nat) (x : Dom) : (setDom s d x).pending = s.pending := rfl

/-! ### setAcv -/

@[simp] theorem setAcv_hoop (a : Acv) : (setAcv s a).hoop = s.hoop := rfl
@[simp] theorem setAcv_regs (a : Acv) : (setAcv s a).regs = s.regs := rfl
@[simp] theorem setAcv_acc (a : Acv) : (setAcv s a).acc = s.acc := rfl
@[simp] theorem setAcv_obj (a : Acv) : (setAcv s a).obj = s.obj := rfl
@[simp] theorem setAcv_fns (a : Acv) : (setAcv s a).fns = s.fns := rfl
@[simp] theorem setAcv_mmu (a : Acv) : (setAcv s a).mmu = s.mmu := rfl
@[simp] theorem setAcv_fe (a : Acv) : (setAcv s a).fe = { s.fe with acv := a } := rfl
@[simp] theorem setAcv_car (a : Acv) : (setAcv s a).car = s.car := rfl
@[simp] theorem setAcv_fab (a : Acv) : (setAcv s a).fab = s.fab := rfl
@[simp] theorem setAcv_cores (a : Acv) : (setAcv s a).cores = s.cores := rfl
@[simp] theorem setAcv_eng (a : Acv) : (setAcv s a).eng = s.eng := rfl
@[simp] theorem setAcv_bob (a : Acv) : (setAcv s a).bob = s.bob := rfl
@[simp] theorem setAcv_ras (a : Acv) : (setAcv s a).ras = s.ras := rfl
@[simp] theorem setAcv_cch (a : Acv) : (setAcv s a).cch = s.cch := rfl
@[simp] theorem setAcv_cod (a : Acv) : (setAcv s a).cod = s.cod := rfl
@[simp] theorem setAcv_circ (a : Acv) : (setAcv s a).circ = s.circ := rfl
@[simp] theorem setAcv_twin (a : Acv) : (setAcv s a).twin = s.twin := rfl
@[simp] theorem setAcv_flt (a : Acv) : (setAcv s a).flt = s.flt := rfl
@[simp] theorem setAcv_fw (a : Acv) : (setAcv s a).fw = s.fw := rfl
@[simp] theorem setAcv_pwr (a : Acv) : (setAcv s a).pwr = s.pwr := rfl
@[simp] theorem setAcv_brd (a : Acv) : (setAcv s a).brd = s.brd := rfl
@[simp] theorem setAcv_bus (a : Acv) : (setAcv s a).bus = s.bus := rfl
@[simp] theorem setAcv_free (a : Acv) : (setAcv s a).free = s.free := rfl
@[simp] theorem setAcv_pending (a : Acv) : (setAcv s a).pending = s.pending := rfl

/-! ### setCar -/

@[simp] theorem setCar_hoop (n : Nat) (x : CarSlot) : (setCar s n x).hoop = s.hoop := rfl
@[simp] theorem setCar_regs (n : Nat) (x : CarSlot) : (setCar s n x).regs = s.regs := rfl
@[simp] theorem setCar_acc (n : Nat) (x : CarSlot) : (setCar s n x).acc = s.acc := rfl
@[simp] theorem setCar_obj (n : Nat) (x : CarSlot) : (setCar s n x).obj = s.obj := rfl
@[simp] theorem setCar_fns (n : Nat) (x : CarSlot) : (setCar s n x).fns = s.fns := rfl
@[simp] theorem setCar_mmu (n : Nat) (x : CarSlot) : (setCar s n x).mmu = s.mmu := rfl
@[simp] theorem setCar_fe (n : Nat) (x : CarSlot) : (setCar s n x).fe = s.fe := rfl
@[simp] theorem setCar_car (n : Nat) (x : CarSlot) : (setCar s n x).car = tset s.car n x := rfl
@[simp] theorem setCar_fab (n : Nat) (x : CarSlot) : (setCar s n x).fab = s.fab := rfl
@[simp] theorem setCar_cores (n : Nat) (x : CarSlot) : (setCar s n x).cores = s.cores := rfl
@[simp] theorem setCar_eng (n : Nat) (x : CarSlot) : (setCar s n x).eng = s.eng := rfl
@[simp] theorem setCar_bob (n : Nat) (x : CarSlot) : (setCar s n x).bob = s.bob := rfl
@[simp] theorem setCar_ras (n : Nat) (x : CarSlot) : (setCar s n x).ras = s.ras := rfl
@[simp] theorem setCar_cch (n : Nat) (x : CarSlot) : (setCar s n x).cch = s.cch := rfl
@[simp] theorem setCar_cod (n : Nat) (x : CarSlot) : (setCar s n x).cod = s.cod := rfl
@[simp] theorem setCar_circ (n : Nat) (x : CarSlot) : (setCar s n x).circ = s.circ := rfl
@[simp] theorem setCar_twin (n : Nat) (x : CarSlot) : (setCar s n x).twin = s.twin := rfl
@[simp] theorem setCar_flt (n : Nat) (x : CarSlot) : (setCar s n x).flt = s.flt := rfl
@[simp] theorem setCar_fw (n : Nat) (x : CarSlot) : (setCar s n x).fw = s.fw := rfl
@[simp] theorem setCar_pwr (n : Nat) (x : CarSlot) : (setCar s n x).pwr = s.pwr := rfl
@[simp] theorem setCar_brd (n : Nat) (x : CarSlot) : (setCar s n x).brd = s.brd := rfl
@[simp] theorem setCar_bus (n : Nat) (x : CarSlot) : (setCar s n x).bus = s.bus := rfl
@[simp] theorem setCar_free (n : Nat) (x : CarSlot) : (setCar s n x).free = s.free := rfl
@[simp] theorem setCar_pending (n : Nat) (x : CarSlot) : (setCar s n x).pending = s.pending := rfl

/-! ### setHbm -/

@[simp] theorem setHbm_hoop (n : Nat) (x : HbmEcc) : (setHbm s n x).hoop = s.hoop := rfl
@[simp] theorem setHbm_regs (n : Nat) (x : HbmEcc) : (setHbm s n x).regs = s.regs := rfl
@[simp] theorem setHbm_acc (n : Nat) (x : HbmEcc) : (setHbm s n x).acc = s.acc := rfl
@[simp] theorem setHbm_obj (n : Nat) (x : HbmEcc) : (setHbm s n x).obj = s.obj := rfl
@[simp] theorem setHbm_fns (n : Nat) (x : HbmEcc) : (setHbm s n x).fns = s.fns := rfl
@[simp] theorem setHbm_mmu (n : Nat) (x : HbmEcc) : (setHbm s n x).mmu = s.mmu := rfl
@[simp] theorem setHbm_fe (n : Nat) (x : HbmEcc) : (setHbm s n x).fe = s.fe := rfl
@[simp] theorem setHbm_car (n : Nat) (x : HbmEcc) : (setHbm s n x).car = s.car := rfl
@[simp] theorem setHbm_fab (n : Nat) (x : HbmEcc) : (setHbm s n x).fab = { s.fab with hbm := tset s.fab.hbm n x } := rfl
@[simp] theorem setHbm_cores (n : Nat) (x : HbmEcc) : (setHbm s n x).cores = s.cores := rfl
@[simp] theorem setHbm_eng (n : Nat) (x : HbmEcc) : (setHbm s n x).eng = s.eng := rfl
@[simp] theorem setHbm_bob (n : Nat) (x : HbmEcc) : (setHbm s n x).bob = s.bob := rfl
@[simp] theorem setHbm_ras (n : Nat) (x : HbmEcc) : (setHbm s n x).ras = s.ras := rfl
@[simp] theorem setHbm_cch (n : Nat) (x : HbmEcc) : (setHbm s n x).cch = s.cch := rfl
@[simp] theorem setHbm_cod (n : Nat) (x : HbmEcc) : (setHbm s n x).cod = s.cod := rfl
@[simp] theorem setHbm_circ (n : Nat) (x : HbmEcc) : (setHbm s n x).circ = s.circ := rfl
@[simp] theorem setHbm_twin (n : Nat) (x : HbmEcc) : (setHbm s n x).twin = s.twin := rfl
@[simp] theorem setHbm_flt (n : Nat) (x : HbmEcc) : (setHbm s n x).flt = s.flt := rfl
@[simp] theorem setHbm_fw (n : Nat) (x : HbmEcc) : (setHbm s n x).fw = s.fw := rfl
@[simp] theorem setHbm_pwr (n : Nat) (x : HbmEcc) : (setHbm s n x).pwr = s.pwr := rfl
@[simp] theorem setHbm_brd (n : Nat) (x : HbmEcc) : (setHbm s n x).brd = s.brd := rfl
@[simp] theorem setHbm_bus (n : Nat) (x : HbmEcc) : (setHbm s n x).bus = s.bus := rfl
@[simp] theorem setHbm_free (n : Nat) (x : HbmEcc) : (setHbm s n x).free = s.free := rfl
@[simp] theorem setHbm_pending (n : Nat) (x : HbmEcc) : (setHbm s n x).pending = s.pending := rfl

/-! ### setEcc -/

@[simp] theorem setEcc_hoop (k : Nat) (x : StkEcc) : (setEcc s k x).hoop = s.hoop := rfl
@[simp] theorem setEcc_regs (k : Nat) (x : StkEcc) : (setEcc s k x).regs = s.regs := rfl
@[simp] theorem setEcc_acc (k : Nat) (x : StkEcc) : (setEcc s k x).acc = s.acc := rfl
@[simp] theorem setEcc_obj (k : Nat) (x : StkEcc) : (setEcc s k x).obj = s.obj := rfl
@[simp] theorem setEcc_fns (k : Nat) (x : StkEcc) : (setEcc s k x).fns = s.fns := rfl
@[simp] theorem setEcc_mmu (k : Nat) (x : StkEcc) : (setEcc s k x).mmu = s.mmu := rfl
@[simp] theorem setEcc_fe (k : Nat) (x : StkEcc) : (setEcc s k x).fe = s.fe := rfl
@[simp] theorem setEcc_car (k : Nat) (x : StkEcc) : (setEcc s k x).car = s.car := rfl
@[simp] theorem setEcc_fab (k : Nat) (x : StkEcc) : (setEcc s k x).fab = { s.fab with stkEcc := tset s.fab.stkEcc k x } := rfl
@[simp] theorem setEcc_cores (k : Nat) (x : StkEcc) : (setEcc s k x).cores = s.cores := rfl
@[simp] theorem setEcc_eng (k : Nat) (x : StkEcc) : (setEcc s k x).eng = s.eng := rfl
@[simp] theorem setEcc_bob (k : Nat) (x : StkEcc) : (setEcc s k x).bob = s.bob := rfl
@[simp] theorem setEcc_ras (k : Nat) (x : StkEcc) : (setEcc s k x).ras = s.ras := rfl
@[simp] theorem setEcc_cch (k : Nat) (x : StkEcc) : (setEcc s k x).cch = s.cch := rfl
@[simp] theorem setEcc_cod (k : Nat) (x : StkEcc) : (setEcc s k x).cod = s.cod := rfl
@[simp] theorem setEcc_circ (k : Nat) (x : StkEcc) : (setEcc s k x).circ = s.circ := rfl
@[simp] theorem setEcc_twin (k : Nat) (x : StkEcc) : (setEcc s k x).twin = s.twin := rfl
@[simp] theorem setEcc_flt (k : Nat) (x : StkEcc) : (setEcc s k x).flt = s.flt := rfl
@[simp] theorem setEcc_fw (k : Nat) (x : StkEcc) : (setEcc s k x).fw = s.fw := rfl
@[simp] theorem setEcc_pwr (k : Nat) (x : StkEcc) : (setEcc s k x).pwr = s.pwr := rfl
@[simp] theorem setEcc_brd (k : Nat) (x : StkEcc) : (setEcc s k x).brd = s.brd := rfl
@[simp] theorem setEcc_bus (k : Nat) (x : StkEcc) : (setEcc s k x).bus = s.bus := rfl
@[simp] theorem setEcc_free (k : Nat) (x : StkEcc) : (setEcc s k x).free = s.free := rfl
@[simp] theorem setEcc_pending (k : Nat) (x : StkEcc) : (setEcc s k x).pending = s.pending := rfl

/-! ### setTxn -/

@[simp] theorem setTxn_hoop (id : Nat) (x : Txn) : (setTxn s id x).hoop = s.hoop := rfl
@[simp] theorem setTxn_regs (id : Nat) (x : Txn) : (setTxn s id x).regs = s.regs := rfl
@[simp] theorem setTxn_acc (id : Nat) (x : Txn) : (setTxn s id x).acc = s.acc := rfl
@[simp] theorem setTxn_obj (id : Nat) (x : Txn) : (setTxn s id x).obj = s.obj := rfl
@[simp] theorem setTxn_fns (id : Nat) (x : Txn) : (setTxn s id x).fns = s.fns := rfl
@[simp] theorem setTxn_mmu (id : Nat) (x : Txn) : (setTxn s id x).mmu = s.mmu := rfl
@[simp] theorem setTxn_fe (id : Nat) (x : Txn) : (setTxn s id x).fe = s.fe := rfl
@[simp] theorem setTxn_car (id : Nat) (x : Txn) : (setTxn s id x).car = s.car := rfl
@[simp] theorem setTxn_fab (id : Nat) (x : Txn) : (setTxn s id x).fab = { s.fab with txns := tset s.fab.txns id x } := rfl
@[simp] theorem setTxn_cores (id : Nat) (x : Txn) : (setTxn s id x).cores = s.cores := rfl
@[simp] theorem setTxn_eng (id : Nat) (x : Txn) : (setTxn s id x).eng = s.eng := rfl
@[simp] theorem setTxn_bob (id : Nat) (x : Txn) : (setTxn s id x).bob = s.bob := rfl
@[simp] theorem setTxn_ras (id : Nat) (x : Txn) : (setTxn s id x).ras = s.ras := rfl
@[simp] theorem setTxn_cch (id : Nat) (x : Txn) : (setTxn s id x).cch = s.cch := rfl
@[simp] theorem setTxn_cod (id : Nat) (x : Txn) : (setTxn s id x).cod = s.cod := rfl
@[simp] theorem setTxn_circ (id : Nat) (x : Txn) : (setTxn s id x).circ = s.circ := rfl
@[simp] theorem setTxn_twin (id : Nat) (x : Txn) : (setTxn s id x).twin = s.twin := rfl
@[simp] theorem setTxn_flt (id : Nat) (x : Txn) : (setTxn s id x).flt = s.flt := rfl
@[simp] theorem setTxn_fw (id : Nat) (x : Txn) : (setTxn s id x).fw = s.fw := rfl
@[simp] theorem setTxn_pwr (id : Nat) (x : Txn) : (setTxn s id x).pwr = s.pwr := rfl
@[simp] theorem setTxn_brd (id : Nat) (x : Txn) : (setTxn s id x).brd = s.brd := rfl
@[simp] theorem setTxn_bus (id : Nat) (x : Txn) : (setTxn s id x).bus = s.bus := rfl
@[simp] theorem setTxn_free (id : Nat) (x : Txn) : (setTxn s id x).free = s.free := rfl
@[simp] theorem setTxn_pending (id : Nat) (x : Txn) : (setTxn s id x).pending = s.pending := rfl

/-! ### setGroup -/

@[simp] theorem setGroup_hoop (k : Nat) (g : Group) : (setGroup s k g).hoop = s.hoop := rfl
@[simp] theorem setGroup_regs (k : Nat) (g : Group) : (setGroup s k g).regs = s.regs := rfl
@[simp] theorem setGroup_acc (k : Nat) (g : Group) : (setGroup s k g).acc = s.acc := rfl
@[simp] theorem setGroup_obj (k : Nat) (g : Group) : (setGroup s k g).obj = s.obj := rfl
@[simp] theorem setGroup_fns (k : Nat) (g : Group) : (setGroup s k g).fns = s.fns := rfl
@[simp] theorem setGroup_mmu (k : Nat) (g : Group) : (setGroup s k g).mmu = s.mmu := rfl
@[simp] theorem setGroup_fe (k : Nat) (g : Group) : (setGroup s k g).fe = s.fe := rfl
@[simp] theorem setGroup_car (k : Nat) (g : Group) : (setGroup s k g).car = s.car := rfl
@[simp] theorem setGroup_fab (k : Nat) (g : Group) : (setGroup s k g).fab = s.fab := rfl
@[simp] theorem setGroup_cores (k : Nat) (g : Group) : (setGroup s k g).cores = { s.cores with groups := tset s.cores.groups k g } := rfl
@[simp] theorem setGroup_eng (k : Nat) (g : Group) : (setGroup s k g).eng = s.eng := rfl
@[simp] theorem setGroup_bob (k : Nat) (g : Group) : (setGroup s k g).bob = s.bob := rfl
@[simp] theorem setGroup_ras (k : Nat) (g : Group) : (setGroup s k g).ras = s.ras := rfl
@[simp] theorem setGroup_cch (k : Nat) (g : Group) : (setGroup s k g).cch = s.cch := rfl
@[simp] theorem setGroup_cod (k : Nat) (g : Group) : (setGroup s k g).cod = s.cod := rfl
@[simp] theorem setGroup_circ (k : Nat) (g : Group) : (setGroup s k g).circ = s.circ := rfl
@[simp] theorem setGroup_twin (k : Nat) (g : Group) : (setGroup s k g).twin = s.twin := rfl
@[simp] theorem setGroup_flt (k : Nat) (g : Group) : (setGroup s k g).flt = s.flt := rfl
@[simp] theorem setGroup_fw (k : Nat) (g : Group) : (setGroup s k g).fw = s.fw := rfl
@[simp] theorem setGroup_pwr (k : Nat) (g : Group) : (setGroup s k g).pwr = s.pwr := rfl
@[simp] theorem setGroup_brd (k : Nat) (g : Group) : (setGroup s k g).brd = s.brd := rfl
@[simp] theorem setGroup_bus (k : Nat) (g : Group) : (setGroup s k g).bus = s.bus := rfl
@[simp] theorem setGroup_free (k : Nat) (g : Group) : (setGroup s k g).free = s.free := rfl
@[simp] theorem setGroup_pending (k : Nat) (g : Group) : (setGroup s k g).pending = s.pending := rfl

/-! ### setEng -/

@[simp] theorem setEng_hoop (c e : Nat) (x : Engine) : (setEng s c e x).hoop = s.hoop := rfl
@[simp] theorem setEng_regs (c e : Nat) (x : Engine) : (setEng s c e x).regs = s.regs := rfl
@[simp] theorem setEng_acc (c e : Nat) (x : Engine) : (setEng s c e x).acc = s.acc := rfl
@[simp] theorem setEng_obj (c e : Nat) (x : Engine) : (setEng s c e x).obj = s.obj := rfl
@[simp] theorem setEng_fns (c e : Nat) (x : Engine) : (setEng s c e x).fns = s.fns := rfl
@[simp] theorem setEng_mmu (c e : Nat) (x : Engine) : (setEng s c e x).mmu = s.mmu := rfl
@[simp] theorem setEng_fe (c e : Nat) (x : Engine) : (setEng s c e x).fe = s.fe := rfl
@[simp] theorem setEng_car (c e : Nat) (x : Engine) : (setEng s c e x).car = s.car := rfl
@[simp] theorem setEng_fab (c e : Nat) (x : Engine) : (setEng s c e x).fab = s.fab := rfl
@[simp] theorem setEng_cores (c e : Nat) (x : Engine) : (setEng s c e x).cores = s.cores := rfl
@[simp] theorem setEng_eng (c e : Nat) (x : Engine) : (setEng s c e x).eng = { s.eng with eng := tset s.eng.eng (c * 4 + e) x } := rfl
@[simp] theorem setEng_bob (c e : Nat) (x : Engine) : (setEng s c e x).bob = s.bob := rfl
@[simp] theorem setEng_ras (c e : Nat) (x : Engine) : (setEng s c e x).ras = s.ras := rfl
@[simp] theorem setEng_cch (c e : Nat) (x : Engine) : (setEng s c e x).cch = s.cch := rfl
@[simp] theorem setEng_cod (c e : Nat) (x : Engine) : (setEng s c e x).cod = s.cod := rfl
@[simp] theorem setEng_circ (c e : Nat) (x : Engine) : (setEng s c e x).circ = s.circ := rfl
@[simp] theorem setEng_twin (c e : Nat) (x : Engine) : (setEng s c e x).twin = s.twin := rfl
@[simp] theorem setEng_flt (c e : Nat) (x : Engine) : (setEng s c e x).flt = s.flt := rfl
@[simp] theorem setEng_fw (c e : Nat) (x : Engine) : (setEng s c e x).fw = s.fw := rfl
@[simp] theorem setEng_pwr (c e : Nat) (x : Engine) : (setEng s c e x).pwr = s.pwr := rfl
@[simp] theorem setEng_brd (c e : Nat) (x : Engine) : (setEng s c e x).brd = s.brd := rfl
@[simp] theorem setEng_bus (c e : Nat) (x : Engine) : (setEng s c e x).bus = s.bus := rfl
@[simp] theorem setEng_free (c e : Nat) (x : Engine) : (setEng s c e x).free = s.free := rfl
@[simp] theorem setEng_pending (c e : Nat) (x : Engine) : (setEng s c e x).pending = s.pending := rfl

/-! ### setBob -/

@[simp] theorem setBob_hoop (k : Nat) (x : Bobbin) : (setBob s k x).hoop = s.hoop := rfl
@[simp] theorem setBob_regs (k : Nat) (x : Bobbin) : (setBob s k x).regs = s.regs := rfl
@[simp] theorem setBob_acc (k : Nat) (x : Bobbin) : (setBob s k x).acc = s.acc := rfl
@[simp] theorem setBob_obj (k : Nat) (x : Bobbin) : (setBob s k x).obj = s.obj := rfl
@[simp] theorem setBob_fns (k : Nat) (x : Bobbin) : (setBob s k x).fns = s.fns := rfl
@[simp] theorem setBob_mmu (k : Nat) (x : Bobbin) : (setBob s k x).mmu = s.mmu := rfl
@[simp] theorem setBob_fe (k : Nat) (x : Bobbin) : (setBob s k x).fe = s.fe := rfl
@[simp] theorem setBob_car (k : Nat) (x : Bobbin) : (setBob s k x).car = s.car := rfl
@[simp] theorem setBob_fab (k : Nat) (x : Bobbin) : (setBob s k x).fab = s.fab := rfl
@[simp] theorem setBob_cores (k : Nat) (x : Bobbin) : (setBob s k x).cores = s.cores := rfl
@[simp] theorem setBob_eng (k : Nat) (x : Bobbin) : (setBob s k x).eng = s.eng := rfl
@[simp] theorem setBob_bob (k : Nat) (x : Bobbin) : (setBob s k x).bob = { s.bob with eng := tset s.bob.eng k x } := rfl
@[simp] theorem setBob_ras (k : Nat) (x : Bobbin) : (setBob s k x).ras = s.ras := rfl
@[simp] theorem setBob_cch (k : Nat) (x : Bobbin) : (setBob s k x).cch = s.cch := rfl
@[simp] theorem setBob_cod (k : Nat) (x : Bobbin) : (setBob s k x).cod = s.cod := rfl
@[simp] theorem setBob_circ (k : Nat) (x : Bobbin) : (setBob s k x).circ = s.circ := rfl
@[simp] theorem setBob_twin (k : Nat) (x : Bobbin) : (setBob s k x).twin = s.twin := rfl
@[simp] theorem setBob_flt (k : Nat) (x : Bobbin) : (setBob s k x).flt = s.flt := rfl
@[simp] theorem setBob_fw (k : Nat) (x : Bobbin) : (setBob s k x).fw = s.fw := rfl
@[simp] theorem setBob_pwr (k : Nat) (x : Bobbin) : (setBob s k x).pwr = s.pwr := rfl
@[simp] theorem setBob_brd (k : Nat) (x : Bobbin) : (setBob s k x).brd = s.brd := rfl
@[simp] theorem setBob_bus (k : Nat) (x : Bobbin) : (setBob s k x).bus = s.bus := rfl
@[simp] theorem setBob_free (k : Nat) (x : Bobbin) : (setBob s k x).free = s.free := rfl
@[simp] theorem setBob_pending (k : Nat) (x : Bobbin) : (setBob s k x).pending = s.pending := rfl

/-! ### setPass -/

@[simp] theorem setPass_hoop (id : Nat) (p : Pass) : (setPass s id p).hoop = s.hoop := rfl
@[simp] theorem setPass_regs (id : Nat) (p : Pass) : (setPass s id p).regs = s.regs := rfl
@[simp] theorem setPass_acc (id : Nat) (p : Pass) : (setPass s id p).acc = s.acc := rfl
@[simp] theorem setPass_obj (id : Nat) (p : Pass) : (setPass s id p).obj = s.obj := rfl
@[simp] theorem setPass_fns (id : Nat) (p : Pass) : (setPass s id p).fns = s.fns := rfl
@[simp] theorem setPass_mmu (id : Nat) (p : Pass) : (setPass s id p).mmu = s.mmu := rfl
@[simp] theorem setPass_fe (id : Nat) (p : Pass) : (setPass s id p).fe = s.fe := rfl
@[simp] theorem setPass_car (id : Nat) (p : Pass) : (setPass s id p).car = s.car := rfl
@[simp] theorem setPass_fab (id : Nat) (p : Pass) : (setPass s id p).fab = s.fab := rfl
@[simp] theorem setPass_cores (id : Nat) (p : Pass) : (setPass s id p).cores = s.cores := rfl
@[simp] theorem setPass_eng (id : Nat) (p : Pass) : (setPass s id p).eng = s.eng := rfl
@[simp] theorem setPass_bob (id : Nat) (p : Pass) : (setPass s id p).bob = s.bob := rfl
@[simp] theorem setPass_ras (id : Nat) (p : Pass) : (setPass s id p).ras = { s.ras with passes := tset s.ras.passes id p } := rfl
@[simp] theorem setPass_cch (id : Nat) (p : Pass) : (setPass s id p).cch = s.cch := rfl
@[simp] theorem setPass_cod (id : Nat) (p : Pass) : (setPass s id p).cod = s.cod := rfl
@[simp] theorem setPass_circ (id : Nat) (p : Pass) : (setPass s id p).circ = s.circ := rfl
@[simp] theorem setPass_twin (id : Nat) (p : Pass) : (setPass s id p).twin = s.twin := rfl
@[simp] theorem setPass_flt (id : Nat) (p : Pass) : (setPass s id p).flt = s.flt := rfl
@[simp] theorem setPass_fw (id : Nat) (p : Pass) : (setPass s id p).fw = s.fw := rfl
@[simp] theorem setPass_pwr (id : Nat) (p : Pass) : (setPass s id p).pwr = s.pwr := rfl
@[simp] theorem setPass_brd (id : Nat) (p : Pass) : (setPass s id p).brd = s.brd := rfl
@[simp] theorem setPass_bus (id : Nat) (p : Pass) : (setPass s id p).bus = s.bus := rfl
@[simp] theorem setPass_free (id : Nat) (p : Pass) : (setPass s id p).free = s.free := rfl
@[simp] theorem setPass_pending (id : Nat) (p : Pass) : (setPass s id p).pending = s.pending := rfl

/-! ### putStream -/

@[simp] theorem putStream_hoop (n : Nat) (t : Stream) : (putStream s n t).hoop = s.hoop := rfl
@[simp] theorem putStream_regs (n : Nat) (t : Stream) : (putStream s n t).regs = s.regs := rfl
@[simp] theorem putStream_acc (n : Nat) (t : Stream) : (putStream s n t).acc = s.acc := rfl
@[simp] theorem putStream_obj (n : Nat) (t : Stream) : (putStream s n t).obj = s.obj := rfl
@[simp] theorem putStream_fns (n : Nat) (t : Stream) : (putStream s n t).fns = s.fns := rfl
@[simp] theorem putStream_mmu (n : Nat) (t : Stream) : (putStream s n t).mmu = s.mmu := rfl
@[simp] theorem putStream_fe (n : Nat) (t : Stream) : (putStream s n t).fe = s.fe := rfl
@[simp] theorem putStream_car (n : Nat) (t : Stream) : (putStream s n t).car = s.car := rfl
@[simp] theorem putStream_fab (n : Nat) (t : Stream) : (putStream s n t).fab = s.fab := rfl
@[simp] theorem putStream_cores (n : Nat) (t : Stream) : (putStream s n t).cores = s.cores := rfl
@[simp] theorem putStream_eng (n : Nat) (t : Stream) : (putStream s n t).eng = s.eng := rfl
@[simp] theorem putStream_bob (n : Nat) (t : Stream) : (putStream s n t).bob = s.bob := rfl
@[simp] theorem putStream_ras (n : Nat) (t : Stream) : (putStream s n t).ras = s.ras := rfl
@[simp] theorem putStream_cch (n : Nat) (t : Stream) : (putStream s n t).cch = s.cch := rfl
@[simp] theorem putStream_cod (n : Nat) (t : Stream) : (putStream s n t).cod = s.cod := rfl
@[simp] theorem putStream_circ (n : Nat) (t : Stream) : (putStream s n t).circ = { s.circ with streams := tset s.circ.streams n t } := rfl
@[simp] theorem putStream_twin (n : Nat) (t : Stream) : (putStream s n t).twin = s.twin := rfl
@[simp] theorem putStream_flt (n : Nat) (t : Stream) : (putStream s n t).flt = s.flt := rfl
@[simp] theorem putStream_fw (n : Nat) (t : Stream) : (putStream s n t).fw = s.fw := rfl
@[simp] theorem putStream_pwr (n : Nat) (t : Stream) : (putStream s n t).pwr = s.pwr := rfl
@[simp] theorem putStream_brd (n : Nat) (t : Stream) : (putStream s n t).brd = s.brd := rfl
@[simp] theorem putStream_bus (n : Nat) (t : Stream) : (putStream s n t).bus = s.bus := rfl
@[simp] theorem putStream_free (n : Nat) (t : Stream) : (putStream s n t).free = s.free := rfl
@[simp] theorem putStream_pending (n : Nat) (t : Stream) : (putStream s n t).pending = s.pending := rfl

/-! ### setData -/

@[simp] theorem setData_hoop (v : Nat) : (setData s v).hoop = s.hoop := rfl
@[simp] theorem setData_regs (v : Nat) : (setData s v).regs = s.regs := rfl
@[simp] theorem setData_acc (v : Nat) : (setData s v).acc = s.acc := rfl
@[simp] theorem setData_obj (v : Nat) : (setData s v).obj = s.obj := rfl
@[simp] theorem setData_fns (v : Nat) : (setData s v).fns = s.fns := rfl
@[simp] theorem setData_mmu (v : Nat) : (setData s v).mmu = s.mmu := rfl
@[simp] theorem setData_fe (v : Nat) : (setData s v).fe = s.fe := rfl
@[simp] theorem setData_car (v : Nat) : (setData s v).car = s.car := rfl
@[simp] theorem setData_fab (v : Nat) : (setData s v).fab = s.fab := rfl
@[simp] theorem setData_cores (v : Nat) : (setData s v).cores = s.cores := rfl
@[simp] theorem setData_eng (v : Nat) : (setData s v).eng = s.eng := rfl
@[simp] theorem setData_bob (v : Nat) : (setData s v).bob = s.bob := rfl
@[simp] theorem setData_ras (v : Nat) : (setData s v).ras = s.ras := rfl
@[simp] theorem setData_cch (v : Nat) : (setData s v).cch = s.cch := rfl
@[simp] theorem setData_cod (v : Nat) : (setData s v).cod = s.cod := rfl
@[simp] theorem setData_circ (v : Nat) : (setData s v).circ = s.circ := rfl
@[simp] theorem setData_twin (v : Nat) : (setData s v).twin = s.twin := rfl
@[simp] theorem setData_flt (v : Nat) : (setData s v).flt = s.flt := rfl
@[simp] theorem setData_fw (v : Nat) : (setData s v).fw = s.fw := rfl
@[simp] theorem setData_pwr (v : Nat) : (setData s v).pwr = s.pwr := rfl
@[simp] theorem setData_brd (v : Nat) : (setData s v).brd = s.brd := rfl
@[simp] theorem setData_bus (v : Nat) : (setData s v).bus = { s.bus with hostData := BitVec.ofNat 64 v } := rfl
@[simp] theorem setData_free (v : Nat) : (setData s v).free = s.free := rfl
@[simp] theorem setData_pending (v : Nat) : (setData s v).pending = s.pending := rfl

end Sys2Proof.Machine
end

