-- ==== Sys2Proof/Laws/Tables.lean ====
section
/-! SUPPORT. What the table operations do: reading after each of them, and that the keys stay in rising order. -/

namespace Sys2Proof.Machine

variable {α : Type}

@[simp] theorem tget_nil (n : Nat) : tget ([] : Tbl α) n = none := rfl

theorem tget_cons (k n : Nat) (v : α) (t : Tbl α) : tget ((k, v) :: t) n = if k = n then some v else tget t n := rfl

@[simp] theorem tget_tset_same (t : Tbl α) (n : Nat) (v : α) : tget (tset t n v) n = some v := by
  induction t with
  | nil => simp [tset, tget]
  | cons e t ih =>
    simp only [tset]
    split
    · simp [tget]
    · split
      · simp [tget]
      · rename_i h _
        have : ¬ e.1 = n := fun h' => by simp_all
        simp [tget, this, ih]

theorem tget_tset_other (t : Tbl α) {n k : Nat} (v : α) (h : k ≠ n) : tget (tset t n v) k = tget t k := by
  induction t with
  | nil => simp [tset, tget, Ne.symm h]
  | cons e t ih =>
    simp only [tset]
    split
    · simp [tget, Ne.symm h]
    · split
      · rename_i _ h'
        simp [tget, Ne.symm h, ← h']
      · simp [tget, ih]

/-- Reading a table after a value was put at a key. -/
theorem tget_tset (t : Tbl α) (n k : Nat) (v : α) : tget (tset t n v) k = if k = n then some v else tget t k := by
  split
  · rename_i h; subst h; exact tget_tset_same t k v
  · exact tget_tset_other t v ‹_›

@[simp] theorem tgetD_tset_same (t : Tbl α) (n : Nat) (v d : α) : tgetD (tset t n v) n d = v := by simp [tgetD]

theorem tgetD_tset_other (t : Tbl α) {n k : Nat} (v d : α) (h : k ≠ n) : tgetD (tset t n v) k d = tgetD t k d := by
  simp [tgetD, tget_tset_other t v h]

@[simp] theorem tget_tdel_same (t : Tbl α) (n : Nat) : tget (tdel t n) n = none := by
  induction t with
  | nil => rfl
  | cons e t ih =>
    by_cases h : e.1 = n
    · simpa [tdel, h] using ih
    · simpa [tdel, h, tget] using ih

theorem tget_tdel_other (t : Tbl α) {n k : Nat} (h : k ≠ n) : tget (tdel t n) k = tget t k := by
  induction t with
  | nil => rfl
  | cons e t ih =>
    by_cases h' : e.1 = n
    · have : ¬ e.1 = k := fun h'' => h (h''.symm.trans h')
      simpa [tdel, h', tget, this, Ne.symm h] using ih
    · simp only [tdel, List.filter_cons, ne_eq, h', not_false_eq_true, decide_true, if_true, tget]
      simpa [tdel] using congrArg (fun r => if e.1 = k then some e.2 else r) ih

/-- Reading a table after a change at a key. -/
theorem tget_tmod (t : Tbl α) (n k : Nat) (f : α → α) :
    tget (tmod t n f) k = if k = n then (tget t k).map f else tget t k := by
  induction t with
  | nil => simp [tmod]
  | cons e t ih =>
    simp only [tmod] at ih
    by_cases h : e.1 = n <;> by_cases h' : e.1 = k <;> simp_all [tmod, tget]

/-- Reading a table after a change of every value. -/
theorem tget_tmap (t : Tbl α) (f : Nat → α → α) (k : Nat) : tget (tmap t f) k = (tget t k).map (f k) := by
  induction t with
  | nil => rfl
  | cons e t ih =>
    simp only [tmap, List.map_cons, tget] at ih ⊢
    split
    · rename_i h; subst h; rfl
    · exact ih

/-- A key of a table whose value is read is one of its entries. -/
theorem tget_mem {t : Tbl α} {n : Nat} {v : α} (h : tget t n = some v) : (n, v) ∈ t := by
  induction t with
  | nil => simp at h
  | cons e t ih =>
    simp only [tget] at h
    split at h
    · rename_i h'
      cases h
      simp [← h']
    · exact List.mem_cons_of_mem _ (ih h)

/-- `Tbl.wf` in terms of pairs of entries. -/
theorem Tbl.wf_iff (t : Tbl α) : Tbl.wf t = true ↔ t.Pairwise fun a b => a.1 < b.1 := by
  induction t with
  | nil => simp [Tbl.wf]
  | cons e t ih =>
    cases t with
    | nil => simp [Tbl.wf]
    | cons d t =>
      simp only [Tbl.wf, Bool.and_eq_true, decide_eq_true_eq, ih, List.pairwise_cons]
      constructor
      · rintro ⟨h, hd, ht⟩
        refine ⟨fun a ha => ?_, hd, ht⟩
        rcases List.mem_cons.1 ha with rfl | ha
        · exact h
        · exact lt_trans h (hd a ha)
      · rintro ⟨h, hd, ht⟩
        exact ⟨h d (by simp), hd, ht⟩

theorem mem_tset {t : Tbl α} {n : Nat} {v : α} {e : Nat × α} (h : e ∈ tset t n v) : e = (n, v) ∨ e ∈ t := by
  induction t with
  | nil => simpa [tset] using h
  | cons d t ih =>
    simp only [tset] at h
    split at h
    · simpa using h
    · split at h
      · rcases List.mem_cons.1 h with rfl | h
        · exact .inl rfl
        · exact .inr (List.mem_cons_of_mem _ h)
      · rcases List.mem_cons.1 h with rfl | h
        · exact .inr (by simp)
        · rcases ih h with h | h
          · exact .inl h
          · exact .inr (List.mem_cons_of_mem _ h)

/-- Putting a value keeps the keys rising. -/
theorem tset_wf {t : Tbl α} (h : Tbl.wf t = true) (n : Nat) (v : α) : Tbl.wf (tset t n v) = true := by
  rw [Tbl.wf_iff] at h ⊢
  induction t with
  | nil => simp [tset]
  | cons e t ih =>
    obtain ⟨he, ht⟩ := List.pairwise_cons.1 h
    simp only [tset]
    split
    · rename_i hn
      refine List.pairwise_cons.2 ⟨fun a ha => ?_, h⟩
      rcases List.mem_cons.1 ha with rfl | ha
      · exact hn
      · exact lt_trans hn (he a ha)
    · split
      · rename_i hn
        exact List.pairwise_cons.2 ⟨fun a ha => by simpa [hn] using he a ha, ht⟩
      · refine List.pairwise_cons.2 ⟨fun a ha => ?_, ih ht⟩
        rcases mem_tset ha with rfl | ha
        · show e.1 < n
          omega
        · exact he a ha

/-- Removing a key keeps the keys rising. -/
theorem tdel_wf {t : Tbl α} (h : Tbl.wf t = true) (n : Nat) : Tbl.wf (tdel t n) = true := by
  rw [Tbl.wf_iff] at h ⊢
  exact h.filter _

/-- Changing every value keeps the keys rising. -/
theorem tmap_wf {t : Tbl α} (h : Tbl.wf t = true) (f : Nat → α → α) : Tbl.wf (tmap t f) = true := by
  rw [Tbl.wf_iff] at h ⊢
  exact List.pairwise_map.2 h

end Sys2Proof.Machine
end

