-- ==== Sys2Proof/Laws/Frames.lean ====
section
/-! SUPPORT. What the shared operations leave alone: the parts of the state that each can change, from the plain updates up to
a descriptor's completion and a context's loss. -/

namespace Sys2Proof.Machine

/-! ## The calculus of frames -/

theorem Only.refl (ps : List Part) (s : State) : Only ps s s := fun p _ => by cases p <;> rfl

theorem Only.trans {ps : List Part} {s t u : State} (h : Only ps s t) (h' : Only ps t u) : Only ps s u := by
  intro p hp
  have h1 := h p hp
  have h2 := h' p hp
  cases p <;> exact Eq.trans h2 h1

/-- A frame read from the last operation back. -/
theorem Only.snoc {ps : List Part} {s t u : State} (h : Only ps t u) (h' : Only ps s t) : Only ps s u := h'.trans h

theorem Only.mono {ps qs : List Part} {s t : State} (h : Only ps s t) (hs : ps ⊆ qs) : Only qs s t :=
  fun p hp => h p fun hp' => hp (hs hp')

theorem Only.ite {ps : List Part} {s t u : State} {c : Prop} [Decidable c] (h : c → Only ps s t) (h' : ¬ c → Only ps s u) :
    Only ps s (if c then t else u) := by
  split
  · exact h ‹_›
  · exact h' ‹_›

/-- A fold of operations, each within a frame, is within it. -/
theorem Only.foldl {β : Type} {ps : List Part} {f : State → β → State} (hf : ∀ s b, Only ps s (f s b)) (l : List β) (s : State) :
    Only ps s (l.foldl f s) := by
  induction l generalizing s with
  | nil => exact Only.refl ps s
  | cons b t ih => exact (hf s b).trans (ih (f s b))

/-- The fabric alone. -/
theorem only_fab (s : State) (x : Fabric) : Only [.fab] s { s with fab := x } := fun p hp => by
  cases p <;> first | (simp at hp; done) | rfl

/-- The objects alone. -/
theorem setObj_only (s : State) (o : Objects) : Only [.obj] s (setObj s o) := fun p hp => by
  cases p <;> first | (simp at hp; done) | rfl

theorem setFn_only (s : State) (f : Nat) (x : Fn) : Only [.fns] s (setFn s f x) := fun p hp => by
  cases p <;> first | (simp at hp; done) | rfl

theorem drew_only (s : State) : Only [.free] s (drew s) := fun p hp => by
  cases p <;> first | (simp at hp; done) | rfl

theorem drewN_only (s : State) (n : Nat) : Only [.free] s (drewN s n) := fun p hp => by
  cases p <;> first | (simp at hp; done) | rfl

theorem hostWrite_only (s : State) (a : Nat) (l : List Byte) : Only [.fab] s (hostWrite s a l) := only_fab s _

theorem setQueue_only (s : State) (q : Nat) (x : Queue) : Only [.obj] s (setQueue s q x) := setObj_only s _

theorem putQ_only (s : State) (q : Nat) (x : Queue) : Only [.obj] s (putQ s q x) := setObj_only s _

theorem setFence_only (s : State) (f : Nat) (x : Fence) : Only [.obj] s (setFence s f x) := setObj_only s _

/-! ## Records and interrupts -/

theorem raiseMsix_only (s : State) (f v : Nat) : Only [.fns, .fab] s (raiseMsix s f v) := by
  unfold raiseMsix
  dsimp only
  refine Only.ite (fun _ => Only.refl _ s) fun _ => Only.ite (fun _ => Only.ite (fun _ => Only.refl _ s) fun _ => ?_) fun _ => ?_
  · exact (setFn_only s _ _).mono (by simp)
  · exact (hostWrite_only s _ _).mono (by simp)

theorem eventRec_only (s : State) (f kind status reason event object value : Nat) :
    Only [.fns, .fab] s (eventRec s f kind status reason event object value) := by
  unfold eventRec
  dsimp only
  generalize ringPut _ _ _ = r
  have h : ∀ x, Only [.fns, .fab] s (setFn { s with fab := { s.fab with host := r.1 } } f x) := fun x =>
    ((only_fab s { s.fab with host := r.1 }).mono (by simp)).trans ((setFn_only _ f x).mono (by simp))
  exact Only.ite (fun _ => (h _).trans (raiseMsix_only _ _ _)) fun _ => h _

theorem dayBook_only (s : State) (code obj arg0 arg1 : Nat) : Only [.fab, .fw] s (dayBook s code obj arg0 arg1) := by
  unfold dayBook
  dsimp only
  split <;> exact fun p hp => by cases p <;> first | (simp at hp; done) | rfl

theorem trace_only (s : State) (group point obj arg1 : Nat) : Only [.fab, .fw] s (trace s group point obj arg1) := by
  unfold trace
  exact Only.ite (fun _ => dayBook_only s _ _ _ _) fun _ => Only.refl _ s

theorem traceFree_only (s : State) (group point obj : Nat) : Only [.fab, .fw, .free] s (traceFree s group point obj) := by
  unfold traceFree
  exact Only.ite (fun _ => ((drew_only s).mono (by simp)).trans ((dayBook_only _ _ _ _ _).mono (by simp))) fun _ => Only.refl _ s

/-! ## Firmware commands -/

theorem fwTake_only (s : State) (f cmd : Nat) : Only [.fns, .fab, .fw] s (fwTake s f cmd) :=
  ((setFn_only s _ _).mono (by simp)).trans ((trace_only _ _ _ _ _).mono (by simp))

theorem fwComplete_only (s : State) (f cmd : Nat) (tag : W32) (status result : Nat) :
    Only [.fns, .fab, .fw] s (fwComplete s f cmd tag status result) := by
  unfold fwComplete
  dsimp only
  refine Only.snoc ((raiseMsix_only _ _ _).mono (by simp)) ?_
  refine Only.snoc ((trace_only _ _ _ _ _).mono (by simp)) ?_
  exact Only.snoc ((setFn_only _ _ _).mono (by simp)) ((hostWrite_only s _ _).mono (by simp))

/-- A firmware command that is not taken changes nothing (R511). -/
theorem fwCommandWith_waits {s : State} {c : Call} (h : fwTakes s c.func = false) (cmd : Nat) (op : State → State × Nat × Nat)
    (post : Nat → State → State) : fwCommandWith s c cmd op post = s := by simp [fwCommandWith, h]

/-- A firmware command stays within the parts that its effect and what follows it can change, and those of its rings and
records. -/
theorem fwCommandWith_only {ps : List Part} (s : State) (c : Call) (cmd : Nat) {op : State → State × Nat × Nat}
    {post : Nat → State → State} (hop : ∀ s, Only ps s (op s).1) (hpost : ∀ st s, Only ps s (post st s)) :
    Only (ps ++ [.fns, .fab, .fw]) s (fwCommandWith s c cmd op post) := by
  unfold fwCommandWith
  dsimp only
  refine Only.ite (fun _ => ?_) fun _ => Only.refl _ s
  refine Only.snoc ((fwComplete_only _ _ _ _ _ _).mono (by simp)) (Only.snoc ((hpost _ _).mono (by simp)) ?_)
  have h : Only (ps ++ [.fns, .fab, .fw]) s (fwTake s c.func cmd) := (fwTake_only s _ cmd).mono (by simp)
  exact Only.ite (fun _ => Only.snoc ((hop _).mono (by simp)) h) fun _ => h

/-! ## Fences and completion -/

theorem fireEvent_only (s : State) (e : Nat) : Only [.obj, .fns, .fab] s (fireEvent s e) := by
  unfold fireEvent
  split
  · exact Only.refl _ s
  · rename_i x _
    split
    · exact Only.refl _ s
    · rename_i f _
      have h : Only [.obj, .fns, .fab] s (eventRec s x.func 0x01 stOk 0 (handleOf s.obj 4 e) (handleOf s.obj 3 x.fence) f.value.toNat) :=
        (eventRec_only s _ _ _ _ _ _ _).mono (by simp)
      refine Only.ite (fun _ => Only.refl _ s) fun _ => ?_
      exact Only.ite (fun _ => Only.snoc ((setObj_only _ _).mono (by simp)) h) fun _ =>
        Only.snoc ((setObj_only _ _).mono (by simp)) h

theorem endEvents_only (s : State) (f st : Nat) : Only [.obj, .fns, .fab] s (endEvents s f st) := by
  refine Only.foldl (fun s e => ?_) _ s
  dsimp only
  split
  · exact Only.refl _ s
  · exact Only.snoc ((setObj_only _ _).mono (by simp)) ((eventRec_only s _ _ _ _ _ _ _).mono (by simp))

theorem mirrorWrite_only (s : State) (f : Fence) : Only [.fab] s (mirrorWrite s f) :=
  Only.ite (fun _ => Only.refl _ s) fun _ => hostWrite_only s _ _

theorem fenceCycle_only (s : State) (f : Nat) (sigs : List W64) : Only [.obj, .fns, .fab] s (fenceCycle s f sigs) := by
  unfold fenceCycle
  split
  · exact Only.refl _ s
  · rename_i x _
    have h : Only [.obj, .fns, .fab] s (setFence s f (fenceAfter x sigs)) := (setFence_only s f _).mono (by simp)
    refine Only.ite (fun _ => h) fun _ => Only.snoc ((setObj_only _ _).mono (by simp)) ?_
    exact Only.snoc (Only.foldl fireEvent_only _ _) (Only.snoc ((mirrorWrite_only _ _).mono (by simp)) h)

theorem signalHandle_only (s : State) (h : Nat) (v : W64) : Only [.obj, .fns, .fab] s (signalHandle s h v) := by
  unfold signalHandle
  split
  · exact fenceCycle_only s _ _
  · exact Only.refl _ s

/-- What the end of a descriptor can reach. -/
def endParts : List Part := [.obj, .fns, .mmu, .fe, .fab]

theorem ctxGone_only (s : State) (c : Nat) : Only endParts s (ctxGone s c) := by
  unfold ctxGone
  split
  · exact Only.refl _ s
  · refine Only.ite (fun _ => ?_) fun _ => Only.refl _ s
    have h : Only endParts s { s with mmu := dropAsid s.mmu c } := fun p hp => by
      cases p <;> first | (simp [endParts] at hp; done) | rfl
    exact Only.snoc ((eventRec_only _ _ _ _ _ _ _ _).mono (by simp [endParts]))
      (Only.snoc ((setObj_only _ _).mono (by simp [endParts])) h)

theorem queueDrained_only (s : State) (q : Nat) : Only endParts s (queueDrained s q) := by
  unfold queueDrained
  split
  · exact Only.refl _ s
  · refine Only.ite (fun _ => ?_) fun _ => Only.refl _ s
    refine Only.snoc (ctxGone_only _ _) ?_
    exact Only.snoc ((eventRec_only _ _ _ _ _ _ _ _).mono (by simp [endParts])) ((setObj_only s _).mono (by simp [endParts]))

theorem chainToken_only (s : State) (c h : Nat) : Only endParts s (chainToken s c h) := by
  have lost : Only endParts s { s with fe := { s.fe with tokenLost := satAdd 0xFFF s.fe.tokenLost 1 } } := fun p hp => by
    cases p <;> first | (simp [endParts] at hp; done) | rfl
  unfold chainToken
  dsimp only
  split
  · exact lost
  · split
    · exact lost
    · exact Only.ite (fun _ => lost) fun _ => (putQ_only s _ _).mono (by simp [endParts])

theorem endDesc_only (s : State) (q : Nat) (i : W32) (st : Nat) : Only endParts s (endDesc s q i st) := by
  unfold endDesc
  split
  · exact Only.refl _ s
  · split
    · exact Only.refl _ s
    · refine Only.snoc (queueDrained_only _ q) ?_
      have h : ∀ x y, Only endParts s (if q = winKey then
          { putQ s q x with fe := { (putQ s q x).fe with acv := { (putQ s q x).fe.acv with ring := y } } } else putQ s q x) := by
        intro x y
        refine Only.ite (fun _ => fun p hp => ?_) fun _ => (putQ_only s q _).mono (by simp [endParts])
        cases p <;> first | (simp [endParts] at hp; done) | rfl
      exact Only.ite (fun _ => Only.snoc ((eventRec_only _ _ _ _ _ _ _ _).mono (by simp [endParts])) (h _ _)) fun _ => h _ _

/-- What a unit's work of a descriptor can reach when it is removed. -/
def workParts : List Part := [.obj, .cores, .eng, .bob, .ras, .cch, .cod, .circ]

theorem dropBlocks_only (s : State) (p : Nat → Block → Bool) : Only workParts s (dropBlocks s p) := fun p hp => by
  cases p <;> first | (simp [workParts] at hp; done) | rfl

theorem dropRuns_only (s : State) (p : Run → Bool) : Only workParts s (dropRuns s p) := fun p hp => by
  cases p <;> first | (simp [workParts] at hp; done) | rfl

theorem dropPasses_only (s : State) (p : Pass → Bool) : Only workParts s (dropPasses s p) := fun p hp => by
  cases p <;> first | (simp [workParts] at hp; done) | rfl

theorem dropWork_only (s : State) (q : Nat) (i : W32) : Only workParts s (dropWork s q i) := by
  have h : Only workParts s (dropPasses (dropRuns s fun r => r.q == q && r.i == i) fun p => p.q == q && p.i == i) :=
    Only.snoc (dropPasses_only _ _) (dropRuns_only s _)
  have tail : ∀ (t : State) o c d e, Only workParts t { t with obj := o, cch := c, cod := d, circ := e } := fun t o c d e p hp => by
    cases p <;> first | (simp [workParts] at hp; done) | rfl
  exact Only.snoc (tail _ _ _ _ _) h

theorem cleanSlot_only (s : State) (n : Nat) : Only [.fab] s (cleanSlot s n) := only_fab s _

/-- What a completion can reach. -/
def completeParts : List Part := [.obj, .fns, .mmu, .fe, .fab, .cores, .eng, .bob, .ras, .cch, .cod, .circ]

theorem startClean_only (s : State) (n : Nat) : Only [.fab] s (startClean s n) := only_fab s _

/-- Steps 2 to 4 of R151 reach what a completion reaches. -/
theorem finishOk_only (s : State) (q : Nat) (x : Queue) (d : Desc) : Only completeParts s (finishOk s q x d) := by
  have he : endParts ⊆ completeParts := by simp [endParts, completeParts]
  have h1 := Only.refl completeParts s
  refine Only.snoc ((endDesc_only _ _ _ _).mono he) ?_
  have h2 := fun c [Decidable c] f v => Only.ite (c := c)
    (fun _ => Only.snoc ((signalHandle_only _ f v).mono (by simp [completeParts])) h1) fun _ => h1
  exact Only.ite (fun _ => Only.snoc ((chainToken_only _ _ _).mono he) (h2 _ _ _)) fun _ => h2 _ _ _

theorem complete_only (s : State) (q : Nat) (i : W32) (st : Nat) : Only completeParts s (complete s q i st) := by
  unfold complete
  split
  · exact Only.refl _ s
  · rename_i x _
    split
    · exact Only.refl _ s
    · rename_i d _
      have h0 : Only completeParts s (dropWork s q i) := (dropWork_only s q i).mono (by simp [workParts, completeParts])
      refine Only.ite (fun _ => Only.snoc ((endDesc_only _ _ _ _).mono (by simp [endParts, completeParts])) h0) fun _ => ?_
      split
      · exact Only.snoc (finishOk_only _ q x d) h0
      · refine Only.ite (fun _ => ?_) fun _ => Only.snoc (finishOk_only _ q x d) h0
        exact Only.snoc ((putQ_only _ q _).mono (by simp [completeParts]))
          (Only.snoc ((startClean_only _ _).mono (by simp [completeParts])) h0)

theorem failWaits_only (s : State) (f st : Nat) (c : Option Nat) : Only completeParts s (failWaits s f st c) := by
  unfold failWaits
  refine Only.snoc ((setObj_only _ _).mono (by simp [completeParts])) (Only.foldl (fun s q => ?_) _ s)
  split
  · exact Only.refl _ s
  · exact Only.ite (fun _ => Only.refl _ s) fun _ => Only.foldl (fun s d => complete_only s _ _ _) _ s

theorem closeStreams_only (s : State) (p : Nat → Stream → Bool) : Only completeParts s (closeStreams s p) := fun p hp => by
  cases p <;> first | (simp [completeParts] at hp; done) | rfl

theorem loseFences_only (s : State) (c : Nat) : Only completeParts s (loseFences s c) := by
  refine Only.foldl (fun s f => ?_) _ s
  exact Only.snoc ((endEvents_only _ _ _).mono (by simp [completeParts]))
    (Only.snoc (failWaits_only _ _ _ _) ((setObj_only s _).mono (by simp [completeParts])))

theorem flushQueue_only (s : State) (q st : Nat) : Only completeParts s (flushQueue s q st) := by
  unfold flushQueue
  split
  · exact Only.refl _ s
  · exact Only.foldl (fun s d => complete_only s _ _ _) _ s

theorem dropDirty_only (s : State) (n : Nat) : Only [.fab] s (dropDirty s n) := only_fab s _

theorem dropTxns_only (s : State) (c : Nat) : Only [.fab] s (dropTxns s c) := only_fab s _

/-- The loss of a context reaches no part but those of `lossParts` (R75). -/
theorem markLost_only (s : State) (c reason : Nat) : Only lossParts s (markLost s c reason) := by
  have hc : completeParts ⊆ lossParts := by simp [completeParts, lossParts]
  unfold markLost
  split
  · exact Only.refl _ s
  · rename_i x _
    refine Only.ite (fun _ => Only.refl _ s) fun _ => ?_
    refine Only.snoc ((dayBook_only _ _ _ _ _).mono (by simp [lossParts])) ?_
    refine Only.snoc ((eventRec_only _ _ _ _ _ _ _ _).mono (by simp [lossParts])) ?_
    refine Only.snoc ((closeStreams_only _ _).mono hc) (Only.snoc ((loseFences_only _ _).mono hc) ?_)
    refine Only.snoc (Only.foldl (fun s q => (flushQueue_only s q _).mono hc) _ _) ?_
    refine Only.snoc ((dropTxns_only _ _).mono (by simp [lossParts])) ?_
    have h := fun o => (setObj_only s o).mono (qs := lossParts) (by simp [lossParts])
    split
    · exact Only.snoc ((dropDirty_only _ _).mono (by simp [lossParts])) (h _)
    · exact h _

end Sys2Proof.Machine
end

