-- ==== Sys2Proof/Laws/Forms.lean ====
section
/-! SUPPORT. That the shared operations keep the byte memories in their canonical form, and what they do to the counts of a
function's firmware rings. -/

namespace Sys2Proof.Machine

/-! ## The memories -/

/-- What `memOk` says, memory by memory. -/
theorem memOk_iff (s : State) :
    memOk s = true ↔ Mem.wf s.fab.mem = true ∧ Mem.wf s.fab.host = true ∧ Mem.wf s.cores.lm = true := by
  simp [memOk, and_assoc]

/-- A step that leaves the fabric and the cores alone keeps the memories. -/
theorem Only.memOk {ps : List Part} {s t : State} (h : Only ps s t) (hf : Part.fab ∉ ps) (hc : Part.cores ∉ ps)
    (hs : memOk s = true) : memOk t = true := by
  have h1 : t.fab = s.fab := h .fab hf
  have h2 : t.cores = s.cores := h .cores hc
  simpa [Machine.memOk, h1, h2] using hs

/-- The form rests on the fabric and the cores alone. -/
theorem memOk_congr {s t : State} (h1 : t.fab = s.fab) (h2 : t.cores = s.cores) (hs : memOk s = true) : memOk t = true := by
  simpa [memOk, h1, h2] using hs

/-- An operation keeps the memories' form. -/
def KeepsMem (f : State → State) : Prop := ∀ s, memOk s = true → memOk (f s) = true

theorem memOk_foldl {β : Type} {f : State → β → State} (hf : ∀ s b, memOk s = true → memOk (f s b) = true) (l : List β) {s : State}
    (hs : memOk s = true) : memOk (l.foldl f s) = true := by
  induction l generalizing s with
  | nil => exact hs
  | cons b t ih => exact ih (hf s b hs)

theorem memOk_ite {s t : State} {c : Prop} [Decidable c] (h : c → memOk s = true) (h' : ¬ c → memOk t = true) :
    memOk (if c then s else t) = true := by
  split
  · exact h ‹_›
  · exact h' ‹_›

theorem memOk_setObj {s : State} (o : Objects) (hs : memOk s = true) : memOk (setObj s o) = true := hs

theorem memOk_setFn {s : State} (f : Nat) (x : Fn) (hs : memOk s = true) : memOk (setFn s f x) = true := hs

theorem memOk_drew {s : State} (hs : memOk s = true) : memOk (drew s) = true := hs

theorem memOk_hostMem {s : State} {m : Mem} (hm : Mem.wf m = true) (hs : memOk s = true) :
    memOk { s with fab := { s.fab with host := m } } = true := by
  obtain ⟨h1, -, h3⟩ := (memOk_iff s).1 hs
  exact (memOk_iff _).2 ⟨h1, hm, h3⟩

theorem memOk_hostWrite {s : State} (a : Nat) (l : List Byte) (hs : memOk s = true) : memOk (hostWrite s a l) = true :=
  memOk_hostMem (mwrite_wf ((memOk_iff s).1 hs).2.1 a l) hs

theorem memOk_raiseMsix {s : State} (f v : Nat) (hs : memOk s = true) : memOk (raiseMsix s f v) = true := by
  unfold raiseMsix
  exact memOk_ite (fun _ => hs) fun _ => memOk_ite (fun _ => memOk_ite (fun _ => hs) fun _ => hs) fun _ => memOk_hostWrite _ _ hs

theorem memOk_eventRec {s : State} (f kind status reason event object value : Nat) (hs : memOk s = true) :
    memOk (eventRec s f kind status reason event object value) = true := by
  unfold eventRec
  dsimp only
  have hm := fun v => ringPut_wf ((memOk_iff s).1 hs).2.1 (fnOf s f).events v
  exact memOk_ite (fun _ => memOk_raiseMsix _ _ (memOk_hostMem (hm _) hs)) fun _ => memOk_hostMem (hm _) hs

theorem memOk_dayBook {s : State} (code obj arg0 arg1 : Nat) (hs : memOk s = true) : memOk (dayBook s code obj arg0 arg1) = true := by
  unfold dayBook
  dsimp only
  split
  · exact memOk_congr (s := s) rfl rfl hs
  · generalize hr : ringPut _ _ _ = r
    have hm : Mem.wf r.1 = true := hr ▸ ringPut_wf ((memOk_iff s).1 hs).2.1 _ _
    exact memOk_congr (s := { s with fab := { s.fab with host := r.1 } }) rfl rfl (memOk_hostMem hm hs)

theorem memOk_trace {s : State} (group point obj arg1 : Nat) (hs : memOk s = true) : memOk (trace s group point obj arg1) = true :=
  memOk_ite (fun _ => memOk_dayBook _ _ _ _ hs) fun _ => hs

theorem memOk_traceFree {s : State} (group point obj : Nat) (hs : memOk s = true) : memOk (traceFree s group point obj) = true :=
  memOk_ite (fun _ => memOk_dayBook _ _ _ _ hs) fun _ => hs

theorem memOk_fwTake {s : State} (f cmd : Nat) (hs : memOk s = true) : memOk (fwTake s f cmd) = true :=
  memOk_trace (s := setFn s f _) _ _ _ _ hs

theorem memOk_fwComplete {s : State} (f cmd : Nat) (tag : W32) (status result : Nat) (hs : memOk s = true) :
    memOk (fwComplete s f cmd tag status result) = true := by
  unfold fwComplete
  exact memOk_raiseMsix _ _ (memOk_trace _ _ _ _ (memOk_setFn _ _ (memOk_hostWrite _ _ hs)))

/-- A firmware command keeps the memories' form when its effect does. -/
theorem memOk_fwCommandWith {s : State} (c : Call) (cmd : Nat) {op : State → State × Nat × Nat} {post : Nat → State → State}
    (hop : KeepsMem fun s => (op s).1) (hpost : ∀ st, KeepsMem (post st)) (hs : memOk s = true) :
    memOk (fwCommandWith s c cmd op post) = true := by
  unfold fwCommandWith
  have h := memOk_fwTake c.func cmd hs
  exact memOk_ite (fun _ => memOk_fwComplete _ _ _ _ _ (hpost _ _ (memOk_ite (fun _ => hop _ h) fun _ => h))) fun _ => hs

theorem memOk_fireEvent {s : State} (e : Nat) (hs : memOk s = true) : memOk (fireEvent s e) = true := by
  unfold fireEvent
  split
  · exact hs
  · split
    · exact hs
    · refine memOk_ite (fun _ => hs) fun _ => ?_
      exact memOk_ite (fun _ => memOk_setObj _ (memOk_eventRec _ _ _ _ _ _ _ hs)) fun _ =>
        memOk_setObj _ (memOk_eventRec _ _ _ _ _ _ _ hs)

theorem memOk_endEvents {s : State} (f st : Nat) (hs : memOk s = true) : memOk (endEvents s f st) = true := by
  refine memOk_foldl (fun s e hs => ?_) _ hs
  dsimp only
  split
  · exact hs
  · exact memOk_setObj _ (memOk_eventRec _ _ _ _ _ _ _ hs)

theorem memOk_mirrorWrite {s : State} (f : Fence) (hs : memOk s = true) : memOk (mirrorWrite s f) = true :=
  memOk_ite (fun _ => hs) fun _ => memOk_hostWrite _ _ hs

theorem memOk_fenceCycle {s : State} (f : Nat) (sigs : List W64) (hs : memOk s = true) : memOk (fenceCycle s f sigs) = true := by
  unfold fenceCycle
  split
  · exact hs
  · exact memOk_ite (fun _ => hs) fun _ =>
      memOk_setObj _ (memOk_foldl (fun s e => memOk_fireEvent e) _ (memOk_mirrorWrite _ (memOk_setObj _ hs)))

theorem memOk_signalHandle {s : State} (h : Nat) (v : W64) (hs : memOk s = true) : memOk (signalHandle s h v) = true := by
  unfold signalHandle
  split
  · exact memOk_fenceCycle _ _ hs
  · exact hs

theorem memOk_ctxGone {s : State} (c : Nat) (hs : memOk s = true) : memOk (ctxGone s c) = true := by
  unfold ctxGone
  split
  · exact hs
  · exact memOk_ite (fun _ => memOk_eventRec (s := setObj { s with mmu := dropAsid s.mmu c } _) _ _ _ _ _ _ _ hs) fun _ => hs

theorem memOk_queueDrained {s : State} (q : Nat) (hs : memOk s = true) : memOk (queueDrained s q) = true := by
  unfold queueDrained
  split
  · exact hs
  · exact memOk_ite (fun _ => memOk_ctxGone _ (memOk_eventRec (s := setObj s _) _ _ _ _ _ _ _ hs)) fun _ => hs

theorem memOk_chainToken {s : State} (c h : Nat) (hs : memOk s = true) : memOk (chainToken s c h) = true := by
  have he : Only endParts s (chainToken s c h) := chainToken_only s c h
  unfold chainToken at he ⊢
  dsimp only
  split
  · exact hs
  · split
    · exact hs
    · exact memOk_ite (fun _ => hs) fun _ => hs

theorem memOk_endDesc {s : State} (q : Nat) (i : W32) (st : Nat) (hs : memOk s = true) : memOk (endDesc s q i st) = true := by
  unfold endDesc
  split
  · exact hs
  · split
    · exact hs
    · refine memOk_queueDrained _ ?_
      have h : ∀ x y, memOk (if q = winKey then
          { putQ s q x with fe := { (putQ s q x).fe with acv := { (putQ s q x).fe.acv with ring := y } } } else putQ s q x) = true :=
        fun x y => memOk_ite (fun _ => hs) fun _ => hs
      exact memOk_ite (fun _ => memOk_eventRec _ _ _ _ _ _ _ (h _ _)) fun _ => h _ _

theorem memOk_dropBlocks {s : State} (p : Nat → Block → Bool) (hs : memOk s = true) : memOk (dropBlocks s p) = true := hs

theorem memOk_dropRuns {s : State} (p : Run → Bool) (hs : memOk s = true) : memOk (dropRuns s p) = true := hs

theorem memOk_dropPasses {s : State} (p : Pass → Bool) (hs : memOk s = true) : memOk (dropPasses s p) = true := hs

theorem memOk_dropWork {s : State} (q : Nat) (i : W32) (hs : memOk s = true) : memOk (dropWork s q i) = true := hs

theorem memOk_cleanSlot {s : State} (n : Nat) (hs : memOk s = true) : memOk (cleanSlot s n) = true := by
  obtain ⟨h1, h2, h3⟩ := (memOk_iff s).1 hs
  exact (memOk_iff _).2 ⟨cleanFab_wf h1 n, h2, h3⟩

theorem memOk_startClean {s : State} (n : Nat) (hs : memOk s = true) : memOk (startClean s n) = true := by
  obtain ⟨h1, h2, h3⟩ := (memOk_iff s).1 hs
  exact (memOk_iff _).2 ⟨cleanFab_wf h1 n, h2, h3⟩

theorem memOk_finishOk {s : State} (q : Nat) (x : Queue) (d : Desc) (hs : memOk s = true) : memOk (finishOk s q x d) = true := by
  refine memOk_endDesc _ _ _ ?_
  have h2 := fun c [Decidable c] f v => memOk_ite (c := c) (fun _ => memOk_signalHandle f v hs) fun _ => hs
  exact memOk_ite (fun _ => memOk_chainToken _ _ (h2 _ _ _)) fun _ => h2 _ _ _

theorem memOk_putQ {s : State} (q : Nat) (x : Queue) (hs : memOk s = true) : memOk (putQ s q x) = true := hs

theorem memOk_complete {s : State} (q : Nat) (i : W32) (st : Nat) (hs : memOk s = true) : memOk (complete s q i st) = true := by
  unfold complete
  split
  · exact hs
  · rename_i x _
    split
    · exact hs
    · rename_i d _
      have h0 : memOk (dropWork s q i) = true := memOk_dropWork q i hs
      refine memOk_ite (fun _ => memOk_endDesc _ _ _ h0) fun _ => ?_
      split
      · exact memOk_finishOk q x d h0
      · exact memOk_ite (fun _ => memOk_putQ _ _ (memOk_startClean _ h0)) fun _ => memOk_finishOk q x d h0

theorem memOk_failWaits {s : State} (f st : Nat) (c : Option Nat) (hs : memOk s = true) : memOk (failWaits s f st c) = true := by
  unfold failWaits
  refine memOk_setObj _ (memOk_foldl (fun s q hs => ?_) _ hs)
  split
  · exact hs
  · exact memOk_ite (fun _ => hs) fun _ => memOk_foldl (fun s d => memOk_complete _ _ _) _ hs

theorem memOk_closeStreams {s : State} (p : Nat → Stream → Bool) (hs : memOk s = true) : memOk (closeStreams s p) = true := hs

theorem memOk_loseFences {s : State} (c : Nat) (hs : memOk s = true) : memOk (loseFences s c) = true :=
  memOk_foldl (fun _ _ hs => memOk_endEvents _ _ (memOk_failWaits _ _ _ (memOk_setObj _ hs))) _ hs

theorem memOk_flushQueue {s : State} (q st : Nat) (hs : memOk s = true) : memOk (flushQueue s q st) = true := by
  unfold flushQueue
  split
  · exact hs
  · exact memOk_foldl (fun s d => memOk_complete _ _ _) _ hs

theorem memOk_dropDirty {s : State} (n : Nat) (hs : memOk s = true) : memOk (dropDirty s n) = true := hs

theorem memOk_dropTxns {s : State} (c : Nat) (hs : memOk s = true) : memOk (dropTxns s c) = true := hs

/-- The loss of a context keeps the memories' form. -/
theorem memOk_markLost {s : State} (c reason : Nat) (hs : memOk s = true) : memOk (markLost s c reason) = true := by
  unfold markLost
  split
  · exact hs
  · refine memOk_ite (fun _ => hs) fun _ => memOk_dayBook _ _ _ _ (memOk_eventRec _ _ _ _ _ _ _ (memOk_closeStreams _
      (memOk_loseFences _ (memOk_foldl (fun s q => memOk_flushQueue _ _) _ (memOk_dropTxns _ ?_)))))
    split
    · exact memOk_dropDirty _ (memOk_setObj _ hs)
    · exact memOk_setObj _ hs

/-! ## A function's record -/

@[simp] theorem fnOf_setFn_same (s : State) (f : Nat) (x : Fn) : fnOf (setFn s f x) f = x := tgetD_tset_same _ _ _ _

theorem fnOf_setFn_other (s : State) {f g : Nat} (x : Fn) (h : g ≠ f) : fnOf (setFn s f x) g = fnOf s g :=
  tgetD_tset_other _ _ _ h

/-- A part of every function's record, the same in both states. -/
def SameFn {β : Type} (p : Fn → β) (s t : State) : Prop := ∀ g, p (fnOf t g) = p (fnOf s g)

theorem SameFn.of_fns {β : Type} (p : Fn → β) {s t : State} (h : t.fns = s.fns) : SameFn p s t := fun g => by
  simp [fnOf, h]

theorem SameFn.trans {β : Type} {p : Fn → β} {s t u : State} (h : SameFn p s t) (h' : SameFn p t u) : SameFn p s u :=
  fun g => (h' g).trans (h g)

/-- Setting a function's record keeps what the new one has in common with the old. -/
theorem SameFn.setFn {β : Type} {p : Fn → β} {s : State} {f : Nat} {x : Fn} (h : p x = p (fnOf s f)) : SameFn p s (setFn s f x) :=
  fun g => by
    by_cases hg : g = f
    · subst hg
      simpa using h
    · rw [fnOf_setFn_other s x hg]

/-- The counts of the rings of R508: commands taken and completions written. -/
def Fn.counts (x : Fn) : W32 × W32 × W32 × W32 := (x.cmdTail, x.cplHead, x.taken, x.written)

/-- An interrupt moves no firmware ring. -/
theorem raiseMsix_counts (s : State) (f v : Nat) : SameFn Fn.counts s (raiseMsix s f v) := by
  unfold raiseMsix
  dsimp only
  split
  · exact .of_fns _ rfl
  · split
    · split
      · exact .of_fns _ rfl
      · exact .setFn rfl
    · exact .of_fns _ rfl

/-- An event record moves no firmware ring. -/
theorem eventRec_counts (s : State) (f kind status reason event object value : Nat) :
    SameFn Fn.counts s (eventRec s f kind status reason event object value) := by
  unfold eventRec
  dsimp only
  generalize ringPut _ _ _ = r
  have h : SameFn Fn.counts s (setFn { s with fab := { s.fab with host := r.1 } } f { fnOf s f with events := r.2.1 }) :=
    SameFn.trans (t := { s with fab := { s.fab with host := r.1 } }) (.of_fns _ rfl) (.setFn rfl)
  split
  · exact h.trans (raiseMsix_counts _ _ _)
  · exact h

theorem dayBook_fns (s : State) (code obj arg0 arg1 : Nat) : (dayBook s code obj arg0 arg1).fns = s.fns :=
  dayBook_only s code obj arg0 arg1 .fns (by simp)

theorem trace_fns (s : State) (group point obj arg1 : Nat) : (trace s group point obj arg1).fns = s.fns :=
  trace_only s group point obj arg1 .fns (by simp)

/-- Taking a command advances the function's count T by 1, and moves no other ring (R511). -/
theorem fwTake_fn (s : State) (f cmd g : Nat) :
    fnOf (fwTake s f cmd) g = if g = f then { fnOf s f with taken := (fnOf s f).taken + 1 } else fnOf s g := by
  have h : ∀ t : State, (fwTake s f cmd).fns = t.fns → fnOf (fwTake s f cmd) g = fnOf t g := fun t h => by simp [fnOf, h]
  rw [h (setFn s f _) (trace_fns _ _ _ _ _)]
  split
  · rename_i hg
    subst hg
    exact fnOf_setFn_same _ _ _
  · exact fnOf_setFn_other _ _ ‹_›

/-- Completing a command advances the function's count W by 1, and moves no other ring (R509, R511). -/
theorem fwComplete_counts (s : State) (f cmd : Nat) (tag : W32) (status result g : Nat) :
    (fnOf (fwComplete s f cmd tag status result) g).counts =
      if g = f then ((fnOf s f).cmdTail, (fnOf s f).cplHead, (fnOf s f).taken, (fnOf s f).written + 1)
      else (fnOf s g).counts := by
  unfold fwComplete
  dsimp only
  rw [raiseMsix_counts]
  have h : ∀ t a b c d, fnOf (trace t a b c d) g = fnOf t g := fun t a b c d => by simp [fnOf, trace_fns]
  rw [h]
  by_cases hg : g = f
  · subst hg
    rw [fnOf_setFn_same, if_pos rfl, Fn.counts]
  · rw [fnOf_setFn_other _ _ hg, if_neg hg, fnOf, hostWrite_fns, fnOf]

/-- A firmware command that is taken completes: T and W advance by 1 when its effect moves no firmware ring (R511). -/
theorem fwCommandWith_counts {s : State} {c : Call} (h : fwTakes s c.func = true) (cmd : Nat) {op : State → State × Nat × Nat}
    {post : Nat → State → State} (hop : ∀ s, SameFn Fn.counts s (op s).1) (hpost : ∀ st s, SameFn Fn.counts s (post st s)) :
    FwDone c s (fwCommandWith s c cmd op post) := by
  have key : ∀ g, (fnOf (fwCommandWith s c cmd op post) g).counts =
      if g = c.func.val then ((fnOf s g).cmdTail, (fnOf s g).cplHead, (fnOf s g).taken + 1, (fnOf s g).written + 1)
      else (fnOf s g).counts := by
    intro g
    unfold fwCommandWith
    rw [if_pos h]
    dsimp only
    rw [fwComplete_counts]
    generalize hv : (if (op (fwTake s c.func cmd)).2.1 = stOk ∨ (op (fwTake s c.func cmd)).2.1 = stDeferred then
      (op (fwTake s c.func cmd)).1 else fwTake s c.func cmd) = v
    have h1 : SameFn Fn.counts (fwTake s c.func cmd) v := by
      rw [← hv]
      split
      · exact hop _
      · exact .of_fns _ rfl
    have h2 := fun k => (h1.trans (hpost (op (fwTake s c.func cmd)).2.1 v)) k
    by_cases hg : g = c.func.val
    · subst hg
      have h3 := h2 c.func
      rw [fwTake_fn, if_pos rfl] at h3
      simp only [Fn.counts, Prod.mk.injEq] at h3
      simp [h3]
    · have h3 := h2 g
      rw [fwTake_fn, if_neg hg] at h3
      simpa [hg] using h3
  refine ⟨?_, ?_, fun g hg => ?_⟩
  · have := key c.func
    simp only [Fn.counts, if_true, Prod.mk.injEq] at this
    exact this.2.2.1
  · have := key c.func
    simp only [Fn.counts, if_true, Prod.mk.injEq] at this
    exact this.2.2.2
  · have := key g
    simp only [Fn.counts, if_neg hg, Prod.mk.injEq] at this
    exact this.2.2

end Sys2Proof.Machine
end

