-- ==== Sys2Proof/Laws/Mesh.lean ====
section
/-! SUPPORT. What a cycle of the mesh, a translation and a direct access can change: the transactions with their tokens, the caches of
translations, and what a fault or a loss reaches. -/

namespace Sys2Proof.Machine

/-- The mesh moves requests: it changes where the transactions are, the tokens, and the count of requests that have entered
buffers, and no byte of any memory (spec/07 R189 to R194). -/
def Moved (s t : State) : Prop :=
  ∃ l k n, t = { s with fab := { s.fab with txns := l, tokens := k, seq := n } }

theorem Moved.refl (s : State) : Moved s s := ⟨_, _, _, rfl⟩

theorem Moved.trans {s t u : State} (h : Moved s t) (h' : Moved t u) : Moved s u := by
  obtain ⟨_, _, _, rfl⟩ := h
  obtain ⟨l, k, n, rfl⟩ := h'
  exact ⟨l, k, n, rfl⟩

theorem Moved.only {s t : State} (h : Moved s t) : Only [.fab] s t := by
  obtain ⟨_, _, _, rfl⟩ := h
  exact only_fab s _

theorem Moved.mem {s t : State} (h : Moved s t) : t.fab.mem = s.fab.mem ∧ t.fab.host = s.fab.host ∧ t.fab.lines = s.fab.lines ∧
    t.fab.shares = s.fab.shares := by
  obtain ⟨_, _, _, rfl⟩ := h
  exact ⟨rfl, rfl, rfl, rfl⟩

theorem Moved.memOk {s t : State} (h : Moved s t) (hs : memOk s = true) : memOk t = true := by
  obtain ⟨_, _, _, rfl⟩ := h
  exact hs

theorem setTxn_moved (s : State) (id : Nat) (x : Txn) : Moved s (setTxn s id x) := ⟨_, _, _, rfl⟩

theorem nocGrant_moved (p : State × List Nat) (b : Nat) : Moved p.1 (nocGrant p b).1 := by
  unfold nocGrant
  dsimp only
  split
  · exact Moved.refl _
  · split
    · exact Moved.refl _
    · split
      · exact Moved.refl _
      · exact ⟨_, _, _, rfl⟩

/-- A fold of grants moves requests. -/
theorem Moved.foldl {α : Type} {f : State × List Nat → α → State × List Nat} (hf : ∀ p a, Moved p.1 (f p a).1) (l : List α)
    (p : State × List Nat) : Moved p.1 (l.foldl f p).1 := by
  induction l generalizing p with
  | nil => exact Moved.refl _
  | cons a t ih => exact (hf p a).trans (ih (f p a))

theorem nocCycle_moved (s : State) : Moved s (nocCycle s) :=
  Moved.foldl (fun p b => Moved.foldl (fun p _ => nocGrant_moved p b) _ p) _ (s, [])

theorem nocRun_moved (n : Nat) (s : State) : Moved s (nocRun n s) := by
  induction n generalizing s with
  | zero => exact Moved.refl s
  | succ n ih =>
    unfold nocRun
    split
    · exact Moved.refl s
    · exact (nocCycle_moved s).trans (ih _)

theorem nocSettle_moved (s : State) : Moved s (nocSettle s) := nocRun_moved _ s

/-- An allocator gives an entry to at most one waiting transaction: it changes the fabric's tables and no byte of a memory (spec/07
R195 to R197). -/
theorem allocate_tables (s : State) (share : Nat) :
    ∃ l k n c, allocate s share = { s with fab := { s.fab with txns := l, tokens := k, seq := n, shares := c } } := by
  unfold allocate
  split
  · exact ⟨_, _, _, _, rfl⟩
  · dsimp only
    split
    · exact ⟨_, _, _, _, rfl⟩
    · split <;> exact ⟨_, _, _, _, rfl⟩

theorem allocate_memOk {s : State} (share : Nat) (hs : memOk s = true) : memOk (allocate s share) = true := by
  obtain ⟨_, _, _, _, h⟩ := allocate_tables s share
  exact h ▸ hs

/-- The report of a stall changes the counters of its slot. -/
theorem addStall_only (s : State) (n : Nat) (src : SlowSrc) (r : Stall) : Only [.car] s (addStall s n src r) := by
  unfold addStall
  split
  · exact Only.refl _ s
  · intro p hp
    cases p <;> first | (simp at hp; done) | rfl

/-- A step seen by a unit's progress monitor changes the fault block alone (spec/16 R496). -/
theorem moves_only (s : State) (u : UnitRef) : Only [.flt] s (moves s u) := by
  unfold moves
  split
  · exact Only.refl _ s
  · intro p hp
    cases p <;> first | (simp at hp; done) | rfl

/-! ## Translations -/

/-- A translation caches leaves and pointers, and may draw free values for their places (spec/04 R114 to R116). -/
def Cached (s t : State) : Prop :=
  ∃ l w n, t = { s with mmu := { s.mmu with tlb := l, walkCache := w }, free := n }

theorem Cached.refl (s : State) : Cached s s := ⟨_, _, _, rfl⟩

theorem Cached.trans {s t u : State} (h : Cached s t) (h' : Cached t u) : Cached s u := by
  obtain ⟨_, _, _, rfl⟩ := h
  obtain ⟨l, w, n, rfl⟩ := h'
  exact ⟨l, w, n, rfl⟩

theorem Cached.only {s t : State} (h : Cached s t) : Only [.mmu, .free] s t := by
  obtain ⟨_, _, _, rfl⟩ := h
  intro p hp
  cases p <;> first | (simp at hp; done) | rfl

theorem Cached.memOk {s t : State} (h : Cached s t) (hs : memOk s = true) : memOk t = true := by
  obtain ⟨_, _, _, rfl⟩ := h
  exact hs

theorem Cached.foldl {α : Type} {f : State → α → State} (hf : ∀ s a, Cached s (f s a)) (l : List α) (s : State) :
    Cached s (l.foldl f s) := by
  induction l generalizing s with
  | nil => exact Cached.refl s
  | cons a t ih => exact (hf s a).trans (ih (f s a))

theorem fillPlace_cached (s : State) (n : Nat) (used : List Nat) : Cached s (fillPlace s n used).1 := by
  unfold fillPlace
  split <;> exact ⟨_, _, _, rfl⟩

theorem fillTlb_cached (s : State) (e : TlbE) (t : Nat) : Cached s (fillTlb s e t) := by
  unfold fillTlb
  split
  · exact Cached.refl s
  · exact (fillPlace_cached s _ _).trans ⟨_, _, _, rfl⟩

theorem fillPath_cached (s : State) (path : List Nat) (e : TlbE) : Cached s (fillPath s path e) :=
  Cached.foldl (fun s t => fillTlb_cached s e t) path s

theorem fillWalk_cached (s : State) (e : WalkE) : Cached s (fillWalk s e) := by
  unfold fillWalk
  split
  · exact Cached.refl s
  · exact (fillPlace_cached s _ _).trans ⟨_, _, _, rfl⟩

theorem walk_cached (s : State) (walker : Nat) (fromRoot : Bool) (path : List Nat) (asid va : Nat) :
    Cached s (walk s walker fromRoot path asid va).1 := by
  unfold walk
  dsimp only
  split
  · exact (Cached.foldl fillWalk_cached _ s).trans (fillPath_cached _ _ _)
  · exact Cached.foldl fillWalk_cached _ s

theorem translate_cached (s : State) (w : Who) (k : AccessKind) (va : Nat) : Cached s (translate s w k va).1 := by
  unfold translate
  dsimp only
  split
  · exact Cached.refl s
  · split
    · exact fillPath_cached s _ _
    · split
      · exact Cached.refl s
      · split <;> (rename_i h; exact congrArg Prod.fst h ▸ walk_cached s _ false _ w.asid va)

/-! ## Direct accesses -/

/-- A faulting access joins or raises a request; one of the media hub loses its context (spec/04 R119, R122). -/
theorem raiseFault_only (s : State) (w : Who) (k : AccessKind) (va : Nat) : Only lossParts s (raiseFault s w k va) := by
  have one (x : Mmu) : Only lossParts s { s with mmu := x } := fun p hp => by
    cases p <;> first | (simp [lossParts] at hp; done) | rfl
  unfold raiseFault
  dsimp only
  split
  · exact (one _).trans (markLost_only _ _ _)
  · split <;> exact one _

/-- The translations of an access cache leaves; one that is not made raises a fault or loses its context (spec/04 R113, R119). -/
theorem pieces_only (w : Who) (k : AccessKind) (fuel : Nat) (s : State) (va n : Nat) :
    Only (.free :: lossParts) s (pieces w k fuel s va n).1 := by
  induction fuel generalizing s va n with
  | zero => exact Only.refl _ s
  | succ fuel ih =>
    have sub : lossParts ⊆ .free :: lossParts := fun _ h => List.mem_cons_of_mem _ h
    have cached {t : State} (h : Cached s t) : Only (.free :: lossParts) s t := h.only.mono (by decide)
    have lost (t : State) (c : Nat) : Only (.free :: lossParts) t (markLost t c 0x01) := (markLost_only t c 0x01).mono sub
    unfold pieces
    dsimp only
    split
    · exact Only.refl _ s
    · split
      · exact Only.refl _ s
      · have c := cached (translate_cached s w k va)
        split <;> (rename_i h; rw [h] at c)
        · exact c.trans ((raiseFault_only _ w k va).mono sub)
        · exact c.trans (lost _ _)
        · exact c
        · split
          · exact c
          · split
            · exact c.trans (lost _ _)
            · have i := ih
              split <;> (rename_i e; exact c.trans (congrArg Prod.fst e ▸ i _ _ _))

theorem reach_only (s : State) (w : Who) (k : AccessKind) (va n : Nat) : Only (.free :: lossParts) s (reach s w k va n).1 := by
  unfold reach
  split
  · exact pieces_only w k _ s va n
  · exact Only.refl _ s

end Sys2Proof.Machine
end

