-- ==== Sys2Proof/Laws/Words.lean ====
section
/-! SUPPORT. Bit fields, clamps and counts: the bounds of what they answer, and a field after it was put. -/

namespace Sys2Proof

theorem nbits_lt (w hi lo : Nat) : nbits w hi lo < 2 ^ (hi + 1 - lo) := Nat.mod_lt _ (by positivity)

theorem bits_lt {n : Nat} (w : BitVec n) (hi lo : Nat) : bits w hi lo < 2 ^ (hi + 1 - lo) := Nat.mod_lt _ (by positivity)

theorem bits_toNat {n : Nat} (w : BitVec n) (hi lo : Nat) : bits w hi lo = nbits w.toNat hi lo := rfl

/-- The field that was put is the field that is read. -/
theorem nbits_nput (w : Nat) {hi lo : Nat} (v : Nat) (h : lo ≤ hi) : nbits (nput w hi lo v) hi lo = v % 2 ^ (hi + 1 - lo) := by
  have hp : (2 : Nat) ^ (hi + 1) = 2 ^ lo * 2 ^ (hi + 1 - lo) := by rw [← Nat.pow_add]; congr 1; omega
  have hb : v % 2 ^ (hi + 1 - lo) < 2 ^ (hi + 1 - lo) := Nat.mod_lt _ (by positivity)
  have hl : w % 2 ^ lo < 2 ^ lo := Nat.mod_lt _ (by positivity)
  simp only [nbits, nput, Nat.shiftLeft_eq, Nat.shiftRight_eq_div_pow, hp]
  rw [show w / (2 ^ lo * 2 ^ (hi + 1 - lo)) * (2 ^ lo * 2 ^ (hi + 1 - lo)) + v % 2 ^ (hi + 1 - lo) * 2 ^ lo + w % 2 ^ lo =
      2 ^ lo * (w / (2 ^ lo * 2 ^ (hi + 1 - lo)) * 2 ^ (hi + 1 - lo) + v % 2 ^ (hi + 1 - lo)) + w % 2 ^ lo by ring,
    Nat.mul_add_div (by positivity), Nat.div_eq_of_lt hl, Nat.add_zero, Nat.mul_comm, Nat.mul_add_mod, Nat.mod_mod]

namespace Machine

theorem satAdd_le (hi v n : Nat) : satAdd hi v n ≤ hi := Nat.min_le_left _ _

/-- A count that has room counts exactly. -/
theorem satAdd_eq {hi v n : Nat} (h : v + n ≤ hi) : satAdd hi v n = v + n := Nat.min_eq_right h

theorem clamp_mem {lo hi : Nat} (h : lo ≤ hi) (v : Nat) : lo ≤ clamp lo hi v ∧ clamp lo hi v ≤ hi := by
  simp only [clamp]; omega

/-- A value in its range is left as it is. -/
theorem clamp_id {lo hi v : Nat} (h : lo ≤ v) (h' : v ≤ hi) : clamp lo hi v = v := by
  simp only [clamp]; omega

/-- The fields of a handle are what it was made of (R63). -/
theorem mkHandle_fields {ty func gen idx : Nat} (ht : ty < 16) (hf : func < 64) (hg : gen < 64) (hi : idx < 65536) :
    hType (mkHandle ty func gen idx) = ty ∧ hFunc (mkHandle ty func gen idx) = func ∧
      hGen (mkHandle ty func gen idx) = gen ∧ hIdx (mkHandle ty func gen idx) = idx := by
  simp only [hType, hFunc, hGen, hIdx, mkHandle, nbits, Nat.shiftRight_eq_div_pow]
  norm_num
  omega

/-- A handle that is looked up names an index in its type's range, allocated, with the current generation (R64). -/
theorem lookup_ok {o : Objects} {ty h i : Nat} (e : lookup o ty h = .ok i) :
    hType h = ty ∧ i = hIdx h ∧ i < typeLimit ty ∧ (ownerFn o ty i).isSome = true ∧ hGen h = genOf o ty i := by
  unfold lookup at e
  split at e
  · cases e
  · rename_i h1
    split at e
    · cases e
    · rename_i h2
      cases e
      rw [not_or, not_not, Nat.not_le] at h1
      rw [not_or, not_not] at h2
      exact ⟨h1.1, rfl, h1.2, by simpa [Option.isSome_iff_ne_none] using h2.1, h2.2⟩

end Machine

end Sys2Proof
end

