-- ==== Sys2Proof/Tests/Slice0.lean ====
section
/-! SUPPORT. Tests: for every clause of the statements a small state and operands that meet its hypotheses, with the effect that
the spec gives; and the smoke tests of the well-formedness check. Expected values come from the rules that the names cite. -/

namespace Sys2Proof.Tests

open Sys2Proof.Machine

-- One thread at a time: the theorems below are many, and each thread takes its own stack.
set_option Elab.async false

/-! ## States to test on -/

/-- A command answers a next state of which a test holds. -/
def after (c : Instr) (s : State) (p : State → Bool) : Bool :=
  match exec c s with
  | .next t => p t
  | _ => false

/-- A step answers a next state of which a test holds. -/
def stepped (s : State) (p : State → Bool) : Bool :=
  match step s with
  | .next t => p t
  | _ => false

/-- A name or handle resolves to an index. -/
def gives (e : Except Nat Nat) (k : Nat) : Bool :=
  match e with
  | .ok n => n == k
  | .error _ => false

/-- A charter of the large part, with every cluster present (spec/17 R503). -/
def charter : Charter :=
  { sku := 0, clusters := 0xFFFF, version := 1, cert := [], digest := [], imageVersion := 1, imageDigest := [], imageLen := 0 }

/-- Firmware that runs with the charter accepted. -/
def fwUp : Firmware := { Firmware.reset with boot := .running, charter := some charter, accepted := true, running := true }

/-- The Hoop in the open phase of its period 0, with its edge at time 1. -/
def hoopUp : Hoop := { Hoop.reset with running := true, phase := .opened, time := 1, edge := 1 }

/-- A function whose ring holds commands. -/
def fnUp : Fn := { Fn.reset with cmdTail := 8 }

/-- The device booted, in period 0. -/
def up : State := { State.reset with fw := fwUp, hoop := hoopUp, fns := [(0, fnUp), (1, fnUp)] }

/-- A context of function 0. -/
def ctx0 : Ctx := { func := 0, st := .active, reason := 0, root := 0x10000, standbyRoot := 0, standbySlot := 0xFF }

/-- A best-effort queue of 64 entries of the context. -/
def queue0 : Queue := { Queue.window with func := 0, ctx := 0, cls := 0, entries := 64 }

/-- A fence at 5. -/
def fence0 : Fence := { func := 0, ctx := 0, value := 5, shared := false, lost := false, stale := 0, mirror := 0 }

/-- An event on the fence, at 9. -/
def event0 : Event := { func := 0, ctx := 0, fence := 0, v := 9, step := 0 }

/-- A slot of a graph that has never been published. -/
def slotNone : GSlot := { table := 0, count := 0, gen := 0, inflight := 0 }

/-- A graph without a table. -/
def graph0 : Graph := { func := 0, ctx := 0, a := slotNone, b := slotNone, cur := none }

/-- One object of each type. -/
def objs : Objects :=
  { Objects.reset with ctxs := [(0, ctx0)], queues := [(0, queue0)], fences := [(0, fence0)], events := [(0, event0)],
                       graphs := [(0, graph0)] }

/-- Carrel slot 0 holds quads 0 to 3 for the context. -/
def regsUp : RegFile := { active := [(oQuads 0, 0xF), (oOwner 0, 0x10000000)], shadow := [(oQuads 0, 0xF), (oOwner 0, 0x10000000)] }

/-- A cached translation of the context's first GiB onto local memory, readable, writable and executable, in a TLB. -/
def leafAt (t : Nat) : TlbE := { tlb := t, set := 0, way := 0, asid := 0, page := 0, bitsz := 30, leaf := 0xF }

/-- It is in the cluster TLB's ways of quad 0 and in the hub's TLB (spec/04 R114). -/
def tlb0 : List TlbE := [leafAt 256, leafAt 448]

/-- The device with one object of each type. -/
def base : State := { up with obj := objs, regs := regsUp, mmu := { Mmu.reset with tlb := tlb0 } }

/-- A command in the ring of function 0. -/
def call : Call := { func := 0, tag := 7, index := 1 }

/-! ## The step and the queue of commands -/

/-- A step takes the front command; a cold reset clears it all but the queue's rest (StepRunsTheFrontCommand). -/
theorem test_step_front :
    (stepped { up with pending := [.hotReset, .idcode] } fun t => t.pending == [.idcode] && !t.hoop.running) := by decide +kernel

/-- On an empty queue one timebase cycle passes (IdleStepCountsOneCycle). -/
theorem test_idle_step :
    up.pending = [] ∧
    up.brd.inReset = false ∧
    (stepped up fun t => t.hoop.time == 2 && t.pending.isEmpty) := by decide +kernel

/-- The forms of the invariants hold of the states of these tests, one with a byte listed (ResetHasTheForms, StepKeepsMemories, StepKeepsHoopAndSlots). -/
theorem test_forms :
    memOk { up with fab := { up.fab with mem := [(3, 1), (7, 2)] } } ∧
    hoopOk up ∧
    slotsOk up := by decide +kernel

/-- The table gives no bits, so no word spells a command. -/
theorem test_no_word :
    decodeTableWord 32 0xFFFFFFFF = none ∧
    (State.reset.withFetchWord 16 0).pending = [] := by decide +kernel

/-! ## The Hoop -/

/-- HOOP_START raises tick 0 one cycle after the write (PeriodsStartAndFollow, R26). -/
theorem test_hoop_start :
    bar0Ok { up with hoop := Hoop.reset } ∧
    { up with hoop := Hoop.reset }.hoop.running = false ∧
    (after .hoopStart { up with hoop := Hoop.reset } fun t => t.hoop.running && t.hoop.time == 1 && t.hoop.edge == 1) := by decide +kernel

/-- While the Hoop runs, HOOP_START does nothing. -/
theorem test_hoop_start_again :
    up.hoop.running ∧
    (after .hoopStart up fun t => t == up) := by decide +kernel

/-- The edge follows the last one by PERIOD_CYC and counts the tick (R25, R31). -/
theorem test_edge :
    up.hoop.running ∧
    up.brd.inReset = false ∧
    up.hoop.time ≤ periodEnd up ∧
    (after .edge up fun t => t.hoop.tick == 1 && t.hoop.edge == 416668 && t.hoop.phase == .opened) := by decide +kernel

/-- M is MARGIN_US, 100 µs, before the edge (R27). -/
theorem test_margin :
    up.hoop.running ∧
    up.hoop.phase = .opened ∧
    (after .marginStart up fun t => t.hoop.phase == .drain && t.hoop.time == 416668 - 10000) := by decide +kernel

/-- C is SETTLE_US, 40 µs, before the edge (R29). -/
theorem test_cutoff :
    { up with hoop := { hoopUp with phase := .drain, time := 406668 } }.hoop.phase = .drain ∧
    (after .cutoff { up with hoop := { hoopUp with phase := .drain, time := 406668 } } fun t => t.hoop.phase == .settle &&
  t.hoop.time == 416668 - 4000) := by decide +kernel

/-- A dirty line of slot 3 in the stack tier. -/
def dirtyLine : StkLine :=
  { slice := 0, way := 0, addr := 1, slot := 3, data := List.replicate 128 5, dirty := true :: List.replicate 127 false }

/-- The drain phase at time 406,668, with a fabric. -/
def drain (f : Fabric) : State := { up with hoop := { hoopUp with phase := .drain, time := 406668 }, fab := f }

/-- The slots with dirty lines or with a clean under way have settle work (R35, R36). -/
theorem test_cutoff_busy :
    (after .cutoff (drain { Fabric.reset with lines := [dirtyLine], cleans := [2] }) fun t => t.hoop.settleBusy == [3, 2]) := by decide +kernel

/-- The settle phase with late work of slots 2 and 3, and a dirty line of slot 3. -/
def settling : State := { up with hoop := { hoopUp with phase := .settle, settleBusy := [2, 3] }, fab := { Fabric.reset with lines := [dirtyLine] } }

/-- SETTLE_DONE writes back the slot's dirty lines and ends its settle work (R35, R36); another slot has none. -/
theorem test_settle_done :
    (after (.settleDone 3) settling fun t => t.hoop.settleBusy == [2] && !hasDirty t 3 && mget t.fab.mem 0x80 == 5) ∧
    (after (.settleDone 4) settling fun t => t.hoop.settleBusy == [2, 3]) := by decide +kernel

/-! ## Accessions -/

/-- A shadow write without an open accession is counted (R44). -/
theorem test_stray :
    reqOk up .host ∧
    openSlot up .host = none ∧
    (mergeShadow up 0x8 8 500000).isSome ∧
    (after (.shadowWrite .host 0x8 8 500000) up fun t => t.acc.stray == 1 && t.regs == up.regs) := by decide +kernel

/-- Slot 1 open for the host. -/
def opened : State := setSlot up 0 { AccSlot.reset with st := .opened }

/-- A staged period reaches the shadow copy with its clamp (R42, R48). -/
theorem test_staged :
    reqOk opened .host ∧
    openSlot opened .host = some 0 ∧
    mergeShadow opened 0x8 8 (5 : W64).toNat = some (0x8, 5) ∧
    (after (.shadowWrite .host 0x8 8 5) opened fun t => shadowOf t 0x8 == 208334 && active t 0x8 == active opened 0x8) := by decide +kernel

/-- The host's open slot, and firmware's slot 2, which holds PERIOD. -/
def contested : State := setSlot opened 1 { AccSlot.reset with st := .armed, owner := .fw, staged := [(0x8, 500000)] }

/-- A write to a register that another slot holds marks CONFLICT (R48). -/
theorem test_conflict :
    openSlot contested .host = some 0 ∧
    (after (.shadowWrite .host 0x8 8 500000) contested fun t => (accSlot t 0).conflicts == [8] && (accSlot t 0).staged == []) := by decide +kernel

/-- OPEN claims the lowest FREE slot (R47). -/
theorem test_open :
    reqOk up .host ∧
    up.fw.restarting = false ∧
    openSlot up .host = none ∧
    freeSlot up = some 0 ∧
    (after (.accOpen .host) up fun t => (accSlot t 0).st == .opened && (accSlot t 1).st == .free) := by decide +kernel

/-- A requester with a slot in OPEN claims none. -/
theorem test_open_twice :
    (openSlot opened .host).isSome ∧
    (after (.accOpen .host) opened fun t => t.acc == opened.acc) := by decide +kernel

/-- COMMIT records ACC_TARGET (R49). -/
theorem test_commit :
    openSlot { opened with acc := { opened.acc with targetHost := 9 } } .host = some 0 ∧
    (after (.accCommit .host) { opened with acc := { opened.acc with targetHost := 9 } } fun t =>
  (accSlot t 0).st == .checking && (accSlot t 0).target == 9) := by decide +kernel

/-- The host's open slot has staged PERIOD. -/
def stagedPeriod : State :=
  { setSlot up 0 { AccSlot.reset with st := .opened, staged := [(0x8, 500000)] } with regs := { active := [], shadow := [(0x8, 500000)] } }

/-- ABORT refuses with code 9 and the shadow copy returns to the active value (R55). -/
theorem test_abort :
    bar0Ok stagedPeriod ∧
    openSlot stagedPeriod .host = some 0 ∧
    stagedPeriod.fw.reqs = [] ∧
    (after (.accAbort .host) stagedPeriod fun t => (accSlot t 0).st == .refused && (accSlot t 0).code == 9 && shadowOf t 8 == active t 8) := by decide +kernel

/-- RELEASE frees an APPLIED slot (R57). -/
theorem test_release :
    (after (.accRelease .host 2) (setSlot up 1 { AccSlot.reset with st := .applied }) fun t => (accSlot t 1).st == .free) := by decide +kernel

/-- RELEASE has no effect on another slot. -/
theorem test_release_not :
    (after (.accRelease .host 2) contested fun t => t.acc == contested.acc) ∧
    (after (.accRelease .host 0) contested fun t => t.acc == contested.acc) := by decide +kernel

/-- Slot 1 in CHECKING, with a period staged. -/
def checking : State := setSlot up 0 { AccSlot.reset with st := .checking, staged := [(0x8, 500000)] }

/-- A check without a failed rule arms the slot for the next edge (R51, R53). -/
theorem test_check_arms :
    (accSlot checking 0).st = .checking ∧
    stagesPair checking (accSlot checking 0) = false ∧
    checking.acc.slots.length = 4 ∧
    checkSlot checking (accSlot checking 0) = (some 1, 0, 0) ∧
    (after (.accCheckEnd 0) checking fun t => (accSlot t 0).st == .armed && (accSlot t 0).edge == 1) := by decide +kernel

/-- A target that has passed is refused (R49, R53). -/
theorem test_check_refuses :
    (after (.accCheckEnd 0) { setSlot checking 0 { accSlot checking 0 with target := 3 } with hoop := { hoopUp with tick := 9 } } fun t =>
  (accSlot t 0).st == .refused) := by decide +kernel

/-! ## Objects -/

/-- CTX_CREATE takes index 1, the lowest free (R63, R70). -/
theorem test_ctx_create :
    fwTakes base 0 ∧
    (createWaits base 1 1 = false ∧ (base.twin.watch && base.twin.role) = false) ∧
    rootOk 0x20000 ∧
    overQuota base 1 0 = false ∧
    newIndex base 1 0 = 1 ∧
    (after (.ctxCreate call 0x20000) base fun t => (tget t.obj.ctxs 1).any (fun x => x.st == .active && x.root == 0x20000) &&
  (fnOf t 0).taken == 1 && (fnOf t 0).written == 1) := by decide +kernel

/-- FENCE_CREATE (R84). -/
theorem test_fence_create :
    gives (ctxUse base 0 0x10000000) 0 ∧
    overQuota base 3 0 = false ∧
    bits (0x40 : W64) 2 0 = 0 ∧
    (after (.fenceCreate call 0x10000000 7 1 0x40) base fun t => (tget t.obj.fences 1).any fun x => x.value == 7 && x.shared && x.mirror == 0x40) := by decide +kernel

/-- EVENT_CREATE on a fence that has not reached V (R94). -/
theorem test_event_create :
    gives (fenceOf base 0 0x30000000) 0 ∧
    overQuota base 4 0 = false ∧
    atOrLater fence0.value 9 = false ∧
    (after (.eventCreate call 0x30000000 9 2) base fun t => (tget t.obj.events 1).any fun x => x.v == 9 && x.step == 2 && x.fence == 0) := by decide +kernel

/-- GRAPH_CREATE (R97). -/
theorem test_graph_create :
    overQuota base 5 0 = false ∧
    (after (.graphCreate call 0x10000000) base fun t => (tget t.obj.graphs 1).any fun x => x.cur == none) := by decide +kernel

/-- Q_CREATE of a best-effort queue clamps its entries to the nearest power of two, 96 to 64 (R69, R77, R78). -/
theorem test_queue_create :
    overQuota base 2 0 = false ∧
    bindUnit base 0 = some 0 ∧
    (after (.qCreate call 0x10000000 0 0x5000 96 0 0) base fun t => (tget t.obj.queues 1).any fun x => x.entries == 64 && x.st == .active &&
  x.ring == 0x5000) := by decide +kernel

/-- Twin B of an attached pair. -/
def twinB : State := { base with twin := { Twin.reset with st := .attached, role := true } }

/-- On twin B a create takes the index that twin A gives (R472). -/
theorem test_create_on_b :
    isB twinB ∧
    createWaits twinB 3 9 = false ∧
    (after (.fenceCreate { call with index := 9 } 0x10000000 7 0 0) twinB fun t => (tget t.obj.fences 9).isSome) := by decide +kernel

/-- Page tables of the context onto local memory, from a memory. -/
def tables (m : Mem) : Mem := mwrite (mwrite m 0x10000 (toLE 8 0x20001)) 0x20000 (toLE 8 0xF)

/-- The tables, and a BUDGET of some quad-cycles at 0x5000. -/
def budgeted (qc : Nat) : State :=
  { base with fab := { Fabric.reset with mem := tables (mwrite [] 0x5000 (toLE 64 (4 + qc * 2 ^ 128))) } }

/-- The queue of a Q_CREATE, where its earlier checks pass. -/
def wanted (s : State) : Option Queue :=
  match queueOf 0 0x10000000 0 0x5000 64 1 0 s with
  | .ok x => some x
  | .error _ => none

/-- A real-time queue within its slot's share is made, and one beyond it is not (R156): the slot has none. -/
theorem test_queue_create_rt :
    ((wanted (budgeted 0)).any (fun x => admits (budgeted 0) x && x.rt && x.slot == 0)) ∧
    ((wanted (budgeted 500)).any (fun x => !admits (budgeted 500) x && x.bQc == 500)) ∧
    (after (.qCreate call 0x10000000 0 0x5000 64 1 0) (budgeted 0) fun t => (tget t.obj.queues 1).any (·.rt) && (fnOf t 0).taken == 1) ∧
    (after (.qCreate call 0x10000000 0 0x5000 64 1 0) (budgeted 500) fun t => t.obj == base.obj && (fnOf t 0).taken == 1) := by decide +kernel

/-- FENCE_DESTROY frees the fence, its events and its generation (R89, R63). -/
theorem test_fence_destroy :
    gives (nameObj base 3 0x30000000) 0 ∧
    (after (.fenceDestroy call 0x30000000) base fun t => t.obj.fences.isEmpty && t.obj.events.isEmpty && genOf t.obj 3 0 == 1) := by decide +kernel

/-- EVENT_DESTROY (R94). -/
theorem test_event_destroy :
    gives (nameObj base 4 0x40000000) 0 ∧
    (after (.eventDestroy call 0x40000000) base fun t => t.obj.events.isEmpty && genOf t.obj 4 0 == 1) := by decide +kernel

/-- GRAPH_DESTROY of an idle graph (R103). -/
theorem test_graph_destroy :
    gives (nameObj base 5 0x50000000) 0 ∧
    (graph0.a.inflight = 0 ∧ graph0.b.inflight = 0) ∧
    (after (.graphDestroy call 0x50000000) base fun t => t.obj.graphs.isEmpty && genOf t.obj 5 0 == 1) := by decide +kernel

/-- Q_DESTROY of an idle queue frees it (R80). -/
theorem test_queue_destroy :
    gives (nameObj base 2 0x20000000) 0 ∧
    queue0.st ≠ .draining ∧
    ctxActive base 0 ∧
    (after (.qDestroy call 0x20000000) base fun t => t.obj.queues.isEmpty) := by decide +kernel

/-- CTX_DESTROY frees a context that owns no carrel slot, with its objects (R72). -/
theorem test_ctx_destroy :
    slotOfCtx { base with regs := State.reset.regs } 0x10000000 = none ∧
    stagedOwner { base with regs := State.reset.regs } 0x10000000 = false ∧
    (after (.ctxDestroy call 0x10000000) { base with regs := State.reset.regs } fun t => t.obj.fences.isEmpty && t.obj.graphs.isEmpty) := by decide +kernel

/-- A context that owns a carrel slot is not destroyed (R595): BUSY. -/
theorem test_ctx_destroy_busy :
    (after (.ctxDestroy call 0x10000000) base fun t => t.obj == base.obj) := by decide +kernel

/-- The latest of the signals of a cycle wins, and one that is neither later nor equal is counted (R85, R86). -/
theorem test_fence_signal :
    gives (fenceOf base 0 0x30000000) 0 ∧
    (after (.fenceSignal call 0x30000000 9 [12, 3, 5]) base fun t => (tget t.obj.fences 0).any fun x => x.value == 12 && x.stale == 1) := by decide +kernel

/-- A signal that reaches V fires a one-shot event, which is freed (R95). -/
theorem test_fence_signal_event :
    (after (.fenceSignal call 0x30000000 9 []) base fun t => t.obj.events.isEmpty) := by decide +kernel

/-- The half circle of R85 at its ends. -/
theorem test_later :
    later 0x8000000000000004 5 ∧
    later 0x8000000000000005 5 = false ∧
    (later 5 5 = false ∧ atOrLater 5 5 = true) ∧
    later 0 0xFFFFFFFFFFFFFFFF := by decide +kernel

/-- Function 0 with a completion ring at 0x4000 of 64 entries. -/
def ringed : State := { base with fns := [(0, { fnUp with cplBase := 0x4006 })] }

/-- FENCE_QUERY reports VALUE in its record and clears STALE (R84, R509). -/
theorem test_fence_query :
    ringed.fw.groups.toNat.testBit 2 = false ∧
    bit (msixWord (fnOf ringed 0) 1) 32 ∧
    memOk ringed ∧
    fwTakes ringed 0 ∧
    (after (.fenceQuery call 0x30000000) ringed fun t => mnat t.fab.host 0x4010 8 == 5 && mnat t.fab.host 0x400C 4 == 7 &&
  mnat t.fab.host 0x4006 2 == 0x8000) := by decide +kernel

/-- CTX_QUERY leaves the objects as they were and completes; its record reports a free number for the state. -/
theorem test_ctx_query :
    gives (nameObj ringed 1 0x10000000) 0 ∧
    (after (.ctxQuery call 0x10000000) ringed fun t => t.obj == ringed.obj && (fnOf t 0).written == 1) := by decide +kernel

/-- CTX_MARK_LOST: reason DRIVER is 5, and its fences are LOST (R74, R75). -/
theorem test_mark_lost :
    gives (ctxUse base 0 0x10000000) 0 ∧
    (after (.ctxMarkLost call 0x10000000) base fun t => (ctxOf t 0).any (fun x => x.st == .lost && x.reason == 5) &&
  t.obj.fences.all fun e => e.2.lost) := by decide +kernel

/-- QUOTA_SET within the device's limit, function 1 taking what function 0 gave up (R66). -/
theorem test_quota_set :
    (after (.quotaSet call 0 1 4000) base fun t => quotaOf t.obj 1 0 == 4000) ∧
    ((((List.range 64).filter (· ≠ 0)).map fun g => quotaOf base.obj 1 g).sum + clamp 0 (typeLimit 1) 4000 ≤ typeLimit 1) ∧
    countOf base.obj 1 0 ≤ clamp 0 (typeLimit 1) 4000 := by decide +kernel

/-- What a partner of 40 carrel slots reports. -/
def partner0 : PartnerFacts :=
  { charter := true, hoopRunning := false, period := 416667, margin := 0x280064, holdsCtx := false, accPending := false, strap := true,
    present := true, waited := 0, slots := 40 }

/-- Twin A attached to it. -/
def paired : State := { base with twin := { Twin.reset with st := .attached, partner := some partner0 } }

/-- CTX_STANDBY while a twin is attached, in a slot of the other twin (R476). -/
theorem test_ctx_standby :
    twinAttached paired ∧
    (39 : W32).toNat < peerSlots paired ∧
    (after (.ctxStandby call 0x10000000 0x30000 39) paired fun t => (ctxOf t 0).any fun x => x.standbySlot == 39 && x.standbyRoot == 0x30000) := by decide +kernel

/-- The first publish fills slot A (R99). -/
theorem test_graph_publish :
    bits (0x8000 : W64) 6 0 = 0 ∧
    publishBusy graph0 = false ∧
    ctxActive base 0 ∧
    (after (.graphPublish call 0x50000000 0x8000 3) base fun t => (tget t.obj.graphs 0).any fun x => x.cur == some false && x.a.gen == 1 && x.a.count == 3) := by decide +kernel

/-- The graph of `base` with a current slot. -/
def published (b : Bool) : State :=
  { base with obj := { objs with graphs := [(0, { graph0 with cur := some b, a := { slotNone with gen := 4 }, b := { slotNone with gen := 7 } })] } }

/-- The next publishes alternate, each generation one past the current slot's (R99). -/
theorem test_graph_publish_next :
    (publishBusy { graph0 with cur := some false } = false ∧ publishBusy { graph0 with cur := some true } = false) ∧
    (after (.graphPublish call 0x50000000 0x8000 5000) (published false) fun t => (tget t.obj.graphs 0).any fun x => x.cur == some true &&
  x.b.gen == 5 && x.b.count == 4096) ∧
    (after (.graphPublish call 0x50000000 0x8000 0) (published true) fun t => (tget t.obj.graphs 0).any fun x => x.cur == some false &&
  x.a.gen == 8 && x.a.count == 1) := by decide +kernel

/-- EVENT_RING_SET on vector 5, the lowest of function 0, FAULT_RING_SET and SLOW_TABLE_SET (R91, R117, R188). -/
theorem test_rings :
    vectorsOf 0 = 64 ∧
    (after (.eventRingSet call 0x6000 1000 5) base fun t => (fnOf t 0).events.base == some 0x6000 && (fnOf t 0).events.entries == 1024) ∧
    (after (.faultRingSet call 0x7000 64) base fun t => (fnOf t 0).faults.base == some 0x7000 && (fnOf t 0).faults.entries == 64) ∧
    (after (.slowTableSet call 0x7040) base fun t => (fnOf t 0).slow == some 0x7040) := by decide +kernel

/-! ## Streams and platform commands -/

/-- A byte memory that holds a little-endian number. -/
def holds (a n v : Nat) : Mem := mwrite [] a (toLE n v)

/-- A stream record at the least rates: local port 5000, SID 0x77, peer 10.0.0.2 port 4000 (R443). -/
def srec0 : Nat :=
  0x0A000002 * 2 ^ 896 + 0x020000000002 * 2 ^ 848 + 4000 * 2 ^ 832 + 5000 * 2 ^ 816 + 0x77 * 2 ^ 784 + 1000 * 2 ^ 752 + 1000 * 2 ^ 720 +
  1000 * 2 ^ 688 + 9042 * 2 ^ 624 + 64 * 2 ^ 608 + 1280 * 2 ^ 592 + 2 ^ 584

/-- Port 0 in mode 0 with link, its MAC 02:00:00:00:00:01 and address 10.0.0.1. -/
def circUp : Circ := { Circ.reset with mode0 := 0, link := 1, addr := [(0, 0x020000000001 + 0x0A000001 * 2 ^ 96)] }

/-- The device with the port, and the record with RATE_MAX beyond the port at 0x1000 of host memory. -/
def ported : State :=
  { base with circ := circUp, fab := { Fabric.reset with host := holds 0x1000 128 (srec0 + 999999999 * 2 ^ 752) } }

/-- STREAM_OPEN clamps RATE_MAX to the port's 200 Gb/s (R437, R443, R444). -/
theorem test_stream_open :
    ported.fw.groups.toNat.testBit 2 = false ∧
    (bits (0x1000 : W64) 6 0 = 0 ∧ bits (0x800 : W64) 4 0 = 0) ∧
    streamOpenCheck ported (mnat ported.fab.host 0x1000 128) = 0 ∧
    grantOf ported 3 = 0 ∧
    gives (nameObj ported 1 0x10000000) 0 ∧
    (after (.streamOpen call 3 0x10000000 0x1000 0x800) ported fun t => (tget t.circ.streams 3).any fun x =>
  nbits x.srec 783 752 == 200000000 && x.rateCur == 1000 && x.msg == 0 && x.ctx == 0) := by decide +kernel

/-- Stream 3 open, with a full bucket. -/
def stream0 : Stream := newStream 0 srec0 0x800 0

/-- The device with stream 3 open. -/
def streamed : State := { ported with circ := { circUp with streams := [(3, stream0)] } }

/-- STREAM_RING clamps its entries to a power of two from 16 (R442, R462). -/
theorem test_stream_ring :
    (bits (0x8000 : W64) 10 0 = 0 ∧ bits (0x810 : W64) 2 0 = 0) ∧
    gives (nameObj streamed 3 0x30000000) 0 ∧
    (after (.streamRing call 3 1 0x8000 20 0x810 0x30000000) streamed fun t => (tget t.circ.streams 3).any fun x =>
  (tget x.rings 1).any fun r => r.entries == 16 && r.base == 0x8000 && r.w == 0) := by decide +kernel

/-- STREAM_KEY in both directions; an egress key starts SEQ again at 0 (R449, R450). -/
theorem test_stream_key :
    (after (.streamKey call 3 1 9 0x1000) streamed fun t => (tget t.circ.streams 3).any fun x => (x.rxKeys.map (·.key.keyId)) == [9]) ∧
    (after (.streamKey call 3 0 9 0x1000) { streamed with circ := { circUp with streams := [(3, { stream0 with seq := 5 })] } } fun t =>
  (tget t.circ.streams 3).any fun x => x.seq == 0 && x.eKey.any fun k => k.keyId == 9) := by decide +kernel

/-- STREAM_CLOSE (R445). -/
theorem test_stream_close :
    streamTaken streamed 3 = false ∧
    (after (.streamClose call 3) streamed fun t => t.circ.streams.isEmpty) := by decide +kernel

/-- ACC_REQUEST of one field of a target granted to the function is staged and committed (R512). -/
theorem test_acc_request :
    bits (0x1000 : W64) 3 0 = 0 ∧
    freeSlot { base with fab := { Fabric.reset with host := holds 0x1000 16 (0x400148 + 0x10000000 * 2 ^ 64) } } = some 0 ∧
    (((readList { base with fab := { Fabric.reset with host := holds 0x1000 16 (0x400148 + 0x10000000 * 2 ^ 64) } } 0x1000 1).all fun e =>
  (requestField base 0 e.1).isSome)) ∧
    (after (.accRequest call 0x1000 1 4) { base with fab := { Fabric.reset with host := holds 0x1000 16 (0x400148 + 0x10000000 * 2 ^ 64) } } fun t =>
  (accSlot t 0).st == .checking && (accSlot t 0).target == 4 && (accSlot t 0).serves == some 0 && (fnOf t 0).written == 0) := by decide +kernel

/-- MARGIN_SET sets the enabled groups (R515). -/
theorem test_margin_set :
    (after (.marginSet call 0x13) base fun t => t.fw.groups == 0x13) := by decide +kernel

/-- DAYBOOK_SET places the ring (R513). -/
theorem test_daybook_set :
    (after (.daybookSet call 0x9000 300) base fun t => t.fw.bookRing.base == some 0x9000 && t.fw.book == base.fw.book) := by decide +kernel

/-- A write of CMD_BASE sets both indices of the function's rings to 0 and clamps LOG2 (R508). -/
theorem test_fw_ring_base :
    bar2Ok base ∧
    ((base.fw.reqs.any fun r => r.func == 0) = false) ∧
    (after (.fwRingBase 0 false 0x4FFF) base fun t => (fnOf t 0).cmdBase == 0x400C && (fnOf t 0).cmdTail == 0) := by decide +kernel

/-- HEARTBEAT records the tick (R520). -/
theorem test_heartbeat :
    (after (.heartbeat 1 0) { base with hoop := { hoopUp with tick := 6 } } fun t => (fnOf t 1).lastHb == 6 && (fnOf t 0).lastHb == 0) := by decide +kernel

/-- WATCHDOG_KICK (R516). -/
theorem test_watchdog_kick :
    (base.fw.running ∧ base.fw.groups.toNat.testBit 4 = false) ∧
    (after .watchdogKick base fun t => t.fw.kicked) := by decide +kernel

/-- A grace period that is due (R521). -/
theorem test_grace_start :
    (fnOf { base with fns := [(0, { fnUp with graceDue := some 0 })] } 0).graceDue = some 0 ∧
    (after (.graceStart 0) { base with fns := [(0, { fnUp with graceDue := some 0 })] } fun t => (fnOf t 0).grace == some 0 && (fnOf t 0).graceLen == 240) := by decide +kernel

/-- After its edges the function's contexts are lost (R524). -/
theorem test_grace_expiry :
    (after (.graceExpiry 0) { base with fns := [(0, { fnUp with grace := some 240, graceLen := 240 })] } fun t =>
  (fnOf t 0).grace == none && !ctxActive t 0) := by decide +kernel

/-- The event is kept for the edge (R521). -/
theorem test_link_down :
    (after .pcieLinkDown base fun t => t.fw.linkDown) := by decide +kernel

/-- A function-level reset loses the function's contexts and keeps LAST_HB (R525). -/
theorem test_flr :
    (after (.functionLevelReset 0) { base with fns := [(0, { fnUp with lastHb := 9 })] } fun t => !ctxActive t 0 && (fnOf t 0).cmdTail == 0 &&
  (fnOf t 0).cmdBase == 6 && (fnOf t 0).lastHb == 9) := by decide +kernel

/-- An expiry that is due, or a lockstep mismatch, resets the core, and open accessions are refused with 10 (R516, R518, R60). -/
theorem test_restart :
    ((opened.fw.restartTicks.filter fun k => decide (opened.hoop.tick < k + 64)).length < 2) ∧
    (after .watchdogExpiry { opened with fw := { fwUp with expiryDue := true } } fun t => t.fw.restarting && t.fw.restartCause == 1 &&
  (accSlot t 0).code == 10 && t.fw.restartCount == 1) ∧
    (after .lockstepMismatch opened fun t => t.fw.restarting && t.fw.restartCause == 2 && !t.fw.running) := by decide +kernel

/-- SHA-512 of the empty message (FIPS 180-4). -/
def sha512Empty : List Byte :=
  toBE 64 0xcf83e1357eefb8bdf1542850d66d8007d620e4050b5715dc83f4a921d36ce9ce47d0d13c5d85f2b0ff8318d2877eec2f63b931bd47417a81a538327af927da3e

/-- Firmware whose image of no bytes has that digest. -/
def fwImage : Firmware := { fwUp with charter := some { charter with imageDigest := sha512Empty } }

/-- The restart ends with Velhinto running, and so does an exit from S3 (R518, R555). -/
theorem test_restart_done :
    imageOk { up with fw := { fwImage with restarting := true, running := false } } ∧
    (after .firmwareRestartDone { up with fw := { fwImage with restarting := true, running := false } } fun t => t.fw.running && !t.fw.restarting) ∧
    (after .s3ExitDone { up with fw := { fwImage with running := false }, pwr := { Power.reset with inS3 := true, exiting := true } } fun t =>
  t.fw.running && !t.pwr.inS3 && t.pwr.lock == 0xFFFF) := by decide +kernel

/-! ## Reset, boot and board -/

/-- POWER_OK, PERST_N and the release from reset (R584, R588). -/
theorem test_power :
    (after .powerOkRise { up with brd := { Board.reset with powerOk := false } } fun t => t.brd.powerOk) ∧
    (after .powerOkFall up fun t => t.brd.inReset && !t.brd.powerOk && t.hoop == Hoop.reset && !t.brd.twinSel) ∧
    (after .perstNAssert { up with brd := { Board.reset with twinSel := true } } fun t => t.brd.inReset && !t.brd.perstN && !t.brd.twinSel) ∧
    (after .perstNDeassert { up with brd := { Board.reset with perstN := false, inReset := true, strap := true } } fun t =>
  t.brd.perstN && t.brd.twinSel) ∧
    (after .hotReset up fun t => t == State.reset) ∧
    (after .resetRelease { State.reset with brd := { Board.reset with inReset := true } } fun t => !t.brd.inReset) ∧
    (after .thermtrip up fun t => t.brd.thermtrip && t.brd.inReset) := by decide +kernel

/-- GO starts the check in WAIT and after a refusal (R504). -/
theorem test_boot_start :
    (after .secBootGo { State.reset with fw := { Firmware.reset with boot := .wait } } fun t => t.fw.boot == .checking) ∧
    (after .secBootGo { State.reset with fw := { Firmware.reset with boot := .refused, code := 4 } } fun t => t.fw.boot == .checking && t.fw.code == 0) := by decide +kernel

/-- The boot ROM is ready: state WAIT (R504). -/
theorem test_boot_rom :
    (State.reset.brd.inReset = false ∧ State.reset.fw.boot = .reset) ∧
    (after .bootRomReady State.reset fun t => t.fw.boot == .wait && t.pwr.lock == 0xFFFF) := by decide +kernel

/-- The boot check in progress. -/
def booting : State := { State.reset with fw := { Firmware.reset with boot := .checking } }

/-- A charter of zeros is refused at its header (R506). -/
theorem test_boot_check :
    booting.fw.charter = none ∧
    (after (.bootCheckDone .done) booting fun t => t.fw.boot == .refused && t.fw.code == 2 && t.fw.object == 0) := by decide +kernel

/-- A read completed with Unsupported Request is refused with code 1 (R506). -/
theorem test_boot_read_fails :
    (after (.bootCheckDone (.failed false false)) booting fun t => t.fw.boot == .refused && t.fw.code == 1) := by decide +kernel

/-- A read outstanding for 450 ms is refused with code 1 (R504, R506). -/
theorem test_boot_timeout :
    (booting.brd.inReset = false ∧ booting.hoop.running = false) ∧
    (after (.bootReadTimeout true) booting fun t => t.fw.boot == .refused && t.fw.code == 1 && t.fw.object == 1 && t.hoop.time == 45000000) := by decide +kernel

/-- Velhinto's report makes the state RUNNING (R504). -/
theorem test_velhinto :
    (after .velhintoReady { booting with fw := { Firmware.reset with boot := .checking, charter := some charter } } fun t =>
  t.fw.boot == .running && t.fw.accepted && t.fw.running) := by decide +kernel

/-- An SPDM session with the algorithms agreed. -/
def spdm : State := { up with fw := { fwUp with spdmVersion := true, spdmCaps := true, spdmAlgs := true } }

/-- The requests in their order (R526, R527). -/
theorem test_spdm_flags :
    (up.brd.inReset = false ∧ up.pwr.inS3 = false ∧ up.fw.restarting = false) ∧
    (after .getVersion up fun t => t.fw.spdmVersion && t.fw.spdmOut == byteList [0x10, 0x04, 0, 0, 0, 1, 0x00, 0x12]) ∧
    (after .getCapabilities { up with fw := { fwUp with spdmVersion := true } } fun t => t.fw.spdmCaps) ∧
    (after (.negotiateAlgorithms 0x40 4 0) { up with fw := { fwUp with spdmVersion := true, spdmCaps := true } } fun t => t.fw.spdmAlgs) := by decide +kernel

/-- The hypotheses of the certificate, challenge and measurement clauses are met. -/
theorem test_spdm_ready :
    spdmReady spdm ∧
    0 < (spdmChain spdm).length ∧
    ((6 : Nat) ≤ 6 ∨ (6 : Nat) = 0xFF) := by decide +kernel

/-- During a restart a request is answered Busy (R518). -/
theorem test_spdm_restart :
    (after .getVersion { up with fw := { fwUp with restarting := true } } fun t => t.fw.spdmOut == byteList [0x12, 0x7F, 0x03, 0]) ∧
    (after .getCapabilities { up with fw := { fwUp with restarting := true } } fun t => t.fw.spdmOut == byteList [0x12, 0x7F, 0x03, 0]) ∧
    (after (.challenge 0 0 []) { up with fw := { fwUp with restarting := true } } fun t => t.fw.spdmOut == byteList [0x12, 0x7F, 0x03, 0]) := by decide +kernel

/-- A supply, a clock and a temperature outside their ratings fail the device (R488, R495, R592). -/
theorem test_ratings :
    (after .supplyFault up fun t => t.flt.failed && t.flt.means == 7 && t.flt.scope == 5) ∧
    (after (.clockFault 2) { up with pwr := { Power.reset with lock := 0xFFFF } } fun t => t.flt.failed && t.flt.means == 8 && t.pwr.lock == 0xFFFB) ∧
    (after (.thermalFault 801) up fun t => t.flt.failed && t.flt.means == 9 && t.brd.tj == 801) ∧
    (after (.tjMaxChange 640) up fun t => t.brd.tj == 640 && !t.flt.failed) := by decide +kernel

/-- A voltage command of level 3 given at time 1, the level held for it. -/
def stepping : State := { up with pwr := { Power.reset with vcmd := some { level := 3, at' := 1 }, held := some 3 } }

/-- A voltage confirmed in time lets the level follow, and one not confirmed within 100 µs is a DEVICE fault (R534, R535). -/
theorem test_voltage :
    stepping.hoop.time < 1 + 10000 ∧
    (after .voltageConfirm stepping fun t => t.pwr.vcmd == none && t.pwr.levelNow == 3 && t.pwr.held == none) ∧
    ((advance stepping (1 + 10000)).pwr.vcmd = some { level := 3, at' := 1 } ∧ 1 + 10000 ≤ (advance stepping (1 + 10000)).hoop.time) ∧
    (after .voltageTimeout stepping fun t => t.flt.failed && t.flt.means == 7 && t.pwr.vcmd == none) := by decide +kernel

/-- The pointer, and a read that wraps at 16 (R587). -/
theorem test_sideband :
    (after (.sidebandWrite [0x13, 5]) up fun t => t.brd.sidePtr == 3) ∧
    (after (.sidebandRead 17) { up with brd := { Board.reset with sidePtr := 15 } } fun t => t.brd.sideData.length == 17 &&
  t.brd.sideData.getD 0 0 == t.brd.sideData.getD 16 0) := by decide +kernel

/-- IDCODE reads 1941_0E2B, and EXTEST needs PERST_N asserted (R590). -/
theorem test_jtag :
    (after .idcode up fun t => t.brd.tdo == some 0x19410E2B) ∧
    (after .extest up fun t => t.brd.jtag == .bypass) ∧
    (after .extestTrain { up with brd := { Board.reset with perstN := false } } fun t => t.brd.jtag == .extestTrain) ∧
    (after .samplePreload { up with brd := { Board.reset with perstN := false } } fun t => t.brd.jtag == .samplePreload) ∧
    (after .extestPulse { up with brd := { Board.reset with perstN := false } } fun t => t.brd.jtag == .extestPulse) ∧
    (after .bypass up fun t => t.brd.jtag == .bypass && t.brd.tdo == none) := by decide +kernel

/-! ## Power -/

/-- A window ends with its mean; above the limit the device throttles, and below 95 % of it it stops (R537, R538). -/
theorem test_power_window :
    (advance up 100000).pwr.limit = 1400 ∧
    (after (.powerWindowEnd 1400001) up fun t => t.pwr.throttling && t.pwr.powerMw == 1400001 && t.pwr.windowAt == 100000) ∧
    (after (.powerWindowEnd 1330000) { up with pwr := { Power.reset with throttling := true } } fun t => !t.pwr.throttling && t.pwr.throttleMs == 1) := by decide +kernel

/-- A domain with its policy and a field set. -/
def withDom (d : Nat) (x : Dom) : State := { up with pwr := { Power.reset with doms := [(d, x)] } }

/-- Quad 5's domain, idle and allowed S2, begins its entry (R541, R544). -/
theorem test_domain_sleep :
    domDown (withDom 5 { Dom.reset with allow := 2 }) 5 = false ∧
    min 2 (domDeepest (withDom 5 { Dom.reset with allow := 2 }) 5) = 2 ∧
    domKept (withDom 5 { Dom.reset with allow := 2 }) 5 = false ∧
    domBusy (withDom 5 { Dom.reset with allow := 2 }) 5 = false ∧
    (after (.domainSleepEntry 5) (withDom 5 { Dom.reset with allow := 2 }) fun t => (domOf t 5).st == .changing && (domOf t 5).toward == 2) := by decide +kernel

/-- In S2 quad 0 loses its local memory, and quad 1's stays (R544). -/
theorem test_domain_entry :
    (after (.domainEntryDone 0) { withDom 0 { Dom.reset with allow := 2, st := .changing, toward := 2 } with
    cores := { Cores.reset with lm := [(8, 5), (0x200000, 6)] } } fun t =>
  (domOf t 0).st == .s2 && t.cores.lm == [(0x200000, 6)]) := by decide +kernel

/-- A wake ends ON (R545). -/
theorem test_domain_wake :
    domDown (withDom 5 { Dom.reset with st := .s1, waking := true }) 5 = false ∧
    (after (.domainWakeDone 5) (withDom 5 { Dom.reset with st := .s1, waking := true }) fun t => (domOf t 5).st == .on) := by decide +kernel

/-- A wake that takes 100 µs puts the quad out of service (R551). -/
theorem test_wake_timeout :
    (domOf (advance (withDom 5 { Dom.reset with st := .s1, waking := true, wakeAt := 1 }) 10001) 5).waking ∧
    10001 ≤ (advance (withDom 5 { Dom.reset with st := .s1, waking := true, wakeAt := 1 }) 10001).hoop.time ∧
    (after (.wakeTimeout 5) (withDom 5 { Dom.reset with st := .s1, waking := true, wakeAt := 1 }) fun t => (domOf t 5).held &&
  t.flt.valid && t.flt.means == 7) := by decide +kernel

/-- PWR_CTRL.S3 is accepted without contexts and refused with one (R553). -/
theorem test_s3 :
    bar0Ok up ∧
    (after .pwrCtrlS3 up fun t => t.pwr.s3Req && !t.pwr.s3Refused) ∧
    (after .pwrCtrlS3 base fun t => !t.pwr.s3Req && t.pwr.s3Refused) := by decide +kernel

/-- The device in S3. -/
def asleep : State := { up with pwr := { Power.reset with inS3 := true } }

/-- A wake and the accesses that S3 does not serve start the exit (R554, R555). -/
theorem test_s3_exit :
    (after .pwrCtrlWake asleep fun t => t.pwr.exiting && t.pwr.wakeSrc == 7) ∧
    (after (.hostAccessInS3 .bar0 0x30 8 (some 1)) asleep fun t => t.pwr.exiting && t.pwr.wakeSrc == 6) ∧
    (after (.hostAccessInS3 (.bar2 0) 0 8 none) asleep fun t => t.pwr.exiting) ∧
    (after (.hostAccessInS3 .bar0 0x400000 8 none) asleep fun t => t.pwr.exiting) ∧
    (after (.hostAccessInS3 .bar0 0x1300010 8 none) asleep fun t => t == asleep) := by decide +kernel

/-- CLAMP changes while no domain is in S2 (R557). -/
theorem test_clamp :
    ((List.range 124).all fun d => !domAbsent up d && (domOf up d).st != .s2 && (domOf up d).st != .changing) ∧
    (after (.pwrCtrlClamp true) up fun t => t.pwr.clamp) := by decide +kernel

/-! ## Circulation -/

/-- CIRC_PORT_CFG, CIRC_GRANT and links (R437, R438, R441). -/
theorem test_ports :
    ((domOf base 113).st = .on ∧ domDown base 113 = false ∧ (domOf base 114).st = .on ∧ domDown base 114 = false) ∧
    (after (.circPortCfgWrite 0x2) { base with circ := circUp } fun t => t.circ.mode0 == 2 && t.circ.mode1 == 0 && t.circ.link == 0) ∧
    (after (.circGrantWrite 9 2) ported fun t => grantOf t 9 == 2) ∧
    (after (.portLinkChange 0 true) { base with circ := { circUp with link := 0 } } fun t => hasLink t 0) ∧
    (after (.portLinkChange 1 true) { base with circ := circUp } fun t => !hasLink t 1) := by decide +kernel

/-- The ARP reply of RFC 826 (R440). -/
theorem test_arp :
    (hasLink ported 0 ∧ portIp4 ported 0 = 0x0A000001) ∧
    (after (.arpRequest 0 0x020000000002 0x0A000002 0x0A000001) ported fun t => (tget t.circ.out 0).any fun f =>
  beNat (slice f 0 6) == 0x020000000002 && beNat (slice f 12 2) == 0x0806 && beNat (slice f 20 2) == 2 && f.length == 60) := by decide +kernel

/-- A request for another address, or at a port without one, is counted (R440, R461). -/
theorem test_arp_foreign :
    (after (.arpRequest 0 2 0x0A000002 0x0A000009) ported fun t => tgetD t.circ.drops 1 0 == 1 && t.circ.out.isEmpty) := by decide +kernel

/-- Port 0 with the IPv6 address 7. -/
def sixed : State := { base with circ := { circUp with addr := [(0, 0x020000000001 + 7 * 2 ^ 128)] } }

/-- A Neighbor Advertisement (R440), also for the solicited-node multicast address of RFC 4291, ff02::1:ff00:7. -/
theorem test_neighbor :
    portIp6 sixed 0 = 7 ∧
    solicits sixed 0 0x020000000001 7 7 ∧
    solicits sixed 0 0x3333FF000007 0xFF0200000000000000000001FF000007 7 ∧
    (after (.neighborSolicitation 0 ⟨0x020000000001, 2⟩ ⟨7, 9⟩ 7) sixed fun t =>
  (tget t.circ.out 0).any fun f => f.length == 86 && beNat (slice f 54 1) == 136) := by decide +kernel

/-- A solicitation for the port's address that is sent elsewhere is counted. -/
theorem test_neighbor_foreign :
    solicits sixed 0 0x3333FF000008 7 7 = false ∧
    (after (.neighborSolicitation 0 ⟨0x3333FF000008, 2⟩ ⟨7, 9⟩ 7) sixed fun t => tgetD t.circ.drops 1 0 == 1) := by decide +kernel

/-- AES-256-GCM of 16 zero bytes under zeros (NIST GCM test case 14). -/
theorem test_gcm :
    gcmSeal (List.replicate 32 0) (List.replicate 12 0) [] (List.replicate 16 0) =
  toBE 16 0xcea7403d4d606b6e074ec5d3baf39d18 ++ toBE 16 0xd0d1c8a799996bf0265b98b5d48ab919 := by decide +kernel

/-- SHA-512 of "abc" (FIPS 180-4). -/
theorem test_sha512 :
    sha512 (byteList [0x61, 0x62, 0x63]) = toBE 64 0xddaf35a193617abacc417349ae20413112e6fa4e89a97ea20a9eeee64b55d39a2192992a274fc1a836ba3c23a3feebbd454d4423643ce80e2a9ac94fa54ca49f := by decide +kernel

/-- A key of zeros. -/
def key0 : SKey := { keyId := 9, key := List.replicate 32 0, salt := [0, 0, 0, 0] }

/-- Stream 3 with an ingress key, a ring of kind 1 of 16 entries at 0x8000, and an egress key. -/
def stream1 : Stream :=
  { stream0 with rxKeys := [{ key := key0, high := none, map := 0 }], eKey := some key0,
                 rings := [(1, { base := 0x8000, entries := 16, head := 0x810, fence := 0x30000000, w := 0, c := 0 })] }

/-- The device with that stream. -/
def streamed1 : State := { ported with circ := { circUp with streams := [(3, stream1)] } }

/-- The region of a packet of TYPE 4, SID 0x77 and SEQ 6 that carries four bytes. -/
def region0 : List Byte := region key0 0x77 6 (folio 4 9 0 0x77 6 1 0 1 4) [1, 2, 3, 4]

/-- Its frame from the peer, without UDP checksum. -/
def frame0 : List Byte :=
  toBE 6 0x020000000001 ++ toBE 6 0x020000000002 ++ toBE 2 0x0800 ++ toBE 4 (0x45000000 + 28 + region0.length) ++ toBE 4 0x4000 ++
  toBE 4 0x40110000 ++ toBE 4 0x0A000002 ++ toBE 4 0x0A000001 ++ toBE 2 4000 ++ toBE 2 5000 ++ toBE 2 (8 + region0.length) ++ toBE 2 0 ++ region0

/-- A bad FCS is counted (R461). -/
theorem test_frame_fcs :
    hasLink streamed1 0 ∧
    (after (.frameReceive ⟨0, .none⟩ false frame0) streamed1 fun t => tgetD t.circ.drops 0 0 == 1) := by decide +kernel

/-- A packet is delivered to its ring with its header, and its fence is signaled (R461 to R463). -/
theorem test_frame :
    ((parseFrame streamed1 0 frame0).any fun d => decide (d.body.length = 44) && (d.body.getD 0 0 == 0x14) && (matchStream streamed1 0 d 0x77).any fun e => e.1 == 3) ∧
    (after (.frameReceive ⟨0, .none⟩ true frame0) streamed1 fun t => (mread t.fab.mem 0x8020 4 == [1, 2, 3, 4]) && mnat t.fab.mem 0x8014 4 == 6 &&
  mnat t.fab.mem 0x800C 4 == 4) := by decide +kernel

/-- A frame that is no packet, ARP or Neighbor Solicitation is counted (R461). -/
theorem test_frame_foreign :
    parseFrame streamed1 0 [1, 2] = none ∧
    (asArp streamed1 0 [1, 2] = none ∧ asSolicit streamed1 0 [1, 2] = none) ∧
    (after (.frameReceive ⟨0, .none⟩ true [1, 2]) streamed1 fun t => tgetD t.circ.drops 1 0 == 1) := by decide +kernel

/-- The same SEQ again is a replay, and a changed tag fails (R450, R461). -/
theorem test_frame_replay :
    (after (.frameReceive ⟨0, .none⟩ true frame0) { streamed1 with circ := { circUp with streams := [(3, { stream1 with rxKeys := [{ key := key0, high := some 6, map := 1 }] })] } }
  fun t => tgetD t.circ.drops 6 0 == 1) ∧
    (after (.frameReceive ⟨0, .none⟩ true (frame0.dropLast ++ [0])) streamed1 fun t => tgetD t.circ.drops 5 0 == 1) := by decide +kernel

/-- An armed SEND of stream 3: 4 B at 0x2000. -/
def sendWord : W512 := 0x70 + 0x2000 <<< 128 + 4 <<< 192 + 3 <<< 224

/-- An armed descriptor. -/
def armedDesc (i : W32) (w : W512) : Desc :=
  { idx := i, stage := .armed, words := w, pay := w, be := true, token := false, waiting := false, due := false, armTick := 0,
    chQc := 0, chHb := 0, measured := 0, prog := 0 }

/-- A queue of a class with one descriptor. -/
def queueWith (cls : Nat) (d : Desc) : Queue := { queue0 with cls := cls, tail := 1, recs := [d] }

/-- A state with that queue in the place of queue 0. -/
def withQ (s : State) (x : Queue) : State := { s with obj := { s.obj with queues := [(0, x)] } }

/-- The work of descriptor 0 of queue 0. -/
def work0 : Work := { q := 0, i := 0, node := none }

/-- What beginWork answers: that the work may go on. -/
def mayGo (s : State) (q : Nat) (i : W32) (node : Option Nat) (op : Nat) : Bool :=
  match beginWork s q i node op with
  | (_, .go _ _ _) => true
  | _ => false

/-- SEND takes the stream's next MSG (R452). -/
theorem test_send :
    (mayGo (withQ streamed1 (queueWith 6 (armedDesc 0 sendWord))) 0 0 none 0x70 ∧ sendEarlier (withQ streamed1 (queueWith 6 (armedDesc 0 sendWord))) 0 0 3 = false) ∧
    (after (.send 0 0) (withQ streamed1 (queueWith 6 (armedDesc 0 sendWord))) fun t => t.circ.sends.length == 1 &&
  (tget t.circ.streams 3).any fun z => z.msg == 1) := by decide +kernel

/-- The SEND under way. -/
def sendRun : SendRun :=
  { q := 0, i := 0, stream := 3, pay := sendWord, key := key0, seq := 0, replaced := false, msg := 0, bytes := 4, nfrag := 1,
    frag := 0, group := [], built := 0 }

/-- The ports with that SEND. -/
def circSending : Circ := { circUp with streams := [(3, stream1)], sends := [sendRun] }

/-- The device with it. -/
def sending : State := { withQ streamed1 (queueWith 6 { armedDesc 0 sendWord with stage := .started }) with circ := circSending }

/-- The packet of a four-byte SEND: 42 B of headers, 24 B of folio, 4 B and the tag; on the wire 24 B more (R446, R456). -/
theorem test_enqueue :
    ((engineNext sending).1.any fun r => r.stream == 3 && !groupFull stream1 r) ∧
    hasPqRoom stream1 4 ∧
    (after (.packetEnqueue ⟨3, .none⟩) sending fun t => (tget t.circ.streams 3).any fun z => z.seq == 1 && (z.pq.map fun p => (p.frame.length, p.wire)) == [(86, 110)]) := by decide +kernel

/-- The stream with parity groups of one packet, and its SEND with the group complete. -/
def sendingParity : State :=
  { sending with circ := { circSending with streams := [(3, { stream1 with srec := srec0 + 2 ^ 570 })],
                                            sends := [{ sendRun with frag := 1, seq := 1, group := [[1, 2]] }] } }

/-- A complete group's parity packet follows its DATA packet, under the next SEQ (R454). -/
theorem test_parity :
    ((engineNext sendingParity).1.any fun r => (tget sendingParity.circ.streams 3).any fun z => groupFull z r) ∧
    (after (.packetEnqueue ⟨3, .none⟩) sendingParity fun t => ((tget t.circ.streams 3).any fun z => z.seq == 2 && z.pq.length == 1) &&
  t.circ.sends.all fun r => r.group == []) := by decide +kernel

/-- The head packet leaves at its wire bytes' cost (R456). -/
theorem test_depart :
    (after (.packetDepart ⟨0, .none⟩) { streamed1 with circ := { circUp with streams := [(3, { stream1 with pq := [{ frame := [1, 2], wire := 26 }] })] } } fun t =>
  tget t.circ.out 0 == some [1, 2] && (tget t.circ.streams 3).any fun z => z.bucket == (9042 - 26) * 10 ^ 8 && z.sent == 1) := by decide +kernel

/-- Where no head packet is eligible, only the buckets fill (R456). -/
theorem test_depart_nothing :
    departing streamed1 0 = none ∧
    (after (.packetDepart ⟨0, .none⟩) streamed1 fun t => t.circ.out.isEmpty) := by decide +kernel

/-- The status record (R460). -/
theorem test_status :
    (after (.streamStatusWrite 3) { streamed1 with circ := { circUp with streams := [(3, { stream1 with statusDue := true })] } } fun t =>
  mnat t.fab.host 0x808 4 == 1000 && (tget t.circ.streams 3).any fun z => !z.statusDue) := by decide +kernel

/-! ## Twins and faults -/

/-- What a partner with the same settings reports. -/
def facts0 : PartnerFacts :=
  { partner0 with hoopRunning := true, margin := BitVec.ofNat 64 (active up oMargin), slots := 48 }

/-- SLV_ATTACH begins training, or the handshake with the lanes trained, and a device with its own cause stays detached (R469). -/
theorem test_attach :
    ((domOf up 123).st = .on ∧ domDown up 123 = false) ∧
    attachBad up facts0 = false ∧
    (after (.slvAttach facts0) up fun t => t.twin.st == .training && t.twin.partner == some facts0) ∧
    (after (.slvAttach facts0) { up with twin := { Twin.reset with lanes := 8 } } fun t => t.twin.st == .handshake) ∧
    attachOwnBad checking ∧
    (after (.slvAttach facts0) checking fun t => t.twin.st == .detached && t.twin.cause == 6) := by decide +kernel

/-- A partner whose period differs is refused, and one whose ATTACH came first counts from that (R469, R471). -/
theorem test_attach_refused :
    (attachOwnBad up = false ∧ attachBad up { facts0 with period := 400000 }) ∧
    (after (.slvAttach { facts0 with period := 400000 }) up fun t => t.twin.st == .detached && t.twin.cause == 6) ∧
    (after (.slvAttach { facts0 with waited := 3 }) { up with hoop := { hoopUp with tick := 9 } } fun t => t.twin.attachTick == 6) := by decide +kernel

/-- A handshake with a partner known. -/
def shaking (role : Bool) : State :=
  { up with twin := { Twin.reset with st := .handshake, role := role, idOk := some true, shown := some true, partner := some facts0, lanes := 8 } }

/-- The partner's part of the exchange reaches a twin in the handshake (R469, R470). -/
theorem test_attach_again :
    attachBad (shaking false) facts0 = false ∧
    (after (.slvAttach facts0) (shaking false) fun t => t.twin.st == .handshake && t.twin.partner == some facts0 && t.twin.ctl.length == 1) := by decide +kernel

/-- The hypothesis of the identity exchange is met (R469, R530; whether a chain leads to the root is not the model's). -/
theorem test_identity :
    (shaking false).twin.st = .handshake := by decide +kernel

/-- The handshake ends: twin A at its edge, twin B with A's clock (R470, R471). -/
theorem test_handshake :
    (shaking false).hoop.time = (shaking false).hoop.edge ∧
    (after (.attachHandshakeComplete 900 5 900) (shaking false) fun t => t.twin.st == .attached && t.hoop == hoopUp) ∧
    (after (.attachHandshakeComplete 900 5 900) (shaking true) fun t => t.twin.st == .attached && t.hoop.time == 900 && t.hoop.tick == 5) := by decide +kernel

/-- 64 ticks without the handshake's end (R471). -/
theorem test_attach_timeout :
    0 + 64 ≤ 64 ∧
    (after .attachTimeout { shaking false with hoop := { hoopUp with tick := 64 } } fun t => t.twin.st == .detached && t.twin.cause == 5) := by decide +kernel

/-- An attached twin with a link of 8 lanes. -/
def attached : State := { base with twin := { Twin.reset with st := .attached, lanes := 8 } }

/-- A mirror is merged, its ARMED slots replaced, and an object that is gone leaves it (R474). -/
theorem test_mirror :
    (after (.mirrorReceive [.target 0xC00000 5, .armed 2 7 []]) attached fun t => t.twin.mirrorDone &&
  t.twin.mirror.any fun m => m.armed == [(2, 7, [])] && tget m.targets 0xC00000 == some 5) ∧
    (after (.mirrorReceive [.fence 0x30000004 0x10000000 5 0 false false 0]) attached fun t =>
  (tget t.twin.peer (3 * 65536 + 4)).isSome && t.twin.mirror.any fun m => (tget m.fences 4).any (·.value == 5)) ∧
    (after (.mirrorReceive [.fence 0x30000004 0x10000000 5 0 false false 0, .gone 0x30000004]) attached fun t =>
  t.twin.mirror.any fun m => m.fences.isEmpty) := by decide +kernel

/-- SLV_DETACH in the open phase takes effect at the next edge, in the drain phase at the one after (R483). -/
theorem test_detach :
    (after (.slvDetach true false) attached fun t => t.twin.st == .leaving && t.twin.leaveEdge == some 1 && t.twin.leaveMove) ∧
    (after (.slvDetach true true) attached fun t => t.twin.st == .leaving && t.twin.leaveEdge == some 1 && t.twin.takeovers == [⟨1, none⟩]) ∧
    (after (.slvDetach false true) attached fun t => t.twin.st == .leaving && t.twin.takeovers == []) ∧
    (after (.slvDetach false false) { attached with hoop := { hoopUp with phase := .drain } } fun t => t.twin.leaveEdge == some 2) := by decide +kernel

/-- A changed level is life, an unchanged one of an attached twin is the partner's failure (R477, R478). -/
theorem test_heartbeat_sample :
    ((advance attached 101).hoop.running ∧ (advance attached 101).twin.hbSampled = false) ∧
    (after (.heartbeatSample true) attached fun t => t.twin.hbIn && t.twin.st == .attached) ∧
    (after (.heartbeatSample false) attached fun t => t.twin.st == .detached && t.twin.cause == 4 && !t.twin.takeovers.isEmpty) := by decide +kernel

/-- Twin A after its link was lost, with an index of the partner's known. -/
def watching : State := { base with twin := { Twin.reset with watch := true, peer := [(3 * 65536 + 4, 0)] } }

/-- After a lost link the partner's heartbeat frees its indices, and its silence is a failure (R485). -/
theorem test_heartbeat_watch :
    (after (.heartbeatSample true) watching fun t => !t.twin.watch && t.twin.peer == [] && t.twin.st == .detached) ∧
    (after (.heartbeatSample false) watching fun t => !t.twin.watch && t.twin.cause == 4 && !t.twin.takeovers.isEmpty) := by decide +kernel

/-- MOVE, FAILED and the lost link (R478, R485); a link lost before the twins are attached trains again (R471). -/
theorem test_partner :
    (after (.moveMessage [0x10000000]) attached fun t => t.twin.takeovers.any fun k => k.only == some [0x10000000]) ∧
    (after .failedMessage attached fun t => t.twin.st == .detached && t.twin.takeovers.any fun k => k.only == none) ∧
    (after .selvageLinkLost attached fun t => t.twin.st == .detached && t.twin.cause == 3 && t.twin.watch && t.twin.lanes == 0) ∧
    (after .selvageLinkLost (shaking false) fun t => t.twin.st == .training && t.twin.lanes == 0 && t.twin.training) := by decide +kernel

/-- A walk in progress, for the hub's TLB or a cluster's. -/
def walkAt (walker : Nat) : Walk :=
  { asid := 0, va := 0x1234, acc := .read, site := if walker < 16 then .lanes 0 else .port 0, slot := if walker < 16 then 0 else 0xFF,
    time := 0, walker := walker, again := false, fromRoot := false }

/-- The device with such a walk. -/
def walked (walker : Nat) : State := { base with mmu := { Mmu.reset with walks := [(4, walkAt walker)] } }

/-- A unit that had work and made no progress leaves service at its window's end (R492, R496); one without work stays. -/
theorem test_monitor :
    up.hoop.running ∧
    (after (.monitorWindowEnd []) up fun t => t.flt.window == 1 && t.flt.windows == 1) ∧
    (after (.monitorWindowEnd [.cluster 2]) (walked 2) fun t => t.flt.oosQuads.testBit 9 && !t.flt.oosQuads.testBit 12) ∧
    (after (.monitorWindowEnd [.cluster 2]) up fun t => t.flt.oosQuads == 0) ∧
    (after (.monitorWindowEnd [.device]) { walked 16 with flt := { Faults.reset with window := 3 } } fun t => t.flt.failed && t.hoop.tick == 1) := by decide +kernel

/-- The coding units with a BIND of queue 0 under way. -/
def bindRun1 : Coding := { State.reset.cod with bindRuns := [{ q := 0, i := 0, pay := 0, par := 0 }] }

/-- The device with that BIND on engine 1. -/
def bindUp : State := { withQ base { queueWith 5 { armedDesc 0 0 with stage := .started } with unit := 1 } with cod := bindRun1 }

/-- Stream 3 with a packet that may leave. -/
def leaving : State :=
  { streamed1 with circ := { circUp with streams := [(3, { stream1 with pq := [{ frame := [1, 2], wire := 26 }] })] } }

/-- A media unit with a BIND under way, and a port whose head packet may leave (R496). -/
theorem test_monitor_units :
    (after (.monitorWindowEnd [.media 13]) bindUp fun t => t.flt.oosUnits.testBit 13) ∧
    (after (.monitorWindowEnd [.port 0]) leaving fun t => t.flt.oosUnits.testBit 16 && !hasLink t 0) := by decide +kernel

/-- The partner's write and read of this twin's HBM (R467). -/
theorem test_selvage_memory :
    (groupByte attached (groupOf 0x40000000) < 128 ∨ (groupByte attached (groupOf 0x40000000)).testBit 6) ∧
    (domOf attached (115 + groupOf 0x40000000 / 2)).st = .on ∧
    (after (.selvageRequest .write 0x40000000 2 [7, 8] .clean) attached fun t => mread t.fab.mem 0x40000000 3 == [7, 8, 0] && t.twin.answer == .ack) ∧
    (after (.selvageRequest .read 0x40000001 1 [] .single) { attached with fab := { Fabric.reset with mem := [(0x40000001, 9)] } } fun t =>
  t.twin.answer == .data [9]) := by decide +kernel

/-- Replay, retrain and the training's end (R466). -/
theorem test_selvage_link :
    (after (.selvageReplay true) attached fun t => t.twin.replays == 1 && !t.twin.retrying) ∧
    (after (.selvageReplay false) attached fun t => t.twin.replayTries == 1 && t.twin.retrying && t.twin.retrains == 0) ∧
    (after .selvageRetrain attached fun t => t.twin.retrains == 1 && t.twin.retrying && t.twin.training) ∧
    (after (.selvageTrainingDone 4) { up with twin := { Twin.reset with st := .training, training := true } } fun t => t.twin.lanes == 4 && t.twin.st == .handshake) ∧
    (after (.selvageTrainingDone 4) attached fun t => t == attached) := by decide +kernel

/-- The eighth replay that fails starts a retrain, and no second one starts (R466). -/
theorem test_selvage_eighth :
    (after (.selvageReplay false) { attached with twin := { attached.twin with retrying := true, replayTries := 7 } } fun t => t.twin.training && t.twin.retrains == 1) ∧
    (after .selvageRetrain { attached with twin := { attached.twin with training := true } } fun t => t.twin.retrains == 0) := by decide +kernel

/-! ## Translation -/

/-- A table of four levels that maps the context's first 64 KiB to 0x40000000, readable and writable. -/
def tables4 : Mem :=
  mwrite (mwrite (mwrite (holds 0x10000 8 0x30001) 0x30000 (toLE 8 0x31001)) 0x31000 (toLE 8 0x32001)) 0x32000 (toLE 8 0x40000007)

/-- The device with no translation cached and a walk of slot 0, over tables. -/
def walking (m : Mem) (x : Walk) : State :=
  { base with mmu := { Mmu.reset with walks := [(4, x)] }, fab := { Fabric.reset with mem := m } }

/-- A walker's report without contention. -/
def quiet : Stall := { cycles := 0, served := [] }

/-- A walk of four levels enters its 64 KiB leaf in the core TLB and the cluster TLB (R108, R112, R114, R115). -/
theorem test_walk :
    (ctxOf (walking tables4 (walkAt 0)) 0).isSome ∧
    (match walk (walking tables4 (walkAt 0)) 0 false [0, 256] 0 0x1234 with
  | (_, .leaf size e) => size == 16 && e == 0x40000007
  | _ => false) = true ∧
    checkLeaf (walking tables4 (walkAt 0)) (walkWho (walkAt 0)) .read 0x1234 16 0x40000007 ≠ .bad ∧
    (after (.pageWalkComplete ⟨4, .none⟩ quiet) (walking tables4 (walkAt 0)) fun t => t.mmu.walks.isEmpty && t.mmu.walkCache.length == 3 &&
  (t.mmu.tlb.map fun e => (e.tlb, e.bitsz, e.leaf)) == [(256, 16, 0x40000007), (0, 16, 0x40000007)]) := by decide +kernel

/-- A walk that ends at a non-present entry raises a fault request for its page (R119). -/
theorem test_walk_absent :
    (after (.pageWalkComplete ⟨4, .none⟩ quiet) (walking [] (walkAt 0)) fun t => t.mmu.walks.isEmpty &&
  t.mmu.faults.map (fun r => (r.page, r.unit, r.slot)) == [(0, 1, 0)]) := by decide +kernel

/-- A walk that an invalidation overtook walks again from the root (R126). -/
theorem test_walk_again :
    (after (.pageWalkComplete ⟨4, .none⟩ quiet) (walking tables4 { walkAt 0 with again := true }) fun t =>
  (tget t.mmu.walks 4).any fun x => !x.again && x.fromRoot) := by decide +kernel

/-- A fault request of the context's page 3. -/
def fault0 : FaultReq :=
  { func := 0, fid := none, handle := 0x10000000, page := 3, acc := .read, unit := 1, slot := 0, time := 0, written := false, joined := [] }

/-- The device with a fault ring at 0x6000 of 64 entries and one request, given its identifier or not. -/
def faulting (fid : Option Nat) : State :=
  { base with fns := [(0, { fnUp with faults := { Ring.reset with base := some 0x6000, entries := 64 } })],
              mmu := { Mmu.reset with faults := [{ fault0 with fid := fid, written := fid.isSome }] } }

/-- A fault record takes identifier 0 and goes to the ring (R117 to R119). -/
theorem test_fault_record :
    nextFault (faulting none) 0 = some 0 ∧
    (faultSpace (faulting none) 0).2 ∧
    (after (.faultRecordWrite 0) (faulting none) fun t => (fnOf t 0).faults.written == 1 && (t.mmu.faults.map (·.fid)) == [some 0] &&
  t.mmu.faultsCnt == 1) ∧
    (after (.faultHeadPoll 0) (faulting none) fun t => (fnOf t 0).faults.written == 1) := by decide +kernel

/-- A record of the media hub takes no identifier, and its request ends (R119, R122). -/
theorem test_fault_record_hub :
    (after (.faultRecordWrite 0) { faulting none with mmu := { Mmu.reset with faults := [{ fault0 with slot := 0xFF }] } } fun t =>
  (fnOf t 0).faults.written == 1 && t.mmu.faults.isEmpty) := by decide +kernel

/-- RETRY frees the identifier, NOT_MAPPED loses the context with reason 1 (R120, R122). -/
theorem test_fault_answer :
    (after (.faultRetry 0 3) (faulting (some 3)) fun t => t.mmu.faults.isEmpty && ctxActive t 0) ∧
    gives (lookup base.obj 1 0x10000000) 0 ∧
    (after (.faultNotMapped 0 3) (faulting (some 3)) fun t => (ctxOf t 0).any fun x => x.st == .lost && x.reason == 1) := by decide +kernel

/-- An invalidation removes the ASID's translations, and its token is written when it is done (R124, R125). -/
theorem test_inval :
    (after (.mmuInval 0 0x10000000 0x55) base fun t => t.mmu.tlb.isEmpty && t.mmu.invals.length == 1) ∧
    (after (.invalDone 0) { faulting none with mmu := { Mmu.reset with invals := [{ func := 0, asid := 0, token := 0x55, before := 0 }] } } fun t =>
  (fnOf t 0).invalTok == 0x55 && t.mmu.invals.isEmpty && mnat t.fab.host 0x6008 4 == 0x55) := by decide +kernel

/-! ## Submission -/

/-- A doorbell moves TAIL; one past the ring's entries, of a stale generation or of a wrong size does not (R136). -/
theorem test_doorbell :
    genOf base.obj 2 0 = 0 ∧
    (after (.qDoorbell 0 0 0 8 0x40) base fun t => (tget t.obj.queues 0).any fun x => x.tail == 0x40) ∧
    (after (.qDoorbell 0 0 0 8 0x41) base fun t => (tget t.obj.queues 0).any (fun x => x.tail == 0) && t.fe.dbOver == 1) ∧
    (after (.qDoorbell 0 0 0 8 0x100000005) base fun t => t.fe.dbStale == 1) ∧
    (after (.qDoorbell 0 0 0 4 5) base fun t => t.fe.dbBad == 1) ∧
    (after (.qDoorbell 0 0 4 8 5) base fun t => t.fe.dbBad == 1) := by decide +kernel

/-- Queue 0 halted at its first descriptor. -/
def halted : Queue := { queueWith 0 { armedDesc 0 0 with stage := .ended 0x11 } with st := .halted, haltStatus := 0x11 }

/-- RETRY and SKIP wait on the halted queue (R137). -/
theorem test_resume :
    (after (.qResumeRetry 0 0 8 8 0) (withQ base halted) fun t => (tget t.obj.queues 0).any fun x => x.resume == some 1) ∧
    (after (.qResumeSkip 0 0 8 8 0) (withQ base halted) fun t => (tget t.obj.queues 0).any fun x => x.resume == some 2) := by decide +kernel

/-- RETRY returns the descriptor to the ring, SKIP retires it as OK (R137). -/
theorem test_resume_effect :
    halted.recs.any (inFlight halted) = false ∧
    (after (.queueResumeEffect 0) (withQ base { halted with resume := some 1 }) fun t => (tget t.obj.queues 0).any fun x => x.st == .active && x.recs.isEmpty &&
  x.retired == 0) ∧
    (after (.queueResumeEffect 0) (withQ base { halted with resume := some 2 }) fun t => (tget t.obj.queues 0).any fun x => x.st == .active &&
  x.haltStatus == 0 && (recOf x 0).all fun d => d.stage == .ended 0) := by decide +kernel

/-- Queue 0 with one NOP in its ring, not yet taken. -/
def rung : State := withQ base { queue0 with tail := 1, ring := 0x5000, slot := 0 }

/-- The front end of slot 0 takes the descriptor (R140, R141). -/
theorem test_take :
    fetcherReady rung (.slot 0) ∧
    chooseQueue rung (.slot 0) = some 0 ∧
    ((fetcherDoms (.slot 0)).all fun d => (domOf rung d).st == .on && !domDown rung d) ∧
    nextIndex { queue0 with tail := 1, ring := 0x5000 } = 0 ∧
    (after (.descriptorTake (.slot 0)) rung fun t => (tget t.obj.queues 0).any fun x => (recOf x 0).any fun d => d.stage == .taken && d.be) := by decide +kernel

/-- A descriptor is armed; one with WAITCH and no token is held, one with a token uses it (R146, R148). -/
theorem test_arm :
    (after (.descriptorArm 0 0) (withQ base (queueWith 0 { armedDesc 0 0 with stage := .taken })) fun t =>
  (tget t.obj.queues 0).any fun x => (recOf x 0).any fun d => d.stage == .armed) ∧
    (after (.descriptorArm 0 0) (withQ base (queueWith 0 { armedDesc 0 0x400 with stage := .taken })) fun t =>
  (tget t.obj.queues 0).any fun x => (recOf x 0).any fun d => d.stage == .held) ∧
    (after (.descriptorArm 0 0) (withQ base { queueWith 0 { armedDesc 0 0x400 with stage := .taken } with tokens := 2 }) fun t =>
  (tget t.obj.queues 0).any fun x => x.tokens == 1 && (recOf x 0).any fun d => d.stage == .armed && d.token) := by decide +kernel

/-- The device with descriptor 0 of queue 0 armed. -/
def armed (w : W512) : State := withQ base (queueWith 0 (armedDesc 0 w))

/-- NOP completes with OK (R143). -/
theorem test_nop :
    mayGo (armed 0) 0 0 none 0x00 ∧
    (after (.nop work0) (armed 0) fun t => (tget t.obj.queues 0).any fun x => x.completed == 1 && x.retired == 1) := by decide +kernel

/-- A SIGNAL or WAIT of the fence for a value. -/
def fenceWord (op v : Nat) : W512 := BitVec.ofNat 512 (op + 0x30000000 * 2 ^ 128 + v * 2 ^ 192)

/-- SIGNAL gives its value to the fence and completes (R143, R86). -/
theorem test_signal :
    mayGo (armed (fenceWord 2 6)) 0 0 none 0x02 ∧
    fenceFor (armed 0) 0 0x30000000 = some 0 ∧
    (after (.signal work0) (armed (fenceWord 2 6)) fun t => (tget t.obj.fences 0).any (fun x => x.value == 6) &&
  (tget t.obj.queues 0).any fun x => x.completed == 1) := by decide +kernel

/-- A WAIT whose fence has reached its value completes (R147). -/
theorem test_wait :
    mayGo (armed (fenceWord 1 5)) 0 0 none 0x01 ∧
    (isOpen (armed 0) ∧ (getQ (armed 0) 0).any fun x => x.st == .active) ∧
    (after (.wait work0) (armed (fenceWord 1 5)) fun t => (tget t.obj.queues 0).any fun x => x.completed == 1) := by decide +kernel

/-- A WAIT_TICK whose edge has come completes (R149). -/
theorem test_wait_tick :
    (after (.waitTick 0 0) (withQ base (queueWith 0 { armedDesc 0 3 with due := true })) fun t => (tget t.obj.queues 0).any fun x => x.completed == 1) := by decide +kernel

/-- BUDGET completes with OK (R155). -/
theorem test_budget :
    mayGo (withQ base { queueWith 0 (armedDesc 0 4) with rt := true, slot := 0 }) 0 0 none 0x04 ∧
    (after (.budget 0 0) (withQ base { queueWith 0 (armedDesc 0 4) with rt := true, slot := 0 }) fun t => (tget t.obj.queues 0).any fun x => x.completed == 1) := by decide +kernel

/-- A launch of graph 0 by descriptor 0 with two nodes, the second after the first. -/
def launch0 (st : Stage) (w : W512) : Launch :=
  { q := 0, i := 0, graph := 0, gen := 0, read := true, slotB := false, table := 0x9000, count := 2, fail := none, failAt := 0,
    failNode := 0, cut := false,
    nodes := [(0, { arrivals := 0, npred := 0, d := { armedDesc 0 w with stage := st } }),
              (1, { arrivals := 0, npred := 1, d := { armedDesc 0 0 with stage := .taken } })] }

/-- The device with the launch; node 0 names node 1 as its successor. -/
def launching (st : Stage) (w : W512) : State :=
  { base with obj := { objs with queues := [(0, queueWith 0 { armedDesc 0 0x11 with stage := .started })], launches := [launch0 st w] },
              fab := { Fabric.reset with mem := holds 0x9000 128 (w.toNat + 2 ^ 512 + 2 ^ 528 + 2 ^ 544) } }

/-- A WAIT node whose fence has reached its value is finished, and one whose fence has not is held (R101, R147). -/
theorem test_node_wait :
    mayGo (launching .armed (fenceWord 1 5)) 0 0 (some 0) 0x01 ∧
    (after (.wait { q := 0, i := 0, node := some 0 }) (launching .armed (fenceWord 1 5)) fun t => (launchOf t 0 0).any fun l => (tget l.nodes 0).any fun n => n.d.stage == .finished 0) ∧
    (after (.wait { q := 0, i := 0, node := some 0 }) (launching .armed (fenceWord 1 6)) fun t => (launchOf t 0 0).any fun l => (tget l.nodes 0).any fun n => n.d.stage == .held) := by decide +kernel

/-- A node's completion delivers an arrival, and its failure fails the launch (R101). -/
theorem test_node_complete :
    (match readSuccs (launching (.finished 0) 0) (feWho base 0 (queueWith 0 { armedDesc 0 0x11 with stage := .started })) (nodeAt (launch0 (.finished 0) 0) 0) with
  | (_, some l) => l.count 1 == 1
  | _ => false) = true ∧
    (after (.graphNodeComplete 0 0 0) (launching (.finished 0) 0) fun t => (launchOf t 0 0).any fun l => (tget l.nodes 1).any fun n => n.arrivals == 1 && n.d.stage == .armed) ∧
    (after (.graphNodeComplete 0 0 0) (launching (.finished 0x11) 0) fun t => (launchOf t 0 0).all fun l => l.fail.isSome) := by decide +kernel

/-- DESCRIPTOR_COMPLETE ends a descriptor whose unit has finished (R151). -/
theorem test_complete :
    (after (.descriptorComplete 0 0) (withQ base (queueWith 0 { armedDesc 0 0x30 with stage := .finished 0 })) fun t =>
  (tget t.obj.queues 0).any fun x => x.completed == 1) := by decide +kernel

/-- A state with a dirty line of slot 0 in the stack tier. -/
def dirtied (s : State) : State := { s with fab := { s.fab with lines := [{ dirtyLine with slot := 0 }] } }

/-- The stage of descriptor 0 of queue 0. -/
def stage0 (s : State) : Option Stage := ((tget s.obj.queues 0).bind fun x => recOf x 0).map (·.stage)

/-- The stage of node 0 of the launch. -/
def stageN (s : State) : Option Stage := ((launchOf s 0 0).bind fun l => tget l.nodes 0).map (·.d.stage)

/-- With dirty lines in its slot, a completion with OK begins a clean, waits for it, and then ends (R204). -/
theorem test_complete_cleans :
    mustClean (dirtied base) 0 ∧
    (after (.descriptorComplete 0 0) (dirtied (withQ base (queueWith 0 { armedDesc 0 0x30 with stage := .finished 0 }))) fun t =>
  stage0 t == some .cleaning && t.fab.cleans == [0] && !hasDirty t 0 && mget t.fab.mem 0x80 == 5) ∧
    (after (.descriptorComplete 0 0) (withQ base (queueWith 0 { armedDesc 0 0x30 with stage := .cleaned })) fun t =>
  (tget t.obj.queues 0).any fun x => x.completed == 1) := by decide +kernel

/-- So does a NOP, and a completion that failed does not wait (R204). -/
theorem test_nop_cleans :
    (after (.nop work0) (dirtied (armed 0)) fun t => stage0 t == some .cleaning && t.fab.cleans == [0]) ∧
    (after (.descriptorComplete 0 0) (dirtied (withQ base (queueWith 0 { armedDesc 0 0x30 with stage := .finished 0x11 }))) fun t =>
  (tget t.obj.queues 0).any fun x => x.completed == 1 && x.haltStatus == 0x11) := by decide +kernel

/-- A node's completion with OK waits for its clean too (R101, R204). -/
theorem test_node_cleans :
    (after (.graphNodeComplete 0 0 0) (dirtied (launching (.finished 0) 0)) fun t => stageN t == some .cleaning && t.fab.cleans == [0]) ∧
    (after (.graphNodeComplete 0 0 0) (launching .cleaned 0) fun t => (launchOf t 0 0).any fun l => (tget l.nodes 1).any fun n => n.arrivals == 1) := by decide +kernel

/-! ## Work in its unit -/

/-- COPY of 4 B from 0x2000 to 0x3000. -/
def copyWord : W512 := BitVec.ofNat 512 (0x30 + 0x2000 * 2 ^ 128 + 0x3000 * 2 ^ 192 + 4 * 2 ^ 256)

/-- What an access reaches. -/
def reaches (r : State × Option (List (Tr × Nat))) : Bool := r.2.isSome

/-- COPY moves its bytes (R153). -/
theorem test_copy :
    mayGo { withQ base (queueWith 2 (armedDesc 0 copyWord)) with fab := { Fabric.reset with mem := holds 0x2000 4 0x01020304 } } 0 0 none 0x30 ∧
    reaches (reach base (copyWho base 0 (queueWith 2 (armedDesc 0 copyWord))) .read 0x2000 4) ∧
    reaches (reach base (copyWho base 0 (queueWith 2 (armedDesc 0 copyWord))) .write 0x3000 4) ∧
    (after (.copy work0) { withQ base (queueWith 2 (armedDesc 0 copyWord)) with fab := { Fabric.reset with mem := holds 0x2000 4 0x01020304 } } fun t =>
  mnat t.fab.mem 0x3000 4 == 0x01020304) := by decide +kernel

/-- FILL of 10 B at 0x2001 with a pattern of 8 B. -/
def fillWord : W512 := BitVec.ofNat 512 (0x31 + 0x2001 * 2 ^ 128 + 0x0807060504030201 * 2 ^ 192 + 10 * 2 ^ 256)

/-- FILL repeats its pattern from its first byte (R153). -/
theorem test_fill :
    mayGo (withQ base (queueWith 2 (armedDesc 0 fillWord))) 0 0 none 0x31 ∧
    (after (.fill work0) (withQ base (queueWith 2 (armedDesc 0 fillWord))) fun t => mread t.fab.mem 0x2000 12 == [0, 1, 2, 3, 4, 5, 6, 7, 8, 1, 2, 0]) := by decide +kernel

/-- A KERNEL of 3 × 2 × 1 blocks at 0x100, one group of 16 registers each. -/
def kernelWord : W512 := BitVec.ofNat 512 (0x10 + 0x100 * 2 ^ 128 + 3 * 2 ^ 192 + 2 * 2 ^ 208 + 1 * 2 ^ 224 + 1 * 2 ^ 240 + 16 * 2 ^ 272)

/-- Queue 0 of slot 0 with a descriptor. -/
def slotQ (d : Desc) : Queue := { queueWith 0 d with slot := 0 }

/-- A KERNEL becomes a run of its blocks (R231, R232). -/
theorem test_kernel :
    mayGo (withQ base (slotQ (armedDesc 0 kernelWord))) 0 0 none 0x10 ∧
    queueSlot base 0 (slotQ (armedDesc 0 kernelWord)) = some 0 ∧
    eligibleCores base 0 false ≠ [] ∧
    (after (.kernel work0) (withQ base (slotQ (armedDesc 0 kernelWord))) fun t => (tget t.cores.runs 0).any fun r => r.total == 6 && r.regs == 16 && r.entry == 0x100) := by decide +kernel

/-- A KERNEL of MODE 1 with its grid records at 0x4000. -/
def gridWord : W512 := BitVec.ofNat 512 (0x10 + 0x4000 * 2 ^ 128 + 2 ^ 255 + 8 * 2 ^ 272)

/-- A core grid reads one record per eligible core; a CODE that is not a multiple of 256 is refused (R236; log 30). -/
theorem test_core_grid :
    (eligibleCores base 0 false).length = 16 ∧
    (after (.kernel work0) { withQ base (slotQ (armedDesc 0 gridWord)) with fab := { Fabric.reset with mem := holds 0x4000 64 0x200 } } fun t =>
  (tget t.cores.runs 0).any fun r => r.mode1 && r.total == 1) ∧
    (after (.kernel work0) { withQ base (slotQ (armedDesc 0 gridWord)) with fab := { Fabric.reset with mem := holds 0x4000 64 0x201 } } fun t =>
  (tget t.obj.queues 0).any fun x => x.haltStatus == 0x11 && x.st == .halted) := by decide +kernel

/-- A core grid without a CODE has nothing to run (R236), and one whose records a fault delays waits. -/
theorem test_core_grid_empty :
    (after (.kernel work0) (withQ base (slotQ (armedDesc 0 gridWord))) fun t => stage0 t == some (.finished 0) && t.cores.runs.isEmpty) ∧
    (vread base (feWho base 0 (slotQ (armedDesc 0 gridWord))) 0x4000 1024).2.isSome := by decide +kernel

/-- A saved record is launched in place of the payload (R40, R152). -/
theorem test_continuation :
    mayContinue (withQ base (slotQ { armedDesc 0 kernelWord with stage := .suspended })) 0 (slotQ { armedDesc 0 kernelWord with stage := .suspended }) ∧
    (after (.continuationLaunch 0) (withQ base (slotQ { armedDesc 0 kernelWord with stage := .suspended })) fun t =>
  (tget t.cores.runs 0).any fun r => r.total == 6) := by decide +kernel

/-- The graph with a current slot of two nodes at 0x9000, and a GRAPH_LAUNCH of it armed. -/
def graphing : State :=
  { base with obj := { objs with queues := [(0, slotQ (armedDesc 0 (BitVec.ofNat 512 (0x11 + 0x50000000 * 2 ^ 128))))],
                                 graphs := [(0, { graph0 with cur := some false, a := { slotNone with table := 0x9000, count := 2, gen := 1 } })] },
              fab := { Fabric.reset with mem := holds 0x9000 256 (2 ^ 1536) } }

/-- A launch counts in flight, and its roots become ready (R100, R101). -/
theorem test_graph_launch :
    mayGo graphing 0 0 none 0x11 ∧
    (after (.graphLaunch 0 0) graphing fun t => t.obj.launches.length == 1 && (tget t.obj.graphs 0).any fun g => g.a.inflight == 1) := by decide +kernel

/-- The same with a graph. -/
def graphing' (g : Graph) : State := { graphing with obj := { graphing.obj with graphs := [(0, g)] } }

/-- A graph without a current slot, or without a root, fails its launch with 0x13 (R100). -/
theorem test_graph_launch_none :
    (after (.graphLaunch 0 0) (graphing' graph0) fun t => (tget t.obj.queues 0).any fun x => x.haltStatus == 0x13 && x.completed == 1) ∧
    (after (.graphLaunch 0 0) { graphing with fab := { Fabric.reset with mem := holds 0x9000 256 (2 ^ 512 + 2 ^ 1536) } } fun t =>
  stage0 t == some (.finished 0x13)) := by decide +kernel

/-- A launch whose table is on an absent page is counted, and waits for it (R101, R103). -/
theorem test_graph_launch_waits :
    (after (.graphLaunch 0 0) (graphing' { graph0 with cur := some true, b := { slotNone with table := 0x40000000, count := 2, gen := 1 } }) fun t =>
  ((launchOf t 0 0).any fun l => !l.read && l.slotB) && ((tget t.obj.graphs 0).any fun g => g.b.inflight == 1) && stage0 t == some .started) := by decide +kernel

/-! ## The Acvik window -/

/-- The window enabled for the context that slot 0 names. -/
def windowed : State := { base with fe := { FrontEnds.reset with acv := { Acv.reset with enable := true } } }

/-- A word in its order is added (R165). -/
theorem test_acv_word :
    winCtx windowed ≠ 4096 ∧
    accPending windowed = false ∧
    (after (.feAcvWinWrite 0 4 0xAB) windowed fun t => t.fe.acv.nextWord == 1 && t.fe.acv.partWords == [0xAB]) := by decide +kernel

/-- The sixteenth word makes a descriptor (R165). -/
theorem test_acv_descriptor :
    (after (.feAcvWinWrite 60 4 1) { windowed with fe := { windowed.fe with acv := { windowed.fe.acv with nextWord := 15, partWords := List.replicate 15 0 } } } fun t =>
  t.fe.acv.ring.length == 1 && t.fe.acv.partWords.isEmpty && (getQ t winKey).any fun x => x.tail == 1) := by decide +kernel

/-- In the margin a write is held (R164). -/
theorem test_acv_held :
    (after (.feAcvWinWrite 0 4 1) { windowed with hoop := { hoopUp with phase := .drain } } fun t => t.fe.acv.heldWrites == [(0, 4, 1)]) := by decide +kernel

/-- ENABLE begins a descriptor, RETRY and SKIP resume (R166, R168). -/
theorem test_acv_control :
    (after .feAcvEnable { windowed with fe := { windowed.fe with acv := { Acv.reset with nextWord := 5, partWords := [1] } } } fun t =>
  t.fe.acv.enable && t.fe.acv.nextWord == 0 && t.fe.acv.partWords.isEmpty) ∧
    (after .feAcvResumeRetry { windowed with obj := { objs with queues := [(winKey, { Queue.window with st := .halted })] } } fun t =>
  (getQ t winKey).any fun x => x.resume == some 1) ∧
    (after .feAcvResumeSkip { windowed with obj := { objs with queues := [(winKey, { Queue.window with st := .halted })] } } fun t =>
  (getQ t winKey).any fun x => x.resume == some 2) := by decide +kernel

/-! ## Carrels and the fabric -/

/-- A switch of slot 3 in SAVING, from an outgoing context to a save address. -/
def savingSlot (ctx : W32) (addr : W64) : State :=
  { base with car := [(3, { CarSlot.reset with phase := .saving, outCtx := ctx, saveAddr := addr, outImage := [5, 6] })],
              mmu := { Mmu.reset with tlb := [leafAt 260] }, regs := { active := regsUp.active ++ [(oQuads 3, 0xF0)], shadow := [] } }

/-- The save writes the outgoing image; without its context the result is 1 (R179, R182). -/
theorem test_switch_save :
    (imageCtx base 0x10000000 = some 0 ∧ imageCtx base 0x10000009 = none) ∧
    (vwrite (savingSlot 0x10000000 0x8000) (imageWho 0 3) 0x8000 [5, 6]).2 = true ∧
    (after (.switchSaveDone 3) (savingSlot 0x10000000 0x8000) fun t =>
  (carOf t 3).phase == .loading && (carOf t 3).result == 0 && mread t.fab.mem 0x8000 2 == [5, 6]) ∧
    (after (.switchSaveDone 3) (savingSlot 0x10000009 0x8000) fun t => (carOf t 3).phase == .loading && (carOf t 3).result == 1) ∧
    (after (.switchSaveDone 3) { base with car := [(3, { CarSlot.reset with phase := .saving })] } fun t => (carOf t 3).phase == .loading) := by decide +kernel

/-- An absent page holds the save, and an address beyond the 52 bits loses the context (R113, R179, R182). -/
theorem test_switch_save_fails :
    (after (.switchSaveDone 3) (savingSlot 0x10000000 0x40000000) fun t => (carOf t 3).phase == .saving && t.mmu.faults.length == 1) ∧
    (after (.switchSaveDone 3) (savingSlot 0x10000000 0x10000000000000) fun t => (carOf t 3).phase == .loading && (carOf t 3).result == 1 &&
  !ctxActive t 0) := by decide +kernel

/-- Slot 0 loads local memory unit 0 of core 0 from 0x8000. -/
def loadingSlot (owner : W64) (addr : W64) : State :=
  { base with regs := { regsUp with active := [(oQuads 0, 0xF), (oOwner 0, owner)] },
              car := [(0, { CarSlot.reset with phase := .loading, start := 0, loadAddr := addr, inImage := [(false, 0, 0)] })],
              hoop := { hoopUp with time := 250 },
              fab := { Fabric.reset with mem := holds 0x8000 4 9 } }

/-- The load ends with its time in µs, rounded up (R180, R182). -/
theorem test_switch_load :
    (vread (loadingSlot 0x10000000 0x8000) (imageWho 0 0) 0x8000 65536).2.isSome ∧
    (after (.switchLoadDone 0) (loadingSlot 0x10000000 0x8000) fun t => (carOf t 0).phase == .idle && (carOf t 0).lastUs == 3) ∧
    (after (.switchLoadDone 3) { base with car := [(3, { CarSlot.reset with phase := .loading, result := 1 })] } fun t => (carOf t 3).phase == .idle && (carOf t 3).result == 1) ∧
    (after (.switchLoadDone 0) (loadingSlot 0x10000009 0x8000) fun t => (carOf t 0).result == 2) := by decide +kernel

/-- An absent page holds the load, and an address beyond the 52 bits loses the context (R113, R179, R182). -/
theorem test_switch_load_fails :
    (after (.switchLoadDone 0) (loadingSlot 0x10000000 0x40000000) fun t => (carOf t 0).phase == .loading) ∧
    (after (.switchLoadDone 0) (loadingSlot 0x10000000 0x10000000000000) fun t => (carOf t 0).phase == .idle && (carOf t 0).result == 2) := by decide +kernel

/-- Slot 0's published record: 7 cycles at a router in period 3. -/
def slow0 : CarSlot := { CarSlot.reset with pub := { Slow.reset with router := 7 }, pubTick := 3 }

/-- The slow-down record of slot 0 (R188). -/
theorem test_slow_table :
    hasSlot base 0 ∧
    (after (.slowTableWrite 0) { base with fns := [(0, { fnUp with slow := some 0x4000 })], car := [(0, slow0)] } fun t =>
  mnat t.fab.host 0x4000 4 == 3 && mnat t.fab.host 0x401C 4 == 7) := by decide +kernel

/-- A read of 8 B at 0x2000 for slot 0 by the lanes of core 8. -/
def txn0 : TxnReq :=
  { issuer := .unit 0 (.lanes 8), share := .quad 2, kind := .read, addr := 0x2000, len := 8, data := [], rt := false, stall := quiet }

/-- A request goes to local memory at 0x2000, through domains that are ON. -/
def goesToMem (s : State) (r : TxnReq) : Bool :=
  match routeOf (addStall s 0 .router r.stall) r with
  | (v, .go space addr) => (match space with
    | .mem => addr == 0x2000
    | _ => false) && (routeDoms v space addr).all fun d => !domDown v d && (domOf v d).st == .on
  | _ => false

/-- The device with the share of quad 2 in use. -/
def shared (n : Nat) : State := { base with mmu := { Mmu.reset with tlb := [leafAt 258] }, fab := { Fabric.reset with shares := [(2, n)] } }

/-- A transaction takes an entry of its share, or waits for one (R195 to R197). -/
theorem test_txn_issue :
    (txnOk txn0 ∧ shareOk base txn0.issuer txn0.share ∧ capOf base (shareKey txn0.share) ≠ 0) ∧
    goesToMem (shared 0) txn0 ∧
    (shareFree (shared 0) 2 ∧ shareFree (shared (capOf base 2)) 2 = false) ∧
    (after (.transactionIssue txn0) (shared 0) fun t => (tget t.fab.txns 0).any (·.entry) && tget t.fab.shares 2 == some 1) ∧
    (after (.transactionIssue txn0) (shared (capOf base 2)) fun t => ((tget t.fab.txns 0).any fun x => !x.entry) && tgetD t.fab.shares 2 0 == capOf base 2) := by decide +kernel

/-- A request passes its routers, west or east first and then along its column (R190). -/
theorem test_mesh :
    ((tget (match exec (.transactionIssue txn0) (shared 0) with
  | .next t => t.fab.txns
  | _ => []) 0).any fun x => x.path.length == 1 && x.hop ≤ x.path.length) := by decide +kernel

/-- A transaction in flight, at its target. -/
def flight (k : AccessKind) (space : Space) (asid : Nat) : Txn :=
  { share := 2, issuer := .unit 0 (.lanes 8), asid := asid, kind := k, space := space, addr := 0x2000, len := 2, data := [3, 4], rt := false,
    tries := 0, entry := true, path := [], port := 0, hop := 1, seq := 0, lost := false, lanes := none, more := [], born := 0, since := 0 }

/-- The device with it in flight, bytes at 0x2000 of both memories. -/
def inFlight1 (x : Txn) : State :=
  { base with fab := { Fabric.reset with txns := [(5, x)], nextTxn := 6, shares := [(2, 1)], mem := holds 0x2000 2 0x0A09, host := holds 0x2000 2 0x0C0B } }

/-- Its response moves its bytes (R195, R198, R107, R467). -/
theorem test_txn_response :
    (txnBlocked (inFlight1 (flight .read .mem 0)) 5 (flight .read .mem 0) = false ∧ atTarget (flight .read .mem 0)) ∧
    (after (.transactionResponse 5 .ok) (inFlight1 (flight .read .mem 0)) fun t => t.fab.lastRead == [9, 10] && t.fab.txns.isEmpty) ∧
    (after (.transactionResponse 5 .ok) (inFlight1 (flight .write .mem 0)) fun t => mread t.fab.mem 0x2000 2 == [3, 4]) ∧
    (after (.transactionResponse 5 .ok) (inFlight1 (flight .read .host 0)) fun t => t.fab.lastRead == [11, 12]) ∧
    (after (.transactionResponse 5 .ok) (inFlight1 (flight .write .host 0)) fun t => mread t.fab.host 0x2000 2 == [3, 4]) ∧
    (after (.transactionResponse 5 .ok) (inFlight1 (flight .read (.tier 0) 0)) fun t => t.fab.lastRead == [9, 10]) ∧
    (after (.transactionResponse 5 (.twinData [7, 8, 9])) (inFlight1 (flight .read .twin 0)) fun t => t.fab.lastRead == [7, 8]) ∧
    (after (.transactionResponse 5 .ok) (inFlight1 (flight .write .twin 0)) fun t => t.fab.txns.isEmpty && t.fab.mem == holds 0x2000 2 0x0A09) := by decide +kernel

/-- A host error that the link bears alone moves nothing; one of a context loses it with reason 1 (R107). -/
theorem test_txn_errors :
    (after (.transactionResponse 5 .hostError) (inFlight1 (flight .read .host 4096)) fun t => t.fab.txns.isEmpty && ctxActive t 0) ∧
    (after (.pcieCompletionTimeout 5) (inFlight1 (flight .read .host 0)) fun t => t.fab.txns.isEmpty && (ctxOf t 0).any fun x => x.st == .lost && x.reason == 1) ∧
    (after (.pcieCompletionTimeout 5) (inFlight1 (flight .read .host 4096)) fun t => t.fab.txns.isEmpty && ctxActive t 0) := by decide +kernel

/-- A transaction of a lost context is not performed (R75). -/
theorem test_txn_lost :
    (after (.transactionResponse 5 .ok) (inFlight1 { flight .write .mem 0 with lost := true }) fun t => t.fab.txns.isEmpty && mread t.fab.mem 0x2000 2 == [9, 10]) := by decide +kernel

/-- Two of one unit to one line are performed in their order of issue (R198). -/
theorem test_txn_order :
    (after (.transactionResponse 5 .ok) { inFlight1 (flight .read .mem 0) with fab := { (inFlight1 (flight .read .mem 0)).fab with
  txns := [(4, flight .write .mem 0), (5, flight .read .mem 0)] } } fun t => t.fab.txns.length == 2) := by decide +kernel

/-- Scrubs and the parity retry (R208, R217, R218). -/
theorem test_scrub :
    hasCluster base 2 ∧
    (after (.stackScrub 2 .single) { base with regs := { active := [(oWays 2 0, 0x80)], shadow := [] } } fun t => (eccOf t 2).corrected == 1 && tget t.fab.stkScrub 2 == some 1) ∧
    (after (.stackScrub 2 .clean) { base with regs := { active := [(oWays 2 0, 0x80)], shadow := [] } } fun t => (eccOf t 2).corrected == 0) ∧
    (after (.stackScrub 2 .double) { base with regs := { active := [(oWays 2 0, 0x8000)], shadow := [] } } fun t => (eccOf t 2).lastWay == 1 && (eccOf t 2).uncorrected == 0) ∧
    (after (.hbmScrub 3 .single) base fun t => (hbmOf t 3).corrected == 1 && (hbmOf t 3).scrubAt == 1) ∧
    atHbm (flight .read .mem 0) 0 ∧
    (after (.hbmParityRetry 0 5) (inFlight1 (flight .read .mem 0)) fun t => (hbmOf t 0).retried == 1 && (tget t.fab.txns 5).any fun x => x.tries == 1) := by decide +kernel

/-- CLEAN_DONE ends a clean, and what waited for it goes on (R204). -/
theorem test_clean_done :
    (after (.cleanDone 3) { base with fab := { Fabric.reset with cleans := [2, 3] } } fun t => t.fab.cleans == [2]) ∧
    (after (.cleanDone 4) { base with fab := { Fabric.reset with cleans := [2, 3] } } fun t => t.fab.cleans == [2, 3]) ∧
    (after (.cleanDone 0) { withQ base (slotQ { armedDesc 0 0x30 with stage := .cleaning }) with fab := { Fabric.reset with cleans := [0] } } fun t =>
  stage0 t == some .cleaned && t.fab.cleans.isEmpty) := by decide +kernel

/-! ## Register accesses -/

/-- A read of both halves, and of ACC_STRAY, which is cleared (R13, R30, R44). -/
theorem test_read :
    bar0Responds base 0x8 false ∧
    (after (.rcRead .bar0 0x8 8) base fun t => t.bus.hostData == 416667) ∧
    (after (.rcRead .bar0 0x8 4) base fun t => t.bus.hostData == 416667 && t.bus.latch.length == 1) ∧
    (after (.rcRead .bar0 0x8 2) base fun t => t.bus.hostData == 0) ∧
    (after (.rcRead .bar0 0xC 4) { base with bus := { State.reset.bus with latch := [(8, 0x55), (0x10, 0x66)] } } fun t => t.bus.hostData == 0x55 && t.bus.latch == [(0x10, 0x66)]) ∧
    (after (.rcRead .bar0 0x100010 8) { base with acc := { base.acc with stray := 4 } } fun t => t.bus.hostData == 4 && t.acc.stray == 0) ∧
    (after (.rcRead .bar0 0x30 8) { base with hoop := { hoopUp with settleLate := 2, overrun := 1 } } fun t => t.bus.hostData == 0x20001 && t.hoop.overrun == 0) := by decide +kernel

/-- Writes with their clamps (R47, R521, R533). -/
theorem test_write :
    (bar0Responds base 0x100008 true ∧ bar0Responds base 0x1100028 true ∧ bar0Responds base 0x1300018 true ∧ bar0Responds base 0x1200000 true) ∧
    (after (.registerWrite .bar0 0x100008 4 9) base fun t => t.acc.targetHost == 9) ∧
    (after (.registerWrite .mgmt 0x100008 8 9) base fun t => t.acc.targetFw == 9 && t.acc.targetHost == 0) ∧
    (after (.registerWrite .bar0 0x1100028 4 9) base fun t => t.fw.graceTicks == 16) ∧
    (after (.registerWrite .bar0 0x1300018 4 2000) base fun t => t.pwr.limitNext == 1400) ∧
    (after (.registerWrite .bar0 0x1200000 8 0x12345) base fun t => t.fw.bootImage == 0x12000) ∧
    (after (.registerWrite .bar0 0x1200008 8 0x12345) base fun t => t.fw.bootCharter == 0x12000) ∧
    (after (.registerWrite .bar0 0x8 2 9) base fun t => t == base) := by decide +kernel

/-- BAR4 reads HBM past the tier, zeros above it, and writes it (R575). -/
theorem test_bar4 :
    ((bar4Doms 0x100 2).all fun d => (domOf base d).st == .on && !domDown base d) ∧
    (after (.bar4Access 0x100 2 (some [5, 6]) .clean) base fun t => mread t.fab.mem 0x100 2 == [5, 6]) ∧
    (after (.bar4Access 0x100 2 none .clean) { base with fab := { Fabric.reset with mem := [(0x101, 7)] } } fun t => t.fab.lastRead == [0, 7]) ∧
    (after (.bar4Access (hbmEnd - 1) 2 none .clean) { base with fab := { Fabric.reset with mem := [(hbmEnd, 7)] } } fun t => t.fab.lastRead == [0, 0]) ∧
    (after (.bar4Access hbmEnd 1 (some [5]) .clean) base fun t => t == base) := by decide +kernel

/-! ## Thread groups -/

/-- Block 10 of run 5 on core 1, one group of 64 registers and 16 KiB of local memory from KiB 4. -/
def block0 : Block :=
  { run := 5, core := 1, cluster := 0, rank := 0, csize := 2, bx := 3, byy := 1, bz := 0, erank := 1, lmBase := 4, lmKib := 16, ngroups := 1,
    nregs := 64, arg := 0x55, entry := 0x100, frag := none }

/-- A subgroup of lanes at a program counter. -/
def sub (m : W32) (pc : W64) (w : SubWait) : Sub := { mask := m, pc := pc, s := 0, wait := w }

/-- The block's group: lanes 0 and 1 active, the rest exited; register k of lane l as listed. -/
def group0 : Group :=
  { block := 10, index := 0, nregs := 64, regs := [(1 * 32, 7), (1 * 32 + 1, 9), (2 * 32, 0x5000), (2 * 32 + 1, 0x5008), (4 * 32, 1), (4 * 32 + 1, 1)],
    exited := 0xFFFFFFFC, subs := [sub 3 0x100 .ready], g := 0, bobOut := 0 }

/-- A second block of the cluster, on core 2. -/
def block1 : Block := { block0 with core := 2, rank := 1, erank := 2, lmBase := 8 }

/-- The run of both blocks. -/
def run0 : Run :=
  { q := 0, i := 0, node := none, slot := 0, ctx := 0, rt := false, mode1 := false, regs := 64, groups := 1, localKib := 16, cluster := 2,
    bx := 2, byy := 1, bz := 1, entry := 0x100, arg := 0x55, next := 2, total := 2, grid := [], cont := none }

/-- Cores with those blocks, the first with a group. -/
def coresWith (g : Group) : Cores :=
  { Cores.reset with groups := [(64, g)], blocks := [(10, block0), (11, block1)], runs := [(5, run0)], nextId := 12,
                     lm := [(0x85000, 0x11), (0x85008, 0x22), (0x102004, 0x33)] }

/-- The device with them, and their descriptor started. -/
def running (g : Group) : State :=
  { withQ base (slotQ { armedDesc 0 kernelWord with stage := .started }) with cores := coresWith g }

/-- Lane 0 of the group. -/
def sg : SgRef := { core := 1, slot := 0, lane := 0, err := .none }

/-- A register of a lane after a command on `running group0`. -/
def reg (c : Instr) (lane k : Nat) : Nat :=
  match exec c (running group0) with
  | .next t => match tget t.cores.groups 64 with
    | some g => (rd g lane k).toNat
    | none => 0
  | _ => 0

/-- The group issues (R223). -/
theorem test_issue :
    (issue (running group0) sg).isSome ∧
    memOk (running group0) := by decide +kernel

/-- One value for each active lane (R242, R238). -/
theorem test_lane_instructions :
    (reg (.int sg .mul 5 1 1 0) 1 5 = 81 ∧ reg (.int sg .mul 5 1 1 0) 2 5 = 0) ∧
    reg (.int sg .sub 5 4 1 0) 0 5 = 0xFFFFFFFA ∧
    reg (.fp32 sg .lt 5 1 2 0) 0 5 = reg (.fp32 sg .gt 5 2 1 0) 0 5 ∧
    reg (.packed sg false .max 5 1 1 0) 0 5 = 7 ∧
    reg (.conv sg .int32 .fp32 5 1 none false false) 1 5 = 0x41100000 ∧
    convForm .int32 .fp32 ∧
    (reg (.sr sg .blockX 5) 0 5 = 3 ∧ reg (.sr sg .lane 5) 1 5 = 1 ∧ reg (.sr sg .core 5) 0 5 = 1 ∧ reg (.sr sg .rank 5) 0 5 = 1) ∧
    (reg (.sr sg .arg 6) 0 6 = 0x55 ∧ reg (.sr sg .time 6) 0 6 = 1 ∧ reg (.sr sg .closing 5) 0 5 = 0) ∧
    (after (.sr sg .tile 5) (running group0) fun t => t.free == 32 + (running group0).free) ∧
    reg (.int sg .add 64 1 1 0) 0 64 = 0 ∧
    reg (.lane sg .ballot 5 1 1) 0 5 = 3 ∧
    (after (.trans sg .rcp 5 1) (running group0) fun t => (tget t.cores.groups 64).any fun g => g.exited == 0xFFFFFFFC) := by decide +kernel

/-- An indirect branch to two addresses splits the group (R227). -/
theorem test_branch :
    (after (.branch sg (.indirect 2)) (running group0) fun t => (tget t.cores.groups 64).any fun g =>
  g.subs.any (fun u => u.mask == 2 && u.pc == 0x5008) && g.subs.any fun u => u.mask == 1 && u.pc == 0x5000) := by decide +kernel

/-- A JOIN waits for a lane that has not arrived, and merges with those that have (R228). -/
theorem test_join :
    (after (.join sg 3) (running { group0 with subs := [sub 1 0x100 .ready, sub 2 0x80 .ready] }) fun t => (tget t.cores.groups 64).any fun g =>
  g.subs.any (fun u => u.mask == 1 && u.wait == .join 3) && g.subs.length == 2) ∧
    (after (.join sg 3) (running { group0 with subs := [sub 1 0x100 .ready, sub 2 0x100 (.join 3)] }) fun t => (tget t.cores.groups 64).any fun g =>
  (g.subs.map (·.mask)) == [3]) := by decide +kernel

/-- The device with the block in a fragment group of pass 3. -/
def fragment : State := { running group0 with cores := { coresWith group0 with blocks := [(10, { block0 with frag := some (3, 0, 0) })] } }

/-- The hypotheses of the fragment clauses are met (R381, R382). -/
theorem test_fragment_block :
    ((issue fragment sg).any fun i => i.b.frag == some (3, 0, 0)) := by decide +kernel

/-- In a fragment group a barrier holds nothing (R382). -/
theorem test_bar_fragment :
    (after (.bar sg) { fragment with cores := { fragment.cores with groups := [(64, { group0 with subs := [sub 1 0x100 .ready, sub 2 0x80 .ready] })] } } fun t =>
  (tget t.cores.groups 64).any fun g => g.subs.all fun u => u.wait == .ready) := by decide +kernel

/-- A release waits for earlier accesses of its lanes, then for the clean of its slot (R263, R268). -/
theorem test_release_orders :
    (storeOrd (.rel .device) ∧ loadOrd (.acq .system)) ∧
    (after (.lmAccess sg (.store 4 2 1 (.rel .device))) (dirtied (running group0)) fun t => t.fab.cleans == [0] &&
  (tget t.cores.groups 64).any fun g => g.subs.all (·.wait == .clean)) ∧
    (after (.lmAccess sg (.store 4 2 1 (.rel .device))) (running { group0 with subs := [sub 3 0x100 .cleaned] }) fun t => mnat t.cores.lm 0x85000 4 == 7) := by decide +kernel

/-- Loads, stores and atomics of local memory, at core 1's 0x5000 and 0x5008 (R245 to R252). -/
theorem test_local :
    (reg (.lmAccess sg (.load 4 5 2 .rlx)) 0 5 = 0x11 ∧ reg (.lmAccess sg (.load 4 5 2 .rlx)) 1 5 = 0x22) ∧
    (lmOk 0x5000 4 ∧ lmOk 0x5008 4 ∧ sizeOk 4) ∧
    (after (.lmAccess sg (.store 4 2 1 .rlx)) (running group0) fun t => mnat t.cores.lm 0x85000 4 == 7 && mnat t.cores.lm 0x85008 4 == 9) ∧
    atForm .add .u32 ∧
    (after (.lmAccess sg (.atom .add .u32 5 2 1 0 .rlx)) (running group0) fun t => mnat t.cores.lm 0x85000 4 == 0x18 &&
  (tget t.cores.groups 64).any fun g => rd g 0 5 == 0x11 && rd g 1 5 == 0x22) := by decide +kernel

/-- Registers with a peer's rank 1 in register 4 and offset 4 in register 6. -/
def group1 : Group := { group0 with regs := [(1 * 32, 7), (1 * 32 + 1, 7), (4 * 32, 1), (4 * 32 + 1, 1), (6 * 32, 4), (6 * 32 + 1, 4)] }

/-- Accesses to the local memory of the cluster's block of rank 1, 8 KiB up on core 2 (R249 to R256). -/
theorem test_peer :
    ((issue (running group1) sg).any fun i => i.lanes.all fun l => peerOk i 4 4 6 l && (peerKey (running group1) i 4 6 l).isSome) ∧
    (after (.ldc sg ⟨4, .rlx⟩ 5 4 6) (running group1) fun t => (tget t.cores.groups 64).any fun g => rd g 0 5 == 0x33 && rd g 1 5 == 0x33) ∧
    (after (.stc sg ⟨4, .rlx⟩ 1 4 6) (running group1) fun t => mnat t.cores.lm 0x102004 4 == 7) ∧
    (after (.atc sg ⟨.add, .rlx⟩ .u32 5 1 0 4 6) (running group1) fun t => mnat t.cores.lm 0x102004 4 == 0x33 + 14) := by decide +kernel

/-- Lane 0 alone, with address 0x2000 in registers 2 and 3 and 7 in register 1. -/
def group2 : Group := { group0 with regs := [(1 * 32, 7), (2 * 32, 0x2000)], exited := 0xFFFFFFFE, subs := [sub 1 0x100 .ready] }

/-- The device with that group and 0x11 at 0x2000 of memory. -/
def device : State := { running group2 with fab := { Fabric.reset with mem := holds 0x2000 4 0x11 } }

/-- The lines of a late store wait in flight, with their lanes (R249, R266, R269). -/
theorem test_device_late :
    (after (.deviceStore sg 4 2 1 ⟨.rlx, true⟩) device fun t => mnat t.fab.mem 0x2000 4 == 0x11 && t.fab.txns.any fun e =>
  e.2.addr == 0x2000 && e.2.data == [7, 0, 0, 0] && e.2.lanes == some { block := 10, group := 64, mask := 1 }) := by decide +kernel

/-- Loads, stores and atomics through translation (R246, R263, R254). -/
theorem test_device :
    (loadOrd .rlx ∧ storeOrd .rlx ∧ atHost .add .u32) ∧
    ((issue device sg).any fun i => i.lanes.all fun l => devAddr i 2 l == 0x2000) ∧
    (after (.deviceLoad sg 4 5 2 .rlx) device fun t => (tget t.cores.groups 64).any fun g => rd g 0 5 == 0x11) ∧
    (after (.deviceStore sg 4 2 1 ⟨.rlx, false⟩) device fun t => mnat t.fab.mem 0x2000 4 == 7) ∧
    (after (.atom sg .add .u32 5 2 1 0 .rlx) device fun t => mnat t.fab.mem 0x2000 4 == 0x18 && (tget t.cores.groups 64).any fun g => rd g 0 5 == 0x11) := by decide +kernel

/-- An outbound channel 3 of core 1 to channel 4 of core 2, with credits, and a message in its inbound channel 3. -/
def channels : State :=
  { running group0 with cores := { coresWith group0 with outs := [(19, { run := 5, core := 2, chan := 4, credits := 2 })], inbox := [(19, [0xAB])] } }

/-- SEND takes a credit, RECV a message, CHSTAT reads both counts (R257 to R261). -/
theorem test_channels :
    chanScope none ∧
    (after (.msgSend sg 3 (.regs 1) none) channels fun t => (tget t.cores.outs 19).any (fun o => o.credits == 1) && t.cores.sent.map (·.1) == [36]) ∧
    (after (.msgSend sg 3 (.mem 1) none) { channels with cores := { channels.cores with groups := [(64, { group0 with regs := [(1 * 32, 0x5000)] })] } } fun t =>
  t.cores.sent.map (·.2) == [0x22 <<< 64 + 0x11]) ∧
    (after (.msgRecv sg 3 (.regs 1) none) channels fun t => (tget t.cores.inbox 19 == some []) && (tget t.cores.groups 64).any fun g => rd g 0 1 == 0xAB) ∧
    (after (.msgRecv sg 3 (.mem 1) none) { channels with cores := { channels.cores with groups := [(64, { group0 with regs := [(1 * 32, 0x5000)] })] } } fun t =>
  mnat t.cores.lm 0x85000 64 == 0xAB) ∧
    (after (.chstat sg 3 5 6) channels fun t => (tget t.cores.groups 64).any fun g => rd g 0 6 == 2 && rd g 0 5 == 1) := by decide +kernel

/-- An MLOADB at the head of engine 0's queue that waits for two messages of channel 3 (R297). -/
def fromChannel : EOp := { kind := .mloadb, ctrl := 0xC000000100000000, a := 3, b := 0, group := 65, lane := 0, lines := [] }

/-- An MSTORE there that sends on channel 3. -/
def toChannel : EOp := { kind := .mstore, ctrl := 0xC000000000000003, a := 0, b := 0, group := 65, lane := 0, lines := [] }

/-- The channels with an engine's claim of one, and the token at the engine. -/
def contended (o : EOp) (key : Nat) : State :=
  { channels with eng := { State.reset.eng with eng := [(4, { Engine.reset with holder := some 10, queue := [o] })] },
                  cores := { channels.cores with tokens := [(key, 4)] } }

/-- Where the token has an engine before the quarter, the engine takes the message or the credit (R193, R297). -/
theorem test_channel_token :
    granted (contended fromChannel (inToken 1 3)) (inToken 1 3) (0 :: msgClaims (contended fromChannel (inToken 1 3)) 1 3) = some 4 ∧
    granted (contended toChannel (outToken 1 3)) (outToken 1 3) (0 :: creditClaims (contended toChannel (outToken 1 3)) 1 3) = some 4 ∧
    (after (.msgRecv sg 3 (.regs 1) none) (contended fromChannel (inToken 1 3)) fun t => (engOf t 1 0).inA.length == 64 && tget t.cores.tokens (inToken 1 3) == some 5) ∧
    (after (.msgSend sg 3 (.regs 1) none) (contended toChannel (outToken 1 3)) fun t => (engOf t 1 0).outN == 1 && t.cores.sent.length == 1) := by decide +kernel

/-- Else the quarter goes on, and the token passes to the next (R193). -/
theorem test_channel_quarter :
    granted channels (outToken 1 3) [0] = some 0 ∧
    (after (.msgSend sg 3 (.regs 1) none) channels fun t => tget t.cores.tokens (outToken 1 3) == some 1) ∧
    (after (.msgSend sg 3 (.regs 1) (some .device)) (dirtied channels) fun t => t.fab.cleans == [0] && t.cores.sent.isEmpty) := by decide +kernel

/-- A message arrives and a credit returns (R258, R259). -/
theorem test_messages :
    (after (.messageArrive 2 4) { channels with cores := { channels.cores with sent := [(36, 5)] } } fun t => tget t.cores.inbox 36 == some [5] && t.cores.sent.isEmpty) ∧
    (after (.creditReturn 1 3) { channels with cores := { channels.cores with creditsBack := [19] } } fun t => (tget t.cores.outs 19).any fun o => o.credits == 3) := by decide +kernel

/-- BAR and CBAR hold until the last arrives (R240). -/
theorem test_barriers :
    (after (.bar sg) (running { group0 with subs := [sub 1 0x100 .ready, sub 2 0x80 .bar] }) fun t => (tget t.cores.groups 64).any fun g =>
  g.subs.all fun u => u.wait == .ready) ∧
    (after (.bar sg) (running { group0 with subs := [sub 1 0x100 .ready, sub 2 0x80 .ready] }) fun t => (tget t.cores.groups 64).any fun g =>
  g.subs.any fun u => u.wait == .bar && u.mask == 1) ∧
    (after (.cbar sg) (running { group0 with subs := [sub 1 0x100 .ready, sub 2 0x80 .cbar] }) fun t => (tget t.cores.groups 64).any fun g =>
  g.subs.all fun u => u.wait == .ready) := by decide +kernel

/-- FENCE of DEVICE scope starts the clean of its slot and waits for its end; BLOCK scope needs none (R268). -/
theorem test_fence :
    (after (.fence sg .device) (dirtied (running group0)) fun t => mget t.fab.mem 0x80 == 5 && t.fab.cleans == [0] && !hasDirty t 0 &&
  (tget t.cores.groups 64).any fun g => g.subs.all (·.wait == .clean)) ∧
    (after (.fence sg .device) (running { group0 with subs := [sub 3 0x100 .cleaned] }) fun t => (tget t.cores.groups 64).any fun g =>
  g.subs.all fun u => u.wait == .ready) ∧
    (after (.fence sg .block) (dirtied (running group0)) fun t => hasDirty t 0 && (tget t.cores.groups 64).any fun g => g.subs.all (·.wait == .ready)) := by decide +kernel

/-- A store of the group's lanes in flight. -/
def storing : State :=
  { running group0 with fab := { Fabric.reset with txns := [(5, { flight .write .mem 0 with lanes := some { block := 10, group := 64, mask := 1 } })] } }

/-- A FENCE waits for its lanes' accesses (R268). -/
theorem test_fence_waits :
    ((issue storing sg).any fun i => !lanesDone storing i) ∧
    (after (.fence sg .block) storing fun t => t.cores == storing.cores) := by decide +kernel

/-- CONT saves the record at its address, and has no effect in a node's run (R152, R241). -/
theorem test_cont :
    devAddr ((issue device sg).getD { key := 0, g := group0, sub := sub 0 0 .ready, rest := [], b := block0, cleaned := false }) 2 0 % 64 = 0 ∧
    (after (.cont sg 2) device fun t => (tget t.cores.runs 5).any fun r => r.cont == some 0x11) ∧
    (after (.cont sg 2) { device with cores := { device.cores with runs := [(5, { run0 with node := some 0 })] } } fun t =>
  (tget t.cores.runs 5).any fun r => r.cont == none) := by decide +kernel

/-- EXIT and an undefined encoding end their lanes, the latter counted (R226, R239). -/
theorem test_exit :
    (after (.exit sg) (running group0) fun t => (tget t.cores.groups 64).any fun g => g.exited == 0xFFFFFFFF && t.cores.undef == 0) ∧
    (after (.undefinedInstruction sg) (running group0) fun t => (tget t.cores.groups 64).any fun g => g.exited == 0xFFFFFFFF && t.cores.undef == 1) := by decide +kernel

/-! ## Blocks, tensor engines and Bobbins -/

/-- The run with nothing placed, and no block. -/
def placing : State := { running group0 with cores := { Cores.reset with runs := [(5, { run0 with next := 0 })], nextId := 12 } }

/-- A cluster of two blocks goes to cores 0 and 1 (R234, R235). -/
theorem test_place :
    mayStart placing ∧
    pickCores placing { run0 with next := 0 } (eligibleCores placing 0 false) 2 = some [0, 1] ∧
    ([0, 1].all fun c => (domOf placing (domQuad (c / 4))).st == .on && !domDown placing (domQuad (c / 4))) ∧
    (after (.blockClusterPlace 5) placing fun t => (t.cores.blocks.map fun e => (e.1, e.2.core, e.2.bx)) == [(12, 0, 0), (13, 1, 1)]) := by decide +kernel

/-- A core-grid run of one record, for core 1, with outbound channel 0 to channel 0 of the core of rank 0. -/
def gridRun : Run := { run0 with mode1 := true, next := 0, total := 1, grid := [(1, BitVec.ofNat 512 (0x200 + 0x66 * 2 ^ 64))] }

/-- Every block of a core grid is placed at once (R236). -/
theorem test_place_grid :
    (gridRun.grid.map (·.1)).Nodup ∧
    (gridRun.grid.all fun e => hasRoom placing gridRun e.1) ∧
    (after (.blockClusterPlace 5) { placing with cores := { Cores.reset with runs := [(5, gridRun)] } } fun t =>
  (t.cores.blocks.map fun e => (e.2.core, e.2.entry, e.2.arg)) == [(1, 0x200, 0x66)]) := by decide +kernel

/-- One block left, its lanes exited. -/
def ending (c : Option W512) : State :=
  { running group0 with cores := { Cores.reset with groups := [(64, { group0 with exited := 0xFFFFFFFF, subs := [] })], blocks := [(10, block0)],
                                                    runs := [(5, { run0 with cont := c })] } }

/-- A core grid of which a core is no longer eligible is refused (R236, R237). -/
theorem test_place_grid_gone :
    (250 ∈ eligibleCores placing 0 false) = false ∧
    (after (.blockClusterPlace 5) { ending none with cores := { Cores.reset with runs := [(5, { gridRun with grid := [(250, 0x200)] })] } } fun t =>
  t.cores.runs.isEmpty && stage0 t == some (.finished 0x11)) := by decide +kernel

/-- The last block ends its run: finished with OK, or suspended with its record (R226, R237). -/
theorem test_block_end :
    blockDone (ending none) 10 ∧
    (after (.blockEnd 10) (ending none) fun t => t.cores.runs.isEmpty && t.cores.blocks.isEmpty && (tget t.obj.queues 0).any fun x =>
  (recOf x 0).any fun d => d.stage == .finished 0) ∧
    (after (.blockEnd 10) (ending (some 0x10)) fun t => (tget t.obj.queues 0).any fun x => (recOf x 0).any fun d => d.stage == .suspended && d.pay == 0x10) := by decide +kernel

/-- MCLAIM takes free engines, waits for held ones, and is refused for others of its own (R272). -/
theorem test_claim :
    claimFree (running group0) 1 10 3 ∧
    (after (.mclaim sg 3) (running group0) fun t => (engOf t 1 0).holder == some 10 && (engOf t 1 1).holder == some 10 && (engOf t 1 2).holder == none) ∧
    (after (.mclaim sg 3) { running group0 with eng := { State.reset.eng with eng := [(4, { Engine.reset with holder := some 99 })] } } fun t =>
  (tget t.cores.groups 64).any fun g => g.subs.any fun u => u.wait == .mclaim 3) := by decide +kernel

/-- The block holds engine 0, with a queue. -/
def claimed (q : List EOp) : State :=
  { running group0 with eng := { State.reset.eng with eng := [(4, { Engine.reset with holder := some 10, queue := q })] } }

/-- A queued instruction of the group. -/
def eop0 : EOp := { kind := .mloadb, ctrl := 0, a := 0, b := 0, group := 64, lane := 0, lines := [] }

/-- A further MCLAIM of engines it holds passes; of another engine it is refused (R272). -/
theorem test_claim_held :
    (heldBy (claimed []) 1 10 = [0] ∧ claimants (claimed []) 1 = []) ∧
    (after (.mclaim sg 1) (claimed []) fun t => t.eng == (claimed []).eng) ∧
    (after (.mclaim sg 3) (claimed []) fun t => t.eng.claimBad == 1 && (tget t.cores.groups 64).any fun g => g.exited == 0xFFFFFFFF) := by decide +kernel

/-- MREL releases an engine whose queue is empty, or later (R273). -/
theorem test_mrel :
    (after (.mrel sg 1) (claimed []) fun t => (engOf t 1 0).holder == none) ∧
    (after (.mrel sg 1) (claimed [eop0]) fun t => (engOf t 1 0).releasing == some 1 && (engOf t 1 0).holder == some 10) := by decide +kernel

/-- MWAIT waits for the group's instructions (R290). -/
theorem test_mwait :
    (after (.mwait sg 1) (claimed []) fun t => (tget t.cores.groups 64).any fun g => g.subs.all fun u => u.wait == .ready) ∧
    (after (.mwait sg 1) (claimed [eop0]) fun t => (tget t.cores.groups 64).any fun g => g.subs.any fun u => u.wait == .mwait [(0, 1)]) := by decide +kernel

/-- A matrix instruction is queued by the first subgroup to issue it and discarded for the others (R275, R296). -/
theorem test_matrix_queued :
    (ctrlOk .mma 0 ∧ ctrlOk .mloadb 0 ∧ ctrlOk .mldacc 0 ∧ ctrlOk .mstore 0) ∧
    (after (.mloadb sg 0 8 10) (claimed []) fun t => (engOf t 1 0).queue.length == 1 && (tget t.cores.groups 64).any fun g => g.g == 1) ∧
    (after (.mloadb sg 0 8 10) { claimed [] with cores := { (claimed []).cores with groups := [(64, { group0 with g := 4 })] } } fun t => t.eng.discarded == 1) ∧
    (after (.mldacc sg 0 8) (claimed []) fun t => (engOf t 1 0).queue.length == 1) ∧
    (after (.mstore sg 0 8) (claimed []) fun t => (engOf t 1 0).queue.length == 1) ∧
    (after (.mma sg 0 8 10 12) (claimed []) fun t => (engOf t 1 0).queue.length == 1) := by decide +kernel

/-- The block holds engine 0, and an MLOADB's registers name device memory. -/
def loadB (a : W32) : State :=
  { claimed [] with cores := { (claimed []).cores with groups := [(64, { group0 with regs := [(9 * 32, 0x40000000), (10 * 32, a)] })] } }

/-- An engine with two instructions, to be released after some of them. -/
def releasingEng (n : Nat) : Engine := { Engine.reset with holder := some 10, queue := [{ eop0 with kind := .mldacc }, eop0], releasing := some n }

/-- The device with it. -/
def releasing (n : Nat) : State := { claimed [] with eng := { State.reset.eng with eng := [(4, releasingEng n)] } }

/-- An MLOADB of device memory reads its lines as it is queued, or waits (R287). -/
theorem test_mloadb_device :
    (after (.mloadb sg 0 8 10) (loadB 0x2000) fun t => (engOf t 1 0).queue.map (·.lines.length) == [128]) ∧
    (after (.mloadb sg 0 8 10) (loadB 0x40000000) fun t => (engOf t 1 0).queue.isEmpty && t.mmu.faults.length == 1) := by decide +kernel

/-- The oldest instruction executes, or waits for its channel; a release ends after those queued before it (R273, R276, R297). -/
theorem test_matrix_complete :
    (after (.matrixComplete 1 0 .none) (claimed [{ eop0 with kind := .mldacc, ctrl := 0 }]) fun t => (engOf t 1 0).queue.isEmpty) ∧
    (after (.matrixComplete 1 0 .none) (claimed [fromChannel]) fun t => (engOf t 1 0).queue.length == 1) ∧
    (after (.matrixComplete 1 0 .none) (releasing 2) fun t => (engOf t 1 0).queue.length == 1 && (engOf t 1 0).releasing == some 1) ∧
    (after (.matrixComplete 1 0 .none) (releasing 1) fun t => (engOf t 1 0).holder == none && (engOf t 1 0).queue.isEmpty) := by decide +kernel

/-- A Bobbin command that the group has issued. -/
def bobCmd (w : Nat) (st : BobStage) : BobCmd :=
  { b := 0, quad := 0, group := 64, block := 10, ctx := 0, slot := 0, cmd := BitVec.ofNat 512 w, stage := st, steps := 32, need := 0 }

/-- The device with a command at the front of engine 0 of cluster 0, and bytes in memory. -/
def bobbed (c : BobCmd) (m : Mem) : State :=
  { running { group0 with bobOut := 1 } with bob := { State.reset.bob with eng := [(0, { Bobbin.reset with cmds := [c] })] },
                                             fab := { Fabric.reset with mem := m } }

/-- The common fields: core 1, local address 0x6000, room for 8 records, the record at 0x7000. -/
def bobFields (op : Nat) : Nat := op + 2 ^ 20 + 0x6000 * 2 ^ 32 + 8 * 2 ^ 64 + 0x7000 * 2 ^ 96

/-- BISSUE queues the 64 B of local memory at its address, and BWAIT waits for the count (R330, R332). -/
theorem test_bissue :
    (after (.bissue sg 0 2) (running { group0 with regs := [(2 * 32, 0x5000)] }) fun t => ((bobOf t 0).cmds.map fun c => (c.quad, c.group, c.cmd)) ==
  [(0, 64, (0x22 <<< 64 + 0x11 : W512))] && (tget t.cores.groups 64).any fun g => g.bobOut == 1) ∧
    (after (.bwait sg 0) (running group0) fun t => (tget t.cores.groups 64).any fun g => g.subs.all fun u => u.wait == .ready) ∧
    (after (.bwait sg 0) (running { group0 with bobOut := 1 }) fun t => (tget t.cores.groups 64).any fun g => g.subs.all fun u => u.wait == .bwait 0) := by decide +kernel

/-- SETOP: A ∩ B of [1, 3, 5, 7] and [3, 4, 7]. -/
def setopCmd : Nat := bobFields 2 + 0x2000 * 2 ^ 128 + 0x3000 * 2 ^ 192 + 4 * 2 ^ 256 + 3 * 2 ^ 288

/-- The two lists. -/
def setopMem : Mem := mwrite (holds 0x2000 16 (1 + 3 * 2 ^ 32 + 5 * 2 ^ 64 + 7 * 2 ^ 96)) 0x3000 (toLE 12 (3 + 4 * 2 ^ 32 + 7 * 2 ^ 64))

/-- The keys of the set are delivered ascending (R342). -/
theorem test_setop :
    headCmd (bobOf (bobbed (bobCmd setopCmd .active) setopMem) 0) 0 = some (bobCmd setopCmd .active) ∧
    (arrayFrom (bobbed (bobCmd setopCmd .active) setopMem) (bobCmd setopCmd .active) 0x2000 4 0 4).2 = some [1, 3, 5, 7] ∧
    (after (.setop 0 0 0) (bobbed (bobCmd setopCmd .active) setopMem) fun t => mnat t.cores.lm 0x86000 12 == 3 + 7 * 2 ^ 32 &&
  (headCmd (bobOf t 0) 0).any fun c => c.stage == .delivered (compRec 0 2 4 3) && c.need == 4) := by decide +kernel

/-- A list that breaks order ends the command with UNSORTED at its prefix (R343). -/
theorem test_setop_unsorted :
    setResult 1 8 [1, 5, 4] [2, 3] = ([1, 2, 3, 5], 2, 2, 2) ∧
    setResult 0 1 [1, 3, 5, 7] [3, 4, 7] = ([3], 1, 2, 1) := by decide +kernel

/-- EXPAND of a source without neighbours delivers no record (R339 to R341). -/
theorem test_expand :
    (after (.expand 0 0 0) (bobbed (bobCmd (bobFields 1 + 0x3000 * 2 ^ 128 + 0x4000 * 2 ^ 192 + 0x2000 * 2 ^ 256 + 1 * 2 ^ 320) .active) []) fun t =>
  (headCmd (bobOf t 0) 0).any fun c => c.stage == .delivered (compRec 0 0 1 0)) := by decide +kernel

/-- PROBE of a key in the first bucket (R346, R347). -/
theorem test_probe :
    (after (.probe 0 0 0) (bobbed (bobCmd (bobFields 3 + 0x2000 * 2 ^ 128 + 0xFFFF * 2 ^ 192 + 0x3000 * 2 ^ 256 + 1 * 2 ^ 320) .active)
    (mwrite (holds 0x2000 16 (5 + 77 * 2 ^ 64)) 0x3000 (toLE 4 5))) fun t =>
  mnat t.cores.lm 0x86000 16 == 1 + 77 * 2 ^ 64) := by decide +kernel

/-- RAYQ of a ray whose TMIN is no number finds nothing (R351). -/
theorem test_rayq :
    (after (.rayq 0 0 0) { bobbed (bobCmd (bobFields 4 + 0x2000 * 2 ^ 128 + 0x5000 * 2 ^ 192 + 1 * 2 ^ 224) .active) [] with
    cores := { (coresWith group0) with lm := holds 0x85000 32 (0x7FC00000 * 2 ^ 96) } } fun t =>
  (headCmd (bobOf t 0) 0).any fun c => c.stage != .active) := by decide +kernel

/-- The record is written and the group counts down (R332, R338). -/
theorem test_bobbin_complete :
    lmOk 0x7000 16 ∧
    (after (.bobbinComplete 0 0 0) (bobbed (bobCmd (bobFields 2) (.delivered (compRec 0 2 4 3))) []) fun t =>
  mnat t.cores.lm 0x87000 16 == 2 * 2 ^ 32 + 4 * 2 ^ 64 + 3 * 2 ^ 96 && (bobOf t 0).cmds.isEmpty && (tget t.cores.groups 64).any fun g => g.bobOut == 0) := by decide +kernel

/-- Not before the last step (R356). -/
theorem test_bobbin_complete_waits :
    (stepsLeft { bobCmd (bobFields 2) (.delivered 0) with need := 1 } = 1 ∧ stepsLeft (bobCmd (bobFields 2) (.delivered 0)) = 0) := by decide +kernel

/-- A command of which a number of steps have been taken, of 32 and some more. -/
def atStep (w : Nat) (st : BobStage) (n need : Nat) : BobCmd := { bobCmd w st with steps := n, need := need }

/-- A SETOP that delivers on channel 4 of core 1 (R336). -/
def onChannel : Nat := 2 + 2 ^ 20 + 3 * 2 ^ 17 + 4 * 2 ^ 32

/-- A queued command is checked, an active and a delivered one step, and messages leave with the last steps (R328, R335, R336, R356). -/
theorem test_bobbin_step :
    firstStep (bobbed (atStep setopCmd .queued 0 0) []) 0 (atStep setopCmd .queued 0 0) = some .active ∧
    (domOf (bobbed (bobCmd setopCmd .queued) []) (domCluster 0)).st = .on ∧
    (after (.bobbinStep 0 0 ⟨[], 0⟩ .none) (bobbed (atStep setopCmd .queued 0 0) []) fun t =>
  (headCmd (bobOf t 0) 0).any (fun c => c.stage == .active && c.steps == 1) && (bobOf t 0).token == 1) ∧
    (after (.bobbinStep 0 0 ⟨[], 0⟩ .none) (bobbed (atStep setopCmd .active 1 0) []) fun t => (headCmd (bobOf t 0) 0).any fun c => c.steps == 2) ∧
    (after (.bobbinStep 0 0 ⟨[], 0⟩ .none) (bobbed (atStep setopCmd (.delivered 5) 33 2) []) fun t => (headCmd (bobOf t 0) 0).any fun c => c.steps == 34) ∧
    (after (.bobbinStep 0 0 ⟨[], 0⟩ .none) (bobbed (atStep onChannel (.sending [9] 5) 33 2) []) fun t =>
  (headCmd (bobOf t 0) 0).any (fun c => c.stage == .delivered 5 && c.steps == 34) && tget t.cores.inbox 20 == some [9]) ∧
    (after (.bobbinStep 0 0 ⟨[], 0⟩ .none) (bobbed (atStep onChannel (.sending [9] 5) 32 2) []) fun t =>
  (headCmd (bobOf t 0) 0).any (fun c => c.stage == .sending [9] 5 && c.steps == 33) && tgetD t.cores.inbox 20 [] == []) := by decide +kernel

/-- A quad whose command waits takes no step, nor one whose set-up is done before its operation (R328, R356). -/
theorem test_bobbin_waits :
    steppers (bobbed (atStep setopCmd .queued 0 0) []) 0 0 [0] = [] ∧
    steppers (bobbed (bobCmd setopCmd .active) []) 0 0 [] = [] ∧
    (after (.bobbinStep 0 0 ⟨[0], 0⟩ .none) (bobbed (atStep setopCmd .queued 0 0) []) fun t => (headCmd (bobOf t 0) 0).any fun c => c.steps == 0) := by decide +kernel

/-! ## Rendering -/

/-- RENDER_PASS of one tile without attachments, its parameter block at 0x4000. -/
def passWord : W512 := BitVec.ofNat 512 (0x20 + 0x4000 * 2 ^ 64 + 1 * 2 ^ 128 + 1 * 2 ^ 144)

/-- The block: one primitive at 0x5000, one state at 0x6000, a bin area at 0x7000 of 2 KiB, 32 × 32 pixels, 32 registers. -/
def passBlock (area : Nat) : Nat :=
  0x5000 * 2 ^ 256 + 1 * 2 ^ 320 + 1 * 2 ^ 352 + 0x6000 * 2 ^ 384 + area * 2 ^ 512 + 0x800 * 2 ^ 576 + 32 * 2 ^ 640 + 32 * 2 ^ 656 +
  1 * 2 ^ 704 + 32 * 2 ^ 736

/-- A triangle (0, 0), (16, 0), (0, 16) with 1 ÷ w of 1, or of no number. -/
def triangle (iw : Nat) : Nat :=
  0x3F800000 * 2 ^ 96 + 0x41800000 * 2 ^ 128 + 0x3F800000 * 2 ^ 224 + 0x41800000 * 2 ^ 288 + iw * 2 ^ 352

/-- A state with the shader at 0x100, the scissor of 32 × 32 pixels and sample 0 enabled. -/
def state0 : Nat := 0x100 * 2 ^ 448 + 32 * 2 ^ 432 + 32 * 2 ^ 416 + 2 ^ 16

/-- Memory with the block, the triangle and the state. -/
def passMem (area iw : Nat) : Mem :=
  mwrite (mwrite (holds 0x4000 128 (passBlock area)) 0x5000 (toLE 64 (triangle iw))) 0x6000 (toLE 64 state0)

/-- The device with the pass armed. -/
def passing (area : Nat) : State :=
  { withQ base { slotQ (armedDesc 0 passWord) with cls := 1 } with fab := { Fabric.reset with mem := passMem area 0x3F800000 } }

/-- A pass begins with empty lists, and a misaligned bin area is refused (R362, R366, R369). -/
theorem test_render_pass :
    mayGo (passing 0x7000) 0 0 none 0x20 ∧
    (after (.renderPass work0) (passing 0x7000) fun t => (tget t.ras.passes 0).any (fun y => y.stage == .binning && y.clusters == [0]) &&
  mnat t.fab.mem 0x7000 8 == 0xFFFFFFFF) ∧
    (after (.renderPass work0) (passing 0x7001) fun t => (tget t.obj.queues 0).any fun x => x.haltStatus == 0x11) := by decide +kernel

/-- The pass under way. -/
def pass0 (st : PassStage) (tiles : List Tile) : Pass :=
  { q := 0, i := 0, node := none, slot := 0, ctx := 0, rt := false, pay := passWord, par := toLE 128 (passBlock 0x7000), clusters := [0],
    stage := st, binners := [{ next := 0, failed := none, lists := [] }], nextChunk := 0, overflow := 1, nextTile := tiles.length, stored := 0,
    tiles := tiles }

/-- The device with it. -/
def rendering (p : Pass) (iw : Nat) : State :=
  { withQ base { slotQ { armedDesc 0 passWord with stage := .started } with cls := 1 } with
      ras := { State.reset.ras with passes := [(7, p)] }, fab := { Fabric.reset with mem := passMem 0x7000 iw },
      cores := { Cores.reset with nextId := 12 } }

/-- A kept primitive enters the list of its tile, an INVALID one is counted (R369, R370). -/
theorem test_bin :
    primVerdict (pass0 .binning []) (BitVec.ofNat 512 (triangle 0x3F800000)) (BitVec.ofNat 512 state0) = .keep ∧
    primVerdict (pass0 .binning []) (BitVec.ofNat 512 (triangle 0x7FC00000)) (BitVec.ofNat 512 state0) = .invalid ∧
    (after (.primitiveBin 7 0 quiet .none) (rendering (pass0 .binning []) 0x3F800000) fun t => mnat t.fab.mem 0x7000 8 == 2 ^ 32 &&
  (tget t.ras.passes 7).any fun y => y.nextChunk == 1 && y.stage == .tiles) ∧
    (after (.primitiveBin 7 0 quiet .none) (rendering (pass0 .binning []) 0x7FC00000) fun t => t.ras.invalid == 1 &&
  (tget t.ras.passes 7).any fun y => y.nextChunk == 0) := by decide +kernel

/-- Tile 0 on core 0. -/
def tile0 (st : TileStage) (l : Option (List Nat)) (run : List Batch) : Tile :=
  { ord := 0, core := 0, lmBase := 0, stage := st, list := l, nextPrim := 0, nextBlk := 0, waiting := [], running := run }

/-- A tile is placed, loaded and stored; the last stored one ends the pass (R362, R373, R374). -/
theorem test_tile :
    (eligibleCores base 0 false).find? (tileRoom (rendering (pass0 .tiles []) 0) (pass0 .tiles [])) = some 0 ∧
    (after (.tilePlace 7) (rendering (pass0 .tiles []) 0) fun t => (tget t.ras.passes 7).any fun y => y.nextTile == 1 && (y.tiles.map (·.core)) == [0]) ∧
    (after (.tileLoadDone 7 0) (rendering (pass0 .tiles [tile0 .loading none []]) 0) fun t => (tget t.ras.passes 7).any fun y =>
  y.tiles == [tile0 .shading none []]) ∧
    (after (.tileStoreDone 7 0) (rendering (pass0 .tiles [tile0 .storing (some []) []]) 0) fun t => t.ras.passes.isEmpty && (tget t.obj.queues 0).any fun x =>
  (recOf x 0).any fun d => d.stage == .finished 0) := by decide +kernel

/-- The first block that the triangle covers is dispatched, and an empty list settles the tile (R379, R380). -/
theorem test_batch :
    (after (.batchDispatch 7 ⟨0, .none⟩ quiet) (rendering (pass0 .tiles [tile0 .shading (some [0]) []]) 0x3F800000) fun t =>
  (tget t.ras.passes 7).any fun y => y.tiles.any fun z => (z.running.map fun b => (b.prim, b.blk)) == [(0, 0)]) ∧
    (after (.batchDispatch 7 ⟨0, .none⟩ quiet) (rendering (pass0 .tiles [tile0 .shading (some []) []]) 0) fun t =>
  (tget t.ras.passes 7).any fun y => y.tiles.any fun z => z.stage == .storing) := by decide +kernel

/-- A batch of block 0 that has been dispatched, its first pixel quad covered. -/
def batch0 : Batch :=
  { prim := 0, blk := 0, rec' := BitVec.ofNat 512 (triangle 0x3F800000), st := BitVec.ofNat 512 state0, cover := 1 :: List.replicate 31 0,
    started := false }

/-- Its fragment group starts at the shader, its uncovered quads exited (R381). -/
theorem test_fragment :
    lmFind (rendering (pass0 .tiles [tile0 .shading (some [0]) [batch0]]) 0) 0 0 0 = some 0 ∧
    coreRoom base 0 32 ≠ 0 ∧
    (after (.fragmentGroupStart 7 0 0) (rendering (pass0 .tiles [tile0 .shading (some [0]) [batch0]]) 0) fun t => (t.cores.blocks.map fun e => (e.1, e.2.frag)) ==
  [(12, some (7, 0, 0))] && t.cores.groups.all fun e => e.2.exited == 0xFFFFFFF0) := by decide +kernel

/-- A fragment group's end ends its batch (R380). -/
theorem test_fragment_end :
    (after (.blockEnd 10) { rendering (pass0 .tiles [tile0 .shading (some [0]) [{ batch0 with started := true }]]) 0 with
    cores := { Cores.reset with blocks := [(10, { block0 with frag := some (7, 0, 0) })], groups := [] } } fun t => t.cores.blocks.isEmpty &&
  (tget t.ras.passes 7).any fun y => y.tiles.all fun z => z.running.isEmpty) := by decide +kernel

/-- TILE_BASE and TILE of a fragment group (R382). -/
theorem test_tile_registers :
    (after (.sr sg .tile 5) { rendering (pass0 .tiles [tile0 .shading none []]) 0 with
    cores := { coresWith group0 with blocks := [(10, { block0 with frag := some (7, 0, 0) })] } } fun t => (tget t.cores.groups 64).any fun g => rd g 0 5 == 0) ∧
    (after (.sr sg .tileBase 5) { rendering (pass0 .tiles [{ tile0 .shading none [] with lmBase := 8 }]) 0 with
    cores := { coresWith group0 with blocks := [(10, { block0 with frag := some (7, 0, 0) })] } } fun t => (tget t.cores.groups 64).any fun g => rd g 0 5 == 0x2000) := by decide +kernel

/-! ## Composing, encoding and the Bindery -/

/-- Target 2 of the context: RGB8 of 2 × 1 pixels at 0x8000 with the background red. -/
def target2 : Tbl W64 :=
  [(oQuads 0, 0xF), (oOwner 0, 0x10000000), (oTarget 2 0, 0x10000000), (oTarget 2 8, BitVec.ofNat 64 (2 ^ 31 + 2 * 2 ^ 20 + 8)),
   (oTarget 2 0x10, 0x8000), (oTarget 2 0x20, BitVec.ofNat 64 (2 + 1 * 2 ^ 16 + 1 * 2 ^ 48)), (oTarget 2 0x28, BitVec.ofNat 64 (1023 * 2 ^ 20))]

/-- The device with the target and a COMPOSE of frame 9 armed. -/
def composing2 (st : Stage) : State :=
  { withQ base { queueWith 3 { armedDesc 0 (BitVec.ofNat 512 (0x40 + 2 * 2 ^ 128 + 9 * 2 ^ 160)) with stage := st } with ctx := 0 } with
      regs := { active := target2, shadow := [] } }

/-- COMPOSE starts with the target's registers as they stand (R393, R395). -/
theorem test_compose :
    mayGo (composing2 .armed) 0 0 none 0x40 ∧
    (composing (composing2 .armed) 2 = false ∧ composeEarlier (composing2 .armed) 0 0 2 = false) ∧
    (after (.compose 0 0) (composing2 .armed) fun t => (t.cch.comps.map fun c => (c.target, c.frame, c.strip)) == [(2, 9, 0)] &&
  t.cch.comps.all fun c => treg c.regs 0x10 == 0x8000) := by decide +kernel

/-- As composing2, with a COMPOSE of queue 1 for the same target that was taken first. -/
def composing3 : State :=
  let s := composing2 .armed
  { s with obj := { s.obj with queues := s.obj.queues ++ s.obj.queues.map fun e => (1, e.2) }
           fe := { s.fe with order := [(1, 0, 0), (0, 0, 1)] } }

/-- Both taken in one cycle, queue 1 at compositor context 1, with the token at a context. -/
def sameCycle (token : Nat) : State :=
  { composing3 with obj := { composing3.obj with queues := composing3.obj.queues.map fun e => (e.1, { e.2 with unit := e.1 }) }
                    fe := { composing3.fe with order := [(0, 0, 0), (1, 0, 0)] }
                    cch := { composing3.cch with start := token } }

/-- Of those taken in one cycle, the token of the compositor contexts decides (R395). -/
theorem test_compose_token :
    (composeEarlier (sameCycle 0) 0 0 2 = false ∧ composeEarlier (sameCycle 0) 1 0 2) ∧
    (composeEarlier (sameCycle 1) 0 0 2 ∧ composeEarlier (sameCycle 1) 1 0 2 = false) := by decide +kernel

/-- COMPOSEs of one target start in order of taking, whatever their queues (R395). -/
theorem test_compose_order :
    (after (.compose 0 0) composing3 fun t => t.cch.comps.isEmpty) ∧
    (after (.compose 1 0) composing3 fun t => t.cch.comps.map (fun c => c.q) == [1]) := by decide +kernel

/-- The COMPOSE under way. -/
def compose0 : Compose :=
  { q := 0, i := 0, rt := false, target := 2, frame := 9, ctx := 0, regs := readTarget (composing2 .armed) 2, strip := 0, chroma := [] }

/-- A strip whose source lines have not arrived is not chosen (R396). -/
theorem test_strip_waits :
    chooseCompose { composing2 .started with cch := { State.reset.cch with comps := [compose0] } } [0] = none := by decide +kernel

/-- Its one strip writes two red pixels and ends it (R396, R398, R403, R404). -/
theorem test_strip :
    chooseCompose { composing2 .started with cch := { State.reset.cch with comps := [compose0] } } [] = some compose0 ∧
    stripTotal compose0 = 1 ∧
    (after (.stripComplete ⟨[], .none⟩) { composing2 .started with cch := { State.reset.cch with comps := [compose0] } } fun t =>
  mnat t.fab.mem 0x8000 12 == 0xFF0000FF + 0xFF0000FF * 2 ^ 32 && (tget t.obj.queues 0).any fun x => (recOf x 0).any fun d => d.stage == .finished 0) := by decide +kernel

/-- An ENCODE of stream 3: source at 0x10000, output at 0x20000 with 64 B, parameters at 0x4000. -/
def encodeWord (par : Nat) : W512 :=
  BitVec.ofNat 512 (0x50 + par * 2 ^ 64 + 0x10000 * 2 ^ 128 + 0x20000 * 2 ^ 192 + 64 * 2 ^ 256 + 3 * 2 ^ 288)

/-- Its block: 16 × 16 at a pitch of 128 B, chroma at 0x11000, references at 0x30000, 1,024 bits a frame, q from 10 to 200, level 0. -/
def encodeBlock : Nat :=
  0x11000 * 2 ^ 256 + 1 * 2 ^ 320 + 16 * 2 ^ 336 + 16 * 2 ^ 352 + 0x30000 * 2 ^ 384 + 1024 * 2 ^ 448 + 20 * 2 ^ 512 + 10 * 2 ^ 520 + 200 * 2 ^ 528

/-- The device with stream 3 open and the ENCODE armed. -/
def encoding (par : Nat) (st : Stage) : State :=
  { withQ streamed (queueWith 4 { armedDesc 0 (encodeWord par) with stage := st }) with fab := { Fabric.reset with mem := holds 0x4000 128 encodeBlock } }

/-- An ENCODE starts with a reset for its first configuration: q is QSTART and the frame a key frame; without parameters it is refused (R408 to R412). -/
theorem test_encode :
    (mayGo (encoding 0x4000 .armed) 0 0 none 0x50 ∧ encodeEarlier (encoding 0x4000 .armed) 0 0 3 = false) ∧
    encodeBad (encoding 0x4000 .armed) (queueWith 4 (armedDesc 0 (encodeWord 0x4000))) (encodeWord 0x4000) encodeBlock = false ∧
    (after (.encode 0 0) (encoding 0x4000 .armed) fun t => (t.cod.encRuns.map fun r => (r.stream, r.key)) == [(3, true)] && (t.cod.encRuns.all fun r => r.state.q == 20 && !r.orphan) && t.cod.resets == 1) ∧
    (after (.encode 0 0) (encoding 0 .armed) fun t => (tget t.obj.queues 0).any fun x => x.haltStatus == 0x11) := by decide +kernel

/-- The ENCODE under way. -/
def encRun : EncRun :=
  { q := 0, i := 0, stream := 3, core := 0, pay := encodeWord 0x4000, par := encodeBlock, key := true, recovered := false,
    state := { Enc.reset with q := 20 }, orphan := false }

/-- The device with it. -/
def encodingRun : State := { encoding 0x4000 .started with cod := { State.reset.cod with encRuns := [encRun] } }

/-- The ENCODE's context at its encode core. -/
def encWho : Who := feWho encodingRun 0 (queueWith 4 (armedDesc 0 (encodeWord 0x4000)))

/-- Whatever number of bytes the frame has, its reads and writes are reached (R411, R418; the bytes are free, log 49). -/
theorem test_encode_complete :
    ((encodeOn encodingRun 0).any fun e => e.1 == encRun) ∧
    (encodeReads encodingRun encRun encWho).2 = some [] ∧
    ((List.range 49).all fun n => (reachAll encWho encodingRun (encodeWrites encodingRun encRun Enc.reset (List.replicate n 0) [] false)).2.isSome) ∧
    (reachAll encWho encodingRun (encodeWrites encodingRun encRun Enc.reset [] [] true)).2.isSome := by decide +kernel

/-- The rate control after a repeat unit and after a frame of 4,096 bits at 1,024 a frame (R416). -/
theorem test_rate :
    ((rateAfter encodeBlock { Enc.reset with q := 20 } 0).q = 16 ∧ (rateAfter encodeBlock { Enc.reset with q := 20 } 0).f = -1024) ∧
    ((rateAfter encodeBlock { Enc.reset with q := 20 } 4096).q = 32 ∧ (rateAfter encodeBlock { Enc.reset with q := 20 } 4096).f = 3072) := by decide +kernel

/-- A BIND of 3 B at 0x2000 to 0x8000. -/
def bindWord : W512 := BitVec.ofNat 512 (0x60 + 0x2000 * 2 ^ 128 + 0x8000 * 2 ^ 192 + 3 * 2 ^ 256 + 64 * 2 ^ 288)

/-- The device with the BIND. -/
def binding (w : W512) (st : Stage) : State :=
  { withQ base (queueWith 5 { armedDesc 0 w with stage := st }) with fab := { Fabric.reset with mem := holds 0x2000 3 0x636261 } }

/-- BIND runs, and a misaligned destination is refused (R427). -/
theorem test_bind :
    mayGo (binding bindWord .armed) 0 0 none 0x60 ∧
    bindBad bindWord 0 = false ∧
    (after (.bind 0 0) (binding bindWord .armed) fun t => t.cod.bindRuns.length == 1) ∧
    (after (.bind 0 0) (binding (bindWord ||| (1 <<< 192 : W512)) .armed) fun t => (tget t.obj.queues 0).any fun x => x.haltStatus == 0x11) := by decide +kernel

/-- "abc" as one stored block of RFC 1951: 01 03 00 FC FF 61 62 63 (R424, R425, R428). -/
theorem test_bind_complete :
    (after (.bindComplete 0 .none) { binding bindWord .started with cod := { State.reset.cod with bindRuns := [{ q := 0, i := 0, pay := bindWord, par := 0 }] } } fun t =>
  mread t.fab.mem 0x8000 8 == byteList [0x01, 0x03, 0x00, 0xFC, 0xFF, 0x61, 0x62, 0x63] && t.cod.stored == 1) := by decide +kernel

/-! ## Well-formed commands -/

/-- Sizes and offsets of register accesses. -/
theorem test_wf_access :
    (Instr.wf (.shadowWrite .host 8 3 0) = false ∧ Instr.wf (.shadowWrite .host 0x4000000 8 0) = false) ∧
    (Instr.wf (.qDoorbell 0 0 4096 8 0) = false ∧ Instr.wf (.qDoorbell 0 0 0 5 0) = false) ∧
    (Instr.wf (.qResumeRetry 0 0 4096 8 0) = false ∧ Instr.wf (.qResumeSkip 0 0 8 3 0) = false) ∧
    (Instr.wf (.feAcvWinWrite 4096 4 0) = false ∧ Instr.wf (.hostAccessInS3 .bar0 8 3 none) = false) ∧
    (Instr.wf (.rcRead .bar0 0x4000000 8) = false ∧ Instr.wf (.registerWrite .bar0 8 16 0) = false) ∧
    (Instr.wf (.bar4Access 0 0 none .clean) = false ∧ Instr.wf (.bar4Access (2 ^ 39) 1 none .clean) = false ∧ Instr.wf (.bar4Access 0 2 (some [1]) .clean) = false) ∧
    Instr.wf (.rcRead .bar0 8 8) := by decide +kernel

/-- A report of a number of cycles in which a slot was served. -/
def waitsFor (n : Nat) : Stall := { cycles := 1, served := [(n, 1)] }

/-- Contention reports name a slot or 0xFE, in no more cycles than they count; each waiting quad or context is named once. -/
theorem test_wf_stall :
    (Instr.wf (.pageWalkComplete ⟨0, .none⟩ (waitsFor 48)) = false ∧ Instr.wf (.bobbinStep 0 0 ⟨[1, 1], 0⟩ .none) = false) ∧
    (Instr.wf (.primitiveBin 0 0 (waitsFor 48) .none) = false ∧ Instr.wf (.batchDispatch 0 ⟨0, .none⟩ { cycles := 0, served := [(3, 1)] }) = false) ∧
    Instr.wf (.stripComplete ⟨[2, 2], .none⟩) = false ∧
    Instr.wf (.pageWalkComplete ⟨0, .none⟩ (waitsFor 0xFE)) := by decide +kernel

/-- Transactions stay in a line and carry what they write. -/
theorem test_wf_transactions :
    (Instr.wf (.transactionIssue { txn0 with addr := 0x207C }) = false ∧ Instr.wf (.transactionIssue { txn0 with len := 0 }) = false) ∧
    (Instr.wf (.transactionIssue { txn0 with data := [1] }) = false ∧ Instr.wf (.transactionIssue { txn0 with kind := .write }) = false) ∧
    Instr.wf (.transactionIssue { txn0 with stall := waitsFor 48 }) = false ∧
    (Instr.wf (.transactionIssue { txn0 with issuer := .unit 0 (.encoder 0) }) = false ∧ Instr.wf (.transactionIssue { txn0 with issuer := .hub 0 (.lanes 0) }) = false) ∧
    ((Site.lanes 256).wf = false ∧ (Site.frontEnd 48).wf = false ∧ (Site.binner 64).wf = false ∧ (Site.bobbin 2 0).wf = false ∧ (Site.encoder 12).wf = false ∧
  (Site.bindery 4).wf = false ∧ (Site.couching 256).wf = false ∧ (Site.port 2).wf = false) ∧
    (Instr.wf (.selvageRequest .fetch 0 1 [] .clean) = false ∧ Instr.wf (.selvageRequest .read 127 2 [] .clean) = false) ∧
    (Instr.wf (.selvageRequest .read 0 1 [1] .clean) = false ∧ Instr.wf (.selvageRequest .write 0 2 [1] .clean) = false) ∧
    Instr.wf (.transactionIssue txn0) := by decide +kernel

/-- Sizes and orderings of lane accesses. -/
theorem test_wf_lanes :
    (Instr.wf (.lmAccess sg (.load 3 0 0 .rlx)) = false ∧ Instr.wf (.lmAccess sg (.store 32 0 0 .rlx)) = false) ∧
    (Instr.wf (.ldc sg ⟨3, .rlx⟩ 0 0 0) = false ∧ Instr.wf (.stc sg ⟨3, .rlx⟩ 0 0 0) = false) ∧
    (Instr.wf (.deviceLoad sg 5 0 0 .rlx) = false ∧ Instr.wf (.deviceLoad sg 4 0 0 (.rel .device)) = false ∧ Instr.wf (.deviceLoad sg 4 0 0 (.ar .device)) = false) ∧
    (Instr.wf (.deviceStore sg 5 0 0 ⟨.rlx, false⟩) = false ∧ Instr.wf (.deviceStore sg 4 0 0 ⟨(.acq .device), false⟩) = false) ∧
    (Instr.wf (.lmAccess sg (.load 4 0 0 (.rel .block))) = false ∧ Instr.wf (.lmAccess sg (.store 4 0 0 (.acq .block))) = false) ∧
    (Instr.wf (.ldc sg ⟨4, (.rel .block)⟩ 0 0 0) = false ∧ Instr.wf (.stc sg ⟨4, (.acq .block)⟩ 0 0 0) = false) ∧
    Instr.wf (.deviceLoad sg 4 0 0 (.acq .device)) := by decide +kernel

/-- Lengths of messages, nonces and lists. -/
theorem test_wf_messages :
    (Instr.wf (.identityExchange [] ⟨[], true⟩ []) = false ∧ Instr.wf (.identityExchange [] ⟨List.replicate 64 0, true⟩ []) = false) ∧
    (Instr.wf (.attachHandshakeComplete 3 0 4) = false ∧ Instr.wf (.moveMessage [1, 1]) = false ∧ Instr.wf (.monitorWindowEnd [.device, .device]) = false) ∧
    (Instr.wf (.mirrorReceive [.armed 4 0 []]) = false ∧ Instr.wf (.mirrorReceive [.target 0x4000000 0]) = false) ∧
    (Instr.wf (.mirrorReceive [.graph 0 0 0 0 4097 0 0 0 none]) = false ∧ Instr.wf (.mirrorReceive [.graph 0 0 0 0 0 4097 0 0 none]) = false) ∧
    (Instr.wf (.mirrorReceive [.queue 0 0 0 0 false 0 32 false false 0 0 0 0 0 0 0 0]) = false ∧ Instr.wf (.mirrorReceive [.queue 0 0 0 0 false 0 131072 false false 0 0 0 0 0 0 0 0]) = false) ∧
    Instr.wf (.mirrorReceive [.stream 0 0 0 0 0 0 0 (List.replicate 9 { kind := 1, entries := 16, base := 0, head := 0, fence := 0 })]) = false ∧
    (Instr.wf (.getCertificate 0 65536 0) = false ∧ Instr.wf (.getCertificate 0 0 65536) = false ∧ Instr.wf (.challenge 0 0 []) = false) ∧
    (Instr.wf (.getMeasurements 0 true []) = false ∧ Instr.wf (.getMeasurements 0 false [1]) = false) ∧
    (Instr.wf (.sidebandWrite []) = false ∧ Instr.wf (.sidebandRead 0) = false) ∧
    Instr.wf (.mirrorReceive [.armed 3 0 []]) := by decide +kernel

/-! ## Numbers -/

/-- 1/3 within 1 ulp, 1/√3 within 2 ulp and √3 rounded to nearest even (R323). -/
theorem test_trans_reciprocals :
    boundPos (rcpBounds (3 * 2 ^ 149)) == (0x3EAAAAAA, 0x3EAAAAAB) ∧
    boundPos (rsqrtBounds (3 * 2 ^ 149)) == (0x3F13CD39, 0x3F13CD3C) ∧
    sqrtOp 0x40400000 == 0x3FDDB3D7 := by decide +kernel

/-- 2^0.5 and log₂ 3 within 2 ulp (R323). -/
theorem test_trans_powers :
    boundPos (exp2Bounds (2 ^ 399)) == (0x3FB504F2, 0x3FB504F5) ∧
    boundPos (log2Bounds 3 0) == (0x3FCAE00C, 0x3FCAE00F) := by decide +kernel

end Sys2Proof.Tests
end

section
/-! Proofs: shadow writes and accessions (spec/02 R42 to R58). -/

namespace Sys2Proof.Machine

/-- The arm of a shadow write. -/
theorem exec_shadowWrite (r : Requester) (off size : Nat) (v : W64) (s : State) :
    exec (.shadowWrite r off size v) s = .next (shadowWrite s r off size v) := rfl

/-- R44: where the write reaches a register and the requester has no open slot, the count is all that changes. -/
theorem shadowWrite_of_openSlot_none {s : State} {r : Requester} {off size : Nat} {v : W64} {e : Nat × Nat}
    (hreq : reqOk s r = true) (hreg : mergeShadow s off size v.toNat = some e) (hslot : openSlot s r = none) :
    shadowWrite s r off size v = { s with acc := { s.acc with stray := satAdd 0xFFFF s.acc.stray 1 } } := by
  simp [shadowWrite, hreq, hreg, hslot]

end Sys2Proof.Machine

open Sys2Proof Sys2Proof.Machine

/-- Settles O9: the write names a register, and no slot of the requester takes it; `satAdd 0xFFFF` is the saturating
count of ACC_STRAY. -/
theorem strayShadowWriteIsCounted : Obligations.StrayShadowWriteIsCounted := by
  intro s r off size v hreq hslot hmerge
  obtain ⟨e, hreg⟩ := Option.isSome_iff_exists.mp hmerge
  rw [exec_shadowWrite, shadowWrite_of_openSlot_none hreq hreg hslot, satAdd]

end

section
/-! Proofs: the order of fence values (spec/03 R85). -/

namespace Sys2Proof.Machine

/-- R85's (a − b) mod 2⁶⁴, in natural numbers without truncation, is the value of the word `a - b`. -/
theorem toNat_sub_eq_mod (a b : W64) : (a - b).toNat = (a.toNat + 2 ^ 64 - b.toNat) % 2 ^ 64 := by
  have hb : b.toNat ≤ 2 ^ 64 := b.isLt.le
  rw [BitVec.toNat_sub', Nat.add_sub_assoc hb]

/-- A value is later exactly when the difference of the words lies in the half circle ahead. -/
theorem later_iff (a b : W64) : later a b = true ↔ 1 ≤ (a - b).toNat ∧ (a - b).toNat ≤ 2 ^ 63 - 1 := by
  rw [later, Bool.and_eq_true, decide_eq_true_iff, decide_eq_true_iff, Nat.le_sub_one_iff_lt (Nat.two_pow_pos 63)]

/-- At or later is the reflexive closure of later. -/
theorem atOrLater_iff (a b : W64) : atOrLater a b = true ↔ a = b ∨ later a b = true := by
  rw [atOrLater, Bool.or_eq_true, decide_eq_true_iff]

end Sys2Proof.Machine

open Sys2Proof Sys2Proof.Machine

/-- Settles O18: both orders are read off the difference of the words, which is R85's difference mod 2⁶⁴. -/
theorem laterIsTheHalfCircle : Obligations.LaterIsTheHalfCircle := by
  intro a b
  rw [← toNat_sub_eq_mod]
  exact ⟨later_iff a b, atOrLater_iff a b⟩

end

section
/-! Proofs: doorbells (spec/05 R135, R136). -/

namespace Sys2Proof.Machine

/-- The arm of a doorbell. -/
theorem exec_qDoorbell (f : Fin 64) (q : Fin 8192) (off size : Nat) (v : W64) (s : State) :
    exec (.qDoorbell f q off size v) s = .next (qDoorbell s f.val q.val off size v) := rfl

/-- R136, test 1: a write that reaches Q_DOORBELL of the function's own queue is counted in DB_BAD unless it is one
aligned 8 B write, whose value meets the tests that follow. -/
theorem qDoorbell_of_own {s : State} {f q off : Nat} {x : Queue} (size : Nat) (v : W64) (hbar : bar2Ok s = true)
    (hq : tget s.obj.queues q = some x) (hown : x.func = f) (hoff : off < 8) :
    qDoorbell s f q off size v = if ¬ (off = 0 ∧ size = 8) then dbBad s else doorbell s q x v := by
  have hreach : ¬ ((!bar2Ok s) = true ∨ x.func ≠ f ∨ 8 ≤ off) := by simp [hbar, hown, hoff]
  simp only [qDoorbell, hq, if_neg hreach, not_and_or, ne_eq]

/-- A difference mod 2ⁿ of R136, in natural numbers without truncation, is the value of the word `a - b`. -/
theorem toNat_sub_eq_wrap {n : Nat} (a b : BitVec n) : (a - b).toNat = (a.toNat + 2 ^ n - b.toNat) % 2 ^ n := by
  rw [BitVec.toNat_sub', Nat.add_sub_assoc b.isLt.le]

/-- Two words differ by 0 mod 2ⁿ exactly when they are equal. -/
theorem toNat_sub_eq_zero_iff {n : Nat} (a b : BitVec n) : (a - b).toNat = 0 ↔ a = b :=
  (BitVec.toNat_inj (y := 0#n)).trans sub_eq_zero

end Sys2Proof.Machine

open Sys2Proof Sys2Proof.Machine

/-- Settles O42: test 1 is `qDoorbell_of_own`; for tests 2 to 7 the differences of R136 are those of the words that
`doorbell` compares. -/
theorem doorbellsAreTestedInOrder : Obligations.DoorbellsAreTestedInOrder := by
  intro s f q x off size v hbar hq hown hoff new
  rw [exec_qDoorbell, qDoorbell_of_own size v hbar hq hown hoff]
  by_cases haligned : off = 0 ∧ size = 8
  · rw [if_neg (not_not_intro haligned), if_neg (not_not_intro haligned)]
    simp only [← toNat_sub_eq_wrap, toNat_sub_eq_zero_iff]
    rfl
  · rw [if_pos haligned, if_pos haligned]
    rfl

end

section
/-! Proofs: what every operation keeps. An operation is quiet when it leaves the queue of commands, the Hoop and the board as they
    were, keeps
the number of accession slots, and keeps the byte memories in their canonical form. -/

namespace Sys2Proof.Machine

/-- The second state comes of the first by operations that leave the queue of commands, the Hoop and the board alone, keep the
    number of
accession slots and the canonical form of the memories. -/
structure Quiet (s t : State) : Prop where
  pending : t.pending = s.pending
  hoop : t.hoop = s.hoop
  brd : t.brd = s.brd
  slots : t.acc.slots.length = s.acc.slots.length
  mem : memOk s = true → memOk t = true

theorem Quiet.refl (s : State) : Quiet s s := ⟨rfl, rfl, rfl, rfl, id⟩

theorem Quiet.trans {s t u : State} (h : Quiet s t) (h' : Quiet t u) : Quiet s u :=
  ⟨h'.pending.trans h.pending, h'.hoop.trans h.hoop, h'.brd.trans h.brd, h'.slots.trans h.slots, fun hm => h'.mem (h.mem hm)⟩

theorem Quiet.ite {s t u : State} {c : Prop} [Decidable c] (ht : c → Quiet s t) (hu : ¬ c → Quiet s u) :
    Quiet s (if c then t else u) := by
  split
  · exact ht ‹_›
  · exact hu ‹_›

/-- A fold of quiet operations. -/
theorem Quiet.foldl {β : Type} {f : State → β → State} {s t : State} {l : List β} (hf : ∀ t b, Quiet s t → Quiet s (f t b))
    (h : Quiet s t) : Quiet s (l.foldl f t) := by
  induction l generalizing t with
  | nil => exact h
  | cons b l ih => exact ih (hf t b h)

/-- A fold of quiet operations that carries a value beside the state. -/
theorem Quiet.foldl_fst {β γ : Type} {f : State × γ → β → State × γ} {s : State} {r : State × γ} {l : List β}
    (hf : ∀ r b, Quiet s r.1 → Quiet s (f r b).1) (h : Quiet s r.1) : Quiet s (l.foldl f r).1 := by
  induction l generalizing r with
  | nil => exact h
  | cons b l ih => exact ih (hf r b h)

/-- The state of an answer that has been taken apart. -/
theorem Quiet.fst {α : Type} {s u : State} {a : α} {p : State × α} (e : p = (u, a)) (h : Quiet s p.1) : Quiet s u := by
  subst e
  exact h

/-- Parts of the state are replaced: the memories, the accession slots, the Hoop, the board and the queue of commands stay as they
are. -/
theorem Quiet.upd {s t : State} {regs : RegFile} {obj : Objects} {fns : Tbl Fn} {mmu : Mmu} {fe : FrontEnds} {car : Tbl CarSlot}
    {eng : Engines}
    {bob : Bobbins} {ras : Raster} {cch : Couching} {cod : Coding} {circ : Circ} {twin : Twin} {flt : Faults} {fw : Firmware}
    {pwr : Power} {bus : Bus} {free : Nat} {host fwt : W32} {stray : Nat}
    {lines : List StkLine} {plru shares : Tbl Nat} {txns : Tbl Txn}
    {nextTxn : Nat} {cleans : List Nat} {tokens : Tbl Nat} {seq : Nat} {stkEcc : Tbl StkEcc} {stkScrub : Tbl Nat} {hbm : Tbl HbmEcc}
    {lastRead : List Byte}
    {lmUse : List LmUse} {groups : Tbl Group} {blocks : Tbl Block} {runs : Tbl Run} {nextId : Nat}
    {inbox : Tbl (List W512)} {outs : Tbl OutCh} {sent : List (Nat × W512)} {back : List Nat} {turns : Tbl Nat} {undef : Nat}
    (h : Quiet s t) :
    Quiet s ⟨t.hoop, regs, ⟨t.acc.slots, host, fwt, stray⟩, obj, fns, mmu, fe, car,
      ⟨t.fab.mem, t.fab.host, lines, plru, shares, txns, nextTxn, cleans, tokens, seq, stkEcc, stkScrub, hbm, lastRead⟩,
      ⟨t.cores.lm, lmUse, groups, blocks, runs, nextId, inbox, outs, sent, back, turns, undef⟩,
      eng, bob, ras, cch, cod, circ, twin, flt, fw, pwr, t.brd, bus, free, t.pending⟩ :=
  ⟨h.pending, h.hoop, h.brd, h.slots, h.mem⟩

theorem Quiet.twin {s t : State} {twin : Twin} (h : Quiet s t) : Quiet s { t with twin := twin } := h.upd

/-- An operation on the memories that keeps their form. -/
theorem Quiet.of_mem {s t u : State} (h : Quiet s t) (hm : memOk t = true → memOk u = true) (hp : u.pending = t.pending)
    (hh : u.hoop = t.hoop) (ha : u.acc = t.acc) (hb : u.brd = t.brd) : Quiet s u :=
  h.trans ⟨hp, hh, hb, by rw [ha], hm⟩

/-- A change of the cores' local memory that keeps its form. -/
theorem Quiet.of_lm {s t : State} {mmu : Mmu} {eng : Engines} {lm : Mem}
    {lmUse : List LmUse} {groups : Tbl Group} {blocks : Tbl Block} {runs : Tbl Run} {nextId : Nat}
    {inbox : Tbl (List W512)} {outs : Tbl OutCh} {sent : List (Nat × W512)} {back : List Nat} {turns : Tbl Nat} {undef : Nat} (h :
        Quiet s t)
    (hm : Mem.wf t.cores.lm = true → Mem.wf lm = true) :
    Quiet s { t with mmu := mmu, eng := eng
                     cores := ⟨lm, lmUse, groups, blocks, runs, nextId, inbox, outs, sent, back, turns, undef⟩ } :=
  .of_mem h (fun ht => by
    obtain ⟨h1, h2, h3⟩ := (memOk_iff t).1 ht
    exact (memOk_iff _).2 ⟨h1, h2, hm h3⟩) rfl rfl rfl rfl

/-- A change of the device's memory that keeps its form. -/
theorem Quiet.of_local {s t : State} {fw : Firmware} {mem : Mem}
    {lines : List StkLine} {plru shares : Tbl Nat} {txns : Tbl Txn}
    {nextTxn : Nat} {cleans : List Nat} {tokens : Tbl Nat} {seq : Nat} {stkEcc : Tbl StkEcc} {stkScrub : Tbl Nat} {hbm : Tbl HbmEcc}
    {lastRead : List Byte}
    (h : Quiet s t) (hm : Mem.wf t.fab.mem = true → Mem.wf mem = true) :
    Quiet s { t with fw := fw
                     fab := ⟨mem, t.fab.host, lines, plru, shares, txns, nextTxn, cleans, tokens, seq, stkEcc, stkScrub, hbm,
                         lastRead⟩ } :=
  .of_mem h (fun ht => by
    obtain ⟨h1, h2, h3⟩ := (memOk_iff t).1 ht
    exact (memOk_iff _).2 ⟨hm h1, h2, h3⟩) rfl rfl rfl rfl

/-- A change of host memory that keeps its form. -/
theorem Quiet.of_host {s t : State} {fw : Firmware} {host : Mem} (h : Quiet s t)
    (hm : Mem.wf t.fab.host = true → Mem.wf host = true) :
    Quiet s { t with fw := fw, fab := { t.fab with host := host } } :=
  .of_mem h (fun ht => by
    obtain ⟨h1, h2, h3⟩ := (memOk_iff t).1 ht
    exact (memOk_iff _).2 ⟨h1, hm h2, h3⟩) rfl rfl rfl rfl

/-- An operation within a frame that leaves the Hoop, the accession slots, the board and the queue of commands alone is quiet when
    it keeps the
memories' form. -/
theorem Quiet.of_only {ps : List Part} {s t u : State} (hq : Quiet s t) (h : Only ps t u) (hm : memOk t = true → memOk u = true)
    (hps : Part.hoop ∉ ps ∧ Part.acc ∉ ps ∧ Part.pending ∉ ps ∧ Part.brd ∉ ps) : Quiet s u :=
  by
  obtain ⟨hh, ha, hp, hb⟩ := hps
  exact hq.trans ⟨h .pending hp, h .hoop hh, h .brd hb, congrArg (fun a : AccBlock => a.slots.length) (h .acc ha), hm⟩

end Sys2Proof.Machine
end

section
/-! Proofs: the shared operations, the memories, the objects and direct accesses are quiet. -/

namespace Sys2Proof.Machine

variable {s₀ s : State}

/-! ## Shared operations -/

theorem drew_quiet (hs : Quiet s₀ s) : Quiet s₀ (drew s) :=
  .upd hs

theorem drewN_quiet {n : ℕ} (hs : Quiet s₀ s) : Quiet s₀ (drewN s n) :=
  .upd hs

theorem setFn_quiet {f : ℕ} {x : Fn} (hs : Quiet s₀ s) : Quiet s₀ (setFn s f x) :=
  .upd hs

theorem hostWrite_quiet {a : ℕ} {l : List Byte} (hs : Quiet s₀ s) : Quiet s₀ (hostWrite s a l) :=
  .of_mem hs (memOk_hostWrite _ _) rfl rfl rfl rfl

theorem raiseMsix_quiet {f v : ℕ} (hs : Quiet s₀ s) : Quiet s₀ (raiseMsix s f v) :=
  .ite (fun _ => hs) fun _ => .ite (fun _ => .ite (fun _ => hs) fun _ => setFn_quiet hs) fun _ => hostWrite_quiet hs

theorem eventRec_quiet {f kind status reason event object value : ℕ} (hs : Quiet s₀ s) :
    Quiet s₀ (eventRec s f kind status reason event object value) :=
  .of_only hs (eventRec_only _ _ _ _ _ _ _ _) (memOk_eventRec _ _ _ _ _ _ _) (by decide)

theorem dayBook_quiet {code obj arg0 arg1 : ℕ} (hs : Quiet s₀ s) : Quiet s₀ (dayBook s code obj arg0 arg1) :=
  .of_only hs (dayBook_only _ _ _ _ _) (memOk_dayBook _ _ _ _) (by decide)

theorem trace_quiet {group point obj arg1 : ℕ} (hs : Quiet s₀ s) : Quiet s₀ (trace s group point obj arg1) :=
  .ite (fun _ => dayBook_quiet hs) fun _ => hs

theorem traceFree_quiet {group point obj : ℕ} (hs : Quiet s₀ s) : Quiet s₀ (traceFree s group point obj) :=
  .ite (fun _ => dayBook_quiet (drew_quiet hs)) fun _ => hs

theorem setObj_quiet {o : Objects} (hs : Quiet s₀ s) : Quiet s₀ (setObj s o) :=
  .upd hs

theorem setQueue_quiet {q : ℕ} {x : Queue} (hs : Quiet s₀ s) : Quiet s₀ (setQueue s q x) :=
  setObj_quiet hs

theorem setFence_quiet {f : ℕ} {x : Fence} (hs : Quiet s₀ s) : Quiet s₀ (setFence s f x) :=
  setObj_quiet hs

theorem fwTake_quiet {f cmd : ℕ} (hs : Quiet s₀ s) : Quiet s₀ (fwTake s f cmd) :=
  trace_quiet (setFn_quiet hs)

theorem fwComplete_quiet {f cmd : ℕ} {tag : W32} {status result : ℕ} (hs : Quiet s₀ s) : Quiet s₀ (fwComplete s f cmd tag status
    result) :=
  raiseMsix_quiet (trace_quiet (setFn_quiet (hostWrite_quiet hs)))

theorem fwCommandWith_quiet {c : Call} {cmd : ℕ} {op : State → State × ℕ × ℕ} {post : ℕ → State → State}
    (hop : ∀ {s}, Quiet s₀ s → Quiet s₀ (op s).1) (hpost : ∀ {st s}, Quiet s₀ s → Quiet s₀ (post st s)) (hs : Quiet s₀ s) :
    Quiet s₀ (fwCommandWith s c cmd op post) :=
  .ite (fun _ => fwComplete_quiet (hpost (.ite (fun _ => hop (fwTake_quiet hs)) fun _ => fwTake_quiet hs))) fun _ => hs

theorem fwCommand_quiet {c : Call} {cmd : ℕ} {op : State → State × ℕ × ℕ} (hop : ∀ {s}, Quiet s₀ s → Quiet s₀ (op s).1)
    (hs : Quiet s₀ s) : Quiet s₀ (fwCommand s c cmd op) :=
  fwCommandWith_quiet hop id hs

theorem pfOnly_quiet {c : Call} {op : State → State × ℕ × ℕ} (hop : ∀ {s}, Quiet s₀ s → Quiet s₀ (op s).1) (hs : Quiet s₀ s) :
    Quiet s₀ (pfOnly c op s).1 := by
  unfold pfOnly
  split
  · exact hop hs
  · exact hs

theorem moves_quiet {u : UnitRef} (hs : Quiet s₀ s) : Quiet s₀ (moves s u) :=
  .ite (fun _ => hs) fun _ => .upd hs

/-! ## The stack tier and memory -/

theorem localMem_quiet {pa : ℕ} {bs : List Byte} (hs : Quiet s₀ s) :
    Quiet s₀ { s with fab := { s.fab with mem := mwrite s.fab.mem pa bs } } :=
  .of_local hs fun h => mwrite_wf h pa bs

theorem cleanSlot_quiet {n : ℕ} (hs : Quiet s₀ s) : Quiet s₀ (cleanSlot s n) :=
  .of_mem hs (memOk_cleanSlot n) rfl rfl rfl rfl

theorem tierLine_quiet {n k pa : ℕ} (hs : Quiet s₀ s) : Quiet s₀ (tierLine s n k pa).1 := by
  have hm := fun h => tierLine_wf (s := s) h n k pa
  unfold tierLine at hm ⊢
  split
  · exact .upd hs
  · rename_i e
    rw [e] at hm
    exact .of_local hs hm

theorem tierRead_quiet {n fuel pa len : ℕ} (hs : Quiet s₀ s) : Quiet s₀ (tierRead n fuel s pa len).1 := by
  induction fuel generalizing s pa len with
  | zero => exact hs
  | succ fuel ih =>
    unfold tierRead
    split
    · exact hs
    · split
      · exact hs
      · exact ih (tierLine_quiet hs)

theorem tierWrite_quiet {n fuel pa : ℕ} {bs : List Byte} (hs : Quiet s₀ s) : Quiet s₀ (tierWrite n fuel s pa bs) := by
  induction fuel generalizing s pa bs with
  | zero => exact hs
  | succ fuel ih =>
    unfold tierWrite
    split
    · exact hs
    · split
      · exact localMem_quiet hs
      · exact ih (.upd (tierLine_quiet hs))

theorem physRead_quiet {slot : Option ℕ} {stk : Bool} {pa n : ℕ} (hs : Quiet s₀ s) : Quiet s₀ (physRead s slot stk pa n).1 := by
  unfold physRead
  split
  · exact tierRead_quiet hs
  · exact hs

theorem physWrite_quiet {slot : Option ℕ} {stk : Bool} {pa : ℕ} {bs : List Byte} (hs : Quiet s₀ s) :
    Quiet s₀ (physWrite s slot stk pa bs) := by
  unfold physWrite
  split
  · exact tierWrite_quiet hs
  · exact localMem_quiet hs

theorem fillPlace_quiet {n : ℕ} {used : List ℕ} (hs : Quiet s₀ s) : Quiet s₀ (fillPlace s n used).1 := by
  unfold fillPlace
  split
  · exact hs
  · exact drew_quiet hs

theorem fillTlb_quiet {e : TlbE} {t : ℕ} (hs : Quiet s₀ s) : Quiet s₀ (fillTlb s e t) :=
  .ite (fun _ => hs) fun _ => .upd (fillPlace_quiet hs)

theorem fillPath_quiet {path : List ℕ} {e : TlbE} (hs : Quiet s₀ s) : Quiet s₀ (fillPath s path e) :=
  .foldl (fun _ _ h => fillTlb_quiet h) hs

theorem fillWalk_quiet {e : WalkE} (hs : Quiet s₀ s) : Quiet s₀ (fillWalk s e) :=
  .ite (fun _ => hs) fun _ => .upd (fillPlace_quiet hs)

theorem walk_quiet {walker : ℕ} {fromRoot : Bool} {path : List ℕ} {asid va : ℕ} (hs : Quiet s₀ s) : Quiet s₀ (walk s walker
    fromRoot path asid va).1 := by
  unfold walk
  dsimp only
  split
  · exact fillPath_quiet (.foldl (fun _ _ h => fillWalk_quiet h) hs)
  · exact .foldl (fun _ _ h => fillWalk_quiet h) hs

theorem translate_quiet {w : Who} {k : AccessKind} {va : ℕ} (hs : Quiet s₀ s) : Quiet s₀ (translate s w k va).1 := by
  unfold translate
  split
  · exact hs
  · split
    · dsimp only
      split
      · exact fillPath_quiet hs
      · exact hs
    · dsimp only
      split
      · exact fillPath_quiet hs
      · split <;> (rename_i e; exact .fst e (walk_quiet hs))

/-! ## Objects -/

theorem putQ_quiet {q : ℕ} {x : Queue} (hs : Quiet s₀ s) : Quiet s₀ (putQ s q x) :=
  setQueue_quiet hs

theorem dropBlocks_quiet {p : ℕ → Block → Bool} (hs : Quiet s₀ s) : Quiet s₀ (dropBlocks s p) :=
  .upd hs

theorem dropRuns_quiet {p : Run → Bool} (hs : Quiet s₀ s) : Quiet s₀ (dropRuns s p) :=
  .upd (dropBlocks_quiet hs)

theorem dropPasses_quiet {p : Pass → Bool} (hs : Quiet s₀ s) : Quiet s₀ (dropPasses s p) :=
  .upd (dropBlocks_quiet hs)

theorem dropWork_quiet {q : ℕ} {i : W32} (hs : Quiet s₀ s) : Quiet s₀ (dropWork s q i) :=
  .upd (dropPasses_quiet (dropRuns_quiet hs))

theorem fireEvent_quiet {e : ℕ} (hs : Quiet s₀ s) : Quiet s₀ (fireEvent s e) := by
  unfold fireEvent
  split
  · exact hs
  · split
    · exact hs
    · exact .ite (fun _ => hs) fun _ => .ite (fun _ => setObj_quiet (eventRec_quiet hs)) fun _ => setObj_quiet (eventRec_quiet hs)

theorem endEvents_quiet {f st : ℕ} (hs : Quiet s₀ s) : Quiet s₀ (endEvents s f st) := by
  unfold endEvents
  refine .foldl (fun _ _ h => ?_) hs
  split
  · exact h
  · exact setObj_quiet (eventRec_quiet h)

theorem mirrorWrite_quiet {f : Fence} (hs : Quiet s₀ s) : Quiet s₀ (mirrorWrite s f) :=
  .ite (fun _ => hs) fun _ => hostWrite_quiet hs

theorem fenceCycle_quiet {f : ℕ} {sigs : List W64} (hs : Quiet s₀ s) : Quiet s₀ (fenceCycle s f sigs) := by
  unfold fenceCycle
  split
  · exact hs
  · exact .ite (fun _ => setFence_quiet hs) fun _ => setObj_quiet (.foldl (fun _ _ h => fireEvent_quiet h) (mirrorWrite_quiet
        (setFence_quiet hs)))

theorem ctxGone_quiet {c : ℕ} (hs : Quiet s₀ s) : Quiet s₀ (ctxGone s c) := by
  unfold ctxGone
  split
  · exact hs
  · exact .ite (fun _ => eventRec_quiet (setObj_quiet (.upd hs))) fun _ => hs

theorem queueDrained_quiet {q : ℕ} (hs : Quiet s₀ s) : Quiet s₀ (queueDrained s q) := by
  unfold queueDrained
  split
  · exact hs
  · exact .ite (fun _ => ctxGone_quiet (eventRec_quiet (setObj_quiet hs))) fun _ => hs

theorem endDesc_quiet {q : ℕ} {i : W32} {st : ℕ} (hs : Quiet s₀ s) : Quiet s₀ (endDesc s q i st) := by
  unfold endDesc
  split
  · exact hs
  · split
    · exact hs
    · exact queueDrained_quiet (.ite (fun _ => eventRec_quiet (.ite (fun _ => .upd (putQ_quiet hs)) fun _ => putQ_quiet hs))
          fun _ => .ite (fun _ => .upd (putQ_quiet hs)) fun _ => putQ_quiet hs)

theorem chainToken_quiet {c h : ℕ} (hs : Quiet s₀ s) : Quiet s₀ (chainToken s c h) := by
  unfold chainToken
  split
  · exact .upd hs
  · split
    · exact .upd hs
    · exact .ite (fun _ => .upd hs) fun _ => putQ_quiet hs

theorem signalHandle_quiet {h : ℕ} {v : W64} (hs : Quiet s₀ s) : Quiet s₀ (signalHandle s h v) := by
  unfold signalHandle
  split
  · exact fenceCycle_quiet hs
  · exact hs

theorem startClean_quiet {n : ℕ} (hs : Quiet s₀ s) : Quiet s₀ (startClean s n) :=
  .of_mem hs (memOk_startClean n) rfl rfl rfl rfl

theorem finishOk_quiet {q : ℕ} {x : Queue} {d : Desc} (hs : Quiet s₀ s) : Quiet s₀ (finishOk s q x d) :=
  endDesc_quiet (.ite (fun _ => chainToken_quiet (.ite (fun _ => signalHandle_quiet hs) fun _ => hs)) fun _ => .ite (fun _ =>
      signalHandle_quiet hs) fun _ => hs)

theorem complete_quiet {q : ℕ} {i : W32} {st : ℕ} (hs : Quiet s₀ s) : Quiet s₀ (complete s q i st) := by
  unfold complete
  split
  · exact hs
  · split
    · exact hs
    · refine .ite (fun _ => endDesc_quiet (dropWork_quiet hs)) fun _ => ?_
      split
      · exact finishOk_quiet (dropWork_quiet hs)
      · exact .ite (fun _ => putQ_quiet (startClean_quiet (dropWork_quiet hs))) fun _ => finishOk_quiet (dropWork_quiet hs)

theorem failWaits_quiet {f st : ℕ} {except' : Option ℕ} (hs : Quiet s₀ s) : Quiet s₀ (failWaits s f st except') := by
  unfold failWaits
  refine setObj_quiet (.foldl (fun _ _ h => ?_) hs)
  split
  · exact h
  · exact .ite (fun _ => h) fun _ => .foldl (fun _ _ h => complete_quiet h) h

theorem closeStreams_quiet {p : ℕ → Stream → Bool} (hs : Quiet s₀ s) : Quiet s₀ (closeStreams s p) :=
  .upd hs

theorem loseFences_quiet {c : ℕ} (hs : Quiet s₀ s) : Quiet s₀ (loseFences s c) :=
  .foldl (fun _ _ h => endEvents_quiet (failWaits_quiet (setObj_quiet h))) hs

theorem flushQueue_quiet {q st : ℕ} (hs : Quiet s₀ s) : Quiet s₀ (flushQueue s q st) := by
  unfold flushQueue
  split
  · exact hs
  · exact .foldl (fun _ _ h => complete_quiet h) hs

theorem dropDirty_quiet {n : ℕ} (hs : Quiet s₀ s) : Quiet s₀ (dropDirty s n) :=
  .upd hs

theorem dropTxns_quiet {c : ℕ} (hs : Quiet s₀ s) : Quiet s₀ (dropTxns s c) :=
  .upd hs

theorem markLost_quiet {c reason : ℕ} (hs : Quiet s₀ s) : Quiet s₀ (markLost s c reason) := by
  unfold markLost
  split
  · exact hs
  · refine .ite (fun _ => hs) fun _ => dayBook_quiet (eventRec_quiet (closeStreams_quiet (loseFences_quiet (.foldl (fun _ _ h =>
        flushQueue_quiet h) (dropTxns_quiet ?_)))))
    split
    · exact dropDirty_quiet (setObj_quiet hs)
    · exact setObj_quiet hs

theorem recordFault_quiet {scope unit means : ℕ} (hs : Quiet s₀ s) : Quiet s₀ (recordFault s scope unit means) :=
  .ite (fun _ => raiseMsix_quiet (dayBook_quiet (.ite (fun _ => hs) fun _ => .upd hs))) fun _ => dayBook_quiet (.ite (fun _ => hs)
      fun _ => .upd hs)

theorem dataFault_quiet {c means : ℕ} (hs : Quiet s₀ s) : Quiet s₀ (dataFault s c means) :=
  markLost_quiet (recordFault_quiet (drew_quiet hs))

theorem unitDataErr_quiet {c : ℕ} (hs : Quiet s₀ s) : Quiet s₀ (unitDataErr s c) :=
  dataFault_quiet (drew_quiet hs)

/-! ## Accesses through translation -/

theorem raiseFault_quiet {w : Who} {k : AccessKind} {va : ℕ} (hs : Quiet s₀ s) : Quiet s₀ (raiseFault s w k va) := by
  unfold raiseFault
  split
  · exact markLost_quiet (.upd hs)
  · exact .ite (fun _ => .upd hs) fun _ => .upd hs

theorem pieces_quiet {w : Who} {k : AccessKind} {fuel va n : ℕ} (hs : Quiet s₀ s) : Quiet s₀ (pieces w k fuel s va n).1 := by
  induction fuel generalizing s va n with
  | zero => exact hs
  | succ fuel ih =>
    unfold pieces
    split
    · exact hs
    · dsimp only
      split
      · exact hs
      · split
        · rename_i e
          exact raiseFault_quiet (.fst e (translate_quiet hs))
        · rename_i e
          exact markLost_quiet (.fst e (translate_quiet hs))
        · rename_i e
          exact .fst e (translate_quiet hs)
        · rename_i e
          have ht := Quiet.fst e (translate_quiet hs)
          split
          · exact ht
          · split
            · exact markLost_quiet ht
            · split <;> (rename_i e'; exact .fst e' (ih ht))

theorem reach_quiet {w : Who} {k : AccessKind} {va n : ℕ} (hs : Quiet s₀ s) : Quiet s₀ (reach s w k va n).1 := by
  unfold reach
  split
  · exact pieces_quiet hs
  · exact hs

theorem readPieces_quiet {w : Who} {l : List (Tr × ℕ)} (hs : Quiet s₀ s) : Quiet s₀ (readPieces w s l).1 := by
  induction l generalizing s with
  | nil => exact hs
  | cons e l ih =>
    refine ih ?_
    split
    · exact physRead_quiet hs
    · exact hs
    · exact drewN_quiet hs

theorem writePieces_quiet {w : Who} {l : List (Tr × ℕ)} {bs : List Byte} (hs : Quiet s₀ s) : Quiet s₀ (writePieces w s l bs) := by
  induction l generalizing s bs with
  | nil => exact hs
  | cons e l ih =>
    refine ih ?_
    split
    · exact physWrite_quiet hs
    · exact hostWrite_quiet hs
    · exact hs

theorem vread_quiet {w : Who} {va n : ℕ} (hs : Quiet s₀ s) : Quiet s₀ (vread s w va n).1 := by
  unfold vread
  split
  · rename_i e
    exact readPieces_quiet (.fst e (reach_quiet hs))
  · rename_i e
    exact .fst e (reach_quiet hs)

theorem vwrite_quiet {w : Who} {va : ℕ} {bs : List Byte} (hs : Quiet s₀ s) : Quiet s₀ (vwrite s w va bs).1 := by
  unfold vwrite
  split
  · rename_i e
    exact writePieces_quiet (.fst e (reach_quiet hs))
  · rename_i e
    exact .fst e (reach_quiet hs)

theorem vnat_quiet {w : Who} {va n : ℕ} (hs : Quiet s₀ s) : Quiet s₀ (vnat s w va n).1 := by
  unfold vnat
  split <;> (rename_i e; exact .fst e (vread_quiet hs))

theorem reachAll_quiet {w : Who} {l : List (ℕ × List Byte)} (hs : Quiet s₀ s) : Quiet s₀ (reachAll w s l).1 := by
  induction l generalizing s with
  | nil => exact hs
  | cons x l ih =>
    unfold reachAll
    split
    · rename_i e
      exact .fst e (reach_quiet hs)
    · rename_i e
      split <;> (rename_i e'; exact .fst e' (ih (.fst e (reach_quiet hs))))

theorem vwriteAll_quiet {w : Who} {l : List (ℕ × List Byte)} (hs : Quiet s₀ s) : Quiet s₀ (vwriteAll s w l).1 := by
  unfold vwriteAll
  split
  · rename_i e
    exact .foldl (fun _ _ h => writePieces_quiet h) (.fst e (reachAll_quiet hs))
  · rename_i e
    exact .fst e (reachAll_quiet hs)

theorem vatomic_quiet {w : Who} {va n : ℕ} {f : ℕ → ℕ} (hs : Quiet s₀ s) : Quiet s₀ (vatomic s w va n f).1 := by
  unfold vatomic
  split
  · rename_i e
    exact .fst e (reach_quiet hs)
  · rename_i e
    exact writePieces_quiet (readPieces_quiet (.fst e (reach_quiet hs)))

theorem addStall_quiet {n : ℕ} {src : SlowSrc} {r : Stall} (hs : Quiet s₀ s) : Quiet s₀ (addStall s n src r) :=
  .ite (fun _ => hs) fun _ => .upd hs

end Sys2Proof.Machine
end

section
/-! Proofs: submission, descriptors, blocks and the mesh are quiet. -/

namespace Sys2Proof.Machine

variable {s₀ s : State}

/-! ## Domains, doorbells and takes -/

theorem setDom_quiet {d : ℕ} {x : Dom} (hs : Quiet s₀ s) : Quiet s₀ (setDom s d x) :=
  .upd hs

theorem recordWake_quiet {d src : ℕ} (hs : Quiet s₀ s) : Quiet s₀ (recordWake s d src) :=
  .upd hs

theorem startWake_quiet {d src : ℕ} (hs : Quiet s₀ s) : Quiet s₀ (startWake s d src) :=
  .ite (fun _ => hs) fun _ => recordWake_quiet (setDom_quiet hs)

theorem reachDom_quiet {d src : ℕ} (hs : Quiet s₀ s) : Quiet s₀ (reachDom s d src).1 := by
  unfold reachDom
  split
  · exact hs
  · dsimp only
    split
    · exact hs
    · split <;> exact setDom_quiet hs
    · exact startWake_quiet (setDom_quiet hs)

theorem reachDoms_quiet {ds : List ℕ} {src : ℕ} (hs : Quiet s₀ s) : Quiet s₀ (reachDoms s ds src).1 := by
  unfold reachDoms
  exact .foldl_fst (fun _ _ h => reachDom_quiet h) hs

theorem dbBad_quiet (hs : Quiet s₀ s) : Quiet s₀ (dbBad s) :=
  .upd hs

theorem doorbell_quiet {q : ℕ} {x : Queue} {v : W64} (hs : Quiet s₀ s) : Quiet s₀ (doorbell s q x v) :=
  .ite (fun _ => .upd hs) fun _ => .ite (fun _ => hs) fun _ => .ite (fun _ => hs) fun _ => .ite (fun _ => .upd hs) fun _ => .ite
      (fun _ => .upd hs) fun _ => putQ_quiet hs

theorem qDoorbell_quiet {f q off size : ℕ} {v : W64} (hs : Quiet s₀ s) : Quiet s₀ (qDoorbell s f q off size v) := by
  unfold qDoorbell
  split
  · exact hs
  · exact .ite (fun _ => hs) fun _ => .ite (fun _ => dbBad_quiet hs) fun _ => doorbell_quiet hs

theorem qResume_quiet {f q off size : ℕ} {gen : BitVec 16} {action : ℕ} (hs : Quiet s₀ s) : Quiet s₀ (qResume s f q off size gen
    action) := by
  unfold qResume
  split
  · exact hs
  · exact .ite (fun _ => hs) fun _ => .ite (fun _ => dbBad_quiet hs) fun _ => .ite (fun _ => hs) fun _ => putQ_quiet hs

theorem resumeEffect_quiet {q : ℕ} (hs : Quiet s₀ s) : Quiet s₀ (resumeEffect s q) := by
  unfold resumeEffect
  split
  · exact hs
  · split
    · exact hs
    · exact .ite (fun _ => hs) fun _ => .ite (fun _ => putQ_quiet hs) fun _ => .ite (fun _ => .upd (putQ_quiet hs)) fun _ =>
          putQ_quiet hs

theorem setAcv_quiet {a : Acv} (hs : Quiet s₀ s) : Quiet s₀ (setAcv s a) :=
  .upd hs

theorem acvApply_quiet {off size : ℕ} {v : W64} (hs : Quiet s₀ s) : Quiet s₀ (acvApply s off size v) := by
  unfold acvApply
  refine .ite (fun _ => setAcv_quiet hs) fun _ => .ite (fun _ => setAcv_quiet hs) fun _ => .ite (fun _ => setAcv_quiet hs) fun _ =>
      .ite (fun _ => setAcv_quiet hs) fun _ => .ite (fun _ => setAcv_quiet hs) fun _ => .ite (fun _ => setAcv_quiet hs) fun _ => ?_
  split
  · exact hs
  · exact putQ_quiet (setAcv_quiet hs)

theorem acvWrite_quiet {off size : ℕ} {v : W64} (hs : Quiet s₀ s) : Quiet s₀ (acvWrite s off size v) :=
  .ite (fun _ => .ite (fun _ => setAcv_quiet hs) fun _ => setAcv_quiet hs) fun _ => acvApply_quiet hs

theorem acvEdge_quiet (hs : Quiet s₀ s) : Quiet s₀ (acvEdge s) :=
  .foldl (fun _ _ h => acvApply_quiet h) (setAcv_quiet hs)

theorem acvEnable_quiet (hs : Quiet s₀ s) : Quiet s₀ (acvEnable s) :=
  .ite (fun _ => hs) fun _ => setAcv_quiet hs

theorem acvResume_quiet {action : ℕ} (hs : Quiet s₀ s) : Quiet s₀ (acvResume s action) := by
  unfold acvResume
  split
  · exact hs
  · exact .ite (fun _ => putQ_quiet hs) fun _ => hs

theorem acvDiscard_quiet (hs : Quiet s₀ s) : Quiet s₀ (acvDiscard s) := by
  unfold acvDiscard
  split
  · exact hs
  · exact putQ_quiet (setAcv_quiet hs)

theorem readDesc_quiet {q : ℕ} {x : Queue} {i : W32} (hs : Quiet s₀ s) : Quiet s₀ (readDesc s q x i).1 := by
  unfold readDesc
  split
  · exact hs
  · split <;> (rename_i e; exact .fst e (vnat_quiet hs))

theorem noteTake_quiet {q : ℕ} {i : W32} {w : W512} (hs : Quiet s₀ s) : Quiet s₀ (noteTake s q i w) :=
  .ite (fun _ => hs) fun _ => .upd hs

theorem takeFrom_quiet {q : ℕ} (hs : Quiet s₀ s) : Quiet s₀ (takeFrom s q) := by
  unfold takeFrom
  split
  · exact hs
  · refine .ite (fun _ => endDesc_quiet (putQ_quiet hs)) fun _ => ?_
    split
    · rename_i e
      exact .fst e (readDesc_quiet hs)
    · rename_i e
      split
      · exact .fst e (readDesc_quiet hs)
      · exact noteTake_quiet (putQ_quiet (.fst e (readDesc_quiet hs)))

theorem descriptorTake_quiet {f : Fetcher} (hs : Quiet s₀ s) : Quiet s₀ (descriptorTake s f) := by
  unfold descriptorTake
  refine .ite (fun _ => hs) fun _ => ?_
  split
  · exact hs
  · split
    · rename_i e
      exact .fst e (reachDoms_quiet hs)
    · rename_i e
      exact .ite (fun _ => takeFrom_quiet (.fst e (reachDoms_quiet hs))) fun _ => .upd (takeFrom_quiet (.fst e (reachDoms_quiet
          hs)))

/-! ## Descriptors -/

theorem readPay_quiet {who : Who} {w : W512} (hs : Quiet s₀ s) : Quiet s₀ (readPay s who w).1 := by
  unfold readPay
  split
  · exact hs
  · dsimp only
    split
    · exact hs
    · split <;> (rename_i e; exact .fst e (vnat_quiet hs))

theorem putRec_quiet {q : ℕ} {d : Desc} (hs : Quiet s₀ s) : Quiet s₀ (putRec s q d) := by
  unfold putRec
  split
  · exact hs
  · exact putQ_quiet hs

theorem armNow_quiet {q : ℕ} {x : Queue} {d : Desc} (hs : Quiet s₀ s) : Quiet s₀ (armNow s q x d) := by
  unfold armNow
  refine .ite (fun _ => complete_quiet hs) fun _ => .ite (fun _ => putRec_quiet hs) fun _ => .ite (fun _ => complete_quiet
      (putRec_quiet hs)) fun _ => ?_
  split
  · rename_i e
    exact .fst e (readPay_quiet hs)
  · rename_i e
    exact complete_quiet (.fst e (readPay_quiet hs))
  · rename_i e
    refine .ite (fun _ => complete_quiet (.fst e (readPay_quiet hs))) fun _ => .ite (fun _ => ?_) fun _ => putRec_quiet (.fst e
        (readPay_quiet hs))
    split
    · exact .fst e (readPay_quiet hs)
    · exact .ite (fun _ => complete_quiet (putRec_quiet (.fst e (readPay_quiet hs)))) fun _ => putRec_quiet (.fst e (readPay_quiet
          hs))

theorem descriptorArm_quiet {q : ℕ} {i : W32} (hs : Quiet s₀ s) : Quiet s₀ (descriptorArm s q i) := by
  unfold descriptorArm
  split
  · exact hs
  · split
    · exact hs
    · exact .ite (fun _ => hs) fun _ => .ite (fun _ => putRec_quiet hs) fun _ => .ite (fun _ => armNow_quiet (putQ_quiet hs))
          fun _ => armNow_quiet hs

theorem putLaunch_quiet {l : Launch} (hs : Quiet s₀ s) : Quiet s₀ (putLaunch s l) :=
  setObj_quiet hs

theorem putNode_quiet {q : ℕ} {i : W32} {k : ℕ} {d : Desc} (hs : Quiet s₀ s) : Quiet s₀ (putNode s q i k d) := by
  unfold putNode
  split
  · exact hs
  · exact putLaunch_quiet hs

theorem setWork_quiet {q : ℕ} {i : W32} {node : Option ℕ} {f : Desc → Desc} (hs : Quiet s₀ s) : Quiet s₀ (setWork s q i node f) :=
    by
  unfold setWork
  split
  · split
    · exact hs
    · exact putQ_quiet hs
  · split
    · exact hs
    · exact putLaunch_quiet hs

theorem finishWork_quiet {q : ℕ} {i : W32} {node : Option ℕ} {st : ℕ} (hs : Quiet s₀ s) : Quiet s₀ (finishWork s q i node st) :=
  setWork_quiet hs

theorem endWork_quiet {q : ℕ} {i : W32} {node : Option ℕ} {st : ℕ} (hs : Quiet s₀ s) : Quiet s₀ (endWork s q i node st) := by
  unfold endWork
  split
  · exact complete_quiet hs
  · exact setWork_quiet hs

theorem beginNode_quiet {q : ℕ} {i : W32} {k op : ℕ} (hs : Quiet s₀ s) : Quiet s₀ (beginNode s q i k op).1 := by
  unfold beginNode
  split
  · split
    · exact hs
    · split
      · exact hs
      · split
        · rename_i e
          exact .fst e (vnat_quiet hs)
        · rename_i e
          dsimp only
          split
          · dsimp only
            exact endWork_quiet (.fst e (vnat_quiet hs))
          · split
            · exact .fst e (vnat_quiet hs)
            · split
              · dsimp only
                exact endWork_quiet (.fst e (vnat_quiet hs))
              · split
                · rename_i e'
                  exact .fst e' (readPay_quiet (.fst e (vnat_quiet hs)))
                · rename_i e'
                  dsimp only
                  exact endWork_quiet (.fst e' (readPay_quiet (.fst e (vnat_quiet hs))))
                · rename_i e'
                  split
                  · dsimp only
                    exact endWork_quiet (.fst e' (readPay_quiet (.fst e (vnat_quiet hs))))
                  · exact putNode_quiet (.fst e' (readPay_quiet (.fst e (vnat_quiet hs))))
  · exact hs

theorem beginDesc_quiet {q : ℕ} {i : W32} {op : ℕ} (hs : Quiet s₀ s) : Quiet s₀ (beginDesc s q i op).1 := by
  unfold beginDesc
  split
  · exact hs
  · split
    · exact hs
    · split
      · exact hs
      · split
        · split
          · exact complete_quiet hs
          · exact hs
        · split
          · exact complete_quiet hs
          · split
            · rename_i e
              exact .fst e (readPay_quiet hs)
            · rename_i e
              exact complete_quiet (.fst e (readPay_quiet hs))
            · rename_i e
              split
              · exact complete_quiet (.fst e (readPay_quiet hs))
              · exact putRec_quiet (.fst e (readPay_quiet hs))

theorem beginWork_quiet {q : ℕ} {i : W32} {node : Option ℕ} {op : ℕ} (hs : Quiet s₀ s) : Quiet s₀ (beginWork s q i node op).1 := by
  unfold beginWork
  split
  · exact hs
  · split
    · exact beginDesc_quiet hs
    · exact beginNode_quiet hs

theorem markStarted_quiet {q : ℕ} {i : W32} {node : Option ℕ} (hs : Quiet s₀ s) : Quiet s₀ (markStarted s q i node) :=
  setWork_quiet hs

theorem startNop_quiet {q : ℕ} {i : W32} {node : Option ℕ} (hs : Quiet s₀ s) : Quiet s₀ (startNop s q i node) := by
  unfold startNop
  split
  · rename_i e
    exact endWork_quiet (.fst e (beginWork_quiet hs))
  · rename_i e
    exact .fst e (beginWork_quiet hs)

theorem startBudget_quiet {q : ℕ} {i : W32} (hs : Quiet s₀ s) : Quiet s₀ (startBudget s q i) := by
  unfold startBudget
  split
  · rename_i e
    exact complete_quiet (.fst e (beginWork_quiet hs))
  · rename_i e
    exact .fst e (beginWork_quiet hs)

theorem startSignal_quiet {q : ℕ} {i : W32} {node : Option ℕ} (hs : Quiet s₀ s) : Quiet s₀ (startSignal s q i node) := by
  unfold startSignal
  split
  · rename_i e
    refine endWork_quiet ?_
    split
    · exact fenceCycle_quiet (.fst e (beginWork_quiet hs))
    · exact .fst e (beginWork_quiet hs)
  · rename_i e
    exact .fst e (beginWork_quiet hs)

theorem startWait_quiet {q : ℕ} {i : W32} {node : Option ℕ} (hs : Quiet s₀ s) : Quiet s₀ (startWait s q i node) := by
  unfold startWait
  split
  · refine .ite (fun _ => hs) fun _ => ?_
    split
    · rename_i e
      exact complete_quiet (.fst e (beginWork_quiet hs))
    · rename_i e
      exact .fst e (beginWork_quiet hs)
  · split
    · exact hs
    · refine .ite (fun _ => .ite (fun _ => hs) fun _ => endWork_quiet hs) fun _ => ?_
      split
      · rename_i e
        exact .fst e (beginWork_quiet hs)
      · rename_i e
        split
        · exact .fst e (beginWork_quiet hs)
        · exact .ite (fun _ => endWork_quiet (.fst e (beginWork_quiet hs))) fun _ => .ite (fun _ => endWork_quiet (.fst e
              (beginWork_quiet hs))) fun _ => setWork_quiet (.fst e (beginWork_quiet hs))

theorem startWaitTick_quiet {q : ℕ} {i : W32} (hs : Quiet s₀ s) : Quiet s₀ (startWaitTick s q i) := by
  unfold startWaitTick
  split
  · exact hs
  · split
    · exact hs
    · exact .ite (fun _ => complete_quiet hs) fun _ => hs

theorem copyLoop_quiet {w : Who} {n : ℕ} {src dst : List (Tr × ℕ)} (hs : Quiet s₀ s) : Quiet s₀ (copyLoop w n s src dst) := by
  induction n generalizing s src dst with
  | zero => exact hs
  | succ n ih =>
    unfold copyLoop
    exact ih (writePieces_quiet (readPieces_quiet hs))

theorem startCopy_quiet {q : ℕ} {i : W32} {node : Option ℕ} (hs : Quiet s₀ s) : Quiet s₀ (startCopy s q i node) := by
  unfold startCopy
  split
  · rename_i e
    exact .fst e (beginWork_quiet hs)
  · rename_i e
    dsimp only
    split
    · rename_i e'
      exact .fst e' (reach_quiet (.fst e (beginWork_quiet hs)))
    · rename_i e'
      split
      · rename_i e₂
        exact .fst e₂ (reach_quiet (.fst e' (reach_quiet (.fst e (beginWork_quiet hs)))))
      · rename_i e₂
        exact finishWork_quiet (markStarted_quiet (copyLoop_quiet (.fst e₂ (reach_quiet (.fst e' (reach_quiet (.fst e
            (beginWork_quiet hs))))))))

theorem startFill_quiet {q : ℕ} {i : W32} {node : Option ℕ} (hs : Quiet s₀ s) : Quiet s₀ (startFill s q i node) := by
  unfold startFill
  split
  · rename_i e
    exact .fst e (beginWork_quiet hs)
  · rename_i e
    split
    · rename_i e'
      exact .fst e' (vwrite_quiet (.fst e (beginWork_quiet hs)))
    · rename_i e'
      exact finishWork_quiet (markStarted_quiet (.fst e' (vwrite_quiet (.fst e (beginWork_quiet hs)))))

theorem readNpreds_quiet {who : Who} {table n k : ℕ} (hs : Quiet s₀ s) : Quiet s₀ (readNpreds s who table n k).1 := by
  induction n generalizing s k with
  | zero => exact hs
  | succ n ih =>
    unfold readNpreds
    split
    · rename_i e
      exact .fst e (vnat_quiet hs)
    · rename_i e
      split <;> (rename_i e'; exact .fst e' (ih (.fst e (vnat_quiet hs))))

theorem settleLaunch_quiet {q : ℕ} {i : W32} (hs : Quiet s₀ s) : Quiet s₀ (settleLaunch s q i) := by
  unfold settleLaunch
  split
  · exact hs
  · split
    · exact hs
    · exact finishWork_quiet hs

theorem readGraph_quiet {q : ℕ} {i : W32} (hs : Quiet s₀ s) : Quiet s₀ (readGraph s q i) := by
  unfold readGraph
  split
  · refine .ite (fun _ => hs) fun _ => ?_
    split
    · rename_i e
      exact .fst e (readNpreds_quiet hs)
    · rename_i e
      exact settleLaunch_quiet (putLaunch_quiet (.fst e (readNpreds_quiet hs)))
  · exact hs

theorem addLaunch_quiet {q : ℕ} {i : W32} {g : ℕ} {y : Graph} {b : Bool} (hs : Quiet s₀ s) : Quiet s₀ (addLaunch s q i g y b) :=
  setObj_quiet hs

theorem startGraph_quiet {q : ℕ} {i : W32} (hs : Quiet s₀ s) : Quiet s₀ (startGraph s q i) := by
  unfold startGraph
  refine .ite (fun _ => .ite (fun _ => readGraph_quiet hs) fun _ => hs) fun _ => ?_
  split
  · rename_i e
    exact .fst e (beginWork_quiet hs)
  · rename_i e
    split
    · exact .fst e (beginWork_quiet hs)
    · split
      · exact .fst e (beginWork_quiet hs)
      · split
        · exact complete_quiet (.fst e (beginWork_quiet hs))
        · exact .ite (fun _ => .fst e (beginWork_quiet hs)) fun _ => readGraph_quiet (markStarted_quiet (addLaunch_quiet (.fst e
              (beginWork_quiet hs))))

theorem readSuccs_quiet {who : Who} {a : ℕ} (hs : Quiet s₀ s) : Quiet s₀ (readSuccs s who a).1 := by
  unfold readSuccs
  split <;> (rename_i e; exact .fst e (vnat_quiet hs))

theorem nodeOk_quiet {q : ℕ} {i : W32} {k : ℕ} {x : Queue} {l : Launch} {n : Node} (hs : Quiet s₀ s) : Quiet s₀ (nodeOk s q i k x l
    n) := by
  unfold nodeOk
  split
  · rename_i e
    exact .fst e (readSuccs_quiet hs)
  · rename_i e
    split
    · split
      · dsimp only
        split
        · exact chainToken_quiet (signalHandle_quiet (.fst e (readSuccs_quiet hs)))
        · exact settleLaunch_quiet (putLaunch_quiet (chainToken_quiet (signalHandle_quiet (.fst e (readSuccs_quiet hs)))))
      · dsimp only
        split
        · exact signalHandle_quiet (.fst e (readSuccs_quiet hs))
        · exact settleLaunch_quiet (putLaunch_quiet (signalHandle_quiet (.fst e (readSuccs_quiet hs))))
    · split
      · dsimp only
        split
        · exact chainToken_quiet (.fst e (readSuccs_quiet hs))
        · exact settleLaunch_quiet (putLaunch_quiet (chainToken_quiet (.fst e (readSuccs_quiet hs))))
      · dsimp only
        split
        · exact .fst e (readSuccs_quiet hs)
        · exact settleLaunch_quiet (putLaunch_quiet (.fst e (readSuccs_quiet hs)))

theorem nodeComplete_quiet {q : ℕ} {i : W32} {k : ℕ} (hs : Quiet s₀ s) : Quiet s₀ (nodeComplete s q i k) := by
  unfold nodeComplete
  split
  · split
    · exact hs
    · split
      · exact nodeOk_quiet hs
      · exact .ite (fun _ => setWork_quiet (startClean_quiet hs)) fun _ => nodeOk_quiet hs
      · exact settleLaunch_quiet (putLaunch_quiet hs)
      · exact hs
  · exact hs

theorem cleanedGroups_quiet {n : ℕ} (hs : Quiet s₀ s) : Quiet s₀ (cleanedGroups s n) :=
  .upd hs

theorem cleanDone_quiet {n : ℕ} (hs : Quiet s₀ s) : Quiet s₀ (cleanDone s n) := by
  unfold cleanDone
  refine .ite (fun _ => hs) fun _ => setObj_quiet (.foldl (fun _ _ h => ?_) (cleanedGroups_quiet (.upd hs)))
  split
  · exact putQ_quiet h
  · exact h

theorem composeStat_quiet {q : ℕ} {i : W32} (hs : Quiet s₀ s) : Quiet s₀ (composeStat s q i) := by
  unfold composeStat
  split
  · exact hs
  · exact .upd hs

theorem descriptorComplete_quiet {q : ℕ} {i : W32} (hs : Quiet s₀ s) : Quiet s₀ (descriptorComplete s q i) := by
  unfold descriptorComplete
  split
  · exact hs
  · split
    · exact hs
    · split
      · exact complete_quiet (.ite (fun _ => composeStat_quiet hs) fun _ => hs)
      · exact complete_quiet hs
      · exact hs

/-! ## Blocks -/

theorem addRun_quiet {r : Run} (hs : Quiet s₀ s) : Quiet s₀ (addRun s r) :=
  .upd hs

theorem launchKernel_quiet {q : ℕ} {i : W32} {node : Option ℕ} {x : Queue} {w : W512} {rt : Bool} {fail : State → State}
    (hfail : ∀ {s}, Quiet s₀ s → Quiet s₀ (fail s)) (hs : Quiet s₀ s) : Quiet s₀ (launchKernel s q i node x w rt fail) := by
  unfold launchKernel
  split
  · exact hs
  · refine .ite (fun _ => hs) fun _ => .ite (fun _ => addRun_quiet (markStarted_quiet hs)) fun _ => ?_
    split
    · rename_i e
      exact .fst e (vread_quiet hs)
    · rename_i e
      have hv := Quiet.fst e (vread_quiet hs)
      exact .ite (fun _ => hfail hv) fun _ =>
        .ite (fun _ => finishWork_quiet (markStarted_quiet hv)) fun _ => addRun_quiet (markStarted_quiet hv)

theorem startKernel_quiet {q : ℕ} {i : W32} {node : Option ℕ} (hs : Quiet s₀ s) : Quiet s₀ (startKernel s q i node) := by
  unfold startKernel
  split
  · rename_i e
    exact .fst e (beginWork_quiet hs)
  · rename_i e
    exact launchKernel_quiet (fun h => endWork_quiet h) (.fst e (beginWork_quiet hs))

theorem putGroup_quiet {core regs : ℕ} {g : Group} (hs : Quiet s₀ s) : Quiet s₀ (putGroup s core regs g) :=
  .upd hs

theorem putBlock_quiet {core : ℕ} {b : Block} (hs : Quiet s₀ s) : Quiet s₀ (putBlock s core b) :=
  .foldl (fun _ _ h => putGroup_quiet h) (.upd hs)

theorem connectGrid_quiet {id : ℕ} {cores : List ℕ} {grid : List (ℕ × W512)} (hs : Quiet s₀ s) : Quiet s₀ (connectGrid s id cores
    grid) :=
  .upd hs

theorem dropGrid_quiet {id : ℕ} (hs : Quiet s₀ s) : Quiet s₀ (dropGrid s id) :=
  .upd hs

theorem placeCluster_quiet {id : ℕ} (hs : Quiet s₀ s) : Quiet s₀ (placeCluster s id) := by
  unfold placeCluster
  split
  · exact hs
  · refine .ite (fun _ => hs) fun _ => .ite (fun _ => .ite (fun _ => finishWork_quiet (.upd hs)) fun _ => .ite (fun _ => hs)
        fun _ => ?_) fun _ => ?_
    · split
      · rename_i e
        exact .fst e (reachDoms_quiet hs)
      · rename_i e
        exact .upd (.foldl (fun _ _ h => putBlock_quiet h) (connectGrid_quiet (.fst e (reachDoms_quiet hs))))
    · dsimp only
      split
      · exact hs
      · split
        · rename_i e
          exact .fst e (reachDoms_quiet hs)
        · rename_i e
          exact .upd (.foldl (fun _ _ h => putBlock_quiet h) (.fst e (reachDoms_quiet hs)))

theorem endRun_quiet {id : ℕ} {r : Run} (hs : Quiet s₀ s) : Quiet s₀ (endRun s id r) := by
  unfold endRun
  dsimp only
  split
  · exact .ite (fun _ => queueDrained_quiet (putQ_quiet (dropGrid_quiet (.upd hs)))) fun _ => setWork_quiet (dropGrid_quiet (.upd
        hs))
  · exact finishWork_quiet (dropGrid_quiet (.upd hs))

theorem runAfter_quiet {id : ℕ} (hs : Quiet s₀ s) : Quiet s₀ (runAfter s id) := by
  unfold runAfter
  split
  · exact hs
  · exact .ite (fun _ => hs) fun _ => endRun_quiet hs

theorem endBlock_quiet {b : ℕ} (hs : Quiet s₀ s) : Quiet s₀ (endBlock s b) := by
  unfold endBlock
  split
  · exact hs
  · exact .ite (fun _ => hs) fun _ => runAfter_quiet (dropBlocks_quiet hs)

theorem launchCont_quiet {q : ℕ} (hs : Quiet s₀ s) : Quiet s₀ (launchCont s q) := by
  unfold launchCont
  split
  · exact hs
  · split
    · exact hs
    · refine .ite (fun _ => hs) fun _ => .ite (fun _ => complete_quiet hs) fun _ => ?_
      dsimp only
      split
      · exact launchKernel_quiet (fun h => complete_quiet h) hs
      · split
        · exact launchKernel_quiet (fun h => complete_quiet h) hs
        · exact .ite (fun _ => launchKernel_quiet (fun h => complete_quiet h) hs) fun _ => putQ_quiet (launchKernel_quiet (fun h =>
              complete_quiet h) hs)

/-! ## The mesh -/

/-- The mesh moves requests, and is quiet. -/
theorem Moved.quiet {t : State} (h : Moved s t) (hs : Quiet s₀ s) : Quiet s₀ t := by
  obtain ⟨_, _, _, rfl⟩ := h
  exact .upd hs

theorem setTxn_quiet {id : ℕ} {x : Txn} (hs : Quiet s₀ s) : Quiet s₀ (setTxn s id x) :=
  .upd hs

theorem nocRun_quiet {n : ℕ} (hs : Quiet s₀ s) : Quiet s₀ (nocRun n s) := (nocRun_moved n s).quiet hs

theorem nocSettle_quiet (hs : Quiet s₀ s) : Quiet s₀ (nocSettle s) := (nocSettle_moved s).quiet hs

theorem allocate_quiet {share : ℕ} (hs : Quiet s₀ s) : Quiet s₀ (allocate s share) := by
  unfold allocate
  refine .ite (fun _ => hs) fun _ => ?_
  dsimp only
  split
  · exact hs
  · split
    · exact hs
    · exact .upd (setTxn_quiet hs)

end Sys2Proof.Machine
end

section
/-! Proofs: the instructions of the lanes, the tensor engines, the Bobbin engines and the passes are quiet. -/

namespace Sys2Proof.Machine

variable {s₀ s : State}

/-! ## Instructions of the lanes -/

theorem setGroup_quiet {key : ℕ} {g : Group} (hs : Quiet s₀ s) : Quiet s₀ (setGroup s key g) :=
  .upd hs

theorem putIss_quiet {i : Iss} {g : Group} {subs : List Sub} (hs : Quiet s₀ s) : Quiet s₀ (putIss s i g subs) :=
  setGroup_quiet (moves_quiet hs)

theorem passToken_quiet {key input n : ℕ} (hs : Quiet s₀ s) : Quiet s₀ (passToken s key input n) :=
  .upd hs

theorem retire_quiet {i : Iss} {g : Group} (hs : Quiet s₀ s) : Quiet s₀ (retire s i g) :=
  putIss_quiet hs

theorem laneOp_quiet {r : SgRef} {d : ℕ} {f : Group → ℕ → W32} (hs : Quiet s₀ s) : Quiet s₀ (laneOp s r d f) := by
  unfold laneOp
  split
  · exact hs
  · exact retire_quiet hs

theorem barRelease_quiet {w : SubWait} {ids : List ℕ} (hs : Quiet s₀ s) : Quiet s₀ (barRelease s w ids) :=
  .ite (fun _ => .upd hs) fun _ => hs

theorem barCheck_quiet {id : ℕ} {b : Block} (hs : Quiet s₀ s) : Quiet s₀ (barCheck s id b) :=
  barRelease_quiet (barRelease_quiet hs)

theorem exitLanes_quiet {i : Iss} (hs : Quiet s₀ s) : Quiet s₀ (exitLanes s i) :=
  barCheck_quiet (setGroup_quiet hs)

theorem undefined_quiet {i : Iss} (hs : Quiet s₀ s) : Quiet s₀ (undefined s i) :=
  .upd (exitLanes_quiet hs)

theorem permFail_quiet {b : Block} (hs : Quiet s₀ s) : Quiet s₀ (permFail s b) :=
  markLost_quiet hs

theorem doInt_quiet {r : SgRef} {op : IntOp} {d a b c : Reg} (hs : Quiet s₀ s) : Quiet s₀ (doInt s r op d a b c) :=
  laneOp_quiet hs

theorem doFp32_quiet {r : SgRef} {op : FpOp} {d a b c : Reg} (hs : Quiet s₀ s) : Quiet s₀ (doFp32 s r op d a b c) :=
  laneOp_quiet hs

theorem doPacked_quiet {r : SgRef} {bf : Bool} {op : PkOp} {d a b c : Reg} (hs : Quiet s₀ s) : Quiet s₀ (doPacked s r bf op d a b
    c) :=
  laneOp_quiet hs

theorem doConv_quiet {r : SgRef} {src dst : Fmt} {d a : Reg} {scale : Option Reg} {rtz sat : Bool} (hs : Quiet s₀ s) : Quiet s₀
    (doConv s r src dst d a scale rtz sat) := by
  unfold doConv
  split
  · exact hs
  · exact .ite (fun _ => undefined_quiet hs) fun _ => retire_quiet hs

theorem doTrans_quiet {r : SgRef} {op : TransOp} {d a : Reg} (hs : Quiet s₀ s) : Quiet s₀ (doTrans s r op d a) :=
  laneOp_quiet hs

theorem doLane_quiet {r : SgRef} {op : LaneOp} {d a b : Reg} (hs : Quiet s₀ s) : Quiet s₀ (doLane s r op d a b) := by
  unfold doLane
  split
  · exact hs
  · exact retire_quiet hs

theorem doBranch_quiet {r : SgRef} {op : BrOp} (hs : Quiet s₀ s) : Quiet s₀ (doBranch s r op) := by
  unfold doBranch
  split
  · exact hs
  · exact putIss_quiet hs

theorem doJoin_quiet {r : SgRef} {m : W32} (hs : Quiet s₀ s) : Quiet s₀ (doJoin s r m) := by
  unfold doJoin
  split
  · exact hs
  · exact setGroup_quiet hs

theorem doSr_quiet {r : SgRef} {x : SReg} {d : Reg} (hs : Quiet s₀ s) : Quiet s₀ (doSr s r x d) := by
  unfold doSr
  split
  · exact hs
  · exact .ite (fun _ => drewN_quiet (retire_quiet hs)) fun _ => retire_quiet hs

theorem lmWrite_quiet {core a : ℕ} {b : List Byte} (hs : Quiet s₀ s) : Quiet s₀ (lmWrite s core a b) :=
  .of_lm hs fun h => mwrite_wf h _ _

theorem lmAtomics_quiet {i : Iss} {key : ℕ → ℕ} {op : AtOp} {ty : AtTy} {d b c : ℕ} (hs : Quiet s₀ s) :
    Quiet s₀ (lmAtomics s i key op ty d b c).1 :=
  .foldl_fst (fun r _ h => .of_lm (t := drewN r.1 64) (drewN_quiet h) fun hm => mwrite_wf (m := r.1.cores.lm) hm _ _) hs

theorem holdIss_quiet {i : Iss} {w : SubWait} (hs : Quiet s₀ s) : Quiet s₀ (holdIss s i w) :=
  setGroup_quiet hs

theorem release_quiet {i : Iss} {sc : Scope} (hs : Quiet s₀ s) : Quiet s₀ (release s i sc).1 := by
  unfold release
  split
  · exact hs
  · split <;> exact hs
  · split
    · exact hs
    · dsimp only
      split
      · exact hs
      · exact holdIss_quiet (startClean_quiet hs)
  · split
    · exact hs
    · dsimp only
      split
      · exact hs
      · exact holdIss_quiet (startClean_quiet hs)

theorem releaseOrd_quiet {i : Iss} {a1 : Order} (hs : Quiet s₀ s) : Quiet s₀ (releaseOrd s i a1).1 := by
  unfold releaseOrd
  split
  · exact release_quiet hs
  · exact release_quiet hs
  · exact hs

theorem lmPerform_quiet {i : Iss} {a1 : LmAcc} (hs : Quiet s₀ s) : Quiet s₀ (lmPerform s i a1) := by
  unfold lmPerform
  split
  · exact retire_quiet hs
  · exact retire_quiet (.foldl (fun _ _ h => lmWrite_quiet h) hs)
  · exact retire_quiet (lmAtomics_quiet hs)

theorem doLm_quiet {r : SgRef} {x : LmAcc} (hs : Quiet s₀ s) : Quiet s₀ (doLm s r x) := by
  unfold doLm
  split
  · exact hs
  · refine .ite (fun _ => undefined_quiet hs) fun _ => .ite (fun _ => permFail_quiet hs) fun _ => ?_
    split
    · rename_i e
      exact .fst e (releaseOrd_quiet hs)
    · rename_i e
      exact lmPerform_quiet (passToken_quiet (.fst e (releaseOrd_quiet hs)))

theorem doLdc_quiet {q : SgRef} {n : ℕ} {d r o : Reg} {ord : Order} (hs : Quiet s₀ s) : Quiet s₀ (doLdc s q n d r o ord) := by
  unfold doLdc
  split
  · exact hs
  · exact .ite (fun _ => undefined_quiet hs) fun _ => .ite (fun _ => permFail_quiet hs) fun _ => .ite (fun _ => hs) fun _ =>
        drewN_quiet (retire_quiet hs)

theorem stcWrite_quiet {i : Iss} {n : ℕ} {b r o : Reg} (hs : Quiet s₀ s) : Quiet s₀ (stcWrite s i n b r o) := by
  unfold stcWrite
  refine .foldl (fun _ _ h => ?_) hs
  split
  · exact .of_lm h fun hm => mwrite_wf hm _ _
  · exact h

theorem doStc_quiet {q : SgRef} {n : ℕ} {b r o : Reg} {ord : Order} (hs : Quiet s₀ s) : Quiet s₀ (doStc s q n b r o ord) := by
  unfold doStc
  split
  · exact hs
  · refine .ite (fun _ => undefined_quiet hs) fun _ => .ite (fun _ => permFail_quiet hs) fun _ => .ite (fun _ => hs) fun _ => ?_
    split
    · rename_i e
      exact .fst e (releaseOrd_quiet hs)
    · rename_i e
      exact retire_quiet (stcWrite_quiet (.fst e (releaseOrd_quiet hs)))

theorem atcPerform_quiet {i : Iss} {op : AtOp} {ty : AtTy} {d b c r o : Reg} (hs : Quiet s₀ s) : Quiet s₀ (atcPerform s i op ty d b
    c r o) :=
  retire_quiet (drewN_quiet (lmAtomics_quiet hs))

theorem doAtc_quiet {q : SgRef} {op : AtOp} {ty : AtTy} {d b c r o : Reg} {ord : Order} (hs : Quiet s₀ s) : Quiet s₀ (doAtc s q op
    ty d b c r o ord) := by
  unfold doAtc
  split
  · exact hs
  · refine .ite (fun _ => undefined_quiet hs) fun _ => .ite (fun _ => permFail_quiet hs) fun _ => .ite (fun _ => hs) fun _ => ?_
    split
    · rename_i e
      exact .fst e (releaseOrd_quiet hs)
    · rename_i e
      exact atcPerform_quiet (.fst e (releaseOrd_quiet hs))

theorem readLines_quiet {w : Who} {l : List ℕ} (hs : Quiet s₀ s) : Quiet s₀ (readLines w s l).1 := by
  induction l generalizing s with
  | nil => exact hs
  | cons x l ih =>
    unfold readLines
    split
    · rename_i e
      exact .fst e (vread_quiet hs)
    · rename_i e
      split <;> (rename_i e'; exact .fst e' (ih (.fst e (vread_quiet hs))))

theorem doLoad_quiet {r : SgRef} {n : ℕ} {d a : Reg} {ord : Order} (hs : Quiet s₀ s) : Quiet s₀ (doLoad s r n d a ord) := by
  unfold doLoad
  split
  · exact hs
  · refine .ite (fun _ => undefined_quiet hs) fun _ => .ite (fun _ => permFail_quiet hs) fun _ => ?_
    split
    · rename_i e
      exact .fst e (readLines_quiet hs)
    · rename_i e
      exact retire_quiet (.fst e (readLines_quiet hs))

theorem storeLines_quiet {i : Iss} {writes : List (ℕ × List Byte)} {l : List ℕ} (hs : Quiet s₀ s) : Quiet s₀ (storeLines i writes s
    l).1 := by
  induction l generalizing s with
  | nil => exact hs
  | cons x l ih =>
    unfold storeLines
    split
    · rename_i e
      exact .fst e (reach_quiet hs)
    · rename_i e
      split
      · exact .fst e (reach_quiet hs)
      · exact ih (allocate_quiet (.upd (.fst e (reach_quiet hs))))

theorem doStore_quiet {r : SgRef} {n : ℕ} {a b : Reg} {ord : Order} {late : Bool} (hs : Quiet s₀ s) : Quiet s₀ (doStore s r n a b
    ord late) := by
  unfold doStore
  split
  · exact hs
  · refine .ite (fun _ => undefined_quiet hs) fun _ => .ite (fun _ => permFail_quiet hs) fun _ => ?_
    split
    · rename_i e
      exact .fst e (releaseOrd_quiet hs)
    · rename_i e
      refine .ite (fun _ => ?_) fun _ => ?_
      · split
        · rename_i e'
          exact retire_quiet (.fst e' (storeLines_quiet (.fst e (releaseOrd_quiet hs))))
        · rename_i e'
          exact .upd (.fst e' (storeLines_quiet (.fst e (releaseOrd_quiet hs))))
      · split
        · rename_i e'
          exact .fst e' (vwriteAll_quiet (.fst e (releaseOrd_quiet hs)))
        · rename_i e'
          exact retire_quiet (.fst e' (vwriteAll_quiet (.fst e (releaseOrd_quiet hs))))

theorem reachAtoms_quiet {w : Who} {l : List ℕ} (hs : Quiet s₀ s) : Quiet s₀ (reachAtoms w s l).1 := by
  induction l generalizing s with
  | nil => exact hs
  | cons x l ih =>
    unfold reachAtoms
    split
    · rename_i e
      exact .fst e (reach_quiet hs)
    · rename_i e
      split <;> (rename_i e'; exact .fst e' (ih (.fst e (reach_quiet hs))))

theorem atomPerform_quiet {i : Iss} {op : AtOp} {ty : AtTy} {d a b c : Reg} {lines : List (ℕ × List (Tr × ℕ))} (hs : Quiet s₀ s) :
    Quiet s₀ (atomPerform s i op ty d a b c lines) :=
  retire_quiet (.foldl_fst (fun _ _ h => writePieces_quiet (drewN_quiet (readPieces_quiet h))) hs)

theorem doAtom_quiet {r : SgRef} {op : AtOp} {ty : AtTy} {d a b c : Reg} {ord : Order} (hs : Quiet s₀ s) : Quiet s₀ (doAtom s r op
    ty d a b c ord) := by
  unfold doAtom
  split
  · exact hs
  · refine .ite (fun _ => undefined_quiet hs) fun _ => .ite (fun _ => permFail_quiet hs) fun _ => ?_
    split
    · rename_i e
      exact .fst e (releaseOrd_quiet hs)
    · rename_i e
      split
      · rename_i e'
        exact .fst e' (reachAtoms_quiet (.fst e (releaseOrd_quiet hs)))
      · rename_i e'
        exact .ite (fun _ => permFail_quiet (.fst e' (reachAtoms_quiet (.fst e (releaseOrd_quiet hs))))) fun _ => atomPerform_quiet
            (.fst e' (reachAtoms_quiet (.fst e (releaseOrd_quiet hs))))

theorem sendMsg_quiet {key : ℕ} {o : OutCh} {m : W512} (hs : Quiet s₀ s) : Quiet s₀ (sendMsg s key o m) :=
  .upd hs

theorem takeMsg_quiet {key : ℕ} {rest : List W512} (hs : Quiet s₀ s) : Quiet s₀ (takeMsg s key rest) :=
  .upd hs

theorem doChstat_quiet {r : SgRef} {ch : Fin 16} {d e : Reg} (hs : Quiet s₀ s) : Quiet s₀ (doChstat s r ch d e) := by
  unfold doChstat
  split
  · exact hs
  · exact retire_quiet hs

theorem arriveMsg_quiet {key : ℕ} (hs : Quiet s₀ s) : Quiet s₀ (arriveMsg s key) := by
  unfold arriveMsg
  split
  · exact hs
  · exact .ite (fun _ => hs) fun _ => .upd hs

theorem creditBack_quiet {key : ℕ} (hs : Quiet s₀ s) : Quiet s₀ (creditBack s key) :=
  .ite (fun _ => .upd hs) fun _ => hs

theorem doBar_quiet {r : SgRef} {w : SubWait} (hs : Quiet s₀ s) : Quiet s₀ (doBar s r w) := by
  unfold doBar
  split
  · exact hs
  · exact .ite (fun _ => retire_quiet hs) fun _ => barCheck_quiet (holdIss_quiet hs)

theorem doFence_quiet {r : SgRef} {sc : Scope} (hs : Quiet s₀ s) : Quiet s₀ (doFence s r sc) := by
  unfold doFence
  split
  · exact hs
  · split
    · rename_i e
      exact .fst e (release_quiet hs)
    · rename_i e
      exact retire_quiet (.fst e (release_quiet hs))

theorem doCont_quiet {r : SgRef} {a : Reg} (hs : Quiet s₀ s) : Quiet s₀ (doCont s r a) := by
  unfold doCont
  split
  · exact hs
  · split
    · refine .ite (fun _ => retire_quiet hs) fun _ => .ite (fun _ => permFail_quiet hs) fun _ => ?_
      split
      · rename_i e
        exact .fst e (vnat_quiet hs)
      · rename_i e
        exact retire_quiet (.upd (.fst e (vnat_quiet hs)))
    · exact retire_quiet hs

theorem doExit_quiet {r : SgRef} (hs : Quiet s₀ s) : Quiet s₀ (doExit s r) := by
  unfold doExit
  split
  · exact hs
  · exact exitLanes_quiet hs

theorem doUndefined_quiet {r : SgRef} (hs : Quiet s₀ s) : Quiet s₀ (doUndefined s r) := by
  unfold doUndefined
  split
  · exact hs
  · exact undefined_quiet hs

/-! ## Tensor engines -/

theorem setEng_quiet {core e : ℕ} {x : Engine} (hs : Quiet s₀ s) : Quiet s₀ (setEng s core e x) :=
  .upd hs

theorem claim_quiet {core block m : ℕ} (hs : Quiet s₀ s) : Quiet s₀ (claim s core block m) :=
  .foldl (fun _ _ h => setEng_quiet h) hs

theorem passSub_quiet {key : ℕ} {u : Sub} (hs : Quiet s₀ s) : Quiet s₀ (passSub s key u) := by
  unfold passSub
  split
  · exact hs
  · exact setGroup_quiet hs

theorem claimBad_quiet {i : Iss} (hs : Quiet s₀ s) : Quiet s₀ (claimBad s i) :=
  .upd (exitLanes_quiet hs)

/-- A claim that is settled at once, because its block holds engines. -/
theorem settleClaim_quiet {c : ℕ × ℕ × ℕ × Sub} {t : State} (e : settleClaim s c = some t) (hs : Quiet s₀ s) : Quiet s₀ t := by
  unfold settleClaim at e
  dsimp only at e
  split at e
  · cases e
  · split at e
    · cases e
      exact passSub_quiet hs
    · split at e
      · cases e
        exact claimBad_quiet hs
      · cases e

/-- One claim of a core is settled or granted. -/
theorem grantOne_quiet {core : ℕ} {t : State} (e : grantOne s core = some t) (hs : Quiet s₀ s) : Quiet s₀ t := by
  unfold grantOne at e
  dsimp only at e
  split at e
  · rename_i e'
    cases e
    obtain ⟨_, _, ec⟩ := List.exists_of_findSome?_eq_some e'
    exact settleClaim_quiet ec hs
  · split at e
    · cases e
    · cases e
      exact .upd (passSub_quiet (claim_quiet hs))

theorem grantClaims_quiet {core n : ℕ} (hs : Quiet s₀ s) : Quiet s₀ (grantClaims core n s) := by
  induction n generalizing s with
  | zero => exact hs
  | succ n ih =>
    unfold grantClaims
    split
    · exact hs
    · rename_i e
      exact ih (grantOne_quiet e hs)

theorem doMclaim_quiet {r : SgRef} {m : ℕ} (hs : Quiet s₀ s) : Quiet s₀ (doMclaim s r m) := by
  unfold doMclaim
  split
  · exact grantClaims_quiet hs
  · exact .ite (fun _ => grantClaims_quiet (setGroup_quiet hs)) fun _ => .ite (fun _ => retire_quiet hs) fun _ => claimBad_quiet hs

theorem releaseEng_quiet {core e : ℕ} (hs : Quiet s₀ s) : Quiet s₀ (releaseEng s core e) :=
  setEng_quiet hs

theorem doMrel_quiet {r : SgRef} {m : ℕ} (hs : Quiet s₀ s) : Quiet s₀ (doMrel s r m) := by
  unfold doMrel
  split
  · exact hs
  · exact grantClaims_quiet (.foldl (fun _ _ h => .ite (fun _ => releaseEng_quiet h) fun _ => setEng_quiet h) (retire_quiet hs))

theorem doMwait_quiet {r : SgRef} {m : ℕ} (hs : Quiet s₀ s) : Quiet s₀ (doMwait s r m) := by
  unfold doMwait
  split
  · exact hs
  · exact .ite (fun _ => retire_quiet hs) fun _ => setGroup_quiet hs

theorem mwaitCore_quiet {core e : ℕ} (hs : Quiet s₀ s) : Quiet s₀ (mwaitCore s core e) :=
  .upd hs

theorem readsLines_quiet {i : Iss} {o : EOp} (hs : Quiet s₀ s) : Quiet s₀ (readsLines s i o).1 := by
  unfold readsLines
  dsimp only
  split
  · exact hs
  · exact vread_quiet hs

theorem matIssue_quiet {r : SgRef} {e : ℕ} {k : MatKind} {regs : List ℕ} (hs : Quiet s₀ s) : Quiet s₀ (matIssue s r e k regs) := by
  unfold matIssue
  split
  · exact hs
  · refine .ite (fun _ => hs) fun _ => .ite (fun _ => undefined_quiet hs) fun _ => .ite (fun _ => .upd (undefined_quiet hs))
        fun _ => .ite (fun _ => undefined_quiet hs) fun _ => .ite (fun _ => .upd (putIss_quiet hs)) fun _ => ?_
    dsimp only
    split
    · rename_i e'
      exact .fst e' (readsLines_quiet hs)
    · rename_i e'
      exact .upd (setEng_quiet (putIss_quiet (.fst e' (readsLines_quiet hs))))

theorem engineLost_quiet {x : Engine} {reason : ℕ} (hs : Quiet s₀ s) : Quiet s₀ (engineLost s x reason) := by
  unfold engineLost
  split
  · exact hs
  · exact markLost_quiet hs

theorem engineTakes_quiet {core ch e : ℕ} (hs : Quiet s₀ s) : Quiet s₀ (engineTakes s core ch e) := by
  unfold engineTakes
  split
  · exact hs
  · exact setEng_quiet (takeMsg_quiet hs)

theorem dealMsgs_quiet {core ch e n : ℕ} (hs : Quiet s₀ s) : Quiet s₀ (dealMsgs core ch e n s) := by
  induction n generalizing s with
  | zero => exact hs
  | succ n ih =>
    unfold dealMsgs
    refine .ite (fun _ => hs) fun _ => ?_
    split
    · exact hs
    · exact ih (passToken_quiet (engineTakes_quiet hs))

theorem stageIn_quiet {core e : ℕ} (hs : Quiet s₀ s) : Quiet s₀ (stageIn s core e) := by
  unfold stageIn
  dsimp only
  split
  · refine dealMsgs_quiet ?_
    split
    · exact dealMsgs_quiet hs
    · exact hs
  · split
    · exact dealMsgs_quiet hs
    · exact hs

theorem engineSends_quiet {core ch e : ℕ} (hs : Quiet s₀ s) : Quiet s₀ (engineSends s core ch e) := by
  unfold engineSends
  dsimp only
  split
  · exact setEng_quiet (sendMsg_quiet hs)
  · exact hs

theorem dealCredits_quiet {core ch e n : ℕ} (hs : Quiet s₀ s) : Quiet s₀ (dealCredits core ch e n s) := by
  induction n generalizing s with
  | zero => exact hs
  | succ n ih =>
    unfold dealCredits
    refine .ite (fun _ => hs) fun _ => ?_
    split
    · exact hs
    · exact ih (passToken_quiet (engineSends_quiet hs))

theorem mwaitDrop_quiet {core e n : ℕ} (hs : Quiet s₀ s) : Quiet s₀ (mwaitDrop core e n s) := by
  induction n generalizing s with
  | zero => exact hs
  | succ n ih =>
    unfold mwaitDrop
    exact ih (mwaitCore_quiet hs)

theorem headDone_quiet {core e : ℕ} (hs : Quiet s₀ s) : Quiet s₀ (headDone s core e) := by
  unfold headDone
  dsimp only
  split
  · exact mwaitCore_quiet hs
  · exact .ite (fun _ => grantClaims_quiet (releaseEng_quiet (mwaitDrop_quiet (mwaitCore_quiet hs)))) fun _ => setEng_quiet
        (mwaitCore_quiet hs)

/-- The state in which the execution of a queued instruction leaves the machine. -/
def Exec.state : Exec → State
  | .done s _ => s
  | .bad s => s
  | .wait s => s

theorem Quiet.ite_exec {c : Prop} [Decidable c] {a b : Exec} (ha : c → Quiet s₀ a.state) (hb : ¬ c → Quiet s₀ b.state) :
    Quiet s₀ (if c then a else b).state := by
  split
  · exact ha ‹_›
  · exact hb ‹_›

theorem runHeadMma_quiet {core : ℕ} {x : Engine} {o : EOp} (hs : Quiet s₀ s) : Quiet s₀ (runHeadMma s core x o).state := by
  unfold runHeadMma
  dsimp only
  split <;> exact hs

theorem runHeadStore_quiet {core e : ℕ} {x : Engine} {o : EOp} (hs : Quiet s₀ s) :
    Quiet s₀ (runHeadStore s core e x o).state := by
  unfold runHeadStore
  have hd : Quiet s₀ (dealCredits core (bits o.ctrl 3 0) e 9 s) := dealCredits_quiet hs
  refine .ite_exec (fun _ => .ite_exec (fun _ => hd) fun _ => hd) fun _ => .ite_exec (fun _ => hs) fun _ => .ite_exec (fun _ => ?_)
    fun _ => .ite_exec (fun _ => hs) fun _ => hs
  exact .ite_exec (fun _ => .foldl (fun _ _ h => lmWrite_quiet h) hs) fun _ => hs

theorem runHeadLoad_quiet {core : ℕ} {x : Engine} {o : EOp} (hs : Quiet s₀ s) : Quiet s₀ (runHeadLoad s core x o).state := by
  unfold runHeadLoad
  refine .ite_exec (fun _ => hs) fun _ => ?_
  split <;> exact hs

theorem runHeadLoadB_quiet {core : ℕ} {x : Engine} {o : EOp} (hs : Quiet s₀ s) : Quiet s₀ (runHeadLoadB s core x o).state := by
  unfold runHeadLoadB
  refine .ite_exec (fun _ => hs) fun _ => ?_
  dsimp only
  split <;> exact .ite_exec (fun _ => hs) fun _ => hs

theorem runHead_quiet {core e : ℕ} {x : Engine} {o : EOp} (hs : Quiet s₀ s) : Quiet s₀ (runHead s core e x o).state := by
  unfold runHead
  split
  · exact runHeadMma_quiet hs
  · exact runHeadStore_quiet hs
  · exact runHeadLoad_quiet hs
  · exact runHeadLoadB_quiet hs

theorem matrixComplete_quiet {core e : ℕ} (hs : Quiet s₀ s) : Quiet s₀ (matrixComplete s core e) := by
  unfold matrixComplete
  split
  · rename_i o _ _ _ _
    have hr : Quiet s₀ (runHead (stageIn s core e) core e (engOf (stageIn s core e) core e) o).state :=
      runHead_quiet (stageIn_quiet hs)
    dsimp only
    split
    · rename_i e'
      rw [e'] at hr
      exact headDone_quiet (setEng_quiet (moves_quiet hr))
    · rename_i e'
      rw [e'] at hr
      exact engineLost_quiet hr
    · rename_i e'
      rw [e'] at hr
      exact hr
  · exact hs


/-! ## Bobbin engines -/

theorem setBob_quiet {k : ℕ} {x : Bobbin} (hs : Quiet s₀ s) : Quiet s₀ (setBob s k x) :=
  .upd hs

theorem doBissue_quiet {r : SgRef} {b vn : ℕ} (hs : Quiet s₀ s) : Quiet s₀ (doBissue s r b vn) := by
  unfold doBissue
  split
  · exact hs
  · exact .ite (fun _ => undefined_quiet hs) fun _ => .ite (fun _ => hs) fun _ => .ite (fun _ => permFail_quiet hs) fun _ =>
        setBob_quiet (retire_quiet hs)

theorem doBwait_quiet {r : SgRef} {n : ℕ} (hs : Quiet s₀ s) : Quiet s₀ (doBwait s r n) := by
  unfold doBwait
  split
  · exact hs
  · exact .ite (fun _ => retire_quiet hs) fun _ => setGroup_quiet hs

theorem arrayAt_quiet {x : BobCmd} {base n i : ℕ} (hs : Quiet s₀ s) : Quiet s₀ (arrayAt s x base n i).1 := by
  unfold arrayAt
  exact vnat_quiet hs

theorem arrayFrom_quiet {x : BobCmd} {base n i k : ℕ} (hs : Quiet s₀ s) : Quiet s₀ (arrayFrom s x base n i k).1 := by
  unfold arrayFrom
  split <;> (rename_i e; exact .fst e (vread_quiet hs))

theorem bobWrite_quiet {cluster : ℕ} {c : W512} {off : ℕ} {l : List Byte} (hs : Quiet s₀ s) : Quiet s₀ (bobWrite s cluster c off
    l) :=
  .ite (fun _ => lmWrite_quiet hs) fun _ => setEng_quiet hs

theorem bobDeliver_quiet {cluster : ℕ} {c : W512} {pieces : List (ℕ × List Byte)} {rec' : BitVec 128} {work : ℕ} (hs : Quiet s₀ s)
    : Quiet s₀ (bobDeliver s cluster c pieces rec' work).1 := by
  unfold bobDeliver
  split
  · exact hs
  · exact .foldl (fun _ _ h => bobWrite_quiet h) hs

theorem bobAdmit_quiet {x : BobCmd} {n i room : ℕ} (hs : Quiet s₀ s) : Quiet s₀ (bobAdmit x n s i room).1 := by
  induction n generalizing s i room with
  | zero => exact hs
  | succ n ih =>
    unfold bobAdmit
    split
    · rename_i e
      exact .fst e (arrayAt_quiet hs)
    · rename_i e
      split
      · rename_i e'
        exact .fst e' (arrayFrom_quiet (.fst e (arrayAt_quiet hs)))
      · rename_i e'
        dsimp only
        split
        · exact .fst e' (arrayFrom_quiet (.fst e (arrayAt_quiet hs)))
        · split <;> (rename_i e₂; exact .fst e₂ (ih (.fst e' (arrayFrom_quiet (.fst e (arrayAt_quiet hs))))))

theorem neighbours_quiet {x : BobCmd} {l : List (ℕ × ℕ × ℕ)} (hs : Quiet s₀ s) : Quiet s₀ (neighbours x s l).1 := by
  induction l generalizing s with
  | nil => exact hs
  | cons x l ih =>
    unfold neighbours
    split
    · rename_i e
      exact .fst e (arrayFrom_quiet hs)
    · rename_i e
      split <;> (rename_i e'; exact .fst e' (ih (.fst e (arrayFrom_quiet hs))))

theorem features_quiet {x : BobCmd} {l : List (ℕ × ℕ)} (hs : Quiet s₀ s) : Quiet s₀ (features x s l).1 := by
  induction l generalizing s with
  | nil => exact hs
  | cons x l ih =>
    unfold features
    split
    · rename_i e
      exact .fst e (vread_quiet hs)
    · rename_i e
      split <;> (rename_i e'; exact .fst e' (ih (.fst e (vread_quiet hs))))

theorem holdTile_quiet {cluster : ℕ} {x : BobCmd} {pieces : List (ℕ × List Byte)} (hs : Quiet s₀ s) : Quiet s₀ (holdTile s cluster
    x pieces) := by
  unfold holdTile
  split
  · exact .ite (fun _ => hs) fun _ => setBob_quiet hs
  · exact hs

theorem runExpand_quiet {cluster : ℕ} {x : BobCmd} (hs : Quiet s₀ s) : Quiet s₀ (runExpand s cluster x).1 := by
  unfold runExpand
  dsimp only
  split
  · rename_i e
    exact .fst e (bobAdmit_quiet hs)
  · rename_i e
    split
    · rename_i e'
      exact .fst e' (neighbours_quiet (.fst e (bobAdmit_quiet hs)))
    · rename_i e'
      split
      · exact bobDeliver_quiet (drewN_quiet (.fst e' (neighbours_quiet (.fst e (bobAdmit_quiet hs)))))
      · split
        · rename_i e₂
          exact .fst e₂ (features_quiet (drewN_quiet (.fst e' (neighbours_quiet (.fst e (bobAdmit_quiet hs))))))
        · rename_i e₂
          exact bobDeliver_quiet (holdTile_quiet (.foldl (fun _ _ h => lmWrite_quiet h) (.fst e₂ (features_quiet (drewN_quiet (.fst
              e' (neighbours_quiet (.fst e (bobAdmit_quiet hs)))))))))

theorem runSetop_quiet {cluster : ℕ} {x : BobCmd} (hs : Quiet s₀ s) : Quiet s₀ (runSetop s cluster x).1 := by
  unfold runSetop
  dsimp only
  split
  · rename_i e
    exact .fst e (arrayFrom_quiet hs)
  · rename_i e
    split
    · rename_i e'
      exact .fst e' (arrayFrom_quiet (.fst e (arrayFrom_quiet hs)))
    · rename_i e'
      exact bobDeliver_quiet (.fst e' (arrayFrom_quiet (.fst e (arrayFrom_quiet hs))))

theorem probeKey_quiet {x : BobCmd} {k h n i : ℕ} (hs : Quiet s₀ s) : Quiet s₀ (probeKey x k h n s i).1 := by
  induction n generalizing s i with
  | zero => exact hs
  | succ n ih =>
    unfold probeKey
    split
    · rename_i e
      exact .fst e (vread_quiet hs)
    · rename_i e
      split
      · exact .fst e (vread_quiet hs)
      · exact .fst e (vread_quiet hs)
      · exact ih (.fst e (vread_quiet hs))

theorem probeAll_quiet {x : BobCmd} {n q room : ℕ} (hs : Quiet s₀ s) : Quiet s₀ (probeAll x n s q room).1 := by
  induction n generalizing s q room with
  | zero => exact hs
  | succ n ih =>
    unfold probeAll
    split
    · exact hs
    · split
      · rename_i e
        exact .fst e (arrayAt_quiet hs)
      · rename_i e
        split
        · rename_i e'
          refine .fst e' ?_
          split
          · exact .fst e (arrayAt_quiet hs)
          · exact probeKey_quiet (.fst e (arrayAt_quiet hs))
        · rename_i e'
          split
          · dsimp only
            split
            · refine .fst e' ?_
              split
              · exact .fst e (arrayAt_quiet hs)
              · exact probeKey_quiet (.fst e (arrayAt_quiet hs))
            · split
              · rename_i e₂
                refine .fst e₂ (ih (.fst e' ?_))
                split
                · exact .fst e (arrayAt_quiet hs)
                · exact probeKey_quiet (.fst e (arrayAt_quiet hs))
              · rename_i e₂
                refine .fst e₂ (ih (.fst e' ?_))
                split
                · exact .fst e (arrayAt_quiet hs)
                · exact probeKey_quiet (.fst e (arrayAt_quiet hs))
          · dsimp only
            split
            · refine .fst e' ?_
              split
              · exact .fst e (arrayAt_quiet hs)
              · exact probeKey_quiet (.fst e (arrayAt_quiet hs))
            · split
              · rename_i e₂
                refine .fst e₂ (ih (.fst e' ?_))
                split
                · exact .fst e (arrayAt_quiet hs)
                · exact probeKey_quiet (.fst e (arrayAt_quiet hs))
              · rename_i e₂
                refine .fst e₂ (ih (.fst e' ?_))
                split
                · exact .fst e (arrayAt_quiet hs)
                · exact probeKey_quiet (.fst e (arrayAt_quiet hs))

theorem runProbe_quiet {cluster : ℕ} {x : BobCmd} (hs : Quiet s₀ s) : Quiet s₀ (runProbe s cluster x).1 := by
  unfold runProbe
  dsimp only
  split
  · rename_i e
    exact .fst e (probeAll_quiet hs)
  · rename_i e
    exact bobDeliver_quiet (.upd (drewN_quiet (.fst e (probeAll_quiet hs))))

theorem leafTris_quiet {x : BobCmd} {ray base n a : ℕ} {best : Option RayHit} (hs : Quiet s₀ s) : Quiet s₀ (leafTris x ray base n s
    a best).1 := by
  induction n generalizing s a best with
  | zero => exact hs
  | succ n ih =>
    unfold leafTris
    split
    · exact hs
    · split
      · rename_i e
        exact .fst e (vnat_quiet hs)
      · rename_i e
        exact ih (.fst e (vnat_quiet hs))

theorem traverse_quiet {x : BobCmd} {ray n : ℕ} {l : List ℕ} {w : RayWork} {base : ℕ} {best : Option RayHit} (hs : Quiet s₀ s) :
    Quiet s₀ (traverse x ray n s l w base best).1 := by
  induction n generalizing s l w base best with
  | zero => exact hs
  | succ n ih =>
    cases l with
    | nil => exact hs
    | cons r rest =>
      unfold traverse
      dsimp only
      split
      · exact hs
      · split
        · split
          · rename_i e
            exact .fst e (leafTris_quiet hs)
          · rename_i e
            exact ih (.fst e (leafTris_quiet hs))
        · split
          · exact hs
          · split
            · rename_i e
              exact .fst e (vnat_quiet hs)
            · rename_i e
              exact ih (.fst e (vnat_quiet hs))

theorem oneRay_quiet {x : BobCmd} {ray : ℕ} (hs : Quiet s₀ s) : Quiet s₀ (oneRay s x ray).1 := by
  unfold oneRay
  split
  · exact hs
  · split
    · exact drewN_quiet hs
    · split
      · rename_i e
        exact .fst e (traverse_quiet hs)
      · rename_i e
        exact drewN_quiet (.fst e (traverse_quiet hs))

theorem allRays_quiet {x : BobCmd} {n k : ℕ} (hs : Quiet s₀ s) : Quiet s₀ (allRays x n s k).1 := by
  induction n generalizing s k with
  | zero => exact hs
  | succ n ih =>
    unfold allRays
    split
    · rename_i e
      exact .fst e (oneRay_quiet hs)
    · rename_i e
      split <;> (rename_i e'; exact .fst e' (ih (.fst e (oneRay_quiet hs))))

theorem runRayq_quiet {cluster : ℕ} {x : BobCmd} (hs : Quiet s₀ s) : Quiet s₀ (runRayq s cluster x).1 := by
  unfold runRayq
  dsimp only
  split
  · rename_i e
    exact .fst e (allRays_quiet hs)
  · rename_i e
    exact bobDeliver_quiet (setBob_quiet (.upd (.fst e (allRays_quiet hs))))

theorem bobSend_quiet {cluster : ℕ} {c : BobCmd} (hs : Quiet s₀ s) : Quiet s₀ (bobSend s cluster c).1 := by
  unfold bobSend
  split
  · split
    · exact hs
    · exact .upd hs
  · exact hs

theorem stepCmd_quiet {k cluster : ℕ} {c : BobCmd} (hs : Quiet s₀ s) : Quiet s₀ (stepCmd s k cluster c) := by
  unfold stepCmd
  split
  · split
    · exact markLost_quiet hs
    · exact setBob_quiet hs
  · exact setBob_quiet (bobSend_quiet hs)

theorem bobStalls_quiet {slot cycles : ℕ} {others : List BobCmd} (hs : Quiet s₀ s) : Quiet s₀ (bobStalls s slot cycles others) :=
  .foldl (fun _ _ h => addStall_quiet h) hs

theorem bobbinStep_quiet {cluster b : ℕ} {waits : List (Fin 4)} {cycles : ℕ} (hs : Quiet s₀ s) : Quiet s₀ (bobbinStep s cluster b
    waits cycles) := by
  unfold bobbinStep
  split
  · exact hs
  · split
    · rename_i e
      exact .fst e (reachDom_quiet hs)
    · rename_i e
      exact stepCmd_quiet (setBob_quiet (moves_quiet (bobStalls_quiet (.fst e (reachDom_quiet hs)))))

theorem bobbinOp_quiet {cluster b quad op : ℕ} {run : State → ℕ → BobCmd → State × Option OpEnd}
    (hrun : ∀ {s k x}, Quiet s₀ s → Quiet s₀ (run s k x).1) (hs : Quiet s₀ s) : Quiet s₀ (bobbinOp s cluster b quad op run) := by
  unfold bobbinOp
  dsimp only
  split
  · exact hs
  · refine .ite (fun _ => hs) fun _ => ?_
    split
    · rename_i e
      exact .fst e (hrun hs)
    · rename_i e
      exact setBob_quiet (.fst e (hrun hs))

theorem bobbinComplete_quiet {cluster b quad : ℕ} (hs : Quiet s₀ s) : Quiet s₀ (bobbinComplete s cluster b quad) := by
  unfold bobbinComplete
  dsimp only
  split
  · exact hs
  · split
    · exact .ite (fun _ => hs) fun _ => .ite (fun _ => markLost_quiet hs) fun _ => .upd (setBob_quiet (lmWrite_quiet hs))
    · exact hs

/-! ## Passes -/

theorem setPass_quiet {id : ℕ} {p : Pass} (hs : Quiet s₀ s) : Quiet s₀ (setPass s id p) :=
  .upd hs

theorem countVerdict_quiet {a0 : Verdict} (hs : Quiet s₀ s) : Quiet s₀ (countVerdict s a0) := by
  unfold countVerdict
  split
  · exact hs
  · exact .upd hs
  · exact .upd hs
  · exact .upd hs

theorem readPrim_quiet {p : Pass} {u : Site} {i : ℕ} (hs : Quiet s₀ s) : Quiet s₀ (readPrim s p u i).1 := by
  unfold readPrim
  split
  · rename_i e
    exact .fst e (vnat_quiet hs)
  · rename_i e
    dsimp only
    split
    · exact .fst e (vnat_quiet hs)
    · split <;> (rename_i e'; exact .fst e' (vnat_quiet (.fst e (vnat_quiet hs))))

theorem binningEnd_quiet {id : ℕ} (hs : Quiet s₀ s) : Quiet s₀ (binningEnd s id) := by
  unfold binningEnd
  split
  · exact hs
  · exact .ite (fun _ => hs) fun _ => setPass_quiet (.ite (fun _ => .upd hs) fun _ => hs)

/-- A started descriptor or node changes the objects alone. -/
theorem markStarted_only (s : State) (q : ℕ) (i : W32) (node : Option ℕ) : Only [.obj] s (markStarted s q i node) := by
  unfold markStarted setWork
  split
  · split
    · exact .refl _ s
    · exact putQ_only _ _ _
  · split
    · exact .refl _ s
    · exact setObj_only _ _

theorem startPass_quiet {q : ℕ} {i : W32} {node : Option ℕ} (hs : Quiet s₀ s) : Quiet s₀ (startPass s q i node) := by
  unfold startPass
  split
  · rename_i e
    exact .fst e (beginWork_quiet hs)
  · rename_i e
    have hb := Quiet.fst e (beginWork_quiet hs)
    split
    · exact hb
    · refine .ite (fun _ => hb) fun _ => ?_
      dsimp only
      split
      · rename_i e'
        exact .fst e' (vread_quiet hb)
      · rename_i e'
        have hv := Quiet.fst e' (vread_quiet hb)
        refine .ite (fun _ => endWork_quiet hv) fun _ => ?_
        split
        · rename_i e₂
          exact .fst e₂ (vwrite_quiet hv)
        · rename_i u e₂
          have hc : (markStarted u q i node).cores = u.cores := markStarted_only u q i node .cores (by decide)
          have hm : Quiet s₀ (markStarted u q i node) := markStarted_quiet (.fst e₂ (vwrite_quiet hv))
          exact binningEnd_quiet (setPass_quiet (hm.trans ⟨rfl, rfl, rfl, rfl, fun h => by
            rw [memOk_iff, hc] at h
            exact (memOk_iff _).2 h⟩))

theorem primitiveBin_quiet {id b : ℕ} {stall : Stall} (hs : Quiet s₀ s) : Quiet s₀ (primitiveBin s id b stall) := by
  unfold primitiveBin
  split
  · exact hs
  · split
    · rename_i e
      exact .fst e (reachDom_quiet hs)
    · rename_i e
      dsimp only
      split
      · rename_i e'
        exact .fst e' (readPrim_quiet (addStall_quiet (.fst e (reachDom_quiet hs))))
      · rename_i e'
        split
        · rename_i e₂
          exact .fst e₂ (vwriteAll_quiet (.fst e' (readPrim_quiet (addStall_quiet (.fst e (reachDom_quiet hs))))))
        · rename_i e₂
          exact binningEnd_quiet (setPass_quiet (moves_quiet (countVerdict_quiet (.fst e₂ (vwriteAll_quiet (.fst e' (readPrim_quiet
              (addStall_quiet (.fst e (reachDom_quiet hs))))))))))

theorem tilePlace_quiet {id : ℕ} (hs : Quiet s₀ s) : Quiet s₀ (tilePlace s id) := by
  unfold tilePlace
  split
  · exact hs
  · refine .ite (fun _ => hs) fun _ => ?_
    split
    · exact hs
    · split
      · rename_i e
        exact .fst e (reachDom_quiet hs)
      · rename_i e
        exact setPass_quiet (.upd (.fst e (reachDom_quiet hs)))

theorem loadPlane_quiet {p : Pass} {t : Tile} {a : AttKind × ℕ} (hs : Quiet s₀ s) : Quiet s₀ (loadPlane p t s a).1 := by
  unfold loadPlane
  dsimp only
  split
  · exact lmWrite_quiet hs
  · split
    · rename_i e
      refine .fst e (.foldl_fst (fun r _ h => ?_) hs)
      split
      · exact h
      · split <;> (rename_i e'; exact .fst e' (vread_quiet h))
    · rename_i e
      refine lmWrite_quiet (.fst e (.foldl_fst (fun r _ h => ?_) hs))
      split
      · exact h
      · split <;> (rename_i e'; exact .fst e' (vread_quiet h))

/-- The planes of a tile's attachments, loaded one after the other until one cannot be. -/
theorem loadPlanes_quiet {p : Pass} {t : Tile} {l : List (AttKind × ℕ)} (hs : Quiet s₀ s) :
    Quiet s₀ (l.foldl (fun (r : State × Bool) a => if r.2 then loadPlane p t r.1 a else r) (s, true)).1 := by
  refine .foldl_fst (fun r _ h => ?_) hs
  split
  · exact loadPlane_quiet h
  · exact h

theorem tileLoadDone_quiet {id ord : ℕ} (hs : Quiet s₀ s) : Quiet s₀ (tileLoadDone s id ord) := by
  unfold tileLoadDone
  split
  · exact hs
  · split
    · exact hs
    · refine .ite (fun _ => hs) fun _ => ?_
      split
      · rename_i e
        refine .fst e (.foldl_fst (fun _ _ h => ?_) hs)
        split
        · exact loadPlane_quiet h
        · exact h
      · rename_i e
        refine setPass_quiet (moves_quiet (.fst e (.foldl_fst (fun _ _ h => ?_) hs)))
        split
        · exact loadPlane_quiet h
        · exact h

theorem earlySample_quiet {p : Pass} {t : Tile} {r st : W512} {x y k : ℕ} (hs : Quiet s₀ s) :
    Quiet s₀ (earlySample s p t r st x y k).1 := by
  unfold earlySample
  extract_lets _ _ _ sten dep _ _ _ _ _ s₁ s₂
  clear_value sten dep
  have h₁ : Quiet s₀ s₁ := by
    cases sten
    · exact hs
    · exact lmWrite_quiet hs
  cases dep
  · exact h₁
  · exact .ite (fun _ => lmWrite_quiet h₁) fun _ => h₁

theorem earlyTests_quiet {p : Pass} {t : Tile} {r st : W512} {k : ℕ} {cover : List ℕ} (hs : Quiet s₀ s) : Quiet s₀ (earlyTests s p
    t r st k cover).1 := by
  unfold earlyTests
  split
  · exact hs
  · exact .foldl_fst (fun _ _ h => .foldl_fst (fun _ _ h => earlySample_quiet h) h) hs

theorem readChain_quiet {p : Pass} {u : Site} {fuel c n : ℕ} (hs : Quiet s₀ s) : Quiet s₀ (readChain s p u fuel c n).1 := by
  induction fuel generalizing s c n with
  | zero => exact hs
  | succ fuel ih =>
    unfold readChain
    split
    · exact hs
    · split
      · rename_i e
        exact .fst e (vread_quiet hs)
      · rename_i e
        split <;> (rename_i e'; exact .fst e' (ih (.fst e (vread_quiet hs))))

theorem readTileList_quiet {p : Pass} {u : Site} {ord : ℕ} (hs : Quiet s₀ s) : Quiet s₀ (readTileList s p u ord).1 := by
  unfold readTileList
  dsimp only
  generalize hr : List.foldl _ (s, some []) (List.range (pNb p)) = r
  have h : Quiet s₀ r.1 := by
    rw [← hr]
    refine .foldl_fst (fun r _ h => ?_) hs
    split
    · exact h
    · split
      · rename_i e
        exact .fst e (vread_quiet h)
      · rename_i e
        split <;> (rename_i e'; exact .fst e' (readChain_quiet (.fst e (vread_quiet h))))
  split <;> exact h


theorem nextBatch_quiet {id fuel : ℕ} {p : Pass} {t : Tile} {l : List ℕ} (hs : Quiet s₀ s) : Quiet s₀ (nextBatch id fuel s p t
    l).1 := by
  induction fuel generalizing s p t l with
  | zero => exact hs
  | succ fuel ih =>
    unfold nextBatch
    split
    · exact hs
    · split
      · rename_i e
        exact .fst e (readPrim_quiet hs)
      · rename_i e
        split
        · split
          · dsimp only
            split
            · exact ih (countVerdict_quiet (.fst e (readPrim_quiet hs)))
            · exact .fst e (readPrim_quiet hs)
          · dsimp only
            split
            · exact ih (.fst e (readPrim_quiet hs))
            · exact .fst e (readPrim_quiet hs)
        · split
          · dsimp only
            split
            · exact ih (countVerdict_quiet (.fst e (readPrim_quiet hs)))
            · exact .fst e (readPrim_quiet hs)
          · dsimp only
            split
            · exact ih (.fst e (readPrim_quiet hs))
            · exact .fst e (readPrim_quiet hs)

theorem dispatch_quiet {id : ℕ} {p : Pass} {t : Tile} {b : Batch} (hs : Quiet s₀ s) : Quiet s₀ (dispatch s id p t b) :=
  setPass_quiet (earlyTests_quiet hs)

theorem batchDispatch_quiet {id ord : ℕ} {stall : Stall} (hs : Quiet s₀ s) : Quiet s₀ (batchDispatch s id ord stall) := by
  unfold batchDispatch
  split
  · exact hs
  · split
    · rename_i e
      exact .fst e (reachDom_quiet hs)
    · rename_i e
      split
      · exact dispatch_quiet (moves_quiet (addStall_quiet (.fst e (reachDom_quiet hs))))
      · refine .ite (fun _ => moves_quiet (addStall_quiet (.fst e (reachDom_quiet hs)))) fun _ => ?_
        dsimp only
        split
        · split
          · exact moves_quiet (addStall_quiet (.fst e (reachDom_quiet hs)))
          · exact readTileList_quiet (moves_quiet (addStall_quiet (.fst e (reachDom_quiet hs))))
        · split
          · refine .ite (fun _ => setPass_quiet (nextBatch_quiet ?_)) fun _ => ?_
            · split
              · exact moves_quiet (addStall_quiet (.fst e (reachDom_quiet hs)))
              · exact readTileList_quiet (moves_quiet (addStall_quiet (.fst e (reachDom_quiet hs))))
            · split
              · refine nextBatch_quiet ?_
                split
                · exact moves_quiet (addStall_quiet (.fst e (reachDom_quiet hs)))
                · exact readTileList_quiet (moves_quiet (addStall_quiet (.fst e (reachDom_quiet hs))))
              · refine setPass_quiet (nextBatch_quiet ?_)
                split
                · exact moves_quiet (addStall_quiet (.fst e (reachDom_quiet hs)))
                · exact readTileList_quiet (moves_quiet (addStall_quiet (.fst e (reachDom_quiet hs))))
          · refine .ite (fun _ => dispatch_quiet (nextBatch_quiet ?_)) fun _ => setPass_quiet (nextBatch_quiet ?_)
            · split
              · exact moves_quiet (addStall_quiet (.fst e (reachDom_quiet hs)))
              · exact readTileList_quiet (moves_quiet (addStall_quiet (.fst e (reachDom_quiet hs))))
            · split
              · exact moves_quiet (addStall_quiet (.fst e (reachDom_quiet hs)))
              · exact readTileList_quiet (moves_quiet (addStall_quiet (.fst e (reachDom_quiet hs))))

theorem fragStart_quiet {id ord blk : ℕ} (hs : Quiet s₀ s) : Quiet s₀ (fragStart s id ord blk) := by
  unfold fragStart
  split
  · exact hs
  · split
    · exact hs
    · split
      · exact hs
      · dsimp only
        split
        · exact hs
        · exact .ite (fun _ => hs) fun _ => setPass_quiet (putGroup_quiet (drewN_quiet (.upd hs)))

theorem endFrag_quiet {b : ℕ} {f : ℕ × ℕ × ℕ} (hs : Quiet s₀ s) : Quiet s₀ (endFrag s b f) := by
  unfold endFrag
  refine .ite (fun _ => hs) fun _ => ?_
  dsimp only
  split
  · exact dropBlocks_quiet hs
  · split
    · exact dropBlocks_quiet hs
    · exact setPass_quiet (dropBlocks_quiet hs)

theorem passAfter_quiet {id : ℕ} (hs : Quiet s₀ s) : Quiet s₀ (passAfter s id) := by
  unfold passAfter
  split
  · exact hs
  · exact .ite (fun _ => hs) fun _ => finishWork_quiet (.upd hs)

theorem tileStoreDone_quiet {id ord : ℕ} (hs : Quiet s₀ s) : Quiet s₀ (tileStoreDone s id ord) := by
  unfold tileStoreDone
  split
  · exact hs
  · split
    · exact hs
    · refine .ite (fun _ => hs) fun _ => ?_
      split
      · rename_i e
        exact .fst e (vwriteAll_quiet hs)
      · rename_i e
        exact passAfter_quiet (setPass_quiet (moves_quiet (.upd (.fst e (vwriteAll_quiet hs)))))

end Sys2Proof.Machine
end

section
/-! Proofs: composing, coding, Circulation, the object commands and the accessions are quiet. -/

namespace Sys2Proof.Machine

variable {s₀ s : State}

/-! ## Channels -/

theorem chanGrant_quiet {key quarter : ℕ} {engines : List ℕ} {serve : State → ℕ → State}
    (hserve : ∀ {s n}, Quiet s₀ s → Quiet s₀ (serve s n)) (hs : Quiet s₀ s) : Quiet s₀ (chanGrant s key quarter engines serve).1 :=
        by
  unfold chanGrant
  split
  · exact hs
  · split
    · exact passToken_quiet hs
    · exact passToken_quiet (hserve hs)

theorem doSend_quiet {r : SgRef} {ch : Fin 16} {form : MsgForm} {rel : Option Scope} (hs : Quiet s₀ s) :
    Quiet s₀ (doSend s r ch form rel) := by
  unfold doSend
  split
  · exact hs
  · rename_i i _
    refine .ite (fun _ => undefined_quiet hs) fun _ => ?_
    split
    · exact hs
    · refine .ite (fun _ => hs) fun _ => ?_
      have hr : Quiet s₀ (match rel with
          | some sc => release s i sc
          | none => (s, some ())).1 := by
        split
        · exact release_quiet hs
        · exact hs
      split
      · rename_i e
        exact .fst e hr
      · rename_i e
        split
        · exact permFail_quiet (.fst e hr)
        · split
          · rename_i e'
            exact .fst e' (chanGrant_quiet (fun h => engineSends_quiet h) (.fst e hr))
          · rename_i e'
            exact retire_quiet (sendMsg_quiet (.fst e' (chanGrant_quiet (fun h => engineSends_quiet h) (.fst e hr))))

theorem doRecv_quiet {r : SgRef} {ch : Fin 16} {form : MsgForm} {acq : Option Scope} (hs : Quiet s₀ s) :
    Quiet s₀ (doRecv s r ch form acq) := by
  unfold doRecv
  split
  · exact hs
  · refine .ite (fun _ => undefined_quiet hs) fun _ => ?_
    split
    · exact hs
    · split
      · rename_i e
        exact .fst e (chanGrant_quiet (fun h => engineTakes_quiet h) hs)
      · rename_i e
        have hg := Quiet.fst e (chanGrant_quiet (fun h => engineTakes_quiet h) hs)
        split
        · exact retire_quiet (takeMsg_quiet hg)
        · exact .ite (fun _ => permFail_quiet hg) fun _ => retire_quiet (lmWrite_quiet (takeMsg_quiet hg))


/-! ## Composing -/

theorem applyLayer_quiet {c : Compose} {fv x y l : ℕ} {r : State × Option Px} (hr : Quiet s₀ r.1) :
    Quiet s₀ (applyLayer c fv x y r l).1 := by
  unfold applyLayer
  split
  · exact hr
  · dsimp only
    split
    · exact hr
    · split <;> (rename_i e; exact .fst e (vnat_quiet hr))

theorem composePixels_quiet {c : Compose} {fv y n x : ℕ} (hs : Quiet s₀ s) : Quiet s₀ (composePixels c fv y n s x).1 := by
  induction n generalizing s x with
  | zero => exact hs
  | succ n ih =>
    have hl := Quiet.foldl_fst (f := applyLayer c fv x y) (l := List.range 8) (r := (s, some (background (treg c.regs 0x28))))
      (fun _ _ h => applyLayer_quiet h) hs
    unfold composePixels
    split
    · rename_i e
      exact .fst e hl
    · rename_i e
      split <;> (rename_i e'; exact .fst e' (ih (.fst e hl)))

theorem startCompose_quiet {q : ℕ} {i : W32} (hs : Quiet s₀ s) : Quiet s₀ (startCompose s q i) := by
  unfold startCompose
  split
  · exact hs
  · refine .ite (fun _ => hs) fun _ => ?_
    split
    · rename_i e
      exact .fst e (beginWork_quiet hs)
    · rename_i e
      exact markStarted_quiet (.upd (.fst e (beginWork_quiet hs)))

theorem putCompose_quiet {c : Compose} (hs : Quiet s₀ s) : Quiet s₀ (putCompose s c) :=
  .upd hs

theorem stripComplete_quiet {waits : List (Fin 256)} (hs : Quiet s₀ s) : Quiet s₀ (stripComplete s waits) := by
  unfold stripComplete
  split
  · exact hs
  · rename_i c _
    have hu : ∀ {c : Prop} [Decidable c] {t}, Quiet s₀ (if c then s else { s with cch := { s.cch with token := t } }) :=
      .ite (fun _ => hs) fun _ => .upd hs
    dsimp only
    split
    · rename_i e
      exact .fst e (composePixels_quiet hu)
    · rename_i e
      have hp := Quiet.fst e (composePixels_quiet hu)
      split
      · rename_i e'
        exact .fst e' (vwriteAll_quiet hp)
      · rename_i e'
        have hm := drew_quiet (moves_quiet (u := .device) (.fst e' (vwriteAll_quiet hp)))
        exact .ite (fun _ => putCompose_quiet hm) fun _ => finishWork_quiet (putCompose_quiet hm)


/-! ## Coding -/

theorem startEncode_quiet {q : ℕ} {i : W32} (hs : Quiet s₀ s) : Quiet s₀ (startEncode s q i) := by
  unfold startEncode
  split
  · exact hs
  · refine .ite (fun _ => hs) fun _ => ?_
    split
    · rename_i e
      exact .fst e (beginWork_quiet hs)
    · rename_i e
      refine .ite (fun _ => complete_quiet (.fst e (beginWork_quiet hs))) fun _ => .ite (fun _ => .fst e (beginWork_quiet hs))
          fun _ => ?_
      split
      · rename_i e'
        exact .fst e' (vnat_quiet (.fst e (beginWork_quiet hs)))
      · rename_i e'
        exact .ite (fun _ => complete_quiet (.fst e' (vnat_quiet (.fst e (beginWork_quiet hs))))) fun _ => markStarted_quiet (.upd
            (.fst e' (vnat_quiet (.fst e (beginWork_quiet hs)))))

theorem touchRows_quiet {w : Who} {pitch n rows a : ℕ} (hs : Quiet s₀ s) : Quiet s₀ (touchRows w pitch n rows s a).1 := by
  induction rows generalizing s a with
  | zero => exact hs
  | succ rows ih =>
    unfold touchRows
    split
    · rename_i e
      exact .fst e (reach_quiet hs)
    · rename_i e
      exact ih (.fst e (reach_quiet hs))

theorem touchFrame_quiet {w : Who} {p luma chroma : ℕ} (hs : Quiet s₀ s) : Quiet s₀ (touchFrame s w p luma chroma).1 := by
  unfold touchFrame
  dsimp only
  split
  · rename_i e
    exact .fst e (touchRows_quiet hs)
  · rename_i e
    exact touchRows_quiet (.fst e (touchRows_quiet hs))

theorem encodeReads_quiet {r : EncRun} {who : Who} (hs : Quiet s₀ s) : Quiet s₀ (encodeReads s r who).1 := by
  unfold encodeReads
  dsimp only
  split
  · rename_i e
    exact .fst e (touchFrame_quiet hs)
  · rename_i u e
    have ht := Quiet.fst e (touchFrame_quiet hs)
    have hk : Quiet s₀ (if r.key then (u, true)
        else touchFrame u who r.par (refSlotAt r.par (refSlot r)) (refSlotAt r.par (refSlot r) + encPitch r.par * encH r.par)).1 :=
            by
      split
      · exact ht
      · exact touchFrame_quiet ht
    split
    · rename_i e'
      exact .fst e' hk
    · rename_i e'
      split
      · exact vread_quiet (.fst e' hk)
      · exact .fst e' hk

theorem encodeComplete_quiet {core : ℕ} (hs : Quiet s₀ s) : Quiet s₀ (encodeComplete s core) := by
  unfold encodeComplete
  split
  · exact hs
  · dsimp only
    split
    · rename_i e
      exact .fst e (encodeReads_quiet hs)
    · rename_i e
      split
      · rename_i e'
        exact .fst e' (vwriteAll_quiet (drewN_quiet (.fst e (encodeReads_quiet hs))))
      · rename_i e'
        exact finishWork_quiet (.upd (moves_quiet (.ite (fun _ => .fst e' (vwriteAll_quiet (drewN_quiet (.fst e (encodeReads_quiet
            hs))))) fun _ => drewN_quiet (.fst e' (vwriteAll_quiet (drewN_quiet (.fst e (encodeReads_quiet hs))))))))

theorem encodeAbort_quiet {q : ℕ} {i : W32} (hs : Quiet s₀ s) : Quiet s₀ (encodeAbort s q i) := by
  unfold encodeAbort
  split
  · exact hs
  · exact .ite (fun _ => hs) fun _ => .upd hs

theorem startBind_quiet {q : ℕ} {i : W32} (hs : Quiet s₀ s) : Quiet s₀ (startBind s q i) := by
  unfold startBind
  split
  · exact hs
  · refine .ite (fun _ => hs) fun _ => ?_
    split
    · rename_i e
      exact .fst e (beginWork_quiet hs)
    · rename_i e
      split
      · rename_i e'
        refine .fst e' ?_
        split
        · exact .fst e (beginWork_quiet hs)
        · exact vnat_quiet (.fst e (beginWork_quiet hs))
      · rename_i e'
        refine .ite (fun _ => complete_quiet (.fst e' ?_)) fun _ => markStarted_quiet (.upd (.fst e' ?_))
        · split
          · exact .fst e (beginWork_quiet hs)
          · exact vnat_quiet (.fst e (beginWork_quiet hs))
        · split
          · exact .fst e (beginWork_quiet hs)
          · exact vnat_quiet (.fst e (beginWork_quiet hs))

theorem bindComplete_quiet {eng : ℕ} (hs : Quiet s₀ s) : Quiet s₀ (bindComplete s eng) := by
  unfold bindComplete
  split
  · exact hs
  · split
    · split
      · dsimp only
        split
        · rename_i e
          exact .fst e (vread_quiet hs)
        · rename_i e
          split
          · rename_i e'
            exact .fst e' (vread_quiet (.fst e (vread_quiet hs)))
          · rename_i e'
            split
            · rename_i e₂
              exact .fst e₂ (vwriteAll_quiet (.fst e' (vread_quiet (.fst e (vread_quiet hs)))))
            · rename_i e₂
              exact finishWork_quiet (moves_quiet (.upd (.fst e₂ (vwriteAll_quiet (.fst e' (vread_quiet (.fst e (vread_quiet
                  hs))))))))
      · dsimp only
        split
        · rename_i e
          exact .fst e (vread_quiet hs)
        · rename_i e
          split
          · rename_i e'
            exact .fst e' (vwriteAll_quiet (.fst e (vread_quiet hs)))
          · rename_i e'
            exact finishWork_quiet (moves_quiet (.upd (.fst e' (vwriteAll_quiet (.fst e (vread_quiet hs))))))
    · split
      · dsimp only
        split
        · rename_i e
          exact .fst e (vread_quiet hs)
        · rename_i e
          split
          · rename_i e'
            exact .fst e' (vread_quiet (.fst e (vread_quiet hs)))
          · rename_i e'
            split
            · rename_i e₂
              exact .fst e₂ (vwriteAll_quiet (.fst e' (vread_quiet (.fst e (vread_quiet hs)))))
            · rename_i e₂
              exact finishWork_quiet (moves_quiet (.upd (.fst e₂ (vwriteAll_quiet (.fst e' (vread_quiet (.fst e (vread_quiet
                  hs))))))))
      · dsimp only
        split
        · rename_i e
          exact .fst e (vread_quiet hs)
        · rename_i e
          split
          · rename_i e'
            exact .fst e' (vwriteAll_quiet (.fst e (vread_quiet hs)))
          · rename_i e'
            exact finishWork_quiet (moves_quiet (.upd (.fst e' (vwriteAll_quiet (.fst e (vread_quiet hs))))))

/-! ## Circulation -/

theorem writeMode_quiet {p v : ℕ} (hs : Quiet s₀ s) : Quiet s₀ (writeMode s p v) :=
  .ite (fun _ => hs) fun _ => .upd hs

theorem circPortCfgWrite_quiet {v : W32} (hs : Quiet s₀ s) : Quiet s₀ (circPortCfgWrite s v) := by
  unfold circPortCfgWrite
  refine .ite (fun _ => hs) fun _ => ?_
  split
  · rename_i e
    exact .fst e (reachDoms_quiet hs)
  · rename_i e
    exact writeMode_quiet (writeMode_quiet (.fst e (reachDoms_quiet hs)))

theorem circGrantWrite_quiet {n : ℕ} {v : W32} (hs : Quiet s₀ s) : Quiet s₀ (circGrantWrite s n v) :=
  .ite (fun _ => hs) fun _ => .upd hs

theorem portLinkChange_quiet {l : ℕ} {up : Bool} (hs : Quiet s₀ s) : Quiet s₀ (portLinkChange s l up) :=
  .upd hs

theorem sendFrame_quiet {l : ℕ} {f : List Byte} (hs : Quiet s₀ s) : Quiet s₀ (sendFrame s l f) :=
  .upd hs

theorem dropFrame_quiet {l cause : ℕ} (hs : Quiet s₀ s) : Quiet s₀ (dropFrame s l cause) :=
  .upd hs

theorem arpRequest_quiet {l mac ip target : ℕ} (hs : Quiet s₀ s) : Quiet s₀ (arpRequest s l mac ip target) :=
  .ite (fun _ => hs) fun _ => .ite (fun _ => sendFrame_quiet hs) fun _ => dropFrame_quiet hs

theorem neighborSolicitation_quiet {l dmac mac dip ip target : ℕ} (hs : Quiet s₀ s) : Quiet s₀ (neighborSolicitation s l dmac mac
    dip ip target) :=
  .ite (fun _ => hs) fun _ => .ite (fun _ => sendFrame_quiet hs) fun _ => dropFrame_quiet hs

theorem streamOpen_quiet {f n h : ℕ} {srec status : W64} (hs : Quiet s₀ s) : Quiet s₀ (streamOpen f n h srec status s).1 := by
  unfold streamOpen
  split
  · exact hs
  · split
    · exact hs
    · split
      · dsimp only
        split <;> exact hs
      · split
        · dsimp only
          split <;> exact hs
        · split
          · dsimp only
            split <;> exact hs
          · dsimp only
            split
            · exact hs
            · split
              · exact hs
              · exact .upd hs

theorem putStream_quiet {n : ℕ} {t : Stream} (hs : Quiet s₀ s) : Quiet s₀ (putStream s n t) :=
  .upd hs

theorem streamRing_quiet {f n kind : ℕ} {base : W64} {entries : ℕ} {head : W64} {fence : ℕ} (hs : Quiet s₀ s) : Quiet s₀
    (streamRing f n kind base entries head fence s).1 := by
  unfold streamRing
  split
  · exact hs
  · split
    · exact hs
    · dsimp only
      split
      · exact hs
      · split
        · exact hs
        · split
          · exact hs
          · exact putStream_quiet hs

theorem streamKey_quiet {f n dir kid : ℕ} {addr : W64} (hs : Quiet s₀ s) : Quiet s₀ (streamKey f n dir kid addr s).1 := by
  unfold streamKey
  split
  · exact hs
  · split
    · exact hs
    · split
      · exact putStream_quiet hs
      · exact .upd (putStream_quiet hs)

theorem streamClose_quiet {f n : ℕ} (hs : Quiet s₀ s) : Quiet s₀ (streamClose f n s).1 := by
  unfold streamClose
  split
  · exact hs
  · split
    · exact hs
    · split
      · exact hs
      · dsimp only
        exact closeStreams_quiet hs

theorem startSend_quiet {q : ℕ} {i : W32} (hs : Quiet s₀ s) : Quiet s₀ (startSend s q i) := by
  unfold startSend
  split
  · exact hs
  · refine .ite (fun _ => hs) fun _ => ?_
    split
    · rename_i e
      exact .fst e (beginWork_quiet hs)
    · rename_i e
      split
      · exact .fst e (beginWork_quiet hs)
      · exact markStarted_quiet (.upd (putStream_quiet (.fst e (beginWork_quiet hs))))

theorem enqueue_quiet {t : Stream} {r : SendRun} {reg : List Byte} (hs : Quiet s₀ s) : Quiet s₀ (enqueue s t r reg) :=
  .upd (putStream_quiet hs)

theorem sendEnd_quiet {t : Stream} {r : SendRun} (hs : Quiet s₀ s) : Quiet s₀ (sendEnd s t r) :=
  .ite (fun _ => finishWork_quiet hs) fun _ => hs

theorem engineStep_quiet {r : SendRun} (hs : Quiet s₀ s) : Quiet s₀ (engineStep s r) :=
  .upd hs

theorem packetEnqueue_quiet {n : ℕ} (hs : Quiet s₀ s) : Quiet s₀ (packetEnqueue s n) := by
  unfold packetEnqueue
  split
  · exact hs
  · refine .ite (fun _ => hs) fun _ => ?_
    split
    · refine .ite (fun _ => sendEnd_quiet (enqueue_quiet (moves_quiet (engineStep_quiet hs)))) fun _ => ?_
      split
      · rename_i e
        exact .fst e (vread_quiet (moves_quiet (engineStep_quiet hs)))
      · rename_i e
        exact sendEnd_quiet (enqueue_quiet (.fst e (vread_quiet (moves_quiet (engineStep_quiet hs)))))
    · exact hs

theorem fillPort_quiet {l : ℕ} (hs : Quiet s₀ s) : Quiet s₀ (fillPort s l) :=
  .upd hs

theorem packetDepart_quiet {l : ℕ} (hs : Quiet s₀ s) : Quiet s₀ (packetDepart s l) := by
  unfold packetDepart
  split
  · exact fillPort_quiet hs
  · split
    · exact fillPort_quiet hs
    · exact .ite (fun _ => sendFrame_quiet (moves_quiet (.upd (putStream_quiet (fillPort_quiet hs))))) fun _ => moves_quiet (.upd
          (putStream_quiet (fillPort_quiet hs)))

theorem circEdge_quiet (hs : Quiet s₀ s) : Quiet s₀ (circEdge s) :=
  .upd hs

theorem streamStatusWrite_quiet {n : ℕ} (hs : Quiet s₀ s) : Quiet s₀ (streamStatusWrite s n) := by
  unfold streamStatusWrite
  split
  · exact hs
  · exact .ite (fun _ => hs) fun _ => putStream_quiet (hostWrite_quiet (hostWrite_quiet hs))

theorem deliver_quiet {l n : ℕ} {t : Stream} {d : Dgram} {type seq keyId : ℕ} {pt : List Byte} (hs : Quiet s₀ s) : Quiet s₀
    (deliver s l n t d type seq keyId pt) := by
  unfold deliver
  split
  · exact dropFrame_quiet hs
  · split
    · split
      · dsimp only
        split
        · rename_i e
          exact .fst e (vnat_quiet hs)
        · rename_i e
          refine .ite (fun _ => dropFrame_quiet (putStream_quiet (.fst e (vnat_quiet hs)))) fun _ => ?_
          split
          · rename_i e'
            exact .fst e' (vwrite_quiet (.fst e (vnat_quiet hs)))
          · rename_i e'
            exact signalHandle_quiet (putStream_quiet (.fst e' (vwrite_quiet (.fst e (vnat_quiet hs)))))
      · dsimp only
        split
        · rename_i e
          exact .fst e (vnat_quiet hs)
        · rename_i e
          refine .ite (fun _ => dropFrame_quiet (putStream_quiet (.fst e (vnat_quiet hs)))) fun _ => ?_
          split
          · rename_i e'
            exact .fst e' (vwrite_quiet (.fst e (vnat_quiet hs)))
          · rename_i e'
            exact signalHandle_quiet (putStream_quiet (.fst e' (vwrite_quiet (.fst e (vnat_quiet hs)))))
    · split
      · rename_i e
        exact .fst e hs
      · rename_i e
        refine .ite (fun _ => dropFrame_quiet (putStream_quiet (.fst e hs))) fun _ => ?_
        split
        · dsimp only
          split
          · rename_i e'
            exact .fst e' (vwrite_quiet (.fst e hs))
          · rename_i e'
            exact signalHandle_quiet (putStream_quiet (.fst e' (vwrite_quiet (.fst e hs))))
        · dsimp only
          split
          · rename_i e'
            exact .fst e' (vwrite_quiet (.fst e hs))
          · rename_i e'
            exact signalHandle_quiet (putStream_quiet (.fst e' (vwrite_quiet (.fst e hs))))

theorem ringAdmit_quiet {l : ℕ} {d : Dgram} (hs : Quiet s₀ s) : Quiet s₀ (ringAdmit s l d) := by
  unfold ringAdmit
  refine .ite (fun _ => dropFrame_quiet hs) fun _ => ?_
  split
  · exact dropFrame_quiet hs
  · split
    · exact dropFrame_quiet hs
    · split
      · dsimp only
        split <;> exact dropFrame_quiet hs
      · dsimp only
        split
        · exact dropFrame_quiet hs
        · exact deliver_quiet (putStream_quiet hs)

theorem frameReceive_quiet {l : ℕ} {fcs : Bool} {f : List Byte} (hs : Quiet s₀ s) : Quiet s₀ (frameReceive s l fcs f) := by
  unfold frameReceive
  refine .ite (fun _ => hs) fun _ => ?_
  split
  · rename_i e
    exact .fst e (reachDom_quiet hs)
  · rename_i e
    refine .ite (fun _ => dropFrame_quiet (moves_quiet (.fst e (reachDom_quiet hs)))) fun _ => ?_
    split
    · exact ringAdmit_quiet (moves_quiet (.fst e (reachDom_quiet hs)))
    · exact sendFrame_quiet (moves_quiet (.fst e (reachDom_quiet hs)))
    · exact sendFrame_quiet (moves_quiet (.fst e (reachDom_quiet hs)))
    · exact dropFrame_quiet (moves_quiet (.fst e (reachDom_quiet hs)))

/-! ## Object commands -/

theorem busyOnB_quiet {op : State → State × ℕ × ℕ} (hop : ∀ {s}, Quiet s₀ s → Quiet s₀ (op s).1) (hs : Quiet s₀ s) :
    Quiet s₀ (busyOnB op s).1 := by
  unfold busyOnB
  dsimp only
  split
  · exact hs
  · exact hop hs

theorem fwCreate_quiet {c : Call} {ty cmd : ℕ} {op : State → State × ℕ × ℕ} (hop : ∀ {s}, Quiet s₀ s → Quiet s₀ (op s).1)
    (hs : Quiet s₀ s) : Quiet s₀ (fwCreate s c ty cmd op) :=
  .ite (fun _ => hs) fun _ => fwCommand_quiet (busyOnB_quiet hop) hs

theorem quotaSet_quiet {func ty quota : ℕ} (hs : Quiet s₀ s) : Quiet s₀ (quotaSet func ty quota s).1 := by
  unfold quotaSet
  split
  · exact hs
  · dsimp only
    split
    · exact hs
    · exact setObj_quiet hs

theorem ctxCreate_quiet {given f : ℕ} {root : W64} (hs : Quiet s₀ s) : Quiet s₀ (ctxCreate given f root s).1 := by
  unfold ctxCreate
  split
  · exact hs
  · split
    · exact hs
    · exact setObj_quiet hs

theorem drainQueue_quiet {q : ℕ} (hs : Quiet s₀ s) : Quiet s₀ (drainQueue s q) := by
  unfold drainQueue
  split
  · exact hs
  · exact queueDrained_quiet (.foldl (fun _ _ h => settleLaunch_quiet h) (dropRuns_quiet (setObj_quiet (putQ_quiet hs))))

theorem destroyFence_quiet {k : ℕ} (hs : Quiet s₀ s) : Quiet s₀ (destroyFence s k) :=
  setObj_quiet (endEvents_quiet (failWaits_quiet hs))

theorem destroyGraph_quiet {g : ℕ} (hs : Quiet s₀ s) : Quiet s₀ (destroyGraph s g) :=
  setObj_quiet hs

theorem ctxDestroy_quiet {f h : ℕ} (hs : Quiet s₀ s) : Quiet s₀ (ctxDestroy f h s).1 := by
  unfold ctxDestroy
  split
  · exact hs
  · split
    · exact hs
    · split
      · exact hs
      · split
        · exact hs
        · dsimp only
          exact ctxGone_quiet (.foldl (fun _ _ h => destroyGraph_quiet h) (.foldl (fun _ _ h => destroyFence_quiet h)
            (.foldl (fun _ _ h => drainQueue_quiet h) (closeStreams_quiet (setObj_quiet hs)))))

theorem ctxMarkLost_quiet {f h : ℕ} (hs : Quiet s₀ s) : Quiet s₀ (ctxMarkLost f h s).1 := by
  unfold ctxMarkLost
  split
  · exact hs
  · exact markLost_quiet hs

theorem ctxQuery_quiet {f h : ℕ} (hs : Quiet s₀ s) : Quiet s₀ (ctxQuery f h s).1 := by
  unfold ctxQuery
  split
  · exact hs
  · split
    · exact hs
    · split <;> exact hs

theorem ctxStandby_quiet {f h : ℕ} {root : W64} {slot : ℕ} (hs : Quiet s₀ s) : Quiet s₀ (ctxStandby f h root slot s).1 := by
  unfold ctxStandby
  split
  · exact hs
  · split
    · exact hs
    · split
      · exact hs
      · exact setObj_quiet hs

theorem qCreate_quiet {given f h cls ring entries rt fence : ℕ} (hs : Quiet s₀ s) : Quiet s₀ (qCreate given f h cls ring entries rt
    fence s).1 := by
  unfold qCreate
  split
  · exact hs
  · split
    · exact hs
    · exact setObj_quiet hs

theorem admitTrace_quiet {given st : ℕ} {r : Except ℕ Queue} {before : State} (hs : Quiet s₀ s) :
    Quiet s₀ (admitTrace given r before st s) := by
  unfold admitTrace
  split
  · exact hs
  · exact .ite (fun _ => hs) fun _ => .ite (fun _ => trace_quiet hs) fun _ => trace_quiet (drew_quiet hs)

theorem budgetCheck_quiet {f h cls ring entries rt fence : ℕ} {before : State} (hs : Quiet s₀ s) :
    Quiet s₀ (budgetCheck f h cls ring entries rt fence before s) := by
  unfold budgetCheck
  split
  · exact .ite (fun _ => markLost_quiet hs) fun _ => hs
  · exact hs

theorem qDestroy_quiet {f h : ℕ} (hs : Quiet s₀ s) : Quiet s₀ (qDestroy f h s).1 := by
  unfold qDestroy
  split
  · exact hs
  · split
    · exact hs
    · split
      · split
        · exact hs
        · dsimp only
          split
          · exact hs
          · exact drainQueue_quiet hs
      · split
        · exact hs
        · dsimp only
          split
          · exact hs
          · exact drainQueue_quiet hs

theorem fenceCreate_quiet {given f h : ℕ} {init : W64} {shared : ℕ} {mirror : W64} (hs : Quiet s₀ s) : Quiet s₀ (fenceCreate given
    f h init shared mirror s).1 := by
  unfold fenceCreate
  split
  · exact hs
  · split
    · exact hs
    · split
      · exact hs
      · exact mirrorWrite_quiet (setFence_quiet hs)

theorem fenceSignal_quiet {f h : ℕ} {v : W64} {others : List W64} (hs : Quiet s₀ s) : Quiet s₀ (fenceSignal f h v others s).1 := by
  unfold fenceSignal
  split
  · exact hs
  · exact fenceCycle_quiet hs

theorem fenceQuery_quiet {f h : ℕ} (hs : Quiet s₀ s) : Quiet s₀ (fenceQuery f h s).1 := by
  unfold fenceQuery
  split
  · exact hs
  · split
    · exact hs
    · split
      · exact hs
      · exact setFence_quiet hs

theorem fenceDestroy_quiet {f h : ℕ} (hs : Quiet s₀ s) : Quiet s₀ (fenceDestroy f h s).1 := by
  unfold fenceDestroy
  split
  · exact hs
  · split
    · exact hs
    · exact destroyFence_quiet hs

theorem eventRingSet_quiet {f : ℕ} {addr : W64} {entries vector : ℕ} (hs : Quiet s₀ s) : Quiet s₀ (eventRingSet f addr entries
    vector s).1 := by
  unfold eventRingSet
  split
  · split
    · exact hs
    · exact setFn_quiet hs
  · split
    · exact hs
    · exact setFn_quiet hs

theorem eventCreate_quiet {given f h : ℕ} {v step : W64} (hs : Quiet s₀ s) : Quiet s₀ (eventCreate given f h v step s).1 := by
  unfold eventCreate
  split
  · exact hs
  · split
    · exact hs
    · exact fireEvent_quiet (setObj_quiet hs)

theorem eventDestroy_quiet {f h : ℕ} (hs : Quiet s₀ s) : Quiet s₀ (eventDestroy f h s).1 := by
  unfold eventDestroy
  split
  · exact hs
  · split
    · exact hs
    · exact setObj_quiet hs

theorem graphCreate_quiet {given f h : ℕ} (hs : Quiet s₀ s) : Quiet s₀ (graphCreate given f h s).1 := by
  unfold graphCreate
  split
  · exact hs
  · split
    · exact hs
    · exact setObj_quiet hs

theorem graphPublish_quiet {f h : ℕ} {table : W64} {count : ℕ} (hs : Quiet s₀ s) : Quiet s₀ (graphPublish f h table count s).1 := by
  unfold graphPublish
  split
  · exact hs
  · split
    · exact hs
    · split
      · exact hs
      · split
        · exact hs
        · split
          · exact hs
          · split
            · exact hs
            · exact setObj_quiet hs

theorem graphDestroy_quiet {f h : ℕ} (hs : Quiet s₀ s) : Quiet s₀ (graphDestroy f h s).1 := by
  unfold graphDestroy
  split
  · exact hs
  · split
    · exact hs
    · split
      · exact hs
      · split
        · exact hs
        · exact destroyGraph_quiet hs

theorem faultRingSet_quiet {f : ℕ} {addr : W64} {entries : ℕ} (hs : Quiet s₀ s) : Quiet s₀ (faultRingSet f addr entries s).1 := by
  unfold faultRingSet
  split
  · exact hs
  · exact hostWrite_quiet (setFn_quiet hs)

theorem slowTableSet_quiet {f : ℕ} {addr : W64} (hs : Quiet s₀ s) : Quiet s₀ (slowTableSet f addr s).1 := by
  unfold slowTableSet
  split
  · exact hs
  · exact setFn_quiet hs

/-! ## Accessions -/

theorem setSlot_quiet {n : ℕ} {a : AccSlot} (hs : Quiet s₀ s) : Quiet s₀ (setSlot s n a) :=
  hs.trans ⟨rfl, rfl, rfl, List.length_set, id⟩

theorem stage_quiet {n off v : ℕ} (hs : Quiet s₀ s) : Quiet s₀ (stage s n off v) :=
  .ite (fun _ => setSlot_quiet hs) fun _ => trace_quiet (.upd (setSlot_quiet hs))

theorem shadowWrite_quiet {r : Requester} {off size : ℕ} {v : W64} (hs : Quiet s₀ s) : Quiet s₀ (shadowWrite s r off size v) := by
  unfold shadowWrite
  refine .ite (fun _ => hs) fun _ => ?_
  split
  · exact hs
  · split
    · exact .upd hs
    · exact stage_quiet hs

theorem accIrq_quiet {r : Requester} (hs : Quiet s₀ s) : Quiet s₀ (accIrq s r) := by
  unfold accIrq
  split
  · exact raiseMsix_quiet hs
  · exact hs

theorem unstage_quiet {a : AccSlot} (hs : Quiet s₀ s) : Quiet s₀ (unstage s a) :=
  .upd hs

theorem refuseSlot_quiet {n code detail : ℕ} (hs : Quiet s₀ s) : Quiet s₀ (refuseSlot s n code detail) :=
  accIrq_quiet (dayBook_quiet (unstage_quiet (setSlot_quiet hs)))

theorem applySlot_quiet {n k : ℕ} (hs : Quiet s₀ s) : Quiet s₀ (applySlot s n k) :=
  accIrq_quiet (dayBook_quiet (.upd (setSlot_quiet hs)))

theorem applyArmed_quiet {k : ℕ} (hs : Quiet s₀ s) : Quiet s₀ (applyArmed s k) :=
  .foldl (fun _ _ h => .ite (fun _ => applySlot_quiet h) fun _ => h) hs

theorem endCheck_quiet {n : ℕ} (hs : Quiet s₀ s) : Quiet s₀ (endCheck s n) := by
  have ht {c : Prop} [Decidable c] {a b d : ℕ} {e : ℕ} : Quiet s₀ (trace (if c then drewN s 2 else s) a b d e) :=
    trace_quiet (.ite (fun _ => drewN_quiet hs) fun _ => hs)
  unfold endCheck
  dsimp only
  split
  · exact setSlot_quiet ht
  · exact refuseSlot_quiet ht

theorem claimSlot_quiet {r : Requester} {serves : Option ℕ} {tag : W32} (hs : Quiet s₀ s) : Quiet s₀ (claimSlot s r serves
    tag).1 := by
  unfold claimSlot
  split
  · exact traceFree_quiet (setSlot_quiet hs)
  · exact hs

theorem commitSlot_quiet {n : ℕ} {r : Requester} (hs : Quiet s₀ s) : Quiet s₀ (commitSlot s n r) :=
  traceFree_quiet (setSlot_quiet hs)

theorem stageReq_quiet (hs : Quiet s₀ s) : Quiet s₀ (stageReq s) := by
  unfold stageReq
  split
  · exact hs
  · split
    · exact hs
    · split
      · rename_i e
        exact .fst e (claimSlot_quiet hs)
      · rename_i e
        exact commitSlot_quiet (.upd (.foldl (fun _ _ h => stage_quiet h) (.fst e (claimSlot_quiet hs))))

theorem finishReq_quiet {r : AccReq} (hs : Quiet s₀ s) : Quiet s₀ (finishReq s r) := by
  unfold finishReq
  split
  · exact hs
  · exact .ite (fun _ => fwComplete_quiet (setSlot_quiet (.upd hs))) fun _ => hs

theorem serveReqs_quiet (hs : Quiet s₀ s) : Quiet s₀ (serveReqs s) :=
  .ite (fun _ => hs) fun _ => .foldl (fun _ _ h => stageReq_quiet h) (.foldl (fun _ _ h => finishReq_quiet h) hs)

theorem accRequest_quiet {c : Call} {list : W64} {count target : W32} (hs : Quiet s₀ s) : Quiet s₀ (accRequest s c list count
    target) :=
  .ite (fun _ => hs) fun _ => .ite (fun _ => fwComplete_quiet (fwTake_quiet hs)) fun _ => .ite (fun _ => fwComplete_quiet
      (fwTake_quiet hs)) fun _ => serveReqs_quiet (.upd (fwTake_quiet hs))

theorem accOpen_quiet {r : Requester} (hs : Quiet s₀ s) : Quiet s₀ (accOpen s r) :=
  .ite (fun _ => hs) fun _ => claimSlot_quiet hs

theorem accCommit_quiet {r : Requester} (hs : Quiet s₀ s) : Quiet s₀ (accCommit s r) := by
  unfold accCommit
  refine .ite (fun _ => hs) fun _ => ?_
  split
  · exact hs
  · exact commitSlot_quiet hs

theorem accAbort_quiet {r : Requester} (hs : Quiet s₀ s) : Quiet s₀ (accAbort s r) := by
  unfold accAbort
  refine .ite (fun _ => hs) fun _ => ?_
  split
  · exact hs
  · exact serveReqs_quiet (refuseSlot_quiet hs)

theorem accRelease_quiet {r : Requester} {arg : ℕ} (hs : Quiet s₀ s) : Quiet s₀ (accRelease s r arg) :=
  .ite (fun _ => hs) fun _ => serveReqs_quiet (setSlot_quiet hs)

theorem refusePending_quiet (hs : Quiet s₀ s) : Quiet s₀ (refusePending s) :=
  .foldl (fun _ _ h => .ite (fun _ => refuseSlot_quiet h) fun _ => h) hs

end Sys2Proof.Machine
end

section
/-! Proofs: translation, the fabric, the carrels, faults, the twins, power, firmware and the board are quiet. -/

namespace Sys2Proof.Machine

variable {s₀ s : State}

/-! ## Translation -/

theorem startWalk_quiet {w : Who} {k : AccessKind} {va : ℕ} (hs : Quiet s₀ s) : Quiet s₀ (startWalk s w k va) := by
  unfold startWalk
  split
  · exact hs
  · exact .ite (fun _ => hs) fun _ => .upd hs

theorem pageWalkComplete_quiet {id : ℕ} {stall : Stall} (hs : Quiet s₀ s) : Quiet s₀ (pageWalkComplete s id stall) := by
  unfold pageWalkComplete
  split
  · exact hs
  · refine .ite (fun _ => .upd hs) fun _ => .ite (fun _ => ?_) fun _ => ?_
    · split
      · exact addStall_quiet (moves_quiet (.upd hs))
      · exact moves_quiet (.upd hs)
    · split
      · rename_i e
        split
        · refine markLost_quiet (.fst e (walk_quiet ?_))
          split
          · exact addStall_quiet (moves_quiet (.upd hs))
          · exact moves_quiet (.upd hs)
        · refine .fst e (walk_quiet ?_)
          split
          · exact addStall_quiet (moves_quiet (.upd hs))
          · exact moves_quiet (.upd hs)
      · rename_i e
        refine raiseFault_quiet (.fst e (walk_quiet ?_))
        split
        · exact addStall_quiet (moves_quiet (.upd hs))
        · exact moves_quiet (.upd hs)
      · rename_i e
        refine markLost_quiet (.fst e (walk_quiet ?_))
        split
        · exact addStall_quiet (moves_quiet (.upd hs))
        · exact moves_quiet (.upd hs)

theorem faultSpace_quiet {f : ℕ} (hs : Quiet s₀ s) : Quiet s₀ (faultSpace s f).1 := by
  unfold faultSpace
  dsimp only
  split
  · exact hs
  · exact setFn_quiet hs

theorem faultRecordWrite_quiet {f : ℕ} (hs : Quiet s₀ s) : Quiet s₀ (faultRecordWrite s f) := by
  unfold faultRecordWrite
  split
  · exact hs
  · split
    · rename_i r t _ e
      have hf := Quiet.fst e (faultSpace_quiet hs)
      have hr {v} := hf.of_host (fw := t.fw) (host := (ringPut t.fab.host (fnOf t f).faults v).1)
        fun h => ringPut_wf h (fnOf t f).faults v
      exact .ite (fun _ => raiseMsix_quiet (.upd (setFn_quiet hr))) fun _ => .upd (setFn_quiet hr)
    · rename_i e
      exact .fst e (faultSpace_quiet hs)
    · rename_i e
      exact .fst e (faultSpace_quiet hs)

theorem faultHeadPoll_quiet {f : ℕ} (hs : Quiet s₀ s) : Quiet s₀ (faultHeadPoll s f) := by
  unfold faultHeadPoll
  dsimp only
  split
  · exact faultRecordWrite_quiet (setFn_quiet hs)
  · exact hs

theorem replyBad_quiet (hs : Quiet s₀ s) : Quiet s₀ (replyBad s) :=
  .upd hs

theorem faultAnswer_quiet {f outcome fid : ℕ} (hs : Quiet s₀ s) : Quiet s₀ (faultAnswer s f outcome fid) := by
  unfold faultAnswer
  refine .ite (fun _ => hs) fun _ => ?_
  split
  · exact replyBad_quiet hs
  · split
    · exact hs
    · refine .ite (fun _ => .upd hs) fun _ => .ite (fun _ => ?_) fun _ => replyBad_quiet hs
      split
      · exact markLost_quiet (.upd hs)
      · exact .upd hs

theorem mmuInval_quiet {f h : ℕ} {token : W32} (hs : Quiet s₀ s) : Quiet s₀ (mmuInval s f h token) := by
  unfold mmuInval
  refine .ite (fun _ => hs) fun _ => ?_
  split
  · exact .upd hs
  · exact .ite (fun _ => .upd hs) fun _ => .upd hs

theorem invalDone_quiet {f : ℕ} (hs : Quiet s₀ s) : Quiet s₀ (invalDone s f) := by
  unfold invalDone
  split
  · exact hs
  · split
    · exact hs
    · refine .ite (fun _ => hs) fun _ => ?_
      dsimp only
      split
      · exact hostWrite_quiet (setFn_quiet (.upd hs))
      · exact setFn_quiet (.upd hs)

/-! ## The fabric -/

theorem transRoute_quiet {w : Who} {k : AccessKind} {va : ℕ} (hs : Quiet s₀ s) : Quiet s₀ (transRoute s w k va).1 := by
  unfold transRoute
  split
  · exact hs
  · split
    · exact hs
    · split
      · exact startWalk_quiet hs
      · exact fillPath_quiet hs

theorem routeOf_quiet {t : TxnReq} (hs : Quiet s₀ s) : Quiet s₀ (routeOf s t).1 := by
  unfold routeOf
  split
  · dsimp only
    split
    · exact hs
    · exact transRoute_quiet hs
  · dsimp only
    split
    · exact hs
    · exact transRoute_quiet hs
  · exact hs
  · split
    · exact hs
    · split <;> exact hs
  · exact hs
  · exact hs
  · exact hs

theorem routeFail_quiet {t : TxnReq} (hs : Quiet s₀ s) : Quiet s₀ (routeFail s t) := by
  unfold routeFail
  split
  · exact dayBook_quiet hs
  · exact markLost_quiet hs

theorem transactionIssue_quiet {t : TxnReq} (hs : Quiet s₀ s) : Quiet s₀ (transactionIssue s t) := by
  unfold transactionIssue
  refine .ite (fun _ => hs) fun _ => ?_
  split
  · dsimp only
    split
    · rename_i e
      exact .fst e (routeOf_quiet (addStall_quiet hs))
    · rename_i e
      exact .fst e (routeOf_quiet (addStall_quiet hs))
    · rename_i e
      exact routeFail_quiet (.fst e (routeOf_quiet (addStall_quiet hs)))
    · rename_i e
      split
      · rename_i e'
        exact .fst e' (reachDoms_quiet (.fst e (routeOf_quiet (addStall_quiet hs))))
      · rename_i e'
        exact allocate_quiet (.upd (.fst e' (reachDoms_quiet (.fst e (routeOf_quiet (addStall_quiet hs))))))
  · dsimp only
    split
    · rename_i e
      exact .fst e (routeOf_quiet hs)
    · rename_i e
      exact .fst e (routeOf_quiet hs)
    · rename_i e
      exact routeFail_quiet (.fst e (routeOf_quiet hs))
    · rename_i e
      split
      · rename_i e'
        exact .fst e' (reachDoms_quiet (.fst e (routeOf_quiet hs)))
      · rename_i e'
        exact allocate_quiet (.upd (.fst e' (reachDoms_quiet (.fst e (routeOf_quiet hs)))))

theorem setHbm_quiet {n : ℕ} {x : HbmEcc} (hs : Quiet s₀ s) : Quiet s₀ (setHbm s n x) :=
  .upd hs

theorem setEcc_quiet {k : ℕ} {x : StkEcc} (hs : Quiet s₀ s) : Quiet s₀ (setEcc s k x) :=
  .upd hs

theorem hbmLog_quiet {pa : ℕ} {count : Bool} (hs : Quiet s₀ s) : Quiet s₀ (hbmLog s pa count) :=
  setHbm_quiet hs

theorem txnLost_quiet {x : Txn} {means : ℕ} (hs : Quiet s₀ s) : Quiet s₀ (txnLost s x means) := by
  unfold txnLost
  split
  · exact dayBook_quiet hs
  · exact .upd hs
  · exact hs
  · exact hs
  · exact dataFault_quiet hs

theorem performMore_quiet {x : Txn} (hs : Quiet s₀ s) : Quiet s₀ (performMore x s) := by
  unfold performMore
  refine .foldl (fun _ _ h => ?_) hs
  split
  · exact hostWrite_quiet h
  · exact physWrite_quiet h

theorem performTxn_quiet {x : Txn} (hs : Quiet s₀ s) : Quiet s₀ (performTxn s x) := by
  unfold performTxn
  dsimp only
  split
  · split
    · split
      · exact hs
      · split <;> exact hs
    · refine .upd ?_
      split
      · exact hs
      · split
        · exact hs
        · exact physRead_quiet hs
  · split
    · split
      · exact hs
      · split <;> exact hs
    · refine .upd ?_
      split
      · exact hs
      · split
        · exact hs
        · exact physRead_quiet hs
  · refine performMore_quiet (hostWrite_quiet ?_)
    split
    · split
      · exact hs
      · split <;> exact hs
    · refine .upd ?_
      split
      · exact hs
      · split
        · exact hs
        · exact physRead_quiet hs
  · refine performMore_quiet (physWrite_quiet ?_)
    split
    · split
      · exact hs
      · split <;> exact hs
    · refine .upd ?_
      split
      · exact hs
      · split
        · exact hs
        · exact physRead_quiet hs

theorem endTxn_quiet {id : ℕ} {x : Txn} (hs : Quiet s₀ s) : Quiet s₀ (endTxn s id x) :=
  allocate_quiet (.upd hs)

theorem hbmBad_quiet {x : Txn} (hs : Quiet s₀ s) : Quiet s₀ (hbmBad s x) :=
  .ite (fun _ => performTxn_quiet hs) fun _ => txnLost_quiet (hbmLog_quiet hs)

theorem stackBad_quiet {x : Txn} {k w set : ℕ} (hs : Quiet s₀ s) : Quiet s₀ (stackBad s x k w set) :=
  .ite (fun _ => performTxn_quiet hs) fun _ => .ite (fun _ => performTxn_quiet (.upd (setEcc_quiet (setEcc_quiet hs)))) fun _ =>
      .ite (fun _ => setEcc_quiet hs) fun _ => .ite (fun _ => setEcc_quiet (setEcc_quiet hs)) fun _ => dataFault_quiet
      (setEcc_quiet (setEcc_quiet hs))

theorem countCorrected_quiet {x : Txn} (hs : Quiet s₀ s) : Quiet s₀ (countCorrected s x) := by
  unfold countCorrected
  split
  · exact setEcc_quiet hs
  · exact setHbm_quiet hs

theorem respond_quiet {t : State} {x : Txn} {r : Resp} (e : respond s x r = some t) (hs : Quiet s₀ s) : Quiet s₀ t := by
  unfold respond at e
  split at e
  · cases e; exact performTxn_quiet hs
  · cases e; exact .ite (fun _ => hs) fun _ => markLost_quiet hs
  · split at e <;> cases e
    exact hs
  · split at e <;> cases e
    exact .upd hs
  · cases e; exact markLost_quiet hs
  · cases e; exact dataFault_quiet hs
  · cases e; exact performTxn_quiet hs
  · cases e; exact performTxn_quiet hs
  · cases e; exact performTxn_quiet (countCorrected_quiet hs)
  · cases e; exact performTxn_quiet (countCorrected_quiet hs)
  · cases e
    split
    · exact stackBad_quiet hs
    · exact hbmBad_quiet hs
  · cases e
    split
    · exact stackBad_quiet hs
    · exact txnLost_quiet (hbmLog_quiet hs)
  · cases e

theorem arrived_quiet {id : ℕ} {x : Txn} (hs : Quiet s₀ s) : Quiet s₀ (arrived s id x) :=
  .ite (fun _ => .upd (moves_quiet (endTxn_quiet hs))) fun _ => moves_quiet (endTxn_quiet hs)

theorem transactionResponse_quiet {id : ℕ} {r : Resp} (hs : Quiet s₀ s) : Quiet s₀ (transactionResponse s id r) := by
  unfold transactionResponse
  dsimp only
  split
  · exact hs
  · rename_i x _
    refine .ite (fun _ => hs) fun _ => .ite (fun _ => arrived_quiet (nocSettle_quiet hs)) fun _ => ?_
    cases e : respond (arrived (nocSettle s) id x) x r with
    | none => exact hs
    | some t => exact respond_quiet e (arrived_quiet (nocSettle_quiet hs))

theorem retryExhausted_quiet {stack id : ℕ} {x : Txn} (hs : Quiet s₀ s) : Quiet s₀ (retryExhausted s stack id x) := by
  unfold retryExhausted
  split
  · exact .ite (fun _ => setHbm_quiet (endTxn_quiet hs)) fun _ => dataFault_quiet (setHbm_quiet (endTxn_quiet hs))
  · exact txnLost_quiet (hbmLog_quiet (setHbm_quiet (endTxn_quiet hs)))

theorem heldByRetry_quiet {x : Txn} (hs : Quiet s₀ s) : Quiet s₀ (heldByRetry s x) :=
  .upd hs

theorem hbmParityRetry_quiet {stack id : ℕ} (hs : Quiet s₀ s) : Quiet s₀ (hbmParityRetry s stack id) := by
  unfold hbmParityRetry
  split
  · exact hs
  · exact .ite (fun _ => hs) fun _ => .ite (fun _ => setHbm_quiet (setTxn_quiet (heldByRetry_quiet hs))) fun _ =>
        retryExhausted_quiet (heldByRetry_quiet hs)

theorem stackScrub_quiet {k : ℕ} {found : Ecc} (hs : Quiet s₀ s) : Quiet s₀ (stackScrub s k found) := by
  unfold stackScrub
  refine .ite (fun _ => hs) fun _ => ?_
  split
  · exact .upd hs
  · exact setEcc_quiet (.upd hs)
  · exact setEcc_quiet (.upd hs)

theorem hbmScrub_quiet {n : ℕ} {found : Ecc} (hs : Quiet s₀ s) : Quiet s₀ (hbmScrub s n found) := by
  unfold hbmScrub
  split
  · exact setHbm_quiet hs
  · exact setHbm_quiet hs
  · exact hbmLog_quiet (setHbm_quiet hs)

/-! ## Carrels -/

theorem partWrite_quiet {c : Cell3} {l : List Byte} (hs : Quiet s₀ s) : Quiet s₀ (partWrite s c l) :=
  .ite (fun _ => .of_local hs fun h => mwrite_wf (mzero_wf h _ _) _ _) fun _ => .of_lm hs fun h => mwrite_wf (mzero_wf h _ _) _ _

/-- A memory of which some cells are kept. -/
theorem filter_wf {m : Mem} (h : Mem.wf m = true) (p : Host.Cell → Bool) : Mem.wf (m.filter p) = true := by
  rw [Mem.wf_iff] at h ⊢
  exact ⟨h.1.filter _, fun c hc => h.2 c (List.mem_of_mem_filter hc)⟩

theorem clearEdge_quiet {old new : View} (hs : Quiet s₀ s) : Quiet s₀ (clearEdge s old new) :=
  .of_mem hs (fun h => by
    obtain ⟨h1, h2, h3⟩ := (memOk_iff s).1 h
    exact (memOk_iff _).2 ⟨filter_wf h1 _, h2, filter_wf h3 _⟩) rfl rfl rfl rfl

theorem setCar_quiet {n : ℕ} {x : CarSlot} (hs : Quiet s₀ s) : Quiet s₀ (setCar s n x) :=
  .upd hs

theorem beginSwitch_quiet {n ctx save : ℕ} {out : List Byte} {moved : ℕ} {new : View} {load : ℕ} (hs : Quiet s₀ s) : Quiet s₀
    (beginSwitch s n ctx save out moved new load) :=
  trace_quiet (setCar_quiet (.upd hs))

theorem switchStart_quiet {before : State} {old new : View} {n : ℕ} (hs : Quiet s₀ s) :
    Quiet s₀ (switchStart before s old new n) :=
  beginSwitch_quiet hs

theorem startLoading_quiet {n result : ℕ} (hs : Quiet s₀ s) : Quiet s₀ (startLoading s n result) :=
  trace_quiet (setCar_quiet (.foldl (fun _ _ h => partWrite_quiet h) hs))

theorem switchSaveDone_quiet {n : ℕ} (hs : Quiet s₀ s) : Quiet s₀ (switchSaveDone s n) := by
  unfold switchSaveDone
  refine .ite (fun _ => hs) fun _ => .ite (fun _ => startLoading_quiet hs) fun _ => ?_
  split
  · exact startLoading_quiet hs
  · split
    · rename_i e
      exact startLoading_quiet (.fst e (vwrite_quiet hs))
    · rename_i e
      exact .ite (fun _ => .fst e (vwrite_quiet hs)) fun _ => startLoading_quiet (.fst e (vwrite_quiet hs))

theorem switchEnd_quiet {n result : ℕ} (hs : Quiet s₀ s) : Quiet s₀ (switchEnd s n result) :=
  trace_quiet (setCar_quiet hs)

theorem loadParts_quiet {n : ℕ} {parts : List Cell3} {l : List Byte} (hs : Quiet s₀ s) : Quiet s₀ (loadParts s n parts l) := by
  induction parts generalizing s l with
  | nil => exact hs
  | cons x parts ih =>
    unfold loadParts
    exact ih (.ite (fun _ => partWrite_quiet hs) fun _ => hs)

theorem switchLoadDone_quiet {n : ℕ} (hs : Quiet s₀ s) : Quiet s₀ (switchLoadDone s n) := by
  unfold switchLoadDone
  refine .ite (fun _ => hs) fun _ => .ite (fun _ => switchEnd_quiet hs) fun _ => ?_
  split
  · exact switchEnd_quiet hs
  · split
    · rename_i e
      exact switchEnd_quiet (loadParts_quiet (.fst e (vread_quiet hs)))
    · rename_i e
      exact .ite (fun _ => .fst e (vread_quiet hs)) fun _ => switchEnd_quiet (.fst e (vread_quiet hs))

theorem slowPublish_quiet {k : ℕ} (hs : Quiet s₀ s) : Quiet s₀ (slowPublish s k) :=
  .upd hs

theorem slowTableWrite_quiet {f : ℕ} (hs : Quiet s₀ s) : Quiet s₀ (slowTableWrite s f) := by
  unfold slowTableWrite
  split
  · exact hs
  · exact .ite (fun _ => hs) fun _ => .foldl (fun _ _ h => hostWrite_quiet h) hs

/-! ## Faults -/

theorem stopWork_quiet {c : ℕ} (hs : Quiet s₀ s) : Quiet s₀ (stopWork s c) := by
  unfold stopWork
  refine .foldl (fun _ _ h => ?_) hs
  split
  · exact h
  · exact putQ_quiet (.foldl (fun _ _ h => dropWork_quiet h) h)

theorem handOver_quiet {c : ℕ} (hs : Quiet s₀ s) : Quiet s₀ (handOver s c) := by
  unfold handOver
  refine .ite (fun _ => hs) fun _ => .upd (closeStreams_quiet (stopWork_quiet ?_))
  split
  · exact dropDirty_quiet hs
  · exact hs

theorem freePeer_quiet (hs : Quiet s₀ s) : Quiet s₀ (freePeer s) :=
  .upd hs

theorem setTwin_quiet {st : SlvState} {cause : ℕ} (hs : Quiet s₀ s) : Quiet s₀ (setTwin s st cause) :=
  dayBook_quiet (.upd hs)

theorem sendCtl_quiet {m : CtlMsg} (hs : Quiet s₀ s) : Quiet s₀ (sendCtl s m) :=
  .upd hs

theorem loseOrMove_quiet {cs : List ℕ} (hs : Quiet s₀ s) : Quiet s₀ (loseOrMove s cs) :=
  .ite (fun _ => hs) fun _ => .ite (fun _ => .foldl (fun _ _ h => handOver_quiet h) (sendCtl_quiet hs)) fun _ => .foldl
      (fun _ _ h => markLost_quiet h) hs

theorem deviceFault_quiet {means : ℕ} (hs : Quiet s₀ s) : Quiet s₀ (deviceFault s means) :=
  .ite (fun _ => recordFault_quiet (drew_quiet hs)) fun _ => .ite (fun _ => .foldl (fun _ _ h => markLost_quiet h) (setTwin_quiet
      (.ite (fun _ => sendCtl_quiet (.upd (recordFault_quiet (drew_quiet hs)))) fun _ => .upd (recordFault_quiet (drew_quiet
      hs))))) fun _ => setTwin_quiet (.ite (fun _ => sendCtl_quiet (.upd (recordFault_quiet (drew_quiet hs)))) fun _ => .upd
      (recordFault_quiet (drew_quiet hs)))

theorem holdDoms_quiet {ds : List ℕ} (hs : Quiet s₀ s) : Quiet s₀ (holdDoms s ds) :=
  .foldl (fun _ _ h => setDom_quiet h) hs

theorem unitFault_quiet {u : UnitRef} {means : ℕ} (hs : Quiet s₀ s) : Quiet s₀ (unitFault s u means) := by
  unfold unitFault
  split
  · exact loseOrMove_quiet (holdDoms_quiet (.upd (recordFault_quiet hs)))
  · exact loseOrMove_quiet (holdDoms_quiet (.upd (recordFault_quiet hs)))
  · exact loseOrMove_quiet (holdDoms_quiet (.upd (recordFault_quiet hs)))
  · exact loseOrMove_quiet (portLinkChange_quiet (.upd (recordFault_quiet hs)))
  · exact deviceFault_quiet hs

theorem removeOos_quiet (hs : Quiet s₀ s) : Quiet s₀ (removeOos s) :=
  .ite (fun _ => hs) fun _ => .upd hs

/-! ## Errors of units -/

theorem unitControlErr_quiet {u : UnitRef} (hs : Quiet s₀ s) : Quiet s₀ (unitControlErr s u) :=
  unitFault_quiet (drew_quiet hs)

theorem onUnit_quiet {u : UnitRef} {ctx : Option ℕ} {err : UnitErr} {t : State} (hs : Quiet s₀ s) (ht : Quiet s₀ t) :
    Quiet s₀ (onUnit s u ctx err t) := by
  unfold onUnit
  split
  · exact ht
  · exact hs
  · exact unitDataErr_quiet hs
  · exact unitControlErr_quiet hs

theorem onCore_quiet {q : SgRef} {t : State} (hs : Quiet s₀ s) (ht : Quiet s₀ t) : Quiet s₀ (onCore s q t) :=
  onUnit_quiet hs ht

theorem responseErr_quiet {id : ℕ} {u : UnitRef} (hs : Quiet s₀ s) : Quiet s₀ (responseErr s id u) :=
  .ite (fun _ => unitControlErr_quiet hs) fun _ => hs

/-! ## The twins -/

theorem attachFacts_quiet {p : PartnerFacts} (hs : Quiet s₀ s) : Quiet s₀ (attachFacts s p) :=
  .ite (fun _ => setTwin_quiet hs) fun _ => sendCtl_quiet (.upd hs)

theorem attachNow_quiet {p : PartnerFacts} (hs : Quiet s₀ s) : Quiet s₀ (attachNow s p) := by
  unfold attachNow
  split
  · exact .ite (fun _ => setTwin_quiet hs) fun _ => .ite (fun _ => attachFacts_quiet (sendCtl_quiet (drewN_quiet (.upd hs))))
        fun _ => sendCtl_quiet (drewN_quiet (.upd hs))
  · exact .ite (fun _ => attachFacts_quiet (.upd hs)) fun _ => hs
  · exact .ite (fun _ => attachFacts_quiet (.upd hs)) fun _ => hs
  · exact hs

theorem slvAttach_quiet {p : PartnerFacts} (hs : Quiet s₀ s) : Quiet s₀ (slvAttach s p) := by
  unfold slvAttach
  refine .ite (fun _ => hs) fun _ => ?_
  split
  · rename_i e
    exact .fst e (reachDom_quiet hs)
  · rename_i e
    exact attachNow_quiet (.fst e (reachDom_quiet hs))

theorem identityExchange_quiet {chain nonce sig : List Byte} {verified : Bool} (hs : Quiet s₀ s) : Quiet s₀ (identityExchange s
    chain nonce sig verified) :=
  .ite (fun _ => hs) fun _ => .ite (fun _ => sendCtl_quiet (.upd hs)) fun _ => setTwin_quiet (sendCtl_quiet (.upd hs))

theorem attachTimeout_quiet (hs : Quiet s₀ s) : Quiet s₀ (attachTimeout s) :=
  .ite (fun _ => setTwin_quiet hs) fun _ => hs

theorem peerGone_quiet {a0 : MirrorEntry} (hs : Quiet s₀ s) : Quiet s₀ (peerGone s a0) := by
  unfold peerGone
  split
  · exact .ite (fun _ => hs) fun _ => .upd hs
  · exact hs

theorem mirrorReceive_quiet {l : List MirrorEntry} (hs : Quiet s₀ s) : Quiet s₀ (mirrorReceive s l) :=
  .ite (fun _ => hs) fun _ => .upd (.foldl (fun _ _ h => peerGone_quiet h) hs)

theorem claimTakeover_quiet {e : ℕ} (hs : Quiet s₀ s) : Quiet s₀ (claimTakeover s e) := by
  unfold claimTakeover
  split
  · exact hs
  · exact .ite (fun _ => hs) fun _ => setSlot_quiet hs

theorem scheduleTakeover_quiet {only : Option (List W32)} (hs : Quiet s₀ s) : Quiet s₀ (scheduleTakeover s only) :=
  claimTakeover_quiet (.upd hs)

theorem declareFailed_quiet (hs : Quiet s₀ s) : Quiet s₀ (declareFailed s) :=
  scheduleTakeover_quiet (.upd (setTwin_quiet hs))

theorem heartbeatSample_quiet {level : Bool} (hs : Quiet s₀ s) : Quiet s₀ (heartbeatSample s level) :=
  .ite (fun _ => hs) fun _ => .ite (fun _ => declareFailed_quiet (.upd hs)) fun _ => .ite (fun _ => freePeer_quiet (.upd (.upd
      hs))) fun _ => .upd hs

theorem moveMessage_quiet {ctxs : List W32} (hs : Quiet s₀ s) : Quiet s₀ (moveMessage s ctxs) :=
  .ite (fun _ => scheduleTakeover_quiet hs) fun _ => hs

theorem failedMessage_quiet (hs : Quiet s₀ s) : Quiet s₀ (failedMessage s) :=
  .ite (fun _ => declareFailed_quiet hs) fun _ => hs

theorem installQueues_quiet {m : Mirror} {c slot : ℕ} (hs : Quiet s₀ s) : Quiet s₀ (installQueues s m c slot) :=
  .foldl (fun _ _ h => putQ_quiet h) hs

theorem putReg_quiet {off v : ℕ} (hs : Quiet s₀ s) : Quiet s₀ (putReg s off v) :=
  .upd hs

theorem installObjects_quiet {m : Mirror} {c : ℕ} {x : Ctx} (hs : Quiet s₀ s) : Quiet s₀ (installObjects s m c x) :=
  .upd (installQueues_quiet (setObj_quiet hs))

theorem finishDrains_quiet {c : ℕ} (hs : Quiet s₀ s) : Quiet s₀ (finishDrains s c) :=
  .ite (fun _ => ctxGone_quiet (.foldl (fun _ _ h => .ite (fun _ => queueDrained_quiet h) fun _ => h) hs)) fun _ => .foldl
      (fun _ _ h => .ite (fun _ => queueDrained_quiet h) fun _ => h) hs

theorem takeCtx_quiet {m : Mirror} {c : ℕ} {x : Ctx} (hs : Quiet s₀ s) : Quiet s₀ (takeCtx s m c x) := by
  unfold takeCtx
  refine .twin (finishDrains_quiet (.foldl (fun _ _ h => fireEvent_quiet h) (.upd ?_)))
  exact .foldl (fun _ _ h => .foldl (fun _ _ h => putReg_quiet h) h) (beginSwitch_quiet (putReg_quiet (installObjects_quiet hs)))

theorem refuseCtx_quiet {m : Mirror} {c : ℕ} {x : Ctx} (hs : Quiet s₀ s) : Quiet s₀ (refuseCtx s m c x) :=
  .ite (fun _ => installObjects_quiet hs) fun _ => .upd (markLost_quiet (installObjects_quiet hs))

theorem takeoverAt_quiet {k : ℕ} (hs : Quiet s₀ s) : Quiet s₀ (takeoverAt s k) := by
  unfold takeoverAt
  split
  · exact hs
  · refine raiseMsix_quiet ?_
    split
    · exact freePeer_quiet (.foldl (fun _ _ h => dayBook_quiet h) (.foldl (fun _ _ h => .ite (fun _ => takeCtx_quiet h) fun _ =>
          refuseCtx_quiet h) (.upd hs)))
    · exact .upd (.foldl (fun _ _ h => .ite (fun _ => takeCtx_quiet h) fun _ => refuseCtx_quiet h) (.upd hs))

theorem leaveNow_quiet {move : Bool} (hs : Quiet s₀ s) : Quiet s₀ (leaveNow s move) :=
  .ite (fun _ => hs) fun _ => sendCtl_quiet (.upd (setTwin_quiet hs))

theorem partnerLeaves_quiet {move : Bool} (hs : Quiet s₀ s) : Quiet s₀ (partnerLeaves s move) :=
  .ite (fun _ => hs) fun _ => .ite (fun _ => scheduleTakeover_quiet (.upd (setTwin_quiet hs))) fun _ => .upd (setTwin_quiet hs)

theorem slvDetach_quiet {move byPartner : Bool} (hs : Quiet s₀ s) : Quiet s₀ (slvDetach s move byPartner) :=
  .ite (fun _ => partnerLeaves_quiet hs) fun _ => leaveNow_quiet hs

theorem detachAt_quiet {k : ℕ} (hs : Quiet s₀ s) : Quiet s₀ (detachAt s k) :=
  .ite (fun _ => freePeer_quiet (.upd (setTwin_quiet (.ite (fun _ => .foldl (fun _ _ h => handOver_quiet h) hs) fun _ => hs))))
      fun _ => hs

theorem linkLost_quiet (hs : Quiet s₀ s) : Quiet s₀ (linkLost s) :=
  .ite (fun _ => .upd (setTwin_quiet (.upd hs))) fun _ => .ite (fun _ => .upd (.upd hs)) fun _ => .upd hs

theorem mirrorEdge_quiet {first : Bool} (hs : Quiet s₀ s) : Quiet s₀ (mirrorEdge s first) :=
  .ite (fun _ => .upd hs) fun _ => .ite (fun _ => .upd hs) fun _ => .ite (fun _ => linkLost_quiet (.upd hs)) fun _ => .upd hs

theorem mirrorSend_quiet (hs : Quiet s₀ s) : Quiet s₀ (mirrorSend s) :=
  .ite (fun _ => .upd (sendCtl_quiet hs)) fun _ => hs

theorem applyPartner_quiet {k : ℕ} (hs : Quiet s₀ s) : Quiet s₀ (applyPartner s k) :=
  .ite (fun _ => hs) fun _ => .foldl (fun _ _ h => .ite (fun _ => .foldl (fun _ _ h => putReg_quiet h) h) fun _ => h) hs

theorem heldByLink_quiet (hs : Quiet s₀ s) : Quiet s₀ (heldByLink s) :=
  .foldl (fun _ _ h => .ite (fun _ => heldByRetry_quiet h) fun _ => h) hs

theorem linkRetries_quiet (hs : Quiet s₀ s) : Quiet s₀ (linkRetries s) :=
  heldByLink_quiet (.upd hs)

theorem startRetrain_quiet (hs : Quiet s₀ s) : Quiet s₀ (startRetrain s) :=
  .upd (linkRetries_quiet hs)

theorem selvageReplay_quiet {ok : Bool} (hs : Quiet s₀ s) : Quiet s₀ (selvageReplay s ok) :=
  .ite (fun _ => hs) fun _ => .ite (fun _ => .upd (.upd hs)) fun _ => .ite (fun _ => .upd hs) fun _ => .ite (fun _ =>
      startRetrain_quiet (.upd hs)) fun _ => linkRetries_quiet (.upd (.upd hs))

theorem selvageRetrain_quiet (hs : Quiet s₀ s) : Quiet s₀ (selvageRetrain s) :=
  .ite (fun _ => hs) fun _ => startRetrain_quiet hs

theorem selvageTrainingDone_quiet {lanes : ℕ} (hs : Quiet s₀ s) : Quiet s₀ (selvageTrainingDone s lanes) :=
  .ite (fun _ => hs) fun _ => .upd hs

theorem selvageRequest_quiet {k : AccessKind} {pa len : ℕ} {data : List Byte} {found : Ecc} (hs : Quiet s₀ s) :
    Quiet s₀ (selvageRequest s k pa len data found) := by
  unfold selvageRequest
  refine .ite (fun _ => hs) fun _ => .ite (fun _ => .upd hs) fun _ => ?_
  split
  · rename_i e
    exact .fst e (reachDoms_quiet hs)
  · rename_i e
    have hr := Quiet.fst e (reachDoms_quiet hs)
    have hc {c : Prop} [Decidable c] {x} := Quiet.ite (c := c) (fun _ => setHbm_quiet (n := stackOf pa) (x := x) hr) fun _ => hr
    have hw {u : State} (h : Quiet s₀ u) :
        Quiet s₀ { u with fab := { u.fab with mem := mwrite u.fab.mem pa (data.take len) } } :=
      .of_local h fun h => mwrite_wf h pa (data.take len)
    refine .ite (fun _ => .upd (hbmLog_quiet hc)) fun _ => ?_
    split
    · exact .upd (hw hc)
    · exact .upd (hw hc)
    · exact .upd hc


end Sys2Proof.Machine
end

section
/-! Proofs: power, firmware, the board's inputs, the monitors and the registers are quiet. -/

namespace Sys2Proof.Machine

variable {s₀ s : State}

/-! ## Power and clocks -/

theorem setPwr_quiet {p : Power} (hs : Quiet s₀ s) : Quiet s₀ (setPwr s p) :=
  .upd hs

theorem commandVolt_quiet {level : ℕ} (hs : Quiet s₀ s) : Quiet s₀ (commandVolt s level) :=
  setPwr_quiet hs

theorem levelCutoff_quiet {k : ℕ} (hs : Quiet s₀ s) : Quiet s₀ (levelCutoff s k) := by
  unfold levelCutoff
  split
  · exact .ite (fun _ => commandVolt_quiet hs) fun _ => hs
  · exact hs

theorem levelRefused_quiet (hs : Quiet s₀ s) : Quiet s₀ (levelRefused s) :=
  .ite (fun _ => commandVolt_quiet hs) fun _ => hs

theorem levelEdge_quiet (hs : Quiet s₀ s) : Quiet s₀ (levelEdge s) :=
  .ite (fun _ => commandVolt_quiet (setPwr_quiet hs)) fun _ => .ite (fun _ => .ite (fun _ => setPwr_quiet hs) fun _ => .ite
      (fun _ => setPwr_quiet hs) fun _ => commandVolt_quiet (setPwr_quiet hs)) fun _ => setPwr_quiet hs

theorem voltageConfirm_quiet (hs : Quiet s₀ s) : Quiet s₀ (voltageConfirm s) := by
  unfold voltageConfirm
  split
  · exact hs
  · exact .ite (fun _ => hs) fun _ => .ite (fun _ => setPwr_quiet hs) fun _ => setPwr_quiet hs

theorem voltageTimeout_quiet (hs : Quiet s₀ s) : Quiet s₀ (voltageTimeout s) := by
  unfold voltageTimeout
  split
  · exact hs
  · exact .ite (fun _ => deviceFault_quiet (setPwr_quiet hs)) fun _ => hs

theorem powerWindow_quiet {mw : ℕ} (hs : Quiet s₀ s) : Quiet s₀ (powerWindow s mw) :=
  .ite (fun _ => raiseMsix_quiet (setPwr_quiet hs)) fun _ => setPwr_quiet hs

theorem sleepEntry_quiet {d : ℕ} (hs : Quiet s₀ s) : Quiet s₀ (sleepEntry s d) :=
  .ite (fun _ => hs) fun _ => setDom_quiet (drew_quiet hs)

theorem domLose_quiet {d : ℕ} (hs : Quiet s₀ s) : Quiet s₀ (domLose s d) := by
  have hm {x} : Quiet s₀ { s with mmu := x } := .upd hs
  refine .ite (fun _ => ?_) fun _ => .ite (fun _ => .upd hm) fun _ => .ite (fun _ => .upd hm) fun _ =>
    .ite (fun _ => .upd hm) fun _ => .ite (fun _ => .upd hm) fun _ => hm
  exact .of_lm hm fun h => filter_wf h _

theorem entryDone_quiet {d : ℕ} (hs : Quiet s₀ s) : Quiet s₀ (entryDone s d) :=
  .ite (fun _ => hs) fun _ => .ite (fun _ => startWake_quiet (setDom_quiet (.ite (fun _ => domLose_quiet hs) fun _ => hs)))
      fun _ => setDom_quiet (.ite (fun _ => domLose_quiet hs) fun _ => hs)

theorem wakeDone_quiet {d : ℕ} (hs : Quiet s₀ s) : Quiet s₀ (wakeDone s d) :=
  .ite (fun _ => setDom_quiet hs) fun _ => hs

theorem wakeTimeout_quiet {d : ℕ} (hs : Quiet s₀ s) : Quiet s₀ (wakeTimeout s d) :=
  .ite (fun _ => .foldl (fun _ _ h => unitFault_quiet h) (setDom_quiet hs)) fun _ => hs

theorem roleWakes_quiet {k : ℕ} (hs : Quiet s₀ s) : Quiet s₀ (roleWakes s k) :=
  .foldl (fun _ _ h => startWake_quiet h) hs

theorem settleWakes_quiet (hs : Quiet s₀ s) : Quiet s₀ (settleWakes s) :=
  .foldl (fun _ _ h => startWake_quiet h) hs

theorem requestS3_quiet (hs : Quiet s₀ s) : Quiet s₀ (requestS3 s) :=
  .ite (fun _ => hs) fun _ => .ite (fun _ => setPwr_quiet hs) fun _ => setPwr_quiet hs

theorem startExit_quiet {src : ℕ} (hs : Quiet s₀ s) : Quiet s₀ (startExit s src) :=
  .ite (fun _ => hs) fun _ => recordWake_quiet (setPwr_quiet hs)

theorem accessInS3_quiet {bar : Bar} {off : ℕ} {isWrite : Bool} (hs : Quiet s₀ s) : Quiet s₀ (accessInS3 s bar off isWrite) := by
  unfold accessInS3
  split
  · exact hs
  · exact .ite (fun _ => hs) fun _ => startExit_quiet hs
  · exact startExit_quiet hs

theorem setClamp_quiet {v : Bool} (hs : Quiet s₀ s) : Quiet s₀ (setClamp s v) :=
  .ite (fun _ => hs) fun _ => setPwr_quiet hs

/-! ## Firmware -/

theorem setFw_quiet {x : Firmware} (hs : Quiet s₀ s) : Quiet s₀ (setFw s x) :=
  .upd hs

theorem fwRingBase_quiet {f : ℕ} {cpl : Bool} {v : W64} (hs : Quiet s₀ s) : Quiet s₀ (fwRingBase s f cpl v) :=
  .ite (fun _ => hs) fun _ => setFn_quiet hs

theorem heartbeat_quiet {f : ℕ} (hs : Quiet s₀ s) : Quiet s₀ (heartbeat s f) :=
  .ite (fun _ => hs) fun _ => setFn_quiet hs

theorem graceStart_quiet {f : ℕ} (hs : Quiet s₀ s) : Quiet s₀ (graceStart s f) := by
  unfold graceStart
  dsimp only
  split
  · exact hs
  · exact dayBook_quiet (setFn_quiet hs)

theorem hostGone_quiet {f : ℕ} (hs : Quiet s₀ s) : Quiet s₀ (hostGone s f) :=
  .foldl (fun _ _ h => markLost_quiet h) hs

theorem graceExpiry_quiet {f : ℕ} (hs : Quiet s₀ s) : Quiet s₀ (graceExpiry s f) := by
  unfold graceExpiry
  dsimp only
  split
  · exact hs
  · refine .ite (fun _ => hs) fun _ => serveReqs_quiet (dayBook_quiet ?_)
    split
    · exact refuseSlot_quiet (hostGone_quiet (setFn_quiet hs))
    · exact hostGone_quiet (setFn_quiet hs)

theorem graceEdge_quiet {run : Bool} {f : ℕ} (hs : Quiet s₀ s) : Quiet s₀ (graceEdge run s f) := by
  unfold graceEdge
  split
  · dsimp only
    split
    · exact .ite (fun _ => dayBook_quiet (setFn_quiet hs)) fun _ => setFn_quiet hs
    · exact hs
  · split
    · dsimp only
      split
      · exact .ite (fun _ => dayBook_quiet (setFn_quiet hs)) fun _ => setFn_quiet hs
      · exact setFn_quiet hs
    · dsimp only
      split
      · exact .ite (fun _ => dayBook_quiet (setFn_quiet hs)) fun _ => setFn_quiet hs
      · exact trace_quiet (setFn_quiet hs)

theorem watchEdge_quiet (hs : Quiet s₀ s) : Quiet s₀ (watchEdge s) :=
  setFw_quiet (.foldl (fun _ _ h => graceEdge_quiet h) hs)

theorem pcieLinkDown_quiet (hs : Quiet s₀ s) : Quiet s₀ (pcieLinkDown s) :=
  .ite (fun _ => hs) fun _ => setFw_quiet hs

theorem functionLevelReset_quiet {f : ℕ} (hs : Quiet s₀ s) : Quiet s₀ (functionLevelReset s f) :=
  .ite (fun _ => hs) fun _ => setFn_quiet (hostGone_quiet hs)

theorem watchdogKick_quiet (hs : Quiet s₀ s) : Quiet s₀ (watchdogKick s) :=
  .ite (fun _ => hs) fun _ => trace_quiet (setFw_quiet hs)

theorem fwRestart_quiet {cause : ℕ} (hs : Quiet s₀ s) : Quiet s₀ (fwRestart s cause) :=
  .ite (fun _ => levelRefused_quiet (refusePending_quiet (dayBook_quiet (setFw_quiet hs)))) fun _ => .ite (fun _ =>
      deviceFault_quiet (levelRefused_quiet (refusePending_quiet (dayBook_quiet (setFw_quiet hs))))) fun _ => deviceFault_quiet
      (drew_quiet (levelRefused_quiet (refusePending_quiet (dayBook_quiet (setFw_quiet hs)))))

theorem watchdogExpiry_quiet (hs : Quiet s₀ s) : Quiet s₀ (watchdogExpiry s) :=
  .ite (fun _ => fwRestart_quiet hs) fun _ => hs

theorem lockstepMismatch_quiet (hs : Quiet s₀ s) : Quiet s₀ (lockstepMismatch s) :=
  .ite (fun _ => fwRestart_quiet hs) fun _ => hs

theorem restartDone_quiet (hs : Quiet s₀ s) : Quiet s₀ (restartDone s) :=
  .ite (fun _ => hs) fun _ => .ite (fun _ => serveReqs_quiet (setFw_quiet hs)) fun _ => deviceFault_quiet hs

theorem s3ExitDone_quiet (hs : Quiet s₀ s) : Quiet s₀ (s3ExitDone s) :=
  .ite (fun _ => hs) fun _ => .ite (fun _ => setFw_quiet (setPwr_quiet hs)) fun _ => deviceFault_quiet (setPwr_quiet hs)

theorem settleDues_quiet (hs : Quiet s₀ s) : Quiet s₀ (settleDues s) :=
  .foldl (fun _ _ h => graceExpiry_quiet (graceStart_quiet h)) (watchdogExpiry_quiet hs)

/-- The day book's kept records leave host memory in its form. -/
theorem bookFold_wf {l : List DbRec} {p : Mem × Ring} (h : Mem.wf p.1 = true) :
    Mem.wf (l.foldl (fun p d => let e := ringPut p.1 p.2 (bookWord d); (e.1, e.2.1)) p).1 = true := by
  induction l generalizing p with
  | nil => exact h
  | cons d l ih => exact ih (ringPut_wf h p.2 (bookWord d))

theorem daybookSet_quiet {addr entries : ℕ} (hs : Quiet s₀ s) : Quiet s₀ (daybookSet addr entries s).1 := by
  unfold daybookSet
  split
  · exact hs
  · exact .of_host hs fun h => bookFold_wf h

theorem marginSet_quiet {mask : W64} (hs : Quiet s₀ s) : Quiet s₀ (marginSet mask s).1 := by
  unfold marginSet
  exact setFw_quiet hs

theorem spdmReply_quiet {req : ℕ} {out : List Byte} (hs : Quiet s₀ s) : Quiet s₀ (spdmReply s req out) :=
  trace_quiet (setFw_quiet (trace_quiet hs))

theorem spdmServe_quiet {req : ℕ} {may : Bool} {n : ℕ} {answer : List Byte → List Byte} {post : Firmware → Firmware} (hs : Quiet s₀
    s) : Quiet s₀ (spdmServe s req may n answer post) :=
  .ite (fun _ => hs) fun _ => .ite (fun _ => spdmReply_quiet hs) fun _ => .ite (fun _ => spdmReply_quiet hs) fun _ => setFw_quiet
      (spdmReply_quiet (drewN_quiet hs))

theorem getVersion_quiet (hs : Quiet s₀ s) : Quiet s₀ (getVersion s) :=
  spdmServe_quiet hs

theorem getCapabilities_quiet (hs : Quiet s₀ s) : Quiet s₀ (getCapabilities s) :=
  spdmServe_quiet hs

theorem negotiate_quiet {asym hash meas : W32} (hs : Quiet s₀ s) : Quiet s₀ (negotiate s asym hash meas) := by
  unfold negotiate
  exact spdmServe_quiet hs

theorem getCertificate_quiet {slot offset length : ℕ} (hs : Quiet s₀ s) : Quiet s₀ (getCertificate s slot offset length) := by
  unfold getCertificate
  exact spdmServe_quiet hs

theorem challenge_quiet {slot summary : ℕ} (hs : Quiet s₀ s) : Quiet s₀ (challenge s slot summary) := by
  unfold challenge
  exact spdmServe_quiet hs

theorem getMeasurements_quiet {index : ℕ} {signed : Bool} (hs : Quiet s₀ s) : Quiet s₀ (getMeasurements s index signed) := by
  unfold getMeasurements
  exact spdmServe_quiet hs

/-! ## The board's inputs and the boot -/

theorem bootRomReady_quiet (hs : Quiet s₀ s) : Quiet s₀ (bootRomReady s) :=
  .ite (fun _ => hs) fun _ => .upd hs

theorem secBootGo_quiet (hs : Quiet s₀ s) : Quiet s₀ (secBootGo s) :=
  .ite (fun _ => hs) fun _ => setFw_quiet hs

theorem bootRefuse_quiet {code : ℕ} {image : Bool} (hs : Quiet s₀ s) : Quiet s₀ (bootRefuse s code image) :=
  setFw_quiet hs

theorem bootCheckDone_quiet {r : BootRead} (hs : Quiet s₀ s) : Quiet s₀ (bootCheckDone s r) := by
  refine .ite (fun _ => hs) fun _ => ?_
  split
  · exact bootRefuse_quiet hs
  · split
    · exact bootRefuse_quiet hs
    · split
      · exact bootRefuse_quiet hs
      · exact .of_local hs fun h => mwrite_wf h _ _

theorem bootReadTimeout_quiet {image : Bool} (hs : Quiet s₀ s) : Quiet s₀ (bootReadTimeout s image) :=
  .ite (fun _ => bootRefuse_quiet hs) fun _ => hs

theorem velhintoReady_quiet (hs : Quiet s₀ s) : Quiet s₀ (velhintoReady s) := by
  unfold velhintoReady
  split
  · exact dayBook_quiet (setFw_quiet hs)
  · exact hs

theorem supplyFault_quiet (hs : Quiet s₀ s) : Quiet s₀ (supplyFault s) :=
  .ite (fun _ => deviceFault_quiet hs) fun _ => hs

theorem clockFault_quiet {d : ℕ} (hs : Quiet s₀ s) : Quiet s₀ (clockFault s d) :=
  .ite (fun _ => hs) fun _ => .ite (fun _ => deviceFault_quiet (setPwr_quiet hs)) fun _ => setPwr_quiet hs

/-! ## Monitors, latches and registers -/

theorem exhaustRetries_quiet (hs : Quiet s₀ s) : Quiet s₀ (exhaustRetries s) :=
  .ite (fun _ => linkLost_quiet (.foldl (fun _ _ h => .ite (fun _ => retryExhausted_quiet h) fun _ => h) hs)) fun _ => .foldl
      (fun _ _ h => .ite (fun _ => retryExhausted_quiet h) fun _ => h) hs

theorem nextWindow_quiet {w : ℕ} (hs : Quiet s₀ s) : Quiet s₀ (nextWindow s w) :=
  .upd hs

theorem setLatch_quiet {key : ℕ} {v : Option W32} (hs : Quiet s₀ s) : Quiet s₀ (setLatch s key v) :=
  .upd hs

theorem setData_quiet {v : ℕ} (hs : Quiet s₀ s) : Quiet s₀ (setData s v) :=
  .upd hs

theorem readHalf_quiet {key : ℕ} {h : Half} {v : ℕ} (hs : Quiet s₀ s) : Quiet s₀ (readHalf s key h v).1 := by
  unfold readHalf
  split
  · exact setData_quiet hs
  · exact setData_quiet (setLatch_quiet hs)
  · split
    · exact setData_quiet (setLatch_quiet hs)
    · exact setData_quiet hs

theorem clearHigh_quiet {off : ℕ} (hs : Quiet s₀ s) : Quiet s₀ (clearHigh s off) := by
  unfold clearHigh
  refine .ite (fun _ => .upd hs) fun _ => .ite (fun _ => .upd hs) fun _ => .ite (fun _ => .upd hs) fun _ => .ite (fun _ => .upd hs)
      fun _ => .ite (fun _ => .upd hs) fun _ => .ite (fun _ => .upd hs) fun _ => .ite (fun _ => setPwr_quiet hs) fun _ => ?_
  split
  · exact setEcc_quiet hs
  · exact setHbm_quiet hs
  · exact .upd hs
  · exact hs

theorem readPage_quiet {f : Fin 64} {off size : ℕ} (hs : Quiet s₀ s) : Quiet s₀ (readPage s f off size) := by
  unfold readPage
  split
  · exact .ite (fun _ => readHalf_quiet hs) fun _ => setData_quiet hs
  · exact setData_quiet hs

theorem readBar2_quiet {f : Fin 64} {off size : ℕ} (hs : Quiet s₀ s) : Quiet s₀ (readBar2 s f off size) := by
  unfold readBar2
  refine .ite (fun _ => hs) fun _ => .ite (fun _ => .ite (fun _ => readPage_quiet hs) fun _ => setData_quiet hs) fun _ => .ite
      (fun _ => setData_quiet hs) fun _ => ?_
  split <;> exact setData_quiet hs

theorem accOp_quiet {r : Requester} {v : ℕ} (hs : Quiet s₀ s) : Quiet s₀ (accOp s r v) := by
  unfold accOp
  split
  · exact accOpen_quiet hs
  · exact accCommit_quiet hs
  · exact accAbort_quiet hs
  · exact accRelease_quiet hs
  · exact hs

theorem setTarget_quiet {r : Requester} {v : ℕ} (hs : Quiet s₀ s) : Quiet s₀ (setTarget s r v) := by
  unfold setTarget
  split <;> exact .upd hs

theorem setCarve_quiet {r : Requester} {hi : Bool} {v : ℕ} (hs : Quiet s₀ s) : Quiet s₀ (setCarve s r hi v) := by
  unfold setCarve
  split
  · exact hs
  · exact .upd hs

theorem acvCtrl_quiet {v : ℕ} (hs : Quiet s₀ s) : Quiet s₀ (acvCtrl s v) :=
  .ite (fun _ => acvResume_quiet (.ite (fun _ => acvEnable_quiet hs) fun _ => setAcv_quiet hs)) fun _ => .ite (fun _ =>
      acvResume_quiet (.ite (fun _ => acvEnable_quiet hs) fun _ => setAcv_quiet hs)) fun _ => .ite (fun _ => acvEnable_quiet hs)
      fun _ => setAcv_quiet hs

theorem pwrCtrl_quiet {v : ℕ} (hs : Quiet s₀ s) : Quiet s₀ (pwrCtrl s v) :=
  .ite (fun _ => requestS3_quiet (.ite (fun _ => startExit_quiet (setClamp_quiet hs)) fun _ => setClamp_quiet hs)) fun _ => .ite
      (fun _ => startExit_quiet (setClamp_quiet hs)) fun _ => setClamp_quiet hs

theorem writeDom_quiet {d v : ℕ} (hs : Quiet s₀ s) : Quiet s₀ (writeDom s d v) :=
  .ite (fun _ => hs) fun _ => setDom_quiet hs

theorem writeAddr_quiet {l r : ℕ} {h : Half} {v : ℕ} (hs : Quiet s₀ s) : Quiet s₀ (writeAddr s l r h v) :=
  .upd hs

theorem clearErr_quiet {n w : ℕ} (hs : Quiet s₀ s) : Quiet s₀ (clearErr s n w) :=
  .ite (fun _ => setHbm_quiet hs) fun _ => hs

theorem slvCtrl_quiet {v : ℕ} (hs : Quiet s₀ s) : Quiet s₀ (slvCtrl s v) :=
  .ite (fun _ => slvDetach_quiet (.upd hs)) fun _ => .upd hs

theorem write64_quiet {off : ℕ} {h : Half} {v : ℕ} (hs : Quiet s₀ s) : Quiet s₀ (write64 s off h v) := by
  unfold write64
  refine .ite (fun _ => setFw_quiet hs) fun _ => .ite (fun _ => setFw_quiet hs) fun _ => .ite (fun _ => .ite (fun _ => .upd hs)
      fun _ => hs) fun _ => ?_
  split
  · exact clearErr_quiet hs
  · exact writeAddr_quiet hs
  · exact hs

theorem reachReg_quiet {off : ℕ} (hs : Quiet s₀ s) : Quiet s₀ (reachReg s off).1 := by
  unfold reachReg
  split
  · exact reachDom_quiet hs
  · exact hs

theorem writePage_quiet {f q off size v : ℕ} (hs : Quiet s₀ s) : Quiet s₀ (writePage s f q off size v) :=
  .ite (fun _ => qDoorbell_quiet hs) fun _ => .ite (fun _ => hs) fun _ => qResume_quiet hs

theorem writeMsix_quiet {f i v : ℕ} (hs : Quiet s₀ s) : Quiet s₀ (writeMsix s f i v) :=
  .ite (fun _ => hs) fun _ => .ite (fun _ => raiseMsix_quiet (setFn_quiet (setFn_quiet hs))) fun _ => setFn_quiet hs

theorem writeRing_quiet {f off v : ℕ} (hs : Quiet s₀ s) : Quiet s₀ (writeRing s f off v) :=
  .ite (fun _ => faultAnswer_quiet hs) fun _ => .ite (fun _ => mmuInval_quiet hs) fun _ => .ite (fun _ => fwRingBase_quiet hs)
      fun _ => .ite (fun _ => fwRingBase_quiet hs) fun _ => .ite (fun _ => setFn_quiet hs) fun _ => .ite (fun _ => setFn_quiet hs)
      fun _ => .ite (fun _ => heartbeat_quiet hs) fun _ => hs

theorem writeBar2_quiet {f off size v : ℕ} (hs : Quiet s₀ s) : Quiet s₀ (writeBar2 s f off size v) := by
  unfold writeBar2
  refine .ite (fun _ => hs) fun _ => .ite (fun _ => .ite (fun _ => writePage_quiet hs) fun _ => hs) fun _ => .ite (fun _ => hs)
      fun _ => ?_
  split
  · exact writeMsix_quiet hs
  · exact .ite (fun _ => writeRing_quiet hs) fun _ => hs

theorem hbmCorrected_quiet {pa : ℕ} (hs : Quiet s₀ s) : Quiet s₀ (hbmCorrected s pa) :=
  setHbm_quiet hs

theorem bar4Now_quiet {off len : ℕ} {write : Option (List Byte)} {found : Ecc} (hs : Quiet s₀ s) :
    Quiet s₀ (bar4Now s off len write found) := by
  have hb : Quiet s₀ { s with bus := { s.bus with abort := false } } := .upd hs
  have hc {c : Prop} [Decidable c] := Quiet.ite (c := c) (fun _ => hbmCorrected_quiet (pa := off) hb) fun _ => hb
  refine .ite (fun _ => .upd (hbmLog_quiet hc)) fun _ => ?_
  split
  · exact .of_local hc fun h => mwrite_wf h _ _
  · exact .upd hc

theorem bar4Access_quiet {off len : ℕ} {write : Option (List Byte)} {found : Ecc} (hs : Quiet s₀ s) : Quiet s₀ (bar4Access s off
    len write found) := by
  unfold bar4Access
  refine .ite (fun _ => hs) fun _ => ?_
  split
  · rename_i e
    exact .fst e (reachDoms_quiet hs)
  · rename_i e
    exact bar4Now_quiet (.fst e (reachDoms_quiet hs))

theorem completionTimeout_quiet {id : ℕ} (hs : Quiet s₀ s) : Quiet s₀ (completionTimeout s id) := by
  unfold completionTimeout
  split
  · exact .ite (fun _ => transactionResponse_quiet hs) fun _ => hs
  · exact hs

end Sys2Proof.Machine
end

section
/-! Proofs: periods, resets and the commands. What the edge and a cold reset leave of the forms, and that every command keeps them.
    -/

namespace Sys2Proof.Machine

variable {s₀ s : State}

/-- The forms that do not speak of the Hoop are kept, and the queue of commands and the board are left alone. -/
structure Keeps (s t : State) : Prop where
  pending : t.pending = s.pending
  brd : t.brd = s.brd
  slots : slotsOk s = true → slotsOk t = true
  mem : memOk s = true → memOk t = true

/-- Every form is kept, and the queue of commands and the board are left alone. -/
structure Steady (s t : State) : Prop where
  keeps : Keeps s t
  hoop : hoopOk s = true → hoopOk t = true

theorem Keeps.refl (s : State) : Keeps s s := ⟨rfl, rfl, id, id⟩

theorem Keeps.trans {s t u : State} (h : Keeps s t) (h' : Keeps t u) : Keeps s u :=
  ⟨h'.pending.trans h.pending, h'.brd.trans h.brd, fun hs => h'.slots (h.slots hs), fun hs => h'.mem (h.mem hs)⟩

theorem Steady.refl (s : State) : Steady s s := ⟨.refl s, id⟩

theorem Steady.trans {s t u : State} (h : Steady s t) (h' : Steady t u) : Steady s u :=
  ⟨h.keeps.trans h'.keeps, fun hs => h'.hoop (h.hoop hs)⟩

theorem Steady.ite {s t u : State} {c : Prop} [Decidable c] (ht : c → Steady s t) (hu : ¬ c → Steady s u) :
    Steady s (if c then t else u) := by
  split
  · exact ht ‹_›
  · exact hu ‹_›

theorem Steady.foldl {β : Type} {f : State → β → State} {s t : State} {l : List β} (hf : ∀ t b, Steady s t → Steady s (f t b))
    (h : Steady s t) : Steady s (l.foldl f t) := by
  induction l generalizing t with
  | nil => exact h
  | cons b l ih => exact ih (hf t b h)

theorem Quiet.keeps {s t : State} (h : Quiet s t) : Keeps s t :=
  ⟨h.pending, h.brd, fun hs => by simpa [slotsOk, h.slots] using hs, h.mem⟩

theorem Quiet.steady {s t : State} (h : Quiet s t) : Steady s t :=
  ⟨h.keeps, fun hs => by simpa only [hoopOk, h.hoop] using hs⟩

/-- A quiet operation after steady ones. -/
theorem Steady.quiet {s t u : State} (h : Steady s t) (h' : Quiet t u) : Steady s u := h.trans h'.steady

/-- A quiet operation after ones that keep the forms. -/
theorem Keeps.quiet {s t u : State} (h : Keeps s t) (h' : Quiet t u) : Keeps s u := h.trans h'.keeps

/-- A new Hoop leaves the other forms. -/
theorem setHoop_keeps (s : State) (h : Hoop) : Keeps s (setHoop s h) := ⟨rfl, rfl, id, id⟩

theorem hoopOk_iff (s : State) : hoopOk s = true ↔ (s.hoop.phase = .idle ↔ s.hoop.running = false) ∧ s.hoop.edge ≤ s.hoop.time := by
  cases hr : s.hoop.running <;> simp [hoopOk, hr]

/-- A new Hoop in its form. -/
theorem Steady.setHoop {s₀ s : State} {h : Hoop} (hs : Steady s₀ s) (hh : hoopOk s = true → hoopOk (setHoop s h) = true) :
    Steady s₀ (setHoop s h) :=
  hs.trans ⟨setHoop_keeps s h, hh⟩

/-! ## The edge -/

theorem demotionBook_quiet (hs : Quiet s₀ s) : Quiet s₀ (demotionBook s) :=
  .foldl (fun _ _ h => dayBook_quiet h) hs

theorem endPeriod_quiet (hs : Quiet s₀ s) : Quiet s₀ (endPeriod s) :=
  mirrorEdge_quiet (watchEdge_quiet (circEdge_quiet (setObj_quiet (demotionBook_quiet (slowPublish_quiet (settleDues_quiet (.foldl
      (fun _ _ h => cleanSlot_quiet h) hs)))))))

theorem carveEdge_quiet (hs : Quiet s₀ s) : Quiet s₀ (carveEdge s) := by
  unfold carveEdge
  exact .upd hs

theorem applyEdge_quiet {k : ℕ} (hs : Quiet s₀ s) : Quiet s₀ (applyEdge s k) := by
  unfold applyEdge
  have ha {old new} : Quiet s₀ (clearEdge (removeOos (applyPartner (applyArmed s k) k)) old new) :=
    clearEdge_quiet (removeOos_quiet (applyPartner_quiet (applyArmed_quiet hs)))
  have hw {l : List Nat} {old new} :=
    Quiet.foldl (l := l) (fun _ n h => switchStart_quiet (before := s) (old := old) (new := new) (n := n) h) (ha (old := old)
        (new := new))
  exact detachAt_quiet (takeoverAt_quiet (.foldl (fun _ _ h => startWake_quiet h)
    (.ite (fun _ => hw) fun _ => acvDiscard_quiet hw)))

/-- Counting a late settle changes its counter alone. -/
theorem countLate_hoop (s : State) : ∃ n, countLate s = setHoop s { s.hoop with settleLate := n } := by
  unfold countLate
  split
  · exact ⟨s.hoop.settleLate, rfl⟩
  · exact ⟨_, rfl⟩

theorem countLate_keeps (s : State) : Keeps s (countLate s) := by
  obtain ⟨n, hn⟩ := countLate_hoop s
  exact hn ▸ setHoop_keeps s _

theorem openPeriod_keeps (s : State) : Keeps s (openPeriod s) := ⟨rfl, rfl, id, id⟩

theorem openPeriod_hoop (s : State) : (openPeriod s).hoop =
    { s.hoop with phase := .opened, perCyc := nbits (active s oPeriod) 23 0, marginUs := nbits (active s oMargin) 8 0
                  settleUs := nbits (active s oMargin) 24 16 } := rfl

theorem openPeriod_active (s : State) (o : Nat) : active (openPeriod s) o = active s o := rfl

theorem enterS3_keeps (s : State) : Keeps s (enterS3 s) where
  pending := rfl
  brd := rfl
  slots _ := rfl
  mem h := by
    obtain ⟨h1, h2, -⟩ := (memOk_iff s).1 h
    exact (memOk_iff _).2 ⟨filter_wf h1 _, h2, rfl⟩

theorem enterS3_hoop (s : State) : (enterS3 s).hoop = s.hoop := rfl

/-- What an edge raises before S3 and the next period: its tick, with the Hoop running. -/
def edgeRaised (s : State) (k : Nat) : State :=
  let s := setHoop s { s.hoop with running := true, tick := k, edge := s.hoop.time }
  countLate (levelEdge (carveEdge (applyEdge s k)))

/-- The period after an edge, before firmware's requests are served. -/
def edgeOpened (s : State) (k : Nat) : State :=
  let s := edgeRaised s k
  openPeriod (if s.pwr.s3Req then enterS3 s else s)

theorem edgeNow_eq (s : State) (k : Nat) : edgeNow s k =
    let s := edgeOpened s k
    serveReqs (acvEdge (setObj s { s.obj with queues := tmap s.obj.queues fun _ x => { x with recs := x.recs.map (tickDue k) }
        })) := by
  unfold edgeNow edgeOpened edgeRaised
  dsimp only

theorem edgeRaised_keeps (s : State) (k : Nat) : Keeps s (edgeRaised s k) :=
  ((setHoop_keeps s _).quiet (levelEdge_quiet (carveEdge_quiet (applyEdge_quiet (.refl _))))).trans (countLate_keeps _)

theorem edgeRaised_hoop (s : State) (k : Nat) : ∃ n,
    (edgeRaised s k).hoop = { s.hoop with running := true, tick := k, edge := s.hoop.time, settleLate := n } := by
  let u := setHoop s { s.hoop with running := true, tick := k, edge := s.hoop.time }
  have hq : Quiet u (levelEdge (carveEdge (applyEdge u k))) := levelEdge_quiet (carveEdge_quiet (applyEdge_quiet (.refl _)))
  obtain ⟨n, hn⟩ := countLate_hoop (levelEdge (carveEdge (applyEdge u k)))
  refine ⟨n, ?_⟩
  change (countLate (levelEdge (carveEdge (applyEdge u k)))).hoop = _
  rw [hn]
  change { (levelEdge (carveEdge (applyEdge u k))).hoop with settleLate := n } = _
  rw [hq.hoop]
  rfl

theorem edgeOpened_keeps (s : State) (k : Nat) : Keeps s (edgeOpened s k) := by
  unfold edgeOpened
  dsimp only
  split
  · exact ((edgeRaised_keeps s k).trans (enterS3_keeps _)).trans (openPeriod_keeps _)
  · exact (edgeRaised_keeps s k).trans (openPeriod_keeps _)

/-- The Hoop after an edge: it runs, the edge is the present, and the open phase begins with the values then active. -/
theorem edgeOpened_hoop (s : State) (k : Nat) : ∃ n, (edgeOpened s k).hoop =
    { s.hoop with running := true, tick := k, edge := s.hoop.time, settleLate := n, phase := .opened
                  perCyc := nbits (active (edgeOpened s k) oPeriod) 23 0
                  marginUs := nbits (active (edgeOpened s k) oMargin) 8 0
                  settleUs := nbits (active (edgeOpened s k) oMargin) 24 16 } := by
  obtain ⟨n, hn⟩ := edgeRaised_hoop s k
  refine ⟨n, ?_⟩
  have he (u : State) (hu : u.hoop = (edgeRaised s k).hoop) : (openPeriod u).hoop =
      { s.hoop with running := true, tick := k, edge := s.hoop.time, settleLate := n, phase := .opened
                    perCyc := nbits (active (openPeriod u) oPeriod) 23 0
                    marginUs := nbits (active (openPeriod u) oMargin) 8 0
                    settleUs := nbits (active (openPeriod u) oMargin) 24 16 } := by
    simp only [openPeriod_hoop, openPeriod_active, hu, hn]
  unfold edgeOpened
  dsimp only
  split
  · exact he _ (enterS3_hoop _)
  · exact he _ rfl

/-- What follows the beginning of the period at an edge leaves the Hoop. -/
theorem edgeNow_quiet (s : State) (k : Nat) : Quiet (edgeOpened s k) (edgeNow s k) := by
  rw [edgeNow_eq]
  exact serveReqs_quiet (acvEdge_quiet (setObj_quiet (.refl _)))

theorem edgeNow_keeps (s : State) (k : Nat) : Keeps s (edgeNow s k) := (edgeOpened_keeps s k).quiet (edgeNow_quiet s k)

theorem edgeNow_hoopOk (s : State) (k : Nat) : hoopOk (edgeNow s k) = true := by
  obtain ⟨n, hn⟩ := edgeOpened_hoop s k
  rw [hoopOk_iff, (edgeNow_quiet s k).hoop, hn]
  simp

theorem edgeNow_steady {k : Nat} (h : Keeps s₀ s) : Steady s₀ (edgeNow s k) := ⟨h.trans (edgeNow_keeps s k), fun _ =>
    edgeNow_hoopOk s k⟩

/-! ## The phases -/

theorem passTo_steady {t : Nat} (hs : Steady s₀ s) : Steady s₀ (passTo s t) := by
  unfold passTo
  refine .ite (fun _ => hs) fun h => hs.trans ⟨⟨rfl, rfl, id, id⟩, fun ho => ?_⟩
  obtain ⟨hp, he⟩ := (hoopOk_iff s).1 ho
  rw [not_or, not_le] at h
  exact (hoopOk_iff _).2 ⟨hp, he.trans h.2.le⟩

/-- A phase is set while the Hoop runs. -/
theorem hoopOk_setPhase {s : State} {p : Phase} {h : Hoop} (ho : hoopOk s = true) (hn : s.hoop.phase ≠ .idle) (hp : p ≠ .idle)
    (hr : h.running = s.hoop.running) (he : h.edge = s.hoop.edge) (ht : h.time = s.hoop.time) (hh : h.phase = p) :
    hoopOk (setHoop s h) = true := by
  obtain ⟨hi, hle⟩ := (hoopOk_iff s).1 ho
  refine (hoopOk_iff _).2 ⟨?_, ?_⟩
  · change h.phase = .idle ↔ h.running = false
    rw [hh, hr, ← hi]
    exact iff_of_false hp hn
  · change h.edge ≤ h.time
    rwa [he, ht]

theorem marginNow_steady (hs : Steady s₀ s) (hn : s.hoop.phase ≠ .idle) : Steady s₀ (marginNow s) :=
  hs.setHoop fun ho => hoopOk_setPhase (p := .drain) ho hn (by decide) rfl rfl rfl rfl

end Sys2Proof.Machine
end

section
/-! Proofs: time passes, the device is reset and registers are written, with every form kept. -/

namespace Sys2Proof.Machine

variable {s₀ s : State}

/-! ## The settle phase -/

/-- A descriptor that is cut off is counted at most, in the Hoop's overruns. -/
theorem cutDesc_hoop (s : State) (q : Nat) (d : Desc) : ∃ n, Quiet (setHoop s { s.hoop with overrun := n }) (cutDesc s q d) := by
  unfold cutDesc
  split
  · exact ⟨s.hoop.overrun, descriptorComplete_quiet (.refl s)⟩
  · exact ⟨s.hoop.overrun, complete_quiet (setWork_quiet (.refl s))⟩
  · exact ⟨s.hoop.overrun, descriptorComplete_quiet (.refl s)⟩
  · have he : Quiet s (if dOp d = 0x50 then encodeAbort s q d.idx else s) := .ite (fun _ => encodeAbort_quiet (.refl s)) fun _ =>
        .refl s
    refine ⟨satAdd 0xFFFF s.hoop.overrun 1, complete_quiet ⟨he.pending, ?_, he.brd, he.slots, he.mem⟩⟩
    dsimp only [setHoop]
    rw [he.hoop]

theorem setOverrun_steady (s : State) (n : Nat) : Steady s (setHoop s { s.hoop with overrun := n }) :=
  ⟨setHoop_keeps s _, id⟩

theorem cutDesc_steady {q : Nat} {d : Desc} (hs : Steady s₀ s) : Steady s₀ (cutDesc s q d) := by
  obtain ⟨n, hn⟩ := cutDesc_hoop s q d
  exact (hs.trans (setOverrun_steady s n)).quiet hn

theorem cutQueue_steady {q : Nat} (hs : Steady s₀ s) : Steady s₀ (cutQueue s q) := by
  unfold cutQueue
  split
  · exact hs
  · exact .foldl (fun _ _ h => cutDesc_steady h) hs

/-- Descriptors that are cut off change the Hoop's overruns alone. -/
theorem cutDescs_hoop (q : Nat) (l : List Desc) (s : State) :
    ∃ n, (l.foldl (fun s d => cutDesc s q d) s).hoop = { s.hoop with overrun := n } := by
  induction l generalizing s with
  | nil => exact ⟨s.hoop.overrun, rfl⟩
  | cons d l ih =>
    obtain ⟨m, hm⟩ := cutDesc_hoop s q d
    obtain ⟨n, hn⟩ := ih (cutDesc s q d)
    exact ⟨n, by rw [List.foldl_cons, hn, hm.hoop]; rfl⟩

theorem cutQueue_hoop (s : State) (q : Nat) : ∃ n, (cutQueue s q).hoop = { s.hoop with overrun := n } := by
  unfold cutQueue
  split
  · exact ⟨s.hoop.overrun, rfl⟩
  · exact cutDescs_hoop q _ s

theorem cutQueues_hoop (l : List Nat) (s : State) : ∃ n, (l.foldl cutQueue s).hoop = { s.hoop with overrun := n } := by
  induction l generalizing s with
  | nil => exact ⟨s.hoop.overrun, rfl⟩
  | cons q l ih =>
    obtain ⟨m, hm⟩ := cutQueue_hoop s q
    obtain ⟨n, hn⟩ := ih (cutQueue s q)
    exact ⟨n, by rw [List.foldl_cons, hn, hm]⟩

/-- The state at C with its dirty lines written back. -/
def cutoffClean (s : State) : State :=
  let s := (dirtySlots s ++ s.fab.cleans).dedup.foldl cleanSlot (settleWakes s)
  { s with fab := { s.fab with cleans := [] } }

/-- The state at C with the queues cut and what is in flight discarded, before the settle phase begins. -/
def cutoffCut (s : State) : State :=
  let s := (queueKeys (cutoffClean s)).foldl cutQueue (cutoffClean s)
  { s with cores := { s.cores with inbox := [], outs := [], sent := [], creditsBack := [] },
           mmu := { s.mmu with faults := s.mmu.faults.map fun r =>
                       { r with joined := r.joined.filter fun e => cutoffSpares e.1 } } }

theorem cutoffNow_eq (s : State) : cutoffNow s =
    let k := (cutoffCut s).hoop.tick + 1
    roleWakes (levelCutoff (mirrorSend (setHoop (cutoffCut s)
      { (cutoffCut s).hoop with phase := .settle, settleBusy := (dirtySlots s ++ s.fab.cleans).dedup })) k) k := by
  unfold cutoffNow cutoffCut cutoffClean
  dsimp only [setHoop]

theorem cutoffClean_quiet (s : State) : Quiet s (cutoffClean s) :=
  .upd (.foldl (fun _ _ h => cleanSlot_quiet h) (settleWakes_quiet (.refl s)))

theorem cutoffCut_steady (s : State) : Steady s (cutoffCut s) :=
  (Steady.foldl (fun _ _ h => cutQueue_steady h) (cutoffClean_quiet s).steady).quiet (.upd (.refl _))

theorem cutoffCut_hoop (s : State) : ∃ n, (cutoffCut s).hoop = { s.hoop with overrun := n } := by
  obtain ⟨n, hn⟩ := cutQueues_hoop (queueKeys (cutoffClean s)) (cutoffClean s)
  exact ⟨n, hn.trans (by rw [(cutoffClean_quiet s).hoop])⟩

/-- What follows the beginning of the settle phase leaves the Hoop. -/
theorem cutoffNow_quiet (s : State) : Quiet (setHoop (cutoffCut s)
    { (cutoffCut s).hoop with phase := .settle, settleBusy := (dirtySlots s ++ s.fab.cleans).dedup }) (cutoffNow s) := by
  rw [cutoffNow_eq]
  exact roleWakes_quiet (levelCutoff_quiet (mirrorSend_quiet (.refl _)))

/-- The Hoop at C: the settle phase begins, and overruns may have been counted. -/
theorem cutoffNow_hoop (s : State) : ∃ n, (cutoffNow s).hoop =
    { s.hoop with overrun := n, phase := .settle, settleBusy := (dirtySlots s ++ s.fab.cleans).dedup } := by
  obtain ⟨n, hn⟩ := cutoffCut_hoop s
  refine ⟨n, ?_⟩
  rw [(cutoffNow_quiet s).hoop]
  dsimp only [setHoop]
  rw [hn]

theorem cutoffNow_steady (hs : Steady s₀ s) (hn : s.hoop.phase ≠ .idle) : Steady s₀ (cutoffNow s) := by
  refine .quiet ?_ (cutoffNow_quiet s)
  obtain ⟨n, hh⟩ := cutoffCut_hoop s
  exact (hs.trans (cutoffCut_steady s)).setHoop fun ho =>
    hoopOk_setPhase (p := .settle) ho (by rwa [hh]) (by decide) rfl rfl rfl rfl

/-! ## The passage of time -/

theorem passTo_phase (s : State) (t : Nat) : (passTo s t).hoop.phase = s.hoop.phase := by
  unfold passTo
  split <;> rfl

theorem toDrain_steady (hs : Steady s₀ s) : Steady s₀ (toDrain s) :=
  .ite (fun h => marginNow_steady (passTo_steady hs) (by rw [passTo_phase, h]; decide)) fun _ => hs

theorem toSettle_steady (hs : Steady s₀ s) : Steady s₀ (toSettle s) :=
  .ite (fun h => cutoffNow_steady (passTo_steady (toDrain_steady hs)) (by rw [passTo_phase, h]; decide)) fun _ => toDrain_steady hs

theorem edge_steady (hs : Steady s₀ s) : Steady s₀ (edge s) :=
  .ite (fun _ => hs) fun _ => edgeNow_steady ((passTo_steady (toSettle_steady hs)).keeps.quiet (endPeriod_quiet (.refl _)))

theorem crossBoundary_steady (hs : Steady s₀ s) : Steady s₀ (crossBoundary s) := by
  unfold crossBoundary
  split
  · exact toDrain_steady hs
  · exact toSettle_steady hs
  · exact edge_steady hs

theorem advanceLoop_steady {n t : Nat} (hs : Steady s₀ s) : Steady s₀ (advanceLoop n s t) := by
  induction n generalizing s with
  | zero => exact passTo_steady hs
  | succ n ih => exact .ite (fun _ => ih (crossBoundary_steady hs)) fun _ => passTo_steady hs

theorem advance_steady {t : Nat} (hs : Steady s₀ s) : Steady s₀ (advance s t) := advanceLoop_steady hs

theorem idleCycle_steady (hs : Steady s₀ s) : Steady s₀ (idleCycle s) :=
  .ite (fun _ => hs) fun _ => advance_steady (hs.quiet (settleDues_quiet (nocRun_quiet (.refl s))))

theorem hoopStart_steady (hs : Steady s₀ s) : Steady s₀ (hoopStart s) := by
  have he : Steady s₀ (edgeNow (passTo s (s.hoop.time + 1)) 0) := edgeNow_steady (passTo_steady hs).keeps
  unfold hoopStart
  split
  · exact hs
  · exact he.quiet (setFw_quiet (.refl _))

theorem settleDone_steady {n : Nat} (hs : Steady s₀ s) : Steady s₀ (settleDone s n) := by
  have hc {c : Prop} [Decidable c] : Steady s₀ (if c then cleanSlot s n else s) := .ite (fun _ => hs.quiet (cleanSlot_quiet (.refl
      s))) fun _ => hs
  exact hc.setHoop id

theorem rebase_keeps (s : State) (time : Nat) : Keeps s (rebase s time) := ⟨rfl, rfl, id, id⟩

theorem clearTargets_quiet (hs : Quiet s₀ s) : Quiet s₀ { s with acc := { s.acc with targetHost := 0, targetFw := 0 } } := hs.upd

theorem attachComplete_steady {time tick : Nat} (hs : Steady s₀ s) : Steady s₀ (attachComplete s time tick) := by
  have hr : Keeps s₀ (rebase (endPeriod s) time) := (hs.keeps.quiet (endPeriod_quiet (.refl s))).trans (rebase_keeps _ _)
  have hr := edgeNow_steady (k := tick) hr
  unfold attachComplete
  refine .ite (fun _ => hs) fun _ => .quiet ?_ (setTwin_quiet (.twin (.refl _)))
  exact .ite (fun _ => hr.quiet (clearTargets_quiet (.refl _))) fun _ => hs

theorem sampleHeartbeat_steady {level : Bool} (hs : Steady s₀ s) : Steady s₀ (sampleHeartbeat s level) :=
  .ite (fun _ => hs) fun _ => (advance_steady hs).quiet (heartbeatSample_quiet (.refl _))

theorem monitorEnd_steady {stuck : List UnitRef} (hs : Steady s₀ s) : Steady s₀ (monitorEnd s stuck) := by
  refine .ite (fun _ => hs) fun _ => .quiet ?_ (.foldl (fun _ _ h => unitFault_quiet h) (.refl _))
  have hx {c : Prop} [Decidable c] {t} : Steady s₀ (exhaustRetries (nocSettle (if c then toSettle s else advance s t))) :=
    (Steady.ite (fun _ => toSettle_steady hs) fun _ => advance_steady hs).quiet (exhaustRetries_quiet (nocSettle_quiet (.refl _)))
  exact .ite (fun _ => edge_steady hx) fun _ => hx.quiet (nextWindow_quiet (.refl _))

theorem powerWindowEnd_steady {mw : Nat} (hs : Steady s₀ s) : Steady s₀ (powerWindowEnd s mw) :=
  .ite (fun _ => hs) fun _ => (advance_steady hs).quiet (powerWindow_quiet (.refl _))

theorem voltageTimeoutAt_steady (hs : Steady s₀ s) : Steady s₀ (voltageTimeoutAt s) := by
  unfold voltageTimeoutAt
  split
  · exact hs
  · exact (advance_steady hs).quiet (voltageTimeout_quiet (.refl _))

theorem wakeTimeoutAt_steady {d : Nat} (hs : Steady s₀ s) : Steady s₀ (wakeTimeoutAt s d) :=
  .ite (fun _ => hs) fun _ => (advance_steady hs).quiet (wakeTimeout_quiet (.refl _))

theorem bootTimeoutAt_steady {image : Bool} (hs : Steady s₀ s) : Steady s₀ (bootTimeoutAt s image) :=
  .ite (fun _ => hs) fun _ => (advance_steady hs).quiet (bootReadTimeout_quiet (.refl _))

/-! ## Resets -/

/-- Every form is kept, and the queue of commands is left alone; the board may change. -/
structure Safe (s t : State) : Prop where
  pending : t.pending = s.pending
  hoop : hoopOk s = true → hoopOk t = true
  slots : slotsOk s = true → slotsOk t = true
  mem : memOk s = true → memOk t = true

theorem Steady.safe {s t : State} (h : Steady s t) : Safe s t := ⟨h.keeps.pending, h.hoop, h.keeps.slots, h.keeps.mem⟩

theorem Safe.refl (s : State) : Safe s s := ⟨rfl, id, id, id⟩

theorem Safe.trans {s t u : State} (h : Safe s t) (h' : Safe t u) : Safe s u :=
  ⟨h'.pending.trans h.pending, fun hs => h'.hoop (h.hoop hs), fun hs => h'.slots (h.slots hs), fun hs => h'.mem (h.mem hs)⟩

theorem Safe.ite {s t u : State} {c : Prop} [Decidable c] (ht : c → Safe s t) (hu : ¬ c → Safe s u) : Safe s (if c then t else
    u) := by
  split
  · exact ht ‹_›
  · exact hu ‹_›

theorem coldReset_safe (s : State) (b : Board) : Safe s (coldReset s b) where
  pending := rfl
  hoop _ := rfl
  slots _ := rfl
  mem h := by
    obtain ⟨-, h2, -⟩ := (memOk_iff s).1 h
    exact (memOk_iff _).2 ⟨rfl, h2, rfl⟩

/-- The board is no part of the forms. -/
theorem setBrd_safe (s : State) (b : Board) : Safe s (setBrd s b) := ⟨rfl, id, id, id⟩

theorem perstAssert_safe (s : State) : Safe s (perstAssert s) :=
  .ite (fun _ => coldReset_safe s _) fun _ => setBrd_safe s _

theorem perstDeassert_safe (s : State) : Safe s (perstDeassert s) :=
  .ite (fun _ => setBrd_safe s _) fun _ => setBrd_safe s _

theorem resetRelease_safe (s : State) : Safe s (resetRelease s) :=
  .ite (fun _ => setBrd_safe s _) fun _ => .refl s

theorem thermalFault_safe (s : State) (tj : Int) : Safe s (thermalFault s tj) :=
  .ite (fun _ => .refl s) fun _ => (setBrd_safe s _).trans (deviceFault_quiet (.refl _)).steady.safe

theorem sidebandWrite_safe (s : State) (l : List Byte) : Safe s (sidebandWrite s l) := by
  cases l with
  | nil => exact .refl s
  | cons b l => exact setBrd_safe s _

theorem jtag_safe (s : State) (i : JtagInstr) : Safe s (jtag s i) := by
  unfold jtag
  split
  · exact setBrd_safe s _
  · exact setBrd_safe s _
  · exact setBrd_safe s _

theorem hotReset_safe (s : State) : Safe s (hotReset s) :=
  .ite (fun _ => .refl s) fun _ => coldReset_safe s _

/-! ## Registers -/

/-- A read that clears the Hoop's counters keeps its form; one that clears others leaves the Hoop. -/
theorem clearLow_steady {off : Nat} (hs : Steady s₀ s) : Steady s₀ (clearLow s off) := by
  have hq : Quiet s s := .refl s
  unfold clearLow
  refine .ite (fun _ => hs.setHoop id) fun _ => hs.quiet ?_
  refine .ite (fun _ => .upd hq) fun _ => .ite (fun _ => .upd hq) fun _ => .ite (fun _ => .upd hq) fun _ =>
    .ite (fun _ => .upd hq) fun _ => .ite (fun _ => setAcv_quiet hq) fun _ => .ite (fun _ => .upd hq) fun _ =>
    .ite (fun _ => .upd hq) fun _ => .ite (fun _ => .upd hq) fun _ => .ite (fun _ => .upd hq) fun _ =>
    .ite (fun _ => .upd hq) fun _ => .ite (fun _ => .upd hq) fun _ => .ite (fun _ => .upd hq) fun _ =>
    .ite (fun _ => setPwr_quiet hq) fun _ => ?_
  split
  · exact setEcc_quiet hq
  · exact setHbm_quiet hq
  · exact .upd hq
  · exact hq

theorem clearRead_steady {off : Nat} {h : Half} (hs : Steady s₀ s) : Steady s₀ (clearRead s off h) := by
  cases h with
  | high => exact hs.quiet (clearHigh_quiet (.refl s))
  | whole => exact (clearLow_steady hs).quiet (clearHigh_quiet (.refl _))
  | low => exact (clearLow_steady hs).quiet (clearHigh_quiet (.refl _))

theorem readBar0_steady {bar : Bar} {r : Requester} {off size : Nat} (hs : Steady s₀ s) : Steady s₀ (readBar0 s bar r off size) :=
    by
  unfold readBar0
  split
  · exact hs.quiet (setData_quiet (.refl s))
  · have hr {k h v} : Steady s₀ (readHalf s k h v).1 := hs.quiet (readHalf_quiet (.refl s))
    exact .ite (fun _ => clearRead_steady hr) fun _ => hr

theorem regRead_steady {bar : Bar} {off size : Nat} (hs : Steady s₀ s) : Steady s₀ (regRead s bar off size) := by
  have hq {b o w} : Steady s₀ (accessInS3 s b o w) := hs.quiet (accessInS3_quiet (.refl s))
  cases bar with
  | mgmt => exact .ite (fun _ => readBar0_steady hs) fun _ => hs
  | bar0 =>
    exact .ite (fun _ => hq) fun _ => .ite (fun _ => readBar0_steady hs) fun _ => .ite (fun _ => hs) fun _ =>
      hs.quiet (setData_quiet (.refl s))
  | bar2 f => exact .ite (fun _ => hq) fun _ => hs.quiet (readBar2_quiet (.refl s))

theorem write32_steady {r : Requester} {off v : Nat} (hs : Steady s₀ s) : Steady s₀ (write32 s r off v) := by
  have hq : Quiet s s := .refl s
  unfold write32
  refine .ite (fun _ => .ite (fun _ => hoopStart_steady hs) fun _ => hs) fun _ => hs.quiet ?_
  refine .ite (fun _ => accOp_quiet hq) fun _ => .ite (fun _ => setTarget_quiet hq) fun _ => .ite (fun _ => setCarve_quiet hq)
      fun _ =>
    .ite (fun _ => setCarve_quiet hq) fun _ => .ite (fun _ => acvCtrl_quiet hq) fun _ => .ite (fun _ => circPortCfgWrite_quiet hq)
        fun _ =>
    .ite (fun _ => slvCtrl_quiet hq) fun _ => .ite (fun _ => setFw_quiet hq) fun _ =>
    .ite (fun _ => .ite (fun _ => secBootGo_quiet hq) fun _ => hq) fun _ => .ite (fun _ => pwrCtrl_quiet hq) fun _ =>
    .ite (fun _ => setPwr_quiet hq) fun _ => ?_
  split
  · exact writeDom_quiet hq
  · exact circGrantWrite_quiet hq
  · exact hq

theorem writeBar0_steady {r : Requester} {off size v : Nat} (hs : Steady s₀ s) : Steady s₀ (writeBar0 s r off size v) := by
  unfold writeBar0
  refine .ite (fun _ => hs.quiet (acvWrite_quiet (.refl s))) fun _ => ?_
  split
  · exact hs
  · refine .ite (fun _ => hs.quiet (shadowWrite_quiet (.refl s))) fun _ => ?_
    split
    · rename_i e
      exact hs.quiet (.fst e (reachReg_quiet (.refl s)))
    · rename_i e
      have hr := hs.quiet (.fst e (reachReg_quiet (.refl s)))
      refine .ite (fun _ => hr.quiet (write64_quiet (.refl _))) fun _ => ?_
      split
      · exact hr
      · exact write32_steady hr

theorem regWrite_steady {bar : Bar} {off size : Nat} {v : W64} (hs : Steady s₀ s) : Steady s₀ (regWrite s bar off size v) := by
  have hq {b o w} : Steady s₀ (accessInS3 s b o w) := hs.quiet (accessInS3_quiet (.refl s))
  cases bar with
  | mgmt => exact .ite (fun _ => writeBar0_steady hs) fun _ => hs
  | bar0 =>
    exact .ite (fun _ => .ite (fun _ => hs.quiet (startExit_quiet (.refl s))) fun _ => hq) fun _ =>
      .ite (fun _ => writeBar0_steady hs) fun _ => hs
  | bar2 f => exact .ite (fun _ => hq) fun _ => hs.quiet (writeBar2_quiet (.refl s))

end Sys2Proof.Machine
end

section
/-! Proofs: every command answers a next state in which the forms are kept and the queue of commands is what it was. -/

namespace Sys2Proof.Machine

theorem Safe.next {s t : State} (h : Safe s t) : ∃ u, (.next t : Host.Outcome State Fault Refusal) = .next u ∧ Safe s u := ⟨t, rfl,
    h⟩

theorem Steady.next {s t : State} (h : Steady s t) : ∃ u, (.next t : Host.Outcome State Fault Refusal) = .next u ∧ Safe s u :=
  h.safe.next

theorem Quiet.next {s t : State} (h : Quiet s t) : ∃ u, (.next t : Host.Outcome State Fault Refusal) = .next u ∧ Safe s u :=
  h.steady.next

variable {s₀ s : State}

/-! ## What the commands add to their operations -/

/-- PAGE_WALK_COMPLETE: the walk goes on, or the walker has a control error. -/
theorem walkArm_quiet {walk : Found Nat} {stall : Stall} (hs : Quiet s₀ s) :
    Quiet s₀ (match walk.err, tget s.mmu.walks walk.item with
      | .control, some x => unitControlErr s (walkerUnit x.walker)
      | .control, none => s
      | _, _ => pageWalkComplete s walk.item stall) := by
  split
  · exact unitControlErr_quiet hs
  · exact hs
  · exact pageWalkComplete_quiet hs

/-- TRANSACTION_RESPONSE: the response, or the control error that it shows. -/
theorem responseArm_quiet {id : Nat} {r : Resp} (hs : Quiet s₀ s) :
    Quiet s₀ (match r with
      | .control u => responseErr s id u
      | _ => transactionResponse s id r) := by
  split
  · exact responseErr_quiet hs
  · exact transactionResponse_quiet hs

/-- BLOCK_END: a kernel's block or a fragment group. -/
theorem blockEndArm_quiet {block : Nat} (hs : Quiet s₀ s) :
    Quiet s₀ (match tget s.cores.blocks block with
      | none => s
      | some x => grantClaims x.core 64 (match x.frag with
        | none => endBlock s block
        | some f => endFrag s block f)) := by
  split
  · exact hs
  · refine grantClaims_quiet ?_
    split
    · exact endBlock_quiet hs
    · exact endFrag_quiet hs

/-! ## The commands -/

theorem exec_safe (c : Instr) (s : State) : ∃ t, exec c s = .next t ∧ Safe s t := by
  have h : Quiet s s := .refl s
  cases c with
  | hoopStart => exact (hoopStart_steady (.refl s)).next
  | edge => exact (edge_steady (.refl s)).next
  | marginStart => exact (Steady.ite (fun _ => toDrain_steady (.refl s)) fun _ => .refl s).next
  | cutoff => exact (Steady.ite (fun _ => toSettle_steady (.refl s)) fun _ => .refl s).next
  | settleDone _ => exact (settleDone_steady (.refl s)).next
  | shadowWrite _ _ _ _ => exact (shadowWrite_quiet h).next
  | accOpen _ => exact (accOpen_quiet h).next
  | accCommit _ => exact (accCommit_quiet h).next
  | accAbort _ => exact (accAbort_quiet h).next
  | accRelease _ _ => exact (accRelease_quiet h).next
  | accCheckEnd _ => exact (Quiet.ite (fun _ => serveReqs_quiet (endCheck_quiet h)) fun _ => h).next
  | quotaSet _ _ _ _ => exact (fwCommand_quiet (pfOnly_quiet quotaSet_quiet) h).next
  | ctxCreate _ _ => exact (fwCreate_quiet ctxCreate_quiet h).next
  | ctxDestroy _ _ => exact (fwCommand_quiet ctxDestroy_quiet h).next
  | ctxMarkLost _ _ => exact (fwCommand_quiet ctxMarkLost_quiet h).next
  | ctxQuery _ _ => exact (fwCommand_quiet ctxQuery_quiet h).next
  | ctxStandby _ _ _ _ => exact (fwCommand_quiet ctxStandby_quiet h).next
  | qCreate _ _ _ _ _ _ _ => exact (Quiet.ite (fun _ => h) fun _ =>
      fwCommandWith_quiet (busyOnB_quiet qCreate_quiet) (fun h => budgetCheck_quiet (admitTrace_quiet h)) h).next
  | qDestroy _ _ => exact (fwCommand_quiet qDestroy_quiet h).next
  | fenceCreate _ _ _ _ _ => exact (fwCreate_quiet fenceCreate_quiet h).next
  | fenceSignal _ _ _ _ => exact (fwCommand_quiet fenceSignal_quiet h).next
  | fenceQuery _ _ => exact (fwCommand_quiet fenceQuery_quiet h).next
  | fenceDestroy _ _ => exact (fwCommand_quiet fenceDestroy_quiet h).next
  | eventRingSet _ _ _ _ => exact (fwCommand_quiet eventRingSet_quiet h).next
  | eventCreate _ _ _ _ => exact (fwCreate_quiet eventCreate_quiet h).next
  | eventDestroy _ _ => exact (fwCommand_quiet eventDestroy_quiet h).next
  | graphCreate _ _ => exact (fwCreate_quiet graphCreate_quiet h).next
  | graphPublish _ _ _ _ => exact (fwCommand_quiet graphPublish_quiet h).next
  | graphDestroy _ _ => exact (fwCommand_quiet graphDestroy_quiet h).next
  | faultRingSet _ _ _ => exact (fwCommand_quiet faultRingSet_quiet h).next
  | slowTableSet _ _ => exact (fwCommand_quiet slowTableSet_quiet h).next
  | streamOpen _ _ _ _ _ => exact (fwCommand_quiet streamOpen_quiet h).next
  | streamRing _ _ _ _ _ _ _ => exact (fwCommand_quiet streamRing_quiet h).next
  | streamKey _ _ _ _ _ => exact (fwCommand_quiet streamKey_quiet h).next
  | streamClose _ _ => exact (fwCommand_quiet streamClose_quiet h).next
  | accRequest _ _ _ _ => exact (accRequest_quiet h).next
  | daybookSet _ _ _ => exact (fwCommand_quiet (pfOnly_quiet daybookSet_quiet) h).next
  | marginSet _ _ => exact (fwCommand_quiet (pfOnly_quiet marginSet_quiet) h).next
  | fwRingBase _ _ _ => exact (fwRingBase_quiet h).next
  | heartbeat _ _ => exact (heartbeat_quiet h).next
  | pageWalkComplete _ _ => exact (walkArm_quiet h).next
  | faultRecordWrite _ => exact (faultRecordWrite_quiet h).next
  | faultHeadPoll _ => exact (faultHeadPoll_quiet h).next
  | faultRetry _ _ => exact (faultAnswer_quiet h).next
  | faultNotMapped _ _ => exact (faultAnswer_quiet h).next
  | mmuInval _ _ _ => exact (mmuInval_quiet h).next
  | invalDone _ => exact (invalDone_quiet h).next
  | qDoorbell _ _ _ _ _ => exact (qDoorbell_quiet h).next
  | qResumeRetry _ _ _ _ _ => exact (qResume_quiet h).next
  | qResumeSkip _ _ _ _ _ => exact (qResume_quiet h).next
  | queueResumeEffect _ => exact (resumeEffect_quiet h).next
  | descriptorTake _ => exact (descriptorTake_quiet h).next
  | descriptorArm _ _ => exact (descriptorArm_quiet h).next
  | nop _ => exact (startNop_quiet h).next
  | wait _ => exact (startWait_quiet h).next
  | signal _ => exact (startSignal_quiet h).next
  | waitTick _ _ => exact (startWaitTick_quiet h).next
  | budget _ _ => exact (startBudget_quiet h).next
  | kernel _ => exact (startKernel_quiet h).next
  | graphLaunch _ _ => exact (startGraph_quiet h).next
  | renderPass _ => exact (startPass_quiet h).next
  | copy _ => exact (startCopy_quiet h).next
  | fill _ => exact (startFill_quiet h).next
  | compose _ _ => exact (startCompose_quiet h).next
  | encode _ _ => exact (startEncode_quiet h).next
  | bind _ _ => exact (startBind_quiet h).next
  | send _ _ => exact (startSend_quiet h).next
  | descriptorComplete _ _ => exact (descriptorComplete_quiet h).next
  | graphNodeComplete _ _ _ => exact (nodeComplete_quiet h).next
  | continuationLaunch _ => exact (launchCont_quiet h).next
  | feAcvWinWrite _ _ _ => exact (Quiet.ite (fun _ => acvWrite_quiet h) fun _ => h).next
  | feAcvEnable => exact (Quiet.ite (fun _ => acvEnable_quiet h) fun _ => h).next
  | feAcvResumeRetry => exact (Quiet.ite (fun _ => acvResume_quiet h) fun _ => h).next
  | feAcvResumeSkip => exact (Quiet.ite (fun _ => acvResume_quiet h) fun _ => h).next
  | switchSaveDone _ => exact (switchSaveDone_quiet h).next
  | switchLoadDone _ => exact (switchLoadDone_quiet h).next
  | slowTableWrite _ => exact (slowTableWrite_quiet h).next
  | transactionIssue _ => exact (transactionIssue_quiet h).next
  | transactionResponse _ _ => exact (responseArm_quiet h).next
  | cleanDone _ => exact (cleanDone_quiet h).next
  | stackScrub _ _ => exact (stackScrub_quiet h).next
  | hbmScrub _ _ => exact (hbmScrub_quiet h).next
  | hbmParityRetry _ _ => exact (hbmParityRetry_quiet h).next
  | int _ _ _ _ _ _ => exact (onCore_quiet h (doInt_quiet h)).next
  | fp32 _ _ _ _ _ _ => exact (onCore_quiet h (doFp32_quiet h)).next
  | packed _ _ _ _ _ _ _ => exact (onCore_quiet h (doPacked_quiet h)).next
  | conv _ _ _ _ _ _ _ _ => exact (onCore_quiet h (doConv_quiet h)).next
  | trans _ _ _ _ => exact (onCore_quiet h (doTrans_quiet h)).next
  | lane _ _ _ _ _ => exact (onCore_quiet h (doLane_quiet h)).next
  | branch _ _ => exact (onCore_quiet h (doBranch_quiet h)).next
  | join _ _ => exact (onCore_quiet h (doJoin_quiet h)).next
  | sr _ _ _ => exact (onCore_quiet h (doSr_quiet h)).next
  | lmAccess _ _ => exact (onCore_quiet h (doLm_quiet h)).next
  | ldc _ _ _ _ _ => exact (onCore_quiet h (doLdc_quiet h)).next
  | stc _ _ _ _ _ => exact (onCore_quiet h (doStc_quiet h)).next
  | atc _ _ _ _ _ _ _ _ => exact (onCore_quiet h (doAtc_quiet h)).next
  | deviceLoad _ _ _ _ _ => exact (onCore_quiet h (doLoad_quiet h)).next
  | deviceStore _ _ _ _ _ => exact (onCore_quiet h (doStore_quiet h)).next
  | atom _ _ _ _ _ _ _ _ => exact (onCore_quiet h (doAtom_quiet h)).next
  | msgSend _ _ _ _ => exact (onCore_quiet h (doSend_quiet h)).next
  | msgRecv _ _ _ _ => exact (onCore_quiet h (doRecv_quiet h)).next
  | chstat _ _ _ _ => exact (onCore_quiet h (doChstat_quiet h)).next
  | messageArrive _ _ => exact (arriveMsg_quiet h).next
  | creditReturn _ _ => exact (creditBack_quiet h).next
  | bar _ => exact (onCore_quiet h (doBar_quiet h)).next
  | cbar _ => exact (onCore_quiet h (doBar_quiet h)).next
  | fence _ _ => exact (onCore_quiet h (doFence_quiet h)).next
  | cont _ _ => exact (onCore_quiet h (doCont_quiet h)).next
  | exit _ => exact (onCore_quiet h (doExit_quiet h)).next
  | undefinedInstruction _ => exact (onCore_quiet h (doUndefined_quiet h)).next
  | blockClusterPlace _ => exact (placeCluster_quiet h).next
  | blockEnd _ => exact (blockEndArm_quiet h).next
  | mclaim _ _ => exact (onCore_quiet h (doMclaim_quiet h)).next
  | mrel _ _ => exact (onCore_quiet h (doMrel_quiet h)).next
  | mwait _ _ => exact (onCore_quiet h (doMwait_quiet h)).next
  | mma _ _ _ _ _ => exact (onCore_quiet h (matIssue_quiet h)).next
  | mstore _ _ _ => exact (onCore_quiet h (matIssue_quiet h)).next
  | mldacc _ _ _ => exact (onCore_quiet h (matIssue_quiet h)).next
  | mloadb _ _ _ _ => exact (onCore_quiet h (matIssue_quiet h)).next
  | matrixComplete _ _ _ => exact (onUnit_quiet h (matrixComplete_quiet h)).next
  | bissue _ _ _ => exact (onCore_quiet h (doBissue_quiet h)).next
  | bwait _ _ => exact (onCore_quiet h (doBwait_quiet h)).next
  | expand _ _ _ => exact (bobbinOp_quiet runExpand_quiet h).next
  | setop _ _ _ => exact (bobbinOp_quiet runSetop_quiet h).next
  | probe _ _ _ => exact (bobbinOp_quiet runProbe_quiet h).next
  | rayq _ _ _ => exact (bobbinOp_quiet runRayq_quiet h).next
  | bobbinStep _ _ _ _ => exact (onUnit_quiet h (bobbinStep_quiet h)).next
  | bobbinComplete _ _ _ => exact (bobbinComplete_quiet h).next
  | primitiveBin _ _ _ _ => exact (onUnit_quiet h (primitiveBin_quiet h)).next
  | tilePlace _ => exact (tilePlace_quiet h).next
  | tileLoadDone _ _ => exact (tileLoadDone_quiet h).next
  | batchDispatch _ _ _ => exact (onUnit_quiet h (batchDispatch_quiet h)).next
  | fragmentGroupStart _ _ _ => exact (fragStart_quiet h).next
  | tileStoreDone _ _ => exact (tileStoreDone_quiet h).next
  | stripComplete _ => exact (onUnit_quiet h (stripComplete_quiet h)).next
  | encodeComplete _ _ => exact (onUnit_quiet h (encodeComplete_quiet h)).next
  | bindComplete _ _ => exact (onUnit_quiet h (bindComplete_quiet h)).next
  | circPortCfgWrite _ => exact (circPortCfgWrite_quiet h).next
  | circGrantWrite _ _ => exact (circGrantWrite_quiet h).next
  | portLinkChange _ _ => exact (portLinkChange_quiet h).next
  | arpRequest _ _ _ _ => exact (arpRequest_quiet h).next
  | neighborSolicitation _ _ _ _ => exact (neighborSolicitation_quiet h).next
  | frameReceive _ _ _ => exact (onUnit_quiet h (frameReceive_quiet h)).next
  | packetEnqueue _ => exact (onUnit_quiet h (packetEnqueue_quiet h)).next
  | packetDepart _ => exact (onUnit_quiet h (packetDepart_quiet h)).next
  | streamStatusWrite _ => exact (streamStatusWrite_quiet h).next
  | slvAttach _ => exact (slvAttach_quiet h).next
  | slvDetach _ _ => exact (slvDetach_quiet h).next
  | identityExchange _ _ _ => exact (identityExchange_quiet h).next
  | attachHandshakeComplete _ _ _ => exact (attachComplete_steady (.refl s)).next
  | attachTimeout => exact (attachTimeout_quiet h).next
  | mirrorReceive _ => exact (mirrorReceive_quiet h).next
  | heartbeatSample _ => exact (sampleHeartbeat_steady (.refl s)).next
  | moveMessage _ => exact (moveMessage_quiet h).next
  | failedMessage => exact (failedMessage_quiet h).next
  | selvageRequest _ _ _ _ _ => exact (selvageRequest_quiet h).next
  | selvageReplay _ => exact (selvageReplay_quiet h).next
  | selvageRetrain => exact (selvageRetrain_quiet h).next
  | selvageLinkLost => exact (linkLost_quiet h).next
  | monitorWindowEnd _ => exact (monitorEnd_steady (.refl s)).next
  | supplyFault => exact (supplyFault_quiet h).next
  | clockFault _ => exact (clockFault_quiet h).next
  | thermalFault _ => exact (thermalFault_safe s _).next
  | lockstepMismatch => exact (lockstepMismatch_quiet h).next
  | powerOkRise => exact (setBrd_safe s _).next
  | powerOkFall => exact (coldReset_safe s _).next
  | perstNAssert => exact (perstAssert_safe s).next
  | perstNDeassert => exact (perstDeassert_safe s).next
  | hotReset => exact (hotReset_safe s).next
  | resetRelease => exact (resetRelease_safe s).next
  | bootRomReady => exact (bootRomReady_quiet h).next
  | secBootGo => exact (secBootGo_quiet h).next
  | bootCheckDone _ => exact (bootCheckDone_quiet h).next
  | bootReadTimeout _ => exact (bootTimeoutAt_steady (.refl s)).next
  | velhintoReady => exact (velhintoReady_quiet h).next
  | watchdogKick => exact (watchdogKick_quiet h).next
  | watchdogExpiry => exact (watchdogExpiry_quiet h).next
  | firmwareRestartDone => exact (restartDone_quiet h).next
  | graceStart _ => exact (graceStart_quiet h).next
  | graceExpiry _ => exact (graceExpiry_quiet h).next
  | pcieLinkDown => exact (pcieLinkDown_quiet h).next
  | functionLevelReset _ => exact (functionLevelReset_quiet h).next
  | getVersion => exact (getVersion_quiet h).next
  | getCapabilities => exact (getCapabilities_quiet h).next
  | negotiateAlgorithms _ _ _ => exact (negotiate_quiet h).next
  | getCertificate _ _ _ => exact (getCertificate_quiet h).next
  | challenge _ _ _ => exact (challenge_quiet h).next
  | getMeasurements _ _ _ => exact (getMeasurements_quiet h).next
  | voltageConfirm => exact (voltageConfirm_quiet h).next
  | voltageTimeout => exact (voltageTimeoutAt_steady (.refl s)).next
  | powerWindowEnd _ => exact (powerWindowEnd_steady (.refl s)).next
  | domainSleepEntry _ => exact (sleepEntry_quiet h).next
  | domainEntryDone _ => exact (entryDone_quiet h).next
  | domainWakeDone _ => exact (wakeDone_quiet h).next
  | wakeTimeout _ => exact (wakeTimeoutAt_steady (.refl s)).next
  | pwrCtrlS3 => exact (requestS3_quiet h).next
  | pwrCtrlWake => exact (startExit_quiet h).next
  | pwrCtrlClamp _ => exact (setClamp_quiet h).next
  | hostAccessInS3 _ _ _ _ => exact (accessInS3_quiet h).next
  | s3ExitDone => exact (s3ExitDone_quiet h).next
  | sidebandWrite _ => exact (sidebandWrite_safe s _).next
  | sidebandRead _ => exact (setBrd_safe s _).next
  | thermtrip => exact (coldReset_safe s _).next
  | bypass => exact (jtag_safe s _).next
  | idcode => exact (jtag_safe s _).next
  | samplePreload => exact (jtag_safe s _).next
  | extest => exact (jtag_safe s _).next
  | extestPulse => exact (jtag_safe s _).next
  | extestTrain => exact (jtag_safe s _).next
  | bar4Access _ _ _ _ => exact (bar4Access_quiet h).next
  | rcRead _ _ _ => exact (regRead_steady (.refl s)).next
  | registerWrite _ _ _ _ => exact (regWrite_steady (.refl s)).next
  | selvageTrainingDone _ => exact (selvageTrainingDone_quiet h).next
  | tjMaxChange _ => exact (setBrd_safe s _).next
  | pcieCompletionTimeout _ => exact (completionTimeout_quiet h).next

/-- A step keeps every form. -/
theorem step_safe {s t : State} (h : step s = .next t) :
    (memOk s = true → memOk t = true) ∧ (hoopOk s = true → hoopOk t = true) ∧ (slotsOk s = true → slotsOk t = true) := by
  unfold step at h
  split at h
  · rename_i c rest _
    obtain ⟨u, hu, hs⟩ := exec_safe c { s with pending := rest }
    rw [hu] at h
    cases h
    exact ⟨hs.mem, hs.hoop, hs.slots⟩
  · cases h
    have hs := (idleCycle_steady (.refl s)).safe
    exact ⟨hs.mem, hs.hoop, hs.slots⟩

end Sys2Proof.Machine

open Sys2Proof Sys2Proof.Machine

/-- Settles O2: each command is an operation that leaves the queue of waiting commands alone. -/
theorem commandsAnswerAndLeaveTheQueue : Obligations.CommandsAnswerAndLeaveTheQueue := by
  intro c s
  obtain ⟨t, ht, hs⟩ := exec_safe c s
  exact ⟨t, ht, hs.pending⟩

/-- Settles O5: every operation on a memory writes, clears or drops cells, which keeps the canonical form. -/
theorem stepKeepsMemories : Obligations.StepKeepsMemories := fun _ _ hm h => (step_safe h).1 hm

/-- Settles O6: only time, the phases and the edge move the Hoop, and no operation changes the number of slots. -/
theorem stepKeepsHoopAndSlots : Obligations.StepKeepsHoopAndSlots :=
  ⟨fun _ _ hm h => (step_safe h).2.1 hm, fun _ _ hm h => (step_safe h).2.2 hm⟩

/-- Settles O1. -/
theorem stepRunsTheFrontCommand : Obligations.StepRunsTheFrontCommand := by
  intro c rest s h
  simp only [step, h]

/-- Settles O4. -/
theorem resetHasTheForms : Obligations.ResetHasTheForms := ⟨rfl, rfl, rfl, rfl⟩

end

section
/-! Proofs: the Hoop as time passes, and HOOP_START, EDGE and the idle cycle. -/

namespace Sys2Proof.Machine

/-! ## The phases and the Hoop -/

theorem passTo_hoop {s : State} (h : s.brd.inReset = false) (t : Nat) : (passTo s t).hoop = { s.hoop with time := max s.hoop.time t
    } := by
  unfold passTo
  split
  · rename_i hc
    have ht : t ≤ s.hoop.time := by simpa [h] using hc
    rw [Nat.max_eq_left ht]
  · rename_i hc
    have ht : s.hoop.time ≤ t := by simp [h] at hc; exact hc.le
    rw [Nat.max_eq_right ht]
    rfl

theorem passTo_brd (s : State) (t : Nat) : (passTo s t).brd = s.brd := (passTo_steady (.refl s)).keeps.brd

theorem toDrain_brd (s : State) : (toDrain s).brd = s.brd := (toDrain_steady (.refl s)).keeps.brd

theorem toSettle_brd (s : State) : (toSettle s).brd = s.brd := (toSettle_steady (.refl s)).keeps.brd

theorem edge_brd (s : State) : (edge s).brd = s.brd := (edge_steady (.refl s)).keeps.brd

theorem crossBoundary_brd (s : State) : (crossBoundary s).brd = s.brd := (crossBoundary_steady (.refl s)).keeps.brd

theorem toDrain_hoop {s : State} (h : s.brd.inReset = false) (hp : s.hoop.phase = .opened) :
    (toDrain s).hoop = { s.hoop with phase := .drain, time := max s.hoop.time (marginAt s) } := by
  rw [toDrain, if_pos hp]
  change { (passTo s (marginAt s)).hoop with phase := .drain } = _
  rw [passTo_hoop h]

theorem toDrain_of_not_opened {s : State} (hp : s.hoop.phase ≠ .opened) : toDrain s = s := if_neg hp

/-- Until the settle phase, time has not passed C. -/
theorem toSettle_hoop {s : State} (h : s.brd.inReset = false) : ∃ p n l t, (toSettle s).hoop =
    { s.hoop with phase := p, overrun := n, settleBusy := l, time := t } ∧ s.hoop.time ≤ t ∧
      t ≤ max s.hoop.time (periodEnd s) := by
  have hd : ∃ p t, (toDrain s).hoop = { s.hoop with phase := p, time := t } ∧ s.hoop.time ≤ t ∧ t ≤ max s.hoop.time (periodEnd
      s) := by
    by_cases hp : s.hoop.phase = .opened
    · exact ⟨_, _, toDrain_hoop h hp, by omega, by unfold marginAt; omega⟩
    · exact ⟨s.hoop.phase, s.hoop.time, by rw [toDrain_of_not_opened hp], by omega, by omega⟩
  obtain ⟨p, t, ht, hl, hu⟩ := hd
  have hb : (toDrain s).brd.inReset = false := by rw [toDrain_brd, h]
  have hpe : periodEnd (toDrain s) = periodEnd s := by simp [periodEnd, ht]
  unfold toSettle
  dsimp only
  split
  · obtain ⟨n, hn⟩ := cutoffNow_hoop (passTo (toDrain s) (cutoffAt (toDrain s)))
    generalize hu' : passTo (toDrain s) (cutoffAt (toDrain s)) = u at hn
    refine ⟨.settle, n, (dirtySlots u ++ u.fab.cleans).dedup, max t (cutoffAt (toDrain s)), ?_, by omega, ?_⟩
    · have hh : u.hoop = { (toDrain s).hoop with time := max (toDrain s).hoop.time (cutoffAt (toDrain s)) } := by rw [← hu',
          passTo_hoop hb]
      rw [hn, hh, ht]
    · have : cutoffAt (toDrain s) ≤ periodEnd s := by unfold cutoffAt; omega
      omega
  · exact ⟨p, s.hoop.overrun, s.hoop.settleBusy, t, ht, hl, hu⟩

/-- The Hoop after an edge. -/
theorem edgeNow_hoop (s : State) (k : Nat) : ∃ n, (edgeNow s k).hoop =
    { s.hoop with running := true, tick := k, edge := s.hoop.time, settleLate := n, phase := .opened
                  perCyc := nbits (active (edgeOpened s k) oPeriod) 23 0
                  marginUs := nbits (active (edgeOpened s k) oMargin) 8 0
                  settleUs := nbits (active (edgeOpened s k) oMargin) 24 16 } := by
  obtain ⟨n, hn⟩ := edgeOpened_hoop s k
  exact ⟨n, (edgeNow_quiet s k).hoop.trans hn⟩

/-- The state at the end of a period, before the edge is raised. -/
theorem endPeriod_passTo_hoop {s : State} (h : s.brd.inReset = false) (t : Nat) :
    (endPeriod (passTo s t)).hoop = { s.hoop with time := max s.hoop.time t } :=
  (endPeriod_quiet (.refl _)).hoop.trans (passTo_hoop h t)

theorem edge_eq {s : State} (hr : s.hoop.running = true) (h : s.brd.inReset = false) :
    edge s = edgeNow (endPeriod (passTo (toSettle s) (periodEnd (toSettle s)))) ((toSettle s).hoop.tick + 1) := by
  unfold edge
  rw [if_neg (by simp [hr, h])]

/-- EDGE raises the next tick at the end of the period, or now where time has passed it. -/
theorem edge_hoop {s : State} (hr : s.hoop.running = true) (h : s.brd.inReset = false) :
    (edge s).hoop.time = max s.hoop.time (periodEnd s) ∧ (edge s).hoop.edge = (edge s).hoop.time ∧
      (edge s).hoop.tick = s.hoop.tick + 1 := by
  obtain ⟨p, n, l, t, hs, hl, hu⟩ := toSettle_hoop h
  have hb : (toSettle s).brd.inReset = false := by rw [toSettle_brd, h]
  have hpe : periodEnd (toSettle s) = periodEnd s := by simp [periodEnd, hs]
  obtain ⟨m, hm⟩ := edgeNow_hoop (endPeriod (passTo (toSettle s) (periodEnd (toSettle s)))) ((toSettle s).hoop.tick + 1)
  rw [edge_eq hr h, hm, endPeriod_passTo_hoop hb, hpe, hs]
  refine ⟨?_, rfl, rfl⟩
  dsimp only
  omega

/-- Crossing a boundary that is not later than `t` leaves a time not later than `t`. -/
theorem crossBoundary_time {s : State} {t : Nat} (hr : s.hoop.running = true) (h : s.brd.inReset = false) (ht : s.hoop.time ≤ t)
    (hb : boundary s ≤ t) : (crossBoundary s).hoop.time ≤ t := by
  unfold crossBoundary
  unfold boundary at hb
  split
  · rename_i hp
    rw [hp] at hb
    rw [toDrain_hoop h hp]
    exact max_le ht hb
  · rename_i hp
    rw [hp] at hb
    have hn : s.hoop.phase ≠ .opened := by rw [hp]; decide
    unfold toSettle
    simp only [toDrain_of_not_opened hn, hp, if_true]
    obtain ⟨n, hc⟩ := cutoffNow_hoop (passTo s (cutoffAt s))
    rw [hc, passTo_hoop h]
    exact max_le ht hb
  · rename_i h1 h2
    rw [(edge_hoop hr h).1]
    split at hb
    · exact absurd ‹_› h1
    · exact absurd ‹_› h2
    · exact max_le ht hb

/-- Time advances to the given cycle. -/
theorem advanceLoop_time {n t : Nat} {s : State} (h : s.brd.inReset = false) (ht : s.hoop.time ≤ t) :
    (advanceLoop n s t).hoop.time = t := by
  induction n generalizing s with
  | zero => rw [advanceLoop, passTo_hoop h]; exact max_eq_right ht
  | succ n ih =>
    rw [advanceLoop]
    split
    · rename_i hb
      exact ih (by rw [crossBoundary_brd, h]) (crossBoundary_time hb.1 h ht hb.2)
    · rw [passTo_hoop h]; exact max_eq_right ht

theorem advance_time {t : Nat} {s : State} (h : s.brd.inReset = false) (ht : s.hoop.time ≤ t) : (advance s t).hoop.time = t :=
  advanceLoop_time h ht

end Sys2Proof.Machine

open Sys2Proof Sys2Proof.Machine

/-- Settles O3: what falls due before the cycle takes no time, and time then advances by one. -/
theorem idleStepCountsOneCycle : Obligations.IdleStepCountsOneCycle := by
  intro s hp hr
  have hq : Quiet s (settleDues (nocRun 20 s)) := settleDues_quiet (nocRun_quiet (.refl s))
  refine ⟨idleCycle s, by simp only [step, hp], ?_, (idleCycle_steady (.refl s)).keeps.pending.trans hp⟩
  rw [idleCycle, if_neg (by simp [hr])]
  exact advance_time (by rw [hq.brd, hr]) (by rw [hq.hoop]; omega)

end

section
/-! Proofs: the day book and the marginalia, and the accession slots (spec/02 R47 to R57). -/

namespace Sys2Proof.Machine

/-! ## The log -/

/-- The second state is the first with records put in the day book, which stands in firmware's memory and in host memory. -/
def Logged (s t : State) : Prop := ∃ m b r, t = { s with fab := { s.fab with host := m }, fw := { s.fw with book := b, bookRing :=
    r } }

theorem Logged.refl (s : State) : Logged s s := ⟨_, _, _, rfl⟩

theorem Logged.trans {s t u : State} (h : Logged s t) (h' : Logged t u) : Logged s u := by
  obtain ⟨_, _, _, rfl⟩ := h
  obtain ⟨m, b, r, rfl⟩ := h'
  exact ⟨m, b, r, rfl⟩

theorem dayBook_logged (s : State) (code obj arg0 arg1 : Nat) : Logged s (dayBook s code obj arg0 arg1) := by
  unfold dayBook
  dsimp only
  split
  · exact ⟨_, _, _, rfl⟩
  · exact ⟨_, _, _, rfl⟩

theorem trace_logged (s : State) (group point obj arg1 : Nat) : Logged s (trace s group point obj arg1) := by
  unfold trace
  split
  · exact dayBook_logged _ _ _ _ _
  · exact .refl s

/-- A marginalia record of a free value draws one where its group is on. -/
theorem traceFree_logged (s : State) (group point obj : Nat) : ∃ n, Logged { s with free := n } (traceFree s group point obj) := by
  unfold traceFree
  split
  · exact ⟨_, dayBook_logged _ _ _ _ _⟩
  · exact ⟨s.free, .refl s⟩

theorem Logged.regs {s t : State} (h : Logged s t) : t.regs = s.regs := by
  obtain ⟨_, _, _, rfl⟩ := h
  rfl

theorem Logged.acc {s t : State} (h : Logged s t) : t.acc = s.acc := by
  obtain ⟨_, _, _, rfl⟩ := h
  rfl

theorem Logged.reqs {s t : State} (h : Logged s t) : t.fw.reqs = s.fw.reqs := by
  obtain ⟨_, _, _, rfl⟩ := h
  rfl

theorem Logged.only {s t : State} (h : Logged s t) : Only [.fab, .fw] s t := by
  obtain ⟨_, _, _, rfl⟩ := h
  exact fun p hp => by cases p <;> first | (simp at hp; done) | rfl

/-! ## Reading the slots -/

theorem accSlot_congr {s t : State} (h : t.acc = s.acc) (n : Nat) : accSlot t n = accSlot s n := by
  unfold accSlot
  rw [h]

theorem active_congr {s t : State} (h : t.regs = s.regs) (o : Nat) : active t o = active s o := by
  unfold active
  rw [h]

theorem shadowOf_congr {s t : State} (h : t.regs = s.regs) (o : Nat) : shadowOf t o = shadowOf s o := by
  unfold shadowOf
  rw [h]

theorem accSlot_setSlot_same {s : State} {n : Nat} (h : n < s.acc.slots.length) (a : AccSlot) : accSlot (setSlot s n a) n = a := by
  simp [accSlot, setSlot, setSlots, h]

theorem accSlot_setSlot_other (s : State) {n m : Nat} (h : m ≠ n) (a : AccSlot) : accSlot (setSlot s n a) m = accSlot s m := by
  simp [accSlot, setSlot, setSlots, List.getElem?_set_ne (Ne.symm h)]

/-- The open slot of a requester is one of the slots. -/
theorem openSlot_lt {s : State} {r : Requester} {n : Nat} (h : openSlot s r = some n) : n < s.acc.slots.length :=
  (List.findIdx?_eq_some_iff_getElem.1 h).1

theorem freeSlot_lt {s : State} {n : Nat} (h : freeSlot s = some n) : n < s.acc.slots.length :=
  (List.findIdx?_eq_some_iff_getElem.1 h).1

theorem setSlot_only (s : State) (n : Nat) (a : AccSlot) : Only [.acc] s (setSlot s n a) :=
  fun p hp => by cases p <;> first | (simp at hp; done) | rfl

/-- Where firmware has no request, nothing is served. -/
theorem stageReq_of_nil {s : State} (h : s.fw.reqs = []) : stageReq s = s := by
  unfold stageReq
  rw [h]
  rfl

theorem serveReqs_of_nil {s : State} (h : s.fw.reqs = []) : serveReqs s = s := by
  unfold serveReqs
  split
  · rfl
  · simp only [h, List.foldl_nil, List.range_succ, List.range_zero, List.nil_append, List.cons_append, List.foldl_cons,
      stageReq_of_nil h]

/-! ## Staging -/

theorem shadowOf_tset (s : State) (o k : Nat) (w : W64) (r : RegFile) :
    shadowOf { s with regs := { r with shadow := tset s.regs.shadow o w } } k = if k = o then w.toNat else shadowOf s k := by
  simp only [shadowOf, tgetD, tget_tset]
  split <;> rfl

/-- Writing the active values back over a table: at the keys of the list it then holds them, elsewhere what it held. -/
theorem tgetD_foldl_tset {β : Type} (g : Nat → W64) (l : Tbl β) (t : Tbl W64) (o : Nat) (d : W64) :
    tgetD (l.foldl (fun t e => tset t e.1 (g e.1)) t) o d = if (tget l o).isSome then g o else tgetD t o d := by
  induction l generalizing t with
  | nil => rfl
  | cons e l ih =>
    rw [List.foldl_cons, ih, tget_cons]
    by_cases he : e.1 = o
    · subst he
      simp
    · rw [tgetD_tset_other _ _ _ (Ne.symm he)]
      simp [he]

theorem shadowOf_unstage (s : State) (a : AccSlot) (o : Nat) :
    shadowOf (unstage s a) o = if (tget a.staged o).isSome then active s o else shadowOf s o := by
  unfold shadowOf unstage
  dsimp only
  rw [tgetD_foldl_tset (fun k => BitVec.ofNat 64 (active s k))]
  split
  · simp [active]
  · rfl

theorem active_unstage (s : State) (a : AccSlot) (o : Nat) : active (unstage s a) o = active s o := rfl

/-- What a refusal leaves: the slot and the shadow copies it staged. -/
theorem refuseSlot_slots (s : State) (n code detail : Nat) :
    let a := accSlot s n
    let u := unstage (setSlot s n { a with st := .refused, code := code, detail := detail }) a
    (refuseSlot s n code detail).acc = u.acc ∧ (refuseSlot s n code detail).regs = u.regs ∧
      (refuseSlot s n code detail).fw.reqs = s.fw.reqs := by
  intro a u
  have hl : Logged u (dayBook u 0x0011 (n + 1) code detail) := dayBook_logged _ _ _ _ _
  have hi : Only [.fns, .fab] (dayBook u 0x0011 (n + 1) code detail) (refuseSlot s n code detail) := by
    change Only _ _ (accIrq (dayBook u 0x0011 (n + 1) code detail) a.owner)
    cases a.owner with
    | host => exact raiseMsix_only _ _ _
    | fw => exact .refl _ _
  exact ⟨(hi .acc (by decide)).trans hl.acc, (hi .regs (by decide)).trans hl.regs,
    (congrArg Firmware.reqs (hi .fw (by decide))).trans hl.reqs⟩

end Sys2Proof.Machine

open Sys2Proof Sys2Proof.Machine

/-- Settles O10: the write goes to the slot that is open for its requester, unless another slot holds the register. -/
theorem shadowWriteIsStaged : Obligations.ShadowWriteIsStaged := by
  intro s r off size reg w n v hr ho hm held
  have hx : exec (.shadowWrite r off size v) s = .next (stage s n reg w) := by
    change Host.Outcome.next (shadowWrite s r off size v) = _
    simp [shadowWrite, hr, hm, ho]
  constructor
  · intro hh
    let x : W64 := BitVec.ofNat 64 (stored reg (ofmtFor s (accSlot s n) reg) w)
    let u := setSlot s n { accSlot s n with staged := tset (accSlot s n).staged reg x }
    let u' : State := { u with regs := { u.regs with shadow := tset u.regs.shadow reg x } }
    have hs : stage s n reg w = trace u' 0 1 (n + 1) reg := by
      unfold stage
      exact if_neg (by rw [Bool.not_eq_true]; exact hh)
    have hl : Logged u' (stage s n reg w) := hs ▸ trace_logged _ _ _ _ _
    have hsl (m : Nat) : accSlot (stage s n reg w) m = accSlot u m := accSlot_congr hl.acc m
    have hsh (o : Nat) : shadowOf (stage s n reg w) o = if o = reg then x.toNat else shadowOf s o :=
      (shadowOf_congr hl.regs o).trans (shadowOf_tset u reg o x u.regs)
    refine ⟨_, hx, ?_, by rw [hsh, if_pos rfl], fun o h => by rw [hsh, if_neg h], fun o => ?_, fun m hne => ?_, ?_⟩
    · rw [hsl, accSlot_setSlot_same (openSlot_lt ho)]
      exact tget_tset_same _ _ _
    · exact active_congr (s := u') hl.regs o
    · rw [hsl, accSlot_setSlot_other _ hne]
    · have hu : Only [.acc, .regs, .fw, .fab] s u' := fun p hp => by cases p <;> first | (simp at hp; done) | rfl
      exact hu.trans (hl.only.mono (by simp))
  · intro hh
    rw [hx]
    unfold stage
    exact congrArg _ (if_pos hh)

/-- Settles O11: the claim looks for the first FREE slot, and the commit changes the open one. -/
theorem openAndCommitMoveASlot : Obligations.OpenAndCommitMoveASlot := by
  refine ⟨fun s r hr hf => ⟨fun n ho hn => ?_, fun h => ?_⟩, fun s r n hr ho => ?_⟩
  · let a : AccSlot := { AccSlot.reset with st := .opened, owner := r }
    have hx : exec (.accOpen r) s = .next (traceFree (setSlot s n a) 0 0 (n + 1)) := by
      change Host.Outcome.next (accOpen s r) = _
      simp [accOpen, claimSlot, hr, hf, ho, hn]
      rfl
    obtain ⟨k, hl⟩ := traceFree_logged (setSlot s n a) 0 0 (n + 1)
    have hacc := hl.acc
    have hsl (m : Nat) := accSlot_congr hacc m
    have hlt := freeSlot_lt hn
    refine ⟨_, hx, ?_, ?_, fun m hm => ?_, fun m hm => ?_, ?_⟩
    · rw [hsl]; exact accSlot_setSlot_same hlt a
    · unfold openSlot
      rw [hacc]
      change (s.acc.slots.set n a).findIdx? _ = _
      rw [List.findIdx?_eq_some_iff_getElem]
      refine ⟨by simpa using hlt, by simp [a], fun j hj => ?_⟩
      have hnone := List.findIdx?_eq_none_iff.1 ho
      rw [List.getElem_set_ne (by omega)]
      simpa using hnone _ (List.getElem_mem (by omega : j < s.acc.slots.length))
    · rw [hsl]; exact accSlot_setSlot_other s hm a
    · obtain ⟨h1, -, h3⟩ := List.findIdx?_eq_some_iff_getElem.1 hn
      have := h3 m hm
      simpa [accSlot, List.getElem?_eq_getElem (by omega : m < s.acc.slots.length)] using this
    · exact ((setSlot_only s n a).mono (by simp)).trans ((traceFree_only _ _ _ _).mono (by simp))
  · change Host.Outcome.next (accOpen s r) = _
    have hc : claimSlot s r none 0 = (s, none) := by
      unfold claimSlot
      split
      · rename_i h1 h2
        simp [h1, h2] at h
      · rfl
    rw [accOpen, if_neg (by simp [hr, hf]), hc]
  · have hx : exec (.accCommit r) s = .next (commitSlot s n r) := by
      change Host.Outcome.next (accCommit s r) = _
      simp [accCommit, hr, ho]
    obtain ⟨k, hl⟩ := traceFree_logged (setSlot s n { accSlot s n with st := .checking, target := targetOfReq s r }) 0 2 (n + 1)
    have hsl (m : Nat) := accSlot_congr hl.acc m
    refine ⟨_, hx, ?_, fun m hm => ?_, hl.regs, ?_⟩
    · exact (hsl n).trans (accSlot_setSlot_same (openSlot_lt ho) _)
    · exact (hsl m).trans (accSlot_setSlot_other s hm _)
    · exact ((setSlot_only s n _).mono (by simp)).trans ((traceFree_only _ _ _ _).mono (by simp))

/-- Settles O12: with no request of firmware's waiting for a slot, what ends a slot serves none. -/
theorem abortAndReleaseEndASlot : Obligations.AbortAndReleaseEndASlot := by
  refine ⟨fun s n hb ho hq => ?_, fun s r n hr hq => ⟨fun h => ?_, fun h => ?_⟩⟩
  · obtain ⟨hacc, hregs, hreqs⟩ := refuseSlot_slots s n ccAborted 0
    have hx : exec (.accAbort .host) s = .next (refuseSlot s n ccAborted 0) := by
      change Host.Outcome.next (accAbort s .host) = _
      simp [accAbort, reqOk, hb, ho, serveReqs_of_nil (hreqs.trans hq)]
    refine ⟨_, hx, ?_, fun m hm => ?_, fun o h => ?_, fun o h => ?_, fun o => ?_⟩
    · rw [accSlot_congr hacc]; exact accSlot_setSlot_same (openSlot_lt ho) _
    · rw [accSlot_congr hacc]; exact accSlot_setSlot_other s hm _
    · rw [shadowOf_congr hregs, shadowOf_unstage, if_pos h]; rfl
    · rw [shadowOf_congr hregs, shadowOf_unstage, if_neg (by simp [h])]; rfl
    · rw [active_congr hregs, active_unstage]; rfl
  · obtain ⟨h1, h4, ho, hst⟩ := h
    change Host.Outcome.next (accRelease s r n.val) = _
    unfold accRelease
    dsimp only
    rw [if_neg, serveReqs_of_nil (s := setSlot s (n.val - 1) AccSlot.reset) hq]
    rw [not_or, not_or, not_or, not_or, not_not, not_not]
    exact ⟨by simp [hr], by omega, by omega, ho, hst⟩
  · change Host.Outcome.next (accRelease s r n.val) = _
    unfold accRelease
    dsimp only
    rw [if_pos]
    simp only [hr, Bool.not_true, Bool.false_eq_true, false_or]
    by_contra hc
    rw [not_or, not_or, not_or, not_not, not_not] at hc
    obtain ⟨h1, h4, ho, hst⟩ := hc
    exact h ⟨by omega, by omega, ho, hst⟩

/-- Settles O13: by the outcome of the check's rules. -/
theorem checkArmsOrRefuses : Obligations.CheckArmsOrRefuses := by
  intro s n e code detail hst hrun hq hp hlen hc
  have hn : n.val < s.acc.slots.length := by omega
  let u := trace s 0 3 (n.val + 1) code
  have hl : Logged s u := trace_logged _ _ _ _ _
  have hun : n.val < u.acc.slots.length := by rw [hl.acc]; exact hn
  have hx (v : State) (h : endCheck s n.val = v) (hv : v.fw.reqs = []) : exec (.accCheckEnd n) s = .next v := by
    change Host.Outcome.next (ite _ _ _) = _
    rw [if_pos ⟨hst, hrun⟩, h, serveReqs_of_nil hv]
  by_cases ha : code = 0 ∧ ∃ k, e = some k
  · obtain ⟨rfl, k, rfl⟩ := ha
    have he : endCheck s n.val = setSlot u n.val { accSlot u n.val with st := .armed, edge := k } := by
      simp [endCheck, hc, hp, u]
    refine ⟨_, hx _ he (hl.reqs.trans hq), fun j hj _ => ?_, fun h => ?_, fun m hm => ?_, fun o => active_congr (s := s) hl.regs o⟩
    · cases hj
      rw [accSlot_setSlot_same hun, accSlot_congr hl.acc]
    · simp at h
    · rw [accSlot_setSlot_other _ hm, accSlot_congr hl.acc]
  · have he : endCheck s n.val = refuseSlot u n.val code detail := by
      unfold endCheck
      simp only [hc, hp, Bool.false_eq_true, if_false]
      split
      · simp at ha
      · rfl
    obtain ⟨hacc, hregs, hreqs⟩ := refuseSlot_slots u n.val code detail
    refine ⟨_, hx _ he (hreqs.trans (hl.reqs.trans hq)), fun k hk h0 => absurd ⟨h0, k, hk⟩ ha, fun _ => ?_, fun m hm => ?_,
        fun o => ?_⟩
    · rw [accSlot_congr hacc]
      have := accSlot_setSlot_same hun { accSlot u n.val with st := .refused, code := code, detail := detail }
      exact ⟨congrArg AccSlot.st this, congrArg AccSlot.code this, congrArg AccSlot.detail this⟩
    · rw [accSlot_congr hacc]
      exact (accSlot_setSlot_other u hm _).trans (accSlot_congr hl.acc m)
    · rw [active_congr hregs, active_unstage]
      exact active_congr (s := s) hl.regs o

end

section
/-! Proofs: a firmware command that is taken, and the commands that make one object (spec/03 R70, R84, R94, R97, spec/17 R511). -/

namespace Sys2Proof.Machine

/-! ## A command that is taken -/

/-- A command that firmware takes has left its count and its marginalia record. -/
theorem fwTake_logged (s : State) (f cmd : Nat) :
    Logged (setFn s f { fnOf s f with taken := (fnOf s f).taken + 1 }) (fwTake s f cmd) := trace_logged _ _ _ _ _

/-- The state in which a command's operation begins: only the function's record and what is logged differ from the state before. -/
def Taken (s u : State) : Prop := ∃ x m b r,
  u = { s with fns := x, fab := { s.fab with host := m }, fw := { s.fw with book := b, bookRing := r } }

theorem fwTake_taken (s : State) (f cmd : Nat) : Taken s (fwTake s f cmd) := by
  obtain ⟨m, b, r, h⟩ := fwTake_logged s f cmd
  exact ⟨_, m, b, r, h⟩

/-- A completion counts itself and the taking, whatever else the operation did. -/
theorem fwDone_complete {s t : State} {c : Call} {cmd : Nat} {tag : W32} {st res : Nat}
    (h : SameFn Fn.counts (fwTake s c.func cmd) t) : FwDone c s (fwComplete t c.func cmd tag st res) := by
  have key (g : Nat) : (fnOf (fwComplete t c.func cmd tag st res) g).counts =
      if g = c.func.val then ((fnOf s g).cmdTail, (fnOf s g).cplHead, (fnOf s g).taken + 1, (fnOf s g).written + 1)
      else (fnOf s g).counts := by
    rw [fwComplete_counts]
    have hg := h g
    rw [fwTake_fn] at hg
    split
    · rename_i hc
      subst hc
      rw [if_pos rfl] at hg
      simp only [Fn.counts, Prod.mk.injEq] at hg
      simp [hg]
    · rename_i hc
      rwa [if_neg hc] at hg
  refine ⟨?_, ?_, fun g hg => ?_⟩
  · have := key c.func
    simp only [Fn.counts, if_true, Prod.mk.injEq] at this
    exact this.2.2.1
  · have := key c.func
    simp only [Fn.counts, if_true, Prod.mk.injEq] at this
    exact this.2.2.2
  · have := key g
    simp only [Fn.counts, if_neg hg, Prod.mk.injEq] at this
    exact this.2.2

/-- A command that is taken: what its operation and what follows it leave, and the completion after it. -/
theorem answers_fwCommandWith {s t : State} {c : Call} {cmd st res : Nat} {op : State → State × Nat × Nat}
    {post : Nat → State → State} {i : Instr} {P : State → Prop} (hx : exec i s = .next (fwCommandWith s c cmd op post))
    (h : fwTakes s c.func = true) (ho : (op (fwTake s c.func cmd)).2 = (st, res))
    (ht : post st (if st = stOk ∨ st = stDeferred then (op (fwTake s c.func cmd)).1 else fwTake s c.func cmd) = t)
    (hc : SameFn Fn.counts (fwTake s c.func cmd) t) (hP : ∀ v, FwDone c s v → Only [.fns, .fab, .fw] t v → P v) :
    Answers i s P := by
  have he : fwCommandWith s c cmd op post = fwComplete t c.func cmd c.tag st res := by
    rw [fwCommandWith, if_pos h]
    simp only [ho, ht]
  refine ⟨_, hx, hP _ ?_ ?_⟩
  · rw [he]
    exact fwDone_complete hc
  · rw [he]
    exact fwComplete_only _ _ _ _ _ _

/-- A command that is taken and whose operation does not refuse it: what the operation leaves, and the completion after it. -/
theorem answers_fwCommand {s t : State} {c : Call} {cmd st res : Nat} {op : State → State × Nat × Nat} {i : Instr}
    {P : State → Prop} (hx : exec i s = .next (fwCommand s c cmd op)) (h : fwTakes s c.func = true)
    (ho : op (fwTake s c.func cmd) = (t, st, res)) (hst : st = stOk ∨ st = stDeferred)
    (hc : SameFn Fn.counts (fwTake s c.func cmd) t)
    (hP : ∀ v, FwDone c s v → Only [.fns, .fab, .fw] t v → P v) : Answers i s P :=
  answers_fwCommandWith hx h (by rw [ho]) (by rw [if_pos hst, ho]) hc hP

/-- With its group of the marginalia off, taking a command writes no record. -/
theorem fwTake_unlogged {s : State} (h : s.fw.groups.toNat.testBit 2 = false) (f cmd : Nat) :
    fwTake s f cmd = setFn s f { fnOf s f with taken := (fnOf s f).taken + 1 } :=
  if_neg (by rw [setFn_fw, h]; decide)

/-- Of an operation that leaves the functions' records. -/
theorem SameFn.of_eq {s t : State} (h : t.fns = s.fns) : SameFn Fn.counts s t := .of_fns _ h

/-! ## Creates -/

/-- A create that is neither held back nor turned away is the plain command. -/
theorem fwCreate_now {s : State} {c : Call} {ty cmd : Nat} {op : State → State × Nat × Nat} (h : CreatesNow s ty c.index) :
    fwCreate s c ty cmd op = fwCommand s c cmd (busyOnB op) := by
  rw [fwCreate, if_neg (by simp [h.1])]

theorem busyOnB_now {s : State} {op : State → State × Nat × Nat} (h : (s.twin.watch && s.twin.role) = false) : busyOnB op s = op
    s := by
  simp [busyOnB, h]

theorem Taken.only {s u : State} (h : Taken s u) : Only [.fns, .fab, .fw] s u := by
  obtain ⟨_, _, _, _, rfl⟩ := h
  exact fun p hp => by cases p <;> first | (simp at hp; done) | rfl

/-- A command that only puts its result among the objects, and writes host memory: the answer and its frame. -/
theorem answers_objects {s : State} {c : Call} {cmd : Nat} {op : State → State × Nat × Nat} {i : Instr} {o : Objects}
    {P : State → Prop} (hx : exec i s = .next (fwCommand s c cmd op)) (h : fwTakes s c.func = true)
    (ho : ∀ u, Taken s u → ∃ m, (op u).1 = { u with obj := o, fab := { u.fab with host := m } } ∧ (op u).2.1 = stOk)
    (hP : ∀ v, v.obj = o → FwDone c s v → Only [.obj, .fns, .fab, .fw] s v → P v) : Answers i s P := by
  have hu := fwTake_taken s c.func cmd
  obtain ⟨m, hm, hst⟩ := ho _ hu
  generalize hw : fwTake s c.func cmd = u at hu hm hst
  let t : State := { u with obj := o, fab := { u.fab with host := m } }
  have hop : Only [.obj, .fab] u t := fun p hp => by cases p <;> first | (simp at hp; done) | rfl
  refine answers_fwCommand (t := t) (res := (op u).2.2) hx h (by rw [hw]; exact Prod.ext hm (Prod.ext hst rfl)) (.inl rfl) (.of_eq
      (by rw [hw])) fun v hd hv => ?_
  have hvo : v.obj = t.obj := hv .obj (by decide)
  exact hP v hvo hd (((hu.only.mono (by simp)).trans (hop.mono (by simp))).trans (hv.mono (by simp)))

/-- The same of a create that is neither held back nor turned away. -/
theorem answers_create {s : State} {c : Call} {ty cmd : Nat} {op : State → State × Nat × Nat} {i : Instr} {o : Objects}
    {P : State → Prop} (hx : exec i s = .next (fwCreate s c ty cmd op)) (h : fwTakes s c.func = true) (hn : CreatesNow s ty c.index)
    (ho : ∀ u, Taken s u → ∃ m, (op u).1 = { u with obj := o, fab := { u.fab with host := m } } ∧ (op u).2.1 = stOk)
    (hP : ∀ v, v.obj = o → FwDone c s v → Only [.obj, .fns, .fab, .fw] s v → P v) : Answers i s P := by
  refine answers_objects (by rw [hx, fwCreate_now hn]) h (fun u hu => ?_) hP
  rw [busyOnB_now]
  · exact ho u hu
  · obtain ⟨_, _, _, _, rfl⟩ := hu
    exact hn.2

/-! ## What an operation reads as before -/

section
variable {s u : State} (h : Taken s u)
include h

theorem Taken.obj : u.obj = s.obj := h.only .obj (by decide)

theorem Taken.twin : u.twin = s.twin := h.only .twin (by decide)

theorem Taken.lookup (ty n : Nat) : nameObj u ty n = nameObj s ty n := by
  obtain ⟨_, _, _, _, rfl⟩ := h
  rfl

theorem Taken.ctxUse (f n : Nat) : ctxUse u f n = ctxUse s f n := by
  obtain ⟨_, _, _, _, rfl⟩ := h
  rfl

theorem Taken.fenceOf (f n : Nat) : fenceOf u f n = fenceOf s f n := by
  obtain ⟨_, _, _, _, rfl⟩ := h
  rfl

theorem Taken.overQuota (ty f : Nat) : overQuota u ty f = overQuota s ty f := by
  obtain ⟨_, _, _, _, rfl⟩ := h
  rfl

theorem Taken.newIndex (ty given : Nat) : newIndex u ty given = newIndex s ty given := by
  obtain ⟨_, _, _, _, rfl⟩ := h
  rfl

end

/-- A fence's mirror is written to host memory alone. -/
theorem mirrorWrite_host (s : State) (x : Fence) : ∃ m, mirrorWrite s x = { s with fab := { s.fab with host := m } } := by
  unfold mirrorWrite
  split
  · exact ⟨s.fab.host, rfl⟩
  · exact ⟨_, rfl⟩

/-- An event whose fence has not reached its V does not fire. -/
theorem fireEvent_not_reached {s : State} {e : Nat} {y : Event} {x : Fence} (he : tget s.obj.events e = some y)
    (hx : tget s.obj.fences y.fence = some x) (hv : atOrLater x.value y.v = false) : fireEvent s e = s := by
  unfold fireEvent
  simp [he, hx, hv]

end Sys2Proof.Machine

open Sys2Proof Sys2Proof.Machine

/-- Settles O14: each operation puts one entry in its table, and the event just made does not fire. -/
theorem createsMakeOneObject : Obligations.CreatesMakeOneObject := by
  refine ⟨?_, ?_, ?_, ?_⟩
  · intro s c root hf hn hr hq
    refine answers_create rfl hf hn (fun u hu => ?_) fun v ho hd hv => ⟨ho, hd, hv⟩
    refine ⟨u.fab.host, ?_⟩
    simp only [ctxCreate, hr, hu.overQuota, hq, hu.newIndex, hu.obj, setObj]
    exact ⟨rfl, rfl⟩
  · intro s c h k init shared mirror hf hn hm hc hq
    refine answers_create rfl hf hn (fun u hu => ?_) fun v ho hd hv => ⟨ho, hd, hv⟩
    let x : Fence := { func := c.func.val, ctx := k, value := init, shared := decide (shared.toNat % 2 = 1), lost := false,
                       stale := 0, mirror := mirror }
    obtain ⟨m, hw⟩ := mirrorWrite_host (setFence u (newIndex s 3 c.index) x) x
    refine ⟨m, ?_⟩
    simp only [fenceCreate, hm, hu.ctxUse, hc, hu.overQuota, hq, hu.newIndex]
    rw [if_neg (by simp), if_neg (by simp), hw]
    simp only [setFence, setObj, hu.obj]
    exact ⟨rfl, trivial⟩
  · intro s c h k v step x hf hn hk hx hq hv
    refine answers_create rfl hf hn (fun u hu => ?_) fun v ho hd hv => ⟨ho, hd, hv⟩
    refine ⟨u.fab.host, ?_⟩
    simp only [eventCreate, hu.fenceOf, hk, hu.overQuota, hq, hu.newIndex, hu.obj, hx]
    rw [if_neg (by simp), fireEvent_not_reached (x := x) (tget_tset_same _ _ _) hx hv]
    exact ⟨rfl, rfl⟩
  · intro s c h k hf hn hc hq
    refine answers_create rfl hf hn (fun u hu => ?_) fun v ho hd hv => ⟨ho, hd, hv⟩
    refine ⟨u.fab.host, ?_⟩
    simp only [graphCreate, hu.ctxUse, hc, hu.overQuota, hq, hu.newIndex, hu.obj, setObj]
    exact ⟨rfl, rfl⟩

end

section
/-! Proofs: Q_CREATE (spec/03 R91, spec/05 R156). -/

namespace Sys2Proof.Machine

theorem Taken.bindUnit {s u : State} (h : Taken s u) (cls : Nat) : bindUnit u cls = bindUnit s cls := by
  obtain ⟨_, _, _, _, rfl⟩ := h
  rfl

theorem Taken.fenceUse {s u : State} (h : Taken s u) (f c n : Nat) : fenceUse u f c n = fenceUse s f c n := by
  obtain ⟨_, _, _, _, rfl⟩ := h
  rfl

theorem Taken.ctxOf {s u : State} (h : Taken s u) (c : Nat) : ctxOf u c = ctxOf s c := by
  obtain ⟨_, _, _, _, rfl⟩ := h
  rfl

theorem Taken.admits {s u : State} (h : Taken s u) (x : Queue) : admits u x = admits s x := by
  obtain ⟨_, _, _, _, rfl⟩ := h
  rfl

/-- A context that a function may use: its name is good, it is the function's and it is ACTIVE. -/
theorem ctxUse_ok {s : State} {f n k : Nat} (h : ctxUse s f n = .ok k) :
    nameObj s 1 n = .ok k ∧ ∃ x, ctxOf s k = some x ∧ x.func = f ∧ x.st = .active := by
  unfold ctxUse at h
  split at h
  · cases h
  · rename_i c hc
    split at h
    · cases h
    · rename_i x hx
      split at h
      · cases h
      · rename_i hf
        unfold ctxStateError at h
        split at h
        · cases h
        · rename_i hs
          cases h
          refine ⟨hc, x, hx, not_not.1 hf, ?_⟩
          split at hs
          · assumption
          · cases hs
          · cases hs

/-- A completion fence that a context may use has a good name. -/
theorem fenceUse_name {s : State} {f c n : Nat} (h : fenceUse s f c n = .ok ()) :
    ∃ k, (if n = 0 then Except.ok 0 else nameObj s 3 n) = .ok k := by
  unfold fenceUse at h
  split at h
  · rename_i hn
    exact ⟨0, if_pos hn⟩
  · rename_i hn
    split at h
    · cases h
    · rename_i k hk
      exact ⟨k, (if_neg hn).trans hk⟩

/-- A best-effort queue within quota, of a context and a fence that may be used. -/
theorem queueOf_bestEffort {s : State} {f h cls ring entries fence k u : Nat} (hr : ring % 4096 = 0) (hc : cls < 7)
    (hk : ctxUse s f h = .ok k) (hf : fenceUse s f k fence = .ok ()) (hq : overQuota s 2 f = false) (hu : bindUnit s cls = some u) :
    queueOf f h cls ring entries 0 fence s = .ok (newQueue f k cls ring (clampPow2 6 16 entries) 0 fence u 0xFF (0, 0, 0)) := by
  obtain ⟨hn, x, hx, hxf, hxa⟩ := ctxUse_ok hk
  obtain ⟨j, hj⟩ := fenceUse_name hf
  unfold queueOf
  rw [if_neg (by omega)]
  simp only [hn, hj, hx, hxf, hxa, hf, hq, hu]
  simp

/-- What a queue's parameters give with each kind of queue, where they give one of some kind: it is best effort, or its budget block
decides. -/
theorem queueOf_kinds {s : State} {f h cls ring entries rt fence : Nat} {x : Queue}
    (hx : queueOf f h cls ring entries rt fence s = .ok x) : ∃ c u, ∀ rt', queueOf f h cls ring entries rt' fence s =
      if rt' = 0 then .ok (newQueue f c cls ring (clampPow2 6 16 entries) 0 fence u 0xFF (0, 0, 0))
      else match budgetEntry cls (fwRead64 s c ring) with
        | none => .error stAdmit
        | some b =>
          if cls < 3 then
            match slotOfCtx s h with
            | none => .error stAdmit
            | some n => .ok (newQueue f c cls ring (clampPow2 6 16 entries) 1 fence u n b)
          else .ok (newQueue f c cls ring (clampPow2 6 16 entries) 1 fence u 0xFF b) := by
  unfold queueOf at hx ⊢
  dsimp only at hx ⊢
  split at hx
  · cases hx
  · rename_i h0
    split at hx
    · cases hx
    · cases hx
    · cases hx
    · cases hx
    · cases hx
    · rename_i c hn _ _
      split at hx
      · cases hx
      · rename_i y hy
        split at hx
        · cases hx
        · rename_i hf
          split at hx
          · cases hx
          · split at hx
            all_goals
              split at hx
              · cases hx
              · rename_i hl
                split at hx
                · cases hx
                · rename_i hd
                  split at hx
                  · cases hx
                  · rename_i hq
                    split at hx
                    · cases hx
                    · rename_i u _
                      exact ⟨c, u, fun rt' => by rw [if_neg h0, if_neg hf, if_neg hl, if_neg hd, if_neg hq] <;> rfl⟩

/-- A real-time queue's budget block is read, so no access to it fails. -/
theorem fwRead64_ok {s : State} {c va : Nat} (h : fwRead64 s c va ≠ none) : fwReadBad s c va = false := by
  unfold fwRead64 at h
  unfold fwReadBad
  split at h
  all_goals simp_all

/-- The parameters of a real-time queue give one: it is real time, and its budget block has been read. -/
theorem queueOf_realTime {s : State} {f h cls ring entries fence : Nat} {x : Queue}
    (hx : queueOf f h cls ring entries 1 fence s = .ok x) : x.rt = true ∧ ∀ y, queueOf f h cls ring entries 0 fence s = .ok y →
      fwReadBad s y.ctx ring = false := by
  obtain ⟨c, u, hk⟩ := queueOf_kinds hx
  have h1 := (hk 1).symm.trans hx
  rw [if_neg (by decide)] at h1
  have h0 := hk 0
  rw [if_pos rfl] at h0
  split at h1
  · cases h1
  · rename_i b hb
    have hread : fwRead64 s c ring ≠ none := fun hn => by simp [hn, budgetEntry] at hb
    refine ⟨?_, fun y hy => ?_⟩
    · split at h1
      · split at h1
        · cases h1
        · cases h1
          rfl
      · cases h1
        rfl
    · cases h0.symm.trans hy
      exact fwRead64_ok hread

/-- A completion of a command leaves the records of real-time admission to the day book. -/
theorem admitTrace_only (given st : Nat) (r : Except Nat Queue) (before s : State) :
    Only [.fab, .fw, .free] s (admitTrace given r before st s) := by
  unfold admitTrace
  split
  · exact .refl _ s
  · exact .ite (fun _ => .refl _ s) fun _ => .ite (fun _ => (trace_only _ _ _ _ _).mono (by simp)) fun _ =>
      ((drew_only s).mono (by simp)).trans ((trace_only _ _ _ _ _).mono (by simp))

/-- A budget block that is read loses no context. -/
theorem budgetCheck_read {f h cls ring entries rt fence : Nat} {before s : State}
    (hr : ∀ y, queueOf f h cls ring entries 0 fence before = .ok y → rt = 0 ∨ fwReadBad before y.ctx ring = false) :
    budgetCheck f h cls ring entries rt fence before s = s := by
  unfold budgetCheck
  split
  · rename_i y hy
    rw [if_neg]
    rintro ⟨h0, hb⟩
    rcases hr y hy with h' | h'
    · exact h0 h'
    · rw [h'] at hb
      cases hb
  · rfl

/-- What a walk finds: it reads the tables in memory, whatever it then puts in the caches. -/
theorem walk_result (s : State) (walker : Nat) (fromRoot : Bool) (path : List Nat) (asid va : Nat) :
    (walk s walker fromRoot path asid va).2 =
      (walkFrom s.fab.mem walker asid va (4 - (walkFirst s walker fromRoot asid va).1) (walkFirst s walker fromRoot asid va).1
        (walkFirst s walker fromRoot asid va).2).2 := by
  unfold walk
  dsimp only
  split
  · rfl
  · rfl

theorem fwTrans_setFn (s : State) (g : Nat) (y : Fn) (c va : Nat) : fwTrans (setFn s g y) c va = fwTrans s c va := by
  unfold fwTrans
  rw [walk_result, walk_result]
  rfl

theorem fwRead64_setFn (s : State) (g : Nat) (y : Fn) (c va : Nat) : fwRead64 (setFn s g y) c va = fwRead64 s c va := by
  unfold fwRead64
  rw [fwTrans_setFn]
  rfl

theorem fenceUse_setFn (s : State) (g : Nat) (y : Fn) (f c n : Nat) : fenceUse (setFn s g y) f c n = fenceUse s f c n := rfl

theorem nameObj_setFn (s : State) (g : Nat) (y : Fn) (ty n : Nat) : nameObj (setFn s g y) ty n = nameObj s ty n := rfl

/-- The parameters of a queue do not speak of the functions' records. -/
theorem queueOf_setFn (s : State) (g : Nat) (y : Fn) (f h cls ring entries rt fence : Nat) :
    queueOf f h cls ring entries rt fence (setFn s g y) = queueOf f h cls ring entries rt fence s := by
  have hc (c : Nat) : ctxOf (setFn s g y) c = ctxOf s c := rfl
  have hq : overQuota (setFn s g y) 2 f = overQuota s 2 f := rfl
  have hu : bindUnit (setFn s g y) cls = bindUnit s cls := rfl
  have hs : slotOfCtx (setFn s g y) h = slotOfCtx s h := rfl
  unfold queueOf
  simp only [fwRead64_setFn, fenceUse_setFn, nameObj_setFn, hc, hq, hu, hs]

/-- Q_CREATE makes the queue that its parameters give, unless it is a real-time one that is not admitted. -/
theorem qCreate_ok {given f h cls ring entries rt fence : Nat} {s : State} {x : Queue}
    (hx : queueOf f h cls ring entries rt fence s = .ok x) (ha : x.rt = false ∨ admits s x = true) :
    (qCreate given f h cls ring entries rt fence s).1 = setObj s { s.obj with queues := tset s.obj.queues (newIndex s 2 given) x } ∧
      (qCreate given f h cls ring entries rt fence s).2.1 = stOk := by
  unfold qCreate
  simp only [hx]
  rw [if_neg (by rcases ha with h | h <;> simp [h])]
  exact ⟨rfl, rfl⟩

theorem qCreate_unadmitted {given f h cls ring entries rt fence : Nat} {s : State} {x : Queue}
    (hx : queueOf f h cls ring entries rt fence s = .ok x) (hr : x.rt = true) (ha : admits s x = false) :
    qCreate given f h cls ring entries rt fence s = (s, stAdmit, 0) := by
  unfold qCreate
  simp only [hx]
  rw [if_pos (by simp [hr, ha])]

/-- What follows the operation of Q_CREATE: the record of its admission, and the loss where its budget block was not read. -/
def qCreatePost (s : State) (c : Call) (ctx cls entries rt fence : W32) (ring : W64) (st : Nat) (t : State) : State :=
  budgetCheck c.func.val ctx.toNat cls.toNat ring.toNat entries.toNat (rt.toNat % 2) fence.toNat s
    (admitTrace c.index (queueOf c.func.val ctx.toNat cls.toNat ring.toNat entries.toNat (rt.toNat % 2) fence.toNat s) s st t)

/-- Q_CREATE where it is neither held back nor turned away: its operation, what follows it, and its completion. -/
theorem answers_qCreate {s t : State} {c : Call} {ctx cls entries rt fence : W32} {ring : W64} {st : Nat} {P : State → Prop}
    (h : fwTakes s c.func = true) (hn : CreatesNow s 2 c.index)
    (hst : (qCreate c.index c.func.val ctx.toNat cls.toNat ring.toNat entries.toNat (rt.toNat % 2) fence.toNat
      (fwTake s c.func.val 0x10)).2.1 = st)
    (ht : qCreatePost s c ctx cls entries rt fence ring st (if st = stOk ∨ st = stDeferred then
      (qCreate c.index c.func.val ctx.toNat cls.toNat ring.toNat entries.toNat (rt.toNat % 2) fence.toNat (fwTake s c.func.val
          0x10)).1
        else fwTake s c.func.val 0x10) = t)
    (hc : SameFn Fn.counts (fwTake s c.func 0x10) t) (hP : ∀ v, FwDone c s v → Only [.fns, .fab, .fw] t v → P v) :
    Answers (.qCreate c ctx cls ring entries rt fence) s P := by
  have hb := busyOnB_now (op := qCreate c.index c.func.val ctx.toNat cls.toNat ring.toNat entries.toNat (rt.toNat % 2) fence.toNat)
    (s := fwTake s c.func.val 0x10) (by rw [(fwTake_taken s c.func.val 0x10).twin]; exact hn.2)
  subst hst
  refine answers_fwCommandWith (congrArg _ (if_neg (by simp [hn.1]))) h (Prod.ext (by rw [hb]) rfl) ?_ hc hP
  rw [hb]
  exact ht

end Sys2Proof.Machine

open Sys2Proof Sys2Proof.Machine

/-- Settles O15: what the parameters give is the queue that is made, and of a real-time one admission decides. -/
theorem queueCreateMakesAnActiveQueue : Obligations.QueueCreateMakesAnActiveQueue := by
  constructor
  · intro s c ctx cls entries rt fence ring k u hf hn hrt hring hcls hk hfe hq hu
    have ht := fwTake_taken s c.func.val 0x10
    let y := newQueue c.func.val k cls.toNat ring.toNat (clampPow2 6 16 entries.toNat) 0 fence.toNat u 0xFF (0, 0, 0)
    have hy : y = { Queue.window with func := c.func.val, ctx := k, cls := cls.toNat, ring := ring, rt := false,
                                      fence := fence, entries := clampPow2 6 16 entries.toNat, unit := u, slot := 0xFF,
                                      bQc := 0, bHb := 0, bUc := 0 } := by
      simp [y, newQueue]
    have hs := queueOf_bestEffort (entries := entries.toNat) hring hcls hk hfe hq hu
    have hqu := queueOf_bestEffort (s := fwTake s c.func.val 0x10) (entries := entries.toNat) hring hcls (by rw [ht.ctxUse, hk])
      (by rw [ht.fenceUse, hfe]) (by rw [ht.overQuota, hq]) (by rw [ht.bindUnit, hu])
    obtain ⟨h1, h2⟩ := qCreate_ok (given := c.index) hqu (.inl rfl)
    let w := fwTake s c.func.val 0x10
    let t := setObj w { w.obj with queues := tset w.obj.queues (newIndex w 2 c.index) y }
    have hpost (st : Nat) (t : State) : qCreatePost s c ctx cls entries rt fence ring st t = t := by
      unfold qCreatePost
      rw [hrt, budgetCheck_read fun _ _ => .inl rfl, hs]
      rfl
    refine answers_qCreate hf hn (st := stOk) (t := t) (by rw [hrt, h2]) ((hpost _ _).trans ((if_pos (.inl rfl)).trans
        (by rw [hrt]; exact h1))) (.of_eq rfl) fun v hd hv => ?_
    refine ⟨?_, rfl, rfl, hd, ?_⟩
    · rw [show v.obj = _ from hv .obj (by decide), setObj_obj, ht.obj, ht.newIndex, ← hy]
    · exact ((ht.only.mono (by simp)).trans ((setObj_only _ _).mono (by simp))).trans (hv.mono (by simp))
  · intro s c ctx cls entries rt fence ring x hf hg hn hrt hx
    have ht := fwTake_taken s c.func.val 0x10
    obtain ⟨hxr, hread⟩ := queueOf_realTime hx
    have hqu : queueOf c.func.val ctx.toNat cls.toNat ring.toNat entries.toNat 1 fence.toNat (fwTake s c.func.val 0x10) = .ok x :=
        by
      rw [fwTake_unlogged hg, queueOf_setFn, hx]
    have hpost (st : Nat) (t : State) : qCreatePost s c ctx cls entries rt fence ring st t = admitTrace c.index (.ok x) s st t := by
      unfold qCreatePost
      rw [hrt, budgetCheck_read fun y hy => .inr (hread y hy), hx]
    by_cases ha : admits s x = true
    · obtain ⟨h1, h2⟩ := qCreate_ok (given := c.index) hqu (.inr (by rw [ht.admits, ha]))
      have hp := admitTrace_only c.index stOk (.ok x) s (setObj (fwTake s c.func.val 0x10)
        { (fwTake s c.func.val 0x10).obj with
          queues := tset (fwTake s c.func.val 0x10).obj.queues (newIndex (fwTake s c.func.val 0x10) 2 c.index) x })
      refine answers_qCreate hf hn (st := stOk) (by rw [hrt, h2]) ((hpost _ _).trans (congrArg _ ((if_pos (.inl rfl)).trans
          (by rw [hrt]; exact h1)))) (.of_eq (hp .fns (by decide)))
        fun v hd hv => ⟨fun _ => ?_, fun h => absurd (ha.symm.trans h) (by decide), hd, ?_⟩
      · rw [show v.obj = _ from hv .obj (by decide), show State.obj _ = _ from hp .obj (by decide), setObj_obj, ht.obj, ht.newIndex]
      · exact (((ht.only.mono (by simp)).trans ((setObj_only _ _).mono (by simp))).trans (hp.mono (by simp))).trans (hv.mono
            (by simp))
    · rw [Bool.not_eq_true] at ha
      have h1 := qCreate_unadmitted (given := c.index) hqu hxr (by rw [ht.admits, ha])
      have hp := admitTrace_only c.index stAdmit (.ok x) s (fwTake s c.func.val 0x10)
      refine answers_qCreate hf hn (st := stAdmit) (by rw [hrt, h1]) ((hpost _ _).trans (congrArg _ (if_neg (by decide)))) (.of_eq
          (hp .fns (by decide)))
        fun v hd hv => ⟨fun h => absurd (ha.symm.trans h) (by decide), fun _ => ?_, hd, ?_⟩
      · rw [show v.obj = _ from hv .obj (by decide), show State.obj _ = _ from hp .obj (by decide), ht.obj]
      · exact ((ht.only.mono (by simp)).trans (hp.mono (by simp))).trans (hv.mono (by simp))

end

section
/-! Proofs: a cycle of the fence unit (spec/03 R85 to R90). -/

namespace Sys2Proof.Machine

/-! ## The latest of the accepted signals -/

/-- Of two values in the half circle ahead of a third, the one further ahead is the later. -/
theorem later_iff_of_ahead {v a b : W64} (ha : (a - v).toNat < 2 ^ 63) (hb : (b - v).toNat < 2 ^ 63) :
    later a b = true ↔ (b - v).toNat < (a - v).toNat := by
  rw [later_iff]
  have h : a - b = (a - v) - (b - v) := by ring
  have := (a - v).isLt
  have := (b - v).isLt
  rw [h, BitVec.toNat_sub]
  omega

theorem ahead_of_later {v a : W64} (h : later a v = true) : (a - v).toNat < 2 ^ 63 := by
  have := (later_iff a v).1 h
  omega

/-- A fold that takes the later of two values keeps the furthest ahead of those in the half circle. -/
theorem foldl_later (v : W64) (l : List W64) (m : W64) (hm : (m - v).toNat < 2 ^ 63) (hl : ∀ a ∈ l, (a - v).toNat < 2 ^ 63) :
    let r := l.foldl (fun m a => if later a m then a else m) m
    (r - v).toNat < 2 ^ 63 ∧ (r = m ∨ r ∈ l) ∧ (m - v).toNat ≤ (r - v).toNat ∧ ∀ a ∈ l, (a - v).toNat ≤ (r - v).toNat := by
  induction l generalizing m with
  | nil => exact ⟨hm, .inl rfl, le_rfl, by simp⟩
  | cons b l ih =>
    obtain ⟨hb, hl⟩ := List.forall_mem_cons.1 hl
    rw [List.foldl_cons]
    split
    · rename_i hlt
      have hlt := (later_iff_of_ahead hb hm).1 hlt
      obtain ⟨h1, h2, h3, h4⟩ := ih b hb hl
      exact ⟨h1, .inr (List.mem_cons.2 h2), by omega, List.forall_mem_cons.2 ⟨h3, h4⟩⟩
    · rename_i hlt
      rw [later_iff_of_ahead hb hm] at hlt
      obtain ⟨h1, h2, h3, h4⟩ := ih m hm hl
      exact ⟨h1, h2.imp id fun h => List.mem_cons_of_mem _ h, h3, List.forall_mem_cons.2 ⟨by omega, h4⟩⟩

/-- The latest value is one of the accepted signals or the old one, and no accepted signal is later than it. -/
theorem latest_spec (v : W64) (sigs : List W64) :
    (latest v sigs = v ∨ (latest v sigs ∈ sigs ∧ later (latest v sigs) v = true)) ∧
      ∀ a ∈ sigs, later a v = true → later a (latest v sigs) = false := by
  have hl : ∀ a ∈ sigs.filter (fun a => later a v), (a - v).toNat < 2 ^ 63 := fun a ha =>
    ahead_of_later (List.mem_filter.1 ha).2
  obtain ⟨h1, h2, -, h4⟩ := foldl_later v (sigs.filter fun a => later a v) v (by simp) hl
  constructor
  · exact h2.imp id fun h => List.mem_filter.1 h
  · intro a ha hlt
    have hle := h4 a (List.mem_filter.2 ⟨ha, hlt⟩)
    rw [← Bool.not_eq_true, show later a (latest v sigs) = true ↔ _ from later_iff_of_ahead (ahead_of_later hlt) h1]
    exact not_lt.2 hle

/-! ## What a cycle leaves -/

/-- An event fires without touching objects other than the events. -/
theorem fireEvent_obj (s : State) (e : Nat) : ∃ es gs, (fireEvent s e).obj = { s.obj with events := es, gens := gs } := by
  unfold fireEvent
  split
  · exact ⟨s.obj.events, s.obj.gens, rfl⟩
  · split
    · exact ⟨s.obj.events, s.obj.gens, rfl⟩
    · split
      · exact ⟨s.obj.events, s.obj.gens, rfl⟩
      · have he {f k st r a b v} : (eventRec s f k st r a b v).obj = s.obj := eventRec_only s f k st r a b v .obj (by decide)
        dsimp only
        split
        · exact ⟨_, _, by rw [setObj_obj, he]; rfl⟩
        · exact ⟨_, s.obj.gens, by rw [setObj_obj, he]⟩

theorem fireEvents_obj (l : List Nat) (s : State) : ∃ es gs, (l.foldl fireEvent s).obj = { s.obj with events := es, gens := gs } :=
    by
  induction l generalizing s with
  | nil => exact ⟨s.obj.events, s.obj.gens, rfl⟩
  | cons e l ih =>
    obtain ⟨_, _, he⟩ := fireEvent_obj s e
    obtain ⟨es, gs, h⟩ := ih (fireEvent s e)
    exact ⟨es, gs, by rw [List.foldl_cons, h, he]⟩

theorem fireEvent_counts (s : State) (e : Nat) : SameFn Fn.counts s (fireEvent s e) := by
  unfold fireEvent
  split
  · exact .of_eq rfl
  · split
    · exact .of_eq rfl
    · split
      · exact .of_eq rfl
      · dsimp only
        split
        · exact (eventRec_counts _ _ _ _ _ _ _ _).trans (.of_eq rfl)
        · exact (eventRec_counts _ _ _ _ _ _ _ _).trans (.of_eq rfl)

theorem SameFn.foldl {β γ : Type} {p : Fn → β} {f : State → γ → State} (hf : ∀ s b, SameFn p s (f s b)) (l : List γ) (s : State) :
    SameFn p s (l.foldl f s) := by
  induction l generalizing s with
  | nil => exact fun _ => rfl
  | cons b l ih => exact (hf s b).trans (ih _)

theorem mirrorWrite_counts (s : State) (x : Fence) : SameFn Fn.counts s (mirrorWrite s x) := by
  obtain ⟨m, h⟩ := mirrorWrite_host s x
  exact .of_eq (by rw [h])

theorem fenceCycle_counts (s : State) (f : Nat) (sigs : List W64) : SameFn Fn.counts s (fenceCycle s f sigs) := by
  unfold fenceCycle
  split
  · exact .of_eq rfl
  · dsimp only
    split
    · exact .of_eq rfl
    · have hm {x y} : SameFn Fn.counts s (mirrorWrite (setFence s f x) y) := SameFn.trans (.of_eq rfl) (mirrorWrite_counts
          (setFence s f x) y)
      exact (hm.trans (SameFn.foldl fireEvent_counts _ _)).trans (.of_eq rfl)

theorem releaseDesc_idx (f : Nat) (v : W64) (d : Desc) : (releaseDesc f v d).idx = d.idx := by
  unfold releaseDesc
  split <;> rfl

/-- The objects after a cycle of a fence: the fence has its new value, events may have fired, and waits may be over. -/
theorem fenceCycle_obj {s : State} {f : Nat} {x : Fence} (hx : tget s.obj.fences f = some x) (sigs : List W64) :
    ∃ es gs ls g, (fenceCycle s f sigs).obj = { s.obj with fences := tset s.obj.fences f (fenceAfter x sigs), events := es, gens :=
        gs
                                                           launches := ls
                                                           queues := tmap s.obj.queues fun _ z => { z with recs := z.recs.map g } }
                                                               ∧
      ∀ d, (g d).idx = d.idx := by
  have hid : s.obj.queues = tmap s.obj.queues fun _ z => { z with recs := z.recs.map id } := by
    simp [tmap]
  unfold fenceCycle
  rw [hx]
  dsimp only
  split
  · exact ⟨s.obj.events, s.obj.gens, s.obj.launches, id, by rw [← hid]; rfl, fun _ => rfl⟩
  · obtain ⟨m, hm⟩ := mirrorWrite_host (setFence s f (fenceAfter x sigs)) (fenceAfter x sigs)
    have hw : (mirrorWrite (setFence s f (fenceAfter x sigs)) (fenceAfter x sigs)).obj =
        { s.obj with fences := tset s.obj.fences f (fenceAfter x sigs) } := by rw [hm]; rfl
    generalize mirrorWrite (setFence s f (fenceAfter x sigs)) (fenceAfter x sigs) = w at hw
    obtain ⟨es, gs, he⟩ := fireEvents_obj (eventsOn w.obj f) w
    rw [setObj_obj, he, hw]
    exact ⟨es, gs, _, releaseDesc f (fenceAfter x sigs).value, rfl, releaseDesc_idx f _⟩

/-- A queue of a table in which only the descriptors' fields changed. -/
theorem getQ_recs_idx {s t : State} {g : Desc → Desc} (hg : ∀ d, (g d).idx = d.idx)
    (h : t.obj.queues = tmap s.obj.queues fun _ z => { z with recs := z.recs.map g }) {q : Nat} {y : Queue} (hy : getQ t q = some
        y) :
    y.recs.map (·.idx) = ((getQ s q).map fun z => z.recs.map (·.idx)).getD [] := by
  have hr (l : List Desc) : (l.map g).map (·.idx) = l.map (·.idx) := by
    rw [List.map_map]
    exact List.map_congr_left fun d _ => hg d
  have hq (k : Nat) : tget t.obj.queues k = (tget s.obj.queues k).map fun z => { z with recs := z.recs.map g } := by
    rw [h, tget_tmap]
  unfold getQ at hy ⊢
  split at hy
  · rename_i hk
    cases hy
    rw [if_pos hk, tgetD, hq, tgetD]
    cases tget s.obj.queues winKey with
    | none => rfl
    | some z => exact hr z.recs
  · rename_i hk
    rw [if_neg hk]
    rw [hq] at hy
    cases hz : tget s.obj.queues q with
    | none => simp [hz] at hy
    | some z =>
      rw [hz] at hy
      cases hy
      exact hr z.recs

/-- A fence that a function may use has not lost its context. -/
theorem fenceOf_ok {s : State} {f n k : Nat} (h : fenceOf s f n = .ok k) :
    nameObj s 3 n = .ok k ∧ ∃ x, tget s.obj.fences k = some x ∧ x.func = f ∧ x.lost = false := by
  unfold fenceOf at h
  split at h
  · cases h
  · rename_i j hj
    split at h
    · cases h
    · rename_i x hx
      split at h
      · cases h
      · rename_i hf
        split at h
        · cases h
        · rename_i hl
          cases h
          exact ⟨hj, x, hx, not_not.1 hf, by simpa using hl⟩

end Sys2Proof.Machine

open Sys2Proof Sys2Proof.Machine

/-- Settles O17: the fold over the accepted signals keeps the one furthest ahead of VALUE as it stood. -/
theorem fenceTakesTheLatestSignal : Obligations.FenceTakesTheLatestSignal := by
  intro s c h k v others x hf hk hx
  have ht := fwTake_taken s c.func.val 0x19
  generalize hw : fwTake s c.func.val 0x19 = u at ht
  have hux : tget u.obj.fences k = some x := by rw [ht.obj, hx]
  obtain ⟨es, gs, ls, g, hobj, hg⟩ := fenceCycle_obj hux (v :: others)
  obtain ⟨hl1, hl2⟩ := latest_spec x.value (v :: others)
  have hlost : x.lost = false := by
    obtain ⟨-, y, hy, -, hl⟩ := fenceOf_ok hk
    cases hx.symm.trans hy
    exact hl
  refine answers_fwCommand (t := fenceCycle u k (v :: others)) (st := stOk) (res := 0) rfl hf ?_ (.inl rfl) ?_ fun t hd hv => ?_
  · rw [hw]
    simp [fenceSignal, ht.fenceOf, hk]
  · rw [hw]
    exact fenceCycle_counts u k _
  · have hvo : t.obj = _ := (hv .obj (by decide)).trans hobj
    have ha : fenceAfter x (v :: others) = { x with
        value := latest x.value (v :: others), stale := satAdd 0xFFFF x.stale (staleCount x.value (v :: others)) } := by
      rw [fenceAfter, if_neg (by simp [hlost])]
    refine ⟨fenceAfter x (v :: others), by rw [hvo]; exact tget_tset_same _ _ _, ?_⟩
    rw [ha]
    refine ⟨hl2, hl1, rfl, rfl, rfl, rfl, rfl, fun m hm => ?_, fun q y hy => ?_, hd⟩
    · rw [hvo, ← ht.obj]
      exact tget_tset_other _ _ hm
    · exact getQ_recs_idx (s := s) hg (by rw [hvo, ← ht.obj]) hy

end

section
/-! Proofs: the queries, the setters and the rings of a function (spec/03 R66, R67, R84, R91, R99, spec/17 R509). -/

namespace Sys2Proof.Machine

/-! ## The completion of a command that writes nothing else -/

/-- An interrupt of a masked vector writes nothing. -/
theorem raiseMsix_masked {s : State} {f v : Nat} (h : bit (msixWord (fnOf s f) (2 * v + 1)) 32 = true) :
    Only [.fns] s (raiseMsix s f v) := by
  unfold raiseMsix
  dsimp only
  by_cases hb : s.fw.boot ≠ .running ∨ vectorsOf f ≤ v
  · rw [if_pos hb]
    exact .refl _ s
  · rw [if_neg hb, if_pos h]
    exact .ite (fun _ => .refl _ s) fun _ => setFn_only _ _ _

/-- The place of the next completion record, and its words (R509). -/
def cplAddr (x : Fn) : Nat := ringAddr x.cplBase + 32 * (x.written.toNat % ringLog2 x.cplBase)

def cplWord (x : Fn) (tag : W32) (status result : Nat) : Nat :=
  result * 2 ^ 128 + tag.toNat * 2 ^ 96 + (if (x.written.toNat / ringLog2 x.cplBase) % 2 = 0 then 1 else 0) * 2 ^ 63 + status

/-- A completion: the record, the count, the marginalia and the interrupt. -/
theorem fwComplete_eq (s : State) (f cmd : Nat) (tag : W32) (status result : Nat) : fwComplete s f cmd tag status result =
    raiseMsix (trace (setFn (hostWrite s (cplAddr (fnOf s f)) (toLE 32 (cplWord (fnOf s f) tag status result))) f
      { fnOf s f with written := (fnOf s f).written + 1 }) 2 1 f (cmd + status * 2 ^ 32)) f 0 := by
  unfold fwComplete cplAddr cplWord
  dsimp only

/-- Group 2 off and the vector masked, a completion changes the function's record and the bytes of its record in host memory. -/
theorem fwComplete_masked {s : State} {f cmd : Nat} {tag : W32} {status result : Nat} (hg : s.fw.groups.toNat.testBit 2 = false)
    (hm : bit (msixWord (fnOf s f) 1) 32 = true) :
    (fwComplete s f cmd tag status result).fab.host =
        mwrite s.fab.host (cplAddr (fnOf s f)) (toLE 32 (cplWord (fnOf s f) tag status result)) ∧
      Only [.fns, .fab] s (fwComplete s f cmd tag status result) := by
  rw [fwComplete_eq]
  generalize toLE 32 (cplWord (fnOf s f) tag status result) = w
  generalize cplAddr (fnOf s f) = a
  let u := setFn (hostWrite s a w) f { fnOf s f with written := (fnOf s f).written + 1 }
  have ht (k : Nat) : trace u 2 1 f k = u := if_neg (by rw [show u.fw = s.fw from rfl, hg]; decide)
  have hr : Only [.fns] u (raiseMsix u f 0) := raiseMsix_masked (by rw [show fnOf u f = _ from fnOf_setFn_same _ _ _]; exact hm)
  have hu : Only [.fns, .fab] s u :=
    ((hostWrite_only s _ _).mono (by simp)).trans ((setFn_only (hostWrite s _ _) f _).mono (by simp))
  have hh : u.fab.host = mwrite s.fab.host a w := rfl
  have hf : (raiseMsix u f 0).fab = u.fab := hr .fab (by decide)
  rw [ht]
  exact ⟨by rw [hf, hh], hu.trans (hr.mono (by simp))⟩

/-- A command with the marginalia off and the vector masked: its operation leaves host memory, and its completion is its only
    write. -/
theorem answers_query {s : State} {c : Call} {cmd res : Nat} {op : State → State × Nat × Nat} {i : Instr} {o : Objects}
    {P : State → Prop} (hx : exec i s = .next (fwCommand s c cmd op)) (h : fwTakes s c.func = true) (hw : memOk s = true)
    (hg : s.fw.groups.toNat.testBit 2 = false) (hm : bit (msixWord (fnOf s c.func) 1) 32 = true)
    (ho : ∀ u, Taken s u → op u = (setObj u o, stOk, res))
    (hP : ∀ v, v.obj = o → mread v.fab.host (cplAddr (fnOf s c.func)) 32 = toLE 32 (cplWord (fnOf s c.func) c.tag stOk res) →
      (∀ a, a < cplAddr (fnOf s c.func) ∨ cplAddr (fnOf s c.func) + 32 ≤ a → mget v.fab.host a = mget s.fab.host a) →
      FwDone c s v → Only [.obj, .fns, .fab] s v → P v) : Answers i s P := by
  let x := { fnOf s c.func with taken := (fnOf s c.func).taken + 1 }
  have hu : fwTake s c.func cmd = setFn s c.func x := fwTake_unlogged hg _ _
  let t := setObj (setFn s c.func x) o
  have ht : fnOf t c.func = x := fnOf_setFn_same s _ _
  obtain ⟨hh, hf⟩ := fwComplete_masked (s := t) (f := c.func) (cmd := cmd) (tag := c.tag) (status := stOk) (result := res) hg
      (by rw [ht]; exact hm)
  have hwf : Mem.wf s.fab.host = true := ((memOk_iff s).1 hw).2.1
  have he : fwCommand s c cmd op = fwComplete t c.func cmd c.tag stOk res := by
    rw [fwCommand, fwCommandWith, if_pos h]
    simp only [ho _ (fwTake_taken s c.func cmd)]
    rw [hu]
    exact congrArg (fwComplete · _ _ _ _ _) (if_pos (.inl trivial))
  rw [ht] at hh
  have hl (v : Nat) : (toLE 32 v).length = 32 := toLE_length 32 v
  refine ⟨_, hx, ?_⟩
  rw [he]
  refine hP _ (hf .obj (by decide)) ?_ (fun a ha => ?_) (fwDone_complete (.of_eq (by rw [hu]; rfl))) ?_
  · rw [hh]
    exact (congrArg _ (hl _).symm).trans (mread_mwrite hwf _ _)
  · rw [hh]
    exact mget_mwrite_outside hwf (by rw [hl]; exact ha)
  · exact (((setFn_only s _ _).mono (by simp)).trans ((setObj_only _ _).mono (by simp))).trans (hf.mono (by simp))

end Sys2Proof.Machine

open Sys2Proof Sys2Proof.Machine

/-- Settles O19: neither query moves anything but its fence's STALE, and the record is the completion's only write. -/
theorem queriesReportInTheirCompletion : Obligations.QueriesReportInTheirCompletion := by
  intro s c h k hf hw hg hm e w at' rec'
  have hrec (r : Nat) : cplWord (fnOf s c.func) c.tag stOk r = rec' r := Nat.add_zero _
  constructor
  · intro x hn hx hxf
    refine answers_query rfl hf hw hg hm (res := x.value.toNat + (if x.lost then 1 else 0) * 2 ^ 64 + x.stale * 2 ^ 96)
      (o := { s.obj with fences := tset s.obj.fences k { x with stale := 0 } }) (fun u hu => ?_)
      fun v ho hr hh hd hv => ⟨ho, by rw [← hrec]; exact hr, hh, hd, hv⟩
    simp only [fenceQuery, hu.lookup, hn, hu.obj, hx, hxf]
    simp [setFence, hu.obj]
  · intro x hn hx hxf
    have hr : ∃ n, ∀ u, Taken s u → ctxQuery c.func h.toNat u = (setObj u s.obj, stOk, n % 2 ^ 32 + x.reason * 2 ^ 32) := by
      refine ⟨Config.ctxStateCode (match x.st with | .active => 0 | .lost => 1 | .destroying => 2), fun u hu => ?_⟩
      have ho : setObj u s.obj = u := by rw [← hu.obj]; rfl
      simp only [ctxQuery, hu.lookup, hn, hu.ctxOf, hx, hxf]
      rw [if_neg (by simp), ho] <;> rfl
    obtain ⟨n, hn⟩ := hr
    refine answers_query rfl hf hw hg hm hn fun v ho hr hh hd hv => ⟨ho, ⟨n, by rw [← hrec]; exact hr⟩, hh, hd, ?_⟩
    intro p hp
    by_cases hpo : p = .obj
    · subst hpo; exact ho
    · exact hv p (by simp at hp ⊢; exact ⟨hpo, hp⟩)

end

section
/-! Proofs: the commands that set one field of an object, or place a ring of their function (spec/03 R66, R91, R99, spec/04 R117,
spec/06 R188, spec/16 R476). -/

namespace Sys2Proof.Machine

/-- What a function's record holds of the rings and the table that commands place. -/
def Fn.placed (x : Fn) : Ring × Ring × Option W64 := (x.events, x.faults, x.slow)

/-- An interrupt changes at most what is pending of the function's interrupts. -/
theorem raiseMsix_placed (s : State) (f v : Nat) : SameFn Fn.placed s (raiseMsix s f v) := by
  unfold raiseMsix
  dsimp only
  split
  · exact .of_fns _ rfl
  · split
    · split
      · exact .of_fns _ rfl
      · exact .setFn rfl
    · exact .of_fns _ rfl

/-- A completion leaves what commands have placed. -/
theorem fwComplete_placed (s : State) (f cmd : Nat) (tag : W32) (st res : Nat) :
    SameFn Fn.placed s (fwComplete s f cmd tag st res) := by
  have hset (u : State) (h : u.fns = s.fns) : SameFn Fn.placed s (setFn u f { fnOf s f with written := (fnOf s f).written + 1 }) :=
    (SameFn.of_fns _ h).trans (.setFn (by simp [Fn.placed, fnOf, h]))
  exact ((hset _ (hostWrite_fns _ _ _)).trans (.of_fns _ (trace_fns _ _ _ _ _))).trans (raiseMsix_placed _ _ _)

/-- Taking a command leaves what commands have placed. -/
theorem fwTake_placed (s : State) (f cmd g : Nat) : (fnOf (fwTake s f cmd) g).placed = (fnOf s g).placed := by
  rw [fwTake_fn]
  split
  · rename_i h
    rw [h]
    rfl
  · rfl

/-- A command that puts one record in place of its function's, with the counts as they were, and may write to host memory. -/
theorem answers_place {s : State} {c : Call} {cmd : Nat} {op : State → State × Nat × Nat} {i : Instr} {y : Fn → Fn}
    {P : State → Prop} (hx : exec i s = .next (fwCommand s c cmd op)) (h : fwTakes s c.func = true)
    (ho : ∀ u, ∃ m r, op u = ({ setFn u c.func (y (fnOf u c.func)) with fab := { u.fab with host := m } }, stOk, r))
    (hy : ∀ x, (y x).counts = x.counts)
    (hP : ∀ v x, x.placed = (fnOf s c.func).placed → (fnOf v c.func).placed = (y x).placed → FwDone c s v →
      Only [.fns, .fab, .fw] s v → P v) : Answers i s P := by
  have hu := fwTake_taken s c.func cmd
  obtain ⟨m, r, hop⟩ := ho (fwTake s c.func cmd)
  generalize hw : fwTake s c.func cmd = u at hu hop
  let t : State := { setFn u c.func (y (fnOf u c.func)) with fab := { u.fab with host := m } }
  have hset : SameFn Fn.counts u (setFn u c.func (y (fnOf u c.func))) := .setFn (hy _)
  have hcnt : SameFn Fn.counts u t := hset.trans (.of_fns _ rfl)
  have hcmp := fwComplete_placed t c.func cmd c.tag stOk r c.func.val
  refine ⟨_, hx, ?_⟩
  have he : fwCommand s c cmd op = fwComplete t c.func cmd c.tag stOk r := by
    rw [fwCommand, fwCommandWith, if_pos h]
    simp only [hw, hop, true_or, if_true]
    rfl
  rw [he]
  refine hP _ (fnOf u c.func) (hw ▸ fwTake_placed _ _ _ _) (hcmp.trans ?_) (fwDone_complete (hw ▸ hcnt)) ?_
  · rw [show fnOf t c.func = fnOf (setFn u c.func (y (fnOf u c.func))) c.func from rfl, fnOf_setFn_same]
  · exact hu.only.trans (Only.trans (fun p hp => by cases p <;> first | (simp at hp; done) | rfl) (fwComplete_only _ _ _ _ _ _))

/-- A graph that publishes while its idle slot is free: the slots change places, and the new one has the table and the count. -/
theorem publish_slots (x : Graph) (table : W64) (n : Nat) : let y := publish x table n
    y.func = x.func ∧ y.ctx = x.ctx ∧ (x.cur = none → y.cur = some false ∧ y.a.gen = 1) ∧
      (x.cur = some false → y.cur = some true ∧ y.b.gen = x.a.gen + 1 ∧ y.a = x.a) ∧
      (x.cur = some true → y.cur = some false ∧ y.a.gen = x.b.gen + 1 ∧ y.b = x.b) ∧
      (if y.cur = some true then y.b.table = table ∧ y.b.count = n else y.a.table = table ∧ y.a.count = n) := by
  unfold publish
  rcases hc : x.cur with _ | _ | _ <;> simp

end Sys2Proof.Machine

open Sys2Proof Sys2Proof.Machine

/-- Settles O21: a setter changes one entry of its object table, and a ring or table is one field of the function's record. -/
theorem settersAndRingsChangeTheirFields : Obligations.SettersAndRingsChangeTheirFields := by
  refine ⟨?_, ?_, ?_, ?_, ?_, ?_⟩
  · intro s c f ty quota hf hpf h1 h5 hfn q hsum hcount
    refine answers_objects rfl hf (fun u hu => ⟨u.fab.host, ?_⟩) fun v ho hd hv => ⟨ho, hd, hv⟩
    have hfunc : c.func = 0 := Fin.ext hpf
    rw [pfOnly, if_pos hfunc, quotaSet, if_neg (by omega), hu.obj]
    simp only
    rw [if_neg (not_or.mpr ⟨Nat.not_lt.mpr hsum, Nat.not_lt.mpr hcount⟩)]
    exact ⟨rfl, rfl⟩
  · intro s c h slot root k hf hatt hroot hslot hc
    refine answers_objects rfl hf (fun u hu => ⟨u.fab.host, ?_⟩) fun v ho hd hv => ⟨ho, hd, hv⟩
    have ha : twinAttached u = twinAttached s := by rw [twinAttached, hu.twin, twinAttached]
    have hp : peerSlots u = peerSlots s := by rw [peerSlots, hu.twin, peerSlots]
    have hrange : ¬((root ≠ 0 ∧ (!rootOk root.toNat) = true) ∨
        (slot.toNat ≠ 0xFF ∧ twinAttached u = true ∧ peerSlots u ≤ slot.toNat)) := by
      rw [not_or, hp]
      refine ⟨fun ⟨h0, h1⟩ => ?_, fun ⟨h0, _, h1⟩ => ?_⟩
      · rcases hroot with hr | hr
        · exact h0 hr
        · simp [hr] at h1
      · rcases hslot with hs | hs
        · simp [hs] at h0
        · omega
    rw [ctxStandby, if_neg hrange, hu.ctxUse, hc]
    simp only [ha, hatt, hu.obj]
    exact ⟨rfl, rfl⟩
  · intro s c h count table k x hf ht hk hx hfunc hact hbusy
    refine answers_objects rfl hf (o := { s.obj with graphs := tset s.obj.graphs k (publish x table (clamp 1 4096 count.toNat)) })
      (fun u hu => ⟨u.fab.host, ?_⟩) fun v ho hd hv => ⟨publish x table (clamp 1 4096 count.toNat), ?_, fun m hm => ?_, ?_⟩
    · have hact' : ctxActive u x.ctx = true := by rw [← hact, ctxActive, ctxOf, hu.obj]; rfl
      simp [graphPublish, ht, hu.lookup, hk, hu.obj, hx, hfunc, hact', hbusy, setObj]
    · rw [ho]
      exact tget_tset_same _ _ _
    · rw [ho]
      exact tget_tset_other _ _ hm
    · obtain ⟨h1, h2, h3, h4, h5, h6⟩ := publish_slots x table (clamp 1 4096 count.toNat)
      exact ⟨h1, h2, h3, h4, h5, h6, hd, hv⟩
  · intro s c addr entries vector hf ha hlo hhi
    refine answers_place (y := fun x => { x with events := placeRing x.events addr (clampPow2 8 16 entries.toNat) vector.toNat })
      rfl hf (fun u => ⟨u.fab.host, 0, ?_⟩) (fun _ => rfl) fun v x hx hv hd ho => ?_
    · rw [eventRingSet, if_neg (by simp only [ha]; omega)]
      rfl
    · simp only [Fn.placed, Prod.mk.injEq] at hx hv
      exact ⟨by rw [hv.1, hx.1]; rfl, hv.2.1.trans hx.2.1, hd, ho⟩
  · intro s c addr entries hf ha
    refine answers_place (y := fun x => { x with faults := placeRing x.faults addr (clampPow2 6 12 entries.toNat) 0 })
      rfl hf (fun u => ⟨mwrite u.fab.host (addr.toNat + 8) (toLE 4 (fnOf u c.func).invalTok.toNat), 0, ?_⟩) (fun _ => rfl)
          fun v x hx hv hd ho => ?_
    · rw [faultRingSet, if_neg (by simp [ha])]
      rfl
    · simp only [Fn.placed, Prod.mk.injEq] at hx hv
      exact ⟨by rw [hv.2.1, hx.2.1]; rfl, hv.1.trans hx.1, hd, ho⟩
  · intro s c addr hf ha
    refine answers_place (y := fun x => { x with slow := some addr })
      rfl hf (fun u => ⟨u.fab.host, 0, ?_⟩) (fun _ => rfl) fun v x hx hv hd ho => ?_
    · rw [slowTableSet, if_neg (by simp [ha])]
      rfl
    · simp only [Fn.placed, Prod.mk.injEq] at hx hv
      exact ⟨hv.2.2, hv.1.trans hx.1, hv.2.1.trans hx.2.1, hd, ho⟩
end

section
/-! Proofs: the stream commands (spec/15 R442 to R450). -/

namespace Sys2Proof.Machine

/-- A command whose operation leaves the functions' records, by what its operation leaves and the parts it changes. -/
theorem answers_op {s : State} {c : Call} {cmd : Nat} {op : State → State × Nat × Nat} {i : Instr} (ps : List Part)
    (Q : State → Prop) {P : State → Prop} (hx : exec i s = .next (fwCommand s c cmd op)) (h : fwTakes s c.func = true)
    (ho : ∀ u, Taken s u → (s.fw.groups.toNat.testBit 2 = false → u.fab = s.fab) →
      ∃ t r, op u = (t, stOk, r) ∧ t.fns = u.fns ∧ Only ps u t ∧ Q t)
    (hP : ∀ t v, Q t → Only [.fns, .fab, .fw] t v → FwDone c s v → Only (ps ++ [.fns, .fab, .fw]) s v → P v) :
    Answers i s P := by
  have hu := fwTake_taken s c.func cmd
  obtain ⟨t, r, hop, hfn, hps, hq⟩ := ho _ hu fun hg => by rw [fwTake_unlogged hg]; rfl
  refine answers_fwCommand hx h hop (.inl rfl) (.of_eq hfn) fun v hd hv => hP t v hq hv hd ?_
  exact ((hu.only.mono (by simp +contextual)).trans (hps.mono (by simp +contextual))).trans (hv.mono (by simp +contextual))

theorem Taken.circ {s u : State} (h : Taken s u) : u.circ = s.circ := h.only .circ (by decide)

theorem Taken.streamUse {s u : State} (h : Taken s u) (f n : Nat) : streamUse u f n = streamUse s f n := by
  obtain ⟨_, _, _, _, rfl⟩ := h
  rfl

/-- What a stream's record is checked for is what the ports and the streams hold. -/
theorem streamOpenCheck_circ {s u : State} (h : u.circ = s.circ) (r : Nat) : streamOpenCheck u r = streamOpenCheck s r :=
  calc streamOpenCheck u r = streamOpenCheck { s with circ := u.circ } r := rfl
    _ = streamOpenCheck s r := by rw [h]

/-- The entries of a table whose keys pass a test. -/
theorem tget_filter_key {α : Type} (p : Nat → Bool) (t : Tbl α) (n : Nat) :
    tget (t.filter fun e => p e.1) n = if p n then tget t n else none := by
  induction t with
  | nil => simp
  | cons e t ih =>
    obtain ⟨k, x⟩ := e
    by_cases hp : p k = true
    · rw [List.filter_cons_of_pos (by simpa using hp), tget_cons, tget_cons, ih]
      split
      · rename_i hk
        rw [if_pos (hk ▸ hp)]
      · rfl
    · rw [List.filter_cons_of_neg (by simpa using hp), tget_cons, ih]
      split
      · rename_i hn
        rw [if_neg fun hk : k = n => hp (hk ▸ hn)]
      · rfl

/-- A stream that is open after some are closed was open before, and is not of those. -/
theorem tget_closeStreams {s : State} {p : Nat → Stream → Bool} {n : Nat} {y : Stream}
    (h : tget (closeStreams s p).circ.streams n = some y) : tget s.circ.streams n = some y ∧ p n y = false := by
  simp only [closeStreams] at h
  rw [tget_filter_key fun k => !((s.circ.streams.filter fun e => p e.1 e.2).map (·.1)).contains k] at h
  split at h
  · rename_i hg
    refine ⟨h, Bool.eq_false_iff.2 fun hp => ?_⟩
    have hm : n ∈ (s.circ.streams.filter fun e => p e.1 e.2).map (·.1) :=
      List.mem_map.2 ⟨(n, y), List.mem_filter.2 ⟨tget_mem h, hp⟩, rfl⟩
    simp only [Bool.not_eq_true', List.contains_eq_mem, decide_eq_false_iff_not] at hg
    exact hg hm
  · cases h

/-- Closing the streams of one number leaves the others. -/
theorem tget_closeStreams_key (s : State) (q : Nat → Bool) (n : Nat) :
    tget (closeStreams s fun k _ => q k).circ.streams n = if q n then none else tget s.circ.streams n := by
  cases hq : q n
  · simp only [closeStreams]
    rw [tget_filter_key fun k => !((s.circ.streams.filter fun e => q e.1).map (·.1)).contains k, if_pos]
    · rfl
    · simp only [Bool.not_eq_true', List.contains_eq_mem, decide_eq_false_iff_not, List.mem_map, List.mem_filter]
      rintro ⟨e, ⟨-, he⟩, rfl⟩
      rw [he] at hq
      cases hq
  · cases h : tget (closeStreams s fun k _ => q k).circ.streams n with
    | none => rfl
    | some y => exact absurd ((tget_closeStreams h).2.symm.trans hq) (by decide)

/-- A key and its salt are the 36 bytes of a key record. -/
theorem mread_add (m : Mem) (a i j : Nat) : mread m a (i + j) = mread m a i ++ mread m (a + i) j := by
  induction i generalizing a with
  | zero => simp [mread]
  | succ i ih => rw [Nat.add_right_comm, mread, mread, ih, Nat.add_right_comm, Nat.add_assoc, List.cons_append]

/-- A stream that a function may use is granted to it and open. -/
theorem streamUse_ok {s : State} {f n : Nat} {x : Stream} (h : streamUse s f n = .ok x) :
    grantOf s n = f ∧ tget s.circ.streams n = some x := by
  unfold streamUse at h
  split at h
  · cases h
  · rename_i hg
    split at h
    · cases h
    · rename_i t ht
      cases h
      exact ⟨not_not.1 hg, ht⟩

end Sys2Proof.Machine

open Sys2Proof Sys2Proof.Machine

/-- Settles O22: each command changes the one stream of the table that it names. -/
theorem streamCommandsSetTheirStream : Obligations.StreamCommandsSetTheirStream := by
  refine ⟨?_, ?_, ?_, ?_⟩
  · intro s c n h srec status k hf hg hn hr hst hchk hgr hk hc hx
    let r := mnat s.fab.host srec.toNat 128
    let y := newStream k (clampRecord (portRate (portMode s (nbits r 569 567 / 4))) r) status s.hoop.time
    refine answers_op [.circ] (fun t => t.circ = { s.circ with streams := tset s.circ.streams n.toNat y }) rfl hf (fun u hu hfab =>
      ⟨{ u with circ := { s.circ with streams := tset s.circ.streams n.toNat y } }, 0, ?_, rfl,
        fun p hp => by cases p <;> first | (simp at hp; done) | rfl, rfl⟩)
      fun t v ht hv hd hp => ⟨(hv .circ (by decide)).trans ht, hd, hp⟩
    have htime : u.hoop = s.hoop := hu.only .hoop (by decide)
    have hgr' : grantOf u n.toNat = c.func.val := by rw [grantOf, hu.circ, ← hgr, grantOf]
    rw [streamOpen, if_neg (by simp only [hr, hst]; omega)]
    simp only [hfab hg, streamOpenCheck_circ hu.circ, hchk, hu.lookup, hk, hgr', hu.ctxUse, hc, hu.circ, hx, htime, portMode]
    rw [if_neg (by decide), if_neg (by simp), if_neg (by simp), if_neg (by decide)]
    rfl
  · intro s c n kind entries fence base head x k y hf hn hk1 hk3 hb hh hk hy hx hctx hfun hlost hcl
    let r : SRing := { base := base, entries := clampPow2 4 12 entries.toNat, head := head, fence := fence, w := 0, c := 0 }
    refine answers_op [.circ] (fun t =>
      t.circ = { s.circ with streams := tset s.circ.streams n.toNat { x with rings := tset x.rings kind.toNat r } }) rfl hf
          (fun u hu _ =>
      ⟨putStream u n.toNat { x with rings := tset x.rings kind.toNat r }, 0, ?_, rfl,
        fun p hp => by cases p <;> first | (simp at hp; done) | rfl, by rw [putStream, hu.circ]⟩)
      fun t v ht hv hd hp => ⟨(hv .circ (by decide)).trans ht, hd, hp⟩
    have hsu := (hu.streamUse c.func n.toNat).trans hx
    obtain ⟨hgr, ht⟩ := streamUse_ok hsu
    have hcl' : (ctxOf u y.ctx).any (fun z => z.st == .lost) = false := by rw [← hcl, ctxOf, hu.obj, ctxOf]
    rw [streamRing, if_neg (by simp only [hb, hh]; omega)]
    simp [hu.lookup, hk, hu.obj, hy, hgr, ht, hctx, hfun, hlost, hctx ▸ hcl', r]
  · intro s c n dir kid addr x hf hg hn hdir hkid hx
    let k : SKey := { keyId := kid.toNat, key := mread s.fab.host addr.toNat 32, salt := mread s.fab.host (addr.toNat + 32) 4 }
    refine answers_op [.circ] (fun t =>
      (dir.toNat = 1 → t.circ = { s.circ with streams := tset s.circ.streams n.toNat { x with rxKeys := installKey x.rxKeys k } }) ∧
      (dir.toNat = 0 → t.circ.streams = tset s.circ.streams n.toNat { x with eKey := some k, seq := 0 })) rfl hf
      (fun u hu hfab => ?_) fun t v ht hv hd hp => ?_
    · have hb : mread u.fab.host addr.toNat 36 = k.key ++ k.salt := by rw [hfab hg]; exact mread_add _ _ 32 4
      have hl : k.key.length = 32 := mread_length _ _ _
      rw [streamKey, if_neg (by omega), (hu.streamUse c.func n.toNat).trans hx]
      simp only [hb, List.take_left' hl, List.drop_left' hl]
      by_cases hd : dir.toNat = 1
      · rw [if_pos hd]
        exact ⟨_, 0, rfl, rfl, fun p hp => by cases p <;> first | (simp at hp; done) | rfl,
          fun _ => by rw [putStream, hu.circ], fun h => by omega⟩
      · rw [if_neg hd]
        exact ⟨_, 0, rfl, rfl, fun p hp => by cases p <;> first | (simp at hp; done) | rfl,
          fun h => absurd h hd, fun _ => by simp only [putStream, hu.circ]; rfl⟩
    · rw [hv .circ (by decide)]
      exact ⟨ht.1, ht.2, hd, hp⟩
  · intro s c n x hf hn hx ht
    refine answers_op [.circ, .cod] (fun t => t.circ.streams = (closeStreams s fun k _ => k == n.toNat).circ.streams) rfl hf
      (fun u hu _ => ⟨closeStreams u fun k _ => k == n.toNat, 0, ?_, rfl, fun p hp => by cases p <;> first | (simp at hp; done) |
          rfl, ?_⟩)
      fun t v ht hv hd hp => ?_
    · have ht' : streamTaken u n.toNat = false := by rw [← ht, streamTaken, hu.obj, streamTaken]
      rw [streamClose, if_neg (by omega), hu.streamUse, hx]
      simp [ht']
    · simp only [closeStreams, hu.circ]
    · have hs : v.circ.streams = _ := (congrArg _ (hv .circ (by decide))).trans ht
      simp only [hs, tget_closeStreams_key]
      exact ⟨by simp, fun m hm => by simp [hm], hd, hp⟩
end

section
/-! Proofs: ACC_REQUEST, DAYBOOK_SET and MARGIN_SET (spec/17 R512, R514, R515). -/

namespace Sys2Proof.Machine

/-! ## The day book's ring -/

/-- A record put in a ring leaves where the ring stands. -/
theorem ringPut_place (m : Mem) (r : Ring) (v : Nat) :
    (ringPut m r v).2.1.base = r.base ∧ (ringPut m r v).2.1.entries = r.entries := by
  unfold ringPut
  split
  · exact ⟨rfl, rfl⟩
  · dsimp only
    split_ifs <;> exact ⟨rfl, rfl⟩

theorem trace_bookPlace (s : State) (group point obj arg1 : Nat) :
    (trace s group point obj arg1).fw.bookRing.base = s.fw.bookRing.base ∧
      (trace s group point obj arg1).fw.bookRing.entries = s.fw.bookRing.entries := by
  unfold trace dayBook
  dsimp only
  split
  · split
    · exact ⟨rfl, rfl⟩
    · exact ringPut_place _ _ _
  · exact ⟨rfl, rfl⟩

theorem trace_groups (s : State) (group point obj arg1 : Nat) : (trace s group point obj arg1).fw.groups = s.fw.groups := by
  obtain ⟨_, _, _, h⟩ := trace_logged s group point obj arg1
  rw [h]

/-- Of firmware's own state a completion changes what its marginalia record does. -/
theorem fwComplete_fw (s : State) (f cmd : Nat) (tag : W32) (st res : Nat) : ∃ u : State, u.fw = s.fw ∧
    (fwComplete s f cmd tag st res).fw = (trace u 2 1 f (cmd + st * 2 ^ 32)).fw :=
  ⟨setFn (hostWrite s _ _) f { fnOf s f with written := (fnOf s f).written + 1 }, rfl, raiseMsix_only _ _ _ .fw (by decide)⟩

theorem fwComplete_bookPlace (s : State) (f cmd : Nat) (tag : W32) (st res : Nat) :
    (fwComplete s f cmd tag st res).fw.bookRing.base = s.fw.bookRing.base ∧
      (fwComplete s f cmd tag st res).fw.bookRing.entries = s.fw.bookRing.entries ∧
      (fwComplete s f cmd tag st res).fw.groups = s.fw.groups := by
  obtain ⟨u, hu, h⟩ := fwComplete_fw s f cmd tag st res
  obtain ⟨h1, h2⟩ := trace_bookPlace u 2 1 f (cmd + st * 2 ^ 32)
  rw [h, ← hu]
  exact ⟨h1, h2, trace_groups _ _ _ _ _⟩

theorem fwComplete_unlogged {s : State} (h : s.fw.groups.toNat.testBit 2 = false) (f cmd : Nat) (tag : W32) (st res : Nat) :
    (fwComplete s f cmd tag st res).fw = s.fw := by
  obtain ⟨u, hu, hf⟩ := fwComplete_fw s f cmd tag st res
  rw [hf, trace, if_neg (by simp [hu, h]), hu]

/-- The physical function's command whose operation sets firmware's own state, and may write host memory. -/
theorem answers_fw {s : State} {c : Call} {cmd : Nat} {op : State → State × Nat × Nat} {i : Instr} {P : State → Prop}
    {m : State → Mem} {w : State → Firmware} (hx : exec i s = .next (fwCommand s c cmd (pfOnly c op)))
    (h : fwTakes s c.func = true) (hpf : c.func.val = 0)
    (ho : ∀ u, op u = ({ u with fab := { u.fab with host := m u }, fw := w u }, stOk, 0))
    (hP : ∀ u t v r, Taken s u → (s.fw.groups.toNat.testBit 2 = false → u.fw = s.fw ∧ u.fab = s.fab) → t.fw = w u →
      v = fwComplete t c.func cmd c.tag stOk r → FwDone c s v → Only [.fns, .fab, .fw] s v → P v) : Answers i s P := by
  have hu := fwTake_taken s c.func cmd
  have hlog : s.fw.groups.toNat.testBit 2 = false →
      (fwTake s c.func cmd).fw = s.fw ∧ (fwTake s c.func cmd).fab = s.fab := fun hg => by
    rw [fwTake_unlogged hg]
    exact ⟨rfl, rfl⟩
  generalize hw : fwTake s c.func cmd = u at hu hlog
  let t : State := { u with fab := { u.fab with host := m u }, fw := w u }
  have he : fwCommand s c cmd (pfOnly c op) = fwComplete t c.func cmd c.tag stOk 0 := by
    rw [fwCommand, fwCommandWith, if_pos h]
    simp only [hw, pfOnly, if_pos (show c.func = 0 from Fin.ext hpf), ho, true_or, if_true]
    rfl
  refine ⟨_, hx, hP u t _ 0 hu hlog rfl he ?_ ?_⟩
  · exact he ▸ fwDone_complete (hw ▸ SameFn.of_eq rfl)
  · exact he ▸ (hu.only.trans (Only.trans (fun p hp => by cases p <;> first | (simp at hp; done) | rfl)
      (fwComplete_only _ _ _ _ _ _)))

/-! ## Staging a list of fields -/

/-- The second state is the first after fields were staged in one slot. -/
structure Staging (s : State) (n : Nat) (t : State) : Prop where
  only : Only [.acc, .regs, .fab, .fw] s t
  active : t.regs.active = s.regs.active
  fw : ∃ b r, t.fw = { s.fw with book := b, bookRing := r }
  len : t.acc.slots.length = s.acc.slots.length
  own : ∃ x y, accSlot t n = { accSlot s n with staged := x, conflicts := y }
  other : ∀ m, m ≠ n → accSlot t m = accSlot s m

theorem Staging.refl (s : State) (n : Nat) : Staging s n s := ⟨.refl _ _, rfl, ⟨_, _, rfl⟩, rfl, ⟨_, _, rfl⟩, fun _ _ => rfl⟩

theorem Staging.trans {s t u : State} {n : Nat} (h : Staging s n t) (h' : Staging t n u) : Staging s n u := by
  obtain ⟨b, r, hf⟩ := h.fw
  obtain ⟨x, y, ho⟩ := h.own
  obtain ⟨b', r', hf'⟩ := h'.fw
  obtain ⟨x', y', ho'⟩ := h'.own
  exact ⟨h.only.trans h'.only, h'.active.trans h.active, ⟨b', r', by rw [hf', hf]⟩, h'.len.trans h.len,
    ⟨x', y', by rw [ho', ho]⟩, fun m hm => (h'.other m hm).trans (h.other m hm)⟩

/-- No slot but one holds the register. -/
def HeldByNone (s : State) (n off : Nat) : Prop := ∀ m, m ≠ n → accHolds (accSlot s m) = true → tget (accSlot s m).staged off = none

theorem HeldByNone.any {s : State} {n off : Nat} (h : HeldByNone s n off) :
    (s.acc.slots.zipIdx.any fun e => e.2 != n && accHolds e.1 && (tget e.1.staged off).isSome) = false := by
  rw [List.any_eq_false]
  rintro ⟨a, m⟩ he hc
  obtain ⟨-, hm, ha⟩ := List.mem_zipIdx he
  simp only [Bool.and_eq_true, bne_iff_ne, ne_eq] at hc
  obtain ⟨⟨hne, hh⟩, hs⟩ := hc
  have hslot : accSlot s m = a := by
    simp only [Nat.sub_zero] at ha
    rw [accSlot, List.getD_eq_getElem _ _ (by omega), ← ha]
  rw [← hslot, h m hne (hslot ▸ hh)] at hs
  cases hs

/-- The slot in which a field is staged, before the log: the other slots are as they were. -/
theorem setSlot_staging {s : State} {n : Nat} (hn : n < s.acc.slots.length) (x : Tbl W64) (y : List Nat) (r : Tbl W64) :
    let u := setSlot s n { accSlot s n with staged := x, conflicts := y }
    Staging s n { u with regs := { u.regs with shadow := r } } :=
  ⟨fun p hp => by cases p <;> first | (simp at hp; done) | rfl, rfl, ⟨_, _, rfl⟩, by simp [setSlot, setSlots],
    ⟨x, y, accSlot_setSlot_same hn _⟩, fun _ hm => accSlot_setSlot_other s hm _⟩

theorem Staging.logged {s t u : State} {n : Nat} (h : Staging s n t) (h' : Logged t u) : Staging s n u := by
  obtain ⟨m, b, r, rfl⟩ := h'
  obtain ⟨_, _, hf⟩ := h.fw
  exact ⟨h.only.trans (fun p hp => by cases p <;> first | (simp at hp; done) | rfl), h.active, ⟨b, r, by rw [hf]⟩, h.len, h.own,
    h.other⟩

/-- What a field staged leaves, by whether another slot holds it. -/
theorem stage_staging {s : State} {n : Nat} (hn : n < s.acc.slots.length) (off v : Nat) :
    Staging s n (stage s n off v) ∧
      (∀ o, o ≠ off → tget (accSlot (stage s n off v) n).staged o = tget (accSlot s n).staged o) ∧
      (HeldByNone s n off → tget (accSlot (stage s n off v) n).staged off =
        some (BitVec.ofNat 64 (stored off (ofmtFor s (accSlot s n) off) v))) := by
  unfold stage
  dsimp only
  split
  · rename_i hh
    refine ⟨setSlot_staging hn _ _ s.regs.shadow, fun o _ => ?_, fun h => absurd (h.any.symm.trans hh) (by decide)⟩
    rw [accSlot_setSlot_same hn]
  · let w : W64 := BitVec.ofNat 64 (stored off (ofmtFor s (accSlot s n) off) v)
    let a := { accSlot s n with staged := tset (accSlot s n).staged off w }
    let u : State := { setSlot s n a with regs := { s.regs with shadow := tset s.regs.shadow off w } }
    have hl : Logged u (trace u 0 1 (n + 1) off) := trace_logged _ _ _ _ _
    have ha : accSlot (trace u 0 1 (n + 1) off) n = a := (accSlot_congr hl.acc n).trans (accSlot_setSlot_same hn a)
    refine ⟨(setSlot_staging hn _ (accSlot s n).conflicts _).logged hl, fun o ho => ?_, fun _ => ?_⟩
    · exact (congrArg (fun a => tget (AccSlot.staged a) o) ha).trans (tget_tset_other _ _ ho)
    · exact (congrArg (fun a => tget (AccSlot.staged a) off) ha).trans (tget_tset_same _ _ _)

theorem Staging.held {s t : State} {n : Nat} (h : Staging s n t) (off : Nat) : HeldByNone t n off ↔ HeldByNone s n off :=
  forall₂_congr fun m hm => by rw [h.other m hm]

/-- Of a list of fields, those are staged that no other slot holds. -/
theorem foldl_stage (g : State → Nat × W64 → Nat) (n : Nat) (l : List (Nat × W64)) {s : State} (hn : n < s.acc.slots.length) :
    let t := l.foldl (fun s e => stage s n e.1 (g s e)) s
    Staging s n t ∧ ∀ off, HeldByNone s n off →
      ((tget (accSlot t n).staged off).isSome ↔ (tget (accSlot s n).staged off).isSome ∨ ∃ e ∈ l, e.1 = off) := by
  induction l generalizing s with
  | nil => exact ⟨.refl s n, fun _ _ => by simp⟩
  | cons e l ih =>
    obtain ⟨h1, h2, h3⟩ := stage_staging hn e.1 (g s e)
    obtain ⟨h4, h5⟩ := ih (s := stage s n e.1 (g s e)) (by rw [h1.len]; exact hn)
    refine ⟨h1.trans h4, fun off ho => (h5 off ((h1.held off).2 ho)).trans ?_⟩
    by_cases he : e.1 = off
    · subst he
      simp [h3 ho]
    · simp [h2 off (Ne.symm he), he]

/-! ## A request of the function -/

/-- Where every request has its slot, none is staged. -/
theorem stageReq_of_staged {s : State} (h : ∀ r ∈ s.fw.reqs, r.slot.isSome = true) : stageReq s = s := by
  have hn : (s.fw.reqs.findIdx? fun r => r.slot.isNone) = none := List.findIdx?_eq_none_iff.2 fun r hr => by
    obtain ⟨k, hk⟩ := Option.isSome_iff_exists.1 (h r hr)
    simp [hk]
  unfold stageReq
  rw [hn]

/-- What firmware holds of a request of which it has staged the fields. -/
def committed (v : State) (r : AccReq) (n : Nat) : State :=
  commitSlot { v with acc := { v.acc with targetFw := r.target }
                      fw := { v.fw with reqs := v.fw.reqs.set 0 { r with slot := some n } } } n .fw

theorem committed_reqs (v : State) (r : AccReq) (n : Nat) : (committed v r n).fw.reqs = v.fw.reqs.set 0 { r with slot := some n
    } := by
  obtain ⟨k, h⟩ := traceFree_logged (setSlot { v with
    acc := { v.acc with targetFw := r.target }, fw := { v.fw with reqs := v.fw.reqs.set 0 { r with slot := some n } } } n
      { accSlot v n with st := .checking, target := r.target }) 0 2 (n + 1)
  exact h.reqs

/-- Firmware's only request that waits for a slot is staged in the free one and committed. -/
theorem serveReqs_one {s : State} {r : AccReq} {n : Nat} (hrun : s.fw.running = true) (hr : s.fw.reqs = [r]) (hs : r.slot = none)
    (ho : openSlot s .fw = none) (hn : freeSlot s = some n) :
    let a : AccSlot := { AccSlot.reset with st := .opened, owner := .fw, serves := some r.func, tag := r.tag }
    let u := traceFree (setSlot s n a) 0 0 (n + 1)
    serveReqs s = committed (r.list.foldl (fun s e => stage s n e.1 (requestValue s e.1 e.2.toNat)) u) r n := by
  intro a u
  have hclaim : claimSlot s .fw (some r.func) r.tag = (u, some n) := by
    rw [claimSlot, ho, hn]
  have hfind : ([r].findIdx? fun r => r.slot.isNone) = some 0 := by simp [List.findIdx?_cons, hs]
  have hone : stageReq s = committed (r.list.foldl (fun s e => stage s n e.1 (requestValue s e.1 e.2.toNat)) u) r n := by
    unfold stageReq
    rw [hr]
    simp only [hfind, List.getElem?_cons_zero, hclaim]
    rfl
  obtain ⟨k, hl⟩ := traceFree_logged (setSlot s n a) 0 0 (n + 1)
  have hlen : n < u.acc.slots.length := by
    rw [hl.acc]
    simpa [setSlot, setSlots] using freeSlot_lt hn
  obtain ⟨_, _, hfw⟩ := (foldl_stage (fun s e => requestValue s e.1 e.2.toNat) n r.list hlen).1.fw
  have hreqs : u.fw.reqs = [r] := hl.reqs.trans hr
  have hall : ∀ x ∈ (stageReq s).fw.reqs, x.slot.isSome = true := by
    rw [hone, committed_reqs, hfw, hreqs]
    simp
  have hfin : s.fw.reqs.foldl finishReq s = s := by simp [hr, finishReq, hs]
  rw [serveReqs, if_neg (by simp [hrun]), hfin]
  simp only [List.range_succ, List.range_zero, List.nil_append, List.cons_append, List.foldl_cons, List.foldl_nil,
    stageReq_of_staged hall]
  exact hone

/-- What a commitment of firmware's leaves. -/
theorem committed_slots {v : State} {n : Nat} (r : AccReq) (hn : n < v.acc.slots.length) :
    accSlot (committed v r n) n = { accSlot v n with st := .checking, target := r.target } ∧
      (∀ m, m ≠ n → accSlot (committed v r n) m = accSlot v m) ∧ (committed v r n).regs = v.regs ∧
      Only [.acc, .fw, .fab, .free] v (committed v r n) := by
  let u : State := { v with acc := { v.acc with targetFw := r.target }
                            fw := { v.fw with reqs := v.fw.reqs.set 0 { r with slot := some n } } }
  let a : AccSlot := { accSlot v n with st := .checking, target := r.target }
  obtain ⟨k, h⟩ := traceFree_logged (setSlot u n a) 0 2 (n + 1)
  refine ⟨(accSlot_congr h.acc n).trans (accSlot_setSlot_same (s := u) hn a),
    fun m hm => (accSlot_congr h.acc m).trans (accSlot_setSlot_other u hm a), h.regs, ?_⟩
  have hu : Only [.acc, .fw, .fab, .free] v (setSlot u n a) := fun p hp => by cases p <;> first | (simp at hp; done) | rfl
  exact hu.trans ((traceFree_only _ _ _ _).mono (by simp))

/-- A field reads the same where the active registers are the same. -/
theorem ofmtFor_congr {s t : State} {a b : AccSlot} (hr : t.regs = s.regs) (ha : b.staged = a.staged) (off : Nat) :
    ofmtFor t b off = ofmtFor s a off := by
  unfold ofmtFor
  simp only [active_congr hr, ha]

theorem requestValue_congr {s t : State} (hr : t.regs = s.regs) (off v : Nat) : requestValue t off v = requestValue s off v := by
  unfold requestValue
  simp only [active_congr hr]

/-- The fields that a list names. -/
def requested (s : State) (f : Nat) (l : List (Nat × W64)) : List (Nat × W64) :=
  (l.map fun e => (requestField s f e.1).map fun o => (o, e.2)).filterMap id

theorem mem_requested (s : State) (f : Nat) (l : List (Nat × W64)) (off : Nat) :
    (∃ e ∈ requested s f l, e.1 = off) ↔ ∃ e ∈ l, requestField s f e.1 = some off := by
  simp only [requested, List.mem_filterMap, List.mem_map, id_eq, existsAndEq, Option.map_eq_some_iff, and_true]

/-- ACC_REQUEST of a function's own fields is a request that waits for a slot (R512). -/
theorem accRequest_eq {s : State} {c : Call} {list : W64} {count target : W32} (h : fwTakes s c.func.val = true)
    (hg : s.fw.groups.toNat.testBit 2 = false) (ha : bits list 3 0 = 0) (hq : s.fw.reqs = [])
    (hall : ((readList s list.toNat (clamp 1 64 count.toNat)).all fun e => (requestField s c.func.val e.1).isSome) = true) :
    accRequest s c list count target =
      serveReqs { setFn s c.func { fnOf s c.func with taken := (fnOf s c.func).taken + 1 } with
        fw := { s.fw with reqs := [{ func := c.func, tag := c.tag, target := target, slot := none
                                     list := requested s c.func (readList s list.toNat (clamp 1 64 count.toNat)) }] } } := by
  rw [accRequest, if_neg (by simp [h]), fwTake_unlogged hg]
  dsimp only
  rw [if_neg (by simp [ha]), if_neg]
  · simp only [setFn_fw, hq, List.nil_append]
    rfl
  · rw [Bool.not_eq_true, List.any_map, List.any_eq_false]
    intro e he
    have := List.all_eq_true.1 hall e he
    have hs : (requestField s c.func e.1).isNone = false := by rw [← Option.not_isSome, this]; rfl
    simp only [Function.comp, Option.isNone_map]
    exact Bool.eq_false_iff.1 hs

end Sys2Proof.Machine

open Sys2Proof Sys2Proof.Machine

/-- Settles O23: the request is served in the free slot at once; the day book's ring is filled with the kept records. -/
theorem platformCommandsActThroughFirmware : Obligations.PlatformCommandsActThroughFirmware := by
  refine ⟨?_, ?_, ?_⟩
  · intro s c list count target n hf hg ha hq ho hn hall
    let l := readList s list.toNat (clamp 1 64 count.toNat)
    let r : AccReq := { func := c.func, tag := c.tag, list := requested s c.func l, target := target, slot := none }
    let s0 := setFn s c.func { fnOf s c.func with taken := (fnOf s c.func).taken + 1 }
    let s1 : State := { s0 with fw := { s.fw with reqs := [r] } }
    let a : AccSlot := { AccSlot.reset with st := .opened, owner := .fw, serves := some c.func.val, tag := c.tag }
    let u := traceFree (setSlot s1 n a) 0 0 (n + 1)
    let v := (requested s c.func l).foldl (fun s e => stage s n e.1 (requestValue s e.1 e.2.toNat)) u
    have hrun : s.fw.running = true := by
      simp only [fwTakes, Bool.and_eq_true] at hf
      exact hf.1.1.1.1
    have hx : exec (.accRequest c list count target) s = .next (committed v r n) := by
      change Host.Outcome.next (accRequest s c list count target) = _
      rw [accRequest_eq hf hg ha hq hall, serveReqs_one (s := s1) (r := r) hrun rfl rfl ho hn]
    obtain ⟨k, hl⟩ := traceFree_logged (setSlot s1 n a) 0 0 (n + 1)
    have hlt : n < s1.acc.slots.length := freeSlot_lt hn
    have hun : accSlot u n = a := (accSlot_congr hl.acc n).trans (accSlot_setSlot_same hlt a)
    have hum (m : Nat) (hm : m ≠ n) : accSlot u m = accSlot s m := (accSlot_congr hl.acc m).trans (accSlot_setSlot_other s1 hm a)
    have hlen : n < u.acc.slots.length := by
      rw [hl.acc]
      simpa [setSlot, setSlots] using hlt
    obtain ⟨hst, hfields⟩ := foldl_stage (fun s e => requestValue s e.1 e.2.toNat) n (requested s c.func l) hlen
    obtain ⟨x, y, hown⟩ := hst.own
    obtain ⟨hc, hcm, hcr, hco⟩ := committed_slots (v := v) r (hst.len.symm ▸ hlen)
    rw [show accSlot v n = _ from hown, hun] at hc
    refine ⟨_, hx, by rw [hc], by rw [hc], by rw [hc], by rw [hc], by rw [hc], fun m hm => ?_, fun off hoff => ?_, fun o => ?_, ?_⟩
    · exact (hcm m hm).trans ((hst.other m hm).trans (hum m hm))
    · have hnone : HeldByNone u n off := fun m hm hh => by
        rw [hum m hm] at hh ⊢
        exact hoff m hh
      have hx' : x = (accSlot v n).staged := by rw [show accSlot v n = _ from hown]
      refine ⟨?_, fun o w hlist hfo => ?_⟩
      · rw [hc, hx']
        refine (hfields off hnone).trans ?_
        rw [mem_requested, hun]
        simp [a, AccSlot.reset, l]
      · have hreq : requested s c.func l = [(off, w)] := by simp [requested, l, hlist, hfo]
        have hv : v = stage u n off (requestValue u off w.toNat) := by simp [v, hreq]
        have := (stage_staging hlen off (requestValue u off w.toNat)).2.2 hnone
        rw [hc, hx', hv]
        refine this.trans ?_
        rw [requestValue_congr (s := s) hl.regs, ofmtFor_congr (s := s) (a := AccSlot.reset) hl.regs (by rw [hun])]
    · have hregs : (committed v r n).regs.active = s.regs.active := by
        rw [hcr, hst.active, hl.regs]
        rfl
      simp only [active, hregs]
    · have hfns : (committed v r n).fns = s0.fns := (hco .fns (by decide)).trans ((hst.only .fns (by decide)).trans
        (traceFree_only _ _ _ _ .fns (by decide)))
      have hfn : fnOf (committed v r n) c.func = { fnOf s c.func with taken := (fnOf s c.func).taken + 1 } := by
        rw [fnOf, hfns]
        exact tgetD_tset_same _ _ _ _
      rw [hfn]
      refine ⟨rfl, rfl, ?_⟩
      have h0 : Only [.acc, .regs, .fns, .fab, .fw, .free] s (setSlot s1 n a) :=
        fun p hp => by cases p <;> first | (simp at hp; done) | rfl
      exact h0.trans (((traceFree_only _ _ _ _).mono (by simp)).trans ((hst.only.mono (by simp)).trans (hco.mono (by simp))))
  · intro s c addr entries hf hpf ha
    let place : Ring := { Ring.reset with base := some addr, entries := clampPow2 8 16 entries.toNat }
    let put (p : Mem × Ring) (d : DbRec) : Mem × Ring := ((ringPut p.1 p.2 (bookWord d)).1, (ringPut p.1 p.2 (bookWord d)).2.1)
    refine answers_fw (m := fun u => (u.fw.book.foldl put (u.fab.host, place)).1)
      (w := fun u => { u.fw with bookRing := (u.fw.book.foldl put (u.fab.host, place)).2 }) rfl hf hpf (fun u => ?_)
      fun u t v r hu hlog ht hv hd hp => ?_
    · rw [daybookSet, if_neg (by simp [ha])]
      simp [place, put]
    · obtain ⟨h1, h2, -⟩ := fwComplete_bookPlace t c.func 0x48 c.tag stOk r
      have hput (l : List DbRec) (p : Mem × Ring) : (l.foldl put p).2.base = p.2.base ∧ (l.foldl put p).2.entries = p.2.entries :=
          by
        induction l generalizing p with
        | nil => exact ⟨rfl, rfl⟩
        | cons d l ih =>
          obtain ⟨h1, h2⟩ := ringPut_place p.1 p.2 (bookWord d)
          obtain ⟨h3, h4⟩ := ih (put p d)
          exact ⟨h3.trans h1, h4.trans h2⟩
      obtain ⟨h3, h4⟩ := hput u.fw.book (u.fab.host, place)
      refine ⟨?_, ?_, fun hg => ?_, hd, hp⟩
      · rw [hv, h1, ht]
        exact h3
      · rw [hv, h2, ht]
        exact h4
      · obtain ⟨hfw, hfab⟩ := hlog hg
        rw [hv, fwComplete_unlogged (by rw [ht]; simpa [hfw] using hg), ht]
        simp only [hfw, hfab]
        exact ⟨trivial, rfl⟩
  · intro s c mask hf hpf
    refine answers_fw (m := fun u => u.fab.host) (w := fun u => { u.fw with groups := mask }) rfl hf hpf (fun u => rfl)
      fun u t v r hu hlog ht hv hd hp => ⟨?_, fun hg hm => ?_, hd, hp⟩
    · rw [hv, (fwComplete_bookPlace t c.func 0x49 c.tag stOk r).2.2, ht]
    · rw [hv, fwComplete_unlogged (by rw [ht]; exact hm), ht, (hlog hg).1]
end

section
/-! Proofs: firmware's registers, resets, boot, the sideband page and the debug port (spec/17 R504 to R520, spec/20 R587, R590). -/

namespace Sys2Proof.Machine

/-- Time that passes changes the Hoop and the measured work of queues. -/
theorem passTo_only (s : State) (t : Nat) : Only [.hoop, .obj] s (passTo s t) := by
  unfold passTo
  refine Only.ite (fun _ => .refl _ s) fun _ p hp => ?_
  cases p <;> first | (simp at hp; done) | rfl

/-- While the Hoop does not run, no boundary is crossed. -/
theorem advance_idle {s : State} (h : s.hoop.running = false) (t : Nat) : advance s t = passTo s t := by
  unfold advance
  cases 3 * ((t - s.hoop.time) / 208334 + 2) with
  | zero => rfl
  | succ n => rw [advanceLoop, if_neg (by simp [h])]

/-- A byte of a number written out. -/
theorem toLE_getD (n v k : Nat) (h : k < n) : (toLE n v).getD k 0 = BitVec.ofNat 8 (v / 256 ^ k) := by
  induction n generalizing v k with
  | zero => omega
  | succ n ih =>
    cases k with
    | zero => simp [toLE]
    | succ k => rw [toLE, List.getD_cons_succ, ih _ _ (by omega), Nat.div_div_eq_div_mul, pow_succ']

theorem trace_off {s : State} {group : Nat} (h : s.fw.groups.toNat.testBit group = false) (point obj arg1 : Nat) :
    trace s group point obj arg1 = s := if_neg (by simp [h])

end Sys2Proof.Machine

open Sys2Proof Sys2Proof.Machine

/-- Settles O24: each write is one update of the function's record or of firmware's state. -/
theorem firmwareRegisterWrites : Obligations.FirmwareRegisterWrites := by
  refine ⟨fun s f cpl v hb hq => ?_, fun s f v hb => ?_, fun s hrun => ?_⟩
  · change Host.Outcome.next (fwRingBase s f.val cpl v) = _
    rw [fwRingBase, if_neg (by simp [hb, hq])]
    rfl
  · refine ⟨_, rfl, ?_⟩
    have hx : heartbeat s f.val = setFn s f.val
        { fnOf s f.val with lastHb := BitVec.ofNat 32 s.hoop.tick, hbSeen := (fnOf s f.val).hbSeen || (fnOf s f.val).grace.isSome
            } :=
      if_neg (by simp [hb])
    rw [hx]
    beta_reduce
    rw [fnOf_setFn_same]
    exact ⟨rfl, fun h => by simp [h], fun g hg => fnOf_setFn_other s _ hg, setFn_only s _ _⟩
  · let u := setFw s { s.fw with kicked := true }
    have hx : watchdogKick s = trace u 4 0 0 s.hoop.tick := if_neg (by simp [hrun])
    obtain ⟨m, b, r, hl⟩ := trace_logged u 4 0 0 s.hoop.tick
    refine ⟨_, rfl, ?_⟩
    rw [hx]
    refine ⟨by rw [hl]; rfl, by rw [hl]; rfl, fun hg => ?_, ?_⟩
    · rw [trace_off (s := u) hg]
      rfl
    · have hu : Only [.fw, .fab] s u := fun p hp => by cases p <;> first | (simp at hp; done) | rfl
      exact hu.trans ((trace_only u _ _ _ _).mono (by simp))

/-- Settles O27: a cold reset is the reset state with the board that the input gives. -/
theorem resetInputsActAsGiven : Obligations.ResetInputsActAsGiven := by
  refine ⟨fun s => rfl, fun s => rfl, fun s => ?_, fun s hp hn => ?_, fun s hr => ?_, fun s hr hp hn ht => ?_, fun s => rfl⟩
  · change Host.Outcome.next (perstAssert s) = _
    rw [perstAssert]
    rfl
  · change Host.Outcome.next (perstDeassert s) = _
    rw [perstDeassert, if_pos hp, if_neg (by simp [hn])]
    rfl
  · change Host.Outcome.next (hotReset s) = _
    rw [hotReset, if_neg (by simp [hr])]
    rfl
  · change Host.Outcome.next (resetRelease s) = _
    rw [resetRelease, if_pos (by simp [hr, inputsGood, hp, hn, ht])]
    rfl

/-- Settles O28: by the state of the boot, and in the check by the object whose test fails. -/
theorem bootGoesThroughItsStates : Obligations.BootGoesThroughItsStates := by
  refine ⟨fun s hr hb => ?_, fun s hr hb => ?_, fun s r hb hc => ?_, fun s image hb hc hr hrun => ?_, fun s c hb hc => ?_⟩
  · change Host.Outcome.next (bootRomReady s) = _
    rw [bootRomReady, if_neg (by simp [hr, hb])]
  · change Host.Outcome.next (secBootGo s) = _
    rw [secBootGo, if_neg (by simp [hr, hb])]
    rfl
  · refine ⟨_, rfl, ?_⟩
    dsimp only
    rw [bootCheckDone, if_neg (by simp [hb, hc])]
    cases checkObject s r false s.fw.bootCharter.toNat with
    | error e => rfl
    | ok c =>
      dsimp only
      cases charterBad c.body with
      | some e => rfl
      | none =>
        dsimp only
        cases checkObject s r true s.fw.bootImage.toNat with
        | error e => rfl
        | ok i => exact ⟨rfl, hb, rfl, rfl, fun p hp => by cases p <;> first | (simp at hp; done) | rfl⟩
  · let u := passTo s (s.fw.goTime + 45000000)
    have hu : Only [.hoop, .obj] s u := passTo_only _ _
    have hfw : u.fw = s.fw := hu .fw (by decide)
    have htime : u.hoop = { s.hoop with time := max s.hoop.time (s.fw.goTime + 45000000) } := passTo_hoop hr _
    have hx : exec (.bootReadTimeout image) s = .next (bootRefuse u 0x01 image) := by
      change Host.Outcome.next (bootTimeoutAt s image) = _
      rw [bootTimeoutAt, if_neg (by simp [hb, hc, hr]), advance_idle hrun, bootReadTimeout, if_pos]
      simp only [u] at hfw htime
      rw [hfw, htime]
      exact ⟨hb, by rw [hc]; rfl, le_max_right _ _⟩
    refine ⟨_, hx, rfl, rfl, rfl, by rw [show (bootRefuse u 1 image).hoop = u.hoop from rfl, htime], ?_⟩
    exact (hu.mono (by simp)).trans fun p hp => by cases p <;> first | (simp at hp; done) | rfl
  · let u := setFw s { s.fw with boot := .running, accepted := true, running := true, kicked := false }
    have hx : velhintoReady s = dayBook u 0x0001 0 c.imageVersion.toNat c.version.toNat := by
      rw [velhintoReady, hb, hc]
    obtain ⟨m, b, r, hl⟩ := dayBook_logged u 0x0001 0 c.imageVersion.toNat c.version.toNat
    refine ⟨_, rfl, ?_⟩
    rw [hx, hl]
    exact ⟨rfl, rfl, rfl, hc, fun p hp => by cases p <;> first | (simp at hp; done) | rfl⟩

/-- Settles O31: the bytes read are those of the page's number. -/
theorem sidebandAndDebugPort : Obligations.SidebandAndDebugPort := by
  refine ⟨fun s b l => rfl, fun s n => ⟨_, rfl, ?_⟩, fun s => rfl, fun s => rfl, fun s e he => ?_⟩
  · refine ⟨by simp [sidebandRead, setBrd], rfl, fun k hk => ?_, fun p hp => by cases p <;> first | (simp at hp; done) | rfl⟩
    change ((List.range n).map fun k => (toLE 16 (sidePage s)).getD ((s.brd.sidePtr + k) % 16) 0).getD k 0 = _
    rw [List.getD_eq_getElem _ _ (by simpa using hk), List.getElem_map, List.getElem_range]
    exact toLE_getD _ _ _ (Nat.mod_lt _ (by decide))
  · simp only [List.mem_cons, List.not_mem_nil, or_false] at he
    rcases he with rfl | rfl | rfl | rfl <;> rfl
end

section
/-! Proofs: the phases of a period (spec/02 R25 to R35), and what firmware does for its requests (spec/17 R512). -/

namespace Sys2Proof.Machine

/-! ## Serving firmware's requests -/

/-- What a function's record keeps when its records, interrupts and completions are written. -/
def Fn.lasting (x : Fn) : Fn := { x with events := Ring.reset, msixPend := [], written := 0 }

/-- What firmware's requests can change: slots, shadow copies, rings, the log, and no active register. -/
structure Served (s t : State) : Prop where
  active : t.regs.active = s.regs.active
  only : Only [.acc, .regs, .fns, .fab, .fw, .free] s t
  fns : SameFn Fn.lasting s t
  fw : ∃ b r q, t.fw = { s.fw with book := b, bookRing := r, reqs := q }

theorem Served.refl (s : State) : Served s s := ⟨rfl, .refl _ _, fun _ => rfl, _, _, _, rfl⟩

theorem Served.trans {s t u : State} (h : Served s t) (h' : Served t u) : Served s u := by
  obtain ⟨_, _, _, hf⟩ := h.fw
  obtain ⟨b, r, q, hf'⟩ := h'.fw
  exact ⟨h'.active.trans h.active, h.only.trans h'.only, h.fns.trans h'.fns, b, r, q, by rw [hf', hf]⟩

/-- The last operation first. -/
theorem Served.snoc {s t u : State} (h : Served t u) (h' : Served s t) : Served s u := h'.trans h

theorem Served.foldl {β : Type} {f : State → β → State} (hf : ∀ s b, Served s (f s b)) (l : List β) (s : State) :
    Served s (l.foldl f s) := by
  induction l generalizing s with
  | nil => exact .refl s
  | cons b l ih => exact (hf s b).trans (ih (f s b))

theorem Served.ite {s t u : State} {c : Prop} [Decidable c] (ht : Served s t) (hu : Served s u) : Served s (if c then t else u) :=
    by
  split
  · exact ht
  · exact hu

theorem Logged.served {s t : State} (h : Logged s t) : Served s t := by
  obtain ⟨m, b, r, rfl⟩ := h
  exact ⟨rfl, fun p hp => by cases p <;> first | (simp at hp; done) | rfl, fun _ => rfl, b, r, _, rfl⟩

theorem setSlot_served (s : State) (n : Nat) (a : AccSlot) : Served s (setSlot s n a) :=
  ⟨rfl, (setSlot_only s n a).mono (by simp), fun _ => rfl, _, _, _, rfl⟩

theorem setFn_served {s : State} {f : Nat} {x : Fn} (h : x.lasting = (fnOf s f).lasting) : Served s (setFn s f x) :=
  ⟨rfl, (setFn_only s f x).mono (by simp), .setFn h, _, _, _, rfl⟩

theorem hostWrite_served (s : State) (a : Nat) (l : List Byte) : Served s (hostWrite s a l) :=
  ⟨rfl, (hostWrite_only s a l).mono (by simp), fun _ => rfl, _, _, _, rfl⟩

theorem traceFree_served (s : State) (group point obj : Nat) : Served s (traceFree s group point obj) := by
  obtain ⟨n, h⟩ := traceFree_logged s group point obj
  have hn : Served s { s with free := n } := ⟨rfl, fun p hp => by cases p <;> first | (simp at hp; done) | rfl, fun _ => rfl, _, _,
      _, rfl⟩
  exact hn.trans h.served

theorem raiseMsix_served (s : State) (f v : Nat) : Served s (raiseMsix s f v) := by
  unfold raiseMsix
  exact .ite (.refl s) (.ite (.ite (.refl s) (setFn_served rfl)) (hostWrite_served _ _ _))

theorem fnOf_hostWrite (s : State) (a : Nat) (l : List Byte) (f : Nat) : fnOf (hostWrite s a l) f = fnOf s f := rfl

theorem fwComplete_served (s : State) (f cmd : Nat) (tag : W32) (st res : Nat) : Served s (fwComplete s f cmd tag st res) := by
  unfold fwComplete
  exact .snoc (raiseMsix_served _ _ _) (.snoc (trace_logged _ _ _ _ _).served
    (.snoc (setFn_served (by rw [fnOf_hostWrite]; rfl)) (hostWrite_served _ _ _)))

theorem unstage_served (s : State) (a : AccSlot) : Served s (unstage s a) :=
  ⟨rfl, fun p hp => by cases p <;> first | (simp at hp; done) | rfl, fun _ => rfl, _, _, _, rfl⟩

theorem accIrq_served (s : State) (r : Requester) : Served s (accIrq s r) := by
  unfold accIrq
  split
  · exact raiseMsix_served _ _ _
  · exact .refl _

theorem refuseSlot_served (s : State) (n code detail : Nat) : Served s (refuseSlot s n code detail) := by
  unfold refuseSlot
  exact .snoc (accIrq_served _ _) (.snoc (dayBook_logged _ _ _ _ _).served (.snoc (unstage_served _ _) (setSlot_served _ _ _)))

theorem stage_served (s : State) (n off v : Nat) : Served s (stage s n off v) := by
  unfold stage
  dsimp only
  refine .ite (setSlot_served _ _ _) (Served.trans ?_ (trace_logged _ _ _ _ _).served)
  exact (setSlot_served s n _).trans ⟨rfl, fun p hp => by cases p <;> first | (simp at hp; done) | rfl, fun _ => rfl, _, _, _, rfl⟩

theorem commitSlot_served (s : State) (n : Nat) (r : Requester) : Served s (commitSlot s n r) :=
  (setSlot_served _ _ _).trans (traceFree_served _ _ _ _)

theorem claimSlot_served (s : State) (r : Requester) (serves : Option Nat) (tag : W32) : Served s (claimSlot s r serves tag).1 := by
  unfold claimSlot
  split
  · exact (setSlot_served _ _ _).trans (traceFree_served _ _ _ _)
  · exact .refl s

theorem setReqs_served (s : State) (x : W32) (l : List AccReq) :
    Served s { s with acc := { s.acc with targetFw := x }, fw := { s.fw with reqs := l } } :=
  ⟨rfl, fun p hp => by cases p <;> first | (simp at hp; done) | rfl, fun _ => rfl, _, _, _, rfl⟩

theorem stageReq_served (s : State) : Served s (stageReq s) := by
  unfold stageReq
  split
  · exact .refl s
  · split
    · exact .refl s
    · rename_i i r _
      have hc := claimSlot_served s .fw (some r.func) r.tag
      split
      · rename_i h
        rwa [h] at hc
      · rename_i h
        rw [h] at hc
        exact .snoc (commitSlot_served _ _ _) (.snoc (setReqs_served _ _ _) (.snoc (.foldl (fun s e => stage_served s _ _ _) _ _)
            hc))

theorem finishReq_served (s : State) (r : AccReq) : Served s (finishReq s r) := by
  unfold finishReq
  split
  · exact .refl s
  · exact .ite (.snoc (fwComplete_served _ _ _ _ _ _) (.snoc (setSlot_served _ _ _) (setReqs_served s s.acc.targetFw _))) (.refl s)

theorem serveReqs_served (s : State) : Served s (serveReqs s) :=
  .ite (.refl s) ((Served.foldl finishReq_served _ s).trans (.foldl (fun s _ => stageReq_served s) _ _))

/-! ## The edge -/

theorem acvApply_only (s : State) (off size : Nat) (v : W64) : Only [.fe, .obj] s (acvApply s off size v) := by
  have one (a : Acv) : Only [.fe, .obj] s (setAcv s a) := fun p hp => by cases p <;> first | (simp at hp; done) | rfl
  unfold acvApply
  dsimp only
  refine .ite (fun _ => one _) fun _ => .ite (fun _ => one _) fun _ => .ite (fun _ => one _) fun _ => .ite (fun _ => one _)
      fun _ => ?_
  refine .ite (fun _ => one _) fun _ => .ite (fun _ => one _) fun _ => ?_
  split
  · exact .refl _ s
  · exact (one _).trans ((putQ_only _ _ _).mono (by simp))

theorem acvEdge_only (s : State) : Only [.fe, .obj] s (acvEdge s) := by
  unfold acvEdge
  exact Only.trans (fun p hp => by cases p <;> first | (simp at hp; done) | rfl) (.foldl (fun s w => acvApply_only s _ _ _) _ _)

/-- What follows the beginning of a period changes no active register. -/
theorem edgeNow_active (s : State) (k o : Nat) : active (edgeNow s k) o = active (edgeOpened s k) o := by
  rw [edgeNow_eq]
  dsimp only
  generalize edgeOpened s k = u
  let v := setObj u { u.obj with queues := tmap u.obj.queues fun _ x => { x with recs := x.recs.map (tickDue k) } }
  have h : (serveReqs (acvEdge v)).regs.active = u.regs.active :=
    (serveReqs_served _).active.trans (congrArg RegFile.active (acvEdge_only v .regs (by decide)))
  simp only [active, ← h]
  rfl

/-! ## The margin and the settle phase -/

/-- A unit's measured work grows, and nothing else of a record. -/
theorem measureDesc_eq (s : State) (q : Nat) (x : Queue) (dt : Nat) (d : Desc) : ∃ m, measureDesc s q x dt d = { d with measured :=
    m }
    := by
  unfold measureDesc
  split
  · exact ⟨_, rfl⟩
  · exact ⟨d.measured, rfl⟩

/-- Of objects, time that passes changes the measured work of the records of real-time queues. -/
theorem passTo_queues (s : State) (t : Nat) :
    (passTo s t).obj = { s.obj with queues := (passTo s t).obj.queues } ∧
      (∀ q x, tget s.obj.queues q = some x → x.rt = false → tget (passTo s t).obj.queues q = some x) ∧
      ∀ q x, tget s.obj.queues q = some x → ∃ l, tget (passTo s t).obj.queues q = some { x with recs := l } ∧
        l.map (fun d => { d with measured := 0 }) = x.recs.map fun d => { d with measured := 0 } := by
  unfold passTo
  split
  · exact ⟨rfl, fun q x h _ => h, fun q x h => ⟨x.recs, h, rfl⟩⟩
  · refine ⟨rfl, fun q x h hrt => ?_, fun q x h => ?_⟩
    · simp [setHoop, tget_tmap, h, hrt]
    · simp only [setHoop, tget_tmap, h, Option.map_some]
      split
      · refine ⟨_, rfl, ?_⟩
        rw [List.map_map]
        refine List.map_congr_left fun d _ => ?_
        obtain ⟨m, hm⟩ := measureDesc_eq s q x (t - s.hoop.time) d
        simp [Function.comp, hm]
      · exact ⟨x.recs, rfl, rfl⟩

theorem startWake_only (s : State) (d src : Nat) : Only [.pwr] s (startWake s d src) :=
  .ite (fun _ => .refl _ s) fun _ p hp => by cases p <;> first | (simp at hp; done) | rfl

theorem roleWakes_only (s : State) (k : Nat) : Only [.pwr] s (roleWakes s k) := .foldl (fun s d => startWake_only s d 4) _ s

theorem levelCutoff_only (s : State) (k : Nat) : Only [.pwr] s (levelCutoff s k) := by
  unfold levelCutoff
  split
  · exact .ite (fun _ p hp => by cases p <;> first | (simp at hp; done) | rfl) fun _ => .refl _ s
  · exact .refl _ s

theorem mirrorSend_only (s : State) : Only [.twin] s (mirrorSend s) :=
  .ite (fun _ p hp => by cases p <;> first | (simp at hp; done) | rfl) fun _ => .refl _ s

/-- After C no message, channel or credit is in flight. -/
theorem cutoffNow_cores (s : State) : (cutoffNow s).cores = (cutoffCut s).cores := by
  rw [cutoffNow_eq]
  exact ((roleWakes_only _ _ .cores (by decide)).trans (levelCutoff_only _ _ .cores (by decide))).trans
    (mirrorSend_only _ .cores (by decide))

/-- The lines of a slot that has been cleaned are not dirty. -/
theorem cleanSlot_hasDirty (s : State) (n : Nat) : hasDirty (cleanSlot s n) n = false := by
  simp only [hasDirty, cleanSlot, cleanFab, List.any_map, List.any_eq_false, Function.comp]
  intro l _
  by_cases hl : l.slot = n
  · simp [hl, cleanLine]
  · simp [hl]

end Sys2Proof.Machine

open Sys2Proof Sys2Proof.Machine

/-- Settles O7: the Hoop after an edge, with the registers as they stand once the edge has applied its slots. -/
theorem periodsStartAndFollow : Obligations.PeriodsStartAndFollow := by
  refine ⟨⟨fun s hb hrun => ?_, fun s hrun => ?_⟩, fun s hrun hr ht => ⟨edge s, rfl, ?_⟩⟩
  · have hr : s.brd.inReset = false := by
      simp only [bar0Ok, Bool.and_eq_true, Bool.not_eq_true'] at hb
      exact hb.1.2
    have hu : (passTo s (s.hoop.time + 1)).hoop = { s.hoop with time := s.hoop.time + 1 } := by rw [passTo_hoop hr]; simp
    have hx : exec .hoopStart s = .next (hoopStart s) := rfl
    simp only [hoopStart, hrun, hb, Bool.not_true, Bool.false_eq_true, or_self, if_false] at hx
    generalize passTo s (s.hoop.time + 1) = u at hx hu
    obtain ⟨n, hn⟩ := edgeNow_hoop u 0
    generalize edgeNow u 0 = v at hx hn
    refine ⟨_, hx, ?_⟩
    change v.hoop.running = true ∧ v.hoop.tick = 0 ∧ v.hoop.time = _ ∧ v.hoop.edge = _ ∧ v.hoop.phase = _ ∧ v.hoop.overrun = _
    rw [hn, hu]
    exact ⟨rfl, rfl, rfl, rfl, rfl, rfl⟩
  · change Host.Outcome.next (hoopStart s) = _
    rw [hoopStart, if_pos (.inl hrun)]
  · obtain ⟨h1, h2, h3⟩ := edge_hoop hrun hr
    have htime : (edge s).hoop.time = s.hoop.edge + s.hoop.perCyc := by rw [h1, max_eq_right ht]; rfl
    have he := edge_eq hrun hr
    obtain ⟨n, hn⟩ := edgeNow_hoop (endPeriod (passTo (toSettle s) (periodEnd (toSettle s)))) ((toSettle s).hoop.tick + 1)
    have ha := edgeNow_active (endPeriod (passTo (toSettle s) (periodEnd (toSettle s)))) ((toSettle s).hoop.tick + 1)
    rw [← he] at hn ha
    refine ⟨h3, h2.trans htime, h2.symm, ?_, ?_, ?_, ?_, ?_⟩
    all_goals rw [hn]
    all_goals simp only [ha]

/-- Settles O8: the phase ends at its cycle, and of a slot's settle work only what it names is left out. -/
theorem phasesFollowInOrder : Obligations.PhasesFollowInOrder := by
  refine ⟨fun s hrun hr hp => ?_, fun s hrun hr hp => ?_, fun s n => ⟨fun hn => ?_, fun hn => ?_⟩⟩
  · have hx : exec .marginStart s = .next (toDrain s) := by
      change Host.Outcome.next (ite _ _ _) = _
      rw [if_pos ⟨hrun, by simp [hr]⟩]
    have he : toDrain s = marginNow (passTo s (marginAt s)) := if_pos hp
    obtain ⟨ho, hbe, hrt⟩ := passTo_queues s (marginAt s)
    have hobj : (toDrain s).obj = (passTo s (marginAt s)).obj := by rw [he]; rfl
    refine ⟨_, hx, toDrain_hoop hr hp, ?_, ?_⟩
    · rw [he]
      exact (passTo_only _ _).trans fun p hp => by cases p <;> first | (simp at hp; done) | rfl
    · rw [hobj]
      exact ⟨ho, hbe, hrt⟩
  · have hne : s.hoop.phase ≠ .opened := by rw [hp]; decide
    have hx : exec .cutoff s = .next (cutoffNow (passTo s (cutoffAt s))) := by
      change Host.Outcome.next (ite _ _ _) = _
      rw [if_pos ⟨hrun, by simp [hr]⟩, toSettle, toDrain_of_not_opened hne]
      simp only [hp, if_true]
    obtain ⟨m, hm⟩ := cutoffNow_hoop (passTo s (cutoffAt s))
    have hfab : (passTo s (cutoffAt s)).fab = s.fab := passTo_only _ _ .fab (by decide)
    have hd : dirtySlots (passTo s (cutoffAt s)) = dirtySlots s := by rw [dirtySlots, hfab, dirtySlots]
    refine ⟨_, hx, ?_⟩
    beta_reduce
    rw [hm, passTo_hoop hr, hd, hfab, cutoffNow_cores]
    exact ⟨rfl, rfl, rfl, rfl, rfl, rfl, rfl, rfl, rfl⟩
  · have hx : exec (.settleDone n) s = .next (setHoop (cleanSlot s n.val)
        { s.hoop with settleBusy := s.hoop.settleBusy.filter fun k => k ≠ n.val }) := by
      change Host.Outcome.next (settleDone s n.val) = _
      rw [settleDone, if_pos (by simpa using hn)]
      rfl
    refine ⟨_, hx, rfl, cleanSlot_hasDirty s n.val, rfl, fun p hp => by cases p <;> first | (simp at hp; done) | rfl⟩
  · change Host.Outcome.next (settleDone s n.val) = _
    have hf : s.hoop.settleBusy.filter (fun k => k ≠ n.val) = s.hoop.settleBusy :=
      List.filter_eq_self.2 fun k hk => by simpa using fun h : k = n.val => hn (h ▸ hk)
    rw [settleDone, if_neg (by simpa using hn)]
    dsimp only
    rw [hf]
    rfl
end

section
/-! Proofs: what the end of work, the drain of a queue and the loss of a context leave (spec/03 R74 to R83, spec/05 R151). -/

namespace Sys2Proof.Machine

/-! ## The relation -/

/-- What a function's record keeps when events and interrupts of it are recorded. -/
def Fn.settled (x : Fn) : Fn := { x with events := Ring.reset, msixPend := [] }

/-- What work that ends without OK leaves of the objects and streams: it removes events, DRAINING queues and DESTROYING contexts,
    and
changes no fence, no owner, no stream. -/
structure Ends (s t : State) : Prop where
  fns : SameFn Fn.settled s t
  ctxs : ∀ c, ctxOf t c = ctxOf s c ∨ ctxOf t c = none ∧ ∃ x, ctxOf s c = some x ∧ x.st = .destroying
  fences : t.obj.fences = s.obj.fences
  events : ∀ e y, tget t.obj.events e = some y → tget s.obj.events e = some y
  graphs : ∀ g y, tget t.obj.graphs g = some y → ∃ x, tget s.obj.graphs g = some x ∧ y.func = x.func ∧ y.ctx = x.ctx
  queues : ∀ q y, q ≠ winKey → tget t.obj.queues q = some y →
    ∃ x, tget s.obj.queues q = some x ∧ y.func = x.func ∧ y.ctx = x.ctx ∧ (x.st = .draining → y.st = .draining)
  circ : ∃ l, t.circ = { s.circ with sends := l }

theorem Ends.refl (s : State) : Ends s s :=
  ⟨fun _ => rfl, fun _ => .inl rfl, rfl, fun _ _ h => h, fun _ y h => ⟨y, h, rfl, rfl⟩, fun _ y _ h => ⟨y, h, rfl, rfl, id⟩, _, rfl⟩

theorem Ends.trans {s t u : State} (h : Ends s t) (h' : Ends t u) : Ends s u where
  fns := h.fns.trans h'.fns
  ctxs c := by
    rcases h'.ctxs c with h1 | ⟨h1, x, hx, hd⟩
    · rw [h1]
      exact h.ctxs c
    · rcases h.ctxs c with h2 | ⟨h2, -⟩
      · exact .inr ⟨h1, x, h2 ▸ hx, hd⟩
      · rw [h2] at hx
        cases hx
  fences := h'.fences.trans h.fences
  events e y hy := h.events e y (h'.events e y hy)
  graphs g z hz := by
    obtain ⟨y, hy, h1, h2⟩ := h'.graphs g z hz
    obtain ⟨x, hx, h3, h4⟩ := h.graphs g y hy
    exact ⟨x, hx, h1.trans h3, h2.trans h4⟩
  queues q z hq hz := by
    obtain ⟨y, hy, h1, h2, h5⟩ := h'.queues q z hq hz
    obtain ⟨x, hx, h3, h4, h6⟩ := h.queues q y hq hy
    exact ⟨x, hx, h1.trans h3, h2.trans h4, fun hd => h5 (h6 hd)⟩
  circ := by
    obtain ⟨l, hl⟩ := h.circ
    obtain ⟨l', hl'⟩ := h'.circ
    exact ⟨l', by rw [hl', hl]⟩

/-- The last operation first. -/
theorem Ends.snoc {s t u : State} (h : Ends t u) (h' : Ends s t) : Ends s u := h'.trans h

theorem Ends.ite {s t u : State} {c : Prop} [Decidable c] (ht : c → Ends s t) (hu : ¬c → Ends s u) : Ends s (if c then t else u) :=
    by
  split
  · exact ht ‹_›
  · exact hu ‹_›

theorem Ends.foldl {β : Type} {f : State → β → State} (hf : ∀ s b, Ends s (f s b)) (l : List β) (s : State) :
    Ends s (l.foldl f s) := by
  induction l generalizing s with
  | nil => exact .refl s
  | cons b l ih => exact (hf s b).trans (ih (f s b))

/-- An operation that leaves the objects, the functions' records and the streams. -/
theorem Ends.of_eq {s t : State} (ho : t.obj = s.obj) (hf : t.fns = s.fns) (hc : t.circ = s.circ) : Ends s t :=
  ⟨.of_fns _ hf, fun c => .inl (by rw [ctxOf, ho, ctxOf]), by rw [ho], fun e y h => ho ▸ h, fun g y h => ⟨y, ho ▸ h, rfl, rfl⟩,
    fun q y _ h => ⟨y, ho ▸ h, rfl, rfl, id⟩, s.circ.sends, hc⟩

/-- An operation on the objects alone. -/
theorem Ends.of_obj {s : State} {o : Objects} (hc : ∀ c, tget o.ctxs c = ctxOf s c ∨ tget o.ctxs c = none ∧
      ∃ x, ctxOf s c = some x ∧ x.st = .destroying) (hf : o.fences = s.obj.fences)
    (he : ∀ e y, tget o.events e = some y → tget s.obj.events e = some y)
    (hg : ∀ g y, tget o.graphs g = some y → ∃ x, tget s.obj.graphs g = some x ∧ y.func = x.func ∧ y.ctx = x.ctx)
    (hq : ∀ q y, q ≠ winKey → tget o.queues q = some y →
      ∃ x, tget s.obj.queues q = some x ∧ y.func = x.func ∧ y.ctx = x.ctx ∧ (x.st = .draining → y.st = .draining)) :
    Ends s (setObj s o) := ⟨fun _ => rfl, hc, hf, he, hg, hq, _, rfl⟩

/-! ## Records, and the objects that end -/

theorem raiseMsix_settled (s : State) (f v : Nat) : SameFn Fn.settled s (raiseMsix s f v) := by
  unfold raiseMsix
  dsimp only
  split
  · exact .of_fns _ rfl
  · split
    · split
      · exact .of_fns _ rfl
      · exact .setFn rfl
    · exact .of_fns _ rfl

theorem eventRec_settled (s : State) (f kind status reason event object value : Nat) :
    SameFn Fn.settled s (eventRec s f kind status reason event object value) := by
  unfold eventRec
  dsimp only
  generalize ringPut _ _ _ = r
  have h : SameFn Fn.settled s (setFn { s with fab := { s.fab with host := r.1 } } f { fnOf s f with events := r.2.1 }) :=
    SameFn.trans (t := { s with fab := { s.fab with host := r.1 } }) (.of_fns _ rfl) (.setFn rfl)
  split
  · exact h.trans (raiseMsix_settled _ _ _)
  · exact h

theorem eventRec_ends (s : State) (f kind status reason event object value : Nat) :
    Ends s (eventRec s f kind status reason event object value) := by
  have ho : (eventRec s f kind status reason event object value).obj = s.obj := eventRec_only _ _ _ _ _ _ _ _ .obj (by decide)
  have hc : (eventRec s f kind status reason event object value).circ = s.circ := eventRec_only _ _ _ _ _ _ _ _ .circ (by decide)
  have h := Ends.of_eq (s := s) (t := { eventRec s f kind status reason event object value with fns := s.fns }) ho rfl hc
  exact ⟨eventRec_settled _ _ _ _ _ _ _ _, h.ctxs, h.fences, h.events, h.graphs, h.queues, h.circ⟩

theorem tget_tdel_some {α : Type} {t : Tbl α} {n k : Nat} {y : α} (h : tget (tdel t n) k = some y) : k ≠ n ∧ tget t k = some y := by
  by_cases hk : k = n
  · subst hk
    simp at h
  · exact ⟨hk, by rwa [tget_tdel_other _ hk] at h⟩

/-- A context that goes is DESTROYING. -/
theorem ctxGone_ends (s : State) (c : Nat) : Ends s (ctxGone s c) := by
  unfold ctxGone
  split
  · exact .refl s
  · rename_i x hx
    refine .ite (fun h => .snoc (eventRec_ends _ _ _ _ _ _ _ _) (.snoc (t := { s with mmu := dropAsid s.mmu c }) ?_ (.of_eq rfl rfl
        rfl)))
      fun _ => .refl s
    refine .of_obj (fun k => ?_) rfl (fun _ _ h => h) (fun _ y h => ⟨y, h, rfl, rfl⟩) fun _ y _ h => ⟨y, h, rfl, rfl, id⟩
    change tget (tdel s.obj.ctxs c) k = _ ∨ tget (tdel s.obj.ctxs c) k = none ∧ _
    by_cases hk : k = c
    · subst hk
      exact .inr ⟨tget_tdel_same _ _, x, hx, h.1⟩
    · exact .inl (tget_tdel_other _ hk)

/-- A queue that goes is DRAINING. -/
theorem queueDrained_ends (s : State) (q : Nat) : Ends s (queueDrained s q) := by
  unfold queueDrained
  split
  · exact .refl s
  · refine .ite (fun _ => .snoc (ctxGone_ends _ _) (.snoc (eventRec_ends _ _ _ _ _ _ _ _) ?_)) fun _ => .refl s
    refine .of_obj (fun _ => .inl rfl) rfl (fun _ _ h => h) (fun _ y h => ⟨y, h, rfl, rfl⟩) fun k y _ h => ?_
    exact ⟨y, (tget_tdel_some h).2, rfl, rfl, id⟩

/-- A queue put back as it was but for its work; the window's own entry is no object. -/
theorem putQ_ends' {s : State} {q : Nat} {x y : Queue} (hx : q ≠ winKey → tget s.obj.queues q = some x) (hf : y.func = x.func)
    (hc : y.ctx = x.ctx) (hd : x.st = .draining → y.st = .draining) : Ends s (putQ s q y) := by
  refine .of_obj (fun _ => .inl rfl) rfl (fun _ _ h => h) (fun _ y h => ⟨y, h, rfl, rfl⟩) fun k z hk h => ?_
  simp only [tget_tset] at h
  split at h
  · rename_i hkq
    cases h
    subst hkq
    exact ⟨x, hx hk, hf, hc, hd⟩
  · exact ⟨z, h, rfl, rfl, id⟩

theorem putQ_ends {s : State} {q : Nat} {x y : Queue} (hx : getQ s q = some x) (hf : y.func = x.func) (hc : y.ctx = x.ctx)
    (hd : x.st = .draining → y.st = .draining) : Ends s (putQ s q y) :=
  putQ_ends' (fun hq => by rwa [getQ, if_neg hq] at hx) hf hc hd

/-! ## A descriptor that ends -/

/-- Retiring records leaves the queue's owner and state. -/
theorem retireLoop_fields (n : Nat) (x : Queue) : (retireLoop n x).func = x.func ∧ (retireLoop n x).ctx = x.ctx ∧
    (retireLoop n x).st = x.st ∧ (retireLoop n x).completed = x.completed := by
  induction n generalizing x with
  | zero => exact ⟨rfl, rfl, rfl, rfl⟩
  | succ n ih =>
    rw [retireLoop]
    split
    · split
      · exact ih _
      · exact ⟨rfl, rfl, rfl, rfl⟩
    · exact ⟨rfl, rfl, rfl, rfl⟩

/-- A queue with the record of a descriptor ended, charged and counted. -/
def countEnd (x : Queue) (d : Desc) (st : Nat) : Queue :=
  let x := chargeExcess (setRec x { d with stage := .ended st, waiting := false }) d
  { x with completed := (x.completed + 1) % 2 ^ 48, progressed := true }

/-- A queue halts on the first status that halts. -/
def haltOn (st : Nat) (x : Queue) : Queue := if haltSt st && x.st = .active then { x with st := .halted } else x

/-- A halted queue names the record at which it stands. -/
def notePoint (x : Queue) : Queue :=
  match x.st, haltPoint x with
  | .halted, some (hi, hs) => { x with haltIdx := hi, haltStatus := hs }
  | _, _ => x

/-- A queue once a descriptor of it has ended: what has ended at the front is retired. -/
def endedQ (x : Queue) (d : Desc) (st : Nat) : Queue :=
  let x := notePoint (haltOn st (countEnd x d st))
  retireLoop (x.recs.length) x

theorem haltOn_fields (st : Nat) (x : Queue) : (haltOn st x).func = x.func ∧ (haltOn st x).ctx = x.ctx ∧
    (haltOn st x).completed = x.completed ∧ ((haltOn st x).st = .draining ↔ x.st = .draining) := by
  unfold haltOn
  split
  · rename_i h
    simp only [Bool.and_eq_true, decide_eq_true_eq] at h
    simp [h.2]
  · exact ⟨rfl, rfl, rfl, .rfl⟩

theorem notePoint_fields (x : Queue) : (notePoint x).func = x.func ∧ (notePoint x).ctx = x.ctx ∧
    (notePoint x).completed = x.completed ∧ (notePoint x).st = x.st := by
  unfold notePoint
  split
  · rename_i h _
    exact ⟨rfl, rfl, rfl, rfl⟩
  · exact ⟨rfl, rfl, rfl, rfl⟩

theorem endedQ_fields (x : Queue) (d : Desc) (st : Nat) : (endedQ x d st).func = x.func ∧ (endedQ x d st).ctx = x.ctx ∧
    (endedQ x d st).completed = (x.completed + 1) % 2 ^ 48 ∧ ((endedQ x d st).st = .draining ↔ x.st = .draining) := by
  obtain ⟨a1, a2, a3, a4⟩ := haltOn_fields st (countEnd x d st)
  obtain ⟨b1, b2, b3, b4⟩ := notePoint_fields (haltOn st (countEnd x d st))
  obtain ⟨c1, c2, c3, c4⟩ :=
    retireLoop_fields (notePoint (haltOn st (countEnd x d st))).recs.length (notePoint (haltOn st (countEnd x d st)))
  exact ⟨c1.trans (b1.trans a1), c2.trans (b2.trans a2), c4.trans (b3.trans a3), by rw [endedQ, c3, b4, a4]; rfl⟩

/-- The state in which a descriptor has ended, before its queue is looked at for the end of a drain. -/
def endedState (s : State) (q : Nat) (x : Queue) (d : Desc) (st : Nat) : State :=
  let y := endedQ x d st
  let s := putQ s q y
  let s := if q = winKey then
      { s with fe := { s.fe with acv := { s.fe.acv with ring := s.fe.acv.ring.filter fun e => ringDist y e.1 < 2 ^ 31 } } }
    else s
  if (haltSt st && x.st = .active) ∧ q ≠ winKey then eventRec s y.func 0x02 0 st 0 (handleOf s.obj 2 q) 0 else s

theorem endDesc_eq {s : State} {q : Nat} {i : W32} {x : Queue} {d : Desc} (hx : getQ s q = some x) (hd : recOf x i = some d)
    (st : Nat) : endDesc s q i st = queueDrained (endedState s q x d st) q := by
  unfold endDesc
  rw [hx]
  simp only [hd]
  rfl

theorem endedState_obj (s : State) (q : Nat) (x : Queue) (d : Desc) (st : Nat) :
    (endedState s q x d st).obj = (putQ s q (endedQ x d st)).obj := by
  unfold endedState
  dsimp only
  have h (u : State) (hu : u.obj = (putQ s q (endedQ x d st)).obj) (f h : Nat) :
      (if (haltSt st && x.st = .active) ∧ q ≠ winKey then eventRec u f 0x02 0 st 0 h 0 else u).obj =
        (putQ s q (endedQ x d st)).obj := by
    split
    · rw [eventRec_only _ _ _ _ _ _ _ _ .obj (by decide), hu]
    · exact hu
  refine h _ ?_ _ _
  split <;> rfl

theorem endedState_ends {s : State} {q : Nat} {x : Queue} (hx : getQ s q = some x) (d : Desc) (st : Nat) :
    Ends s (endedState s q x d st) := by
  obtain ⟨h1, h2, -, h4⟩ := endedQ_fields x d st
  have hp : Ends s (putQ s q (endedQ x d st)) := putQ_ends hx h1 h2 h4.2
  unfold endedState
  dsimp only
  have hf := Ends.ite (c := q = winKey) (fun _ => hp.trans (.of_eq (t := { putQ s q (endedQ x d st) with
    fe := { (putQ s q (endedQ x d st)).fe with acv := { (putQ s q (endedQ x d st)).fe.acv with
      ring := (putQ s q (endedQ x d st)).fe.acv.ring.filter fun e => ringDist (endedQ x d st) e.1 < 2 ^ 31 } } }) rfl rfl rfl))
    fun _ => hp
  exact .ite (fun _ => hf.trans (eventRec_ends _ _ _ _ _ _ _ _)) fun _ => hf

theorem endDesc_ends (s : State) (q : Nat) (i : W32) (st : Nat) : Ends s (endDesc s q i st) := by
  cases hx : getQ s q with
  | none =>
    unfold endDesc
    rw [hx]
    exact .refl s
  | some x =>
    cases hd : recOf x i with
    | none =>
      unfold endDesc
      rw [hx]
      simp only [hd]
      exact .refl s
    | some d =>
      rw [endDesc_eq hx hd]
      exact (endedState_ends hx d st).trans (queueDrained_ends _ _)

/-! ## Work that is dropped -/

theorem graphDown_graphs (o : Objects) (g gen : Nat) (b : Bool) :
    (graphDown o g gen b) = { o with graphs := (graphDown o g gen b).graphs } ∧
      ∀ k y, tget (graphDown o g gen b).graphs k = some y → ∃ x, tget o.graphs k = some x ∧ y.func = x.func ∧ y.ctx = x.ctx := by
  unfold graphDown
  split
  · exact ⟨rfl, fun k y h => ⟨y, h, rfl, rfl⟩⟩
  · refine ⟨rfl, fun k y h => ?_⟩
    simp only [tget_tmod] at h
    split at h
    · obtain ⟨x, hx, rfl⟩ := Option.map_eq_some_iff.1 h
      refine ⟨x, hx, ?_⟩
      split <;> exact ⟨rfl, rfl⟩
    · exact ⟨y, h, rfl, rfl⟩

/-- Launches that are dropped give back their place in their graph's slot. -/
theorem foldl_graphDown (l : List Launch) (o : Objects) : let r := l.foldl (fun o l => graphDown o l.graph l.gen l.slotB) o
    r = { o with graphs := r.graphs } ∧
      ∀ k y, tget r.graphs k = some y → ∃ x, tget o.graphs k = some x ∧ y.func = x.func ∧ y.ctx = x.ctx := by
  induction l generalizing o with
  | nil => exact ⟨rfl, fun k y h => ⟨y, h, rfl, rfl⟩⟩
  | cons a l ih =>
    obtain ⟨h1, h2⟩ := graphDown_graphs o a.graph a.gen a.slotB
    obtain ⟨h3, h4⟩ := ih (graphDown o a.graph a.gen a.slotB)
    refine ⟨?_, fun k z hz => ?_⟩
    · rw [List.foldl_cons]
      exact h3.trans (by rw [h1])
    · obtain ⟨y, hy, e1, e2⟩ := h4 k z hz
      obtain ⟨x, hx, e3, e4⟩ := h2 k y hy
      exact ⟨x, hx, e1.trans e3, e2.trans e4⟩

theorem dropRuns_ends (s : State) (p : Run → Bool) : Ends s (dropRuns s p) := .of_eq rfl rfl rfl

theorem dropPasses_ends (s : State) (p : Pass → Bool) : Ends s (dropPasses s p) := .of_eq rfl rfl rfl

theorem dropWork_ends (s : State) (q : Nat) (i : W32) : Ends s (dropWork s q i) := by
  have hu : Ends s (dropPasses (dropRuns s fun r => r.q == q && r.i == i) fun p => p.q == q && p.i == i) :=
    (dropRuns_ends _ _).trans (dropPasses_ends _ _)
  refine hu.trans ?_
  unfold dropWork
  dsimp only
  generalize dropPasses (dropRuns s fun r => r.q == q && r.i == i) (fun p => p.q == q && p.i == i) = u
  obtain ⟨h1, h2⟩ := foldl_graphDown (u.obj.launches.filter fun l => l.q == q && l.i == i) u.obj
  generalize (u.obj.launches.filter fun l => l.q == q && l.i == i).foldl (fun o l => graphDown o l.graph l.gen l.slotB) u.obj = r
      at h1 h2
  have hctx : r.ctxs = u.obj.ctxs := by rw [h1]
  have hfen : r.fences = u.obj.fences := by rw [h1]
  have hev : r.events = u.obj.events := by rw [h1]
  have hqs : r.queues = u.obj.queues := by rw [h1]
  have ho : Ends u (setObj u { r with launches := r.launches.filter fun l => !(l.q == q && l.i == i) }) :=
    .of_obj (fun c => .inl (by rw [ctxOf, ← hctx])) hfen (fun e y h => hev ▸ h) h2 fun k y _ h => ⟨y, hqs ▸ h, rfl, rfl, id⟩
  exact ⟨ho.fns, ho.ctxs, ho.fences, ho.events, ho.graphs, ho.queues, _, rfl⟩

theorem complete_ends (s : State) (q : Nat) (i : W32) {st : Nat} (hst : st ≠ 0) : Ends s (complete s q i st) := by
  unfold complete
  split
  · exact .refl s
  · split
    · exact .refl s
    · rw [if_pos hst]
      exact (dropWork_ends s q i).trans (endDesc_ends _ _ _ _)

theorem failWaits_ends (s : State) (f : Nat) {st : Nat} (hst : st ≠ 0) (c : Option Nat) : Ends s (failWaits s f st c) := by
  unfold failWaits
  refine .snoc (.of_obj (fun _ => .inl rfl) rfl (fun _ _ h => h) (fun _ y h => ⟨y, h, rfl, rfl⟩) fun _ y _ h => ⟨y, h, rfl, rfl,
      id⟩)
    (.foldl (fun s q => ?_) _ s)
  split
  · exact .refl s
  · exact .ite (fun _ => .refl s) fun _ => .foldl (fun s d => complete_ends s _ _ hst) _ s

theorem flushQueue_ends (s : State) (q : Nat) {st : Nat} (hst : st ≠ 0) : Ends s (flushQueue s q st) := by
  unfold flushQueue
  split
  · exact .refl s
  · exact .foldl (fun s d => complete_ends s _ _ hst) _ s

/-! ## Events that end with their fence -/

theorem freeEvent_ends (s : State) (e : Nat) : Ends s (setObj s (freeEvent s.obj e)) :=
  .of_obj (fun _ => .inl rfl) rfl (fun _ _ h => (tget_tdel_some h).2) (fun _ y h => ⟨y, h, rfl, rfl⟩)
    fun _ y _ h => ⟨y, h, rfl, rfl, id⟩

/-- One event of a fence ends. -/
def endEvent (f st : Nat) (s : State) (e : Nat) : State :=
  match tget s.obj.events e with
  | none => s
  | some x =>
    let v := ((tget s.obj.fences f).map (·.value.toNat)).getD 0
    let t := eventRec s x.func 0x01 st 0 (handleOf s.obj 4 e) (handleOf s.obj 3 f) v
    setObj t (freeEvent t.obj e)

theorem endEvents_eq (s : State) (f st : Nat) : endEvents s f st = (eventsOn s.obj f).foldl (endEvent f st) s := rfl

theorem endEvent_ends (f st : Nat) (s : State) (e : Nat) : Ends s (endEvent f st s e) := by
  unfold endEvent
  split
  · exact .refl s
  · exact .snoc (freeEvent_ends _ _) (eventRec_ends _ _ _ _ _ _ _ _)

theorem endEvent_gone (f st : Nat) (s : State) (e : Nat) : tget (endEvent f st s e).obj.events e = none := by
  unfold endEvent
  split
  · assumption
  · exact tget_tdel_same _ _

theorem endEvents_ends (s : State) (f st : Nat) : Ends s (endEvents s f st) := .foldl (endEvent_ends f st) _ s

/-- Of events that are ended in turn, none is left. -/
theorem foldl_endEvent_gone (f st : Nat) (l : List Nat) (s : State) (e : Nat) (he : e ∈ l) :
    tget (l.foldl (endEvent f st) s).obj.events e = none := by
  induction l generalizing s with
  | nil => cases he
  | cons a l ih =>
    rw [List.foldl_cons]
    rcases List.mem_cons.1 he with rfl | he
    · cases hy : tget (l.foldl (endEvent f st) (endEvent f st s e)).obj.events e with
      | none => rfl
      | some y =>
        have := (Ends.foldl (endEvent_ends f st) l (endEvent f st s e)).events e y hy
        rw [endEvent_gone] at this
        cases this
    · exact ih _ he

/-- No event of the fence is left. -/
theorem endEvents_gone {s : State} {f st e : Nat} {y : Event} (h : tget (endEvents s f st).obj.events e = some y) : y.fence ≠ f :=
    by
  intro hf
  have hs := (endEvents_ends s f st).events e y h
  have he : e ∈ eventsOn s.obj f := List.mem_map.2 ⟨(e, y), List.mem_filter.2 ⟨tget_mem hs, by simpa using hf⟩, rfl⟩
  rw [endEvents_eq, foldl_endEvent_gone f st _ s e he] at h
  cases h

end Sys2Proof.Machine
end

section
/-! Proofs: the loss of a context and the destroy commands (spec/03 R65, R74, R75, R82, R83). -/

namespace Sys2Proof.Machine

theorem Ends.counts {s t : State} (h : Ends s t) : SameFn Fn.counts s t := fun g =>
  show (fnOf t g).settled.counts = (fnOf s g).settled.counts by rw [h.fns g]

/-! ## Losses -/

/-- No context changes but DESTROYING ones, that go. -/
def CtxsKept (s t : State) : Prop := ∀ c, ctxOf t c = ctxOf s c ∨ ctxOf t c = none ∧ ∃ x, ctxOf s c = some x ∧ x.st = .destroying

theorem CtxsKept.trans {s t u : State} (h : CtxsKept s t) (h' : CtxsKept t u) : CtxsKept s u := fun c => by
  rcases h' c with h1 | ⟨h1, x, hx, hd⟩
  · rw [h1]
    exact h c
  · rcases h c with h2 | ⟨h2, -⟩
    · exact .inr ⟨h1, x, h2 ▸ hx, hd⟩
    · rw [h2] at hx
      cases hx

theorem CtxsKept.foldl {β : Type} {f : State → β → State} (hf : ∀ s b, CtxsKept s (f s b)) (l : List β) (s : State) :
    CtxsKept s (l.foldl f s) := by
  induction l generalizing s with
  | nil => exact fun _ => .inl rfl
  | cons b l ih => exact (hf s b).trans (ih (f s b))

/-- What the loss of contexts leaves: each context is as it was, or ACTIVE before and LOST now, or DESTROYING before and gone. -/
structure Loses (s t : State) : Prop where
  fns : SameFn Fn.settled s t
  ctxs : ∀ c, ctxOf t c = ctxOf s c ∨ (ctxOf t c = none ∧ ∃ x, ctxOf s c = some x ∧ x.st = .destroying) ∨
    ∃ x r, ctxOf s c = some x ∧ x.st = .active ∧ ctxOf t c = some { x with st := .lost, reason := r }
  fences : ∀ f y, tget t.obj.fences f = some y → ∃ x, tget s.obj.fences f = some x ∧ y.ctx = x.ctx ∧ (x.lost = true → y.lost = true)
  streams : ∀ n y, tget t.circ.streams n = some y → tget s.circ.streams n = some y
  circ : ∃ l m, t.circ = { s.circ with sends := l, streams := m }

theorem Ends.loses {s t : State} (h : Ends s t) : Loses s t := by
  obtain ⟨l, hl⟩ := h.circ
  exact ⟨h.fns, fun c => (h.ctxs c).imp id .inl, fun f y hy => ⟨y, h.fences ▸ hy, rfl, id⟩, fun n y hy => by rwa [hl] at hy,
    l, s.circ.streams, hl⟩

theorem Loses.counts {s t : State} (h : Loses s t) : SameFn Fn.counts s t := fun g =>
  show (fnOf t g).settled.counts = (fnOf s g).settled.counts by rw [h.fns g]

theorem Loses.refl (s : State) : Loses s s := (Ends.refl s).loses

theorem Loses.trans {s t u : State} (h : Loses s t) (h' : Loses t u) : Loses s u where
  fns := h.fns.trans h'.fns
  ctxs c := by
    rcases h'.ctxs c with h1 | ⟨h1, x, hx, hd⟩ | ⟨x, r, hx, ha, h1⟩
    · rw [h1]
      exact h.ctxs c
    · rcases h.ctxs c with h2 | ⟨h2, -⟩ | ⟨y, r, -, -, h2⟩
      · exact .inr (.inl ⟨h1, x, h2 ▸ hx, hd⟩)
      · rw [h2] at hx
        cases hx
      · rw [h2] at hx
        cases hx
        cases hd
    · rcases h.ctxs c with h2 | ⟨h2, -⟩ | ⟨y, r, -, -, h2⟩
      · exact .inr (.inr ⟨x, r, h2 ▸ hx, ha, h1⟩)
      · rw [h2] at hx
        cases hx
      · rw [h2] at hx
        cases hx
        cases ha
  fences f z hz := by
    obtain ⟨y, hy, h1, h2⟩ := h'.fences f z hz
    obtain ⟨x, hx, h3, h4⟩ := h.fences f y hy
    exact ⟨x, hx, h1.trans h3, fun hl => h2 (h4 hl)⟩
  streams n y hy := h.streams n y (h'.streams n y hy)
  circ := by
    obtain ⟨l, m, hl⟩ := h.circ
    obtain ⟨l', m', hl'⟩ := h'.circ
    exact ⟨l', m', by rw [hl', hl]⟩

/-- The last operation first. -/
theorem Loses.snoc {s t u : State} (h : Loses t u) (h' : Loses s t) : Loses s u := h'.trans h

theorem Loses.foldl {β : Type} {f : State → β → State} (hf : ∀ s b, Loses s (f s b)) (l : List β) (s : State) :
    Loses s (l.foldl f s) := by
  induction l generalizing s with
  | nil => exact .refl s
  | cons b l ih => exact (hf s b).trans (ih (f s b))

/-- No loss makes a context ACTIVE, or changes one that stays so. -/
theorem Loses.active {s t : State} (h : Loses s t) {c : Nat} {y : Ctx} (hy : ctxOf t c = some y) (ha : y.st = .active) :
    ctxOf s c = some y := by
  rcases h.ctxs c with h1 | ⟨h1, -⟩ | ⟨x, r, -, -, h1⟩
  · exact h1 ▸ hy
  · rw [h1] at hy
    cases hy
  · rw [h1] at hy
    cases hy
    cases ha

/-- One fence of a lost context is lost, with its waits and events. -/
def loseFence (c : Nat) (s : State) (f : Nat) : State :=
  let s := setObj s { s.obj with fences := tmod s.obj.fences f fun x => { x with lost := true } }
  endEvents (failWaits s f 0x12 (some c)) f 0x05

theorem loseFences_eq (s : State) (c : Nat) :
    loseFences s c = ((s.obj.fences.filter fun e => e.2.ctx == c).map (·.1)).foldl (loseFence c) s := rfl

theorem loseFence_fences (c : Nat) (s : State) (f : Nat) :
    (loseFence c s f).obj.fences = tmod s.obj.fences f fun x => { x with lost := true } :=
  (Ends.snoc (endEvents_ends _ f 0x05) (failWaits_ends
    (setObj s { s.obj with fences := tmod s.obj.fences f fun x => { x with lost := true } }) f (by decide) (some c))).fences

theorem loseFence_loses (c : Nat) (s : State) (f : Nat) : Loses s (loseFence c s f) := by
  let u := setObj s { s.obj with fences := tmod s.obj.fences f fun x => { x with lost := true } }
  have hu : Ends u (loseFence c s f) := .snoc (endEvents_ends _ f 0x05) (failWaits_ends u f (by decide) (some c))
  have h1 : Loses s u := by
    refine ⟨fun _ => rfl, fun _ => .inl rfl, fun k y hy => ?_, fun _ _ h => h, s.circ.sends, s.circ.streams, rfl⟩
    simp only [u, setObj_obj, tget_tmod] at hy
    split at hy
    · obtain ⟨x, hx, rfl⟩ := Option.map_eq_some_iff.1 hy
      exact ⟨x, hx, rfl, fun _ => rfl⟩
    · exact ⟨y, hy, rfl, id⟩
  exact h1.trans hu.loses

theorem loseFence_ctxs (c : Nat) (s : State) (f : Nat) : CtxsKept s (loseFence c s f) :=
  (Ends.snoc (endEvents_ends _ f 0x05) (failWaits_ends
    (setObj s { s.obj with fences := tmod s.obj.fences f fun x => { x with lost := true } }) f (by decide) (some c))).ctxs

theorem loseFences_loses (s : State) (c : Nat) : Loses s (loseFences s c) := .foldl (loseFence_loses c) _ s

/-- Of fences that are lost in turn, each is lost. -/
theorem foldl_loseFence_lost (c : Nat) (l : List Nat) (s : State) (f : Nat) (hf : f ∈ l) {y : Fence}
    (hy : tget (l.foldl (loseFence c) s).obj.fences f = some y) : y.lost = true := by
  induction l generalizing s with
  | nil => cases hf
  | cons a l ih =>
    rw [List.foldl_cons] at hy
    rcases List.mem_cons.1 hf with rfl | hf
    · obtain ⟨x, hx, -, hl⟩ := (Loses.foldl (loseFence_loses c) l (loseFence c s f)).fences f y hy
      rw [loseFence_fences, tget_tmod, if_pos rfl] at hx
      obtain ⟨z, -, rfl⟩ := Option.map_eq_some_iff.1 hx
      exact hl rfl
    · exact ih _ hf hy

/-- Every fence of the context is lost. -/
theorem loseFences_lost {s : State} {c f : Nat} {y : Fence} (hy : tget (loseFences s c).obj.fences f = some y) (hc : y.ctx = c) :
    y.lost = true := by
  obtain ⟨x, hx, h1, -⟩ := (loseFences_loses s c).fences f y hy
  refine foldl_loseFence_lost c _ s f ?_ (loseFences_eq s c ▸ hy)
  exact List.mem_map.2 ⟨(f, x), List.mem_filter.2 ⟨tget_mem hx, by simp [← h1, hc]⟩, rfl⟩

theorem closeStreams_loses (s : State) (p : Nat → Stream → Bool) : Loses s (closeStreams s p) :=
  ⟨fun _ => rfl, fun _ => .inl rfl, fun _ y h => ⟨y, h, rfl, id⟩, fun _ _ h => (tget_closeStreams h).1, _, _, rfl⟩

theorem dayBook_ends (s : State) (code obj arg0 arg1 : Nat) : Ends s (dayBook s code obj arg0 arg1) := by
  have h := dayBook_only s code obj arg0 arg1
  exact .of_eq (h .obj (by decide)) (h .fns (by decide)) (h .circ (by decide))

/-- A context as the loss first leaves it: LOST, with what it had in the caches and the fabric dropped. -/
def lostCtx (s : State) (c reason : Nat) (x : Ctx) : State :=
  let u := setObj s { s.obj with ctxs := tset s.obj.ctxs c { x with st := .lost, reason := reason } }
  dropTxns (match slotOfCtx u (ctxHandle s c) with
    | some n => dropDirty u n
    | none => u) c

theorem markLost_eq {s : State} {c : Nat} {x : Ctx} (hx : ctxOf s c = some x) (ha : x.st = .active) (reason : Nat) :
    markLost s c reason =
      let u := (queuesOf (lostCtx s c reason x) c).foldl (fun s q => flushQueue s q 0x05) (lostCtx s c reason x)
      dayBook (eventRec (closeStreams (loseFences u c) fun _ t => t.ctx == c) x.func 0x04 0 reason 0 (ctxHandle s c) 0)
        0x0020 (ctxHandle s c) reason 0 := by
  unfold markLost
  rw [hx]
  simp only [ha]
  rw [if_neg (by simp)]
  rfl

theorem lostCtx_obj (s : State) (c reason : Nat) (x : Ctx) : (lostCtx s c reason x).obj =
    { s.obj with ctxs := tset s.obj.ctxs c { x with st := .lost, reason := reason } } ∧
      (lostCtx s c reason x).fns = s.fns ∧ (lostCtx s c reason x).circ = s.circ := by
  unfold lostCtx
  dsimp only
  split <;> exact ⟨rfl, rfl, rfl⟩

theorem lostCtx_loses {s : State} {c : Nat} {x : Ctx} (hx : ctxOf s c = some x) (ha : x.st = .active) (reason : Nat) :
    Loses s (lostCtx s c reason x) := by
  obtain ⟨ho, hf, hc⟩ := lostCtx_obj s c reason x
  refine ⟨.of_fns _ hf, fun k => ?_, fun f y h => ⟨y, by rwa [ho] at h, rfl, id⟩, fun n y h => hc ▸ h, s.circ.sends,
      s.circ.streams, hc⟩
  rw [ctxOf, ho, tget_tset]
  split
  · rename_i hk
    subst hk
    exact .inr (.inr ⟨x, reason, hx, ha, rfl⟩)
  · exact .inl rfl

/-- From a state in which the context is LOST: its work is flushed, its fences are lost, its streams are closed. -/
theorem lost_flushed {s l u t : State} {c : Nat} {x : Ctx} (hl : Loses s l)
    (hc : ∀ k, ctxOf l k = if k = c then some x else ctxOf s k) (hx : x.st = .lost) (hu : Ends l u)
    (ht : Ends (closeStreams (loseFences u c) fun _ t => t.ctx == c) t) :
    Loses s t ∧ ctxOf t c = some x ∧
      (∀ k, k ≠ c → ctxOf t k = ctxOf s k ∨ ctxOf t k = none ∧ ∃ x, ctxOf s k = some x ∧ x.st = .destroying) ∧
      (∀ f y, tget t.obj.fences f = some y → y.ctx = c → y.lost = true) ∧
      ∀ n y, tget t.circ.streams n = some y → y.ctx ≠ c := by
  have hf : CtxsKept u (loseFences u c) := .foldl (loseFence_ctxs c) _ u
  have hs : CtxsKept (loseFences u c) (closeStreams (loseFences u c) fun _ t => t.ctx == c) := fun _ => .inl rfl
  have hk : CtxsKept l t := CtxsKept.trans hu.ctxs (hf.trans (hs.trans ht.ctxs))
  refine ⟨hl.trans (hu.loses.trans ((loseFences_loses u c).trans ((closeStreams_loses _ _).trans ht.loses))), ?_, fun k hkc => ?_,
    fun f y hy hc => ?_, fun n y hy => ?_⟩
  · rcases hk c with h | ⟨-, y, hy, hd⟩
    · rw [h, hc, if_pos rfl]
    · rw [hc, if_pos rfl] at hy
      cases hy
      rw [hx] at hd
      cases hd
  · rcases hk k with h | ⟨h, hd⟩
    · rw [h, hc, if_neg hkc]
      exact .inl rfl
    · rw [hc, if_neg hkc] at hd
      exact .inr ⟨h, hd⟩
  · rw [ht.fences] at hy
    exact loseFences_lost (s := u) hy hc
  · obtain ⟨m, hm⟩ := ht.circ
    have hy' : tget (closeStreams (loseFences u c) fun _ t => t.ctx == c).circ.streams n = some y := by rwa [hm] at hy
    simpa using (tget_closeStreams hy').2

/-- What the loss of an ACTIVE context does (R74, R75). -/
theorem markLost_active {s : State} {c : Nat} {x : Ctx} (hx : ctxOf s c = some x) (ha : x.st = .active) (reason : Nat) :
    Loses s (markLost s c reason) ∧ ctxOf (markLost s c reason) c = some { x with st := .lost, reason := reason } ∧
      (∀ k, k ≠ c → ctxOf (markLost s c reason) k = ctxOf s k ∨
        ctxOf (markLost s c reason) k = none ∧ ∃ x, ctxOf s k = some x ∧ x.st = .destroying) ∧
      (∀ f y, tget (markLost s c reason).obj.fences f = some y → y.ctx = c → y.lost = true) ∧
      ∀ n y, tget (markLost s c reason).circ.streams n = some y → y.ctx ≠ c := by
  obtain ⟨ho, -, -⟩ := lostCtx_obj s c reason x
  have hget (k : Nat) : ctxOf (lostCtx s c reason x) k = if k = c then some { x with st := .lost, reason := reason } else ctxOf s
      k := by
    rw [ctxOf, ho]
    exact tget_tset _ _ _ _
  have hl := lostCtx_loses hx ha reason
  rw [markLost_eq hx ha]
  generalize lostCtx s c reason x = l at hget hl
  exact lost_flushed hl hget rfl (.foldl (fun s q => flushQueue_ends s q (by decide)) _ _)
    ((eventRec_ends _ _ _ _ _ _ _ _).trans (dayBook_ends _ _ _ _ _))

/-- A context that is not ACTIVE is not lost. -/
theorem markLost_loses (s : State) (c reason : Nat) : Loses s (markLost s c reason) := by
  cases hx : ctxOf s c with
  | none =>
    rw [markLost, hx]
    exact .refl s
  | some x =>
    by_cases ha : x.st = .active
    · exact (markLost_active hx ha reason).1
    · rw [markLost, hx]
      dsimp only
      rw [if_pos ha]
      exact .refl s

/-! ## A function whose host has gone -/

theorem hostGone_loses (s : State) (f : Nat) : Loses s (hostGone s f) := .foldl (fun s c => markLost_loses s c 0x03) _ s

theorem hostGone_only (s : State) (f : Nat) : Only lossParts s (hostGone s f) := .foldl (fun s c => markLost_only s c 0x03) _ s

/-- Of contexts that are lost in turn, none is ACTIVE. -/
theorem foldl_markLost_active (r : Nat) (l : List Nat) (s : State) (c : Nat) (hc : c ∈ l) {y : Ctx}
    (hy : ctxOf (l.foldl (fun s c => markLost s c r) s) c = some y) : y.st ≠ .active := by
  induction l generalizing s with
  | nil => cases hc
  | cons a l ih =>
    rw [List.foldl_cons] at hy
    rcases List.mem_cons.1 hc with rfl | hc
    · intro ha
      have h1 := (Loses.foldl (fun s c => markLost_loses s c r) l (markLost s c r)).active hy ha
      have h0 := (markLost_loses s c r).active h1 ha
      rw [(markLost_active h0 ha r).2.1] at h1
      rw [← Option.some.inj h1] at ha
      cases ha
    · exact ih _ hc hy

theorem hostGone_noneActive (s : State) (f : Nat) : NoneActive f (hostGone s f) := by
  intro c x hx hf ha
  have hs := (hostGone_loses s f).active hx ha
  refine foldl_markLost_active 0x03 (activeOf s f) s c ?_ hx ha
  exact List.mem_map.2 ⟨(c, x), List.mem_filter.2 ⟨tget_mem hs, by simp [hf, ha]⟩, rfl⟩

theorem NoneActive.congr {f : Nat} {s t : State} (h : t.obj = s.obj) (hs : NoneActive f s) : NoneActive f t := fun c x hx =>
  hs c x (by rwa [ctxOf, h] at hx)

/-! ## Destroying -/

theorem destroyFence_eq (s : State) (k : Nat) : destroyFence s k = (fun u => setObj u (bumpGen
    { u.obj with fences := tdel u.obj.fences k } 3 k)) (endEvents (failWaits s k 0x06 none) k 0x06) := rfl

/-- What the end of a fence leaves: the other fences as they were, and no event on it. -/
theorem destroyFence_fences (s : State) (k : Nat) : (destroyFence s k).obj.fences = tdel s.obj.fences k ∧
    (∀ e y, tget (destroyFence s k).obj.events e = some y → y.fence ≠ k) ∧ Loses s (destroyFence s k) ∧
    CtxsKept s (destroyFence s k) ∧ (destroyFence s k).circ.streams = s.circ.streams := by
  have hu : Ends s (endEvents (failWaits s k 0x06 none) k 0x06) :=
    (failWaits_ends s k (by decide) none).trans (endEvents_ends _ _ _)
  have hev := fun e y => endEvents_gone (s := failWaits s k 0x06 none) (f := k) (st := 0x06) (e := e) (y := y)
  rw [destroyFence_eq]
  generalize endEvents (failWaits s k 0x06 none) k 0x06 = u at hu hev
  have hd : Loses u (setObj u (bumpGen { u.obj with fences := tdel u.obj.fences k } 3 k)) :=
    ⟨fun _ => rfl, fun _ => .inl rfl, fun f y h => ⟨y, (tget_tdel_some h).2, rfl, id⟩, fun _ _ h => h, u.circ.sends, u.circ.streams,
      rfl⟩
  obtain ⟨m, hm⟩ := hu.circ
  refine ⟨by rw [← hu.fences]; rfl, hev, hu.loses.trans hd, hu.ctxs, ?_⟩
  change u.circ.streams = _
  rw [hm]

theorem setWork_ends (s : State) (q : Nat) (i : W32) (node : Option Nat) (f : Desc → Desc) : Ends s (setWork s q i node f) := by
  unfold setWork
  split
  · split
    · exact .refl s
    · rename_i x hx
      exact putQ_ends hx rfl rfl id
  · split
    · exact .refl s
    · exact .of_obj (fun _ => .inl rfl) rfl (fun _ _ h => h) (fun _ y h => ⟨y, h, rfl, rfl⟩) fun _ y _ h => ⟨y, h, rfl, rfl, id⟩

theorem settleLaunch_ends (s : State) (q : Nat) (i : W32) : Ends s (settleLaunch s q i) := by
  unfold settleLaunch
  split
  · exact .refl s
  · split
    · exact .refl s
    · exact setWork_ends _ _ _ _ _

/-- The queue `q` as it stands while it drains. -/
def drainingQ (s : State) (q : Nat) (x : Queue) : Queue :=
  { x with st := .draining, tokens := 0, resume := none, recs := x.recs.filter (executes s q) }

/-- A queue is DRAINING, or gone, once it drains. -/
theorem drainQueue_ends (s : State) (q : Nat) : Ends s (drainQueue s q) ∧
    (q ≠ winKey → ∀ y, tget (drainQueue s q).obj.queues q = some y → y.st = .draining) := by
  unfold drainQueue
  split
  · rename_i h
    exact ⟨.refl s, fun _ y hy => by rw [h] at hy; cases hy⟩
  · rename_i x hx
    rw [← drainingQ]
    have hp : Ends s (putQ s q (drainingQ s q x)) := putQ_ends' (fun _ => hx) rfl rfl fun _ => rfl
    have hat : tget (putQ s q (drainingQ s q x)).obj.queues q = some (drainingQ s q x) := tget_tset_same _ _ _
    have hdr : (drainingQ s q x).st = .draining := rfl
    generalize drainingQ s q x = z at hp hat hdr ⊢
    dsimp only
    generalize putQ s q z = t at hp hat ⊢
    have hl (l : List Launch) : Ends t (setObj t { t.obj with launches := l }) :=
      .of_obj (fun _ => .inl rfl) rfl (fun _ _ h => h) (fun _ y h => ⟨y, h, rfl, rfl⟩) fun _ y _ h => ⟨y, h, rfl, rfl, id⟩
    have hw (l : List Launch) (u : State) : Ends u (queueDrained (l.foldl (fun s l => settleLaunch s q l.i) u) q) :=
      .snoc (queueDrained_ends _ _) (.foldl (fun s (l : Launch) => settleLaunch_ends s q l.i) _ _)
    have key {u : State} (ht : Ends t u) : Ends s u ∧ (q ≠ winKey → ∀ y, tget u.obj.queues q = some y → y.st = .draining) := by
      refine ⟨hp.trans ht, fun hq y hy => ?_⟩
      obtain ⟨w, hw, -, -, hd⟩ := ht.queues q y hq hy
      rw [hat] at hw
      cases hw
      exact hd hdr
    exact key (.snoc (hw _ _) (.snoc (dropRuns_ends _ _) (hl _)))

end Sys2Proof.Machine

open Sys2Proof Sys2Proof.Machine

/-- Settles O20: the loss of the context that the command names, and the completion after it. -/
theorem markLostMarksTheContextAndItsFences : Obligations.MarkLostMarksTheContextAndItsFences := by
  intro s c h k x hf hk hx
  have ht := fwTake_taken s c.func 0x04
  generalize hw : fwTake s c.func 0x04 = u at ht
  have hxu : ctxOf u k = some x := by rw [ctxOf, ht.obj]; exact hx
  obtain ⟨-, y, hy, -, ha⟩ := ctxUse_ok hk
  obtain rfl : x = y := Option.some.inj (hx.symm.trans hy)
  obtain ⟨hl, hk', hother, hfen, hstr⟩ := markLost_active hxu ha 0x05
  refine answers_fwCommand (t := markLost u k 0x05) (res := 0) rfl hf ?_ (.inl rfl) ?_ fun v hd hv => ?_
  · rw [hw, ctxMarkLost, ht.ctxUse, hk]
  · rw [hw]
    exact hl.counts
  · have hob : v.obj = (markLost u k 0x05).obj := hv .obj (by decide)
    have hci : v.circ = (markLost u k 0x05).circ := hv .circ (by decide)
    refine ⟨by rw [ctxOf, hob]; exact hk', fun m hm hact => ?_, fun f y => by rw [hob]; exact hfen f y,
      fun n y => by rw [hci]; exact hstr n y, hd, ?_⟩
    · have hm' : ctxActive u m = true := by rw [ctxActive, ctxOf, ht.obj]; exact hact
      rcases hother m hm with h | ⟨-, z, hz, hd⟩
      · rw [ctxActive, ctxOf, hob]
        rw [ctxActive, ← h] at hm'
        exact hm'
      · simp [ctxActive, hz, hd] at hm'
    · exact (ht.only.mono (by simp [lossParts])).trans ((markLost_only u k 0x05).trans (hv.mono (by simp [lossParts])))
end

section
/-! Proofs: the destroy commands (spec/03 R65, R83, spec/15 R445), and the ends of grace periods and functions (spec/17 R521 to
R525). -/

namespace Sys2Proof.Machine

theorem ctxActive_some {s : State} {c : Nat} (h : ctxActive s c = true) : ∃ x, ctxOf s c = some x ∧ x.st = .active := by
  unfold ctxActive at h
  split at h
  · rename_i x hx
    exact ⟨x, hx, by simpa using h⟩
  · cases h

theorem nameObj_lookup {s : State} {ty h k : Nat} (e : nameObj s ty h = .ok k) : lookup s.obj ty h = .ok k := by
  unfold nameObj at e
  split at e
  · rename_i i hi
    cases e
    exact hi
  · split at e <;> cases e

/-- A handle that named an object is stale once the object is gone (R64). -/
theorem lookup_gone {o o' : Objects} {ty h k : Nat} (e : lookup o ty h = .ok k) (hg : ownerFn o' ty k = none) :
    lookup o' ty h = .error stStale := by
  obtain ⟨h1, rfl, h3, -, -⟩ := lookup_ok e
  rw [lookup, if_neg (by omega), if_pos (.inl (by rw [hg]; rfl))]

/-- Fences that are destroyed in turn are gone, and no other. -/
theorem foldl_destroyFence (l : List Nat) (s : State) : let t := l.foldl destroyFence s
    (∀ f, tget t.obj.fences f = if f ∈ l then none else tget s.obj.fences f) ∧ Loses s t ∧ CtxsKept s t ∧
      t.circ.streams = s.circ.streams := by
  induction l generalizing s with
  | nil => exact ⟨fun _ => by simp, .refl s, fun _ => .inl rfl, rfl⟩
  | cons k l ih =>
    obtain ⟨h1, -, h3, h4, h5⟩ := destroyFence_fences s k
    obtain ⟨g1, g2, g3, g4⟩ := ih (destroyFence s k)
    refine ⟨fun f => ?_, h3.trans g2, h4.trans g3, g4.trans h5⟩
    rw [List.foldl_cons, g1, h1]
    by_cases hf : f = k
    · subst hf
      simp
    · simp [tget_tdel_other _ hf, hf]

/-- Graphs that are destroyed in turn are gone, and nothing else changes but the generations. -/
theorem foldl_destroyGraph (l : List Nat) (s : State) : let t := l.foldl destroyGraph s
    (∀ g, tget t.obj.graphs g = if g ∈ l then none else tget s.obj.graphs g) ∧ t.obj.fences = s.obj.fences ∧
      t.obj.ctxs = s.obj.ctxs ∧ t.fns = s.fns ∧ t.circ = s.circ := by
  induction l generalizing s with
  | nil => exact ⟨fun _ => by simp, rfl, rfl, rfl, rfl⟩
  | cons k l ih =>
    obtain ⟨g1, g2, g3, g4, g5⟩ := ih (destroyGraph s k)
    refine ⟨fun g => ?_, g2, g3, g4, g5⟩
    rw [List.foldl_cons, g1]
    change (if g ∈ l then none else tget (tdel s.obj.graphs k) g) = _
    by_cases hg : g = k
    · subst hg
      simp
    · simp [tget_tdel_other _ hg, hg]

/-- A context as its destruction begins: DESTROYING, with its streams closed. -/
def beginDestroy (s : State) (c : Nat) (x : Ctx) : State :=
  closeStreams (setObj s { s.obj with ctxs := tset s.obj.ctxs c { x with st := .destroying } }) fun _ t => t.ctx == c

/-- Its queues drain. -/
def drainQueues (s : State) (c : Nat) : State :=
  ((queuesOf s c).filter fun q => decide (q < winKey) && ((tget s.obj.queues q).any fun y => y.st != .draining)).foldl drainQueue s

/-- Its fences are destroyed. -/
def destroyFences (s : State) (c : Nat) : State := ((s.obj.fences.filter fun e => e.2.ctx == c).map (·.1)).foldl destroyFence s

/-- Its graphs are destroyed. -/
def destroyGraphs (s : State) (c : Nat) : State := ((s.obj.graphs.filter fun e => e.2.ctx == c).map (·.1)).foldl destroyGraph s

theorem ctxDestroy_eq {s : State} {f h c : Nat} {x : Ctx} (hc : nameObj s 1 h = .ok c) (hx : ctxOf s c = some x) (hf : x.func = f)
    (hs : x.st ≠ .destroying) (hsl : slotOfCtx s h = none) (hst : stagedOwner s h = false) :
    ctxDestroy f h s = (ctxGone (destroyGraphs (destroyFences (drainQueues (beginDestroy s c x) c) c) c) c, stDeferred, 0) := by
  unfold ctxDestroy
  rw [hc]
  simp only [hx]
  rw [if_neg (by simp [hf]), if_neg (by simp [hs, hsl, hst])]
  rfl

theorem beginDestroy_ctx (s : State) (c : Nat) (x : Ctx) : ctxOf (beginDestroy s c x) c = some { x with st := .destroying } :=
  tget_tset_same _ _ _

theorem beginDestroy_streams {s : State} {c : Nat} {x : Ctx} {n : Nat} {y : Stream}
    (h : tget (beginDestroy s c x).circ.streams n = some y) : y.ctx ≠ c := by
  simpa using (tget_closeStreams h).2

theorem drainQueues_ends (s : State) (c : Nat) : Ends s (drainQueues s c) := .foldl (fun s q => (drainQueue_ends s q).1) _ _

theorem destroyFences_gone {s : State} {c f : Nat} {y : Fence} (h : tget (destroyFences s c).obj.fences f = some y) : y.ctx ≠ c :=
    by
  intro hc
  have hl := (foldl_destroyFence ((s.obj.fences.filter fun e => e.2.ctx == c).map (·.1)) s).1 f
  rw [destroyFences, hl] at h
  split at h
  · cases h
  · rename_i hn
    exact hn (List.mem_map.2 ⟨(f, y), List.mem_filter.2 ⟨tget_mem h, by simpa using hc⟩, rfl⟩)

theorem destroyGraphs_gone {s : State} {c g : Nat} {y : Graph} (h : tget (destroyGraphs s c).obj.graphs g = some y) : y.ctx ≠ c :=
    by
  intro hc
  have hl := (foldl_destroyGraph ((s.obj.graphs.filter fun e => e.2.ctx == c).map (·.1)) s).1 g
  rw [destroyGraphs, hl] at h
  split at h
  · cases h
  · rename_i hn
    exact hn (List.mem_map.2 ⟨(g, y), List.mem_filter.2 ⟨tget_mem h, by simpa using hc⟩, rfl⟩)

/-- What the destruction of a context leaves of it. -/
theorem ctxDestroy_leaves (s : State) (c : Nat) (x : Ctx) :
    let t := ctxGone (destroyGraphs (destroyFences (drainQueues (beginDestroy s c x) c) c) c) c
    SameFn Fn.counts s t ∧ (∀ y, ctxOf t c = some y → y.st = .destroying) ∧
      (∀ f y, tget t.obj.fences f = some y → y.ctx ≠ c) ∧ (∀ g y, tget t.obj.graphs g = some y → y.ctx ≠ c) ∧
      ∀ n y, tget t.circ.streams n = some y → y.ctx ≠ c := by
  have c1 := beginDestroy_ctx s c x
  have s1 := fun n y => beginDestroy_streams (s := s) (c := c) (x := x) (n := n) (y := y)
  have n1 : SameFn Fn.counts s (beginDestroy s c x) := fun _ => rfl
  generalize beginDestroy s c x = u1 at c1 s1 n1
  have h2 := drainQueues_ends u1 c
  generalize drainQueues u1 c = u2 at h2
  obtain ⟨-, l3, k3, s3⟩ := foldl_destroyFence ((u2.obj.fences.filter fun e => e.2.ctx == c).map (·.1)) u2
  have g3 := fun f y => destroyFences_gone (s := u2) (c := c) (f := f) (y := y)
  change Loses u2 (destroyFences u2 c) at l3
  change CtxsKept u2 (destroyFences u2 c) at k3
  change (destroyFences u2 c).circ.streams = _ at s3
  generalize destroyFences u2 c = u3 at l3 k3 s3 g3
  obtain ⟨-, f4, x4, n4, i4⟩ := foldl_destroyGraph ((u3.obj.graphs.filter fun e => e.2.ctx == c).map (·.1)) u3
  have g4 := fun g y => destroyGraphs_gone (s := u3) (c := c) (g := g) (y := y)
  change (destroyGraphs u3 c).obj.fences = _ at f4
  change (destroyGraphs u3 c).obj.ctxs = _ at x4
  change (destroyGraphs u3 c).fns = _ at n4
  change (destroyGraphs u3 c).circ = _ at i4
  generalize destroyGraphs u3 c = u4 at f4 x4 n4 i4 g4
  have h5 := ctxGone_ends u4 c
  generalize ctxGone u4 c = t at h5
  have hk : CtxsKept u1 t := CtxsKept.trans h2.ctxs (k3.trans (CtxsKept.trans (fun d => .inl (by rw [ctxOf, x4, ctxOf])) h5.ctxs))
  refine ⟨n1.trans (h2.counts.trans (l3.counts.trans (SameFn.trans (.of_fns _ n4) h5.counts))), fun y hy => ?_,
    fun f y hy => g3 f y (by rwa [h5.fences, f4] at hy), fun g y hy => ?_, fun n y hy => ?_⟩
  · rcases hk c with h | ⟨h, -⟩
    · rw [h, c1] at hy
      cases hy
      rfl
    · rw [h] at hy
      cases hy
  · obtain ⟨z, hz, -, hc⟩ := h5.graphs g y hy
    rw [hc]
    exact g4 g z hz
  · obtain ⟨m, hm⟩ := h5.circ
    obtain ⟨m', hm'⟩ := h2.circ
    rw [hm, i4] at hy
    change tget u3.circ.streams n = some y at hy
    rw [s3, hm'] at hy
    exact s1 n y hy

end Sys2Proof.Machine

open Sys2Proof Sys2Proof.Machine

/-- Settles O16: what is destroyed leaves its table at once, or waits for its work in the state that the rules give. -/
theorem destroysFreeTheirObject : Obligations.DestroysFreeTheirObject := by
  refine ⟨?_, ?_, ?_, ?_, ?_⟩
  · intro s c h k x hf hk hx hfn
    have ht := fwTake_taken s c.func 0x1B
    generalize hw : fwTake s c.func 0x1B = u at ht
    obtain ⟨h1, h2, h3, -, -⟩ := destroyFence_fences u k
    refine answers_fwCommand (t := destroyFence u k) (res := 0) rfl hf ?_ (.inl rfl) (hw ▸ h3.counts) fun v hd hv => ?_
    · rw [hw, fenceDestroy, ht.lookup, hk]
      simp only [ht.obj, hx]
      rw [if_neg (by simp [hfn])]
    · have hob : v.obj = (destroyFence u k).obj := hv .obj (by decide)
      have hgone : tget v.obj.fences k = none := by rw [hob, h1, tget_tdel_same]
      refine ⟨hgone, ?_, fun m hm => ?_, fun e y hy => h2 e y (by rwa [hob] at hy), hd⟩
      · exact lookup_gone (nameObj_lookup hk) (by simp [ownerFn, hgone])
      · rw [hob, h1, tget_tdel_other _ hm, ht.obj]
  · intro s c h k x hf hk hx hfn
    refine answers_objects rfl hf (o := freeEvent s.obj k) (fun u hu => ⟨u.fab.host, ?_⟩) fun v ho hd hv => ⟨ho, hd, hv⟩
    rw [eventDestroy, hu.lookup, hk]
    simp only [hu.obj, hx]
    rw [if_neg (by simp [hfn])]
    exact ⟨rfl, rfl⟩
  · intro s c h k x hf hk hx hfn ha hb
    refine answers_objects rfl hf (o := bumpGen { s.obj with graphs := tdel s.obj.graphs k } 5 k)
      (fun u hu => ⟨u.fab.host, ?_⟩) fun v ho hd hv => ⟨ho, hd, hv⟩
    rw [graphDestroy, hu.lookup, hk]
    simp only [hu.obj, hx]
    rw [if_neg (by simp [hfn]), if_neg (by simp [ha, hb]), destroyGraph, hu.obj]
    exact ⟨rfl, rfl⟩
  · intro s c h k x hf hk hx hfn hst hlt hact
    have ht := fwTake_taken s c.func 0x11
    generalize hw : fwTake s c.func 0x11 = u at ht
    obtain ⟨h1, h2⟩ := drainQueue_ends u k
    refine answers_fwCommand (t := drainQueue u k) (res := 0) rfl hf ?_ (.inr rfl) (hw ▸ h1.counts) fun v hd hv => ⟨fun y hy => ?_,
        hd⟩
    · rw [hw, qDestroy, ht.lookup, hk]
      have hxo : ctxOf u x.ctx = ctxOf s x.ctx := by rw [ctxOf, ht.obj, ctxOf]
      obtain ⟨z, hz, hza⟩ := ctxActive_some hact
      simp only [ht.obj, hx, hxo, hz, hza]
      rw [if_neg (by simp [hfn]), if_neg (by simp [hst])]
    · rw [show v.obj = _ from hv .obj (by decide)] at hy
      exact h2 (by rw [winKey]; omega) y hy
  · intro s c h k x hf hk hx hfn hst hsl hso
    have ht := fwTake_taken s c.func 0x03
    generalize hw : fwTake s c.func 0x03 = u at ht
    have hxu : ctxOf u k = some x := by rw [ctxOf, ht.obj]; exact hx
    obtain ⟨h1, h2, h3, h4, h5⟩ := ctxDestroy_leaves u k x
    generalize htt : ctxGone (destroyGraphs (destroyFences (drainQueues (beginDestroy u k x) k) k) k) k = t at h1 h2 h3 h4 h5
    refine answers_fwCommand (t := t) (res := 0) rfl hf ?_ (.inr rfl) (hw ▸ h1) fun v hd hv => ?_
    · rw [hw, ctxDestroy_eq (by rw [ht.lookup]; exact hk) hxu hfn hst ?_ ?_, htt]
      · obtain ⟨_, _, _, _, rfl⟩ := ht
        exact hsl
      · obtain ⟨_, _, _, _, rfl⟩ := ht
        exact hso
    · have hob : v.obj = t.obj := hv .obj (by decide)
      have hci : v.circ = t.circ := hv .circ (by decide)
      exact ⟨fun y hy => h2 y (by rwa [ctxOf, hob] at hy), fun f y hy => h3 f y (by rwa [hob] at hy),
        fun g y hy => h4 g y (by rwa [hob] at hy), fun n y hy => h5 n y (by rwa [hci] at hy), hd⟩

end

section
/-! Proofs: grace periods and function resets (spec/17 R521 to R525), firmware's restarts (R516 to R518), and faults of the ratings
(spec/16 R488, R495, spec/18 R535, spec/20 R592). -/

namespace Sys2Proof.Machine

theorem accSlot_of_holds {s : State} {n : Nat} (h : accHolds (accSlot s n) = true) : n < s.acc.slots.length := by
  by_contra hn
  rw [accSlot, List.getD_eq_default _ _ (by omega)] at h
  cases h

/-- A pending slot that is no takeover's is refused by a restart. -/
def restartedSlot (a : AccSlot) : AccSlot :=
  if accHolds a ∧ !a.takeover then { a with st := .refused, code := ccRestart, detail := 0 } else a

/-- A restart looks at one slot. -/
def refuseOne (s : State) (n : Nat) : State :=
  if accHolds (accSlot s n) ∧ !(accSlot s n).takeover then refuseSlot s n ccRestart 0 else s

theorem refusePending_eq (s : State) : refusePending s = (List.range 4).foldl refuseOne s := rfl

theorem refuseOne_slot (s : State) (n m : Nat) :
    accSlot (refuseOne s n) m = if m = n then restartedSlot (accSlot s m) else accSlot s m := by
  unfold refuseOne restartedSlot
  by_cases h : accHolds (accSlot s n) = true ∧ (!(accSlot s n).takeover) = true
  · rw [if_pos h, accSlot_congr (refuseSlot_slots s n ccRestart 0).1]
    by_cases hm : m = n
    · subst hm
      rw [if_pos rfl, if_pos h]
      exact accSlot_setSlot_same (accSlot_of_holds h.1) _
    · rw [if_neg hm]
      exact accSlot_setSlot_other s hm _
  · rw [if_neg h]
    by_cases hm : m = n
    · subst hm
      rw [if_pos rfl, if_neg h]
    · rw [if_neg hm]

theorem foldl_refuseOne_slot (l : List Nat) (hl : l.Nodup) (s : State) (m : Nat) :
    accSlot (l.foldl refuseOne s) m = if m ∈ l then restartedSlot (accSlot s m) else accSlot s m := by
  induction l generalizing s with
  | nil => simp
  | cons n l ih =>
    obtain ⟨hn, hl⟩ := List.nodup_cons.1 hl
    rw [List.foldl_cons, ih hl, refuseOne_slot]
    by_cases hm : m = n
    · subst hm
      simp [hn]
    · simp [hm]

theorem refuseOne_served (s : State) (n : Nat) : Served s (refuseOne s n) := .ite (refuseSlot_served _ _ _ _) (.refl s)

theorem refusePending_served (s : State) : Served s (refusePending s) := .foldl refuseOne_served _ s

theorem levelRefused_only (s : State) : Only [.pwr] s (levelRefused s) :=
  .ite (fun _ p hp => by cases p <;> first | (simp at hp; done) | rfl) fun _ => .refl _ s

/-- A restart that is not the third within 64 ticks. -/
theorem fwRestart_few {s : State} (h : (s.fw.restartTicks.filter fun k => decide (s.hoop.tick < k + 64)).length < 2) (cause : Nat) :
    let u := setFw s { s.fw with
      running := false, restarting := true, kicked := false, expiryDue := false, restartCount := satAdd 0xFF s.fw.restartCount 1
      restartCause := cause, restartTick := s.hoop.tick % 2 ^ 32
      restartTicks := (s.fw.restartTicks.filter fun t => decide (s.hoop.tick < t + 64)) ++ [s.hoop.tick] }
    fwRestart s cause = levelRefused (refusePending (dayBook u 0x0002 0 cause (satAdd 0xFF s.fw.restartCount 1))) := if_pos h

theorem restarted_slots {s : State} (h : (s.fw.restartTicks.filter fun k => decide (s.hoop.tick < k + 64)).length < 2) (cause : Nat)
    (n : Fin 4) (hh : accHolds (accSlot s n.val) = true) (ht : (accSlot s n.val).takeover = false) :
    (accSlot (fwRestart s cause) n.val).st = .refused ∧ (accSlot (fwRestart s cause) n.val).code = 10 := by
  rw [fwRestart_few h]
  dsimp only
  rw [accSlot_congr (levelRefused_only _ .acc (by decide)), refusePending_eq, foldl_refuseOne_slot _ (List.nodup_range),
    if_pos (List.mem_range.2 n.isLt), accSlot_congr (dayBook_logged _ _ _ _ _).acc]
  have hr : restartedSlot (accSlot s n.val) = { accSlot s n.val with st := .refused, code := ccRestart, detail := 0 } :=
    if_pos ⟨hh, by simp [ht]⟩
  change (restartedSlot (accSlot s n.val)).st = _ ∧ (restartedSlot (accSlot s n.val)).code = _
  rw [hr]
  exact ⟨rfl, rfl⟩

/-- What a restart leaves of firmware and of the rest. -/
theorem fwRestart_leaves {s : State} (h : (s.fw.restartTicks.filter fun k => decide (s.hoop.tick < k + 64)).length < 2) (cause :
    Nat) :
    let t := fwRestart s cause
    t.fw.running = false ∧ t.fw.restarting = true ∧ t.fw.restartCause = cause ∧
      t.fw.restartCount = min 0xFF (s.fw.restartCount + 1) ∧ (∀ o, active t o = active s o) ∧
      Only [.acc, .regs, .fns, .fab, .fw, .free, .pwr] s t := by
  rw [fwRestart_few h]
  dsimp only
  generalize hu : setFw s _ = u
  have hs := (dayBook_logged u 0x0002 0 cause (satAdd 0xFF s.fw.restartCount 1)).served.trans (refusePending_served _)
  have hl := levelRefused_only (refusePending (dayBook u 0x0002 0 cause (satAdd 0xFF s.fw.restartCount 1)))
  generalize refusePending (dayBook u 0x0002 0 cause (satAdd 0xFF s.fw.restartCount 1)) = v at hs hl
  generalize levelRefused v = t at hl
  obtain ⟨b, r, q, hf⟩ := hs.fw
  rw [hl .fw (by decide), hf, ← hu]
  refine ⟨rfl, rfl, rfl, rfl, fun o => ?_, ?_⟩
  · have hr : t.regs.active = u.regs.active := (congrArg RegFile.active (hl .regs (by decide))).trans hs.active
    rw [active, hr, ← hu]
    rfl
  · have h0 : Only [.acc, .regs, .fns, .fab, .fw, .free, .pwr] s u := by
      rw [← hu]
      exact fun p hp => by cases p <;> first | (simp at hp; done) | rfl
    exact h0.trans ((hs.only.mono (by simp)).trans (hl.mono (by simp)))

/-! ## Faults of the device -/

/-- The parts that a fault of the device can reach. -/
def faultParts : List Part := .flt :: .circ :: .twin :: .free :: lossParts

theorem recordFault_leaves (s : State) (scope unit means : Nat) : let t := recordFault s scope unit means
    t.flt.failed = s.flt.failed ∧ (s.flt.valid = false → t.flt.valid = true ∧ t.flt.scope = scope ∧ t.flt.means = means) ∧
      Only [.flt, .fns, .fab, .fw] s t := by
  unfold recordFault
  dsimp only
  generalize hu : (if s.flt.valid then s
    else { s with flt := { s.flt with valid := true, tick := s.hoop.tick % 2 ^ 32, scope := scope, unit := unit, means := means }
        }) = u
  have h0 : u.flt.failed = s.flt.failed ∧ (s.flt.valid = false → u.flt.valid = true ∧ u.flt.scope = scope ∧ u.flt.means = means) ∧
      Only [.flt, .fns, .fab, .fw] s u := by
    rw [← hu]
    split
    · rename_i hv
      exact ⟨rfl, fun h => by simp [hv] at h, .refl _ s⟩
    · exact ⟨rfl, fun _ => ⟨rfl, rfl, rfl⟩, fun p hp => by cases p <;> first | (simp at hp; done) | rfl⟩
  have h1 : Only [.fns, .fab, .fw] u (if 1 ≤ scope ∧ scope ≤ 5 then
      raiseMsix (dayBook u 0x0040 unit (scope * 2 ^ 24 + unit * 2 ^ 16 + means * 2 ^ 8 + 1) (s.hoop.tick % 2 ^ 32)) 0 3
    else dayBook u 0x0040 unit (scope * 2 ^ 24 + unit * 2 ^ 16 + means * 2 ^ 8 + 1) (s.hoop.tick % 2 ^ 32)) := by
    have hd := (dayBook_only u 0x0040 unit (scope * 2 ^ 24 + unit * 2 ^ 16 + means * 2 ^ 8 + 1) (s.hoop.tick % 2 ^ 32)).mono
      (qs := [.fns, .fab, .fw]) (by simp)
    exact .ite (fun _ => hd.trans ((raiseMsix_only _ _ _).mono (by simp))) fun _ => hd
  rw [h1 .flt (by decide)]
  exact ⟨h0.1, h0.2.1, h0.2.2.trans (h1.mono (by simp))⟩

theorem setTwin_leaves (s : State) (st : SlvState) (cause : Nat) :
    (setTwin s st cause).twin = { s.twin with st := st, cause := cause } ∧ Only [.twin, .fab, .fw] s (setTwin s st cause) := by
  have h := dayBook_only { s with twin := { s.twin with st := st, cause := cause } } 0x0050 0 cause (slvCode st)
  have h0 : Only [.twin, .fab, .fw] s { s with twin := { s.twin with st := st, cause := cause } } :=
    fun p hp => by cases p <;> first | (simp at hp; done) | rfl
  exact ⟨h .twin (by decide), h0.trans (h.mono (by simp))⟩

/-- The device as it fails: its ports down, its partner told. -/
def failNow (s : State) : State :=
  let s := { s with flt := { s.flt with failed := true }, circ := { s.circ with link := 0 } }
  setTwin (if s.twin.st = .attached ∨ s.twin.st = .leaving then sendCtl s .failed else s) .failed s.twin.cause

theorem failNow_leaves (s : State) : (failNow s).flt = { s.flt with failed := true } ∧ (failNow s).circ.link = 0 ∧
    (failNow s).twin.st = .failed ∧ Only faultParts s (failNow s) := by
  let u : State := { s with flt := { s.flt with failed := true }, circ := { s.circ with link := 0 } }
  let v := if s.twin.st = .attached ∨ s.twin.st = .leaving then sendCtl u .failed else u
  have hu : Only faultParts s u := fun p hp => by cases p <;> first | (simp [faultParts] at hp; done) | rfl
  have hv : Only [.twin] u v := .ite (fun _ p hp => by cases p <;> first | (simp at hp; done) | rfl) fun _ => .refl _ u
  obtain ⟨h1, h2⟩ := setTwin_leaves v .failed s.twin.cause
  change (setTwin v .failed s.twin.cause).flt = _ ∧ (setTwin v .failed s.twin.cause).circ.link = 0 ∧ _
  refine ⟨(h2 .flt (by decide)).trans (hv .flt (by decide)), ?_, by rw [failNow]; exact congrArg Twin.st h1, ?_⟩
  · rw [h2 .circ (by decide), hv .circ (by decide)]
  · exact hu.trans ((hv.mono (by simp [faultParts])).trans (h2.mono (by simp [faultParts, lossParts])))

theorem deviceFault_eq (s : State) (means : Nat) : deviceFault s means =
    let s := recordFault (drew s) 5 ((free s).toNat % 256) means
    if s.flt.failed then s
    else if !decide (s.twin.st = .attached ∨ s.twin.st = .leaving) && (failNow s).fw.running then
      ((failNow s).obj.ctxs.map (·.1)).foldl (fun s c => markLost s c 0x02) (failNow s)
    else failNow s := by
  unfold deviceFault failNow
  dsimp only
  generalize recordFault (drew s) 5 ((free s).toNat % 256) means = u
  by_cases h : u.twin.st = .attached ∨ u.twin.st = .leaving <;> simp [h]

/-- A fault of the device leaves it FAILED, with its ports down (R488, R495). -/
theorem deviceFault_leaves (s : State) (means : Nat) : let t := deviceFault s means
    t.flt.failed = true ∧ (s.flt.failed = false → t.circ.link = 0 ∧ t.twin.st = .failed) ∧
      (s.flt.valid = false → t.flt.valid = true ∧ t.flt.scope = 5 ∧ t.flt.means = means) ∧ Only faultParts s t := by
  rw [deviceFault_eq]
  dsimp only
  obtain ⟨h1, h2, h3⟩ := recordFault_leaves (drew s) 5 ((free s).toNat % 256) means
  have ho : Only faultParts s (recordFault (drew s) 5 ((free s).toNat % 256) means) :=
    ((drew_only s).mono (by simp [faultParts])).trans (h3.mono (by simp [faultParts, lossParts]))
  change _ = s.flt.failed at h1
  change s.flt.valid = false → _ at h2
  generalize recordFault (drew s) 5 ((free s).toNat % 256) means = u at h1 h2 ho
  obtain ⟨w1, w2, w3, w4⟩ := failNow_leaves u
  have key {t : State} (hl : Loses (failNow u) t) (hto : Only lossParts (failNow u) t) :
      t.flt.failed = true ∧ (s.flt.failed = false → t.circ.link = 0 ∧ t.twin.st = .failed) ∧
        (s.flt.valid = false → t.flt.valid = true ∧ t.flt.scope = 5 ∧ t.flt.means = means) ∧ Only faultParts s t := by
    obtain ⟨l, m, hc⟩ := hl.circ
    rw [hto .flt (by decide), hto .twin (by decide), hc, w1]
    exact ⟨rfl, fun _ => ⟨w2, w3⟩, h2, ho.trans (w4.trans (hto.mono fun p h => by simp [faultParts, h]))⟩
  split
  · rename_i hf
    exact ⟨hf, fun h => by simp [h1, h] at hf, h2, ho⟩
  · split
    · exact key (.foldl (fun s c => markLost_loses s c 0x02) _ _) (.foldl (fun s c => markLost_only s c 0x02) _ _)
    · exact key (.refl _) (.refl _ _)

/-- The bits of a set but one, summed. -/
theorem foldl_bits_filter (d : Nat) (l : List Nat) :
    l.foldl (fun a i => if i = d then a else a + 2 ^ i) 0 = ((l.filter fun i => i ≠ d).map fun i => 2 ^ i).sum := by
  have h (a : Nat) : l.foldl (fun a i => if i = d then a else a + 2 ^ i) a = a + ((l.filter fun i => i ≠ d).map fun i => 2 ^
      i).sum := by
    induction l generalizing a with
    | nil => rfl
    | cons i l ih =>
      rw [List.foldl_cons, ih]
      by_cases hi : i = d <;> simp [hi, Nat.add_assoc]
  simpa using h 0

end Sys2Proof.Machine

open Sys2Proof Sys2Proof.Machine

/-- Settles O25: the function's ACTIVE contexts are lost one by one, and its own record is set. -/
theorem graceAndFunctionReset : Obligations.GraceAndFunctionReset := by
  refine ⟨fun s f why hd => ?_, fun s f n hg hn => ?_, fun s hr => ?_, fun s f hr => ?_⟩
  · let u := setFn s f.val { fnOf s f.val with grace := some 0, graceLen := s.fw.graceTicks, graceDue := none, hbSeen := false }
    have hx : graceStart s f.val = dayBook u 0x0030 f.val s.fw.graceTicks why := by
      unfold graceStart
      simp only [hd]
      rfl
    have hfn (g : Nat) : fnOf (dayBook u 0x0030 f.val s.fw.graceTicks why) g = fnOf u g := by rw [fnOf, dayBook_fns, fnOf]
    refine ⟨_, rfl, ?_⟩
    rw [hx]
    refine ⟨?_, fun g hgf => ?_, ?_⟩
    · rw [hfn]
      exact fnOf_setFn_same _ _ _
    · rw [hfn]
      exact fnOf_setFn_other _ _ hgf
    · exact ((setFn_only s _ _).mono (by simp)).trans ((dayBook_only u _ _ _ _).mono (by simp))
  · let u := setFn s f.val { fnOf s f.val with grace := none, hbSeen := false }
    let v := hostGone u f.val
    obtain ⟨w, hw, hs⟩ : ∃ w, Served v w ∧ graceExpiry s f.val = serveReqs (dayBook w 0x0032 f.val (activeOf s f.val).length 0) :=
        by
      unfold graceExpiry
      simp only [hg]
      rw [if_neg (by omega)]
      refine ⟨_, ?_, rfl⟩
      split
      · exact refuseSlot_served _ _ _ _
      · exact .refl v
    have hv := hw.trans ((dayBook_logged w 0x0032 f.val (activeOf s f.val).length 0).served.trans (serveReqs_served _))
    rw [← hs] at hv
    have hl : Loses u v := hostGone_loses u f.val
    refine ⟨_, rfl, ?_, (hostGone_noneActive u f.val).congr (hv.only .obj (by decide)), ?_⟩
    · have h1 : (fnOf (graceExpiry s f.val) f.val).lasting.grace = (fnOf v f.val).lasting.grace := congrArg Fn.grace (hv.fns f.val)
      have h2 : (fnOf v f.val).settled.grace = (fnOf u f.val).settled.grace := congrArg Fn.grace (hl.fns f.val)
      refine h1.trans (h2.trans ?_)
      rw [show fnOf u f.val = _ from fnOf_setFn_same _ _ _]
      rfl
    · have h0 : Only (.acc :: .regs :: .free :: lossParts) s u := (setFn_only s _ _).mono (by simp [lossParts])
      exact h0.trans (((hostGone_only u f.val).mono (by simp [lossParts])).trans (hv.only.mono (by simp [lossParts])))
  · change Host.Outcome.next (pcieLinkDown s) = _
    rw [pcieLinkDown, if_neg (by simp [hr])]
    rfl
  · let u := hostGone s f.val
    have hl : Loses s u := hostGone_loses s f.val
    have hset (g : Nat) : (fnOf u g).settled = (fnOf s g).settled := hl.fns g
    let x := { fnOf u f.val with
      cmdBase := 6, cplBase := 6, cmdTail := 0, cplHead := 0, taken := 0, written := 0, miss := 0, grace := none
      graceLen := 0, graceDue := none, hbSeen := false, invalTok := 0, msixTable := [], msixPend := [] }
    have hx : functionLevelReset s f.val = setFn u f.val x := if_neg (by simp [hr])
    refine ⟨_, rfl, ?_⟩
    rw [hx]
    have hf : fnOf (setFn u f.val x) f.val = x := fnOf_setFn_same _ _ _
    refine ⟨(hostGone_noneActive s f.val).congr rfl, ?_⟩
    rw [hf]
    refine ⟨rfl, rfl, rfl, rfl, rfl, rfl, rfl, rfl, ?_, fun g hg => ?_, ?_⟩
    · exact show (fnOf u f.val).settled.lastHb = (fnOf s f.val).settled.lastHb by rw [hset]
    · rw [fnOf_setFn_other _ _ hg]
      exact ⟨show (fnOf u g).settled.cmdBase = (fnOf s g).settled.cmdBase by rw [hset],
        show (fnOf u g).settled.cmdTail = (fnOf s g).settled.cmdTail by rw [hset]⟩
    · exact (hostGone_only s f.val).trans ((setFn_only u _ _).mono (by simp [lossParts]))

/-- Settles O26: the slots one by one, and the requests that are served once firmware runs again. -/
theorem restartsRefuseAndEnd : Obligations.RestartsRefuseAndEnd := by
  have key (cause : Nat) (s : State) (h : (s.fw.restartTicks.filter fun k => decide (s.hoop.tick < k + 64)).length < 2) :=
    And.intro (fwRestart_leaves h cause) (restarted_slots h cause)
  refine ⟨⟨fun s hd hr hf => ?_, fun s hr hf => ?_⟩, fun s hr hi => ?_, fun s he hi => ?_⟩
  · obtain ⟨⟨h1, h2, h3, h4, h5, h6⟩, h7⟩ := key 1 s hf
    have hx : watchdogExpiry s = fwRestart s 1 := if_pos ⟨hd, hr⟩
    refine ⟨_, rfl, ?_⟩
    rw [hx]
    exact ⟨h1, h2, h3, h4, h7, h5, h6 .obj (by decide), h6 .circ (by decide), h6 .cores (by decide), h6 .hoop (by decide)⟩
  · obtain ⟨⟨h1, h2, h3, h4, h5, h6⟩, h7⟩ := key 2 s hf
    have hx : lockstepMismatch s = fwRestart s 2 := if_pos hr
    refine ⟨_, rfl, ?_⟩
    rw [hx]
    exact ⟨h1, h2, h3, h4, h7, h5, h6 .obj (by decide), h6 .circ (by decide), h6 .cores (by decide), h6 .hoop (by decide)⟩
  · let u := setFw s { s.fw with restarting := false, running := true }
    have hx : restartDone s = serveReqs u := by
      unfold restartDone
      rw [if_neg (by simp [hr]), if_pos hi]
    have hs := serveReqs_served u
    refine ⟨_, rfl, ?_⟩
    rw [hx]
    generalize serveReqs u = t at hs
    obtain ⟨b, r, q, hfw⟩ := hs.fw
    refine ⟨by rw [hfw]; rfl, by rw [hfw]; rfl, hs.only .obj (by decide), fun o => by rw [active, hs.active]; rfl, ?_⟩
    have h0 : Only [.fw, .acc, .regs, .fns, .fab, .free] s u := fun p hp => by cases p <;> first | (simp at hp; done) | rfl
    exact h0.trans (hs.only.mono (by simp))
  · have hx : s3ExitDone s = setFw (setPwr s { s.pwr with
        inS3 := false, exiting := false, lock := 0xFFFF
        doms := tmap s.pwr.doms fun _ x => if x.held then x else { x with st := .on } }) { s.fw with running := true } := by
      unfold s3ExitDone
      rw [if_neg (by simp [he])]
      exact if_pos hi
    refine ⟨_, rfl, ?_⟩
    rw [hx]
    exact ⟨rfl, rfl, rfl, rfl, rfl, fun p hp => by cases p <;> first | (simp at hp; done) | rfl⟩

/-- Settles O30: each input that is out of its ratings is a fault of the device. -/
theorem ratingFaultsFailTheDevice : Obligations.RatingFaultsFailTheDevice := by
  unfold Obligations.RatingFaultsFailTheDevice
  intro failed
  have key {s u : State} {means : Nat} (hs : u.flt = s.flt) (ho : Only [.pwr, .brd] s u) :
      failed means s (deviceFault u means) ∧ (deviceFault u means).pwr = u.pwr ∧ (deviceFault u means).brd = u.brd := by
    obtain ⟨h1, h2, h3, h4⟩ := deviceFault_leaves u means
    rw [hs] at h2 h3
    have h5 : ∀ p, p ∈ [Part.hoop, .regs, .acc, .car] → p.same s (deviceFault u means) := fun p hp =>
      ((ho.mono (qs := .pwr :: .brd :: faultParts) (by simp)).trans (h4.mono (by simp))) p (by
        simp only [List.mem_cons, List.not_mem_nil, or_false] at hp
        rcases hp with rfl | rfl | rfl | rfl <;> decide)
    exact ⟨⟨h1, h2, h3, h5 .hoop (by simp), h5 .regs (by simp), h5 .acc (by simp), h5 .car (by simp)⟩, h4 .pwr (by decide),
      h4 .brd (by decide)⟩
  have hpwr (s : State) (p : Power) : Only [.pwr, .brd] s (setPwr s p) := fun p hp => by cases p <;> first | (simp at hp; done) |
      rfl
  refine ⟨fun s hp hr => ?_, fun s d hr hd h3 => ?_, fun s tj hr ht => ?_, fun s c hc => ?_, fun s tj => rfl⟩
  · have hx : supplyFault s = deviceFault s 7 := if_pos ⟨hp, by simp [hr]⟩
    obtain ⟨h1, h2, -⟩ := key (s := s) (u := s) (means := 7) rfl (.refl _ s)
    refine ⟨_, rfl, ?_⟩
    rw [hx]
    exact ⟨h1, h2⟩
  · let lock := (bitList 18 s.pwr.lock).foldl (fun a i => if i = d.val then a else a + 2 ^ i) 0
    have hx : clockFault s d.val = deviceFault (setPwr s { s.pwr with lock := lock }) 8 := by
      unfold clockFault
      rw [if_neg (by simp [hr])]
      exact if_pos ⟨hd, by simpa using h3⟩
    obtain ⟨h1, h2, -⟩ := key (s := s) (u := setPwr s { s.pwr with lock := lock }) (means := 8) rfl (hpwr s _)
    refine ⟨_, rfl, ?_⟩
    rw [hx]
    refine ⟨h1, ?_⟩
    rw [h2]
    exact foldl_bits_filter d.val _
  · have hx : thermalFault s tj = deviceFault (setTj s tj) 9 := by
      unfold thermalFault
      rw [if_neg (by rw [hr]; simp; omega)]
    obtain ⟨h1, -, h2⟩ := key (s := s) (u := setTj s tj) (means := 9) rfl
      fun p hp => by cases p <;> first | (simp at hp; done) | rfl
    refine ⟨_, rfl, ?_⟩
    rw [hx]
    exact ⟨h1, h2⟩
  · intro u d hd ht
    have hx : voltageTimeoutAt s = deviceFault (setPwr u { u.pwr with vcmd := none }) 7 := by
      unfold voltageTimeoutAt
      simp only [hc]
      change voltageTimeout u = _
      unfold voltageTimeout
      simp only [hd]
      rw [if_pos ht]
    obtain ⟨h1, h2, -⟩ := key (s := u) (u := setPwr u { u.pwr with vcmd := none }) (means := 7) rfl (hpwr u _)
    refine ⟨_, rfl, ?_⟩
    rw [hx]
    exact ⟨h1, h2⟩
end

section
/-! Proofs: the SPDM responder (spec/17 R526 to R530). -/

namespace Sys2Proof.Machine

/-- A reply stands on the mailbox, and the day book may have recorded the request and the response. -/
theorem spdmReply_said (s : State) (req : Nat) (out : List Byte) : ∃ m b r, spdmReply s req out =
    { s with fab := { s.fab with host := m }, fw := { s.fw with book := b, bookRing := r, spdmOut := out } } := by
  unfold spdmReply
  dsimp only
  have h := trace_logged s 6 0 0 req
  generalize trace s 6 0 0 req = u at h ⊢
  obtain ⟨m, b, r, rfl⟩ := h
  obtain ⟨m', b', r', h'⟩ := trace_logged (setFw _ _) 6 1 0 ((out.getD 1 0).toNat)
  exact ⟨m', b', r', h'⟩

theorem spdmReply_only (s : State) (req : Nat) (out : List Byte) : Only [.fw, .fab] s (spdmReply s req out) := by
  obtain ⟨m, b, r, h⟩ := spdmReply_said s req out
  rw [h]
  exact fun p hp => by cases p <;> first | (simp at hp; done) | rfl

/-- During a restart a request is answered Busy. -/
theorem spdmServe_busy {s : State} (hb : s.brd.inReset = false) (hs : s.pwr.inS3 = false) (hr : s.fw.restarting = true)
    (req : Nat) (may : Bool) (n : Nat) (answer : List Byte → List Byte) (post : Firmware → Firmware) :
    (spdmServe s req may n answer post).fw.spdmOut = byteList [0x12, 0x7F, 0x03, 0] ∧
      Only [.fw, .fab] s (spdmServe s req may n answer post) := by
  rw [spdmServe, if_neg (by simp [hb, hs]), if_pos hr]
  refine ⟨?_, spdmReply_only _ _ _⟩
  obtain ⟨m, b, r, h⟩ := spdmReply_said s req (spdmError 0x03)
  rw [h]
  rfl

/-- The requests of the responder are all served in one way. -/
theorem answers_busy {s : State} (hb : s.brd.inReset = false) (hs : s.pwr.inS3 = false) (hr : s.fw.restarting = true)
    {c : Instr} {t : State} {req n : Nat} {may : Bool} {answer : List Byte → List Byte} {post : Firmware → Firmware}
    (hx : exec c s = .next t) (h : t = spdmServe s req may n answer post) :
    Answers c s fun t => t.fw.spdmOut = byteList [0x12, 0x7F, 0x03, 0] ∧ Only [.fw, .fab] s t :=
  ⟨t, hx, h ▸ spdmServe_busy hb hs hr _ _ _ _ _⟩

/-- A request that may be made is answered, and then changes the flags that its kind changes. -/
theorem answers_spdm {s : State} (hb : s.brd.inReset = false) (hs : s.pwr.inS3 = false) (hr : s.fw.restarting = false)
    {c : Instr} {t : State} {req n : Nat} {may : Bool} {answer : List Byte → List Byte} {post : Firmware → Firmware}
    {P : State → Prop} (hx : exec c s = .next t) (h : t = spdmServe s req may n answer post) (hm : may = true)
    (hP : ∀ t x, x.spdmOut = answer (freeBytes s n) → t.fw = post x → Only [.fw, .fab, .free] s t → P t) : Answers c s P := by
  refine ⟨t, hx, hP t (spdmReply (drewN s n) req (answer (freeBytes s n))).fw ?_ ?_ ?_⟩
  all_goals
    rw [spdmServe, if_neg (by simp [hb, hs]), if_neg (by simp [hr]), if_neg (by simp [hm])] at h
    dsimp only at h
    obtain ⟨m, b, r, hy⟩ := spdmReply_said (drewN s n) req (answer (freeBytes s n))
  · rw [hy]
  · rw [h]
    rfl
  · rw [h, hy]
    exact fun p hp => by cases p <;> first | (simp at hp; done) | rfl

end Sys2Proof.Machine

open Sys2Proof Sys2Proof.Machine

/-- Settles O29: each request is the responder's one service with its own answer and flags. -/
theorem spdmRequestsAreAnswered : Obligations.SpdmRequestsAreAnswered := by
  intro s hb hs
  refine ⟨fun hr asym hash meas slot summary i off len sign nonce c hc => ?_, fun hr => ?_⟩
  · simp only [List.mem_cons, List.not_mem_nil, or_false] at hc
    obtain rfl | rfl | rfl | rfl | rfl | rfl := hc
    · exact answers_busy hb hs hr rfl (getVersion.eq_1 s)
    · exact answers_busy hb hs hr rfl (getCapabilities.eq_1 s)
    · exact answers_busy hb hs hr rfl (negotiate.eq_1 s asym hash meas)
    · exact answers_busy hb hs hr rfl (getCertificate.eq_1 s slot.val off len)
    · exact answers_busy hb hs hr rfl (challenge.eq_1 s slot.val summary.val)
    · exact answers_busy hb hs hr rfl (getMeasurements.eq_1 s i.val sign)
  refine ⟨?_, fun hv => ?_, fun asym hash meas hc ha hh => ?_, fun off len hready hoff => ?_, fun summary nonce hready => ?_,
    fun i sign nonce hready hi => ?_⟩
  · refine answers_spdm hb hs hr rfl (getVersion.eq_1 s) rfl fun t x hx hf ho => ?_
    rw [hf]
    exact ⟨hx, rfl, rfl, rfl, ho⟩
  · refine answers_spdm hb hs hr rfl (getCapabilities.eq_1 s) hv fun t x hx hf ho => ?_
    rw [hf]
    refine ⟨?_, rfl, ho⟩
    dsimp only
    rw [hx, List.append_assoc, List.append_assoc]
    rfl
  · refine answers_spdm hb hs hr rfl (negotiate.eq_1 s asym hash meas) hc fun t x hx hf ho => ?_
    rw [hf, if_pos ⟨ha, hh⟩]
    refine ⟨?_, rfl, ho⟩
    dsimp only
    rw [hx, if_neg (by simp [ha])]
    rfl
  · refine answers_spdm hb hs hr rfl (getCertificate.eq_1 s 0 off len) hready fun t x hx hf ho => ?_
    dsimp only at hx
    rw [if_neg (by omega)] at hx
    rw [hf]
    exact ⟨⟨_, _, rfl, rfl, hx, rfl⟩, ho⟩
  · refine answers_spdm hb hs hr rfl (challenge.eq_1 s 0 summary.val) hready fun t x hx hf ho => ?_
    dsimp only at hx
    rw [if_neg (by simp)] at hx
    rw [hf]
    simp only [List.append_assoc] at hx
    exact ⟨⟨_, hx.trans (List.append_assoc _ _ _).symm⟩, ho⟩
  · refine answers_spdm hb hs hr rfl (getMeasurements.eq_1 s i.val sign) hready fun t x hx hf ho => ?_
    dsimp only at hx
    rw [if_neg (show ¬ (i.val ≠ 0xFF ∧ 6 < i.val) by omega)] at hx
    have hlen : (if i.val = 0xFF then [1, 2, 3, 4, 5, 6] else if i.val = 0 then [] else [i.val]).length =
        if i.val = 0xFF then 6 else if i.val = 0 then 0 else 1 := by
      split
      · rfl
      · split <;> rfl
    rw [hlen] at hx
    rw [hf]
    simp only [List.append_assoc] at hx
    exact ⟨⟨_, hx⟩, ho⟩
end

section
/-! Proofs: the local memory after a domain's sleep, and what a unit that fails leaves (spec/16 R488 to R492, spec/18 R541 to
R551). -/

namespace Sys2Proof.Machine

theorem mget_filter (p : Nat → Bool) (m : Mem) (a : Nat) :
    mget (m.filter fun c => p c.1) a = if p a then mget m a else 0 := by
  induction m with
  | nil => simp [mget]
  | cons c m ih =>
    obtain ⟨k, b⟩ := c
    by_cases hk : k = a
    · subst hk
      by_cases hp : p k = true <;> simp_all [mget]
    · by_cases hp : p k = true <;> simp_all [mget]

theorem domOf_setDom_same (s : State) (d : Nat) (x : Dom) : domOf (setDom s d x) d = x := by
  simp [domOf, setDom, tgetD]

theorem domOf_setDom_other (s : State) {d e : Nat} (h : e ≠ d) (x : Dom) : domOf (setDom s d x) e = domOf s e := by
  simp only [domOf, setDom, tgetD, tget_tset_other _ _ h]

theorem setDom_only (s : State) (d : Nat) (x : Dom) : Only [.pwr] s (setDom s d x) :=
  fun p hp => by cases p <;> first | (simp at hp; done) | rfl

/-! ## The owners of a failed unit -/

/-- A step that changes nothing of the ports but their messages and streams. -/
def PortsKept (s t : State) : Prop := ∃ l m, t.circ = { s.circ with sends := l, streams := m }

theorem PortsKept.refl (s : State) : PortsKept s s := ⟨_, _, rfl⟩

theorem PortsKept.of_circ {s t : State} (h : t.circ = s.circ) : PortsKept s t := ⟨_, _, h⟩

theorem Ends.ports {s t : State} (h : Ends s t) : PortsKept s t := by
  obtain ⟨l, hl⟩ := h.circ
  exact ⟨l, _, hl⟩

theorem PortsKept.trans {s t u : State} (h : PortsKept s t) (h' : PortsKept t u) : PortsKept s u := by
  obtain ⟨l, m, hc⟩ := h
  obtain ⟨l', m', hc'⟩ := h'
  exact ⟨l', m', by rw [hc', hc]⟩

theorem PortsKept.foldl {β : Type} {f : State → β → State} (hf : ∀ s b, PortsKept s (f s b)) (l : List β) (s : State) :
    PortsKept s (l.foldl f s) := by
  induction l generalizing s with
  | nil => exact .refl s
  | cons b l ih => exact (hf s b).trans (ih (f s b))

/-- The work of a queue is dropped, and the queue emptied. -/
def stopQueue (s : State) (q : Nat) : State :=
  match getQ s q with
  | none => s
  | some x => putQ (x.recs.foldl (fun s d => dropWork s q d.idx) s) q { x with recs := [], resume := none }

theorem stopQueue_leaves (s : State) (q : Nat) : PortsKept s (stopQueue s q) ∧ Only completeParts s (stopQueue s q) := by
  unfold stopQueue
  split
  · exact ⟨.refl s, .refl _ s⟩
  · rename_i x _
    have h1 : PortsKept s (x.recs.foldl (fun s d => dropWork s q d.idx) s) :=
      .foldl (fun s (d : Desc) => (dropWork_ends s q d.idx).ports) _ s
    have h2 : Only completeParts s (x.recs.foldl (fun s d => dropWork s q d.idx) s) :=
      .foldl (fun s (d : Desc) => (dropWork_only s q d.idx).mono (by simp [workParts, completeParts])) _ s
    generalize x.recs.foldl (fun s d => dropWork s q d.idx) s = u at h1 h2 ⊢
    have h3 := putQ_only u q { x with recs := [], resume := none }
    exact ⟨h1.trans (.of_circ (h3 .circ (by decide))), h2.trans (h3.mono (by simp [completeParts]))⟩

theorem stopWork_leaves (s : State) (c : Nat) : PortsKept s (stopWork s c) ∧ Only completeParts s (stopWork s c) :=
  ⟨.foldl (fun s q => (stopQueue_leaves s q).1) _ s, .foldl (fun s q => (stopQueue_leaves s q).2) _ s⟩

/-- The dirty lines of a context's own slot are dropped. -/
def dropOwned (s : State) (c : Nat) : State :=
  match slotOfCtx s (ctxHandle s c) with
  | some n => dropDirty s n
  | none => s

theorem dropOwned_leaves (s : State) (c : Nat) : PortsKept s (dropOwned s c) ∧ Only [.fab] s (dropOwned s c) := by
  unfold dropOwned
  split
  · exact ⟨.of_circ rfl, dropDirty_only s _⟩
  · exact ⟨.refl s, .refl _ s⟩

/-- The objects of a context are gone, and its indices the partner's. -/
def handedOver (s : State) (c : Nat) : State :=
  let o := s.obj
  { s with
    obj := { o with
      ctxs := tdel o.ctxs c
      queues := o.queues.filter fun e => e.1 == winKey || e.2.ctx != c
      fences := o.fences.filter fun e => e.2.ctx != c
      events := o.events.filter fun e => e.2.ctx != c
      graphs := o.graphs.filter fun e => e.2.ctx != c }
    mmu := dropAsid s.mmu c
    twin := { s.twin with peer := (objectKeys o c).foldl (fun t k => tset t k (tgetD o.gens k 0)) s.twin.peer } }

theorem handedOver_leaves (s : State) (c : Nat) :
    PortsKept s (handedOver s c) ∧ Only (.twin :: lossParts) s (handedOver s c) :=
  ⟨.of_circ rfl, fun p hp => by cases p <;> first | (simp [lossParts] at hp; done) | rfl⟩

theorem handOver_eq (s : State) (c : Nat) : handOver s c = if (ctxOf s c).isNone then s else
    handedOver (closeStreams (stopWork (dropOwned s c) c) fun _ t => t.ctx == c) c := rfl

/-- What is handed over to the partner leaves the ports, and every part that no context's work lies in. -/
theorem handOver_leaves (s : State) (c : Nat) : PortsKept s (handOver s c) ∧ Only (.twin :: lossParts) s (handOver s c) := by
  rw [handOver_eq]
  split
  · exact ⟨.refl s, .refl _ s⟩
  · have h0 := dropOwned_leaves s c
    have h1 := stopWork_leaves (dropOwned s c) c
    have h2 := (closeStreams_loses (stopWork (dropOwned s c) c) fun _ t => t.ctx == c).circ
    have h3 := closeStreams_only (stopWork (dropOwned s c) c) fun _ t => t.ctx == c
    have hc : completeParts ⊆ .twin :: lossParts := by simp [completeParts, lossParts]
    exact ⟨(h0.1.trans h1.1).trans (PortsKept.trans h2 (handedOver_leaves _ _).1),
      ((h0.2.mono (by simp [lossParts])).trans (h1.2.mono hc)).trans ((h3.mono hc).trans (handedOver_leaves _ _).2)⟩

theorem loseOrMove_leaves (s : State) (cs : List Nat) :
    PortsKept s (loseOrMove s cs) ∧ Only (.twin :: lossParts) s (loseOrMove s cs) := by
  unfold loseOrMove
  split
  · exact ⟨.refl s, .refl _ s⟩
  · split
    · refine ⟨PortsKept.trans (.of_circ rfl) (.foldl (fun s c => (handOver_leaves s c).1) _ _), Only.trans ?_
        (.foldl (fun s c => (handOver_leaves s c).2) _ _)⟩
      exact fun p hp => by cases p <;> first | (simp [lossParts] at hp; done) | rfl
    · exact ⟨.foldl (fun s c => (markLost_loses s c 0x02).circ) _ s,
        .foldl (fun s c => (markLost_only s c 0x02).mono fun p h => by simp [h]) _ s⟩

/-! ## Units out of service -/

/-- A domain that is held in S2 for good. -/
def Dom.heldDown (x : Dom) : Dom := { x with st := .s2, waking := false, held := true }

theorem holdDoms_only (s : State) (ds : List Nat) : Only [.pwr] s (holdDoms s ds) := .foldl (fun s d => setDom_only s d _) _ s

theorem domOf_holdDoms (ds : List Nat) (s : State) (d : Nat) :
    domOf (holdDoms s ds) d = if d ∈ ds then (domOf s d).heldDown else domOf s d := by
  induction ds generalizing s with
  | nil => simp [holdDoms]
  | cons e ds ih =>
    rw [show holdDoms s (e :: ds) = holdDoms (setDom s e (domOf s e).heldDown) ds from rfl, ih]
    by_cases hd : d = e
    · subst hd
      rw [domOf_setDom_same]
      simp [Dom.heldDown]
    · rw [domOf_setDom_other s hd]
      simp [hd]

/-- The fault registers once a fault is recorded: an earlier fault stays (R488). -/
def Faults.marked (x : Faults) (tick scope unit means : Nat) : Faults :=
  if x.valid then x else { x with valid := true, tick := tick, scope := scope, unit := unit, means := means }

theorem recordFault_flt (s : State) (scope unit means : Nat) :
    (recordFault s scope unit means).flt = s.flt.marked (s.hoop.tick % 2 ^ 32) scope unit means := by
  have hd (u : State) (a b c d : Nat) : (dayBook u a b c d).flt = u.flt := dayBook_only u a b c d .flt (by decide)
  have hr (u : State) : (raiseMsix u 0 3).flt = u.flt := raiseMsix_only u 0 3 .flt (by decide)
  unfold recordFault Faults.marked
  dsimp only
  split <;> split <;> simp only [hd, hr]

/-- The quads that go out of service with a unit. -/
def unitQuads : UnitRef → List Nat
  | .quad q => [q.val]
  | .cluster k => (List.range 4).map fun i => 4 * k.val + i
  | _ => []

/-- The media engines and ports that go out of service with a unit. -/
def unitUnits : UnitRef → List Nat
  | .media n => [n.val]
  | .port l => [16 + l.val]
  | _ => []

/-- The domains that a unit holds down when it fails. -/
def unitDoms : UnitRef → List Nat
  | .quad q => [domQuad q.val]
  | .cluster k => domCluster k.val :: domSlice k.val :: unitQuads (.cluster k)
  | .media n => [96 + n.val]
  | _ => []

/-- The fault registers once a unit has failed. -/
structure UnitOut (u : UnitRef) (means : Nat) (s t : State) : Prop where
  quads : t.flt.oosQuads = orQuads s.flt.oosQuads (unitQuads u)
  units : t.flt.oosUnits = orQuads s.flt.oosUnits (unitUnits u)
  failed : t.flt.failed = (s.flt.failed || decide (u = .device))
  valid : s.flt.valid = false → t.flt.valid = true ∧ t.flt.means = means
  doms : ∀ d, domOf t d = if d ∈ unitDoms u then (domOf s d).heldDown else domOf s d
  link : ∀ l, hasLink t l = true → hasLink s l = true ∧ ∀ p, u = .port p → p.val ≠ l
  only : Only (.pwr :: faultParts) s t

/-- The bits of a word of which a field is written. -/
theorem testBit_nput (w : Nat) {hi lo : Nat} (v m : Nat) (h : lo ≤ hi) :
    (nput w hi lo v).testBit m = if lo ≤ m ∧ m ≤ hi then v.testBit (m - lo) else w.testBit m := by
  have hk : 2 ^ (hi + 1) = 2 ^ lo * 2 ^ (hi + 1 - lo) := by rw [← pow_add, show lo + (hi + 1 - lo) = hi + 1 by omega]
  have he : nput w hi lo v = 2 ^ lo * (2 ^ (hi + 1 - lo) * (w >>> (hi + 1)) + v % 2 ^ (hi + 1 - lo)) + w % 2 ^ lo := by
    rw [nput, Nat.shiftLeft_eq, Nat.shiftLeft_eq, hk]
    ring
  rw [he, Nat.testBit_two_pow_mul_add _ (Nat.mod_lt _ (by positivity)),
    Nat.testBit_two_pow_mul_add _ (Nat.mod_lt _ (by positivity)), Nat.testBit_mod_two_pow, Nat.testBit_mod_two_pow,
    Nat.testBit_shiftRight]
  by_cases h1 : m < lo
  · rw [if_pos h1, if_neg (by omega)]
    simp [h1]
  · by_cases h2 : m - lo < hi + 1 - lo
    · rw [if_neg h1, if_pos h2, if_pos (by omega)]
      simp [h2]
    · rw [if_neg h1, if_neg h2, if_neg (by omega), show hi + 1 + (m - lo - (hi + 1 - lo)) = m by omega]

theorem PortsKept.link {s t : State} (h : PortsKept s t) : t.circ.link = s.circ.link := by
  obtain ⟨l, m, hc⟩ := h
  rw [hc]

/-- The parts that the record of a fault can reach. -/
def markParts : List Part := [.flt, .fns, .fab, .fw]

/-- A unit is marked out of service, its domains held, and its owners lost or moved. -/
theorem unitOut_of_marked {u : UnitRef} {means tick scope unit : Nat} {s v w t : State} (hne : u ≠ .device)
    (hv : v.flt = { s.flt.marked tick scope unit means with
      oosQuads := orQuads s.flt.oosQuads (unitQuads u), oosUnits := orQuads s.flt.oosUnits (unitUnits u) })
    (hvo : Only markParts s v) (hw : ∀ d, domOf w d = if d ∈ unitDoms u then (domOf v d).heldDown else domOf v d)
    (hwo : Only [.pwr, .circ] v w) (hl : ∀ l, hasLink w l = true → hasLink s l = true ∧ ∀ p, u = .port p → p.val ≠ l)
    (ht : PortsKept w t) (hto : Only (.twin :: lossParts) w t) : UnitOut u means s t := by
  have hflt : t.flt = v.flt := (hto .flt (by decide)).trans (hwo .flt (by decide))
  have hd : ∀ d, domOf t d = domOf w d := fun d => by rw [domOf, hto .pwr (by decide), domOf]
  have hd' : ∀ d, domOf v d = domOf s d := fun d => by rw [domOf, hvo .pwr (by decide), domOf]
  refine ⟨by rw [hflt, hv], by rw [hflt, hv], ?_, fun h => ?_, fun d => by rw [hd, hw, hd'], fun l h => ?_, ?_⟩
  · rw [hflt, hv, Faults.marked]
    split <;> simp [hne]
  · rw [hflt, hv, Faults.marked, if_neg (by simp [h])]
    exact ⟨rfl, rfl⟩
  · exact hl l (by rwa [hasLink, ← ht.link])
  · exact (hvo.mono (by simp [markParts, faultParts, lossParts])).trans ((hwo.mono (by simp [faultParts])).trans
      (hto.mono (by simp [faultParts, lossParts])))

/-- The state in which a fault has marked quads or units out of service. -/
def markedOut (s : State) (scope unit means : Nat) (qs us : List Nat) : State :=
  let s := recordFault s scope unit means
  { s with flt := { s.flt with oosQuads := orQuads s.flt.oosQuads qs, oosUnits := orQuads s.flt.oosUnits us } }

theorem markedOut_leaves (s : State) (scope unit means : Nat) (qs us : List Nat) :
    (markedOut s scope unit means qs us).flt = { s.flt.marked (s.hoop.tick % 2 ^ 32) scope unit means with
      oosQuads := orQuads s.flt.oosQuads qs, oosUnits := orQuads s.flt.oosUnits us } ∧
    Only markParts s (markedOut s scope unit means qs us) := by
  have h := (recordFault_leaves s scope unit means).2.2
  have h' := recordFault_flt s scope unit means
  unfold markedOut
  dsimp only
  rw [h']
  refine ⟨?_, Only.trans h fun p hp => by cases p <;> first | (simp [markParts] at hp; done) | rfl⟩
  unfold Faults.marked
  split <;> rfl

/-- What a fault leaves whose unit holds domains down. -/
theorem holdOut (s : State) {u : UnitRef} (hne : u ≠ .device) (hp : ∀ l, u ≠ .port l) (scope unit means : Nat) (cs : List Nat) :
    UnitOut u means s (loseOrMove (holdDoms (markedOut s scope unit means (unitQuads u) (unitUnits u)) (unitDoms u)) cs) := by
  obtain ⟨h1, h2⟩ := markedOut_leaves s scope unit means (unitQuads u) (unitUnits u)
  have h3 := holdDoms_only (markedOut s scope unit means (unitQuads u) (unitUnits u)) (unitDoms u)
  obtain ⟨h4, h5⟩ := loseOrMove_leaves (holdDoms (markedOut s scope unit means (unitQuads u) (unitUnits u)) (unitDoms u)) cs
  refine unitOut_of_marked hne h1 h2 (domOf_holdDoms _ _) (h3.mono (by simp)) (fun l h => ⟨?_, fun p h => absurd h (hp p)⟩) h4 h5
  rwa [hasLink, h3 .circ (by decide), h2 .circ (by decide)] at h

/-- What the fault of a port leaves. -/
theorem portOut (s : State) (l : Fin 8) (scope unit means : Nat) (cs : List Nat) :
    UnitOut (.port l) means s (loseOrMove (portLinkChange (markedOut s scope unit means [] [16 + l.val]) l.val false) cs) := by
  obtain ⟨h1, h2⟩ := markedOut_leaves s scope unit means [] [16 + l.val]
  generalize markedOut s scope unit means [] [16 + l.val] = v at h1 h2 ⊢
  have h3 : Only [.circ] v (portLinkChange v l.val false) := fun p hp => by cases p <;> first | (simp at hp; done) | rfl
  obtain ⟨h4, h5⟩ := loseOrMove_leaves (portLinkChange v l.val false) cs
  refine unitOut_of_marked (by simp) h1 h2 (fun d => ?_) (h3.mono (by simp)) (fun m h => ?_) h4 h5
  · rw [domOf, h3 .pwr (by decide), if_neg (by simp [unitDoms]), domOf]
  · have h' : (nput v.circ.link l.val l.val 0).testBit m = true := h
    rw [testBit_nput _ _ _ (Nat.le_refl _)] at h'
    by_cases hm : m = l.val
    · simp [hm] at h'
    · rw [if_neg (by omega), h2 .circ (by decide)] at h'
      exact ⟨h', fun p hp => by cases hp; exact fun h => hm h.symm⟩

theorem Faults.marked_eq (x : Faults) (tick scope unit means : Nat) : (x.marked tick scope unit means).oosQuads = x.oosQuads ∧
    (x.marked tick scope unit means).oosUnits = x.oosUnits ∧ (x.marked tick scope unit means).failed = x.failed := by
  unfold marked
  split <;> exact ⟨rfl, rfl, rfl⟩

theorem deviceFault_flt (s : State) (means : Nat) :
    (deviceFault s means).flt.oosQuads = s.flt.oosQuads ∧ (deviceFault s means).flt.oosUnits = s.flt.oosUnits ∧
      (s.flt.failed = true → (deviceFault s means).circ = s.circ) := by
  obtain ⟨h1, h2, h3⟩ := recordFault_leaves (drew s) 5 ((free s).toNat % 256) means
  obtain ⟨hq, hu, hf⟩ := Faults.marked_eq s.flt (s.hoop.tick % 2 ^ 32) 5 ((free s).toNat % 256) means
  have hflt : (recordFault (drew s) 5 ((free s).toNat % 256) means).flt = _ := recordFault_flt _ _ _ _
  have hc : (recordFault (drew s) 5 ((free s).toNat % 256) means).circ = s.circ := h3 .circ (by decide)
  rw [deviceFault_eq]
  dsimp only
  generalize recordFault (drew s) 5 ((free s).toNat % 256) means = u at h1 hflt hc
  have hu' : u.flt.oosQuads = s.flt.oosQuads ∧ u.flt.oosUnits = s.flt.oosUnits := by rw [hflt]; exact ⟨hq, hu⟩
  obtain ⟨w1, -, -, -⟩ := failNow_leaves u
  split
  · exact ⟨hu'.1, hu'.2, fun _ => hc⟩
  · rename_i hn
    have hn' : ¬ s.flt.failed = true := fun h => hn (h1.trans h)
    split
    · have hl : Only lossParts (failNow u) (((failNow u).obj.ctxs.map (·.1)).foldl (fun s c => markLost s c 0x02) (failNow u)) :=
        .foldl (fun s c => markLost_only s c 0x02) _ _
      rw [hl .flt (by decide), w1]
      exact ⟨hu'.1, hu'.2, fun h => absurd h hn'⟩
    · rw [w1]
      exact ⟨hu'.1, hu'.2, fun h => absurd h hn'⟩

/-- What a fault of the device leaves. -/
theorem deviceOut (s : State) (means : Nat) : UnitOut .device means s (deviceFault s means) := by
  obtain ⟨h1, h2, h3, h4⟩ := deviceFault_leaves s means
  obtain ⟨hq, hu, hcirc⟩ := deviceFault_flt s means
  refine ⟨hq, hu, by rw [h1]; simp, fun h => ⟨(h3 h).1, (h3 h).2.2⟩, fun d => ?_, fun l h => ?_,
    h4.mono (by simp)⟩
  · rw [domOf, h4 .pwr (by decide), if_neg (by simp [unitDoms]), domOf]
  · refine ⟨?_, by simp⟩
    cases hf : s.flt.failed with
    | false => simp [hasLink, (h2 hf).1] at h
    | true => rwa [hasLink, hcirc hf] at h

/-- A fault of a unit marks that unit and nothing else (R488 to R492). -/
theorem unitFault_out (s : State) (u : UnitRef) (means : Nat) : UnitOut u means s (unitFault s u means) := by
  cases u with
  | quad q => exact holdOut s (u := .quad q) (by simp) (by simp) _ _ _ _
  | cluster k => exact holdOut s (u := .cluster k) (by simp) (by simp) _ _ _ _
  | media n => exact holdOut s (u := .media n) (by simp) (by simp) _ _ _ _
  | port l => exact portOut s l _ _ _ _
  | device => exact deviceOut s means

end Sys2Proof.Machine
end

section
/-! Proofs: power windows, sleep states of domains, and S3 (spec/18 R534 to R557). -/

namespace Sys2Proof.Machine

/-- What a domain loses in S2 lies in the parts of its units; of local memory only its quad's (R550). -/
theorem domLose_only (s : State) (d : Nat) : Only [.cores, .eng, .fab, .twin, .mmu, .bob, .cod] s (domLose s d) := by
  intro p hp
  unfold domLose
  dsimp only
  split_ifs <;> cases p <;> first | (simp at hp; done) | rfl

theorem domLose_lm (s : State) (d a : Nat) : mget (domLose s d).cores.lm a =
    if d < 64 ∧ a / 0x80000 / 4 = d then 0 else mget s.cores.lm a := by
  unfold domLose
  dsimp only
  by_cases hd : d < 64
  · have h := mget_filter (fun k => decide (k / 0x80000 / 4 ≠ d)) s.cores.lm a
    by_cases ha : a / 0x80000 / 4 = d <;> simp_all
  · simp only [if_neg hd, if_neg (fun h => hd (And.left h))]
    split_ifs <;> rfl

theorem entryDone_eq {s : State} {d : Nat} (hc : (domOf s d).st = .changing) (hw : (domOf s d).waking = false) :
    entryDone s d = setDom (if (domOf s d).toward = 2 then domLose s d else s) d { domOf s d with
      st := if (domOf s d).toward = 2 then .s2 else .s1, toward := 0, resv := false, waking := false } := by
  rw [entryDone, if_neg (by simp [hc])]
  dsimp only
  rw [hw]
  rfl

/-- The unit whose fault holds a domain below 112 down. -/
theorem domScope_unit (s : State) {d : Nat} (h : d < 112) : ∃ u, domScope s d = [u] ∧ d ∈ unitDoms u := by
  unfold domScope
  by_cases h1 : d < 64
  · exact ⟨_, if_pos h1, by simp [unitDoms, domQuad, Nat.mod_eq_of_lt h1]⟩
  by_cases h2 : d < 96
  · refine ⟨_, by rw [if_neg h1, if_pos h2], ?_⟩
    have : d = 64 + d % 16 ∨ d = 80 + d % 16 := by omega
    simp only [unitDoms, domCluster, domSlice, Fin.val_ofNat, Nat.mod_mod, List.mem_cons]
    tauto
  · refine ⟨_, by rw [if_neg h1, if_neg h2, if_pos h], ?_⟩
    simp only [unitDoms, Fin.val_ofNat, List.mem_singleton]
    omega

/-- Faults of units leave a domain that does not wake so. -/
theorem foldl_unitFault_waking (means d : Nat) (l : List UnitRef) (s : State) (h : (domOf s d).waking = false) :
    (domOf (l.foldl (fun s u => unitFault s u means) s) d).waking = false ∧
      (l.foldl (fun s u => unitFault s u means) s).hoop = s.hoop := by
  induction l generalizing s with
  | nil => exact ⟨h, rfl⟩
  | cons u l ih =>
    have ho := unitFault_out s u means
    rw [List.foldl_cons]
    obtain ⟨h1, h2⟩ := ih (unitFault s u means) (by rw [ho.doms]; split; exacts [rfl, h])
    exact ⟨h1, h2.trans (ho.only .hoop (by decide))⟩

/-- The power fields once a window of mean power `mw` has ended (R536 to R538). -/
def windowPower (p : Power) (mw : Nat) : Power :=
  let over' : Bool := decide (1000 * p.limit < mw)
  let run := if over' then p.overRun + 1 else 0
  { p with
    powerMw := mw % 2 ^ 32
    throttleMs := if p.throttling then satAdd 0xFFFFFFFF p.throttleMs 1 else p.throttleMs
    throttling := if over' then true else if 20 * mw ≤ 19 * 1000 * p.limit then false else p.throttling
    overRun := run, intArmed := (p.intArmed || !over') && !(over' && decide (20 ≤ run) && p.intArmed)
    limit := p.limitNext, windowAt := p.windowAt + 100000 }

theorem powerWindow_leaves (s : State) (mw : Nat) :
    Only [.fns, .fab] (setPwr s (windowPower s.pwr mw)) (powerWindow s mw) := by
  unfold powerWindow
  exact .ite (fun _ => raiseMsix_only _ 0 4) fun _ => .refl _ _

end Sys2Proof.Machine

open Sys2Proof Sys2Proof.Machine

/-- Settles O32: each event sets its own fields; a wake that is too late holds the domain with its unit. -/
theorem powerEventsChangeLevelsAndDomains : Obligations.PowerEventsChangeLevelsAndDomains := by
  refine ⟨fun s c hv ht => ?_, fun s mw hr => ?_, fun s d hd hs hm hk hb h3 hr => ?_, fun s d hc hw => ?_,
    fun s d hst hw hd => ?_, fun s d hw => ?_⟩
  · change Host.Outcome.next (voltageConfirm s) = _
    rw [voltageConfirm, hv]
    dsimp only
    rw [if_neg (by omega)]
    split
    · rename_i hh
      simp [setPwr, hh]
    · rename_i hh
      simp [setPwr, hh]
  · intro u
    have hx : exec (.powerWindowEnd mw) s = .next (powerWindow u mw) := by
      change Host.Outcome.next (powerWindowEnd s mw) = _
      rw [powerWindowEnd, if_neg (by simp [hr])]
    refine ⟨_, hx, ?_⟩
    clear_value u
    have h := powerWindow_leaves u mw
    have hp : (powerWindow u mw).pwr = windowPower u.pwr mw := h .pwr (by decide)
    rw [hp]
    refine ⟨rfl, rfl, rfl, fun h => ?_, fun h h' => ?_, fun h => ?_, ?_⟩
    · simp [windowPower, h]
    · simp [windowPower, Nat.not_lt.2 h, h']
    · simp [windowPower, h, satAdd]
    · exact Only.trans (fun q hq => by cases q <;> first | (simp at hq; done) | rfl) (h.mono (by simp))
  · have hx : exec (.domainSleepEntry d) s = .next (setDom (drew s) d.val { domOf s d.val with
        st := .changing, toward := min (domOf s d.val).allow (domDeepest s d.val),
        resv := decide (min (domOf s d.val).allow (domDeepest s d.val) = 2 ∧ (free s).toNat % 2 = 1) }) := by
      change Host.Outcome.next (sleepEntry s d.val) = _
      rw [sleepEntry, if_neg (by simp only [hd, hs, hm, hk, hb, h3, hr]; simp)]
    refine ⟨_, hx, ?_, ?_, fun e he => domOf_setDom_other _ he _, ?_⟩
    · rw [domOf_setDom_same]
    · rw [domOf_setDom_same]
    · exact ((drew_only s).mono (by simp)).trans ((setDom_only _ _ _).mono (by simp))
  · refine ⟨_, congrArg Host.Outcome.next (entryDone_eq hc hw), ?_⟩
    have hu : Only [.cores, .eng, .fab, .twin, .mmu, .bob, .cod] s
        (if (domOf s d.val).toward = 2 then domLose s d.val else s) := .ite (fun _ => domLose_only s _) fun _ => .refl _ s
    have hlm (a : Nat) : mget (if (domOf s d.val).toward = 2 then domLose s d.val else s).cores.lm a =
        if (domOf s d.val).toward = 2 ∧ d.val < 64 ∧ a / 0x80000 / 4 = d.val then 0 else mget s.cores.lm a := by
      by_cases h2 : (domOf s d.val).toward = 2 <;> simp [h2, domLose_lm]
    generalize (if (domOf s d.val).toward = 2 then domLose s d.val else s) = u at hu hlm
    refine ⟨?_, fun e he => ?_, fun h2 hd a ha => ?_, fun a ha => ?_, ?_⟩
    · rw [domOf_setDom_same]
    · rw [domOf_setDom_other _ he, domOf, hu .pwr (by decide), domOf]
    · exact (hlm a).trans (if_pos ⟨h2, hd, ha⟩)
    · exact (hlm a).trans (if_neg fun h => ha h.2.2)
    · exact (hu.mono (by simp)).trans ((setDom_only _ _ _).mono (by simp))
  · change Host.Outcome.next (wakeDone s d.val) = _
    rw [wakeDone, if_pos ⟨hst, hw, by simp [hd]⟩]
  · intro u hw' hst hat
    have hx : exec (.wakeTimeout d) s = .next ((domScope u d.val).foldl (fun s u => unitFault s u 7)
        (setDom u d.val { domOf u d.val with waking := false })) := by
      change Host.Outcome.next (wakeTimeoutAt s d.val) = _
      rw [wakeTimeoutAt, if_neg (by simp [hw]), wakeTimeout, if_pos ⟨hw', hst, hat⟩]
    refine ⟨_, hx, ?_⟩
    clear_value u
    obtain ⟨h1, h2⟩ := foldl_unitFault_waking 7 d.val (domScope u d.val) (setDom u d.val { domOf u d.val with waking := false })
      (by rw [domOf_setDom_same])
    refine ⟨h1, fun hd => ?_, h2⟩
    obtain ⟨r, hr, hm⟩ := domScope_unit u hd
    have ho := unitFault_out (setDom u d.val { domOf u d.val with waking := false }) r 7
    rw [hr, List.foldl_cons, List.foldl_nil]
    exact ⟨by rw [ho.doms, if_pos hm]; rfl, fun hv => ho.valid hv⟩

/-- Settles O33: by the conditions that each write or wake tests. -/
theorem sleepOfTheDevice : Obligations.SleepOfTheDevice := by
  refine ⟨fun s hb => ?_, fun s h3 he hr => ?_, fun s v hb hd => ?_⟩
  · intro may
    change Host.Outcome.next (requestS3 s) = _
    rw [requestS3, if_neg (by simp [hb])]
    by_cases hm : s.obj.ctxs.isEmpty ∧ s.circ.streams.isEmpty ∧ s.twin.st = .detached ∧ !accPending s ∧ s.mmu.carve = 0 ∧
      s.mmu.carveNext = 0
    · have : may = true := by simpa [may, and_assoc] using hm
      rw [if_pos hm, this]
      rfl
    · have : may = false := by
        rw [← Bool.not_eq_true]
        exact fun h => hm (by simpa [may, and_assoc] using h)
      rw [if_neg hm, this]
      simp [setPwr]
  · intro exits
    have hx (src : Nat) : startExit s src = exits src := by
      rw [startExit, if_neg (by simp [h3, he, hr])]
      rfl
    refine ⟨?_, fun off size v => ?_, fun f off size w => ?_, fun off size h1 h2 => ?_, fun off size h => ?_⟩
    · exact congrArg Host.Outcome.next (hx 7)
    · exact congrArg Host.Outcome.next (hx 6)
    · exact congrArg Host.Outcome.next (hx 6)
    · change Host.Outcome.next (accessInS3 s .bar0 off false) = _
      rw [accessInS3, if_neg (by simp only [s3Range]; grind), hx]
    · change Host.Outcome.next (accessInS3 s .bar0 off false) = _
      rw [accessInS3, if_pos (by simp only [s3Range]; grind)]
  · change Host.Outcome.next (setClamp s v) = _
    have hno : ((List.range 124).any fun d => domAbsent s d || (domOf s d).st = .s2 || (domOf s d).st = .changing) = false := by
      rw [List.any_eq_false]
      intro d hm
      obtain ⟨h1, h2, h3⟩ := hd d (List.mem_range.1 hm)
      simp [h1, h2, h3]
    rw [setClamp, hno, if_neg (by simp [hb])]
    rfl
end

section
/-! Proofs: ports and address resolution (spec/15 R434 to R441). -/

namespace Sys2Proof.Machine

/-- A domain that is ON is reached at once (R545). -/
theorem reachDom_on {s : State} {d : Nat} (h : IsOn s d) (src : Nat) : reachDom s d src = (s, true) := by
  rw [reachDom, h.1, h.2]
  rfl

theorem reachDoms_on {s : State} {ds : List Nat} (h : ∀ d ∈ ds, IsOn s d) (src : Nat) : reachDoms s ds src = (s, true) := by
  unfold reachDoms
  induction ds with
  | nil => rfl
  | cons d ds ih =>
    rw [List.foldl_cons, reachDom_on (h d (by simp))]
    exact ih fun e he => h e (by simp [he])

/-- A port without open streams takes the mode that is written, and its links go down when that is another (R434). -/
theorem writeMode_leaves (s : State) {p v : Nat} (hp : p = 0 ∨ p = 1) :
    portMode (writeMode s p v) p = (if portBusy s p then portMode s p else v) ∧
    portMode (writeMode s p v) (1 - p) = portMode s (1 - p) ∧ portBusy (writeMode s p v) = portBusy s ∧
    (∀ l, hasLink (writeMode s p v) l =
      (hasLink s l && (l / 4 != p || portMode (writeMode s p v) p == portMode s p))) ∧ Only [.circ] s (writeMode s p v) := by
  unfold writeMode
  split
  · rename_i h
    refine ⟨?_, rfl, rfl, fun l => by simp, .refl _ s⟩
    split
    · rfl
    · rename_i hb
      exact (h.resolve_right hb).symm
  · rename_i h
    obtain ⟨hv, hb⟩ := not_or.1 h
    have hmode : portMode { s with circ := { (if p = 0 then { s.circ with mode0 := v } else { s.circ with mode1 := v }) with
        link := nput (if p = 0 then { s.circ with mode0 := v } else { s.circ with mode1 := v }).link (4 * p + 3) (4 * p) 0 } } p =
        v := by
      obtain rfl | rfl := hp <;> simp [portMode]
    refine ⟨by rw [hmode, if_neg hb], ?_, ?_, fun l => ?_, ?_⟩
    · obtain rfl | rfl := hp <;> simp [portMode]
    · obtain rfl | rfl := hp <;> rfl
    · rw [hmode]
      have hl : hasLink { s with circ := { (if p = 0 then { s.circ with mode0 := v } else { s.circ with mode1 := v }) with
          link := nput (if p = 0 then { s.circ with mode0 := v } else { s.circ with mode1 := v }).link (4 * p + 3) (4 * p) 0 } } l =
          (nput s.circ.link (4 * p + 3) (4 * p) 0).testBit l := by
        obtain rfl | rfl := hp <;> rfl
      rw [hl, testBit_nput _ _ _ (by omega), hasLink]
      by_cases hlp : l / 4 = p
      · simp [hlp, hv, show 4 * p ≤ l ∧ l ≤ 4 * p + 3 by omega]
      · rw [if_neg (by omega)]
        simp [hlp]
    · exact fun q hq => by cases q <;> first | (simp at hq; done) | rfl

end Sys2Proof.Machine

open Sys2Proof Sys2Proof.Machine

/-- Settles O34: each input is one update of the ports. -/
theorem portsAreConfiguredAndAnswer : Obligations.PortsAreConfiguredAndAnswer := by
  refine ⟨fun s v hb h0 h1 => ?_, fun s n v hb hn => ?_, fun s l up => ?_, fun s l mac ip target hl => ?_,
    fun s l dmac mac dip ip target hl => ?_⟩
  · have hr : reachDoms s [domCirc 0, domCirc 1] 3 = (s, true) := reachDoms_on (by simp [domCirc, h0, h1]) 3
    have hx : exec (.circPortCfgWrite v) s = .next (writeMode (writeMode s 0 (bits v 1 0)) 1 (bits v 3 2)) := by
      change Host.Outcome.next (circPortCfgWrite s v) = _
      rw [circPortCfgWrite, if_neg (by simp [hb]), hr]
    refine ⟨_, hx, ?_⟩
    obtain ⟨a1, a2, a3, a4, a5⟩ := writeMode_leaves s (v := bits v 1 0) (p := 0) (.inl rfl)
    generalize writeMode s 0 (bits v 1 0) = t at a1 a2 a3 a4 a5
    obtain ⟨b1, b2, b3, b4, b5⟩ := writeMode_leaves t (v := bits v 3 2) (p := 1) (.inr rfl)
    generalize writeMode t 1 (bits v 3 2) = u at b1 b2 b3 b4 b5
    simp only [Nat.sub_self, Nat.sub_zero] at a2 b2
    rw [a3, a2] at b1
    refine ⟨b2.trans a1, b1, fun l hl => ?_, a5.trans b5⟩
    rw [b4, a4, a2]
    obtain h | h : l / 4 = 0 ∨ l / 4 = 1 := by omega
    · simp [h, b2]
    · simp [h]
  · change Host.Outcome.next (circGrantWrite s n.val v) = _
    rw [circGrantWrite, if_neg (by simp [hb, hn])]
  · refine ⟨portLinkChange s l.val up, rfl, ?_, fun m hm => ?_, fun q hq => by cases q <;> first | (simp at hq; done) | rfl⟩
    · change (nput s.circ.link l.val l.val _).testBit l.val = _
      rw [testBit_nput _ _ _ (Nat.le_refl _), if_pos ⟨Nat.le_refl _, Nat.le_refl _⟩, Nat.sub_self]
      split <;> simp_all
    · change (nput s.circ.link l.val l.val _).testBit m = _
      rw [testBit_nput _ _ _ (Nat.le_refl _), if_neg (by omega), hasLink]
  · refine ⟨fun h h' => ?_, fun h => ?_⟩
    · change Host.Outcome.next (arpRequest s l.val mac.toNat ip.toNat target.toNat) = _
      rw [arpRequest, if_neg (by simp [hl]), if_pos ⟨h, h'⟩]
      rfl
    · change Host.Outcome.next (arpRequest s l.val mac.toNat ip.toNat target.toNat) = _
      rw [arpRequest, if_neg (by simp [hl]), if_neg (by tauto)]
      rfl
  · refine ⟨fun h => ?_, fun h => ?_⟩
    · change Host.Outcome.next (neighborSolicitation s l.val dmac.toNat mac.toNat dip.toNat ip.toNat target.toNat) = _
      rw [neighborSolicitation, if_neg (by simp [hl]), if_pos h]
      rfl
    · change Host.Outcome.next (neighborSolicitation s l.val dmac.toNat mac.toNat dip.toNat ip.toNat target.toNat) = _
      rw [neighborSolicitation, if_neg (by simp [hl]), if_neg (by simp [h])]
      rfl
end

section
/-! Proofs: attaching and detaching, and the failure of the partner (spec/16 R469 to R485). -/

namespace Sys2Proof.Machine

/-- The takeovers once one more is scheduled: at an edge that has one already, the two are joined (R478). -/
def withTakeover (l : List Takeover) (e : Nat) (only : Option (List W32)) : List Takeover :=
  if l.any (fun t => t.edge == e) then l.map fun t => if t.edge = e then joinTakeover t only else t else l ++ [{ edge := e, only :=
      only }]

theorem claimTakeover_only (s : State) (e : Nat) : Only [.acc] s (claimTakeover s e) := by
  unfold claimTakeover
  split
  · exact .refl _ s
  · exact .ite (fun _ => .refl _ s) fun _ => setSlot_only _ _ _

theorem scheduleTakeover_leaves (s : State) (only : Option (List W32)) :
    (scheduleTakeover s only).twin = { s.twin with takeovers := withTakeover s.twin.takeovers (takeoverEdge s) only } ∧
      Only [.twin, .acc] s (scheduleTakeover s only) := by
  have h := claimTakeover_only { s with twin := { s.twin with takeovers := withTakeover s.twin.takeovers (takeoverEdge s) only } }
    (takeoverEdge s)
  exact ⟨h .twin (by decide), Only.trans (fun p hp => by cases p <;> first | (simp at hp; done) | rfl) (h.mono (by simp))⟩

/-- A takeover of every context is scheduled for its edge, whatever was scheduled there before. -/
theorem exists_withTakeover (l : List Takeover) (e : Nat) : ∃ k ∈ withTakeover l e none, k.edge = e ∧ k.only = none := by
  unfold withTakeover
  split
  · rename_i h
    obtain ⟨t, ht, he⟩ := List.any_eq_true.1 h
    refine ⟨joinTakeover t none, List.mem_map.2 ⟨t, ht, if_pos (by simpa using he)⟩, show t.edge = e by simpa using he, ?_⟩
    unfold joinTakeover
    cases t.only <;> rfl
  · exact ⟨{ edge := e, only := none }, by simp, rfl, rfl⟩

theorem takeoverEdge_congr {s t : State} (h : t.hoop = s.hoop) : takeoverEdge t = takeoverEdge s := by
  unfold takeoverEdge isOpen
  rw [h]

/-- The partner is declared failed, and every context of its is taken over (R477). -/
theorem declareFailed_leaves (s : State) : (declareFailed s).twin.st = .detached ∧ (declareFailed s).twin.cause = 4 ∧
    (declareFailed s).twin.watch = false ∧
    (∃ k ∈ (declareFailed s).twin.takeovers, k.edge = takeoverEdge s ∧ k.only = none) ∧
    Only [.twin, .acc, .fw, .fab] s (declareFailed s) := by
  unfold declareFailed
  dsimp only
  obtain ⟨h1, h2⟩ := setTwin_leaves s .detached 4
  have h3 : (setTwin s .detached 4).hoop = s.hoop := h2 .hoop (by decide)
  generalize setTwin s .detached 4 = u at h1 h2 h3
  obtain ⟨h4, h5⟩ := scheduleTakeover_leaves { u with twin := { u.twin with watch := false, leaveEdge := none, leaver := false } }
      none
  have he := takeoverEdge_congr (t := { u with twin := { u.twin with watch := false, leaveEdge := none, leaver := false } }) h3
  rw [he] at h4
  rw [h4]
  dsimp only
  refine ⟨by rw [h1], by rw [h1], rfl, exists_withTakeover _ _, (h2.mono (by simp)).trans (Only.trans ?_ (h5.mono (by simp)))⟩
  exact fun p hp => by cases p <;> first | (simp at hp; done) | rfl

/-- The facts of the partner are taken, or the attach refused for them (R470). -/
theorem attachFacts_leaves (s : State) (p : PartnerFacts) :
    (attachBad s p = false → (attachFacts s p).twin = { s.twin with
      partner := some p, role := roleB s p, ctl := s.twin.ctl ++ [.handshake] } ∧ Only [.twin] s (attachFacts s p)) ∧
    (attachBad s p = true → (attachFacts s p).twin.st = .detached ∧ (attachFacts s p).twin.cause = 6 ∧
      Only [.twin, .fw, .fab] s (attachFacts s p)) := by
  refine ⟨fun h => ?_, fun h => ?_⟩
  · rw [attachFacts, if_neg (by simp [h])]
    exact ⟨rfl, fun p hp => by cases p <;> first | (simp at hp; done) | rfl⟩
  · rw [attachFacts, if_pos h]
    obtain ⟨h1, h2⟩ := setTwin_leaves s .detached 6
    rw [h1]
    exact ⟨rfl, rfl, h2.mono (by simp)⟩

theorem slvAttach_reached {s : State} (hb : bar0Ok s = true) (hf : s.flt.failed = false) (h : IsOn s 123) (p : PartnerFacts) :
    slvAttach s p = attachNow s p := by
  rw [slvAttach, if_neg (by simp [hb, hf]), domSlv, reachDom_on h]

/-- The machine that waits for its partner after SLV_ATTACH. -/
def attaching (s : State) (p : PartnerFacts) : State :=
  let t := { s.twin with st := if s.twin.lanes = 0 then .training else .handshake
                         training := decide (s.twin.lanes = 0), attachTick := firstAttach s.hoop.tick p s.hoop.tick
                         idOk := none, shown := none, partner := none, nonce := freeBytes s 64, ctl := [], watch := false
                         sentMirror := [] }
  let s := drewN { s with twin := t } 64
  sendCtl s (.identity (ownChain s) s.twin.nonce [])

theorem attaching_only (s : State) (p : PartnerFacts) : Only [.twin, .free] s (attaching s p) :=
  fun p hp => by cases p <;> first | (simp at hp; done) | rfl

theorem attachNow_detached {s : State} (h : s.twin.st = .detached) (p : PartnerFacts) : attachNow s p =
    if attachOwnBad s then setTwin s .detached 6 else if p.present then attachFacts (attaching s p) p else attaching s p := by
  rw [attachNow, h]
  rfl

theorem attachNow_waiting {s : State} (h : s.twin.st = .training ∨ s.twin.st = .handshake) {p : PartnerFacts}
    (hp : p.present = true) : attachNow s p =
      attachFacts { s with twin := { s.twin with attachTick := firstAttach s.twin.attachTick p s.hoop.tick } } p := by
  obtain h | h := h <;> rw [attachNow, h] <;> exact if_pos hp

theorem attachBad_own {s : State} {p : PartnerFacts} (h : attachBad s p = false) : attachOwnBad s = false := by
  simp only [attachBad, Bool.or_eq_false_iff] at h
  tauto

/-- The generations that the mirror gives for its keys. -/
theorem tget_foldl_tset {α : Type} (g : Nat → α) (l : List Nat) (t : Tbl α) {k : Nat} (h : k ∈ l) :
    tget (l.foldl (fun t k => tset t k (g k)) t) k = some (g k) := by
  have hkeep (l : List Nat) (t : Tbl α) (ht : tget t k = some (g k)) :
      tget (l.foldl (fun t k => tset t k (g k)) t) k = some (g k) := by
    induction l generalizing t with
    | nil => exact ht
    | cons j l ih =>
      refine ih _ ?_
      rw [tget_tset]
      split
      · rename_i h
        rw [h]
      · exact ht
  induction l generalizing t with
  | nil => simp at h
  | cons j l ih =>
    by_cases hj : k = j
    · subst hj
      exact hkeep l _ (tget_tset_same _ _ _)
    · exact ih _ ((List.mem_cons.1 h).resolve_left hj)

theorem peerGone_leaves (s : State) (e : MirrorEntry) : (peerGone s e).twin.st = s.twin.st ∧
    (peerGone s e).obj = { s.obj with gens := (peerGone s e).obj.gens } ∧ Only [.twin, .obj] s (peerGone s e) := by
  unfold peerGone
  split
  · dsimp only
    split
    · exact ⟨rfl, rfl, .refl _ s⟩
    · exact ⟨rfl, rfl, fun p hp => by cases p <;> first | (simp at hp; done) | rfl⟩
  · exact ⟨rfl, rfl, .refl _ s⟩

theorem foldl_peerGone_leaves (l : List MirrorEntry) (s : State) : (l.foldl peerGone s).twin.st = s.twin.st ∧
    (l.foldl peerGone s).obj = { s.obj with gens := (l.foldl peerGone s).obj.gens } ∧ Only [.twin, .obj] s (l.foldl peerGone s) :=
        by
  induction l generalizing s with
  | nil => exact ⟨rfl, rfl, .refl _ s⟩
  | cons e l ih =>
    obtain ⟨h1, h2, h3⟩ := peerGone_leaves s e
    obtain ⟨g1, g2, g3⟩ := ih (peerGone s e)
    rw [List.foldl_cons]
    refine ⟨g1.trans h1, ?_, h3.trans g3⟩
    rw [h2] at g2
    exact g2

/-- The Hoop as an attached twin B sets it (R471). -/
theorem joined_hoop (s : State) (time k : Nat) : (edgeNow (rebase (endPeriod s) time) k).hoop.time = time ∧
    (edgeNow (rebase (endPeriod s) time) k).hoop.tick = k ∧ (edgeNow (rebase (endPeriod s) time) k).hoop.edge = time ∧
    (edgeNow (rebase (endPeriod s) time) k).hoop.phase = .opened := by
  have h : (rebase (endPeriod s) time).hoop.time = time := rfl
  generalize rebase (endPeriod s) time = u at h
  obtain ⟨n, hn⟩ := edgeNow_hoop u k
  rw [hn]
  exact ⟨h, rfl, h, rfl⟩

/-- The identity that the partner shows has been checked, and this twin's sent (R470). -/
def identified (s : State) (ok verified : Bool) (nonce : List Byte) : State :=
  sendCtl { s with twin := { s.twin with idOk := some ok, shown := some verified } }
    (.identity (ownChain s) [] (Config.identitySign nonce))

/-- Twin B's Hoop follows the partner's when the twins attach (R471). -/
def joinedTwin (s : State) (time k : Nat) : State :=
  let s := edgeNow (rebase (endPeriod s) time) k
  { s with acc := { s.acc with targetHost := 0, targetFw := 0 } }

theorem joinedTwin_leaves (s : State) (time k : Nat) : (joinedTwin s time k).hoop.time = time ∧ (joinedTwin s time k).hoop.tick = k
    ∧
    (joinedTwin s time k).hoop.edge = time ∧ (joinedTwin s time k).hoop.phase = .opened ∧
    (joinedTwin s time k).acc.targetHost = 0 ∧ (joinedTwin s time k).acc.targetFw = 0 := by
  unfold joinedTwin
  obtain ⟨h1, h2, h3, h4⟩ := joined_hoop s time k
  generalize edgeNow (rebase (endPeriod s) time) k = u at h1 h2 h3 h4
  exact ⟨h1, h2, h3, h4, rfl, rfl⟩

/-- The twins are attached. -/
def attachedTwin (s : State) : State :=
  setTwin { s with twin := { s.twin with mirror := none, mirrorDone := false, lateRun := 0, peer := [], watch := false,
                                         sentMirror := [] } } .attached s.twin.cause

theorem attachedTwin_leaves (s : State) : (attachedTwin s).twin.st = .attached ∧ Only [.twin, .fw, .fab] s (attachedTwin s) := by
  unfold attachedTwin
  obtain ⟨h1, h2⟩ := setTwin_leaves { s with twin := { s.twin with mirror := none, mirrorDone := false, lateRun := 0, peer := [],
                                                                   watch := false, sentMirror := [] } } .attached s.twin.cause
  exact ⟨by rw [h1], Only.trans (fun p hp => by cases p <;> first | (simp at hp; done) | rfl) (h2.mono (by simp))⟩

/-- A mirror is taken, with the generations of its keys. -/
def mirrored (s : State) (m : Mirror) : State :=
  { s with twin := { s.twin with
      mirror := some m, mirrorDone := true
      peer := (mirrorKeys m).foldl (fun t k => tset t k (tgetD m.gens k 0)) s.twin.peer } }

theorem mirrored_leaves (s : State) (m : Mirror) : (mirrored s m).twin.mirror = some m ∧ (mirrored s m).twin.mirrorDone = true ∧
    (mirrored s m).twin.st = s.twin.st ∧ (mirrored s m).obj = s.obj ∧
    (∀ k ∈ mirrorKeys m, tget (mirrored s m).twin.peer k = some (tgetD m.gens k 0)) ∧ Only [.twin] s (mirrored s m) :=
  ⟨rfl, rfl, rfl, rfl, fun _ hk => tget_foldl_tset _ _ _ hk, fun p hp => by cases p <;> first | (simp at hp; done) | rfl⟩

/-- This twin leaves, and tells its partner (R483). -/
def leftTwin (s : State) (move : Bool) : State :=
  sendCtl { s with twin := { s.twin with move := move, leaveMove := move, leaver := true, leaveEdge := some (takeoverEdge s) } }
    (.detach move)

/-- The partner leaves (R483). -/
def leftByPartner (s : State) : State := { s with twin := { s.twin with leaver := false, leaveEdge := some (takeoverEdge s) } }

end Sys2Proof.Machine

open Sys2Proof Sys2Proof.Machine

/-- Settles O37: each message and each timeout is one change of the Selvage state. -/
theorem attachAndDetach : Obligations.AttachAndDetach := by
  refine ⟨fun s p hb hf h1 hst => ?_, fun s p hb hf h1 hst hp hbad => ?_, fun s chain nonce sig verified hst => ?_,
    fun s time tick edge hst hid hsh hpt hrun => ?_, fun s hst ht => ?_, fun s l hst => ?_, fun s move hb hst => ?_,
    fun s move hst => ?_⟩
  · have hx : exec (.slvAttach p) s = .next (slvAttach s p) := rfl
    rw [slvAttach_reached hb hf h1, attachNow_detached hst] at hx
    have ha := attaching_only s p
    have hbad : attachBad (attaching s p) p = attachBad s p := rfl
    have hrole : roleB (attaching s p) p = roleB s p := rfl
    have htw : (attaching s p).twin.st = (if s.twin.lanes = 0 then .training else .handshake) ∧
      (attaching s p).twin.attachTick = firstAttach s.hoop.tick p s.hoop.tick := ⟨rfl, rfl⟩
    obtain ⟨f1, f2⟩ := attachFacts_leaves (attaching s p) p
    rw [hbad, hrole] at f1
    rw [hbad] at f2
    generalize attaching s p = u at hx ha htw f1 f2
    refine ⟨fun ho => ?_, fun hok => ?_, fun ho hbad hp => ?_⟩
    · rw [if_pos ho] at hx
      obtain ⟨h2, h3⟩ := setTwin_leaves s .detached 6
      exact ⟨_, hx, by rw [h2], by rw [h2], h3.mono (by simp)⟩
    · rw [if_neg (by simp [attachBad_own hok])] at hx
      obtain ⟨g1, g2⟩ := f1 hok
      refine ⟨_, hx, ?_⟩
      split
      · rw [g1]
        exact ⟨htw.1, htw.2, fun _ => ⟨rfl, rfl, by simp⟩, ha.trans (g2.mono (by simp))⟩
      · rename_i hp
        exact ⟨htw.1, htw.2, fun h => absurd h hp, ha⟩
    · rw [if_neg (by simp [ho]), if_pos hp] at hx
      obtain ⟨g1, g2, g3⟩ := f2 hbad
      exact ⟨_, hx, g1, g2, (ha.mono (by simp)).trans (g3.mono (by simp))⟩
  · have hx : exec (.slvAttach p) s = .next (slvAttach s p) := rfl
    rw [slvAttach_reached hb hf h1, attachNow_waiting hst hp] at hx
    obtain ⟨g1, g2⟩ := (attachFacts_leaves { s with twin := { s.twin with
      attachTick := firstAttach s.twin.attachTick p s.hoop.tick } } p).1 hbad
    refine ⟨_, hx, ?_⟩
    beta_reduce
    rw [g1]
    exact ⟨rfl, rfl, rfl, rfl, rfl, Only.trans (fun p hp => by cases p <;> first | (simp at hp; done) | rfl) g2⟩
  · intro ok
    have hx : exec (.identityExchange chain ⟨nonce, verified⟩ sig) s = .next
        (if ok && verified then identified s ok verified nonce else setTwin (identified s ok verified nonce) .detached 6) := by
      change Host.Outcome.next (identityExchange s chain nonce sig verified) = _
      rw [identityExchange, if_neg (by tauto)]
      rfl
    have hu : Only [.twin] s (identified s ok verified nonce) := fun p hp => by cases p <;> first | (simp at hp; done) | rfl
    obtain ⟨h1, h2⟩ := setTwin_leaves (identified s ok verified nonce) .detached 6
    refine ⟨_, hx, ?_⟩
    split
    · rename_i h
      obtain ⟨h, h'⟩ := Bool.and_eq_true_iff.1 h
      exact ⟨rfl, rfl, fun _ _ => rfl, by simp [h, h'], hu.mono (by simp)⟩
    · rename_i h
      rw [h1]
      exact ⟨rfl, rfl, fun a b => absurd (by simp [a, b]) h, fun _ => ⟨rfl, rfl⟩, (hu.mono (by simp)).trans (h2.mono (by simp))⟩
  · have hready : (decide (s.twin.st = .handshake) && s.twin.idOk == some true && s.twin.shown == some true &&
        s.twin.partner.isSome && s.hoop.running) = true := by simp [hst, hid, hsh, hpt, hrun]
    have hx (h : s.twin.role = true ∨ s.hoop.time = s.hoop.edge) : exec (.attachHandshakeComplete time tick edge) s = .next
        (attachedTwin (if s.twin.role then joinedTwin s time tick else s)) := by
      change Host.Outcome.next (attachComplete s time tick) = _
      rw [attachComplete]
      dsimp only
      rw [hready, if_neg (by simpa [imp_iff_not_or, or_comm] using h)]
      rfl
    refine ⟨fun hr he => ⟨_, hx (.inr he), ?_⟩, fun hr => ⟨_, hx (.inl hr), ?_⟩⟩
    · rw [hr]
      obtain ⟨h1, h2⟩ := attachedTwin_leaves s
      exact ⟨h1, h2 .hoop (by decide), h2⟩
    · obtain ⟨h1, h2⟩ := attachedTwin_leaves (joinedTwin s time tick)
      have g := joinedTwin_leaves s time tick
      rw [← h2 .hoop (by decide), ← h2 .acc (by decide)] at g
      rw [hr, if_pos rfl]
      exact ⟨h1, g⟩
  · obtain ⟨h1, h2⟩ := setTwin_leaves s .detached 5
    have hx : exec .attachTimeout s = .next (setTwin s .detached 5) := by
      change Host.Outcome.next (attachTimeout s) = _
      rw [attachTimeout, if_pos ⟨hst, ht⟩]
    exact ⟨_, hx, by rw [h1], by rw [h1], h2.mono (by simp)⟩
  · have hx : exec (.mirrorReceive l) s = .next (mirrored (l.foldl peerGone s)
        (l.foldl mergeEntry { s.twin.mirror.getD Mirror.empty with armed := [] })) := by
      change Host.Outcome.next (mirrorReceive s l) = _
      rw [mirrorReceive, if_neg (by tauto)]
      rfl
    obtain ⟨h1, h2, h3⟩ := foldl_peerGone_leaves l s
    obtain ⟨g1, g2, g3, g4, g5, g6⟩ := mirrored_leaves (l.foldl peerGone s)
      (l.foldl mergeEntry { s.twin.mirror.getD Mirror.empty with armed := [] })
    refine ⟨_, hx, ?_⟩
    generalize mirrored (l.foldl peerGone s) (l.foldl mergeEntry { s.twin.mirror.getD Mirror.empty with armed := [] }) = t
      at g1 g2 g3 g4 g5 g6
    rw [← g4] at h2
    exact ⟨g1, g2, g3.trans h1, g5, h2, h3.trans (g6.mono (by simp))⟩
  · have hx : exec (.slvDetach move false) s = .next (leftTwin (setTwin s .leaving s.twin.cause) move) := by
      change Host.Outcome.next (leaveNow s move) = _
      rw [leaveNow, if_neg (by simp [hb, hst])]
      rfl
    obtain ⟨h1, h2⟩ := setTwin_leaves s .leaving s.twin.cause
    have he := takeoverEdge_congr (h2 .hoop (by decide))
    refine ⟨_, hx, ?_⟩
    generalize setTwin s .leaving s.twin.cause = u at h1 h2 he
    change u.twin.st = _ ∧ move = move ∧ move = move ∧ true = true ∧ some (takeoverEdge u) = _ ∧ u.twin.ctl ++ [.detach move] = _ ∧
        _
    rw [he, h1]
    exact ⟨rfl, rfl, rfl, rfl, rfl, rfl, (h2.mono (by simp)).trans fun p hp => by cases p <;> first | (simp at hp; done) | rfl⟩
  · have hx : exec (.slvDetach move true) s = .next (if move then scheduleTakeover (leftByPartner (setTwin s .leaving
        s.twin.cause)) none
        else leftByPartner (setTwin s .leaving s.twin.cause)) := by
      change Host.Outcome.next (partnerLeaves s move) = _
      rw [partnerLeaves, if_neg (by simp [hst])]
      rfl
    obtain ⟨h1, h2⟩ := setTwin_leaves s .leaving s.twin.cause
    have he := takeoverEdge_congr (h2 .hoop (by decide))
    generalize setTwin s .leaving s.twin.cause = u at h1 h2 he hx
    have hv : (leftByPartner u).twin = { u.twin with leaver := false, leaveEdge := some (takeoverEdge u) } := rfl
    have hvo : Only [.twin] u (leftByPartner u) := fun p hp => by cases p <;> first | (simp at hp; done) | rfl
    have hve : takeoverEdge (leftByPartner u) = takeoverEdge u := rfl
    generalize leftByPartner u = v at hx hv hvo hve
    obtain ⟨g1, g2⟩ := scheduleTakeover_leaves v none
    have ho : Only [.twin, .fw, .fab] s v := (h2.mono (by simp)).trans (hvo.mono (by simp))
    refine ⟨_, hx, ?_⟩
    cases move with
    | false =>
      rw [if_neg (by simp), hv, he, h1]
      exact ⟨rfl, rfl, rfl, rfl, fun _ => rfl, by simp, ho.mono (by simp)⟩
    | true =>
      rw [if_pos rfl, g1, hv, hve, he, h1]
      obtain ⟨k, hk, hk1, hk2⟩ := exists_withTakeover s.twin.takeovers (takeoverEdge s)
      exact ⟨rfl, rfl, rfl, rfl, by simp, fun _ => ⟨k, hk, by rw [hk1], hk2⟩, (ho.mono (by simp)).trans (g2.mono (by simp))⟩

end

section
/-! Proofs: what a failed partner and a lost link leave, and the partner's requests (spec/16 R466 to R468, R477, R478, R485). -/

namespace Sys2Proof.Machine

/-- The link is down: no lanes, and no retry under way (R485). -/
def linkDown (s : State) : State :=
  { s with twin := { s.twin with
    lanes := 0, retrying := false, replayTries := 0, training := s.twin.st = .training || s.twin.st = .handshake } }

theorem linkLost_eq (s : State) : linkLost s =
    if s.twin.st = .attached ∨ s.twin.st = .leaving then
      { setTwin (linkDown s) .detached 3 with twin := { (setTwin (linkDown s) .detached 3).twin with
        watch := true, leaveEdge := none, leaver := false, takeovers := linkLostTakeovers (linkDown s).twin } }
    else if s.twin.st = .handshake then { linkDown s with twin := { (linkDown s).twin with st := .training } }
    else linkDown s := rfl

theorem linkDown_only (s : State) : Only [.twin] s (linkDown s) := fun p hp => by cases p <;> first | (simp at hp; done) | rfl

theorem heldByRetry_only (s : State) (x : Txn) : Only [.flt] s (heldByRetry s x) :=
  fun p hp => by cases p <;> first | (simp at hp; done) | rfl

theorem linkRetries_leaves (s : State) : (linkRetries s).twin = { s.twin with
      retrying := true, retryAt := if s.twin.retrying then s.twin.retryAt else s.flt.windows } ∧
    Only [.twin, .flt] s (linkRetries s) := by
  have h : Only [.flt] _ (linkRetries s) := .foldl (fun s e => .ite (fun _ => heldByRetry_only s e.2) fun _ => .refl _ s) _ _
  exact ⟨h .twin (by decide), Only.trans (fun p hp => by cases p <;> first | (simp at hp; done) | rfl) (h.mono (by simp))⟩

theorem startRetrain_leaves (s : State) : (startRetrain s).twin = { s.twin with
      retrying := true, retryAt := if s.twin.retrying then s.twin.retryAt else s.flt.windows,
      retrains := min 0xFFFF (s.twin.retrains + 1), training := true, replayTries := 0 } ∧
    Only [.twin, .flt] s (startRetrain s) := by
  unfold startRetrain
  obtain ⟨h1, h2⟩ := linkRetries_leaves s
  generalize linkRetries s = u at h1 h2
  refine ⟨?_, h2.trans fun p hp => by cases p <;> first | (simp at hp; done) | rfl⟩
  dsimp only
  rw [h1]
  rfl

/-- A request of the partner moves bytes of this twin's memory and gives the answer; of the fabric nothing else but the count of
what was corrected (R203, R214). -/
theorem answered_leaves (s : State) (a : SlvAnswer) (m : Mem) (x : Tbl HbmEcc) :
    Only [.fab, .twin] s { s with fab := { s.fab with mem := m, hbm := x }, twin := { s.twin with answer := a } } :=
  fun p hp => by cases p <;> first | (simp at hp; done) | rfl

end Sys2Proof.Machine

open Sys2Proof Sys2Proof.Machine

/-- Settles O38: the heartbeat as it is sampled after the edge, and each message of the partner. -/
theorem partnerFailureSchedulesATakeover : Obligations.PartnerFailureSchedulesATakeover := by
  refine ⟨fun s level hrun hsam => ?_, fun s hst => ?_, fun s hst => ?_⟩
  · intro u hur hus huf
    have hx : exec (.heartbeatSample level) s = .next (heartbeatSample u level) := by
      change Host.Outcome.next (sampleHeartbeat s level) = _
      rw [sampleHeartbeat, if_neg (by simp [hrun, hsam])]
    rw [heartbeatSample, if_neg (by simp [hur, hus, huf])] at hx
    clear_value u
    dsimp only at hx
    have hv : Only [.twin] u { u with twin := { u.twin with hbIn := level, hbSampled := true } } :=
      fun p hp => by cases p <;> first | (simp at hp; done) | rfl
    have he := takeoverEdge_congr (hv .hoop (by decide))
    have htw : ({ u with twin := { u.twin with hbIn := level, hbSampled := true } } : State).twin =
      { u.twin with hbIn := level, hbSampled := true } := rfl
    refine ⟨fun hl hw => ?_, fun hl hw => ?_, fun hl hst => ?_⟩
    · rw [hx, if_neg (by simp [hl]), if_neg (by simp [hw])]
    · rw [if_neg (by simp [hl]), if_pos hw] at hx
      refine ⟨_, hx, rfl, rfl, rfl, fun p hp => by cases p <;> first | (simp at hp; done) | rfl⟩
    · rw [if_pos ⟨by simp [hl], hst⟩] at hx
      obtain ⟨h1, h2, h3, h4, h5⟩ := declareFailed_leaves { u with twin := { u.twin with hbIn := level, hbSampled := true } }
      rw [he] at h4
      exact ⟨_, hx, h1, h2, h3, h4, (hv.mono (by simp)).trans h5⟩
  · refine ⟨fun l => ?_, ?_, ?_⟩
    · have hx : exec (.moveMessage l) s = .next (scheduleTakeover s (some l)) := by
        change Host.Outcome.next (moveMessage s l) = _
        rw [moveMessage, if_pos hst]
      obtain ⟨h1, h2⟩ := scheduleTakeover_leaves s (some l)
      refine ⟨_, hx, ?_⟩
      beta_reduce
      rw [h1]
      exact ⟨rfl, fun h => by rw [withTakeover, h]; rfl, h2⟩
    · have hx : exec .failedMessage s = .next (declareFailed s) := by
        change Host.Outcome.next (failedMessage s) = _
        rw [failedMessage, if_pos hst]
      obtain ⟨h1, h2, -, h4, h5⟩ := declareFailed_leaves s
      exact ⟨_, hx, h1, h2, h4, h5⟩
    · have hx : exec .selvageLinkLost s = .next (linkLost s) := rfl
      rw [linkLost_eq, if_pos hst] at hx
      obtain ⟨h1, h2⟩ := setTwin_leaves (linkDown s) .detached 3
      have ho := linkDown_only s
      have hl : (linkDown s).twin.lanes = 0 := rfl
      generalize linkDown s = u at hx h1 h2 ho hl
      refine ⟨_, hx, ?_⟩
      beta_reduce
      generalize setTwin u .detached 3 = v at h1 h2
      rw [h1]
      refine ⟨rfl, rfl, hl, rfl, (ho.mono (by simp)).trans ((h2.mono (by simp)).trans fun p hp => ?_)⟩
      cases p <;> first | (simp at hp; done) | rfl
  · have hx : exec .selvageLinkLost s = .next (linkLost s) := rfl
    rw [linkLost_eq, if_neg (by obtain h | h := hst <;> simp [h])] at hx
    refine ⟨_, hx, ?_⟩
    obtain h | h := hst
    · rw [if_neg (by simp [h])]
      exact ⟨h, rfl, by simp [linkDown, h], rfl, linkDown_only s⟩
    · rw [if_pos h]
      refine ⟨rfl, rfl, by simp [linkDown, h], rfl, (linkDown_only s).trans fun p hp => ?_⟩
      cases p <;> first | (simp at hp; done) | rfl

/-- Settles O40: each request and each event of the link is one change of the Selvage state. -/
theorem selvageRequestsAndLink : Obligations.SelvageRequestsAndLink := by
  refine ⟨fun s a len data found hst hlen hin hend hgrp hon hfound => ?_, fun s ok hl => ?_, fun s hl => ⟨fun ht => ?_, fun ht =>
      ?_⟩,
    fun s n hn => ⟨fun ht => ?_, fun ht => ?_⟩⟩
  · have hr : reachDoms s [domHbm (groupOf a.toNat / 2)] 1 = (s, true) := reachDoms_on (by simpa [domHbm] using hon) 1
    have hgate : ¬(hbmEnd < a.toNat + len ∨ len = 0 ∨ 128 < a.toNat % 128 + len ∨
        128 ≤ groupByte s (groupOf a.toNat) ∧ (!(groupByte s (groupOf a.toNat)).testBit 6) = true) := by
      rintro (h | h | h | ⟨h, h'⟩)
      · omega
      · omega
      · omega
      · obtain h2 | h2 := hgrp
        · omega
        · simp [h2] at h'
    have hx (k : AccessKind) : exec (.selvageRequest k a len data found) s =
        .next (selvageRequest s k a.toNat len data found) := rfl
    simp only [selvageRequest, if_neg (show ¬(s.twin.st ≠ .attached ∧ s.twin.st ≠ .leaving) by tauto), if_neg hgate, hr,
      if_neg (show ¬(found = .double ∧ _) from fun h => hfound h.1)] at hx
    obtain ⟨x, hu⟩ : ∃ x, (if found = .single then setHbm s (stackOf a.toNat) { hbmOf s (stackOf a.toNat) with
        corrected := satAdd 0xFFFF (hbmOf s (stackOf a.toNat)).corrected 1 } else s) =
        { s with fab := { s.fab with hbm := x } } := by
      split
      · exact ⟨_, rfl⟩
      · exact ⟨s.fab.hbm, rfl⟩
    rw [hu] at hx
    refine ⟨⟨_, hx .write, rfl, rfl, rfl, rfl, ?_⟩, ⟨_, hx .read, rfl, rfl, rfl, ?_⟩⟩
    · exact answered_leaves s _ _ _
    · exact answered_leaves s _ _ _
  · have hx : exec (.selvageReplay ok) s = .next (selvageReplay s ok) := rfl
    rw [selvageReplay, if_neg hl] at hx
    have hu (n : Nat) : Only [.twin, .flt] s { s with twin := { s.twin with
        replays := satAdd 0xFFFFFFFF s.twin.replays 1, replayTries := n } } :=
      fun p hp => by cases p <;> first | (simp at hp; done) | rfl
    refine ⟨_, hx, ?_⟩
    dsimp only
    split
    · rename_i hok
      exact ⟨rfl, rfl, rfl, fun _ => ⟨rfl, rfl, rfl⟩, fun h => by simp [h] at hok,
        fun p hp => by cases p <;> first | (simp at hp; done) | rfl⟩
    rename_i hok
    split
    · rename_i ht
      exact ⟨rfl, rfl, rfl, fun h => absurd h hok, fun _ h => by simp [h] at ht, hu _⟩
    rename_i ht
    split
    · rename_i h8
      obtain ⟨h1, h2⟩ := startRetrain_leaves { s with twin := { s.twin with replays := satAdd 0xFFFFFFFF s.twin.replays 1 } }
      rw [h1]
      exact ⟨rfl, rfl, rfl, fun h => absurd h hok, fun _ _ => ⟨rfl, fun h => by omega, fun _ => ⟨rfl, rfl⟩⟩, (hu _).trans h2⟩
    · rename_i h8
      obtain ⟨h1, h2⟩ := linkRetries_leaves { s with twin := { s.twin with
        replays := satAdd 0xFFFFFFFF s.twin.replays 1, replayTries := s.twin.replayTries + 1 } }
      rw [h1]
      exact ⟨rfl, rfl, rfl, fun h => absurd h hok, fun _ ht => ⟨rfl, fun _ => ⟨rfl, ht, rfl⟩, fun h => by omega⟩, (hu _).trans h2⟩
  · have hx : exec .selvageRetrain s = .next (startRetrain s) := by
      change Host.Outcome.next (selvageRetrain s) = _
      rw [selvageRetrain, if_neg (by simp [hl, ht])]
    obtain ⟨h1, h2⟩ := startRetrain_leaves s
    refine ⟨_, hx, ?_⟩
    beta_reduce
    rw [h1]
    exact ⟨rfl, rfl, rfl, rfl, h2⟩
  · change Host.Outcome.next (selvageRetrain s) = _
    rw [selvageRetrain, if_pos (.inr ht)]
  · have hx : exec (.selvageTrainingDone n) s = .next (selvageTrainingDone s n.val) := rfl
    rw [selvageTrainingDone, if_neg (by simp [ht]; omega)] at hx
    exact ⟨_, hx, rfl, rfl, rfl, rfl, fun p hp => by cases p <;> first | (simp at hp; done) | rfl⟩
  · change Host.Outcome.next (selvageTrainingDone s n.val) = _
    rw [selvageTrainingDone, if_pos (.inr (by simp [ht]))]
end

section
/-! Proofs: accesses to the registers and to HBM through BAR4 (spec/00 R13, R14, spec/19). -/

namespace Sys2Proof.Machine

/-- The parts that hold a register cleared by its read. -/
def clearedParts : List Part := [.hoop, .acc, .mmu, .fe, .fab, .cores, .eng, .bob, .ras, .cod, .circ, .twin, .pwr]

theorem clearLow_only (s : State) (off : Nat) : Only clearedParts s (clearLow s off) := by
  unfold clearLow
  iterate 14 refine .ite (fun _ p hp => by cases p <;> first | (simp [clearedParts] at hp; done) | rfl) fun _ => ?_
  split <;> exact fun p hp => by cases p <;> first | (simp [clearedParts] at hp; done) | rfl

theorem clearHigh_only (s : State) (off : Nat) : Only clearedParts s (clearHigh s off) := by
  unfold clearHigh
  iterate 7 refine .ite (fun _ p hp => by cases p <;> first | (simp [clearedParts] at hp; done) | rfl) fun _ => ?_
  split <;> exact fun p hp => by cases p <;> first | (simp [clearedParts] at hp; done) | rfl

theorem clearRead_only (s : State) (off : Nat) (h : Half) : Only clearedParts s (clearRead s off h) := by
  cases h with
  | high => exact clearHigh_only s off
  | whole => exact (clearLow_only s off).trans (clearHigh_only _ off)
  | low => exact (clearLow_only s off).trans (clearHigh_only _ off)

theorem bar0Responds_not_s3 {s : State} {off : Nat} {w : Bool} (h : bar0Responds s off w = true) :
    ¬ (s.pwr.inS3 = true ∧ (!s3Range off) = true) := by
  simp only [bar0Responds, Bool.and_eq_true, Bool.or_eq_true] at h
  rintro ⟨h1, h2⟩
  rcases h.2 with h3 | h3 <;> simp_all

theorem regRead_bar0 {s : State} {off : Nat} (h : bar0Responds s off false = true) (size : Nat) :
    regRead s .bar0 off size = readBar0 s .bar0 .host off size := by
  rw [regRead, if_neg (bar0Responds_not_s3 h), if_pos h]

theorem bar0Responds_write {s : State} {off : Nat} (h : bar0Responds s off true = true) : s.pwr.inS3 = false := by
  simp only [bar0Responds, Bool.and_eq_true, Bool.or_eq_true] at h
  rcases h.2 with h3 | h3 <;> simp_all

theorem regWrite_bar0 {s : State} {off : Nat} (h : bar0Responds s off true = true) (size : Nat) (v : W64) :
    regWrite s .bar0 off size v = writeBar0 s .host off size v.toNat := by
  rw [regWrite, if_neg (by simp [bar0Responds_write h]), if_pos h]

theorem base8_eq {off : Nat} (h : off % 8 = 0) : base8 off = off := by unfold base8; omega

/-- A read of a whole register, or of its low half. -/
theorem readBar0_whole {s : State} {off : Nat} (h8 : off % 8 = 0) (b : Bar) (r : Requester) :
    readBar0 s b r off 8 = if !regAbsent s off && !regClamped s off then clearRead (setData s (regValue s r off)) off .whole
      else setData s (regValue s r off) := by
  rw [readBar0, show halfOf off 8 = some .whole by simp [halfOf, h8]]
  dsimp only
  rw [base8_eq h8]
  rfl

theorem readBar0_low {s : State} {off : Nat} (h8 : off % 8 = 0) (r : Requester) :
    readBar0 s .bar0 r off 4 =
      let t := setData (setLatch s off (some (BitVec.ofNat 32 (regValue s r off / 2 ^ 32)))) (regValue s r off % 2 ^ 32)
      if !regAbsent s off && !regClamped s off then clearRead t off .low else t := by
  rw [readBar0, show halfOf off 4 = some .low by simp [halfOf, h8]]
  dsimp only
  rw [base8_eq h8, show latchKey .bar0 off = off from base8_eq h8]
  rfl

/-- A register that lies in no array and in no domain. -/
structure Plain (off : Nat) : Prop where
  slots : inArray off 0x400000 0x40 48 = none
  results : inArray off 0x402000 0x20 48 = none
  clusters : inArray off 0x401000 0x10 16 = none
  slices : inArray off 0x600000 0x10 16 = none
  dom : regDom off = none
  shadowed : isShadowed off = false
  norm : normOff off = off

theorem Plain.absent {off : Nat} (h : Plain off) (s : State) : regAbsent s off = false := by
  rw [regAbsent, h.slots, h.results, h.clusters, h.slices]

theorem Plain.clamped {off : Nat} (h : Plain off) (s : State) : regClamped s off = false := by
  rw [regClamped, h.dom, Bool.and_false]

theorem Plain.reached {off : Nat} (h : Plain off) (s : State) : reachReg s off = (s, true) := by
  rw [reachReg, h.dom]

/-- A write to such a register, where it lies outside the Acvik window. -/
theorem Plain.write {off : Nat} (h : Plain off) (h8 : off % 8 = 0) (ha : ¬ (0x301000 ≤ off ∧ off < 0x301800)) (s : State)
    (r : Requester) {size : Nat} {p : Half} (hh : halfOf off size = some p) (v : Nat) :
    (wideReg off = true → writeBar0 s r off size v = write64 s off p v) ∧
    (∀ w, wideReg off = false → given32 p v = some w → writeBar0 s r off size v = write32 s r off w) := by
  rw [writeBar0, if_neg ha, hh]
  dsimp only
  rw [base8_eq h8, h.norm, h.shadowed, if_neg (by simp), h.reached]
  exact ⟨fun hw => if_pos hw, fun w hw hg => by simp [hw, hg]⟩

theorem regValue_plain {off : Nat} (h : Plain off) (s : State) (r : Requester) :
    (off / 0x100000 = 0 → regValue s r off = readHoop s off) ∧ (off / 0x100000 = 1 → regValue s r off = readAcc s r off) := by
  have h1 : ¬(regAbsent s off = true ∨ regClamped s off = true) := by simp [h.absent, h.clamped]
  constructor <;> intro hd <;> rw [regValue, if_neg h1, h.shadowed, h.norm, h.shadowed, hd] <;> rfl

theorem ofNat_low (v : W64) : BitVec.ofNat 32 (v.toNat % 2 ^ 32) = BitVec.ofNat 32 v.toNat :=
  BitVec.eq_of_toNat_eq (by simp)

theorem nbits_low (v : W64) {hi : Nat} (h : hi < 32) : nbits (v.toNat % 2 ^ 32) hi 0 = bits v hi 0 := by
  simp only [nbits, bits, Nat.shiftRight_zero, Nat.sub_zero]
  exact Nat.mod_mod_of_dvd _ (pow_dvd_pow 2 (by omega))

end Sys2Proof.Machine

open Sys2Proof Sys2Proof.Machine

/-- Settles O60: an access names one register by its offset. -/
theorem registersAreReadAndWritten : Obligations.RegistersAreReadAndWritten := by
  refine ⟨fun s off hr => ?_, fun s hr => ?_, fun s hr => ?_, fun s v => ?_, fun s off len hb h3 hl hon => ?_⟩
  · have hx (size : Nat) : exec (.rcRead .bar0 off size) s = .next (readBar0 s .bar0 .host off size) :=
      congrArg Host.Outcome.next (regRead_bar0 hr size)
    refine ⟨fun h8 => ?_, fun h8 => ?_, fun w h8 hw => ?_, fun size hsz => ?_⟩
    · refine ⟨_, (hx 8).trans (congrArg _ (readBar0_whole h8 _ _)), ?_⟩
      have ho : Only clearedParts (setData s (regValue s .host off)) _ :=
        .ite (c := (!regAbsent s off && !regClamped s off) = true) (fun _ => clearRead_only _ off .whole) fun _ => .refl _ _
      exact ⟨ho .bus (by decide), ho .obj (by decide), ho .regs (by decide), ho .fw (by decide)⟩
    · refine ⟨_, (hx 4).trans (congrArg _ (readBar0_low h8 _)), ?_⟩
      have ho : Only clearedParts (setData (setLatch s off (some (BitVec.ofNat 32 (regValue s .host off / 2 ^ 32))))
          (regValue s .host off % 2 ^ 32)) _ :=
        .ite (c := (!regAbsent s off && !regClamped s off) = true) (fun _ => clearRead_only _ off .low) fun _ => .refl _ _
      have hbus := ho .bus (by decide)
      dsimp only at hbus ⊢
      rw [hbus]
      exact ⟨rfl, tget_tset_same _ _ _, fun k hk => tget_tset_other _ _ hk⟩
    · rw [hx, readBar0, show halfOf off 4 = some .high by simp [halfOf, h8]]
      have hk : latchKey .bar0 off = off - 4 := by
        show off / 8 * 8 = _
        omega
      dsimp only
      rw [hk, readHalf, latched, hw]
      rfl
    · rw [hx, readBar0, show halfOf off size = none by unfold halfOf; rw [if_neg (by omega), if_neg (by omega), if_neg (by omega)]]
      rfl
  · have hp : Plain 0x100010 := ⟨rfl, rfl, rfl, rfl, rfl, rfl, rfl⟩
    refine congrArg Host.Outcome.next ((regRead_bar0 hr 8).trans ?_)
    rw [readBar0_whole rfl, hp.absent, hp.clamped, (regValue_plain hp s .host).2 rfl]
    rfl
  · have hp : Plain 0x30 := ⟨rfl, rfl, rfl, rfl, rfl, rfl, rfl⟩
    refine congrArg Host.Outcome.next ((regRead_bar0 hr 8).trans ?_)
    rw [readBar0_whole rfl, hp.absent, hp.clamped, (regValue_plain hp s .host).1 rfl]
    rfl
  · have h32 {off : Nat} {w : State} (hr : bar0Responds s off true = true) (hp : Plain off) (h8 : off % 8 = 0)
        (ha : ¬ (0x301000 ≤ off ∧ off < 0x301800)) (hn : wideReg off = false) (hh : halfOf off 4 = some .low)
        (h : write32 s .host off (v.toNat % 2 ^ 32) = w) : exec (.registerWrite .bar0 off 4 v) s = .next w :=
      congrArg Host.Outcome.next ((regWrite_bar0 hr 4 v).trans (((hp.write h8 ha s _ hh _).2 _ hn rfl).trans h))
    have h64 {off : Nat} {w : State} (hr : bar0Responds s off true = true) (hp : Plain off) (h8 : off % 8 = 0)
        (ha : ¬ (0x301000 ≤ off ∧ off < 0x301800)) (hn : wideReg off = true) (hh : halfOf off 8 = some .whole)
        (h : write64 s off .whole v.toNat = w) : exec (.registerWrite .bar0 off 8 v) s = .next w :=
      congrArg Host.Outcome.next ((regWrite_bar0 hr 8 v).trans (((hp.write h8 ha s _ hh _).1 hn).trans h))
    refine ⟨fun hr => ?_, fun hr => ?_, fun hr => ?_, fun hr => ?_, fun hr => ?_, fun hr => ?_, fun off ho hr => ?_⟩
    · refine h32 hr ⟨rfl, rfl, rfl, rfl, rfl, rfl, rfl⟩ rfl (by decide) rfl rfl ?_
      change ({ s with acc := { s.acc with targetHost := BitVec.ofNat 32 (v.toNat % 2 ^ 32) } } : State) = _
      rw [ofNat_low]
    · have hp : Plain 0x100008 := ⟨rfl, rfl, rfl, rfl, rfl, rfl, rfl⟩
      have hx : regWrite s .mgmt 0x100008 8 v = writeBar0 s .fw 0x100008 8 v.toNat := by rw [regWrite, if_pos hr]
      refine congrArg Host.Outcome.next (hx.trans (((hp.write rfl (by decide) s .fw (p := .whole) rfl _).2 _ rfl rfl).trans ?_))
      change ({ s with acc := { s.acc with targetFw := BitVec.ofNat 32 (v.toNat % 2 ^ 32) } } : State) = _
      rw [ofNat_low]
    · refine h32 hr ⟨rfl, rfl, rfl, rfl, rfl, rfl, rfl⟩ rfl (by decide) rfl rfl ?_
      change setFw s { s.fw with graceTicks := clamp 16 4096 (nbits (v.toNat % 2 ^ 32) 15 0) } = _
      rw [nbits_low v (by decide)]
      rfl
    · refine h32 hr ⟨rfl, rfl, rfl, rfl, rfl, rfl, rfl⟩ rfl (by decide) rfl rfl ?_
      change setPwr s { s.pwr with limitNext := clamp 600 1400 (nbits (v.toNat % 2 ^ 32) 10 0) } = _
      rw [nbits_low v (by decide)]
      rfl
    · refine h64 hr ⟨rfl, rfl, rfl, rfl, rfl, rfl, rfl⟩ rfl (by decide) rfl rfl ?_
      change setFw s { s.fw with bootImage := BitVec.ofNat 64 (v.toNat % 2 ^ 64 / 4096 * 4096) } = _
      rw [Nat.mod_eq_of_lt v.isLt]
      rfl
    · refine h64 hr ⟨rfl, rfl, rfl, rfl, rfl, rfl, rfl⟩ rfl (by decide) rfl rfl ?_
      change setFw s { s.fw with bootCharter := BitVec.ofNat 64 (v.toNat % 2 ^ 64 / 4096 * 4096) } = _
      rw [Nat.mod_eq_of_lt v.isLt]
      rfl
    · refine congrArg Host.Outcome.next ((regWrite_bar0 hr 2 v).trans ?_)
      rw [writeBar0, if_neg (by omega), show halfOf off 2 = none by simp [halfOf]]
  · have hr : reachDoms s (bar4Doms off len) 1 = (s, true) := reachDoms_on hon 1
    have hx (w : Option (List Byte)) : exec (.bar4Access off len w .clean) s = .next (bar4Now s off len w .clean) := by
      change Host.Outcome.next (bar4Access s off len w .clean) = _
      rw [bar4Access, if_neg (by simp [hb, h3, hl]), hr]
    refine ⟨?_, fun l hlen hin => ?_, fun l hout => ?_⟩
    · rw [hx]
      rfl
    · have hn : bar4In off len = len := by
        unfold bar4In
        omega
      rw [hx]
      change Host.Outcome.next ({ s with
        bus := { s.bus with abort := false }
        fab := { s.fab with mem := mwrite s.fab.mem off ((l.take len).take (bar4In off len)) } } : State) = _
      rw [hn, List.take_take, min_self, ← hlen, List.take_length]
    · have hn : bar4In off len = 0 := by
        unfold bar4In
        omega
      rw [hx]
      change Host.Outcome.next ({ s with
        bus := { s.bus with abort := false }
        fab := { s.fab with mem := mwrite s.fab.mem off ((l.take len).take (bar4In off len)) } } : State) = _
      rw [hn, List.take_zero]
      rfl
end

section
/-! Proofs: the Acvik window (spec/05 R164 to R168), scrubs, retries and cleans (spec/07 R204 to R218). -/

namespace Sys2Proof.Machine

/-! ## The end of a clean -/

/-- What waited in a queue for a clean may go on. -/
def cleanQueue (s : State) (q : Nat) : State :=
  match getQ s q with
  | some x => putQ s q { x with recs := x.recs.map cleanedDesc }
  | none => s

/-- The records that a queue holds. -/
def recsOf (s : State) (q : Nat) : Option (List Desc) := (getQ s q).map (·.recs)

theorem recsOf_putQ (s : State) (q k : Nat) (x : Queue) : recsOf (putQ s q x) k = if k = q then some x.recs else recsOf s k := by
  by_cases hk : k = winKey
  · subst hk
    have h (t : State) : recsOf t winKey = some (tgetD t.obj.queues winKey Queue.window).recs := by simp [recsOf, getQ]
    rw [h, h, putQ_obj, tgetD, tget_tset]
    split <;> rfl
  · simp only [recsOf, getQ, if_neg hk, putQ_obj, tget_tset]
    split <;> rfl

theorem cleanedDesc_twice (d : Desc) : cleanedDesc (cleanedDesc d) = cleanedDesc d := by
  by_cases h : d.stage = .cleaning <;> simp [cleanedDesc, h]

theorem recsOf_cleanQueue (s : State) (q k : Nat) :
    recsOf (cleanQueue s q) k = if k = q then (recsOf s k).map (List.map cleanedDesc) else recsOf s k := by
  unfold cleanQueue
  split
  · rename_i x hx
    rw [recsOf_putQ]
    split
    · rename_i h
      rw [h, recsOf, hx]
      rfl
    · rfl
  · rename_i hx
    split
    · rename_i h
      rw [h, recsOf, hx]
      rfl
    · rfl

theorem recsOf_foldl_cleanQueue (l : List Nat) (s : State) (k : Nat) :
    recsOf (l.foldl cleanQueue s) k = if k ∈ l then (recsOf s k).map (List.map cleanedDesc) else recsOf s k := by
  induction l generalizing s with
  | nil => rfl
  | cons q l ih =>
    rw [List.foldl_cons, ih, recsOf_cleanQueue]
    by_cases hk : k = q
    · subst hk
      cases recsOf s k <;> simp [cleanedDesc_twice, Function.comp_def]
    · simp [hk]

theorem cleanQueue_queues {s : State} {q k : Nat} (h : k ≠ q) : tget (cleanQueue s q).obj.queues k = tget s.obj.queues k := by
  unfold cleanQueue
  split
  · rw [putQ_obj]
    exact tget_tset_other _ _ h
  · rfl

theorem foldl_cleanQueue_queues {l : List Nat} {k : Nat} (h : k ∉ l) (s : State) :
    tget (l.foldl cleanQueue s).obj.queues k = tget s.obj.queues k := by
  induction l generalizing s with
  | nil => rfl
  | cons q l ih =>
    simp only [List.mem_cons, not_or] at h
    rw [List.foldl_cons, ih h.2, cleanQueue_queues h.1]

theorem cleanQueue_only (s : State) (q : Nat) : Only [.obj] s (cleanQueue s q) := by
  unfold cleanQueue
  split
  · exact putQ_only _ _ _
  · exact .refl _ s

/-- A queue whose records none waits for a clean is as it was. -/
theorem map_cleanedDesc_self {l : List Desc} (h : (l.any fun d => d.stage == .cleaning) = false) : l.map cleanedDesc = l := by
  simp only [List.any_eq_false, beq_iff_eq] at h
  exact (List.map_congr_left fun d hd => if_neg (h d hd)).trans (List.map_id l)

/-- The queues of a slot in which a descriptor waits for the slot's clean. -/
def cleaningQueues (s : State) (n : Nat) : List Nat :=
  (queueKeys s).filter fun q => (getQ s q).any (fun x => queueSlot s q x == some n) &&
    (getQ s q).any fun x => x.recs.any fun d => d.stage == .cleaning

theorem mem_queueKeys {s : State} {q : Nat} {x : Queue} (hq : q < 8193) (h : getQ s q = some x) : q ∈ queueKeys s := by
  have hw : winKey = 8192 := rfl
  by_cases hk : q = winKey
  · simp [queueKeys, hk]
  · rw [getQ, if_neg hk] at h
    have hm := tget_mem h
    simp only [queueKeys, List.mem_append, List.mem_filter, List.mem_map, decide_eq_true_eq]
    exact .inl ⟨⟨_, hm, rfl⟩, by omega⟩

/-- The state after a clean: its slot's groups and queues go on. -/
def cleanedState (s : State) (n : Nat) : State :=
  (cleaningQueues s n).foldl cleanQueue (cleanedGroups { s with fab := { s.fab with cleans := s.fab.cleans.erase n } } n)

theorem cleanDone_eq {s : State} {n : Nat} (h : s.fab.cleans.contains n = true) : ∃ l, cleanDone s n =
    setObj (cleanedState s n) { (cleanedState s n).obj with launches := l } := by
  rw [cleanDone, if_neg (by rw [h]; simp)]
  exact ⟨_, rfl⟩

theorem cleanedGroups_groups (s : State) (n k : Nat) : tget (cleanedGroups s n).cores.groups k = (tget s.cores.groups k).map
    fun g =>
    if (tget s.cores.blocks g.block).any fun b => slotOfBlock s b == n then { g with subs := g.subs.map cleanedSub } else g := by
  have h : (cleanedGroups s n).cores.groups = tmap s.cores.groups fun _ g =>
      if (tget s.cores.blocks g.block).any fun b => slotOfBlock s b == n then { g with subs := g.subs.map cleanedSub } else g := by
    refine List.map_congr_left fun e _ => ?_
    split <;> rename_i h <;> beta_reduce
    · rw [if_pos h]
    · rw [if_neg h]
  rw [h, tget_tmap]

theorem cleanedState_leaves (s : State) (n : Nat) :
    (cleanedState s n).fab = { s.fab with cleans := s.fab.cleans.erase n } ∧ Only [.fab, .cores, .obj] s (cleanedState s n) ∧
    (cleanedState s n).cores = (cleanedGroups { s with fab := { s.fab with cleans := s.fab.cleans.erase n } } n).cores := by
  have h : Only [.obj] _ (cleanedState s n) := .foldl cleanQueue_only _ _
  exact ⟨h .fab (by decide), Only.trans (fun p hp => by cases p <;> first | (simp at hp; done) | rfl) (h.mono (by simp)),
    h .cores (by decide)⟩

theorem hbmOf_setHbm_same (s : State) (n : Nat) (x : HbmEcc) : hbmOf (setHbm s n x) n = x := by simp [hbmOf, setHbm, tgetD]

theorem eccOf_setEcc_same (s : State) (n : Nat) (x : StkEcc) : eccOf (setEcc s n x) n = x := by simp [eccOf, setEcc, tgetD]

/-- The log of an error that is not counted leaves the counts, and the scrub's place. -/
theorem hbmLog_uncounted (s : State) (pa n : Nat) : (hbmOf (hbmLog s pa false) n).scrubAt = (hbmOf s n).scrubAt ∧
    (hbmOf (hbmLog s pa false) n).corrected = (hbmOf s n).corrected ∧
    (hbmOf (hbmLog s pa false) n).uncorrected = (hbmOf s n).uncorrected := by
  by_cases hn : n = stackOf pa
  · subst hn
    rw [hbmLog, hbmOf_setHbm_same]
    simp only [Bool.false_eq_true, if_false]
    split <;> exact ⟨rfl, rfl, rfl⟩
  · have : hbmOf (hbmLog s pa false) n = hbmOf s n := by simp only [hbmOf, hbmLog, setHbm, tgetD, tget_tset_other _ _ hn]
    rw [this]
    exact ⟨rfl, rfl, rfl⟩

end Sys2Proof.Machine

open Sys2Proof Sys2Proof.Machine

/-- Settles O50: each scrub, retry and clean is one change of the fabric. -/
theorem scrubsRetriesAndCleans : Obligations.ScrubsRetriesAndCleans := by
  refine ⟨fun s k found hk => ?_, fun s n found => ?_, fun s n id x hx hat ht => ?_, fun s n => ⟨fun h => ?_, fun h => ?_⟩⟩
  · intro ways hways
    have hx : exec (.stackScrub k found) s = .next (stackScrub s k.val found) := rfl
    rw [stackScrub, if_neg (fun h => h.elim (by simp [hk]) fun h => hways (List.isEmpty_iff.1 h))] at hx
    have hmem : ways.getD (tgetD s.fab.stkScrub k.val 0 % (ways.length * 65536) / 65536) 0 ∈ ways := by
      have hpos : 0 < ways.length := List.length_pos_iff.2 hways
      have hlt : tgetD s.fab.stkScrub k.val 0 % (ways.length * 65536) / 65536 < ways.length :=
        Nat.div_lt_of_lt_mul (by rw [Nat.mul_comm]; exact Nat.mod_lt _ (by positivity))
      rw [List.getD_eq_getElem _ _ hlt]
      exact List.getElem_mem hlt
    have ho (e : Tbl StkEcc) (p : Tbl Nat) : Only [.fab] s { s with fab := { s.fab with stkScrub := p, stkEcc := e } } :=
      only_fab s _
    cases found with
    | clean => exact ⟨_, hx, tget_tset_same _ _ _, fun _ => rfl, by simp, by simp, rfl, rfl, ho _ _⟩
    | single => exact ⟨_, hx, tget_tset_same _ _ _, by simp, fun _ => eccOf_setEcc_same _ _ _, by simp, rfl, rfl, ho _ _⟩
    | double =>
      refine ⟨_, hx, tget_tset_same _ _ _, by simp, by simp, fun _ => ?_, rfl, rfl, ho _ _⟩
      dsimp only
      rw [eccOf_setEcc_same]
      exact ⟨rfl, hmem⟩
  · have hx : exec (.hbmScrub n found) s = .next (hbmScrub s n.val found) := rfl
    have ho (h : HbmEcc) : Only [.fab] s (setHbm s n.val h) := only_fab s _
    cases found with
    | clean =>
      refine ⟨_, hx, ?_⟩
      dsimp only [hbmScrub]
      rw [hbmOf_setHbm_same]
      exact ⟨rfl, by simp, fun _ => rfl, rfl, rfl, ho _⟩
    | single =>
      refine ⟨_, hx, ?_⟩
      dsimp only [hbmScrub]
      rw [hbmOf_setHbm_same]
      exact ⟨rfl, fun _ => rfl, by simp, rfl, rfl, ho _⟩
    | double =>
      refine ⟨_, hx, ?_⟩
      dsimp only [hbmScrub]
      obtain ⟨h1, h2, h3⟩ := hbmLog_uncounted (setHbm s n.val { hbmOf s n.val with
        scrubAt := ((hbmOf s n.val).scrubAt + 1) % 0x24000000 }) (n.val * 0x900000000 + (hbmOf s n.val).scrubAt * 64) n.val
      rw [hbmOf_setHbm_same] at h1 h2 h3
      exact ⟨h1, by simp, fun _ => h2, h3, rfl, (ho _).trans (only_fab _ _)⟩
  · have hx' : exec (.hbmParityRetry n id) s = .next (hbmParityRetry s n.val id) := rfl
    rw [hbmParityRetry, hx] at hx'
    dsimp only at hx'
    rw [if_neg (by simp [hat]), if_pos ht] at hx'
    refine ⟨_, hx', tget_tset_same _ _ _, hbmOf_setHbm_same _ _ _, rfl, ?_⟩
    exact fun p hp => by cases p <;> first | (simp at hp; done) | rfl
  · change Host.Outcome.next (cleanDone s n.val) = _
    rw [cleanDone, if_pos (by rw [h]; rfl)]
  · obtain ⟨l, hl⟩ := cleanDone_eq h
    refine ⟨_, congrArg Host.Outcome.next hl, ?_⟩
    obtain ⟨h1, h2, h3⟩ := cleanedState_leaves s n.val
    have hq (q : Nat) : recsOf (cleanedState s n.val) q = if q ∈ cleaningQueues s n.val then
      (recsOf s q).map (List.map cleanedDesc) else recsOf s q := recsOf_foldl_cleanQueue _ _ _
    have hk {q : Nat} (hn : q ∉ cleaningQueues s n.val) : tget (cleanedState s n.val).obj.queues q = tget s.obj.queues q :=
      foldl_cleanQueue_queues hn _
    have hg (k : Nat) := cleanedGroups_groups { s with fab := { s.fab with cleans := s.fab.cleans.erase n.val } } n.val k
    rw [← h3] at hg
    generalize cleanedState s n.val = t at h1 h2 h3 hq hk hg
    refine ⟨h1, h2.trans (Only.mono (setObj_only _ _) (by simp)), fun q x hx hs => ?_, fun q x hx hw hs => ?_, fun k g b hkg hb =>
        ?_⟩
    · have hrec : recsOf t q.val = some (x.recs.map cleanedDesc) := by
        rw [hq, show recsOf s q.val = some x.recs by rw [recsOf, hx]; rfl]
        split
        · rfl
        · rename_i hm
          have hno : (x.recs.any fun d => d.stage == .cleaning) = false := by
            rw [← Bool.not_eq_true]
            exact fun ha => hm (List.mem_filter.2 ⟨mem_queueKeys q.isLt hx, by simp [hx, hs, ha]⟩)
          rw [map_cleanedDesc_self hno]
      obtain ⟨y, hy, hr⟩ := Option.map_eq_some_iff.1 hrec
      exact ⟨y, hy, hr⟩
    · refine (hk fun hm => hs ?_).trans hx
      have hm' := (List.mem_filter.1 hm).2
      rw [getQ, if_neg hw, hx] at hm'
      simp only [Option.any_some, Bool.and_eq_true, beq_iff_eq] at hm'
      exact hm'.1
    · change tget t.cores.groups k = _
      rw [hg]
      change (tget s.cores.groups k).map _ = _
      rw [hkg]
      simp only [Option.map_some, hb, Option.any_some, beq_iff_eq]
      rfl

/-- Settles O47: the window takes a word, holds it, or begins anew, by its own state. -/
theorem acvikWindowAssemblesDescriptors : Obligations.AcvikWindowAssemblesDescriptors := by
  refine ⟨fun s off size v hb hd hs hw he hp hz ho hn hr => ?_, fun s off size v hb hph hl => ?_, fun s hb he => ?_,
    fun s x hb hx hh => ⟨?_, ?_⟩⟩
  · have hx : exec (.feAcvWinWrite off size v) s = .next (acvApply s off size v) := by
      change Host.Outcome.next (if bar0Ok s then acvWrite s off size v else s) = _
      rw [if_pos hb, acvWrite, if_neg (by tauto)]
    refine ⟨_, hx, ?_⟩
    have hmod : (s.fe.acv.nextWord + 1) % 512 % 16 = (s.fe.acv.nextWord + 1) % 16 := Nat.mod_mod_of_dvd _ (by decide)
    rw [acvApply, if_neg (by simp [hw, he]), if_neg (by simp [hp]), if_neg (by simp [hz, ho]), if_neg (by omega)]
    dsimp only
    have hacv (a : Acv) : Only [.fe, .obj] s (setAcv s a) := fun p hp => by cases p <;> first | (simp at hp; done) | rfl
    by_cases h15 : s.fe.acv.nextWord % 16 = 15
    · rw [if_neg (by omega)]
      split
      · rename_i hlt
        simp only [List.length_append, List.length_singleton] at hlt
        exact ⟨rfl, rfl, fun h => absurd h15 h, fun _ h => by omega, hacv _⟩
      · split
        · rename_i hq
          simp [getQ] at hq
        · rename_i x hq
          refine ⟨rfl, rfl, fun h => absurd h15 h, fun _ _ => ⟨rfl, by simp [setAcv], fun x' y hx' hy => ?_⟩,
            (hacv _).trans ((putQ_only _ _ _).mono (by simp))⟩
          rw [hq] at hx'
          cases hx'
          simp only [getQ, if_pos, putQ_obj, tgetD, tget_tset_same, Option.some.injEq] at hy
          rw [← hy]
          rfl
    · rw [if_pos (by omega)]
      exact ⟨rfl, rfl, fun _ => ⟨rfl, rfl, rfl⟩, fun h => absurd h h15, hacv _⟩
  · change Host.Outcome.next (if bar0Ok s then acvWrite s off size v else s) = _
    rw [if_pos hb, acvWrite, if_pos hph, if_neg (by omega)]
    rfl
  · change Host.Outcome.next (if bar0Ok s then acvEnable s else s) = _
    rw [if_pos hb, acvEnable, if_neg (by simp [he])]
    rfl
  · change Host.Outcome.next (if bar0Ok s then acvResume s 1 else s) = _
    rw [if_pos hb, acvResume, hx]
    exact congrArg _ (if_pos hh)
  · change Host.Outcome.next (if bar0Ok s then acvResume s 2 else s) = _
    rw [if_pos hb, acvResume, hx]
    exact congrArg _ (if_pos hh)
end

section
/-! Proofs: what an access through translation can change when it ends, and when it does not (spec/04 R113, R119, spec/07 R203 to
R206). -/

namespace Sys2Proof.Machine

theorem tierLine_only (s : State) (n k pa : Nat) : Only [.fab] s (tierLine s n k pa).1 := by
  unfold tierLine
  split <;> exact only_fab s _

theorem tierRead_only (n fuel : Nat) (s : State) (pa len : Nat) : Only [.fab] s (tierRead n fuel s pa len).1 := by
  induction fuel generalizing s pa len with
  | zero => exact .refl _ s
  | succ fuel ih =>
    unfold tierRead
    split
    · exact .refl _ s
    · split
      · exact .refl _ s
      · exact (tierLine_only s n _ pa).trans (ih _ _ _)

theorem tierWrite_only (n fuel : Nat) (s : State) (pa : Nat) (bs : List Byte) : Only [.fab] s (tierWrite n fuel s pa bs) := by
  induction fuel generalizing s pa bs with
  | zero => exact .refl _ s
  | succ fuel ih =>
    unfold tierWrite
    split
    · exact .refl _ s
    · split
      · exact only_fab s _
      · exact ((tierLine_only s n _ pa).trans (only_fab _ _)).trans (ih _ _ _)

theorem physRead_only (s : State) (slot : Option Nat) (stk : Bool) (pa n : Nat) : Only [.fab] s (physRead s slot stk pa n).1 := by
  unfold physRead
  split
  · exact tierRead_only _ _ _ _ _
  · exact .refl _ s

theorem physWrite_only (s : State) (slot : Option Nat) (stk : Bool) (pa : Nat) (bs : List Byte) :
    Only [.fab] s (physWrite s slot stk pa bs) := by
  unfold physWrite
  split
  · exact tierWrite_only _ _ _ _ _
  · exact only_fab s _

theorem writePieces_only (w : Who) (l : List (Tr × Nat)) (s : State) (bs : List Byte) : Only [.fab] s (writePieces w s l bs) := by
  induction l generalizing s bs with
  | nil => exact .refl _ s
  | cons e l ih =>
    obtain ⟨t, n⟩ := e
    unfold writePieces
    refine Only.trans ?_ (ih _ _)
    split
    · exact physWrite_only _ _ _ _ _
    · exact hostWrite_only _ _ _
    · exact .refl _ s

theorem readPieces_only (w : Who) (l : List (Tr × Nat)) (s : State) : Only [.fab, .free] s (readPieces w s l).1 := by
  induction l generalizing s with
  | nil => exact .refl _ s
  | cons e l ih =>
    obtain ⟨t, n⟩ := e
    unfold readPieces
    dsimp only
    cases t with
    | mem pa stk => exact ((physRead_only s w.slot stk pa n).mono (by simp)).trans (ih _)
    | host ba => exact ih s
    | _ => exact ((drewN_only s n).mono (by simp)).trans (ih _)

/-- An access whose translations are all there has cached them, and done nothing else. -/
theorem pieces_some {w : Who} {k : AccessKind} {fuel : Nat} {s t : State} {va n : Nat} {l : List (Tr × Nat)}
    (h : pieces w k fuel s va n = (t, some l)) : Cached s t := by
  induction fuel generalizing s t va n l with
  | zero =>
    rw [pieces] at h
    obtain ⟨rfl, -⟩ := Prod.mk.inj h
    exact .refl s
  | succ fuel ih =>
    unfold pieces at h
    dsimp only at h
    split at h
    · obtain ⟨rfl, -⟩ := Prod.mk.inj h
      exact .refl s
    · split at h
      · cases h
      · have c := translate_cached s w k va
        split at h
        · cases h
        · cases h
        · cases h
        · rename_i hx
          rw [hx] at c
          split at h
          · cases h
          · split at h
            · cases h
            · split at h
              · rename_i hy
                cases h
                exact c.trans (ih hy)
              · cases h

theorem reach_some {s t : State} {w : Who} {k : AccessKind} {va n : Nat} {l : List (Tr × Nat)}
    (h : reach s w k va n = (t, some l)) : Cached s t := by
  unfold reach at h
  split at h
  · exact pieces_some h
  · cases h

/-- A read that ends leaves the fabric and the translations changed, if anything. -/
theorem vread_some {s t : State} {w : Who} {va n : Nat} {l : List Byte} (h : vread s w va n = (t, some l)) :
    Only [.mmu, .fab, .free] s t := by
  unfold vread at h
  split at h
  · rename_i s' r hr
    cases h
    exact ((reach_some hr).only.mono (by simp)).trans ((readPieces_only w r s').mono (by simp))
  · cases h

theorem vread_only (s : State) (w : Who) (va n : Nat) : Only (.free :: lossParts) s (vread s w va n).1 := by
  have h := reach_only s w .read va n
  unfold vread
  split
  · rename_i s' r hr
    rw [hr] at h
    exact h.trans ((readPieces_only w r s').mono (by simp [lossParts]))
  · rename_i hr
    rw [hr] at h
    exact h

theorem vwrite_true {s t : State} {w : Who} {va : Nat} {bs : List Byte} (h : vwrite s w va bs = (t, true)) :
    Only [.mmu, .fab, .free] s t := by
  unfold vwrite at h
  split at h
  · rename_i s' r hr
    cases h
    exact ((reach_some hr).only.mono (by simp)).trans ((writePieces_only w r s' bs).mono (by simp))
  · cases h

theorem vwrite_only (s : State) (w : Who) (va : Nat) (bs : List Byte) : Only (.free :: lossParts) s (vwrite s w va bs).1 := by
  have h := reach_only s w .write va bs.length
  unfold vwrite
  split
  · rename_i s' r hr
    rw [hr] at h
    exact h.trans ((writePieces_only w r s' bs).mono (by simp [lossParts]))
  · rename_i hr
    rw [hr] at h
    exact h

end Sys2Proof.Machine
end

section
/-! Proofs: switches of carrels and slow-down records (spec/06 R179 to R188). -/

namespace Sys2Proof.Machine

theorem carOf_setCar_same (s : State) (n : Nat) (x : CarSlot) : carOf (setCar s n x) n = x := by simp [carOf, setCar, tgetD]

theorem carOf_setCar_other (s : State) {n m : Nat} (h : m ≠ n) (x : CarSlot) : carOf (setCar s n x) m = carOf s m := by
  simp only [carOf, setCar, tgetD, tget_tset_other _ _ h]

theorem carOf_congr {s t : State} (h : t.car = s.car) (n : Nat) : carOf t n = carOf s n := by rw [carOf, carOf, h]

theorem partWrite_only (s : State) (c : Cell3) (l : List Byte) : Only [.cores, .fab] s (partWrite s c l) := by
  unfold partWrite
  split <;> exact fun p hp => by cases p <;> first | (simp at hp; done) | rfl

theorem loadParts_only (n : Nat) (cs : List Cell3) (s : State) (l : List Byte) : Only [.cores, .fab] s (loadParts s n cs l) := by
  induction cs generalizing s l with
  | nil => exact .refl _ s
  | cons c cs ih =>
    unfold loadParts
    exact Only.trans (.ite (fun _ => partWrite_only _ _ _) fun _ => .refl _ s) (ih _ _)

/-- What a slot reads once its own image is saved, or given up (R182). -/
structure Loads (s : State) (n result : Nat) (t : State) : Prop where
  phase : (carOf t n).phase = .loading
  result_eq : (carOf t n).result = result
  outImage : (carOf t n).outImage = []
  others : ∀ m, m ≠ n → carOf t m = carOf s m

theorem setCar_traced (s : State) (n : Nat) (x : CarSlot) (a b c d : Nat) :
    carOf (trace (setCar s n x) a b c d) n = x ∧ (∀ m, m ≠ n → carOf (trace (setCar s n x) a b c d) m = carOf s m) ∧
      Only [.car, .fab, .fw] s (trace (setCar s n x) a b c d) := by
  have h := trace_only (setCar s n x) a b c d
  have hc := carOf_congr (h .car (by decide))
  refine ⟨(hc n).trans (carOf_setCar_same s n x), fun m hm => (hc m).trans (carOf_setCar_other s hm x), ?_⟩
  exact Only.trans (fun p hp => by cases p <;> first | (simp at hp; done) | rfl) (h.mono (by simp))

theorem startLoading_loads (s : State) (n result : Nat) :
    Loads s n result (startLoading s n result) ∧ Only [.car, .cores, .fab, .fw] s (startLoading s n result) := by
  unfold startLoading
  have hu : Only [.cores, .fab] s (((carOf s n).inImage.filter (ownPart (activeView s) n)).foldl (fun s c => partWrite s c []) s) :=
    .foldl (fun s c => partWrite_only s c []) _ s
  dsimp only
  generalize ((carOf s n).inImage.filter (ownPart (activeView s) n)).foldl (fun s c => partWrite s c []) s = u at hu ⊢
  obtain ⟨h1, h2, h3⟩ := setCar_traced u n { carOf s n with phase := .loading, result := result, outImage := [] } 5 1 n
    (if (carOf s n).loadAddr = 0 then 0 else partsBytes (carOf s n).inImage)
  refine ⟨⟨by rw [h1], by rw [h1], by rw [h1], fun m hm => (h2 m hm).trans (carOf_congr (hu .car (by decide)) m)⟩, ?_⟩
  exact (hu.mono (by simp)).trans (h3.mono (by simp))

/-- What a slot reads once its switch has ended (R182). -/
structure Switched (s : State) (n result : Nat) (t : State) : Prop where
  phase : (carOf t n).phase = .idle
  result_eq : (carOf t n).result = result
  inImage : (carOf t n).inImage = []
  lastUs : (carOf t n).lastUs = cdiv (s.hoop.time - (carOf s n).start) 100 % 2 ^ 32
  others : ∀ m, m ≠ n → carOf t m = carOf s m

theorem switchEnd_switched (s : State) (n result : Nat) :
    Switched s n result (switchEnd s n result) ∧ Only [.car, .fab, .fw] s (switchEnd s n result) := by
  unfold switchEnd
  dsimp only
  obtain ⟨h1, h2, h3⟩ := setCar_traced s n { carOf s n with
    phase := .idle, result := result, lastUs := cdiv (s.hoop.time - (carOf s n).start) 100 % 2 ^ 32, inImage := [] } 5 2 n
    (partsBytes (carOf s n).inImage)
  exact ⟨⟨by rw [h1], by rw [h1], by rw [h1], by rw [h1], h2⟩, h3⟩

/-- A switch that ends on a state with the same slots and the same time. -/
theorem Switched.congr {s u t : State} {n result : Nat} (hc : u.car = s.car) (hh : u.hoop = s.hoop) (h : Switched u n result t) :
    Switched s n result t :=
  ⟨h.phase, h.result_eq, h.inImage, by rw [h.lastUs, hh, carOf_congr hc], fun m hm => (h.others m hm).trans (carOf_congr hc m)⟩

theorem Loads.congr {s u t : State} {n result : Nat} (hc : u.car = s.car) (h : Loads u n result t) : Loads s n result t :=
  ⟨h.phase, h.result_eq, h.outImage, fun m hm => (h.others m hm).trans (carOf_congr hc m)⟩

/-- Firmware writes one record of a function's slow-down table (R188). -/
def slowRecord (a : Nat) (s : State) (n : Nat) : State := hostWrite s (a + 32 * n) (toLE 32 (slowWord (carOf s n)))

/-- The records of a slow-down table are those of its slots, and nothing else of host memory is written. -/
theorem foldl_slowRecord (a : Nat) (l : List Nat) (hl : l.Nodup) (s : State) (hm : Mem.wf s.fab.host = true) :
    (∀ n ∈ l, mread (l.foldl (slowRecord a) s).fab.host (a + 32 * n) 32 = toLE 32 (slowWord (carOf s n))) ∧
    (∀ b, (∀ n ∈ l, b < a + 32 * n ∨ a + 32 * n + 32 ≤ b) → mget (l.foldl (slowRecord a) s).fab.host b = mget s.fab.host b) := by
  induction l generalizing s with
  | nil => exact ⟨by simp, fun _ _ => rfl⟩
  | cons k l ih =>
    obtain ⟨hk, hl⟩ := List.nodup_cons.1 hl
    have hh : (slowRecord a s k).fab.host = mwrite s.fab.host (a + 32 * k) (toLE 32 (slowWord (carOf s k))) := by
      rw [slowRecord, hostWrite_fab]
    have hc (n : Nat) : carOf (slowRecord a s k) n = carOf s n := carOf_congr (by rw [slowRecord, hostWrite_car]) n
    obtain ⟨h1, h2⟩ := ih hl (slowRecord a s k) (hh ▸ mwrite_wf hm _ _)
    simp only [hc] at h1
    rw [List.foldl_cons]
    refine ⟨fun n hn => ?_, fun b hb => ?_⟩
    · obtain rfl | hn := List.mem_cons.1 hn
      · rw [mread_congr (m' := (slowRecord a s n).fab.host) fun b hb1 hb2 => h2 b fun j hj => by
          have : j ≠ n := fun h => hk (h ▸ hj)
          omega, hh]
        have h := mread_mwrite hm (a + 32 * n) (toLE 32 (slowWord (carOf s n)))
        rwa [toLE_length] at h
      · exact h1 n hn
    · rw [h2 b fun n hn => hb n (by simp [hn]), hh]
      exact mget_mwrite_outside hm (by rw [toLE_length]; exact hb k (by simp))

end Sys2Proof.Machine

open Sys2Proof Sys2Proof.Machine

/-- Settles O48: by the phase of the switch and by what its access through translation finds. -/
theorem switchesMoveImages : Obligations.SwitchesMoveImages := by
  refine ⟨fun s n hp => ?_, fun s n hp => ?_, fun s f a hm hr ha => ?_⟩
  · intro loads
    have hloads {r : Nat} {t : State} (h : Loads s n.val r t) : loads t r := ⟨h.phase, h.result_eq, h.outImage, h.others⟩
    have hx : exec (.switchSaveDone n) s = .next (switchSaveDone s n.val) := rfl
    rw [switchSaveDone] at hx
    rw [if_neg (by simp [hp])] at hx
    refine ⟨fun ho => ?_, fun ho hi => ?_, fun c u ok ho hi hv => ?_⟩
    · rw [if_pos (by simp [ho])] at hx
      obtain ⟨h1, h2⟩ := startLoading_loads s n.val 0
      exact ⟨_, hx, hloads h1, h2⟩
    · rw [if_neg (by simpa using ho), hi] at hx
      obtain ⟨h1, h2⟩ := startLoading_loads s n.val 1
      exact ⟨_, hx, hloads h1, h2⟩
    · rw [if_neg (by simpa using ho), hi] at hx
      dsimp only at hx
      rw [hv] at hx
      have hu := vwrite_only s (imageWho c n.val) (carOf s n.val).saveAddr.toNat (carOf s n.val).outImage
      rw [hv] at hu
      refine ⟨fun hok => ?_, fun hok hn => ?_, fun hok hn => ?_⟩
      · subst hok
        obtain ⟨h1, h2⟩ := startLoading_loads u n.val 0
        exact ⟨_, hx, hloads (h1.congr (hu .car (by decide))), ((vwrite_true hv).mono (by simp)).trans (h2.mono (by simp))⟩
      · subst hok
        dsimp only at hx
        rw [hn, if_neg (by simp)] at hx
        exact ⟨_, hx, hloads ((startLoading_loads u n.val 1).1.congr (hu .car (by decide)))⟩
      · subst hok
        dsimp only at hx
        rw [hx, if_pos hn]
  · intro skip ends
    have hends {r : Nat} {t : State} (h : Switched s n.val r t) : ends t r :=
      ⟨h.phase, h.result_eq, h.inImage, h.lastUs, h.others⟩
    have hx : exec (.switchLoadDone n) s = .next (switchLoadDone s n.val) := rfl
    rw [switchLoadDone] at hx
    rw [if_neg (by simp [hp])] at hx
    have hskip : ((carOf s n.val).loadAddr = 0 ∨ (carOf s n.val).inImage.isEmpty = true) ↔ skip := by simp [skip]
    simp only [hskip] at hx
    refine ⟨fun hs => ?_, fun hs hi => ?_, fun c u r hs hi hv => ?_⟩
    · rw [if_pos hs] at hx
      obtain ⟨h1, h2⟩ := switchEnd_switched s n.val (carOf s n.val).result
      exact ⟨_, hx, hends h1, h2⟩
    · rw [if_neg hs, hi] at hx
      obtain ⟨h1, h2⟩ := switchEnd_switched s n.val 2
      exact ⟨_, hx, hends h1, h2⟩
    · rw [if_neg hs, hi] at hx
      dsimp only at hx
      rw [hv] at hx
      have hu := vread_only s (imageWho c n.val) (carOf s n.val).loadAddr.toNat (partsBytes (carOf s n.val).inImage)
      rw [hv] at hu
      refine ⟨fun hok => ?_, fun hok hn => ?_, fun hok hn => ?_⟩
      · obtain ⟨l, rfl⟩ := Option.isSome_iff_exists.1 hok
        dsimp only at hx
        have hl := loadParts_only n.val (carOf s n.val).inImage u l
        obtain ⟨h1, h2⟩ := switchEnd_switched (loadParts u n.val (carOf s n.val).inImage l) n.val (carOf s n.val).result
        refine ⟨_, hx, hends ((h1.congr (hl .car (by decide)) (hl .hoop (by decide))).congr (hu .car (by decide))
          (hu .hoop (by decide))), ?_⟩
        exact (((vread_some hv).mono (by simp)).trans (hl.mono (by simp))).trans (h2.mono (by simp))
      · subst hok
        dsimp only at hx
        rw [hn, if_neg (by simp)] at hx
        exact ⟨_, hx, hends ((switchEnd_switched u n.val 2).1.congr (hu .car (by decide)) (hu .hoop (by decide)))⟩
      · subst hok
        dsimp only at hx
        rw [hx, if_pos hn]
  · have hx : exec (.slowTableWrite f) s = .next (((List.range 48).filter fun n => hasSlot s n && (f.val == 0 ||
        slotGrant s n == f.val)).foldl (slowRecord a.toNat) s) := by
      change Host.Outcome.next (slowTableWrite s f.val) = _
      rw [slowTableWrite, ha]
      dsimp only
      rw [if_neg (by simp [hr])]
      rfl
    refine ⟨_, hx, fun n hn hs hf => ?_, fun b hb => ?_, .foldl (fun s n => hostWrite_only _ _ _) _ s⟩
    · refine (foldl_slowRecord a.toNat _ (List.nodup_range.filter _) s ((memOk_iff s).1 hm).2.1).1 n (List.mem_filter.2 ?_)
      exact ⟨List.mem_range.2 hn, by simpa [hs] using hf⟩
    · refine (foldl_slowRecord a.toNat _ (List.nodup_range.filter _) s ((memOk_iff s).1 hm).2.1).2 b fun n hn => ?_
      have := List.mem_range.1 (List.mem_filter.1 hn).1
      omega
end

section
/-! Proofs: transactions of the fabric (spec/07 R195 to R203). -/

namespace Sys2Proof.Machine

/-! ## What a loss leaves of the fabric -/

/-- Of the fabric nothing changes but host memory, and no fault request is raised or answered. -/
def HostOnly (s t : State) : Prop := (∃ m, t.fab = { s.fab with host := m }) ∧ t.mmu.faults = s.mmu.faults

theorem HostOnly.refl (s : State) : HostOnly s s := ⟨⟨_, rfl⟩, rfl⟩

theorem HostOnly.of_fab {s t : State} (h : t.fab = s.fab) (h' : t.mmu = s.mmu) : HostOnly s t := ⟨⟨_, h⟩, congrArg Mmu.faults h'⟩

theorem HostOnly.trans {s t u : State} (h : HostOnly s t) (h' : HostOnly t u) : HostOnly s u := by
  obtain ⟨⟨m, h⟩, hm⟩ := h
  obtain ⟨⟨m', h'⟩, hm'⟩ := h'
  exact ⟨⟨m', by rw [h', h]⟩, hm'.trans hm⟩

theorem HostOnly.snoc {s t u : State} (h' : HostOnly t u) (h : HostOnly s t) : HostOnly s u := h.trans h'

theorem HostOnly.ite {c : Prop} [Decidable c] {s t u : State} (h : c → HostOnly s t) (h' : ¬c → HostOnly s u) :
    HostOnly s (if c then t else u) := by
  split
  · exact h ‹_›
  · exact h' ‹_›

theorem HostOnly.foldl {β : Type} {f : State → β → State} (hf : ∀ s b, HostOnly s (f s b)) (l : List β) (s : State) :
    HostOnly s (l.foldl f s) := by
  induction l generalizing s with
  | nil => exact .refl s
  | cons b l ih => exact (hf s b).trans (ih (f s b))

theorem HostOnly.txns {s t : State} (h : HostOnly s t) : t.fab.txns = s.fab.txns := by
  obtain ⟨⟨m, h⟩, -⟩ := h
  rw [h]

theorem dayBook_hostOnly (s : State) (a b c d : Nat) : HostOnly s (dayBook s a b c d) := by
  obtain ⟨m, _, _, h⟩ := dayBook_logged s a b c d
  exact ⟨⟨m, by rw [h]⟩, by rw [h]⟩

theorem raiseMsix_hostOnly (s : State) (f v : Nat) : HostOnly s (raiseMsix s f v) :=
  .ite (fun _ => .refl s) fun _ => .ite (fun _ => .ite (fun _ => .refl s) fun _ => .of_fab rfl rfl) fun _ => ⟨⟨_, rfl⟩, rfl⟩

theorem eventRec_hostOnly (s : State) (f kind status reason event object value : Nat) :
    HostOnly s (eventRec s f kind status reason event object value) := by
  unfold eventRec
  exact .ite (fun _ => .snoc (raiseMsix_hostOnly _ _ _) ⟨⟨_, rfl⟩, rfl⟩) fun _ => ⟨⟨_, rfl⟩, rfl⟩

theorem ctxGone_hostOnly (s : State) (c : Nat) : HostOnly s (ctxGone s c) := by
  unfold ctxGone
  split
  · exact .refl s
  · exact .ite (fun _ => .snoc (eventRec_hostOnly _ _ _ _ _ _ _ _) ⟨⟨_, rfl⟩, rfl⟩) fun _ => .refl s

theorem queueDrained_hostOnly (s : State) (q : Nat) : HostOnly s (queueDrained s q) := by
  unfold queueDrained
  split
  · exact .refl s
  · exact .ite (fun _ => .snoc (ctxGone_hostOnly _ _) (.snoc (eventRec_hostOnly _ _ _ _ _ _ _ _) (.of_fab rfl rfl))) fun _ => .refl
        s

theorem endDesc_hostOnly (s : State) (q : Nat) (i : W32) (st : Nat) : HostOnly s (endDesc s q i st) := by
  unfold endDesc
  split
  · exact .refl s
  · split
    · exact .refl s
    · have h (x : Queue) (y : List (W32 × W512)) : HostOnly s (if q = winKey then
          { putQ s q x with fe := { (putQ s q x).fe with acv := { (putQ s q x).fe.acv with ring := y } } } else putQ s q x) :=
        .ite (fun _ => .of_fab rfl rfl) fun _ => .of_fab rfl rfl
      exact .snoc (queueDrained_hostOnly _ q) (.ite (fun _ => .snoc (eventRec_hostOnly _ _ _ _ _ _ _ _) (h _ _)) fun _ => h _ _)

theorem dropWork_hostOnly (s : State) (q : Nat) (i : W32) : HostOnly s (dropWork s q i) :=
  .of_fab (dropWork_only s q i .fab (by decide)) (dropWork_only s q i .mmu (by decide))

theorem complete_hostOnly (s : State) (q : Nat) (i : W32) {st : Nat} (h : st ≠ 0) : HostOnly s (complete s q i st) := by
  unfold complete
  split
  · exact .refl s
  · split
    · exact .refl s
    · dsimp only
      rw [if_pos h]
      exact .snoc (endDesc_hostOnly _ _ _ _) (dropWork_hostOnly s q i)

theorem failWaits_hostOnly (s : State) (f : Nat) {st : Nat} (h : st ≠ 0) (c : Option Nat) : HostOnly s (failWaits s f st c) := by
  unfold failWaits
  refine .snoc (.of_fab rfl rfl) (.foldl (fun s q => ?_) _ s)
  split
  · exact .refl s
  · exact .ite (fun _ => .refl s) fun _ => .foldl (fun s d => complete_hostOnly s _ _ h) _ s

theorem flushQueue_hostOnly (s : State) (q : Nat) {st : Nat} (h : st ≠ 0) : HostOnly s (flushQueue s q st) := by
  unfold flushQueue
  split
  · exact .refl s
  · exact .foldl (fun s d => complete_hostOnly s _ _ h) _ s

theorem endEvents_hostOnly (s : State) (f st : Nat) : HostOnly s (endEvents s f st) := by
  refine .foldl (fun s e => ?_) _ s
  dsimp only
  split
  · exact .refl s
  · exact .snoc (.of_fab rfl rfl) (eventRec_hostOnly s _ _ _ _ _ _ _)

theorem loseFences_hostOnly (s : State) (c : Nat) : HostOnly s (loseFences s c) := by
  refine .foldl (fun s f => ?_) _ s
  exact .snoc (endEvents_hostOnly _ _ _) (.snoc (failWaits_hostOnly _ _ (by decide) _) (.of_fab rfl rfl))

theorem lostCtx_fab (s : State) (c reason : Nat) (x : Ctx) : (∃ l, (lostCtx s c reason x).fab = { s.fab with
    lines := l, txns := tmap s.fab.txns fun _ x => if x.asid = c then { x with lost := true } else x }) ∧
    (lostCtx s c reason x).mmu.faults = s.mmu.faults := by
  unfold lostCtx
  dsimp only
  split <;> exact ⟨⟨_, rfl⟩, rfl⟩

/-- The loss of a context marks its transactions, writes host memory and drops its slot's dirty lines; of the fabric nothing else
changes. -/
theorem markLost_fab (s : State) (c reason : Nat) :
    (∃ m l x, (markLost s c reason).fab = { s.fab with host := m, lines := l, txns := x } ∧
      ∀ id, tget x id = none ↔ tget s.fab.txns id = none) ∧ (markLost s c reason).mmu.faults = s.mmu.faults := by
  cases hx : ctxOf s c with
  | none =>
    rw [markLost, hx]
    exact ⟨⟨_, _, _, rfl, fun _ => .rfl⟩, rfl⟩
  | some x =>
    by_cases ha : x.st = .active
    · obtain ⟨⟨l, hl⟩, hf⟩ := lostCtx_fab s c reason x
      rw [markLost_eq hx ha]
      dsimp only
      generalize lostCtx s c reason x = u at hl hf
      have h : HostOnly u (dayBook (eventRec (closeStreams (loseFences ((queuesOf u c).foldl (fun s q => flushQueue s q 0x05) u) c)
          fun _ t => t.ctx == c) x.func 0x04 0 reason 0 (ctxHandle s c) 0) 0x0020 (ctxHandle s c) reason 0) :=
        .snoc (dayBook_hostOnly _ _ _ _ _) (.snoc (eventRec_hostOnly _ _ _ _ _ _ _ _) (.snoc (.of_fab rfl rfl)
          (.snoc (loseFences_hostOnly _ _) (.foldl (fun s q => flushQueue_hostOnly s q (by decide)) _ u))))
      obtain ⟨⟨m, hm⟩, hmf⟩ := h
      exact ⟨⟨m, l, _, by rw [hm, hl], fun id => by rw [tget_tmap, Option.map_eq_none_iff]⟩, hmf.trans hf⟩
    · rw [markLost, hx]
      dsimp only
      rw [if_pos ha]
      exact ⟨⟨_, _, _, rfl, fun _ => .rfl⟩, rfl⟩

/-! ## The tables of the fabric -/

/-- A transaction that has arrived at its target: the tables of the fabric, the monitor's record and the abort flag have changed,
    and
no byte of a memory. -/
structure AtTarget (s t : State) : Prop where
  fab : ∃ l k n c, t.fab = { s.fab with txns := l, tokens := k, seq := n, shares := c }
  only : Only [.fab, .flt, .bus] s t

theorem allocate_absent (s : State) (share : Nat) {id : Nat} (h : tget s.fab.txns id = none) :
    tget (allocate s share).fab.txns id = none := by
  unfold allocate
  split
  · exact h
  · dsimp only
    split
    · exact h
    · split
      · exact h
      · rename_i j _ _ x hx
        have hj : id ≠ j := fun e => by rw [e, hx] at h; cases h
        exact (tget_tset_other _ _ hj).trans h

theorem endTxn_gone (s : State) (id : Nat) (x : Txn) : tget (endTxn s id x).fab.txns id = none :=
  allocate_absent _ _ (tget_tdel_same _ _)

/-- What is left once the request has crossed the mesh and given its entry back. -/
theorem arrived_leaves (s : State) (id : Nat) (x : Txn) :
    AtTarget s (arrived (nocSettle s) id x) ∧ tget (arrived (nocSettle s) id x).fab.txns id = none := by
  obtain ⟨l, k, n, h1⟩ := nocSettle_moved s
  have hg := endTxn_gone (nocSettle s) id x
  have h2 : ∃ l k n c, endTxn (nocSettle s) id x = { s with fab := { s.fab with txns := l, tokens := k, seq := n, shares := c }
      } := by
    rw [h1]
    obtain ⟨l', k', n', c', h⟩ := allocate_tables { { s with fab := { s.fab with txns := l, tokens := k, seq := n } } with
      fab := { s.fab with txns := tdel l id, tokens := k, seq := n, shares := tmod s.fab.shares x.share fun n => n - 1 } } x.share
    exact ⟨l', k', n', c', h⟩
  unfold arrived
  dsimp only
  generalize endTxn (nocSettle s) id x = e at hg h2
  have hm := moves_only e (clusterRef (sourceOf x.share).1)
  generalize moves e (clusterRef (sourceOf x.share).1) = t at hm
  obtain ⟨l', k', n', c', h2⟩ := h2
  have hf : t.fab = e.fab := hm .fab (by decide)
  have he : Only [.fab, .flt, .bus] s e := by
    rw [h2]
    exact fun p hp => by cases p <;> first | (simp at hp; done) | rfl
  have ho := he.trans (hm.mono (by simp))
  rw [← hf] at hg
  have hfab := hf.trans (congrArg State.fab h2)
  split
  · exact ⟨⟨⟨l', k', n', c', hfab⟩, ho.trans fun p hp => by cases p <;> first | (simp at hp; done) | rfl⟩, hg⟩
  · exact ⟨⟨⟨l', k', n', c', hfab⟩, ho⟩, hg⟩

/-! ## The bytes of a transaction -/

/-- The memory once a transaction's bytes are stored, all of its writes in turn. -/
def txnStores (x : Txn) (m : Mem) : Mem :=
  if x.kind = .write ∨ x.kind = .atomic then x.more.foldl (fun m w => mwrite m w.1 w.2) (mwrite m x.addr x.data) else m

/-- What a transaction reads of a memory. -/
def txnReads (x : Txn) (m : Mem) (old : List Byte) : List Byte := if x.kind = .write then old else mread m x.addr x.len

theorem foldl_writes_mem (l : List (Nat × List Byte)) (s : State) :
    l.foldl (fun s w => physWrite s none false w.1 w.2) s =
      { s with fab := { s.fab with mem := l.foldl (fun m w => mwrite m w.1 w.2) s.fab.mem } } := by
  induction l generalizing s with
  | nil => rfl
  | cons w l ih => rw [List.foldl_cons, ih]; rfl

theorem foldl_writes_host (l : List (Nat × List Byte)) (s : State) :
    l.foldl (fun s w => hostWrite s w.1 w.2) s =
      { s with fab := { s.fab with host := l.foldl (fun m w => mwrite m w.1 w.2) s.fab.host } } := by
  induction l generalizing s with
  | nil => rfl
  | cons w l ih => rw [List.foldl_cons, ih]; rfl

theorem performTxn_mem (s : State) {x : Txn} (h : x.space = .mem) : performTxn s x =
    { s with fab := { s.fab with mem := txnStores x s.fab.mem, lastRead := txnReads x s.fab.mem s.fab.lastRead } } := by
  have hs : txnSlot x = (none, false) := by rw [txnSlot, h]
  have hmore (s : State) : performMore x s = { s with fab := { s.fab with
      mem := x.more.foldl (fun m w => mwrite m w.1 w.2) s.fab.mem } } := by
    rw [performMore, hs, h]
    exact foldl_writes_mem _ s
  rw [performTxn, hs, h]
  cases hk : x.kind <;> simp [txnStores, txnReads, hk, hmore, physWrite, physRead]

theorem performTxn_host (s : State) {x : Txn} (h : x.space = .host) : performTxn s x =
    { s with fab := { s.fab with host := txnStores x s.fab.host, lastRead := txnReads x s.fab.host s.fab.lastRead } } := by
  have hs : txnSlot x = (none, false) := by rw [txnSlot, h]
  have hmore (s : State) : performMore x s = { s with fab := { s.fab with
      host := x.more.foldl (fun m w => mwrite m w.1 w.2) s.fab.host } } := by
    rw [performMore, h]
    exact foldl_writes_host _ s
  rw [performTxn, hs, h]
  cases hk : x.kind <;> simp [txnStores, txnReads, hk, hmore, hostWrite]

theorem tierLine_fab (s : State) (n k pa : Nat) :
    ∃ m l p, (tierLine s n k pa).1.fab = { s.fab with mem := m, lines := l, plru := p } := by
  unfold tierLine
  split <;> exact ⟨_, _, _, rfl⟩

/-- A read through the stack tier changes its lines and what they hold of memory. -/
theorem tierRead_fab (n fuel : Nat) (s : State) (pa len : Nat) :
    ∃ m l p, (tierRead n fuel s pa len).1.fab = { s.fab with mem := m, lines := l, plru := p } := by
  induction fuel generalizing s pa len with
  | zero => exact ⟨_, _, _, rfl⟩
  | succ fuel ih =>
    unfold tierRead
    split
    · exact ⟨_, _, _, rfl⟩
    · split
      · exact ⟨_, _, _, rfl⟩
      · rename_i k _
        obtain ⟨m, l, p, h⟩ := tierLine_fab s n k pa
        obtain ⟨m', l', p', h'⟩ := ih (tierLine s n k pa).1 (pa + min len (128 - pa % 128)) (len - min len (128 - pa % 128))
        exact ⟨m', l', p', by rw [h'.trans (by rw [h])]⟩

theorem performTxn_tier (s : State) {x : Txn} {n : Nat} (h : x.space = .tier n) (hk : x.kind = .read) : performTxn s x =
    { (tierRead n (x.len / 128 + 2) s x.addr x.len).1 with fab := { (tierRead n (x.len / 128 + 2) s x.addr x.len).1.fab with
      lastRead := (tierRead n (x.len / 128 + 2) s x.addr x.len).2 } } := by
  have hs : txnSlot x = (some n, true) := by rw [txnSlot, h]
  rw [performTxn, hs, h, hk]
  rfl

theorem transactionResponse_eq {s : State} {id : Nat} {x : Txn} (hx : tget (nocSettle s).fab.txns id = some x)
    (he : x.entry = true) (ha : atTarget x = true) (hb : txnBlocked (nocSettle s) id x = false) (r : Resp) :
    transactionResponse s id r =
      if x.lost then arrived (nocSettle s) id x else (respond (arrived (nocSettle s) id x) x r).getD s := by
  rw [transactionResponse]
  dsimp only
  rw [hx]
  dsimp only
  rw [if_neg (by simp [he, ha, hb])]

/-! ## The issue of a transaction -/

/-- A route that goes to a memory has cached leaves, and done nothing else (R113). -/
theorem routeOf_go {s v : State} {r : TxnReq} {space : Space} {addr : Nat} (h : routeOf s r = (v, .go space addr)) : Cached s v :=
    by
  have htrans {w : Who} {k : AccessKind} {va : Nat} (h : transRoute s w k va = (v, .go space addr)) : Cached s v := by
    unfold transRoute at h
    split at h
    · cases h
    · split at h
      · cases h
      · split at h
        · cases h
        · obtain ⟨rfl, -⟩ := Prod.mk.inj h
          exact fillPath_cached _ _ _
  have hself {x : Route} (h : (s, x) = (v, .go space addr)) : Cached s v := by
    obtain ⟨rfl, -⟩ := Prod.mk.inj h
    exact .refl s
  unfold routeOf at h
  dsimp only at h
  split at h
  · split at h
    · exact hself h
    · exact htrans h
  · split at h
    · exact hself h
    · exact htrans h
  · exact hself h
  · split at h
    · exact hself h
    · split at h
      · exact hself h
      · exact hself h
  all_goals exact hself h

/-- The best of one input is that input. -/
theorem tokenPick_singleton (token : Nat) (e : Nat × Nat) : tokenPick token [e] = some e := by
  unfold tokenPick
  by_cases h : token ≤ e.1 <;> simp [h]

theorem filter_tset {α : Type} {p : Nat × α → Bool} {t : Tbl α} {n : Nat} {v : α} (ht : ∀ e ∈ t, p e = false) (hn : p (n, v) =
    true) :
    (tset t n v).filter p = [(n, v)] := by
  have h0 {t : Tbl α} (ht : ∀ e ∈ t, p e = false) : t.filter p = [] :=
    List.filter_eq_nil_iff.2 fun e he => by simp [ht e he]
  induction t with
  | nil => simp [tset, hn]
  | cons e t ih =>
    have he := ht e (by simp)
    have ht' : ∀ e ∈ t, p e = false := fun e he => ht e (by simp [he])
    unfold tset
    split_ifs
    · rw [List.filter_cons_of_pos hn, h0 ht]
    · rw [List.filter_cons_of_pos hn, h0 ht']
    · rw [List.filter_cons_of_neg (by simp [he]), ih ht']

/-- A transaction with its entry. -/
def Txn.entered (x : Txn) (seq born : Nat) : Txn := { x with entry := true, seq := seq, born := born }

/-- An allocation gives a transaction its entry, or leaves it as it was. -/
theorem allocate_get {s : State} {id : Nat} {x : Txn} (share : Nat) (h : tget s.fab.txns id = some x) :
    ∃ y, tget (allocate s share).fab.txns id = some y ∧ (y = x ∨ ∃ q b, y = x.entered q b) := by
  unfold allocate
  split
  · exact ⟨x, h, .inl rfl⟩
  · dsimp only
    split
    · exact ⟨x, h, .inl rfl⟩
    · split
      · exact ⟨x, h, .inl rfl⟩
      · rename_i j _ _ y hy
        by_cases hj : id = j
        · subst hj
          rw [h] at hy
          cases hy
          exact ⟨_, tget_tset_same _ _ _, .inr ⟨_, _, rfl⟩⟩
        · exact ⟨x, (tget_tset_other _ _ hj).trans h, .inl rfl⟩

/-- The one transaction of a share that waits gets its entry exactly when one is free (R195). -/
theorem allocate_alone {s : State} {id : Nat} {x : Txn} (h : tget s.fab.txns id = some x) (hx : x.entry = false)
    (hl : (s.fab.txns.filter fun e => e.2.share == x.share && !e.2.entry) = [(id, x)]) :
    (∀ y, tget (allocate s x.share).fab.txns id = some y → y.entry = shareFree s x.share) ∧
    tgetD (allocate s x.share).fab.shares x.share 0 = tgetD s.fab.shares x.share 0 + (if shareFree s x.share then 1 else 0) := by
  unfold allocate
  by_cases hf : shareFree s x.share = true
  · rw [if_neg (by simp [hf]), hl]
    dsimp only
    rw [List.map_singleton, tokenPick_singleton]
    dsimp only
    rw [h]
    refine ⟨fun y hy => ?_, by simp [hf, tgetD]⟩
    have hy' : tget (tset s.fab.txns id (x.entered s.fab.seq s.flt.windows)) id = some y := hy
    rw [tget_tset_same] at hy'
    cases hy'
    exact hf.symm
  · rw [if_pos (by simp [hf])]
    refine ⟨fun y hy => ?_, by simp [hf]⟩
    rw [h] at hy
    cases hy
    rw [hx, Bool.eq_false_iff.2 hf]

theorem addStall_car (s : State) (n : Nat) (src : SlowSrc) (r : Stall) : ∃ c, addStall s n src r = { s with car := c } := by
  unfold addStall
  split <;> exact ⟨_, rfl⟩

/-- A new transaction stands in the table, and its allocator is asked for an entry. -/
def issued (v : State) (r : TxnReq) (space : Space) (addr : Nat) : State :=
  { v with fab := { v.fab with txns := tset v.fab.txns v.fab.nextTxn (newTxn v r space addr), nextTxn := v.fab.nextTxn + 1 } }

end Sys2Proof.Machine

open Sys2Proof Sys2Proof.Machine

/-- Settles O49: the issue by its route, the response by the space that the transaction goes to. -/
theorem transactionsMoveBytes : Obligations.TransactionsMoveBytes := by
  refine ⟨fun s r hok hsh hcap hb h3 => ?_, fun s id x => ?_⟩
  · intro k u v space addr hgo hdom
    have hx : exec (.transactionIssue r) s = .next (allocate (issued v r space addr) k) := by
      change Host.Outcome.next (transactionIssue s r) = _
      rw [transactionIssue, if_neg (by simp [hok, hsh, hcap, hb, h3])]
      change Host.Outcome.next (match routeOf u r with
        | (s, .none) => s
        | (s, .wait) => s
        | (s, .fail) => routeFail s r
        | (s, .go space addr) => match reachDoms s (routeDoms s space addr) 1 with
          | (s, false) => s
          | (s, true) => allocate (issued s r space addr) k) = _
      rw [hgo]
      dsimp only
      rw [reachDoms_on hdom]
    obtain ⟨c, hu⟩ : ∃ c, u = { s with car := c } := by
      unfold u
      cases stallSlot r.issuer with
      | none => exact ⟨_, rfl⟩
      | some n => exact addStall_car s n _ _
    obtain ⟨l, w, n, hv⟩ := routeOf_go hgo
    rw [hu] at hv
    have hfree : shareFree (issued v r space addr) k = shareFree s k := by rw [hv]; rfl
    have hget : tget (issued v r space addr).fab.txns s.fab.nextTxn = some (newTxn v r space addr) := by
      rw [hv]
      exact tget_tset_same _ _ _
    obtain ⟨y, hy, hyx⟩ := allocate_get k hget
    obtain ⟨l', k', n', c', hat⟩ := allocate_tables (issued v r space addr) k
    refine ⟨_, hx, y, hy, ?_⟩
    have hyf : y.share = k ∧ y.kind = r.kind ∧ y.space = space ∧ y.addr = addr ∧ y.len = r.len ∧ y.data = r.data ∧ y.tries = 0 ∧
        y.lost = false := by
      obtain rfl | ⟨q, b, rfl⟩ := hyx <;> exact ⟨rfl, rfl, rfl, rfl, rfl, rfl, rfl, rfl⟩
    obtain ⟨f1, f2, f3, f4, f5, f6, f7, f8⟩ := hyf
    refine ⟨f1, f2, f3, f4, f5, f6, f7, f8, by rw [hat, hv]; rfl, by rw [hat, hv]; rfl, by rw [hat, hv]; rfl, fun hall => ?_, ?_⟩
    · have hl : ((issued v r space addr).fab.txns.filter fun e => e.2.share == k && !e.2.entry) =
          [(s.fab.nextTxn, newTxn v r space addr)] := by
        rw [hv]
        refine filter_tset (fun e he => ?_) (by simp [newTxn, k])
        by_cases h : e.2.share = k
        · simp [hall e he h]
        · simp [h]
      obtain ⟨a1, a2⟩ := allocate_alone (x := newTxn v r space addr) hget rfl hl
      rw [← hfree]
      refine ⟨a1 y hy, a2.trans ?_⟩
      rw [hv]
      rfl
    · rw [hat, hv]
      exact fun p hp => by cases p <;> first | (simp at hp; done) | rfl
  · intro u hx he ha hbl gone stores
    obtain ⟨⟨⟨l, k, n, c, hf⟩, ho⟩, hg⟩ := arrived_leaves s id x
    have hr (r : Resp) (hc : ∀ d, r ≠ .control d) : exec (.transactionResponse id r) s =
        .next (if x.lost then arrived u id x else (respond (arrived u id x) x r).getD s) := by
      refine Eq.trans ?_ (congrArg Host.Outcome.next (transactionResponse_eq hx he ha hbl r))
      cases r <;> first | rfl | exact absurd rfl (hc _)
    have hto : transactionResponse s id .hostError = _ := transactionResponse_eq hx he ha hbl .hostError
    refine ⟨fun hl r hc => ?_, fun hl => ?_⟩
    · rw [hr r hc, if_pos hl]
      exact ⟨rfl, hg⟩
    change tget (arrived u id x).fab.txns id = none at hg
    change (arrived u id x).fab = _ at hf
    change Only _ s (arrived u id x) at ho
    rw [hl] at hto
    simp only [hl, Bool.false_eq_true, if_false] at hr hto
    change transactionResponse s id .hostError = (respond (arrived u id x) x .hostError).getD s at hto
    generalize arrived u id x = t at hf ho hg hr hto
    refine ⟨fun hs => ?_, fun hs => ?_, fun n hs hk => ?_, fun l hs hk => ?_, fun hs hk => ?_, fun hs h4 => ?_,
      fun z hs hk hz hzs hzk => ?_⟩
    · have hx : respond t x .ok = some (performTxn t x) := by
        unfold respond
        rw [hs]
      refine ⟨performTxn t x, (hr .ok (by simp)).trans (by rw [hx]; rfl), ?_⟩
      rw [performTxn_mem t hs]
      refine ⟨hg, ?_, ?_, ?_, ho.trans ((only_fab t _).mono (by simp))⟩
      all_goals dsimp only; rw [hf]
      · rfl
      · rfl
    · have hx : respond t x .ok = some (performTxn t x) := by
        unfold respond
        rw [hs]
      refine ⟨performTxn t x, (hr .ok (by simp)).trans (by rw [hx]; rfl), ?_⟩
      rw [performTxn_host t hs]
      refine ⟨hg, ?_, ?_, ?_, ho.trans ((only_fab t _).mono (by simp))⟩
      all_goals dsimp only; rw [hf]
      · rfl
      · rfl
    · have hx : respond t x .ok = some (performTxn t x) := by
        unfold respond
        rw [hs]
      refine ⟨performTxn t x, (hr .ok (by simp)).trans (by rw [hx]; rfl), ?_⟩
      rw [performTxn_tier t hs hk]
      obtain ⟨m, l', p, hr⟩ := tierRead_fab n (x.len / 128 + 2) t x.addr x.len
      have ho' := tierRead_only n (x.len / 128 + 2) t x.addr x.len
      refine ⟨?_, rfl, ?_, ho.trans ((ho'.trans (only_fab _ _)).mono (by simp))⟩
      · dsimp only [gone]
        rw [hr]
        exact hg
      · dsimp only
        rw [hr, hf]
    · have hx : respond t x (.twinData l) = some { t with fab := { t.fab with lastRead := l.take x.len } } := by
        unfold respond
        rw [hs]
        exact if_neg hk
      refine ⟨{ t with fab := { t.fab with lastRead := l.take x.len } }, (hr (.twinData l) (by simp)).trans (by rw [hx]; rfl), hg,
          rfl, ?_, ho.trans ((only_fab t _).mono (by simp))⟩
      dsimp only
      rw [hf]
    · have hx : respond t x .ok = some t := by
        unfold respond
        rw [hs]
        exact if_pos hk
      rw [hr .ok (by simp), hx]
      rfl
    · have hx : respond t x .hostError = some t := by
        unfold respond
        rw [hs]
        exact congrArg some (if_pos h4)
      rw [hr .hostError (by simp), hx]
      rfl
    · have hc : exec (.pcieCompletionTimeout id) s = .next ((respond t x .hostError).getD s) := by
        change Host.Outcome.next (completionTimeout s id) = _
        rw [completionTimeout, hz]
        dsimp only
        rw [if_pos ⟨hzs, hzk⟩, hto]
      refine ⟨fun h4 => ?_, fun y h4 hy ha => ?_⟩
      · have hx : respond t x .hostError = some t := by
          unfold respond
          rw [hs]
          exact congrArg some (if_pos h4)
        rw [hc, hx]
        rfl
      · have hx : respond t x .hostError = some (markLost t x.asid 0x01) := by
          unfold respond
          rw [hs]
          exact congrArg some (if_neg h4)
        have hyt : ctxOf t x.asid = some y := by rw [ctxOf, ho .obj (by decide)]; exact hy
        obtain ⟨⟨m, l, w, hfab, hw⟩, -⟩ := markLost_fab t x.asid 0x01
        refine ⟨_, hc.trans (by rw [hx]; rfl), ?_, (markLost_active hyt ha 0x01).2.1, ?_⟩
        · dsimp only [gone]
          rw [hfab]
          exact (hw id).2 hg
        · exact (ho.mono (by simp [lossParts])).trans ((markLost_only t x.asid 0x01).mono fun p h => by simp [h])
end

section
/-! Proofs: walks, fault records and invalidations (spec/04 R114 to R126). -/

namespace Sys2Proof.Machine

/-! ## A walk that finds its leaf -/

/-- A TLB holds a leaf: one that some state held already, or the leaf that the walk found. -/
def HoldsLeaf (old : List TlbE) (e : TlbE) (l : List TlbE) (k : Nat) : Prop :=
  ∃ y ∈ l, y.tlb = k ∧ y.asid = e.asid ∧ y.bitsz = e.bitsz ∧ y.page = e.page ∧ (y ∈ old ∨ y.leaf = e.leaf)

/-- Every entry is an old one, or one of the leaf that is filled. -/
def OldOrFilled (old : List TlbE) (e : TlbE) (l : List TlbE) : Prop := ∀ y ∈ l, y ∈ old ∨ y.leaf = e.leaf

theorem fillPlace_tlb (s : State) (n : Nat) (used : List Nat) : (fillPlace s n used).1.mmu = s.mmu := by
  unfold fillPlace
  split <;> rfl

theorem fillTlb_cases (s : State) (e : TlbE) (k : Nat) :
    ((s.mmu.tlb.any fun x => x.tlb = k && x.asid = e.asid && x.page = e.page && x.bitsz = e.bitsz) = true ∧ fillTlb s e k = s) ∨
    ∃ set w, (fillTlb s e k).mmu.tlb = { e with tlb := k, set := set, way := w } ::
      s.mmu.tlb.filter fun x => !(x.tlb == k && x.set == set && x.way == w) := by
  unfold fillTlb
  split
  · exact .inl ⟨‹_›, rfl⟩
  · refine .inr ⟨e.page % (tlbShape k).1, (fillPlace s (tlbShape k).2 ((s.mmu.tlb.filter fun x =>
      x.tlb = k && x.set = e.page % (tlbShape k).1).map (·.way))).2, ?_⟩
    dsimp only
    rw [fillPlace_tlb]

theorem fillTlb_oldOrFilled {old : List TlbE} {s : State} {e : TlbE} (h : OldOrFilled old e s.mmu.tlb) (k : Nat) :
    OldOrFilled old e (fillTlb s e k).mmu.tlb := by
  obtain ⟨-, hs⟩ | ⟨set, w, hs⟩ := fillTlb_cases s e k
  · rw [hs]
    exact h
  · rw [hs]
    intro y hy
    obtain rfl | hy := List.mem_cons.1 hy
    · exact .inr rfl
    · exact h y (List.mem_filter.1 hy).1

theorem fillTlb_holds {old : List TlbE} {s : State} {e : TlbE} (h : OldOrFilled old e s.mmu.tlb) (k : Nat) :
    HoldsLeaf old e (fillTlb s e k).mmu.tlb k := by
  obtain ⟨ha, hs⟩ | ⟨set, w, hs⟩ := fillTlb_cases s e k
  · rw [hs]
    obtain ⟨y, hy, hp⟩ := List.any_eq_true.1 ha
    simp only [Bool.and_eq_true, decide_eq_true_eq] at hp
    obtain ⟨⟨⟨h1, h2⟩, h3⟩, h4⟩ := hp
    exact ⟨y, hy, h1, h2, h4, h3, h y hy⟩
  · rw [hs]
    exact ⟨_, List.mem_cons_self, rfl, rfl, rfl, rfl, .inr rfl⟩

/-- Filling a TLB leaves what the others hold, and what it holds already. -/
theorem fillTlb_keeps {old : List TlbE} {s : State} {e : TlbE} (ho : OldOrFilled old e s.mmu.tlb) {j : Nat} (k : Nat)
    (h : HoldsLeaf old e s.mmu.tlb j) : HoldsLeaf old e (fillTlb s e k).mmu.tlb j := by
  by_cases hj : j = k
  · subst hj
    exact fillTlb_holds ho j
  · obtain ⟨-, hs⟩ | ⟨set, w, hs⟩ := fillTlb_cases s e k
    · rw [hs]
      exact h
    · obtain ⟨y, hy, h1, h2⟩ := h
      rw [hs]
      exact ⟨y, List.mem_cons_of_mem _ (List.mem_filter.2 ⟨hy, by simp [h1, hj]⟩), h1, h2⟩

theorem fillPath_holds {old : List TlbE} {e : TlbE} (path : List Nat) {s : State} (ho : OldOrFilled old e s.mmu.tlb) :
    (∀ j, HoldsLeaf old e s.mmu.tlb j → HoldsLeaf old e (fillPath s path e).mmu.tlb j) ∧
      ∀ k ∈ path, HoldsLeaf old e (fillPath s path e).mmu.tlb k := by
  induction path generalizing s with
  | nil => exact ⟨fun _ h => h, by simp⟩
  | cons k path ih =>
    obtain ⟨h1, h2⟩ := ih (fillTlb_oldOrFilled ho k)
    refine ⟨fun j h => h1 j (fillTlb_keeps ho k h), fun j hj => ?_⟩
    obtain rfl | hj := List.mem_cons.1 hj
    · exact h1 _ (fillTlb_holds ho _)
    · exact h2 j hj

theorem fillWalk_tlb (s : State) (e : WalkE) : (fillWalk s e).mmu.tlb = s.mmu.tlb := by
  have h := fillPlace_tlb s 64 ((s.mmu.walkCache.filter fun x => x.walker = e.walker).map (·.place))
  unfold fillWalk
  split
  · rfl
  · dsimp only
    rw [h]

/-- A walk that ends at a leaf has entered it in every TLB on the path (R115). -/
theorem walk_leaf {s v : State} {n : Nat} {root : Bool} {path : List Nat} {asid va size e : Nat}
    (h : walk s n root path asid va = (v, .leaf size e)) : ∀ k ∈ path, ∃ y ∈ v.mmu.tlb, y.tlb = k ∧ y.asid = asid ∧
      y.bitsz = size ∧ y.page = va / 2 ^ size ∧ (y ∈ s.mmu.tlb ∨ y.leaf = BitVec.ofNat 64 e) := by
  have hkeep (l : List WalkE) (s : State) : (l.foldl fillWalk s).mmu.tlb = s.mmu.tlb := by
    induction l generalizing s with
    | nil => rfl
    | cons a l ih => rw [List.foldl_cons, ih, fillWalk_tlb]
  unfold walk at h
  dsimp only at h
  split at h
  · rename_i size' e' hr
    obtain ⟨rfl, hl⟩ := Prod.mk.inj h
    rw [hr] at hl
    cases hl
    refine (fillPath_holds (old := s.mmu.tlb) path ?_).2
    rw [hkeep]
    exact fun y hy => .inl hy
  · rename_i hno
    obtain ⟨-, hl⟩ := Prod.mk.inj h
    exact absurd hl (hno _ _)

/-! ## Fault records -/

theorem nextFault_fid {s : State} {f i : Nat} {r : FaultReq} (h : nextFault s f = some i) (hr : s.mmu.faults[i]? = some r) :
    r.slot = 0xFF ∨ ∃ k, freeFid s f = some k := by
  unfold nextFault at h
  obtain ⟨hi, hp, -⟩ := List.findIdx?_eq_some_iff_getElem.1 h
  rw [List.getElem?_eq_getElem hi] at hr
  cases hr
  simp only [Bool.and_eq_true, Bool.or_eq_true, beq_iff_eq] at hp
  exact hp.2.imp_right Option.isSome_iff_exists.1

/-- A record that has room is put, and its request takes an identifier or goes (R120). -/
structure RecordPut (s : State) (f i : Nat) (r : FaultReq) (t : State) : Prop where
  written : (fnOf t f).faults.written = (fnOf s f).faults.written + 1
  count : t.mmu.faultsCnt = min 0xFFFFFFFF (s.mmu.faultsCnt + 1)
  hub : r.slot = 0xFF → t.mmu.faults = s.mmu.faults.eraseIdx i
  slot : r.slot ≠ 0xFF → ∃ k, freeFid s f = some k ∧ t.mmu.faults = s.mmu.faults.set i { r with fid := some k, written := true }
  only : Only [.fns, .fab, .mmu] s t

/-- The state in which a record has been put, before its interrupt. -/
def faultPut (s : State) (f i : Nat) (r : FaultReq) : State :=
  let fid := if r.slot = 0xFF then 0 else (freeFid s f).getD 0
  let p := ringPut s.fab.host (fnOf s f).faults (faultWord r fid)
  let s := setFn { s with fab := { s.fab with host := p.1 } } f { fnOf s f with faults := p.2.1 }
  { s with mmu := { s.mmu with
      faults := if r.slot = 0xFF then s.mmu.faults.eraseIdx i else s.mmu.faults.set i { r with fid := some fid, written := true }
      faultsCnt := satAdd 0xFFFFFFFF s.mmu.faultsCnt 1 } }

theorem faultSpace_true {s u : State} {f : Nat} (h : faultSpace s f = (u, true)) :
    ∃ r b, u = setFn s f { fnOf s f with faults := r } ∧ r.base = some b ∧ r.written = (fnOf s f).faults.written ∧
      ringFull r r.head = false := by
  unfold faultSpace at h
  dsimp only at h
  split at h
  · cases h
  · rename_i b hb
    obtain ⟨rfl, hf⟩ := Prod.mk.inj h
    refine ⟨_, b, rfl, ?_, ?_, by simpa using hf⟩
    · split <;> exact hb
    · split <;> rfl

theorem ringPut_room {m : Mem} {r : Ring} {v : Nat} {b : W64} (hb : r.base = some b) (h : ringFull r r.head = false) :
    (ringPut m r v).2.1.written = r.written + 1 := by
  unfold ringPut
  rw [hb]
  dsimp only
  have hn : ¬ ringFull r r.head = true := by simp [h]
  rw [if_neg hn, if_neg hn]

theorem faultRecordWrite_put {s : State} {f i : Nat} {r : FaultReq} (hi : nextFault s f = some i)
    (hr : s.mmu.faults[i]? = some r) (hs : (faultSpace s f).2 = true) : RecordPut s f i r (faultRecordWrite s f) := by
  obtain ⟨u, hu⟩ : ∃ u, faultSpace s f = (u, true) := ⟨_, Prod.ext rfl hs⟩
  have hx : faultRecordWrite s f = if (fnOf (faultPut u f i r) f).events.base.isSome then
      raiseMsix (faultPut u f i r) f (fnOf (faultPut u f i r) f).events.vector else faultPut u f i r := by
    rw [faultRecordWrite, hi]
    dsimp only
    rw [hr, hu]
    rfl
  obtain ⟨ring, b, hset, hb, hw, hroom⟩ := faultSpace_true hu
  have hring : (fnOf u f).faults = ring := by rw [hset, fnOf_setFn_same]
  have h1 : (fnOf (faultPut u f i r) f).faults.written = (fnOf s f).faults.written + 1 := by
    have hf : fnOf (faultPut u f i r) f = { fnOf u f with faults := (ringPut u.fab.host (fnOf u f).faults
        (faultWord r (if r.slot = 0xFF then 0 else (freeFid u f).getD 0))).2.1 } := fnOf_setFn_same _ _ _
    rw [hf, hring, ← hw]
    exact ringPut_room hb hroom
  have h2 : Only [.fns, .fab, .mmu] s (faultPut u f i r) := by
    rw [hset]
    exact fun p hp => by cases p <;> first | (simp at hp; done) | rfl
  have h3 : (faultPut u f i r).mmu.faultsCnt = min 0xFFFFFFFF (s.mmu.faultsCnt + 1) := by rw [hset]; rfl
  have h4 : (faultPut u f i r).mmu.faults = if r.slot = 0xFF then s.mmu.faults.eraseIdx i
      else s.mmu.faults.set i { r with fid := some (if r.slot = 0xFF then 0 else (freeFid s f).getD 0), written := true } := by
    rw [hset]
    rfl
  rw [hx]
  generalize faultPut u f i r = v at h1 h2 h3 h4
  have h5 : Only [.fns, .fab] v (if (fnOf v f).events.base.isSome then raiseMsix v f (fnOf v f).events.vector else v) :=
    .ite (fun _ => raiseMsix_only _ _ _) fun _ => .refl _ v
  have h6 : SameFn Fn.placed v (if (fnOf v f).events.base.isSome then raiseMsix v f (fnOf v f).events.vector else v) := by
    split
    · exact raiseMsix_placed _ _ _
    · exact fun _ => rfl
  generalize (if (fnOf v f).events.base.isSome then raiseMsix v f (fnOf v f).events.vector else v) = t at h5 h6
  refine ⟨?_, ?_, fun h => ?_, fun h => ?_, h2.trans (h5.mono (by simp))⟩
  · rw [show (fnOf t f).faults = (fnOf v f).faults from congrArg (·.2.1) (h6 f), h1]
  · rw [h5 .mmu (by decide), h3]
  · rw [h5 .mmu (by decide), h4, if_pos h]
  · obtain ⟨k, hk⟩ := (nextFault_fid hi hr).resolve_left h
    exact ⟨k, hk, by rw [h5 .mmu (by decide), h4, if_neg h, if_neg h, hk]; rfl⟩

/-- The token of an invalidation is written beside the fault ring, where there is one (R125). -/
def invalToken (s : State) (base : Option W64) (token : W32) : State :=
  match base with
  | some b => hostWrite s (b.toNat + 8) (toLE 4 token.toNat)
  | none => s

/-- What a walk does once it has its leaf, or finds none (R115, R119). -/
def walked (s : State) (x : Walk) : State :=
  if (ctxOf s x.asid).isNone then s
  else match walk s x.walker x.fromRoot (tlbPath s x.site) x.asid x.va.toNat with
  | (s, .leaf size e) =>
    (match checkLeaf s (walkWho x) x.acc x.va.toNat size e with
    | .bad => markLost s x.asid 0x01
    | _ => s)
  | (s, .absent) => raiseFault s (walkWho x) x.acc x.va.toNat
  | (s, .bad) => markLost s x.asid 0x01

theorem walk_caches {s v : State} {n : Nat} {root : Bool} {path : List Nat} {asid va : Nat} {r : WalkRes}
    (h : walk s n root path asid va = (v, r)) : Cached s v := by
  have hc := walk_cached s n root path asid va
  rwa [h] at hc

theorem walked_leaf {s v : State} {x : Walk} {size e : Nat} (hc : (ctxOf s x.asid).isSome = true)
    (hw : walk s x.walker x.fromRoot (tlbPath s x.site) x.asid x.va.toNat = (v, .leaf size e))
    (hk : checkLeaf v (walkWho x) x.acc x.va.toNat size e ≠ .bad) : walked s x = v := by
  rw [walked, if_neg (by simp [Option.isSome_iff_ne_none.1 hc]), hw]
  dsimp only
  split
  · exact absurd ‹_› hk
  · rfl

theorem walked_absent {s v : State} {x : Walk} (hc : (ctxOf s x.asid).isSome = true)
    (hw : walk s x.walker x.fromRoot (tlbPath s x.site) x.asid x.va.toNat = (v, .absent)) :
    walked s x = raiseFault v (walkWho x) x.acc x.va.toNat := by
  rw [walked, if_neg (by simp [Option.isSome_iff_ne_none.1 hc]), hw]

/-- The request that an absent page raises for a slot's access, the first for its page (R119). -/
theorem raiseFault_new {s : State} {w : Who} {n : Nat} (k : AccessKind) (va : Nat) (hn : w.slot = some n)
    (hs : s.mmu.faults.any (sameRequest s w va) = false) : ∃ r : FaultReq, raiseFault s w k va =
      { s with mmu := { s.mmu with faults := s.mmu.faults ++ [r] } } ∧ r.fid = none ∧ r.handle = ctxHandle s w.asid ∧
      r.page = va / 65536 ∧ r.acc = k ∧ r.unit = siteCode w.site ∧ r.slot = n ∧ r.written = false := by
  unfold raiseFault
  dsimp only
  rw [hn]
  dsimp only
  rw [hs, if_neg (by simp)]
  exact ⟨_, rfl, rfl, rfl, rfl, rfl, rfl, rfl, rfl⟩

end Sys2Proof.Machine

open Sys2Proof Sys2Proof.Machine

/-- Settles O41: by what each walk finds, and by the record that each answer names. -/
theorem walksFaultsAndInvalidations : Obligations.WalksFaultsAndInvalidations := by
  refine ⟨fun s id stall err x hx he => ?_, fun s f i r hi hr => ?_, fun s f fid i r hb hi hr => ?_,
    fun s f h token c x hb hn hx hf => ?_, fun s f i v hm hi hv ht => ?_⟩
  · have hex : exec (.pageWalkComplete ⟨id, err⟩ stall) s = .next (pageWalkComplete s id stall) := by
      cases err <;> first | rfl | exact absurd rfl he
    rw [pageWalkComplete, hx] at hex
    dsimp only at hex
    refine ⟨fun ha => ?_, fun ha hc => ?_⟩
    · rw [hex, if_pos ha]
    · intro w b0 b path
      rw [if_neg (by simp [ha])] at hex
      obtain ⟨q, r, hq⟩ : ∃ q r, b = { s with mmu := { s.mmu with walks := tdel s.mmu.walks id }, flt := q, car := r } := by
        have h0 : ∃ q, b0 = { s with mmu := { s.mmu with walks := tdel s.mmu.walks id }, flt := q } := by
          unfold b0 moves
          split <;> exact ⟨_, rfl⟩
        obtain ⟨q, h0⟩ := h0
        unfold b
        rw [h0]
        cases w.slot with
        | none => exact ⟨_, _, rfl⟩
        | some n =>
          obtain ⟨r, h⟩ := addStall_car { s with mmu := { s.mmu with walks := tdel s.mmu.walks id }, flt := q } n .walker stall
          exact ⟨q, r, h⟩
      change exec (.pageWalkComplete ⟨id, err⟩ stall) s = .next (walked b x) at hex
      have hcb : ctxOf b x.asid = ctxOf s x.asid := by rw [hq]; rfl
      have hgone : tget b.mmu.walks id = none := by rw [hq]; exact tget_tdel_same _ _
      have hbs : Only [.mmu, .car, .flt, .free] s b := by
        rw [hq]
        exact fun p hp => by cases p <;> first | (simp at hp; done) | rfl
      have htlb : b.mmu.tlb = s.mmu.tlb ∧ b.mmu.faults = s.mmu.faults := by rw [hq]; exact ⟨rfl, rfl⟩
      clear_value b
      rw [← hcb] at hc
      refine ⟨fun v size e hv hk => ?_, fun v n hv hn hs => ?_⟩
      · rw [walked_leaf hc hv hk] at hex
        obtain ⟨l, wc, m, hcv⟩  := walk_caches hv
        have htl := walk_leaf hv
        rw [htlb.1] at htl
        refine ⟨v, hex, rfl, ?_, ?_, htl, ?_⟩
        · rw [hcv]
          exact hgone
        · rw [hcv]
          exact htlb.2
        · rw [hcv]
          exact hbs.trans fun p hp => by cases p <;> first | (simp at hp; done) | rfl
      · obtain ⟨l, wc, m, hcv⟩  := walk_caches hv
        have hf : v.mmu.faults = s.mmu.faults := by rw [hcv]; exact htlb.2
        have hob : v.obj = s.obj := by rw [hcv]; exact hbs .obj (by decide)
        have hh : ctxHandle v x.asid = ctxHandle s x.asid := by rw [ctxHandle, hob, ctxHandle]
        have hany : v.mmu.faults.any (sameRequest v w x.va.toNat) = false := by
          have : sameRequest v w x.va.toNat = sameRequest s w x.va.toNat := by
            funext f
            show (_ && _ && _) = (_ && _ && _)
            rw [show ctxHandle v w.asid = ctxHandle s w.asid from hh]
          rw [hf, this, hs]
        obtain ⟨q, hr, h1, h2, h3, h4, h5, h6, h7⟩ := raiseFault_new x.acc x.va.toNat hn hany
        rw [walked_absent hc hv, hr] at hex
        refine ⟨_, hex, ?_, ?_, q, by rw [← hf], h1, h2.trans hh, h3, h4, h5, h6, h7⟩
        · rw [hcv]
          exact hgone
        · refine hbs.trans ?_
          rw [hcv]
          exact fun p hp => by cases p <;> first | (simp at hp; done) | rfl
  · intro wrote
    have hw {t : State} (h : RecordPut s f.val i r t) : wrote t := ⟨h.written, h.count, h.hub, h.slot, h.only⟩
    refine ⟨fun hs => ⟨_, rfl, hw (faultRecordWrite_put hi hr hs)⟩, fun b hb hs => ?_⟩
    let x := fnOf s f.val
    have hx : exec (.faultHeadPoll f) s = .next (faultRecordWrite (setFn s f.val { x with faults := { x.faults with
        head := mnat s.fab.host b.toNat 4 } }) f.val) := by
      change Host.Outcome.next (faultHeadPoll s f.val) = _
      rw [faultHeadPoll, hb, hi]
    have hput := faultRecordWrite_put (s := setFn s f.val { x with faults := { x.faults with head := mnat s.fab.host b.toNat 4 } })
      hi hr hs
    refine ⟨_, hx, hw ⟨?_, hput.count, hput.hub, hput.slot, (Only.trans ((setFn_only s _ _).mono (by simp)) hput.only)⟩⟩
    rw [hput.written, fnOf_setFn_same]
  · refine ⟨?_, fun c x hl hx ha => ?_⟩
    · change Host.Outcome.next (faultAnswer s f.val 1 fid.toNat) = _
      rw [faultAnswer, if_neg (by simp [hb]), hi]
      dsimp only
      rw [hr]
      rfl
    · have hex : exec (.faultNotMapped f fid) s =
          .next (markLost { s with mmu := { s.mmu with faults := s.mmu.faults.eraseIdx i } } c 0x01) := by
        change Host.Outcome.next (faultAnswer s f.val 2 fid.toNat) = _
        rw [faultAnswer, if_neg (by simp [hb]), hi]
        dsimp only
        rw [hr]
        dsimp only
        rw [if_neg (by decide), if_pos rfl, hl]
      have ho : Only lossParts s { s with mmu := { s.mmu with faults := s.mmu.faults.eraseIdx i } } :=
        fun p hp => by cases p <;> first | (simp [lossParts] at hp; done) | rfl
      exact ⟨_, hex, (markLost_active (s := { s with mmu := { s.mmu with faults := s.mmu.faults.eraseIdx i } }) hx ha 0x01).2.1,
        (markLost_fab _ _ _).2, ho.trans (markLost_only _ _ _)⟩
  · have hex : exec (.mmuInval f h token) s = .next { s with mmu := { dropAsid s.mmu c with
        invals := (dropAsid s.mmu c).invals ++ [{ func := f.val, asid := c, token := token, before := s.fab.nextTxn }] } } := by
      change Host.Outcome.next (mmuInval s f.val h.toNat token) = _
      rw [mmuInval, if_neg (by simp [hb]), hn]
      dsimp only
      rw [if_neg (by simp [hx, hf])]
    refine ⟨_, hex, fun e he => ?_, fun e he => ?_, fun e he hc => ?_, rfl, fun p hp => by
      cases p <;> first | (simp at hp; done) | rfl⟩
    · simpa using (List.mem_filter.1 he).2
    · simpa using (List.mem_filter.1 he).2
    · exact List.mem_filter.2 ⟨he, by simpa using hc⟩
  · have hex : exec (.invalDone f) s = .next (invalToken (setFn { s with mmu := { s.mmu with invals := s.mmu.invals.eraseIdx i } }
        f.val { fnOf s f.val with invalTok := v.token }) (fnOf s f.val).faults.base v.token) := by
      change Host.Outcome.next (invalDone s f.val) = _
      rw [invalDone, hi]
      dsimp only
      rw [hv]
      dsimp only
      rw [if_neg (by simp [ht])]
      cases (fnOf s f.val).faults.base <;> rfl
    refine ⟨_, hex, ?_⟩
    cases hbase : (fnOf s f.val).faults.base with
    | none =>
      exact ⟨by simp [invalToken], rfl, by simp, fun p hp => by cases p <;> first | (simp at hp; done) | rfl⟩
    | some b =>
      refine ⟨?_, rfl, fun b' hb' => ?_, fun p hp => by cases p <;> first | (simp at hp; done) | rfl⟩
      · change (fnOf (setFn _ f.val _) f.val).invalTok = _
        rw [fnOf_setFn_same]
      · cases hb'
        have h := mread_mwrite ((memOk_iff s).1 hm).2.1 (b.toNat + 8) (toLE 4 v.token.toNat)
        rwa [toLE_length] at h
end

section
/-! Proofs: the records of a queue; RETRY and SKIP, fetchers, and the arming of taken descriptors (spec/05 R137 to R148). -/

namespace Sys2Proof.Machine

/-! ## Records of a queue -/

/-- A queue put in its place is read back; the window's takes the window's context. -/
theorem getQ_putQ (s : State) (q : Nat) (x : Queue) : ∃ c, getQ (putQ s q x) q = some { x with ctx := c } := by
  by_cases h : q = winKey
  · refine ⟨winCtx (putQ s q x), ?_⟩
    rw [getQ, if_pos h, h]
    simp [tgetD]
  · exact ⟨x.ctx, by simp [getQ, if_neg h]⟩

theorem getQ_putQ_other {s : State} {q k : Nat} (x : Queue) (hk : k ≠ q) (hw : k ≠ winKey) : getQ (putQ s q x) k = getQ s k := by
  rw [getQ, if_neg hw, getQ, if_neg hw]
  exact tget_tset_other _ _ hk

/-- What a queue is read from: the objects, and for the window its context. -/
theorem getQ_congr {s t : State} (h : t.obj.queues = s.obj.queues) {q : Nat} (hq : q ≠ winKey ∨ winCtx t = winCtx s) :
    getQ t q = getQ s q := by
  rcases hq with hq | hq
  · rw [getQ, getQ, if_neg hq, if_neg hq, h]
  · rw [getQ, getQ, h, hq]

theorem winCtx_congr {s t : State} (ho : t.obj = s.obj) (hr : t.regs = s.regs) : winCtx t = winCtx s := by
  unfold winCtx slotOwner active
  rw [ho, hr]

theorem getQ_same {s t : State} (ho : t.obj = s.obj) (hr : t.regs = s.regs) (q : Nat) : getQ t q = getQ s q :=
  getQ_congr (by rw [ho]) (.inr (winCtx_congr ho hr))

theorem recOf_idx {x : Queue} {i : W32} {d : Desc} (h : recOf x i = some d) : d.idx = i := by
  simpa using List.find?_some h

theorem recOf_mem {x : Queue} {i : W32} {d : Desc} (h : recOf x i = some d) : d ∈ x.recs := List.mem_of_find?_eq_some h

theorem recOf_congr {x y : Queue} (h : y.recs = x.recs) (i : W32) : recOf y i = recOf x i := by rw [recOf, h, recOf]

/-- A record put in its place is read back, and every other stays. -/
theorem recOf_setRec {x : Queue} {i : W32} {d e : Desc} (h : recOf x i = some d) (he : e.idx = i) :
    recOf (setRec x e) i = some e := by
  unfold recOf setRec at *
  rw [List.find?_map]
  have hf : ((fun d : Desc => decide (d.idx = i)) ∘ fun d : Desc => if d.idx = e.idx then e else d) = fun d => decide (d.idx =
      i) := by
    funext a
    simp only [Function.comp]
    split <;> simp_all
  rw [hf, h, Option.map_some, if_pos (by simpa [he] using List.find?_some h)]

theorem recOf_setRec_other {x : Queue} {i : W32} {e : Desc} (he : e.idx ≠ i) : recOf (setRec x e) i = recOf x i := by
  unfold recOf setRec
  rw [List.find?_map]
  have hf : ((fun d : Desc => decide (d.idx = i)) ∘ fun d : Desc => if d.idx = e.idx then e else d) = fun d => decide (d.idx =
      i) := by
    funext a
    simp only [Function.comp]
    split <;> simp_all
  rw [hf]
  cases hd : x.recs.find? fun d => decide (d.idx = i) with
  | none => rfl
  | some d =>
    have : d.idx = i := by simpa using List.find?_some hd
    rw [Option.map_some, if_neg (by rw [this]; exact fun h => he h.symm)]

theorem putRec_eq {s : State} {q : Nat} {x : Queue} (h : getQ s q = some x) (d : Desc) : putRec s q d = putQ s q (setRec x d) := by
  rw [putRec, h]

/-- A record put in a queue that holds its index stands there. -/
theorem putRec_rec {s : State} {q : Nat} {x : Queue} {i : W32} {d e : Desc} (h : getQ s q = some x) (hd : recOf x i = some d)
    (he : e.idx = i) : ∃ c, getQ (putRec s q e) q = some { setRec x e with ctx := c } ∧
      recOf { setRec x e with ctx := c } i = some e := by
  rw [putRec_eq h]
  obtain ⟨c, hc⟩ := getQ_putQ s q (setRec x e)
  exact ⟨c, hc, recOf_setRec hd he⟩

theorem putRec_only (s : State) (q : Nat) (d : Desc) : Only [.obj] s (putRec s q d) := by
  unfold putRec
  split
  · exact .refl _ s
  · exact putQ_only _ _ _

/-- Retiring leaves a queue's settings, and only removes records. -/
theorem retireLoop_keeps (n : Nat) (x : Queue) : ∃ r l, retireLoop n x = { x with retired := r, recs := l } ∧ ∀ d ∈ l, d ∈
    x.recs := by
  induction n generalizing x with
  | zero => exact ⟨_, _, rfl, fun _ h => h⟩
  | succ n ih =>
    rw [retireLoop]
    split
    · split
      · obtain ⟨r, l, he, hl⟩ := ih { x with retired := x.retired + 1, recs := x.recs.filter fun e => e.idx ≠ _ }
        exact ⟨r, l, he, fun d h => (List.mem_filter.1 (hl d h)).1⟩
      · exact ⟨_, _, rfl, fun _ h => h⟩
    · exact ⟨_, _, rfl, fun _ h => h⟩

/-! ## The resume actions (R137, R148) -/

theorem qResume_halted {s : State} {f q : Nat} {x : Queue} {gen : BitVec 16} (hb : bar2Ok s = true)
    (hx : tget s.obj.queues q = some x) (hf : x.func = f) (hg : gen.toNat = genOf s.obj 2 q) (hh : x.st = .halted) (a : Nat) :
    qResume s f q 8 8 gen a = setQueue s q { x with resume := some a } := by
  rw [qResume, hx]
  simp only
  rw [if_neg (by rw [hb]; simp [hf]), if_neg (by simp), if_neg (by rw [hh]; simp [hg])]
  rfl

/-- A queue that a SKIP resumes: the halted record is ended, and those after it are taken again. -/
def skipped (x : Queue) : Queue :=
  let y := retryFrom { x with recs := x.recs.map fun d => if d.idx = x.haltIdx then { d with stage := .ended 0 } else d }
      (x.haltIdx + 1)
  retireLoop y.recs.length y

theorem skipped_leaves (x : Queue) : (skipped x).st = .active ∧ (skipped x).resume = none ∧ (skipped x).haltStatus = 0 ∧
    (skipped x).tail = x.tail ∧ ∀ d ∈ (skipped x).recs, d.idx = x.haltIdx → d.stage = .ended 0 := by
  unfold skipped
  dsimp only
  generalize hy : retryFrom { x with
    recs := x.recs.map fun d => if d.idx = x.haltIdx then { d with stage := .ended 0 } else d } (x.haltIdx + 1) = y
  obtain ⟨r, l, he, hl⟩ := retireLoop_keeps y.recs.length y
  rw [he]
  subst hy
  refine ⟨rfl, rfl, rfl, rfl, fun d hd hi => ?_⟩
  obtain ⟨e, -, rfl⟩ := List.mem_map.1 (List.mem_filter.1 (hl d hd)).1
  by_cases h : e.idx = x.haltIdx
  · rw [if_pos h]
  · rw [if_neg h] at hi
    exact absurd hi h

/-- A window queue that a SKIP resumes gives up the words of the records that it retired. -/
def skipTo (s : State) (q : Nat) (y : Queue) : State :=
  if q = winKey then { putQ s q y with
    fe := { s.fe with acv := { s.fe.acv with ring := s.fe.acv.ring.filter fun e => ringDist y e.1 < 2 ^ 31 } } }
  else putQ s q y

theorem skipTo_leaves (s : State) (q : Nat) (y : Queue) :
    (skipTo s q y).obj = (putQ s q y).obj ∧ (skipTo s q y).regs = s.regs ∧ Only [.obj, .fe] s (skipTo s q y) := by
  unfold skipTo
  split
  · exact ⟨rfl, rfl, fun p hp => by cases p <;> first | (simp at hp; done) | rfl⟩
  · exact ⟨rfl, rfl, (putQ_only s q y).mono (by simp)⟩

theorem resumeEffect_eq {s : State} {q : Nat} {x : Queue} {a : Nat} (hx : getQ s q = some x) (hr : x.resume = some a)
    (hh : x.st = .halted) (hn : x.recs.any (inFlight x) = false) :
    resumeEffect s q = if a = 1 then putQ s q (retryFrom x x.haltIdx) else skipTo s q (skipped x) := by
  rw [resumeEffect, hx]
  simp only [hr]
  rw [if_neg (by rw [hh, hn]; simp)]
  rfl

/-! ## Fetchers (R140, R141, R146) -/

/-- A record entered in ring order is the only one at its index. -/
theorem recOf_insertRec (x : Queue) (d : Desc) : recOf (insertRec x d) d.idx = some d := by
  have hl : (x.recs.filter fun e => decide (ringDist x e.idx < ringDist x d.idx)).find? (fun e => e.idx = d.idx) = none := by
    rw [List.find?_eq_none]
    intro e he hi
    obtain ⟨-, h⟩ := List.mem_filter.1 he
    rw [show e.idx = d.idx by simpa using hi] at h
    simp at h
  rw [recOf, insertRec, List.append_assoc, List.find?_append, hl]
  simp

/-- What the charge of a taken descriptor leaves of its queue, and whether it is best-effort work (R155). -/
theorem charge_leaves (x : Queue) (i : W32) (w : W512) : (charge x i w).1.tail = x.tail ∧ (charge x i w).1.retired = x.retired ∧
    (charge x i w).1.st = x.st ∧ (x.rt = false → (charge x i w).2.1 = true) ∧
    (x.rt = true → (charge x i w).2.1 = true → (charge x i w).1.demoted = true) := by
  unfold charge
  by_cases hr : x.rt = true
  · rw [if_neg (by simp [hr])]
    split
    · exact ⟨rfl, rfl, rfl, by simp [hr], fun _ h => by simp at h⟩
    · generalize chargeOf x w = ch
      obtain ⟨c, h⟩ := ch
      dsimp only
      split
      · exact ⟨rfl, rfl, rfl, by simp [hr], fun _ _ => rfl⟩
      · exact ⟨rfl, rfl, rfl, by simp [hr], fun _ h => by simp at h⟩
  · rw [if_pos (by simpa using hr)]
    exact ⟨rfl, rfl, rfl, fun _ => rfl, fun h => absurd h hr⟩

theorem readDesc_some {s u : State} {q : Nat} {x : Queue} {i : W32} {w : W512} (h : readDesc s q x i = (u, some w)) :
    Only [.mmu, .fab, .free] s u := by
  unfold readDesc at h
  split at h
  · obtain ⟨rfl, -⟩ := Prod.mk.inj h
    exact .refl _ s
  · split at h
    · rename_i s' n hv
      cases h
      unfold vnat at hv
      split at hv
      · rename_i b hb
        cases hv
        exact vread_some hb
      · cases hv
    · cases h

theorem noteTake_leaves (s : State) (q : Nat) (i : W32) (w : W512) : (noteTake s q i w).obj = s.obj ∧
    (noteTake s q i w).regs = s.regs ∧ Only [.fe] s (noteTake s q i w) := by
  unfold noteTake
  split
  · exact ⟨rfl, rfl, .refl _ s⟩
  · exact ⟨rfl, rfl, fun p hp => by cases p <;> first | (simp at hp; done) | rfl⟩

/-- A queue with the descriptor that was taken entered in it. -/
def taken (s : State) (x : Queue) (w : W512) : Queue :=
  insertRec (charge x (nextIndex x) w).1 (newDesc (nextIndex x) w (charge x (nextIndex x) w).2.1 (charge x (nextIndex x) w).2.2.1
    (charge x (nextIndex x) w).2.2.2 s.hoop.tick)

theorem takeFrom_eq {s u : State} {q : Nat} {x : Queue} {w : W512} (hx : getQ s q = some x) (hc : ctxActive s x.ctx = true)
    (hr : readDesc s q x (nextIndex x) = (u, some w)) :
    takeFrom s q = noteTake (putQ u q (taken u x w)) q (nextIndex x) w := by
  have hu := readDesc_some hr
  have hxu : getQ u q = some x := by rw [getQ_same (hu .obj (by decide)) (hu .regs (by decide)), hx]
  unfold takeFrom
  rw [hx]
  simp only [hc, hr, hxu]
  rfl

/-- A fetcher that takes best-effort work passes its token on. -/
theorem descriptorTake_eq {s : State} {f : Fetcher} {q : Nat} (hf : fetcherReady s f = true) (hq : chooseQueue s f = some q)
    (hd : ∀ d ∈ fetcherDoms f, IsOn s d) : ∃ k, descriptorTake s f =
      { takeFrom s q with fe := { (takeFrom s q).fe with tokens := k } } := by
  unfold descriptorTake
  rw [if_neg (by simp [hf]), hq]
  simp only [reachDoms_on hd 2]
  generalize takeFrom s q = t
  split
  · split
    · exact ⟨t.fe.tokens, rfl⟩
    · exact ⟨_, rfl⟩
  · exact ⟨_, rfl⟩

/-! ## Arming (R143 to R147) -/

/-- A taken descriptor that is armed without a check of its block takes its WAITCH token. -/
theorem armNow_plain {s : State} {q : Nat} {d : Desc} (x : Queue) (hk : knownOp (bits d.words 7 0) = true)
    (hc : armChecked (bits d.words 7 0) = false) : armNow s q x d = putRec s q { d with stage := .armed } := by
  unfold armNow
  dsimp only
  rw [if_neg (by rw [hk]; simp), if_pos (by rw [hc]; rfl)]

end Sys2Proof.Machine

open Sys2Proof Sys2Proof.Machine

/-- Settles O43: the resume actions, the fetcher's take and the arming each put one queue, whose records are read back. -/
theorem queuesResumeTakeAndArm : Obligations.QueuesResumeTakeAndArm := by
  refine ⟨fun s f q x gen hb hx hf hg hh => ⟨?_, ?_⟩, fun s q x a hx hr hh hn => ⟨_, rfl, ?_⟩,
    fun s u f q x w hf hq hd hx hc hr => ⟨_, rfl, ?_⟩, fun s q i x d hx hd hs => ?_⟩
  · exact congrArg _ (qResume_halted hb hx hf hg hh 1)
  · exact congrArg _ (qResume_halted hb hx hf hg hh 2)
  · beta_reduce
    rw [resumeEffect_eq hx hr hh hn]
    by_cases ha : a = 1
    · rw [if_pos ha]
      obtain ⟨c, hc⟩ := getQ_putQ s q.val (retryFrom x x.haltIdx)
      refine ⟨_, hc, rfl, rfl, rfl, rfl, fun _ => ⟨rfl, fun d => ?_⟩, fun h => absurd ha h, fun m hm => tget_tset_other _ _ hm,
        (putQ_only _ _ _).mono (by simp)⟩
      simp [retryFrom, List.mem_filter]
    · rw [if_neg ha]
      obtain ⟨h1, h2, h3, h4, h5⟩ := skipped_leaves x
      obtain ⟨ho, hreg, honly⟩ := skipTo_leaves s q.val (skipped x)
      obtain ⟨c, hc⟩ := getQ_putQ s q.val (skipped x)
      refine ⟨_, (getQ_same ho hreg _).trans hc, h1, h2, h3, h4, fun h => absurd h ha,
        fun _ d hd => h5 d (recOf_mem hd) (recOf_idx hd), fun m hm => ?_, honly⟩
      rw [ho]
      exact tget_tset_other _ _ hm
  · beta_reduce
    obtain ⟨k, hk⟩ := descriptorTake_eq hf hq hd
    have hu := readDesc_some hr
    rw [hk, takeFrom_eq hx hc hr]
    obtain ⟨c1, c2, c3, c4, c5⟩ := charge_leaves x (nextIndex x) w
    obtain ⟨n1, n2, n3⟩ := noteTake_leaves (putQ u q (taken u x w)) q (nextIndex x) w
    obtain ⟨c, hy⟩ := getQ_putQ u q (taken u x w)
    have hrec : recOf (taken u x w) (nextIndex x) = some _ := recOf_insertRec _ _
    generalize noteTake (putQ u q (taken u x w)) q (nextIndex x) w = t at n1 n2 n3
    refine ⟨_, _, (getQ_same n1 n2 _).trans hy, hrec, rfl, rfl, c1, c2, c3, c4, c5, fun m hm => ?_, ?_⟩
    · change tget t.obj.queues m = _
      rw [n1, putQ_obj, hu .obj (by decide)]
      exact tget_tset_other _ _ hm
    · have ht : Only [.fe] t { t with fe := { t.fe with tokens := k } } := fun p hp => by
        cases p <;> first | (simp at hp; done) | rfl
      exact (hu.mono (by simp)).trans (((putQ_only u q _).mono (by simp)).trans ((n3.mono (by simp)).trans (ht.mono (by simp))))
  · intro earlier he held
    have hi : d.idx = i := recOf_idx hd
    have hguard : ¬((!(decide (d.stage = .taken ∨ d.stage = .held))) = true ∨ (earlier.any fun e => e.stage = .taken) = true ∨
        d.stage = .held ∧ ((!isOpen s) = true ∨ x.st ≠ .active)) := by
      rw [he, hs]
      simp
    have hheld : held = true ↔ (heldList (tokensOf x) earlier false false).any (·.2) = true ∨
        (bit d.words 10 = true ∧ (!d.token) = true ∧ tokensOf x = 0) ∨
        (bit d.words 11 = true ∧ (earlier.any fun e => !isEnded e) = true) := by
      simp only [held, Bool.or_eq_true, Bool.and_eq_true, beq_iff_eq, and_assoc, or_assoc]
    have harm : descriptorArm s q.val i = if held = true then putRec s q.val { d with stage := .held } else
        if bit d.words 10 ∧ !d.token then
          armNow (putQ s q.val (setRec { x with tokens := x.tokens - 1 } { d with token := true })) q.val
            (setRec { x with tokens := x.tokens - 1 } { d with token := true }) { d with token := true }
        else armNow s q.val x d := by
      unfold descriptorArm
      rw [hx]
      simp only [hd]
      rw [if_neg hguard, if_congr hheld.symm rfl rfl]
    refine ⟨fun h => ⟨_, rfl, ?_⟩, fun h hk hc => ⟨_, rfl, ?_⟩⟩
    · beta_reduce
      rw [harm, if_pos h]
      obtain ⟨c, hy, hr⟩ := putRec_rec (e := { d with stage := .held }) hx hd hi
      exact ⟨_, _, hy, hr, rfl, rfl, putRec_only _ _ _⟩
    · beta_reduce
      rw [harm, if_neg (by simp [h])]
      by_cases ht : bit d.words 10 = true ∧ (!d.token) = true
      · rw [if_pos ht, armNow_plain (d := { d with token := true }) _ hk hc]
        obtain ⟨c, hy⟩ := getQ_putQ s q.val (setRec { x with tokens := x.tokens - 1 } { d with token := true })
        have hy2 : recOf { setRec { x with tokens := x.tokens - 1 } { d with token := true } with ctx := c } i = some _ :=
          recOf_setRec (x := { x with tokens := x.tokens - 1 }) hd hi
        obtain ⟨c', hz, hr⟩ := putRec_rec (e := { { d with token := true } with stage := .armed }) hy hy2 hi
        refine ⟨_, _, hz, hr, rfl, rfl, fun _ => rfl, ?_, (putQ_only _ _ _).trans (putRec_only _ _ _)⟩
        rw [if_pos (by simpa using ht)]
        rfl
      · rw [if_neg ht, armNow_plain _ hk hc]
        obtain ⟨c', hz, hr⟩ := putRec_rec (e := { d with stage := .armed }) hx hd hi
        refine ⟨_, _, hz, hr, rfl, rfl, fun hb => ?_, ?_, putRec_only _ _ _⟩
        · simpa [hb] using ht
        · rw [if_neg (by simpa using ht)]
          rfl
end

section
/-! Proofs: a SIGNAL whose fence fires an event that takes the number of its context (spec/03 R94, spec/07 R204). -/

namespace Sys2Proof.Machine

/-- A context index past the 16 bits that a handle holds: the generation of the event at index 0 and that of this context are one
entry of the generations. -/
def farCtx : Nat := 3 * 65536

/-- The words of a SIGNAL of the fence at index 0 with the value 1. -/
def farWords : W512 := BitVec.ofNat 512 (0x02 + mkHandle 3 0 0 0 * 2 ^ 128 + 1 * 2 ^ 192)

/-- A queue of that context with the SIGNAL armed. -/
def farQueue : Queue :=
  { Queue.window with
    ctx := farCtx, cls := 0, recs := [{ newDesc 0 farWords true 0 0 0 with stage := .armed }] }

/-- A machine whose slot 0 is owned by that context and holds a dirty line, with an event that the SIGNAL fires. -/
def farState : State :=
  { State.reset with
    hoop := { Hoop.reset with phase := .opened, running := true }
    regs := { State.reset.regs with active := [(oOwner 0, BitVec.ofNat 64 (mkHandle 1 0 0 farCtx))] }
    obj := { Objects.reset with
      ctxs := [(farCtx, { func := 0, st := .active, reason := 0, root := 0, standbyRoot := 0, standbySlot := 0xFF })]
      queues := [(0, farQueue)]
      fences := [(0, { func := 0, ctx := farCtx, value := 0, shared := false, lost := false, stale := 0, mirror := 0 })]
      events := [(0, { func := 0, ctx := farCtx, fence := 0, v := 1, step := 0 })] }
    fab := { Fabric.reset with lines := [{ slice := 0, way := 0, addr := 0, slot := 0, data := [], dirty := [true] }] } }

theorem farState_begins : (beginWork farState 0 0 none 0x02).2 = .go farQueue farWords true := by decide +kernel

theorem farState_fence : fenceFor (beginWork farState 0 0 none 0x02).1 farQueue.ctx (bits farWords 159 128) = some 0 ∧
    (tget (beginWork farState 0 0 none 0x02).1.obj.fences 0).isSome = true := by decide +kernel

/-- The SIGNAL's slot has a line to clean before it. -/
theorem farState_slot : queueSlot (beginWork farState 0 0 none 0x02).1 0 farQueue = some 0 ∧
    mustClean (beginWork farState 0 0 none 0x02).1 0 = true := by decide +kernel

/-- The event that fires changes the generation by which the slot knows its context: the queue has no slot any more, and the
descriptor is retired at once, with no clean begun. -/
theorem farState_signal : ((getQ (startSignal farState 0 0 none) 0).bind fun y => recOf y 0) = none := by decide +kernel

end Sys2Proof.Machine

open Sys2Proof Sys2Proof.Machine

/-- Refutes O44: with a context at an index past those that R62 allows, the SIGNAL's event changes the context's handle, so that
the descriptor's clean, which the slot still needed when it began, is not made. -/
theorem not_controlWorkEnds : ¬ Obligations.ControlWorkEnds := by
  rintro ⟨-, hsignal, -⟩
  have hb := farState_begins
  obtain ⟨hf, hy⟩ := farState_fence
  obtain ⟨hs, hm⟩ := farState_slot
  have hgone := farState_signal
  obtain ⟨y, hy⟩ := Option.isSome_iff_exists.1 hy
  rcases hw : beginWork farState 0 0 none 0x02 with ⟨u, b⟩
  rw [hw] at hb hf hy hs hm
  obtain rfl : b = _ := hb
  obtain ⟨t, ht, hend, -⟩ := hsignal farState u ⟨0, 0, none⟩ farQueue farWords true 0 y hw hf hy
  obtain ⟨x, d, hx, hd, -⟩ := (hend.2 0 hs hm).1
  rw [show startSignal farState 0 0 none = t from Host.Outcome.next.inj ht, show getQ t 0 = some x from hx,
    Option.bind_some, show recOf x 0 = some d from hd] at hgone
  cases hgone
end

section
/-! Proofs: the end of a descriptor and of a graph node (spec/03 R101, spec/05 R151, spec/07 R204). -/

namespace Sys2Proof.Machine

/-! ## What a signal and a chain token leave of queues and launches -/

/-- What a signal leaves of a queue. -/
def Queue.view (x : Queue) : Nat × QState × List (W32 × Stage) := (x.completed, x.st, x.recs.map fun d => (d.idx, d.stage))

/-- What a signal leaves of a launch's nodes. -/
def Node.view (n : Node) : Nat × Nat × Stage := (n.arrivals, n.npred, n.d.stage)

def Launch.view (l : Launch) : Nat × W32 × Option Nat × Tbl (Nat × Nat × Stage) :=
  (l.q, l.i, l.fail, l.nodes.map fun e => (e.1, e.2.view))

/-- Queues keep their counts and the stages of their records, launches their nodes' stages and arrivals. -/
structure Released (s t : State) : Prop where
  queues : ∀ q, (getQ t q).map Queue.view = (getQ s q).map Queue.view
  launches : t.obj.launches.map Launch.view = s.obj.launches.map Launch.view
  only : Only endParts s t

theorem Released.refl (s : State) : Released s s := ⟨fun _ => rfl, rfl, .refl _ s⟩

theorem Released.trans {s t u : State} (h : Released s t) (h' : Released t u) : Released s u :=
  ⟨fun q => (h'.queues q).trans (h.queues q), h'.launches.trans h.launches, h.only.trans h'.only⟩

/-- A queue's view depends on its table entry alone. -/
theorem getQ_view (s : State) (q : Nat) : (getQ s q).map Queue.view = if q = winKey then
    some ((tgetD s.obj.queues winKey Queue.window).view) else (tget s.obj.queues q).map Queue.view := by
  rw [getQ]
  split <;> rfl

theorem releaseDesc_stage (f : Nat) (v : W64) (d : Desc) : (releaseDesc f v d).stage = d.stage := by
  unfold releaseDesc
  split <;> rfl

theorem releaseWaits_queues (o : Objects) (f : Nat) (v : W64) (q : Nat) :
    (tget (releaseWaits o f v).queues q).map Queue.view = (tget o.queues q).map Queue.view := by
  have h (x : Queue) : Queue.view { x with recs := x.recs.map (releaseDesc f v) } = x.view := by
    simp [Queue.view, Function.comp_def, releaseDesc_idx, releaseDesc_stage]
  rw [releaseWaits, tget_tmap]
  cases tget o.queues q with
  | none => rfl
  | some x => exact congrArg some (h x)

theorem releaseWaits_launches (o : Objects) (f : Nat) (v : W64) :
    (releaseWaits o f v).launches.map Launch.view = o.launches.map Launch.view := by
  rw [releaseWaits, List.map_map]
  refine List.map_congr_left fun l _ => ?_
  simp [Launch.view, Node.view, tmap, releaseDesc_stage, Function.comp_def]

theorem Released.of_queues {s t : State} (hq : ∀ q, (tget t.obj.queues q).map Queue.view = (tget s.obj.queues q).map Queue.view)
    (hl : t.obj.launches.map Launch.view = s.obj.launches.map Launch.view) (h : Only endParts s t) : Released s t := by
  refine ⟨fun q => ?_, hl, h⟩
  rw [getQ_view, getQ_view, hq]
  split
  · rw [tgetD, tgetD]
    have := hq winKey
    cases h1 : tget t.obj.queues winKey <;> cases h2 : tget s.obj.queues winKey <;> simp_all
  · rfl

theorem fenceCycle_released (s : State) (f : Nat) (sigs : List W64) : Released s (fenceCycle s f sigs) := by
  have honly := (fenceCycle_only s f sigs).mono (qs := endParts) (by simp [endParts])
  unfold fenceCycle at honly ⊢
  split
  · exact .refl s
  · rename_i x hx
    rw [hx] at honly
    dsimp only at honly ⊢
    split
    · exact .of_queues (fun _ => rfl) rfl ((setObj_only s _).mono (by simp [endParts]))
    · rename_i hv
      rw [if_neg hv] at honly
      obtain ⟨m, hm⟩ := mirrorWrite_host (setFence s f (fenceAfter x sigs)) (fenceAfter x sigs)
      have hw : (mirrorWrite (setFence s f (fenceAfter x sigs)) (fenceAfter x sigs)).obj =
          (setFence s f (fenceAfter x sigs)).obj := by rw [hm]
      generalize mirrorWrite (setFence s f (fenceAfter x sigs)) (fenceAfter x sigs) = w at hw honly ⊢
      have hq : w.obj.queues = s.obj.queues := congrArg (·.queues) hw
      have hl : w.obj.launches = s.obj.launches := congrArg (·.launches) hw
      obtain ⟨es, gs, he⟩ := fireEvents_obj (eventsOn w.obj f) w
      refine .of_queues (fun q => ?_) ?_ honly
      · rw [setObj_obj, releaseWaits_queues, he, ← hq]
      · rw [setObj_obj, releaseWaits_launches, he, ← hl]

theorem signalHandle_released (s : State) (h : Nat) (v : W64) : Released s (signalHandle s h v) := by
  unfold signalHandle
  split
  · exact fenceCycle_released _ _ _
  · exact .refl s

theorem chainToken_released (s : State) (c h : Nat) : Released s (chainToken s c h) := by
  have honly := chainToken_only s c h
  have lost : Released s { s with fe := { s.fe with tokenLost := satAdd 0xFFF s.fe.tokenLost 1 } } :=
    ⟨fun q => congrArg (Option.map Queue.view) (getQ_same rfl rfl q), rfl, fun p hp => by
      cases p <;> first | (simp [endParts] at hp; done) | rfl⟩
  unfold chainToken at honly ⊢
  split
  · exact lost
  · rename_i q hq
    simp only [hq] at honly
    split
    · exact lost
    · rename_i x hx
      simp only [hx] at honly
      split
      · exact lost
      · rename_i hc
        rw [if_neg hc] at honly
        refine .of_queues (fun k => ?_) rfl honly
        rw [putQ_obj, tget_tset]
        split
        · rename_i hk
          rw [hk, hx]
          rfl
        · rfl

/-! ## Records and launches with equal views -/

theorem find?_map_eq {α β : Type} {f : α → β} {l l' : List α} (h : l'.map f = l.map f) (p : β → Bool) :
    (l'.find? fun a => p (f a)).map f = (l.find? fun a => p (f a)).map f := by
  have hf (l : List α) : (l.find? fun a => p (f a)).map f = (l.map f).find? p := by rw [List.find?_map]; rfl
  rw [hf, hf, h]

theorem Released.queue {s t : State} (h : Released s t) {q : Nat} {x : Queue} (hx : getQ s q = some x) :
    ∃ y, getQ t q = some y ∧ y.completed = x.completed ∧ y.st = x.st ∧
      ∀ i d, recOf x i = some d → ∃ e, recOf y i = some e ∧ e.stage = d.stage := by
  have hv := h.queues q
  rw [hx] at hv
  obtain ⟨y, hy, hview⟩ := Option.map_eq_some_iff.1 hv
  simp only [Queue.view, Prod.mk.injEq] at hview
  obtain ⟨h1, h2, h3⟩ := hview
  refine ⟨y, hy, h1, h2, fun i d hd => ?_⟩
  have hr := find?_map_eq h3 fun b => decide (b.1 = i)
  rw [show (x.recs.find? fun a => decide (a.idx = i)) = some d from hd] at hr
  obtain ⟨e, he, hs⟩ := Option.map_eq_some_iff.1 hr
  exact ⟨e, he, (Prod.mk.inj hs).2⟩

theorem Released.launch {s t : State} (h : Released s t) (q : Nat) (i : W32) :
    (launchOf t q i).map Launch.view = (launchOf s q i).map Launch.view :=
  find?_map_eq h.launches fun b => decide (b.1 = q) && decide (b.2.1 = i)

theorem tget_map {α β : Type} (f : α → β) (t : Tbl α) (k : Nat) :
    tget (t.map fun e => (e.1, f e.2)) k = (tget t k).map f := by
  induction t with
  | nil => rfl
  | cons e t ih =>
    obtain ⟨a, v⟩ := e
    rw [List.map_cons, tget, tget]
    split
    · rfl
    · exact ih

theorem node_view {l l' : Launch} (h : l'.view = l.view) (k : Nat) :
    (tget l'.nodes k).map Node.view = (tget l.nodes k).map Node.view := by
  have hn : (l'.nodes.map fun e => (e.1, e.2.view)) = l.nodes.map fun e => (e.1, e.2.view) := congrArg (·.2.2.2) h
  rw [← tget_map, hn, tget_map]

/-! ## A descriptor's work is dropped -/

theorem dropWork_obj (s : State) (q : Nat) (i : W32) : ∃ gs, (dropWork s q i).obj =
    { s.obj with graphs := gs, launches := s.obj.launches.filter fun l => !(l.q == q && l.i == i) } := by
  have hu : (dropPasses (dropRuns s fun r => r.q == q && r.i == i) fun p => p.q == q && p.i == i).obj = s.obj := rfl
  unfold dropWork
  dsimp only
  generalize dropPasses (dropRuns s fun r => r.q == q && r.i == i) (fun p => p.q == q && p.i == i) = u at hu
  obtain ⟨h1, -⟩ := foldl_graphDown (u.obj.launches.filter fun l => l.q == q && l.i == i) u.obj
  generalize (u.obj.launches.filter fun l => l.q == q && l.i == i).foldl (fun o l => graphDown o l.graph l.gen l.slotB) u.obj = r
    at h1
  exact ⟨r.graphs, by rw [h1, hu]⟩

theorem dropWork_launchOf (s : State) (q : Nat) (i : W32) : launchOf (dropWork s q i) q i = none := by
  obtain ⟨gs, h⟩ := dropWork_obj s q i
  rw [launchOf, h, List.find?_eq_none]
  intro l hl
  simpa [imp_iff_not_or] using (List.mem_filter.1 hl).2

theorem dropWork_runs (s : State) (q : Nat) (i : W32) : ∀ e ∈ (dropWork s q i).cores.runs, ¬(e.2.q = q ∧ e.2.i = i) := by
  have h : (dropWork s q i).cores.runs =
      s.cores.runs.filter fun e => !((s.cores.runs.filter fun e => e.2.q == q && e.2.i == i).map (·.1)).contains e.1 := rfl
  rw [h]
  rintro e he ⟨hq, hi⟩
  obtain ⟨hm, hn⟩ := List.mem_filter.1 he
  simp only [Bool.not_eq_true', List.contains_eq_mem, decide_eq_false_iff_not] at hn
  exact hn (List.mem_map.2 ⟨e, List.mem_filter.2 ⟨hm, by simp [hq, hi]⟩, rfl⟩)

theorem dropWork_getQ (s : State) (q k : Nat) (i : W32) : getQ (dropWork s q i) k = getQ s k := by
  obtain ⟨gs, h⟩ := dropWork_obj s q i
  have hr : (dropWork s q i).regs = s.regs := dropWork_only s q i .regs (by decide)
  refine getQ_congr (by rw [h]) (.inr ?_)
  unfold winCtx slotOwner active
  rw [h, hr]
  rfl

/-- A queue's slot is found from the objects' generations, the contexts and the registers. -/
theorem queueSlot_congr {s t : State} (hc : t.obj.ctxs = s.obj.ctxs) (hg : t.obj.gens = s.obj.gens) (hr : t.regs = s.regs)
    (q : Nat) (x : Queue) : queueSlot t q x = queueSlot s q x := by
  have ho : ctxHandle t x.ctx = ctxHandle s x.ctx := by
    unfold ctxHandle handleOf genOf ownerFn
    rw [if_pos rfl, if_pos rfl, hc, hg]
  unfold queueSlot slotOfCtx slotOwner active
  rw [ho, hr]

theorem dropWork_slot (s : State) (q k : Nat) (i : W32) (x : Queue) : queueSlot (dropWork s q i) k x = queueSlot s k x := by
  obtain ⟨gs, h⟩ := dropWork_obj s q i
  exact queueSlot_congr (by rw [h]) (by rw [h]) (dropWork_only s q i .regs (by decide)) k x

theorem mustClean_congr {s t : State} (h : t.fab = s.fab) (n : Nat) : mustClean t n = mustClean s n := by
  unfold mustClean hasDirty
  rw [h]

theorem dropWork_fab (s : State) (q : Nat) (i : W32) : (dropWork s q i).fab = s.fab := dropWork_only s q i .fab (by decide)

/-! ## A descriptor ends -/

theorem complete_fail {s : State} {q : Nat} {i : W32} {x : Queue} {d : Desc} {st : Nat} (hx : getQ s q = some x)
    (hd : recOf x i = some d) (hst : st ≠ 0) : complete s q i st = endDesc (dropWork s q i) q i st := by
  unfold complete
  rw [hx]
  simp only [hd]
  rw [if_pos hst]

theorem complete_finish {s : State} {q : Nat} {i : W32} {x : Queue} {d : Desc} (hx : getQ s q = some x) (hd : recOf x i = some d)
    (h : (queueSlot s q x).any (mustClean s) = false ∨ d.stage = .cleaned) :
    complete s q i 0 = finishOk (dropWork s q i) q x d := by
  unfold complete
  rw [hx]
  simp only [hd, dropWork_slot]
  rw [if_neg (by simp)]
  cases hs : queueSlot s q x with
  | none => rfl
  | some n =>
    refine if_neg ?_
    rw [mustClean_congr (dropWork_fab s q i)]
    rw [hs] at h
    rcases h with h | h
    · rw [show mustClean s n = false from h]
      simp
    · simp [h]

theorem complete_clean {s : State} {q n : Nat} {i : W32} {x : Queue} {d : Desc} (hx : getQ s q = some x) (hd : recOf x i = some d)
    (hn : queueSlot s q x = some n) (hm : mustClean s n = true) (hc : d.stage ≠ .cleaned) :
    complete s q i 0 = putQ (startClean (dropWork s q i) n) q (setRec x { d with stage := .cleaning }) := by
  unfold complete
  rw [hx]
  simp only [hd, dropWork_slot, hn]
  rw [if_neg (by simp), if_pos]
  rw [mustClean_congr (dropWork_fab s q i), hm]
  simp [hc]

/-- Completion with OK gives the fence its signal and the other queue its token, and then ends the descriptor. -/
theorem finishOk_eq (s : State) (q : Nat) (x : Queue) (d : Desc) : ∃ u, Released s u ∧ finishOk s q x d = endDesc u q d.idx 0 := by
  refine ⟨_, ?_, rfl⟩
  have h1 : Released s (if bit d.words 8 && x.fence != 0 then
      signalHandle s x.fence.toNat (BitVec.ofNat 64 (bits d.words 511 448)) else s) := by
    split
    · exact signalHandle_released _ _ _
    · exact .refl s
  refine h1.trans ?_
  generalize (if bit d.words 8 && x.fence != 0 then
    signalHandle s x.fence.toNat (BitVec.ofNat 64 (bits d.words 511 448)) else s) = v
  split
  · exact chainToken_released _ _ _
  · exact .refl _

theorem ctxGone_keeps (s : State) (c : Nat) :
    (ctxGone s c).obj.queues = s.obj.queues ∧ (ctxGone s c).obj.launches = s.obj.launches := by
  unfold ctxGone
  split
  · exact ⟨rfl, rfl⟩
  · split
    · rw [eventRec_only _ _ _ _ _ _ _ _ .obj (by decide)]
      exact ⟨rfl, rfl⟩
    · exact ⟨rfl, rfl⟩

/-- A queue that is not gone after its drain was looked at is as it was; the launches stay. -/
theorem queueDrained_keeps (s : State) (q : Nat) : (queueDrained s q).obj.launches = s.obj.launches ∧
    ((getQ (queueDrained s q) q).map Queue.view = (getQ s q).map Queue.view ∨
      getQ (queueDrained s q) q = none ∧ ∃ x, getQ s q = some x ∧ x.st = .draining) := by
  unfold queueDrained
  split
  · exact ⟨rfl, .inl rfl⟩
  · rename_i x hx
    split
    · rename_i h
      obtain ⟨hw, hst, -⟩ := h
      dsimp only
      generalize handleOf s.obj 2 q = hd
      have ho := eventRec_only (setObj s (bumpGen { s.obj with queues := tdel s.obj.queues q } 2 q)) x.func 0x03 0 0 0 hd 0 .obj
        (by decide)
      generalize eventRec (setObj s (bumpGen { s.obj with queues := tdel s.obj.queues q } 2 q)) x.func 0x03 0 0 0 hd 0 = w at ho
      obtain ⟨h1, h2⟩ := ctxGone_keeps w x.ctx
      refine ⟨h2.trans (by rw [show w.obj = _ from ho]; rfl), .inr ⟨?_, x, by rwa [getQ, if_neg hw], hst⟩⟩
      rw [getQ, if_neg hw, h1, show w.obj = _ from ho]
      exact tget_tdel_same _ _
    · exact ⟨rfl, .inl rfl⟩

/-- The records of a queue once a descriptor has ended: those at its index have ended with its status. -/
theorem endedQ_recs {x : Queue} {d : Desc} {st : Nat} : ∀ e ∈ (endedQ x d st).recs, e.idx = d.idx → e.stage = .ended st := by
  have h : (notePoint (haltOn st (countEnd x d st))).recs = (setRec x { d with stage := .ended st, waiting := false }).recs := by
    have h1 (y : Queue) : (notePoint y).recs = y.recs := by
      unfold notePoint
      split <;> rfl
    have h2 (y : Queue) : (haltOn st y).recs = y.recs := by
      unfold haltOn
      split <;> rfl
    rw [h1, h2]
    rfl
  unfold endedQ
  dsimp only
  obtain ⟨r, l, he, hl⟩ := retireLoop_keeps (notePoint (haltOn st (countEnd x d st))).recs.length (notePoint (haltOn st (countEnd x
      d st)))
  rw [he]
  intro e hm hi
  have hm := hl e hm
  rw [h] at hm
  obtain ⟨a, -, ha⟩ := List.mem_map.1 hm
  by_cases hd : a.idx = d.idx
  · rw [if_pos hd] at ha
    rw [← ha]
  · rw [if_neg hd] at ha
    exact absurd (ha ▸ hi) hd

/-- A descriptor that ends has completed, and the launches stay. -/
theorem endDesc_completed {s : State} {q : Nat} {i : W32} {x : Queue} {d : Desc} (hx : getQ s q = some x) (hd : recOf x i = some d)
    (st : Nat) : Completed q i st s (endDesc s q i st) ∧ (endDesc s q i st).obj.launches = s.obj.launches := by
  rw [endDesc_eq hx hd]
  have ho := endedState_obj s q x d st
  obtain ⟨-, -, hcount, hst⟩ := endedQ_fields x d st
  have hrecs := endedQ_recs (x := x) (d := d) (st := st)
  have hview : (getQ (endedState s q x d st) q).map Queue.view = some (endedQ x d st).view := by
    obtain ⟨c, hc⟩ := getQ_putQ s q (endedQ x d st)
    rw [getQ_view, ho, ← getQ_view, hc]
    rfl
  generalize endedState s q x d st = w at ho hview
  obtain ⟨hl, hk⟩ := queueDrained_keeps w q
  refine ⟨fun x' hx' => ?_, by rw [hl, ho]; rfl⟩
  obtain rfl := Option.some.inj (hx.symm.trans hx')
  rcases hk with hk | ⟨hk, y, hy, hyst⟩
  · rw [hview] at hk
    obtain ⟨y, hy, hyv⟩ := Option.map_eq_some_iff.1 hk
    simp only [Queue.view, Prod.mk.injEq] at hyv
    obtain ⟨h1, h2, h3⟩ := hyv
    refine ⟨fun _ => by rw [hy]; rfl, fun z hz => ?_⟩
    obtain rfl := Option.some.inj (hy.symm.trans hz)
    refine ⟨h1.trans hcount, fun e he => ?_⟩
    have hm : (e.idx, e.stage) ∈ y.recs.map fun d => (d.idx, d.stage) := List.mem_map.2 ⟨e, recOf_mem he, rfl⟩
    rw [h3] at hm
    obtain ⟨a, ha, hae⟩ := List.mem_map.1 hm
    obtain ⟨h4, h5⟩ := Prod.mk.inj hae
    rw [← h5]
    exact hrecs a ha (h4.trans ((recOf_idx he).trans (recOf_idx hd).symm))
  · refine ⟨fun hn => ?_, fun z hz => by rw [hk] at hz; cases hz⟩
    rw [hy] at hview
    have := congrArg (·.2.1) (Option.some.inj hview)
    exact absurd (hst.1 (this.symm.trans hyst)) hn

/-- What a completion counts from: a queue's count and state. -/
theorem Completed.of_view {q st : Nat} {i : W32} {s u t : State} (h : Completed q i st u t)
    (hq : ∀ x, getQ s q = some x → ∃ y, getQ u q = some y ∧ y.completed = x.completed ∧ y.st = x.st) : Completed q i st s t := by
  intro x hx
  obtain ⟨y, hy, h1, h2⟩ := hq x hx
  rw [← h1, ← h2]
  exact h y hy

theorem finishOk_completed {s : State} {q : Nat} {i : W32} {x : Queue} {d : Desc} (hx : getQ s q = some x)
    (hd : recOf x i = some d) : Completed q i 0 s (finishOk s q x d) ∧
      (∀ k j, launchOf s k j = none → launchOf (finishOk s q x d) k j = none) := by
  obtain ⟨u, hu, he⟩ := finishOk_eq s q x d
  rw [he, recOf_idx hd]
  obtain ⟨y, hy, hc, hst, hr⟩ := hu.queue hx
  obtain ⟨e, he, -⟩ := hr i d hd
  obtain ⟨h1, h2⟩ := endDesc_completed hy he 0
  refine ⟨h1.of_view fun z hz => ⟨y, hy, ?_, ?_⟩, fun k j hn => ?_⟩
  · rw [hc, Option.some.inj (hx.symm.trans hz)]
  · rw [hst, Option.some.inj (hx.symm.trans hz)]
  · have hl := hu.launch k j
    rw [hn] at hl
    rw [launchOf, h2]
    exact Option.map_eq_none_iff.1 hl

end Sys2Proof.Machine
end

section
/-! Proofs: the completion of a descriptor and of a graph node (spec/03 R101, spec/05 R151, spec/07 R204). -/

namespace Sys2Proof.Machine

/-! ## A descriptor's completion -/

theorem composeStat_only (s : State) (q : Nat) (i : W32) : Only [.cch] s (composeStat s q i) := by
  unfold composeStat
  split
  · exact .refl _ s
  · exact fun p hp => by cases p <;> first | (simp at hp; done) | rfl

/-- A descriptor that ends has completed, with no launch and no run of it left. -/
structure DescGone (q : Nat) (i : W32) (st : Nat) (s t : State) : Prop where
  completed : Completed q i st s t
  launch : launchOf t q i = none
  runs : ∀ e ∈ t.cores.runs, ¬(e.2.q = q ∧ e.2.i = i)

theorem complete_gone {s : State} {q : Nat} {i : W32} {x : Queue} {d : Desc} {st : Nat} (hx : getQ s q = some x)
    (hd : recOf x i = some d) (h : st ≠ 0 ∨ (queueSlot s q x).any (mustClean s) = false ∨ d.stage = .cleaned) :
    DescGone q i st s (complete s q i st) := by
  have hdx : getQ (dropWork s q i) q = some x := by rw [dropWork_getQ, hx]
  have hl := dropWork_launchOf s q i
  have hr := dropWork_runs s q i
  have hback {t : State} (ht : Completed q i st (dropWork s q i) t) : Completed q i st s t :=
    ht.of_view fun z hz => ⟨z, by rw [dropWork_getQ, hz], rfl, rfl⟩
  by_cases hst : st = 0
  · subst hst
    rw [complete_finish hx hd (h.resolve_left (by simp))]
    obtain ⟨h1, h2⟩ := finishOk_completed hdx hd
    obtain ⟨u, hu, he⟩ := finishOk_eq (dropWork s q i) q x d
    refine ⟨hback h1, h2 q i hl, ?_⟩
    rw [he, show (endDesc u q d.idx 0).cores = (dropWork s q i).cores from
      (hu.only.trans (endDesc_only u q d.idx 0)) .cores (by decide)]
    exact hr
  · rw [complete_fail hx hd hst]
    obtain ⟨h1, h2⟩ := endDesc_completed hdx hd st
    refine ⟨hback h1, by rw [launchOf, h2]; exact hl, ?_⟩
    rw [show (endDesc (dropWork s q i) q i st).cores = (dropWork s q i).cores from endDesc_only _ _ _ _ .cores (by decide)]
    exact hr

/-- A descriptor whose slot must be cleaned waits for the clean. -/
theorem complete_cleaning {s : State} {q : Fin 8193} {n : Nat} {i : W32} {x : Queue} {d : Desc} (hx : getQ s q.val = some x)
    (hd : recOf x i = some d) (hn : queueSlot s q.val x = some n) (hm : mustClean s n = true) (hc : d.stage ≠ .cleaned) :
    WorkAt ⟨q, i, none⟩ .cleaning (complete s q.val i 0) ∧ (complete s q.val i 0).fab.cleans.contains n = true ∧
      hasDirty (complete s q.val i 0) n = false ∧ launchOf (complete s q.val i 0) q.val i = none := by
  rw [complete_clean hx hd hn hm hc]
  have hl := dropWork_launchOf s q.val i
  generalize dropWork s q.val i = u at hl
  obtain ⟨c, hy⟩ := getQ_putQ (startClean u n) q.val (setRec x { d with stage := .cleaning })
  have hi : ({ d with stage := .cleaning } : Desc).idx = i := (recOf_idx hd :)
  exact ⟨⟨_, _, hy, recOf_setRec hd hi, rfl⟩, by simp [startClean], cleanSlot_hasDirty u n, hl⟩

theorem descriptorComplete_finished {s : State} {q : Nat} {i : W32} {x : Queue} {d : Desc} {st : Nat} (hx : getQ s q = some x)
    (hd : recOf x i = some d) (hs : d.stage = .finished st) :
    ∃ u, Only [.cch] s u ∧ descriptorComplete s q i = complete u q i st := by
  refine ⟨if st = 0 then composeStat s q i else s, .ite (fun _ => composeStat_only s q i) fun _ => .refl _ s, ?_⟩
  unfold descriptorComplete
  rw [hx]
  simp only [hd, hs]

theorem descriptorComplete_cleaned {s : State} {q : Nat} {i : W32} {x : Queue} {d : Desc} (hx : getQ s q = some x)
    (hd : recOf x i = some d) (hs : d.stage = .cleaned) : descriptorComplete s q i = complete s q i 0 := by
  unfold descriptorComplete
  rw [hx]
  simp only [hd, hs]

theorem complete_plain (s : State) (q : Nat) (i : W32) (st : Nat) :
    (complete s q i st).hoop = s.hoop ∧ (complete s q i st).regs = s.regs :=
  ⟨complete_only s q i st .hoop (by decide), complete_only s q i st .regs (by decide)⟩

/-! ## Launches -/

theorem launchOf_at {s : State} {q : Nat} {i : W32} {l : Launch} (h : launchOf s q i = some l) : l.q = q ∧ l.i = i := by
  simpa using List.find?_some h

/-- A launch put in the place of the one that its queue and index name is read back. -/
theorem launchOf_putLaunch {s : State} {q : Nat} {i : W32} {l m : Launch} (h : launchOf s q i = some l) (hm : m.q = q ∧ m.i = i) :
    launchOf (putLaunch s m) q i = some m := by
  obtain ⟨rfl, rfl⟩ := hm
  unfold launchOf putLaunch at *
  rw [setObj_obj, List.find?_map]
  have hf : ((fun l : Launch => decide (l.q = m.q) && decide (l.i = m.i)) ∘ fun a : Launch => if a.q = m.q ∧ a.i = m.i then m else
      a) =
      fun l => decide (l.q = m.q) && decide (l.i = m.i) := by
    funext a
    simp only [Function.comp]
    split <;> simp_all
  rw [hf, h, Option.map_some, if_pos (by simpa using List.find?_some h)]

theorem putLaunch_only (s : State) (l : Launch) : Only [.obj] s (putLaunch s l) := setObj_only s _

/-- A verdict on a launch changes its descriptor alone. -/
theorem settleLaunch_leaves (s : State) (q : Nat) (i : W32) :
    (settleLaunch s q i).obj.launches = s.obj.launches ∧ Only [.obj] s (settleLaunch s q i) := by
  unfold settleLaunch
  split
  · exact ⟨rfl, .refl _ s⟩
  · split
    · exact ⟨rfl, .refl _ s⟩
    · unfold finishWork setWork
      dsimp only
      split
      · exact ⟨rfl, .refl _ s⟩
      · exact ⟨rfl, putQ_only _ _ _⟩

/-- The launch that stands after it was put and looked at for a verdict. -/
theorem launchOf_settled {s : State} {q : Nat} {i : W32} {l m : Launch} (h : launchOf s q i = some l) (hm : m.q = q ∧ m.i = i) :
    launchOf (settleLaunch (putLaunch s m) q i) q i = some m := by
  rw [launchOf, (settleLaunch_leaves _ q i).1]
  exact launchOf_putLaunch h hm

/-! ## Arrivals (R101) -/

theorem failLaunch_fields (t k st : Nat) (l : Launch) : (failLaunch t k st l).q = l.q ∧ (failLaunch t k st l).i = l.i ∧
    (failLaunch t k st l).nodes = l.nodes ∧ (failLaunch t k st l).fail.isSome = true ∧
    (l.fail = none → (failLaunch t k st l).fail = some st) := by
  unfold failLaunch
  split
  · exact ⟨rfl, rfl, rfl, rfl, fun _ => rfl⟩
  · rename_i h
    simp only [not_or, Option.isNone_iff_eq_none] at h
    exact ⟨rfl, rfl, rfl, Option.isSome_iff_ne_none.2 h.1, fun hn => absurd hn h.1⟩

/-- What an arrival leaves: the launch's place, and a failure that was noted. -/
theorem arrive_fields (t k : Nat) (l : Launch) (m : Nat) : (arrive t k l m).q = l.q ∧ (arrive t k l m).i = l.i ∧
    ((arrive t k l m).fail = none → l.fail = none) ∧ ∀ j, j ≠ m → tget (arrive t k l m).nodes j = tget l.nodes j := by
  have hbad : (failLaunch t k 0x13 l).q = l.q ∧ (failLaunch t k 0x13 l).i = l.i ∧
      ((failLaunch t k 0x13 l).fail = none → l.fail = none) ∧
      ∀ j, j ≠ m → tget (failLaunch t k 0x13 l).nodes j = tget l.nodes j := by
    obtain ⟨h1, h2, h3, h4, -⟩ := failLaunch_fields t k 0x13 l
    exact ⟨h1, h2, fun hn => by simp [hn] at h4, fun _ _ => by rw [h3]⟩
  unfold arrive
  split
  · exact hbad
  · split
    · exact hbad
    · exact ⟨rfl, rfl, id, fun j hj => tget_tset_other _ _ hj⟩

/-- An arrival at a node that awaits one counts, and the last one arms it. -/
theorem arrive_open {t k m : Nat} {l : Launch} {o : Node} (ho : tget l.nodes m = some o) (h : o.arrivals < o.npred) :
    ∃ o', tget (arrive t k l m).nodes m = some o' ∧ o'.arrivals = o.arrivals + 1 ∧
      (o.arrivals + 1 = o.npred → l.fail = none → o'.d.stage = .armed) := by
  unfold arrive
  rw [ho]
  dsimp only
  rw [if_neg (by omega)]
  refine ⟨_, tget_tset_same _ _ _, rfl, fun he hn => ?_⟩
  dsimp only
  rw [if_pos ⟨he, by simp [hn]⟩]

/-- A node that has had its arrivals stays as it is. -/
theorem arrive_full {t k m : Nat} {l : Launch} {o : Node} (ho : tget l.nodes m = some o) (h : o.npred ≤ o.arrivals) (j : Nat) :
    tget (arrive t k l j).nodes m = some o := by
  by_cases hj : m = j
  · subst hj
    unfold arrive
    rw [ho]
    dsimp only
    rw [if_pos h, (failLaunch_fields t k 0x13 l).2.2.1, ho]
  · rw [(arrive_fields t k l j).2.2.2 m hj, ho]

theorem foldl_arrive_fields (t k : Nat) (succ : List Nat) (l : Launch) : (succ.foldl (arrive t k) l).q = l.q ∧
    (succ.foldl (arrive t k) l).i = l.i ∧ ((succ.foldl (arrive t k) l).fail = none → l.fail = none) ∧
    ∀ j, j ∉ succ → tget (succ.foldl (arrive t k) l).nodes j = tget l.nodes j := by
  induction succ generalizing l with
  | nil => exact ⟨rfl, rfl, id, fun _ _ => rfl⟩
  | cons m succ ih =>
    obtain ⟨h1, h2, h3, h4⟩ := ih (arrive t k l m)
    obtain ⟨g1, g2, g3, g4⟩ := arrive_fields t k l m
    refine ⟨h1.trans g1, h2.trans g2, fun h => g3 (h3 h), fun j hj => ?_⟩
    simp only [List.mem_cons, not_or] at hj
    exact (h4 j hj.2).trans (g4 j hj.1)

theorem foldl_arrive_full {t k m : Nat} {o : Node} (h : o.npred ≤ o.arrivals) (succ : List Nat) {l : Launch}
    (ho : tget l.nodes m = some o) : tget (succ.foldl (arrive t k) l).nodes m = some o := by
  induction succ generalizing l with
  | nil => exact ho
  | cons j succ ih => exact ih (arrive_full ho h j)

/-- Of the successors of a node, one that is named once has one arrival more. -/
theorem foldl_arrive_once {t k m : Nat} {o : Node} (h : o.arrivals < o.npred) {succ : List Nat} (hc : succ.count m = 1)
    {l : Launch} (ho : tget l.nodes m = some o) : ∃ o', tget (succ.foldl (arrive t k) l).nodes m = some o' ∧
      o'.arrivals = o.arrivals + 1 ∧ (o.arrivals + 1 = o.npred → (succ.foldl (arrive t k) l).fail = none → o'.d.stage = .armed) :=
          by
  induction succ generalizing l with
  | nil => simp at hc
  | cons j succ ih =>
    rw [List.foldl_cons]
    by_cases hj : j = m
    · subst hj
      have hn : j ∉ succ := by
        rw [List.count_cons_self] at hc
        exact List.count_eq_zero.1 (by omega)
      obtain ⟨-, -, hfail, hrest⟩ := foldl_arrive_fields t k succ (arrive t k l j)
      obtain ⟨o', ho', ha, hs⟩ := arrive_open (t := t) (k := k) ho h
      exact ⟨o', (hrest j hn).trans ho', ha, fun he hf => hs he ((arrive_fields t k l j).2.2.1 (hfail hf))⟩
    · rw [List.count_cons_of_ne hj] at hc
      exact ih hc (((arrive_fields t k l j).2.2.2 m (Ne.symm hj)).trans ho)

/-! ## A node's completion -/

theorem readSuccs_some {s u : State} {w : Who} {a : Nat} {l : List Nat} (h : readSuccs s w a = (u, some l)) :
    Only [.mmu, .fab, .free] s u := by
  unfold readSuccs vnat at h
  split at h
  · cases h
  · rename_i hv
    split at hv
    · rename_i b hb
      obtain ⟨rfl, -⟩ := Prod.mk.inj hv
      obtain ⟨rfl, -⟩ := Prod.mk.inj h
      exact vread_some hb
    · cases hv

/-- A node that is OK: its signal and token are given, and its successors take their arrivals. -/
theorem nodeOk_eq {s u : State} {q k : Nat} {i : W32} {x : Queue} {l : Launch} {n : Node} {succ : List Nat}
    (h : readSuccs s (feWho s q x) (nodeAt l k) = (u, some succ)) (hl : launchOf s q i = some l) :
    ∃ v l', Released u v ∧ launchOf v q i = some l' ∧ l'.view = l.view ∧ nodeOk s q i k x l n =
      settleLaunch (putLaunch v (succ.foldl (arrive v.hoop.time k)
        { l' with nodes := tmod l'.nodes k fun n => { n with d := { n.d with stage := .ended 0 } } })) q i := by
  have hlu : launchOf u q i = some l := by rw [launchOf, readSuccs_some h .obj (by decide)]; exact hl
  unfold nodeOk
  rw [h]
  dsimp only
  have h1 : Released u (if bit n.d.words 8 && x.fence != 0 then
      signalHandle u x.fence.toNat (BitVec.ofNat 64 (bits n.d.words 511 448)) else u) := by
    split
    · exact signalHandle_released _ _ _
    · exact .refl u
  generalize (if bit n.d.words 8 && x.fence != 0 then
    signalHandle u x.fence.toNat (BitVec.ofNat 64 (bits n.d.words 511 448)) else u) = v at h1 ⊢
  have h2 : Released u (if bit n.d.words 9 then chainToken v x.ctx (bits n.d.words 415 384) else v) := by
    split
    · exact h1.trans (chainToken_released _ _ _)
    · exact h1
  generalize (if bit n.d.words 9 then chainToken v x.ctx (bits n.d.words 415 384) else v) = z at h2 ⊢
  have hv := h2.launch q i
  rw [hlu] at hv
  obtain ⟨l', hl', hview⟩ := Option.map_eq_some_iff.1 hv
  exact ⟨z, l', h2, hl', hview, by rw [hl']⟩

/-- A node that is OK has ended, and each successor named once that awaits arrivals has one more. -/
theorem nodeOk_ended {s u : State} {q : Fin 8193} {k : Fin 4096} {i : W32} {x : Queue} {l : Launch} {n : Node} {succ : List Nat}
    (h : readSuccs s (feWho s q.val x) (nodeAt l k.val) = (u, some succ)) (hl : launchOf s q.val i = some l)
    (hn : tget l.nodes k.val = some n) (hfull : n.npred ≤ n.arrivals) :
    WorkAt ⟨q, i, some k⟩ (.ended 0) (nodeOk s q.val i k.val x l n) ∧
      ∀ m o, m ≠ k.val → tget l.nodes m = some o → succ.count m = 1 → o.arrivals < o.npred →
        ∃ l' o', launchOf (nodeOk s q.val i k.val x l n) q.val i = some l' ∧ tget l'.nodes m = some o' ∧
          o'.arrivals = o.arrivals + 1 ∧ (o.arrivals + 1 = o.npred → l'.fail = none → o'.d.stage = .armed) := by
  obtain ⟨v, l', -, hlv, hview, he⟩ := nodeOk_eq (n := n) h hl
  have hat := launchOf_at hlv
  generalize hr : ({ l' with nodes := tmod l'.nodes k.val fun n => { n with d := { n.d with stage := .ended 0 } } } : Launch) = r
    at he
  have hrat : r.q = q.val ∧ r.i = i := by rw [← hr]; exact hat
  have hnode (m : Nat) : tget r.nodes m = (tget l'.nodes m).map fun n =>
      if m = k.val then { n with d := { n.d with stage := .ended 0 } } else n := by
    rw [← hr]
    simp only [tget_tmod]
    split
    · rfl
    · simp
  obtain ⟨f1, f2, f3, -⟩ := foldl_arrive_fields v.hoop.time k.val succ r
  have hL := launchOf_settled hlv (m := succ.foldl (arrive v.hoop.time k.val) r) ⟨f1.trans hrat.1, f2.trans hrat.2⟩
  rw [he]
  constructor
  · have hv := node_view hview k.val
    rw [hn] at hv
    obtain ⟨n', hn', hnv⟩ := Option.map_eq_some_iff.1 hv
    simp only [Node.view, Prod.mk.injEq] at hnv
    obtain ⟨ha, hp, -⟩ := hnv
    have hk := hnode k.val
    rw [hn', Option.map_some, if_pos rfl] at hk
    exact ⟨_, _, hL, foldl_arrive_full (o := { n' with d := { n'.d with stage := .ended 0 } }) (by simp only; omega) succ hk, rfl⟩
  · intro m o hm ho hc hlt
    have hv := node_view hview m
    rw [ho] at hv
    obtain ⟨n', hn', hnv⟩ := Option.map_eq_some_iff.1 hv
    simp only [Node.view, Prod.mk.injEq] at hnv
    obtain ⟨ha, hp, -⟩ := hnv
    have hk := hnode m
    rw [hn', Option.map_some, if_neg hm] at hk
    obtain ⟨o', ho', h1, h2⟩ := foldl_arrive_once (t := v.hoop.time) (k := k.val) (o := n') (by omega) hc hk
    exact ⟨_, o', hL, ho', h1.trans (by rw [ha]), fun he hf => h2 (by omega) hf⟩

theorem nodeComplete_cleaned {s : State} {q k : Nat} {i : W32} {x : Queue} {l : Launch} {n : Node} (hx : getQ s q = some x)
    (hl : launchOf s q i = some l) (hn : tget l.nodes k = some n) (hs : n.d.stage = .cleaned) :
    nodeComplete s q i k = nodeOk s q i k x l n := by
  unfold nodeComplete
  rw [hx, hl]
  simp only [hn, hs]

theorem nodeComplete_ok {s : State} {q k : Nat} {i : W32} {x : Queue} {l : Launch} {n : Node} (hx : getQ s q = some x)
    (hl : launchOf s q i = some l) (hn : tget l.nodes k = some n) (hs : n.d.stage = .finished 0) :
    nodeComplete s q i k = if (queueSlot s q x).any (mustClean s) then
      setWork (startClean s ((queueSlot s q x).getD 0)) q i (some k) fun d => { d with stage := .cleaning }
    else nodeOk s q i k x l n := by
  unfold nodeComplete
  rw [hx, hl]
  simp only [hn, hs]

/-- A launch of which a node has failed. -/
def failedLaunch (s : State) (k st : Nat) (l : Launch) : Launch :=
  failLaunch s.hoop.time k st { l with nodes := tmod l.nodes k fun n => { n with d := { n.d with stage := .ended st } } }

theorem nodeComplete_failed {s : State} {q k st : Nat} {i : W32} {x : Queue} {l : Launch} {n : Node} (hx : getQ s q = some x)
    (hl : launchOf s q i = some l) (hn : tget l.nodes k = some n) (hs : n.d.stage = .finished st) (hst : st ≠ 0) :
    nodeComplete s q i k = settleLaunch (putLaunch s (failedLaunch s k st l)) q i := by
  unfold nodeComplete
  rw [hx, hl]
  simp only [hn, hs]
  rfl

/-- A node's record changed in its launch is read back. -/
theorem setWork_node {s : State} {q : Fin 8193} {k : Fin 4096} {i : W32} {l : Launch} {n : Node} (hl : launchOf s q.val i = some l)
    (hn : tget l.nodes k.val = some n) (f : Desc → Desc) : WorkAt ⟨q, i, some k⟩ (f n.d).stage (setWork s q.val i (some k.val) f) ∧
      Only [.obj] s (setWork s q.val i (some k.val) f) := by
  unfold setWork
  dsimp only
  rw [hl]
  have hat : ({ l with nodes := tmod l.nodes k.val fun n => { n with d := f n.d } } : Launch).q = q.val ∧
      ({ l with nodes := tmod l.nodes k.val fun n => { n with d := f n.d } } : Launch).i = i := (launchOf_at hl :)
  refine ⟨⟨_, { n with d := f n.d }, launchOf_putLaunch hl hat, ?_, rfl⟩, putLaunch_only _ _⟩
  simp [tget_tmod, hn]

end Sys2Proof.Machine

open Sys2Proof Sys2Proof.Machine

/-- Settles O46: a descriptor's end and a node's end, each in its case of the stage and of the slot's clean. -/
theorem completionsEndWork : Obligations.CompletionsEndWork := by
  refine ⟨fun s q i x d hx hd => ⟨fun st h => ⟨_, rfl, ?_⟩, fun n hs hn hm => ⟨_, rfl, ?_⟩⟩, fun s q i k x l n hx hl hn =>
    ⟨fun u succ hs hfull hu => ⟨_, rfl, ?_⟩, fun c hs hc hm => ⟨_, rfl, ?_⟩, fun st hs hst => ⟨_, rfl, ?_⟩⟩⟩
  · beta_reduce
    obtain ⟨u, hu, he, hok⟩ : ∃ u, Only [.cch] s u ∧ descriptorComplete s q.val i = complete u q.val i st ∧
        (st ≠ 0 ∨ (queueSlot s q.val x).any (mustClean s) = false ∨ d.stage = .cleaned) := by
      rcases h with ⟨hs, h⟩ | ⟨hs, rfl⟩
      · obtain ⟨u, hu, he⟩ := descriptorComplete_finished hx hd hs
        exact ⟨u, hu, he, h.imp id .inl⟩
      · exact ⟨s, .refl _ s, descriptorComplete_cleaned hx hd hs, .inr (.inr hs)⟩
    have ho : u.obj = s.obj := hu .obj (by decide)
    have hr : u.regs = s.regs := hu .regs (by decide)
    have hslot : queueSlot u q.val x = queueSlot s q.val x := queueSlot_congr (by rw [ho]) (by rw [ho]) hr _ _
    have hclean : mustClean u = mustClean s := funext fun n => mustClean_congr (hu .fab (by decide)) n
    have hgone := complete_gone (s := u) ((getQ_same ho hr _).trans hx) hd (st := st) (by rwa [hslot, hclean])
    obtain ⟨p1, p2⟩ := complete_plain u q.val i st
    rw [he]
    exact ⟨hgone.completed.of_view fun z hz => ⟨z, (getQ_same ho hr _).trans hz, rfl, rfl⟩, hgone.launch, hgone.runs,
      p1.trans (hu .hoop (by decide)), p2.trans hr⟩
  · beta_reduce
    obtain ⟨u, hu, he⟩ := descriptorComplete_finished hx hd hs
    have ho : u.obj = s.obj := hu .obj (by decide)
    have hr : u.regs = s.regs := hu .regs (by decide)
    have hslot : queueSlot u q.val x = queueSlot s q.val x := queueSlot_congr (by rw [ho]) (by rw [ho]) hr _ _
    obtain ⟨h1, h2, h3, h4⟩ := complete_cleaning (s := u) (q := q) ((getQ_same ho hr _).trans hx) hd (hslot.trans hn)
      ((mustClean_congr (hu .fab (by decide)) n).trans hm) (by rw [hs]; simp)
    obtain ⟨p1, p2⟩ := complete_plain u q.val i 0
    rw [he]
    exact ⟨h1, h2, h3, h4, p1.trans (hu .hoop (by decide)), p2.trans hr⟩
  · beta_reduce
    have he : nodeComplete s q.val i k.val = nodeOk s q.val i k.val x l n := by
      rcases hs with ⟨hs, hc⟩ | hs
      · rw [nodeComplete_ok hx hl hn hs, if_neg (by simp [hc])]
      · exact nodeComplete_cleaned hx hl hn hs
    rw [he]
    exact nodeOk_ended hu hl hn hfull
  · beta_reduce
    rw [nodeComplete_ok hx hl hn hs, hc, if_pos (by simpa using hm), Option.getD_some]
    have hlc : launchOf (startClean s c) q.val i = some l := hl
    have hc : (startClean s c).fab.cleans.contains c = true := by simp [startClean]
    have hd : hasDirty (startClean s c) c = false := cleanSlot_hasDirty s c
    have ho := startClean_only s c
    generalize startClean s c = u at hlc hc hd ho
    obtain ⟨h1, h2⟩ := setWork_node (q := q) hlc hn fun d => { d with stage := .cleaning }
    have hf := h2 .fab (by decide)
    refine ⟨h1, ?_, ?_, (ho.mono (by simp)).trans (h2.mono (by simp))⟩
    · rw [show (setWork u q.val i (some k.val) fun d => { d with stage := .cleaning }).fab = u.fab from hf]
      exact hc
    · rw [hasDirty, show (setWork u q.val i (some k.val) fun d => { d with stage := .cleaning }).fab = u.fab from hf]
      exact hd
  · beta_reduce
    rw [nodeComplete_failed hx hl hn hs hst]
    obtain ⟨f1, f2, f3, f4, f5⟩ := failLaunch_fields s.hoop.time k.val st
      { l with nodes := tmod l.nodes k.val fun n => { n with d := { n.d with stage := .ended st } } }
    have hL := launchOf_settled hl (m := failedLaunch s k.val st l) ⟨f1.trans (launchOf_at hl).1, f2.trans (launchOf_at hl).2⟩
    refine ⟨⟨_, { n with d := { n.d with stage := .ended st } }, hL, ?_, rfl⟩, fun l' hl' => ?_,
      (putLaunch_only _ _).trans (settleLaunch_leaves _ _ _).2⟩
    · rw [failedLaunch, f3]
      simp [tget_tmod, hn]
    · obtain rfl := Option.some.inj (hL.symm.trans hl')
      exact ⟨f4, f5⟩
end

section
/-! Proofs: the end of a monitor window (spec/16 R496 to R498). -/

namespace Sys2Proof.Machine

theorem testBit_orQuads (l : List Nat) (m q : Nat) : (orQuads m l).testBit q = true ↔ m.testBit q = true ∨ q ∈ l := by
  unfold orQuads
  induction l generalizing m with
  | nil => simp
  | cons a l ih =>
    rw [List.foldl_cons, ih, Nat.testBit_or, Nat.testBit_two_pow, Bool.or_eq_true, decide_eq_true_eq, List.mem_cons]
    grind

/-- Units that fail in turn: each marks its own quads, media engines and ports, and nothing comes back. -/
theorem foldl_unitFault (means : Nat) (l : List UnitRef) (s : State) :
    let t := l.foldl (fun s u => unitFault s u means) s
    (∀ q, t.flt.oosQuads.testBit q = true ↔ s.flt.oosQuads.testBit q = true ∨ ∃ x ∈ l, q ∈ unitQuads x) ∧
    (∀ n, t.flt.oosUnits.testBit n = true ↔ s.flt.oosUnits.testBit n = true ∨ ∃ x ∈ l, n ∈ unitUnits x) ∧
    (t.flt.failed = true ↔ s.flt.failed = true ∨ .device ∈ l) ∧
    (∀ p, hasLink t p = true → hasLink s p = true ∧ ∀ k, .port k ∈ l → k.val ≠ p) ∧ Only (.pwr :: faultParts) s t := by
  induction l generalizing s with
  | nil => simp [Only.refl]
  | cons x l ih =>
    have h := unitFault_out s x means
    obtain ⟨h1, h2, h3, h4, h5⟩ := ih (unitFault s x means)
    dsimp only at h1 h2 h3 h4 h5 ⊢
    rw [List.foldl_cons]
    refine ⟨fun q => ?_, fun n => ?_, ?_, fun p hp => ?_, h.only.trans h5⟩
    · rw [h1, h.quads, testBit_orQuads, or_assoc, List.exists_mem_cons_iff]
    · rw [h2, h.units, testBit_orQuads, or_assoc, List.exists_mem_cons_iff]
    · rw [h3, h.failed, Bool.or_eq_true, decide_eq_true_eq, List.mem_cons, or_assoc, eq_comm (a := x)]
    · obtain ⟨hl, hk⟩ := h4 p hp
      obtain ⟨hl', hx⟩ := h.link p hl
      exact ⟨hl', fun k hm => (List.mem_cons.1 hm).elim (fun he => hx k he.symm) (hk k)⟩

/-- The quads of a unit: itself, or the four of a cluster. -/
theorem mem_unitQuads (x : UnitRef) (q : Nat) :
    q ∈ unitQuads x ↔ (∃ k : Fin 64, x = .quad k ∧ k.val = q) ∨ ∃ k : Fin 16, x = .cluster k ∧ k.val = q / 4 := by
  cases x with
  | quad k => simp [unitQuads, eq_comm]
  | cluster k =>
    have h : (∃ a < 4, 4 * k.val + a = q) ↔ k.val = q / 4 := ⟨fun ⟨a, ha, he⟩ => by omega, fun h => ⟨q % 4, by omega, by omega⟩⟩
    simpa [unitQuads] using h
  | media n => simp [unitQuads]
  | port l => simp [unitQuads]
  | device => simp [unitQuads]

theorem mem_tripped {s : State} {stuck : List UnitRef} {x : UnitRef} (hx : x ∈ stuck) (h : windowCounts s x = true) :
    x ∈ tripped s stuck := by
  rw [tripped, List.mem_eraseDups]
  exact List.mem_append_left _ (List.mem_filter.2 ⟨hx, h⟩)

/-- The machine as a monitor window ends, once the routes are settled. -/
def windowSettled (s : State) : State := nocSettle (if 4 ≤ s.flt.window + 1 then toSettle s else advance s (windowEnd s))

/-- The machine once a monitor window, or the period with it, has ended, before the units that trip fail. -/
def windowEnded (s : State) : State :=
  if 4 ≤ s.flt.window + 1 then edge (exhaustRetries (windowSettled s))
  else nextWindow (exhaustRetries (windowSettled s)) (s.flt.window + 1)

theorem monitorEnd_eq {s : State} (hr : s.hoop.running = true) (hb : s.brd.inReset = false) (stuck : List UnitRef) :
    monitorEnd s stuck = (tripped (windowSettled s) stuck).foldl (fun s u => unitFault s u 4) (windowEnded s) := by
  rw [monitorEnd, if_neg (by simp [hr, hb])]
  rfl

end Sys2Proof.Machine

open Sys2Proof Sys2Proof.Machine

/-- Settles O39: each unit that trips fails in turn, and marks what is its own. -/
theorem monitorWindowsPutUnitsOutOfService : Obligations.MonitorWindowsPutUnitsOutOfService := by
  intro s stuck hr hb w v u trips
  have he : execMonitorWindowEnd stuck s = .next (trips.foldl (fun s u => unitFault s u 4) u) :=
    congrArg Host.Outcome.next (monitorEnd_eq hr hb stuck)
  obtain ⟨h1, h2, h3, h4, h5⟩ := foldl_unitFault 4 trips u
  refine ⟨fun h => ?_, fun x hx hw => mem_tripped hx hw, ⟨_, he, ?_⟩⟩
  · rw [h] at he
    exact he
  refine ⟨fun q => ?_, fun n hn => (h2 _).2 (.inr ⟨_, hn, by simp [unitUnits]⟩),
    fun l hl => ⟨(h2 _).2 (.inr ⟨_, hl, by simp [unitUnits]⟩), ?_⟩, fun hd => h3.2 (.inr hd), h5 .hoop (by decide),
    h5 .regs (by decide)⟩
  · rw [h1]
    exact or_congr_right (exists_congr fun x => and_congr_right fun _ => mem_unitQuads x q)
  · rw [← Bool.not_eq_true]
    exact fun h => (h4 l.val h).2 l hl rfl
end

section
/-! Proofs: registers of lanes, and the instructions that only write them (spec/08 R223 to R242). -/

namespace Sys2Proof.Machine

/-! ## Active lanes -/

theorem mem_lanesOf {m : W32} {l : Nat} : l ∈ lanesOf m ↔ l < 32 ∧ bit m l = true := by
  simp [lanesOf, bitList, bit]

theorem lanes_lt {i : Iss} {l : Nat} (h : l ∈ i.lanes) : l < 32 := (mem_lanesOf.1 h).1

theorem mergeSubs_keeps (l : List Sub) (u : Sub) : (mergeSubs u l).wait = u.wait ∧ (mergeSubs u l).pc = u.pc ∧
    ∀ k, bit (mergeSubs u l).mask k = true ↔ bit u.mask k = true ∨ ∃ v ∈ l, bit v.mask k = true := by
  unfold mergeSubs
  induction l generalizing u with
  | nil => simp
  | cons v l ih =>
    obtain ⟨h1, h2, h3⟩ := ih { u with mask := u.mask ||| v.mask, s := max u.s v.s }
    refine ⟨h1, h2, fun k => ?_⟩
    rw [List.foldl_cons, h3, List.exists_mem_cons_iff, ← or_assoc]
    simp [bit]

/-- What an issue names: its group, in its place, with the issuing subgroup ready (R223). -/
theorem issue_some {s : State} {r : SgRef} {i : Iss} (h : issue s r = some i) : r.err = .none ∧
    i.key = r.core.val * 64 + r.slot.val ∧ tget s.cores.groups i.key = some i.g ∧ tget s.cores.blocks i.g.block = some i.b ∧
    i.sub.wait = .ready := by
  unfold issue at h
  split at h
  · rename_i he
    unfold issueAny at h
    dsimp only at h
    split at h
    · cases h
    · rename_i g hg
      split at h
      · rename_i b u hb hu
        split at h
        · cases h
        · cases h
          exact ⟨he, rfl, hg, hb, (mergeSubs_keeps _ _).1⟩
      · cases h
  · cases h

theorem issue_core {s : State} {r : SgRef} {i : Iss} (h : issue s r = some i) : i.core = r.core.val := by
  obtain ⟨-, hk, -⟩ := issue_some h
  rw [Iss.core, hk]
  omega

/-- An instruction of a core without an error has its effect (spec/16 R488). -/
theorem onCore_issue {s : State} {r : SgRef} {i : Iss} (h : issue s r = some i) (t : State) : onCore s r t = t := by
  unfold onCore onUnit
  rw [(issue_some h).1]

/-! ## Registers -/

/-- A group in which registers alone have changed. -/
def RegsOnly (g h : Group) : Prop := h = { g with regs := h.regs }

theorem RegsOnly.refl (g : Group) : RegsOnly g g := rfl

theorem RegsOnly.trans {g h k : Group} (a : RegsOnly g h) (b : RegsOnly h k) : RegsOnly g k := by
  unfold RegsOnly at *
  rw [b, a]

theorem rd_wr (g : Group) (a l d k : Nat) (v : W32) (ha : a < 32) (hl : l < 32) :
    rd (wr g a d v) l k = (if l = a ∧ k = d ∧ k < g.nregs then v else rd g l k) ∧ RegsOnly g (wr g a d v) := by
  unfold wr
  split
  · rename_i hd
    refine ⟨?_, rfl⟩
    unfold rd
    dsimp only
    by_cases hk : k < g.nregs
    · rw [if_pos hk, if_pos hk, tgetD, tget_tset]
      by_cases he : l = a ∧ k = d
      · obtain ⟨rfl, rfl⟩ := he
        simp [hk]
      · rw [if_neg (by omega), if_neg (by tauto), tgetD]
    · rw [if_neg hk, if_neg hk, if_neg (by tauto)]
  · rename_i hd
    refine ⟨?_, rfl⟩
    rw [if_neg]
    rintro ⟨-, rfl, hk⟩
    exact hd hk

/-- A number written to consecutive registers of a lane is read back in parts. -/
theorem rd_wrN (n : Nat) (g : Group) (a l d k v : Nat) (ha : a < 32) (hl : l < 32) :
    rd (wrN g a d v n) l k = (if l = a ∧ d ≤ k ∧ k < d + n ∧ k < g.nregs then BitVec.ofNat 32 (v / 2 ^ (32 * (k - d))) else rd g l
        k) ∧
      RegsOnly g (wrN g a d v n) := by
  induction n generalizing g d v with
  | zero => exact ⟨by rw [if_neg (by omega)]; rfl, rfl⟩
  | succ n ih =>
    obtain ⟨h1, h2⟩ := rd_wr g a l d k (BitVec.ofNat 32 v) ha hl
    obtain ⟨h3, h4⟩ := ih (wr g a d (BitVec.ofNat 32 v)) (d + 1) (v / 2 ^ 32)
    refine ⟨?_, h2.trans h4⟩
    have hn : (wr g a d (BitVec.ofNat 32 v)).nregs = g.nregs := congrArg (·.nregs) h2
    rw [wrN, h3, h1, hn]
    by_cases hk : k = d
    · subst hk
      rw [if_neg (by omega)]
      by_cases hc : l = a ∧ k < g.nregs
      · rw [if_pos ⟨hc.1, rfl, hc.2⟩, if_pos ⟨hc.1, le_rfl, by omega, hc.2⟩]
        simp
      · rw [if_neg (by tauto), if_neg (by tauto)]
    · by_cases hc : l = a ∧ d ≤ k ∧ k < d + (n + 1) ∧ k < g.nregs
      · rw [if_pos (by omega), if_pos hc, Nat.div_div_eq_div_mul, ← pow_add,
          show 32 + 32 * (k - (d + 1)) = 32 * (k - d) by omega]
      · rw [if_neg (by omega), if_neg (by omega), if_neg hc]

/-- Each of some lanes is given its number. -/
theorem rd_foldl_wrN (ls : List Nat) (hls : ∀ a ∈ ls, a < 32) (d n : Nat) (f : Nat → Nat) (g : Group) :
    RegsOnly g (ls.foldl (fun g l => wrN g l d (f l) n) g) ∧ ∀ l k, l < 32 →
      rd (ls.foldl (fun g l => wrN g l d (f l) n) g) l k =
        if l ∈ ls ∧ d ≤ k ∧ k < d + n ∧ k < g.nregs then BitVec.ofNat 32 (f l / 2 ^ (32 * (k - d))) else rd g l k := by
  induction ls generalizing g with
  | nil => exact ⟨rfl, fun l k _ => by simp⟩
  | cons a ls ih =>
    obtain ⟨h1, h2⟩ := ih (fun b hb => hls b (by simp [hb])) (wrN g a d (f a) n)
    have ha := hls a (by simp)
    have hr := (rd_wrN n g a 0 d 0 (f a) ha (by omega)).2
    refine ⟨hr.trans h1, fun l k hl => ?_⟩
    have hn : (wrN g a d (f a) n).nregs = g.nregs := congrArg (·.nregs) hr
    rw [List.foldl_cons, h2 l k hl, (rd_wrN n g a l d k (f a) ha hl).1, hn]
    by_cases hm : l ∈ ls
    · by_cases hc : d ≤ k ∧ k < d + n ∧ k < g.nregs
      · rw [if_pos ⟨hm, hc⟩, if_pos ⟨by simp [hm], hc⟩]
      · rw [if_neg (by tauto), if_neg (by tauto), if_neg (by tauto)]
    · by_cases he : l = a
      · subst he
        simp [hm]
      · rw [if_neg (by tauto), if_neg (by tauto), if_neg (by simp [hm, he])]

theorem rd_subs (g : Group) (l : List Sub) (a k : Nat) : rd { g with subs := l } a k = rd g a k := rfl

/-- Numbers given to the active lanes, with the subgroup past its instruction. -/
theorem wrote_foldl (i : Iss) (d n : Nat) (f : Nat → Nat) :
    Wrote i d n f { i.lanes.foldl (fun g l => wrN g l d (f l) n) i.g with subs := pass i.sub :: i.rest } := by
  obtain ⟨h1, h2⟩ := rd_foldl_wrN i.lanes (fun _ h => lanes_lt h) d n f i.g
  refine ⟨?_, h2⟩
  conv_lhs => rw [h1]

theorem wr_eq_wrN (g : Group) (l d : Nat) (v : W32) : wr g l d v = wrN g l d v.toNat 1 := by simp [wrN]

theorem eachLane_eq (i : Iss) (d : Nat) (f : Nat → W32) :
    eachLane i d f = i.lanes.foldl (fun g l => wrN g l d (f l).toNat 1) i.g := by
  unfold eachLane
  simp only [wr_eq_wrN]

/-- An instruction that retires with numbers given to its active lanes. -/
theorem retire_wrote (s : State) (i : Iss) (d n : Nat) (f : Nat → Nat) : ∃ g, Wrote i d n f g ∧
    retire s i (i.lanes.foldl (fun g l => wrN g l d (f l) n) i.g) = setGroup (went s i) i.key g :=
  ⟨_, wrote_foldl i d n f, rfl⟩

theorem retire_eachLane (s : State) (i : Iss) (d : Nat) (f : Nat → W32) :
    ∃ g, Wrote i d 1 (fun l => (f l).toNat) g ∧ retire s i (eachLane i d f) = setGroup (went s i) i.key g := by
  rw [eachLane_eq]
  exact retire_wrote s i d 1 _

/-- What is written depends on a number's low 32 bits. -/
theorem Wrote.congr {i : Iss} {d : Nat} {f f' : Nat → Nat} {g : Group} (h : Wrote i d 1 f g)
    (hf : ∀ l, BitVec.ofNat 32 (f l) = BitVec.ofNat 32 (f' l)) : Wrote i d 1 f' g := by
  refine ⟨h.1, fun l k hl => (h.2 l k hl).trans ?_⟩
  by_cases hc : l ∈ i.lanes ∧ d ≤ k ∧ k < d + 1 ∧ k < i.g.nregs
  · rw [if_pos hc, if_pos hc, show k - d = 0 by omega]
    simpa using hf l
  · rw [if_neg hc, if_neg hc]

theorem laneOp_wrote {s : State} {r : SgRef} {i : Iss} (h : issue s r = some i) (d : Nat) (f : Group → Nat → W32) :
    ∃ g, Wrote i d 1 (fun l => (f i.g l).toNat) g ∧ onCore s r (laneOp s r d f) = setGroup (went s i) i.key g := by
  rw [onCore_issue h, laneOp, h]
  exact retire_eachLane s i d _

/-- An operation whose result is a number: its low 32 bits are written. -/
theorem laneOp_wroteNat {s : State} {r : SgRef} {i : Iss} (h : issue s r = some i) (d : Nat) (f : Group → Nat → Nat) :
    ∃ g, Wrote i d 1 (f i.g) g ∧
      onCore s r (laneOp s r d fun g l => BitVec.ofNat 32 (f g l)) = setGroup (went s i) i.key g := by
  obtain ⟨g, hg, he⟩ := laneOp_wrote h d fun g l => BitVec.ofNat 32 (f g l)
  exact ⟨g, hg.congr fun l => by rw [BitVec.ofNat_toNat, BitVec.setWidth_eq], he⟩

/-- A special register with a defined value is written to the lanes. -/
theorem doSr_wrote {s : State} {r : SgRef} {i : Iss} {x : SReg} (h : issue s r = some i) (d : Reg) (hx : srFree i x = false)
    {n : Nat} {f : Nat → Nat} (hv : ∀ l, srVal s i x l = (f l, n)) :
    ∃ g, Wrote i d.val n f g ∧ onCore s r (doSr s r x d) = setGroup (went s i) i.key g := by
  rw [onCore_issue h, doSr, h]
  simp only [hx, hv]
  exact retire_wrote s i d.val n f

end Sys2Proof.Machine

open Sys2Proof Sys2Proof.Machine

/-- Settles O51: every instruction of these classes folds the write of a lane's value over the active lanes. -/
theorem laneInstructionsWriteTheirRegister : Obligations.LaneInstructionsWriteTheirRegister := by
  intro s r i h x gets
  have hfree {e : SReg} (he : e ≠ .tileBase ∧ e ≠ .tile) : srFree i e = false := by simp [srFree, he]
  have hnext {c : Instr} {u : State} {d : Reg} {n : Nat} {f : Nat → Nat} (hc : exec c s = .next u)
      (hg : ∃ g, Wrote i d.val n f g ∧ u = setGroup (went s i) i.key g) : gets c d n f := ⟨u, hc, hg⟩
  refine ⟨fun op d a b c => ?_, fun op d a b c => ?_, fun bf op d a b c => ?_, fun src dst d a scale rtz sat hform hscale => ?_,
    fun op d a => ?_, fun d e he => ?_, fun d p ord blk y hfrag hy => ⟨?_, ?_⟩, fun d hfrag e he => ?_, fun op d a b => ?_⟩
  · exact hnext rfl (laneOp_wrote h d.val fun g l => intOp op (rd g l a.val) (rd g l b.val) (rd g l c.val))
  · exact hnext rfl (laneOp_wroteNat h d.val fun g l =>
      fpOp ffFp32 op (rd g l a.val).toNat (rd g l b.val).toNat (rd g l c.val).toNat)
  · exact hnext rfl (laneOp_wroteNat h d.val fun g l =>
      pkOp bf op (rd g l a.val).toNat (rd g l b.val).toNat (rd g l c.val).toNat)
  · refine hnext rfl ?_
    rw [onCore_issue h, doConv, h]
    dsimp only
    rw [if_neg (by
      rw [hform]
      rintro (hf | ⟨hf, hg⟩)
      · cases hf
      · rw [hscale hf] at hg
        cases hg)]
    obtain ⟨g, hg, he⟩ := retire_eachLane s i d.val fun l =>
      BitVec.ofNat 32 (convOp src dst (scale.map fun k => (rd i.g l k.val).toNat) rtz sat (rd i.g l a.val).toNat)
    exact ⟨g, hg.congr fun l => by rw [BitVec.ofNat_toNat, BitVec.setWidth_eq], he⟩
  · exact hnext rfl (laneOp_wroteNat h d.val fun g l => transOp op (rd g l a.val))
  · have hcore := issue_core h
    simp only [List.mem_cons, List.not_mem_nil, or_false] at he
    rcases he with rfl | rfl | rfl | rfl | rfl | rfl | rfl | rfl | rfl | rfl | rfl | rfl | rfl | rfl | rfl | rfl | rfl | rfl
    all_goals exact hnext rfl (doSr_wrote h d (hfree (by simp)) fun l => by simp [srVal, hcore])
  · refine hnext rfl (doSr_wrote h d (by simp [srFree, hfrag]) fun l => ?_)
    simp [srVal, hfrag, hy]
  · refine hnext rfl (doSr_wrote h d (by simp [srFree, hfrag]) fun l => ?_)
    simp [srVal, hfrag, hy]
  · obtain ⟨f, hv⟩ : ∃ f : Nat → Nat, ∀ l, srVal s i e l = (f l, 1) := by
      simp only [List.mem_cons, List.not_mem_nil, or_false] at he
      rcases he with rfl | rfl
      all_goals exact ⟨fun l => (Config.freeValue (s.free + l)).toNat, fun l => by simp [srVal, hfrag]⟩
    have hfr : srFree i e = true := by
      simp only [List.mem_cons, List.not_mem_nil, or_false] at he
      rcases he with rfl | rfl <;> simp [srFree, hfrag]
    obtain ⟨g, hg, hr⟩ := retire_wrote s i d.val 1 f
    refine ⟨_, rfl, ?_⟩
    beta_reduce
    rw [onCore_issue h, doSr, h]
    simp only [hfr, hv]
    rw [if_pos trivial, hr]
    have hm : Only [.flt] s (went s i) := moves_only s _
    refine ⟨⟨g, f, hg, ?_⟩, ?_⟩
    · rw [drewN_cores, setGroup, setGroup, show (went s i).cores = s.cores from hm .cores (by decide)]
    · have hs : Only [.cores, .free] (went s i) (drewN (setGroup (went s i) i.key g) 32) := fun p hp => by
        cases p <;> first | (simp at hp; done) | rfl
      exact (hm.mono (by simp)).trans (hs.mono (by simp))
  · refine hnext rfl ?_
    rw [onCore_issue h, doLane, h]
    exact retire_eachLane s i d.val _
end

section
/-! Proofs: branches and joins (spec/08 R227, R228). -/

namespace Sys2Proof.Machine

/-! ## A split by target -/

/-- Subgroups that cover some lanes, each lane ready at its own target, and no other lane. -/
structure SplitAt (u : Sub) (t : Nat → W64) (ls : List Nat) (l : List Sub) : Prop where
  covers : ∀ k ∈ ls, ∃ v ∈ l, bit v.mask k = true ∧ v.pc = t k
  only : ∀ v ∈ l, ∀ k, bit v.mask k = true → k ∈ ls ∧ v.pc = t k
  wait : ∀ v ∈ l, v.wait = u.wait

theorem bit_or (a b : W32) (k : Nat) : bit (a ||| b) k = (bit a k || bit b k) := by simp [bit]

theorem bit_one {l : Nat} (hl : l < 32) (k : Nat) : bit (BitVec.ofNat 32 (2 ^ l)) k = decide (l = k) := by
  rw [bit, BitVec.toNat_ofNat, Nat.mod_eq_of_lt (Nat.pow_lt_pow_right (by omega) hl), Nat.testBit_two_pow]

/-- A lane joins the subgroup at its target, or makes one. -/
theorem SplitAt.add {u : Sub} {t : Nat → W64} {ls : List Nat} {l : List Sub} (h : SplitAt u t ls l) {a : Nat} (ha : a < 32) :
    SplitAt u t (ls ++ [a]) (if l.any fun v => v.pc = t a then
      l.map fun v => if v.pc = t a then { v with mask := v.mask ||| BitVec.ofNat 32 (2 ^ a) } else v
    else l ++ [{ u with mask := BitVec.ofNat 32 (2 ^ a), pc := t a }]) := by
  have hme := bit_one ha
  generalize BitVec.ofNat 32 (2 ^ a) = me at hme ⊢
  split
  · rename_i hany
    have hpc (v : Sub) : (if v.pc = t a then { v with mask := v.mask ||| me } else v).pc = v.pc := by
      split <;> rfl
    have hbit (v : Sub) (k : Nat) : bit (if v.pc = t a then { v with mask := v.mask ||| me } else v).mask k =
        true ↔ bit v.mask k = true ∨ v.pc = t a ∧ k = a := by
      split <;> rename_i hv <;> simp [bit_or, hme, hv, eq_comm (a := k)]
    refine ⟨fun k hk => ?_, fun w hw k hk => ?_, fun w hw => ?_⟩
    · rcases List.mem_append.1 hk with hk | hk
      · obtain ⟨v, hv, hb, hp⟩ := h.covers k hk
        exact ⟨_, List.mem_map.2 ⟨v, hv, rfl⟩, (hbit v k).2 (.inl hb), (hpc v).trans hp⟩
      · obtain rfl := List.mem_singleton.1 hk
        obtain ⟨v, hv, hp⟩ := List.any_eq_true.1 hany
        have hp : v.pc = t k := by simpa using hp
        exact ⟨_, List.mem_map.2 ⟨v, hv, rfl⟩, (hbit v k).2 (.inr ⟨hp, rfl⟩), (hpc v).trans hp⟩
    · obtain ⟨v, hv, rfl⟩ := List.mem_map.1 hw
      rw [hpc]
      rcases (hbit v k).1 hk with hb | ⟨hp, rfl⟩
      · obtain ⟨h1, h2⟩ := h.only v hv k hb
        exact ⟨List.mem_append_left _ h1, h2⟩
      · exact ⟨by simp, hp⟩
    · obtain ⟨v, hv, rfl⟩ := List.mem_map.1 hw
      rw [← h.wait v hv]
      split <;> rfl
  · refine ⟨fun k hk => ?_, fun w hw k hk => ?_, fun w hw => ?_⟩
    · rcases List.mem_append.1 hk with hk | hk
      · obtain ⟨v, hv, hb, hp⟩ := h.covers k hk
        exact ⟨v, List.mem_append_left _ hv, hb, hp⟩
      · obtain rfl := List.mem_singleton.1 hk
        exact ⟨_, List.mem_append_right _ (List.mem_singleton.2 rfl), by simp [hme], rfl⟩
    · rcases List.mem_append.1 hw with hw | hw
      · obtain ⟨h1, h2⟩ := h.only w hw k hk
        exact ⟨List.mem_append_left _ h1, h2⟩
      · obtain rfl := List.mem_singleton.1 hw
        obtain rfl : a = k := by simpa [hme] using hk
        exact ⟨by simp, rfl⟩
    · rcases List.mem_append.1 hw with hw | hw
      · exact h.wait w hw
      · obtain rfl := List.mem_singleton.1 hw
        rfl

theorem splitBy_at (u : Sub) (t : Nat → W64) (ls : List Nat) (hls : ∀ k ∈ ls, k < 32) (done : List Nat) (acc : List Sub)
    (h : SplitAt u t done acc) : SplitAt u t (done ++ ls) (splitBy u t ls acc) := by
  induction ls generalizing done acc with
  | nil => simpa [splitBy] using h
  | cons a ls ih =>
    rw [show done ++ a :: ls = done ++ [a] ++ ls by simp, splitBy]
    exact ih (fun k hk => hls k (by simp [hk])) _ _ (h.add (hls a (by simp)))

/-- The issuing subgroup split by the lanes' targets. -/
theorem splitBy_issue {s : State} {r : SgRef} {i : Iss} (h : issue s r = some i) (t : Nat → W64) :
    SplitAt i.sub t i.lanes (splitBy i.sub t i.lanes []) ∧ i.sub.wait = .ready :=
  ⟨splitBy_at i.sub t i.lanes (fun _ hk => lanes_lt hk) [] [] ⟨by simp, by simp, by simp⟩, (issue_some h).2.2.2.2⟩

/-- The registers after a branch: a call's link pair in each active lane. -/
theorem linkRegs_link (i : Iss) (op : BrOp) {d : Reg} (hop : (∃ t, op = .call t d) ∨ ∃ r, op = .callReg r d) :
    RegsOnly i.g (linkRegs i op) ∧ ∀ k m, k < 32 → rd (linkRegs i op) k m =
      if k ∈ i.lanes ∧ d.val ≤ m ∧ m < d.val + 2 ∧ m < i.g.nregs then
        BitVec.ofNat 32 ((nextPc i.sub.pc).toNat / 2 ^ (32 * (m - d.val))) else rd i.g k m := by
  have h := rd_foldl_wrN i.lanes (fun _ h => lanes_lt h) d.val 2 (fun _ => (nextPc i.sub.pc).toNat) i.g
  rcases hop with ⟨t, rfl⟩ | ⟨r, rfl⟩
  · exact h
  · exact h

/-! ## Joins -/

/-- One step of the release of a group's JOINs: those at the place where a subgroup waits, if every lane has arrived. -/
def joinStep (g : Group) (u : Sub) : Group :=
  match u.wait with
  | .join m =>
    let here := g.subs.filter (atJoin u.pc)
    let arrived := here.foldl (fun a v => a ||| v.mask) g.exited
    if here.isEmpty ∨ m &&& ~~~arrived ≠ 0 then g
    else
      let j := mergeSubs { u with wait := .ready } here
      { g with subs := pass j :: g.subs.filter fun v => !atJoin u.pc v }
  | _ => g

theorem joinCheck_eq (g : Group) : joinCheck g = g.subs.foldl joinStep g := rfl

/-- Subgroups that wait at no JOIN, or at one where none of the group's stands, release nothing. -/
theorem foldl_joinStep_idle (g : Group) (l : List Sub)
    (h : ∀ v ∈ l, ∀ k, v.wait = .join k → g.subs.filter (atJoin v.pc) = []) : l.foldl joinStep g = g := by
  induction l with
  | nil => rfl
  | cons v l ih =>
    have hv : joinStep g v = g := by
      unfold joinStep
      split
      · rename_i m hw
        dsimp only
        rw [h v (by simp) m hw]
        rfl
      · rfl
    rw [List.foldl_cons, hv]
    exact ih fun w hw => h w (by simp [hw])

theorem bit_foldl_or (l : List Sub) (a : W32) (k : Nat) :
    bit (l.foldl (fun a v => a ||| v.mask) a) k = true ↔ bit a k = true ∨ ∃ v ∈ l, bit v.mask k = true := by
  induction l generalizing a with
  | nil => simp
  | cons v l ih => rw [List.foldl_cons, ih, bit_or, Bool.or_eq_true, or_assoc, List.exists_mem_cons_iff]

/-- A mask of which every lane has arrived. -/
theorem and_not_eq_zero {m a : W32} : m &&& ~~~a = 0 ↔ ∀ l, l < 32 → bit m l = true → bit a l = true := by
  constructor
  · intro h l hl hm
    have hb := congrArg (fun w : W32 => w.getLsbD l) h
    simp only [BitVec.getLsbD_and, BitVec.getLsbD_not, BitVec.ofNat_eq_ofNat, BitVec.getLsbD_zero, hl, decide_true, Bool.true_and]
        at hb
    rw [show m.getLsbD l = true from hm] at hb
    simpa [bit, BitVec.getLsbD] using hb
  · intro h
    refine BitVec.eq_of_getLsbD_eq fun l hl => ?_
    simp only [BitVec.getLsbD_and, BitVec.getLsbD_not, BitVec.ofNat_eq_ofNat, BitVec.getLsbD_zero, hl, decide_true, Bool.true_and]
    cases hm : m.getLsbD l with
    | false => rfl
    | true =>
      rw [show a.getLsbD l = true from h l hl hm]
      rfl

/-- The subgroups of an issue with the issuing one at a JOIN. -/
def joining (i : Iss) (m : W32) : Group := { i.g with subs := { i.sub with wait := .join m } :: i.rest }

theorem doJoin_eq {s : State} {r : SgRef} {i : Iss} (h : issue s r = some i) (m : W32) :
    onCore s r (doJoin s r m) = setGroup s i.key (joinCheck (joining i m)) := by
  rw [onCore_issue h, doJoin, h]
  rfl

/-- The subgroups that stand at the place of the issue's JOIN: itself and those that have arrived before. -/
theorem joining_here (i : Iss) (m : W32) :
    (joining i m).subs.filter (atJoin i.sub.pc) = { i.sub with wait := .join m } :: i.rest.filter (atJoin i.sub.pc) :=
  List.filter_cons_of_pos (by simp [atJoin])

theorem joining_away (i : Iss) (m : W32) :
    ((joining i m).subs.filter fun v => !atJoin i.sub.pc v) = i.rest.filter fun v => !atJoin i.sub.pc v :=
  List.filter_cons_of_neg (by simp [atJoin])

/-- The lanes that have arrived at the issue's JOIN or exited. -/
theorem joining_arrived (i : Iss) (m : W32) (k : Nat) :
    bit (((joining i m).subs.filter (atJoin i.sub.pc)).foldl (fun a v => a ||| v.mask) (joining i m).exited) k = true ↔
      bit i.g.exited k = true ∨ bit i.sub.mask k = true ∨ ∃ v ∈ i.rest, atJoin i.sub.pc v = true ∧ bit v.mask k = true := by
  rw [bit_foldl_or, joining_here, List.exists_mem_cons_iff]
  simp only [List.mem_filter, and_assoc]
  rfl

/-- The first step of the check is that of the issue's own JOIN. -/
theorem joinCheck_joining (i : Iss) (m : W32) :
    joinCheck (joining i m) = i.rest.foldl joinStep (joinStep (joining i m) { i.sub with wait := .join m }) := rfl

theorem joinStep_waits {i : Iss} {m : W32} {l : Nat} (hl : l < 32) (hm : bit m l = true) (hn : l ∉ i.lanes)
    (he : bit i.g.exited l = false) (hr : ∀ v ∈ i.rest, ∀ k, v.wait ≠ .join k) :
    joinStep (joining i m) { i.sub with wait := .join m } = joining i m := by
  refine if_pos (.inr fun hz => ?_)
  rcases (joining_arrived i m l).1 (and_not_eq_zero.1 hz l hl hm) with h | h | ⟨v, hv, hj, -⟩
  · rw [he] at h
    cases h
  · exact hn (mem_lanesOf.2 ⟨hl, h⟩)
  · unfold atJoin at hj
    split at hj
    · rename_i k hk
      exact hr v hv k hk
    · cases hj

/-- The subgroup that a completed JOIN makes. -/
def joined (i : Iss) (m : W32) : Sub :=
  pass (mergeSubs { i.sub with wait := .ready } ((joining i m).subs.filter (atJoin i.sub.pc)))

theorem joined_spec (i : Iss) (m : W32) : (joined i m).pc = nextPc i.sub.pc ∧ (joined i m).wait = .ready ∧
    ∀ l, l < 32 → (bit (joined i m).mask l = true ↔
      l ∈ i.lanes ∨ ∃ v ∈ i.rest, atJoin i.sub.pc v = true ∧ bit v.mask l = true) := by
  obtain ⟨h1, h2, h3⟩ := mergeSubs_keeps ((joining i m).subs.filter (atJoin i.sub.pc)) { i.sub with wait := .ready }
  refine ⟨congrArg nextPc h2, h1, fun l hl => ?_⟩
  rw [show (joined i m).mask = _ from rfl, joined, pass, h3, joining_here, List.exists_mem_cons_iff]
  simp only [List.mem_filter, and_assoc, Iss.lanes, mem_lanesOf, hl, true_and]
  tauto

theorem joinStep_completes {i : Iss} {m : W32} (h : ∀ l, l < 32 → bit m l = true → l ∈ i.lanes ∨ bit i.g.exited l = true ∨
      ∃ v ∈ i.rest, atJoin i.sub.pc v = true ∧ bit v.mask l = true) :
    joinStep (joining i m) { i.sub with wait := .join m } =
      { i.g with subs := joined i m :: i.rest.filter fun v => !atJoin i.sub.pc v } := by
  have hz : m &&& ~~~(((joining i m).subs.filter (atJoin i.sub.pc)).foldl (fun a v => a ||| v.mask) (joining i m).exited) = 0 := by
    rw [and_not_eq_zero]
    intro l hl hm
    rw [joining_arrived]
    rcases h l hl hm with h | h | h
    · exact .inr (.inl (mem_lanesOf.1 h).2)
    · exact .inl h
    · exact .inr (.inr h)
  rw [← joining_away i m]
  refine if_neg ?_
  rintro (hc | hc)
  · rw [joining_here] at hc
    simp at hc
  · exact hc hz

/-- Once the issue's JOIN has completed, no other subgroup stands at that place. -/
theorem joined_gone (i : Iss) (m : W32) :
    (joined i m :: i.rest.filter fun v => !atJoin i.sub.pc v).filter (atJoin i.sub.pc) = [] := by
  have hj : atJoin i.sub.pc (joined i m) = false := by
    unfold atJoin
    rw [(joined_spec i m).2.1]
  rw [List.filter_cons_of_neg (by simp [hj]), List.filter_filter]
  simp

end Sys2Proof.Machine

open Sys2Proof Sys2Proof.Machine

/-- Settles O52: a branch splits its lanes by target, and a JOIN's own step of the check decides it. -/
theorem branchesSplitAndJoinsMerge : Obligations.BranchesSplitAndJoinsMerge := by
  intro s r i h
  refine ⟨fun op => ?_, fun m hsame harr => ?_, fun m l hrest hl hm hn he => ?_⟩
  · have ht : onCore s r (doBranch s r op) = setGroup (went s i) i.key
        { linkRegs i op with subs := splitBy i.sub (brTarget i op) i.lanes [] ++ i.rest } := by
      rw [onCore_issue h, doBranch, h]
      rfl
    obtain ⟨hsplit, hw⟩ := splitBy_issue h (brTarget i op)
    refine ⟨_, congrArg Host.Outcome.next ht, ?_⟩
    have hcover : ∀ k ∈ i.lanes, ∃ u ∈ splitBy i.sub (brTarget i op) i.lanes [],
        bit u.mask k = true ∧ u.pc = brTarget i op k ∧ u.wait = .ready := fun k hk => by
      obtain ⟨u, hu, hb, hp⟩ := hsplit.covers k hk
      exact ⟨u, hu, hb, hp, (hsplit.wait u hu).trans hw⟩
    cases op with
    | call t d =>
      obtain ⟨hr, hlink⟩ := linkRegs_link i (.call t d) (d := d) (.inl ⟨t, rfl⟩)
      exact ⟨_, _, rfl, by conv_lhs => rw [hr], hcover, hsplit.only, hlink⟩
    | callReg t d =>
      obtain ⟨hr, hlink⟩ := linkRegs_link i (.callReg t d) (d := d) (.inr ⟨t, rfl⟩)
      exact ⟨_, _, rfl, by conv_lhs => rw [hr], hcover, hsplit.only, hlink⟩
    | cond t a => exact ⟨_, _, rfl, rfl, hcover, hsplit.only, rfl⟩
    | always a => exact ⟨_, _, rfl, rfl, hcover, hsplit.only, rfl⟩
    | indirect t => exact ⟨_, _, rfl, rfl, hcover, hsplit.only, rfl⟩
    | ret t => exact ⟨_, _, rfl, rfl, hcover, hsplit.only, rfl⟩
  · obtain ⟨hpc, hwait, hmask⟩ := joined_spec i m
    refine ⟨_, congrArg Host.Outcome.next (doJoin_eq h m), joined i m, hpc, hwait, hmask, ?_⟩
    rw [joinCheck_joining, joinStep_completes harr, foldl_joinStep_idle]
    intro v hv k hk
    rw [hsame v hv k hk]
    exact joined_gone i m
  · refine congrArg Host.Outcome.next ((doJoin_eq h m).trans ?_)
    rw [joinCheck_joining, joinStep_waits hl hm hn he hrest, foldl_joinStep_idle]
    · rfl
    · exact fun v hv k hk => absurd hk (hrest v hv k)
end

section
/-! Proofs: message channels, barriers, fences and the ends of lanes (spec/08 R226, R239 to R241, R258 to R261, R268). -/

namespace Sys2Proof.Machine

/-! ## What an instruction that retires leaves -/

theorem retire_self (s : State) (i : Iss) : retire s i i.g = setGroup (went s i) i.key (passed i) := rfl

theorem retire_only (s : State) (i : Iss) (g : Group) : Only [.cores, .flt] s (retire s i g) := by
  have h : Only [.cores] (went s i) (retire s i g) := fun p hp => by cases p <;> first | (simp at hp; done) | rfl
  exact ((moves_only s _).mono (by simp)).trans (h.mono (by simp))

theorem retire_cores (s : State) (i : Iss) (g : Group) : (retire s i g).cores =
    { s.cores with groups := tset s.cores.groups i.key { g with subs := pass i.sub :: i.rest } } := by
  rw [show (retire s i g).cores =
    { (went s i).cores with groups := tset (went s i).cores.groups i.key { g with subs := pass i.sub :: i.rest } } from rfl,
    show (went s i).cores = s.cores from moves_only s _ .cores (by decide)]

theorem retire_group (s : State) (i : Iss) (g : Group) :
    tget (retire s i g).cores.groups i.key = some { g with subs := pass i.sub :: i.rest } := by
  rw [retire_cores]
  exact tget_tset_same _ _ _

theorem cores_only {s t : State} (h : t = { s with cores := t.cores }) : Only [.cores] s t := by
  rw [h]
  exact fun p hp => by cases p <;> first | (simp at hp; done) | rfl

/-! ## Channels (R258 to R260, R297) -/

theorem chanGrant_quarter {s : State} {key q k : Nat} {es : List Nat} (hg : granted s key (q :: es) = some k) (hk : k = q)
    (serve : State → Nat → State) : chanGrant s key q es serve = (passToken s key k 8, some ()) := by
  rw [chanGrant, hg]
  exact if_pos hk

theorem chanGrant_engine {s : State} {key q k : Nat} {es : List Nat} (hg : granted s key (q :: es) = some k) (hk : k ≠ q)
    (serve : State → Nat → State) : chanGrant s key q es serve = (passToken (serve s (k - 4)) key k 8, none) := by
  rw [chanGrant, hg]
  exact if_neg hk

/-- The data of a SEND whose local address may be accessed. -/
def sendWord (s : State) (r : SgRef) (i : Iss) : MsgForm → W512
  | .regs v => msgRegs i v.val
  | .mem v => BitVec.ofNat 512 (mnat s.cores.lm (lmKey r.core.val (rd i.g i.low v.val).toNat) 64)

theorem sendData_ok {s : State} {r : SgRef} {i : Iss} (h : issue s r = some i) {form : MsgForm}
    (hf : ∀ v, form = .mem v → lmOk (rd i.g i.low v.val).toNat 64 = true) : sendData s i form = some (sendWord s r i form) := by
  cases form with
  | regs v => rfl
  | mem v =>
    rw [sendData, if_pos (hf v rfl), issue_core h]
    rfl

section Send

variable {s : State} {r : SgRef} {i : Iss} {ch : Fin 16} {o : OutCh} {form : MsgForm} {rel : Option Scope}
  (h : issue s r = some i) (hs : chanScope rel = true) (ho : tget s.cores.outs (r.core.val * 16 + ch.val) = some o)
  (hc : o.credits ≠ 0)

include h hs ho hc

theorem doSend_waits {sc : Scope} (hrel : rel = some sc) (hn : (release s i sc).2 = none) :
    onCore s r (doSend s r ch form rel) = (release s i sc).1 := by
  subst hrel
  rcases hw : release s i sc with ⟨u, v⟩
  rw [hw] at hn
  obtain rfl : v = none := hn
  rw [onCore_issue h, doSend, h]
  simp only [hs, issue_core h, ho, hw]
  rw [if_neg (by simp), if_neg hc]

variable (hf : ∀ v, form = .mem v → lmOk (rd i.g i.low v.val).toNat 64 = true)
  (hrel : ∀ sc, rel = some sc → release s i sc = (s, some ())) {k : Nat}
  (hg : granted s (outToken r.core.val ch.val) (i.quarter :: creditClaims s r.core.val ch.val) = some k)

include hf hrel hg

theorem doSend_quarter (hk : k = i.quarter) : onCore s r (doSend s r ch form rel) =
    retire (sendMsg (passToken s (outToken r.core.val ch.val) k 8) (r.core.val * 16 + ch.val) o (sendWord s r i form)) i i.g := by
  have hd := sendData_ok h hf
  have hgr := chanGrant_quarter hg hk fun s e => engineSends s r.core.val ch.val e
  rw [onCore_issue h, doSend, h]
  cases rel with
  | none =>
    simp only [hs, issue_core h, ho, hd, hgr]
    rw [if_neg (by simp), if_neg hc]
  | some sc =>
    simp only [hs, issue_core h, ho, hrel sc rfl, hd, hgr]
    rw [if_neg (by simp), if_neg hc]

theorem doSend_engine (hk : k ≠ i.quarter) : onCore s r (doSend s r ch form rel) =
    passToken (engineSends s r.core.val ch.val (k - 4)) (outToken r.core.val ch.val) k 8 := by
  have hd := sendData_ok h hf
  have hgr := chanGrant_engine hg hk fun s e => engineSends s r.core.val ch.val e
  rw [onCore_issue h, doSend, h]
  cases rel with
  | none =>
    simp only [hs, issue_core h, ho, hd, hgr]
    rw [if_neg (by simp), if_neg hc]
  | some sc =>
    simp only [hs, issue_core h, ho, hrel sc rfl, hd, hgr]
    rw [if_neg (by simp), if_neg hc]

end Send

section Recv

variable {s : State} {r : SgRef} {i : Iss} {ch : Fin 16} {acq : Option Scope} {m : W512} {rest : List W512} {k : Nat}
  (h : issue s r = some i) (hs : chanScope acq = true) (hb : tgetD s.cores.inbox (r.core.val * 16 + ch.val) [] = m :: rest)
  (hg : granted s (inToken r.core.val ch.val) (i.quarter :: msgClaims s r.core.val ch.val) = some k)

include h hs hb hg

theorem doRecv_regs (v : Reg) (hk : k = i.quarter) : onCore s r (doRecv s r ch (.regs v) acq) =
    retire (takeMsg (passToken s (inToken r.core.val ch.val) k 8) (r.core.val * 16 + ch.val) rest) i
      ((i.lanes.filter (· < 16)).foldl (fun g j => wr g j v.val (BitVec.ofNat 32 (bits m (32 * j + 31) (32 * j)))) i.g) := by
  have hgr := chanGrant_quarter hg hk fun s e => engineTakes s r.core.val ch.val e
  rw [onCore_issue h, doRecv, h]
  simp only [hs, issue_core h, hb, hgr]
  rw [if_neg (by simp)]

theorem doRecv_mem (v : Reg) (hk : k = i.quarter) (hl : lmOk (rd i.g i.low v.val).toNat 64 = true) :
    onCore s r (doRecv s r ch (.mem v) acq) =
      retire (lmWrite (takeMsg (passToken s (inToken r.core.val ch.val) k 8) (r.core.val * 16 + ch.val) rest) r.core.val
        (rd i.g i.low v.val).toNat (toLE 64 m.toNat)) i i.g := by
  have hgr := chanGrant_quarter hg hk fun s e => engineTakes s r.core.val ch.val e
  rw [onCore_issue h, doRecv, h]
  simp only [hs, issue_core h, hb, hgr]
  rw [if_neg (by simp), if_neg (by simp [hl])]

theorem doRecv_engine (form : MsgForm) (hk : k ≠ i.quarter) : onCore s r (doRecv s r ch form acq) =
    passToken (engineTakes s r.core.val ch.val (k - 4)) (inToken r.core.val ch.val) k 8 := by
  have hgr := chanGrant_engine hg hk fun s e => engineTakes s r.core.val ch.val e
  rw [onCore_issue h, doRecv, h]
  simp only [hs, issue_core h, hb, hgr]
  rw [if_neg (by simp)]

end Recv

theorem takeMsg_only (s : State) (key : Nat) (rest : List W512) : Only [.cores] s (takeMsg s key rest) := cores_only rfl

theorem passToken_only (s : State) (key k n : Nat) : Only [.cores] s (passToken s key k n) := cores_only rfl

/-- The 32-bit words of a message given to the active lanes below 16. -/
theorem recvRegs (i : Iss) (d : Nat) (m : W512) :
    let g := (i.lanes.filter (· < 16)).foldl (fun g j => wr g j d (BitVec.ofNat 32 (bits m (32 * j + 31) (32 * j)))) i.g
    RegsOnly i.g g ∧ ∀ l k, l < 32 → rd g l k = if l ∈ i.lanes ∧ l < 16 ∧ k = d ∧ k < i.g.nregs then
      BitVec.ofNat 32 (bits m (32 * l + 31) (32 * l)) else rd i.g l k := by
  have hls : ∀ a ∈ i.lanes.filter (· < 16), a < 32 := fun a ha => lanes_lt (List.mem_filter.1 ha).1
  obtain ⟨h1, h2⟩ := rd_foldl_wrN _ hls d 1 (fun j => (BitVec.ofNat 32 (bits m (32 * j + 31) (32 * j))).toNat) i.g
  simp only [wr_eq_wrN]
  refine ⟨h1, fun l k hl => ?_⟩
  rw [h2 l k hl]
  have hm : l ∈ i.lanes.filter (· < 16) ↔ l ∈ i.lanes ∧ l < 16 := by simp
  by_cases hc : l ∈ i.lanes ∧ l < 16 ∧ k = d ∧ k < i.g.nregs
  · obtain ⟨h3, h4, rfl, h5⟩ := hc
    rw [if_pos ⟨hm.2 ⟨h3, h4⟩, le_rfl, by omega, h5⟩, if_pos ⟨h3, h4, rfl, h5⟩, Nat.sub_self, Nat.mul_zero, pow_zero,
      Nat.div_one, BitVec.ofNat_toNat, BitVec.setWidth_eq]
  · rw [if_neg hc, if_neg]
    rintro ⟨h3, h4, h5, h6⟩
    exact hc ⟨(hm.1 h3).1, (hm.1 h3).2, by omega, h6⟩

/-- Of two values, the first goes before the second, for one more lane as for those before it. -/
theorem ite_two_cons {α : Type} {p q r e d : Prop} [Decidable p] [Decidable q] [Decidable r] [Decidable e] [Decidable d]
    (h : r ↔ p ∨ q) (c n z : α) :
    (if p ∧ e then c else if p ∧ d then n else if q ∧ e then c else if q ∧ d then n else z) =
      if r ∧ e then c else if r ∧ d then n else z := by
  grind

/-- Two registers given to each of some lanes, the second over the first. -/
theorem rd_foldl_two (ls : List Nat) (hls : ∀ a ∈ ls, a < 32) (d e : Nat) (n c : W32) (g : Group) :
    RegsOnly g (ls.foldl (fun g l => wr (wr g l d n) l e c) g) ∧ ∀ l k, l < 32 →
      rd (ls.foldl (fun g l => wr (wr g l d n) l e c) g) l k =
        if l ∈ ls ∧ k = e ∧ k < g.nregs then c else if l ∈ ls ∧ k = d ∧ k < g.nregs then n else rd g l k := by
  induction ls generalizing g with
  | nil => exact ⟨rfl, fun l k _ => by simp⟩
  | cons a ls ih =>
    have ha := hls a (by simp)
    have h1 := fun l k (hl : l < 32) => rd_wr g a l d k n ha hl
    have h2 := fun l k (hl : l < 32) => rd_wr (wr g a d n) a l e k c ha hl
    have hr := (h1 0 0 (by omega)).2.trans (h2 0 0 (by omega)).2
    have hn1 : (wr g a d n).nregs = g.nregs := congrArg (·.nregs) (h1 0 0 (by omega)).2
    have hn : (wr (wr g a d n) a e c).nregs = g.nregs := congrArg (·.nregs) hr
    obtain ⟨h3, h4⟩ := ih (fun b hb => hls b (by simp [hb])) (wr (wr g a d n) a e c)
    refine ⟨hr.trans h3, fun l k hl => ?_⟩
    rw [List.foldl_cons, h4 l k hl, (h2 l k hl).1, (h1 l k hl).1, hn, hn1]
    exact ite_two_cons (by rw [List.mem_cons, or_comm]) c n _

/-! ## Barriers (R240) -/

/-- The entry of a table with rising keys is the one read. -/
theorem tget_of_mem {α : Type} {t : Tbl α} (h : Tbl.wf t = true) {n : Nat} {v : α} (hm : (n, v) ∈ t) : tget t n = some v := by
  rw [Tbl.wf_iff] at h
  induction t with
  | nil => cases hm
  | cons e t ih =>
    obtain ⟨k, w⟩ := e
    obtain ⟨h1, h2⟩ := List.pairwise_cons.1 h
    rcases List.mem_cons.1 hm with he | hm
    · cases he
      exact if_pos rfl
    · have := h1 _ hm
      rw [tget, if_neg (by simp only at this; omega)]
      exact ih h2 hm

/-- The groups of some blocks. -/
def ofBlocks (ids : List Nat) (e : Nat × Group) : Bool := ids.contains e.2.block

theorem barRelease_holds {s : State} {w : SubWait} {ids : List Nat} {k : Nat} {g : Group} (hg : tget s.cores.groups k = some g)
    (hb : g.block ∈ ids) {u : Sub} (hu : u ∈ g.subs) (hw : u.wait ≠ w) : barRelease s w ids = s := by
  refine if_neg fun h => ?_
  have hm : (k, g) ∈ s.cores.groups.filter fun e => ids.contains e.2.block :=
    List.mem_filter.2 ⟨tget_mem hg, by simpa using hb⟩
  have hall := List.all_eq_true.1 (List.all_eq_true.1 h _ hm) u hu
  exact hw (by simpa using hall)

/-- A barrier whose groups have all arrived. -/
def barGone (s : State) (w : SubWait) (ids : List Nat) : State :=
  { s with cores := { s.cores with
    groups := s.cores.groups.map fun e => if ids.contains e.2.block then (e.1, groupGo w e.2) else e } }

theorem barRelease_goes {s : State} {w : SubWait} {ids : List Nat} (hwf : Tbl.wf s.cores.groups = true)
    (h : ∀ k g, tget s.cores.groups k = some g → g.block ∈ ids → ∀ u ∈ g.subs, u.wait = w) :
    barRelease s w ids = barGone s w ids := by
  refine if_pos (List.all_eq_true.2 fun e he => ?_)
  obtain ⟨hm, hi⟩ := List.mem_filter.1 he
  have hg := tget_of_mem hwf (n := e.1) (v := e.2) hm
  exact List.all_eq_true.2 fun u hu => by simpa using h _ _ hg (by simpa using hi) u hu

theorem barGone_groups (s : State) (w : SubWait) (ids : List Nat) (k : Nat) : tget (barGone s w ids).cores.groups k =
    (tget s.cores.groups k).map fun g => if ids.contains g.block then groupGo w g else g := by
  have h : (barGone s w ids).cores.groups = tmap s.cores.groups fun _ g => if ids.contains g.block then groupGo w g else g := by
    refine List.map_congr_left fun e _ => ?_
    split <;> rename_i hc <;> beta_reduce
    · rw [if_pos hc]
    · rw [if_neg hc]
  rw [h, tget_tmap]

theorem barGone_only (s : State) (w : SubWait) (ids : List Nat) : Only [.cores] s (barGone s w ids) := cores_only rfl

theorem holdIss_only (s : State) (i : Iss) (w : SubWait) : Only [.cores] s (holdIss s i w) := cores_only rfl

/-- The group of an issue that waits. -/
def holding (i : Iss) (w : SubWait) : Group := { i.g with subs := { i.sub with wait := w } :: i.rest }

theorem holdIss_groups (s : State) (i : Iss) (w : SubWait) (k : Nat) :
    tget (holdIss s i w).cores.groups k = if k = i.key then some (holding i w) else tget s.cores.groups k := tget_tset _ _ _ _

/-- The last subgroup arrives at a barrier over some blocks. -/
theorem holdIss_released {s : State} {i : Iss} {w : SubWait} {ids : List Nat} (hwf : Tbl.wf s.cores.groups = true)
    (hw : i.sub.wait = .ready) (hid : i.g.block ∈ ids) (hrest : ∀ u ∈ i.rest, u.wait = w)
    (hg : ∀ k g, tget s.cores.groups k = some g → k ≠ i.key → g.block ∈ ids → ∀ u ∈ g.subs, u.wait = w) :
    barRelease (holdIss s i w) w ids = barGone (holdIss s i w) w ids ∧
    tget (barGone (holdIss s i w) w ids).cores.groups i.key = some { i.g with
      subs := pass i.sub :: i.rest.map fun u => pass { u with wait := .ready } } ∧
    ∀ k g, tget s.cores.groups k = some g → k ≠ i.key → g.block ∈ ids →
      tget (barGone (holdIss s i w) w ids).cores.groups k = some (groupGo w g) := by
  refine ⟨barRelease_goes (tset_wf hwf _ _) fun k g hk hb u hu => ?_, ?_, fun k g hk hne hb => ?_⟩
  · rw [holdIss_groups] at hk
    split at hk
    · obtain rfl := Option.some.inj hk
      rcases List.mem_cons.1 hu with rfl | hu
      · rfl
      · exact hrest u hu
    · exact hg k g hk ‹_› hb u hu
  · have hself : { i.sub with wait := .ready } = i.sub := by rw [← hw]
    have hmap : (i.rest.map fun u => if u.wait = w then pass { u with wait := .ready } else u) =
        i.rest.map fun u => pass { u with wait := .ready } :=
      List.map_congr_left fun u hu => if_pos (hrest u hu)
    have hgo : groupGo w (holding i w) = { i.g with subs := pass i.sub :: i.rest.map fun u => pass { u with wait := .ready } } := by
      unfold groupGo holding
      rw [← hmap]
      conv_rhs => rw [← hself]
      simp
    rw [barGone_groups, holdIss_groups, if_pos rfl, Option.map_some, if_pos (by simpa [holding] using hid), hgo]
  · rw [barGone_groups, holdIss_groups, if_neg hne, hk, Option.map_some, if_pos (by simpa using hb)]

/-- The blocks of the block cluster of an issue. -/
theorem mem_clusterBlocks {s : State} {b : Block} {k : Nat} : k ∈ (clusterBlocks s b).map (·.1) ↔
    ∃ y, (k, y) ∈ s.cores.blocks ∧ y.run = b.run ∧ y.cluster = b.cluster ∧ y.frag = b.frag := by
  simp [clusterBlocks, and_assoc]

/-- The blocks whose groups a barrier waits for: the block, or its block cluster. -/
def barBlocks (s : State) (i : Iss) (w : SubWait) : List Nat :=
  if w = .cbar then (clusterBlocks s i.b).map (·.1) else [i.g.block]

theorem barBlocks_own {s : State} {r : SgRef} {i : Iss} (h : issue s r = some i) (w : SubWait) : i.g.block ∈ barBlocks s i w := by
  unfold barBlocks
  split
  · exact mem_clusterBlocks.2 ⟨i.b, tget_mem (issue_some h).2.2.2.1, rfl, rfl, rfl⟩
  · simp

/-- The two barriers that a block's groups may complete, when only the one that its subgroups stand at can release. -/
theorem barCheck_hold {s : State} {r : SgRef} {i : Iss} (h : issue s r = some i) {w : SubWait} (hw : w = .bar ∨ w = .cbar)
    {t : State} (ht : barRelease (holdIss s i w) w (barBlocks s i w) = t)
    (hkeep : ∃ g, tget t.cores.groups i.key = some g ∧ g.block = i.g.block ∧ ∃ u ∈ g.subs, u.wait = .ready ∨ u.wait = w) :
    barCheck (holdIss s i w) i.g.block i.b = t := by
  unfold barCheck
  rcases hw with rfl | rfl
  · rw [show [i.g.block] = barBlocks s i .bar from rfl, ht]
    obtain ⟨g, hg, hb, u, hu, hr⟩ := hkeep
    refine barRelease_holds hg ?_ hu (by rcases hr with hr | hr <;> simp [hr])
    rw [hb]
    exact barBlocks_own (w := .cbar) h
  · rw [barRelease_holds (w := .bar) (k := i.key) (g := holding i .cbar) (by rw [holdIss_groups, if_pos rfl])
      (by simp [holding]) (u := { i.sub with wait := .cbar }) (by simp [holding]) (by simp)]
    exact ht

theorem doBar_hold {s : State} {r : SgRef} {i : Iss} (h : issue s r = some i) (hf : i.b.frag = none) (w : SubWait) :
    onCore s r (doBar s r w) = barCheck (holdIss s i w) i.g.block i.b := by
  rw [onCore_issue h, doBar, h]
  exact if_neg (by simp [hf])

/-! ## Lanes that end (R226, R241) -/

/-- What a check of joins and barriers leaves of a group: all but its subgroups. -/
def SubsOnly (g h : Group) : Prop := ∃ l, h = { g with subs := l }

theorem joinCheck_subs (g : Group) : SubsOnly g (joinCheck g) := by
  have hstep (g h : Group) (u : Sub) (hs : SubsOnly g h) : SubsOnly g (joinStep h u) := by
    unfold joinStep
    obtain ⟨l, rfl⟩ := hs
    split
    · dsimp only
      split
      · exact ⟨l, rfl⟩
      · exact ⟨_, rfl⟩
    · exact ⟨l, rfl⟩
  have hfold (l : List Sub) (h : Group) (hs : SubsOnly g h) : SubsOnly g (l.foldl joinStep h) := by
    induction l generalizing h with
    | nil => exact hs
    | cons u l ih => exact ih _ (hstep g h u hs)
  rw [joinCheck_eq]
  exact hfold _ _ ⟨g.subs, rfl⟩

theorem barRelease_leaves (s : State) (w : SubWait) (ids : List Nat) : (∃ gs, barRelease s w ids =
    { s with cores := { s.cores with groups := gs } }) ∧ ∀ k g, tget s.cores.groups k = some g →
      ∃ h, tget (barRelease s w ids).cores.groups k = some h ∧ SubsOnly g h := by
  unfold barRelease
  dsimp only
  split
  · refine ⟨⟨_, rfl⟩, fun k g hg => ⟨if ids.contains g.block then groupGo w g else g, ?_, ?_⟩⟩
    · have := barGone_groups s w ids k
      rw [hg] at this
      exact this
    · split
      · exact ⟨_, rfl⟩
      · exact ⟨g.subs, rfl⟩
  · exact ⟨⟨s.cores.groups, rfl⟩, fun k g hg => ⟨g, hg, g.subs, rfl⟩⟩

theorem exitLanes_leaves (s : State) (i : Iss) : (∃ gs, exitLanes s i = { s with cores := { s.cores with groups := gs } }) ∧
    ∃ l, tget (exitLanes s i).cores.groups i.key = some { i.g with exited := i.g.exited ||| i.sub.mask, subs := l } := by
  unfold exitLanes barCheck
  dsimp only
  obtain ⟨l, hl⟩ := joinCheck_subs { i.g with exited := i.g.exited ||| i.sub.mask, subs := i.rest }
  rw [hl]
  obtain ⟨⟨gs, h1⟩, h2⟩ := barRelease_leaves (setGroup s i.key { i.g with exited := i.g.exited ||| i.sub.mask, subs := l }) .bar
    [i.g.block]
  obtain ⟨g, hg, l', rfl⟩ := h2 i.key _ (tget_tset_same _ _ _)
  generalize barRelease (setGroup s i.key { i.g with exited := i.g.exited ||| i.sub.mask, subs := l }) .bar [i.g.block] = u
    at h1 hg
  obtain ⟨⟨gs', h3⟩, h4⟩ := barRelease_leaves u .cbar
    ((clusterBlocks (setGroup s i.key { i.g with exited := i.g.exited ||| i.sub.mask, subs := l }) i.b).map (·.1))
  obtain ⟨g, hg', l'', rfl⟩ := h4 i.key _ hg
  exact ⟨⟨gs', by rw [h3, h1]; rfl⟩, l'', hg'⟩

end Sys2Proof.Machine
end

section
/-! Proofs: the settlement of channels, barriers, fences and exits (spec/08 R226, R239 to R241, R258 to R261, R268). -/

namespace Sys2Proof.Machine

/-- What a fence of a scope does: it goes on, it waits, or it starts a clean of its slot (R268). -/
theorem release_goes {s : State} {i : Iss} {sc : Scope} (h : sc = .group ∨ lanesDone s i = true ∧
      (sc = .block ∨ i.cleaned = true ∨ mustClean s (slotOfBlock s i.b) = false)) : release s i sc = (s, some ()) := by
  unfold release
  cases sc with
  | group => rfl
  | block =>
    obtain ⟨hl, -⟩ := h.resolve_left (by simp)
    exact if_pos hl
  | device =>
    obtain ⟨hl, hc⟩ := h.resolve_left (by simp)
    dsimp only
    rw [if_neg (by simp [hl]), if_pos (by rcases hc.resolve_left (by simp) with hc | hc <;> simp [hc])]
  | system =>
    obtain ⟨hl, hc⟩ := h.resolve_left (by simp)
    dsimp only
    rw [if_neg (by simp [hl]), if_pos (by rcases hc.resolve_left (by simp) with hc | hc <;> simp [hc])]

theorem release_waits {s : State} {i : Iss} {sc : Scope} (hs : sc ≠ .group) (hl : lanesDone s i = false) :
    release s i sc = (s, none) := by
  unfold release
  cases sc with
  | group => exact absurd rfl hs
  | block => exact if_neg (by simp [hl])
  | device => exact if_pos (by simp [hl])
  | system => exact if_pos (by simp [hl])

theorem release_cleans {s : State} {i : Iss} {sc : Scope} (hs : sc = .device ∨ sc = .system) (hl : lanesDone s i = true)
    (hc : i.cleaned = false) (hm : mustClean s (slotOfBlock s i.b) = true) :
    release s i sc = (holdIss (startClean s (slotOfBlock s i.b)) i .clean, none) := by
  unfold release
  rcases hs with rfl | rfl
  · dsimp only
    rw [if_neg (by simp [hl]), if_neg (by simp [hc, hm])]
  · dsimp only
    rw [if_neg (by simp [hl]), if_neg (by simp [hc, hm])]

theorem doFence_goes {s : State} {r : SgRef} {i : Iss} (h : issue s r = some i) {sc : Scope}
    (hr : release s i sc = (s, some ())) : onCore s r (doFence s r sc) = retire s i i.g := by
  rw [onCore_issue h, doFence, h]
  simp only [hr]

theorem doFence_waits {s u : State} {r : SgRef} {i : Iss} (h : issue s r = some i) {sc : Scope}
    (hr : release s i sc = (u, none)) : onCore s r (doFence s r sc) = u := by
  rw [onCore_issue h, doFence, h]
  simp only [hr]

/-- A CONT of a graph node or a fragment group has no effect but to go on (R239, spec/12 R382). -/
theorem doCont_idle {s : State} {r : SgRef} {i : Iss} (h : issue s r = some i) (a : Reg)
    (hi : i.b.frag.isSome = true ∨ (tget s.cores.runs i.b.run).any (fun y => y.node.isSome) = true) :
    onCore s r (doCont s r a) = retire s i i.g := by
  rw [onCore_issue h, doCont, h]
  dsimp only
  cases hf : i.b.frag with
  | some f => rfl
  | none =>
    rw [hf] at hi
    cases hy : tget s.cores.runs i.b.run with
    | none => rfl
    | some y =>
      rw [hy] at hi
      exact if_pos (hi.resolve_left (by simp))

/-- The state in which a CONT has put its record. -/
def withCont (s : State) (run : Nat) (y : Run) (w : Nat) : State :=
  { s with cores := { s.cores with runs := tset s.cores.runs run { y with cont := some (BitVec.ofNat 512 w) } } }

theorem doCont_saves {s u : State} {r : SgRef} {i : Iss} {a : Reg} {y : Run} {w : Nat} (h : issue s r = some i)
    (hf : i.b.frag = none) (hy : tget s.cores.runs i.b.run = some y) (hn : y.node = none) (ha : devAddr i a i.low % 64 = 0)
    (hv : vnat s { laneWho s i.b with site := .frontEnd (slotOfBlock s i.b) } (devAddr i a i.low) 64 = (u, some w)) :
    onCore s r (doCont s r a) = retire (withCont u i.b.run y w) i i.g := by
  rw [onCore_issue h, doCont, h]
  simp only [hf, hy, hv]
  rw [if_neg (by simp [hn]), if_neg (by simp [ha])]
  rfl

theorem vnat_some {s u : State} {w : Who} {a n v : Nat} (h : vnat s w a n = (u, some v)) : Only [.mmu, .fab, .free] s u := by
  unfold vnat at h
  split at h
  · rename_i b hb
    obtain ⟨rfl, -⟩ := Prod.mk.inj h
    exact vread_some hb
  · cases h

/-- Both ways in which lanes end: an exit, and an undefined encoding, which is counted (R226, R241). -/
theorem undefined_leaves (s : State) (i : Iss) :
    undefined s i = { exitLanes s i with cores := { (exitLanes s i).cores with undef := satAdd 0xFFFF s.cores.undef 1 } } := by
  obtain ⟨⟨gs, h⟩, -⟩ := exitLanes_leaves s i
  unfold undefined
  dsimp only
  rw [show (exitLanes s i).cores.undef = s.cores.undef by rw [h]]

/-- The barrier of an instruction: what its last subgroup releases. -/
theorem doBar_last {s : State} {r : SgRef} {i : Iss} (h : issue s r = some i) (hf : i.b.frag = none) {w : SubWait}
    (hw : w = .bar ∨ w = .cbar) (hwf : Tbl.wf s.cores.groups = true) (hrest : ∀ u ∈ i.rest, u.wait = w)
    (hg : ∀ k g, tget s.cores.groups k = some g → k ≠ i.key → g.block ∈ barBlocks s i w → ∀ u ∈ g.subs, u.wait = w) :
    onCore s r (doBar s r w) = barGone (holdIss s i w) w (barBlocks s i w) := by
  obtain ⟨h1, h2, -⟩ := holdIss_released hwf (issue_some h).2.2.2.2 (barBlocks_own h w) hrest hg
  rw [doBar_hold h hf]
  exact barCheck_hold h hw h1 ⟨_, h2, rfl, pass i.sub, by simp, .inl (issue_some h).2.2.2.2⟩

/-- A subgroup of the group has not arrived: the barrier holds. -/
theorem doBar_waits {s : State} {r : SgRef} {i : Iss} (h : issue s r = some i) (hf : i.b.frag = none) {w : SubWait}
    (hw : w = .bar ∨ w = .cbar) {u : Sub} (hu : u ∈ i.rest) (hne : u.wait ≠ w) :
    onCore s r (doBar s r w) = setGroup s i.key { i.g with subs := { i.sub with wait := w } :: i.rest } := by
  have hk : tget (holdIss s i w).cores.groups i.key = some (holding i w) := by rw [holdIss_groups, if_pos rfl]
  rw [doBar_hold h hf]
  exact barCheck_hold h hw (barRelease_holds hk (barBlocks_own h w) (List.mem_cons_of_mem _ hu) hne)
    ⟨_, hk, rfl, { i.sub with wait := w }, by simp [holding], .inr rfl⟩

theorem mem_barBlocks {s : State} {i : Iss} {w : SubWait} {k : Nat} (h : k ∈ barBlocks s i w) :
    k = i.g.block ∨ w = .cbar ∧
      ∃ y, (k, y) ∈ s.cores.blocks ∧ y.run = i.b.run ∧ y.cluster = i.b.cluster ∧ y.frag = i.b.frag := by
  unfold barBlocks at h
  split at h
  · exact .inr ⟨‹_›, mem_clusterBlocks.1 h⟩
  · exact .inl (by simpa using h)

theorem barBlocks_mem {s : State} {r : SgRef} {i : Iss} (h : issue s r = some i) {w : SubWait} {k : Nat}
    (hk : k = i.g.block ∨ w = .cbar ∧
      ∃ y, (k, y) ∈ s.cores.blocks ∧ y.run = i.b.run ∧ y.cluster = i.b.cluster ∧ y.frag = i.b.frag) : k ∈ barBlocks s i w := by
  rcases hk with rfl | ⟨rfl, hy⟩
  · exact barBlocks_own h w
  · exact mem_clusterBlocks.2 hy

theorem doBar_frag {s : State} {r : SgRef} {i : Iss} (h : issue s r = some i) (hf : i.b.frag.isSome = true) (w : SubWait) :
    onCore s r (doBar s r w) = retire s i i.g := by
  rw [onCore_issue h, doBar, h]
  exact if_pos hf

/-- What CHSTAT writes. -/
theorem doChstat_eq {s : State} {r : SgRef} {i : Iss} (h : issue s r = some i) (ch : Fin 16) (d e : Reg) :
    onCore s r (doChstat s r ch d e) = retire s i (i.lanes.foldl (fun g l => wr (wr g l d.val
      (BitVec.ofNat 32 (tgetD s.cores.inbox (r.core.val * 16 + ch.val) []).length)) l e.val
      (BitVec.ofNat 32 ((tget s.cores.outs (r.core.val * 16 + ch.val)).map (·.credits) |>.getD 0))) i.g) := by
  rw [onCore_issue h, doChstat, h, ← issue_core h]

/-- The lanes of an issue end. -/
theorem exit_leaves {s : State} {i : Iss} {t : State} {n : Nat}
    (ht : t = { exitLanes s i with cores := { (exitLanes s i).cores with undef := n } }) :
    (∃ g, tget t.cores.groups i.key = some g ∧ g.exited = (i.g.exited ||| i.sub.mask) ∧ g.regs = i.g.regs ∧
      g.block = i.g.block) ∧ t.cores.undef = n ∧ t.cores.lm = s.cores.lm ∧ Only [.cores] s t := by
  obtain ⟨⟨gs, h⟩, l, hl⟩ := exitLanes_leaves s i
  subst ht
  refine ⟨⟨_, hl, rfl, rfl, rfl⟩, rfl, ?_, cores_only ?_⟩
  · rw [h]
  · rw [h]

/-- A credit that comes back. -/
theorem creditBack_eq {s : State} {key : Nat} (h : key ∈ s.cores.creditsBack) : creditBack s key =
    { s with cores := { s.cores with
      creditsBack := s.cores.creditsBack.erase key
      outs := tmod s.cores.outs key fun o => { o with credits := min 8 (o.credits + 1) } } } :=
  if_pos (by simpa using h)

theorem RegsOnly.subs {g h : Group} (a : RegsOnly g h) (l : List Sub) :
    { h with subs := l } = ({ g with subs := l, regs := h.regs } : Group) := by
  rw [a]

/-- The message of a channel taken, and its token passed. -/
def recvd (s : State) (tok k key : Nat) (rest : List W512) : State := takeMsg (passToken s tok k 8) key rest

theorem recvd_leaves (s : State) (tok k key : Nat) (rest : List W512) : tget (recvd s tok k key rest).cores.inbox key = some rest ∧
    (recvd s tok k key rest).cores.lm = s.cores.lm ∧ Only [.cores] s (recvd s tok k key rest) :=
  ⟨tget_tset_same _ _ _, rfl, (passToken_only _ _ _ _).trans (takeMsg_only _ _ _)⟩

/-- A message written to local memory is read back there. -/
theorem lmWrite_leaves {s : State} (hm : memOk s = true) (core a n v : Nat) :
    mread (lmWrite s core a (toLE n v)).cores.lm (lmKey core a) n = toLE n v ∧
    (lmWrite s core a (toLE n v)).cores.inbox = s.cores.inbox ∧ Only [.cores] s (lmWrite s core a (toLE n v)) := by
  refine ⟨?_, rfl, cores_only rfl⟩
  obtain ⟨-, -, hlm⟩ := (memOk_iff s).1 hm
  have hw := mread_mwrite hlm (lmKey core a) (toLE n v)
  rw [toLE_length] at hw
  exact hw

/-- Parts of the cores that an instruction's retirement leaves. -/
theorem retire_rest (s : State) (i : Iss) (g : Group) : (retire s i g).cores.inbox = s.cores.inbox ∧
    (retire s i g).cores.lm = s.cores.lm ∧ (retire s i g).cores.runs = s.cores.runs := by
  rw [retire_cores]
  exact ⟨rfl, rfl, rfl⟩

/-- The machine after a SEND. -/
theorem retire_sent (s : State) (i : Iss) (tok k key : Nat) (o : OutCh) (m : W512) :
    Only [.cores, .flt] s (retire (sendMsg (passToken s tok k 8) key o m) i i.g) ∧
    (retire (sendMsg (passToken s tok k 8) key o m) i i.g).cores =
      { s.cores with
        groups := tset s.cores.groups i.key (passed i)
        outs := tset s.cores.outs key { o with credits := o.credits - 1 }
        tokens := tset s.cores.tokens tok ((k + 1) % 8)
        sent := s.cores.sent ++ [(o.core * 16 + o.chan, m)] } := by
  have hs : Only [.cores] s (sendMsg (passToken s tok k 8) key o m) := cores_only rfl
  refine ⟨(hs.mono (by simp)).trans (retire_only _ _ _), ?_⟩
  rw [retire_cores]
  rfl

/-- The machine after a RECV into registers. -/
theorem retire_recvRegs (s : State) (i : Iss) (tok k key d : Nat) (rest : List W512) (m : W512) :
    let t := retire (recvd s tok k key rest) i
      ((i.lanes.filter (· < 16)).foldl (fun g j => wr g j d (BitVec.ofNat 32 (bits m (32 * j + 31) (32 * j)))) i.g)
    ∃ g, tget t.cores.groups i.key = some g ∧ g = { i.g with subs := pass i.sub :: i.rest, regs := g.regs } ∧
      (∀ l k, l < 32 → rd g l k = if l ∈ i.lanes ∧ l < 16 ∧ k = d ∧ k < i.g.nregs then
        BitVec.ofNat 32 (bits m (32 * l + 31) (32 * l)) else rd i.g l k) ∧
      tget t.cores.inbox key = some rest ∧ t.cores.lm = s.cores.lm ∧ Only [.cores, .flt] s t := by
  obtain ⟨h1, h2⟩ := recvRegs i d m
  generalize (i.lanes.filter (· < 16)).foldl
    (fun g j => wr g j d (BitVec.ofNat 32 (bits m (32 * j + 31) (32 * j)))) i.g = g at h1 h2
  obtain ⟨r1, r2, r3⟩ := recvd_leaves s tok k key rest
  generalize recvd s tok k key rest = u at r1 r2 r3
  obtain ⟨q1, q2, -⟩ := retire_rest u i g
  exact ⟨_, retire_group u i g, h1.subs _, h2, q1 ▸ r1, q2.trans r2, (r3.mono (by simp)).trans (retire_only _ _ _)⟩

/-- The machine after a RECV into local memory. -/
theorem retire_recvMem {s : State} (hm : memOk s = true) (i : Iss) (tok k key core a : Nat) (rest : List W512) (m : W512) :
    let t := retire (lmWrite (recvd s tok k key rest) core a (toLE 64 m.toNat)) i i.g
    tget t.cores.groups i.key = some (passed i) ∧ mread t.cores.lm (lmKey core a) 64 = toLE 64 m.toNat ∧
      tget t.cores.inbox key = some rest ∧ Only [.cores, .flt] s t := by
  have hmu : memOk (recvd s tok k key rest) = true := hm
  obtain ⟨r1, -, r3⟩ := recvd_leaves s tok k key rest
  generalize recvd s tok k key rest = u at r1 r3 hmu
  obtain ⟨w1, w2, w3⟩ := lmWrite_leaves hmu core a 64 m.toNat
  generalize lmWrite u core a (toLE 64 m.toNat) = v at w1 w2 w3
  obtain ⟨q1, q2, -⟩ := retire_rest v i i.g
  exact ⟨retire_group v i i.g, q2 ▸ w1, (q1.trans w2) ▸ r1,
    (r3.mono (by simp)).trans ((w3.mono (by simp)).trans (retire_only _ _ _))⟩

/-- What CHSTAT leaves in the lanes. -/
theorem retire_chstat (s : State) (i : Iss) (d e : Reg) (n c : W32) : ∃ g,
    retire s i (i.lanes.foldl (fun g l => wr (wr g l d.val n) l e.val c) i.g) = setGroup (went s i) i.key g ∧
      g = { i.g with subs := pass i.sub :: i.rest, regs := g.regs } ∧
      ∀ l ∈ i.lanes, (e.val < i.g.nregs → rd g l e.val = c) ∧ (d.val < i.g.nregs → d ≠ e → rd g l d.val = n) := by
  obtain ⟨h1, h2⟩ := rd_foldl_two i.lanes (fun _ hl => lanes_lt hl) d.val e.val n c i.g
  refine ⟨_, rfl, h1.subs _, fun l hl => ⟨fun he => ?_, fun hd hne => ?_⟩⟩
  · rw [rd_subs, h2 l _ (lanes_lt hl), if_pos ⟨hl, rfl, he⟩]
  · rw [rd_subs, h2 l _ (lanes_lt hl), if_neg (fun hc => hne (Fin.ext hc.2.1)), if_pos ⟨hl, rfl, hd⟩]

/-- What a CONT leaves. -/
theorem retire_withCont {s u : State} (hu : Only [.mmu, .fab, .free] s u) (i : Iss) (y : Run) (w : Nat) :
    let t := retire (withCont u i.b.run y w) i i.g
    tget t.cores.runs i.b.run = some { y with cont := some (BitVec.ofNat 512 w) } ∧
      tget t.cores.groups i.key = some (passed i) ∧ t.fab = u.fab ∧ t.cores.lm = s.cores.lm := by
  have hc : u.cores = s.cores := hu .cores (by decide)
  have h1 : tget (withCont u i.b.run y w).cores.runs i.b.run = some { y with cont := some (BitVec.ofNat 512 w) } :=
    tget_tset_same _ _ _
  have h2 : (withCont u i.b.run y w).fab = u.fab := rfl
  have h3 : (withCont u i.b.run y w).cores.lm = s.cores.lm := by rw [← hc]; rfl
  generalize withCont u i.b.run y w = v at h1 h2 h3
  obtain ⟨-, q2, q3⟩ := retire_rest v i i.g
  exact ⟨q3 ▸ h1, retire_group v i i.g, (retire_only v i i.g .fab (by decide)).trans h2, q2.trans h3⟩

/-- A fence that starts a clean holds its subgroup. -/
theorem holdIss_clean (s : State) (i : Iss) (n : Nat) : let t := holdIss (startClean s n) i .clean
    t.fab.cleans.contains n = true ∧ hasDirty t n = false ∧ Only [.cores, .fab] s t ∧
      t.cores = (setGroup s i.key { i.g with subs := { i.sub with wait := .clean } :: i.rest }).cores := by
  have hd : hasDirty (startClean s n) n = false := cleanSlot_hasDirty s n
  have hcl : (startClean s n).fab.cleans.contains n = true := by simp [startClean]
  have ho := startClean_only s n
  have hc : (startClean s n).cores = s.cores := ho .cores (by decide)
  generalize startClean s n = u at hd hcl ho hc
  refine ⟨hcl, hd, (ho.mono (by simp)).trans ((holdIss_only _ _ _).mono (by simp)), ?_⟩
  rw [holdIss, setGroup, setGroup, hc]

/-- What BAR and CBAR do: go on in a fragment group, release with the last arrival, or hold (R240, spec/12 R382). -/
theorem doBar_does {s : State} {r : SgRef} {i : Iss} (h : issue s r = some i) {c : Instr} {w : SubWait} (hw : w = .bar ∨ w = .cbar)
    (hc : exec c s = .next (onCore s r (doBar s r w))) :
    let mine (b : Nat) : Prop := b = i.g.block ∨ w = .cbar ∧
      ∃ y, (b, y) ∈ s.cores.blocks ∧ y.run = i.b.run ∧ y.cluster = i.b.cluster ∧ y.frag = i.b.frag
    (i.b.frag.isSome = true → exec c s = .next (retire s i i.g)) ∧
    (i.b.frag = none → Tbl.wf s.cores.groups = true → (∀ u ∈ i.rest, u.wait = w) →
      (∀ k g, tget s.cores.groups k = some g → k ≠ i.key → mine g.block → ∀ u ∈ g.subs, u.wait = w) →
      Answers c s fun t => tget t.cores.groups i.key = some { i.g with
          subs := pass i.sub :: i.rest.map fun u => pass { u with wait := .ready } } ∧
        (∀ k g, tget s.cores.groups k = some g → k ≠ i.key → mine g.block → tget t.cores.groups k = some (groupGo w g)) ∧
        Only [.cores] s t) ∧
    (i.b.frag = none → (∃ u ∈ i.rest, u.wait ≠ w) → exec c s =
      .next (setGroup s i.key { i.g with subs := { i.sub with wait := w } :: i.rest })) := by
  refine ⟨fun hf => hc.trans ?_, fun hf hwf hrest hgs => ⟨_, hc, ?_⟩, fun hf ⟨u, hu, hne⟩ => hc.trans ?_⟩
  · rw [doBar_frag h hf]
  · have hgs' := fun k g hk hne (hb : g.block ∈ barBlocks s i w) => hgs k g hk hne (mem_barBlocks hb)
    obtain ⟨-, h2, h3⟩ := holdIss_released hwf (issue_some h).2.2.2.2 (barBlocks_own h w) hrest hgs'
    rw [doBar_last h hf hw hwf hrest hgs']
    exact ⟨h2, fun k g hk hne hm => h3 k g hk hne (barBlocks_mem h hm), (holdIss_only _ _ _).trans (barGone_only _ _ _)⟩
  · rw [doBar_waits h hf hw hu hne]

/-- EXIT and an undefined encoding, of which the latter is counted. -/
theorem doExit_does {s : State} {r : SgRef} {i : Iss} (h : issue s r = some i) :
    onCore s r (doExit s r) = { exitLanes s i with cores := { (exitLanes s i).cores with undef := s.cores.undef } } ∧
    onCore s r (doUndefined s r) =
      { exitLanes s i with cores := { (exitLanes s i).cores with undef := satAdd 0xFFFF s.cores.undef 1 } } := by
  constructor
  · obtain ⟨⟨gs, hx⟩, -⟩ := exitLanes_leaves s i
    rw [onCore_issue h, doExit, h, show s.cores.undef = (exitLanes s i).cores.undef by rw [hx]]
  · rw [onCore_issue h, doUndefined, h]
    exact undefined_leaves s i

end Sys2Proof.Machine

open Sys2Proof Sys2Proof.Machine

/-- Settles O54: channels by the grant of their token, barriers by their last arrival, fences by their release. -/
theorem channelsBarriersAndExits : Obligations.ChannelsBarriersAndExits := by
  refine ⟨fun s r i h => ?_, fun s core ch => ⟨fun e he hl => ?_, fun o hk ho => ⟨_, rfl, ?_⟩⟩⟩
  · intro on
    refine ⟨fun ch o form rel hs ho hc hf => ⟨fun sc hrel hn => ?_, fun hrel k hg => ⟨fun hk => ⟨_, rfl, ?_⟩, fun hk => ?_⟩⟩,
      fun ch m rest acq hs hb k hg => ⟨fun v hk => ⟨_, rfl, ?_⟩, fun v hk hmem hl => ⟨_, rfl, ?_⟩, fun form hk => ?_⟩,
      fun ch d e => ⟨_, rfl, ?_⟩, fun e he => ?_, fun sc => ?_, fun a hi => ?_, fun a y u w hf hy hn ha hv => ⟨_, rfl, ?_⟩,
      fun e he => ?_⟩
    · exact congrArg Host.Outcome.next (doSend_waits h hs ho hc hrel hn)
    · beta_reduce
      rw [doSend_quarter h hs ho hc hf hrel hg hk]
      cases form with
      | regs v => exact retire_sent s i _ k _ o _
      | mem v => exact retire_sent s i _ k _ o _
    · exact congrArg Host.Outcome.next (doSend_engine h hs ho hc hf hrel hg hk)
    · beta_reduce
      rw [doRecv_regs h hs hb hg v hk]
      exact retire_recvRegs s i _ k _ v.val rest m
    · beta_reduce
      rw [doRecv_mem h hs hb hg v hk hl]
      exact retire_recvMem hmem i _ k _ _ _ rest m
    · exact congrArg Host.Outcome.next (doRecv_engine h hs hb hg form hk)
    · beta_reduce
      rw [doChstat_eq h]
      exact retire_chstat s i d e _ _
    · simp only [List.mem_cons, List.not_mem_nil, or_false] at he
      rcases he with rfl | rfl
      · exact doBar_does h (.inl rfl) rfl
      · exact doBar_does h (.inr rfl) rfl
    · refine ⟨fun hg => ?_, fun hs hl => ?_, fun hs hl hc hm => ⟨_, rfl, ?_⟩⟩
      · exact congrArg Host.Outcome.next (doFence_goes h (release_goes hg))
      · exact congrArg Host.Outcome.next (doFence_waits h (release_waits hs hl))
      · beta_reduce
        rw [doFence_waits h (release_cleans hs hl hc hm)]
        exact holdIss_clean s i _
    · exact congrArg Host.Outcome.next (doCont_idle h a hi)
    · beta_reduce
      rw [doCont_saves h hf hy hn ha hv]
      exact retire_withCont (vnat_some hv) i y w
    · simp only [List.mem_cons, List.not_mem_nil, or_false] at he
      obtain ⟨h1, h2⟩ := doExit_does h
      rcases he with rfl | rfl
      · exact ⟨_, congrArg Host.Outcome.next h1, exit_leaves rfl⟩
      · exact ⟨_, congrArg Host.Outcome.next h2, exit_leaves rfl⟩
  · refine congrArg Host.Outcome.next ?_
    rw [arriveMsg, he]
    exact if_neg (by omega)
  · beta_reduce
    rw [creditBack_eq hk]
    refine ⟨?_, fun k hne => ?_, rfl, rfl, cores_only rfl⟩
    · simp only [tget_tmod, if_pos, ho]
      rfl
    · simp only [tget_tmod, if_neg hne]
end

section
/-! Proofs: blocks are placed, and end (spec/08 R226, R233 to R236, R257, spec/12 R380). -/

namespace Sys2Proof.Machine

/-! ## Claims that are granted leave all but subgroups and holders -/

/-- What the grants of waiting claims leave: blocks, groups' blocks, and every part but cores and engines. -/
structure Granted (s t : State) : Prop where
  only : Only [.cores, .eng] s t
  cores : ∃ gs, t.cores = { s.cores with groups := gs }
  blocks : ∀ e ∈ t.cores.groups, ∃ e' ∈ s.cores.groups, e'.2.block = e.2.block
  holders : ∀ e ∈ t.eng.eng, ∀ b, e.2.holder = some b →
    (∃ e' ∈ s.eng.eng, e'.2.holder = some b) ∨ ∃ e' ∈ s.cores.groups, e'.2.block = b

theorem Granted.refl (s : State) : Granted s s :=
  ⟨.refl _ s, ⟨_, rfl⟩, fun e he => ⟨e, he, rfl⟩, fun e he _ hb => .inl ⟨e, he, hb⟩⟩

theorem Granted.trans {s t u : State} (h : Granted s t) (h' : Granted t u) : Granted s u where
  only := h.only.trans h'.only
  cores := by
    obtain ⟨gs, hg⟩ := h.cores
    obtain ⟨gs', hg'⟩ := h'.cores
    exact ⟨gs', by rw [hg', hg]⟩
  blocks e he := by
    obtain ⟨e', he', hb⟩ := h'.blocks e he
    obtain ⟨e'', he'', hb'⟩ := h.blocks e' he'
    exact ⟨e'', he'', hb'.trans hb⟩
  holders e he b hb := by
    rcases h'.holders e he b hb with ⟨e', he', hb'⟩ | ⟨e', he', hb'⟩
    · exact h.holders e' he' b hb'
    · obtain ⟨e'', he'', hb''⟩ := h.blocks e' he'
      exact .inr ⟨e'', he'', hb''.trans hb'⟩

/-- Groups alone change, each keeping its block. -/
theorem Granted.of_groups {s : State} {gs : Tbl Group} (h : ∀ e ∈ gs, ∃ e' ∈ s.cores.groups, e'.2.block = e.2.block) :
    Granted s { s with cores := { s.cores with groups := gs } } :=
  ⟨(cores_only rfl).mono (by simp), ⟨gs, rfl⟩, h, fun e he _ hb => .inl ⟨e, he, hb⟩⟩

theorem Granted.setGroup {s : State} {k : Nat} {g h : Group} (hg : tget s.cores.groups k = some g) (hb : h.block = g.block) :
    Granted s (setGroup s k h) :=
  .of_groups fun e he => by
    rcases mem_tset he with rfl | he
    · exact ⟨_, tget_mem hg, hb.symm⟩
    · exact ⟨e, he, rfl⟩

theorem passSub_granted (s : State) (key : Nat) (u : Sub) : Granted s (passSub s key u) := by
  unfold passSub
  split
  · exact .refl s
  · rename_i g hg
    exact .setGroup hg rfl

theorem barRelease_granted (s : State) (w : SubWait) (ids : List Nat) : Granted s (barRelease s w ids) := by
  unfold barRelease
  dsimp only
  split
  · refine .of_groups fun e he => ?_
    obtain ⟨e', he', rfl⟩ := List.mem_map.1 he
    refine ⟨e', he', ?_⟩
    split <;> rfl
  · exact .refl s

theorem exitLanes_granted {s : State} {i : Iss} (h : tget s.cores.groups i.key = some i.g) : Granted s (exitLanes s i) := by
  unfold exitLanes barCheck
  dsimp only
  obtain ⟨l, hl⟩ := joinCheck_subs { i.g with exited := i.g.exited ||| i.sub.mask, subs := i.rest }
  rw [hl]
  exact .trans (t := setGroup s i.key { i.g with exited := i.g.exited ||| i.sub.mask, subs := l }) (.setGroup h rfl)
    ((barRelease_granted _ _ _).trans (barRelease_granted _ _ _))

/-- A counter of the engines. -/
theorem Granted.of_eng {s : State} {x : Engines} (h : x.eng = s.eng.eng) : Granted s { s with eng := x } :=
  ⟨fun p hp => by cases p <;> first | (simp at hp; done) | rfl, ⟨_, rfl⟩, fun e he => ⟨e, he, rfl⟩,
    fun e he _ hb => .inl ⟨e, by rw [← h]; exact he, hb⟩⟩

theorem claimBad_granted {s : State} {i : Iss} (h : tget s.cores.groups i.key = some i.g) : Granted s (claimBad s i) :=
  (exitLanes_granted h).trans (.of_eng rfl)

theorem claim_granted {s : State} {core b : Nat} (m : Nat) (hb : ∃ e ∈ s.cores.groups, e.2.block = b) :
    Granted s (claim s core b m) := by
  unfold claim
  suffices h : ∀ (l : List Nat) (u : State), Granted s u →
      Granted s (l.foldl (fun s e => setEng s core e { Engine.reset with holder := some b }) u) from h _ s (.refl s)
  intro l
  induction l with
  | nil => exact fun u hu => hu
  | cons a l ih =>
    intro u hu
    refine ih _ ⟨hu.only.trans fun p hp => ?_, hu.cores, hu.blocks, fun e he c hc => ?_⟩
    · cases p <;> first | (simp at hp; done) | rfl
    · rcases mem_tset he with rfl | he
      · obtain rfl : b = c := Option.some.inj hc
        exact .inr hb
      · exact hu.holders e he c hc

/-- A claimant's group is one of the core's. -/
theorem mem_claimants {s : State} {core : Nat} {c : Nat × Nat × Nat × Sub} (h : c ∈ claimants s core) :
    ∃ g, (c.1, g) ∈ s.cores.groups ∧ g.block = c.2.1 := by
  obtain ⟨e, he, hc⟩ := List.mem_flatMap.1 h
  obtain ⟨u, -, hu⟩ := List.mem_filterMap.1 hc
  split at hu
  · obtain rfl := Option.some.inj hu
    exact ⟨e.2, (List.mem_filter.1 he).1, rfl⟩
  · cases hu

theorem settleClaim_granted {s t : State} {c : Nat × Nat × Nat × Sub} (h : settleClaim s c = some t) : Granted s t := by
  unfold settleClaim at h
  dsimp only at h
  split at h
  · cases h
  · split at h
    · obtain rfl := Option.some.inj h
      exact passSub_granted _ _ _
    · split at h
      · rename_i g b hg hb
        obtain rfl := Option.some.inj h
        exact claimBad_granted (i := ⟨c.1, g, c.2.2.2, g.subs.filter (· ≠ c.2.2.2), b, false⟩) hg
      · cases h

/-- A fold that keeps a candidate of its list. -/
theorem foldl_pick_mem {α : Type} (f : Option α → α → Option α) (hf : ∀ m c, f m c = m ∨ f m c = some c) (l : List α) (m : Option α)
    {a : α} (h : l.foldl f m = some a) : m = some a ∨ a ∈ l := by
  induction l generalizing m with
  | nil => exact .inl h
  | cons c l ih =>
    rcases ih (f m c) h with h1 | h1
    · rcases hf m c with h2 | h2
      · exact .inl (h2 ▸ h1)
      · rw [h2] at h1
        exact .inr (by simp [Option.some.inj h1])
    · exact .inr (List.mem_cons_of_mem _ h1)

/-- Of two claimants, that of the block with the lower number. -/
def lowerNum (s : State) (m : Option (Nat × Nat × Nat × Sub)) (c : Nat × Nat × Nat × Sub) : Option (Nat × Nat × Nat × Sub) :=
  match m with
  | none => some c
  | some d => if blockNum s c.2.1 < blockNum s d.2.1 then some c else m

theorem foldl_lowerNum_mem {s : State} {l : List (Nat × Nat × Nat × Sub)} {c : Nat × Nat × Nat × Sub}
    (h : l.foldl (lowerNum s) none = some c) : c ∈ l := by
  refine (foldl_pick_mem _ (fun m c => ?_) l none h).resolve_left (by simp)
  cases m with
  | none => exact .inr rfl
  | some d =>
    unfold lowerNum
    dsimp only
    split
    · exact .inr rfl
    · exact .inl rfl

theorem grantOne_granted {s t : State} {core : Nat} (h : grantOne s core = some t) : Granted s t := by
  unfold grantOne at h
  dsimp only at h
  split at h
  · rename_i u hu
    obtain rfl := Option.some.inj h
    obtain ⟨c, -, hc⟩ := List.exists_of_findSome?_eq_some hu
    exact settleClaim_granted hc
  · split at h
    · cases h
    · rename_i c hc
      obtain rfl := Option.some.inj h
      have hmem : c ∈ claimants s core := by
        rcases Option.or_eq_some_iff.1 hc with hc | ⟨-, hc⟩
        · exact (List.mem_filter.1 (List.mem_filter.1 (foldl_lowerNum_mem hc)).1).1
        · exact (List.mem_filter.1 (foldl_lowerNum_mem hc)).1
      obtain ⟨g, hg, hb⟩ := mem_claimants hmem
      exact ((claim_granted c.2.2.1 ⟨_, hg, hb⟩).trans (passSub_granted _ _ _)).trans (.of_eng rfl)

theorem grantClaims_granted (core n : Nat) (s : State) : Granted s (grantClaims core n s) := by
  induction n generalizing s with
  | zero => exact .refl s
  | succ n ih =>
    rw [grantClaims]
    split
    · exact .refl s
    · rename_i t ht
      exact (grantOne_granted ht).trans (ih t)

end Sys2Proof.Machine
end

section
/-! Proofs: the settlement of placement and of the ends of blocks (spec/08 R226, R233 to R236, R257, spec/12 R380). -/

namespace Sys2Proof.Machine

/-! ## Blocks put on cores (R235) -/

theorem foldl_range_lt (n : Nat) (p : Nat → Nat → Prop) [∀ m k, Decidable (p m k)] (hn : 0 < n) :
    (List.range n).foldl (fun m k => if p m k then k else m) 0 < n := by
  suffices h : ∀ (l : List Nat) (m : Nat), m < n → (∀ k ∈ l, k < n) → l.foldl (fun m k => if p m k then k else m) m < n from
    h _ 0 hn fun k hk => List.mem_range.1 hk
  intro l
  induction l with
  | nil => exact fun m hm _ => hm
  | cons a l ih =>
    intro m hm hl
    refine ih _ ?_ fun k hk => hl k (by simp [hk])
    beta_reduce
    split
    · exact hl a (by simp)
    · exact hm

theorem freeGroupSlot_lt (s : State) (core regs : Nat) : freeGroupSlot s core (bestQuarter s core regs) < 64 := by
  have h1 : bestQuarter s core regs < 4 := foldl_range_lt 4 (fun m k => quarterRoom s core m regs < quarterRoom s core k regs)
      (by simp)
  unfold freeGroupSlot
  generalize bestQuarter s core regs = q at h1
  cases hf : (List.range 16).find? fun k => (tget s.cores.groups (core * 64 + 16 * q + k)).isNone with
  | none => simp only [Option.getD_none]; omega
  | some k =>
    have := List.mem_range.1 (List.mem_of_find?_eq_some hf)
    simp only [Option.getD_some]
    omega

/-- The groups of a block put on its core, one after the other. -/
theorem foldl_putGroup (core id regs : Nat) (entry : W64) (l : List Nat) (s : State) :
    let t := l.foldl (fun s j => putGroup s core regs (newGroup id j regs entry)) s
    (∃ gs, t = { s with cores := { s.cores with groups := gs } }) ∧
      ∀ e ∈ t.cores.groups, e ∈ s.cores.groups ∨ ∃ j ∈ l, e.2 = newGroup id j regs entry ∧ e.1 / 64 = core := by
  induction l generalizing s with
  | nil => exact ⟨⟨_, rfl⟩, fun e he => .inl he⟩
  | cons a l ih =>
    obtain ⟨⟨gs, h1⟩, h2⟩ := ih (putGroup s core regs (newGroup id a regs entry))
    dsimp only at h1 h2 ⊢
    rw [List.foldl_cons]
    refine ⟨⟨gs, by rw [h1]; rfl⟩, fun e he => ?_⟩
    rcases h2 e he with he | ⟨j, hj, hg, hc⟩
    · rcases mem_tset he with rfl | he
      · have := freeGroupSlot_lt s core regs
        exact .inr ⟨a, by simp, rfl, by dsimp only; omega⟩
      · exact .inl he
    · exact .inr ⟨j, by simp [hj], hg, hc⟩

/-- What the placement of one block leaves. -/
theorem putBlock_leaves (s : State) (core : Nat) (b : Block) : (∃ base,
      (putBlock s core b).cores.blocks = tset s.cores.blocks s.cores.nextId { b with lmBase := base }) ∧
    (putBlock s core b).cores.nextId = s.cores.nextId + 1 ∧ (putBlock s core b).cores.runs = s.cores.runs ∧
    (putBlock s core b).cores.outs = s.cores.outs ∧ Only [.cores] s (putBlock s core b) ∧
    ∀ e ∈ (putBlock s core b).cores.groups, e ∈ s.cores.groups ∨
      ∃ k, k < b.ngroups ∧ e.2 = newGroup s.cores.nextId k b.nregs b.entry ∧ e.1 / 64 = core := by
  unfold putBlock
  dsimp only
  generalize (lmFind s ((tget s.cores.runs b.run).map (·.slot) |>.getD 0) core b.lmKib).getD 0 = base
  obtain ⟨⟨gs, h1⟩, h2⟩ := foldl_putGroup core s.cores.nextId b.nregs b.entry (List.range b.ngroups)
    { s with cores := { s.cores with
      blocks := tset s.cores.blocks s.cores.nextId { b with lmBase := base }
      nextId := s.cores.nextId + 1
      lmUse := s.cores.lmUse ++ [{ core := core, base := base, kib := b.lmKib, tile := false, owner := s.cores.nextId }] } }
  dsimp only at h1 h2
  refine ⟨⟨base, by rw [h1]⟩, by rw [h1], by rw [h1], by rw [h1], by rw [h1]; exact cores_only rfl, fun e he => ?_⟩
  rcases h2 e he with he | ⟨j, hj, hg, hc⟩
  · exact .inl he
  · exact .inr ⟨j, List.mem_range.1 hj, hg, hc⟩

/-- What the placement of a list of blocks on their cores leaves: they take the next identifiers in order. -/
structure PlacedOn (bs : List (Nat × Block)) (s t : State) : Prop where
  only : Only [.cores] s t
  runs : t.cores.runs = s.cores.runs
  outs : t.cores.outs = s.cores.outs
  nextId : t.cores.nextId = s.cores.nextId + bs.length
  older : ∀ k, k < s.cores.nextId → tget t.cores.blocks k = tget s.cores.blocks k
  blocks : ∀ j e, bs[j]? = some e → ∃ base, tget t.cores.blocks (s.cores.nextId + j) = some { e.2 with lmBase := base }
  groups : ∀ e ∈ t.cores.groups, e ∈ s.cores.groups ∨ ∃ j b k, bs[j]? = some (e.1 / 64, b) ∧ k < b.ngroups ∧
    e.2 = newGroup (s.cores.nextId + j) k b.nregs b.entry

theorem foldl_putBlock (bs : List (Nat × Block)) (s : State) : PlacedOn bs s (bs.foldl (fun s e => putBlock s e.1 e.2) s) := by
  induction bs generalizing s with
  | nil => exact ⟨.refl _ s, rfl, rfl, rfl, fun _ _ => rfl, fun j e h => by simp at h, fun e he => .inl he⟩
  | cons a bs ih =>
    have h := ih (putBlock s a.1 a.2)
    obtain ⟨⟨base, hb⟩, hn, hr, ho, honly, hg⟩ := putBlock_leaves s a.1 a.2
    rw [List.foldl_cons]
    refine ⟨honly.trans h.only, h.runs.trans hr, h.outs.trans ho, by rw [h.nextId, hn, List.length_cons]; omega,
      fun k hk => ?_, fun j e he => ?_, fun e he => ?_⟩
    · rw [h.older k (by omega), hb, tget_tset_other _ _ (by omega)]
    · cases j with
      | zero =>
        obtain rfl := Option.some.inj he
        refine ⟨base, ?_⟩
        rw [h.older _ (by omega), hb]
        exact tget_tset_same _ _ _
      | succ j =>
        obtain ⟨base', hb'⟩ := h.blocks j e (by simpa using he)
        exact ⟨base', by rw [← hb', hn]; congr 1; omega⟩
    · rcases h.groups e he with he | ⟨j, b, k, hj, hk, hnew⟩
      · rcases hg e he with he | ⟨k, hk, hnew, hc⟩
        · exact .inl he
        · exact .inr ⟨0, a.2, k, by rw [hc]; rfl, hk, hnew⟩
      · exact .inr ⟨j + 1, b, k, by simpa using hj, hk, by rw [hnew, hn, Nat.add_right_comm, Nat.add_assoc]⟩

/-- The cores that take a block cluster lie in one hardware cluster, one for each block (R234). -/
theorem pickCores_some {s : State} {r : Run} {cores on : List Nat} {n : Nat} (h : pickCores s r cores n = some on) :
    on.length = n ∧ ∀ c ∈ on, ∀ d ∈ on, c / 16 = d / 16 := by
  obtain ⟨k, -, hk⟩ := List.exists_of_findSome?_eq_some h
  dsimp only at hk
  split at hk
  · rename_i hn
    obtain rfl := Option.some.inj hk
    have hc : ∀ c ∈ (cores.filter fun c => c / 16 == k && hasRoom s r c).take n, c / 16 = k := fun c hc => by
      have := (List.mem_filter.1 (List.mem_of_mem_take hc)).2
      simp only [Bool.and_eq_true, beq_iff_eq] at this
      exact this.1
    exact ⟨List.length_take_of_le hn, fun c h1 d h2 => (hc c h1).trans (hc d h2).symm⟩
  · cases hk

/-- The blocks of the next block cluster of a run, each with its core. -/
def clusterOn (s : State) (id : Nat) (r : Run) (n : Nat) (on : List Nat) : List (Nat × Block) :=
  on.zipIdx.map fun e => (e.1, gridBlock id r (r.next + e.2) n e.1 (rankOf (eligibleCores s r.slot r.rt) e.1))

/-- The blocks of a core grid, each with its core. -/
def gridOn (s : State) (id : Nat) (r : Run) : List (Nat × Block) :=
  r.grid.zipIdx.map fun e => (e.1.1, recordBlock id r e.2 e.1.1 (rankOf (eligibleCores s r.slot r.rt) e.1.1) e.1.2)

/-- A run of which more is placed. -/
def withRun (s : State) (id : Nat) (r : Run) : State :=
  { s with cores := { s.cores with runs := tset s.cores.runs id r } }

theorem placeCluster_grid {s : State} {id : Nat} {r : Run} {on : List Nat} (hr : tget s.cores.runs id = some r)
    (hm : r.mode1 = false) (hs : mayStart s = true) (hn : r.next < r.total)
    (hon : pickCores s r (eligibleCores s r.slot r.rt) (min r.cluster (r.total - r.next)) = some on)
    (hd : ∀ c ∈ on, IsOn s (domQuad (c / 4))) : placeCluster s id =
      withRun ((clusterOn s id r (min r.cluster (r.total - r.next)) on).foldl (fun s e => putBlock s e.1 e.2) s) id
        { r with next := r.next + min r.cluster (r.total - r.next) } := by
  have hreach : reachDoms s (on.map fun c => domQuad (c / 4)) 2 = (s, true) :=
    reachDoms_on (fun d hd' => by
      obtain ⟨c, hc, rfl⟩ := List.mem_map.1 hd'
      exact hd c hc) 2
  unfold placeCluster
  rw [hr]
  dsimp only
  rw [if_neg (by simp [hs, hn]), if_neg (by simp [hm]), hon]
  simp only [hreach, clusterOn, List.foldl_map]
  rfl

theorem placeCluster_refused {s : State} {id : Nat} {r : Run} (hr : tget s.cores.runs id = some r)
    (hm : r.mode1 = true) (hs : mayStart s = true) (hn : r.next < r.total)
    (hg : ∃ e ∈ r.grid, e.1 ∉ eligibleCores s r.slot r.rt) : placeCluster s id =
      finishWork { s with cores := { s.cores with runs := tdel s.cores.runs id } } r.q r.i r.node 0x11 := by
  unfold placeCluster
  rw [hr]
  dsimp only
  rw [if_neg (by simp [hs, hn]), if_pos hm, if_pos]
  obtain ⟨e, he, hne⟩ := hg
  exact List.any_eq_true.2 ⟨e, he, by simpa using hne⟩

theorem placeCluster_table {s : State} {id : Nat} {r : Run} (hr : tget s.cores.runs id = some r)
    (hm : r.mode1 = true) (hs : mayStart s = true) (hn : r.next < r.total)
    (hg : ∀ e ∈ r.grid, e.1 ∈ eligibleCores s r.slot r.rt ∧ hasRoom s r e.1 = true ∧ IsOn s (domQuad (e.1 / 4))) :
    placeCluster s id = withRun ((gridOn s id r).foldl (fun s e => putBlock s e.1 e.2)
      (connectGrid s id (eligibleCores s r.slot r.rt) r.grid)) id { r with next := r.total } := by
  have hreach : reachDoms s (r.grid.map fun e => domQuad (e.1 / 4)) 2 = (s, true) :=
    reachDoms_on (fun d hd' => by
      obtain ⟨e, he, rfl⟩ := List.mem_map.1 hd'
      exact (hg e he).2.2) 2
  unfold placeCluster
  rw [hr]
  dsimp only
  rw [if_neg (by simp [hs, hn]), if_pos hm, if_neg, if_neg]
  · simp only [hreach, gridOn, List.foldl_map]
    rfl
  · simp only [Bool.not_eq_true', Bool.not_eq_false]
    exact List.all_eq_true.2 fun e he => (hg e he).2.1
  · rw [List.any_eq_true]
    rintro ⟨e, he, hne⟩
    simp [(hg e he).1] at hne

/-! ## The channels of a core grid (R257) -/

theorem gridEnds_keys (w : W512) : (gridEnds w).Pairwise (fun x y => x.1 ≠ y.1) ∧ ∀ x ∈ gridEnds w, x.1 < 16 := by
  unfold gridEnds
  constructor
  · refine List.Pairwise.filterMap _ (R := fun a b : Nat => a ≠ b) (fun a a' hne b hb b' hb' => ?_) List.nodup_range
    dsimp only at hb hb'
    split at hb <;> split at hb' <;> simp_all
    rw [← hb, ← hb']
    exact hne
  · intro x hx
    obtain ⟨c, hc, he⟩ := List.mem_filterMap.1 hx
    dsimp only at he
    split at he
    · obtain rfl := Option.some.inj he
      exact List.mem_range.1 hc
    · cases he

/-- Puts at keys that are apart: each is read back, and any other stays. -/
theorem foldl_tset_apart {α β : Type} (key : β → Nat) (val : β → α) (l : List β) (hl : l.Pairwise fun x y => key x ≠ key y)
    (o : Tbl α) : (∀ x ∈ l, tget (l.foldl (fun o x => tset o (key x) (val x)) o) (key x) = some (val x)) ∧
      ∀ k, (∀ x ∈ l, key x ≠ k) → tget (l.foldl (fun o x => tset o (key x) (val x)) o) k = tget o k := by
  induction l generalizing o with
  | nil => exact ⟨by simp, fun _ _ => rfl⟩
  | cons a l ih =>
    obtain ⟨h1, h2⟩ := List.pairwise_cons.1 hl
    obtain ⟨h3, h4⟩ := ih h2 (tset o (key a) (val a))
    refine ⟨fun x hx => ?_, fun k hk => ?_⟩
    · rcases List.mem_cons.1 hx with rfl | hx
      · rw [List.foldl_cons, h4 _ fun y hy => (h1 y hy).symm]
        exact tget_tset_same _ _ _
      · exact h3 x hx
    · rw [List.foldl_cons, h4 k fun x hx => hk x (by simp [hx]), tget_tset_other _ _ (Ne.symm (hk a (by simp)))]

/-- The endpoint that a record connects. -/
def gridOut (id : Nat) (cores : List Nat) (x : Nat × Nat × Nat) : OutCh :=
  { run := id, core := cores.getD x.2.1 0, chan := x.2.2, credits := 8 }

theorem connectGrid_outs (s : State) (id : Nat) (cores : List Nat) (grid : List (Nat × W512)) (hn : (grid.map (·.1)).Nodup) :
    ∀ e ∈ grid, ∀ x ∈ gridEnds e.2,
      tget (connectGrid s id cores grid).cores.outs (e.1 * 16 + x.1) = some (gridOut id cores x) := by
  have hstep (e : Nat × W512) (o : Tbl OutCh) := foldl_tset_apart (fun x : Nat × Nat × Nat => e.1 * 16 + x.1)
    (gridOut id cores) (gridEnds e.2) ((gridEnds_keys e.2).1.imp fun h => by omega) o
  suffices h : ∀ (l : List (Nat × W512)) (o : Tbl OutCh), (l.map (·.1)).Nodup →
      let r := l.foldl (fun o e => (gridEnds e.2).foldl (fun o x => tset o (e.1 * 16 + x.1) (gridOut id cores x)) o) o
      (∀ e ∈ l, ∀ x ∈ gridEnds e.2, tget r (e.1 * 16 + x.1) = some (gridOut id cores x)) ∧
        ∀ k, (∀ e ∈ l, k / 16 ≠ e.1) → tget r k = tget o k from (h grid s.cores.outs hn).1
  intro l
  induction l with
  | nil => exact fun o _ => ⟨by simp, fun _ _ => rfl⟩
  | cons a l ih =>
    intro o hl
    rw [List.map_cons, List.nodup_cons] at hl
    obtain ⟨ha, hl⟩ := hl
    obtain ⟨h1, h2⟩ := hstep a o
    obtain ⟨h3, h4⟩ := ih ((gridEnds a.2).foldl (fun o x => tset o (a.1 * 16 + x.1) (gridOut id cores x)) o) hl
    refine ⟨fun e he x hx => ?_, fun k hk => ?_⟩
    · rcases List.mem_cons.1 he with rfl | he
      · have hlt := (gridEnds_keys e.2).2 x hx
        rw [List.foldl_cons, h4, h1 x hx]
        intro f hf hfe
        exact ha (List.mem_map.2 ⟨f, hf, by omega⟩)
      · exact h3 e he x hx
    · rw [List.foldl_cons, h4 k fun e he => hk e (by simp [he]), h2]
      intro x hx hxe
      have hlt := (gridEnds_keys a.2).2 x hx
      exact hk a (by simp) (by omega)

/-! ## Work that a run ends -/

/-- A work item that stands in its unit takes what its unit gives it. -/
theorem setWork_at {s : State} {w : Work} {g h : Stage} {f : Desc → Desc} (hf : ∀ d, (f d).idx = d.idx)
    (hg : ∀ d : Desc, d.stage = g → (f d).stage = h) (hw : WorkAt w g s) :
    WorkAt w h (setWork s w.q.val w.i (w.node.map (·.val)) f) := by
  obtain ⟨q, i, node⟩ := w
  cases node with
  | none =>
    obtain ⟨y, d, hy, hd, hs⟩ := hw
    unfold setWork
    simp only [Option.map_none] at hy ⊢
    rw [hy]
    obtain ⟨c, hc⟩ := getQ_putQ s q.val { y with recs := y.recs.map fun d => if d.idx = i then f d else d }
    refine ⟨_, f d, hc, ?_, hg d hs⟩
    have hfind : ((fun d : Desc => decide (d.idx = i)) ∘ fun d : Desc => if d.idx = i then f d else d) = fun d => decide (d.idx =
        i) := by
      funext a
      simp only [Function.comp]
      split <;> simp_all
    dsimp only at hd
    unfold recOf at hd ⊢
    dsimp only
    rw [List.find?_map, hfind, hd, Option.map_some, if_pos (by simpa using List.find?_some hd)]
  | some k =>
    obtain ⟨l, n, hl, hn, hs⟩ := hw
    obtain ⟨l', n', hl', hn', hs'⟩ := (setWork_node hl hn f).1
    exact ⟨l', n', hl', hn', hs'.trans (hg n.d hs)⟩

/-- Work whose unit has finished waits for its completion. -/
theorem finishWork_at {s : State} {w : Work} (st : Nat) (hw : WorkAt w .started s) :
    WorkAt w (.finished st) (finishWork s w.q.val w.i (w.node.map (·.val)) st) :=
  setWork_at (fun d => by split <;> rfl) (fun d hd => by rw [if_pos hd]) hw

theorem setWork_only (s : State) (q : Nat) (i : W32) (node : Option Nat) (f : Desc → Desc) :
    Only [.obj] s (setWork s q i node f) := by
  unfold setWork
  split
  · split
    · exact .refl _ s
    · exact putQ_only _ _ _
  · split
    · exact .refl _ s
    · exact putLaunch_only _ _

theorem finishWork_only (s : State) (q : Nat) (i : W32) (node : Option Nat) (st : Nat) :
    Only [.obj] s (finishWork s q i node st) := setWork_only _ _ _ _ _

/-- Where work stands depends on the objects and, for the window, on the registers. -/
theorem WorkAt.congr {s t : State} {w : Work} {g : Stage} (ho : t.obj = s.obj) (hr : t.regs = s.regs) (h : WorkAt w g s) :
    WorkAt w g t := by
  obtain ⟨q, i, node⟩ := w
  cases node with
  | none =>
    obtain ⟨y, d, hy, hd⟩ := h
    exact ⟨y, d, (getQ_same ho hr _).trans hy, hd⟩
  | some k =>
    obtain ⟨l, n, hl, hn⟩ := h
    exact ⟨l, n, by rw [launchOf, ho]; exact hl, hn⟩

/-! ## The end of a block (R226, R235) -/

/-- What is dropped with a block: itself, its groups, and its hold of engines. -/
theorem dropBlock_leaves {s : State} {b : Nat} {x : Block} (hx : tget s.cores.blocks b = some x) :
    let t := dropBlocks s fun k _ => k == b
    tget t.cores.blocks b = none ∧ (∀ e ∈ t.cores.blocks, e ∈ s.cores.blocks ∧ e.1 ≠ b) ∧
      (∀ e ∈ t.cores.groups, e.2.block ≠ b) ∧ (∀ e ∈ t.eng.eng, e.2.holder ≠ some b) ∧ t.cores.runs = s.cores.runs ∧
      Only [.cores, .eng, .bob] s t := by
  have hids : ∀ k, ((s.cores.blocks.filter fun e => e.1 == b).map (·.1)).contains k = true ↔ k = b := by
    intro k
    simp only [List.contains_eq_mem, decide_eq_true_eq, List.mem_map, List.mem_filter, beq_iff_eq]
    constructor
    · rintro ⟨e, ⟨-, he⟩, rfl⟩
      exact he
    · rintro rfl
      exact ⟨_, ⟨tget_mem hx, rfl⟩, rfl⟩
  have hblocks : ∀ e ∈ (dropBlocks s fun k _ => k == b).cores.blocks, e ∈ s.cores.blocks ∧ e.1 ≠ b := by
    intro e he
    obtain ⟨h1, h2⟩ := List.mem_filter.1 he
    refine ⟨h1, fun hb => ?_⟩
    rw [(hids e.1).2 hb] at h2
    cases h2
  refine ⟨?_, hblocks, fun e he hb => ?_, fun e he hb => ?_, rfl, fun p hp => ?_⟩
  · cases h : tget (dropBlocks s fun k _ => k == b).cores.blocks b with
    | none => rfl
    | some y => exact absurd rfl (hblocks _ (tget_mem h)).2
  · obtain ⟨h1, h2⟩ := List.mem_filter.1 he
    rw [(hids e.2.block).2 hb] at h2
    cases h2
  · obtain ⟨f, -, rfl⟩ := List.mem_map.1 he
    dsimp only at hb
    split at hb
    · rename_i c hc
      split at hb
      · cases hb
      · rename_i hn
        rw [hc] at hb
        exact hn ((hids c).2 (Option.some.inj hb))
    · rename_i hc
      rw [hc] at hb
      cases hb
  · cases p <;> first | (simp at hp; done) | rfl

/-- What the end of a run leaves of the cores and engines. -/
theorem endRun_leaves (s : State) (id : Nat) (r : Run) :
    (endRun s id r).cores = { s.cores with runs := tdel s.cores.runs id, outs := s.cores.outs.filter fun e => e.2.run ≠ id } ∧
    (endRun s id r).eng = s.eng := by
  have hf (u : State) (t : State) (h : Only [.obj, .fns, .mmu, .fe, .fab] u t) : t.cores = u.cores ∧ t.eng = u.eng :=
    ⟨h .cores (by decide), h .eng (by decide)⟩
  unfold endRun
  dsimp only
  split
  · split
    · exact hf _ _ (((putQ_only _ _ _).mono (by simp)).trans ((queueDrained_only _ _).mono (by simp [endParts])))
    · exact hf _ _ ((setWork_only _ _ _ _ _).mono (by simp))
  · exact hf _ _ ((finishWork_only _ _ _ _ _).mono (by simp))

end Sys2Proof.Machine
end

section
/-! Proofs: the settlement of the placement and the ends of blocks (spec/08 R226, R233 to R236, R257, spec/12 R380). -/

namespace Sys2Proof.Machine

theorem withRun_leaves {s t : State} {bs : List (Nat × Block)} (h : PlacedOn bs s t) (id : Nat) (r : Run) :
    tget (withRun t id r).cores.runs id = some r ∧ (withRun t id r).cores.nextId = s.cores.nextId + bs.length ∧
    (withRun t id r).cores.blocks = t.cores.blocks ∧ (withRun t id r).cores.groups = t.cores.groups ∧
    (withRun t id r).cores.outs = s.cores.outs ∧ Only [.cores] s (withRun t id r) :=
  ⟨tget_tset_same _ _ _, h.nextId, rfl, rfl, h.outs, h.only.trans (cores_only rfl)⟩

theorem clusterOn_get {s : State} {id n j core : Nat} {r : Run} {on : List Nat} (h : on[j]? = some core) :
    (clusterOn s id r n on)[j]? =
      some (core, gridBlock id r (r.next + j) n core (rankOf (eligibleCores s r.slot r.rt) core)) := by
  rw [clusterOn, List.getElem?_map, List.getElem?_zipIdx, h]
  simp

theorem clusterOn_get_inv {s : State} {id n j c : Nat} {b : Block} {r : Run} {on : List Nat}
    (h : (clusterOn s id r n on)[j]? = some (c, b)) : on[j]? = some c ∧ b.ngroups = r.groups ∧ b.nregs = r.regs ∧
      b.entry = r.entry := by
  rw [clusterOn, List.getElem?_map, List.getElem?_zipIdx] at h
  cases hj : on[j]? with
  | none => simp [hj] at h
  | some a =>
    rw [hj] at h
    simp only [Option.map_some, Option.some.injEq, Prod.mk.injEq] at h
    obtain ⟨rfl, rfl⟩ := h
    exact ⟨rfl, rfl, rfl, rfl⟩

theorem clusterOn_length (s : State) (id n : Nat) (r : Run) (on : List Nat) : (clusterOn s id r n on).length = on.length := by
  simp [clusterOn]

theorem gridOn_get {s : State} {id j : Nat} {r : Run} {e : Nat × W512} (h : r.grid[j]? = some e) : (gridOn s id r)[j]? =
    some (e.1, recordBlock id r j e.1 (rankOf (eligibleCores s r.slot r.rt) e.1) e.2) := by
  rw [gridOn, List.getElem?_map, List.getElem?_zipIdx, h]
  simp

/-! ## The end of a run -/

/-- The last block of a run has ended. -/
theorem runAfter_last {s : State} {id : Nat} {r : Run} (hr : tget s.cores.runs id = some r) (hn : r.total ≤ r.next)
    (hb : ∀ e ∈ s.cores.blocks, ¬(e.2.run = id ∧ e.2.frag = none)) : runAfter s id = endRun s id r := by
  unfold runAfter
  rw [hr]
  refine if_neg ?_
  rintro (h | h)
  · omega
  · obtain ⟨e, he, hc⟩ := List.any_eq_true.1 h
    simp only [Bool.and_eq_true, beq_iff_eq, Option.isNone_iff_eq_none] at hc
    exact hb e he hc

theorem runAfter_leaves (s : State) (id : Nat) : (runAfter s id).cores.blocks = s.cores.blocks ∧
    (runAfter s id).cores.groups = s.cores.groups ∧ (runAfter s id).eng = s.eng := by
  unfold runAfter
  split
  · exact ⟨rfl, rfl, rfl⟩
  · split
    · exact ⟨rfl, rfl, rfl⟩
    · rename_i r _ _
      obtain ⟨h1, h2⟩ := endRun_leaves s id r
      rw [h1]
      exact ⟨rfl, rfl, h2⟩

/-- The cores of a run that ends give up its channels. -/
def runGone (s : State) (id : Nat) : State := dropGrid { s with cores := { s.cores with runs := tdel s.cores.runs id } } id

/-- A run without a saved record: its work is finished with OK. -/
theorem endRun_plain {r : Run} (hc : r.cont = none) (s : State) (id : Nat) :
    endRun s id r = finishWork (runGone s id) r.q r.i r.node 0 := by
  unfold endRun
  rw [hc]
  rfl

/-- A run with the record that CONT saved: its descriptor is suspended. -/
theorem endRun_suspends {r : Run} {c : W512} {s : State} {id : Nat} {y : Queue} (hc : r.cont = some c) (hn : r.node = none)
    (hy : getQ s r.q = some y) (hst : y.st ≠ .draining) :
    endRun s id r = setWork (runGone s id) r.q r.i none fun d => { d with stage := .suspended, pay := c } := by
  have hy' : getQ (runGone s id) r.q = some y := (getQ_same rfl rfl _).trans hy
  unfold endRun
  rw [hc, hn]
  dsimp only
  rw [show dropGrid { s with cores := { s.cores with runs := tdel s.cores.runs id } } id = runGone s id from rfl, hy']
  exact if_neg hst

/-- A descriptor whose record is changed in its queue. -/
theorem setWork_rec {s : State} {q : Nat} {i : W32} {y : Queue} {d : Desc} {f : Desc → Desc} (hy : getQ s q = some y)
    (hd : recOf y i = some d) (hf : ∀ d, (f d).idx = d.idx) :
    ∃ z, getQ (setWork s q i none f) q = some z ∧ recOf z i = some (f d) := by
  unfold setWork
  dsimp only
  rw [hy]
  obtain ⟨c, hc⟩ := getQ_putQ s q { y with recs := y.recs.map fun d => if d.idx = i then f d else d }
  refine ⟨_, hc, ?_⟩
  have hfind : ((fun d : Desc => decide (d.idx = i)) ∘ fun d : Desc => if d.idx = i then f d else d) = fun d => decide (d.idx =
      i) := by
    funext a
    simp only [Function.comp]
    split <;> simp_all
  unfold recOf at hd ⊢
  dsimp only
  rw [List.find?_map, hfind, hd, Option.map_some, if_pos (by simpa using List.find?_some hd)]

/-- The run of a work item ends: the item is finished with OK, or suspended with what CONT saved. -/
theorem endRun_work {s : State} {w : Work} {r : Run} (id : Nat) (hq : w.q.val = r.q) (hi : w.i = r.i)
    (hnode : w.node.map (·.val) = r.node) (hw : WorkAt w .started s) :
    (r.cont = none → WorkAt w (.finished 0) (endRun s id r)) ∧
    ∀ c y, r.cont = some c → w.node = none → getQ s r.q = some y → y.st ≠ .draining →
      ∃ z d, getQ (endRun s id r) r.q = some z ∧ recOf z r.i = some d ∧ d.stage = .suspended ∧ d.pay = c := by
  have hw' : WorkAt w .started (runGone s id) := hw.congr rfl rfl
  refine ⟨fun hc => ?_, fun c y hc hn hy hst => ?_⟩
  · rw [endRun_plain hc, ← hq, ← hi, ← hnode]
    exact finishWork_at 0 hw'
  · have hrn : r.node = none := by rw [← hnode, hn]; rfl
    have hy' : getQ (runGone s id) r.q = some y := (getQ_same rfl rfl _).trans hy
    obtain ⟨q, i, node⟩ := w
    obtain rfl : node = none := hn
    obtain ⟨x, d, hx, hd, -⟩ := hw'
    dsimp only at hq hi hx hd
    rw [hq, hy'] at hx
    obtain rfl := Option.some.inj hx
    rw [endRun_suspends hc hrn hy hst, ← hi]
    obtain ⟨z, hz, hr⟩ := setWork_rec (f := fun d => { d with stage := .suspended, pay := c }) hy' hd fun _ => rfl
    exact ⟨z, _, hz, hr, rfl, rfl⟩

/-- A block of a kernel ends. -/
theorem endBlock_eq {s : State} {b : Nat} {x : Block} (hx : tget s.cores.blocks b = some x) (hf : x.frag = none)
    (hd : blockDone s b = true) : endBlock s b = runAfter (dropBlocks s fun k _ => k == b) x.run := by
  unfold endBlock
  rw [hx]
  exact if_neg (by simp [hf, hd])

/-- A tile of which a batch has ended. -/
def batchEnded (t : Tile) (blk : Nat) : Tile := settleTile
    { t with running := t.running.filter fun c => !(c.blk == blk && c.started) }

theorem batchEnded_leaves (t : Tile) (blk : Nat) : (batchEnded t blk).ord = t.ord ∧
    (batchEnded t blk).running = t.running.filter fun c => !(c.blk == blk && c.started) := by
  unfold batchEnded settleTile
  split
  · split <;> exact ⟨rfl, rfl⟩
  · exact ⟨rfl, rfl⟩

theorem tileOf_putTile {p : Pass} {ord : Nat} {t u : Tile} (h : tileOf p ord = some t) (hu : u.ord = ord) :
    tileOf (putTile p u) ord = some u := by
  unfold tileOf putTile at *
  dsimp only
  rw [List.find?_map]
  have hf : ((fun t : Tile => decide (t.ord = ord)) ∘ fun v : Tile => if v.ord = u.ord then u else v) = fun t => decide (t.ord =
      ord) := by
    funext a
    simp only [Function.comp]
    split <;> simp_all
  rw [hf, h, Option.map_some, if_pos (by rw [hu]; simpa using List.find?_some h)]

theorem endFrag_eq {s : State} {b p ord blk : Nat} {y : Pass} {tl : Tile} (hd : blockDone s b = true)
    (hp : tget s.ras.passes p = some y) (ht : tileOf y ord = some tl) : endFrag s b (p, ord, blk) =
      setPass (dropBlocks s fun k _ => k == b) p (putTile y (batchEnded tl blk)) := by
  unfold endFrag
  rw [if_neg (by simp [hd])]
  dsimp only
  rw [show (dropBlocks s fun k _ => k == b).ras = s.ras from rfl, hp]
  simp only [ht]
  rfl

theorem endFrag_tile {s : State} {b p ord blk : Nat} {y : Pass} {tl : Tile} (hd : blockDone s b = true)
    (hp : tget s.ras.passes p = some y) (ht : tileOf y ord = some tl) : ∃ y' tl',
      tget (endFrag s b (p, ord, blk)).ras.passes p = some y' ∧ tileOf y' ord = some tl' ∧
        tl'.running = tl.running.filter fun c => !(c.blk == blk && c.started) := by
  obtain ⟨h1, h2⟩ := batchEnded_leaves tl blk
  have hord : tl.ord = ord := by simpa [tileOf] using List.find?_some ht
  rw [endFrag_eq hd hp ht]
  exact ⟨_, _, tget_tset_same _ _ _, tileOf_putTile ht (h1.trans hord), h2⟩

/-- The claims that are granted as a block ends leave what has ended. -/
theorem blockGone_granted {s t : State} {b : Nat} (h : Granted s t) (hb : tget s.cores.blocks b = none)
    (hg : ∀ e ∈ s.cores.groups, e.2.block ≠ b) (he : ∀ e ∈ s.eng.eng, e.2.holder ≠ some b) :
    tget t.cores.blocks b = none ∧ (∀ e ∈ t.cores.groups, e.2.block ≠ b) ∧ ∀ e ∈ t.eng.eng, e.2.holder ≠ some b := by
  obtain ⟨gs, hc⟩ := h.cores
  refine ⟨by rw [hc]; exact hb, fun e hm hx => ?_, fun e hm hx => ?_⟩
  · obtain ⟨e', he', heq⟩ := h.blocks e hm
    exact hg e' he' (heq.trans hx)
  · rcases h.holders e hm b hx with ⟨e', he', heq⟩ | ⟨e', he', heq⟩
    · exact he e' he' heq
    · exact hg e' he' heq

end Sys2Proof.Machine

open Sys2Proof Sys2Proof.Machine

/-- Settles O55: blocks take their identifiers in order as they are put on cores, and a block's end is its drop, the end of its run
and the grants of waiting claims. -/
theorem blocksArePlacedAndEnd : Obligations.BlocksArePlacedAndEnd := by
  refine ⟨?_, fun s id r hr hm hs hn => ⟨fun hg => ⟨_, rfl, ?_⟩,
    fun hg hnodup => ⟨_, rfl, ?_⟩⟩, fun s b x hx hdone => ⟨fun hf => ?_, fun p ord blk y tl hf hp ht => ?_⟩⟩
  · intro s id r on hr hm hs hn
    dsimp only
    intro hon hd
    refine ⟨_, rfl, ?_⟩
    beta_reduce
    rw [placeCluster_grid hr hm hs hn hon hd]
    obtain ⟨hlen, hsame⟩ := pickCores_some hon
    generalize min r.cluster (r.total - r.next) = n at hon hlen ⊢
    have hpl := foldl_putBlock (clusterOn s id r n on) s
    obtain ⟨w1, w2, w3, w4, -, w6⟩ := withRun_leaves hpl id { r with next := r.next + n }
    rw [clusterOn_length, hlen] at w2
    refine ⟨w1, w2, hsame, fun j hj => ?_, fun e he => ?_, w6⟩
    · have hjon : on[j]? = some on[j] := List.getElem?_eq_getElem (by omega)
      obtain ⟨base, hb⟩ := hpl.blocks j _ (clusterOn_get hjon)
      exact ⟨_, _, hjon, by rw [w3]; exact hb, rfl, rfl, rfl, rfl, rfl, rfl, rfl, rfl, rfl, rfl, rfl, rfl⟩
    · rw [w4] at he
      rcases hpl.groups e he with he | ⟨j, b, k, hj, hk, hnew⟩
      · exact .inl he
      · obtain ⟨hon', hb1, hb2, hb3⟩ := clusterOn_get_inv hj
        refine .inr ⟨j, k, ?_, hb1 ▸ hk, by rw [hnew, hb2, hb3], hon'⟩
        obtain ⟨hlt, -⟩ := List.getElem?_eq_some_iff.1 hon'
        omega
  · beta_reduce
    rw [placeCluster_refused hr hm hs hn hg]
    have hc := finishWork_only { s with cores := { s.cores with runs := tdel s.cores.runs id } } r.q r.i r.node 0x11 .cores
        (by decide)
    refine ⟨by rw [hc]; exact tget_tdel_same _ _, fun w hq hi hnode hw => ?_⟩
    rw [← hq, ← hi, ← hnode]
    exact finishWork_at 0x11 (hw.congr rfl rfl)
  · beta_reduce
    rw [placeCluster_table hr hm hs hn hg]
    have houts := connectGrid_outs s id (eligibleCores s r.slot r.rt) r.grid hnodup
    have hco : Only [.cores] s (connectGrid s id (eligibleCores s r.slot r.rt) r.grid) := cores_only rfl
    have hcn : (connectGrid s id (eligibleCores s r.slot r.rt) r.grid).cores.nextId = s.cores.nextId := rfl
    generalize connectGrid s id (eligibleCores s r.slot r.rt) r.grid = u at houts hco hcn
    have hpl := foldl_putBlock (gridOn s id r) u
    obtain ⟨w1, w2, w3, -, w5, w6⟩ := withRun_leaves hpl id { r with next := r.total }
    refine ⟨w1, by rw [w2, hcn]; simp [gridOn], fun j e he => ?_, fun e he c hc => by rw [w5]; exact houts e he c hc, hco.trans w6⟩
    obtain ⟨base, hb⟩ := hpl.blocks j _ (gridOn_get he)
    exact ⟨_, by rw [w3, ← hcn]; exact hb, rfl, rfl, rfl, rfl⟩
  · have hexec : exec (.blockEnd b) s = .next (grantClaims x.core 64 (endBlock s b)) := by
      refine congrArg Host.Outcome.next ?_
      rw [hx]
      simp only [hf]
    refine ⟨_, hexec, ?_⟩
    obtain ⟨d1, d2, d3, d4, d5, d6⟩ := dropBlock_leaves hx
    have hgr := grantClaims_granted x.core 64 (endBlock s b)
    rw [endBlock_eq hx hf hdone] at hgr ⊢
    obtain ⟨r1, r2, r3⟩ := runAfter_leaves (dropBlocks s fun k _ => k == b) x.run
    obtain ⟨g1, g2, g3⟩ := blockGone_granted (b := b) hgr (by rw [r1]; exact d1) (by rw [r2]; exact d3) (by rw [r3]; exact d4)
    refine ⟨g1, g2, g3, fun w r hr hn hlast hq hi hnode hw => ?_⟩
    have hafter := runAfter_last (s := dropBlocks s fun k _ => k == b) (by rw [d5]; exact hr) hn
      fun e he ⟨h1, h2⟩ => (d2 e he).2 (hlast e (d2 e he).1 h1 h2)
    have hw' : WorkAt w .started (dropBlocks s fun k _ => k == b) := hw.congr rfl rfl
    have hget : getQ (dropBlocks s fun k _ => k == b) r.q = getQ s r.q := getQ_same rfl rfl _
    rw [hafter] at hgr ⊢
    generalize dropBlocks s (fun k _ => k == b) = u at hgr hw' hget
    obtain ⟨e1, e2⟩ := endRun_work x.run hq hi hnode hw'
    obtain ⟨c1, -⟩ := endRun_leaves u x.run r
    have ho := hgr.only .obj (by decide)
    have hre := hgr.only .regs (by decide)
    obtain ⟨gs, hcores⟩ := hgr.cores
    refine ⟨by rw [hcores, c1]; exact tget_tdel_same _ _, fun hc => (e1 hc).congr ho hre, fun c y hc hnn hy hst => ?_⟩
    obtain ⟨z, d, hz, hd⟩ := e2 c y hc hnn (hget.trans hy) hst
    exact ⟨z, d, (getQ_same ho hre _).trans hz, hd⟩
  · have hexec : exec (.blockEnd b) s = .next (grantClaims x.core 64 (endFrag s b (p, ord, blk))) := by
      refine congrArg Host.Outcome.next ?_
      rw [hx]
      simp only [hf]
    refine ⟨_, hexec, ?_⟩
    obtain ⟨d1, -⟩ := dropBlock_leaves hx
    have hgr := grantClaims_granted x.core 64 (endFrag s b (p, ord, blk))
    obtain ⟨y', tl', h1, h2, h3⟩ := endFrag_tile hdone hp ht (blk := blk)
    have hb : tget (endFrag s b (p, ord, blk)).cores.blocks b = none := by rw [endFrag_eq hdone hp ht]; exact d1
    obtain ⟨gs, hcores⟩ := hgr.cores
    refine ⟨by rw [hcores]; exact hb, y', tl', ?_, h2, h3⟩
    rw [show (grantClaims x.core 64 (endFrag s b (p, ord, blk))).ras = _ from hgr.only .ras (by decide)]
    exact h1
end

section
/-! Proofs: claims, releases and waits of tensor engines (spec/09 R272, R273, R290). -/

namespace Sys2Proof.Machine

/-! ## Waiting claims -/

/-- The claims at which a group's subgroups wait. -/
def claimsIn (e : Nat × Group) : List (Nat × Nat × Nat × Sub) :=
  e.2.subs.filterMap fun u =>
    match u.wait with
    | .mclaim m => some (e.1, e.2.block, m, u)
    | _ => none

theorem claimsIn_cons (k : Nat) (g : Group) (u : Sub) (l : List Sub) : claimsIn (k, { g with subs := u :: l }) =
    claimsIn (k, { g with subs := [u] }) ++ claimsIn (k, { g with subs := l }) := by
  unfold claimsIn
  rw [← List.filterMap_append]
  rfl

theorem claimsIn_nil {e : Nat × Group} : claimsIn e = [] ↔ ∀ u ∈ e.2.subs, ∀ m, u.wait ≠ .mclaim m := by
  rw [claimsIn, List.filterMap_eq_nil_iff]
  refine forall₂_congr fun u _ => ?_
  split
  · rename_i m hm
    simp only [reduceCtorEq, false_iff, not_forall, not_not]
    exact ⟨m, hm⟩
  · rename_i h
    simp only [true_iff]
    exact h

theorem claimants_eq (s : State) (core : Nat) :
    claimants s core = s.cores.groups.flatMap fun e => if e.1 / 64 = core then claimsIn e else [] := by
  have h (l : List (Nat × Group)) : (l.filter fun e => e.1 / 64 == core).flatMap claimsIn =
      l.flatMap fun e => if e.1 / 64 = core then claimsIn e else [] := by
    induction l with
    | nil => rfl
    | cons e l ih =>
      by_cases he : e.1 / 64 = core
      · rw [List.filter_cons_of_pos (by simpa using he), List.flatMap_cons, List.flatMap_cons, ih, if_pos he]
      · rw [List.filter_cons_of_neg (by simpa using he), List.flatMap_cons, ih, if_neg he, List.nil_append]
  exact h s.cores.groups

/-- No subgroup of a core waits at an MCLAIM. -/
theorem claimants_nil {s : State} {core : Nat} : claimants s core = [] ↔
    ∀ e ∈ s.cores.groups, e.1 / 64 = core → ∀ u ∈ e.2.subs, ∀ m, u.wait ≠ .mclaim m := by
  rw [claimants_eq, List.flatMap_eq_nil_iff]
  refine forall₂_congr fun e _ => ?_
  by_cases he : e.1 / 64 = core
  · rw [if_pos he, claimsIn_nil]
    simp [he]
  · simp [he]

/-- What a table's entries give, when all but the one put give nothing. -/
theorem flatMap_tset {α β : Type} {f : Nat × α → List β} (t : Tbl α) (h : ∀ e ∈ t, f e = []) (k : Nat) (v : α) :
    (tset t k v).flatMap f = f (k, v) := by
  have hnil : ∀ l : List (Nat × α), (∀ e ∈ l, f e = []) → l.flatMap f = [] := fun l hl => List.flatMap_eq_nil_iff.2 hl
  induction t with
  | nil => simp [tset]
  | cons e t ih =>
    obtain ⟨a, w⟩ := e
    rw [tset]
    split
    · rw [List.flatMap_cons, hnil _ h, List.append_nil]
    · split
      · rw [List.flatMap_cons, hnil _ fun e he => h e (by simp [he]), List.append_nil]
      · rw [List.flatMap_cons, h _ (by simp), ih fun e he => h e (by simp [he]), List.nil_append]

theorem tset_tset {α : Type} (t : Tbl α) (k : Nat) (v w : α) : tset (tset t k v) k w = tset t k w := by
  induction t with
  | nil => simp [tset]
  | cons e t ih =>
    obtain ⟨a, x⟩ := e
    by_cases h1 : k < a
    · simp [tset, h1]
    · by_cases h2 : k = a
      · subst h2
        simp [tset]
      · simp only [tset, if_neg h1, if_neg h2, ih]

theorem claimants_put {s t : State} {core k : Nat} {g : Group} (h : claimants s core = []) (hk : k / 64 = core)
    (ht : t.cores.groups = tset s.cores.groups k g) : claimants t core = claimsIn (k, g) := by
  rw [claimants_eq, ht, flatMap_tset _ ?_ k g, if_pos hk]
  rw [claimants_eq, List.flatMap_eq_nil_iff] at h
  exact h

section Issue

variable {s : State} {r : SgRef} {i : Iss} (h : issue s r = some i)

include h

/-- The others of an issue's group are subgroups of that group. -/
theorem issue_rest {u : Sub} (hu : u ∈ i.rest) : u ∈ i.g.subs := by
  unfold issue at h
  split at h
  · unfold issueAny at h
    dsimp only at h
    split at h
    · cases h
    · split at h
      · split at h
        · cases h
        · cases h
          exact (List.mem_filter.1 hu).1
      · cases h
  · cases h

variable (hc : claimants s r.core.val = [])

include hc

theorem issue_rest_noClaim {u : Sub} (hu : u ∈ i.rest) (m : Nat) : u.wait ≠ .mclaim m := by
  obtain ⟨-, -, hg, -⟩ := issue_some h
  exact claimants_nil.1 hc _ (tget_mem hg) (issue_core h) u (issue_rest h hu) m

theorem rest_claims (g : Group) : claimsIn (i.key, { g with subs := i.rest }) = [] :=
  claimsIn_nil.2 fun _ hu => issue_rest_noClaim h hc hu

/-- After an issue that goes past its instruction no claim waits. -/
theorem passed_claims : claimsIn (i.key, passed i) = [] := by
  refine claimsIn_nil.2 fun u hu m => ?_
  rcases List.mem_cons.1 hu with rfl | hu
  · rw [show (pass i.sub).wait = i.sub.wait from rfl, (issue_some h).2.2.2.2]
    simp
  · exact issue_rest_noClaim h hc hu m

/-- A claim of the issue is the only one that waits. -/
theorem claimants_waiting (m : Nat) : claimants (setGroup s i.key (holding i (.mclaim m))) r.core.val =
    [(i.key, i.g.block, m, { i.sub with wait := .mclaim m })] := by
  rw [claimants_put hc (issue_core h) rfl, holding, claimsIn_cons, rest_claims h hc]
  rfl

end Issue

/-! ## Grants -/

theorem grantClaims_none {s : State} {core : Nat} (h : grantOne s core = none) (n : Nat) : grantClaims core n s = s := by
  cases n with
  | zero => rfl
  | succ n => rw [grantClaims, h]

theorem grantOne_idle {s : State} {core : Nat} (h : claimants s core = []) : grantOne s core = none := by
  unfold grantOne
  rw [h]
  rfl

/-- With no claim that waits, nothing is granted. -/
theorem grantClaims_idle {s : State} {core : Nat} (h : claimants s core = []) (n : Nat) : grantClaims core n s = s :=
  grantClaims_none (grantOne_idle h) n

/-- The one claim that waits is granted when its engines are free. -/
theorem grantOne_single {s : State} {core : Nat} {c : Nat × Nat × Nat × Sub} (h : claimants s core = [c])
    (hs : settleClaim s c = none) (hf : claimFree s core c.2.1 c.2.2.1 = true) : ∃ x : Engines,
      x.eng = (passSub (claim s core c.2.1 c.2.2.1) c.1 c.2.2.2).eng.eng ∧
      grantOne s core = some { passSub (claim s core c.2.1 c.2.2.1) c.1 c.2.2.2 with eng := x } := by
  have hfree : [c].filter (fun c => claimFree s core c.2.1 c.2.2.1) = [c] := by simp [hf]
  refine ⟨{ (passSub (claim s core c.2.1 c.2.2.1) c.1 c.2.2.2).eng with
    tokens := tset (passSub (claim s core c.2.1 c.2.2.1) c.1 c.2.2.2).eng.tokens core (blockNum s c.2.1 + 1) }, rfl, ?_⟩
  unfold grantOne
  rw [h]
  dsimp only
  rw [show [c].findSome? (settleClaim s) = none by simp [hs], hfree]
  dsimp only
  by_cases ht : tgetD s.eng.tokens core 0 ≤ blockNum s c.2.1
  · rw [show [c].filter (fun c => decide (tgetD s.eng.tokens core 0 ≤ blockNum s c.2.1)) = [c] by simp [ht]]
    rfl
  · rw [show [c].filter (fun c => decide (tgetD s.eng.tokens core 0 ≤ blockNum s c.2.1)) = [] by simp [ht]]
    rfl

theorem grantOne_held {s : State} {core : Nat} {c : Nat × Nat × Nat × Sub} (h : claimants s core = [c])
    (hs : settleClaim s c = none) (hf : claimFree s core c.2.1 c.2.2.1 = false) : grantOne s core = none := by
  unfold grantOne
  rw [h]
  dsimp only
  rw [show [c].findSome? (settleClaim s) = none by simp [hs]]
  dsimp only
  rw [show [c].filter (fun c => claimFree s core c.2.1 c.2.2.1) = [] by simp [hf]]
  rfl

/-! ## Engines -/

theorem engOf_setEng (s : State) (core e f : Nat) (x : Engine) : engOf (setEng s core e x) core f =
    if f = e then x else engOf s core f := by
  unfold engOf setEng
  rw [tgetD, tget_tset]
  by_cases h : f = e
  · rw [if_pos h, if_pos (by rw [h])]
    rfl
  · rw [if_neg h, if_neg (by omega), tgetD]

theorem setEng_only (s : State) (core e : Nat) (x : Engine) : Only [.eng] s (setEng s core e x) := fun p hp => by
  cases p <;> first | (simp at hp; done) | rfl

/-- Engines set one after the other, each from what it was. -/
theorem foldl_setEng (core : Nat) (f : State → Nat → Engine) (g : Engine → Engine)
    (hf : ∀ s e, f s e = g (engOf s core e)) (l : List Nat) (hl : l.Nodup) (s : State) :
    let t := l.foldl (fun s e => setEng s core e (f s e)) s
    (∀ e, engOf t core e = if e ∈ l then g (engOf s core e) else engOf s core e) ∧ Only [.eng] s t := by
  induction l generalizing s with
  | nil => exact ⟨fun e => by simp, .refl _ s⟩
  | cons a l ih =>
    obtain ⟨ha, hl⟩ := List.nodup_cons.1 hl
    obtain ⟨h1, h2⟩ := ih hl (setEng s core a (f s a))
    refine ⟨fun e => ?_, (setEng_only _ _ _ _).trans h2⟩
    rw [List.foldl_cons, h1 e, engOf_setEng, hf]
    by_cases he : e = a
    · subst he
      simp [ha]
    · simp [he]

theorem maskEngines_nodup (m : Nat) : (maskEngines m).Nodup := List.Nodup.filter _ List.nodup_range

theorem claim_leaves (s : State) (core b m : Nat) : (∀ e, engOf (claim s core b m) core e =
      if e ∈ maskEngines m then { Engine.reset with holder := some b } else engOf s core e) ∧
    Only [.eng] s (claim s core b m) :=
  foldl_setEng core _ (fun _ => { Engine.reset with holder := some b }) (fun _ _ => rfl) _ (maskEngines_nodup m) s

/-! ## MCLAIM (R272) -/

section Claim

variable {s : State} {r : SgRef} {i : Iss} {m : Nat} (h : issue s r = some i)

include h

theorem doMclaim_held (hh : heldBy s r.core.val i.g.block ≠ []) (ha : ∀ e ∈ maskEngines m, e ∈ heldBy s r.core.val i.g.block) :
    onCore s r (doMclaim s r m) = retire s i i.g := by
  rw [onCore_issue h, doMclaim, h]
  dsimp only
  rw [issue_core h, if_neg (by simpa using hh), if_pos]
  exact List.all_eq_true.2 fun e he => by simpa using ha e he

theorem doMclaim_bad (hh : heldBy s r.core.val i.g.block ≠ []) (ha : ∃ e ∈ maskEngines m, e ∉ heldBy s r.core.val i.g.block) :
    onCore s r (doMclaim s r m) = claimBad s i := by
  rw [onCore_issue h, doMclaim, h]
  dsimp only
  rw [issue_core h, if_neg (by simpa using hh), if_neg]
  obtain ⟨e, he, hne⟩ := ha
  intro hall
  exact hne (by simpa using List.all_eq_true.1 hall e he)

theorem doMclaim_free (hh : heldBy s r.core.val i.g.block = []) :
    onCore s r (doMclaim s r m) = grantClaims r.core.val 64 (setGroup s i.key (holding i (.mclaim m))) := by
  rw [onCore_issue h, doMclaim, h]
  dsimp only
  rw [issue_core h, if_pos (by simp [hh])]
  rfl

theorem settle_waiting (hh : heldBy s r.core.val i.g.block = []) :
    settleClaim (setGroup s i.key (holding i (.mclaim m))) (i.key, i.g.block, m, { i.sub with wait := .mclaim m }) = none := by
  unfold settleClaim
  dsimp only
  have hcore : i.key / 64 = r.core.val := issue_core h
  rw [if_pos]
  rw [hcore, show heldBy (setGroup s i.key (holding i (.mclaim m))) r.core.val i.g.block = heldBy s r.core.val i.g.block from rfl,
      hh]
  rfl

/-- The claim's subgroup goes on past its MCLAIM. -/
theorem passSub_holding (hc : claimants s r.core.val = []) {t : State}
    (ht : tget t.cores.groups i.key = some (holding i (.mclaim m))) :
    passSub t i.key { i.sub with wait := .mclaim m } = setGroup t i.key (passed i) := by
  have hrest : (i.rest.map fun v => if v = { i.sub with wait := .mclaim m } then pass { v with wait := .ready } else v) = i.rest :=
      by
    refine (List.map_congr_left fun v hv => ?_).trans (List.map_id _)
    rw [if_neg]
    · rfl
    · intro he
      exact issue_rest_noClaim h hc hv m (by rw [he])
  have hself : { i.sub with wait := .ready } = i.sub := by rw [← (issue_some h).2.2.2.2]
  unfold passSub
  rw [ht]
  refine congrArg (setGroup t i.key) ?_
  unfold holding passed
  dsimp only
  rw [List.map_cons, hrest, if_pos rfl, hself]

theorem doMclaim_granted (hh : heldBy s r.core.val i.g.block = []) (hc : claimants s r.core.val = [])
    (hf : claimFree s r.core.val i.g.block m = true) : ∃ t, onCore s r (doMclaim s r m) = t ∧
      (∀ e, engOf t r.core.val e =
        if e ∈ maskEngines m then { Engine.reset with holder := some i.g.block } else engOf s r.core.val e) ∧
      tget t.cores.groups i.key = some (passed i) ∧ Only [.cores, .eng] s t := by
  rw [doMclaim_free h hh]
  have hcs := claimants_waiting h hc m
  have hset := settle_waiting (m := m) h hh
  have h1 : Only [.cores] s (setGroup s i.key (holding i (.mclaim m))) := cores_only rfl
  have h2 : (setGroup s i.key (holding i (.mclaim m))).cores.groups = tset s.cores.groups i.key (holding i (.mclaim m)) := rfl
  have hfu : claimFree (setGroup s i.key (holding i (.mclaim m))) r.core.val i.g.block m = true := hf
  generalize setGroup s i.key (holding i (.mclaim m)) = u at hcs hset h1 h2 hfu
  obtain ⟨hcl, ho⟩ := claim_leaves u r.core.val i.g.block m
  obtain ⟨x, hx, hone⟩ := grantOne_single hcs hset hfu
  dsimp only at hx hone
  have hg : (claim u r.core.val i.g.block m).cores.groups = tset s.cores.groups i.key (holding i (.mclaim m)) := by
    rw [ho .cores (by decide), h2]
  rw [passSub_holding h hc (by rw [hg]; exact tget_tset_same _ _ _)] at hx hone
  generalize claim u r.core.val i.g.block m = v at hcl ho hg hx hone
  have hgt : (setGroup v i.key (passed i)).cores.groups = tset s.cores.groups i.key (passed i) := by
    rw [show (setGroup v i.key (passed i)).cores.groups = tset v.cores.groups i.key (passed i) from rfl, hg, tset_tset]
  have hot : Only [.cores] v (setGroup v i.key (passed i)) := cores_only rfl
  have het : (setGroup v i.key (passed i)).eng = v.eng := rfl
  generalize setGroup v i.key (passed i) = w at hx hone hgt hot het
  have hend : claimants { w with eng := x } r.core.val = [] :=
    (claimants_put hc (issue_core h) hgt).trans (passed_claims h hc)
  refine ⟨{ w with eng := x }, ?_, fun e => ?_, by rw [hgt]; exact tget_tset_same _ _ _, ?_⟩
  · rw [grantClaims, hone]
    exact grantClaims_idle hend 63
  · have hr : engOf u r.core.val e = engOf s r.core.val e := by rw [engOf, h1 .eng (by decide), engOf]
    rw [← hr, ← hcl e, engOf, engOf, ← het, ← hx]
  · have hx' : Only [.eng] w { w with eng := x } := fun p hp => by cases p <;> first | (simp at hp; done) | rfl
    exact (h1.mono (by simp)).trans ((ho.mono (by simp)).trans ((hot.mono (by simp)).trans (hx'.mono (by simp))))

theorem doMclaim_waits (hh : heldBy s r.core.val i.g.block = []) (hc : claimants s r.core.val = [])
    (hf : claimFree s r.core.val i.g.block m = false) :
    onCore s r (doMclaim s r m) = setGroup s i.key (holding i (.mclaim m)) := by
  rw [doMclaim_free h hh]
  exact grantClaims_none (grantOne_held (claimants_waiting h hc m) (settle_waiting h hh) hf) 64

end Claim

theorem claimBad_leaves (s : State) (i : Iss) :
    (claimBad s i).eng = { s.eng with claimBad := min 0xFFFF (s.eng.claimBad + 1) } ∧
    (∃ g, tget (claimBad s i).cores.groups i.key = some g ∧ g.exited = (i.g.exited ||| i.sub.mask)) ∧
    Only [.cores, .eng] s (claimBad s i) := by
  obtain ⟨⟨gs, h1⟩, l, h2⟩ := exitLanes_leaves s i
  unfold claimBad
  dsimp only
  generalize exitLanes s i = u at h1 h2
  subst h1
  exact ⟨rfl, ⟨_, h2, rfl⟩, fun p hp => by cases p <;> first | (simp at hp; done) | rfl⟩

/-! ## MREL (R273) -/

/-- An engine of which its block releases what it holds. -/
def relEng (x : Engine) : Engine :=
  if x.queue = [] then { x with holder := none, releasing := none, inA := [], inB := [], outN := 0 }
  else { x with releasing := x.releasing.or (some x.queue.length) }

/-- One engine of an MREL. -/
def relOne (core : Nat) (s : State) (e : Nat) : State :=
  if (engOf s core e).queue.isEmpty then releaseEng s core e
  else
    let x := engOf s core e
    setEng s core e { x with releasing := x.releasing.or (some x.queue.length) }

theorem relOne_eq (core : Nat) (s : State) (e : Nat) : relOne core s e = setEng s core e (relEng (engOf s core e)) := by
  unfold relOne relEng releaseEng
  dsimp only
  by_cases hq : (engOf s core e).queue = []
  · rw [if_pos (by simp [hq]), if_pos hq]
    generalize engOf s core e = x at hq ⊢
    rw [hq]
  · rw [if_neg (by simpa using hq), if_neg hq]

theorem doMrel_eq {s : State} {r : SgRef} {i : Iss} (h : issue s r = some i) (m : Nat) : onCore s r (doMrel s r m) =
    grantClaims r.core.val 64 (((maskEngines m).filter (heldBy (retire s i i.g) r.core.val i.g.block).contains).foldl
      (relOne r.core.val) (retire s i i.g)) := by
  rw [onCore_issue h, doMrel, h, ← issue_core h]
  rfl

theorem heldBy_congr {s t : State} (h : t.eng = s.eng) (core b : Nat) : heldBy t core b = heldBy s core b := by
  unfold heldBy engOf
  rw [h]

theorem doMrel_leaves {s : State} {r : SgRef} {i : Iss} (h : issue s r = some i) (m : Nat) (hc : claimants s r.core.val = []) :
    tget (onCore s r (doMrel s r m)).cores.groups i.key = some (passed i) ∧
    (∀ e, engOf (onCore s r (doMrel s r m)) r.core.val e =
      if e ∈ maskEngines m ∧ e ∈ heldBy s r.core.val i.g.block then relEng (engOf s r.core.val e) else engOf s r.core.val e) ∧
    Only [.cores, .eng, .flt] s (onCore s r (doMrel s r m)) := by
  rw [doMrel_eq h]
  have h1 := retire_only s i i.g
  have h2 : (retire s i i.g).cores.groups = tset s.cores.groups i.key (passed i) := by rw [retire_cores]; rfl
  rw [heldBy_congr (h1 .eng (by decide))]
  have heng : ∀ e, engOf (retire s i i.g) r.core.val e = engOf s r.core.val e := fun e => by rw [engOf, h1 .eng (by decide), engOf]
  generalize retire s i i.g = u at h1 h2 heng
  have hfold := foldl_setEng r.core.val (fun s e => relEng (engOf s r.core.val e)) relEng (fun _ _ => rfl)
    ((maskEngines m).filter (heldBy s r.core.val i.g.block).contains) ((maskEngines_nodup m).filter _) u
  rw [show (fun s e => setEng s r.core.val e (relEng (engOf s r.core.val e))) = relOne r.core.val from
    funext fun s => funext fun e => (relOne_eq _ _ _).symm] at hfold
  obtain ⟨h3, h4⟩ := hfold
  generalize ((maskEngines m).filter (heldBy s r.core.val i.g.block).contains).foldl (relOne r.core.val) u = v at h3 h4
  have hg : v.cores.groups = tset s.cores.groups i.key (passed i) := by rw [h4 .cores (by decide), h2]
  rw [grantClaims_idle ((claimants_put hc (issue_core h) hg).trans (passed_claims h hc))]
  refine ⟨by rw [hg]; exact tget_tset_same _ _ _, fun e => ?_, (h1.mono (by simp)).trans (h4.mono (by simp))⟩
  rw [h3 e, heng]
  simp

end Sys2Proof.Machine
end

section
/-! Proofs: waits for tensor engines, and matrix instructions (spec/09 R275 to R300). -/

namespace Sys2Proof.Machine

/-! ## MWAIT (R290) -/

theorem lastOf_ne_zero (q : List EOp) (group : Nat) : lastOf q group ≠ 0 ↔ ∃ o ∈ q, o.group = group := by
  have h (l : List (EOp × Nat)) (m : Nat) : l.foldl (fun m e => if e.1.group = group then e.2 + 1 else m) m ≠ 0 ↔
      m ≠ 0 ∨ ∃ e ∈ l, e.1.group = group := by
    induction l generalizing m with
    | nil => simp
    | cons e l ih =>
      rw [List.foldl_cons, ih, List.exists_mem_cons_iff]
      by_cases he : e.1.group = group <;> simp [he]
  rw [lastOf, h]
  simp only [ne_eq, not_true_eq_false, false_or]
  constructor
  · rintro ⟨e, he, hg⟩
    exact ⟨e.1, List.fst_mem_of_mem_zipIdx he, hg⟩
  · rintro ⟨o, ho, hg⟩
    obtain ⟨n, hn⟩ := List.mem_iff_getElem?.1 ho
    exact ⟨(o, n), List.mem_zipIdx_iff_getElem?.2 hn, hg⟩

/-- What an MWAIT waits for: of each engine of its mask that the block holds, the group's instructions in its queue. -/
def waitLeft (s : State) (i : Iss) (core m : Nat) : List (Nat × Nat) :=
  ((maskEngines m).filter (heldBy s core i.g.block).contains).filterMap fun e =>
    let n := lastOf (engOf s core e).queue i.key
    if n = 0 then none else some (e, n)

theorem waitLeft_nil {s : State} {i : Iss} {core m : Nat} : waitLeft s i core m = [] ↔
    ∀ e ∈ maskEngines m, e ∈ heldBy s core i.g.block → ∀ o ∈ (engOf s core e).queue, o.group ≠ i.key := by
  rw [waitLeft, List.filterMap_eq_nil_iff]
  constructor
  · intro h e he hh o ho hg
    have := h e (List.mem_filter.2 ⟨he, by simpa using hh⟩)
    dsimp only at this
    rw [if_neg ((lastOf_ne_zero _ _).2 ⟨o, ho, hg⟩)] at this
    cases this
  · intro h e he
    obtain ⟨h1, h2⟩ := List.mem_filter.1 he
    refine if_pos (not_not.1 fun hn => ?_)
    obtain ⟨o, ho, hg⟩ := (lastOf_ne_zero _ _).1 hn
    exact h e h1 (by simpa using h2) o ho hg

theorem doMwait_goes {s : State} {r : SgRef} {i : Iss} (h : issue s r = some i) {m : Nat}
    (hl : waitLeft s i r.core.val m = []) : onCore s r (doMwait s r m) = retire s i i.g := by
  rw [← issue_core h] at hl
  rw [onCore_issue h, doMwait, h]
  exact if_pos (List.isEmpty_iff.2 hl)

theorem doMwait_waits {s : State} {r : SgRef} {i : Iss} (h : issue s r = some i) {m : Nat}
    (hl : waitLeft s i r.core.val m ≠ []) : onCore s r (doMwait s r m) =
      setGroup s i.key { i.g with subs := { i.sub with wait := .mwait (waitLeft s i r.core.val m) } :: i.rest } := by
  rw [← issue_core h] at hl ⊢
  rw [onCore_issue h, doMwait, h]
  exact if_neg fun hn => hl (List.isEmpty_iff.1 hn)

/-! ## Matrix instructions are queued (R275, R296) -/

/-- The matrix instruction that an issue queues. -/
def matOp (i : Iss) (k : MatKind) (regs : List Nat) : EOp :=
  { kind := k, ctrl := BitVec.ofNat 64 (pair i.g i.low (regs.getD 0 0)), a := BitVec.ofNat 64 (pair i.g i.low (regs.getD 1 0)),
    b := BitVec.ofNat 64 (pair i.g i.low (regs.getD 2 0)), group := i.key, lane := i.low, lines := [] }

theorem readsLines_plain (s : State) (i : Iss) {o : EOp} (h : o.kind ≠ .mloadb) : readsLines s i o = (s, some []) :=
  if_pos (.inl h)

theorem readsLines_some {s u : State} {i : Iss} {o : EOp} {l : List Byte} (h : readsLines s i o = (u, some l)) :
    Only [.mmu, .fab, .free] s u := by
  unfold readsLines at h
  dsimp only at h
  split at h
  · obtain ⟨rfl, -⟩ := Prod.mk.inj h
    exact .refl _ s
  · exact vread_some h

/-- What `putIss` leaves: the group in its place, its unit seen to move. -/
theorem putIss_leaves (s : State) (i : Iss) (g : Group) (subs : List Sub) :
    (putIss s i g subs).eng = s.eng ∧ tget (putIss s i g subs).cores.groups i.key = some { g with subs := subs ++ i.rest } ∧
    Only [.cores, .flt] s (putIss s i g subs) := by
  have h1 : Only [.flt] s (moves s (quadRef (i.core / 4))) := moves_only s _
  unfold putIss
  generalize moves s (quadRef (i.core / 4)) = u at h1
  exact ⟨h1 .eng (by decide), tget_tset_same _ _ _, (h1.mono (by simp)).trans ((cores_only rfl).mono (by simp))⟩

/-- An engine set and the token of its queue moved: the other engines stay. -/
theorem queued_leaves (s : State) (core e : Nat) (x : Engine) (k n : Nat) :
    let z := setEng s core e x
    let t := { z with eng := { z.eng with tokens := tset z.eng.tokens k n } }
    engOf t core e = x ∧ (∀ f, f ≠ e → engOf t core f = engOf s core f) ∧ t.cores = s.cores ∧ Only [.eng] s t :=
  ⟨(engOf_setEng s core e e x).trans (if_pos rfl), fun f hf => (engOf_setEng s core e f x).trans (if_neg hf), rfl,
    (setEng_only s core e x).trans fun p hp => by cases p <;> first | (simp at hp; done) | rfl⟩

section Issue

variable {s : State} {r : SgRef} {i : Iss} {e : Nat} {k : MatKind} {regs : List Nat} (h : issue s r = some i)
  (hregs : ∀ n ∈ regs, n % 2 = 0) (hh : (engOf s r.core.val e).holder = some i.g.block)
  (hc : ctrlOk k (matOp i k regs).ctrl = true) (hq : (engOf s r.core.val e).queue.length < 8)

include h hregs hh hc hq

/-- A matrix instruction that is neither refused nor held back: its counts decide (R296). -/
theorem matIssue_counts : onCore s r (matIssue s r e k regs) =
    if i.sub.s + 1 ≤ i.g.g then
      { putIss s i i.g [pass { i.sub with s := i.sub.s + 1 }] with
        eng := { (putIss s i i.g [pass { i.sub with s := i.sub.s + 1 }]).eng with
          discarded := satAdd 0xFFFF (putIss s i i.g [pass { i.sub with s := i.sub.s + 1 }]).eng.discarded 1 } }
    else
      match readsLines s i (matOp i k regs) with
      | (s', none) => s'
      | (s', some l) =>
        let t := setEng (putIss s' i { i.g with g := i.sub.s + 1 } [pass { i.sub with s := i.sub.s + 1 }]) i.core e
          { engOf s i.core e with queue := (engOf s i.core e).queue ++ [{ matOp i k regs with lines := l }] }
        { t with eng := { t.eng with tokens := tset t.eng.tokens (256 + i.core * 4 + e) ((i.quarter + 1) % 4) } } := by
  rw [← issue_core h] at hh hq
  rw [onCore_issue h, matIssue, h]
  dsimp only
  rw [if_neg (by omega), if_neg, if_neg (by simp [hh]), if_neg (by simpa [matOp] using hc)]
  · rfl
  · rw [List.any_eq_true]
    rintro ⟨n, hn, hne⟩
    simp [hregs n hn] at hne

theorem matIssue_discards (hs : i.sub.s + 1 ≤ i.g.g) :
    (onCore s r (matIssue s r e k regs)).eng = { s.eng with discarded := min 0xFFFF (s.eng.discarded + 1) } ∧
    tget (onCore s r (matIssue s r e k regs)).cores.groups i.key =
      some { i.g with subs := pass { i.sub with s := i.sub.s + 1 } :: i.rest } ∧
    Only [.cores, .eng, .flt] s (onCore s r (matIssue s r e k regs)) := by
  rw [matIssue_counts h hregs hh hc hq, if_pos hs]
  have h1 : Only [.flt] s (moves s (quadRef (i.core / 4))) := moves_only s _
  unfold putIss
  have he : (moves s (quadRef (i.core / 4))).eng = s.eng := h1 .eng (by decide)
  generalize moves s (quadRef (i.core / 4)) = u at h1 he
  refine ⟨by rw [← he]; rfl, tget_tset_same _ _ _, (h1.mono (by simp)).trans fun p hp => ?_⟩
  cases p <;> first | (simp at hp; done) | rfl

variable (hs : ¬i.sub.s + 1 ≤ i.g.g)

include hs

theorem matIssue_waits {u : State} (hr : readsLines s i (matOp i k regs) = (u, none)) :
    onCore s r (matIssue s r e k regs) = u := by
  rw [matIssue_counts h hregs hh hc hq, if_neg hs]
  simp only [hr]

theorem matIssue_queues {u : State} {l : List Byte} (hr : readsLines s i (matOp i k regs) = (u, some l)) :
    let t := onCore s r (matIssue s r e k regs)
    engOf t r.core.val e = { engOf s r.core.val e with
      queue := (engOf s r.core.val e).queue ++ [{ matOp i k regs with lines := l }] } ∧
    (∀ f, f ≠ e → engOf t r.core.val f = engOf s r.core.val f) ∧
    tget t.cores.groups i.key = some { i.g with g := i.sub.s + 1, subs := pass { i.sub with s := i.sub.s + 1 } :: i.rest } ∧
    Only [.cores, .eng, .flt, .mmu, .fab, .free] s t := by
  have hu := readsLines_some hr
  rw [matIssue_counts h hregs hh hc hq, if_neg hs]
  simp only [hr, issue_core h]
  obtain ⟨h1, h2, h3⟩ := putIss_leaves u i { i.g with g := i.sub.s + 1 } [pass { i.sub with s := i.sub.s + 1 }]
  generalize putIss u i { i.g with g := i.sub.s + 1 } [pass { i.sub with s := i.sub.s + 1 }] = v at h1 h2 h3
  obtain ⟨h4, h5, h6, h7⟩ := queued_leaves v r.core.val e { engOf s r.core.val e with
    queue := (engOf s r.core.val e).queue ++ [{ matOp i k regs with lines := l }] } (256 + r.core.val * 4 + e) ((i.quarter + 1) % 4)
  refine ⟨h4, fun f hf => (h5 f hf).trans ?_, ?_, (hu.mono (by simp)).trans ((h3.mono (by simp)).trans (h7.mono (by simp)))⟩
  · rw [engOf, h1, hu .eng (by decide)]
    rfl
  · rw [h6, h2]
    rfl

end Issue

end Sys2Proof.Machine
end

section
/-! Proofs: tensor engines execute their queues (spec/09 R273, R287, R290). -/

namespace Sys2Proof.Machine

theorem mwaitCore_only (s : State) (core e : Nat) : Only [.cores] s (mwaitCore s core e) := cores_only rfl

theorem mwaitStep_noClaim {e m : Nat} {u : Sub} (h : u.wait ≠ .mclaim m) : (mwaitStep e u).wait ≠ .mclaim m := by
  unfold mwaitStep
  split
  · dsimp only
    split <;> exact nofun
  · exact h

theorem claimants_mwaitCore {s : State} {core : Nat} (h : claimants s core = []) (e : Nat) :
    claimants (mwaitCore s core e) core = [] := by
  rw [claimants_nil] at h ⊢
  rintro x hx hk u hu m
  obtain ⟨y, hy, rfl⟩ := List.mem_map.1 hx
  by_cases hc : y.1 / 64 = core
  · simp only [if_pos hc, List.mem_map] at hu
    obtain ⟨v, hv, rfl⟩ := hu
    exact mwaitStep_noClaim (h y hy hc v hv m)
  · exact absurd hk (by rw [if_neg hc]; exact hc)

/-- What MWAITs that go on leave as it was. -/
structure Waited (core : Nat) (s t : State) : Prop where
  only : Only [.cores] s t
  lm : t.cores.lm = s.cores.lm
  claims : claimants s core = [] → claimants t core = []

theorem mwaitCore_waited (s : State) (core e : Nat) : Waited core s (mwaitCore s core e) :=
  ⟨mwaitCore_only s core e, rfl, fun h => claimants_mwaitCore h e⟩

theorem mwaitDrop_waited (core e n : Nat) (s : State) : Waited core s (mwaitDrop core e n s) := by
  induction n generalizing s with
  | zero => exact ⟨.refl _ s, rfl, id⟩
  | succ n ih =>
    obtain ⟨h1, h2, h3⟩ := ih (mwaitCore s core e)
    obtain ⟨g1, g2, g3⟩ := mwaitCore_waited s core e
    exact ⟨g1.trans h1, h2.trans g2, fun h => h3 (g3 h)⟩

theorem Waited.engOf {core : Nat} {s t : State} (h : Waited core s t) (c e : Nat) : engOf t c e = engOf s c e := by
  rw [Machine.engOf, Machine.engOf, h.only .eng (by decide)]

/-- An engine that is released holds nothing. -/
def freed (x : Engine) : Engine := { x with holder := none, queue := [], releasing := none, inA := [], inB := [], outN := 0 }

section Head

variable (s : State) (core e : Nat)

theorem headDone_none (h : (engOf s core e).releasing = none) : headDone s core e = mwaitCore s core e := by
  unfold headDone
  have hx := (mwaitCore_waited s core e).engOf core e
  generalize mwaitCore s core e = t at hx
  simp only [hx, h]

theorem headDone_more {n : Nat} (h : (engOf s core e).releasing = some n) (hn : 1 < n) :
    headDone s core e = setEng (mwaitCore s core e) core e { engOf s core e with releasing := some (n - 1) } := by
  unfold headDone
  have hx := (mwaitCore_waited s core e).engOf core e
  generalize mwaitCore s core e = t at hx
  simp only [hx, h]
  exact if_neg (by omega)

theorem headDone_last {n : Nat} (h : (engOf s core e).releasing = some n) (hn : n ≤ 1) : headDone s core e =
    grantClaims core 64 (releaseEng (mwaitDrop core e (engOf s core e).queue.length (mwaitCore s core e)) core e) := by
  unfold headDone
  have hx := (mwaitCore_waited s core e).engOf core e
  generalize mwaitCore s core e = t at hx
  simp only [hx, h]
  exact if_pos hn

/-- An engine freed where no MCLAIM waits: no claim is granted. -/
theorem release_idle (h : claimants s core = []) :
    grantClaims core 64 (releaseEng s core e) = setEng s core e (freed (engOf s core e)) :=
  grantClaims_idle (core := core) (s := releaseEng s core e) h 64

/-- The end of an engine's oldest instruction moves no byte. -/
theorem headDone_keeps : (headDone s core e).cores.lm = s.cores.lm ∧ (headDone s core e).fab = s.fab := by
  have hw := mwaitCore_waited s core e
  cases h : (engOf s core e).releasing with
  | none => rw [headDone_none s core e h]; exact ⟨hw.lm, hw.only .fab (by decide)⟩
  | some n =>
    by_cases hn : n ≤ 1
    · rw [headDone_last s core e h hn]
      have hd := mwaitDrop_waited core e (engOf s core e).queue.length (mwaitCore s core e)
      generalize mwaitDrop core e (engOf s core e).queue.length (mwaitCore s core e) = t at hd
      have hg := grantClaims_granted core 64 (releaseEng t core e)
      obtain ⟨gs, hgs⟩ := hg.cores
      have ho : Only [.eng] t (releaseEng t core e) := setEng_only _ _ _ _
      have hc : (releaseEng t core e).cores = t.cores := rfl
      refine ⟨?_, ?_⟩
      · rw [hgs, hc]
        exact hd.lm.trans hw.lm
      · rw [hg.only .fab (by decide), ho .fab (by decide), hd.only .fab (by decide), hw.only .fab (by decide)]
    · rw [headDone_more s core e h (by omega)]
      exact ⟨hw.lm, hw.only .fab (by decide)⟩

end Head

/-! ## MATRIX_COMPLETE (R287, R290) -/

section Complete

variable {s : State} {core e : Nat} {o : EOp} {rest : List EOp} (hq : (engOf s core e).queue = o :: rest)
  (hb : ((engOf s core e).holder.bind (tget s.cores.blocks)).isSome = true)

include hq hb

theorem matrixComplete_waits {u : State}
    (h : runHead (stageIn s core e) core e (engOf (stageIn s core e) core e) o = .wait u) : matrixComplete s core e = u := by
  obtain ⟨b, hb⟩ := Option.isSome_iff_exists.1 hb
  unfold matrixComplete
  simp only [hq, hb, h]

theorem matrixComplete_done {u : State} {x : Engine}
    (h : runHead (stageIn s core e) core e (engOf (stageIn s core e) core e) o = .done u x) : matrixComplete s core e =
      headDone (setEng (moves u (quadRef (core / 4))) core e { x with queue := rest, inA := [], inB := [], outN := 0 }) core e := by
  obtain ⟨b, hb⟩ := Option.isSome_iff_exists.1 hb
  unfold matrixComplete
  simp only [hq, hb, h]

end Complete

/-- An instruction that has executed leaves its engine's queue, the groups that wait for it go on, and a release that waited for it
counts it. -/
theorem executed_leaves (u : State) (core e : Nat) (y : Engine) :
    let t := headDone (setEng (moves u (quadRef (core / 4))) core e y) core e
    (y.releasing = none → engOf t core e = y ∧ ∀ f, f ≠ e → engOf t core f = engOf u core f) ∧
    (∀ n, y.releasing = some n → 1 < n → engOf t core e = { y with releasing := some (n - 1) }) ∧
    (∀ n, y.releasing = some n → n ≤ 1 → claimants u core = [] → (engOf t core e).holder = none ∧ (engOf t core e).queue = []) ∧
    t.cores.lm = u.cores.lm ∧ t.fab = u.fab := by
  have h1 : Only [.flt] u (moves u (quadRef (core / 4))) := moves_only u _
  generalize moves u (quadRef (core / 4)) = v at h1
  have hv (f : Nat) : engOf v core f = engOf u core f := by rw [engOf, engOf, h1 .eng (by decide)]
  have hx := engOf_setEng v core e
  have h2 : Only [.eng] v (setEng v core e y) := setEng_only v core e y
  have hcl : (setEng v core e y).cores = u.cores := (h2 .cores (by decide)).trans (h1 .cores (by decide))
  have hfab : (setEng v core e y).fab = u.fab := (h2 .fab (by decide)).trans (h1 .fab (by decide))
  have hx := fun f => hx f y
  generalize setEng v core e y = w at hx hcl hfab
  have hy : engOf w core e = y := (hx e).trans (if_pos rfl)
  have hw := mwaitCore_waited w core e
  refine ⟨fun h => ?_, fun n h hn => ?_, fun n h hn hc => ?_, ?_⟩
  · rw [headDone_none w core e (by rw [hy]; exact h)]
    refine ⟨by rw [hw.engOf, hy], fun f hf => ?_⟩
    rw [hw.engOf, hx, if_neg hf, hv]
  · rw [headDone_more w core e (by rw [hy]; exact h) hn, engOf_setEng, if_pos rfl, hy]
  · have hd := mwaitDrop_waited core e (engOf w core e).queue.length (mwaitCore w core e)
    rw [headDone_last w core e (by rw [hy]; exact h) hn, release_idle _ _ _ (hd.claims (hw.claims ?_)), engOf_setEng, if_pos rfl]
    · exact ⟨rfl, rfl⟩
    · unfold claimants
      rw [hcl]
      exact hc
  · obtain ⟨ha, hb⟩ := headDone_keeps w core e
    exact ⟨ha.trans (by rw [hcl]), hb.trans hfab⟩

/-! ## The instructions as they are carried out -/

/-- MCLAIM, MREL and MWAIT of a subgroup that issues (R272, R273, R290). -/
theorem engineClaims {s : State} {r : SgRef} {i : Iss} (h : issue s r = some i) (m : Fin 16) :
    let core := r.core.val
    let held := heldBy s core i.g.block
    let on : State := setGroup (went s i) i.key (passed i)
    let waits (w : SubWait) : State := setGroup s i.key { i.g with subs := { i.sub with wait := w } :: i.rest }
    (held ≠ [] → (∀ e ∈ maskEngines m.val, e ∈ held) → exec (.mclaim r m) s = .next on) ∧
    (held ≠ [] → (∃ e ∈ maskEngines m.val, e ∉ held) → Answers (.mclaim r m) s fun t =>
      t.eng = { s.eng with claimBad := min 0xFFFF (s.eng.claimBad + 1) } ∧
      (∃ g, tget t.cores.groups i.key = some g ∧ g.exited = (i.g.exited ||| i.sub.mask)) ∧ Only [.cores, .eng] s t) ∧
    (held = [] → claimants s core = [] → claimFree s core i.g.block m.val = true → Answers (.mclaim r m) s fun t =>
      (∀ e, e < 4 → engOf t core e =
        if e ∈ maskEngines m.val then { Engine.reset with holder := some i.g.block } else engOf s core e) ∧
      tget t.cores.groups i.key = some (passed i) ∧ Only [.cores, .eng] s t) ∧
    (held = [] → claimants s core = [] → claimFree s core i.g.block m.val = false →
      exec (.mclaim r m) s = .next (waits (.mclaim m.val))) ∧
    (claimants s core = [] → Answers (.mrel r m) s fun t => tget t.cores.groups i.key = some (passed i) ∧
      (∀ e, e < 4 → engOf t core e =
        let x := engOf s core e
        if e ∈ maskEngines m.val ∧ e ∈ held then
          (if x.queue = [] then { x with holder := none, releasing := none, inA := [], inB := [], outN := 0 }
           else { x with releasing := x.releasing.or (some x.queue.length) })
        else x) ∧ Only [.cores, .eng, .flt] s t) ∧
    ((∀ e ∈ maskEngines m.val, e ∈ held → ∀ o ∈ (engOf s core e).queue, o.group ≠ i.key) → exec (.mwait r m) s = .next on) ∧
    ((∃ e ∈ maskEngines m.val, e ∈ held ∧ ∃ o ∈ (engOf s core e).queue, o.group = i.key) →
      ∃ left, left ≠ [] ∧ exec (.mwait r m) s = .next (waits (.mwait left))) := by
  dsimp only
  refine ⟨fun hh ha => ?_, fun hh ha => ?_, fun hh hc hf => ?_, fun hh hc hf => ?_, fun hc => ?_, fun hn => ?_, ?_⟩
  · exact congrArg Host.Outcome.next (doMclaim_held h hh ha)
  · exact ⟨_, congrArg Host.Outcome.next (doMclaim_bad h hh ha), claimBad_leaves s i⟩
  · obtain ⟨t, ht, he, hg, ho⟩ := doMclaim_granted h hh hc hf
    exact ⟨t, congrArg Host.Outcome.next ht, fun e _ => he e, hg, ho⟩
  · exact congrArg Host.Outcome.next (doMclaim_waits h hh hc hf)
  · obtain ⟨hg, he, ho⟩ := doMrel_leaves h m.val hc
    exact ⟨_, rfl, hg, fun e _ => he e, ho⟩
  · exact congrArg Host.Outcome.next (doMwait_goes h (waitLeft_nil.2 hn))
  · rintro ⟨e, he, hh, o, ho, hg⟩
    have hl : waitLeft s i r.core.val m.val ≠ [] := fun hl => waitLeft_nil.1 hl e he hh o ho hg
    exact ⟨_, hl, congrArg Host.Outcome.next (doMwait_waits h hl)⟩

/-- A matrix instruction, by what carries it out, is discarded, waits for its lines or is queued (R287, R296). -/
theorem matIssue_cases {s : State} {r : SgRef} {i : Iss} {e : Nat} {k : MatKind} {regs : List Nat} {x : Instr}
    (hx : exec x s = .next (onCore s r (matIssue s r e k regs))) (h : issue s r = some i) (hregs : ∀ n ∈ regs, n % 2 = 0)
    (hh : (engOf s r.core.val e).holder = some i.g.block) (hc : ctrlOk k (matOp i k regs).ctrl = true)
    (hq : (engOf s r.core.val e).queue.length < 8) :
    (i.sub.s + 1 ≤ i.g.g → Answers x s fun t => t.eng = { s.eng with discarded := min 0xFFFF (s.eng.discarded + 1) } ∧
      tget t.cores.groups i.key = some { i.g with subs := pass { i.sub with s := i.sub.s + 1 } :: i.rest } ∧
      Only [.cores, .eng, .flt] s t) ∧
    (i.g.g < i.sub.s + 1 →
      (k ≠ .mloadb → readsLines s i (matOp i k regs) = (s, some [])) ∧
      (∀ u, readsLines s i (matOp i k regs) = (u, none) → exec x s = .next u) ∧
      ∀ u l, readsLines s i (matOp i k regs) = (u, some l) → Answers x s fun t =>
        engOf t r.core.val e = { engOf s r.core.val e with
          queue := (engOf s r.core.val e).queue ++ [{ matOp i k regs with lines := l }] } ∧
        (∀ f, f < 4 → f ≠ e → engOf t r.core.val f = engOf s r.core.val f) ∧
        tget t.cores.groups i.key = some { i.g with g := i.sub.s + 1, subs := pass { i.sub with s := i.sub.s + 1 } :: i.rest } ∧
        Only [.cores, .eng, .flt, .mmu, .fab, .free] s t) := by
  refine ⟨fun hs => ⟨_, hx, matIssue_discards h hregs hh hc hq hs⟩, fun hs => ⟨fun hk => readsLines_plain s i (o := matOp i k regs)
      hk, fun u hr => ?_, ?_⟩⟩
  · rw [hx, matIssue_waits h hregs hh hc hq (by omega) hr]
  · intro u l hr
    obtain ⟨h1, h2, h3, h4⟩ := matIssue_queues h hregs hh hc hq (by omega) hr
    exact ⟨_, hx, h1, fun f _ => h2 f, h3, h4⟩

/-- MATRIX_COMPLETE of an instruction whose engine's block is on its core. -/
theorem matrixComplete_cases {s : State} {core : Fin 256} {e : Fin 4} {o : EOp} {rest : List EOp}
    (hq : (engOf s core.val e.val).queue = o :: rest)
    (hb : ((engOf s core.val e.val).holder.bind (tget s.cores.blocks)).isSome = true) :
    let s' := stageIn s core.val e.val
    let after (x : Engine) : Engine := { x with queue := rest, inA := [], inB := [], outN := 0 }
    (∀ u, runHead s' core.val e.val (engOf s' core.val e.val) o = .wait u → exec (.matrixComplete core e .none) s = .next u) ∧
    (∀ u x, runHead s' core.val e.val (engOf s' core.val e.val) o = .done u x → Answers (.matrixComplete core e .none) s fun t =>
      (x.releasing = none → engOf t core.val e.val = after x ∧ ∀ f, f < 4 → f ≠ e.val → engOf t core.val f = engOf u core.val f) ∧
      (∀ n, x.releasing = some n → 1 < n → engOf t core.val e.val = { after x with releasing := some (n - 1) }) ∧
      (∀ n, x.releasing = some n → n ≤ 1 → claimants u core.val = [] → (engOf t core.val e.val).holder = none ∧
        (engOf t core.val e.val).queue = []) ∧
      t.cores.lm = u.cores.lm ∧ t.fab = u.fab) := by
  dsimp only
  refine ⟨fun u h => congrArg Host.Outcome.next (matrixComplete_waits hq hb h), fun u x h => ?_⟩
  obtain ⟨h1, h2, h3, h4⟩ := executed_leaves u core.val e.val { x with queue := rest, inA := [], inB := [], outN := 0 }
  refine ⟨_, congrArg Host.Outcome.next (matrixComplete_done hq hb h), fun hn => ?_, h2, h3, h4⟩
  obtain ⟨h5, h6⟩ := h1 hn
  exact ⟨h5, fun f _ => h6 f⟩

end Sys2Proof.Machine

open Sys2Proof Sys2Proof.Machine

/-- Settles O56: what MCLAIM, MREL and MWAIT do is read off the engines that the block holds, a matrix instruction off its
subgroup's counts, and the end of the oldest instruction off the engine's release. -/
theorem tensorEnginesAreClaimedAndQueue : Obligations.TensorEnginesAreClaimedAndQueue := by
  refine ⟨fun s r i h => ⟨engineClaims h, fun e c a b x hx => ?_⟩, fun s core e o rest hq hb => matrixComplete_cases hq hb⟩
  intro word hregs hh hc hq gone
  have hexec : exec x.1 s = .next (onCore s r (matIssue s r e.val x.2.1 x.2.2)) := by
    simp only [List.mem_cons, List.not_mem_nil, or_false] at hx
    obtain rfl | rfl | rfl | rfl := hx <;> rfl
  exact matIssue_cases hexec h hregs hh hc hq

end

section
/-! Proofs: what a Bobbin command reads, and its engine's commands (spec/11 R340 to R355). -/

namespace Sys2Proof.Machine

/-! ## Reads through translation that succeed -/

theorem arrayFrom_some {s u : State} {x : BobCmd} {base n i k : Nat} {l : List Nat}
    (h : arrayFrom s x base n i k = (u, some l)) : Only [.mmu, .fab, .free] s u := by
  unfold arrayFrom at h
  split at h
  · cases h
  · rename_i hr
    obtain ⟨rfl, -⟩ := Prod.mk.inj h
    exact vread_some hr

theorem bobAdmit_some {x : BobCmd} {n i room : Nat} {s u : State} {r : List (Nat × Nat × Nat) × Nat × Nat × Nat}
    (h : bobAdmit x n s i room = (u, some r)) : Only [.mmu, .fab, .free] s u := by
  induction n generalizing s i room r with
  | zero =>
    obtain ⟨rfl, -⟩ := Prod.mk.inj h
    exact .refl _ s
  | succ n ih =>
    rw [bobAdmit] at h
    split at h
    · cases h
    · rename_i hv
      split at h
      · cases h
      · rename_i hrows
        have hread := (vnat_some hv).trans (arrayFrom_some hrows)
        dsimp only at h
        split at h
        · obtain ⟨rfl, -⟩ := Prod.mk.inj h
          exact hread
        · split at h
          · cases h
          · rename_i hrest
            obtain ⟨rfl, -⟩ := Prod.mk.inj h
            exact hread.trans (ih hrest)

theorem neighbours_some {x : BobCmd} {l : List (Nat × Nat × Nat)} {s u : State} {r : List (List (Nat × Nat))}
    (h : neighbours x s l = (u, some r)) : Only [.mmu, .fab, .free] s u := by
  induction l generalizing s r with
  | nil =>
    obtain ⟨rfl, -⟩ := Prod.mk.inj h
    exact .refl _ s
  | cons a l ih =>
    rw [neighbours] at h
    split at h
    · cases h
    · rename_i hv
      split at h
      · cases h
      · rename_i hrest
        obtain ⟨rfl, -⟩ := Prod.mk.inj h
        exact (arrayFrom_some hv).trans (ih hrest)

theorem features_some {x : BobCmd} {l : List (Nat × Nat)} {s u : State} {r : List (List Byte)}
    (h : features x s l = (u, some r)) : Only [.mmu, .fab, .free] s u := by
  induction l generalizing s r with
  | nil =>
    obtain ⟨rfl, -⟩ := Prod.mk.inj h
    exact .refl _ s
  | cons a l ih =>
    rw [features] at h
    split at h
    · cases h
    · rename_i hv
      split at h
      · cases h
      · rename_i hrest
        obtain ⟨rfl, -⟩ := Prod.mk.inj h
        exact (vread_some hv).trans (ih hrest)

theorem probeKey_some {x : BobCmd} {k h' n i : Nat} {s u : State} {r : Option Nat × Bool × Nat}
    (h : probeKey x k h' n s i = (u, some r)) : Only [.mmu, .fab, .free] s u := by
  induction n generalizing s i with
  | zero =>
    obtain ⟨rfl, -⟩ := Prod.mk.inj h
    exact .refl _ s
  | succ n ih =>
    rw [probeKey] at h
    split at h
    · cases h
    · rename_i hv
      split at h
      · obtain ⟨rfl, -⟩ := Prod.mk.inj h
        exact vread_some hv
      · obtain ⟨rfl, -⟩ := Prod.mk.inj h
        exact vread_some hv
      · exact (vread_some hv).trans (ih h)

/-- The search for one key; the key that marks an empty place is not looked for. -/
theorem probeOne_some {x : BobCmd} {k h' n i e : Nat} {s u : State} {r : Option Nat × Bool × Nat}
    (h : (if k = e then (s, some (none, false, 0)) else probeKey x k h' n s i) = (u, some r)) :
    Only [.mmu, .fab, .free] s u := by
  split at h
  · obtain ⟨rfl, -⟩ := Prod.mk.inj h
    exact .refl _ s
  · exact probeKey_some h

theorem probeAll_some {x : BobCmd} {n q room : Nat} {s u : State} {r : List (List Byte) × Nat × Nat × Nat}
    (h : probeAll x n s q room = (u, some r)) : Only [.mmu, .fab, .free] s u := by
  induction n generalizing s q room r with
  | zero =>
    obtain ⟨rfl, -⟩ := Prod.mk.inj h
    exact .refl _ s
  | succ n ih =>
    rw [probeAll] at h
    split at h
    · obtain ⟨rfl, -⟩ := Prod.mk.inj h
      exact .refl _ s
    · split at h
      · cases h
      · rename_i hv
        split at h
        · cases h
        · rename_i hp
          have hread := (vnat_some hv).trans (probeOne_some hp)
          dsimp only at h
          split at h
          · obtain ⟨rfl, -⟩ := Prod.mk.inj h
            exact hread
          · split at h
            · cases h
            · rename_i hrest
              obtain ⟨rfl, -⟩ := Prod.mk.inj h
              exact hread.trans (ih hrest)

theorem leafTris_some {x : BobCmd} {ray base n a : Nat} {s u : State} {best : Option RayHit} {r : Option RayHit}
    (h : leafTris x ray base n s a best = (u, some r)) : Only [.mmu, .fab, .free] s u := by
  induction n generalizing s a best with
  | zero =>
    obtain ⟨rfl, -⟩ := Prod.mk.inj h
    exact .refl _ s
  | succ n ih =>
    rw [leafTris] at h
    split at h
    · obtain ⟨rfl, -⟩ := Prod.mk.inj h
      exact .refl _ s
    · split at h
      · cases h
      · rename_i hv
        exact (vnat_some hv).trans (ih h)

theorem traverse_some {x : BobCmd} {ray n : Nat} {s u : State} {l : List Nat} {w : RayWork} {base : Nat} {best : Option RayHit}
    {r : Option RayHit × Bool × RayWork} (h : traverse x ray n s l w base best = (u, some r)) :
    Only [.mmu, .fab, .free] s u := by
  induction n generalizing s l w base best with
  | zero =>
    obtain ⟨rfl, -⟩ := Prod.mk.inj h
    exact .refl _ s
  | succ n ih =>
    cases l with
    | nil =>
      obtain ⟨rfl, -⟩ := Prod.mk.inj h
      exact .refl _ s
    | cons a l =>
      rw [traverse.eq_def] at h
      dsimp only at h
      split at h
      · obtain ⟨rfl, -⟩ := Prod.mk.inj h
        exact .refl _ s
      · split at h
        · split at h
          · cases h
          · rename_i hv
            exact (leafTris_some hv).trans (ih h)
        · split at h
          · obtain ⟨rfl, -⟩ := Prod.mk.inj h
            exact .refl _ s
          · split at h
            · cases h
            · rename_i hv
              exact (vnat_some hv).trans (ih h)

theorem oneRay_some {s u : State} {x : BobCmd} {ray : Nat} {r : Nat × Bool × Nat} (h : oneRay s x ray = (u, some r)) :
    Only [.mmu, .fab, .free] s u := by
  unfold oneRay at h
  split at h
  · obtain ⟨rfl, -⟩ := Prod.mk.inj h
    exact .refl _ s
  · split at h
    · obtain ⟨rfl, -⟩ := Prod.mk.inj h
      exact (drewN_only s 2).mono (by simp)
    · split at h
      · cases h
      · rename_i hv
        obtain ⟨rfl, -⟩ := Prod.mk.inj h
        exact (traverse_some hv).trans ((drewN_only _ _).mono (by simp))

theorem allRays_some {x : BobCmd} {n k : Nat} {s u : State} {r : List (Nat × Bool × Nat)} (h : allRays x n s k = (u, some r)) :
    Only [.mmu, .fab, .free] s u := by
  induction n generalizing s k r with
  | zero =>
    obtain ⟨rfl, -⟩ := Prod.mk.inj h
    exact .refl _ s
  | succ n ih =>
    rw [allRays] at h
    split at h
    · cases h
    · rename_i hv
      split at h
      · cases h
      · rename_i hrest
        obtain ⟨rfl, -⟩ := Prod.mk.inj h
        exact (oneRay_some hv).trans (ih hrest)

/-! ## The commands of every engine stay -/

/-- Every Bobbin engine has the commands that it had. -/
def CmdsStay (s u : State) : Prop := ∀ k, (bobOf u k).cmds = (bobOf s k).cmds

theorem CmdsStay.refl (s : State) : CmdsStay s s := fun _ => rfl

theorem CmdsStay.trans {s t u : State} (h : CmdsStay s t) (h' : CmdsStay t u) : CmdsStay s u := fun k => (h' k).trans (h k)

theorem bobOf_congr {s u : State} (h : u.bob.eng = s.bob.eng) (k : Nat) : bobOf u k = bobOf s k := by
  rw [bobOf, bobOf, h]

theorem CmdsStay.of_eng {s u : State} (h : u.bob.eng = s.bob.eng) : CmdsStay s u := fun k => by rw [bobOf_congr h]

theorem CmdsStay.of_only {ps : List Part} {s u : State} (h : Only ps s u) (hb : Part.bob ∉ ps) : CmdsStay s u :=
  .of_eng (by rw [h .bob hb])

theorem bobOf_setBob (s : State) (k j : Nat) (x : Bobbin) : bobOf (setBob s k x) j = if j = k then x else bobOf s j := by
  unfold bobOf setBob
  rw [tgetD, tget_tset]
  split
  · rfl
  · rfl

theorem CmdsStay.setBob {s : State} {k : Nat} {x : Bobbin} (h : x.cmds = (bobOf s k).cmds) : CmdsStay s (setBob s k x) := by
  intro j
  rw [bobOf_setBob]
  split
  · subst j
    exact h
  · rfl

theorem setBob_only (s : State) (k : Nat) (x : Bobbin) : Only [.bob] s (setBob s k x) := fun p hp => by
  cases p <;> first | (simp at hp; done) | rfl

theorem CmdsStay.foldl {α : Type} {f : State → α → State} (hf : ∀ s a, CmdsStay s (f s a)) (l : List α) (s : State) :
    CmdsStay s (l.foldl f s) := by
  induction l generalizing s with
  | nil => exact .refl s
  | cons a l ih => exact (hf s a).trans (ih (f s a))

theorem bobWrite_cmds (s : State) (cluster : Nat) (c : W512) (off : Nat) (l : List Byte) :
    CmdsStay s (bobWrite s cluster c off l) := by
  unfold bobWrite
  dsimp only
  split
  · exact .of_eng rfl
  · exact .of_eng rfl

theorem holdTile_cmds (s : State) (cluster : Nat) (x : BobCmd) (l : List (Nat × List Byte)) :
    CmdsStay s (holdTile s cluster x l) := by
  unfold holdTile
  dsimp only
  split
  · split
    · exact .refl s
    · exact .setBob rfl
  · exact .refl s

theorem bobDeliver_cmds {s u : State} {cluster : Nat} {c : W512} {l : List (Nat × List Byte)} {r : BitVec 128} {n : Nat} {e : OpEnd}
    (h : bobDeliver s cluster c l r n = (u, e)) : CmdsStay s u := by
  unfold bobDeliver at h
  dsimp only at h
  split at h
  · obtain ⟨rfl, -⟩ := Prod.mk.inj h
    exact .refl s
  · obtain ⟨rfl, -⟩ := Prod.mk.inj h
    exact .foldl (fun s p => bobWrite_cmds s cluster c p.1 p.2) l s

theorem runExpand_cmds {s u : State} {cluster : Nat} {x : BobCmd} {e : OpEnd} (h : runExpand s cluster x = (u, some e)) :
    CmdsStay s u := by
  unfold runExpand at h
  dsimp only at h
  split at h
  · cases h
  · rename_i ha
    split at h
    · cases h
    · rename_i hn
      have hread := fun n => CmdsStay.of_only (((bobAdmit_some ha).trans (neighbours_some hn)).trans ((drewN_only _ n).mono
          (by simp))) (by decide)
      split at h
      · obtain ⟨rfl, -⟩ := Prod.mk.inj h
        exact (hread _).trans (bobDeliver_cmds rfl)
      · split at h
        · cases h
        · rename_i hf
          obtain ⟨rfl, -⟩ := Prod.mk.inj h
          have hlm := CmdsStay.foldl (f := fun s (r : (Nat × Nat) × Nat) =>
            lmWrite s (x.group / 64) (exIaddr x.cmd + 8 * r.2) (indexRec r.1)) fun s r => .of_eng rfl
          exact ((((hread _).trans (.of_only (features_some hf) (by decide))).trans (hlm _ _)).trans
            (holdTile_cmds _ _ _ _)).trans (bobDeliver_cmds rfl)

theorem runSetop_cmds {s u : State} {cluster : Nat} {x : BobCmd} {e : OpEnd} (h : runSetop s cluster x = (u, some e)) :
    CmdsStay s u := by
  unfold runSetop at h
  dsimp only at h
  split at h
  · cases h
  · rename_i ha
    split at h
    · cases h
    · rename_i hb
      obtain ⟨rfl, -⟩ := Prod.mk.inj h
      exact (CmdsStay.of_only ((arrayFrom_some ha).trans (arrayFrom_some hb)) (by decide)).trans (bobDeliver_cmds rfl)

theorem runProbe_cmds {s u : State} {cluster : Nat} {x : BobCmd} {e : OpEnd} (h : runProbe s cluster x = (u, some e)) :
    CmdsStay s u := by
  unfold runProbe at h
  dsimp only at h
  split at h
  · cases h
  · rename_i ha
    obtain ⟨rfl, -⟩ := Prod.mk.inj h
    refine CmdsStay.trans ?_ (bobDeliver_cmds rfl)
    exact (CmdsStay.of_only (probeAll_some ha) (by decide)).trans (.of_eng rfl)

theorem runRayq_cmds {s u : State} {cluster : Nat} {x : BobCmd} {e : OpEnd} (h : runRayq s cluster x = (u, some e)) :
    CmdsStay s u := by
  unfold runRayq at h
  dsimp only at h
  split at h
  · cases h
  · rename_i ha
    obtain ⟨rfl, -⟩ := Prod.mk.inj h
    refine CmdsStay.trans ?_ (bobDeliver_cmds rfl)
    refine CmdsStay.trans ?_ (.setBob rfl)
    exact (CmdsStay.of_only (allRays_some ha) (by decide)).trans (.of_eng rfl)

end Sys2Proof.Machine
end

section
/-! Proofs: a Bobbin command's life (spec/11 R328 to R345, R356). -/

namespace Sys2Proof.Machine

/-! ## The oldest command of a quad -/

theorem headCmd_quad {x : Bobbin} {quad : Nat} {c : BobCmd} (h : headCmd x quad = some c) : c.quad = quad := by
  simpa using List.find?_some h

theorem headCmd_setHead {l : List BobCmd} {quad : Nat} {c d : BobCmd} (h : l.find? (fun c => c.quad = quad) = some c)
    (hd : d.quad = quad) : (setHead l quad d).find? (fun c => c.quad = quad) = some d := by
  induction l with
  | nil => cases h
  | cons a l ih =>
    rw [setHead]
    by_cases ha : a.quad = quad
    · rw [if_pos ha]
      exact List.find?_cons_of_pos (by simpa using hd)
    · rw [if_neg ha, List.find?_cons_of_neg (by simpa using ha)]
      exact ih (by rwa [List.find?_cons_of_neg (by simpa using ha)] at h)

/-- The oldest command of a quad replaced in its engine. -/
theorem headCmd_put {s u : State} {k quad : Nat} {c d : BobCmd} {x : Bobbin} (h : headCmd (bobOf s k) quad = some c)
    (hx : x.cmds = (bobOf s k).cmds) (hd : d.quad = quad) :
    headCmd (bobOf (setBob u k { x with cmds := setHead x.cmds quad d }) k) quad = some d := by
  rw [bobOf_setBob, if_pos rfl]
  exact headCmd_setHead (c := c) (by rw [hx]; exact h) hd

/-! ## BISSUE and BWAIT (R328, R332) -/

theorem doBissue_queues {s : State} {r : SgRef} {i : Iss} {b v : Nat} (h : issue s r = some i) (hv : v % 2 = 0)
    (hl : ((bobOf s (r.core.val / 16 * 2 + b)).cmds.filter fun c => c.quad == r.core.val % 16 / 4).length < 16)
    (hb : i.g.bobOut < 255) (ha : lmOk (pair i.g i.low v) 64 = true) :
    let t := onCore s r (doBissue s r b v)
    let k := r.core.val / 16 * 2 + b
    (∃ c, (bobOf t k).cmds = (bobOf s k).cmds ++ [c] ∧ c.quad = r.core.val % 16 / 4 ∧ c.group = i.key ∧
      c.block = i.g.block ∧ c.cmd = BitVec.ofNat 512 (mnat s.cores.lm (lmKey r.core.val (pair i.g i.low v)) 64) ∧
      c.stage = .queued ∧ c.steps = 0) ∧
    tget t.cores.groups i.key = some { passed i with bobOut := i.g.bobOut + 1 } ∧ Only [.cores, .bob, .flt] s t := by
  dsimp only
  rw [onCore_issue h, doBissue, h]
  dsimp only
  rw [issue_core h, if_neg (by omega), if_neg (by omega), if_neg (by simp [ha])]
  have h1 := retire_only s i { i.g with bobOut := i.g.bobOut + 1 }
  have h2 := retire_group s i { i.g with bobOut := i.g.bobOut + 1 }
  generalize retire s i { i.g with bobOut := i.g.bobOut + 1 } = u at h1 h2
  refine ⟨?_, h2, (h1.mono (by simp)).trans ((setBob_only _ _ _).mono (by simp))⟩
  rw [bobOf_setBob, if_pos rfl]
  exact ⟨_, rfl, rfl, rfl, rfl, rfl, rfl, rfl⟩

theorem doBwait_cases {s : State} {r : SgRef} {i : Iss} (h : issue s r = some i) (n : Nat) : onCore s r (doBwait s r n) =
    if i.g.bobOut ≤ n then retire s i i.g
    else setGroup s i.key { i.g with subs := { i.sub with wait := .bwait n } :: i.rest } := by
  rw [onCore_issue h, doBwait, h]

/-! ## The active command performed (R338, R342) -/

theorem bobbinOp_ends {s u : State} {cluster b quad op n : Nat} {run : State → Nat → BobCmd → State × Option OpEnd} {c : BobCmd}
    {st : BobStage} (hc : headCmd (bobOf s (cluster * 2 + b)) quad = some c) (ha : c.stage = .active) (hs : 32 ≤ c.steps)
    (ho : bOp c.cmd = op) (hr : run s cluster c = (u, some (st, n))) (hk : CmdsStay s u) :
    headCmd (bobOf (bobbinOp s cluster b quad op run) (cluster * 2 + b)) quad = some { c with stage := st, need := n } ∧
    Only [.bob] u (bobbinOp s cluster b quad op run) := by
  unfold bobbinOp
  dsimp only
  rw [hc]
  dsimp only
  rw [if_neg (by simp [ha, ho]; omega), hr]
  have hq : c.quad = quad := headCmd_quad hc
  exact ⟨headCmd_put hc (hk _) hq, setBob_only _ _ _⟩

/-! ## Keys delivered to local memory (R342) -/

/-- Pieces of one size written one after the other stand in their places, and what lies below them stays. -/
theorem mread_pieces {n base : Nat} (l : List Nat) (k : Nat) {m : Mem} (hm : Mem.wf m = true) :
    let m' := ((l.zipIdx k).map fun e => (n * e.2, toLE n e.1)).foldl (fun m p => mwrite m (base + p.1) p.2) m
    (∀ j x, l[j]? = some x → mread m' (base + n * (k + j)) n = toLE n x) ∧
    ∀ a len, a + len ≤ base + n * k → mread m' a len = mread m a len := by
  induction l generalizing k m with
  | nil => exact ⟨fun j x h => by simp at h, fun a len _ => rfl⟩
  | cons y l ih =>
    obtain ⟨h1, h2⟩ := ih (k + 1) (mwrite_wf hm (base + n * k) (toLE n y))
    have hk : n * (k + 1) = n * k + n := Nat.mul_succ n k
    rw [List.zipIdx_cons, List.map_cons, List.foldl_cons]
    refine ⟨fun j x hj => ?_, fun a len ha => ?_⟩
    · cases j with
      | zero =>
        obtain rfl : y = x := by simpa using hj
        rw [Nat.add_zero k, h2 _ _ (by omega)]
        have hw := mread_mwrite hm (base + n * k) (toLE n y)
        rwa [toLE_length] at hw
      | succ j =>
        rw [show k + (j + 1) = k + 1 + j by omega]
        exact h1 j x (by simpa using hj)
    · rw [h2 _ _ (by omega), mread_mwrite_apart hm (Or.inl (by omega))]

theorem bobWrite_lm {s : State} {cluster : Nat} {c : W512} (hk : bKind c = 0) (l : List (Nat × List Byte)) :
    (l.foldl (fun s p => bobWrite s cluster c p.1 p.2) s).cores.lm =
      l.foldl (fun m p => mwrite m (lmKey (cluster * 16 + bCore c) (bAddr c) + p.1) p.2) s.cores.lm := by
  induction l generalizing s with
  | nil => rfl
  | cons p l ih =>
    rw [List.foldl_cons, List.foldl_cons, ih, bobWrite, if_pos hk, lmWrite, lmKey, lmKey, Nat.add_assoc]

theorem length_pieces (n k : Nat) (l : List Nat) :
    (((l.zipIdx k).map fun e => (n * e.2, toLE n e.1)).flatMap (·.2)).length = n * l.length := by
  induction l generalizing k with
  | nil => rfl
  | cons x l ih =>
    rw [List.zipIdx_cons, List.map_cons, List.flatMap_cons, List.length_append, ih, List.length_cons, Nat.mul_succ]
    simp
    omega

/-- A SETOP to local memory that reads both arrays: its result's keys stand in local memory in order. -/
theorem runSetop_delivers {s u v : State} {cluster : Nat} {c : BobCmd} {la lb : List Nat} (hk : bKind c.cmd = 0)
    (hm : memOk s = true) (ha : arrayFrom s c (bits c.cmd 191 128) (bKey c.cmd) 0 (soNa c.cmd) = (u, some la))
    (hb : arrayFrom u c (bits c.cmd 255 192) (bKey c.cmd) 0 (soNb c.cmd) = (v, some lb)) :
    let r := setResult (bSub c.cmd) (bCap c.cmd) la lb
    ∃ t, runSetop s cluster c = (t, some (.delivered (compRec r.2.1 r.1.length r.2.2.1 r.2.2.2),
        linesSpan (bits c.cmd 191 128) (bKey c.cmd * r.2.2.1) + linesSpan (bits c.cmd 255 192) (bKey c.cmd * r.2.2.2) +
          cdiv (r.2.2.1 + r.2.2.2) (32 / bKey c.cmd) + cdiv (bKey c.cmd * r.1.length) 128)) ∧
      ∀ j x, r.1[j]? = some x →
        mread t.cores.lm (lmKey (cluster * 16 + bCore c.cmd) (bAddr c.cmd + bKey c.cmd * j)) (bKey c.cmd) = toLE (bKey c.cmd) x :=
            by
  have hlm : v.cores.lm = s.cores.lm := by rw [((arrayFrom_some ha).trans (arrayFrom_some hb)) .cores (by decide)]
  obtain ⟨-, -, hm⟩ := (memOk_iff s).1 hm
  unfold runSetop
  simp only [ha, hb]
  generalize setResult (bSub c.cmd) (bCap c.cmd) la lb = r
  obtain ⟨l, st, pa, pb⟩ := r
  unfold bobDeliver
  dsimp only
  rw [if_neg (by omega), length_pieces]
  refine ⟨_, rfl, fun j x hj => ?_⟩
  rw [bobWrite_lm hk, hlm]
  have h := (mread_pieces (n := bKey c.cmd) (base := lmKey (cluster * 16 + bCore c.cmd) (bAddr c.cmd)) l 0 hm).1 j x hj
  rw [Nat.zero_add] at h
  rw [← h, lmKey, lmKey, Nat.add_assoc]

end Sys2Proof.Machine
end

section
/-! Proofs: the steps of a Bobbin engine and the end of its commands (spec/11 R328, R335 to R338, R343 to R345). -/

namespace Sys2Proof.Machine

/-! ## BOBBIN_COMPLETE (R338) -/

theorem bobCount_eng (x : Bobbins) (op st : Nat) : (bobCount x op st).eng = x.eng := by
  unfold bobCount
  split
  · rfl
  · split <;> rfl

/-- A group of which one Bobbin command has ended. -/
theorem bobDown_leaves (g : Group) : (bobDown g).bobOut = g.bobOut - 1 ∧ (bobDown g).regs = g.regs := ⟨rfl, rfl⟩

/-- The machine after a command's completion: its record in local memory, its engine's commands, its group counted down. -/
def recorded (s : State) (core a : Nat) (l : List Byte) (k : Nat) (x : Bobbin) (group op st : Nat) : State :=
  let u := setBob (lmWrite s core a l) k x
  { u with cores := { u.cores with groups := tmod u.cores.groups group bobDown }, bob := bobCount u.bob op st }

theorem recorded_leaves (s : State) (core a : Nat) (l : List Byte) (k : Nat) (x : Bobbin) (group op st : Nat) :
    let t := recorded s core a l k x group op st
    t.cores.lm = mwrite s.cores.lm (lmKey core a) l ∧ t.cores.groups = tmod s.cores.groups group bobDown ∧
    bobOf t k = x ∧ Only [.cores, .bob] s t := by
  refine ⟨rfl, rfl, ?_, fun p hp => ?_⟩
  · rw [bobOf, recorded, bobCount_eng, tgetD]
    exact congrArg (Option.getD · _) (tget_tset_same _ _ _)
  · cases p <;> first | (simp at hp; done) | rfl

theorem bobbinComplete_ends {s : State} {cluster b quad : Nat} {c : BobCmd} {r : BitVec 128}
    (hc : headCmd (bobOf s (cluster * 2 + b)) quad = some c) (hr : c.stage = .delivered r) (hs : stepsLeft c = 0)
    (hl : lmOk (bComp c.cmd) 16 = true) (hm : memOk s = true) :
    let t := bobbinComplete s cluster b quad
    let at' := lmKey (c.group / 64) (bComp c.cmd)
    mread t.cores.lm at' 16 = toLE 16 r.toNat ∧ (∀ a, a < at' ∨ at' + 16 ≤ a → mget t.cores.lm a = mget s.cores.lm a) ∧
    (bobOf t (cluster * 2 + b)).cmds = popHead (bobOf s (cluster * 2 + b)).cmds quad ∧
    (∀ g, tget s.cores.groups c.group = some g → ∃ h, tget t.cores.groups c.group = some h ∧ h.bobOut = g.bobOut - 1 ∧
      h.regs = g.regs) ∧ Only [.cores, .bob] s t := by
  obtain ⟨-, -, hm⟩ := (memOk_iff s).1 hm
  have ht : bobbinComplete s cluster b quad = recorded s (c.group / 64) (bComp c.cmd) (toLE 16 r.toNat) (cluster * 2 + b)
      { bobOf s (cluster * 2 + b) with cmds := popHead (bobOf s (cluster * 2 + b)).cmds quad } c.group (bOp c.cmd) (bits r 7 0) :=
          by
    unfold bobbinComplete
    dsimp only
    rw [hc]
    dsimp only
    simp only [hr]
    rw [if_neg (by omega), if_neg (by simp [hl])]
    rfl
  rw [ht]
  obtain ⟨hlm, hgr, hb, ho⟩ := recorded_leaves s (c.group / 64) (bComp c.cmd) (toLE 16 r.toNat) (cluster * 2 + b)
    { bobOf s (cluster * 2 + b) with cmds := popHead (bobOf s (cluster * 2 + b)).cmds quad } c.group (bOp c.cmd) (bits r 7 0)
  generalize recorded _ _ _ _ _ _ _ _ _ = t at hlm hgr hb ho
  have h16 := toLE_length 16 r.toNat
  have hw := mread_mwrite hm (lmKey (c.group / 64) (bComp c.cmd)) (toLE 16 r.toNat)
  rw [h16] at hw
  refine ⟨by rw [hlm]; exact hw, fun a ha => ?_, by rw [hb], fun g hg => ⟨bobDown g, ?_, bobDown_leaves g⟩, ho⟩
  · rw [hlm]
    exact mget_mwrite_outside hm (by rw [h16]; exact ha)
  · rw [hgr, tget_tmod, if_pos rfl, hg]
    rfl

/-! ## BOBBIN_STEP (R328, R335, R345) -/

theorem bobStalls_only (s : State) (slot cycles : Nat) (l : List BobCmd) : Only [.car] s (bobStalls s slot cycles l) :=
  .foldl (fun s n => addStall_only s n _ _) _ s

theorem steppers_head {s : State} {cluster b : Nat} {waits : List (Fin 4)} {c : BobCmd} {l : List BobCmd}
    (h : steppers s cluster b waits = c :: l) : headCmd (bobOf s (cluster * 2 + b)) c.quad = some c := by
  have hm : c ∈ steppers s cluster b waits := by rw [h]; exact List.mem_cons_self
  obtain ⟨q, -, hq⟩ := List.mem_filterMap.1 hm
  obtain ⟨d, hd, he⟩ := Option.bind_eq_some_iff.1 hq
  split at he
  · obtain rfl := Option.some.inj he
    rw [headCmd_quad hd]
    exact hd
  · cases he

/-- The first step's checks are of the configuration, the cores, the engines and the passes. -/
theorem firstStep_congr {s u : State} (h : Only [.bob, .car, .flt] s u) (cluster : Nat) (c : BobCmd) :
    firstStep u cluster c = firstStep s cluster c := by
  have hslot (b : Block) : slotOfBlock u b = slotOfBlock s b := by
    rw [slotOfBlock, slotOfBlock, h .cores (by decide), h .ras (by decide)]
  have hheld : bobHeld u cluster c = bobHeld s cluster c := by
    rw [bobHeld, bobHeld, engOf, engOf, h .cores (by decide), h .eng (by decide)]
    simp only [hslot]
  rw [firstStep, firstStep, hheld, bobRanges, bobRanges, bobChanUsed, bobChanUsed, slotQuads, slotQuads, active, active,
    h .cores (by decide), h .regs (by decide)]

/-- The engine and the machine when the chosen command takes its step. -/
def stepAt (s : State) (k cluster cycles : Nat) (c : BobCmd) (others : List BobCmd) : State :=
  let u := bobStalls s c.slot cycles others
  setBob (moves u (clusterRef cluster)) k { bobOf u k with token := (c.quad + 1) % 4 }

theorem stepAt_leaves (s : State) (k cluster cycles : Nat) (c : BobCmd) (others : List BobCmd) :
    bobOf (stepAt s k cluster cycles c others) k = { bobOf s k with token := (c.quad + 1) % 4 } ∧
    Only [.bob, .car, .flt] s (stepAt s k cluster cycles c others) := by
  have h1 := bobStalls_only s c.slot cycles others
  unfold stepAt
  dsimp only
  generalize bobStalls s c.slot cycles others = u at h1
  have h2 := moves_only u (clusterRef cluster)
  generalize moves u (clusterRef cluster) = v at h2
  refine ⟨?_, (h1.mono (by simp)).trans ((h2.mono (by simp)).trans ((setBob_only _ _ _).mono (by simp)))⟩
  rw [bobOf_setBob, if_pos rfl, bobOf_congr (s := s) (u := u) (by rw [h1 .bob (by decide)])]

theorem bobbinStep_takes {s : State} {cluster b cycles : Nat} {waits : List (Fin 4)} {c : BobCmd} {others : List BobCmd}
    (h : steppers s cluster b waits = c :: others) (hon : IsOn s (domCluster cluster)) :
    bobbinStep s cluster b waits cycles =
      stepCmd (stepAt s (cluster * 2 + b) cluster cycles c others) (cluster * 2 + b) cluster c := by
  unfold bobbinStep
  dsimp only
  rw [h]
  dsimp only
  rw [reachDom_on hon]
  rfl

/-- A command replaced by its next stage. -/
theorem step_put {s u v : State} {k : Nat} {c d : BobCmd} (hc : headCmd (bobOf s k) c.quad = some c)
    (hb : bobOf u k = { bobOf s k with token := (c.quad + 1) % 4 }) (hd : d.quad = c.quad) :
    let t := setBob v k { bobOf u k with cmds := setHead (bobOf u k).cmds c.quad d }
    (bobOf t k).token = (c.quad + 1) % 4 ∧ headCmd (bobOf t k) c.quad = some d := by
  refine ⟨?_, headCmd_put hc (by rw [hb]) hd⟩
  rw [bobOf_setBob, if_pos rfl, hb]

section Step

variable {s u : State} {k cluster : Nat} {c : BobCmd} (hc : headCmd (bobOf s k) c.quad = some c)
  (hb : bobOf u k = { bobOf s k with token := (c.quad + 1) % 4 }) (ho : Only [.bob, .car, .flt] s u)

include hc hb ho

theorem stepCmd_queued {st : BobStage} (hs : c.stage = .queued) (hf : firstStep s cluster c = some st) :
    let t := stepCmd u k cluster c
    (bobOf t k).token = (c.quad + 1) % 4 ∧ headCmd (bobOf t k) c.quad = some { c with stage := st, steps := 1 } ∧
    Only [.bob, .car, .flt] s t := by
  have hf : firstStep u cluster c = some st := (firstStep_congr ho cluster c).trans hf
  unfold stepCmd
  simp only [hs, hf]
  obtain ⟨h1, h2⟩ := step_put (v := u) (d := { c with stage := st, steps := 1 }) hc hb rfl
  exact ⟨h1, h2, ho.trans ((setBob_only _ _ _).mono (by simp))⟩

theorem stepCmd_on (hs : c.stage = .active ∨ ∃ r, c.stage = .delivered r) :
    let t := stepCmd u k cluster c
    (bobOf t k).token = (c.quad + 1) % 4 ∧
    headCmd (bobOf t k) c.quad = some { c with stage := c.stage, steps := c.steps + 1 } ∧ Only [.bob, .car, .flt] s t := by
  have hsend : bobSend u cluster c = (u, c.stage) := by
    unfold bobSend
    obtain hs | ⟨r, hs⟩ := hs <;> rw [hs]
  have hstep : stepCmd u k cluster c = setBob u k { bobOf u k with
      cmds := setHead (bobOf u k).cmds c.quad { c with stage := c.stage, steps := c.steps + 1 } } := by
    unfold stepCmd
    dsimp only
    rw [hsend]
    obtain hs | ⟨r, hs⟩ := hs <;> rw [hs]
  rw [hstep]
  obtain ⟨h1, h2⟩ := step_put (v := u) (d := { c with stage := c.stage, steps := c.steps + 1 }) hc hb rfl
  exact ⟨h1, h2, ho.trans ((setBob_only _ _ _).mono (by simp))⟩

theorem stepCmd_sends {out : List W512} {r : BitVec 128} (hs : c.stage = .sending out r) :
    let t := stepCmd u k cluster c
    let key := (cluster * 16 + bCore c.cmd) * 16 + bAddr c.cmd % 16
    ((bobOf t k).token = (c.quad + 1) % 4 ∧ headCmd (bobOf t k) c.quad = some { c with
      stage := if sendsNow c out then (if out.length ≤ 2 then .delivered r else .sending (out.drop 2) r) else c.stage,
      steps := c.steps + 1 }) ∧
    tgetD t.cores.inbox key [] = tgetD s.cores.inbox key [] ++ (if sendsNow c out then out.take 2 else []) ∧
    Only [.bob, .car, .cores, .flt] s t := by
  have hcores : u.cores = s.cores := ho .cores (by decide)
  have ho' : Only [.bob, .car, .cores, .flt] s u := ho.mono (by simp)
  unfold stepCmd
  simp only [hs]
  unfold bobSend
  simp only [hs]
  by_cases hn : sendsNow c out = true
  · simp only [hn, Bool.not_true, Bool.false_eq_true, if_false, if_true]
    refine ⟨step_put hc hb rfl, ?_, ho'.trans fun p hp => ?_⟩
    · rw [hcores]
      exact congrArg (Option.getD · []) (tget_tset_same _ _ _)
    · cases p <;> first | (simp at hp; done) | rfl
  · simp only [Bool.not_eq_true] at hn
    simp only [hn, Bool.not_false, Bool.false_eq_true, if_false, if_true]
    refine ⟨step_put hc hb rfl, ?_, ho'.trans ((setBob_only _ _ _).mono (by simp))⟩
    rw [List.append_nil, ← hcores]
    rfl

end Step

end Sys2Proof.Machine
end

section
/-! Proofs: the Bobbin instructions as they are carried out (spec/11). -/

namespace Sys2Proof.Machine

theorem bobbinIssues {s : State} {r : SgRef} {i : Iss} (h : issue s r = some i) :
    (∀ (b : Fin 2) (v : Reg),
      let k := r.core.val / 16 * 2 + b.val
      let a := pair i.g i.low v.val
      let quad := r.core.val % 16 / 4
      v.val % 2 = 0 → ((bobOf s k).cmds.filter fun c => c.quad == quad).length < 16 → i.g.bobOut < 255 → lmOk a 64 = true →
      Answers (.bissue r b v) s fun t => (∃ c, (bobOf t k).cmds = (bobOf s k).cmds ++ [c] ∧ c.quad = quad ∧ c.group = i.key ∧
        c.block = i.g.block ∧ c.cmd = BitVec.ofNat 512 (mnat s.cores.lm (lmKey r.core.val a) 64) ∧ c.stage = .queued ∧ c.steps = 0)
            ∧
        tget t.cores.groups i.key = some { passed i with bobOut := i.g.bobOut + 1 } ∧ Only [.cores, .bob, .flt] s t) ∧
    (∀ n : Fin 256, (i.g.bobOut ≤ n.val → exec (.bwait r n) s = .next (setGroup (went s i) i.key (passed i))) ∧
      (n.val < i.g.bobOut → exec (.bwait r n) s =
        .next (setGroup s i.key { i.g with subs := { i.sub with wait := .bwait n.val } :: i.rest }))) := by
  refine ⟨?_, fun n => ⟨fun hn => ?_, fun hn => ?_⟩⟩
  · intro b v
    dsimp only
    intro hv hl hb ha
    exact ⟨_, rfl, doBissue_queues h hv hl hb ha⟩
  · exact congrArg Host.Outcome.next ((doBwait_cases h n.val).trans (if_pos hn))
  · exact congrArg Host.Outcome.next ((doBwait_cases h n.val).trans (if_neg (by omega)))

/-- An operation's command, by what performs it. -/
theorem bobbinOp_answers {s u : State} {x : Instr} {cluster b quad op n : Nat}
    {run : State → Nat → BobCmd → State × Option OpEnd} (hx : exec x s = .next (bobbinOp s cluster b quad op run)) {c : BobCmd}
    {st : BobStage} (hc : headCmd (bobOf s (cluster * 2 + b)) quad = some c) (ha : c.stage = .active) (hs : 32 ≤ c.steps)
    (ho : bOp c.cmd = op) (hr : run s cluster c = (u, some (st, n))) (hk : CmdsStay s u) :
    Answers x s fun t => headCmd (bobOf t (cluster * 2 + b)) quad = some { c with stage := st, need := n } ∧
      t.cores = u.cores ∧ t.fab = u.fab ∧ t.eng = u.eng := by
  obtain ⟨h1, h2⟩ := bobbinOp_ends hc ha hs ho hr hk
  exact ⟨_, hx, h1, h2 .cores (by decide), h2 .fab (by decide), h2 .eng (by decide)⟩

theorem bobbinRuns (s : State) (cluster : Fin 16) (b : Fin 2) (quad : Fin 4) (c : BobCmd)
    (hc : headCmd (bobOf s (cluster.val * 2 + b.val)) quad.val = some c) (ha : c.stage = .active) (hs : 32 ≤ c.steps) :
    ∀ e ∈ [(Instr.expand cluster b quad, 1, runExpand), (.setop cluster b quad, 2, runSetop),
        (.probe cluster b quad, 3, runProbe), (.rayq cluster b quad, 4, runRayq)], bOp c.cmd = e.2.1 →
      ∀ u st n, e.2.2 s cluster.val c = (u, some (st, n)) → Answers e.1 s fun t =>
        headCmd (bobOf t (cluster.val * 2 + b.val)) quad.val = some { c with stage := st, need := n } ∧ t.cores = u.cores ∧
        t.fab = u.fab ∧ t.eng = u.eng := by
  intro e he ho u st n hr
  simp only [List.mem_cons, List.not_mem_nil, or_false] at he
  obtain rfl | rfl | rfl | rfl := he
  · exact bobbinOp_answers rfl hc ha hs ho hr (runExpand_cmds hr)
  · exact bobbinOp_answers rfl hc ha hs ho hr (runSetop_cmds hr)
  · exact bobbinOp_answers rfl hc ha hs ho hr (runProbe_cmds hr)
  · exact bobbinOp_answers rfl hc ha hs ho hr (runRayq_cmds hr)

theorem setopDelivers (s : State) (cluster : Fin 16) (b : Fin 2) (quad : Fin 4) (c : BobCmd)
    (hc : headCmd (bobOf s (cluster.val * 2 + b.val)) quad.val = some c) (ha : c.stage = .active) (hs : 32 ≤ c.steps)
    (ho : bOp c.cmd = 2) (hk : bKind c.cmd = 0) (hm : memOk s = true) {u v : State} {la lb : List Nat}
    (hla : arrayFrom s c (bits c.cmd 191 128) (bKey c.cmd) 0 (soNa c.cmd) = (u, some la))
    (hlb : arrayFrom u c (bits c.cmd 255 192) (bKey c.cmd) 0 (soNb c.cmd) = (v, some lb)) :
    let r := setResult (bSub c.cmd) (bCap c.cmd) la lb
    Answers (.setop cluster b quad) s fun t =>
      headCmd (bobOf t (cluster.val * 2 + b.val)) quad.val = some { c with
        stage := .delivered (compRec r.2.1 r.1.length r.2.2.1 r.2.2.2)
        need := linesSpan (bits c.cmd 191 128) (bKey c.cmd * r.2.2.1) + linesSpan (bits c.cmd 255 192) (bKey c.cmd * r.2.2.2) +
          cdiv (r.2.2.1 + r.2.2.2) (32 / bKey c.cmd) + cdiv (bKey c.cmd * r.1.length) 128 } ∧
      (∀ j x, r.1[j]? = some x → mread t.cores.lm
        (lmKey (cluster.val * 16 + bCore c.cmd) (bAddr c.cmd + bKey c.cmd * j)) (bKey c.cmd) = toLE (bKey c.cmd) x) := by
  obtain ⟨w, hw, hlm⟩ := runSetop_delivers (cluster := cluster.val) hk hm hla hlb
  obtain ⟨t, ht, h1, h2, -, -⟩ := bobbinRuns s cluster b quad c hc ha hs (.setop cluster b quad, 2, runSetop) (by simp) ho w _ _ hw
  exact ⟨t, ht, h1, by rw [h2]; exact hlm⟩

theorem bobbinSteps (s : State) (cluster : Fin 16) (b : Fin 2) (waits : List (Fin 4)) (cycles : Nat) (c : BobCmd)
    (others : List BobCmd) (h : steppers s cluster.val b.val waits = c :: others) (hon : IsOn s (domCluster cluster.val)) :
    let k := cluster.val * 2 + b.val
    let stepped (st : BobStage) (t : State) : Prop := (bobOf t k).token = (c.quad + 1) % 4 ∧
      headCmd (bobOf t k) c.quad = some { c with stage := st, steps := if c.stage = .queued then 1 else c.steps + 1 }
    (∀ st, c.stage = .queued → firstStep s cluster.val c = some st →
      Answers (.bobbinStep cluster b ⟨waits, cycles⟩ .none) s fun t => stepped st t ∧ Only [.bob, .car, .flt] s t) ∧
    (∀ r, c.stage = .active ∨ c.stage = .delivered r →
      Answers (.bobbinStep cluster b ⟨waits, cycles⟩ .none) s fun t => stepped c.stage t ∧ Only [.bob, .car, .flt] s t) ∧
    (∀ out r, c.stage = .sending out r → Answers (.bobbinStep cluster b ⟨waits, cycles⟩ .none) s fun t =>
      let key := (cluster.val * 16 + bCore c.cmd) * 16 + bAddr c.cmd % 16
      stepped (if sendsNow c out then (if out.length ≤ 2 then .delivered r else .sending (out.drop 2) r) else c.stage) t ∧
      tgetD t.cores.inbox key [] = tgetD s.cores.inbox key [] ++ (if sendsNow c out then out.take 2 else []) ∧
      Only [.bob, .car, .cores, .flt] s t) := by
  dsimp only
  have hc := steppers_head h
  obtain ⟨hb, ho⟩ := stepAt_leaves s (cluster.val * 2 + b.val) cluster.val cycles c others
  have ht := congrArg (Host.Outcome.next (φ := Fault) (ρ := Refusal)) (bobbinStep_takes (cycles := cycles) h hon)
  refine ⟨fun st hs hf => ?_, fun r hs => ?_, fun out r hs => ?_⟩
  · obtain ⟨h1, h2, h3⟩ := stepCmd_queued hc hb ho hs hf
    exact ⟨_, ht, ⟨h1, by rw [if_pos hs]; exact h2⟩, h3⟩
  · obtain ⟨h1, h2, h3⟩ := stepCmd_on (cluster := cluster.val) hc hb ho (hs.imp_right fun h => ⟨r, h⟩)
    exact ⟨_, ht, ⟨h1, by rw [if_neg (by obtain hs | hs := hs <;> simp [hs])]; exact h2⟩, h3⟩
  · obtain ⟨⟨h1, h2⟩, h3⟩ := stepCmd_sends (cluster := cluster.val) hc hb ho hs
    exact ⟨_, ht, ⟨h1, by rw [if_neg (show c.stage ≠ .queued by simp [hs])]; exact h2⟩, h3⟩

end Sys2Proof.Machine

open Sys2Proof Sys2Proof.Machine

/-- Settles O57: a command is taken through its stages by what queues it, steps it, performs it and ends it; what an operation
reads leaves the engines' commands. -/
theorem bobbinCommandsRunAndComplete : Obligations.BobbinCommandsRunAndComplete := by
  refine ⟨fun s r i h => bobbinIssues h, fun s cluster b quad c hc => ⟨bobbinRuns s cluster b quad c hc, ?_, ?_⟩, ?_⟩
  · intro ha hs ho hk hm u v la lb hla hlb
    exact setopDelivers s cluster b quad c hc ha hs ho hk hm hla hlb
  · intro r hr hs hl hm
    exact ⟨_, rfl, bobbinComplete_ends hc hr hs hl hm⟩
  · intro s cluster b waits cycles c others _ h hon
    exact bobbinSteps s cluster b waits cycles c others h hon

end

section
/-! Proofs: work that a front end or a unit begins (spec/05 R153). -/

namespace Sys2Proof.Machine

/-! ## Payloads and queues -/

theorem readPay_ok {s u : State} {who : Who} {w p : W512} (h : readPay s who w = (u, .ok p)) : Only [.mmu, .fab, .free] s u := by
  unfold readPay at h
  split at h
  · obtain ⟨rfl, -⟩ := Prod.mk.inj h
    exact .refl _ s
  · dsimp only at h
    split at h
    · cases h
    · split at h
      · rename_i hv
        obtain ⟨rfl, -⟩ := Prod.mk.inj h
        exact vnat_some hv
      · cases h

/-- The context of the window is the configuration's, whatever its queue. -/
theorem winCtx_view {s t : State} (hc : t.obj.ctxs = s.obj.ctxs) (hg : t.obj.gens = s.obj.gens) (hr : t.regs = s.regs) :
    winCtx t = winCtx s := by
  unfold winCtx slotOwner active lookup genOf ownerFn
  simp only [hc, hg, hr]
  rfl

/-- A queue with its own context put in its place is read back. -/
theorem getQ_putQ_same {s : State} {q : Nat} {x y : Queue} (hx : getQ s q = some x) (hy : y.ctx = x.ctx) :
    getQ (putQ s q y) q = some y := by
  have hput : (putQ s q y).obj.queues = tset s.obj.queues q y := rfl
  have hw : winCtx (putQ s q y) = winCtx s := winCtx_view rfl rfl rfl
  rw [getQ] at hx ⊢
  split
  · rename_i h
    rw [if_pos h] at hx
    obtain rfl := Option.some.inj hx
    have hy : y.ctx = winCtx s := hy
    rw [hput, hw, tgetD, ← h, tget_tset_same, ← hy]
    rfl
  · rw [hput, tget_tset_same]

/-- The queue of work at a stage, and its record. -/
theorem WorkAt.desc {q : Fin 8193} {i : W32} {g : Stage} {s : State} {x : Queue} {d : Desc} (hx : getQ s q.val = some x)
    (hd : recOf x i = some d) (hg : d.stage = g) : WorkAt ⟨q, i, none⟩ g s := ⟨x, d, hx, hd, hg⟩

/-! ## Work begins -/

/-- What the beginning of work leaves: the queue's records may have a payload, a launch's node may. -/
structure Begun (s u : State) (q : Nat) (i : W32) (x : Queue) : Prop where
  only : Only [.obj, .mmu, .fab, .free] s u
  queue : getQ s q = some x
  after : ∃ l, getQ u q = some { x with recs := l }
  objs : ∃ qs ls, u.obj = { s.obj with queues := qs, launches := ls }

theorem beginWork_op {s u : State} {q op : Nat} {i : W32} {node : Option Nat} {x : Queue} {p : W512} {be : Bool}
    (h : beginWork s q i node op = (u, .go x p be)) : match node with
      | none => beginDesc s q i op = (u, .go x p be)
      | some k => beginNode s q i k op = (u, .go x p be) := by
  unfold beginWork at h
  split at h
  · cases h
  · split at h <;> exact h

/-- A descriptor that begins was armed; its payload is read into its record unless it was when it was armed. -/
theorem beginDesc_go {s u : State} {q op : Nat} {i : W32} {x : Queue} {p : W512} {be : Bool}
    (h : beginDesc s q i op = (u, .go x p be)) : ∃ d, getQ s q = some x ∧ recOf x i = some d ∧ d.stage = .armed ∧ d.be = be ∧
      (u = s ∧ d.pay = p ∨ ∃ v, Only [.mmu, .fab, .free] s v ∧ u = putRec v q { d with pay := p }) := by
  unfold beginDesc at h
  split at h
  · cases h
  · rename_i y hy
    split at h
    · cases h
    · rename_i d hd
      split at h
      · cases h
      · rename_i hn
        have ha : d.stage = .armed := by
          by_contra hc
          exact hn (.inl hc)
        split at h
        · split at h
          · cases h
          · cases h
            exact ⟨d, hy, hd, ha, rfl, .inl ⟨rfl, rfl⟩⟩
        · split at h
          · cases h
          · split at h
            · cases h
            · cases h
            · rename_i v w hr
              split at h
              · cases h
              · cases h
                exact ⟨d, hy, hd, ha, rfl, .inr ⟨v, readPay_ok hr, rfl⟩⟩

theorem beginDesc_begun {s u : State} {q op : Nat} {i : W32} {x : Queue} {p : W512} {be : Bool}
    (h : beginDesc s q i op = (u, .go x p be)) : Begun s u q i x ∧ u.obj.launches = s.obj.launches ∧
      ∃ y d, getQ u q = some y ∧ recOf y i = some d ∧ d.stage = .armed := by
  obtain ⟨d, hx, hd, ha, -, h⟩ := beginDesc_go h
  obtain ⟨rfl, -⟩ | ⟨v, hv, rfl⟩ := h
  · exact ⟨⟨.refl _ _, hx, ⟨x.recs, hx⟩, _, _, rfl⟩, rfl, x, d, hx, hd, ha⟩
  · have hvx : getQ v q = some x := by rw [getQ_same (hv .obj (by decide)) (hv .regs (by decide)), hx]
    have hi : ({ d with pay := p } : Desc).idx = i := (recOf_idx hd :)
    have hq : getQ (putRec v q { d with pay := p }) q = some (setRec x { d with pay := p }) := by
      rw [putRec_eq hvx]
      exact getQ_putQ_same hvx rfl
    have hr := recOf_setRec hd hi
    refine ⟨⟨(hv.mono (by simp)).trans ((putRec_only _ _ _).mono (by simp)), hx, ⟨_, hq⟩, ?_⟩, ?_, _, _, hq, hr, ha⟩
    · rw [putRec_eq hvx, ← hv .obj (by decide)]
      exact ⟨_, _, rfl⟩
    · rw [putRec_eq hvx, ← hv .obj (by decide)]
      rfl

/-- A node's words and payload put in their place. -/
theorem putNode_begun {s u : State} {q : Fin 8193} {i : W32} {k : Fin 4096} {x : Queue} {l : Launch} {n : Node} {d : Desc}
    (hx : getQ s q.val = some x) (ho : Only [.mmu, .fab, .free] s u) (hl : launchOf u q.val i = some l)
    (hn : tget l.nodes k.val = some n) (ha : d.stage = .armed) :
    Begun s (putNode u q.val i k.val d) q.val i x ∧ WorkAt ⟨q, i, some k⟩ .armed (putNode u q.val i k.val d) := by
  have hobj : u.obj = s.obj := ho .obj (by decide)
  have hux : getQ u q.val = some x := by rw [getQ_same hobj (ho .regs (by decide)), hx]
  have hp : putNode u q.val i k.val d = putLaunch u { l with nodes := tmod l.nodes k.val fun n => { n with d := d } } := by
    rw [putNode, hl]
  rw [hp]
  have hat : ({ l with nodes := tmod l.nodes k.val fun n => { n with d := d } } : Launch).q = q.val ∧
      ({ l with nodes := tmod l.nodes k.val fun n => { n with d := d } } : Launch).i = i := (launchOf_at hl :)
  refine ⟨⟨(ho.mono (by simp)).trans ((putLaunch_only _ _).mono (by simp)), hx, ⟨x.recs, ?_⟩, ?_⟩,
    _, { n with d := d }, launchOf_putLaunch hl hat, ?_, ha⟩
  · rw [← hux]
    exact getQ_congr rfl (.inr (winCtx_view rfl rfl rfl))
  · rw [← hobj]
    exact ⟨_, _, rfl⟩
  · simp [tget_tmod, hn]

theorem beginNode_begun {s u : State} {q : Fin 8193} {op : Nat} {i : W32} {k : Fin 4096} {x : Queue} {p : W512} {be : Bool}
    (h : beginNode s q.val i k.val op = (u, .go x p be)) : Begun s u q.val i x ∧ WorkAt ⟨q, i, some k⟩ .armed u := by
  unfold beginNode at h
  split at h
  · rename_i y l hy hl
    split at h
    · cases h
    · rename_i n hn
      split at h
      · cases h
      · rename_i ha
        have ha : n.d.stage = .armed := by
          by_contra hc
          exact ha (.inl hc)
        split at h
        · cases h
        · rename_i v w hv
          dsimp only at h
          split at h
          · cases h
          · split at h
            · cases h
            · split at h
              · cases h
              · split at h
                · cases h
                · cases h
                · rename_i u' p' hr
                  split at h
                  · cases h
                  · have ho := (vnat_some hv).trans (readPay_ok hr)
                    obtain ⟨rfl, hg⟩ := Prod.mk.inj h
                    obtain ⟨rfl, rfl, -⟩ := Begin.go.inj hg
                    have hobj : u'.obj = s.obj := ho .obj (by decide)
                    have hl : launchOf u' q.val i = some l := by rw [launchOf, hobj]; exact hl
                    generalize hd : ({ n.d with words := BitVec.ofNat 512 w, pay := p', be := _ } : Desc) = d
                    have ha : d.stage = .armed := by rw [← hd]; exact ha
                    exact putNode_begun hy ho hl hn ha
  · cases h

theorem beginWork_begun {s u : State} {w : Work} {op : Nat} {x : Queue} {p : W512} {be : Bool}
    (h : beginWork s w.q.val w.i (w.node.map (·.val)) op = (u, .go x p be)) : Begun s u w.q.val w.i x ∧ WorkAt w .armed u := by
  obtain ⟨q, i, node⟩ := w
  cases node with
  | none =>
    obtain ⟨hb, -, y, d, hy, hd, ha⟩ := beginDesc_begun (beginWork_op h)
    exact ⟨hb, y, d, hy, hd, ha⟩
  | some k => exact beginNode_begun (beginWork_op h)

theorem markStarted_at {s : State} {w : Work} {g : Stage} (h : WorkAt w g s) :
    WorkAt w .started (markStarted s w.q.val w.i (w.node.map (·.val))) :=
  setWork_at (fun _ => rfl) (fun _ _ => rfl) h

/-- Work that its unit takes and finishes at once. -/
theorem doneAtOnce {s : State} {w : Work} {g : Stage} (h : WorkAt w g s) (st : Nat) :
    let t := finishWork (markStarted s w.q.val w.i (w.node.map (·.val))) w.q.val w.i (w.node.map (·.val)) st
    WorkAt w (.finished st) t ∧ Only [.obj] s t :=
  ⟨finishWork_at st (markStarted_at h), (markStarted_only _ _ _ _).trans (finishWork_only _ _ _ _ _)⟩

/-- A completion in a state that keeps a queue's count and status is one since then. -/
theorem Begun.completed {s u t : State} {q st : Nat} {i : W32} {x : Queue} (h : Begun s u q i x) (hc : Completed q i st u t) :
    Completed q i st s t := by
  refine hc.of_view fun y hy => ?_
  obtain ⟨l, hl⟩ := h.after
  obtain rfl : x = y := Option.some.inj (h.queue.symm.trans hy)
  exact ⟨_, hl, rfl, rfl⟩

/-- Work that fails as it begins has ended with its status. -/
theorem endWork_ended {u : State} {w : Work} {g : Stage} {st : Nat} (h : WorkAt w g u) (hst : st ≠ 0) :
    WorkEnded w st u (endWork u w.q.val w.i (w.node.map (·.val)) st) := by
  obtain ⟨q, i, node⟩ := w
  cases node with
  | none =>
    obtain ⟨y, d, hy, hd, -⟩ := h
    exact (complete_gone hy hd (.inl hst)).completed
  | some k => exact setWork_at (w := ⟨q, i, some k⟩) (fun _ => rfl) (fun _ _ => rfl) h

theorem WorkEnded.begun {s u t : State} {w : Work} {st : Nat} {x : Queue} (h : Begun s u w.q.val w.i x) (he : WorkEnded w st u t) :
    WorkEnded w st s t := by
  obtain ⟨q, i, node⟩ := w
  cases node with
  | none => exact h.completed he
  | some k => exact he

end Sys2Proof.Machine
end

section
/-! Proofs: COPY, FILL and KERNEL start (spec/05 R153, spec/08 R231 to R237). -/

namespace Sys2Proof.Machine

/-! ## COPY and FILL -/

theorem copyLoop_only (w : Who) (n : Nat) (s : State) (src dst : List (Tr × Nat)) : Only [.fab, .free] s (copyLoop w n s src
    dst) := by
  induction n generalizing s src dst with
  | zero => exact .refl _ s
  | succ n ih =>
    rw [copyLoop]
    exact ((readPieces_only w _ s).trans ((writePieces_only w _ _ _).mono (by simp))).trans (ih _ _ _)

/-- Parts that the memory's accesses reach leave where work stands. -/
theorem WorkAt.moved {s t : State} {w : Work} {g : Stage} (h : WorkAt w g s) (ho : Only [.mmu, .fab, .free] s t) : WorkAt w g t :=
  h.congr (ho .obj (by decide)) (ho .regs (by decide))

theorem copyStarts {s u v z : State} {w : Work} {x : Queue} {p : W512} {be : Bool} {src dst : List (Tr × Nat)}
    (h : beginWork s w.q.val w.i (w.node.map (·.val)) 0x30 = (u, .go x p be))
    (hr : reach u (copyWho u w.q.val x) .read (bits p 191 128) (bits p 295 256) = (v, some src))
    (hw : reach v (copyWho u w.q.val x) .write (bits p 255 192) (bits p 295 256) = (z, some dst)) :
    Answers (.copy w) s fun t => WorkAt w (.finished 0) t ∧
      t.fab = (copyLoop (copyWho u w.q.val x) (bits p 295 256) z src dst).fab ∧ Only [.obj, .mmu, .fab, .free] s t := by
  obtain ⟨hb, ha⟩ := beginWork_begun h
  have ht : startCopy s w.q.val w.i (w.node.map (·.val)) =
      finishWork (markStarted (copyLoop (copyWho u w.q.val x) (bits p 295 256) z src dst) w.q.val w.i (w.node.map (·.val)))
        w.q.val w.i (w.node.map (·.val)) 0 := by
    unfold startCopy
    simp only [h, hr, hw]
  have hm : Only [.mmu, .fab, .free] u (copyLoop (copyWho u w.q.val x) (bits p 295 256) z src dst) :=
    (((reach_some hr).only.trans (reach_some hw).only).mono (by simp)).trans ((copyLoop_only _ _ _ _ _).mono (by simp))
  generalize copyLoop (copyWho u w.q.val x) (bits p 295 256) z src dst = c at ht hm
  obtain ⟨h1, h2⟩ := doneAtOnce (ha.moved hm) 0
  exact ⟨_, congrArg Host.Outcome.next ht, h1, h2 .fab (by decide), hb.only.trans ((hm.mono (by simp)).trans (h2.mono (by simp)))⟩

theorem fillStarts {s u v : State} {w : Work} {x : Queue} {p : W512} {be : Bool}
    (h : beginWork s w.q.val w.i (w.node.map (·.val)) 0x31 = (u, .go x p be))
    (hw : vwrite u (copyWho u w.q.val x) (bits p 191 128) (fillBytes (bits p 255 192) (bits p 295 256)) = (v, true)) :
    Answers (.fill w) s fun t => WorkAt w (.finished 0) t ∧ t.fab = v.fab ∧ Only [.obj, .mmu, .fab, .free] s t := by
  obtain ⟨hb, ha⟩ := beginWork_begun h
  have ht : startFill s w.q.val w.i (w.node.map (·.val)) =
      finishWork (markStarted v w.q.val w.i (w.node.map (·.val))) w.q.val w.i (w.node.map (·.val)) 0 := by
    unfold startFill
    simp only [h, hw]
  have hm := vwrite_true hw
  obtain ⟨h1, h2⟩ := doneAtOnce (ha.moved hm) 0
  exact ⟨_, congrArg Host.Outcome.next ht, h1, h2 .fab (by decide), hb.only.trans ((hm.mono (by simp)).trans (h2.mono (by simp)))⟩

/-! ## A KERNEL payload is launched -/

theorem addRun_leaves (s : State) (r : Run) : tget (addRun s r).cores.runs s.cores.nextId = some r ∧
    (addRun s r).cores.nextId = s.cores.nextId + 1 ∧ Only [.cores] s (addRun s r) :=
  ⟨tget_tset_same _ _ _, rfl, cores_only rfl⟩

/-- Work taken by its unit with a run of its blocks. -/
theorem runStands {s : State} {w : Work} {g : Stage} (h : WorkAt w g s) (r : Run) :
    let t := addRun (markStarted s w.q.val w.i (w.node.map (·.val))) r
    tget t.cores.runs s.cores.nextId = some r ∧ WorkAt w .started t ∧ t.cores.nextId = s.cores.nextId + 1 ∧
      Only [.obj, .cores] s t := by
  have h1 := markStarted_at h
  have h2 := markStarted_only s w.q.val w.i (w.node.map (·.val))
  dsimp only
  generalize markStarted s w.q.val w.i (w.node.map (·.val)) = u at h1 h2
  obtain ⟨h3, h4, h5⟩ := addRun_leaves u r
  have hc : u.cores = s.cores := h2 .cores (by decide)
  exact ⟨by rw [← hc]; exact h3, h1.congr (h5 .obj (by decide)) (h5 .regs (by decide)), by rw [h4, hc],
    (h2.mono (by simp)).trans (h5.mono (by simp))⟩

section Launch

variable {u : State} {q n : Nat} {i : W32} {node : Option Nat} {x : Queue} {w : W512} {rt : Bool} {fail : State → State}
  (hn : queueSlot u q x = some n) (he : eligibleCores u n rt ≠ [])

include hn he

theorem launchKernel_blocks (hm : bit w 255 = false) : launchKernel u q i node x w rt fail =
    addRun (markStarted u q i node) (runOf u q i node n x.ctx rt (eligibleCores u n rt) w []) := by
  unfold launchKernel
  rw [hn]
  dsimp only
  rw [if_neg (by simpa using he), if_pos (by simp [hm])]

variable (hm : bit w 255 = true) {v : State} {b : List Byte}
  (hv : vread u (feWho u q x) (bits w 191 128) (64 * (eligibleCores u n rt).length) = (v, some b))

include hm hv

theorem launchKernel_grid : launchKernel u q i node x w rt fail =
    if gridBad (gridRecs b (eligibleCores u n rt).length) then fail v
    else if (((eligibleCores u n rt).zip (gridRecs b (eligibleCores u n rt).length)).filter fun e => bits e.2 63 0 != 0).isEmpty
        then
      finishWork (markStarted v q i node) q i node 0
    else addRun (markStarted v q i node) (runOf (markStarted v q i node) q i node n x.ctx rt (eligibleCores u n rt) w
      (((eligibleCores u n rt).zip (gridRecs b (eligibleCores u n rt).length)).filter fun e => bits e.2 63 0 != 0)) := by
  unfold launchKernel
  rw [hn]
  dsimp only
  rw [if_neg (by simpa using he), if_neg (by simp [hm]), hv]

end Launch

/-- The cores of a grid are the records that have code. -/
theorem length_grid {cores : List Nat} {recs : List W512} (h : recs.length = cores.length) (f : W512 → Bool) :
    ((cores.zip recs).filter fun e => f e.2).length = (recs.filter f).length := by
  have hz : recs = (cores.zip recs).map (·.2) := by rw [← List.unzip_snd, List.unzip_zip_right (by omega)]
  conv_rhs => rw [hz]
  rw [List.filter_map, List.length_map]
  rfl

theorem length_gridRecs (b : List Byte) (n : Nat) : (gridRecs b n).length = n := by simp [gridRecs]

section Kernel

variable {s u : State} {w : Work} {x : Queue} {p : W512} {be : Bool} {n : Nat}
  (h : beginWork s w.q.val w.i (w.node.map (·.val)) 0x10 = (u, .go x p be)) (hn : queueSlot u w.q.val x = some n)
  (he : eligibleCores u n (x.rt && !be) ≠ [])

theorem startKernel_launches (h : beginWork s w.q.val w.i (w.node.map (·.val)) 0x10 = (u, .go x p be)) :
    startKernel s w.q.val w.i (w.node.map (·.val)) =
      launchKernel u w.q.val w.i (w.node.map (·.val)) x p (x.rt && !be) fun s => endWork s w.q.val w.i (w.node.map (·.val)) 0x11 :=
          by
  unfold startKernel
  simp only [h]

include h hn he

theorem kernelBlocks (hm : bit p 255 = false) : Answers (.kernel w) s fun t => ∃ r, tget t.cores.runs s.cores.nextId = some r ∧
    WorkAt w .started t ∧ t.cores.nextId = s.cores.nextId + 1 ∧
    r.q = w.q.val ∧ r.i = w.i ∧ r.slot = n ∧ r.ctx = x.ctx ∧ r.next = 0 ∧
    r.total = clamp 1 65535 (bits p 207 192) * clamp 1 65535 (bits p 223 208) * clamp 1 65535 (bits p 239 224) ∧
    r.entry = BitVec.ofNat 64 (bits p 191 128) ∧ r.regs = clamp 8 255 (bits p 279 272) ∧
    Only [.obj, .mmu, .fab, .free, .cores] s t := by
  obtain ⟨hb, ha⟩ := beginWork_begun h
  have ht := (startKernel_launches h).trans (launchKernel_blocks hn he hm)
  have hc : u.cores = s.cores := hb.only .cores (by decide)
  obtain ⟨h1, h2, h3, h4⟩ := runStands ha (runOf u w.q.val w.i (w.node.map (·.val)) n x.ctx (x.rt && !be)
    (eligibleCores u n (x.rt && !be)) p [])
  refine ⟨_, congrArg Host.Outcome.next ht, _, by rw [← hc]; exact h1, h2, by rw [h3, hc], rfl, rfl, rfl, rfl, rfl, ?_, rfl, rfl,
    (hb.only.mono (by simp)).trans (h4.mono (by simp))⟩
  unfold runOf
  simp only [hm]
  rfl

variable (hm : bit p 255 = true) {v : State} {b : List Byte}
  (hv : vread u (feWho u w.q.val x) (bits p 191 128) (64 * (eligibleCores u n (x.rt && !be)).length) = (v, some b))

include hm hv

theorem kernelGrid_bad (hg : gridBad (gridRecs b (eligibleCores u n (x.rt && !be)).length) = true) :
    Answers (.kernel w) s (WorkEnded w 0x11 s) := by
  obtain ⟨hb, ha⟩ := beginWork_begun h
  have ht := (startKernel_launches h).trans (launchKernel_grid hn he hm hv)
  rw [if_pos hg] at ht
  have hmv := vread_some hv
  have hbv : Begun s v w.q.val w.i x := by
    obtain ⟨l, hl⟩ := hb.after
    have ho : v.obj = u.obj := hmv .obj (by decide)
    exact ⟨hb.only.trans (hmv.mono (by simp)), hb.queue, ⟨l, by rw [getQ_same ho (hmv .regs (by decide)), hl]⟩, by
      rw [ho]; exact hb.objs⟩
  exact ⟨_, congrArg Host.Outcome.next ht, (endWork_ended (ha.moved hmv) (by decide)).begun hbv⟩

theorem kernelGrid_empty (hg : gridBad (gridRecs b (eligibleCores u n (x.rt && !be)).length) = false)
    (hz : ((gridRecs b (eligibleCores u n (x.rt && !be)).length).any fun e => bits e 63 0 != 0) = false) :
    Answers (.kernel w) s (WorkAt w (.finished 0)) := by
  obtain ⟨-, ha⟩ := beginWork_begun h
  have ht := (startKernel_launches h).trans (launchKernel_grid hn he hm hv)
  have hl := length_grid (length_gridRecs b (eligibleCores u n (x.rt && !be)).length) fun e => bits e 63 0 != 0
  rw [if_neg (by simp [hg]), if_pos] at ht
  · exact ⟨_, congrArg Host.Outcome.next ht, (doneAtOnce (ha.moved (vread_some hv)) 0).1⟩
  · rw [List.isEmpty_iff, ← List.length_eq_zero_iff, hl, List.length_eq_zero_iff, List.filter_eq_nil_iff]
    simpa using hz

theorem kernelGrid_runs (hg : gridBad (gridRecs b (eligibleCores u n (x.rt && !be)).length) = false)
    (hz : ((gridRecs b (eligibleCores u n (x.rt && !be)).length).any fun e => bits e 63 0 != 0) = true) :
    Answers (.kernel w) s fun t => ∃ r, tget t.cores.runs s.cores.nextId = some r ∧ WorkAt w .started t ∧
      r.mode1 = true ∧ r.total = ((gridRecs b (eligibleCores u n (x.rt && !be)).length).filter fun e => bits e 63 0 != 0).length ∧
      r.next = 0 := by
  obtain ⟨hb, ha⟩ := beginWork_begun h
  have ht := (startKernel_launches h).trans (launchKernel_grid hn he hm hv)
  have hl := length_grid (length_gridRecs b (eligibleCores u n (x.rt && !be)).length) fun e => bits e 63 0 != 0
  have hmv := vread_some hv
  have hc : v.cores = s.cores := (hmv .cores (by decide)).trans (hb.only .cores (by decide))
  rw [if_neg (by simp [hg]), if_neg] at ht
  · obtain ⟨h1, h2, -, -⟩ := runStands (ha.moved hmv) (runOf (markStarted v w.q.val w.i (w.node.map (·.val))) w.q.val w.i
      (w.node.map (·.val)) n x.ctx (x.rt && !be) (eligibleCores u n (x.rt && !be)) p
      (((eligibleCores u n (x.rt && !be)).zip (gridRecs b (eligibleCores u n (x.rt && !be)).length)).filter
        fun e => bits e.2 63 0 != 0))
    refine ⟨_, congrArg Host.Outcome.next ht, _, by rw [← hc]; exact h1, h2, hm, ?_, rfl⟩
    rw [← hl]
    unfold runOf
    simp only [hm]
    rfl
  · rw [List.isEmpty_iff, ← List.length_eq_zero_iff, hl, List.length_eq_zero_iff, List.filter_eq_nil_iff]
    intro hall
    obtain ⟨e, he, hne⟩ := List.any_eq_true.1 hz
    exact hall e he hne

end Kernel

end Sys2Proof.Machine
end

section
/-! Proofs: saved continuations and graph launches start (spec/03 R100, R101, spec/08 R232). -/

namespace Sys2Proof.Machine

/-! ## Reads that stall -/

theorem markLost_stays {s : State} {c reason : Nat} (h : ctxActive (markLost s c reason) c = true) : markLost s c reason = s := by
  cases hx : ctxOf s c with
  | none => rw [markLost, hx]
  | some x =>
    by_cases ha : x.st = .active
    · obtain ⟨-, hc, -⟩ := markLost_active hx ha reason
      rw [ctxActive, hc] at h
      cases h
    · rw [markLost, hx]
      exact if_pos ha

/-- A fault that leaves the context active is a request of its unit, to be answered. -/
theorem raiseFault_stays {s : State} {w : Who} {k : AccessKind} {va : Nat} (h : ctxActive (raiseFault s w k va) w.asid = true) :
    Only [.mmu, .fab, .free] s (raiseFault s w k va) := by
  have hm (m : Mmu) : Only [.mmu, .fab, .free] s { s with mmu := m } := fun p hp => by
    cases p <;> first | (simp at hp; done) | rfl
  unfold raiseFault at h ⊢
  dsimp only at h ⊢
  cases hw : w.slot with
  | none =>
    simp only [hw] at h ⊢
    rw [markLost_stays h]
    exact hm _
  | some n =>
    dsimp only
    split <;> exact hm _

/-- An access that stalls and leaves its context active has reached the translations alone. -/
theorem pieces_stall {w : Who} {k : AccessKind} {fuel : Nat} {s t : State} {va n : Nat} (h : pieces w k fuel s va n = (t, none))
    (ha : ctxActive t w.asid = true) : Only [.mmu, .fab, .free] s t := by
  induction fuel generalizing s va n with
  | zero => cases h
  | succ fuel ih =>
    unfold pieces at h
    dsimp only at h
    split at h
    · cases h
    · split at h
      · obtain ⟨rfl, -⟩ := Prod.mk.inj h
        exact .refl _ s
      · have c := (translate_cached s w k va).only.mono (qs := [.mmu, .fab, .free]) (by simp)
        split at h
        · rename_i hx
          rw [hx] at c
          obtain ⟨rfl, -⟩ := Prod.mk.inj h
          exact c.trans (raiseFault_stays ha)
        · rename_i hx
          rw [hx] at c
          obtain ⟨rfl, -⟩ := Prod.mk.inj h
          rw [markLost_stays ha]
          exact c
        · rename_i hx
          rw [hx] at c
          obtain ⟨rfl, -⟩ := Prod.mk.inj h
          exact c
        · rename_i hx
          rw [hx] at c
          split at h
          · obtain ⟨rfl, -⟩ := Prod.mk.inj h
            exact c
          · split at h
            · obtain ⟨rfl, -⟩ := Prod.mk.inj h
              rw [markLost_stays ha]
              exact c
            · split at h
              · cases h
              · rename_i hy
                obtain ⟨rfl, -⟩ := Prod.mk.inj h
                exact c.trans (ih hy)

theorem vnat_stall {s t : State} {w : Who} {a n : Nat} (h : vnat s w a n = (t, none)) (ha : ctxActive t w.asid = true) :
    Only [.mmu, .fab, .free] s t := by
  unfold vnat at h
  split at h
  · cases h
  · rename_i hv
    obtain ⟨rfl, -⟩ := Prod.mk.inj h
    unfold vread at hv
    split at hv
    · cases hv
    · rename_i hr
      obtain ⟨rfl, -⟩ := Prod.mk.inj hv
      unfold reach at hr
      split at hr
      · exact pieces_stall hr ha
      · obtain ⟨rfl, -⟩ := Prod.mk.inj hr
        exact .refl _ _

theorem readNpreds_stall {who : Who} {table n k : Nat} {s t : State} (h : readNpreds s who table n k = (t, none))
    (ha : ctxActive t who.asid = true) : Only [.mmu, .fab, .free] s t := by
  induction n generalizing s k with
  | zero => cases h
  | succ n ih =>
    rw [readNpreds] at h
    split at h
    · rename_i hv
      obtain ⟨rfl, -⟩ := Prod.mk.inj h
      exact vnat_stall hv ha
    · rename_i hv
      split at h
      · cases h
      · rename_i hr
        obtain ⟨rfl, -⟩ := Prod.mk.inj h
        exact (vnat_some hv).trans (ih hr)

theorem readNpreds_some {who : Who} {table n k : Nat} {s t : State} {l : List Nat} (h : readNpreds s who table n k = (t, some l)) :
    Only [.mmu, .fab, .free] s t ∧ l.length = n := by
  induction n generalizing s k l with
  | zero =>
    obtain ⟨rfl, hl⟩ := Prod.mk.inj h
    obtain rfl := Option.some.inj hl
    exact ⟨.refl _ s, rfl⟩
  | succ n ih =>
    rw [readNpreds] at h
    split at h
    · cases h
    · rename_i hv
      split at h
      · rename_i hr
        obtain ⟨rfl, hl⟩ := Prod.mk.inj h
        obtain rfl := Option.some.inj hl
        obtain ⟨h1, h2⟩ := ih hr
        exact ⟨(vnat_some hv).trans h1, by rw [List.length_cons, h2]⟩
      · cases h

/-! ## Saved continuations (R232) -/

/-- A saved continuation's launch has the fields of its record. -/
theorem bits_contWord (w : W512) {hi lo : Nat} (h1 : 16 ≤ lo) (h2 : hi ≤ 383) : bits (contWord w) hi lo = bits w hi lo := by
  refine Nat.eq_of_testBit_eq fun j => ?_
  unfold bits contWord
  rw [Nat.testBit_mod_two_pow, Nat.testBit_mod_two_pow, Nat.testBit_shiftRight, Nat.testBit_shiftRight]
  by_cases hj : j < hi + 1 - lo
  · simp only [hj, decide_true, Bool.true_and]
    rw [BitVec.testBit_toNat, BitVec.getLsbD_ofNat, testBit_nput _ _ _ (by omega), if_neg (by omega), Nat.mul_comm,
      Nat.testBit_two_pow_mul, bits, Nat.testBit_mod_two_pow, Nat.testBit_shiftRight,
      show 16 + (lo + j - 16) = lo + j by omega]
    simp [show lo + j < 512 by omega, show 16 ≤ lo + j by omega, show lo + j - 16 < 368 by omega]
  · simp [hj]

section Cont

variable {s : State} {q : Fin 8193} {x : Queue} {d : Desc} {n : Nat} (hq : getQ s q.val = some x) (hd : suspendedRec x = some d)
  (hm : mayContinue s q.val x = true) (hn : queueSlot s q.val x = some n) (he : eligibleCores s n (x.rt && !x.demoted) ≠ [])
  (hrt : x.rt = true → (costOf (contWord d.pay)).any (·.rt) = true) (hp : payloadBad s x (contWord d.pay) = false)

include hq hd hm hn he hrt hp

theorem launchCont_charged {u : State} {z : Queue} {e : Desc} (hu : launchKernel s q.val d.idx none x (contWord d.pay)
      (x.rt && !(charge x d.idx (contWord d.pay)).2.1) (fun s => complete s q.val d.idx 0x11) = u)
    (hz : getQ u q.val = some z) (hze : recOf z d.idx = some e) (hs : e.stage ≠ .suspended) : launchCont s q.val =
      let c := charge x d.idx (contWord d.pay)
      putQ u q.val (setRec { z with
          qcUsed := c.1.qcUsed, hbUsed := c.1.hbUsed, demoted := c.1.demoted, beTaken := c.1.beTaken }
        { e with be := c.2.1, chQc := e.chQc + c.2.2.1, chHb := e.chHb + c.2.2.2 }) := by
  unfold launchCont
  rw [hq]
  simp only [hd]
  rw [if_neg (by simp [hm, hn, he])]
  split
  · rename_i r hc
    have hbad : (x.rt && !r.rt) = false := by
      cases hx : x.rt with
      | false => rfl
      | true => simpa [hc] using hrt hx
    rw [hbad, hp, if_neg (by simp)]
    simp only [hu, hz, hze]
    exact if_neg hs
  · rename_i hc
    have hbad : x.rt = false := by
      cases hx : x.rt with
      | false => rfl
      | true => simpa [hc] using hrt hx
    rw [hp, if_neg (by simp [hbad])]
    simp only [hu, hz, hze]
    exact if_neg hs

theorem contLaunches (hb : bit (contWord d.pay) 255 = false)
    (he' : eligibleCores s n (x.rt && !(charge x d.idx (contWord d.pay)).2.1) ≠ []) :
    Answers (.continuationLaunch q) s fun t => ∃ r, tget t.cores.runs s.cores.nextId = some r ∧
      WorkAt ⟨q, d.idx, none⟩ .started t ∧ r.q = q.val ∧ r.i = d.idx ∧ r.node = none ∧ r.slot = n ∧ r.next = 0 ∧
      r.entry = BitVec.ofNat 64 (bits d.pay 191 128) ∧ Only [.obj, .cores] s t := by
  have hu := launchKernel_blocks (q := q.val) (i := d.idx) (node := none) (fail := fun s => complete s q.val d.idx 0x11) hn he' hb
  have hrec : (recOf x d.idx).isSome = true := List.find?_isSome.2 ⟨d, List.mem_of_find?_eq_some hd, by simp⟩
  obtain ⟨d0, hd0⟩ := Option.isSome_iff_exists.1 hrec
  have hw : WorkAt ⟨q, d.idx, none⟩ d0.stage s := ⟨x, d0, hq, hd0, rfl⟩
  have hentry : (runOf s q.val d.idx none n x.ctx (x.rt && !(charge x d.idx (contWord d.pay)).2.1)
      (eligibleCores s n (x.rt && !(charge x d.idx (contWord d.pay)).2.1)) (contWord d.pay) []).entry =
      BitVec.ofNat 64 (bits d.pay 191 128) := by
    rw [← bits_contWord d.pay (by omega) (by omega)]
    rfl
  have hr : ∃ r, runOf s q.val d.idx none n x.ctx (x.rt && !(charge x d.idx (contWord d.pay)).2.1)
      (eligibleCores s n (x.rt && !(charge x d.idx (contWord d.pay)).2.1)) (contWord d.pay) [] = r ∧ r.q = q.val ∧ r.i = d.idx ∧
      r.node = none ∧ r.slot = n ∧ r.next = 0 ∧ r.entry = BitVec.ofNat 64 (bits d.pay 191 128) :=
    ⟨_, rfl, rfl, rfl, rfl, rfl, rfl, hentry⟩
  obtain ⟨r, hr, hrq, hri, hrn, hrs, hrx, hre⟩ := hr
  rw [hr] at hu
  obtain ⟨h1, h2, -, h4⟩ := runStands hw r
  have h2' := h2
  obtain ⟨z, e, hz, hze, hst⟩ := h2'
  simp only [Option.map_none] at h1 h2 h4 hz
  have ht := launchCont_charged hq hd hm hn he hrt hp hu hz hze (by rw [hst]; simp)
  generalize addRun (markStarted s q.val d.idx none) r = u at ht h1 h2 h4 hz
  generalize charge x d.idx (contWord d.pay) = c at ht
  obtain ⟨k, hk⟩ := getQ_putQ u q.val (setRec { z with
      qcUsed := c.1.qcUsed, hbUsed := c.1.hbUsed, demoted := c.1.demoted, beTaken := c.1.beTaken }
    { e with be := c.2.1, chQc := e.chQc + c.2.2.1, chHb := e.chHb + c.2.2.2 })
  have hei : ({ e with be := c.2.1, chQc := e.chQc + c.2.2.1, chHb := e.chHb + c.2.2.2 } : Desc).idx = d.idx := (recOf_idx hze :)
  have hzr : recOf { z with qcUsed := c.1.qcUsed, hbUsed := c.1.hbUsed, demoted := c.1.demoted, beTaken := c.1.beTaken } d.idx =
    some e := hze
  have hput := putQ_only u q.val (setRec { z with
      qcUsed := c.1.qcUsed, hbUsed := c.1.hbUsed, demoted := c.1.demoted, beTaken := c.1.beTaken }
    { e with be := c.2.1, chQc := e.chQc + c.2.2.1, chHb := e.chHb + c.2.2.2 })
  refine ⟨_, congrArg Host.Outcome.next ht, r, ?_, ⟨_, _, hk, recOf_setRec hzr hei, hst⟩, hrq, hri, hrn, hrs, hrx, hre,
    h4.trans (hput.mono (by simp))⟩
  rw [hput .cores (by decide)]
  exact h1

end Cont

end Sys2Proof.Machine
end

section
/-! Proofs: GRAPH_LAUNCH (spec/03 R100, R101). -/

namespace Sys2Proof.Machine

/-! ## The nodes of a launch that has read its table -/

theorem tget_zipIdx {α β : Type} (f : α → β) (l : List α) (m k : Nat) :
    tget ((l.zipIdx m).map fun e => (e.2, f e.1)) k = if m ≤ k then (l[k - m]?).map f else none := by
  induction l generalizing m with
  | nil => simp
  | cons a l ih =>
    rw [List.zipIdx_cons, List.map_cons, tget]
    by_cases h : m = k
    · subst h
      simp
    · rw [if_neg h, ih]
      by_cases hk : m ≤ k
      · rw [if_pos hk, if_pos (by omega), show k - m = (k - (m + 1)) + 1 by omega, List.getElem?_cons_succ]
      · rw [if_neg hk, if_neg (by omega)]

/-- The nodes that a launch makes of the counts it reads. -/
def newNodes (i : W32) (np : List Nat) : Tbl Node := np.zipIdx.map fun e => (e.2, newNode i e.1)

theorem newNodes_length (i : W32) (np : List Nat) : (newNodes i np).length = np.length := by simp [newNodes]

theorem newNodes_at {i : W32} {np : List Nat} {k : Nat} {n : Node} (h : tget (newNodes i np) k = some n) :
    (n.npred = 0 → n.d.stage = .armed) ∧ n.arrivals = 0 ∧ np[k]? = some n.npred := by
  rw [newNodes, tget_zipIdx, if_pos (Nat.zero_le k), Nat.sub_zero] at h
  obtain ⟨v, hv, rfl⟩ := Option.map_eq_some_iff.1 h
  exact ⟨fun h => if_pos h, rfl, hv⟩

theorem newNode_ready (i : W32) (n : Nat) : nodeReady (newNode i n) = decide (n = 0) := by
  unfold nodeReady newNode
  by_cases h : n = 0 <;> simp [h]

theorem newNode_idle (i : W32) (n : Nat) : nodeRuns (newNode i n) = false ∧ nodeDone (newNode i n) = false := by
  unfold nodeRuns nodeDone isEnded newNode
  by_cases h : n = 0 <;> simp [h]

/-- A launch that has just read its table goes on while it has a root. -/
theorem launchVerdict_new {i : W32} {np : List Nat} {l : Launch} (hn : l.nodes = newNodes i np) (hr : l.read = true)
    (hf : l.fail = none) (hc : l.cut = false) :
    launchVerdict l = if np.contains 0 then none else some (if np = [] then 0 else 0x13) := by
  have hany : (l.nodes.any fun e => nodeRuns e.2 || (nodeReady e.2 && !l.cut)) = np.contains 0 := by
    rw [hn, newNodes, List.any_map, ← List.any_beq', Bool.eq_iff_iff, List.any_eq_true, List.any_eq_true]
    constructor
    · rintro ⟨e, he, h⟩
      refine ⟨e.1, List.fst_mem_of_mem_zipIdx he, ?_⟩
      simpa [Function.comp, (newNode_idle i e.1).1, newNode_ready, hc] using h
    · rintro ⟨v, hv, h⟩
      obtain ⟨k, hk⟩ := List.mem_iff_getElem?.1 hv
      refine ⟨(v, k), List.mem_zipIdx_iff_getElem?.2 hk, ?_⟩
      simpa [Function.comp, (newNode_idle i v).1, newNode_ready, hc] using h
  unfold launchVerdict
  rw [hany, hf, hr, hc]
  by_cases h0 : np.contains 0 = true
  · rw [if_pos h0, if_pos h0]
  · rw [if_neg h0, if_neg h0]
    simp only [Bool.not_true, Bool.false_eq_true, if_false]
    cases np with
    | nil => simp [hn, newNodes]
    | cons a np => simp [hn, newNodes, (newNode_idle i a).2]

theorem finishWork_graphs (s : State) (q : Nat) (i : W32) (st : Nat) : (finishWork s q i none st).obj.graphs = s.obj.graphs := by
  unfold finishWork setWork
  dsimp only
  split <;> rfl

/-- The verdict on a launch whose descriptor is started. -/
theorem settleLaunch_new {s : State} {q : Fin 8193} {i j : W32} {l : Launch} {np : List Nat} (hl : launchOf s q.val i = some l)
    (hn : l.nodes = newNodes j np) (hr : l.read = true) (hf : l.fail = none) (hc : l.cut = false)
    (hw : WorkAt ⟨q, i, none⟩ .started s) :
    let t := settleLaunch s q.val i
    (np.contains 0 = true → WorkAt ⟨q, i, none⟩ .started t) ∧
    (np.contains 0 = false → WorkAt ⟨q, i, none⟩ (.finished (if np = [] then 0 else 0x13)) t) ∧ t.obj.graphs = s.obj.graphs := by
  have hv := launchVerdict_new hn hr hf hc
  unfold settleLaunch
  rw [hl]
  dsimp only
  rw [hv]
  by_cases h0 : np.contains 0 = true
  · rw [if_pos h0]
    exact ⟨fun _ => hw, fun h => absurd h0 (by rw [h]; simp), rfl⟩
  · rw [if_neg h0]
    exact ⟨fun h => absurd h h0, fun _ => finishWork_at _ hw, finishWork_graphs _ _ _ _⟩

/-! ## A launch is added (R100) -/

/-- The launch of a graph's slot, with its table not yet read. -/
def newLaunch (s : State) (q : Nat) (i : W32) (g : Nat) (slot : GSlot) (b : Bool) : Launch :=
  { q := q, i := i, graph := g, gen := genOf s.obj 5 g, read := false, slotB := b, table := slot.table,
    count := slot.count, nodes := [], fail := none, failAt := 0, failNode := 0, cut := false }

/-- A graph of which a slot has one more launch in flight. -/
def launched (y : Graph) (b : Bool) : Graph :=
  if b then { y with b := { y.b with inflight := y.b.inflight + 1 } } else { y with a := { y.a with inflight := y.a.inflight + 1 } }

theorem addLaunch_obj (s : State) (q : Nat) (i : W32) (g : Nat) (y : Graph) (b : Bool) : (addLaunch s q i g y b).obj =
    { s.obj with
      graphs := tset s.obj.graphs g (launched y b)
      launches := s.obj.launches ++ [newLaunch s q i g (if b then y.b else y.a) b] } := by
  cases b <;> rfl

theorem launched_slot (y : Graph) (b : Bool) : (if b then (launched y b).b else (launched y b).a).inflight =
    (if b then y.b else y.a).inflight + 1 := by
  cases b <;> rfl

theorem addLaunch_only (s : State) (q : Nat) (i : W32) (g : Nat) (y : Graph) (b : Bool) : Only [.obj] s (addLaunch s q i g y b) :=
  setObj_only _ _

/-- The machine when a launch is about to read its table. -/
structure Launching (u m : State) (q : Fin 8193) (i : W32) (x : Queue) (g : Nat) (y : Graph) (b : Bool) : Prop where
  queue : ∃ r, getQ m q.val = some { x with recs := r }
  launch : launchOf m q.val i = some (newLaunch u q.val i g (if b then y.b else y.a) b)
  graph : tget m.obj.graphs g = some (launched y b)
  work : WorkAt ⟨q, i, none⟩ .started m
  only : Only [.obj] u m

theorem launching {u : State} {q : Fin 8193} {i : W32} {x : Queue} {l : List Desc} {d : Desc} {g : Nat} {y : Graph} {b : Bool}
    (hl : launchOf u q.val i = none) (hx : getQ u q.val = some { x with recs := l }) (hd : recOf { x with recs := l } i = some d) :
    Launching u (markStarted (addLaunch u q.val i g y b) q.val i none) q i x g y b := by
  have ho := addLaunch_obj u q.val i g y b
  have h1 := addLaunch_only u q.val i g y b
  generalize addLaunch u q.val i g y b = v at ho h1
  have hv : getQ v q.val = some { x with recs := l } := by
    rw [← hx]
    exact getQ_congr (by rw [ho]) (.inr (winCtx_view (by rw [ho]) (by rw [ho]) (h1 .regs (by decide))))
  have hm : markStarted v q.val i none = putQ v q.val
      { x with recs := l.map fun d => if d.idx = i then { d with stage := .started } else d } := by
    unfold markStarted setWork
    dsimp only
    rw [hv]
  have hw : WorkAt ⟨q, i, none⟩ .started (markStarted v q.val i none) :=
    markStarted_at (w := ⟨q, i, none⟩) (g := d.stage) ⟨_, d, hv, hd, rfl⟩
  refine ⟨⟨_, by rw [hm]; exact getQ_putQ_same hv rfl⟩, ?_, ?_, hw, h1.trans (markStarted_only _ _ _ _)⟩
  · rw [hm, launchOf, show (putQ v q.val _).obj.launches = v.obj.launches from rfl, ho, List.find?_append]
    unfold launchOf at hl
    rw [hl]
    simp [newLaunch]
  · rw [hm, show (putQ v q.val _).obj.graphs = v.obj.graphs from rfl, ho]
    exact tget_tset_same _ _ _

section Graph

variable {s u : State} {q : Fin 8193} {i : W32} {x : Queue} {p : W512} {be : Bool} {g : Nat} {y : Graph}
  (h : beginWork s q.val i none 0x11 = (u, .go x p be)) (hg : graphFor u x.ctx (bits p 159 128) = some g)
  (hy : tget u.obj.graphs g = some y) (hl : (launchOf s q.val i).isNone = true)

include h hg hy hl

theorem graphIdle (hc : y.cur = none) : Answers (.graphLaunch q i) s (Completed q.val i 0x13 s) := by
  obtain ⟨hb, -, z, d, hz, hd, -⟩ := beginDesc_begun (beginWork_op h)
  have ht : startGraph s q.val i = complete u q.val i 0x13 := by
    unfold startGraph
    rw [if_neg (by simpa using hl)]
    simp only [h, hg, hy, hc]
  exact ⟨_, congrArg Host.Outcome.next ht, hb.completed (complete_gone hz hd (.inl (by decide))).completed⟩

theorem startGraph_reads {b : Bool} (hc : y.cur = some b) (hf : (if b then y.b else y.a).inflight < 255) :
    let mid := markStarted (addLaunch u q.val i g y b) q.val i none
    startGraph s q.val i = readGraph mid q.val i ∧ Launching u mid q i x g y b ∧ Only [.obj, .mmu, .fab, .free] s u := by
  obtain ⟨hb, hls, z, d, hz, hd, -⟩ := beginDesc_begun (beginWork_op h)
  refine ⟨?_, ?_, hb.only⟩
  · unfold startGraph
    rw [if_neg (by simpa using hl)]
    simp only [h, hg, hy, hc]
    exact if_neg (by omega)
  · obtain ⟨l, hx⟩ := hb.after
    obtain rfl : z = _ := Option.some.inj (hz.symm.trans hx)
    refine launching ?_ hx hd
    rw [launchOf, hls]
    simpa [launchOf] using hl

end Graph

theorem readGraph_eq {m : State} {q : Nat} {i : W32} {x : Queue} {l : Launch} (hx : getQ m q = some x)
    (hl : launchOf m q i = some l) (hr : l.read = false) {v : State} {r : Option (List Nat)}
    (hv : readNpreds m (feWho m q x) l.table.toNat l.count 0 = (v, r)) : readGraph m q i =
      (r.map fun np => settleLaunch (putLaunch v { l with read := true, nodes := newNodes i np }) q i).getD v := by
  unfold readGraph
  rw [hx, hl]
  simp only [hr, hv]
  cases r <;> rfl

/-- What a launch leaves when it has read its table, or when the read stalls and its context stays (log 24). -/
theorem launching_reads {u m : State} {q : Fin 8193} {i : W32} {x : Queue} {g : Nat} {y : Graph} {b : Bool}
    (h : Launching u m q i x g y b) {v : State} {r : Option (List Nat)}
    (hv : readNpreds m (feWho m q.val x) (if b then y.b else y.a).table.toNat (if b then y.b else y.a).count 0 = (v, r))
    (ha : r = none → ctxActive v x.ctx = true) :
    let slot := if b then y.b else y.a
    let t := readGraph m q.val i
    ∃ l z, launchOf t q.val i = some l ∧ l.graph = g ∧ l.slotB = b ∧ l.table = slot.table ∧
      l.count = slot.count ∧ tget t.obj.graphs g = some z ∧ (if b then z.b else z.a).inflight = slot.inflight + 1 ∧
      (r = none → l.read = false ∧ WorkAt ⟨q, i, none⟩ .started t) ∧
      (∀ np, r = some np → l.read = true ∧ l.nodes.length = slot.count ∧
        (∀ k n, tget l.nodes k = some n → (n.npred = 0 → n.d.stage = .armed) ∧ n.arrivals = 0 ∧ np[k]? = some n.npred) ∧
        (np.contains 0 = true → WorkAt ⟨q, i, none⟩ .started t) ∧
        (np.contains 0 = false → WorkAt ⟨q, i, none⟩ (.finished (if np = [] then 0 else 0x13)) t)) ∧
      (r ≠ none → Only [.obj, .mmu, .fab, .free] u t) := by
  obtain ⟨⟨recs, hx⟩, hl, hgr, hw, ho⟩ := h
  dsimp only
  have hread := readGraph_eq (v := v) (r := r) hx hl rfl hv
  have hfl := launched_slot y b
  cases r with
  | none =>
    have hm := readNpreds_stall hv (ha rfl)
    have hobj : v.obj = m.obj := hm .obj (by decide)
    rw [Option.map_none, Option.getD_none] at hread
    rw [hread]
    exact ⟨_, launched y b, by rw [launchOf, hobj]; exact hl, rfl, rfl, rfl, rfl, by rw [hobj]; exact hgr, hfl,
      fun _ => ⟨rfl, hw.moved hm⟩, fun _ hn => (nomatch hn), fun hn => absurd rfl hn⟩
  | some np =>
    obtain ⟨hm, hlen⟩ := readNpreds_some hv
    have hobj : v.obj = m.obj := hm .obj (by decide)
    rw [Option.map_some, Option.getD_some] at hread
    rw [hread]
    have hlv : launchOf v q.val i = some (newLaunch u q.val i g (if b then y.b else y.a) b) := by rw [launchOf, hobj]; exact hl
    generalize hl' : ({ newLaunch u q.val i g (if b then y.b else y.a) b with
      read := true, nodes := newNodes i np } : Launch) = l
    have hat : l.q = q.val ∧ l.i = i := by rw [← hl']; exact ⟨rfl, rfl⟩
    have hp := putLaunch_only v l
    have hlp := launchOf_putLaunch hlv hat
    have hgp : tget (putLaunch v l).obj.graphs g = some (launched y b) := by rw [← hgr, ← hobj]; rfl
    have hwp : WorkAt ⟨q, i, none⟩ .started (putLaunch v l) := by
      obtain ⟨z, d, hz, hd⟩ := hw.moved hm
      exact ⟨z, d, by rw [← hz]; exact getQ_congr rfl (.inr (winCtx_view rfl rfl rfl)), hd⟩
    generalize putLaunch v l = z at hp hlp hgp hwp
    obtain ⟨h1, h2, h3⟩ := settleLaunch_new hlp (by rw [← hl']) (by rw [← hl']) (by rw [← hl']; rfl) (by rw [← hl']; rfl) hwp
    obtain ⟨h4, h5⟩ := settleLaunch_leaves z q.val i
    have hnodes : l.nodes = newNodes i np := by rw [← hl']
    refine ⟨l, launched y b, by rw [launchOf, h4]; exact hlp, ?_, ?_, ?_, ?_, by rw [h3]; exact hgp, hfl, (nomatch ·), ?_, ?_⟩
    · rw [← hl']
      rfl
    · rw [← hl']
      rfl
    · rw [← hl']
      rfl
    · rw [← hl']
      rfl
    · intro np' hn
      obtain rfl := Option.some.inj hn
      refine ⟨by rw [← hl'], by rw [hnodes, newNodes_length, hlen], fun k n hk => ?_, h1, h2⟩
      rw [hnodes] at hk
      exact newNodes_at hk
    · exact fun _ => (ho.mono (by simp)).trans ((hm.mono (by simp)).trans ((hp.mono (by simp)).trans (h5.mono (by simp))))

theorem graphReads {s u : State} {q : Fin 8193} {i : W32} {x : Queue} {p : W512} {be : Bool} {g : Nat} {y : Graph} {b : Bool}
    (h : beginWork s q.val i none 0x11 = (u, .go x p be)) (hg : graphFor u x.ctx (bits p 159 128) = some g)
    (hy : tget u.obj.graphs g = some y) (hl : (launchOf s q.val i).isNone = true) (hc : y.cur = some b) :
    let slot := if b then y.b else y.a
    let mid := markStarted (addLaunch u q.val i g y b) q.val i none
    slot.inflight < 255 → ∀ v r, readNpreds mid (feWho mid q.val x) slot.table.toNat slot.count 0 = (v, r) →
    (r = none → ctxActive v x.ctx = true) →
    Answers (.graphLaunch q i) s fun t => ∃ l z, launchOf t q.val i = some l ∧ l.graph = g ∧ l.slotB = b ∧ l.table = slot.table ∧
      l.count = slot.count ∧ tget t.obj.graphs g = some z ∧ (if b then z.b else z.a).inflight = slot.inflight + 1 ∧
      (r = none → l.read = false ∧ WorkAt ⟨q, i, none⟩ .started t) ∧
      (∀ np, r = some np → l.read = true ∧ l.nodes.length = slot.count ∧
        (∀ k n, tget l.nodes k = some n → (n.npred = 0 → n.d.stage = .armed) ∧ n.arrivals = 0 ∧ np[k]? = some n.npred) ∧
        (np.contains 0 = true → WorkAt ⟨q, i, none⟩ .started t) ∧
        (np.contains 0 = false → WorkAt ⟨q, i, none⟩ (.finished (if np = [] then 0 else 0x13)) t)) ∧
      (r ≠ none → Only [.obj, .mmu, .fab, .free] s t) := by
  dsimp only
  intro hf v r hv ha
  obtain ⟨ht, hm, ho⟩ := startGraph_reads h hg hy hl hc hf
  obtain ⟨l, z, h1, h2, h3, h4, h5, h6, h7, h8, h9, h10⟩ := launching_reads hm hv ha
  exact ⟨_, congrArg Host.Outcome.next ht, l, z, h1, h2, h3, h4, h5, h6, h7, h8, h9, fun hr => ho.trans (h10 hr)⟩

end Sys2Proof.Machine

open Sys2Proof Sys2Proof.Machine

/-- Settles O45: work that begins was armed and stays where it stood, and each unit takes it from there. -/
theorem workStartsInItsUnit : Obligations.WorkStartsInItsUnit := by
  refine ⟨fun s u v z w x p be src dst h hr hw => copyStarts h hr hw, fun s u v w x p be h hw => fillStarts h hw, ?_, ?_, ?_⟩
  · intro s u w x p be n h hn he
    refine ⟨fun hm => kernelBlocks h hn he hm, fun v b hm hv => ⟨fun hg => ?_, fun hg hz => ?_, fun hg hz => ?_⟩⟩
    · exact kernelGrid_bad h hn he hm hv hg
    · exact kernelGrid_empty h hn he hm hv hg hz
    · exact kernelGrid_runs h hn he hm hv hg hz
  · intro s q x d n hq hd hm hn he p hrt hp hb he'
    exact contLaunches hq hd hm hn he hrt hp hb he'
  · intro s u q i x p be g y h hg hy hl
    exact ⟨graphIdle h hg hy hl, fun b hc => graphReads h hg hy hl hc⟩

end

section
/-! Proofs: what lanes store in a memory and what atomics give them (spec/08 R245 to R256). -/

namespace Sys2Proof.Machine

/-! ## Lanes and addresses in order -/

theorem lanes_sorted (i : Iss) : i.lanes.Pairwise (· < ·) := List.Pairwise.filter _ List.pairwise_lt_range

/-- The lowest element of a property stands first among those that have it. -/
theorem filter_lowest {L : List Nat} {p : Nat → Bool} {l : Nat} (hs : L.Pairwise (· < ·)) (hl : l ∈ L) (hp : p l = true)
    (hlow : ∀ k ∈ L, k < l → p k = false) : ∃ rest, L.filter p = l :: rest ∧ ∀ k ∈ rest, l < k ∧ k ∈ L ∧ p k = true := by
  have hm : l ∈ L.filter p := List.mem_filter.2 ⟨hl, hp⟩
  have hf := hs.filter p
  cases h : L.filter p with
  | nil => rw [h] at hm; cases hm
  | cons a t =>
    rw [h] at hm hf
    obtain ⟨ha, -⟩ := List.pairwise_cons.1 hf
    have hin : ∀ k ∈ a :: t, k ∈ L ∧ p k = true := fun k hk => List.mem_filter.1 (h ▸ hk)
    obtain rfl : l = a := by
      rcases List.mem_cons.1 hm with e | e
      · exact e
      · have := hlow a (hin a (by simp)).1 (ha l e)
        rw [(hin a (by simp)).2] at this
        cases this
    exact ⟨t, rfl, fun k hk => ⟨ha k hk, hin k (by simp [hk])⟩⟩

theorem ascending_wf (l : List Nat) (t : Tbl Unit) (ht : Tbl.wf t = true) :
    Tbl.wf (l.foldl (fun t a => tset t a ()) t) = true ∧
    ∀ k, tget (l.foldl (fun t a => tset t a ()) t) k = if k ∈ l then some () else tget t k := by
  induction l generalizing t with
  | nil => exact ⟨ht, fun k => by simp⟩
  | cons a l ih =>
    obtain ⟨h1, h2⟩ := ih (tset t a ()) (tset_wf ht a ())
    refine ⟨h1, fun k => ?_⟩
    rw [List.foldl_cons, h2, tget_tset]
    by_cases hk : k = a <;> by_cases hl : k ∈ l <;> simp [hk, hl]

theorem mem_ascending {l : List Nat} {k : Nat} : k ∈ ascending l ↔ k ∈ l := by
  obtain ⟨hw, hg⟩ := ascending_wf l [] rfl
  have hk := hg k
  unfold ascending
  generalize l.foldl (fun t a => tset t a ()) ([] : Tbl Unit) = t at hw hk
  constructor
  · intro h
    obtain ⟨e, he, rfl⟩ := List.mem_map.1 h
    by_contra hn
    rw [if_neg hn, tget_of_mem hw he] at hk
    cases hk
  · intro h
    rw [if_pos h] at hk
    exact List.mem_map.2 ⟨_, tget_mem hk, rfl⟩

theorem ascending_nodup (l : List Nat) : (ascending l).Nodup := by
  obtain ⟨hw, -⟩ := ascending_wf l [] rfl
  refine List.Pairwise.map _ (fun a b h => ?_) ((Tbl.wf_iff _).1 hw)
  exact Nat.ne_of_lt h

theorem ascending_single (a : Nat) : ascending [a] = [a] := rfl

/-! ## Places of one size that are aligned to it -/

theorem apart_of_dvd {n a b : Nat} (ha : n ∣ a) (hb : n ∣ b) (h : a ≠ b) : a + n ≤ b ∨ b + n ≤ a := by
  obtain ⟨x, rfl⟩ := ha
  obtain ⟨y, rfl⟩ := hb
  rcases Nat.lt_or_gt_of_ne (fun e : x = y => h (by rw [e])) with hxy | hxy
  · exact .inl (Nat.mul_le_mul_left n hxy)
  · exact .inr (Nat.mul_le_mul_left n hxy)

/-- Lanes of a list store one after the other at aligned places. -/
theorem mread_stores {n : Nat} {key : Nat → Nat} {data : Nat → List Byte} (hn : ∀ l, (data l).length = n) (L : List Nat)
    (hs : L.Pairwise (· < ·)) (hd : ∀ l ∈ L, n ∣ key l) {m : Mem} (hm : Mem.wf m = true) :
    let m' := L.foldl (fun m l => mwrite m (key l) (data l)) m
    (∀ l ∈ L, (∀ k ∈ L, l < k → key k ≠ key l) → mread m' (key l) n = data l) ∧
    ∀ a, (∀ l ∈ L, a < key l ∨ key l + n ≤ a) → mget m' a = mget m a := by
  induction L generalizing m with
  | nil => exact ⟨fun l h => by simp at h, fun _ _ => rfl⟩
  | cons x L ih =>
    obtain ⟨hx, hs⟩ := List.pairwise_cons.1 hs
    obtain ⟨h1, h2⟩ := ih hs (fun l hl => hd l (by simp [hl])) (mwrite_wf hm (key x) (data x))
    refine ⟨fun l hl hhi => ?_, fun a ha => ?_⟩
    · rcases List.mem_cons.1 hl with rfl | hl
      · have hw := mread_mwrite hm (key l) (data l)
        rw [hn] at hw
        rw [List.foldl_cons]
        refine Eq.trans (mread_congr fun y hy1 hy2 => h2 y fun k hk => ?_) hw
        have := apart_of_dvd (hd l (by simp)) (hd k (by simp [hk])) fun e => hhi k (by simp [hk]) (hx k hk) e.symm
        omega
      · exact h1 l hl fun k hk hlt => hhi k (by simp [hk]) hlt
    · rw [List.foldl_cons, h2 a fun l hl => ha l (by simp [hl])]
      exact mget_mwrite_outside hm (by rw [hn]; exact ha x (by simp))

theorem regBytes_length (g : Group) (l r n : Nat) : (regBytes g l r n).length = n := toLE_length _ _

theorem stored_lanes {i : Iss} {key : Nat → Nat} {n b : Nat} (hd : ∀ l ∈ i.lanes, n ∣ key l) {m : Mem} (hm : Mem.wf m = true) :
    Stored i key n (fun l => regBytes i.g l b n) m (i.lanes.foldl (fun m l => mwrite m (key l) (regBytes i.g l b n)) m) :=
  mread_stores (fun l => regBytes_length i.g l b n) i.lanes (lanes_sorted i) hd hm

/-! ## Results of atomics that go to lanes -/

/-- What a list of lanes with their results gives a lane. -/
def resultOf (ws : List (Nat × Nat)) (l : Nat) : Nat := ((ws.find? fun e => e.1 == l).map (·.2)).getD 0

theorem resultOf_mem {ws : List (Nat × Nat)} (hn : (ws.map (·.1)).Nodup) {e : Nat × Nat} (he : e ∈ ws) : resultOf ws e.1 = e.2 := by
  induction ws with
  | nil => cases he
  | cons a ws ih =>
    obtain ⟨ha, hn⟩ := List.nodup_cons.1 hn
    unfold resultOf
    rcases List.mem_cons.1 he with rfl | he
    · rw [List.find?_cons_of_pos (by simp)]
      rfl
    · rw [List.find?_cons_of_neg]
      · exact ih hn he
      · intro h
        have : a.1 = e.1 := by simpa using h
        exact ha (List.mem_map.2 ⟨e, he, this.symm⟩)

/-- Results given to every active lane, each once, with the subgroup past its instruction. -/
theorem wrote_results {i : Iss} {ws : List (Nat × Nat)} (hn : (ws.map (·.1)).Nodup) (hm : ∀ l, l ∈ ws.map (·.1) ↔ l ∈ i.lanes)
    (d n : Nat) : Wrote i d n (resultOf ws)
      { ws.foldl (fun g e => wrN g e.1 d e.2 n) i.g with subs := pass i.sub :: i.rest } := by
  have hfold (l : List (Nat × Nat)) (hl : ∀ e ∈ l, e ∈ ws) (g : Group) : l.foldl (fun g e => wrN g e.1 d e.2 n) g =
      (l.map (·.1)).foldl (fun g a => wrN g a d (resultOf ws a) n) g := by
    induction l generalizing g with
    | nil => rfl
    | cons e l ih =>
      rw [List.map_cons, List.foldl_cons, List.foldl_cons, ih fun x hx => hl x (by simp [hx])]
      rw [resultOf_mem hn (hl e (by simp))]
  rw [hfold ws fun _ h => h]
  obtain ⟨h1, h2⟩ := rd_foldl_wrN (ws.map (·.1)) (fun a ha => lanes_lt ((hm a).1 ha)) d n (resultOf ws) i.g
  refine ⟨?_, fun l k hl => ?_⟩
  · conv_lhs => rw [h1]
  · rw [rd_subs, h2 l k hl]
    simp only [hm l]

/-! ## Places one after the other -/

/-- The results of the places of an atomic, each place's as the machine then stands. -/
def resultsOf (step : State → Nat → State) (outs : State → Nat → List (Nat × Nat)) : State → List Nat → List (Nat × Nat)
  | _, [] => []
  | s, k :: ks => outs s k ++ resultsOf step outs (step s k) ks

theorem foldl_places (step : State → Nat → State) (outs : State → Nat → List (Nat × Nat)) (w : Group → Nat × Nat → Group)
    (ks : List Nat) (s : State) (g : Group) :
    ks.foldl (fun (r : State × Group) k => (step r.1 k, (outs r.1 k).foldl w r.2)) (s, g) =
      (ks.foldl step s, (resultsOf step outs s ks).foldl w g) := by
  induction ks generalizing s g with
  | nil => rfl
  | cons k ks ih => rw [List.foldl_cons, ih, List.foldl_cons, resultsOf, List.foldl_append]

/-- Each lane has one result when each place gives one to each of its lanes. -/
theorem resultsOf_lanes {step : State → Nat → State} {outs : State → Nat → List (Nat × Nat)} {i : Iss} {key : Nat → Nat}
    (ho : ∀ s k, (outs s k).map (·.1) = i.lanes.filter fun l => key l == k) (ks : List Nat) (hk : ks.Nodup) (s : State) :
    ((resultsOf step outs s ks).map (·.1)).Nodup ∧
    ∀ l, l ∈ (resultsOf step outs s ks).map (·.1) ↔ l ∈ i.lanes ∧ key l ∈ ks := by
  induction ks generalizing s with
  | nil => exact ⟨List.nodup_nil, fun l => by simp [resultsOf]⟩
  | cons k ks ih =>
    obtain ⟨hk1, hk2⟩ := List.nodup_cons.1 hk
    obtain ⟨h1, h2⟩ := ih hk2 (step s k)
    rw [resultsOf, List.map_append, ho]
    constructor
    · refine List.nodup_append'.2 ⟨((lanes_sorted i).imp Nat.ne_of_lt).filter _, h1, ?_⟩
      intro l hl hl'
      obtain ⟨-, he⟩ := List.mem_filter.1 hl
      have hin := ((h2 l).1 hl').2
      rw [show key l = k by simpa using he] at hin
      exact hk1 hin
    · intro l
      rw [List.mem_append, h2, List.mem_filter, List.mem_cons, beq_iff_eq]
      tauto

theorem atCombine_lanes (base : Nat) (op : AtOp) (ty : AtTy) (old : Nat) (l : List (Nat × Nat × Nat)) :
    (atCombine base op ty old l).2.map (·.1) = l.map (·.1) := by
  unfold atCombine
  split
  · simp [Function.comp_def]
  · have h (l : List (Nat × Nat × Nat)) (a : Nat × List (Nat × Nat)) :
        (l.foldl (fun (a : Nat × List (Nat × Nat)) e => (atApply op ty a.1 e.2.1 e.2.2, a.2 ++ [(e.1, a.1)])) a).2.map (·.1) =
          a.2.map (·.1) ++ l.map (·.1) := by
      induction l generalizing a with
      | nil => simp
      | cons e l ih => rw [List.foldl_cons, ih]; simp
    exact h l (old, [])

theorem atLanes_lanes (i : Iss) (addr : Nat → Nat) (a n b c : Nat) :
    (atLanes i addr a n b c).map (·.1) = i.lanes.filter fun l => addr l == a := by
  simp [atLanes, Function.comp_def]

/-- The first lane of a place takes what the place held. -/
theorem atCombine_first {ty : AtTy} (hf : atFloat ty = false) (base : Nat) (op : AtOp) (old : Nat) (e : Nat × Nat × Nat)
    (l : List (Nat × Nat × Nat)) : (e.1, old) ∈ (atCombine base op ty old (e :: l)).2 := by
  rw [atCombine, if_neg (by simp [hf])]
  have h (l : List (Nat × Nat × Nat)) (a : Nat × List (Nat × Nat)) (x : Nat × Nat) (hx : x ∈ a.2) :
      x ∈ (l.foldl (fun (a : Nat × List (Nat × Nat)) e => (atApply op ty a.1 e.2.1 e.2.2, a.2 ++ [(e.1, a.1)])) a).2 := by
    induction l generalizing a with
    | nil => exact hx
    | cons e l ih => exact ih _ (List.mem_append_left _ hx)
  exact h l _ _ (by simp)

theorem atCombine_int {ty : AtTy} (hf : atFloat ty = false) (base base' : Nat) (op : AtOp) (old : Nat) (l : List (Nat × Nat × Nat))
    :
    atCombine base op ty old l = atCombine base' op ty old l := by
  rw [atCombine, atCombine, if_neg (by simp [hf]), if_neg (by simp [hf])]

/-- One lane alone at a place. -/
theorem atCombine_single (base : Nat) (op : AtOp) (ty : AtTy) (old : Nat) (e : Nat × Nat × Nat) :
    atCombine base op ty old [e] = (atApply op ty old e.2.1 e.2.2, [(e.1, old)]) := by
  unfold atCombine
  split
  · have ho : freeOrder base [e].length [e] = [e] := by simp [freeOrder, Nat.mod_one]
    simp only [ho]
    simp
  · rfl

end Sys2Proof.Machine
end

section
/-! Proofs: atomics on local memories (spec/08 R251 to R254). -/

namespace Sys2Proof.Machine

section Places

variable (i : Iss) (key : Nat → Nat) (op : AtOp) (ty : AtTy) (b c : Nat)

/-- What the lanes of a place combine to. -/
def combineAt (base : Nat) (m : Mem) (k : Nat) : Nat × List (Nat × Nat) :=
  atCombine base op ty (mnat m k (atSize ty)) (atLanes i key k (atSize ty) b c)

/-- One place of a local memory combined. -/
def lmStep (s : State) (k : Nat) : State :=
  { drewN s 64 with
    cores := { s.cores with lm := mwrite s.cores.lm k (toLE (atSize ty) (combineAt i key op ty b c s.free s.cores.lm k).1) } }

def lmOuts (s : State) (k : Nat) : List (Nat × Nat) := (combineAt i key op ty b c s.free s.cores.lm k).2

theorem lmAtomics_eq (s : State) (d : Nat) : lmAtomics s i key op ty d b c =
    ((ascending (i.lanes.map key)).foldl (lmStep i key op ty b c) s,
      (resultsOf (lmStep i key op ty b c) (lmOuts i key op ty b c) s (ascending (i.lanes.map key))).foldl
        (fun g e => wrN g e.1 d e.2 (atSize ty / 4)) i.g) :=
  foldl_places (lmStep i key op ty b c) (lmOuts i key op ty b c) (fun g e => wrN g e.1 d e.2 (atSize ty / 4)) _ _ _

theorem lmOuts_lanes (s : State) (k : Nat) : (lmOuts i key op ty b c s k).map (·.1) = i.lanes.filter fun l => key l == k :=
  (atCombine_lanes _ _ _ _ _).trans (atLanes_lanes _ _ _ _ _ _)

theorem lmStep_leaves (s : State) (k : Nat) : (lmStep i key op ty b c s k).cores =
    { s.cores with lm := (lmStep i key op ty b c s k).cores.lm } ∧ Only [.cores, .free] s (lmStep i key op ty b c s k) :=
  ⟨rfl, fun p hp => by cases p <;> first | (simp at hp; done) | rfl⟩

theorem lmSteps_leave (ks : List Nat) (s : State) : (ks.foldl (lmStep i key op ty b c) s).cores =
    { s.cores with lm := (ks.foldl (lmStep i key op ty b c) s).cores.lm } ∧
    Only [.cores, .free] s (ks.foldl (lmStep i key op ty b c) s) := by
  induction ks generalizing s with
  | nil => exact ⟨rfl, .refl _ s⟩
  | cons k ks ih =>
    obtain ⟨h1, h2⟩ := ih (lmStep i key op ty b c s k)
    obtain ⟨h3, h4⟩ := lmStep_leaves i key op ty b c s k
    refine ⟨?_, h4.trans h2⟩
    rw [List.foldl_cons, h1, h3]

/-- Places that are aligned to their size are combined each from what it held. -/
theorem lmSteps_mem (ks : List Nat) (hk : ks.Nodup) (hd : ∀ k ∈ ks, atSize ty ∣ k) (s : State) (hm : Mem.wf s.cores.lm = true) :
    let m' := (ks.foldl (lmStep i key op ty b c) s).cores.lm
    (∀ a, (∀ k ∈ ks, a < k ∨ k + atSize ty ≤ a) → mget m' a = mget s.cores.lm a) ∧
    (atFloat ty = false → ∀ k ∈ ks,
      mnat m' k (atSize ty) = (combineAt i key op ty b c 0 s.cores.lm k).1 % 2 ^ (8 * atSize ty) ∧
      ∀ e ∈ (combineAt i key op ty b c 0 s.cores.lm k).2,
        e ∈ resultsOf (lmStep i key op ty b c) (lmOuts i key op ty b c) s ks) := by
  induction ks generalizing s with
  | nil => exact ⟨fun _ _ => rfl, fun _ k h => by cases h⟩
  | cons x ks ih =>
    obtain ⟨hx, hk⟩ := List.nodup_cons.1 hk
    have hlen := toLE_length (atSize ty) (combineAt i key op ty b c s.free s.cores.lm x).1
    obtain ⟨h1, h2⟩ := ih hk (fun k h => hd k (by simp [h])) (lmStep i key op ty b c s x) (mwrite_wf hm _ _)
    have hstep {a : Nat} (ha : a < x ∨ x + atSize ty ≤ a) : mget (lmStep i key op ty b c s x).cores.lm a = mget s.cores.lm a :=
      mget_mwrite_outside hm (by rw [hlen]; exact ha)
    rw [List.foldl_cons]
    refine ⟨fun a ha => (h1 a fun k h => ha k (by simp [h])).trans (hstep (ha x (by simp))), fun hf k hk => ?_⟩
    rcases List.mem_cons.1 hk with rfl | hkk
    · constructor
      · have hr : mread (ks.foldl (lmStep i key op ty b c) (lmStep i key op ty b c s k)).cores.lm k (atSize ty) =
            toLE (atSize ty) (combineAt i key op ty b c 0 s.cores.lm k).1 := by
          refine Eq.trans (mread_congr fun y hy1 hy2 => h1 y fun z hz => ?_) ?_
          · have := apart_of_dvd (hd k (by simp)) (hd z (by simp [hz])) fun e => hx (e ▸ hz)
            omega
          · have hw := mread_mwrite hm k (toLE (atSize ty) (combineAt i key op ty b c s.free s.cores.lm k).1)
            rw [hlen] at hw
            rw [combineAt, atCombine_int hf 0 s.free]
            exact hw
        rw [mnat, hr, leNat_toLE]
      · intro e he
        rw [resultsOf, List.mem_append]
        refine .inl ?_
        rw [combineAt, atCombine_int hf 0 s.free] at he
        exact he
    · have hne : x ≠ k := fun e => hx (e ▸ hkk)
      have hsame : mnat (lmStep i key op ty b c s x).cores.lm k (atSize ty) = mnat s.cores.lm k (atSize ty) := by
        have hap := apart_of_dvd (hd x (by simp)) (hd k (by simp [hkk])) hne
        exact congrArg leNat (mread_congr fun y hy1 hy2 => hstep (by omega))
      have hcomb : combineAt i key op ty b c 0 (lmStep i key op ty b c s x).cores.lm k = combineAt i key op ty b c 0 s.cores.lm
          k := by
        rw [combineAt, combineAt, hsame]
      obtain ⟨h3, h4⟩ := h2 hf k hkk
      rw [hcomb] at h3 h4
      exact ⟨h3, fun e he => by rw [resultsOf, List.mem_append]; exact .inr (h4 e he)⟩

end Places

/-- Atomics of lanes on a local memory. -/
theorem lmAtomics_combined {s : State} {i : Iss} {key : Nat → Nat} {op : AtOp} {ty : AtTy} (d b c : Nat)
    (hd : ∀ l ∈ i.lanes, atSize ty ∣ key l) (hm : Mem.wf s.cores.lm = true) :
    ∃ t g f, lmAtomics s i key op ty d b c = (t, g) ∧
      Wrote i d (atSize ty / 4) f { g with subs := pass i.sub :: i.rest } ∧ t.cores = { s.cores with lm := t.cores.lm } ∧
      (atFloat ty = false → Combined i key op ty b c f s.cores.lm t.cores.lm) ∧ Only [.cores, .free] s t := by
  have hdk : ∀ k ∈ ascending (i.lanes.map key), atSize ty ∣ k := fun k hk => by
    obtain ⟨l, hl, rfl⟩ := List.mem_map.1 (mem_ascending.1 hk)
    exact hd l hl
  obtain ⟨hn, hlanes⟩ := resultsOf_lanes (lmOuts_lanes i key op ty b c) (ascending (i.lanes.map key)) (ascending_nodup _) s
    (step := lmStep i key op ty b c)
  obtain ⟨h1, h2⟩ := lmSteps_leave i key op ty b c (ascending (i.lanes.map key)) s
  obtain ⟨h3, h4⟩ := lmSteps_mem i key op ty b c _ (ascending_nodup (i.lanes.map key)) hdk s hm
  refine ⟨_, _, _, lmAtomics_eq i key op ty b c s d, wrote_results hn (fun l => ?_) d _, h1, fun hf => ?_, h2⟩
  · rw [hlanes, mem_ascending, and_iff_left_iff_imp]
    exact fun hl => List.mem_map_of_mem hl
  · have hin {l : Nat} (hl : l ∈ i.lanes) : key l ∈ ascending (i.lanes.map key) := mem_ascending.2 (List.mem_map_of_mem hl)
    have hlow {l : Nat} (hl : l ∈ i.lanes) (h : ∀ k ∈ i.lanes, k < l → key k ≠ key l) :=
      filter_lowest (p := fun k => key k == key l) (lanes_sorted i) hl (by simp) fun k hk hkl => by simpa using h k hk hkl
    refine ⟨fun l hl h => ?_, fun l hl h => ?_, fun a ha => h3 a fun k hk => ?_⟩
    · obtain ⟨rest, hr, -⟩ := hlow hl h
      refine resultOf_mem hn (e := (l, mnat s.cores.lm (key l) (atSize ty))) ((h4 hf _ (hin hl)).2 _ ?_)
      unfold combineAt atLanes
      rw [hr]
      exact atCombine_first hf _ _ _ _ _
    · obtain ⟨rest, hr, hrest⟩ := hlow hl fun k hk hkl => h k hk (Nat.ne_of_lt hkl)
      obtain rfl : rest = [] := by
        cases rest with
        | nil => rfl
        | cons k rest =>
          obtain ⟨hlt, hk, he⟩ := hrest k (by simp)
          exact absurd (by simpa using he) (h k hk (Nat.ne_of_gt hlt))
      rw [(h4 hf _ (hin hl)).1]
      unfold combineAt atLanes
      rw [hr]
      exact congrArg (fun x : Nat × List (Nat × Nat) => x.1 % _) (atCombine_single _ _ _ _ _)
    · obtain ⟨l, hl, rfl⟩ := List.mem_map.1 (mem_ascending.1 hk)
      exact ha l hl

end Sys2Proof.Machine
end

section
/-! Proofs: loads, stores and atomics of lanes on local memories (spec/08 R245 to R252). -/

namespace Sys2Proof.Machine

/-! ## Sizes and orderings -/

theorem sizeOk_dvd {n : Nat} (h : sizeOk n = true) : n ∣ 16 := by
  simp only [sizeOk, Bool.or_eq_true, beq_iff_eq] at h
  rcases h with (((rfl | rfl) | rfl) | rfl) | rfl <;> decide

theorem atSize_dvd (ty : AtTy) : atSize ty ∣ 16 := by cases ty <;> decide

theorem loadOrd_goes {ord : Order} (h : loadOrd ord = true) (s : State) (i : Iss) : releaseOrd s i ord = (s, some ()) := by
  cases ord <;> first | rfl | cases h

theorem near_dvd {n a : Nat} (hn : n ∣ 16) (core : Nat) (h : lmOk a n = true) : n ∣ lmKey core a := by
  simp only [lmOk, Bool.and_eq_true, beq_iff_eq] at h
  exact Nat.dvd_add (hn.trans ((show (16 : Nat) ∣ 0x80000 by decide).mul_left core)) (Nat.dvd_of_mod_eq_zero h.2)

/-! ## LM_ACCESS (R245, R246) -/

section Near

variable {s : State} {r : SgRef} {i : Iss} (h : issue s r = some i) {x : LmAcc} {n : Nat} {a : Reg} {ord : Order}
  (hf : lmForm x = (true, n, a, ord)) (hn : ∀ l ∈ i.lanes, lmOk (laneAddr i a l) n = true)

include h hf hn

theorem doLm_holds (hr : (releaseOrd s i ord).2 = none) : onCore s r (doLm s r x) = (releaseOrd s i ord).1 := by
  have hall : (i.lanes.all fun l => lmOk (laneAddr i a l) n) = true := List.all_eq_true.2 hn
  rcases hu : releaseOrd s i ord with ⟨u, o⟩
  rw [hu] at hr
  obtain rfl : o = none := hr
  rw [onCore_issue h, doLm, h]
  simp only [hf, hall, hu]
  rfl

theorem doLm_performs (hr : releaseOrd s i ord = (s, some ())) :
    onCore s r (doLm s r x) = lmPerform (passToken s i.core i.quarter 5) i x := by
  have hall : (i.lanes.all fun l => lmOk (laneAddr i a l) n) = true := List.all_eq_true.2 hn
  rw [onCore_issue h, doLm, h]
  simp only [hf, hall, hr]
  rfl

end Near

/-- A store or atomic that has stored and retires. -/
theorem retire_stored {s t : State} {i : Iss} {g : Group} (hc : t.cores = { s.cores with lm := t.cores.lm }) :
    (retire t i g).cores = { s.cores with
      groups := tset s.cores.groups i.key { g with subs := pass i.sub :: i.rest }, lm := (retire t i g).cores.lm } ∧
    (retire t i g).cores.lm = t.cores.lm := by
  rw [retire_cores, hc]
  exact ⟨rfl, rfl⟩

/-- Lanes that store in a local memory, one after the other. -/
theorem foldl_lm {f : State → Nat → State} {key : Nat → Nat} {data : Nat → List Byte} (L : List Nat) (s : State)
    (hf : ∀ t, t.cores.blocks = s.cores.blocks → ∀ l ∈ L,
      f t l = { t with cores := { t.cores with lm := mwrite t.cores.lm (key l) (data l) } }) :
    (L.foldl f s).cores = { s.cores with lm := L.foldl (fun m l => mwrite m (key l) (data l)) s.cores.lm } ∧
    Only [.cores] s (L.foldl f s) := by
  induction L generalizing s with
  | nil => exact ⟨rfl, .refl _ s⟩
  | cons x L ih =>
    have hx := hf s rfl x (by simp)
    obtain ⟨h1, h2⟩ := ih (f s x) fun t ht l hl => hf t (by rw [ht, hx]) l (by simp [hl])
    rw [List.foldl_cons]
    refine ⟨?_, (show Only [.cores] s (f s x) by rw [hx]; exact cores_only rfl).trans h2⟩
    rw [h1, hx]
    rfl

section Access

variable {s : State} {r : SgRef} {i : Iss} (h : issue s r = some i) (hm : memOk s = true)

include h

theorem lmLoads {n : Nat} {d a : Reg} {ord : Order} (hs : sizeOk n = true) (ho : loadOrd ord = true)
    (hn : ∀ l ∈ i.lanes, lmOk (laneAddr i a l) n = true) : Answers (.lmAccess r (.load n d a ord)) s fun t => ∃ g,
      Wrote i d.val (sizeRegs n) (fun l => mnat s.cores.lm (lmKey r.core.val (laneAddr i a l)) n) g ∧
      t = setGroup (went (passToken s i.core i.quarter 5) i) i.key g := by
  have ht := doLm_performs h (x := .load n d a ord) (n := n) (a := a) (ord := ord) (by simp [lmForm, hs, ho]) hn (loadOrd_goes ho s
      i)
  obtain ⟨g, hw, hg⟩ := retire_wrote (passToken s i.core i.quarter 5) i d.val (sizeRegs n)
    fun l => mnat s.cores.lm (lmKey i.core (laneAddr i a l)) n
  rw [← issue_core h]
  exact ⟨_, congrArg Host.Outcome.next ht, g, hw, hg⟩

include hm

theorem lmStores {n : Nat} {a b : Reg} {ord : Order} (hs : sizeOk n = true) (ho : storeOrd ord = true)
    (hn : ∀ l ∈ i.lanes, lmOk (laneAddr i a l) n = true) (hr : releaseOrd s i ord = (s, some ())) :
    Answers (.lmAccess r (.store n a b ord)) s fun t =>
      t.cores = { (passToken s i.core i.quarter 5).cores with
        groups := tset s.cores.groups i.key (passed i), lm := t.cores.lm } ∧
      Stored i (fun l => lmKey r.core.val (laneAddr i a l)) n (fun l => regBytes i.g l b.val n) s.cores.lm t.cores.lm ∧
      Only [.cores, .flt] s t := by
  have ht := doLm_performs h (x := .store n a b ord) (n := n) (a := a) (ord := ord) (by simp [lmForm, hs, ho]) hn hr
  obtain ⟨-, -, hwf⟩ := (memOk_iff s).1 hm
  rw [← issue_core h]
  have hp := passToken_only s i.core i.quarter 5
  have hlm : (passToken s i.core i.quarter 5).cores.lm = s.cores.lm := rfl
  have hgr : (passToken s i.core i.quarter 5).cores.groups = s.cores.groups := rfl
  rw [show lmPerform (passToken s i.core i.quarter 5) i (.store n a b ord) =
    retire (i.lanes.foldl (fun s l => lmWrite s i.core (laneAddr i a l) (regBytes i.g l b.val n)) (passToken s i.core i.quarter 5))
      i i.g from rfl] at ht
  generalize passToken s i.core i.quarter 5 = u at ht hp hlm hgr
  obtain ⟨h1, h2⟩ := foldl_lm (f := fun s l => lmWrite s i.core (laneAddr i a l) (regBytes i.g l b.val n))
    (key := fun l => lmKey i.core (laneAddr i a l)) (data := fun l => regBytes i.g l b.val n) i.lanes u fun _ _ _ _ => rfl
  generalize i.lanes.foldl (fun s l => lmWrite s i.core (laneAddr i a l) (regBytes i.g l b.val n)) u = v at ht h1 h2
  have hv : v.cores.lm = i.lanes.foldl (fun m l => mwrite m (lmKey i.core (laneAddr i a l)) (regBytes i.g l b.val n)) s.cores.lm :=
      by
    rw [h1, ← hlm]
  obtain ⟨h3, h4⟩ := retire_stored (t := v) (i := i) (g := i.g) (s := u) (by rw [h1])
  have hst := stored_lanes (n := n) (b := b.val) (i := i) (key := fun l => lmKey i.core (laneAddr i a l))
    (fun l hl => near_dvd (sizeOk_dvd hs) i.core (hn l hl)) hwf
  refine ⟨_, congrArg Host.Outcome.next ht, ?_, by rw [h4, hv]; exact hst,
    (hp.mono (by simp)).trans ((h2.mono (by simp)).trans (retire_only v i i.g))⟩
  rw [h3, hgr]
  rfl

theorem lmAtoms {op : AtOp} {ty : AtTy} {d a b c : Reg} {ord : Order} (hf : atForm op ty = true)
    (hn : ∀ l ∈ i.lanes, lmOk (laneAddr i a l) (atSize ty) = true) (hr : releaseOrd s i ord = (s, some ())) :
    Answers (.lmAccess r (.atom op ty d a b c ord)) s fun t => ∃ g f, Wrote i d.val (atSize ty / 4) f g ∧
      t.cores = { (passToken s i.core i.quarter 5).cores with groups := tset s.cores.groups i.key g, lm := t.cores.lm } ∧
      (atFloat ty = false →
        Combined i (fun l => lmKey r.core.val (laneAddr i a l)) op ty b.val c.val f s.cores.lm t.cores.lm) ∧
      Only [.cores, .free, .flt] s t := by
  have ht := doLm_performs h (x := .atom op ty d a b c ord) (n := atSize ty) (a := a) (ord := ord) (by simp [lmForm, hf]) hn hr
  obtain ⟨-, -, hwf⟩ := (memOk_iff s).1 hm
  rw [← issue_core h]
  have hp := passToken_only s i.core i.quarter 5
  have hlm : (passToken s i.core i.quarter 5).cores.lm = s.cores.lm := rfl
  have hgr : (passToken s i.core i.quarter 5).cores.groups = s.cores.groups := rfl
  obtain ⟨v, g, f, hat, hw, hc, hcomb, ho⟩ := lmAtomics_combined (s := passToken s i.core i.quarter 5) (op := op)
    (key := fun l => lmKey i.core (laneAddr i a l)) d.val b.val c.val
    (fun l hl => near_dvd (atSize_dvd ty) i.core (hn l hl)) (by rw [hlm]; exact hwf)
  have hperf : lmPerform (passToken s i.core i.quarter 5) i (.atom op ty d a b c ord) = retire v i g := by
    unfold lmPerform
    simp only [hat]
  rw [hperf] at ht
  obtain ⟨h3, h4⟩ := retire_stored (t := v) (i := i) (g := g) hc
  refine ⟨_, congrArg Host.Outcome.next ht, _, f, hw, ?_, fun hfl => by rw [h4, ← hlm]; exact hcomb hfl,
    (hp.mono (by simp)).trans ((ho.mono (by simp)).trans ((retire_only v i g).mono (by simp)))⟩
  rw [h3, hgr]

end Access

/-! ## LDC, STC and ATC (R251) -/

theorem peer_dvd {s : State} {i : Iss} {n l : Nat} {p o : Reg} (hn : n ∣ 16) (hp : peerOk i n p o l = true)
    (hs : (peerKey s i p o l).isSome = true) : n ∣ (peerKey s i p o l).getD 0 := by
  simp only [peerOk, Bool.and_eq_true, beq_iff_eq] at hp
  obtain ⟨k, hk⟩ := Option.isSome_iff_exists.1 hs
  obtain ⟨b, -, hb⟩ := Option.map_eq_some_iff.1 hk
  rw [hk, ← hb, Option.getD_some, lmKey]
  exact Nat.dvd_add (hn.trans ((show (16 : Nat) ∣ 0x80000 by decide).mul_left b.core))
    (Nat.dvd_add (hn.trans ((show (16 : Nat) ∣ 1024 by decide).mul_left b.lmBase)) (Nat.dvd_of_mod_eq_zero hp.2))

theorem loadInto_congr {i : Iss} {d n : Nat} {f f' : Nat → List Byte} (h : ∀ l ∈ i.lanes, f l = f' l) :
    loadInto i d n f = loadInto i d n f' :=
  List.foldl_ext _ _ _ fun g l hl => by rw [h l hl]

/-- A peer's place depends on the blocks that the cores hold. -/
theorem peerKey_congr {s t : State} (h : t.cores.blocks = s.cores.blocks) (i : Iss) (p o : Reg) (l : Nat) :
    peerKey t i p o l = peerKey s i p o l := by
  unfold peerKey peerBlock clusterBlocks
  rw [h]

/-- An STC whose peers are there stores at their places. -/
theorem stcWrite_leaves {s : State} {i : Iss} {n : Nat} {b p o : Reg} (hp : ∀ l ∈ i.lanes, (peerKey s i p o l).isSome = true) :
    (stcWrite s i n b p o).cores = { s.cores with
      lm := i.lanes.foldl (fun m l => mwrite m ((peerKey s i p o l).getD 0) (regBytes i.g l b.val n)) s.cores.lm } ∧
    Only [.cores] s (stcWrite s i n b p o) := by
  unfold stcWrite
  refine foldl_lm (key := fun l => (peerKey s i p o l).getD 0) (data := fun l => regBytes i.g l b.val n) i.lanes s fun t ht l hl =>
      ?_
  obtain ⟨k, hk⟩ := Option.isSome_iff_exists.1 (hp l hl)
  have htk : peerKey t i p o l = some k := (peerKey_congr ht i p o l).trans hk
  simp only [htk, hk]
  rfl

section Peer

variable {s : State} {r : SgRef} {i : Iss} (h : issue s r = some i) {n : Nat} {p o : Reg}
  (he : peerEntry s i = true) (hp : ∀ l ∈ i.lanes, peerOk i n p o l = true ∧ (peerKey s i p o l).isSome = true)

include hp in
theorem peers_ok : (i.lanes.all (peerOk i n p o)) = true := List.all_eq_true.2 fun l hl => (hp l hl).1

include h he hp

theorem ldcLoads {d : Reg} {ord : Order} (hs : sizeOk n = true) (ho : loadOrd ord = true) :
    Answers (.ldc r ⟨n, ord⟩ d p o) s fun t =>
      (∃ g, Wrote i d.val (sizeRegs n) (fun l => mnat s.cores.lm ((peerKey s i p o l).getD 0) n) g ∧
        t.cores = (setGroup s i.key g).cores) ∧ Only [.cores, .free, .flt] s t := by
  have hall := peers_ok hp
  have ht : onCore s r (doLdc s r n d p o ord) = drewN (retire s i
      (i.lanes.foldl (fun g l => wrN g l d.val (mnat s.cores.lm ((peerKey s i p o l).getD 0) n) (sizeRegs n)) i.g)) 512 := by
    rw [onCore_issue h, doLdc, h]
    simp only [hs, ho, hall, he]
    rw [loadInto_congr (f' := fun l => mread s.cores.lm ((peerKey s i p o l).getD 0) n) fun l hl => ?_]
    · rfl
    · obtain ⟨k, hk⟩ := Option.isSome_iff_exists.1 (hp l hl).2
      simp only [hk]
      rfl
  have hr := retire_only s i
    (i.lanes.foldl (fun g l => wrN g l d.val (mnat s.cores.lm ((peerKey s i p o l).getD 0) n) (sizeRegs n)) i.g)
  have hcores := retire_cores s i
    (i.lanes.foldl (fun g l => wrN g l d.val (mnat s.cores.lm ((peerKey s i p o l).getD 0) n) (sizeRegs n)) i.g)
  generalize retire s i
    (i.lanes.foldl (fun g l => wrN g l d.val (mnat s.cores.lm ((peerKey s i p o l).getD 0) n) (sizeRegs n)) i.g) = u at ht hr hcores
  exact ⟨_, congrArg Host.Outcome.next ht, ⟨_, wrote_foldl i d.val (sizeRegs n) _, hcores⟩,
    (hr.mono (by simp)).trans ((drewN_only u 512).mono (by simp))⟩

variable (hm : memOk s = true)

theorem doStc_holds {b : Reg} {ord : Order} (hs : sizeOk n = true) (ho : storeOrd ord = true)
    (hr : (releaseOrd s i ord).2 = none) : onCore s r (doStc s r n b p o ord) = (releaseOrd s i ord).1 := by
  have hall := peers_ok hp
  rcases hu : releaseOrd s i ord with ⟨u, w⟩
  rw [hu] at hr
  obtain rfl : w = none := hr
  rw [onCore_issue h, doStc, h]
  simp only [hs, ho, hall, he, hu]
  rfl

include hm

theorem stcStores {b : Reg} {ord : Order} (hs : sizeOk n = true) (ho : storeOrd ord = true)
    (hr : releaseOrd s i ord = (s, some ())) : Answers (.stc r ⟨n, ord⟩ b p o) s fun t =>
      t.cores = { s.cores with groups := tset s.cores.groups i.key (passed i), lm := t.cores.lm } ∧
      Stored i (fun l => (peerKey s i p o l).getD 0) n (fun l => regBytes i.g l b.val n) s.cores.lm t.cores.lm ∧
      Only [.cores, .flt] s t := by
  have hall := peers_ok hp
  obtain ⟨-, -, hwf⟩ := (memOk_iff s).1 hm
  have ht : onCore s r (doStc s r n b p o ord) = retire (stcWrite s i n b p o) i i.g := by
    rw [onCore_issue h, doStc, h]
    simp only [hs, ho, hall, he, hr]
    rfl
  obtain ⟨h1, h2⟩ := stcWrite_leaves (n := n) (b := b) fun l hl => (hp l hl).2
  have hst := stored_lanes (n := n) (b := b.val) (i := i) (key := fun l => (peerKey s i p o l).getD 0)
    (fun l hl => peer_dvd (sizeOk_dvd hs) (hp l hl).1 (hp l hl).2) hwf
  generalize stcWrite s i n b p o = v at ht h1 h2
  obtain ⟨h3, h4⟩ := retire_stored (t := v) (i := i) (g := i.g) (s := s) (by rw [h1])
  exact ⟨_, congrArg Host.Outcome.next ht, h3, by rw [h4, h1]; exact hst, (h2.mono (by simp)).trans (retire_only v i i.g)⟩

end Peer

/-! ## ATC -/

theorem bit_foldl_lanes {L : List Nat} (hL : ∀ l ∈ L, l < 32) (m : W32) (k : Nat) :
    bit (L.foldl (fun m l => m ||| BitVec.ofNat 32 (2 ^ l)) m) k = true ↔ bit m k = true ∨ k ∈ L := by
  induction L generalizing m with
  | nil => simp
  | cons a L ih =>
    rw [List.foldl_cons, ih (fun l hl => hL l (by simp [hl])), bit_or, bit_one (hL a (by simp)), Bool.or_eq_true,
      decide_eq_true_eq, List.mem_cons, or_assoc, eq_comm (a := a)]

/-- The lanes of a mask put together from lanes are those. -/
theorem lanesOf_lanes (m : W32) : lanesOf ((lanesOf m).foldl (fun m l => m ||| BitVec.ofNat 32 (2 ^ l)) 0) = lanesOf m := by
  refine List.filter_congr fun k hk => ?_
  have hk : k < 32 := List.mem_range.1 hk
  have h := bit_foldl_lanes (L := lanesOf m) (fun l hl => (mem_lanesOf.1 hl).1) 0 k
  have h0 : ¬bit (0 : W32) k = true := by simp [bit]
  rw [mem_lanesOf, and_iff_right hk, or_iff_right h0] at h
  exact Bool.eq_iff_iff.2 h

theorem lmAtomics_congr {s : State} {i j : Iss} (hl : j.lanes = i.lanes) (hg : j.g = i.g) (key : Nat → Nat) (op : AtOp) (ty : AtTy)
    (d b c : Nat) : lmAtomics s j key op ty d b c = lmAtomics s i key op ty d b c := by
  unfold lmAtomics atLanes
  rw [hl, hg]

section Atc

variable {s : State} {r : SgRef} {i : Iss} (h : issue s r = some i) {op : AtOp} {ty : AtTy} {p o : Reg} (he : peerEntry s i = true)
  (hp : ∀ l ∈ i.lanes, peerOk i (atSize ty) p o l = true ∧ (peerKey s i p o l).isSome = true) (hf : atForm op ty = true)

include hp in
theorem atcPerform_all (d b c : Reg) : atcPerform s i op ty d b c p o =
    let t := lmAtomics s i (fun l => (peerKey s i p o l).getD 0) op ty d.val b.val c.val
    retire (drewN t.1 32) i t.2 := by
  have hmask : i.lanes.foldl (fun m l =>
      if (peerKey s i p o l).isSome then m ||| BitVec.ofNat 32 (2 ^ l) else m) 0 =
      i.lanes.foldl (fun m l => m ||| BitVec.ofNat 32 (2 ^ l)) 0 :=
    List.foldl_ext _ _ _ fun m l hl => by rw [if_pos (hp l hl).2]
  have hgone : (i.lanes.filter fun l => (peerKey s i p o l).isNone) = [] :=
    List.filter_eq_nil_iff.2 fun l hl => by simpa using Option.isSome_iff_ne_none.1 (hp l hl).2
  unfold atcPerform
  dsimp only
  rw [hmask, hgone, lmAtomics_congr (i := i) (j := { i with
    sub := { i.sub with mask := i.lanes.foldl (fun m l => m ||| BitVec.ofNat 32 (2 ^ l)) 0 } }) (lanesOf_lanes i.sub.mask) rfl]
  rfl

include h he hp hf

theorem doAtc_holds {d b c : Reg} {ord : Order} (hr : (releaseOrd s i ord).2 = none) :
    onCore s r (doAtc s r op ty d b c p o ord) = (releaseOrd s i ord).1 := by
  have hall := peers_ok hp
  rcases hu : releaseOrd s i ord with ⟨u, w⟩
  rw [hu] at hr
  obtain rfl : w = none := hr
  rw [onCore_issue h, doAtc, h]
  simp only [hf, hall, he, hu]
  rfl

theorem atcCombines (hm : memOk s = true) {d b c : Reg} {ord : Order} (hr : releaseOrd s i ord = (s, some ())) :
    Answers (.atc r ⟨op, ord⟩ ty d b c p o) s fun t => ∃ g f, Wrote i d.val (atSize ty / 4) f g ∧
      t.cores = { s.cores with groups := tset s.cores.groups i.key g, lm := t.cores.lm } ∧
      (atFloat ty = false →
        Combined i (fun l => (peerKey s i p o l).getD 0) op ty b.val c.val f s.cores.lm t.cores.lm) ∧
      Only [.cores, .free, .flt] s t := by
  have hall := peers_ok hp
  obtain ⟨-, -, hwf⟩ := (memOk_iff s).1 hm
  have ht : onCore s r (doAtc s r op ty d b c p o ord) = atcPerform s i op ty d b c p o := by
    rw [onCore_issue h, doAtc, h]
    simp only [hf, hall, he, hr]
    rfl
  obtain ⟨v, g, f, hat, hw, hc, hcomb, ho⟩ := lmAtomics_combined (s := s) (op := op)
    (key := fun l => (peerKey s i p o l).getD 0) d.val b.val c.val
    (fun l hl => peer_dvd (atSize_dvd ty) (hp l hl).1 (hp l hl).2) hwf
  rw [atcPerform_all hp, hat] at ht
  dsimp only at ht
  have hdr := drewN_only v 32
  have hdc : (drewN v 32).cores = v.cores := rfl
  generalize drewN v 32 = w at ht hdr hdc
  obtain ⟨h3, h4⟩ := retire_stored (t := w) (i := i) (g := g) (s := s) (by rw [hdc, hc])
  refine ⟨_, congrArg Host.Outcome.next ht, _, f, hw, h3, fun hfl => by rw [h4, hdc]; exact hcomb hfl,
    (ho.mono (by simp)).trans ((hdr.mono (by simp)).trans ((retire_only w i g).mono (by simp)))⟩

end Atc

end Sys2Proof.Machine
end

section
/-! Proofs: accesses of lanes through translation (spec/08 R247 to R256). -/

namespace Sys2Proof.Machine

/-! ## DEVICE_LOAD and DEVICE_STORE -/

section Device

variable {s : State} {r : SgRef} {i : Iss} (h : issue s r = some i) {n : Nat} {a : Reg}
  (hn : ∀ l ∈ i.lanes, devAddr i a l % n = 0) (hs : sizeOk n = true)

include h hn hs

theorem deviceLoads {u : State} {d : Reg} {ord : Order} {tbl : List (Nat × List Byte)} (ho : loadOrd ord = true)
    (hr : readLines (laneWho s i.b) s (devLines i a) = (u, some tbl)) : Answers (.deviceLoad r n d a ord) s fun t => ∃ g,
      Wrote i d.val (sizeRegs n)
        (fun l => leNat (slice ((tget tbl (devAddr i a l / 128)).getD []) (devAddr i a l % 128) n)) g ∧
      t = setGroup (went u i) i.key g := by
  have hall : (i.lanes.all fun l => devAddr i a l % n == 0) = true := List.all_eq_true.2 fun l hl => by simp [hn l hl]
  obtain ⟨g, hw, hg⟩ := retire_wrote u i d.val (sizeRegs n)
    fun l => leNat (slice ((tget tbl (devAddr i a l / 128)).getD []) (devAddr i a l % 128) n)
  have ht : onCore s r (doLoad s r n d a ord) = setGroup (went u i) i.key g := by
    rw [onCore_issue h, doLoad, h]
    simp only [hs, ho, hall, hr]
    exact hg
  exact ⟨_, congrArg Host.Outcome.next ht, g, hw, rfl⟩

variable {b : Reg} {ord : Order} {late : Bool} (ho : storeOrd ord = true)

include ho

theorem doStore_holds (hr : (releaseOrd s i ord).2 = none) : onCore s r (doStore s r n a b ord late) = (releaseOrd s i ord).1 := by
  have hall : (i.lanes.all fun l => devAddr i a l % n == 0) = true := List.all_eq_true.2 fun l hl => by simp [hn l hl]
  rcases hu : releaseOrd s i ord with ⟨u, w⟩
  rw [hu] at hr
  obtain rfl : w = none := hr
  rw [onCore_issue h, doStore, h]
  simp only [hs, ho, hall, hu]
  rfl

theorem doStore_now {v : State} (hr : releaseOrd s i ord = (s, some ()))
    (hv : vwriteAll s (laneWho s i.b) (storeWrites i n a b) = (v, true)) :
    onCore s r (doStore s r n a b ord false) = setGroup (went v i) i.key (passed i) := by
  have hall : (i.lanes.all fun l => devAddr i a l % n == 0) = true := List.all_eq_true.2 fun l hl => by simp [hn l hl]
  rw [onCore_issue h, doStore, h]
  simp only [hs, ho, hall, hr, hv]
  rfl

theorem doStore_late {v : State} (hr : releaseOrd s i ord = (s, some ()))
    (hv : storeLines i (storeWrites i n a b) s (devLines i a) = (v, some ())) :
    onCore s r (doStore s r n a b ord true) = setGroup (went v i) i.key (passed i) := by
  have hall : (i.lanes.all fun l => devAddr i a l % n == 0) = true := List.all_eq_true.2 fun l hl => by simp [hn l hl]
  rw [onCore_issue h, doStore, h]
  simp only [hs, ho, hall, hr, hv]
  rfl

end Device

/-! ## ATOM (R252 to R256) -/

section Places

variable (i : Iss) (op : AtOp) (ty : AtTy) (a b c : Reg) (w : Who) (lines : List (Nat × List (Tr × Nat)))

/-- Where the lanes' address lies. -/
def atomPlace (k : Nat) : List (Tr × Nat) := placeIn (k % 128) (atSize ty) ((tget lines (k / 128)).getD [])

/-- What the lanes of an address combine to, with the machine that has read it. -/
def atomAt (s : State) (k : Nat) : State × Nat × List (Nat × Nat) :=
  let r := readPieces w s (atomPlace ty lines k)
  (r.1, atCombine r.1.free op ty (leNat r.2) (atLanes i (devAddr i a) k (atSize ty) b.val c.val))

def atomStep (s : State) (k : Nat) : State :=
  writePieces w (drewN (atomAt i op ty a b c w lines s k).1 64) (atomPlace ty lines k)
    (toLE (atSize ty) (atomAt i op ty a b c w lines s k).2.1)

def atomOuts (s : State) (k : Nat) : List (Nat × Nat) := (atomAt i op ty a b c w lines s k).2.2

theorem atomPerform_eq (s : State) (d : Reg) : atomPerform s i op ty d a b c lines =
    retire ((ascending (i.lanes.map (devAddr i a))).foldl (atomStep i op ty a b c (laneWho s i.b) lines) s) i
      ((resultsOf (atomStep i op ty a b c (laneWho s i.b) lines) (atomOuts i op ty a b c (laneWho s i.b) lines) s
        (ascending (i.lanes.map (devAddr i a)))).foldl (fun g e => wrN g e.1 d.val e.2 (atSize ty / 4)) i.g) :=
  congrArg (fun t : State × Group => retire t.1 i t.2)
    (foldl_places (atomStep i op ty a b c (laneWho s i.b) lines) (atomOuts i op ty a b c (laneWho s i.b) lines)
      (fun g e => wrN g e.1 d.val e.2 (atSize ty / 4)) _ s i.g)

theorem atomOuts_lanes (s : State) (k : Nat) : (atomOuts i op ty a b c w lines s k).map (·.1) =
    i.lanes.filter fun l => devAddr i a l == k :=
  (atCombine_lanes _ _ _ _ _).trans (atLanes_lanes _ _ _ _ _ _)

theorem atomStep_only (s : State) (k : Nat) : Only [.fab, .free] s (atomStep i op ty a b c w lines s k) :=
  (readPieces_only w _ s).trans (((drewN_only _ 64).mono (by simp)).trans ((writePieces_only w _ _ _).mono (by simp)))

end Places

theorem lanes_nodup (i : Iss) : i.lanes.Nodup := (lanes_sorted i).imp Nat.ne_of_lt

/-- Atomics through translation give each lane a result. -/
theorem atomPerform_wrote (s : State) (i : Iss) (op : AtOp) (ty : AtTy) (d a b c : Reg) (lines : List (Nat × List (Tr × Nat))) :
    ∃ g f, Wrote i d.val (atSize ty / 4) f g ∧ tget (atomPerform s i op ty d a b c lines).cores.groups i.key = some g ∧
      (atomPerform s i op ty d a b c lines).cores.lm = s.cores.lm ∧
      ∀ l p w old, i.lanes = [l] → lines = [(devAddr i a l / 128, p)] →
        readPieces (laneWho s i.b) s (placeIn (devAddr i a l % 128) (atSize ty) p) = (w, old) →
        f l = leNat old ∧ atomPerform s i op ty d a b c lines =
          setGroup (went (writePieces (laneWho s i.b) (drewN w 64) (placeIn (devAddr i a l % 128) (atSize ty) p) (toLE (atSize ty)
            (atApply op ty (leNat old) (rdN i.g l b.val (atSize ty / 4)) (rdN i.g l c.val (atSize ty / 4))))) i) i.key g := by
  rw [atomPerform_eq]
  obtain ⟨hn, hlanes⟩ := resultsOf_lanes (atomOuts_lanes i op ty a b c (laneWho s i.b) lines)
    (ascending (i.lanes.map (devAddr i a))) (ascending_nodup _) s (step := atomStep i op ty a b c (laneWho s i.b) lines)
  have hin (l : Nat) : l ∈ (resultsOf (atomStep i op ty a b c (laneWho s i.b) lines) (atomOuts i op ty a b c (laneWho s i.b) lines)
      s
      (ascending (i.lanes.map (devAddr i a)))).map (·.1) ↔ l ∈ i.lanes := by
    rw [hlanes, mem_ascending, and_iff_left_iff_imp]
    exact fun hl => List.mem_map_of_mem hl
  have hfold := Only.foldl (ps := [.fab, .free]) (atomStep_only i op ty a b c (laneWho s i.b) lines)
    (ascending (i.lanes.map (devAddr i a))) s
  refine ⟨_, _, wrote_results hn hin d.val _, retire_group _ _ _, ?_, fun l p w old hl hp hr => ?_⟩
  · rw [retire_cores, hfold .cores (by decide)]
  · have hat : atomAt i op ty a b c (laneWho s i.b) lines s (devAddr i a l) = (w,
        atApply op ty (leNat old) (rdN i.g l b.val (atSize ty / 4)) (rdN i.g l c.val (atSize ty / 4)), [(l, leNat old)]) := by
      unfold atomAt atomPlace
      rw [hp, tget, if_pos rfl, Option.getD_some, hr]
      dsimp only
      rw [show atLanes i (devAddr i a) (devAddr i a l) (atSize ty) b.val c.val =
        [(l, rdN i.g l b.val (atSize ty / 4), rdN i.g l c.val (atSize ty / 4))] by unfold atLanes; rw [hl]; simp, atCombine_single]
    have hplace : atomPlace ty lines (devAddr i a l) = placeIn (devAddr i a l % 128) (atSize ty) p := by
      rw [atomPlace, hp, tget, if_pos rfl, Option.getD_some]
    have hks : ascending (i.lanes.map (devAddr i a)) = [devAddr i a l] := by rw [hl]; rfl
    have hres : resultsOf (atomStep i op ty a b c (laneWho s i.b) lines) (atomOuts i op ty a b c (laneWho s i.b) lines) s
        (ascending (i.lanes.map (devAddr i a))) = [(l, leNat old)] := by
      rw [hks, resultsOf, resultsOf, atomOuts, hat]
      rfl
    constructor
    · rw [hres]
      simp [resultOf]
    · rw [hks, List.foldl_cons, List.foldl_nil, atomStep, hat, hplace]
      rfl

section Atom

variable {s : State} {r : SgRef} {i : Iss} (h : issue s r = some i) {op : AtOp} {ty : AtTy} {a : Reg} (hf : atForm op ty = true)
  (hn : ∀ l ∈ i.lanes, devAddr i a l % atSize ty = 0)

include h hf hn

theorem doAtom_holds {d b c : Reg} {ord : Order} (hr : (releaseOrd s i ord).2 = none) :
    onCore s r (doAtom s r op ty d a b c ord) = (releaseOrd s i ord).1 := by
  have hall : (i.lanes.all fun l => devAddr i a l % atSize ty == 0) = true := List.all_eq_true.2 fun l hl => by simp [hn l hl]
  rcases hu : releaseOrd s i ord with ⟨u, w⟩
  rw [hu] at hr
  obtain rfl : w = none := hr
  rw [onCore_issue h, doAtom, h]
  simp only [hf, hall, hu]
  rfl

theorem doAtom_performs {u : State} {d b c : Reg} {ord : Order} {ps : List (Nat × List (Tr × Nat))}
    (hr : releaseOrd s i ord = (s, some ())) (hp : reachAtoms (laneWho s i.b) s (devLines i a) = (u, some ps))
    (hh : atHost op ty = true ∨ ∀ p ∈ ps, isHost p.2 = false) :
    onCore s r (doAtom s r op ty d a b c ord) = atomPerform u i op ty d a b c ps := by
  have hall : (i.lanes.all fun l => devAddr i a l % atSize ty == 0) = true := List.all_eq_true.2 fun l hl => by simp [hn l hl]
  rw [onCore_issue h, doAtom, h]
  simp only [hf, hall, hr, hp]
  refine (if_neg (by simp)).trans ((if_neg (by simp)).trans (if_neg ?_))
  rintro ⟨h1, h2⟩
  obtain ⟨p, hpm, hpp⟩ := List.any_eq_true.1 h2
  rcases hh with hh | hh
  · simp [hh] at h1
  · rw [hh p hpm] at hpp
    cases hpp

end Atom

theorem reachAtoms_some {w : Who} {ks : List Nat} {s u : State} {ps : List (Nat × List (Tr × Nat))}
    (h : reachAtoms w s ks = (u, some ps)) : Only [.mmu, .free] s u := by
  induction ks generalizing s ps with
  | nil =>
    obtain ⟨rfl, -⟩ := Prod.mk.inj h
    exact .refl _ s
  | cons k ks ih =>
    rw [reachAtoms] at h
    split at h
    · cases h
    · rename_i hk
      split at h
      · rename_i hr
        obtain ⟨rfl, -⟩ := Prod.mk.inj h
        exact (reach_some hk).only.trans (ih hr)
      · cases h

theorem laneWho_congr {s u : State} (hc : u.cores = s.cores) (hr : u.ras = s.ras) (b : Block) : laneWho u b = laneWho s b := by
  unfold laneWho ctxOfBlock slotOfBlock
  rw [hc, hr]

end Sys2Proof.Machine

open Sys2Proof Sys2Proof.Machine

/-- Settles O53: lanes store and combine at aligned places, which are equal or apart; an access through translation is what its
lines give. -/
theorem accessesOfLanes : Obligations.AccessesOfLanes := by
  intro s r i h hm
  dsimp only
  refine ⟨?_, ?_, ?_, ?_, ?_, ?_, ?_, ?_, ?_⟩
  · exact fun n d a ord hs ho hn => lmLoads h hs ho hn
  · exact fun n a b ord hs ho hn => ⟨lmStores h hm hs ho hn, fun hr =>
      congrArg Host.Outcome.next (doLm_holds h (by simp [lmForm, hs, ho]) hn hr)⟩
  · exact fun op ty d a b c ord hf hn => ⟨lmAtoms h hm hf hn, fun hr =>
      congrArg Host.Outcome.next (doLm_holds h (by simp [lmForm, hf]) hn hr)⟩
  · exact fun n d p o ord hs ho hp => ldcLoads h hp.1 hp.2 hs ho
  · exact fun n b p o ord hs ho hp => ⟨stcStores h hp.1 hp.2 hm hs ho, fun hr =>
      congrArg Host.Outcome.next (doStc_holds h hp.1 hp.2 hs ho hr)⟩
  · exact fun op ty d b c p o ord hf hp => ⟨atcCombines h hp.1 hp.2 hf hm, fun hr =>
      congrArg Host.Outcome.next (doAtc_holds h hp.1 hp.2 hf hr)⟩
  · exact fun n d a ord u tbl hs ho hn hr => deviceLoads h hn hs ho hr
  · exact fun n a b ord v hs ho hn => ⟨fun hv => ⟨fun hr => ⟨_, congrArg Host.Outcome.next (doStore_now h hn hs ho hr hv), rfl⟩,
        fun hr => congrArg Host.Outcome.next (doStore_holds h hn hs ho hr)⟩,
      fun hv => ⟨fun hr => ⟨_, congrArg Host.Outcome.next (doStore_late h hn hs ho hr hv), rfl⟩,
        fun hr => congrArg Host.Outcome.next (doStore_holds h hn hs ho hr)⟩⟩
  · intro op ty d a b c ord u ps hf hn hp hh
    refine ⟨fun hr => ?_, fun hr => congrArg Host.Outcome.next (doAtom_holds h hf hn hr)⟩
    have ho := reachAtoms_some hp
    have hcores : u.cores = s.cores := ho .cores (by decide)
    obtain ⟨g, f, h1, h2, h3, h4⟩ := atomPerform_wrote u i op ty d a b c ps
    rw [laneWho_congr hcores (ho .ras (by decide))] at h4
    exact ⟨_, congrArg Host.Outcome.next (doAtom_performs h hf hn hr hp hh), g, f, h1, h2, by rw [h3, hcores], h4⟩

end

section
/-! Proofs: frames that a logical port receives (spec/15 R461 to R463). -/

namespace Sys2Proof.Machine

/-! ## What a port reads of a frame -/

theorem parseFrame_congr {s t : State} (h : t.circ = s.circ) (l : Nat) (f : List Byte) : parseFrame t l f = parseFrame s l f := by
  unfold parseFrame portMac portIp4 portIp6
  rw [h]

theorem asArp_congr {s t : State} (h : t.circ = s.circ) (l : Nat) (f : List Byte) : asArp t l f = asArp s l f := by
  unfold asArp portMac portIp4
  rw [h]

theorem asSolicit_congr {s t : State} (h : t.circ = s.circ) (l : Nat) (f : List Byte) : asSolicit t l f = asSolicit s l f := by
  unfold asSolicit solicits solicitedMac solicitedIp portMac portIp6
  rw [h]

theorem matchStream_congr {s t : State} (h : t.circ = s.circ) (l : Nat) (d : Dgram) (sid : Nat) :
    matchStream t l d sid = matchStream s l d sid := by
  unfold matchStream
  rw [h]

/-- A count of dropped frames that has advanced by one. -/
def Drops (s : State) (l k : Nat) (t : State) : Prop :=
  t.circ.drops = tset s.circ.drops (8 * l + k) (min 0xFFFFFFFF (tgetD s.circ.drops (8 * l + k) 0 + 1)) ∧
  t.circ.streams = s.circ.streams ∧ Only [.circ, .flt] s t

/-- A frame that is dropped once its port has been seen to move. -/
theorem dropFrame_drops {s u : State} (h : Only [.flt] s u) (l k : Nat) : Drops s l k (dropFrame u l k) := by
  have hc : u.circ = s.circ := h .circ (by decide)
  refine ⟨?_, ?_, (h.mono (by simp)).trans fun p hp => by cases p <;> first | (simp at hp; done) | rfl⟩
  · rw [← hc]
    rfl
  · rw [← hc]
    rfl

section Receive

variable {s : State} {l : Fin 8} {f : List Byte} (hl : hasLink s l.val = true) (hon : IsOn s (113 + l.val / 4))

include hl hon

theorem frameReceive_bad : frameReceive s l.val false f = dropFrame (moves s (portRef l.val)) l.val 0 := by
  unfold frameReceive
  rw [if_neg (by simp [hl]), domCirc, reachDom_on hon]
  rfl

theorem frameReceive_foreign (h1 : parseFrame s l.val f = none) (h2 : asArp s l.val f = none) (h3 : asSolicit s l.val f = none) :
    frameReceive s l.val true f = dropFrame (moves s (portRef l.val)) l.val 1 := by
  have hc : (moves s (portRef l.val)).circ = s.circ := moves_only s _ .circ (by decide)
  unfold frameReceive
  rw [if_neg (by simp [hl]), domCirc, reachDom_on hon]
  simp only [parseFrame_congr hc, asArp_congr hc, asSolicit_congr hc, h1, h2, h3]
  rfl

theorem frame_bad : Drops s l.val 0 (frameReceive s l.val false f) := by
  rw [frameReceive_bad hl hon]
  exact dropFrame_drops (moves_only s _) _ _

theorem frame_foreign (h1 : parseFrame s l.val f = none) (h2 : asArp s l.val f = none) (h3 : asSolicit s l.val f = none) :
    Drops s l.val 1 (frameReceive s l.val true f) := by
  rw [frameReceive_foreign hl hon h1 h2 h3]
  exact dropFrame_drops (moves_only s _) _ _

theorem frameReceive_admits {d : Dgram} (h : parseFrame s l.val f = some d) :
    frameReceive s l.val true f = ringAdmit (moves s (portRef l.val)) l.val d := by
  have hc : (moves s (portRef l.val)).circ = s.circ := moves_only s _ .circ (by decide)
  unfold frameReceive
  rw [if_neg (by simp [hl]), domCirc, reachDom_on hon]
  simp only [parseFrame_congr hc, h]
  rfl

end Receive

/-! ## Authentication and delivery (R461, R462) -/

/-- The stream when a packet under a key has been seen. -/
def seenOn (x : Stream) (keyId seq : Nat) : Stream :=
  { x with rxKeys := x.rxKeys.map fun y => if y.key.keyId = keyId then windowAfter y seq else y }

section Admit

variable {u : State} {l : Nat} {d : Dgram} {n : Nat} {x : Stream} {k : RxKey} (h1 : 40 ≤ d.body.length)
  (h2 : d.body.length ≤ 2056) (h3 : (d.body.getD 0 0).toNat / 16 = 1) (h4 : 3 ≤ (d.body.getD 0 0).toNat % 16)
  (h5 : (d.body.getD 0 0).toNat % 16 ≤ 5) (hm : matchStream u l d (beNat (slice d.body 4 4)) = some (n, x))
  (hk : x.rxKeys.find? (fun y => y.key.keyId = (d.body.getD 1 0).toNat) = some k)

include h1 h2 h3 h4 h5 hm hk

theorem ringAdmit_fails (hg : gcmOpen k.key.key (packetIv k.key.salt (beNat (slice d.body 4 4)) (beNat (slice d.body 8 4)))
      (d.body.take 24) ((d.body.drop 24).take (d.body.length - 40)) (d.body.drop (d.body.length - 16)) = none) :
    ringAdmit u l d = dropFrame u l 5 := by
  unfold ringAdmit
  dsimp only
  rw [if_neg (by omega)]
  simp only [hm, hk, hg]

variable {pt : List Byte} (hg : gcmOpen k.key.key (packetIv k.key.salt (beNat (slice d.body 4 4)) (beNat (slice d.body 8 4)))
    (d.body.take 24) ((d.body.drop 24).take (d.body.length - 40)) (d.body.drop (d.body.length - 16)) = some pt)

include hg

theorem ringAdmit_opens : ringAdmit u l d = if replayed k (beNat (slice d.body 8 4)) then dropFrame u l 6 else
    deliver (putStream u n (seenOn x (d.body.getD 1 0).toNat (beNat (slice d.body 8 4)))) l n
      (seenOn x (d.body.getD 1 0).toNat (beNat (slice d.body 8 4))) d ((d.body.getD 0 0).toNat % 16) (beNat (slice d.body 8 4))
      (d.body.getD 1 0).toNat pt := by
  unfold ringAdmit
  dsimp only
  rw [if_neg (by omega)]
  simp only [hm, hk, hg]
  rfl

end Admit

theorem useAck_keeps (x : Stream) (pt : List Byte) : (useAck x pt).rings = x.rings ∧ (useAck x pt).rxKeys = x.rxKeys := by
  unfold useAck
  dsimp only
  split <;> exact ⟨rfl, rfl⟩

/-- The stream with the packet in its ring, and what an ACK told it. -/
def deliveredOn (t : Stream) (r : SRing) (type : Nat) (pt : List Byte) : Stream :=
  let y := { t with rings := tset t.rings (ringKind type) { r with w := r.w + 1 } }
  if type = 3 then useAck y pt else y

theorem deliveredOn_fields (t : Stream) (r : SRing) (type : Nat) (pt : List Byte) :
    (deliveredOn t r type pt).rings = tset t.rings (ringKind type) { r with w := r.w + 1 } ∧
    (deliveredOn t r type pt).rxKeys = t.rxKeys := by
  unfold deliveredOn
  dsimp only
  split
  · exact useAck_keeps _ pt
  · exact ⟨rfl, rfl⟩

/-- A packet that its ring has room for is written there, and its fence is signalled. -/
theorem deliver_written {s u : State} {l n type seq keyId : Nat} {t : Stream} {d : Dgram} {pt : List Byte} {r : SRing}
    (hr : tget t.rings (ringKind type) = some r) (h1 : r.w - r.c ≠ r.entries) (h2 : (r.w + 2 ^ 64 - r.c) % 2 ^ 64 ≠ r.entries)
    (hw : vwrite s { asid := t.ctx, slot := none, site := .port (l / 4) } (r.base.toNat + 2048 * (r.w % r.entries))
      (ingressHeader s.hoop.time seq l d.ecn keyId type pt.length ++ pt) = (u, true)) :
    deliver s l n t d type seq keyId pt =
      signalHandle (putStream u n (deliveredOn t r type pt)) r.fence.toNat (BitVec.ofNat 64 (r.w + 1)) := by
  unfold deliver
  rw [hr]
  simp only [if_neg h1, if_neg h2, hw]
  rfl

section Deliver

variable {s v u : State} {l n : Nat} {x y : Stream} {r : SRing} {kind : Nat} {w : W64}
  (hv : Only [.circ, .flt] s v) (hcv : v.circ = { s.circ with streams := tset s.circ.streams n x })
  (hu : Only [.mmu, .fab, .free] v u)

include hv hcv hu

/-- What a delivery leaves: the stream in its place, the other streams and the counts of dropped frames. -/
theorem delivered_leaves (h : Nat) :
    let t := signalHandle (putStream u n y) h w
    (∀ e, lookup s.obj 3 h = .error e → t.fab = u.fab) ∧ tget t.circ.streams n = some y ∧
    (∀ m, m ≠ n → tget t.circ.streams m = tget s.circ.streams m) ∧ t.circ.drops = s.circ.drops := by
  dsimp only
  have huc : u.circ = { s.circ with streams := tset s.circ.streams n x } := (hu .circ (by decide)).trans hcv
  have hobj : (putStream u n y).obj = s.obj := (hu .obj (by decide)).trans (hv .obj (by decide))
  have hfab : (putStream u n y).fab = u.fab := rfl
  have hput : (putStream u n y).circ = { u.circ with streams := tset u.circ.streams n y } := rfl
  generalize putStream u n y = p at hobj hfab hput
  have hs : (signalHandle p h w).circ = p.circ := signalHandle_only p _ _ .circ (by decide)
  refine ⟨fun e he => ?_, ?_, fun m hm => ?_, ?_⟩
  · unfold signalHandle
    rw [hobj, he]
    exact hfab
  · rw [hs, hput]
    exact tget_tset_same _ _ _
  · rw [hs, hput, huc]
    exact (tget_tset_other _ _ hm).trans (tget_tset_other _ _ hm)
  · rw [hs, hput, huc]

end Deliver

section Admitted

variable {s : State} {l : Fin 8} {f : List Byte} (hl : hasLink s l.val = true) (hon : IsOn s (113 + l.val / 4)) {d : Dgram}
  {n : Nat} {x : Stream} {k : RxKey} (hp : parseFrame s l.val f = some d) (h1 : 40 ≤ d.body.length)
  (h2 : d.body.length ≤ 2056) (h3 : (d.body.getD 0 0).toNat / 16 = 1) (h4 : 3 ≤ (d.body.getD 0 0).toNat % 16)
  (h5 : (d.body.getD 0 0).toNat % 16 ≤ 5) (hm : matchStream s l.val d (beNat (slice d.body 4 4)) = some (n, x))
  (hk : x.rxKeys.find? (fun y => y.key.keyId = (d.body.getD 1 0).toNat) = some k)

include hl hon hp h1 h2 h3 h4 h5 hm hk

theorem frame_fails (hg : gcmOpen k.key.key (packetIv k.key.salt (beNat (slice d.body 4 4)) (beNat (slice d.body 8 4)))
      (d.body.take 24) ((d.body.drop 24).take (d.body.length - 40)) (d.body.drop (d.body.length - 16)) = none) :
    Drops s l.val 5 (frameReceive s l.val true f) := by
  have hc : (moves s (portRef l.val)).circ = s.circ := moves_only s _ .circ (by decide)
  rw [frameReceive_admits hl hon hp, ringAdmit_fails h1 h2 h3 h4 h5 ((matchStream_congr hc _ _ _).trans hm) hk hg]
  exact dropFrame_drops (moves_only s _) _ _

variable {pt : List Byte} (hg : gcmOpen k.key.key (packetIv k.key.salt (beNat (slice d.body 4 4)) (beNat (slice d.body 8 4)))
    (d.body.take 24) ((d.body.drop 24).take (d.body.length - 40)) (d.body.drop (d.body.length - 16)) = some pt)

include hg

theorem frame_replayed (hr : replayed k (beNat (slice d.body 8 4)) = true) : Drops s l.val 6 (frameReceive s l.val true f) := by
  have hc : (moves s (portRef l.val)).circ = s.circ := moves_only s _ .circ (by decide)
  rw [frameReceive_admits hl hon hp, ringAdmit_opens h1 h2 h3 h4 h5 ((matchStream_congr hc _ _ _).trans hm) hk hg, if_pos hr]
  exact dropFrame_drops (moves_only s _) _ _

theorem frame_delivered (hr : replayed k (beNat (slice d.body 8 4)) = false) {r : SRing} {u : State}
    (hring : tget x.rings (ringKind ((d.body.getD 0 0).toNat % 16)) = some r) (hw : r.w - r.c ≠ r.entries)
    (hw' : (r.w + 2 ^ 64 - r.c) % 2 ^ 64 ≠ r.entries)
    (hu : vwrite (putStream (moves s (portRef l.val)) n (seenOn x (d.body.getD 1 0).toNat (beNat (slice d.body 8 4))))
      { asid := x.ctx, slot := none, site := .port (l.val / 4) } (r.base.toNat + 2048 * (r.w % r.entries))
      (ingressHeader s.hoop.time (beNat (slice d.body 8 4)) l.val d.ecn (d.body.getD 1 0).toNat ((d.body.getD 0 0).toNat % 16)
        pt.length ++ pt) = (u, true)) :
    let t := frameReceive s l.val true f
    (∀ e, lookup s.obj 3 r.fence.toNat = .error e → t.fab = u.fab) ∧
    ∃ y z, tget t.circ.streams n = some y ∧ tget y.rings (ringKind ((d.body.getD 0 0).toNat % 16)) = some z ∧ z.w = r.w + 1 ∧
      y.rxKeys = (seenOn x (d.body.getD 1 0).toNat (beNat (slice d.body 8 4))).rxKeys ∧ z.base = r.base ∧
      z.entries = r.entries ∧ z.head = r.head ∧ z.fence = r.fence ∧
      (∀ m, m ≠ n → tget t.circ.streams m = tget s.circ.streams m) ∧ t.circ.drops = s.circ.drops := by
  have hmv := moves_only s (portRef l.val)
  have hc : (moves s (portRef l.val)).circ = s.circ := hmv .circ (by decide)
  dsimp only
  rw [frameReceive_admits hl hon hp, ringAdmit_opens h1 h2 h3 h4 h5 ((matchStream_congr hc _ _ _).trans hm) hk hg,
    if_neg (by simp [hr])]
  generalize moves s (portRef l.val) = m at hmv hc hu
  have hseen : tget (seenOn x (d.body.getD 1 0).toNat (beNat (slice d.body 8 4))).rings
      (ringKind ((d.body.getD 0 0).toNat % 16)) = some r := hring
  generalize hx : seenOn x (d.body.getD 1 0).toNat (beNat (slice d.body 8 4)) = z at hseen hu
  have hctx : z.ctx = x.ctx := by rw [← hx]; rfl
  have hput : Only [.circ, .flt] s (putStream m n z) := (hmv.mono (by simp)).trans fun p hp => by
    cases p <;> first | (simp at hp; done) | rfl
  have hpc : (putStream m n z).circ = { s.circ with streams := tset s.circ.streams n z } := by rw [← hc]; rfl
  have htime : (putStream m n z).hoop.time = s.hoop.time := congrArg Hoop.time (hput .hoop (by decide))
  generalize putStream m n z = v at hput hpc htime hu
  rw [← htime, ← hctx] at hu
  rw [deliver_written hseen hw hw' hu]
  obtain ⟨hy1, hy2⟩ := deliveredOn_fields z r ((d.body.getD 0 0).toNat % 16) pt
  generalize deliveredOn z r ((d.body.getD 0 0).toNat % 16) pt = y at hy1 hy2
  obtain ⟨ha, hb, hd, he⟩ := delivered_leaves (y := y) (w := BitVec.ofNat 64 (r.w + 1)) hput hpc (vwrite_true hu) r.fence.toNat
  exact ⟨ha, y, { r with w := r.w + 1 }, hb, by rw [hy1]; exact tget_tset_same _ _ _, rfl, hy2, rfl, rfl, rfl, rfl, hd, he⟩

end Admitted

theorem frame_answers {s : State} {l : Fin 8} {fcs : Bool} {f : List Byte} {P : State → Prop}
    (h : P (frameReceive s l.val fcs f)) : Answers (.frameReceive ⟨l, .none⟩ fcs f) s P := ⟨_, rfl, h⟩

end Sys2Proof.Machine

open Sys2Proof Sys2Proof.Machine

/-- Settles O35: the checks of R461 are made in order, and the packet that passes them is written to its stream's ring. -/
theorem framesAreDeliveredOrCounted : Obligations.FramesAreDeliveredOrCounted := by
  intro s l f hl hon
  dsimp only
  refine ⟨frame_answers (frame_bad hl hon), fun h1 h2 h3 => frame_answers (frame_foreign hl hon h1 h2 h3),
    fun d n x k r hp h1 h2 h3 h4 h5 hm hk hring hw hw' => frame_answers ?_⟩
  split
  · rename_i hg
    exact frame_fails hl hon hp h1 h2 h3 h4 h5 hm hk hg
  · rename_i pt hg
    split
    · rename_i hr
      exact frame_replayed hl hon hp h1 h2 h3 h4 h5 hm hk hg hr
    · rename_i hr
      exact fun u hu => frame_delivered hl hon hp h1 h2 h3 h4 h5 hm hk hg (by simpa using hr) hring hw hw' hu

end

section
/-! Proofs: messages through the pacing queue (spec/15 R452 to R460). -/

namespace Sys2Proof.Machine

theorem putStream_only (s : State) (n : Nat) (z : Stream) : Only [.circ] s (putStream s n z) := fun p hp => by
  cases p <;> first | (simp at hp; done) | rfl

/-! ## SEND (R452) -/

/-- The SEND that a descriptor starts on a stream. -/
def newSend (q : Nat) (i : W32) (n : Nat) (z : Stream) (k : SKey) (w : W512) : SendRun :=
  { q := q, i := i, stream := n, pay := w, key := k, seq := z.seq, replaced := false, msg := z.msg,
    bytes := sendBytes z w, nfrag := sendFrags z (sendBytes z w), frag := 0, group := [], built := 0 }

/-- A SEND added, with the stream's next message taken. -/
def addSend (s : State) (n : Nat) (z : Stream) (r : SendRun) : State :=
  let u := putStream s n { z with msg := z.msg + 1 }
  { u with circ := { u.circ with sends := u.circ.sends ++ [r] } }

theorem addSend_leaves (s : State) (n : Nat) (z : Stream) (r : SendRun) :
    (addSend s n z r).circ = { s.circ with
      streams := tset s.circ.streams n { z with msg := z.msg + 1 }, sends := s.circ.sends ++ [r] } ∧
    Only [.circ] s (addSend s n z r) :=
  ⟨rfl, fun p hp => by cases p <;> first | (simp at hp; done) | rfl⟩

theorem startSend_adds {s u : State} {q n : Nat} {i : W32} {x y : Queue} {d : Desc} {w : W512} {be : Bool} {z : Stream} {k : SKey}
    (hx : getQ s q = some x) (hd : recOf x i = some d) (hn : bits d.pay 231 224 = n)
    (hs : (s.circ.sends.any fun r => r.stream = n) = false) (he : sendEarlier s q i n = false)
    (hb : beginWork s q i none 0x70 = (u, .go y w be)) (hz : tget u.circ.streams n = some z) (hk : z.eKey = some k) :
    startSend s q i = markStarted (addSend u n z (newSend q i n z k w)) q i none := by
  unfold startSend
  rw [hx, Option.bind_some, hd]
  dsimp only
  rw [hn, hs, he]
  simp only [hb, hz, Option.bind_some, hk]
  rfl

theorem sendStarts {s u : State} {q : Fin 8193} {n : Nat} {i : W32} {x y : Queue} {d : Desc} {w : W512} {be : Bool} {z : Stream}
    {k : SKey} (hx : getQ s q.val = some x) (hd : recOf x i = some d) (hn : bits d.pay 231 224 = n)
    (hs : (s.circ.sends.any fun r => r.stream = n) = false) (he : sendEarlier s q.val i n = false)
    (hb : beginWork s q.val i none 0x70 = (u, .go y w be)) (hz : tget s.circ.streams n = some z) (hk : z.eKey = some k) :
    Answers (.send q i) s fun t => ∃ r : SendRun, t.circ.sends = s.circ.sends ++ [r] ∧ r.q = q.val ∧ r.i = i ∧ r.stream = n ∧
      r.msg = z.msg ∧ r.seq = z.seq ∧ r.key = k ∧ r.frag = 0 ∧ r.bytes = sendBytes z w ∧ r.nfrag = sendFrags z (sendBytes z w) ∧
      tget t.circ.streams n = some { z with msg := z.msg + 1 } ∧ WorkAt ⟨q, i, none⟩ .started t ∧
      (∀ m, m ≠ n → tget t.circ.streams m = tget s.circ.streams m) := by
  obtain ⟨hbeg, hat⟩ := beginWork_begun (w := ⟨q, i, none⟩) hb
  have hc : u.circ = s.circ := hbeg.only .circ (by decide)
  have ht := startSend_adds hx hd hn hs he hb (by rw [hc]; exact hz) hk
  obtain ⟨h1, h2⟩ := addSend_leaves u n z (newSend q.val i n z k w)
  generalize addSend u n z (newSend q.val i n z k w) = v at ht h1 h2
  have hw := markStarted_at (hat.congr (t := v) (h2 .obj (by decide)) (h2 .regs (by decide)))
  have hm : (markStarted v q.val i none).circ = v.circ := markStarted_only v q.val i none .circ (by decide)
  refine ⟨_, congrArg Host.Outcome.next ht, newSend q.val i n z k w, ?_, rfl, rfl, rfl, rfl, rfl, rfl, rfl, rfl, rfl, ?_, hw,
    fun m hmn => ?_⟩
  · rw [hm, h1, hc]
  · rw [hm, h1]
    exact tget_tset_same _ _ _
  · rw [hm, h1, hc]
    exact tget_tset_other _ _ hmn

/-! ## PACKET_ENQUEUE (R452, R453) -/

/-- A packet's frame depends on the ports' addresses. -/
theorem packetOf_congr {s t : State} (h : t.circ.addr = s.circ.addr) (z : Stream) (reg : List Byte) :
    packetOf t z reg = packetOf s z reg := by
  unfold packetOf frameOf portIp4 portIp6 portMac
  rw [h]

theorem engineStep_leaves (s : State) (r : SendRun) : (engineStep s r).circ = { s.circ with
      sends := (engineNext s).2, engine := if sendFirst s r then s.circ.engine else (r.q + 1) % 8192 } ∧
    Only [.circ] s (engineStep s r) :=
  ⟨rfl, fun p hp => by cases p <;> first | (simp at hp; done) | rfl⟩

theorem enqueue_leaves (s : State) (z : Stream) (r : SendRun) (reg : List Byte) :
    let y := { z with pq := z.pq ++ [packetOf s z reg], seq := if r.replaced then z.seq else r.seq + 1 }
    (enqueue s z r reg).circ = { s.circ with
      streams := tset s.circ.streams r.stream y
      sends := s.circ.sends.map fun x => if x.stream = r.stream then { r with seq := r.seq + 1 } else x } ∧
    Only [.circ] s (enqueue s z r reg) :=
  ⟨rfl, fun p hp => by cases p <;> first | (simp at hp; done) | rfl⟩

theorem sendEnd_only (s : State) (z : Stream) (r : SendRun) : Only [.obj] s (sendEnd s z r) :=
  .ite (fun _ => finishWork_only _ _ _ _ _) fun _ => .refl _ s

/-- What the send engine leaves of a packet: it is in its stream's queue, and its SEND goes on from the next SEQ. -/
theorem built_leaves {s b : State} {n : Nat} {z : Stream} {r r' : SendRun} {reg : List Byte} {eng : Nat}
    (hs : b.circ.streams = s.circ.streams) (ha : b.circ.addr = s.circ.addr) (he : b.circ.engine = eng) (hn : r'.stream = n)
    (hq : r'.seq = r.seq) (hr : r'.replaced = r.replaced) :
    let t := sendEnd (enqueue b z r' reg) z r'
    ((∃ y, tget t.circ.streams n = some y ∧ y.pq = z.pq ++ [packetOf s z reg] ∧
        y.seq = (if r.replaced then z.seq else r.seq + 1) ∧ y.msg = z.msg) ∧
      t.circ.engine = eng ∧ (∀ m, m ≠ n → tget t.circ.streams m = tget s.circ.streams m)) ∧
    (∀ e ∈ t.circ.sends, e.stream = n → e.seq = r.seq + 1 ∧ e.frag = r'.frag ∧ e.group = r'.group) ∧
    Only [.circ, .obj] b t := by
  obtain ⟨h1, h2⟩ := enqueue_leaves b z r' reg
  have h3 := sendEnd_only (enqueue b z r' reg) z r'
  have hc : (sendEnd (enqueue b z r' reg) z r').circ = (enqueue b z r' reg).circ := h3 .circ (by decide)
  dsimp only
  rw [hc, h1, packetOf_congr ha, hn, hs, hq, hr]
  refine ⟨⟨⟨_, tget_tset_same _ _ _, rfl, rfl, rfl⟩, he, fun m hm => tget_tset_other _ _ hm⟩, fun e hm hen => ?_,
    (h2.mono (by simp)).trans (h3.mono (by simp))⟩
  obtain ⟨e', -, rfl⟩ := List.mem_map.1 hm
  by_cases h : e'.stream = n
  · rw [if_pos h]
    exact ⟨rfl, rfl, rfl⟩
  · rw [if_neg h] at hen
    exact absurd hen h

section Enqueue

variable {s : State} {n : Nat} {z : Stream} {r : SendRun} {x : Queue} (hr : (engineNext s).1 = some r) (hn : r.stream = n)
  (hz : tget s.circ.streams n = some z) (hx : getQ s r.q = some x)

/-- The machine when the send engine takes up a packet. -/
def engineAt (s : State) (r : SendRun) : State := moves (engineStep s r) .device

theorem engineAt_leaves (s : State) (r : SendRun) : (engineAt s r).circ = { s.circ with
      sends := (engineNext s).2, engine := if sendFirst s r then s.circ.engine else (r.q + 1) % 8192 } ∧
    Only [.circ, .flt] s (engineAt s r) := by
  obtain ⟨h1, h2⟩ := engineStep_leaves s r
  have h3 := moves_only (engineStep s r) .device
  exact ⟨(h3 .circ (by decide)).trans h1, (h2.mono (by simp)).trans (h3.mono (by simp))⟩

include hr hn hz hx

theorem packetEnqueue_parity (hg : groupFull z r = true) : packetEnqueue s n =
    let sid := sfield z 815 784
    let reg := region r.key sid r.seq (folio 2 r.key.keyId r.group.length sid r.seq r.msg.toNat (r.frag - r.group.length)
      r.nfrag r.bytes) (parityText r.group)
    sendEnd (enqueue (engineAt s r) z { r with group := [], built := 0 } reg) z { r with group := [], built := 0 } := by
  unfold packetEnqueue
  rw [hr]
  dsimp only
  rw [if_neg (not_not.2 hn), hz, hx]
  dsimp only
  rw [if_pos hg]
  rfl

theorem packetEnqueue_data (hg : groupFull z r = false) {u : State} {pt : List Byte}
    (hv : vread (engineAt s r) (feWho (engineAt s r) r.q x) (bits r.pay 191 128 + r.frag * payMax z) (fragLen z r) = (u, some pt)) :
    packetEnqueue s n =
    let sid := sfield z 815 784
    let reg := region r.key sid r.seq (folio 1 r.key.keyId (bits r.pay 239 232) sid r.seq r.msg.toNat r.frag r.nfrag r.bytes) pt
    let r' := { r with frag := r.frag + 1, built := 0, group := if sfield z 575 570 = 0 then [] else r.group ++ [reg] }
    sendEnd (enqueue u z r' reg) z r' := by
  rw [engineAt] at hv
  unfold packetEnqueue
  rw [hr]
  dsimp only
  rw [if_neg (not_not.2 hn), hz, hx]
  dsimp only
  rw [if_neg (by simp [hg])]
  simp only [hv]

end Enqueue

/-! ## PACKET_DEPART (R456) -/

theorem fillPort_only (s : State) (l : Nat) : Only [.circ] s (fillPort s l) := fun p hp => by
  cases p <;> first | (simp at hp; done) | rfl

/-- The machine with a packet gone from its stream's queue and the token past its stream. -/
def departed (s : State) (l n : Nat) (z : Stream) (p : Pkt) (rest : List Pkt) : State :=
  let u := putStream (fillPort s l) n { z with pq := rest, bucket := z.bucket - p.wire * 10 ^ 8, sent := z.sent + 1 }
  { u with circ := { u.circ with tokens := tset u.circ.tokens l ((n + 1) % 256) } }

theorem departed_leaves (s : State) (l n : Nat) (z : Stream) (p : Pkt) (rest : List Pkt) :
    let t := departed s l n z p rest
    tget t.circ.streams n = some { z with pq := rest, bucket := z.bucket - p.wire * 10 ^ 8, sent := z.sent + 1 } ∧
    tget t.circ.tokens l = some ((n + 1) % 256) ∧ t.circ.out = s.circ.out ∧ t.circ.link = s.circ.link ∧ Only [.circ] s t :=
  ⟨tget_tset_same _ _ _, tget_tset_same _ _ _, rfl, rfl, fun p hp => by cases p <;> first | (simp at hp; done) | rfl⟩

theorem packetDepart_sends {s : State} {l n : Nat} {z : Stream} {p : Pkt} {rest : List Pkt} (h : departing s l = some (n, z))
    (hp : z.pq = p :: rest) : packetDepart s l =
      let u := moves (departed s l n z p rest) (portRef l)
      if hasLink u l then sendFrame u l p.frame else u := by
  unfold packetDepart
  simp only [h, hp]
  rfl

theorem packetDeparts {s : State} {l n : Nat} {z : Stream} {p : Pkt} {rest : List Pkt} (h : departing s l = some (n, z))
    (hp : z.pq = p :: rest) :
    let t := packetDepart s l
    tget t.circ.streams n = some { z with pq := rest, bucket := z.bucket - p.wire * 10 ^ 8, sent := z.sent + 1 } ∧
    tget t.circ.tokens l = some ((n + 1) % 256) ∧ (hasLink s l = true → tget t.circ.out l = some p.frame) ∧
    (hasLink s l = false → t.circ.out = s.circ.out) ∧ Only [.circ, .flt] s t := by
  dsimp only
  rw [packetDepart_sends h hp]
  obtain ⟨h1, h2, h3, h4, h5⟩ := departed_leaves s l n z p rest
  generalize departed s l n z p rest = u at h1 h2 h3 h4 h5
  have hm := moves_only u (portRef l)
  have hc : (moves u (portRef l)).circ = u.circ := hm .circ (by decide)
  dsimp only
  generalize moves u (portRef l) = v at hm hc
  rw [← hc] at h1 h2 h3 h4
  have hlink : hasLink v l = hasLink s l := by rw [hasLink, hasLink, h4]
  have hv : Only [.circ, .flt] s v := (h5.mono (by simp)).trans (hm.mono (by simp))
  rw [hlink]
  cases hl : hasLink s l with
  | true =>
    rw [if_pos rfl]
    exact ⟨h1, h2, fun _ => tget_tset_same _ _ _, nofun, hv.trans fun p hp => by
      cases p <;> first | (simp at hp; done) | rfl⟩
  | false =>
    rw [if_neg (by simp)]
    exact ⟨h1, h2, nofun, fun _ => h3, hv⟩

/-! ## STREAM_STATUS_WRITE (R460) -/

/-- A record written to a memory in two pieces, its first bytes last, is read back whole. -/
theorem mread_two_writes {m : Mem} (hm : Mem.wf m = true) (a k : Nat) {l : List Byte} (hk : k ≤ l.length) :
    let m' := mwrite (mwrite m (a + k) (l.drop k)) a (l.take k)
    mread m' a l.length = l ∧ ∀ b, b < a ∨ a + l.length ≤ b → mget m' b = mget m b := by
  have hw := mwrite_wf hm (a + k) (l.drop k)
  have ht : (l.take k).length = k := by simp [hk]
  have hd : (l.drop k).length = l.length - k := List.length_drop
  constructor
  · have h1 := mread_mwrite hw a (l.take k)
    have h2 := mread_mwrite hm (a + k) (l.drop k)
    rw [ht] at h1
    rw [hd] at h2
    conv_lhs => rw [show l.length = k + (l.length - k) by omega]
    rw [mread_add, h1, mread_mwrite_apart hw (Or.inr (by omega)), h2, List.take_append_drop]
  · intro b hb
    rw [mget_mwrite_outside hw (by omega), mget_mwrite_outside hm (by omega)]

theorem streamStatusWrites {s : State} {n : Nat} {z : Stream} (hm : memOk s = true) (hz : tget s.circ.streams n = some z)
    (hd : z.statusDue = true) :
    let t := streamStatusWrite s n
    mread t.fab.host z.status.toNat 32 = statusRecord s n z ∧
    (∀ a, a < z.status.toNat ∨ z.status.toNat + 32 ≤ a → mget t.fab.host a = mget s.fab.host a) ∧
    tget t.circ.streams n = some { z with statusDue := false } ∧ Only [.fab, .circ] s t := by
  obtain ⟨-, hh, -⟩ := (memOk_iff s).1 hm
  have hlen : (statusRecord s n z).length = 32 := toLE_length _ _
  have ht : streamStatusWrite s n = putStream (hostWrite (hostWrite s (z.status.toNat + 4) ((statusRecord s n z).drop 4))
      z.status.toNat ((statusRecord s n z).take 4)) n { z with statusDue := false } := by
    unfold streamStatusWrite
    rw [hz]
    dsimp only
    rw [if_neg (by simp [hd])]
  rw [ht]
  generalize statusRecord s n z = rec at hlen
  obtain ⟨h1, h2⟩ := mread_two_writes hh z.status.toNat 4 (l := rec) (by omega)
  rw [hlen] at h1 h2
  exact ⟨h1, h2, tget_tset_same _ _ _, fun p hp => by cases p <;> first | (simp at hp; done) | rfl⟩

end Sys2Proof.Machine

open Sys2Proof Sys2Proof.Machine

/-- Settles O36: a message is taken, built packet by packet, paced and sent, and each step changes its own stream. -/
theorem sendsGoThroughThePacingQueue : Obligations.SendsGoThroughThePacingQueue := by
  refine ⟨?_, ?_, fun s l => ⟨fun n z p rest h hp => ⟨_, rfl, packetDeparts h hp⟩, fun h => ?_⟩,
    fun s n z hm hz hd => ⟨_, rfl, streamStatusWrites hm hz hd⟩⟩
  · intro s u q i x y d w be z k hx hd n hs he hb hz hk
    exact sendStarts hx hd rfl hs he hb hz hk
  · intro s n z r x hr hn hz hx
    obtain ⟨hc, ho⟩ := engineAt_leaves s r
    refine ⟨fun u pt hg hv => ?_, fun hg => ?_⟩
    · have hm := vread_some hv
      have hcu : u.circ = (engineAt s r).circ := hm .circ (by decide)
      have ht := packetEnqueue_data hr hn hz hx hg hv
      obtain ⟨h1, h2, h3⟩ := built_leaves (s := s) (b := u) (n := n.val) (z := z) (r := r)
        (r' := { r with frag := r.frag + 1, built := 0, group := if sfield z 575 570 = 0 then [] else r.group ++ [region r.key
          (sfield z 815 784) r.seq (folio 1 r.key.keyId (bits r.pay 239 232) (sfield z 815 784) r.seq r.msg.toNat r.frag r.nfrag
          r.bytes) pt] })
        (reg := region r.key (sfield z 815 784) r.seq (folio 1 r.key.keyId (bits r.pay 239 232) (sfield z 815 784) r.seq
          r.msg.toNat r.frag r.nfrag r.bytes) pt) (by rw [hcu, hc]) (by rw [hcu, hc]) (by rw [hcu, hc]) hn rfl rfl
      exact ⟨_, congrArg Host.Outcome.next ht, h1, fun e he hen => ⟨(h2 e he hen).1, (h2 e he hen).2.1⟩,
        (ho.mono (by simp)).trans ((hm.mono (by simp)).trans (h3.mono (by simp)))⟩
    · have ht := packetEnqueue_parity hr hn hz hx hg
      obtain ⟨h1, h2, h3⟩ := built_leaves (s := s) (b := engineAt s r) (n := n.val) (z := z) (r := r)
        (r' := { r with group := [], built := 0 })
        (reg := region r.key (sfield z 815 784) r.seq (folio 2 r.key.keyId r.group.length (sfield z 815 784) r.seq r.msg.toNat
          (r.frag - r.group.length) r.nfrag r.bytes) (parityText r.group)) (by rw [hc]) (by rw [hc]) (by rw [hc]) hn rfl rfl
      exact ⟨_, congrArg Host.Outcome.next ht, h1, h2, (ho.mono (by simp)).trans (h3.mono (by simp))⟩
  · refine congrArg Host.Outcome.next (?_ : packetDepart s l.val = _)
    unfold packetDepart
    rw [h]

end

section
/-! Proofs: COMPOSE and the strips that it writes (spec/13 R393 to R404). -/

namespace Sys2Proof.Machine

/-! ## Writes of several places -/

theorem reachAll_some {w : Who} {l : List (Nat × List Byte)} {s t : State} {r : List (List (Tr × Nat) × List Byte)}
    (h : reachAll w s l = (t, some r)) : Only [.mmu, .fab, .free] s t := by
  induction l generalizing s t r with
  | nil =>
    cases h
    exact .refl _ s
  | cons e l ih =>
    rw [reachAll] at h
    split at h
    · cases h
    · rename_i v p hv
      split at h
      · rename_i v' r' hr
        cases h
        exact ((reach_some hv).only.mono (by simp)).trans (ih hr)
      · cases h

theorem foldl_writePieces_only (w : Who) (l : List (List (Tr × Nat) × List Byte)) (s : State) :
    Only [.fab] s (l.foldl (fun s e => writePieces w s e.1 e.2) s) := by
  induction l generalizing s with
  | nil => exact .refl _ s
  | cons e l ih => exact (writePieces_only w e.1 s e.2).trans (ih _)

/-- Writes that all reach their places leave the fabric and the translations changed, if anything. -/
theorem vwriteAll_true {s t : State} {w : Who} {l : List (Nat × List Byte)} (h : vwriteAll s w l = (t, true)) :
    Only [.mmu, .fab, .free] s t := by
  unfold vwriteAll at h
  split at h
  · rename_i v r hr
    cases h
    exact (reachAll_some hr).trans ((foldl_writePieces_only w r v).mono (by simp))
  · cases h

/-! ## COMPOSE starts (R393, R394) -/

/-- A table of values given to keys that differ. -/
theorem tget_keyed {α : Type} (f : Nat → α) {l : List Nat} {o : Nat} (h : o ∈ l) :
    tget (l.map fun r => (r, f r)) o = some (f o) := by
  induction l with
  | nil => cases h
  | cons a l ih =>
    rw [List.map_cons, tget]
    by_cases ha : a = o
    · rw [if_pos ha, ha]
    · rw [if_neg ha]
      exact ih ((List.mem_cons.1 h).resolve_left (Ne.symm ha))

theorem treg_readTarget {s : State} {o : Nat} (t : Nat) (h : o ∈ targetOffs) : treg (readTarget s t) o = active s (oTarget t o) :=
    by
  have h1 : tget (readTarget s t) o = some (BitVec.ofNat 64 (active s (oTarget t o))) :=
    tget_keyed (fun r => BitVec.ofNat 64 (active s (oTarget t r))) h
  unfold treg tgetD
  rw [h1, Option.getD_some, BitVec.toNat_ofNat]
  exact Nat.mod_eq_of_lt (BitVec.isLt _)

/-- The composition that a descriptor starts on a target. -/
def newCompose (s : State) (q : Nat) (i : W32) (t : Nat) (x : Queue) (w : W512) (be : Bool) : Compose :=
  { q := q, i := i, rt := !be, target := t, frame := BitVec.ofNat 32 (bits w 191 160), ctx := x.ctx, regs := readTarget s t,
    strip := 0, chroma := [] }

def addCompose (s : State) (c : Compose) (n : Nat) : State :=
  { s with cch := { s.cch with comps := s.cch.comps ++ [c], start := n } }

theorem addCompose_leaves (s : State) (c : Compose) (n : Nat) :
    (addCompose s c n).cch = { s.cch with comps := s.cch.comps ++ [c], start := n } ∧ Only [.cch] s (addCompose s c n) :=
  ⟨rfl, fun p hp => by cases p <;> first | (simp at hp; done) | rfl⟩

theorem startCompose_adds {s u : State} {q : Nat} {i : W32} {x y : Queue} {d : Desc} {w : W512} {be : Bool}
    (hx : getQ s q = some x) (hd : recOf x i = some d) (hc : composing s (bits d.pay 135 128) = false)
    (he : composeEarlier s q i (bits d.pay 135 128) = false) (hb : beginWork s q i none 0x40 = (u, .go y w be)) :
    startCompose s q i =
      markStarted (addCompose u (newCompose u q i (bits d.pay 135 128) y w be) ((y.unit + 1) % 256)) q i none := by
  unfold startCompose
  rw [hx, Option.bind_some, hd]
  dsimp only
  rw [hc, he]
  simp only [hb]
  rfl

theorem composeStarts {s u : State} {q : Fin 8193} {i : W32} {x y : Queue} {d : Desc} {w : W512} {be : Bool}
    (hx : getQ s q.val = some x) (hd : recOf x i = some d) (hc : composing s (bits d.pay 135 128) = false)
    (he : composeEarlier s q.val i (bits d.pay 135 128) = false) (hb : beginWork s q.val i none 0x40 = (u, .go y w be)) :
    Answers (.compose q i) s fun t => WorkAt ⟨q, i, none⟩ .started t ∧
      ∃ c, t.cch.comps = s.cch.comps ++ [c] ∧ c.q = q.val ∧ c.i = i ∧ c.target = bits d.pay 135 128 ∧ c.ctx = y.ctx ∧
        c.frame = BitVec.ofNat 32 (bits w 191 160) ∧ c.strip = 0 ∧ c.chroma = [] ∧
        (∀ o ∈ targetOffs, treg c.regs o = active s (oTarget (bits d.pay 135 128) o)) := by
  obtain ⟨hbeg, hat⟩ := beginWork_begun (w := ⟨q, i, none⟩) hb
  have hcc : u.cch = s.cch := hbeg.only .cch (by decide)
  have hr : u.regs = s.regs := hbeg.only .regs (by decide)
  have ht := startCompose_adds hx hd hc he hb
  obtain ⟨h1, h2⟩ := addCompose_leaves u (newCompose u q.val i (bits d.pay 135 128) y w be) ((y.unit + 1) % 256)
  generalize addCompose u (newCompose u q.val i (bits d.pay 135 128) y w be) ((y.unit + 1) % 256) = v at ht h1 h2
  have hw := markStarted_at (hat.congr (t := v) (h2 .obj (by decide)) (h2 .regs (by decide)))
  have hm : (markStarted v q.val i none).cch = v.cch := markStarted_only v q.val i none .cch (by decide)
  refine ⟨_, congrArg Host.Outcome.next ht, hw, newCompose u q.val i (bits d.pay 135 128) y w be, ?_, rfl, rfl, rfl, rfl, rfl, rfl,
    rfl, fun o ho => ?_⟩
  · rw [hm, h1, hcc]
  · have ha : active u (oTarget (bits d.pay 135 128) o) = active s (oTarget (bits d.pay 135 128) o) := by
      unfold active
      rw [hr]
    exact (treg_readTarget _ ho).trans ha

/-! ## STRIP_COMPLETE (R395, R396) -/

theorem leastBy_mem {f : Compose → Nat} {l : List Compose} {c : Compose} (h : leastBy f l = some c) : c ∈ l := by
  induction l generalizing c with
  | nil => cases h
  | cons a l ih =>
    rw [leastBy] at h
    split at h
    · cases h
      exact List.mem_cons_self
    · rename_i d hd
      split at h <;> cases h
      · exact List.mem_cons_of_mem _ (ih hd)
      · exact List.mem_cons_self

theorem chooseCompose_mem {s : State} {waits : List (Fin 256)} {c : Compose} (h : chooseCompose s waits = some c) :
    c ∈ s.cch.comps := by
  unfold chooseCompose at h
  dsimp only at h
  split at h
  · rename_i hl
    cases h
    exact (List.mem_filter.1 (List.mem_filter.1 (leastBy_mem hl)).1).1
  · exact (List.mem_filter.1 (leastBy_mem h)).1

/-- What the layers read of a pixel leaves the fabric and the translations changed, if anything. -/
theorem applyLayer_some {c : Compose} {fv x y l : Nat} {r : State × Option Px} {t : State} {p : Px}
    (h : applyLayer c fv x y r l = (t, some p)) : ∃ d, r.2 = some d ∧ Only [.mmu, .fab, .free] r.1 t := by
  obtain ⟨s, _ | d⟩ := r
  · cases h
  · refine ⟨d, rfl, ?_⟩
    rw [applyLayer] at h
    dsimp only at h
    split at h
    · cases h
      exact .refl _ _
    · split at h
      · cases h
      · rename_i hv
        cases h
        exact vnat_some hv

theorem applyLayers_some {c : Compose} {fv x y : Nat} (ls : List Nat) {r : State × Option Px} {t : State} {p : Px}
    (h : ls.foldl (applyLayer c fv x y) r = (t, some p)) : Only [.mmu, .fab, .free] r.1 t := by
  have key : ∀ r : State × Option Px, ls.foldl (applyLayer c fv x y) r = (t, some p) →
      (∃ d, r.2 = some d) ∧ Only [.mmu, .fab, .free] r.1 t := by
    clear h
    induction ls with
    | nil => exact fun r h => by cases h; exact ⟨⟨p, rfl⟩, .refl _ _⟩
    | cons l ls ih =>
      intro r h
      obtain ⟨⟨d, hd⟩, ho⟩ := ih _ h
      obtain ⟨e, he, ho'⟩ := applyLayer_some (t := (applyLayer c fv x y r l).1) (p := d) (Prod.ext rfl hd)
      exact ⟨⟨e, he⟩, ho'.trans ho⟩
  exact (key r h).2

theorem composePixels_some {c : Compose} {fv y : Nat} (n : Nat) {s t : State} {x : Nat} {l : List Px}
    (h : composePixels c fv y n s x = (t, some l)) : Only [.mmu, .fab, .free] s t := by
  induction n generalizing s t x l with
  | zero =>
    cases h
    exact .refl _ s
  | succ n ih =>
    unfold composePixels at h
    generalize hr : List.range 8 = ls at h
    generalize hp : ls.foldl (applyLayer c fv x y) (s, some (background (treg c.regs 0x28))) = r at h
    obtain ⟨u, _ | p⟩ := r
    · cases h
    · dsimp only at h
      split at h
      · rename_i hl
        cases h
        exact (applyLayers_some ls hp).trans (ih hl)
      · cases h

/-- The machine as a strip is begun: the compositors' token has gone past a best-effort target (R395). -/
def stripAt (s : State) (c : Compose) : State :=
  if (composeRank s c).2 then s else { s with cch := { s.cch with token := ((composeRank s c).1 + 1) % 256 } }

theorem stripAt_leaves (s : State) (c : Compose) : Only [.cch] s (stripAt s c) ∧ (stripAt s c).cch.comps = s.cch.comps := by
  unfold stripAt
  split
  · exact ⟨.refl _ s, rfl⟩
  · exact ⟨fun p hp => by cases p <;> first | (simp at hp; done) | rfl, rfl⟩

/-- A strip written: the composition's next strip and its chroma sums stand for it. -/
def stripDone (s : State) (c : Compose) : State := putCompose (drew (moves s .device)) c

theorem stripDone_leaves (s : State) (c : Compose) :
    (stripDone s c).cch = { s.cch with comps := s.cch.comps.map fun d => if d.q = c.q ∧ d.i = c.i then c else d } ∧
    Only [.cch, .free, .flt] s (stripDone s c) := by
  have h1 := moves_only s .device
  have hc : (moves s .device).cch = s.cch := h1 .cch (by decide)
  refine ⟨?_, (h1.mono (by simp)).trans fun p hp => by cases p <;> first | (simp at hp; done) | rfl⟩
  rw [← hc]
  rfl

section Strip

variable {s u v : State} {waits : List (Fin 256)} {c : Compose} {px : List Px} {x y fv : Nat}
  (hc : chooseCompose s waits = some c) (hx : c.strip % stripsPerRow c * 32 = x) (hy : c.strip / stripsPerRow c = y)
  (hf : (free s).toNat = fv)
  (hp : composePixels c fv y (min 32 (nbits (treg c.regs 0x20) 15 0 - x)) (stripAt s c) x = (u, some px))
  (hv : vwriteAll u (couchWho u c) (stripWrites c fv x y px).1 = (v, true))

include hc hx hy hf hp hv

theorem stripComplete_done : stripComplete s waits =
    let c' := { c with strip := c.strip + 1, chroma := (stripWrites c fv x y px).2 }
    if c.strip + 1 < stripTotal c then stripDone v c' else finishWork (stripDone v c') c.q c.i none 0 := by
  subst hx hy
  have hf' : (free (stripAt s c)).toNat = fv := by
    rw [← hf]
    unfold free
    rw [(stripAt_leaves s c).1 .free (by decide)]
  unfold stripComplete
  have he : (if (composeRank s c).2 = true then s else { s with cch := { s.cch with token := ((composeRank s c).1 + 1) % 256 } }) =
    stripAt s c := rfl
  rw [hc]
  dsimp only
  rw [he, hf', hp]
  dsimp only
  rw [hv]
  rfl

theorem stripCompletes : Answers (.stripComplete ⟨waits, .none⟩) s fun t => t.fab = v.fab ∧
    { c with strip := c.strip + 1, chroma := (stripWrites c fv x y px).2 } ∈ t.cch.comps ∧
    t.cch.token = (stripAt s c).cch.token ∧
    (stripTotal c ≤ c.strip + 1 → ∀ w : Work, w.q.val = c.q ∧ w.i = c.i ∧ w.node = none ∧ WorkAt w .started s →
      WorkAt w (.finished 0) t) ∧
    (c.strip + 1 < stripTotal c → t.obj = s.obj) := by
  have ht := stripComplete_done hc hx hy hf hp hv
  have hm : Only [.mmu, .fab, .free] (stripAt s c) v := (composePixels_some _ hp).trans (vwriteAll_true hv)
  obtain ⟨hs1, hs2⟩ := stripAt_leaves s c
  obtain ⟨h1, h2⟩ := stripDone_leaves v { c with strip := c.strip + 1, chroma := (stripWrites c fv x y px).2 }
  have hcv : v.cch = (stripAt s c).cch := hm .cch (by decide)
  have hin : { c with strip := c.strip + 1, chroma := (stripWrites c fv x y px).2 } ∈
      (stripDone v { c with strip := c.strip + 1, chroma := (stripWrites c fv x y px).2 }).cch.comps := by
    rw [h1, hcv]
    dsimp only
    rw [hs2]
    exact List.mem_map.2 ⟨c, chooseCompose_mem hc, if_pos ⟨rfl, rfl⟩⟩
  have htok : (stripDone v { c with strip := c.strip + 1, chroma := (stripWrites c fv x y px).2 }).cch.token =
      (stripAt s c).cch.token := by rw [h1, hcv]
  dsimp only at ht
  generalize stripDone v { c with strip := c.strip + 1, chroma := (stripWrites c fv x y px).2 } = d at ht h2 hin htok
  have ho : Only [.cch, .mmu, .fab, .free, .flt] s d := (hs1.mono (by simp)).trans ((hm.mono (by simp)).trans (h2.mono (by simp)))
  by_cases hl : c.strip + 1 < stripTotal c
  · rw [if_pos hl] at ht
    exact ⟨d, congrArg Host.Outcome.next (by rw [onUnit_none]; exact ht), h2 .fab (by decide), hin, htok,
      fun h => absurd hl (Nat.not_lt.2 h), fun _ => ho .obj (by decide)⟩
  · rw [if_neg hl] at ht
    have h3 := finishWork_only d c.q c.i none 0
    have hcd : (finishWork d c.q c.i none 0).cch = d.cch := h3 .cch (by decide)
    refine ⟨_, congrArg Host.Outcome.next (by rw [onUnit_none]; exact ht), (h3 .fab (by decide)).trans (h2 .fab (by decide)),
      by rw [hcd]; exact hin, by rw [hcd]; exact htok, fun _ w hw => ?_, fun h => absurd h hl⟩
    obtain ⟨hq, hi, hn, hw⟩ := hw
    have hf := finishWork_at 0 (hw.congr (t := d) (ho .obj (by decide)) (ho .regs (by decide)))
    rw [hq, hi, hn] at hf
    exact hf

end Strip

end Sys2Proof.Machine
end

section
/-! Proofs: ENCODE and BIND start or are refused (spec/14 R408 to R412, R427). -/

namespace Sys2Proof.Machine

/-- Work that has begun, after accesses of its unit to memory. -/
theorem Begun.moved {s u v : State} {q : Nat} {i : W32} {x : Queue} (h : Begun s u q i x) (hm : Only [.mmu, .fab, .free] u v) :
    Begun s v q i x := by
  obtain ⟨l, hl⟩ := h.after
  have ho : v.obj = u.obj := hm .obj (by decide)
  exact ⟨h.only.trans (hm.mono (by simp)), h.queue, ⟨l, by rw [getQ_same ho (hm .regs (by decide)), hl]⟩, by
    rw [ho]
    exact h.objs⟩

/-- A descriptor that fails as it begins has ended with its status. -/
theorem complete_ended {s u v : State} {q : Fin 8193} {i : W32} {x : Queue} {st : Nat} (hb : Begun s u q.val i x)
    (ha : WorkAt ⟨q, i, none⟩ .armed u) (hm : Only [.mmu, .fab, .free] u v) (hst : st ≠ 0) :
    WorkEnded ⟨q, i, none⟩ st s (complete v q.val i st) :=
  (endWork_ended (ha.moved hm) hst).begun (hb.moved hm)

def addCod (s : State) (c : Coding) : State := { s with cod := c }

theorem addCod_leaves (s : State) (c : Coding) : (addCod s c).cod = c ∧ Only [.cod] s (addCod s c) :=
  ⟨rfl, fun p hp => by cases p <;> first | (simp at hp; done) | rfl⟩

/-- A descriptor taken by a coding unit, with the unit's state as it starts. -/
theorem codingStarts {s u v : State} {q : Fin 8193} {i : W32} {x : Queue} (hb : Begun s u q.val i x)
    (ha : WorkAt ⟨q, i, none⟩ .armed u) (hm : Only [.mmu, .fab, .free] u v) (c : Coding) :
    let t := markStarted (addCod v c) q.val i none
    WorkAt ⟨q, i, none⟩ .started t ∧ t.cod = c ∧ v.cod = s.cod := by
  obtain ⟨h1, h2⟩ := addCod_leaves v c
  dsimp only
  generalize addCod v c = z at h1 h2
  have hc : (markStarted z q.val i none).cod = z.cod := markStarted_only z q.val i none .cod (by decide)
  exact ⟨markStarted_at ((ha.moved hm).congr (h2 .obj (by decide)) (h2 .regs (by decide))), hc.trans h1,
    (hb.moved hm).only .cod (by decide)⟩

/-! ## ENCODE (R408 to R412) -/

/-- Whether an ENCODE resets its stream's encoder state (R408). -/
def encResets (e : Enc) (p : Nat) : Bool := p.testBit 369 || e.conf != encConf p

/-- The encoder state that an ENCODE goes on from (R408). -/
def encFrom (e : Enc) (p : Nat) : Enc := if encResets e p then resetEnc p e else e

def encRecovers (e : Enc) (p : Nat) : Bool := p.testBit 370 && recoverOk (encFrom e p) (BitVec.ofNat 32 (nbits p 511 480))

/-- A key frame that nothing but the state of the references asks for (R409). -/
def encForced (e : Enc) (p : Nat) : Bool := ((encFrom e p).slots.all fun t => t.isNone) || (p.testBit 370 && !encRecovers e p)

def encPlain (e : Enc) (p : Nat) (w : W512) : Bool := encResets e p || bit w 296

/-- The run that an ENCODE starts on a core. -/
def newEncRun (s : State) (q : Nat) (i : W32) (x : Queue) (w : W512) (p : Nat) : EncRun :=
  let e := encOf s (bits w 295 288)
  { q := q, i := i, stream := bits w 295 288, core := x.unit, pay := w, par := p, key := encPlain e p w || encForced e p,
    recovered := encRecovers e p && !(encPlain e p w || encForced e p), state := encFrom e p, orphan := false }

/-- The coding units once a run has been added. -/
def encStarted (s : State) (x : Queue) (w : W512) (p : Nat) (r : EncRun) : Coding :=
  let e := encOf s (bits w 295 288)
  { s.cod with encRuns := s.cod.encRuns ++ [r], start := (x.unit + 1) % 12,
               resets := satAdd 0xFFFF s.cod.resets (if encResets e p then 1 else 0),
               forcedKey := satAdd 0xFFFF s.cod.forcedKey (if encForced e p && !encPlain e p w then 1 else 0) }

section Encode

variable {s u : State} {q : Fin 8193} {i : W32} {x y : Queue} {w : W512} {be : Bool} (hx : getQ s q.val = some x)
  (hd : (recOf x i).isSome = true) (hc : (s.cod.encRuns.any fun r => r.core = x.unit) = false)
  (hb : beginWork s q.val i none 0x50 = (u, .go y w be))

include hx hd hc hb

theorem encode_unset (hw : bits w 127 64 = 0) : Answers (.encode q i) s (WorkEnded ⟨q, i, none⟩ 0x11 s) := by
  obtain ⟨d, hd⟩ := Option.isSome_iff_exists.1 hd
  obtain ⟨hbeg, hat⟩ := beginWork_begun (w := ⟨q, i, none⟩) hb
  have ht : startEncode s q.val i = complete u q.val i 0x11 := by
    unfold startEncode
    rw [hx, Option.bind_some, hd, Option.map_some]
    dsimp only
    rw [hc]
    simp only [hb, hw]
    rfl
  exact ⟨_, congrArg Host.Outcome.next ht, complete_ended hbeg hat (.refl _ u) (by decide)⟩

variable {v : State} {p : Nat} (hw : bits w 127 64 ≠ 0) (hs : (s.cod.encRuns.any fun r => r.stream = bits w 295 288) = false)
  (he : encodeEarlier u q.val i (bits w 295 288) = false) (hv : vnat u (feWho u q.val y) (bits w 127 64) 128 = (v, some p))

include hw hs he hv

theorem startEncode_reads : startEncode s q.val i = if encodeBad v y w p then complete v q.val i 0x11
    else markStarted (addCod v (encStarted v y w p (newEncRun v q.val i y w p))) q.val i none := by
  obtain ⟨d, hd⟩ := Option.isSome_iff_exists.1 hd
  have hcu : u.cod = s.cod := (beginWork_begun (w := ⟨q, i, none⟩) hb).1.only .cod (by decide)
  unfold startEncode
  rw [hx, Option.bind_some, hd, Option.map_some]
  dsimp only
  rw [hc]
  simp only [hb, hcu, hs, he, hv]
  rw [if_neg hw]
  rfl

theorem encode_bad (hbad : encodeBad v y w p = true) : Answers (.encode q i) s (WorkEnded ⟨q, i, none⟩ 0x11 s) := by
  obtain ⟨hbeg, hat⟩ := beginWork_begun (w := ⟨q, i, none⟩) hb
  have ht := startEncode_reads hx hd hc hb hw hs he hv
  rw [if_pos hbad] at ht
  exact ⟨_, congrArg Host.Outcome.next ht, complete_ended hbeg hat (vnat_some hv) (by decide)⟩

theorem encodeStarts (hbad : encodeBad v y w p = false) : Answers (.encode q i) s fun t => WorkAt ⟨q, i, none⟩ .started t ∧
    t.cod = encStarted s y w p (newEncRun s q.val i y w p) := by
  obtain ⟨hbeg, hat⟩ := beginWork_begun (w := ⟨q, i, none⟩) hb
  have ht := startEncode_reads hx hd hc hb hw hs he hv
  rw [if_neg (by simp [hbad])] at ht
  obtain ⟨h1, h2, h3⟩ := codingStarts hbeg hat (vnat_some hv) (encStarted v y w p (newEncRun v q.val i y w p))
  refine ⟨_, congrArg Host.Outcome.next ht, h1, h2.trans ?_⟩
  unfold encStarted newEncRun encOf
  rw [h3]

end Encode

/-- A run whose stream's state is reset codes a key frame from the state of a reset (R408). -/
theorem newEncRun_reset {s : State} {q : Nat} {i : W32} {x : Queue} {w : W512} {p : Nat}
    (h : encResets (encOf s (bits w 295 288)) p = true) :
    let r := newEncRun s q i x w p
    r.key = true ∧ r.state.q = encQstart p ∧ r.state.f = 0 ∧ r.state.lastCoded = none ∧ (∀ n ∈ r.state.slots, n = none) := by
  simp [newEncRun, encPlain, encFrom, h, resetEnc]

theorem newEncRun_kept {s : State} {q : Nat} {i : W32} {x : Queue} {w : W512} {p : Nat}
    (h : encResets (encOf s (bits w 295 288)) p = false) : (newEncRun s q i x w p).state = encOf s (bits w 295 288) := by
  simp [newEncRun, encFrom, h]

theorem encFrom_frame (e : Enc) (p : Nat) : (encFrom e p).frame = e.frame := by
  unfold encFrom
  split <;> rfl

/-! ## BIND (R427) -/

def addBind (s : State) (r : BindRun) : Coding := { s.cod with bindRuns := s.cod.bindRuns ++ [r] }

section Bind

variable {s u v : State} {q : Fin 8193} {i : W32} {x y : Queue} {w : W512} {be : Bool} {p : Nat} (hx : getQ s q.val = some x)
  (hd : (recOf x i).isSome = true)
  (hc : ∀ r ∈ s.cod.bindRuns, ∀ z, getQ s r.q = some z → z.unit ≠ x.unit)
  (hb : beginWork s q.val i none 0x60 = (u, .go y w be))
  (hv : bits w 127 64 = 0 ∧ v = u ∧ p = 0 ∨ bits w 127 64 ≠ 0 ∧ vnat u (feWho u q.val y) (bits w 127 64) 128 = (v, some p))

include hv in
theorem bindPar_moved : Only [.mmu, .fab, .free] u v := by
  rcases hv with ⟨-, rfl, -⟩ | ⟨-, hv⟩
  · exact .refl _ _
  · exact vnat_some hv

include hx hd hc hb hv

theorem startBind_reads : startBind s q.val i = if bindBad w p then complete v q.val i 0x11
    else markStarted (addCod v (addBind v { q := q.val, i := i, pay := w, par := p })) q.val i none := by
  obtain ⟨d, hd⟩ := Option.isSome_iff_exists.1 hd
  unfold startBind
  rw [hx, Option.bind_some, hd, Option.map_some]
  dsimp only
  rw [if_neg]
  · simp only [hb]
    rcases hv with ⟨h0, rfl, rfl⟩ | ⟨h0, hv⟩
    · rw [if_pos h0]
      rfl
    · rw [if_neg h0, hv]
      rfl
  · intro ha
    obtain ⟨r, hr, hu⟩ := List.any_eq_true.1 ha
    split at hu
    · rename_i z hz
      exact hc r hr z hz (by simpa using hu)
    · cases hu

theorem bind_bad (hbad : bindBad w p = true) : Answers (.bind q i) s (WorkEnded ⟨q, i, none⟩ 0x11 s) := by
  obtain ⟨hbeg, hat⟩ := beginWork_begun (w := ⟨q, i, none⟩) hb
  have ht := startBind_reads hx hd hc hb hv
  rw [if_pos hbad] at ht
  exact ⟨_, congrArg Host.Outcome.next ht, complete_ended hbeg hat (bindPar_moved hv) (by decide)⟩

theorem bindStarts (hbad : bindBad w p = false) : Answers (.bind q i) s fun t => WorkAt ⟨q, i, none⟩ .started t ∧
    t.cod = { s.cod with bindRuns := s.cod.bindRuns ++ [{ q := q.val, i := i, pay := w, par := p }] } := by
  obtain ⟨hbeg, hat⟩ := beginWork_begun (w := ⟨q, i, none⟩) hb
  have ht := startBind_reads hx hd hc hb hv
  rw [if_neg (by simp [hbad])] at ht
  obtain ⟨h1, h2, h3⟩ := codingStarts hbeg hat (bindPar_moved hv) (addBind v { q := q.val, i := i, pay := w, par := p })
  exact ⟨_, congrArg Host.Outcome.next ht, h1, by rw [h2, addBind, h3]⟩

end Bind

end Sys2Proof.Machine
end

section
/-! Proofs: ENCODE_COMPLETE and BIND_COMPLETE (spec/14 R413 to R418, R428 to R430). -/

namespace Sys2Proof.Machine

/-! ## ENCODE_COMPLETE -/

theorem touchRows_true {w : Who} {pitch n : Nat} (rows : Nat) {s t : State} {a : Nat}
    (h : touchRows w pitch n rows s a = (t, true)) : Only [.mmu, .fab, .free] s t := by
  induction rows generalizing s a with
  | zero =>
    cases h
    exact .refl _ _
  | succ rows ih =>
    rw [touchRows] at h
    split at h
    · cases h
    · rename_i hr
      exact ((reach_some hr).only.mono (by simp)).trans (ih h)

theorem touchFrame_true {s t : State} {w : Who} {p luma chroma : Nat} (h : touchFrame s w p luma chroma = (t, true)) :
    Only [.mmu, .fab, .free] s t := by
  unfold touchFrame at h
  dsimp only at h
  split at h
  · cases h
  · rename_i hl
    exact (touchRows_true _ hl).trans (touchRows_true _ h)

theorem encodeReads_some {s t : State} {r : EncRun} {who : Who} {l : List Byte} (h : encodeReads s r who = (t, some l)) :
    Only [.mmu, .fab, .free] s t := by
  unfold encodeReads at h
  dsimp only at h
  split at h
  · cases h
  · rename_i u hu
    refine (touchFrame_true hu).trans ?_
    split at h
    · cases h
    · rename_i v hv
      have huv : Only [.mmu, .fab, .free] u v := by
        by_cases hk : r.key = true
        · rw [if_pos hk] at hv
          cases hv
          exact .refl _ _
        · rw [if_neg hk] at hv
          exact touchFrame_true hv
      refine huv.trans ?_
      split at h
      · exact vread_some h
      · cases h
        exact .refl _ _

/-- Work that a coding unit finishes leaves the unit's state. -/
theorem codingEnds {s z : State} (hm : Only [.mmu, .fab, .free, .flt, .cod] s z) (q : Nat) (i : W32) :
    let t := finishWork z q i none 0
    t.fab = z.fab ∧ t.cod = z.cod ∧ (∀ w : Work, w.q.val = q ∧ w.i = i ∧ w.node = none ∧ WorkAt w .started s →
      WorkAt w (.finished 0) t) := by
  have h3 := finishWork_only z q i none 0
  refine ⟨h3 .fab (by decide), h3 .cod (by decide), fun w hw => ?_⟩
  obtain ⟨hq, hi, hn, hw⟩ := hw
  have hf := finishWork_at 0 (hw.congr (t := z) (hm .obj (by decide)) (hm .regs (by decide)))
  rw [hq, hi, hn] at hf
  exact hf

theorem encAfter_frame (p : Nat) (e : Enc) (rep : Bool) (n : Nat) : (encAfter p e rep n).frame = e.frame + 1 := by
  cases rep <;> rfl

section Encode

variable {s u v : State} {core : Fin 12} {r : EncRun} {x : Queue} {marks body : List Byte} {rep : Bool} {n : Nat}
  (hr : encodeOn s core.val = some (r, x)) (hm : encodeReads s r (feWho s r.q x) = (u, some marks))
  (hc : codeFrame u r = (body, rep, n))
  (hv : vwriteAll (drewN u n) (feWho s r.q x)
    (encodeWrites (drewN u n) r (encAfter r.par r.state rep (16 + body.length)) body marks rep) = (v, true))

include hr hm hc hv

/-- The machine as an encode core ends a frame. -/
theorem encodeComplete_done : ∃ z, z.fab = v.fab ∧ Only [.mmu, .fab, .free, .flt] s z ∧ encodeComplete s core.val =
    finishWork (addCod z (encodeDone z.cod r (encAfter r.par r.state rep (16 + body.length)) rep marks)) r.q r.i none 0 := by
  have h1 : Only [.mmu, .fab, .free] s v :=
    ((encodeReads_some hm).trans ((drewN_only u n).mono (by simp))).trans (vwriteAll_true hv)
  have h2 : Only [.free] v (if rep then v else drewN v (encPitch r.par * encH r.par * 3 / 2)) :=
    .ite (fun _ => .refl _ _) fun _ => drewN_only _ _
  have ht : encodeComplete s core.val = finishWork (addCod
      (moves (if rep then v else drewN v (encPitch r.par * encH r.par * 3 / 2)) (mediaRef core.val))
      (encodeDone (moves (if rep then v else drewN v (encPitch r.par * encH r.par * 3 / 2)) (mediaRef core.val)).cod r
        (encAfter r.par r.state rep (16 + body.length)) rep marks)) r.q r.i none 0 := by
    unfold encodeComplete
    rw [hr]
    dsimp only
    rw [hm]
    dsimp only
    rw [hc]
    dsimp only
    rw [hv]
    rfl
  generalize (if rep then v else drewN v (encPitch r.par * encH r.par * 3 / 2)) = y at ht h2
  have h3 := moves_only y (mediaRef core.val)
  exact ⟨_, (h3 .fab (by decide)).trans (h2 .fab (by decide)),
    (h1.mono (by simp)).trans ((h2.mono (by simp)).trans (h3.mono (by simp))), ht⟩

theorem encodeCompletes : Answers (.encodeComplete core .none) s fun t =>
    encOf t r.stream = (if r.orphan then encOf s r.stream else encAfter r.par r.state rep (16 + body.length)) ∧
    (encAfter r.par r.state rep (16 + body.length)).frame = r.state.frame + 1 ∧ t.fab = v.fab ∧
    t.cod.repeats = (if rep then min 0xFFFF (s.cod.repeats + 1) else min 0xFFFF s.cod.repeats) ∧
    (∀ m, m ≠ r.stream → encOf t m = encOf s m) ∧
    (∀ w : Work, w.q.val = r.q ∧ w.i = r.i ∧ w.node = none ∧ WorkAt w .started s → WorkAt w (.finished 0) t) := by
  obtain ⟨z, hf, hz, ht⟩ := encodeComplete_done hr hm hc hv
  obtain ⟨ha1, ha2⟩ := addCod_leaves z (encodeDone z.cod r (encAfter r.par r.state rep (16 + body.length)) rep marks)
  generalize addCod z (encodeDone z.cod r (encAfter r.par r.state rep (16 + body.length)) rep marks) = y at ht ha1 ha2
  obtain ⟨h1, h2, h3⟩ := codingEnds ((hz.mono (by simp)).trans (ha2.mono (by simp))) r.q r.i
  have hcz : z.cod = s.cod := hz .cod (by decide)
  refine ⟨_, congrArg Host.Outcome.next (by rw [onUnit_none]; exact ht), ?_, encAfter_frame _ _ _ _,
    (h1.trans (ha2 .fab (by decide))).trans hf, ?_, fun m hne => ?_, h3⟩
  · rw [encOf, h2, ha1, hcz, encodeDone]
    split
    · rfl
    · exact tgetD_tset_same _ _ _ _
  · rw [h2, ha1, hcz, encodeDone]
    cases rep <;> rfl
  · rw [encOf, h2, ha1, hcz, encodeDone]
    split
    · rfl
    · exact tgetD_tset_other _ _ _ hne

end Encode

/-! ## BIND_COMPLETE -/

theorem bindCompletes {s u v z : State} {eng : Fin 4} {r : BindRun} {x : Queue} {input hist : List Byte}
    (hr : bindOn s eng.val = some (r, x)) (hi : vread s (feWho s r.q x) (bits r.pay 191 128) (bits r.pay 287 256) = (u, some input))
    (hh : histIn r.par = false ∧ v = u ∧ hist = [] ∨ histIn r.par = true ∧
      vread u (feWho s r.q x) (nbits r.par 575 512) (if bits r.pay 321 320 = 0 then 32768 else 65536) = (v, some hist))
    (hv : vwriteAll v (feWho s r.q x) (bindWrites r hist input).1 = (z, true)) :
    Answers (.bindComplete eng .none) s fun t => t.fab = z.fab ∧
      t.cod = { s.cod with stored := min 0xFFFF (s.cod.stored + (bindWrites r hist input).2.1)
                           full := min 0xFFFF (s.cod.full + (if (bindWrites r hist input).2.2 then 1 else 0)) } ∧
      (∀ w : Work, w.q.val = r.q ∧ w.i = r.i ∧ w.node = none ∧ WorkAt w .started s → WorkAt w (.finished 0) t) := by
  have huv : Only [.mmu, .fab, .free] u v := by
    rcases hh with ⟨-, rfl, -⟩ | ⟨-, hh⟩
    · exact .refl _ _
    · exact vread_some hh
  have hsz : Only [.mmu, .fab, .free] s z := ((vread_some hi).trans huv).trans (vwriteAll_true hv)
  have hcz : z.cod = s.cod := hsz .cod (by decide)
  generalize hw : bindWrites r hist input = ws at hv ⊢
  obtain ⟨ws, stored, full⟩ := ws
  have hhist : (if histIn r.par then vread u (feWho s r.q x) (nbits r.par 575 512) (if bits r.pay 321 320 = 0 then 32768 else 65536)
      else (u, some [])) = (v, some hist) := by
    rcases hh with ⟨h0, rfl, rfl⟩ | ⟨h0, hh⟩
    · rw [if_neg (by simp [h0])]
    · rw [if_pos h0, hh]
  have ht : bindComplete s eng.val = finishWork (moves (addCod z { z.cod with
      stored := satAdd 0xFFFF z.cod.stored stored, full := satAdd 0xFFFF z.cod.full (if full then 1 else 0) })
      (mediaRef (12 + eng.val))) r.q r.i none 0 := by
    unfold bindComplete
    rw [hr]
    dsimp only
    rw [hi]
    dsimp only
    rw [hhist]
    dsimp only
    rw [hw]
    dsimp only
    rw [hv]
    rfl
  obtain ⟨h1, h2⟩ := addCod_leaves z { z.cod with
    stored := satAdd 0xFFFF z.cod.stored stored, full := satAdd 0xFFFF z.cod.full (if full then 1 else 0) }
  generalize addCod z { z.cod with
    stored := satAdd 0xFFFF z.cod.stored stored, full := satAdd 0xFFFF z.cod.full (if full then 1 else 0) } = y at ht h1 h2
  have h3 := moves_only y (mediaRef (12 + eng.val))
  obtain ⟨h4, h5, h6⟩ := codingEnds (s := s) (z := moves y (mediaRef (12 + eng.val)))
    ((hsz.mono (by simp)).trans ((h2.mono (by simp)).trans (h3.mono (by simp)))) r.q r.i
  refine ⟨_, congrArg Host.Outcome.next (by rw [onUnit_none]; exact ht),
    (h4.trans (h3 .fab (by decide))).trans (h2 .fab (by decide)), ?_, h6⟩
  rw [h5, show (moves y (mediaRef (12 + eng.val))).cod = y.cod from h3 .cod (by decide), h1, hcz]
  rfl

end Sys2Proof.Machine

open Sys2Proof Sys2Proof.Machine

/-- Settles O59: each command's start, its refusal and its end, clause by clause. -/
theorem mediaWorkRunsAndFinishes : Obligations.MediaWorkRunsAndFinishes := by
  unfold Obligations.MediaWorkRunsAndFinishes
  refine ⟨fun s u q i x y d w be => composeStarts, fun s u v waits c px hc hp hv => stripCompletes hc rfl rfl rfl hp hv,
    fun s u v q i x y w be p hx hd hc hb => ⟨encode_unset hx hd hc hb, fun hw hs he hv => ⟨encode_bad hx hd hc hb hw hs he hv,
      fun hbad => ?_⟩⟩,
    fun s u v core r x marks body rep n hr hm hc hv => encodeCompletes hr hm hc hv,
    fun s u v q i x y w be p hx hd hc hb hv => ?_,
    fun s u v z eng r x input hist hr hi hh hv => bindCompletes hr hi hh hv⟩
  · obtain ⟨t, ht, h1, h2⟩ := encodeStarts hx hd hc hb hw hs he hv hbad
    have henc : ∀ m, encOf t m = encOf s m := fun m => by
      rw [encOf, h2]
      rfl
    refine ⟨t, ht, h1, newEncRun s q.val i y w p, by rw [h2, encStarted], rfl, rfl, rfl, rfl, rfl, rfl, fun h => ?_, henc,
      fun h => ?_, newEncRun_kept, encFrom_frame _ _⟩
    · simp [newEncRun, encPlain, h]
    · obtain ⟨k1, k2, k3, k4, k5⟩ := newEncRun_reset (q := q.val) (i := i) (x := y) h
      refine ⟨k1, k2, k3, k4, k5, ?_⟩
      rw [h2]
      exact congrArg (satAdd 0xFFFF s.cod.resets) (if_pos h)
  · have hc' : ∀ r ∈ s.cod.bindRuns, ∀ z, getQ s r.q = some z → z.unit ≠ x.unit := fun r hr z hz hu =>
      absurd (List.any_eq_false.1 hc r hr) (by simp [hz, hu])
    exact ⟨bind_bad hx hd hc' hb hv, bindStarts hx hd hc' hb hv⟩

end

section
/-! Proofs: a RENDER_PASS is taken, and its primitives are binned (spec/12 R361 to R372). -/

namespace Sys2Proof.Machine

theorem setPass_leaves (s : State) (id : Nat) (p : Pass) :
    (setPass s id p).ras = { s.ras with passes := tset s.ras.passes id p } ∧ Only [.ras] s (setPass s id p) :=
  ⟨rfl, fun k hk => by cases k <;> first | (simp at hk; done) | rfl⟩

/-- What the end of binning leaves of the counters that verdicts count. -/
def SameVerdicts (x y : Raster) : Prop := y.invalid = x.invalid ∧ y.culled = x.culled ∧ y.degenerate = x.degenerate

/-- A pass after the binners' last step: it goes on to its tiles once every binner is done (R372). -/
def afterBinning (p : Pass) : Pass :=
  if p.stage ≠ .binning ∨ !(p.binners.all (binnerDone p)) then p else { p with stage := .tiles, overflow := pOverflow p }

theorem binningEnd_leaves {s : State} {id : Nat} {p : Pass} (h : tget s.ras.passes id = some p) :
    tget (binningEnd s id).ras.passes id = some (afterBinning p) ∧ SameVerdicts s.ras (binningEnd s id).ras ∧
      Only [.ras] s (binningEnd s id) := by
  unfold binningEnd afterBinning
  rw [h]
  dsimp only
  split
  · exact ⟨h, ⟨rfl, rfl, rfl⟩, .refl _ s⟩
  · have hz : ∀ b : Bool, ∃ n, (if b then { s with ras := { s.ras with overflow := satAdd 0xFFFF s.ras.overflow 1 } } else s) =
        { s with ras := { s.ras with overflow := n } } := by
      rintro (_ | _)
      · exact ⟨s.ras.overflow, rfl⟩
      · exact ⟨_, rfl⟩
    obtain ⟨n, hn⟩ := hz (p.binners.any fun b => b.failed.isSome)
    rw [hn]
    obtain ⟨h1, h2⟩ := setPass_leaves { s with ras := { s.ras with overflow := n } } id
      { p with stage := .tiles, overflow := pOverflow p }
    rw [h1]
    refine ⟨tget_tset_same _ _ _, ⟨rfl, rfl, rfl⟩, Only.trans (t := { s with ras := { s.ras with overflow := n } }) ?_ h2⟩
    exact fun k hk => by cases k <;> first | (simp at hk; done) | rfl

/-- A pass put in place, and the end of binning where it is due. -/
theorem binned_leaves (s : State) (id : Nat) (p : Pass) :
    let t := binningEnd (setPass s id p) id
    tget t.ras.passes id = some (afterBinning p) ∧ SameVerdicts s.ras t.ras ∧ Only [.ras] s t := by
  obtain ⟨h1, h2⟩ := setPass_leaves s id p
  obtain ⟨h3, h4, h5⟩ := binningEnd_leaves (s := setPass s id p) (id := id) (p := p) (by rw [h1]; exact tget_tset_same _ _ _)
  rw [h1] at h4
  exact ⟨h3, h4, h2.trans h5⟩

/-- What the end of binning leaves of a pass. -/
theorem afterBinning_keeps (p : Pass) : ∃ g n, afterBinning p = { p with stage := g, overflow := n } := by
  unfold afterBinning
  split
  · exact ⟨_, _, rfl⟩
  · exact ⟨_, _, rfl⟩

/-! ## RENDER_PASS (R361, R362, R366) -/

/-- The pass of a payload and its parameter block. -/
def newPass (q : Nat) (i : W32) (node : Option Nat) (n c : Nat) (rt : Bool) (w : W512) (par : List Byte) (cl : List Nat) : Pass :=
  { q := q, i := i, node := node, slot := n, ctx := c, rt := rt, pay := w, par := par, clusters := cl, stage := .binning,
    binners := (List.range cl.length).map fun b => { next := 1024 * b, failed := none, lists := [] },
    nextChunk := 0, overflow := 0, nextTile := 0, stored := 0, tiles := [] }

/-- The clusters of some cores. -/
def clustersOf (cores : List Nat) : List Nat := (List.range 16).filter fun k => cores.any fun c => c / 16 == k

/-- A pass taken by its unit under the next identifier. -/
def addPass (s : State) (q : Nat) (i : W32) (node : Option Nat) (p : Pass) : State :=
  binningEnd (setPass { markStarted s q i node with cores := { s.cores with nextId := s.cores.nextId + 1 } } s.cores.nextId p)
    s.cores.nextId

theorem addPass_leaves {s : State} {w : Work} {g : Stage} (h : WorkAt w g s) (p : Pass) :
    let t := addPass s w.q.val w.i (w.node.map (·.val)) p
    tget t.ras.passes s.cores.nextId = some (afterBinning p) ∧ WorkAt w .started t ∧ t.fab = s.fab ∧
      t.cores.nextId = s.cores.nextId + 1 := by
  have h1 := markStarted_at h
  have h2 := markStarted_only s w.q.val w.i (w.node.map (·.val))
  unfold addPass
  generalize markStarted s w.q.val w.i (w.node.map (·.val)) = u at h1 h2
  have h3 : Only [.cores] u { u with cores := { s.cores with nextId := s.cores.nextId + 1 } } := cores_only rfl
  have hc : ({ u with cores := { s.cores with nextId := s.cores.nextId + 1 } } : State).cores.nextId = s.cores.nextId + 1 := rfl
  generalize ({ u with cores := { s.cores with nextId := s.cores.nextId + 1 } } : State) = v at h3 hc
  obtain ⟨h4, -, h5⟩ := binned_leaves v s.cores.nextId p
  have h6 := (h3.mono (qs := [.cores, .ras]) (by simp)).trans (h5.mono (by simp))
  exact ⟨h4, h1.congr (h6 .obj (by decide)) (h6 .regs (by decide)), (h6 .fab (by decide)).trans (h2 .fab (by decide)), by
    rw [show (binningEnd (setPass v s.cores.nextId p) s.cores.nextId).cores = v.cores from h5 .cores (by decide), hc]⟩

/-- What the rules for a bad pass read of it. -/
theorem passBad_congr {s : State} {p r : Pass} (hpay : r.pay = p.pay) (hpar : r.par = p.par) (hslot : r.slot = p.slot)
    (hcl : r.clusters = p.clusters) : passBad s r = passBad s p := by
  obtain ⟨⟩ := p
  obtain ⟨⟩ := r
  subst hpay hpar hslot hcl
  rfl

theorem heads_congr {s : State} {p r : Pass} (hpay : r.pay = p.pay) (hpar : r.par = p.par) (hslot : r.slot = p.slot)
    (hcl : r.clusters = p.clusters) (hctx : r.ctx = p.ctx) : rasWho r (binSite s r 0) = rasWho p (binSite s p 0) ∧
      pBinArea r = pBinArea p ∧ pCount r = pCount p ∧ pNb r = pNb p ∧ pNprim r = pNprim p := by
  obtain ⟨⟩ := p
  obtain ⟨⟩ := r
  subst hpay hpar hslot hcl hctx
  exact ⟨rfl, rfl, rfl, rfl, rfl⟩

theorem eligibleCores_lt {s : State} {n c : Nat} {rt : Bool} (h : c ∈ eligibleCores s n rt) : c < 256 := by
  unfold eligibleCores coresOf at h
  obtain ⟨q, hq, hc⟩ := List.mem_flatMap.1 h
  have hs : q ∈ slotQuads s n := by
    unfold eligibleQuads at hq
    have hq := (List.mem_filter.1 hq).1
    split at hq
    · exact List.mem_of_mem_take hq
    · exact List.mem_of_mem_drop hq
  have hlt : q < 64 := List.mem_range.1 (List.mem_filter.1 hs).1
  simp only [List.mem_cons, List.not_mem_nil, or_false] at hc
  omega

theorem clustersOf_ne_nil {s : State} {n : Nat} {rt : Bool} (h : eligibleCores s n rt ≠ []) :
    clustersOf (eligibleCores s n rt) ≠ [] := by
  obtain ⟨c, hc⟩ := List.exists_mem_of_ne_nil _ h
  have hlt := eligibleCores_lt hc
  refine List.ne_nil_of_mem (a := c / 16) (List.mem_filter.2 ⟨List.mem_range.2 (by omega), ?_⟩)
  exact List.any_eq_true.2 ⟨c, hc, by simp⟩

/-- A new pass with primitives and a binner does not end its binning at once. -/
theorem newPass_bins {q n c : Nat} {i : W32} {node : Option Nat} {rt : Bool} {w : W512} {par : List Byte} {cl : List Nat}
    (hcl : cl ≠ []) (hn : pNprim (newPass q i node n c rt w par cl) ≠ 0) :
    (afterBinning (newPass q i node n c rt w par cl)).stage = .binning := by
  generalize hp : newPass q i node n c rt w par cl = p at hn
  have hb : p.binners = (List.range cl.length).map fun b => { next := 1024 * b, failed := none, lists := [] } := by
    rw [← hp]
    rfl
  have hst : p.stage = .binning := by
    rw [← hp]
    rfl
  have hmem : ({ next := 1024 * 0, failed := none, lists := [] } : Binner) ∈ p.binners := by
    rw [hb]
    exact List.mem_map_of_mem (List.mem_range.2 (List.length_pos_iff.2 hcl))
  have hov : pOverflow p = pNprim p := by
    unfold pOverflow
    rw [hb, List.foldl_map]
    dsimp only
    exact List.foldl_fixed _
  unfold afterBinning
  rw [if_pos]
  · exact hst
  · refine .inr ?_
    rw [Bool.not_eq_true', List.all_eq_false]
    exact ⟨_, hmem, by simp [binnerDone, hov]; omega⟩

section Start

variable {s u v : State} {w : Work} {x : Queue} {pay : W512} {be : Bool} {n : Nat} {par : List Byte} {p : Pass}
  (h : beginWork s w.q.val w.i (w.node.map (·.val)) 0x20 = (u, .go x pay be)) (hn : queueSlot u w.q.val x = some n)
  (he : eligibleCores u n (x.rt && !be) ≠ [])
  (hv : vread u (feWho u w.q.val x) (bits pay 127 64) (128 + 64 * (clamp 0 8 (bits pay 167 164) + bits pay 168 168 + bits pay 169
    169)) = (v, some par))
  (hpay : p.pay = pay) (hpar : p.par = par) (hctx : p.ctx = x.ctx) (hslot : p.slot = n)
  (hcl : p.clusters = clustersOf (eligibleCores u n (x.rt && !be)))

include h hn he hv in
theorem startPass_places {r : Pass} {z : State} (hr : r = newPass w.q.val w.i (w.node.map (·.val)) n x.ctx (x.rt && !be) pay par
    (clustersOf (eligibleCores u n (x.rt && !be)))) (hgood : passBad v r = false)
    (hz : vwrite v (rasWho r (binSite v r 0)) (pBinArea r)
      ((List.range (pCount r * pNb r)).flatMap fun _ => toLE 4 0xFFFFFFFF ++ toLE 4 0) = (z, true)) :
    startPass s w.q.val w.i (w.node.map (·.val)) = addPass z w.q.val w.i (w.node.map (·.val)) r := by
  subst hr
  unfold startPass
  simp only [h, hn]
  rw [if_neg (by simpa using he), hv]
  simp only [newPass, clustersOf] at hgood hz ⊢
  simp only [hgood, hz]
  rfl

include h hn he hv hpay hpar hslot hcl

theorem renderPass_bad (hbad : passBad v p = true) : Answers (.renderPass w) s (WorkEnded w 0x11 s) := by
  obtain ⟨hb, ha⟩ := beginWork_begun h
  have hmv := vread_some hv
  have hpb := (passBad_congr (s := v) (r := newPass w.q.val w.i (w.node.map (·.val)) n x.ctx (x.rt && !be) pay par
    (clustersOf (eligibleCores u n (x.rt && !be)))) hpay.symm hpar.symm hslot.symm hcl.symm).trans hbad
  have ht : startPass s w.q.val w.i (w.node.map (·.val)) = endWork v w.q.val w.i (w.node.map (·.val)) 0x11 := by
    unfold startPass
    simp only [h, hn]
    rw [if_neg (by simpa using he), hv]
    exact if_pos hpb
  exact ⟨_, congrArg Host.Outcome.next ht, (endWork_ended (ha.moved hmv) (by decide)).begun (hb.moved hmv)⟩

include hctx

theorem renderPass_starts {z : State} (hgood : passBad v p = false)
    (hz : vwrite v (rasWho p (binSite v p 0)) (pBinArea p)
      ((List.range (pCount p * pNb p)).flatMap fun _ => toLE 4 0xFFFFFFFF ++ toLE 4 0) = (z, true)) :
    Answers (.renderPass w) s fun t => ∃ y, tget t.ras.passes s.cores.nextId = some y ∧ WorkAt w .started t ∧
      y.pay = pay ∧ y.par = par ∧ y.ctx = x.ctx ∧ y.slot = n ∧ y.clusters = p.clusters ∧ y.nextTile = 0 ∧ y.stored = 0 ∧
      y.tiles = [] ∧ y.binners.length = pNb p ∧ (pNprim p ≠ 0 → y.stage = .binning) ∧ t.fab = z.fab ∧
      t.cores.nextId = s.cores.nextId + 1 := by
  obtain ⟨hb, ha⟩ := beginWork_begun h
  have hmz : Only [.mmu, .fab, .free] u z := (vread_some hv).trans (vwrite_true hz)
  have hcz : z.cores = s.cores := (hb.moved hmz).only .cores (by decide)
  have hne := clustersOf_ne_nil he
  obtain ⟨r, hr⟩ : ∃ r, r = newPass w.q.val w.i (w.node.map (·.val)) n x.ctx (x.rt && !be) pay par
    (clustersOf (eligibleCores u n (x.rt && !be))) := ⟨_, rfl⟩
  have h1 : r.pay = p.pay := by rw [hr, hpay]; rfl
  have h2 : r.par = p.par := by rw [hr, hpar]; rfl
  have h3 : r.slot = p.slot := by rw [hr, hslot]; rfl
  have h4 : r.clusters = p.clusters := by rw [hr, hcl]; rfl
  have hgr := (passBad_congr (s := v) h1 h2 h3 h4).trans hgood
  obtain ⟨c1, c2, c3, c4, c5⟩ := heads_congr (s := v) h1 h2 h3 h4 (by rw [hr, hctx]; rfl)
  rw [← c1, ← c2, ← c3, ← c4] at hz
  have ht := startPass_places h hn he hv hr hgr hz
  obtain ⟨p1, p2, p3, p4⟩ := addPass_leaves (ha.moved hmz) r
  rw [hcz] at p1 p4
  obtain ⟨g, k, hg⟩ := afterBinning_keeps r
  refine ⟨_, congrArg Host.Outcome.next ht, _, p1, p2, ?_, ?_, ?_, ?_, ?_, ?_, ?_, ?_, ?_, fun hp => ?_, p3, p4⟩
  case refine_10 =>
    subst hr
    exact newPass_bins hne (by rwa [c5])
  all_goals rw [hg]
  · exact h1.trans hpay
  · exact h2.trans hpar
  · rw [hr]
    rfl
  · exact h3.trans hslot
  · exact h4
  · rw [hr]
    rfl
  · rw [hr]
    rfl
  · rw [hr]
    rfl
  · rw [← c4, hr]
    exact (List.length_map _).trans List.length_range

end Start

end Sys2Proof.Machine
end

section
/-! Proofs: PRIMITIVE_BIN (spec/12 R366 to R372). -/

namespace Sys2Proof.Machine

/-- A primitive that is read leaves the fabric and the translations changed, if anything. -/
theorem readPrim_some {s t : State} {p : Pass} {u : Site} {i : Nat} {e : W512 × W512} (h : readPrim s p u i = (t, some e)) :
    Only [.mmu, .fab, .free] s t := by
  unfold readPrim at h
  split at h
  · cases h
  · rename_i hr
    dsimp only at h
    split at h
    · cases h
      exact vnat_some hr
    · split at h
      · cases h
      · rename_i hst
        cases h
        exact (vnat_some hr).trans (vnat_some hst)

theorem countVerdict_leaves (s : State) (v : Verdict) : Only [.ras] s (countVerdict s v) ∧
    (countVerdict s v).ras.passes = s.ras.passes ∧
    (countVerdict s v).ras.invalid = (if v = .invalid then min 0xFFFF (s.ras.invalid + 1) else s.ras.invalid) ∧
    (countVerdict s v).ras.culled = (if v = .culled then min 0xFFFF (s.ras.culled + 1) else s.ras.culled) ∧
    (countVerdict s v).ras.degenerate = (if v = .degenerate then min 0xFFFF (s.ras.degenerate + 1) else s.ras.degenerate) := by
  cases v <;> exact ⟨fun k hk => by cases k <;> first | (simp at hk; done) | rfl, rfl, rfl, rfl, rfl⟩

theorem appendEntry_binners {p p' : Pass} {b i t : Nat} {l l' : Nat × Nat × Nat} {v : List (Nat × List Byte)}
    (h : appendEntry p b i t l = some (p', l', v)) : p'.binners = p.binners := by
  unfold appendEntry at h
  dsimp only at h
  split at h
  · cases h
    rfl
  · split at h <;> cases h
    rfl

/-- Entries in the lists of tiles leave the pass's binners. -/
theorem appendAll_binners {b i : Nat} {ts : List Nat} {p p' : Pass} {x y : Binner} {w w' : List (Nat × List Byte)}
    (h : appendAll b i ts p x w = (p', y, w')) : p'.binners = p.binners := by
  induction ts generalizing p x w with
  | nil =>
    cases h
    rfl
  | cons t ts ih =>
    rw [appendAll] at h
    split at h
    · cases h
      rfl
    · rename_i he
      exact (ih h).trans (appendEntry_binners he)

section Bin

variable {s u : State} {id : Nat} {b : Fin 16} {stall : Stall} {p : Pass} {x : Binner} {r st : W512}
  (hp : tget s.ras.passes id = some p) (hx : p.binners[b.val]? = some x) (hst : p.stage = .binning) (hd : binnerDone p x = false)
  (hon : IsOn s (domCluster (p.clusters.getD b.val 0)))
  (hr : readPrim (addStall s p.slot .pricking stall) p (binSite (addStall s p.slot .pricking stall) p b.val) x.next =
    (u, some (r, st)))

/-- The machine as a binner ends a primitive. -/
def primDone (s : State) (id : Nat) (v : Verdict) (k : Nat) (p : Pass) : State :=
  binningEnd (setPass (moves (countVerdict s v) (clusterRef k)) id p) id

theorem primDone_leaves (s : State) (id : Nat) (v : Verdict) (k : Nat) (p : Pass) :
    tget (primDone s id v k p).ras.passes id = some (afterBinning p) ∧
    SameVerdicts (countVerdict s v).ras (primDone s id v k p).ras ∧ (primDone s id v k p).fab = s.fab := by
  obtain ⟨h1, h2, h3⟩ := binned_leaves (moves (countVerdict s v) (clusterRef k)) id p
  have h4 := moves_only (countVerdict s v) (clusterRef k)
  have h5 := (countVerdict_leaves s v).1
  rw [show (moves (countVerdict s v) (clusterRef k)).ras = (countVerdict s v).ras from h4 .ras (by decide)] at h2
  exact ⟨h1, h2, ((h3 .fab (by decide)).trans (h4 .fab (by decide))).trans (h5 .fab (by decide))⟩

include hp hx hst hd hon hr

theorem primitiveBin_done {p' : Pass} {y : Binner} {ws : List (Nat × List Byte)} {z : State}
    (ha : appendAll b.val x.next
      (if primVerdict p r st = .keep then (List.range (pCount p)).filter fun t => meetsTile p r (pFirst p + t) else []) p
      { x with next := nextPrimOf p x.next } [] = (p', y, ws))
    (hz : vwriteAll u (rasWho p (binSite u p b.val)) ws = (z, true)) :
    exec (.primitiveBin id b stall .none) s = .next (primDone z id (primVerdict p r st) (p.clusters.getD b.val 0)
      { p' with binners := p.binners.set b.val y }) := by
  have hready : binReady s id b.val = some (p, x) := by
    unfold binReady
    rw [hp]
    dsimp only
    rw [hx]
    exact if_neg (by simp [hst, hd])
  have ht : primitiveBin s id b.val stall = primDone z id (primVerdict p r st) (p.clusters.getD b.val 0)
      { p' with binners := p'.binners.set b.val y } := by
    unfold primitiveBin
    rw [hready]
    dsimp only
    rw [reachDom_on hon]
    dsimp only
    rw [hr]
    dsimp only
    rw [ha]
    dsimp only
    rw [hz]
    rfl
  rw [appendAll_binners ha] at ht
  exact congrArg Host.Outcome.next (by rw [onUnit_none]; exact ht)

theorem primitiveBin_drops (hv : primVerdict p r st ≠ .keep) :
    Answers (.primitiveBin id b stall .none) s fun t => ∃ y, tget t.ras.passes id = some y ∧
      y.binners[b.val]? = some { x with next := nextPrimOf p x.next } ∧ y.nextChunk = p.nextChunk ∧ t.fab = u.fab ∧
      t.ras.invalid = (if primVerdict p r st = .invalid then min 0xFFFF (s.ras.invalid + 1) else s.ras.invalid) ∧
      t.ras.culled = (if primVerdict p r st = .culled then min 0xFFFF (s.ras.culled + 1) else s.ras.culled) ∧
      t.ras.degenerate = (if primVerdict p r st = .degenerate then min 0xFFFF (s.ras.degenerate + 1) else s.ras.degenerate) := by
  have ht := primitiveBin_done hp hx hst hd hon hr (p' := p) (y := { x with next := nextPrimOf p x.next }) (ws := []) (z := u)
    (by rw [if_neg hv]; rfl) rfl
  obtain ⟨h1, h2, h3⟩ := primDone_leaves u id (primVerdict p r st) (p.clusters.getD b.val 0)
    { p with binners := p.binners.set b.val { x with next := nextPrimOf p x.next } }
  obtain ⟨hi, hc, hdg⟩ := h2
  obtain ⟨-, -, c1, c2, c3⟩ := countVerdict_leaves u (primVerdict p r st)
  have hru : u.ras = s.ras := ((readPrim_some hr) .ras (by decide)).trans (addStall_only _ _ _ _ .ras (by decide))
  rw [hru] at c1 c2 c3
  have hlt : b.val < p.binners.length := (List.getElem?_eq_some_iff.1 hx).1
  obtain ⟨g, k, hg⟩ := afterBinning_keeps { p with binners := p.binners.set b.val { x with next := nextPrimOf p x.next } }
  refine ⟨_, ht, _, h1, ?_, ?_, h3, hi.trans c1, hc.trans c2, hdg.trans c3⟩ <;> rw [hg]
  exact List.getElem?_set_self hlt

theorem primitiveBin_keeps {p' : Pass} {y : Binner} {ws : List (Nat × List Byte)} {z : State} (hv : primVerdict p r st = .keep)
    (ha : appendAll b.val x.next ((List.range (pCount p)).filter fun t => meetsTile p r (pFirst p + t)) p
      { x with next := nextPrimOf p x.next } [] = (p', y, ws))
    (hz : vwriteAll u (rasWho p (binSite u p b.val)) ws = (z, true)) :
    Answers (.primitiveBin id b stall .none) s fun t => ∃ y', tget t.ras.passes id = some y' ∧ y'.binners[b.val]? = some y ∧
      y'.nextChunk = p'.nextChunk ∧ t.fab = z.fab := by
  have ht := primitiveBin_done hp hx hst hd hon hr (by rw [if_pos hv]; exact ha) hz
  obtain ⟨h1, -, h3⟩ := primDone_leaves z id (primVerdict p r st) (p.clusters.getD b.val 0)
    { p' with binners := p.binners.set b.val y }
  have hlt : b.val < p.binners.length := (List.getElem?_eq_some_iff.1 hx).1
  obtain ⟨g, k, hg⟩ := afterBinning_keeps { p' with binners := p.binners.set b.val y }
  refine ⟨_, ht, _, h1, ?_, ?_, h3⟩ <;> rw [hg]
  exact List.getElem?_set_self hlt

end Bin

end Sys2Proof.Machine
end

section
/-! Proofs: tiles are placed, loaded and stored (spec/12 R373, R374, R381). -/

namespace Sys2Proof.Machine

/-! ## TILE_PLACE (R373) -/

/-- Local memory of a core given to a tile. -/
def useTile (s : State) (core base kib id : Nat) : State :=
  { s with cores := { s.cores with lmUse := s.cores.lmUse ++ [{ core := core, base := base, kib := kib, tile := true, owner := id }] } }

theorem useTile_leaves (s : State) (core base kib id : Nat) :
    (useTile s core base kib id).ras = s.ras ∧ Only [.cores] s (useTile s core base kib id) := ⟨rfl, cores_only rfl⟩

/-- The next tile of a pass, placed on a core with its local memory. -/
def newTile (p : Pass) (core base : Nat) : Tile :=
  { ord := pFirst p + p.nextTile, core := core, lmBase := base, stage := .loading, list := none, nextPrim := 0, nextBlk := 0,
    waiting := [], running := [] }

theorem tilePlaces {s : State} {id core : Nat} {p : Pass} (hp : tget s.ras.passes id = some p) (hst : p.stage = .tiles)
    (hn : p.nextTile < pCount p) (hm : mayStart s = true) (hc : (eligibleCores s p.slot p.rt).find? (tileRoom s p) = some core)
    (hon : IsOn s (domQuad (core / 4))) :
    Answers (.tilePlace id) s fun t => ∃ tl,
      tget t.ras.passes id = some { p with nextTile := p.nextTile + 1, tiles := p.tiles ++ [tl] } ∧
      tl.ord = pFirst p + p.nextTile ∧ tl.core = core ∧ tl.stage = .loading ∧ lmFind s p.slot core (pTileMem p) = some tl.lmBase ∧
      Only [.cores, .ras] s t := by
  have hroom := List.find?_some hc
  obtain ⟨base, hb⟩ : ∃ base, lmFind s p.slot core (pTileMem p) = some base := by
    unfold tileRoom at hroom
    exact Option.isSome_iff_exists.1 (Bool.and_eq_true_iff.1 hroom).2
  have ht : tilePlace s id = setPass (useTile s core base (pTileMem p) id) id
      { p with nextTile := p.nextTile + 1, tiles := p.tiles ++ [newTile p core base] } := by
    unfold tilePlace
    rw [hp]
    dsimp only
    rw [if_neg (by simp [hst, hm, hn]), hc]
    dsimp only
    rw [reachDom_on hon]
    dsimp only
    rw [hb]
    rfl
  obtain ⟨h1, h2⟩ := useTile_leaves s core base (pTileMem p) id
  generalize useTile s core base (pTileMem p) id = u at ht h1 h2
  obtain ⟨h3, h4⟩ := setPass_leaves u id
    { p with nextTile := p.nextTile + 1, tiles := p.tiles ++ [newTile p core base] }
  exact ⟨_, congrArg Host.Outcome.next ht, _, by rw [h3]; exact tget_tset_same _ _ _, rfl, rfl, rfl, hb,
    (h2.mono (by simp)).trans (h4.mono (by simp))⟩

/-! ## TILE_LOAD_DONE (R374) -/

theorem tileLoads {s u : State} {id ord : Nat} {p : Pass} {tl : Tile} (hp : tget s.ras.passes id = some p)
    (htl : tileOf p ord = some tl) (hst : tl.stage = .loading) (hno : ∀ v ∈ p.tiles, v.core = tl.core → v.stage ≠ .shading)
    (hl : ((pAtts p).foldl (fun (r : State × Bool) a => if r.2 then loadPlane p tl r.1 a else r) (s, true)) = (u, true)) :
    exec (.tileLoadDone id ord) s = .next (setPass (moves u (quadRef (tl.core / 4))) id (putTile p
        { tl with stage := .shading })) := by
  refine congrArg Host.Outcome.next ?_
  unfold tileLoadDone
  rw [hp]
  dsimp only
  rw [htl]
  dsimp only
  rw [if_neg, hl]
  rintro (h | h)
  · exact h hst
  · obtain ⟨v, hv, hs⟩ := List.any_eq_true.1 h
    obtain ⟨hc, hsh⟩ := Bool.and_eq_true_iff.1 hs
    exact hno v hv (by simpa using hc) (by simpa using hsh)

/-! ## TILE_STORE_DONE (R381) -/

/-- The machine when a tile's local memory is free again. -/
def freeTile (s : State) (id : Nat) (tl : Tile) : State :=
  { s with cores := { s.cores with
    lmUse := s.cores.lmUse.filter fun u => !(u.tile && u.owner == id && u.core == tl.core && u.base == tl.lmBase) } }

/-- A pass with one more tile stored. -/
def storedTile (p : Pass) (ord : Nat) : Pass := { p with stored := p.stored + 1, tiles := p.tiles.filter fun u => u.ord != ord }

def delPass (s : State) (id : Nat) : State := { s with ras := { s.ras with passes := tdel s.ras.passes id } }

theorem delPass_leaves (s : State) (id : Nat) : tget (delPass s id).ras.passes id = none ∧ Only [.ras] s (delPass s id) :=
  ⟨tget_tdel_same _ _, fun k hk => by cases k <;> first | (simp at hk; done) | rfl⟩

theorem passAfter_stays {s : State} {id : Nat} {p : Pass} (hp : tget s.ras.passes id = some p) (h : p.stored < pCount p) :
    passAfter s id = s := by
  unfold passAfter
  rw [hp]
  exact if_pos h

theorem passAfter_ends {s : State} {id : Nat} {p : Pass} (hp : tget s.ras.passes id = some p) (h : ¬p.stored < pCount p) :
    passAfter s id = finishWork (delPass s id) p.q p.i p.node 0 := by
  unfold passAfter
  rw [hp]
  exact if_neg h

section Store

variable {s u : State} {id ord : Nat} {p : Pass} {tl : Tile} (hp : tget s.ras.passes id = some p) (htl : tileOf p ord = some tl)
  (hst : tl.stage = .storing) (hv : vwriteAll s (rasWho p (tileSite tl)) ((pAtts p).flatMap (storePlane s p tl)) = (u, true))

include hp htl hst hv

/-- The step up to the pass's end. -/
theorem tileStoreDone_stores : ∃ z, tget z.ras.passes id = some (storedTile p ord) ∧ z.fab = u.fab ∧
    Only [.mmu, .fab, .free, .cores, .flt, .ras] s z ∧ tileStoreDone s id ord = passAfter z id := by
  have ht : tileStoreDone s id ord =
      passAfter (setPass (moves (freeTile u id tl) (quadRef (tl.core / 4))) id (storedTile p ord)) id := by
    unfold tileStoreDone
    rw [hp]
    dsimp only
    rw [htl]
    dsimp only
    rw [if_neg (by simp [hst]), hv]
    rfl
  have h1 : Only [.cores] u (freeTile u id tl) := cores_only rfl
  have h2 := moves_only (freeTile u id tl) (quadRef (tl.core / 4))
  obtain ⟨h3, h4⟩ := setPass_leaves (moves (freeTile u id tl) (quadRef (tl.core / 4))) id (storedTile p ord)
  have h5 : Only [.cores, .flt, .ras] u (setPass (moves (freeTile u id tl) (quadRef (tl.core / 4))) id (storedTile p ord)) :=
    (h1.mono (by simp)).trans ((h2.mono (by simp)).trans (h4.mono (by simp)))
  exact ⟨_, by rw [h3]; exact tget_tset_same _ _ _, h5 .fab (by decide),
    ((vwriteAll_true hv).mono (by simp)).trans (h5.mono (by simp)), ht⟩

theorem tileStores : Answers (.tileStoreDone id ord) s fun t => t.fab = u.fab ∧
    (p.stored + 1 < pCount p → tget t.ras.passes id =
      some { p with stored := p.stored + 1, tiles := p.tiles.filter fun v => v.ord != ord }) ∧
    (pCount p ≤ p.stored + 1 → tget t.ras.passes id = none ∧
      ∀ w : Work, w.q.val = p.q → w.i = p.i → w.node.map (·.val) = p.node → WorkAt w .started s → WorkAt w (.finished 0) t) := by
  obtain ⟨z, hz, hf, ho, ht⟩ := tileStoreDone_stores hp htl hst hv
  by_cases h : p.stored + 1 < pCount p
  · rw [passAfter_stays hz h] at ht
    exact ⟨z, congrArg Host.Outcome.next ht, hf, fun _ => hz, fun h' => absurd h (Nat.not_lt.2 h')⟩
  · rw [passAfter_ends hz h] at ht
    obtain ⟨h1, h2⟩ := delPass_leaves z id
    generalize delPass z id = y at ht h1 h2
    have h3 := finishWork_only y (storedTile p ord).q (storedTile p ord).i (storedTile p ord).node 0
    refine ⟨_, congrArg Host.Outcome.next ht, ((h3 .fab (by decide)).trans (h2 .fab (by decide))).trans hf,
      fun h' => absurd h' h, fun _ => ⟨?_, fun w hq hi hn hw => ?_⟩⟩
    · rw [show (finishWork y (storedTile p ord).q (storedTile p ord).i (storedTile p ord).node 0).ras = y.ras from
        h3 .ras (by decide), h1]
    · have hoy : Only [.mmu, .fab, .free, .cores, .flt, .ras] s y := ho.trans (h2.mono (by simp))
      have hf := finishWork_at 0 (hw.congr (t := y) (hoy .obj (by decide)) (hoy .regs (by decide)))
      rw [hq, hi, hn] at hf
      exact hf

end Store

end Sys2Proof.Machine
end

section
/-! Proofs: BATCH_DISPATCH and FRAGMENT_GROUP_START (spec/12 R379, R380). -/

namespace Sys2Proof.Machine

/-! ## BATCH_DISPATCH -/

theorem tileOf_ord {p : Pass} {ord : Nat} {tl : Tile} (h : tileOf p ord = some tl) : tl.ord = ord := by
  simpa using List.find?_some h

theorem settleTile_keeps (t : Tile) : ∃ g, settleTile t = { t with stage := g } := by
  unfold settleTile
  split
  · split
    · exact ⟨_, rfl⟩
    · exact ⟨_, rfl⟩
  · exact ⟨_, rfl⟩

/-- A tile whose batch's early tests have left a cover: it runs if a sample is covered and there is a program for it. -/
def sentTile (tl : Tile) (b : Batch) (cover : List Nat) : Tile :=
  if cover.any (· != 0) && bits b.st 511 448 != 0 then { tl with running := tl.running ++ [{ b with cover := cover }] } else tl

theorem sentTile_settles (tl : Tile) (b : Batch) (cover : List Nat) :
    let z := settleTile (sentTile tl b cover)
    z.ord = tl.ord ∧ z.waiting = tl.waiting ∧ z.nextPrim = tl.nextPrim ∧
      z.running = (if cover.any (· != 0) && bits b.st 511 448 != 0 then tl.running ++ [{ b with cover := cover }] else
          tl.running) := by
  obtain ⟨g, hg⟩ := settleTile_keeps (sentTile tl b cover)
  dsimp only
  rw [hg]
  unfold sentTile
  split <;> exact ⟨rfl, rfl, rfl, rfl⟩

/-- What a dispatch leaves of the tile and of the cores. -/
theorem dispatch_sends (u : State) (id : Nat) {p : Pass} {ord : Nat} {tl tl' : Tile} (b : Batch) (h : tileOf p ord = some tl)
    (ho : tl'.ord = ord) : ∃ y v cover, earlyTests u p tl' b.rec' b.st b.blk b.cover = (v, cover) ∧
      tget (dispatch u id p tl' b).ras.passes id = some y ∧ (dispatch u id p tl' b).cores = v.cores ∧
      ∃ z, tileOf y ord = some z ∧ z.waiting = tl'.waiting ∧ z.nextPrim = tl'.nextPrim ∧
        z.running = (if cover.any (· != 0) && bits b.st 511 448 != 0 then tl'.running ++ [{ b with cover := cover }]
          else tl'.running) := by
  generalize he : earlyTests u p tl' b.rec' b.st b.blk b.cover = r
  obtain ⟨v, cover⟩ := r
  have hd : dispatch u id p tl' b = setPass v id (putTile p (settleTile (sentTile tl' b cover))) := by
    unfold dispatch
    rw [he]
    rfl
  obtain ⟨h1, h2⟩ := setPass_leaves v id (putTile p (settleTile (sentTile tl' b cover)))
  obtain ⟨hord, hwait, hprim, hrun⟩ := sentTile_settles tl' b cover
  rw [hd]
  exact ⟨_, v, cover, rfl, by rw [h1]; exact tget_tset_same _ _ _, h2 .cores (by decide), _,
    tileOf_putTile h (hord.trans ho), hwait, hprim, hrun⟩

/-- The rasterizer's search for a batch leaves the tile's ordinal. -/
theorem nextBatch_ord {id n : Nat} {s t : State} {p : Pass} {tl tl' : Tile} {l : List Nat} {nb : Option Batch} {e : Bool}
    (h : nextBatch id n s p tl l = (t, tl', nb, e)) : tl'.ord = tl.ord := by
  induction n generalizing s tl with
  | zero =>
    cases h
    rfl
  | succ n ih =>
    rw [nextBatch] at h
    split at h
    · cases h
      rfl
    · split at h
      · cases h
        rfl
      · dsimp only at h
        split at h
        · have h := ih h
          exact h
        · cases h
          rfl

section Batch

variable {s : State} {id ord : Nat} {stall : Stall} {p : Pass} {tl : Tile} (hp : tget s.ras.passes id = some p)
  (htl : tileOf p ord = some tl) (hst : tl.stage = .shading) (hon : IsOn s (domCluster (tl.core / 16)))

/-- The machine when a rasterizer takes up a tile. -/
def rasterAt (s : State) (p : Pass) (tl : Tile) (stall : Stall) : State :=
  moves (addStall s p.slot .raster stall) (clusterRef (tl.core / 16))

include hp htl hst

theorem shadedTile_some : shadedTile s id ord = some (p, tl) := by
  unfold shadedTile
  rw [hp]
  dsimp only
  rw [htl]
  exact if_neg (by simp [hst])

include hon

theorem batchDispatch_ready {b : Batch} {rest : List Batch} (hr : readyBatch tl.running [] tl.waiting = some (b, rest)) :
    exec (.batchDispatch id ⟨ord, .none⟩ stall) s = .next (dispatch (rasterAt s p tl stall) id p { tl with waiting := rest } b) :=
        by
  refine congrArg Host.Outcome.next ((onUnit_none _ _ _ _).trans ?_)
  unfold batchDispatch
  rw [shadedTile_some hp htl hst]
  dsimp only
  rw [reachDom_on hon]
  dsimp only
  rw [hr]
  rfl

theorem batchDispatch_next {u v : State} {l : List Nat} {tl' : Tile} {nb : Option Batch}
    (hr : readyBatch tl.running [] tl.waiting = none) (hw : tl.waiting.length < 16)
    (hl : tl.list = some l ∧ u = rasterAt s p tl stall ∨ tl.list = none ∧
      readTileList (rasterAt s p tl stall) p (tileSite tl) ord = (u, some l))
    (hn : nextBatch id (l.length + 1) u p { tl with list := some l } l = (v, tl', nb, true)) :
    exec (.batchDispatch id ⟨ord, .none⟩ stall) s = .next (nb.elim (setPass v id (putTile p (settleTile tl'))) fun b =>
      if blkFree (tl'.running ++ tl'.waiting) b.blk then dispatch v id p tl' b
      else setPass v id (putTile p { tl' with waiting := tl'.waiting ++ [b] })) := by
  refine congrArg Host.Outcome.next ((onUnit_none _ _ _ _).trans ?_)
  unfold batchDispatch
  rw [shadedTile_some hp htl hst]
  dsimp only
  rw [reachDom_on hon]
  dsimp only
  rw [hr]
  dsimp only
  rw [if_neg (Nat.not_le.2 hw)]
  rcases hl with ⟨h1, rfl⟩ | ⟨h1, h2⟩
  · rw [h1]
    dsimp only
    rw [show moves (addStall s p.slot .raster stall) (clusterRef (tl.core / 16)) = rasterAt s p tl stall from rfl, hn]
    cases nb <;> rfl
  · rw [h1]
    dsimp only
    rw [show moves (addStall s p.slot .raster stall) (clusterRef (tl.core / 16)) = rasterAt s p tl stall from rfl, h2]
    dsimp only
    rw [hn]
    cases nb <;> rfl

end Batch

end Sys2Proof.Machine
end

section
/-! Proofs: FRAGMENT_GROUP_START (spec/12 R380). -/

namespace Sys2Proof.Machine

/-! ## The registers of a fragment group -/

/-- Numbers written to a lane's consecutive registers are read back from them. -/
theorem rd_wrList (vs : List Nat) (g : Group) (a l d k : Nat) (ha : a < 32) (hl : l < 32) :
    let h := (vs.zipIdx d).foldl (fun g e => wr g a e.2 (BitVec.ofNat 32 e.1)) g
    rd h l k = (if l = a ∧ d ≤ k ∧ k < d + vs.length ∧ k < g.nregs then BitVec.ofNat 32 (vs.getD (k - d) 0) else rd g l k) ∧
      RegsOnly g h := by
  induction vs generalizing g d with
  | nil => exact ⟨by rw [if_neg (by simp; omega)]; rfl, rfl⟩
  | cons v vs ih =>
    obtain ⟨h1, h2⟩ := rd_wr g a l d k (BitVec.ofNat 32 v) ha hl
    obtain ⟨h3, h4⟩ := ih (wr g a d (BitVec.ofNat 32 v)) (d + 1)
    have hn : (wr g a d (BitVec.ofNat 32 v)).nregs = g.nregs := congrArg (·.nregs) h2
    dsimp only at h3 h4 ⊢
    rw [List.zipIdx_cons, List.foldl_cons]
    refine ⟨?_, h2.trans h4⟩
    rw [h3, h1, hn, List.length_cons]
    by_cases hk : k = d
    · subst hk
      rw [if_neg (by omega)]
      by_cases hc : l = a ∧ k < g.nregs
      · rw [if_pos ⟨hc.1, rfl, hc.2⟩, if_pos ⟨hc.1, le_rfl, by omega, hc.2⟩, Nat.sub_self, List.getD_cons_zero]
      · rw [if_neg (by tauto), if_neg (by tauto)]
    · by_cases hc : l = a ∧ d ≤ k ∧ k < d + (vs.length + 1) ∧ k < g.nregs
      · rw [if_pos (by omega), if_pos hc, show k - d = k - (d + 1) + 1 by omega, List.getD_cons_succ]
      · rw [if_neg (by omega), if_neg (by omega), if_neg hc]

/-- A register that every lane of some is given in its list. -/
theorem rd_wrLists (ls : List Nat) (hls : ∀ a ∈ ls, a < 32) (f : Nat → List Nat) (g : Group) :
    let h := ls.foldl (fun g i => (f i).zipIdx.foldl (fun g e => wr g i e.2 (BitVec.ofNat 32 e.1)) g) g
    RegsOnly g h ∧ ∀ l k, l < 32 → (∀ a ∈ ls, k < (f a).length) → k < g.nregs →
      rd h l k = if l ∈ ls then BitVec.ofNat 32 ((f l).getD k 0) else rd g l k := by
  induction ls generalizing g with
  | nil => exact ⟨rfl, fun l k _ _ _ => by simp⟩
  | cons a ls ih =>
    have ha := hls a (by simp)
    have hr := (rd_wrList (f a) g a 0 0 0 ha (by omega)).2
    obtain ⟨h1, h2⟩ := ih (fun b hb => hls b (by simp [hb])) ((f a).zipIdx.foldl (fun g e => wr g a e.2 (BitVec.ofNat 32 e.1)) g)
    have hn := congrArg (·.nregs) hr
    dsimp only at hr hn h1 h2 ⊢
    refine ⟨hr.trans h1, fun l k hl hk hg => ?_⟩
    rw [List.foldl_cons, h2 l k hl (fun b hb => hk b (by simp [hb])) (by rw [hn]; exact hg), (rd_wrList (f a) g a l 0 k ha hl).1]
    by_cases hm : l ∈ ls
    · rw [if_pos hm, if_pos (by simp [hm])]
    · by_cases he : l = a
      · subst he
        have := hk l (by simp)
        rw [if_neg hm, if_pos ⟨rfl, Nat.zero_le k, by omega, hg⟩, if_pos (by simp), Nat.sub_zero]
      · rw [if_neg hm, if_neg (by tauto), if_neg (by simp [hm, he])]

theorem fragRegs_prim (base : Nat) (p : Pass) (ord : Nat) (b : Batch) (i : Nat) :
    (fragRegs base p ord b i).length = 8 ∧ (fragRegs base p ord b i).getD 1 0 = b.prim := ⟨rfl, rfl⟩

/-- A fragment group as it starts (R380). -/
theorem fragGroup_starts (base block : Nat) {nregs : Nat} (p : Pass) (ord : Nat) (b : Batch) (entry : W64) (hn : 8 ≤ nregs) :
    let g := fragGroup base block nregs p ord b entry
    g.block = block ∧ g.exited = deadLanes b ∧ (∀ l, l < 32 → rd g l 1 = BitVec.ofNat 32 b.prim) ∧ ∀ v ∈ g.subs, v.pc = entry := by
  obtain ⟨h1, h2⟩ := rd_wrLists (List.range 32) (fun a ha => List.mem_range.1 ha) (fragRegs base p ord b) (newGroup block 0 nregs
      entry)
  unfold fragGroup
  dsimp only at h1 h2 ⊢
  generalize (List.range 32).foldl (fun g i => (fragRegs base p ord b i).zipIdx.foldl (fun g e => wr g i e.2 (BitVec.ofNat 32 e.1))
      g)
    (newGroup block 0 nregs entry) = g at h1 h2
  have hb : g.block = block := congrArg (·.block) h1
  have hs : g.subs = (newGroup block 0 nregs entry).subs := congrArg (·.subs) h1
  refine ⟨hb, rfl, fun l hl => ?_, fun v hv => ?_⟩
  · have h := h2 l 1 hl (fun a _ => by rw [(fragRegs_prim base p ord b a).1]; decide) (by change 1 < nregs; omega)
    rw [if_pos (List.mem_range.2 hl), (fragRegs_prim base p ord b l).2] at h
    exact h
  · obtain ⟨u, hu, rfl⟩ := List.mem_map.1 hv
    rw [hs] at hu
    obtain rfl := List.mem_singleton.1 hu
    rfl

/-! ## The group's block and its place -/

/-- A group placed on a core stands among the core's groups. -/
theorem putGroup_leaves (s : State) (core regs : Nat) (g : Group) : ∃ k, k / 64 = core ∧
    tget (putGroup s core regs g).cores.groups k = some g ∧ (putGroup s core regs g).cores.blocks = s.cores.blocks ∧
    Only [.cores] s (putGroup s core regs g) := by
  have := freeGroupSlot_lt s core regs
  exact ⟨core * 64 + freeGroupSlot s core (bestQuarter s core regs), by omega, tget_tset_same _ _ _, rfl, cores_only rfl⟩

/-- The block of a fragment group. -/
def fragBlock (s : State) (id ord blk : Nat) (p : Pass) (t : Tile) (b : Batch) (base : Nat) : Block :=
  { run := id, core := t.core, cluster := s.cores.nextId, rank := 0, csize := 1, bx := 0, byy := 0, bz := 0,
    erank := rankOf (eligibleCores s p.slot p.rt) t.core, lmBase := base, lmKib := pFragKib p,
    ngroups := 1, nregs := pRegs p, arg := BitVec.ofNat 64 (pFragArg p), entry := BitVec.ofNat 64 (bits b.st 511 448),
    frag := some (id, ord, blk) }

/-- A block on its core, with its local memory and the numbers that its group draws. -/
def useFrag (s : State) (x : Block) (core base kib : Nat) : State :=
  drewN { s with cores := { s.cores with
    blocks := tset s.cores.blocks s.cores.nextId x, nextId := s.cores.nextId + 1
    lmUse := s.cores.lmUse ++ [{ core := core, base := base, kib := kib, tile := false, owner := s.cores.nextId }] } } 128

theorem useFrag_leaves (s : State) (x : Block) (core base kib : Nat) :
    tget (useFrag s x core base kib).cores.blocks s.cores.nextId = some x ∧ Only [.cores, .free] s (useFrag s x core base kib) :=
  ⟨tget_tset_same _ _ _, fun p hp => by cases p <;> first | (simp at hp; done) | rfl⟩

/-- A tile with the batch of a block under way. -/
def startedTile (t : Tile) (blk : Nat) : Tile :=
  { t with running := t.running.map fun c => if c.blk = blk ∧ !c.started then { c with started := true } else c }

theorem eight_le_pRegs (p : Pass) : 8 ≤ pRegs p := by
  unfold pRegs clamp
  omega

theorem fragmentStarts {s : State} {id ord : Nat} {blk : Fin 32} {p : Pass} {tl : Tile} {b : Batch} {base : Nat}
    (hp : tget s.ras.passes id = some p) (htl : tileOf p ord = some tl)
    (hb : (tl.running.find? fun b => b.blk = blk.val && !b.started) = some b) (hlm : lmFind s p.slot tl.core (pFragKib p) = some
        base)
    (hroom : coreRoom s tl.core (pRegs p) ≠ 0) :
    Answers (.fragmentGroupStart id ord blk) s fun t => ∃ x k g, tget t.cores.blocks s.cores.nextId = some x ∧
      x.frag = some (id, ord, blk.val) ∧ x.core = tl.core ∧ x.lmBase = base ∧ tget t.cores.groups k = some g ∧
      g.block = s.cores.nextId ∧ k / 64 = tl.core ∧ g.exited = deadLanes b ∧ (∀ l, l < 32 → rd g l 1 = BitVec.ofNat 32 b.prim) ∧
      (∀ v ∈ g.subs, v.pc = BitVec.ofNat 64 (bits b.st 511 448)) ∧ Only [.cores, .ras, .free] s t := by
  have ht : fragStart s id ord blk.val = setPass (putGroup (useFrag s (fragBlock s id ord blk.val p tl b base) tl.core base
      (pFragKib p))
      tl.core (pRegs p) (fragGroup s.free s.cores.nextId (pRegs p) p ord b (BitVec.ofNat 64 (bits b.st 511 448)))) id
      (putTile p (startedTile tl blk.val)) := by
    unfold fragStart
    rw [hp]
    dsimp only
    rw [htl]
    dsimp only
    rw [hb]
    dsimp only
    rw [hlm]
    dsimp only
    rw [if_neg hroom]
    rfl
  obtain ⟨g1, g2, g3, g4⟩ := fragGroup_starts s.free s.cores.nextId p ord b (BitVec.ofNat 64 (bits b.st 511 448)) (eight_le_pRegs p)
  generalize fragGroup s.free s.cores.nextId (pRegs p) p ord b (BitVec.ofNat 64 (bits b.st 511 448)) = g at ht g1 g2 g3 g4
  obtain ⟨u1, u2⟩ := useFrag_leaves s (fragBlock s id ord blk.val p tl b base) tl.core base (pFragKib p)
  generalize useFrag s (fragBlock s id ord blk.val p tl b base) tl.core base (pFragKib p) = u at ht u1 u2
  obtain ⟨k, k1, k2, k3, k4⟩ := putGroup_leaves u tl.core (pRegs p) g
  generalize putGroup u tl.core (pRegs p) g = v at ht k2 k3 k4
  obtain ⟨-, h2⟩ := setPass_leaves v id (putTile p (startedTile tl blk.val))
  generalize setPass v id (putTile p (startedTile tl blk.val)) = t at ht h2
  have hc : t.cores = v.cores := h2 .cores (by decide)
  refine ⟨t, congrArg Host.Outcome.next ht, fragBlock s id ord blk.val p tl b base, k, g, ?_, rfl, rfl, rfl, ?_, g1, k1, g2, g3, g4,
    (u2.mono (by simp)).trans ((k4.mono (by simp)).trans (h2.mono (by simp)))⟩
  · rw [hc, k3, u1]
  · rw [hc, k2]

end Sys2Proof.Machine

open Sys2Proof Sys2Proof.Machine

/-- Settles O58: each step of a pass from its start to the storing of its last tile. -/
theorem passesBinAndShade : Obligations.PassesBinAndShade := by
  unfold Obligations.PassesBinAndShade
  refine ⟨fun s u v w x pay be n par p h hn he hv hpay hpar hctx hslot hcl =>
      ⟨renderPass_bad h hn he hv hpay hpar hslot hcl, fun z => renderPass_starts h hn he hv hpay hpar hctx hslot hcl⟩,
    fun s u id b stall p x r st hp hx hst hd hon => ?_,
    fun s id core p => tilePlaces, fun s u id ord p tl => tileLoads,
    fun s id ord stall p tl hp htl hst hon => ?_,
    fun s id ord blk p tl b base => fragmentStarts, fun s u id ord p tl => tileStores⟩
  · intro _ hr
    exact ⟨primitiveBin_drops hp hx hst hd hon hr, fun p' y ws z => primitiveBin_keeps hp hx hst hd hon hr⟩
  · intro _ _
    have hord := tileOf_ord htl
    refine ⟨fun b rest hr => ?_, fun u l hr hw hl v tl' nb hn => ⟨fun b hnb hfree => ?_, fun hnb => ?_⟩⟩
    · exact ⟨_, batchDispatch_ready hp htl hst hon hr,
        dispatch_sends _ id (tl' := { tl with waiting := rest }) b htl hord⟩
    · subst hnb
      have ht := batchDispatch_next hp htl hst hon hr hw hl hn
      rw [Option.elim_some, if_pos hfree] at ht
      exact ⟨_, ht, dispatch_sends v id b htl ((nextBatch_ord hn).trans hord)⟩
    · subst hnb
      exact batchDispatch_next hp htl hst hon hr hw hl hn

end
